-- ==== Sys2Proof/Word.lean ====
section
/-! DEFINITION. The word and byte types of the device and its sparse tables. -/

namespace Sys2Proof

/-- A byte of the device address space (R8). -/
abbrev Byte := BitVec 8

/-- A register, a Rostin general register or an aligned 64-bit word (R11, R38). -/
abbrev Word := BitVec 64

/-- A sparse table: keys strictly rising, and no entry equal to what its key reads as when it is
not listed. `Tbl.get` and `Tbl.set` (Machine/Tbl.lean) are the only operations on it. -/
abbrev Tbl (α : Type) := List (Nat × α)

end Sys2Proof
end

