-- ==== Sys2Proof/Syntax.lean ====
section
/-! DEFINITION. The commands the device takes: one constructor per row of the opcode table, in the
table's order, with the operands the command carries. The operands of a command whose row the spec
calls a write of a register are the word written. What silicon faults, the board or a measurement
decide (bad lines, false hits, codes, rates) is an operand of the event concerned. -/

namespace Sys2Proof

/-- R317: a front port, named by its lowest lane. -/
abbrev Port := Fin 512
/-- R18: a loom. -/
abbrev LoomId := Fin 16
/-- R18: a Selvedge tile. -/
abbrev Tile := Fin 8
/-- R349: an HBM stack. -/
abbrev StackId := Fin 8
/-- R375: a time domain. -/
abbrev Dom := Fin 8
/-- R412: a hardware task. -/
abbrev TaskId := Fin 4096
/-- A packet in the device, numbered in order of arrival. -/
abbrev PktId := Nat

/-- R349: a channel of a stack. -/
structure ChanId where
  stack : StackId
  chan : Fin 32
deriving DecidableEq, Repr

/-- R37: who executes a Rostin instruction: the pick of a packet or a control thread. -/
inductive Ctx where
  | pick (p : PktId)
  | task (k : TaskId)
deriving DecidableEq, Repr

/-- R47: the fields of an instruction word besides its opcode. -/
structure IWord where
  dest : BitVec 6
  src1 : BitVec 6
  src2 : BitVec 6
  fn : BitVec 6
  val : BitVec 32
deriving DecidableEq, Repr

/-- R11, R436: who writes a register: the host over its link, or a control thread. -/
inductive Master where
  | host
  | thread (k : TaskId)
deriving DecidableEq, Repr

/-- R11: the width of a register access. -/
inductive RegWidth where
  | w8 | w16 | w32 | w64
deriving DecidableEq, Repr

/-- R264: the large LPM tables. -/
inductive XTable where
  | v4 | v6
deriving DecidableEq, Repr

/-- R362: how a retraining search ends. -/
inductive SearchResult where
  | active | relaxed | dead
deriving DecidableEq, Repr

/-- R351: an error of one symbol of a code word: symbols 0 to 63 are data, 64 to 71 check symbols. -/
structure SymErr where
  sym : Fin 72
  err : Byte
deriving DecidableEq, Repr

/-- R489: what the patrol of an on-die word finds in its two arrays. -/
inductive ArrayFault where
  | clean | oneBad | bothBad
deriving DecidableEq, Repr

/-- R488, R489: a word of a store that the patrol reads: by its DAS address, a line of the flow cache, an entry of the
tag index (of a record) or of the overflow index, or an entry of a queue, counted from the oldest. -/
inductive StoreWord where
  | das (a : BitVec 48)
  | cacheLine (l : Fin 1048576)
  | tagEntry (r : BitVec 28)
  | ovfEntry (i : Fin 1048576)
  | queueEntry (q : Fin 256) (i : Fin 65536)
deriving DecidableEq, Repr

/-- R228, R351: what the scrub of a Reed row finds: whether the row's array is disturbed, and the symbol errors of the two
code words of each of its side copies. -/
structure RowFault where
  differs : Bool
  copyA : List SymErr × List SymErr
  copyB : List SymErr × List SymErr
deriving DecidableEq, Repr

/-- R287, R351: the symbol errors that a 64-byte unit of a frame reads with from the Beam; the unit's number counts from the
frame's first byte. -/
structure UnitErr where
  unit : Nat
  errs : List SymErr
deriving DecidableEq, Repr

/-- R287: the read of a packet from the Beam for loom `loom`, and the errors it meets. -/
structure LoomRead where
  loom : LoomId
  errs : List UnitErr
deriving DecidableEq, Repr

/-- R228: the rows whose disturbed array answers a search wrongly: those it reports and should not, and those it should
report and does not. -/
structure Misread where
  falseHits : List (Fin 524288)
  missed : List (Fin 524288)
deriving DecidableEq, Repr

/-- R351, R356: the symbol errors that have come into lines of a channel, each line by its number, and whether a
retraining search has a step to make in the slot decided. -/
structure SlotRead where
  errs : List (Fin 2013265920 × List SymErr)
  step : Bool
deriving DecidableEq, Repr

/-- R358, R369: the bank whose refresh falls due, and the temperature its stack reports. -/
structure BankReport where
  bank : Fin 32
  temp : BitVec 8
deriving DecidableEq, Repr

/-- R361: a command parity alert of a channel, and how many of its last 64 commands the stack has not confirmed. -/
structure ParityReport where
  chan : ChanId
  unconfirmed : Fin 65
deriving DecidableEq, Repr

/-- R453, R459: the readings of the 16 monitors, in M picks/s, and whether the regulator answers a command. -/
structure RateReport where
  rates : List (BitVec 16)
  resp : Bool
deriving DecidableEq, Repr

/-- R465, R459: the hottest of the 64 sensors, and whether the regulator answers a command. -/
structure TjReport where
  sensor : Fin 64
  resp : Bool
deriving DecidableEq, Repr

/-- One command of the device. -/
inductive Instr where
  /-- POWER_ON (R501). -/
  | powerOn
  /-- POWER_OFF (R501). -/
  | powerOff
  /-- RESET_ASSERT (R503). -/
  | resetAssert
  /-- RESET_RELEASE (R505). -/
  | resetRelease
  /-- BOOT_INIT_DONE (R505). -/
  | bootInitDone (sfdp : Bool)
  /-- BOOT_LINKS_DONE (R505). -/
  | bootLinksDone
  /-- BOOT_HBM_DONE (R505). -/
  | bootHbmDone (failed : List ChanId)
  /-- IMAGE_CHECK (R509). -/
  | imageCheck (flash : List Byte)
  /-- BOOT_COPY (R508). -/
  | bootCopy
  /-- BOOT_WAIT (R508). -/
  | bootWait
  /-- BOOT_WAIT_TIMEOUT (R508). -/
  | bootWaitTimeout
  /-- BOOT_PATCH (R508). -/
  | bootPatch
  /-- BOOT_TASK (R508). -/
  | bootTask
  /-- BOOT_END (R508). -/
  | bootEnd
  /-- BOOT_BAD_RECORD (R508). -/
  | bootBadRecord
  /-- HOST_IMAGE_BOOT (R510). -/
  | hostImageBoot (v : Word)
  /-- PCIE_LINK_TRAIN (R511). -/
  | pcieLinkTrain
  /-- PERST_ASSERT (R504). -/
  | perstAssert
  /-- PCIE_LINK_LOSS (R491). -/
  | pcieLinkLoss
  /-- PCIE_LINK_RETURN (R491). -/
  | pcieLinkReturn
  /-- REGISTER_WRITE (R12). -/
  | registerWrite (m : Master) (a : BitVec 48) (wd : RegWidth) (v : Word)
  /-- NOP (R48). -/
  | nop (c : Ctx) (w : IWord)
  /-- ILLEGAL_OP (R48). -/
  | illegalOp (c : Ctx)
  /-- LD (R51). -/
  | ld (c : Ctx) (w : IWord)
  /-- ST (R51). -/
  | st (c : Ctx) (w : IWord)
  /-- STS (R51). -/
  | sts (c : Ctx) (w : IWord)
  /-- BATTEN (R51). -/
  | batten (c : Ctx) (w : IWord)
  /-- LD_W (R53). -/
  | ldW (c : Ctx) (w : IWord)
  /-- ST_W (R43). -/
  | stW (c : Ctx) (w : IWord)
  /-- LD_T (R53). -/
  | ldT (c : Ctx) (w : IWord)
  /-- BR (R55). -/
  | br (c : Ctx) (w : IWord)
  /-- BRP (R55). -/
  | brp (c : Ctx) (w : IWord)
  /-- LOOP (R55). -/
  | loop (c : Ctx) (w : IWord)
  /-- ADD (R56). -/
  | add (c : Ctx) (w : IWord)
  /-- ADD_IMM (R56). -/
  | addImm (c : Ctx) (w : IWord)
  /-- SUB (R56). -/
  | sub (c : Ctx) (w : IWord)
  /-- SUB_IMM (R56). -/
  | subImm (c : Ctx) (w : IWord)
  /-- AND (R56). -/
  | and (c : Ctx) (w : IWord)
  /-- AND_IMM (R56). -/
  | andImm (c : Ctx) (w : IWord)
  /-- OR (R56). -/
  | or (c : Ctx) (w : IWord)
  /-- OR_IMM (R56). -/
  | orImm (c : Ctx) (w : IWord)
  /-- XOR (R56). -/
  | xor (c : Ctx) (w : IWord)
  /-- XOR_IMM (R56). -/
  | xorImm (c : Ctx) (w : IWord)
  /-- SHL (R56). -/
  | shl (c : Ctx) (w : IWord)
  /-- SHL_IMM (R56). -/
  | shlImm (c : Ctx) (w : IWord)
  /-- SHR (R56). -/
  | shr (c : Ctx) (w : IWord)
  /-- SHR_IMM (R56). -/
  | shrImm (c : Ctx) (w : IWord)
  /-- SAR (R56). -/
  | sar (c : Ctx) (w : IWord)
  /-- SAR_IMM (R56). -/
  | sarImm (c : Ctx) (w : IWord)
  /-- MIN (R56). -/
  | min (c : Ctx) (w : IWord)
  /-- MIN_IMM (R56). -/
  | minImm (c : Ctx) (w : IWord)
  /-- MAX (R56). -/
  | max (c : Ctx) (w : IWord)
  /-- MAX_IMM (R56). -/
  | maxImm (c : Ctx) (w : IWord)
  /-- CMP (R56). -/
  | cmp (c : Ctx) (w : IWord)
  /-- CMP_IMM (R56). -/
  | cmpImm (c : Ctx) (w : IWord)
  /-- MUL (R56). -/
  | mul (c : Ctx) (w : IWord)
  /-- MUL_IMM (R56). -/
  | mulImm (c : Ctx) (w : IWord)
  /-- MULH (R56). -/
  | mulh (c : Ctx) (w : IWord)
  /-- MOVI (R56). -/
  | movi (c : Ctx) (w : IWord)
  /-- EXT (R56). -/
  | ext (c : Ctx) (w : IWord)
  /-- INS (R56). -/
  | ins (c : Ctx) (w : IWord)
  /-- SEL (R56). -/
  | sel (c : Ctx) (w : IWord)
  /-- HASH (R57). -/
  | hash (c : Ctx) (w : IWord)
  /-- FLOOK (R58). -/
  | flook (c : Ctx) (w : IWord)
  /-- FLOW_HEAD_FILL (R150). -/
  | flowHeadFill (p : PktId) (errs : List SymErr)
  /-- FCREATE (R154). -/
  | fcreate (c : Ctx) (w : IWord)
  /-- FUPD (R139). -/
  | fupd (c : Ctx) (w : IWord)
  /-- FFOLD (R58). -/
  | ffold (c : Ctx) (w : IWord)
  /-- FDELIDLE (R155). -/
  | fdelidle (c : Ctx) (w : IWord)
  /-- VICTIM_RELEASE (R151). -/
  | victimRelease (b : Fin 64) (n : Nat)
  /-- RSEARCH (R60). -/
  | rsearch (c : Ctx) (w : IWord)
  /-- RNEXT (R229). -/
  | rnext (c : Ctx) (w : IWord)
  /-- TSCAN (R60). -/
  | tscan (c : Ctx) (w : IWord)
  /-- FWD (R61). -/
  | fwd (c : Ctx) (w : IWord)
  /-- MCAST (R61). -/
  | mcast (c : Ctx) (w : IWord)
  /-- DROP (R61). -/
  | drop (c : Ctx) (w : IWord)
  /-- PUNT (R61). -/
  | punt (c : Ctx) (w : IWord)
  /-- RECIRC (R301). -/
  | recirc (c : Ctx) (w : IWord)
  /-- TSTAMP (R62). -/
  | tstamp (c : Ctx) (w : IWord)
  /-- CNT (R473). -/
  | cnt (c : Ctx) (w : IWord)
  /-- LOCK (R63). -/
  | lock (c : Ctx) (w : IWord)
  /-- UNLOCK (R63). -/
  | unlock (c : Ctx) (w : IWord)
  /-- WAITEV (R63). -/
  | waitev (c : Ctx) (w : IWord)
  /-- WAITEV_TIMEOUT (R63). -/
  | waitevTimeout (k : TaskId)
  /-- SIGNAL (R63). -/
  | signal (c : Ctx) (w : IWord)
  /-- YIELD (R63). -/
  | yield (c : Ctx) (w : IWord)
  /-- QPUT (R426). -/
  | qput (c : Ctx) (w : IWord)
  /-- QGET (R426). -/
  | qget (c : Ctx) (w : IWord)
  /-- DMA (R64). -/
  | dma (c : Ctx) (w : IWord)
  /-- DMA_COMPLETE (R64). -/
  | dmaComplete (core : Fin 32) (errs : List SymErr)
  /-- FRAME_RECEIVE (R322). -/
  | frameReceive (p : Port) (frame : List Byte)
  /-- FCS_ERROR (R323). -/
  | fcsError (p : PktId)
  /-- PFC_PAUSE_EXPIRE (R326). -/
  | pfcPauseExpire (p : Port) (cl : Fin 8)
  /-- HEDDLE_PARSE (R107). -/
  | heddleParse (p : PktId)
  /-- PICK_START (R73). -/
  | pickStart (p : PktId)
  /-- PICK_BUDGET_EXCEEDED (R50). -/
  | pickBudgetExceeded (p : PktId)
  /-- RECIRC_RETURN (R23). -/
  | recircReturn (r : LoomRead)
  /-- BEAM_ADMIT (R288). -/
  | beamAdmit (p : PktId)
  /-- RESIDUE_ADMIT (R300). -/
  | residueAdmit (q : Fin 10240)
  /-- EGRESS_CALL (R297). -/
  | egressCall (p : Port)
  /-- GRANT_PERIOD (R294). -/
  | grantPeriod
  /-- TRANSMIT_FRAME (R327). -/
  | transmitFrame (p : Port) (errs : List UnitErr)
  /-- TRANSMIT_COMPLETE (R299). -/
  | transmitComplete (p : Port)
  /-- PFC_FRAME_SEND (R330). -/
  | pfcFrameSend (p : Port)
  /-- PFC_REFRESH (R330). -/
  | pfcRefresh (p : Port)
  /-- QUEUE_FLUSH (R304). -/
  | queueFlush (v : Word)
  /-- QUEUE_FLUSH_DONE (R304). -/
  | queueFlushDone
  /-- HOST_STAGE_APPEND (R89). -/
  | hostStageAppend (v : Word)
  /-- HOST_BATTEN (R90). -/
  | hostBatten (v : Word)
  /-- BATTEN_SLOT_OPEN (R83). -/
  | battenSlotOpen
  /-- BATTEN_APPLY (R83). -/
  | battenApply
  /-- BANK_RETIRE (R91). -/
  | bankRetire
  /-- CACHE_SWEEP (R158). -/
  | cacheSweep (line : Fin 1048576)
  /-- TABLE_SWEEP (R158). -/
  | tableSweep (rec : BitVec 28)
  /-- REHASH_START (R162). -/
  | rehashStart (v : Word)
  /-- MIGRATE_BUCKET (R162). -/
  | migrateBucket
  /-- REHASH_RETRY (R163). -/
  | rehashRetry
  /-- MIGRATE_OVERFLOW (R162). -/
  | migrateOverflow (i : Fin 1048576)
  /-- WARP_INIT_TBL0 (R178). -/
  | warpInitTbl0
  /-- WARP_INIT_TBL1 (R178). -/
  | warpInitTbl1
  /-- WARP_INIT_OVF (R178). -/
  | warpInitOvf
  /-- WARP_INIT_DONE (R178). -/
  | warpInitDone
  /-- WARP_DISABLE (R167). -/
  | warpDisable (v : Word)
  /-- WARP_DISABLE_DONE (R167). -/
  | warpDisableDone
  /-- CACHE_FLUSH (R174). -/
  | cacheFlush (v : Word)
  /-- CACHE_FLUSH_DONE (R174). -/
  | cacheFlushDone
  /-- COHERENT_READ (R166). -/
  | coherentRead (v : Word)
  /-- COHERENT_READ_DONE (R166). -/
  | coherentReadDone
  /-- REED_BANK_POWER_UP (R226). -/
  | reedBankPowerUp (b : Fin 128) (v : Word)
  /-- REED_POWER_ACK (R226). -/
  | reedPowerAck (b : Fin 128) (bad : List (Fin 4096))
  /-- REED_SEARCH (R224). -/
  | reedSearch (q : Fin 4) (m : Misread)
  /-- REED_SCRUB (R228). -/
  | reedScrub (i : Fin 524288) (fault : RowFault)
  /-- REED_BANK_SLOT (R373). -/
  | reedBankSlot (b : Fin 128)
  /-- TWILL_SCAN (R244). -/
  | twillScan (e : Fin 4)
  /-- LEARN_EVENT (R269). -/
  | learnEvent
  /-- PIN_RELEASE (R270). -/
  | pinRelease (e : Fin 131072)
  /-- AGE_CMD (R276). -/
  | ageCmd (v : Word)
  /-- COMPARE_START (R277). -/
  | compareStart (v : Word)
  /-- COMPARE_DONE (R277). -/
  | compareDone
  /-- INDEX_BUILD (R264). -/
  | indexBuild (t : XTable) (v : Word)
  /-- INDEX_BUILD_DONE (R264). -/
  | indexBuildDone (t : XTable)
  /-- PORT_CONFIG_WRITE (R319). -/
  | portConfigWrite (p : Port) (v : Word)
  /-- LINK_UP (R338). -/
  | linkUp (p : Port)
  /-- LINK_TRAIN_FAIL (R339). -/
  | linkTrainFail (p : Port) (lanes : BitVec 8)
  /-- TRAIN_RETRY (R339). -/
  | trainRetry (p : Port)
  /-- RETRAIN (R339). -/
  | retrain (t : Tile) (v : Word)
  /-- LINK_DOWN (R340). -/
  | linkDown (p : Port)
  /-- LPI_ENTER (R334). -/
  | lpiEnter (p : Port)
  /-- LPI_WAKE_DONE (R335). -/
  | lpiWakeDone (p : Port)
  /-- REFCLK_LOSS (R524). -/
  | refclkLoss (t : Tile)
  /-- WIRE_FAIL (R19). -/
  | wireFail (l : Fin 16) (g : BitVec 8) (lanes : List Port) (chans : List ChanId)
  /-- TREADLE_SLOT (R356). -/
  | treadleSlot (ch : ChanId) (r : SlotRead)
  /-- REFRESH_DUE (R358). -/
  | refreshDue (ch : ChanId) (r : BankReport)
  /-- REFRESH_DEADLINE (R358). -/
  | refreshDeadline (ch : ChanId) (b : Fin 32)
  /-- CHANNEL_REST (R359). -/
  | channelRest (ch : ChanId)
  /-- REST_EXIT (R360). -/
  | restExit (ch : ChanId)
  /-- PARITY_ALERT (R361). -/
  | parityAlert (r : ParityReport)
  /-- RETRAIN_SEARCH_START (R362). -/
  | retrainSearchStart (ch : ChanId)
  /-- RETRAIN_SEARCH_DONE (R362). -/
  | retrainSearchDone (ch : ChanId) (r : SearchResult)
  /-- SPARE_TRAINED (R363). -/
  | spareTrained (s : StackId) (ok : Bool)
  /-- RETIRE_COPY_GRANULE (R363). -/
  | retireCopyGranule (s : StackId) (errs : List (List SymErr))
  /-- CREEL_SEARCH_CMD (R371). -/
  | creelSearchCmd (s : StackId) (v : Word)
  /-- CREEL_RETIRE_CMD (R371). -/
  | creelRetireCmd (s : StackId) (v : Word)
  /-- CREEL_RELEASE_CMD (R366). -/
  | creelReleaseCmd (s : StackId) (v : Word)
  /-- PATROL_SCRUB (R367). -/
  | patrolScrub (line : Fin 2013265920) (errs : List SymErr)
  /-- STACK_LOSS (R493). -/
  | stackLoss (s : StackId)
  /-- DOMAIN_ENABLE (R377). -/
  | domainEnable (d : Dom) (v : Word)
  /-- DOMAIN_SET (R377). -/
  | domainSet (d : Dom) (v : Word)
  /-- DOMAIN_STEP (R377). -/
  | domainStep (d : Dom) (v : Word)
  /-- FREQ_ADJ_WRITE (R376). -/
  | freqAdjWrite (d : Dom) (v : Word)
  /-- TIME_SNAP (R378). -/
  | timeSnap (v : Word)
  /-- TXQ_READ (R386). -/
  | txqRead (d : Dom)
  /-- PULSE_ARM (R387). -/
  | pulseArm (j : Fin 8) (v : Word)
  /-- PULSE_EDGE (R387). -/
  | pulseEdge (j : Fin 8)
  /-- PULSE_WIDTH_END (R387). -/
  | pulseWidthEnd (j : Fin 8)
  /-- CAPTURE_EDGE (R389). -/
  | captureEdge (i : Fin 4) (falling : Bool)
  /-- CAPTURE_READ (R389). -/
  | captureRead (i : Fin 4)
  /-- CAPTURE_LOS (R390). -/
  | captureLos (i : Fin 4)
  /-- HOLDOVER_TICK (R398). -/
  | holdoverTick
  /-- REF_DISQUALIFY (R391). -/
  | refDisqualify (r : Fin 4)
  /-- REF_REQUALIFY (R391). -/
  | refRequalify (r : Fin 4)
  /-- DPLL_LOCK (R392). -/
  | dpllLock
  /-- SENSE_CONVERT (R395). -/
  | senseConvert (i : Fin 4) (code : BitVec 16)
  /-- LEARNER_SECOND (R396). -/
  | learnerSecond
  /-- LEARNER_SAMPLE (R397). -/
  | learnerSample
  /-- LEARNER_RESET (R406). -/
  | learnerReset (v : Word)
  /-- TASK_CREATE (R413). -/
  | taskCreate (k : TaskId)
  /-- TASK_START (R413). -/
  | taskStart (k : TaskId)
  /-- TASK_CANCEL (R413). -/
  | taskCancel (k : TaskId)
  /-- TASK_DELETE (R413). -/
  | taskDelete (k : TaskId)
  /-- TASK_SIGNAL (R413). -/
  | taskSignal (k : TaskId) (mask : BitVec 32)
  /-- SCHED_ROUND (R417). -/
  | schedRound
  /-- SLICE_EXPIRE (R419). -/
  | sliceExpire (k : TaskId)
  /-- TASK_RELEASE (R421). -/
  | taskRelease (k : TaskId)
  /-- DEADLINE_MISS (R421). -/
  | deadlineMiss (k : TaskId)
  /-- PUNT_TAKE (R429). -/
  | puntTake (r : LoomRead)
  /-- INJECT_TAKE (R433). -/
  | injectTake
  /-- INJECT_RELEASE_HELD (R432). -/
  | injectReleaseHeld (r : Fin 64)
  /-- RELEASE_TIMEOUT (R432). -/
  | releaseTimeout (h : Word)
  /-- CMD_NOP (R438). -/
  | cmdNop
  /-- CMD_COPY (R438). -/
  | cmdCopy
  /-- CMD_TASK (R438). -/
  | cmdTask
  /-- CMD_QPUT (R438). -/
  | cmdQput
  /-- CMD_INJECT (R438). -/
  | cmdInject
  /-- CMD_PATCH (R447). -/
  | cmdPatch
  /-- CMD_BAD (R438). -/
  | cmdBad
  /-- PATCH_SWITCH_DONE (R447). -/
  | patchSwitchDone
  /-- EVENT_BACKLOG_DRAIN (R441). -/
  | eventBacklogDrain (n : Fin 2)
  /-- MSI_MODERATION (R442). -/
  | msiModeration (n : Fin 4)
  /-- MSI_SEND (R442). -/
  | msiSend (v : Word)
  /-- JACQ_FLOOR_WRITE (R450). -/
  | jacqFloorWrite (v : Word)
  /-- SPINDLE_RESTART (R516). -/
  | spindleRestart (v : Word)
  /-- SPINDLE_RESTART_DONE (R516). -/
  | spindleRestartDone
  /-- RATE_WINDOW (R455). -/
  | rateWindow (r : RateReport)
  /-- AVS_START (R459). -/
  | avsStart (v : Word)
  /-- AVS_READ (R459). -/
  | avsRead (mv : BitVec 10) (ma : BitVec 32) (ok : Bool)
  /-- AVS_RETRY (R459). -/
  | avsRetry (ok : Bool)
  /-- TJ_SAMPLE (R465). -/
  | tjSample (tj : BitVec 16) (r : TjReport)
  /-- LOOM_GATE (R463). -/
  | loomGate (n : LoomId) (v : Word)
  /-- LOOM_GATED (R463). -/
  | loomGated (n : LoomId)
  /-- LOOM_ACTIVE (R463). -/
  | loomActive (n : LoomId)
  /-- GLASS_SNAPSHOT (R476). -/
  | glassSnapshot (v : Word)
  /-- GLASS_SNAPSHOT_DONE (R477). -/
  | glassSnapshotDone
  /-- COUNTER_WRITE (R475). -/
  | counterWrite (a : BitVec 48) (v : Word)
  /-- SAMPLE_TAKE (R481). -/
  | sampleTake (n : LoomId)
  /-- BW_WINDOW_END (R484). -/
  | bwWindowEnd
  /-- BW_CLEAR_PEAK (R484). -/
  | bwClearPeak
  /-- STORE_PATROL (R489). -/
  | storePatrol (w : StoreWord) (r : ArrayFault)
  /-- DIGEST_SNAPSHOT (R497). -/
  | digestSnapshot (v : Word)
  /-- DIGEST_HI_READ (R497). -/
  | digestHiRead (a : BitVec 16)
  /-- DIGEST_SCAN (R498). -/
  | digestScan (v : Word)
  /-- DIGEST_SCAN_DONE (R498). -/
  | digestScanDone (unread : List Nat)
  /-- SMB_READ_IDENT (R527). -/
  | smbReadIdent
  /-- SMB_READ_TJ (R527). -/
  | smbReadTj
  /-- SMB_READ_HBM_TEMP (R527). -/
  | smbReadHbmTemp
  /-- SMB_READ_BOOT_STAT (R527). -/
  | smbReadBootStat
  /-- SMB_READ_THERMAL (R527). -/
  | smbReadThermal
  /-- SMB_NACK (R527). -/
  | smbNack (cmd : BitVec 8)
  /-- ALIGNMENT_LOCK_LOSS (R340). -/
  | alignmentLockLoss (p : Port)
  /-- ALIGNMENT_LOCK_GAIN (R338). -/
  | alignmentLockGain (p : Port)
  /-- PARTNER_LPI_SIGNAL (R334). -/
  | partnerLpiSignal (p : Port) (on : Bool)
  /-- REFCLK_RETURN (R524). -/
  | refclkReturn (t : Tile)
  /-- CLOCK_INTERRUPTION (R524). -/
  | clockInterruption
deriving DecidableEq, Repr

end Sys2Proof
end

