-- ==== Sys2Proof/Decode.lean ====
section
/-! DEFINITION. The commands that words spell. The opcode table of the block gives no row any bits, so no word of it
spells a command; a word of a Rostin program spells an instruction (R47, R48). -/

namespace Sys2Proof

/-- The command a word of `nbits` bits spells by the opcode table: none, since no row has bits. -/
def decodeTableWord (_nbits _w : Nat) : Option Instr := none

/-- R47: the opcode of an instruction word. -/
def opcodeOf (w : Word) : Nat := (w.extractLsb' 56 8).toNat

/-- R47: the other fields of an instruction word. -/
def IWord.ofWord (w : Word) : IWord :=
  { dest := w.extractLsb' 50 6, src1 := w.extractLsb' 44 6, src2 := w.extractLsb' 38 6, fn := w.extractLsb' 32 6,
    val := w.extractLsb' 0 32 }

/-- R47: the instruction word of an opcode and fields. -/
def IWord.toWord (op : BitVec 8) (w : IWord) : Word := op ++ w.dest ++ w.src1 ++ w.src2 ++ w.fn ++ w.val

/-- R48: the opcodes 0x00 to 0x12: NOP, memory, windows, branches; none where the opcode is undefined. -/
def opcodeLow (c : Ctx) (w : IWord) : Nat → Option Instr
  | 0x00 => some (.nop c w)
  | 0x01 => some (.ld c w)
  | 0x02 => some (.st c w)
  | 0x03 => some (.sts c w)
  | 0x04 => some (.ldW c w)
  | 0x05 => some (.stW c w)
  | 0x06 => some (.ldT c w)
  | 0x07 => some (.batten c w)
  | 0x10 => some (.br c w)
  | 0x11 => some (.brp c w)
  | 0x12 => some (.loop c w)
  | _ => none

/-- R48: the opcodes 0x20 to 0x40: the ALU group and HASH. -/
def opcodeAlu (c : Ctx) (w : IWord) : Nat → Option Instr
  | 0x20 => some (.add c w)
  | 0x21 => some (.addImm c w)
  | 0x22 => some (.sub c w)
  | 0x23 => some (.subImm c w)
  | 0x24 => some (.and c w)
  | 0x25 => some (.andImm c w)
  | 0x26 => some (.or c w)
  | 0x27 => some (.orImm c w)
  | 0x28 => some (.xor c w)
  | 0x29 => some (.xorImm c w)
  | 0x2A => some (.shl c w)
  | 0x2B => some (.shlImm c w)
  | 0x2C => some (.shr c w)
  | 0x2D => some (.shrImm c w)
  | 0x2E => some (.sar c w)
  | 0x2F => some (.sarImm c w)
  | 0x30 => some (.min c w)
  | 0x31 => some (.minImm c w)
  | 0x32 => some (.max c w)
  | 0x33 => some (.maxImm c w)
  | 0x34 => some (.cmp c w)
  | 0x35 => some (.cmpImm c w)
  | 0x36 => some (.mul c w)
  | 0x37 => some (.mulImm c w)
  | 0x38 => some (.movi c w)
  | 0x39 => some (.mulh c w)
  | 0x3A => some (.ext c w)
  | 0x3B => some (.ins c w)
  | 0x3E => some (.sel c w)
  | 0x40 => some (.hash c w)
  | _ => none

/-- R48: the opcodes 0x50 to 0x81: flows, searches, forwarding, time and counts. -/
def opcodeFlow (c : Ctx) (w : IWord) : Nat → Option Instr
  | 0x50 => some (.flook c w)
  | 0x51 => some (.fcreate c w)
  | 0x52 => some (.fupd c w)
  | 0x53 => some (.ffold c w)
  | 0x54 => some (.fdelidle c w)
  | 0x60 => some (.rsearch c w)
  | 0x61 => some (.rnext c w)
  | 0x62 => some (.tscan c w)
  | 0x70 => some (.fwd c w)
  | 0x71 => some (.mcast c w)
  | 0x72 => some (.drop c w)
  | 0x73 => some (.punt c w)
  | 0x74 => some (.recirc c w)
  | 0x80 => some (.tstamp c w)
  | 0x81 => some (.cnt c w)
  | _ => none

/-- R48: the opcodes 0x90 to 0x97: the instructions of threads. -/
def opcodeThread (c : Ctx) (w : IWord) : Nat → Option Instr
  | 0x90 => some (.lock c w)
  | 0x91 => some (.unlock c w)
  | 0x92 => some (.waitev c w)
  | 0x93 => some (.signal c w)
  | 0x94 => some (.yield c w)
  | 0x95 => some (.qput c w)
  | 0x96 => some (.qget c w)
  | 0x97 => some (.dma c w)
  | _ => none

/-- R48: the instruction an opcode and the other fields spell in a context; none where the opcode is undefined. -/
def instrOfOp (c : Ctx) (op : Nat) (w : IWord) : Option Instr :=
  opcodeLow c w op <|> opcodeAlu c w op <|> opcodeFlow c w op <|> opcodeThread c w op

/-- R47, R48: the command an instruction word is in a context: an instruction, or that of an undefined opcode. -/
def instrOfWord (c : Ctx) (w : Word) : Instr :=
  (instrOfOp c (opcodeOf w) (IWord.ofWord w)).getD (.illegalOp c)

end Sys2Proof
end

