-- ==== Sys2Proof/Machine/Bits.lean ====
section
/-! DEFINITION. Bit fields, byte order, sign extension, and the byte lists of frames. -/

namespace Sys2Proof

/-- A field of a register or table word: bits `hi` down to `lo` (R11). -/
structure Fld where
  hi : Nat
  lo : Nat
deriving DecidableEq, Repr

/-- Bits `hi` to `lo` of a natural number. -/
def bitsOf (n hi lo : Nat) : Nat := (n >>> lo) % 2 ^ (hi + 1 - lo)

/-- The value of field `f` of word `w`. -/
def Fld.get (f : Fld) (w : Word) : Nat := bitsOf w.toNat f.hi f.lo

/-- The mask of field `f`. -/
def Fld.mask (f : Fld) : Word := BitVec.ofNat 64 ((2 ^ (f.hi + 1 - f.lo) - 1) <<< f.lo)

/-- Word `w` with field `f` holding `v`, taken modulo the field's size. -/
def Fld.put (f : Fld) (w : Word) (v : Nat) : Word :=
  (w &&& ~~~ f.mask) ||| (BitVec.ofNat 64 (v <<< f.lo) &&& f.mask)

/-- `new` where `mask` is set and `old` elsewhere. -/
def mergeMask (mask new old : Word) : Word := (old &&& ~~~ mask) ||| (new &&& mask)

/-- 1 or 0. -/
def b2n (b : Bool) : Nat := if b then 1 else 0

/-- Byte `i` of a natural number. -/
def byteOf (n i : Nat) : Byte := BitVec.ofNat 8 (n >>> (8 * i))

/-- The `k` low bytes of `n`, little-endian (R8). -/
def toLE (k n : Nat) : List Byte := (List.range k).map (byteOf n)

/-- The number whose little-endian bytes these are. -/
def ofLE : List Byte → Nat
  | [] => 0
  | b :: bs => b.toNat + 256 * ofLE bs

/-- The `k` low bytes of `n` in network order. -/
def toBE (k n : Nat) : List Byte := (toLE k n).reverse

/-- The number whose network-order bytes these are. -/
def ofBE (bs : List Byte) : Nat := ofLE bs.reverse

/-- `k` bytes of a byte string from offset `o`; bytes past the end read 0. -/
def slice (bs : List Byte) (o k : Nat) : List Byte :=
  let x := (bs.drop o).take k
  x ++ List.replicate (k - x.length) 0

/-- The byte string with `new` written from offset `o`, inside the string only. -/
def patch (bs : List Byte) (o : Nat) (new : List Byte) : List Byte :=
  bs.take o ++ (new.take (bs.length - o)) ++ bs.drop (o + new.length)

/-- Network-order field of `k` bytes at offset `o`. -/
def beAt (bs : List Byte) (o k : Nat) : Nat := ofBE (slice bs o k)

/-- Sign extension of the low `w` bits of `n` to an integer. -/
def sxInt (w n : Nat) : Int :=
  let m := n % 2 ^ w
  if m < 2 ^ (w - 1) then (m : Int) else (m : Int) - (2 ^ w : Nat)

/-- The 64-bit sign extension of the low `w` bits of `n`. -/
def sx64 (w n : Nat) : Word := BitVec.ofInt 64 (sxInt w n)

/-- Quotient rounded up. -/
def ceilDiv (a b : Nat) : Nat := (a + b - 1) / b

/-- The list with the entry at `i` changed by `f`. -/
def updAt {α : Type} (f : α → α) : Nat → List α → List α
  | _, [] => []
  | 0, x :: xs => f x :: xs
  | n + 1, x :: xs => x :: updAt f n xs

/-- Entry `i` of a table of fixed size; `d` past its end. -/
def vget {α : Type} {n : Nat} (v : Vector α n) (i : Nat) (d : α) : α := v[i]?.getD d

/-- The table with the entry at `i` changed by `f`. -/
def vupd {α : Type} {n : Nat} (f : α → α) (i : Nat) (v : Vector α n) : Vector α n :=
  if h : i < n then v.set i (f v[i]) else v

/-- An ascending list without repeats, with `n` put in. -/
def insUniq (n : Nat) : List Nat → List Nat
  | [] => [n]
  | x :: xs => if n < x then n :: x :: xs else if n = x then x :: xs else x :: insUniq n xs

/-- The members of a list, ascending, without repeats. -/
def sortUniq (l : List Nat) : List Nat := l.foldl (fun acc n => insUniq n acc) []

end Sys2Proof
end

