-- ==== Sys2Proof/Machine/Code.lean ====
section
/-! DEFINITION. The Reed–Solomon code of HBM lines, Beam cells and Reed side copies (R351): arithmetic in
GF(2^8), the check symbols, and the decoder that corrects any two symbol errors. -/

namespace Sys2Proof

/-! ## The field -/

/-- R351: times α = 0x02, modulo x^8 + x^4 + x^3 + x^2 + 1. -/
def gfDouble (a : Byte) : Byte := (a <<< 1) ^^^ (if a.msb then 0x1D#8 else 0#8)

/-- α to the power `n`. -/
def gfExp : Nat → Byte
  | 0 => 1
  | n + 1 => gfDouble (gfExp n)

/-- The product of two symbols: bit `k` of `b` adds a · α^k. -/
def gfMul (a b : Byte) : Byte :=
  ((List.range 8).foldl (fun (p : Byte × Byte) k => (if b.getLsbD k then p.1 ^^^ p.2 else p.1, gfDouble p.2)) (0, a)).1

/-- A symbol to the power `n`. -/
def gfPow (a : Byte) : Nat → Byte
  | 0 => 1
  | n + 1 => gfMul a (gfPow a n)

/-- The inverse of a symbol that is not 0. -/
def gfInv (a : Byte) : Byte := gfPow a 254

/-! ## The code word: symbol `i` is the coefficient of x^(71 - i), data symbols first (DESIGN CHOICE, log entry 95) -/

/-- A polynomial, highest coefficient first, times x + r. -/
def gfTimesRoot (p : List Byte) (r : Byte) : List Byte :=
  List.zipWith (· ^^^ ·) (p ++ [0]) ((0 : Byte) :: p.map (gfMul r))

/-- R351: the generator, with roots α^0 to α^7, without its leading 1. -/
def rsGen : List Byte := (((List.range 8).map gfExp).foldl gfTimesRoot [1]).drop 1

/-- R351: the 8 check symbols of 64 data symbols: the remainder of the division by the generator. -/
def rsCheck (data : List Byte) : List Byte :=
  data.foldl (fun r d =>
    let f := d ^^^ r.headD 0
    List.zipWith (· ^^^ ·) (r.drop 1 ++ [0]) (rsGen.map (gfMul f))) (List.replicate 8 0)

/-- The value of symbol `i` at α^k in a syndrome. -/
def rsLocator (i : Nat) : Byte := gfExp (71 - i)

/-- Syndrome `k` of the symbol errors of a word. -/
def rsSyndrome (e : List SymErr) (k : Nat) : Byte :=
  e.foldl (fun a x => a ^^^ gfMul x.err (gfExp (k * (71 - x.sym.val)))) 0

/-- The eight syndromes. -/
def rsSyndromes (e : List SymErr) : List Byte := (List.range 8).map (rsSyndrome e)

/-- Syndrome `k` from the list. -/
def synAt (s : List Byte) (k : Nat) : Byte := s.getD k 0

/-- The recurrence that the syndromes of one or two errors obey. -/
def rsRecurs (s : List Byte) (c1 c2 : Byte) : Bool :=
  (List.range 6).all fun k => synAt s (k + 2) == gfMul c1 (synAt s (k + 1)) ^^^ gfMul c2 (synAt s k)

/-- The positions whose locator solves x² + c1·x + c2 = 0. -/
def rsRoots (c1 c2 : Byte) : List (Fin 72) :=
  (List.finRange 72).filter fun i =>
    let x := rsLocator i.val
    gfMul x x ^^^ gfMul c1 x ^^^ c2 == 0

/-- R351: the corrections of at most two symbols that explain the syndromes, if any do. -/
def rsCorrect (s : List Byte) : Option (List SymErr) :=
  if s.all (· == 0) then some []
  else
    let s0 := synAt s 0
    let s1 := synAt s 1
    let s2 := synAt s 2
    let s3 := synAt s 3
    let d := gfMul s0 s2 ^^^ gfMul s1 s1
    if d = 0 then
      let x := gfMul s1 (gfInv s0)
      match (List.finRange 72).find? fun i => rsLocator i.val == x with
      | some i => if s0 != 0 && rsRecurs s x 0 then some [⟨i, s0⟩] else none
      | none => none
    else
      let c1 := gfMul (gfMul s0 s3 ^^^ gfMul s1 s2) (gfInv d)
      let c2 := gfMul (gfMul s1 s3 ^^^ gfMul s2 s2) (gfInv d)
      if !rsRecurs s c1 c2 then none
      else match rsRoots c1 c2 with
        | [i, j] =>
          let xi := rsLocator i.val
          let xj := rsLocator j.val
          let ei := gfMul (s1 ^^^ gfMul s0 xj) (gfInv (xi ^^^ xj))
          some [⟨i, ei⟩, ⟨j, s0 ^^^ ei⟩]
        | _ => none

/-- What the decoder makes of a word with these symbol errors. -/
inductive RsOut where
  /-- No syndrome: taken as it stands. -/
  | clean
  /-- Corrected; the symbols that remain wrong, if the pattern deceived the decoder. -/
  | corrected (left : List SymErr)
  | uncorrectable
deriving DecidableEq, Repr

/-- The error of symbol `i` in a pattern. -/
def symErrAt (e : List SymErr) (i : Fin 72) : Byte :=
  e.foldl (fun a x => if x.sym = i then a ^^^ x.err else a) 0

/-- A pattern with one entry a symbol, in ascending order. -/
def symNorm (e : List SymErr) : List SymErr :=
  if e = [] then []
  else ((List.finRange 72).map fun i => (⟨i, symErrAt e i⟩ : SymErr)).filter fun x => x.err != 0

/-- R351: decodes a word. -/
def rsDecode (e : List SymErr) : RsOut :=
  if e = [] then .clean
  else
    let s := rsSyndromes e
    if s.all (· == 0) then .clean
    else match rsCorrect s with
      | some fix => .corrected (symNorm (e ++ fix))
      | none => .uncorrectable

/-- The word is reported uncorrectable. -/
def rsUnc (e : List SymErr) : Bool := rsDecode e == .uncorrectable

/-- The symbols that are wrong in what the decoder takes a word for, where it reports no error it cannot correct. -/
def rsLeft (e : List SymErr) : List SymErr :=
  match rsDecode e with
  | .clean => symNorm e
  | .corrected l => l
  | .uncorrectable => []

/-- R352: check symbols forced to an uncorrectable pattern; which pattern, the spec leaves open (DESIGN CHOICE,
log entry 95). -/
def rsForced : List SymErr := [⟨64, 0xFF⟩, ⟨65, 0xFF⟩, ⟨66, 0xFF⟩]

/-- A byte from its eight bits. -/
def bitsByte (f : Nat → Bool) : Byte := (List.range 8).foldl (fun b k => if f k then b ||| (1#8 <<< k) else b) 0

/-- R351: the data symbols of a 64-byte HBM line: symbol `j` is the 8 beats of data pin `j`; beat `b` is bytes 8b to
8b + 7 of the line and bit `b` of a symbol (DESIGN CHOICE, log entry 95). -/
def pinSymbols (line : List Byte) : List Byte :=
  (List.range 64).map fun j => bitsByte fun b => (line.getD (8 * b + j / 8) 0).getLsbD (j % 8)

/-- The line whose data symbols these are. -/
def pinLine (syms : List Byte) : List Byte :=
  (List.range 64).map fun i => bitsByte fun k => (syms.getD (i % 8 * 8 + k) 0).getLsbD (i / 8)

/-- The eight check symbols of an HBM line. -/
def lineCheck (line : List Byte) : List Byte := rsCheck (pinSymbols line)

/-- A line with wrong symbols put in. -/
def rsDamage (line : List Byte) (left : List SymErr) : List Byte :=
  if left = [] then line
  else pinLine (left.foldl (fun d x => updAt (· ^^^ x.err) x.sym.val d) (pinSymbols line))

/-- A unit of bytes in which symbol `i` is byte `i` (a unit of a Beam cell, a code word of a Reed side copy), with wrong symbols
put in (DESIGN CHOICE, log entry 95). -/
def bytesDamage (bs : List Byte) (left : List SymErr) : List Byte :=
  left.foldl (fun d x => updAt (· ^^^ x.err) x.sym.val d) bs

end Sys2Proof
end

