-- ==== Sys2Proof/Config.lean ====
section
/-! DEFINITION. What a part fixes once (fuses, ROM) and the values the spec leaves open. Every
constant without a body is a free value: nothing in the model can evaluate it. -/

namespace Sys2Proof

/-- R512: the owner-key hash is programmed. Fused by the equipment maker. -/
opaque Config.secure : Bool
/-- R512: the lowest SEC_VERSION accepted. Fused by the equipment maker. -/
opaque Config.secFloor : Nat
/-- R445: the ROM dispatch entry of an opcode, which the spec does not give. -/
opaque Config.romEntry : Nat → Nat
/-- R443: the microword at a ROM address, which the spec does not give. -/
opaque Config.romWord : Nat → BitVec 192
/-- R443: the result of a function of the microcode ALU, which the spec does not list. -/
opaque Config.microAlu : (alu : Nat) → (a b : Word) → Word
/-- R444: the carry of a function of the microcode ALU. -/
opaque Config.microCarry : (alu : Nat) → (a b : Word) → Bool
/-- R443: what a microword's load reads, whose address the spec does not give. -/
opaque Config.microLoad : Nat → Word
/-- R443: what a handshake unit answers a command; the spec lists neither. -/
opaque Config.unitResp : (unit cmd : Nat) → Nat → Word
/-- R509: the SHA-384 of this PUBKEY equals the fused owner-key hash. -/
opaque Config.ownerKeyOk : List Byte → Bool
/-- R509: the ECDSA P-384 signature (third) verifies over the message (second) under the key. -/
opaque Config.bootSigOk : List Byte → List Byte → List Byte → Bool
/-- R446: the signature (second) of a patch container (first) verifies under the Eukezon key. -/
opaque Config.patchSigOk : List Byte → List Byte → Bool
/-- R446: AES-256-GCM decryption under the fused patch key of a body, with nonce, tag and additional
data; none when the tag fails. -/
opaque Config.patchDecrypt : (iv tag aad body : List Byte) → Option (List Byte)
/-- R481: the draw of a loom's sampling generator: loom, number of the draw. -/
opaque Config.sampleDraw : Nat → Nat → Nat
/-- R482: how the address field of a sample of FWD packs the port and the queue, which the spec does not
give. -/
opaque Config.fwdAddr : Nat → Nat → Nat
/-- R287, R364: a byte that the device reads uncorrectable, from an HBM line (moment, address) or a Beam cell (number of
the free value, offset). -/
opaque Config.lostByte : Nat → Nat → Nat
/-- R393: the offset of SD_REFCLK of a tile from TIME_OSC at a moment, in units of 2^-48: what the board supplies. -/
opaque Config.sdOffset : (tile now : Nat) → Int
/-- R525: the strap SMB_ADDR[1:0], which the board sets. -/
opaque Config.smbStrap : BitVec 2
/-- R459: the regulator gives a voltage command of this moment a valid response. -/
opaque Config.avsAnswers : (now : Nat) → Bool
/-- R510: the host has enabled bus mastering at a moment, in the configuration space. -/
opaque Config.busMaster : (now : Nat) → Bool
/-- A free value: the n-th value the spec leaves open in a run. -/
opaque Config.free : Nat → Nat

end Sys2Proof
end

