-- ==== Sys2Proof/Machine/RegMap.lean ====
section
/-! DEFINITION. The register map: the address of every register, the place of every field, and per
register the writable fields by access code and the reset value, from the register tables of the
spec (R12, R14 and the rules named at each address). Reserved fields read 0 and are never written
(R14). Address fields that read 0 in their low bits are written only above them. -/

namespace Sys2Proof

/-- IDENT_PART (R15). -/
def Reg.identPart : Nat := 0x0
/-- IDENT_BOOT_STAT (R512). -/
def Reg.identBootStat : Nat := 0x8
/-- IDENT_FUSE (R512). -/
def Reg.identFuse : Nat := 0x10
/-- IDENT_BOOT_CMD (R512). -/
def Reg.identBootCmd : Nat := 0x18
/-- HOSTIF_APERTURE (R449). -/
def Reg.hostifAperture : Nat := 0x10000
/-- RING_n_BASE (R449). -/
def Reg.ringBase (i : Nat) : Nat := 0x10100 + 0x40 * i
/-- RING_n_CFG (R449). -/
def Reg.ringCfg (i : Nat) : Nat := 0x10108 + 0x40 * i
/-- RING_n_PROD (R449). -/
def Reg.ringProd (i : Nat) : Nat := 0x10110 + 0x40 * i
/-- RING_n_CONS (R449). -/
def Reg.ringCons (i : Nat) : Nat := 0x10118 + 0x40 * i
/-- HOSTIF_EVT_CTL (R449). -/
def Reg.hostifEvtCtl : Nat := 0x10200
/-- HOSTIF_EVT_ROUTE (R449). -/
def Reg.hostifEvtRoute : Nat := 0x10208
/-- HOSTIF_EVT_STAT (R449). -/
def Reg.hostifEvtStat : Nat := 0x10210
/-- HOSTIF_MSI_SEND (R449). -/
def Reg.hostifMsiSend : Nat := 0x10218
/-- HOSTIF_ERR (R449). -/
def Reg.hostifErr : Nat := 0x10220
/-- SPIN_TASK_CMD (R448). -/
def Reg.spinTaskCmd : Nat := 0x20000
/-- SPIN_TASK_STAT (R448). -/
def Reg.spinTaskStat : Nat := 0x20008
/-- SPIN_PUNT_CTL (R448). -/
def Reg.spinPuntCtl : Nat := 0x20010
/-- SPIN_ERR (R448). -/
def Reg.spinErr : Nat := 0x20018
/-- SPIN_RESTART (R515). -/
def Reg.spinRestart : Nat := 0x20020
/-- SPIN_GROUP_g (R448). -/
def Reg.spinGroup (i : Nat) : Nat := 0x20100 + 0x8 * i
/-- SPIN_Q_q_CFG (R448). -/
def Reg.spinQCfg (i : Nat) : Nat := 0x21000 + 0x10 * i
/-- SPIN_Q_q_STAT (R448). -/
def Reg.spinQStat (i : Nat) : Nat := 0x21008 + 0x10 * i
/-- SPIN_PUNT_r (R448). -/
def Reg.spinPunt (i : Nat) : Nat := 0x22000 + 0x8 * i
/-- JACQ_PATCH_STAT (R450). -/
def Reg.jacqPatchStat : Nat := 0x30000
/-- JACQ_FLOOR (R450). -/
def Reg.jacqFloor : Nat := 0x30008
/-- JACQ_DISP_o (R450). -/
def Reg.jacqDisp (i : Nat) : Nat := 0x31000 + 0x8 * i
/-- JACQ_HOOK_h (R450). -/
def Reg.jacqHook (i : Nat) : Nat := 0x31800 + 0x8 * i
/-- TENSION_CTL (R466). -/
def Reg.tensionCtl : Nat := 0x40000
/-- TENSION_PROFILE (R466). -/
def Reg.tensionProfile : Nat := 0x40008
/-- TENSION_STAT (R467). -/
def Reg.tensionStat : Nat := 0x40010
/-- TENSION_TEMP (R467). -/
def Reg.tensionTemp : Nat := 0x40018
/-- TENSION_ERR (R468). -/
def Reg.tensionErr : Nat := 0x40020
/-- TENSION_AVS (R468). -/
def Reg.tensionAvs : Nat := 0x40028
/-- TENSION_LOOM_n (R469). -/
def Reg.tensionLoom (i : Nat) : Nat := 0x40100 + 0x8 * i
/-- TIME_CTL (R401). -/
def Reg.timeCtl : Nat := 0x50000
/-- TIME_ERR (R401). -/
def Reg.timeErr : Nat := 0x50008
/-- TIME_DOM_d_CTL (R402). -/
def Reg.timeDomCtl (i : Nat) : Nat := 0x50100 + 0x40 * i
/-- TIME_DOM_d_FREQ (R402). -/
def Reg.timeDomFreq (i : Nat) : Nat := 0x50108 + 0x40 * i
/-- TIME_DOM_d_SEC (R402). -/
def Reg.timeDomSec (i : Nat) : Nat := 0x50110 + 0x40 * i
/-- TIME_DOM_d_NS (R402). -/
def Reg.timeDomNs (i : Nat) : Nat := 0x50118 + 0x40 * i
/-- TIME_DOM_d_STEP (R402). -/
def Reg.timeDomStep (i : Nat) : Nat := 0x50120 + 0x40 * i
/-- TIME_TXQ_d_W0 (R402). -/
def Reg.timeTxqW0 (i : Nat) : Nat := 0x50128 + 0x40 * i
/-- TIME_TXQ_d_W1 (R402). -/
def Reg.timeTxqW1 (i : Nat) : Nat := 0x50130 + 0x40 * i
/-- TIME_TXQ_d_STAT (R402). -/
def Reg.timeTxqStat (i : Nat) : Nat := 0x50138 + 0x40 * i
/-- TIME_TPO_j_CTL (R403). -/
def Reg.timeTpoCtl (i : Nat) : Nat := 0x50400 + 0x20 * i
/-- TIME_TPO_j_START_SEC (R403). -/
def Reg.timeTpoStartSec (i : Nat) : Nat := 0x50408 + 0x20 * i
/-- TIME_TPO_j_START_NS (R403). -/
def Reg.timeTpoStartNs (i : Nat) : Nat := 0x50410 + 0x20 * i
/-- TIME_TPO_j_PERIOD (R403). -/
def Reg.timeTpoPeriod (i : Nat) : Nat := 0x50418 + 0x20 * i
/-- TIME_TPI_i_CTL (R404). -/
def Reg.timeTpiCtl (i : Nat) : Nat := 0x50600 + 0x20 * i
/-- TIME_TPI_i_W0 (R404). -/
def Reg.timeTpiW0 (i : Nat) : Nat := 0x50608 + 0x20 * i
/-- TIME_TPI_i_W1 (R404). -/
def Reg.timeTpiW1 (i : Nat) : Nat := 0x50610 + 0x20 * i
/-- TIME_TPI_i_STAT (R404). -/
def Reg.timeTpiStat (i : Nat) : Nat := 0x50618 + 0x20 * i
/-- TIME_SENSE_i (R405). -/
def Reg.timeSense (i : Nat) : Nat := 0x50800 + 0x8 * i
/-- TIME_SENSE_TBL_k (R405). -/
def Reg.timeSenseTbl (i : Nat) : Nat := 0x50880 + 0x8 * i
/-- TIME_HOLD_CFG (R406). -/
def Reg.timeHoldCfg : Nat := 0x50900
/-- TIME_HOLD_TREF (R406). -/
def Reg.timeHoldTref : Nat := 0x50908
/-- TIME_HOLD_STAT (R406). -/
def Reg.timeHoldStat : Nat := 0x50910
/-- TIME_HOLD_RANGE (R406). -/
def Reg.timeHoldRange : Nat := 0x50918
/-- TIME_HOLD_C0 (R406). -/
def Reg.timeHoldC0 : Nat := 0x50920
/-- TIME_HOLD_C1 (R406). -/
def Reg.timeHoldC1 : Nat := 0x50928
/-- TIME_HOLD_C2 (R406). -/
def Reg.timeHoldC2 : Nat := 0x50930
/-- TIME_HOLD_D (R406). -/
def Reg.timeHoldD : Nat := 0x50938
/-- TIME_HOLD_PRED (R406). -/
def Reg.timeHoldPred : Nat := 0x50940
/-- DPLL_CTL (R407). -/
def Reg.dpllCtl : Nat := 0x50A00
/-- DPLL_STAT (R407). -/
def Reg.dpllStat : Nat := 0x50A08
/-- DPLL_REF_r (R407). -/
def Reg.dpllRef (i : Nat) : Nat := 0x50A10 + 0x8 * i
/-- SYNCE_OUT_j (R407). -/
def Reg.synceOut (i : Nat) : Nat := 0x50A30 + 0x8 * i
/-- TIME_PORT_p (R408). -/
def Reg.timePort (i : Nat) : Nat := 0x51000 + 0x8 * i
/-- GLASS_SNAP (R485). -/
def Reg.glassSnap : Nat := 0x60000
/-- GLASS_SNAP_TIME (R485). -/
def Reg.glassSnapTime : Nat := 0x60008
/-- GLASS_ERR (R485). -/
def Reg.glassErr : Nat := 0x60010
/-- GLASS_EVT_OVF (R485). -/
def Reg.glassEvtOvf : Nat := 0x60018
/-- GLASS_POOL_k (R485). -/
def Reg.glassPool (i : Nat) : Nat := 0x60100 + 0x8 * i
/-- GLASS_EVT_i_CTL (R486). -/
def Reg.glassEvtCtl (i : Nat) : Nat := 0x60200 + 0x20 * i
/-- GLASS_EVT_i_ALO (R486). -/
def Reg.glassEvtAlo (i : Nat) : Nat := 0x60208 + 0x20 * i
/-- GLASS_EVT_i_AHI (R486). -/
def Reg.glassEvtAhi (i : Nat) : Nat := 0x60210 + 0x20 * i
/-- GLASS_SMP_CTL (R487). -/
def Reg.glassSmpCtl : Nat := 0x60400
/-- GLASS_SMP_BASE (R487). -/
def Reg.glassSmpBase : Nat := 0x60408
/-- GLASS_SMP_SIZE (R487). -/
def Reg.glassSmpSize : Nat := 0x60410
/-- GLASS_SMP_PROD (R487). -/
def Reg.glassSmpProd : Nat := 0x60418
/-- GLASS_SMP_CONS (R487). -/
def Reg.glassSmpCons : Nat := 0x60420
/-- GLASS_SMP_STAT (R487). -/
def Reg.glassSmpStat : Nat := 0x60428
/-- GLASS_BW_CTL (R487). -/
def Reg.glassBwCtl : Nat := 0x60500
/-- DIGEST_SNAP (R499). -/
def Reg.digestSnap : Nat := 0x70000
/-- DIGEST_FAULT (R499). -/
def Reg.digestFault : Nat := 0x70008
/-- DIGEST_SCAN_BASE (R499). -/
def Reg.digestScanBase : Nat := 0x70010
/-- DIGEST_SCAN_LEN (R499). -/
def Reg.digestScanLen : Nat := 0x70018
/-- DIGEST_SCAN_CTL (R499). -/
def Reg.digestScanCtl : Nat := 0x70020
/-- DIGEST_SCAN_HI (R499). -/
def Reg.digestScanHi : Nat := 0x70028
/-- DIGEST_SCAN_LO (R499). -/
def Reg.digestScanLo : Nat := 0x70030
/-- DIGEST_UNIT_u_HI (R499). -/
def Reg.digestUnitHi (i : Nat) : Nat := 0x70100 + 0x10 * i
/-- DIGEST_UNIT_u_LO (R499). -/
def Reg.digestUnitLo (i : Nat) : Nat := 0x70108 + 0x10 * i
/-- DIGEST_SNAP_u_HI (R499). -/
def Reg.digestSnapHi (i : Nat) : Nat := 0x70400 + 0x10 * i
/-- DIGEST_SNAP_u_LO (R499). -/
def Reg.digestSnapLo (i : Nat) : Nat := 0x70408 + 0x10 * i
/-- DIGEST_PART_u_k_HI (R499). -/
def Reg.digestPartHi (i : Nat) (j : Nat) : Nat := 0x70800 + 0x50 * i + 0x10 * j
/-- DIGEST_PART_u_k_LO (R499). -/
def Reg.digestPartLo (i : Nat) (j : Nat) : Nat := 0x70808 + 0x50 * i + 0x10 * j
/-- DIGEST_SNAPP_u_k_HI (R499). -/
def Reg.digestSnappHi (i : Nat) (j : Nat) : Nat := 0x71000 + 0x50 * i + 0x10 * j
/-- DIGEST_SNAPP_u_k_LO (R499). -/
def Reg.digestSnappLo (i : Nat) (j : Nat) : Nat := 0x71008 + 0x50 * i + 0x10 * j
/-- LOOM_HEDDLE_CTL (R125). -/
def Reg.loomHeddleCtl (i : Nat) : Nat := 0x101000 + 0x10000 * i
/-- LOOM_PORT_CLASS_LO (R126). -/
def Reg.loomPortClassLo (i : Nat) : Nat := 0x101008 + 0x10000 * i
/-- LOOM_PORT_CLASS_HI (R126). -/
def Reg.loomPortClassHi (i : Nat) : Nat := 0x101010 + 0x10000 * i
/-- LOOM_PUNT_BKT_r (R127). -/
def Reg.loomPuntBkt (i : Nat) (j : Nat) : Nat := 0x101100 + 0x10000 * i + 0x8 * j
/-- LOOM_PUNT_STAT_r (R128). -/
def Reg.loomPuntStat (i : Nat) (j : Nat) : Nat := 0x101300 + 0x10000 * i + 0x8 * j
/-- LOOM_XLAT_PFX_HI (R195). -/
def Reg.loomXlatPfxHi (i : Nat) : Nat := 0x101800 + 0x10000 * i
/-- LOOM_XLAT_PFX_LO (R195). -/
def Reg.loomXlatPfxLo (i : Nat) : Nat := 0x101808 + 0x10000 * i
/-- WARP_CTL (R167). -/
def Reg.warpCtl : Nat := 0x200000
/-- WARP_GEN (R168). -/
def Reg.warpGen : Nat := 0x200008
/-- WARP_REGION (R169). -/
def Reg.warpRegion : Nat := 0x200010
/-- WARP_TBL_t (R170). -/
def Reg.warpTbl (i : Nat) : Nat := 0x200018 + 0x8 * i
/-- WARP_OVF_CFG (R171). -/
def Reg.warpOvfCfg : Nat := 0x200028
/-- WARP_OVF_STAT (R172). -/
def Reg.warpOvfStat : Nat := 0x200030
/-- WARP_SEED0_LO (R173). -/
def Reg.warpSeed0Lo : Nat := 0x200038
/-- WARP_SEED0_HI (R173). -/
def Reg.warpSeed0Hi : Nat := 0x200040
/-- WARP_SEED1_LO (R173). -/
def Reg.warpSeed1Lo : Nat := 0x200048
/-- WARP_SEED1_HI (R173). -/
def Reg.warpSeed1Hi : Nat := 0x200050
/-- WARP_SEAL_KEY_LO (R173). -/
def Reg.warpSealKeyLo : Nat := 0x200058
/-- WARP_SEAL_KEY_HI (R173). -/
def Reg.warpSealKeyHi : Nat := 0x200060
/-- WARP_CACHE_CTL (R174). -/
def Reg.warpCacheCtl : Nat := 0x200068
/-- WARP_SWEEP_CTL (R175). -/
def Reg.warpSweepCtl : Nat := 0x200070
/-- WARP_REHASH_CTL (R176). -/
def Reg.warpRehashCtl : Nat := 0x200078
/-- WARP_REHASH_STAT (R177). -/
def Reg.warpRehashStat : Nat := 0x200080
/-- WARP_INIT (R178). -/
def Reg.warpInit : Nat := 0x200088
/-- WARP_ERR (R179). -/
def Reg.warpErr : Nat := 0x200090
/-- WARP_OCC (R180). -/
def Reg.warpOcc : Nat := 0x200098
/-- WARP_RD_CMD (R181). -/
def Reg.warpRdCmd : Nat := 0x2000A0
/-- WARP_RD_STAT (R181). -/
def Reg.warpRdStat : Nat := 0x2000A8
/-- WARP_KEYFORM_f (R182). -/
def Reg.warpKeyform (i : Nat) : Nat := 0x200100 + 0x8 * i
/-- WARP_RD_DATA_k (R183). -/
def Reg.warpRdData (i : Nat) : Nat := 0x200200 + 0x8 * i
/-- WARP_STBL6_BASE (R201). -/
def Reg.warpStbl6Base : Nat := 0x200400
/-- WARP_STBL6_NB (R201). -/
def Reg.warpStbl6Nb : Nat := 0x200408
/-- WARP_STBL6_SEED (R201). -/
def Reg.warpStbl6Seed : Nat := 0x200410
/-- WARP_STBL6_MIRROR (R201). -/
def Reg.warpStbl6Mirror : Nat := 0x200418
/-- WARP_STBL7_BASE (R201). -/
def Reg.warpStbl7Base : Nat := 0x200440
/-- WARP_STBL7_NB (R201). -/
def Reg.warpStbl7Nb : Nat := 0x200448
/-- WARP_STBL7_SEED (R201). -/
def Reg.warpStbl7Seed : Nat := 0x200450
/-- WARP_FDIG_CTL (R219). -/
def Reg.warpFdigCtl : Nat := 0x200500
/-- WARP_FDIG_BASE (R219). -/
def Reg.warpFdigBase : Nat := 0x200508
/-- WARP_FDIG_SIZE (R219). -/
def Reg.warpFdigSize : Nat := 0x200510
/-- WARP_FDIG_PROD (R219). -/
def Reg.warpFdigProd : Nat := 0x200518
/-- WARP_FDIG_CONS (R219). -/
def Reg.warpFdigCons : Nat := 0x200520
/-- WARP_FDIG_STAT (R219). -/
def Reg.warpFdigStat : Nat := 0x200528
/-- REED_CTL (R246). -/
def Reg.reedCtl : Nat := 0x210000
/-- REED_RECLASS (R247). -/
def Reg.reedReclass : Nat := 0x210008
/-- REED_ERR (R248). -/
def Reg.reedErr : Nat := 0x210010
/-- REED_ERR_IDX (R248). -/
def Reg.reedErrIdx : Nat := 0x210018
/-- REED_TREADLE_CTL (R374). -/
def Reg.reedTreadleCtl : Nat := 0x210020
/-- REED_TREADLE_TBL_LO (R374). -/
def Reg.reedTreadleTblLo : Nat := 0x210028
/-- REED_TREADLE_TBL_HI (R374). -/
def Reg.reedTreadleTblHi : Nat := 0x210030
/-- REED_PORT_STAT_q (R249). -/
def Reg.reedPortStat (i : Nat) : Nat := 0x210040 + 0x8 * i
/-- REED_BANK_b (R250). -/
def Reg.reedBank (i : Nat) : Nat := 0x210100 + 0x8 * i
/-- REED_SPROF_p_CTL (R251). -/
def Reg.reedSprofCtl (i : Nat) : Nat := 0x211000 + 0x40 * i
/-- REED_SPROF_p_MASK_LO (R251). -/
def Reg.reedSprofMaskLo (i : Nat) : Nat := 0x211008 + 0x40 * i
/-- REED_SPROF_p_MASK_HI (R251). -/
def Reg.reedSprofMaskHi (i : Nat) : Nat := 0x211010 + 0x40 * i
/-- REED_SPROF_p_SLOTS_A (R251). -/
def Reg.reedSprofSlotsA (i : Nat) : Nat := 0x211018 + 0x40 * i
/-- REED_SPROF_p_SLOTS_B (R251). -/
def Reg.reedSprofSlotsB (i : Nat) : Nat := 0x211020 + 0x40 * i
/-- TWILL_CTL (R252). -/
def Reg.twillCtl : Nat := 0x220000
/-- TWILL_CFG (R253). -/
def Reg.twillCfg : Nat := 0x220008
/-- TWILL_STAT (R254). -/
def Reg.twillStat : Nat := 0x220010
/-- TWILL_ERR (R254). -/
def Reg.twillErr : Nat := 0x220018
/-- TWILL_ENG_e (R255). -/
def Reg.twillEng (i : Nat) : Nat := 0x220040 + 0x8 * i
/-- TWILL_SET_k (R255). -/
def Reg.twillSet (i : Nat) : Nat := 0x220100 + 0x8 * i
/-- BEAM_CTL (R311). -/
def Reg.beamCtl : Nat := 0x230000
/-- BEAM_POOL (R312). -/
def Reg.beamPool : Nat := 0x230008
/-- BEAM_POOL_STAT (R313). -/
def Reg.beamPoolStat : Nat := 0x230010
/-- BEAM_RSV_STAT (R313). -/
def Reg.beamRsvStat : Nat := 0x230018
/-- BEAM_FLUSH_CMD (R314). -/
def Reg.beamFlushCmd : Nat := 0x230020
/-- BEAM_FLUSH_STAT (R314). -/
def Reg.beamFlushStat : Nat := 0x230028
/-- BEAM_ERR (R315). -/
def Reg.beamErr : Nat := 0x230030
/-- BEAM_PORT_p (R316). -/
def Reg.beamPort (i : Nat) : Nat := 0x231000 + 0x8 * i
/-- BEAM_DRAFT_CTL (R97). -/
def Reg.beamDraftCtl : Nat := 0x23F000
/-- BEAM_DRAFT_STAT (R98). -/
def Reg.beamDraftStat : Nat := 0x23F008
/-- BEAM_EPOCH_CNT (R99). -/
def Reg.beamEpochCnt : Nat := 0x23F010
/-- BEAM_BATTEN_CMD (R100). -/
def Reg.beamBattenCmd : Nat := 0x23F020
/-- BEAM_BATTEN_STAT (R101). -/
def Reg.beamBattenStat : Nat := 0x23F028
/-- BEAM_HSTAGE_ADDR (R102). -/
def Reg.beamHstageAddr : Nat := 0x23F030
/-- BEAM_HSTAGE_DATA (R103). -/
def Reg.beamHstageData : Nat := 0x23F038
/-- BEAM_HSTAGE_STAT (R104). -/
def Reg.beamHstageStat : Nat := 0x23F040
/-- BEAM_BATTEN_EVT (R105). -/
def Reg.beamBattenEvt : Nat := 0x23F048
/-- LEARN_CTL (R278). -/
def Reg.learnCtl : Nat := 0x240000
/-- LEARN_FLAP (R279). -/
def Reg.learnFlap : Nat := 0x240008
/-- LEARN_STAT (R280). -/
def Reg.learnStat : Nat := 0x240010
/-- LEARN_ERR (R280). -/
def Reg.learnErr : Nat := 0x240018
/-- LEARN_DEFER (R280). -/
def Reg.learnDefer : Nat := 0x240020
/-- LEARN_AGE_CMD (R281). -/
def Reg.learnAgeCmd : Nat := 0x240030
/-- LEARN_AGE_STAT (R281). -/
def Reg.learnAgeStat : Nat := 0x240038
/-- LEARN_CMP_SRC (R283). -/
def Reg.learnCmpSrc : Nat := 0x240080
/-- LEARN_CMP_DST (R283). -/
def Reg.learnCmpDst : Nat := 0x240088
/-- LEARN_CMP_LEN (R283). -/
def Reg.learnCmpLen : Nat := 0x240090
/-- LEARN_CMP_CTL (R283). -/
def Reg.learnCmpCtl : Nat := 0x240098
/-- LEARN_CMP_STAT (R283). -/
def Reg.learnCmpStat : Nat := 0x2400A0
/-- LEARN_LPMX_BASE (R282). -/
def Reg.learnLpmxBase (i : Nat) : Nat := 0x240040 + 0x10 * i
/-- LEARN_LPMX_CNT (R282). -/
def Reg.learnLpmxCnt (i : Nat) : Nat := 0x240048 + 0x10 * i
/-- LEARN_PORT_p (R284). -/
def Reg.learnPort (i : Nat) : Nat := 0x241000 + 0x8 * i
/-- SELV_TRAIN_CTL (R341). -/
def Reg.selvTrainCtl (i : Nat) : Nat := 0x300000 + 0x10000 * i
/-- SELV_RETRAIN (R342). -/
def Reg.selvRetrain (i : Nat) : Nat := 0x300008 + 0x10000 * i
/-- SELV_ERR (R343). -/
def Reg.selvErr (i : Nat) : Nat := 0x300010 + 0x10000 * i
/-- SELV_ERR_PORT (R343). -/
def Reg.selvErrPort (i : Nat) : Nat := 0x300018 + 0x10000 * i
/-- SELV_PORT_CFG_k (R344). -/
def Reg.selvPortCfg (i : Nat) (j : Nat) : Nat := 0x301000 + 0x10000 * i + 0x8 * j
/-- SELV_PORT_TAG_k (R345). -/
def Reg.selvPortTag (i : Nat) (j : Nat) : Nat := 0x301200 + 0x10000 * i + 0x8 * j
/-- SELV_PORT_PFC_k (R346). -/
def Reg.selvPortPfc (i : Nat) (j : Nat) : Nat := 0x301400 + 0x10000 * i + 0x8 * j
/-- SELV_PORT_LPI_k (R347). -/
def Reg.selvPortLpi (i : Nat) (j : Nat) : Nat := 0x301600 + 0x10000 * i + 0x8 * j
/-- SELV_PORT_STAT_k (R348). -/
def Reg.selvPortStat (i : Nat) (j : Nat) : Nat := 0x301800 + 0x10000 * i + 0x8 * j
/-- CREEL_CTL (R368). -/
def Reg.creelCtl (i : Nat) : Nat := 0x400000 + 0x10000 * i
/-- CREEL_STAT (R369). -/
def Reg.creelStat (i : Nat) : Nat := 0x400008 + 0x10000 * i
/-- CREEL_ERR (R370). -/
def Reg.creelErr (i : Nat) : Nat := 0x400010 + 0x10000 * i
/-- CREEL_ERR_INFO (R370). -/
def Reg.creelErrInfo (i : Nat) : Nat := 0x400018 + 0x10000 * i
/-- CREEL_CMD (R371). -/
def Reg.creelCmd (i : Nat) : Nat := 0x400020 + 0x10000 * i
/-- CREEL_CMD_STAT (R371). -/
def Reg.creelCmdStat (i : Nat) : Nat := 0x400028 + 0x10000 * i
/-- CREEL_RETIRE_STAT (R371). -/
def Reg.creelRetireStat (i : Nat) : Nat := 0x400030 + 0x10000 * i
/-- CREEL_TREADLE (R369). -/
def Reg.creelTreadle (i : Nat) : Nat := 0x400038 + 0x10000 * i
/-- CREEL_CHAN_c (R372). -/
def Reg.creelChan (i : Nat) (j : Nat) : Nat := 0x400100 + 0x10000 * i + 0x8 * j

/-- IDENT_PART.VENDOR -/ def Fld.identPartVendor : Fld := ⟨47, 32⟩
/-- IDENT_PART.PART -/ def Fld.identPartPart : Fld := ⟨31, 16⟩
/-- IDENT_PART.STEP_LETTER -/ def Fld.identPartStepLetter : Fld := ⟨15, 12⟩
/-- IDENT_PART.STEP_DIGIT -/ def Fld.identPartStepDigit : Fld := ⟨11, 8⟩
/-- IDENT_BOOT_STAT.VERSION -/ def Fld.identBootStatVersion : Fld := ⟨63, 32⟩
/-- IDENT_BOOT_STAT.CODE -/ def Fld.identBootStatCode : Fld := ⟨15, 12⟩
/-- IDENT_BOOT_STAT.IMAGE -/ def Fld.identBootStatImage : Fld := ⟨11, 10⟩
/-- IDENT_BOOT_STAT.UNSECURED -/ def Fld.identBootStatUnsecured : Fld := ⟨9, 9⟩
/-- IDENT_BOOT_STAT.PHASE -/ def Fld.identBootStatPhase : Fld := ⟨2, 0⟩
/-- IDENT_FUSE.SECURE -/ def Fld.identFuseSecure : Fld := ⟨8, 8⟩
/-- IDENT_FUSE.SEC_FLOOR -/ def Fld.identFuseSecFloor : Fld := ⟨7, 0⟩
/-- IDENT_BOOT_CMD.GO -/ def Fld.identBootCmdGo : Fld := ⟨63, 63⟩
/-- IDENT_BOOT_CMD.ADDR -/ def Fld.identBootCmdAddr : Fld := ⟨47, 0⟩
/-- HOSTIF_APERTURE.BASE -/ def Fld.hostifApertureBase : Fld := ⟨15, 0⟩
/-- RING_n_BASE.BASE -/ def Fld.ringBaseBase : Fld := ⟨47, 0⟩
/-- RING_n_CFG.VEC -/ def Fld.ringCfgVec : Fld := ⟨63, 58⟩
/-- RING_n_CFG.MSI_EN -/ def Fld.ringCfgMsiEn : Fld := ⟨57, 57⟩
/-- RING_n_CFG.MOD_US -/ def Fld.ringCfgModUs : Fld := ⟨56, 41⟩
/-- RING_n_CFG.SIZE -/ def Fld.ringCfgSize : Fld := ⟨16, 0⟩
/-- RING_n_PROD.PROD -/ def Fld.ringProdProd : Fld := ⟨31, 0⟩
/-- RING_n_CONS.CONS -/ def Fld.ringConsCons : Fld := ⟨31, 0⟩
/-- HOSTIF_EVT_CTL.R1_NOTIFY -/ def Fld.hostifEvtCtlR1Notify : Fld := ⟨49, 49⟩
/-- HOSTIF_EVT_CTL.R1_FLAG -/ def Fld.hostifEvtCtlR1Flag : Fld := ⟨48, 44⟩
/-- HOSTIF_EVT_CTL.R1_TASK -/ def Fld.hostifEvtCtlR1Task : Fld := ⟨43, 32⟩
/-- HOSTIF_EVT_CTL.DOMAIN -/ def Fld.hostifEvtCtlDomain : Fld := ⟨2, 0⟩
/-- HOSTIF_EVT_ROUTE.ROUTE -/ def Fld.hostifEvtRouteRoute : Fld := ⟨63, 0⟩
/-- HOSTIF_EVT_STAT.LOST1 -/ def Fld.hostifEvtStatLost1 : Fld := ⟨63, 32⟩
/-- HOSTIF_EVT_STAT.LOST0 -/ def Fld.hostifEvtStatLost0 : Fld := ⟨31, 0⟩
/-- HOSTIF_MSI_SEND.VECTOR -/ def Fld.hostifMsiSendVector : Fld := ⟨5, 0⟩
/-- HOSTIF_ERR.SQ_BAD -/ def Fld.hostifErrSqBad : Fld := ⟨2, 2⟩
/-- HOSTIF_ERR.EVR1_OVF -/ def Fld.hostifErrEvr1Ovf : Fld := ⟨1, 1⟩
/-- HOSTIF_ERR.EVR0_OVF -/ def Fld.hostifErrEvr0Ovf : Fld := ⟨0, 0⟩
/-- SPIN_TASK_CMD.GO -/ def Fld.spinTaskCmdGo : Fld := ⟨63, 63⟩
/-- SPIN_TASK_CMD.OP -/ def Fld.spinTaskCmdOp : Fld := ⟨62, 60⟩
/-- SPIN_TASK_CMD.TASK -/ def Fld.spinTaskCmdTask : Fld := ⟨43, 32⟩
/-- SPIN_TASK_CMD.MASK -/ def Fld.spinTaskCmdMask : Fld := ⟨31, 0⟩
/-- SPIN_TASK_STAT.CODE -/ def Fld.spinTaskStatCode : Fld := ⟨7, 0⟩
/-- SPIN_PUNT_CTL.FREE_UNITS -/ def Fld.spinPuntCtlFreeUnits : Fld := ⟨63, 40⟩
/-- SPIN_PUNT_CTL.RELEASE_MS -/ def Fld.spinPuntCtlReleaseMs : Fld := ⟨31, 16⟩
/-- SPIN_PUNT_CTL.DOMAIN -/ def Fld.spinPuntCtlDomain : Fld := ⟨2, 0⟩
/-- SPIN_ERR.LATE -/ def Fld.spinErrLate : Fld := ⟨3, 3⟩
/-- SPIN_ERR.PUNT_DROP -/ def Fld.spinErrPuntDrop : Fld := ⟨2, 2⟩
/-- SPIN_ERR.ILLEGAL -/ def Fld.spinErrIllegal : Fld := ⟨1, 1⟩
/-- SPIN_ERR.DEADLINE -/ def Fld.spinErrDeadline : Fld := ⟨0, 0⟩
/-- SPIN_RESTART.GO -/ def Fld.spinRestartGo : Fld := ⟨63, 63⟩
/-- SPIN_RESTART.BUSY -/ def Fld.spinRestartBusy : Fld := ⟨62, 62⟩
/-- SPIN_RESTART.CLEAR_PROG -/ def Fld.spinRestartClearProg : Fld := ⟨61, 61⟩
/-- SPIN_RESTART.CLEAR_SCRATCH -/ def Fld.spinRestartClearScratch : Fld := ⟨60, 60⟩
/-- SPIN_GROUP_g.RUN_US -/ def Fld.spinGroupRunUs : Fld := ⟨63, 32⟩
/-- SPIN_GROUP_g.WEIGHT -/ def Fld.spinGroupWeight : Fld := ⟨15, 0⟩
/-- SPIN_Q_q_CFG.NOTIFY_EN -/ def Fld.spinQCfgNotifyEn : Fld := ⟨63, 63⟩
/-- SPIN_Q_q_CFG.NOTIFY_FLAG -/ def Fld.spinQCfgNotifyFlag : Fld := ⟨62, 58⟩
/-- SPIN_Q_q_CFG.NOTIFY_TASK -/ def Fld.spinQCfgNotifyTask : Fld := ⟨57, 46⟩
/-- SPIN_Q_q_CFG.DEPTH -/ def Fld.spinQCfgDepth : Fld := ⟨32, 16⟩
/-- SPIN_Q_q_CFG.BASE -/ def Fld.spinQCfgBase : Fld := ⟨15, 0⟩
/-- SPIN_Q_q_STAT.REFUSED -/ def Fld.spinQStatRefused : Fld := ⟨63, 32⟩
/-- SPIN_Q_q_STAT.COUNT -/ def Fld.spinQStatCount : Fld := ⟨16, 0⟩
/-- SPIN_PUNT_r.DROPPED -/ def Fld.spinPuntDropped : Fld := ⟨63, 32⟩
/-- SPIN_PUNT_r.LATE -/ def Fld.spinPuntLate : Fld := ⟨31, 16⟩
/-- SPIN_PUNT_r.ORDERED -/ def Fld.spinPuntOrdered : Fld := ⟨8, 8⟩
/-- SPIN_PUNT_r.QUEUE -/ def Fld.spinPuntQueue : Fld := ⟨7, 0⟩
/-- JACQ_PATCH_STAT.VERSION -/ def Fld.jacqPatchStatVersion : Fld := ⟨63, 32⟩
/-- JACQ_PATCH_STAT.SWITCHING -/ def Fld.jacqPatchStatSwitching : Fld := ⟨2, 2⟩
/-- JACQ_PATCH_STAT.VALID -/ def Fld.jacqPatchStatValid : Fld := ⟨1, 1⟩
/-- JACQ_PATCH_STAT.HALF -/ def Fld.jacqPatchStatHalf : Fld := ⟨0, 0⟩
/-- JACQ_FLOOR.FLOOR -/ def Fld.jacqFloorFloor : Fld := ⟨31, 0⟩
/-- JACQ_DISP_o.PATCHED -/ def Fld.jacqDispPatched : Fld := ⟨15, 15⟩
/-- JACQ_DISP_o.TARGET -/ def Fld.jacqDispTarget : Fld := ⟨14, 0⟩
/-- JACQ_HOOK_h.VALID -/ def Fld.jacqHookValid : Fld := ⟨63, 63⟩
/-- JACQ_HOOK_h.ROM_ADDR -/ def Fld.jacqHookRomAddr : Fld := ⟨30, 16⟩
/-- JACQ_HOOK_h.TARGET -/ def Fld.jacqHookTarget : Fld := ⟨14, 0⟩
/-- TENSION_CTL.VMAN -/ def Fld.tensionCtlVman : Fld := ⟨41, 32⟩
/-- TENSION_CTL.MARGIN -/ def Fld.tensionCtlMargin : Fld := ⟨15, 1⟩
/-- TENSION_CTL.ENABLE -/ def Fld.tensionCtlEnable : Fld := ⟨0, 0⟩
/-- TENSION_PROFILE.PROFILE -/ def Fld.tensionProfileProfile : Fld := ⟨1, 0⟩
/-- TENSION_STAT.VOUT -/ def Fld.tensionStatVout : Fld := ⟨63, 54⟩
/-- TENSION_STAT.VCMD -/ def Fld.tensionStatVcmd : Fld := ⟨53, 44⟩
/-- TENSION_STAT.SLOWEST -/ def Fld.tensionStatSlowest : Fld := ⟨43, 40⟩
/-- TENSION_STAT.CEILING -/ def Fld.tensionStatCeiling : Fld := ⟨39, 39⟩
/-- TENSION_STAT.POWER -/ def Fld.tensionStatPower : Fld := ⟨15, 0⟩
/-- TENSION_TEMP.TJ -/ def Fld.tensionTempTj : Fld := ⟨63, 48⟩
/-- TENSION_TEMP.SENSOR -/ def Fld.tensionTempSensor : Fld := ⟨37, 32⟩
/-- TENSION_TEMP.WARN -/ def Fld.tensionTempWarn : Fld := ⟨7, 0⟩
/-- TENSION_ERR.COLD -/ def Fld.tensionErrCold : Fld := ⟨4, 4⟩
/-- TENSION_ERR.GATE_REFUSED -/ def Fld.tensionErrGateRefused : Fld := ⟨3, 3⟩
/-- TENSION_ERR.BRAKE -/ def Fld.tensionErrBrake : Fld := ⟨2, 2⟩
/-- TENSION_ERR.HOT -/ def Fld.tensionErrHot : Fld := ⟨1, 1⟩
/-- TENSION_ERR.AVS -/ def Fld.tensionErrAvs : Fld := ⟨0, 0⟩
/-- TENSION_AVS.ADDR -/ def Fld.tensionAvsAddr : Fld := ⟨3, 0⟩
/-- TENSION_LOOM_n.NAT_RATE -/ def Fld.tensionLoomNatRate : Fld := ⟨63, 48⟩
/-- TENSION_LOOM_n.TARGET -/ def Fld.tensionLoomTarget : Fld := ⟨47, 32⟩
/-- TENSION_LOOM_n.DEMAND -/ def Fld.tensionLoomDemand : Fld := ⟨31, 16⟩
/-- TENSION_LOOM_n.STATE -/ def Fld.tensionLoomState : Fld := ⟨3, 2⟩
/-- TENSION_LOOM_n.GATE -/ def Fld.tensionLoomGate : Fld := ⟨0, 0⟩
/-- TIME_CTL.SNAP -/ def Fld.timeCtlSnap : Fld := ⟨2, 2⟩
/-- TIME_CTL.OSC_FREQ -/ def Fld.timeCtlOscFreq : Fld := ⟨1, 0⟩
/-- TIME_ERR.SKIP -/ def Fld.timeErrSkip : Fld := ⟨7, 7⟩
/-- TIME_ERR.PULSE_MISSED -/ def Fld.timeErrPulseMissed : Fld := ⟨6, 6⟩
/-- TIME_ERR.SENSE_FAULT -/ def Fld.timeErrSenseFault : Fld := ⟨5, 5⟩
/-- TIME_ERR.EXTRAP -/ def Fld.timeErrExtrap : Fld := ⟨4, 4⟩
/-- TIME_ERR.HOLD -/ def Fld.timeErrHold : Fld := ⟨3, 3⟩
/-- TIME_ERR.LOS -/ def Fld.timeErrLos : Fld := ⟨2, 2⟩
/-- TIME_ERR.CAP_OVF -/ def Fld.timeErrCapOvf : Fld := ⟨1, 1⟩
/-- TIME_ERR.TXQ_OVF -/ def Fld.timeErrTxqOvf : Fld := ⟨0, 0⟩
/-- TIME_DOM_d_CTL.ENABLE -/ def Fld.timeDomCtlEnable : Fld := ⟨63, 63⟩
/-- TIME_DOM_d_CTL.SOURCE -/ def Fld.timeDomCtlSource : Fld := ⟨62, 62⟩
/-- TIME_DOM_d_CTL.HOLD_EN -/ def Fld.timeDomCtlHoldEn : Fld := ⟨61, 61⟩
/-- TIME_DOM_d_CTL.HOLD_AUTO -/ def Fld.timeDomCtlHoldAuto : Fld := ⟨60, 60⟩
/-- TIME_DOM_d_CTL.REF_CAP -/ def Fld.timeDomCtlRefCap : Fld := ⟨59, 58⟩
/-- TIME_DOM_d_CTL.REF_STATE -/ def Fld.timeDomCtlRefState : Fld := ⟨57, 57⟩
/-- TIME_DOM_d_CTL.HOLD -/ def Fld.timeDomCtlHold : Fld := ⟨56, 56⟩
/-- TIME_DOM_d_CTL.SET -/ def Fld.timeDomCtlSet : Fld := ⟨55, 55⟩
/-- TIME_DOM_d_CTL.SKIPS -/ def Fld.timeDomCtlSkips : Fld := ⟨47, 32⟩
/-- TIME_DOM_d_CTL.STEP_EPOCH -/ def Fld.timeDomCtlStepEpoch : Fld := ⟨31, 0⟩
/-- TIME_DOM_d_FREQ.FREQ_ADJ -/ def Fld.timeDomFreqFreqAdj : Fld := ⟨39, 0⟩
/-- TIME_DOM_d_SEC.SECONDS -/ def Fld.timeDomSecSeconds : Fld := ⟨47, 0⟩
/-- TIME_DOM_d_NS.NS -/ def Fld.timeDomNsNs : Fld := ⟨45, 16⟩
/-- TIME_DOM_d_NS.SUBNS -/ def Fld.timeDomNsSubns : Fld := ⟨15, 0⟩
/-- TIME_DOM_d_STEP.STEP -/ def Fld.timeDomStepStep : Fld := ⟨63, 0⟩
/-- TIME_TXQ_d_W0.VALID -/ def Fld.timeTxqW0Valid : Fld := ⟨63, 63⟩
/-- TIME_TXQ_d_W0.PORT -/ def Fld.timeTxqW0Port : Fld := ⟨62, 53⟩
/-- TIME_TXQ_d_W0.ID -/ def Fld.timeTxqW0Id : Fld := ⟨47, 32⟩
/-- TIME_TXQ_d_W0.SUBNS -/ def Fld.timeTxqW0Subns : Fld := ⟨31, 16⟩
/-- TIME_TXQ_d_W0.SEC_HI -/ def Fld.timeTxqW0SecHi : Fld := ⟨15, 0⟩
/-- TIME_TXQ_d_W1.SEC_LO -/ def Fld.timeTxqW1SecLo : Fld := ⟨63, 32⟩
/-- TIME_TXQ_d_W1.NS -/ def Fld.timeTxqW1Ns : Fld := ⟨29, 0⟩
/-- TIME_TXQ_d_STAT.OVF_CNT -/ def Fld.timeTxqStatOvfCnt : Fld := ⟨63, 32⟩
/-- TIME_TXQ_d_STAT.UNSENT -/ def Fld.timeTxqStatUnsent : Fld := ⟨31, 16⟩
/-- TIME_TXQ_d_STAT.OVF -/ def Fld.timeTxqStatOvf : Fld := ⟨7, 7⟩
/-- TIME_TXQ_d_STAT.COUNT -/ def Fld.timeTxqStatCount : Fld := ⟨6, 0⟩
/-- TIME_TPO_j_CTL.ENABLE -/ def Fld.timeTpoCtlEnable : Fld := ⟨63, 63⟩
/-- TIME_TPO_j_CTL.DOMAIN -/ def Fld.timeTpoCtlDomain : Fld := ⟨62, 60⟩
/-- TIME_TPO_j_CTL.POL -/ def Fld.timeTpoCtlPol : Fld := ⟨59, 59⟩
/-- TIME_TPO_j_CTL.ARMED -/ def Fld.timeTpoCtlArmed : Fld := ⟨58, 58⟩
/-- TIME_TPO_j_CTL.WIDTH -/ def Fld.timeTpoCtlWidth : Fld := ⟨29, 0⟩
/-- TIME_TPO_j_START_SEC.SECONDS -/ def Fld.timeTpoStartSecSeconds : Fld := ⟨47, 0⟩
/-- TIME_TPO_j_START_NS.NS -/ def Fld.timeTpoStartNsNs : Fld := ⟨29, 0⟩
/-- TIME_TPO_j_PERIOD.PERIOD -/ def Fld.timeTpoPeriodPeriod : Fld := ⟨33, 0⟩
/-- TIME_TPI_i_CTL.FUNCTION -/ def Fld.timeTpiCtlFunction : Fld := ⟨63, 62⟩
/-- TIME_TPI_i_CTL.EDGE -/ def Fld.timeTpiCtlEdge : Fld := ⟨61, 60⟩
/-- TIME_TPI_i_CTL.DOMAIN -/ def Fld.timeTpiCtlDomain : Fld := ⟨59, 57⟩
/-- TIME_TPI_i_CTL.LOS -/ def Fld.timeTpiCtlLos : Fld := ⟨56, 56⟩
/-- TIME_TPI_i_CTL.WATCH_MS -/ def Fld.timeTpiCtlWatchMs : Fld := ⟨15, 0⟩
/-- TIME_TPI_i_W0.VALID -/ def Fld.timeTpiW0Valid : Fld := ⟨63, 63⟩
/-- TIME_TPI_i_W0.FALL -/ def Fld.timeTpiW0Fall : Fld := ⟨62, 62⟩
/-- TIME_TPI_i_W0.SECONDS -/ def Fld.timeTpiW0Seconds : Fld := ⟨47, 0⟩
/-- TIME_TPI_i_W1.NS -/ def Fld.timeTpiW1Ns : Fld := ⟨45, 16⟩
/-- TIME_TPI_i_W1.SUBNS -/ def Fld.timeTpiW1Subns : Fld := ⟨15, 0⟩
/-- TIME_TPI_i_STAT.OVF_CNT -/ def Fld.timeTpiStatOvfCnt : Fld := ⟨63, 32⟩
/-- TIME_TPI_i_STAT.OVF -/ def Fld.timeTpiStatOvf : Fld := ⟨7, 7⟩
/-- TIME_TPI_i_STAT.COUNT -/ def Fld.timeTpiStatCount : Fld := ⟨4, 0⟩
/-- TIME_SENSE_i.FAULT -/ def Fld.timeSenseFault : Fld := ⟨63, 63⟩
/-- TIME_SENSE_i.CODE -/ def Fld.timeSenseCode : Fld := ⟨47, 32⟩
/-- TIME_SENSE_i.TEMP -/ def Fld.timeSenseTemp : Fld := ⟨15, 0⟩
/-- TIME_SENSE_TBL_k.CODE -/ def Fld.timeSenseTblCode : Fld := ⟨63, 48⟩
/-- TIME_SENSE_TBL_k.TEMP -/ def Fld.timeSenseTblTemp : Fld := ⟨15, 0⟩
/-- TIME_HOLD_CFG.SRC -/ def Fld.timeHoldCfgSrc : Fld := ⟨63, 60⟩
/-- TIME_HOLD_CFG.SENSE -/ def Fld.timeHoldCfgSense : Fld := ⟨59, 58⟩
/-- TIME_HOLD_CFG.FORGET -/ def Fld.timeHoldCfgForget : Fld := ⟨57, 54⟩
/-- TIME_HOLD_CFG.EXTRAP -/ def Fld.timeHoldCfgExtrap : Fld := ⟨53, 48⟩
/-- TIME_HOLD_CFG.SPAN_MIN_Q -/ def Fld.timeHoldCfgSpanMinQ : Fld := ⟨47, 40⟩
/-- TIME_HOLD_CFG.SPAN_MIN_L -/ def Fld.timeHoldCfgSpanMinL : Fld := ⟨39, 32⟩
/-- TIME_HOLD_CFG.AGE_MIN_DAYS -/ def Fld.timeHoldCfgAgeMinDays : Fld := ⟨31, 24⟩
/-- TIME_HOLD_CFG.SAMPLE_S -/ def Fld.timeHoldCfgSampleS : Fld := ⟨23, 16⟩
/-- TIME_HOLD_CFG.ANCHOR_S -/ def Fld.timeHoldCfgAnchorS : Fld := ⟨15, 8⟩
/-- TIME_HOLD_TREF.RESET -/ def Fld.timeHoldTrefReset : Fld := ⟨63, 63⟩
/-- TIME_HOLD_TREF.TREF -/ def Fld.timeHoldTrefTref : Fld := ⟨15, 0⟩
/-- TIME_HOLD_STAT.MODEL -/ def Fld.timeHoldStatModel : Fld := ⟨63, 62⟩
/-- TIME_HOLD_STAT.AGE_OK -/ def Fld.timeHoldStatAgeOk : Fld := ⟨61, 61⟩
/-- TIME_HOLD_STAT.AGE_SPAN -/ def Fld.timeHoldStatAgeSpan : Fld := ⟨60, 48⟩
/-- TIME_HOLD_STAT.REJECTS -/ def Fld.timeHoldStatRejects : Fld := ⟨47, 32⟩
/-- TIME_HOLD_STAT.N -/ def Fld.timeHoldStatN : Fld := ⟨31, 0⟩
/-- TIME_HOLD_RANGE.TMIN -/ def Fld.timeHoldRangeTmin : Fld := ⟨63, 48⟩
/-- TIME_HOLD_RANGE.TMAX -/ def Fld.timeHoldRangeTmax : Fld := ⟨47, 32⟩
/-- TIME_HOLD_RANGE.RMS -/ def Fld.timeHoldRangeRms : Fld := ⟨15, 0⟩
/-- TIME_HOLD_C0.C0, C1, C2, D -/ def Fld.timeHoldC0C0C1C2D : Fld := ⟨63, 0⟩
/-- TIME_HOLD_C1.C0, C1, C2, D -/ def Fld.timeHoldC1C0C1C2D : Fld := ⟨63, 0⟩
/-- TIME_HOLD_C2.C0, C1, C2, D -/ def Fld.timeHoldC2C0C1C2D : Fld := ⟨63, 0⟩
/-- TIME_HOLD_D.C0, C1, C2, D -/ def Fld.timeHoldDC0C1C2D : Fld := ⟨63, 0⟩
/-- TIME_HOLD_PRED.PRED -/ def Fld.timeHoldPredPred : Fld := ⟨63, 0⟩
/-- DPLL_CTL.MODE -/ def Fld.dpllCtlMode : Fld := ⟨63, 62⟩
/-- DPLL_CTL.SEL -/ def Fld.dpllCtlSel : Fld := ⟨61, 60⟩
/-- DPLL_CTL.BW -/ def Fld.dpllCtlBw : Fld := ⟨59, 58⟩
/-- DPLL_CTL.HOLD_MODEL -/ def Fld.dpllCtlHoldModel : Fld := ⟨57, 57⟩
/-- DPLL_CTL.TX_SYNC -/ def Fld.dpllCtlTxSync : Fld := ⟨47, 40⟩
/-- DPLL_CTL.WTR_S -/ def Fld.dpllCtlWtrS : Fld := ⟨15, 0⟩
/-- DPLL_STAT.STATE -/ def Fld.dpllStatState : Fld := ⟨63, 62⟩
/-- DPLL_STAT.ACTIVE_REF -/ def Fld.dpllStatActiveRef : Fld := ⟨61, 60⟩
/-- DPLL_STAT.QUAL -/ def Fld.dpllStatQual : Fld := ⟨59, 56⟩
/-- DPLL_STAT.FREQ -/ def Fld.dpllStatFreq : Fld := ⟨39, 0⟩
/-- DPLL_REF_r.ENABLE -/ def Fld.dpllRefEnable : Fld := ⟨63, 63⟩
/-- DPLL_REF_r.TYPE -/ def Fld.dpllRefType : Fld := ⟨62, 62⟩
/-- DPLL_REF_r.PRIO -/ def Fld.dpllRefPrio : Fld := ⟨61, 58⟩
/-- DPLL_REF_r.UNIT -/ def Fld.dpllRefUnit : Fld := ⟨57, 48⟩
/-- DPLL_REF_r.FREQ_LIM -/ def Fld.dpllRefFreqLim : Fld := ⟨47, 40⟩
/-- DPLL_REF_r.NOMINAL_HZ -/ def Fld.dpllRefNominalHz : Fld := ⟨31, 0⟩
/-- SYNCE_OUT_j.SOURCE -/ def Fld.synceOutSource : Fld := ⟨63, 62⟩
/-- SYNCE_OUT_j.PORT -/ def Fld.synceOutPort : Fld := ⟨61, 52⟩
/-- SYNCE_OUT_j.OUT_HZ -/ def Fld.synceOutOutHz : Fld := ⟨31, 0⟩
/-- TIME_PORT_p.DOM_MASK -/ def Fld.timePortDomMask : Fld := ⟨63, 56⟩
/-- TIME_PORT_p.INGRESS_ADJ -/ def Fld.timePortIngressAdj : Fld := ⟨31, 16⟩
/-- TIME_PORT_p.EGRESS_ADJ -/ def Fld.timePortEgressAdj : Fld := ⟨15, 0⟩
/-- GLASS_SNAP.GO -/ def Fld.glassSnapGo : Fld := ⟨63, 63⟩
/-- GLASS_SNAP.BUSY -/ def Fld.glassSnapBusy : Fld := ⟨62, 62⟩
/-- GLASS_SNAP.TPO_EN -/ def Fld.glassSnapTpoEn : Fld := ⟨61, 61⟩
/-- GLASS_SNAP.TPO -/ def Fld.glassSnapTpo : Fld := ⟨60, 58⟩
/-- GLASS_SNAP.DOMAIN -/ def Fld.glassSnapDomain : Fld := ⟨34, 32⟩
/-- GLASS_SNAP.SEQ -/ def Fld.glassSnapSeq : Fld := ⟨31, 0⟩
/-- GLASS_SNAP_TIME.TIME -/ def Fld.glassSnapTimeTime : Fld := ⟨63, 0⟩
/-- GLASS_ERR.SMP_OVF -/ def Fld.glassErrSmpOvf : Fld := ⟨1, 1⟩
/-- GLASS_ERR.SNAP_IGNORED -/ def Fld.glassErrSnapIgnored : Fld := ⟨0, 0⟩
/-- GLASS_EVT_OVF.OVF -/ def Fld.glassEvtOvfOvf : Fld := ⟨15, 0⟩
/-- GLASS_POOL_k.SIZE -/ def Fld.glassPoolSize : Fld := ⟨32, 16⟩
/-- GLASS_POOL_k.BASE -/ def Fld.glassPoolBase : Fld := ⟨15, 0⟩
/-- GLASS_EVT_i_CTL.ENABLE -/ def Fld.glassEvtCtlEnable : Fld := ⟨63, 63⟩
/-- GLASS_EVT_i_CTL.CHAIN -/ def Fld.glassEvtCtlChain : Fld := ⟨62, 62⟩
/-- GLASS_EVT_i_CTL.EVENT -/ def Fld.glassEvtCtlEvent : Fld := ⟨61, 56⟩
/-- GLASS_EVT_i_CTL.PRIV -/ def Fld.glassEvtCtlPriv : Fld := ⟨55, 52⟩
/-- GLASS_EVT_i_CTL.MKIND -/ def Fld.glassEvtCtlMkind : Fld := ⟨51, 50⟩
/-- GLASS_EVT_i_CTL.MID -/ def Fld.glassEvtCtlMid : Fld := ⟨49, 38⟩
/-- GLASS_EVT_i_CTL.CLASS_EN -/ def Fld.glassEvtCtlClassEn : Fld := ⟨37, 37⟩
/-- GLASS_EVT_i_CTL.CLASS -/ def Fld.glassEvtCtlClass : Fld := ⟨36, 29⟩
/-- GLASS_EVT_i_CTL.CLASS_MASK -/ def Fld.glassEvtCtlClassMask : Fld := ⟨28, 21⟩
/-- GLASS_EVT_i_ALO.ADDR_LO -/ def Fld.glassEvtAloAddrLo : Fld := ⟨47, 0⟩
/-- GLASS_EVT_i_AHI.ADDR_HI -/ def Fld.glassEvtAhiAddrHi : Fld := ⟨47, 0⟩
/-- GLASS_SMP_CTL.ENABLE -/ def Fld.glassSmpCtlEnable : Fld := ⟨63, 63⟩
/-- GLASS_SMP_CTL.LOOMS -/ def Fld.glassSmpCtlLooms : Fld := ⟨62, 47⟩
/-- GLASS_SMP_CTL.GROUP -/ def Fld.glassSmpCtlGroup : Fld := ⟨46, 43⟩
/-- GLASS_SMP_CTL.LAT_MIN -/ def Fld.glassSmpCtlLatMin : Fld := ⟨42, 27⟩
/-- GLASS_SMP_CTL.DOMAIN -/ def Fld.glassSmpCtlDomain : Fld := ⟨26, 24⟩
/-- GLASS_SMP_CTL.PERIOD -/ def Fld.glassSmpCtlPeriod : Fld := ⟨23, 0⟩
/-- GLASS_SMP_BASE.BASE -/ def Fld.glassSmpBaseBase : Fld := ⟨47, 0⟩
/-- GLASS_SMP_SIZE.SIZE -/ def Fld.glassSmpSizeSize : Fld := ⟨24, 0⟩
/-- GLASS_SMP_PROD.PROD -/ def Fld.glassSmpProdProd : Fld := ⟨31, 0⟩
/-- GLASS_SMP_CONS.CONS -/ def Fld.glassSmpConsCons : Fld := ⟨31, 0⟩
/-- GLASS_SMP_STAT.DROPPED -/ def Fld.glassSmpStatDropped : Fld := ⟨63, 32⟩
/-- GLASS_SMP_STAT.SKIPPED -/ def Fld.glassSmpStatSkipped : Fld := ⟨31, 1⟩
/-- GLASS_SMP_STAT.OVERFLOW -/ def Fld.glassSmpStatOverflow : Fld := ⟨0, 0⟩
/-- GLASS_BW_CTL.CLR_PEAK -/ def Fld.glassBwCtlClrPeak : Fld := ⟨63, 63⟩
/-- GLASS_BW_CTL.DOMAIN -/ def Fld.glassBwCtlDomain : Fld := ⟨18, 16⟩
/-- GLASS_BW_CTL.W_US -/ def Fld.glassBwCtlWUs : Fld := ⟨15, 0⟩
/-- DIGEST_SNAP.GO -/ def Fld.digestSnapGo : Fld := ⟨63, 63⟩
/-- DIGEST_SNAP.BUSY -/ def Fld.digestSnapBusy : Fld := ⟨62, 62⟩
/-- DIGEST_SNAP.SEQ -/ def Fld.digestSnapSeq : Fld := ⟨31, 0⟩
/-- DIGEST_FAULT.STACK_LOST -/ def Fld.digestFaultStackLost : Fld := ⟨15, 8⟩
/-- DIGEST_FAULT.STORE_LOST -/ def Fld.digestFaultStoreLost : Fld := ⟨1, 1⟩
/-- DIGEST_FAULT.STACK -/ def Fld.digestFaultStack : Fld := ⟨0, 0⟩
/-- DIGEST_SCAN_BASE.BASE -/ def Fld.digestScanBaseBase : Fld := ⟨47, 0⟩
/-- DIGEST_SCAN_LEN.LEN -/ def Fld.digestScanLenLen : Fld := ⟨37, 0⟩
/-- DIGEST_SCAN_CTL.GO -/ def Fld.digestScanCtlGo : Fld := ⟨63, 63⟩
/-- DIGEST_SCAN_CTL.BUSY -/ def Fld.digestScanCtlBusy : Fld := ⟨62, 62⟩
/-- DIGEST_SCAN_CTL.DIRTY -/ def Fld.digestScanCtlDirty : Fld := ⟨61, 61⟩
/-- DIGEST_SCAN_CTL.UNREAD -/ def Fld.digestScanCtlUnread : Fld := ⟨47, 16⟩
/-- DIGEST_SCAN_CTL.RATE -/ def Fld.digestScanCtlRate : Fld := ⟨15, 0⟩
/-- DIGEST_SCAN_HI.HI -/ def Fld.digestScanHiHi : Fld := ⟨63, 0⟩
/-- DIGEST_SCAN_LO.LO -/ def Fld.digestScanLoLo : Fld := ⟨63, 0⟩
/-- DIGEST_UNIT_u_HI.HI -/ def Fld.digestUnitHiHi : Fld := ⟨63, 0⟩
/-- DIGEST_UNIT_u_LO.LO -/ def Fld.digestUnitLoLo : Fld := ⟨63, 0⟩
/-- DIGEST_SNAP_u_HI.HI -/ def Fld.digestSnapHiHi : Fld := ⟨63, 0⟩
/-- DIGEST_SNAP_u_LO.LO -/ def Fld.digestSnapLoLo : Fld := ⟨63, 0⟩
/-- DIGEST_PART_u_k_HI.HI -/ def Fld.digestPartHiHi : Fld := ⟨63, 0⟩
/-- DIGEST_PART_u_k_LO.LO -/ def Fld.digestPartLoLo : Fld := ⟨63, 0⟩
/-- DIGEST_SNAPP_u_k_HI.HI -/ def Fld.digestSnappHiHi : Fld := ⟨63, 0⟩
/-- DIGEST_SNAPP_u_k_LO.LO -/ def Fld.digestSnappLoLo : Fld := ⟨63, 0⟩
/-- LOOM_HEDDLE_CTL.SEED -/ def Fld.loomHeddleCtlSeed : Fld := ⟨63, 32⟩
/-- LOOM_HEDDLE_CTL.PAD_SLACK -/ def Fld.loomHeddleCtlPadSlack : Fld := ⟨13, 8⟩
/-- LOOM_HEDDLE_CTL.CLASS_INJ -/ def Fld.loomHeddleCtlClassInj : Fld := ⟨7, 4⟩
/-- LOOM_HEDDLE_CTL.CLASS_RECIRC -/ def Fld.loomHeddleCtlClassRecirc : Fld := ⟨3, 0⟩
/-- LOOM_PUNT_BKT_r.BURST -/ def Fld.loomPuntBktBurst : Fld := ⟨31, 16⟩
/-- LOOM_PUNT_BKT_r.RATE -/ def Fld.loomPuntBktRate : Fld := ⟨15, 0⟩
/-- LOOM_PUNT_STAT_r.REFUSED -/ def Fld.loomPuntStatRefused : Fld := ⟨63, 32⟩
/-- LOOM_PUNT_STAT_r.TOKENS -/ def Fld.loomPuntStatTokens : Fld := ⟨15, 0⟩
/-- LOOM_XLAT_PFX_HI.PFX_HI -/ def Fld.loomXlatPfxHiPfxHi : Fld := ⟨63, 0⟩
/-- LOOM_XLAT_PFX_LO.PFX_LO -/ def Fld.loomXlatPfxLoPfxLo : Fld := ⟨31, 0⟩
/-- WARP_CTL.TIME_DOMAIN -/ def Fld.warpCtlTimeDomain : Fld := ⟨11, 9⟩
/-- WARP_CTL.CUR_TABLE -/ def Fld.warpCtlCurTable : Fld := ⟨8, 8⟩
/-- WARP_CTL.ENABLE -/ def Fld.warpCtlEnable : Fld := ⟨0, 0⟩
/-- WARP_GEN.CURRENT -/ def Fld.warpGenCurrent : Fld := ⟨15, 0⟩
/-- WARP_REGION.BASE -/ def Fld.warpRegionBase : Fld := ⟨47, 0⟩
/-- WARP_TBL_t.VALID -/ def Fld.warpTblValid : Fld := ⟨63, 63⟩
/-- WARP_TBL_t.NB -/ def Fld.warpTblNb : Fld := ⟨57, 32⟩
/-- WARP_TBL_t.FIRST_REC -/ def Fld.warpTblFirstRec : Fld := ⟨27, 0⟩
/-- WARP_OVF_CFG.COUNT -/ def Fld.warpOvfCfgCount : Fld := ⟨48, 28⟩
/-- WARP_OVF_CFG.FIRST_REC -/ def Fld.warpOvfCfgFirstRec : Fld := ⟨27, 0⟩
/-- WARP_OVF_STAT.WARN -/ def Fld.warpOvfStatWarn : Fld := ⟨52, 32⟩
/-- WARP_OVF_STAT.USED -/ def Fld.warpOvfStatUsed : Fld := ⟨20, 0⟩
/-- WARP_SEED0_LO.KEY -/ def Fld.warpSeed0LoKey : Fld := ⟨63, 0⟩
/-- WARP_SEED0_HI.KEY -/ def Fld.warpSeed0HiKey : Fld := ⟨63, 0⟩
/-- WARP_SEED1_LO.KEY -/ def Fld.warpSeed1LoKey : Fld := ⟨63, 0⟩
/-- WARP_SEED1_HI.KEY -/ def Fld.warpSeed1HiKey : Fld := ⟨63, 0⟩
/-- WARP_SEAL_KEY_LO.KEY -/ def Fld.warpSealKeyLoKey : Fld := ⟨63, 0⟩
/-- WARP_SEAL_KEY_HI.KEY -/ def Fld.warpSealKeyHiKey : Fld := ⟨63, 0⟩
/-- WARP_CACHE_CTL.FLUSH_BUSY -/ def Fld.warpCacheCtlFlushBusy : Fld := ⟨16, 16⟩
/-- WARP_CACHE_CTL.FLUSH -/ def Fld.warpCacheCtlFlush : Fld := ⟨8, 8⟩
/-- WARP_CACHE_CTL.EVICT_MODE -/ def Fld.warpCacheCtlEvictMode : Fld := ⟨1, 0⟩
/-- WARP_SWEEP_CTL.TABLE_PERIOD -/ def Fld.warpSweepCtlTablePeriod : Fld := ⟨15, 0⟩
/-- WARP_REHASH_CTL.START -/ def Fld.warpRehashCtlStart : Fld := ⟨16, 16⟩
/-- WARP_REHASH_CTL.RATE -/ def Fld.warpRehashCtlRate : Fld := ⟨15, 0⟩
/-- WARP_REHASH_STAT.ACTIVE -/ def Fld.warpRehashStatActive : Fld := ⟨63, 63⟩
/-- WARP_REHASH_STAT.STALL -/ def Fld.warpRehashStatStall : Fld := ⟨62, 62⟩
/-- WARP_REHASH_STAT.OVF_PHASE -/ def Fld.warpRehashStatOvfPhase : Fld := ⟨61, 61⟩
/-- WARP_REHASH_STAT.CURSOR -/ def Fld.warpRehashStatCursor : Fld := ⟨57, 32⟩
/-- WARP_REHASH_STAT.MOVED -/ def Fld.warpRehashStatMoved : Fld := ⟨27, 0⟩
/-- WARP_INIT.BUSY -/ def Fld.warpInitBusy : Fld := ⟨16, 16⟩
/-- WARP_INIT.OVF -/ def Fld.warpInitOvf : Fld := ⟨2, 2⟩
/-- WARP_INIT.TBL1 -/ def Fld.warpInitTbl1 : Fld := ⟨1, 1⟩
/-- WARP_INIT.TBL0 -/ def Fld.warpInitTbl0 : Fld := ⟨0, 0⟩
/-- WARP_ERR.LOST -/ def Fld.warpErrLost : Fld := ⟨4, 4⟩
/-- WARP_ERR.REHASH_DONE -/ def Fld.warpErrRehashDone : Fld := ⟨3, 3⟩
/-- WARP_ERR.REHASH_STALL -/ def Fld.warpErrRehashStall : Fld := ⟨2, 2⟩
/-- WARP_ERR.OVF_FULL -/ def Fld.warpErrOvfFull : Fld := ⟨1, 1⟩
/-- WARP_ERR.OVF_WARN -/ def Fld.warpErrOvfWarn : Fld := ⟨0, 0⟩
/-- WARP_OCC.RECORDS -/ def Fld.warpOccRecords : Fld := ⟨27, 0⟩
/-- WARP_RD_CMD.GO -/ def Fld.warpRdCmdGo : Fld := ⟨63, 63⟩
/-- WARP_RD_CMD.REC -/ def Fld.warpRdCmdRec : Fld := ⟨27, 0⟩
/-- WARP_RD_STAT.BUSY -/ def Fld.warpRdStatBusy : Fld := ⟨63, 63⟩
/-- WARP_RD_STAT.CODE -/ def Fld.warpRdStatCode : Fld := ⟨7, 0⟩
/-- WARP_KEYFORM_f.VALID -/ def Fld.warpKeyformValid : Fld := ⟨63, 63⟩
/-- WARP_KEYFORM_f.SLOT_MASK -/ def Fld.warpKeyformSlotMask : Fld := ⟨31, 0⟩
/-- WARP_RD_DATA_k.DATA -/ def Fld.warpRdDataData : Fld := ⟨63, 0⟩
/-- WARP_STBL6_BASE.BASE -/ def Fld.warpStbl6BaseBase : Fld := ⟨47, 0⟩
/-- WARP_STBL6_NB.VALID -/ def Fld.warpStbl6NbValid : Fld := ⟨63, 63⟩
/-- WARP_STBL6_NB.NB -/ def Fld.warpStbl6NbNb : Fld := ⟨26, 0⟩
/-- WARP_STBL6_SEED.SEED1 -/ def Fld.warpStbl6SeedSeed1 : Fld := ⟨63, 32⟩
/-- WARP_STBL6_SEED.SEED0 -/ def Fld.warpStbl6SeedSeed0 : Fld := ⟨31, 0⟩
/-- WARP_STBL6_MIRROR.MIRROR -/ def Fld.warpStbl6MirrorMirror : Fld := ⟨47, 0⟩
/-- WARP_STBL7_BASE.BASE -/ def Fld.warpStbl7BaseBase : Fld := ⟨47, 0⟩
/-- WARP_STBL7_NB.VALID -/ def Fld.warpStbl7NbValid : Fld := ⟨63, 63⟩
/-- WARP_STBL7_NB.NB -/ def Fld.warpStbl7NbNb : Fld := ⟨26, 0⟩
/-- WARP_STBL7_SEED.SEED1 -/ def Fld.warpStbl7SeedSeed1 : Fld := ⟨63, 32⟩
/-- WARP_STBL7_SEED.SEED0 -/ def Fld.warpStbl7SeedSeed0 : Fld := ⟨31, 0⟩
/-- WARP_FDIG_CTL.CREATE_FORMS -/ def Fld.warpFdigCtlCreateForms : Fld := ⟨63, 48⟩
/-- WARP_FDIG_CTL.EXPORT_FORMS -/ def Fld.warpFdigCtlExportForms : Fld := ⟨47, 32⟩
/-- WARP_FDIG_CTL.LOST_EN -/ def Fld.warpFdigCtlLostEn : Fld := ⟨3, 3⟩
/-- WARP_FDIG_CTL.MOVE_EN -/ def Fld.warpFdigCtlMoveEn : Fld := ⟨2, 2⟩
/-- WARP_FDIG_CTL.ACTIVE_EN -/ def Fld.warpFdigCtlActiveEn : Fld := ⟨1, 1⟩
/-- WARP_FDIG_CTL.END_EN -/ def Fld.warpFdigCtlEndEn : Fld := ⟨0, 0⟩
/-- WARP_FDIG_BASE.BASE -/ def Fld.warpFdigBaseBase : Fld := ⟨47, 0⟩
/-- WARP_FDIG_SIZE.SIZE -/ def Fld.warpFdigSizeSize : Fld := ⟨24, 0⟩
/-- WARP_FDIG_PROD.PROD -/ def Fld.warpFdigProdProd : Fld := ⟨31, 0⟩
/-- WARP_FDIG_CONS.CONS -/ def Fld.warpFdigConsCons : Fld := ⟨31, 0⟩
/-- WARP_FDIG_STAT.DROPPED -/ def Fld.warpFdigStatDropped : Fld := ⟨63, 32⟩
/-- WARP_FDIG_STAT.OVERFLOW -/ def Fld.warpFdigStatOverflow : Fld := ⟨0, 0⟩
/-- REED_CTL.SCRUB_EN -/ def Fld.reedCtlScrubEn : Fld := ⟨1, 1⟩
/-- REED_CTL.ENABLE -/ def Fld.reedCtlEnable : Fld := ⟨0, 0⟩
/-- REED_RECLASS.DEPTH -/ def Fld.reedReclassDepth : Fld := ⟨22, 16⟩
/-- REED_RECLASS.RATE -/ def Fld.reedReclassRate : Fld := ⟨15, 0⟩
/-- REED_ERR.UNPOWERED -/ def Fld.reedErrUnpowered : Fld := ⟨3, 3⟩
/-- REED_ERR.COPY_LOST -/ def Fld.reedErrCopyLost : Fld := ⟨2, 2⟩
/-- REED_ERR.SCRUB_REPAIR -/ def Fld.reedErrScrubRepair : Fld := ⟨1, 1⟩
/-- REED_ERR.FALSE_HIT -/ def Fld.reedErrFalseHit : Fld := ⟨0, 0⟩
/-- REED_ERR_IDX.INDEX -/ def Fld.reedErrIdxIndex : Fld := ⟨18, 0⟩
/-- REED_TREADLE_CTL.LEN -/ def Fld.reedTreadleCtlLen : Fld := ⟨5, 0⟩
/-- REED_TREADLE_TBL_LO.ENTRY0–ENTRY20 -/ def Fld.reedTreadleTblLoEntry0 : Fld := ⟨62, 0⟩
/-- REED_TREADLE_TBL_HI.ENTRY21–ENTRY31 -/ def Fld.reedTreadleTblHiEntry21 : Fld := ⟨32, 0⟩
/-- REED_PORT_STAT_q.DEFERRED -/ def Fld.reedPortStatDeferred : Fld := ⟨63, 32⟩
/-- REED_PORT_STAT_q.QUEUED -/ def Fld.reedPortStatQueued : Fld := ⟨6, 0⟩
/-- REED_BANK_b.POWER_ACK -/ def Fld.reedBankPowerAck : Fld := ⟨3, 3⟩
/-- REED_BANK_b.POWER -/ def Fld.reedBankPower : Fld := ⟨2, 2⟩
/-- REED_BANK_b.WIDTH -/ def Fld.reedBankWidth : Fld := ⟨1, 0⟩
/-- REED_SPROF_p_CTL.VALID -/ def Fld.reedSprofCtlValid : Fld := ⟨63, 63⟩
/-- REED_SPROF_p_CTL.META_EN -/ def Fld.reedSprofCtlMetaEn : Fld := ⟨62, 62⟩
/-- REED_SPROF_p_CTL.WIDTH -/ def Fld.reedSprofCtlWidth : Fld := ⟨61, 60⟩
/-- REED_SPROF_p_CTL.NSLOT -/ def Fld.reedSprofCtlNslot : Fld := ⟨52, 48⟩
/-- REED_SPROF_p_MASK_LO.BANKS_LO -/ def Fld.reedSprofMaskLoBanksLo : Fld := ⟨63, 0⟩
/-- REED_SPROF_p_MASK_HI.BANKS_HI -/ def Fld.reedSprofMaskHiBanksHi : Fld := ⟨63, 0⟩
/-- REED_SPROF_p_SLOTS_A.SLOT0–SLOT11 -/ def Fld.reedSprofSlotsASlot0 : Fld := ⟨59, 0⟩
/-- REED_SPROF_p_SLOTS_B.SLOT12–SLOT19 -/ def Fld.reedSprofSlotsBSlot12 : Fld := ⟨39, 0⟩
/-- TWILL_CTL.ONSET_WINDOW -/ def Fld.twillCtlOnsetWindow : Fld := ⟨3, 1⟩
/-- TWILL_CTL.ENABLE -/ def Fld.twillCtlEnable : Fld := ⟨0, 0⟩
/-- TWILL_CFG.NEDGES -/ def Fld.twillCfgNedges : Fld := ⟨56, 32⟩
/-- TWILL_CFG.NSTATES -/ def Fld.twillCfgNstates : Fld := ⟨22, 0⟩
/-- TWILL_STAT.OLDEST_SEQ -/ def Fld.twillStatOldestSeq : Fld := ⟨63, 32⟩
/-- TWILL_STAT.EMPTY -/ def Fld.twillStatEmpty : Fld := ⟨0, 0⟩
/-- TWILL_ERR.BAD_STATE -/ def Fld.twillErrBadState : Fld := ⟨2, 2⟩
/-- TWILL_ERR.QFULL -/ def Fld.twillErrQfull : Fld := ⟨1, 1⟩
/-- TWILL_ERR.VERDICT_LOST -/ def Fld.twillErrVerdictLost : Fld := ⟨0, 0⟩
/-- TWILL_ENG_e.SCANNED -/ def Fld.twillEngScanned : Fld := ⟨63, 32⟩
/-- TWILL_ENG_e.QUEUED -/ def Fld.twillEngQueued : Fld := ⟨12, 0⟩
/-- TWILL_SET_k.VALID -/ def Fld.twillSetValid : Fld := ⟨63, 63⟩
/-- TWILL_SET_k.START -/ def Fld.twillSetStart : Fld := ⟨21, 0⟩
/-- BEAM_CTL.MARSHAL_LIMIT -/ def Fld.beamCtlMarshalLimit : Fld := ⟨51, 32⟩
/-- BEAM_CTL.MARSHAL -/ def Fld.beamCtlMarshal : Fld := ⟨0, 0⟩
/-- BEAM_POOL.MIN_POOL -/ def Fld.beamPoolMinPool : Fld := ⟨63, 44⟩
/-- BEAM_POOL.HEAD_POOL -/ def Fld.beamPoolHeadPool : Fld := ⟨43, 24⟩
/-- BEAM_POOL.PUNT_LIMIT -/ def Fld.beamPoolPuntLimit : Fld := ⟨23, 4⟩
/-- BEAM_POOL_STAT.SHARED_FREE -/ def Fld.beamPoolStatSharedFree : Fld := ⟨63, 44⟩
/-- BEAM_POOL_STAT.HEAD_FREE -/ def Fld.beamPoolStatHeadFree : Fld := ⟨43, 24⟩
/-- BEAM_POOL_STAT.MIN_FREE -/ def Fld.beamPoolStatMinFree : Fld := ⟨23, 4⟩
/-- BEAM_RSV_STAT.RECIRC_FREE -/ def Fld.beamRsvStatRecircFree : Fld := ⟨63, 44⟩
/-- BEAM_RSV_STAT.RESIDUE -/ def Fld.beamRsvStatResidue : Fld := ⟨43, 24⟩
/-- BEAM_RSV_STAT.LOST_CELLS -/ def Fld.beamRsvStatLostCells : Fld := ⟨23, 4⟩
/-- BEAM_FLUSH_CMD.GO -/ def Fld.beamFlushCmdGo : Fld := ⟨63, 63⟩
/-- BEAM_FLUSH_CMD.WHOLE_PORT -/ def Fld.beamFlushCmdWholePort : Fld := ⟨62, 62⟩
/-- BEAM_FLUSH_CMD.QUEUE -/ def Fld.beamFlushCmdQueue : Fld := ⟨13, 0⟩
/-- BEAM_FLUSH_STAT.BUSY -/ def Fld.beamFlushStatBusy : Fld := ⟨63, 63⟩
/-- BEAM_FLUSH_STAT.IGNORED -/ def Fld.beamFlushStatIgnored : Fld := ⟨62, 62⟩
/-- BEAM_FLUSH_STAT.FLUSHED -/ def Fld.beamFlushStatFlushed : Fld := ⟨31, 0⟩
/-- BEAM_ERR.CELL_LOST -/ def Fld.beamErrCellLost : Fld := ⟨3, 3⟩
/-- BEAM_ERR.PUNT_DROP -/ def Fld.beamErrPuntDrop : Fld := ⟨2, 2⟩
/-- BEAM_ERR.MARSHAL_FULL -/ def Fld.beamErrMarshalFull : Fld := ⟨1, 1⟩
/-- BEAM_ERR.HEADROOM -/ def Fld.beamErrHeadroom : Fld := ⟨0, 0⟩
/-- BEAM_PORT_p.LINK -/ def Fld.beamPortLink : Fld := ⟨61, 61⟩
/-- BEAM_PORT_p.DOWN_MODE -/ def Fld.beamPortDownMode : Fld := ⟨60, 60⟩
/-- BEAM_PORT_p.PFC_TX_EN -/ def Fld.beamPortPfcTxEn : Fld := ⟨59, 59⟩
/-- BEAM_PORT_p.PFC_RX_EN -/ def Fld.beamPortPfcRxEn : Fld := ⟨58, 58⟩
/-- BEAM_PORT_p.RATE -/ def Fld.beamPortRate : Fld := ⟨47, 32⟩
/-- BEAM_DRAFT_CTL.ACTIVE_BANK -/ def Fld.beamDraftCtlActiveBank : Fld := ⟨0, 0⟩
/-- BEAM_DRAFT_STAT.ACTIVE_ID -/ def Fld.beamDraftStatActiveId : Fld := ⟨63, 32⟩
/-- BEAM_DRAFT_STAT.DRAIN_BANK -/ def Fld.beamDraftStatDrainBank : Fld := ⟨2, 2⟩
/-- BEAM_DRAFT_STAT.DRAINING -/ def Fld.beamDraftStatDraining : Fld := ⟨1, 1⟩
/-- BEAM_DRAFT_STAT.ACTIVE -/ def Fld.beamDraftStatActive : Fld := ⟨0, 0⟩
/-- BEAM_EPOCH_CNT.CNT_B -/ def Fld.beamEpochCntCntB : Fld := ⟨63, 32⟩
/-- BEAM_EPOCH_CNT.CNT_A -/ def Fld.beamEpochCntCntA : Fld := ⟨31, 0⟩
/-- BEAM_BATTEN_CMD.GO -/ def Fld.beamBattenCmdGo : Fld := ⟨0, 0⟩
/-- BEAM_BATTEN_STAT.SEQ -/ def Fld.beamBattenStatSeq : Fld := ⟨63, 32⟩
/-- BEAM_BATTEN_STAT.HOST_DONE -/ def Fld.beamBattenStatHostDone : Fld := ⟨31, 24⟩
/-- BEAM_BATTEN_STAT.QUEUED -/ def Fld.beamBattenStatQueued : Fld := ⟨23, 17⟩
/-- BEAM_BATTEN_STAT.FLIP_WAIT -/ def Fld.beamBattenStatFlipWait : Fld := ⟨2, 2⟩
/-- BEAM_BATTEN_STAT.OVERLAY -/ def Fld.beamBattenStatOverlay : Fld := ⟨1, 1⟩
/-- BEAM_BATTEN_STAT.HOST_PEND -/ def Fld.beamBattenStatHostPend : Fld := ⟨0, 0⟩
/-- BEAM_HSTAGE_ADDR.W -/ def Fld.beamHstageAddrW : Fld := ⟨49, 48⟩
/-- BEAM_HSTAGE_ADDR.ADDR -/ def Fld.beamHstageAddrAddr : Fld := ⟨47, 0⟩
/-- BEAM_HSTAGE_DATA.DATA -/ def Fld.beamHstageDataData : Fld := ⟨63, 0⟩
/-- BEAM_HSTAGE_STAT.FULL -/ def Fld.beamHstageStatFull : Fld := ⟨16, 16⟩
/-- BEAM_HSTAGE_STAT.COUNT -/ def Fld.beamHstageStatCount : Fld := ⟨8, 0⟩
/-- BEAM_BATTEN_EVT.ON_RETIRE -/ def Fld.beamBattenEvtOnRetire : Fld := ⟨1, 1⟩
/-- BEAM_BATTEN_EVT.ON_HOST_DONE -/ def Fld.beamBattenEvtOnHostDone : Fld := ⟨0, 0⟩
/-- LEARN_CTL.SEED -/ def Fld.learnCtlSeed : Fld := ⟨63, 32⟩
/-- LEARN_CTL.TIME_DOMAIN -/ def Fld.learnCtlTimeDomain : Fld := ⟨11, 9⟩
/-- LEARN_CTL.EV_LEARN -/ def Fld.learnCtlEvLearn : Fld := ⟨8, 8⟩
/-- LEARN_CTL.EV_MOVE -/ def Fld.learnCtlEvMove : Fld := ⟨7, 7⟩
/-- LEARN_CTL.EV_FLAP -/ def Fld.learnCtlEvFlap : Fld := ⟨6, 6⟩
/-- LEARN_CTL.EV_LIMIT -/ def Fld.learnCtlEvLimit : Fld := ⟨5, 5⟩
/-- LEARN_CTL.EV_FULL -/ def Fld.learnCtlEvFull : Fld := ⟨4, 4⟩
/-- LEARN_CTL.ENABLE -/ def Fld.learnCtlEnable : Fld := ⟨0, 0⟩
/-- LEARN_FLAP.N -/ def Fld.learnFlapN : Fld := ⟨35, 32⟩
/-- LEARN_FLAP.WINDOW_MS -/ def Fld.learnFlapWindowMs : Fld := ⟨31, 16⟩
/-- LEARN_FLAP.HOLD_S -/ def Fld.learnFlapHoldS : Fld := ⟨15, 0⟩
/-- LEARN_STAT.EVENTS -/ def Fld.learnStatEvents : Fld := ⟨63, 32⟩
/-- LEARN_STAT.QDROP -/ def Fld.learnStatQdrop : Fld := ⟨31, 16⟩
/-- LEARN_STAT.DEFER_DROP -/ def Fld.learnStatDeferDrop : Fld := ⟨15, 0⟩
/-- LEARN_ERR.QUEUE_FULL -/ def Fld.learnErrQueueFull : Fld := ⟨4, 4⟩
/-- LEARN_ERR.DEFER_DROP -/ def Fld.learnErrDeferDrop : Fld := ⟨3, 3⟩
/-- LEARN_ERR.FLAP -/ def Fld.learnErrFlap : Fld := ⟨2, 2⟩
/-- LEARN_ERR.LIMIT -/ def Fld.learnErrLimit : Fld := ⟨1, 1⟩
/-- LEARN_ERR.TABLE_FULL -/ def Fld.learnErrTableFull : Fld := ⟨0, 0⟩
/-- LEARN_DEFER.PENDING -/ def Fld.learnDeferPending : Fld := ⟨4, 0⟩
/-- LEARN_AGE_CMD.GO -/ def Fld.learnAgeCmdGo : Fld := ⟨63, 63⟩
/-- LEARN_AGE_CMD.CLEAR_HIT -/ def Fld.learnAgeCmdClearHit : Fld := ⟨62, 62⟩
/-- LEARN_AGE_CMD.INDEX -/ def Fld.learnAgeCmdIndex : Fld := ⟨16, 0⟩
/-- LEARN_AGE_STAT.BUSY -/ def Fld.learnAgeStatBusy : Fld := ⟨63, 63⟩
/-- LEARN_AGE_STAT.LOCKED -/ def Fld.learnAgeStatLocked : Fld := ⟨62, 62⟩
/-- LEARN_AGE_STAT.CODE -/ def Fld.learnAgeStatCode : Fld := ⟨7, 0⟩
/-- LEARN_CMP_SRC.SRC -/ def Fld.learnCmpSrcSrc : Fld := ⟨47, 0⟩
/-- LEARN_CMP_DST.LOOM -/ def Fld.learnCmpDstLoom : Fld := ⟨63, 60⟩
/-- LEARN_CMP_DST.OFFSET -/ def Fld.learnCmpDstOffset : Fld := ⟨23, 0⟩
/-- LEARN_CMP_LEN.LEN -/ def Fld.learnCmpLenLen : Fld := ⟨24, 0⟩
/-- LEARN_CMP_CTL.GO -/ def Fld.learnCmpCtlGo : Fld := ⟨63, 63⟩
/-- LEARN_CMP_CTL.BUSY -/ def Fld.learnCmpCtlBusy : Fld := ⟨62, 62⟩
/-- LEARN_CMP_CTL.SKIP_DYN -/ def Fld.learnCmpCtlSkipDyn : Fld := ⟨61, 61⟩
/-- LEARN_CMP_CTL.RATE -/ def Fld.learnCmpCtlRate : Fld := ⟨15, 0⟩
/-- LEARN_CMP_STAT.FIRST -/ def Fld.learnCmpStatFirst : Fld := ⟨63, 40⟩
/-- LEARN_CMP_STAT.MISMATCH -/ def Fld.learnCmpStatMismatch : Fld := ⟨31, 0⟩
/-- LEARN_LPMX_BASE.BASE -/ def Fld.learnLpmxBaseBase : Fld := ⟨47, 0⟩
/-- LEARN_LPMX_CNT.BUSY -/ def Fld.learnLpmxCntBusy : Fld := ⟨63, 63⟩
/-- LEARN_LPMX_CNT.COUNT -/ def Fld.learnLpmxCntCount : Fld := ⟨22, 0⟩
/-- LEARN_PORT_p.MODE -/ def Fld.learnPortMode : Fld := ⟨63, 62⟩
/-- LEARN_PORT_p.EXCESS -/ def Fld.learnPortExcess : Fld := ⟨61, 61⟩
/-- LEARN_PORT_p.AT_LIMIT -/ def Fld.learnPortAtLimit : Fld := ⟨60, 60⟩
/-- LEARN_PORT_p.LIMIT -/ def Fld.learnPortLimit : Fld := ⟨49, 32⟩
/-- LEARN_PORT_p.COUNT -/ def Fld.learnPortCount : Fld := ⟨17, 0⟩
/-- SELV_TRAIN_CTL.TIMEOUT_MS -/ def Fld.selvTrainCtlTimeoutMs : Fld := ⟨63, 48⟩
/-- SELV_TRAIN_CTL.BACKOFF_MIN -/ def Fld.selvTrainCtlBackoffMin : Fld := ⟨47, 32⟩
/-- SELV_TRAIN_CTL.BACKOFF_MAX -/ def Fld.selvTrainCtlBackoffMax : Fld := ⟨31, 16⟩
/-- SELV_TRAIN_CTL.DOWN_US -/ def Fld.selvTrainCtlDownUs : Fld := ⟨15, 8⟩
/-- SELV_TRAIN_CTL.UP_MS -/ def Fld.selvTrainCtlUpMs : Fld := ⟨7, 0⟩
/-- SELV_RETRAIN.PORT -/ def Fld.selvRetrainPort : Fld := ⟨63, 0⟩
/-- SELV_ERR.TC_LIMIT -/ def Fld.selvErrTcLimit : Fld := ⟨3, 3⟩
/-- SELV_ERR.CFG_IGNORED -/ def Fld.selvErrCfgIgnored : Fld := ⟨2, 2⟩
/-- SELV_ERR.LINK_TRAIN_FAIL -/ def Fld.selvErrLinkTrainFail : Fld := ⟨1, 1⟩
/-- SELV_ERR.LINK_DOWN -/ def Fld.selvErrLinkDown : Fld := ⟨0, 0⟩
/-- SELV_ERR_PORT.PORT -/ def Fld.selvErrPortPort : Fld := ⟨9, 0⟩
/-- SELV_PORT_CFG_k.ENABLE -/ def Fld.selvPortCfgEnable : Fld := ⟨63, 63⟩
/-- SELV_PORT_CFG_k.TIMING_CLASS -/ def Fld.selvPortCfgTimingClass : Fld := ⟨62, 62⟩
/-- SELV_PORT_CFG_k.SPEED -/ def Fld.selvPortCfgSpeed : Fld := ⟨61, 58⟩
/-- SELV_PORT_CFG_k.FEC -/ def Fld.selvPortCfgFec : Fld := ⟨57, 56⟩
/-- SELV_PORT_CFG_k.TRAIN_MODE -/ def Fld.selvPortCfgTrainMode : Fld := ⟨55, 55⟩
/-- SELV_PORT_CFG_k.LPI_EN -/ def Fld.selvPortCfgLpiEn : Fld := ⟨54, 54⟩
/-- SELV_PORT_CFG_k.MAX_FRAME -/ def Fld.selvPortCfgMaxFrame : Fld := ⟨45, 32⟩
/-- SELV_PORT_TAG_k.TAG_MODE -/ def Fld.selvPortTagTagMode : Fld := ⟨63, 61⟩
/-- SELV_PORT_TAG_k.PCP -/ def Fld.selvPortTagPcp : Fld := ⟨60, 58⟩
/-- SELV_PORT_TAG_k.DEI -/ def Fld.selvPortTagDei : Fld := ⟨57, 57⟩
/-- SELV_PORT_TAG_k.VID -/ def Fld.selvPortTagVid : Fld := ⟨43, 32⟩
/-- SELV_PORT_TAG_k.NATIVE_VID -/ def Fld.selvPortTagNativeVid : Fld := ⟨11, 0⟩
/-- SELV_PORT_PFC_k.QUANTA -/ def Fld.selvPortPfcQuanta : Fld := ⟨63, 48⟩
/-- SELV_PORT_PFC_k.SA -/ def Fld.selvPortPfcSa : Fld := ⟨47, 0⟩
/-- SELV_PORT_LPI_k.IDLE_US -/ def Fld.selvPortLpiIdleUs : Fld := ⟨63, 48⟩
/-- SELV_PORT_LPI_k.TW -/ def Fld.selvPortLpiTw : Fld := ⟨47, 32⟩
/-- SELV_PORT_STAT_k.LINK -/ def Fld.selvPortStatLink : Fld := ⟨63, 63⟩
/-- SELV_PORT_STAT_k.TRAINING -/ def Fld.selvPortStatTraining : Fld := ⟨62, 62⟩
/-- SELV_PORT_STAT_k.LPI_TX -/ def Fld.selvPortStatLpiTx : Fld := ⟨61, 61⟩
/-- SELV_PORT_STAT_k.LPI_RX -/ def Fld.selvPortStatLpiRx : Fld := ⟨60, 60⟩
/-- SELV_PORT_STAT_k.LANES_OK -/ def Fld.selvPortStatLanesOk : Fld := ⟨55, 48⟩
/-- SELV_PORT_STAT_k.RETRIES -/ def Fld.selvPortStatRetries : Fld := ⟨47, 32⟩
/-- SELV_PORT_STAT_k.NEXT_MS -/ def Fld.selvPortStatNextMs : Fld := ⟨31, 0⟩
/-- CREEL_CTL.RETIRE_RATE -/ def Fld.creelCtlRetireRate : Fld := ⟨63, 48⟩
/-- CREEL_CTL.SCRUB_HOURS -/ def Fld.creelCtlScrubHours : Fld := ⟨47, 32⟩
/-- CREEL_CTL.CE_LIMIT -/ def Fld.creelCtlCeLimit : Fld := ⟨31, 16⟩
/-- CREEL_CTL.IDLE_US -/ def Fld.creelCtlIdleUs : Fld := ⟨15, 8⟩
/-- CREEL_CTL.REST_GRADE -/ def Fld.creelCtlRestGrade : Fld := ⟨1, 0⟩
/-- CREEL_STAT.TEMP -/ def Fld.creelStatTemp : Fld := ⟨63, 56⟩
/-- CREEL_STAT.SPARES -/ def Fld.creelStatSpares : Fld := ⟨55, 51⟩
/-- CREEL_STAT.ACTIVE -/ def Fld.creelStatActive : Fld := ⟨50, 46⟩
/-- CREEL_STAT.RETIRING -/ def Fld.creelStatRetiring : Fld := ⟨0, 0⟩
/-- CREEL_ERR.NO_SPARE -/ def Fld.creelErrNoSpare : Fld := ⟨5, 5⟩
/-- CREEL_ERR.FROZEN -/ def Fld.creelErrFrozen : Fld := ⟨4, 4⟩
/-- CREEL_ERR.RETIRED -/ def Fld.creelErrRetired : Fld := ⟨3, 3⟩
/-- CREEL_ERR.REPLAY_ESC -/ def Fld.creelErrReplayEsc : Fld := ⟨2, 2⟩
/-- CREEL_ERR.UE -/ def Fld.creelErrUe : Fld := ⟨1, 1⟩
/-- CREEL_ERR.CE_LIMIT -/ def Fld.creelErrCeLimit : Fld := ⟨0, 0⟩
/-- CREEL_ERR_INFO.CHANNEL -/ def Fld.creelErrInfoChannel : Fld := ⟨60, 56⟩
/-- CREEL_ERR_INFO.ADDR -/ def Fld.creelErrInfoAddr : Fld := ⟨47, 0⟩
/-- CREEL_CMD.GO -/ def Fld.creelCmdGo : Fld := ⟨63, 63⟩
/-- CREEL_CMD.ACTION -/ def Fld.creelCmdAction : Fld := ⟨62, 60⟩
/-- CREEL_CMD.CHANNEL -/ def Fld.creelCmdChannel : Fld := ⟨4, 0⟩
/-- CREEL_CMD_STAT.BUSY -/ def Fld.creelCmdStatBusy : Fld := ⟨63, 63⟩
/-- CREEL_CMD_STAT.CODE -/ def Fld.creelCmdStatCode : Fld := ⟨7, 0⟩
/-- CREEL_RETIRE_STAT.ACTIVE -/ def Fld.creelRetireStatActive : Fld := ⟨63, 63⟩
/-- CREEL_RETIRE_STAT.TO -/ def Fld.creelRetireStatTo : Fld := ⟨62, 55⟩
/-- CREEL_RETIRE_STAT.FROM -/ def Fld.creelRetireStatFrom : Fld := ⟨54, 50⟩
/-- CREEL_RETIRE_STAT.LOST -/ def Fld.creelRetireStatLost : Fld := ⟨49, 22⟩
/-- CREEL_RETIRE_STAT.CURSOR -/ def Fld.creelRetireStatCursor : Fld := ⟨21, 0⟩
/-- CREEL_TREADLE.LEN -/ def Fld.creelTreadleLen : Fld := ⟨63, 59⟩
/-- CREEL_TREADLE.PATTERN -/ def Fld.creelTreadlePattern : Fld := ⟨19, 0⟩
/-- CREEL_CHAN_c.STATE -/ def Fld.creelChanState : Fld := ⟨63, 61⟩
/-- CREEL_CHAN_c.REST -/ def Fld.creelChanRest : Fld := ⟨60, 59⟩
/-- CREEL_CHAN_c.SLOT_STACK -/ def Fld.creelChanSlotStack : Fld := ⟨58, 56⟩
/-- CREEL_CHAN_c.SLOT -/ def Fld.creelChanSlot : Fld := ⟨55, 51⟩
/-- CREEL_CHAN_c.UE -/ def Fld.creelChanUe : Fld := ⟨31, 24⟩
/-- CREEL_CHAN_c.REPLAYS -/ def Fld.creelChanReplays : Fld := ⟨23, 16⟩
/-- CREEL_CHAN_c.CE -/ def Fld.creelChanCe : Fld := ⟨15, 0⟩

/-- What the register tables say of a register kind: where its instances lie, and the masks of its
RW, WS and W1C fields. RO and WO fields are in no mask (R12). -/
structure RegDesc where
  base : Nat
  /-- Outer stride and number of instances. -/
  s1 : Nat
  n1 : Nat
  /-- Inner stride and number of instances. -/
  s2 : Nat
  n2 : Nat
  rw : Nat
  ws : Nat
  w1c : Nat
  reset : Nat
deriving DecidableEq, Repr

/-- Whether the register kind has an instance at the address. -/
def RegDesc.covers (d : RegDesc) (a : Nat) : Bool :=
  d.base ≤ a && (a - d.base) / d.s1 < d.n1 && ((a - d.base) % d.s1) % d.s2 == 0 &&
    ((a - d.base) % d.s1) / d.s2 < d.n2

/-- Register kinds, part 0. -/
def regDescs0 : List RegDesc := [
  ⟨Reg.identPart, 0x1000000000000, 1, 0x1, 1, 0x0, 0x0, 0x0, 0xE2E90122000⟩,
  ⟨Reg.identBootStat, 0x1000000000000, 1, 0x1, 1, 0x0, 0x0, 0x0, 0xC00⟩,
  ⟨Reg.identFuse, 0x1000000000000, 1, 0x1, 1, 0x0, 0x0, 0x0, 0x0⟩,
  ⟨Reg.identBootCmd, 0x1000000000000, 1, 0x1, 1, 0xFFFFFFFFFFFF, 0x0, 0x0, 0x0⟩,
  ⟨Reg.hostifAperture, 0x1000000000000, 1, 0x1, 1, 0xFFFF, 0x0, 0x0, 0x0⟩,
  ⟨Reg.ringBase 0, 0x40, 4, 0x1, 1, 0xFFFFFFFFFFC0, 0x0, 0x0, 0x0⟩,
  ⟨Reg.ringCfg 0, 0x40, 4, 0x1, 1, 0xFFFFFE000001FFFF, 0x0, 0x0, 0x0⟩,
  ⟨Reg.ringProd 0, 0x40, 4, 0x1, 1, 0x0, 0x0, 0x0, 0x0⟩,
  ⟨Reg.ringCons 0, 0x40, 4, 0x1, 1, 0xFFFFFFFF, 0x0, 0x0, 0x0⟩,
  ⟨Reg.hostifEvtCtl, 0x1000000000000, 1, 0x1, 1, 0x3FFFF00000007, 0x0, 0x0, 0x0⟩,
  ⟨Reg.hostifEvtRoute, 0x1000000000000, 1, 0x1, 1, 0xFFFFFFFFFFFFFFFF, 0x0, 0x0, 0x5555555555555555⟩,
  ⟨Reg.hostifEvtStat, 0x1000000000000, 1, 0x1, 1, 0x0, 0x0, 0x0, 0x0⟩,
  ⟨Reg.hostifMsiSend, 0x1000000000000, 1, 0x1, 1, 0x0, 0x0, 0x0, 0x0⟩,
  ⟨Reg.hostifErr, 0x1000000000000, 1, 0x1, 1, 0x0, 0x0, 0x7, 0x0⟩,
  ⟨Reg.spinTaskCmd, 0x1000000000000, 1, 0x1, 1, 0x70000FFFFFFFFFFF, 0x0, 0x0, 0x0⟩,
  ⟨Reg.spinTaskStat, 0x1000000000000, 1, 0x1, 1, 0x0, 0x0, 0x0, 0x0⟩,
  ⟨Reg.spinPuntCtl, 0x1000000000000, 1, 0x1, 1, 0xFFFF0007, 0x0, 0x0, 0x200000000000000⟩,
  ⟨Reg.spinErr, 0x1000000000000, 1, 0x1, 1, 0x0, 0x0, 0xF, 0x0⟩,
  ⟨Reg.spinRestart, 0x1000000000000, 1, 0x1, 1, 0x3000000000000000, 0x0, 0x0, 0x0⟩,
  ⟨Reg.spinGroup 0, 0x8, 16, 0x1, 1, 0xFFFF, 0x0, 0x0, 0x1⟩,
  ⟨Reg.spinQCfg 0, 0x10, 256, 0x1, 1, 0xFFFFC001FFFFFFFF, 0x0, 0x0, 0x0⟩,
  ⟨Reg.spinQStat 0, 0x10, 256, 0x1, 1, 0x0, 0x0, 0x0, 0x0⟩,
  ⟨Reg.spinPunt 0, 0x8, 64, 0x1, 1, 0x1FF, 0x0, 0x0, 0x0⟩,
  ⟨Reg.jacqPatchStat, 0x1000000000000, 1, 0x1, 1, 0x0, 0x0, 0x0, 0x0⟩]

/-- Register kinds, part 1. -/
def regDescs1 : List RegDesc := [
  ⟨Reg.jacqFloor, 0x1000000000000, 1, 0x1, 1, 0xFFFFFFFF, 0x0, 0x0, 0x0⟩,
  ⟨Reg.jacqDisp 0, 0x8, 256, 0x1, 1, 0x0, 0x0, 0x0, 0x0⟩,
  ⟨Reg.jacqHook 0, 0x8, 64, 0x1, 1, 0x0, 0x0, 0x0, 0x0⟩,
  ⟨Reg.tensionCtl, 0x1000000000000, 1, 0x1, 1, 0x3FF0000FFFF, 0x0, 0x0, 0x32000000078⟩,
  ⟨Reg.tensionProfile, 0x1000000000000, 1, 0x1, 1, 0x0, 0x3, 0x0, 0x0⟩,
  ⟨Reg.tensionStat, 0x1000000000000, 1, 0x1, 1, 0x0, 0x0, 0x0, 0x0⟩,
  ⟨Reg.tensionTemp, 0x1000000000000, 1, 0x1, 1, 0xFF, 0x0, 0x0, 0x64⟩,
  ⟨Reg.tensionErr, 0x1000000000000, 1, 0x1, 1, 0x0, 0x0, 0x1F, 0x0⟩,
  ⟨Reg.tensionAvs, 0x1000000000000, 1, 0x1, 1, 0xF, 0x0, 0x0, 0x0⟩,
  ⟨Reg.tensionLoom 0, 0x8, 16, 0x1, 1, 0x1, 0x0, 0x0, 0x0⟩,
  ⟨Reg.timeCtl, 0x1000000000000, 1, 0x1, 1, 0x3, 0x0, 0x0, 0x0⟩,
  ⟨Reg.timeErr, 0x1000000000000, 1, 0x1, 1, 0x0, 0x0, 0xFF, 0x0⟩,
  ⟨Reg.timeDomCtl 0, 0x40, 8, 0x1, 1, 0xFE00000000000000, 0x0, 0x0, 0x0⟩,
  ⟨Reg.timeDomFreq 0, 0x40, 8, 0x1, 1, 0xFFFFFFFFFF, 0x0, 0x0, 0x0⟩,
  ⟨Reg.timeDomSec 0, 0x40, 8, 0x1, 1, 0xFFFFFFFFFFFF, 0x0, 0x0, 0x0⟩,
  ⟨Reg.timeDomNs 0, 0x40, 8, 0x1, 1, 0x3FFFFFFFFFFF, 0x0, 0x0, 0x0⟩,
  ⟨Reg.timeDomStep 0, 0x40, 8, 0x1, 1, 0x0, 0x0, 0x0, 0x0⟩,
  ⟨Reg.timeTxqW0 0, 0x40, 8, 0x1, 1, 0x0, 0x0, 0x0, 0x0⟩,
  ⟨Reg.timeTxqW1 0, 0x40, 8, 0x1, 1, 0x0, 0x0, 0x0, 0x0⟩,
  ⟨Reg.timeTxqStat 0, 0x40, 8, 0x1, 1, 0x0, 0x0, 0x80, 0x0⟩,
  ⟨Reg.timeTpoCtl 0, 0x20, 8, 0x1, 1, 0xF80000003FFFFFFF, 0x0, 0x0, 0x0⟩,
  ⟨Reg.timeTpoStartSec 0, 0x20, 8, 0x1, 1, 0xFFFFFFFFFFFF, 0x0, 0x0, 0x0⟩,
  ⟨Reg.timeTpoStartNs 0, 0x20, 8, 0x1, 1, 0x3FFFFFFF, 0x0, 0x0, 0x0⟩,
  ⟨Reg.timeTpoPeriod 0, 0x20, 8, 0x1, 1, 0x3FFFFFFFF, 0x0, 0x0, 0x0⟩]

/-- Register kinds, part 2. -/
def regDescs2 : List RegDesc := [
  ⟨Reg.timeTpiCtl 0, 0x20, 4, 0x1, 1, 0xFE0000000000FFFF, 0x0, 0x0, 0x0⟩,
  ⟨Reg.timeTpiW0 0, 0x20, 4, 0x1, 1, 0x0, 0x0, 0x0, 0x0⟩,
  ⟨Reg.timeTpiW1 0, 0x20, 4, 0x1, 1, 0x0, 0x0, 0x0, 0x0⟩,
  ⟨Reg.timeTpiStat 0, 0x20, 4, 0x1, 1, 0x0, 0x0, 0x80, 0x0⟩,
  ⟨Reg.timeSense 0, 0x8, 4, 0x1, 1, 0x0, 0x0, 0x0, 0x0⟩,
  ⟨Reg.timeSenseTbl 0, 0x8, 16, 0x1, 1, 0xFFFF00000000FFFF, 0x0, 0x0, 0x0⟩,
  ⟨Reg.timeHoldCfg, 0x1000000000000, 1, 0x1, 1, 0xFFFFFFFFFFFFFF00, 0x0, 0x0, 0xF3850401033C3C00⟩,
  ⟨Reg.timeHoldTref, 0x1000000000000, 1, 0x1, 1, 0xFFFF, 0x0, 0x0, 0x2800⟩,
  ⟨Reg.timeHoldStat, 0x1000000000000, 1, 0x1, 1, 0xE000000000000000, 0x0, 0x0, 0x0⟩,
  ⟨Reg.timeHoldRange, 0x1000000000000, 1, 0x1, 1, 0xFFFFFFFF00000000, 0x0, 0x0, 0x0⟩,
  ⟨Reg.timeHoldC0, 0x1000000000000, 1, 0x1, 1, 0xFFFFFFFFFFFFFFFF, 0x0, 0x0, 0x0⟩,
  ⟨Reg.timeHoldC1, 0x1000000000000, 1, 0x1, 1, 0xFFFFFFFFFFFFFFFF, 0x0, 0x0, 0x0⟩,
  ⟨Reg.timeHoldC2, 0x1000000000000, 1, 0x1, 1, 0xFFFFFFFFFFFFFFFF, 0x0, 0x0, 0x0⟩,
  ⟨Reg.timeHoldD, 0x1000000000000, 1, 0x1, 1, 0xFFFFFFFFFFFFFFFF, 0x0, 0x0, 0x0⟩,
  ⟨Reg.timeHoldPred, 0x1000000000000, 1, 0x1, 1, 0x0, 0x0, 0x0, 0x0⟩,
  ⟨Reg.dpllCtl, 0x1000000000000, 1, 0x1, 1, 0xFE00FF000000FFFF, 0x0, 0x0, 0x880000000000012C⟩,
  ⟨Reg.dpllStat, 0x1000000000000, 1, 0x1, 1, 0x0, 0x0, 0x0, 0x0⟩,
  ⟨Reg.dpllRef 0, 0x8, 4, 0x1, 1, 0xFFFFFF00FFFFFFFF, 0x0, 0x0, 0x5C0000000000⟩,
  ⟨Reg.synceOut 0, 0x8, 2, 0x1, 1, 0xFFF00000FFFFFFFF, 0x0, 0x0, 0x0⟩,
  ⟨Reg.timePort 0, 0x8, 512, 0x1, 1, 0xFF000000FFFFFFFF, 0x0, 0x0, 0x0⟩,
  ⟨Reg.glassSnap, 0x1000000000000, 1, 0x1, 1, 0x3C00000700000000, 0x0, 0x0, 0x0⟩,
  ⟨Reg.glassSnapTime, 0x1000000000000, 1, 0x1, 1, 0x0, 0x0, 0x0, 0x0⟩,
  ⟨Reg.glassErr, 0x1000000000000, 1, 0x1, 1, 0x0, 0x0, 0x3, 0x0⟩,
  ⟨Reg.glassEvtOvf, 0x1000000000000, 1, 0x1, 1, 0x0, 0x0, 0xFFFF, 0x0⟩]

/-- Register kinds, part 3. -/
def regDescs3 : List RegDesc := [
  ⟨Reg.glassPool 0, 0x8, 16, 0x1, 1, 0x0, 0x1FFFFFFFF, 0x0, 0x0⟩,
  ⟨Reg.glassEvtCtl 0, 0x20, 16, 0x1, 1, 0xFFFFFFFFFFE00000, 0x0, 0x0, 0x0⟩,
  ⟨Reg.glassEvtAlo 0, 0x20, 16, 0x1, 1, 0xFFFFFFFFFFFF, 0x0, 0x0, 0x0⟩,
  ⟨Reg.glassEvtAhi 0, 0x20, 16, 0x1, 1, 0xFFFFFFFFFFFF, 0x0, 0x0, 0x0⟩,
  ⟨Reg.glassSmpCtl, 0x1000000000000, 1, 0x1, 1, 0xFFFFFFFFFFFFFFFF, 0x0, 0x0, 0x10000⟩,
  ⟨Reg.glassSmpBase, 0x1000000000000, 1, 0x1, 1, 0xFFFFFFFFFFE0, 0x0, 0x0, 0x0⟩,
  ⟨Reg.glassSmpSize, 0x1000000000000, 1, 0x1, 1, 0x1FFFFFF, 0x0, 0x0, 0x0⟩,
  ⟨Reg.glassSmpProd, 0x1000000000000, 1, 0x1, 1, 0x0, 0x0, 0x0, 0x0⟩,
  ⟨Reg.glassSmpCons, 0x1000000000000, 1, 0x1, 1, 0xFFFFFFFF, 0x0, 0x0, 0x0⟩,
  ⟨Reg.glassSmpStat, 0x1000000000000, 1, 0x1, 1, 0x0, 0x0, 0x1, 0x0⟩,
  ⟨Reg.glassBwCtl, 0x1000000000000, 1, 0x1, 1, 0x7FFFF, 0x0, 0x0, 0x3E8⟩,
  ⟨Reg.digestSnap, 0x1000000000000, 1, 0x1, 1, 0x0, 0x0, 0x0, 0x0⟩,
  ⟨Reg.digestFault, 0x1000000000000, 1, 0x1, 1, 0x0, 0x0, 0x3, 0x0⟩,
  ⟨Reg.digestScanBase, 0x1000000000000, 1, 0x1, 1, 0xFFFFFFFFFFF8, 0x0, 0x0, 0x0⟩,
  ⟨Reg.digestScanLen, 0x1000000000000, 1, 0x1, 1, 0x3FFFFFFFF8, 0x0, 0x0, 0x0⟩,
  ⟨Reg.digestScanCtl, 0x1000000000000, 1, 0x1, 1, 0xFFFF, 0x0, 0x0, 0xA⟩,
  ⟨Reg.digestScanHi, 0x1000000000000, 1, 0x1, 1, 0x0, 0x0, 0x0, 0x0⟩,
  ⟨Reg.digestScanLo, 0x1000000000000, 1, 0x1, 1, 0x0, 0x0, 0x0, 0x0⟩,
  ⟨Reg.digestUnitHi 0, 0x10, 32, 0x1, 1, 0x0, 0x0, 0x0, 0x0⟩,
  ⟨Reg.digestUnitLo 0, 0x10, 32, 0x1, 1, 0x0, 0x0, 0x0, 0x0⟩,
  ⟨Reg.digestSnapHi 0, 0x10, 32, 0x1, 1, 0x0, 0x0, 0x0, 0x0⟩,
  ⟨Reg.digestSnapLo 0, 0x10, 32, 0x1, 1, 0x0, 0x0, 0x0, 0x0⟩,
  ⟨Reg.digestPartHi 0 0, 0x50, 16, 0x10, 5, 0x0, 0x0, 0x0, 0x0⟩,
  ⟨Reg.digestPartLo 0 0, 0x50, 16, 0x10, 5, 0x0, 0x0, 0x0, 0x0⟩]

/-- Register kinds, part 4. -/
def regDescs4 : List RegDesc := [
  ⟨Reg.digestSnappHi 0 0, 0x50, 16, 0x10, 5, 0x0, 0x0, 0x0, 0x0⟩,
  ⟨Reg.digestSnappLo 0 0, 0x50, 16, 0x10, 5, 0x0, 0x0, 0x0, 0x0⟩,
  ⟨Reg.loomHeddleCtl 0, 0x10000, 16, 0x1, 1, 0x0, 0xFFFFFFFF00003FFF, 0x0, 0x0⟩,
  ⟨Reg.loomPortClassLo 0, 0x10000, 16, 0x1, 1, 0x0, 0xFFFFFFFFFFFFFFFF, 0x0, 0x0⟩,
  ⟨Reg.loomPortClassHi 0, 0x10000, 16, 0x1, 1, 0x0, 0xFFFFFFFFFFFFFFFF, 0x0, 0x0⟩,
  ⟨Reg.loomPuntBkt 0 0, 0x10000, 16, 0x8, 64, 0xFFFFFFFF, 0x0, 0x0, 0x0⟩,
  ⟨Reg.loomPuntStat 0 0, 0x10000, 16, 0x8, 64, 0x0, 0x0, 0x0, 0x0⟩,
  ⟨Reg.loomXlatPfxHi 0, 0x10000, 16, 0x1, 1, 0x0, 0xFFFFFFFFFFFFFFFF, 0x0, 0x64FF9B00000000⟩,
  ⟨Reg.loomXlatPfxLo 0, 0x10000, 16, 0x1, 1, 0x0, 0xFFFFFFFF, 0x0, 0x0⟩,
  ⟨Reg.warpCtl, 0x1000000000000, 1, 0x1, 1, 0x101, 0xE00, 0x0, 0x0⟩,
  ⟨Reg.warpGen, 0x1000000000000, 1, 0x1, 1, 0x0, 0xFFFF, 0x0, 0x1⟩,
  ⟨Reg.warpRegion, 0x1000000000000, 1, 0x1, 1, 0xFFFFC0000000, 0x0, 0x0, 0x0⟩,
  ⟨Reg.warpTbl 0, 0x8, 2, 0x1, 1, 0x83FFFFFF0FFFFFF8, 0x0, 0x0, 0x0⟩,
  ⟨Reg.warpOvfCfg, 0x1000000000000, 1, 0x1, 1, 0x1FFFFFFFFFFFF, 0x0, 0x0, 0x0⟩,
  ⟨Reg.warpOvfStat, 0x1000000000000, 1, 0x1, 1, 0x1FFFFF00000000, 0x0, 0x0, 0xC000000000000⟩,
  ⟨Reg.warpSeed0Lo, 0x1000000000000, 1, 0x1, 1, 0xFFFFFFFFFFFFFFFF, 0x0, 0x0, 0x0⟩,
  ⟨Reg.warpSeed0Hi, 0x1000000000000, 1, 0x1, 1, 0xFFFFFFFFFFFFFFFF, 0x0, 0x0, 0x0⟩,
  ⟨Reg.warpSeed1Lo, 0x1000000000000, 1, 0x1, 1, 0xFFFFFFFFFFFFFFFF, 0x0, 0x0, 0x0⟩,
  ⟨Reg.warpSeed1Hi, 0x1000000000000, 1, 0x1, 1, 0xFFFFFFFFFFFFFFFF, 0x0, 0x0, 0x0⟩,
  ⟨Reg.warpSealKeyLo, 0x1000000000000, 1, 0x1, 1, 0xFFFFFFFFFFFFFFFF, 0x0, 0x0, 0x0⟩,
  ⟨Reg.warpSealKeyHi, 0x1000000000000, 1, 0x1, 1, 0xFFFFFFFFFFFFFFFF, 0x0, 0x0, 0x0⟩,
  ⟨Reg.warpCacheCtl, 0x1000000000000, 1, 0x1, 1, 0x3, 0x0, 0x0, 0x0⟩,
  ⟨Reg.warpSweepCtl, 0x1000000000000, 1, 0x1, 1, 0xFFFF, 0x0, 0x0, 0x1E⟩,
  ⟨Reg.warpRehashCtl, 0x1000000000000, 1, 0x1, 1, 0xFFFF, 0x0, 0x0, 0x64⟩]

/-- Register kinds, part 5. -/
def regDescs5 : List RegDesc := [
  ⟨Reg.warpRehashStat, 0x1000000000000, 1, 0x1, 1, 0x0, 0x0, 0x0, 0x0⟩,
  ⟨Reg.warpInit, 0x1000000000000, 1, 0x1, 1, 0x0, 0x0, 0x0, 0x0⟩,
  ⟨Reg.warpErr, 0x1000000000000, 1, 0x1, 1, 0x0, 0x0, 0x1F, 0x0⟩,
  ⟨Reg.warpOcc, 0x1000000000000, 1, 0x1, 1, 0x0, 0x0, 0x0, 0x0⟩,
  ⟨Reg.warpRdCmd, 0x1000000000000, 1, 0x1, 1, 0xFFFFFFF, 0x0, 0x0, 0x0⟩,
  ⟨Reg.warpRdStat, 0x1000000000000, 1, 0x1, 1, 0x0, 0x0, 0x0, 0x0⟩,
  ⟨Reg.warpKeyform 0, 0x8, 16, 0x1, 1, 0x0, 0x80000000FFFFFFFF, 0x0, 0x0⟩,
  ⟨Reg.warpRdData 0, 0x8, 16, 0x1, 1, 0x0, 0x0, 0x0, 0x0⟩,
  ⟨Reg.warpStbl6Base, 0x1000000000000, 1, 0x1, 1, 0xFFFFFFFFFFC0, 0x0, 0x0, 0x0⟩,
  ⟨Reg.warpStbl6Nb, 0x1000000000000, 1, 0x1, 1, 0x8000000007FFFFFF, 0x0, 0x0, 0x0⟩,
  ⟨Reg.warpStbl6Seed, 0x1000000000000, 1, 0x1, 1, 0xFFFFFFFFFFFFFFFF, 0x0, 0x0, 0x0⟩,
  ⟨Reg.warpStbl6Mirror, 0x1000000000000, 1, 0x1, 1, 0xFFFFFFFFFFC0, 0x0, 0x0, 0x0⟩,
  ⟨Reg.warpStbl7Base, 0x1000000000000, 1, 0x1, 1, 0xFFFFFFFFFFC0, 0x0, 0x0, 0x0⟩,
  ⟨Reg.warpStbl7Nb, 0x1000000000000, 1, 0x1, 1, 0x8000000007FFFFFF, 0x0, 0x0, 0x0⟩,
  ⟨Reg.warpStbl7Seed, 0x1000000000000, 1, 0x1, 1, 0xFFFFFFFFFFFFFFFF, 0x0, 0x0, 0x0⟩,
  ⟨Reg.warpFdigCtl, 0x1000000000000, 1, 0x1, 1, 0xFFFFFFFF0000000F, 0x0, 0x0, 0x0⟩,
  ⟨Reg.warpFdigBase, 0x1000000000000, 1, 0x1, 1, 0xFFFFFFFFFFC0, 0x0, 0x0, 0x0⟩,
  ⟨Reg.warpFdigSize, 0x1000000000000, 1, 0x1, 1, 0x1FFFFFF, 0x0, 0x0, 0x0⟩,
  ⟨Reg.warpFdigProd, 0x1000000000000, 1, 0x1, 1, 0x0, 0x0, 0x0, 0x0⟩,
  ⟨Reg.warpFdigCons, 0x1000000000000, 1, 0x1, 1, 0xFFFFFFFF, 0x0, 0x0, 0x0⟩,
  ⟨Reg.warpFdigStat, 0x1000000000000, 1, 0x1, 1, 0x0, 0x0, 0x1, 0x0⟩,
  ⟨Reg.reedCtl, 0x1000000000000, 1, 0x1, 1, 0x3, 0x0, 0x0, 0x2⟩,
  ⟨Reg.reedReclass, 0x1000000000000, 1, 0x1, 1, 0x7FFFFF, 0x0, 0x0, 0x3003E8⟩,
  ⟨Reg.reedErr, 0x1000000000000, 1, 0x1, 1, 0x0, 0x0, 0xF, 0x0⟩]

/-- Register kinds, part 6. -/
def regDescs6 : List RegDesc := [
  ⟨Reg.reedErrIdx, 0x1000000000000, 1, 0x1, 1, 0x0, 0x0, 0x0, 0x0⟩,
  ⟨Reg.reedTreadleCtl, 0x1000000000000, 1, 0x1, 1, 0x0, 0x3F, 0x0, 0x5⟩,
  ⟨Reg.reedTreadleTblLo, 0x1000000000000, 1, 0x1, 1, 0x0, 0x7FFFFFFFFFFFFFFF, 0x0, 0x8D1⟩,
  ⟨Reg.reedTreadleTblHi, 0x1000000000000, 1, 0x1, 1, 0x0, 0x1FFFFFFFF, 0x0, 0x0⟩,
  ⟨Reg.reedPortStat 0, 0x8, 4, 0x1, 1, 0x0, 0x0, 0x0, 0x0⟩,
  ⟨Reg.reedBank 0, 0x8, 128, 0x1, 1, 0x4, 0x3, 0x0, 0x1⟩,
  ⟨Reg.reedSprofCtl 0, 0x40, 64, 0x1, 1, 0x0, 0xF01F000000000000, 0x0, 0x0⟩,
  ⟨Reg.reedSprofMaskLo 0, 0x40, 64, 0x1, 1, 0x0, 0xFFFFFFFFFFFFFFFF, 0x0, 0x0⟩,
  ⟨Reg.reedSprofMaskHi 0, 0x40, 64, 0x1, 1, 0x0, 0xFFFFFFFFFFFFFFFF, 0x0, 0x0⟩,
  ⟨Reg.reedSprofSlotsA 0, 0x40, 64, 0x1, 1, 0x0, 0xFFFFFFFFFFFFFFF, 0x0, 0x0⟩,
  ⟨Reg.reedSprofSlotsB 0, 0x40, 64, 0x1, 1, 0x0, 0xFFFFFFFFFF, 0x0, 0x0⟩,
  ⟨Reg.twillCtl, 0x1000000000000, 1, 0x1, 1, 0x1, 0xE, 0x0, 0x8⟩,
  ⟨Reg.twillCfg, 0x1000000000000, 1, 0x1, 1, 0x0, 0x1FFFFFF007FFFFF, 0x0, 0x0⟩,
  ⟨Reg.twillStat, 0x1000000000000, 1, 0x1, 1, 0x0, 0x0, 0x0, 0x1⟩,
  ⟨Reg.twillErr, 0x1000000000000, 1, 0x1, 1, 0x0, 0x0, 0x7, 0x0⟩,
  ⟨Reg.twillEng 0, 0x8, 4, 0x1, 1, 0x0, 0x0, 0x0, 0x0⟩,
  ⟨Reg.twillSet 0, 0x8, 16, 0x1, 1, 0x0, 0x80000000003FFFFF, 0x0, 0x0⟩,
  ⟨Reg.beamCtl, 0x1000000000000, 1, 0x1, 1, 0xFFFFF00000001, 0x0, 0x0, 0x1000000000001⟩,
  ⟨Reg.beamPool, 0x1000000000000, 1, 0x1, 1, 0x0, 0xFFFFFFFFFFFFFFF0, 0x0, 0x4000⟩,
  ⟨Reg.beamPoolStat, 0x1000000000000, 1, 0x1, 1, 0x0, 0x0, 0x0, 0xEF00000000000000⟩,
  ⟨Reg.beamRsvStat, 0x1000000000000, 1, 0x1, 1, 0x0, 0x0, 0x0, 0x100000000000000⟩,
  ⟨Reg.beamFlushCmd, 0x1000000000000, 1, 0x1, 1, 0x4000000000003FFF, 0x0, 0x0, 0x0⟩,
  ⟨Reg.beamFlushStat, 0x1000000000000, 1, 0x1, 1, 0x0, 0x0, 0x4000000000000000, 0x0⟩,
  ⟨Reg.beamErr, 0x1000000000000, 1, 0x1, 1, 0x0, 0x0, 0xF, 0x0⟩]

/-- Register kinds, part 7. -/
def regDescs7 : List RegDesc := [
  ⟨Reg.beamPort 0, 0x8, 512, 0x1, 1, 0x1C00FFFF00000000, 0x0, 0x0, 0x0⟩,
  ⟨Reg.beamDraftCtl, 0x1000000000000, 1, 0x1, 1, 0x0, 0x1, 0x0, 0x0⟩,
  ⟨Reg.beamDraftStat, 0x1000000000000, 1, 0x1, 1, 0x0, 0x0, 0x0, 0x0⟩,
  ⟨Reg.beamEpochCnt, 0x1000000000000, 1, 0x1, 1, 0x0, 0x0, 0x0, 0x0⟩,
  ⟨Reg.beamBattenCmd, 0x1000000000000, 1, 0x1, 1, 0x0, 0x0, 0x0, 0x0⟩,
  ⟨Reg.beamBattenStat, 0x1000000000000, 1, 0x1, 1, 0x0, 0x0, 0x0, 0x0⟩,
  ⟨Reg.beamHstageAddr, 0x1000000000000, 1, 0x1, 1, 0x3FFFFFFFFFFFF, 0x0, 0x0, 0x0⟩,
  ⟨Reg.beamHstageData, 0x1000000000000, 1, 0x1, 1, 0x0, 0x0, 0x0, 0x0⟩,
  ⟨Reg.beamHstageStat, 0x1000000000000, 1, 0x1, 1, 0x0, 0x0, 0x10000, 0x0⟩,
  ⟨Reg.beamBattenEvt, 0x1000000000000, 1, 0x1, 1, 0x3, 0x0, 0x0, 0x0⟩,
  ⟨Reg.learnCtl, 0x1000000000000, 1, 0x1, 1, 0xFFFFFFFF00000FF1, 0x0, 0x0, 0xF0⟩,
  ⟨Reg.learnFlap, 0x1000000000000, 1, 0x1, 1, 0xFFFFFFFFF, 0x0, 0x0, 0x3E8003C⟩,
  ⟨Reg.learnStat, 0x1000000000000, 1, 0x1, 1, 0x0, 0x0, 0x0, 0x0⟩,
  ⟨Reg.learnErr, 0x1000000000000, 1, 0x1, 1, 0x0, 0x0, 0x1F, 0x0⟩,
  ⟨Reg.learnDefer, 0x1000000000000, 1, 0x1, 1, 0x0, 0x0, 0x0, 0x0⟩,
  ⟨Reg.learnAgeCmd, 0x1000000000000, 1, 0x1, 1, 0x400000000001FFFF, 0x0, 0x0, 0x0⟩,
  ⟨Reg.learnAgeStat, 0x1000000000000, 1, 0x1, 1, 0x0, 0x0, 0x0, 0x0⟩,
  ⟨Reg.learnCmpSrc, 0x1000000000000, 1, 0x1, 1, 0xFFFFFFFFFFF0, 0x0, 0x0, 0x0⟩,
  ⟨Reg.learnCmpDst, 0x1000000000000, 1, 0x1, 1, 0xF000000000FFFFF0, 0x0, 0x0, 0x0⟩,
  ⟨Reg.learnCmpLen, 0x1000000000000, 1, 0x1, 1, 0x1FFFFFF, 0x0, 0x0, 0x0⟩,
  ⟨Reg.learnCmpCtl, 0x1000000000000, 1, 0x1, 1, 0x200000000000FFFF, 0x0, 0x0, 0x3E8⟩,
  ⟨Reg.learnCmpStat, 0x1000000000000, 1, 0x1, 1, 0x0, 0x0, 0x0, 0x0⟩,
  ⟨Reg.learnLpmxBase 0, 0x10, 2, 0x1, 1, 0xFFFFFFFFFFC0, 0x0, 0x0, 0x0⟩,
  ⟨Reg.learnLpmxCnt 0, 0x10, 2, 0x1, 1, 0x7FFFFF, 0x0, 0x0, 0x0⟩]

/-- Register kinds, part 8. -/
def regDescs8 : List RegDesc := [
  ⟨Reg.learnPort 0, 0x8, 512, 0x1, 1, 0xE003FFFF00000000, 0x0, 0x0, 0x0⟩,
  ⟨Reg.selvTrainCtl 0, 0x10000, 8, 0x1, 1, 0xFFFFFFFFFFFFFFFF, 0x0, 0x0, 0x1F4000A00400A0A⟩,
  ⟨Reg.selvRetrain 0, 0x10000, 8, 0x1, 1, 0x0, 0x0, 0x0, 0x0⟩,
  ⟨Reg.selvErr 0, 0x10000, 8, 0x1, 1, 0x0, 0x0, 0xF, 0x0⟩,
  ⟨Reg.selvErrPort 0, 0x10000, 8, 0x1, 1, 0x0, 0x0, 0x0, 0x0⟩,
  ⟨Reg.selvPortCfg 0 0, 0x10000, 8, 0x8, 64, 0xFFC03FFF00000000, 0x0, 0x0, 0x5EE00000000⟩,
  ⟨Reg.selvPortTag 0 0, 0x10000, 8, 0x8, 64, 0xFE000FFF00000FFF, 0x0, 0x0, 0x0⟩,
  ⟨Reg.selvPortPfc 0 0, 0x10000, 8, 0x8, 64, 0xFFFFFFFFFFFFFFFF, 0x0, 0x0, 0xFFFF000000000000⟩,
  ⟨Reg.selvPortLpi 0 0, 0x10000, 8, 0x8, 64, 0xFFFFFFFF00000000, 0x0, 0x0, 0xA000000000000⟩,
  ⟨Reg.selvPortStat 0 0, 0x10000, 8, 0x8, 64, 0x0, 0x0, 0x0, 0x0⟩,
  ⟨Reg.creelCtl 0, 0x10000, 8, 0x1, 1, 0xFFFFFFFFFFFFFF03, 0x0, 0x0, 0x8001803E86400⟩,
  ⟨Reg.creelStat 0, 0x10000, 8, 0x1, 1, 0x0, 0x0, 0x0, 0x87800000000000⟩,
  ⟨Reg.creelErr 0, 0x10000, 8, 0x1, 1, 0x0, 0x0, 0x3F, 0x0⟩,
  ⟨Reg.creelErrInfo 0, 0x10000, 8, 0x1, 1, 0x0, 0x0, 0x0, 0x0⟩,
  ⟨Reg.creelCmd 0, 0x10000, 8, 0x1, 1, 0x700000000000001F, 0x0, 0x0, 0x0⟩,
  ⟨Reg.creelCmdStat 0, 0x10000, 8, 0x1, 1, 0x0, 0x0, 0x0, 0x0⟩,
  ⟨Reg.creelRetireStat 0, 0x10000, 8, 0x1, 1, 0x0, 0x0, 0x0, 0x0⟩,
  ⟨Reg.creelTreadle 0, 0x10000, 8, 0x1, 1, 0x0, 0x0, 0x0, 0x50000000000001EF⟩,
  ⟨Reg.creelChan 0 0, 0x10000, 8, 0x8, 32, 0x0, 0x0, 0x0, 0x0⟩]

/-- Every register kind of the device. -/
def regDescs : List RegDesc :=
  regDescs0 ++ regDescs1 ++ regDescs2 ++ regDescs3 ++ regDescs4 ++ regDescs5 ++ regDescs6 ++ regDescs7 ++ regDescs8

/-- The register kind at an address, if any. -/
def regDesc? (a : Nat) : Option RegDesc := regDescs.find? (fun d => d.covers a)

/-- The reset value of the register at `a`; 0 where the window holds none (R10). The fuses (R512),
the ROM entries of the dispatch table (R450) and the channel numbering (R372) are not one value for
every instance. -/
def regReset (a : Nat) : Word :=
  if a = Reg.identFuse then
    BitVec.ofNat 64 ((if Config.secure then 256 else 0) + Config.secFloor % 256)
  else if 0x31000 ≤ a ∧ a < 0x31800 then BitVec.ofNat 64 ((Config.romEntry ((a - 0x31000) / 8)) % 2 ^ 14)
  else match regDesc? a with
    | none => 0
    | some d =>
      if d.base = Reg.creelChan 0 0 then
        let s := (a - d.base) / d.s1
        let c := ((a - d.base) % d.s1) / 8
        BitVec.ofNat 64 (s <<< 56 + (if c < 30 then c <<< 51 else 2 <<< 61))
      else BitVec.ofNat 64 d.reset

end Sys2Proof
end

