-- ==== Sys2Proof/Machine/Tbl.lean ====
section
/-! DEFINITION. Sparse tables: one canonical form for memory, registers and every numbered
collection of records of the device. -/

namespace Sys2Proof

/-- The entry at key `k`; `d k` where the table lists none. -/
def Tbl.get {α : Type} (d : Nat → α) : Tbl α → Nat → α
  | [], k => d k
  | (j, v) :: m, k => if j = k then v else Tbl.get d m k

/-- The table without any entry at `k`. -/
def Tbl.erase {α : Type} (k : Nat) : Tbl α → Tbl α
  | [] => []
  | (j, v) :: m => if j = k then Tbl.erase k m else (j, v) :: Tbl.erase k m

/-- The table with `v` listed at `k`, at its place in the order. -/
def Tbl.insert {α : Type} (k : Nat) (v : α) : Tbl α → Tbl α
  | [] => [(k, v)]
  | (j, w) :: m =>
    if k < j then (k, v) :: (j, w) :: m
    else if j = k then (k, v) :: m
    else (j, w) :: Tbl.insert k v m

/-- Writes `v` at `k`. Writing the value an unlisted key reads as removes the entry. -/
def Tbl.set {α : Type} [DecidableEq α] (d : Nat → α) (m : Tbl α) (k : Nat) (v : α) : Tbl α :=
  if v = d k then Tbl.erase k m else Tbl.insert k v m

/-- Applies `f` to the entry at `k`. -/
def Tbl.upd {α : Type} [DecidableEq α] (d : Nat → α) (m : Tbl α) (k : Nat) (f : α → α) : Tbl α :=
  Tbl.set d m k (f (Tbl.get d m k))

/-- Every key of the table is at least `lo`, keys rise strictly, and no entry is a default. -/
def Tbl.wfFrom {α : Type} [DecidableEq α] (d : Nat → α) : Nat → Tbl α → Bool
  | _, [] => true
  | lo, (k, v) :: m => decide (lo ≤ k) && decide (v ≠ d k) && Tbl.wfFrom d (k + 1) m

/-- The canonical form of a table. -/
def Tbl.wf {α : Type} [DecidableEq α] (d : Nat → α) (m : Tbl α) : Bool := Tbl.wfFrom d 0 m

/-- A table whose unlisted entries all read `v`. -/
abbrev Tbl.const {α : Type} (v : α) : Nat → α := fun _ => v

end Sys2Proof
end

