-- ==== Sys2Proof/Machine/State.lean ====
section
/-! DEFINITION. The state of the device: every register, store, queue, counter, mode and pin the spec
names, as plain data, and the queue of commands. A register is held in `State.regs` under its address;
state the registers only report is held once, in the structure of its block, and computed on a read. -/

namespace Sys2Proof.Machine

/-- The seal of a key (R134). -/
abbrev Seal := BitVec 96
/-- A flow head: byte k of R137 at bits 8k + 7 to 8k. -/
abbrev Head := BitVec 512

/-! ## Power and boot (R501 to R511, R524) -/

/-- What the boot ROM and the board hold. -/
structure Boot where
  /-- R501: the rails are good. -/
  powered : Bool
  /-- R503: RESET_N is low. -/
  inReset : Bool
  /-- R504: PERST_N is low. -/
  perst : Bool
  /-- R434, R491: the PCIe link is up. -/
  pcieUp : Bool
  /-- R501, R524: the state is undefined until RESET_N is asserted. -/
  outside : Bool
  /-- R506: the flash answered SFDP. -/
  sfdp : Bool
  /-- R507, R508: where in scratch memory the record at the front lies, and where the body ends. -/
  recAt : Nat
  bodyEnd : Nat
  /-- R508: when the WAIT record at the front began to poll. -/
  waitFrom : Option Nat
  /-- R525: the strap SMB_ADDR[1:0], as RESET_N sampled it. -/
  smbAddr : BitVec 2
deriving DecidableEq, Repr

/-! ## Packets and picks -/

/-- R110, R111: the extraction command that last wrote a slot, and the step it belongs to. -/
structure SlotSrc where
  byte : Nat
  bit : Nat
  width : Nat
  ck : Nat
  step : Nat
deriving DecidableEq, Repr

/-- R107: an applied step: its base, length role and checksum. -/
structure StepRec where
  base : Nat
  lrole : Nat
  csum : Nat
deriving DecidableEq, Repr

/-- R61, R76: the disposition of a pick. -/
inductive Disp where
  | none
  | unicast (port queue : Nat)
  | multicast (group queue : Nat)
  | drop (code : Nat)
  | punt (reason : Nat) (code : BitVec 32)
  | recirc
deriving DecidableEq, Repr

/-- R375, R379: one stamp of a packet: the domain's time in units of 2^-48 ns, and its STEP_EPOCH. -/
structure Stamp where
  time : Nat
  epoch : Nat
deriving DecidableEq, Repr

/-- R148, R150: the head a pick holds. -/
structure Held where
  line : Nat
  key96 : Seal
  rno : Nat
  /-- R231: the head's GEN when the pick acquired it. -/
  gen : Nat
  /-- R231: the pick's FCREATE made the record. -/
  created : Bool
  /-- R237: ONSET after the acquisition. -/
  onset : Nat
deriving DecidableEq, Repr

/-- R150: a lookup that waits for a head from HBM. -/
structure HeadWait where
  key96 : Seal
  key : List Byte
  form : Nat
  rno : Nat
  /-- R150 step 5: the line reserved. -/
  line : Nat
  /-- The dest specifier of an FCREATE; none for a FLOOK. -/
  create : Option (BitVec 6)
  /-- The reads in their channel's queue. -/
  reqs : List Nat
deriving DecidableEq, Repr

/-- R225, R230: a search in a port's queue. -/
structure Search where
  prof : Nat
  key : Nat
  width : Nat
  mask : Nat
  dest : BitVec 6
  /-- When it entered its port's queue (R373). -/
  at_ : Nat
  /-- R373: the banks a slot of which it has had, as a mask. -/
  got : Nat
deriving DecidableEq, Repr

/-- R145: where a record is put. -/
inductive Placed where
  | way (r tag : Nat)
  | overflow (r entry : Nat)
deriving DecidableEq, Repr

/-- The record number of a placement. -/
def Placed.rno : Placed → Nat
  | .way r _ => r
  | .overflow r _ => r

/-- The placement lies in the overflow area. -/
def Placed.isOvf : Placed → Bool
  | .way _ _ => false
  | .overflow _ _ => true

/-- R154: a create that waits for a line: its seal, form and key, its dest specifier, and its place. -/
structure CreateWait where
  key96 : Seal
  form : Nat
  key : List Byte
  dest : BitVec 6
  place : Placed
deriving DecidableEq, Repr

/-- What a pick waits for. -/
inductive PickWait where
  | none
  | head (w : HeadWait)
  | create (w : CreateWait)
  | search (q : Search)
deriving DecidableEq, Repr

/-- R72, R73: a pick in progress. -/
structure Pick where
  /-- R72: the batten sequence number. -/
  seq : BitVec 32
  bank : Bool
  pick2 : Bool
  /-- R75: its number in pick-start order. -/
  order : Nat
  startNs : Nat
  issueNs : Nat
  g : Vector Word 16
  p : BitVec 8
  st : Word
  pc : Nat
  icount : Nat
  disp : Disp
  wait : PickWait
  held : Option Held
  /-- R150 step 7: the line kept for an FCREATE. -/
  spare : Option Nat
  /-- R229: an RSEARCH was made; candidates kept, each with whether it truly matches; more matched
  than kept. -/
  searched : Bool
  cands : List (Nat × Bool)
  candMore : Bool
  /-- R263: the last table 3 result with ST_OK and REWRITE. -/
  nextHop : Option Word
  /-- R386: egress-stamp requests, by domain. -/
  stampReq : List (Nat × Nat)
  /-- R189, R382: this pick wrote md bytes 56 to 63; md byte 55. -/
  editSet : Bool
  timeSet : Bool
  /-- R34: the pick has made a flow lookup. -/
  looked : Bool
deriving DecidableEq, Repr

/-- Where a packet is. -/
inductive Place where
  /-- R31, R73: in its port's crossing buffer, or entering from port 512, not yet parsed. -/
  | crossing
  /-- R73: parsed, waiting in its shed's input. -/
  | shedInput
  /-- R73, R80: in a pick. -/
  | running
  /-- R76: its pick has ended; with the Beam for admission. -/
  | handed
  /-- R301: on its loom's port 513 queue. -/
  | recirc
  /-- R288: admitted; copies of it are queued, called or in transmission. -/
  | stored
deriving DecidableEq, Repr

/-- R286: a pool of the buffer. -/
inductive Pool where
  | minimum | shared | headroom
deriving DecidableEq, Repr

/-- A packet in the device. -/
structure Pkt where
  place : Place
  frame : List Byte
  inPort : Nat
  loom : Nat
  shed : Nat
  injected : Bool
  timing : Bool
  oversize : Bool
  /-- R323: the FCS as received is good. -/
  fcsOk : Bool
  bolt : Word
  /-- R379: ingress stamps, one a domain. -/
  stamps : List (Option Stamp)
  /-- R42: what the Heddle fills. -/
  parseDeep : Bool
  parseLen : Bool
  lenPair : Nat
  profile : Nat
  steps : List StepRec
  hfValid : BitVec 32
  hfDirty : BitVec 32
  hf : Vector (BitVec 32) 32
  src : Vector (Option SlotSrc) 32
  flowHash : BitVec 32
  user : BitVec 256
  pick : Pick
  /-- R79, R156, R148: the head pinned for the second pick, with its first pick's view. -/
  kept : Option Held
  /-- R301: cells reserved or held in the recirculation reserve. -/
  resv : Nat
  /-- R382: some pick applied an edit word; R291: the last pick did. -/
  everEdit : Bool
  lastEdit : Bool
  /-- R382: the time action word, where it is to be taken. -/
  timeAct : Option Word
  /-- R285: the pool and PFC account charged, once stored. -/
  pool : Option Pool
  acct : Option Nat
  cells : Nat
  /-- R299: copies not yet gone. -/
  refs : Nat
deriving DecidableEq, Repr

/-! ## Batten unit (R82 to R93) -/

/-- R51: an entry of a stage list. -/
structure StageEntry where
  addr : Nat
  w : Nat
  data : Word
deriving DecidableEq, Repr


/-- R82: a batten: who asked for it, whether its task waits for it (R88), whether WS stages are included,
and its list. The host's list is taken at step 1 (R89). -/
structure BatReq where
  host : Bool
  task : Nat
  wake : Bool
  ws : Bool
  list : List StageEntry
deriving DecidableEq, Repr

/-- The batten unit. -/
structure Batten where
  queue : List BatReq
  /-- R82: threads whose BATTEN waits for a place. -/
  waiting : List BatReq
  /-- R83: the batten between step 1 and step 5. -/
  cur : Option BatReq
  /-- R83: the old value of every overlay byte and register. -/
  oldMem : Tbl (Option Byte)
  oldReg : Tbl (Option Word)
  seq : BitVec 32
  hostDone : BitVec 8
  hstage : List StageEntry
  /-- R91: the bank draining, and the batten past step 5 that waits for it. -/
  draining : Option Bool
  flip : Option BatReq
  /-- R91: the batten in the overlay made another bank active, and the old one has not retired. -/
  curFlip : Bool
deriving DecidableEq, Repr

/-! ## Warp (R143 to R166) -/

/-- R146, R147: what a cache line holds. -/
structure CLine where
  /-- R150: reserved to a pick, no head in it yet. -/
  reserved : Bool
  head : Head
  rno : Nat
  dirty : Bool
  refBit : Bool
  /-- R148: picks and recirculated packets that pin it; of them, recirculated packets. -/
  pins : Nat
  recPins : Nat
  order : Nat
  detached : Bool
  /-- R147: tail bytes 28 to 63, in W2, and the second line that holds them. -/
  image : Option (BitVec 288)
  second : Option Nat
  /-- R147: this line is the second line of that one. -/
  isSecond : Bool
deriving DecidableEq, Repr

/-- R151: an entry of a victim buffer: its head and tail image, and its writes not yet issued. -/
structure Victim where
  head : Head
  rno : Nat
  image : Option (BitVec 288)
  reqs : List Nat
deriving DecidableEq, Repr

/-- The flow-state engine. -/
structure Warp where
  cache : Tbl (Option CLine)
  victims : Tbl (List Victim)
  ptr : Tbl Nat
  installs : Nat
  /-- R143: the tag index and the overflow index. -/
  tags : Tbl Nat
  ovf : Tbl (Option Seal)
  /-- R167: a disable is writing back. -/
  disabling : Bool
  /-- R158: the records that the table-sweep pass owed after a change out of W1 has still to visit. -/
  owed : List Nat
  /-- R162: step 5 has offered every overflow entry below this one. -/
  ovfNext : Nat
  /-- R166: the record of the coherent read in progress. -/
  rdRec : Nat
deriving DecidableEq, Repr

/-! ## Token buckets -/

/-- A bucket: its level when last brought up to date, and that moment. -/
structure Bucket where
  level : Int
  at_ : Nat
deriving DecidableEq, Repr

/-! ## Reed, Twill, learning -/

/-- The ternary matcher. -/
structure Reed where
  portQ : Tbl (List Nat)
  /-- R228: rows searched without verification. -/
  unverified : List Nat
  /-- R226: banks being compared. -/
  checking : List Nat
  /-- R231: the reclassification buckets, in tokens of a millionth. -/
  buckets : Tbl Bucket
  /-- R373: position in the slot table, entry writes and scrubs that wait, and the last owner. -/
  slotPos : Tbl Nat
  writes : Tbl Nat
  lastSlot : Tbl Nat
  /-- R373: slots of a bank that a scrub access has won and not yet used. -/
  scrubs : Tbl Nat
deriving DecidableEq, Repr

/-- R239: a request in an engine's queue. -/
structure ScanReq where
  key96 : Seal
  firstSeen : Nat
  start : Nat
  valid : Bool
  bytes : List Byte
  onset : Nat
  window : Nat
  seq : BitVec 32
  order : Nat
deriving DecidableEq, Repr

/-- The pattern automata. -/
structure Twill where
  eng : Tbl (List ScanReq)
  /-- R245: STARTs replaced, each with the number of the batten that replaced it. -/
  oldStarts : List (Nat × BitVec 32)
  /-- R245: words 0 of states, and edges, that a batten replaced: the address, what it held, the number of the batten. -/
  oldImage : List (Nat × Nat × BitVec 32)
  /-- Requests queued so far: the next place in the order of arrival. -/
  next : Nat
  /-- R241: verdicts discarded; no register reads the count. -/
  verdictsLost : Nat
deriving DecidableEq, Repr

/-- R268: a learn event: its key, port and loom, and when it arrived. -/
structure LearnEv where
  key : Nat
  port : Nat
  loom : Nat
  at_ : Nat
deriving DecidableEq, Repr

/-- The learning shuttle. -/
structure Learn where
  queue : List LearnEv
  deferred : List LearnEv
  /-- R276: the age command that waits: its entry, CLEAR_HIT, and the events still ahead of it. -/
  age : Option (Nat × Bool × Nat)
  /-- R259: HIT of each entry, a bit a loom; LAST_SEEN by entry × 16 + loom; loom of the newest hit. -/
  hit : Tbl (BitVec 16)
  lastSeen : Tbl (BitVec 32)
  newest : Tbl Nat
  moves : Tbl Nat
  winStart : Tbl Nat
  pinnedAt : Tbl (Option Nat)
  /-- R273: entries whose pin's end waits for the lock of their bucket. -/
  pinDeferred : List Nat
deriving DecidableEq, Repr

/-! ## Beam (R285 to R304) -/

/-- A copy in a queue: its packet, its cells, and whether R28 carries it cut-through. -/
structure Copy where
  pkt : Nat
  n : Nat
  cut : Bool
deriving DecidableEq, Repr

/-- R294: a called copy and the cells not yet transferred; with 0 left it waits at its port. -/
structure Called where
  copy : Copy
  queue : Nat
  left : Nat
deriving DecidableEq, Repr

/-- R327, R333: a packet in transmission on a port: the frames, without their FCS, that are still to
leave, the first of them on the wire or, between two segments, about to start. -/
structure Tx where
  copy : Copy
  queue : Nat
  frames : List (List Byte)
  on : Bool
  stomped : Bool
  /-- R287: the frame on the wire carries an uncorrectable cell. -/
  bad : Bool
deriving DecidableEq, Repr

/-- R292: the state of a PFC account. -/
structure Acct where
  shared : Nat
  head : Nat
  xoff : Bool
deriving DecidableEq, Repr

/-- The buffer and the switch. Queues 0 to 10,239 are those of R288, 10,240 + n the punt queue of loom
n, and 10,256 + n its port 513 queue. -/
structure Beam where
  q : Tbl (List Copy)
  residue : Tbl (List Copy)
  /-- R294: by egress loom, in call order. -/
  called : Tbl (List Called)
  tx : Tbl (Option Tx)
  bankUsed : Tbl Nat
  minUsed : Nat
  sharedUsed : Nat
  headUsed : Nat
  recircUsed : Nat
  /-- R287: uncorrectable reads of a location, spares used and cells lost of a bank. -/
  sparesUsed : Tbl Nat
  bankLost : Tbl Nat
  acct : Tbl Acct
  /-- R326: when a received pause of class c of port p ends, at 8p + c. -/
  pauseEnd : Tbl Nat
  grantPtr : Tbl Nat
  acceptPtr : Tbl Nat
  credit : Tbl Nat
  /-- R297: the queue of a port and level the round stands at, at 8p + level, and whether it has
  gained its credit of this round. -/
  round : Tbl (Option (Nat × Bool))
  /-- R297: shaper buckets, in bytes × 80; queue i at i, port p at 10,240 + p. -/
  shaper : Tbl (Option Bucket)
  /-- R302: the loom whose punt queue is served next. -/
  puntNext : Nat
  /-- R287: locations that returned uncorrectable data, at bank × 65,536 + cell. -/
  badCell : Tbl Nat
  /-- R287: locations retired without replacement. -/
  cellsLost : List Nat
deriving DecidableEq, Repr

/-! ## Selvedge (R317 to R348) -/

/-- R334: the transmitter of a port. -/
inductive LpiTx where
  | awake
  | idle
  | waking (until_ : Nat)
deriving DecidableEq, Repr

/-- A front port. -/
structure PortSt where
  /-- R338, R340: when lock was gained; when it was lost. -/
  lockAt : Option Nat
  lossAt : Option Nat
  /-- R339: when the attempt began; failures; when the next one starts. -/
  attempt : Option Nat
  fails : Nat
  nextAt : Option Nat
  lpi : LpiTx
  /-- R334: since when nothing has been called. -/
  idleAt : Nat
  /-- R330: a PFC frame is requested; classes to release; when the last was sent. -/
  pfcReq : Bool
  release : BitVec 8
  lastPfc : Nat
deriving DecidableEq, Repr

/-- The tiles. -/
structure Selv where
  port : Tbl PortSt
  /-- R524: SD_REFCLK of tile t has stopped. -/
  refLost : BitVec 8
  /-- R19, R490: wires failed of a group (link × 256 + group); groups moved to the spare group. -/
  wires : Tbl Nat
  moved : Tbl Bool
  /-- R505: the wires that had failed when RESET_N last fell: the links find these again when they train. -/
  oldWires : Tbl Nat
  /-- Outputs: the last frame sent on a port, and whether its FCS was stomped. -/
  sent : Tbl (Option (List Byte))
  /-- R344: by port, the values MAX_FRAME has had, each with the first packet that arrived after its end. -/
  maxOld : Tbl (List (Nat × Nat))
  /-- R393: by how much the transmit frequency of a tile is offset from its SD_REFCLK, in units of 2^-48 × 10^-9. -/
  txOff : Vector Int 8
deriving DecidableEq, Repr

/-! ## Creel and Treadle (R349 to R371) -/

/-- R479: the master of an event. -/
inductive EvMaster where
  | loom (n : Nat)
  | task (k : Nat)
  | host
  | internal
deriving DecidableEq, Repr

/-- R353: a request in a channel's queue, with the master it is counted for (R478). -/
structure Req where
  id : Nat
  flow : Bool
  read : Bool
  line : Nat
  at_ : Nat
  who : EvMaster
  /-- R363: the copy of a granule of a retirement. -/
  copy : Bool
  /-- R152, R352: a read and a write as one command group: a fold, or a write of part of a line. -/
  pair : Bool
deriving DecidableEq, Repr

/-- R356: what a command slot goes to: nothing, the refresh of a bank, a request by its number, a patrol-scrub
read, a retraining step. -/
inductive Slot where
  | idle
  | refresh (b : Nat)
  | req (id : Nat)
  | scrub
  | step
deriving DecidableEq, Repr

/-- R361: a command as the retry buffer keeps it. -/
inductive HbmCmd where
  | access (bank row : Nat)
  | refresh (bank : Nat)
deriving DecidableEq, Repr

/-- R360, R362, R363: what a channel is doing. -/
structure Chan where
  queue : List Req
  openRow : Tbl (Option Nat)
  /-- R358: refreshes owed, by bank; the bank whose deadline came last. -/
  owed : Tbl Nat
  deadline : Option Nat
  slotPos : Nat
  hintFlow : Nat
  hintOther : Nat
  idleAt : Nat
  /-- R360: an access that waits has reached the resting channel. -/
  wake : Bool
  /-- R358: until when a refresh occupies a bank. -/
  refUntil : Tbl Nat
  /-- R361: alerts in a row, and the times of the recent ones; the last 64 commands, newest last. -/
  alerts : Nat
  alertTimes : List Nat
  retry : List HbmCmd
  /-- R362: a trigger waits for the search; the search runs; it decides a release (R366). -/
  wanted : Bool
  searching : Bool
  releasing : Bool
  /-- R362: when the corrected reads of the last second happened; the stack's temperature at the last search;
  slots since a retraining step took an owned slot, at most 9. -/
  ceTimes : List Nat
  searchTemp : Nat
  /-- R362: a step of the search in progress has been taken. -/
  stepped : Bool
  stepGap : Nat
  /-- R357: what the slot in progress went to, and what the next one goes to. -/
  slot : Slot
  nextSlot : Slot
  /-- R367: the next line of the patrol's pass, counted in the channel's slot, and when the pass began. -/
  patrol : Nat
  patrolAt : Nat
deriving DecidableEq, Repr

/-- R363: a retirement. -/
structure Retire where
  src : Nat
  dst : Nat
  slotStack : Nat
  slot : Nat
  copy : Bool
  /-- step 2 onward. -/
  copying : Bool
  /-- step 3: the copy of granule CURSOR has won its slot; the moment before which it may not run. -/
  granted : Bool
  notBefore : Nat
  /-- R490: granules below this one stood on a spare that failed, and are lost. -/
  lostBelow : Nat
deriving DecidableEq, Repr

/-- The HBM controllers; channel c of stack s at 32s + c. -/
structure Creel where
  chan : Tbl Chan
  retire : Tbl (Option Retire)
  /-- R363: channels that wait for a retirement of their stack to end before their own, each with
  whether it is copied. -/
  waiting : List (Nat × Bool)
  nextReq : Nat
  /-- R351, R352, R363: the symbol errors that stand in a line. -/
  errs : Tbl (List SymErr)
  /-- R371: the command in progress of a Creel: ACTION and channel. -/
  cmd : Tbl (Option (Nat × Nat))
  /-- R369: the hottest die of a stack, as it last reported. -/
  temp : Tbl Nat
deriving DecidableEq, Repr

/-! ## Tally (R375 to R408) -/

/-- R398: what a holdover is anchored to: frequency, temperature in 1/256 °C relative to TREF, time in ns
from power (before it, where the window of the mean reaches back so far), and the fit in use: c1, c2, d, MODEL, TMIN and TMAX. -/
structure Anchor where
  f : Int
  x : Int
  t : Int
  c1 : Int
  c2 : Int
  cd : Int
  model : Nat
  lo : Int
  hi : Int
deriving DecidableEq, Repr

/-- A time domain. -/
structure DomSt where
  /-- The time in units of 2^-48 ns, below 2^48 s. -/
  time : Nat
  /-- R377: the recorded start value. -/
  start : Option Nat
  /-- R416: elapsed time at the domain's rate, in units of 2^-48 ns. -/
  elapsed : Nat
  /-- R378: SEC and NS as latched. -/
  latch : Nat
  /-- R396: FREQ_ADJ summed over the second in progress, and the one-second history, newest first,
  with whether the source was locked. -/
  acc : Int
  hist : List (Int × Bool)
  anchor : Anchor
  /-- R396: REF_STATE has been 0 at some moment of the second in progress. -/
  lapse : Bool
deriving DecidableEq, Repr

/-- R386: an entry of a transmit timestamp queue. -/
structure TxqE where
  port : Nat
  id : Nat
  time : Nat
deriving DecidableEq, Repr

/-- R387: a pulse output. -/
structure Pulse where
  next : Option Nat
  active : Bool
  endAt : Nat
deriving DecidableEq, Repr

/-- R389: a capture input. -/
structure Capture where
  fifo : List (Bool × Nat)
  lastCap : Option Nat
  lastEdge : Nat
deriving DecidableEq, Repr

/-- R396, R397: a sample of the learner: ppb scaled by 2^32, temperature in 1/256 °C, time in ns, and its
weight. -/
structure Sample where
  y : Int
  x : Int
  t : Nat
  w : Rat
deriving DecidableEq, Repr

/-- The time unit. -/
structure Tally where
  dom : Vector DomSt 8
  txq : Tbl (List TxqE)
  pulse : Tbl Pulse
  cap : Tbl Capture
  /-- R395, R396: temperature summed over the second, conversions, and the last valid mean. -/
  tempAcc : Int
  tempN : Nat
  temp : Int
  tempHist : List Int
  /-- R396: one-second values of the DPLL, newest first. -/
  dpllHist : List (Int × Bool)
  /-- R396: the DPLL has not been LOCKED at some moment of the second in progress. -/
  dpllLapse : Bool
  /-- R396: one-second values since the last sample was due; when the second in progress began. -/
  seconds : Nat
  secondAt : Nat
  samples : List Sample
  /-- R400: the published fit was written by software. -/
  restored : Bool
  /-- R392: the anchor of the DPLL's holdover. -/
  dpllAnchor : Anchor
  /-- R391: since when a reference has been without fault. -/
  refOk : Tbl (Option Nat)
  /-- R391: the selected reference. -/
  sel : Option Nat
deriving DecidableEq, Repr

/-! ## Spindle and host (R409 to R447) -/

/-- R413: a task command. -/
inductive TaskOp where
  | create | start | cancel | delete | signal
deriving DecidableEq, Repr

/-- R412: the state of a task. -/
inductive TaskState where
  | free | stopped | dormant | ready | running | blocked
deriving DecidableEq, Repr

/-- R55: a loop in progress. -/
structure Loop where
  count : Nat
  start : Nat
  len : Nat
deriving DecidableEq, Repr

/-- R63, R65: what a task waits for. -/
inductive TaskWait where
  | none
  | lock (name : Nat)
  | event (mask : BitVec 32) (all clear : Bool) (dest : BitVec 6) (until_ : Option Nat)
  | qput (q : Nat) (v : Word)
  | qget (q : Nat) (dest : BitVec 6)
  | dma
  /-- R51, R82: inside BATTEN. -/
  | batten
deriving DecidableEq, Repr

/-- R443, R444: what a context keeps for its microcode: the microregisters u0 to u15, the return stack (the last address
pushed first), the ALU flags, and the response of the unit last asked. -/
structure Micro where
  u : Vector Word 16
  ret : List Nat
  flags : BitVec 4
  resp : Word
deriving DecidableEq, Repr

/-- The microcode state of a context at reset. -/
def Micro.none : Micro := { u := Vector.replicate 16 0, ret := [], flags := 0, resp := 0 }

/-- R418: a load from HBM that is outstanding: its requests, what it found as they were made, unless that was
uncorrectable, and where its value goes. -/
structure Load where
  reqs : List Nat
  got : Option (List Byte)
  addr : Nat
  n : Nat
  signed : Bool
  dest : BitVec 6
deriving DecidableEq, Repr

/-- A task. -/
structure Task where
  st : TaskState
  g : Vector Word 32
  stReg : Word
  pc : Nat
  flags : BitVec 32
  loops : List Loop
  stage : List StageEntry
  /-- R428: lock names held, in the order taken. -/
  locks : List Nat
  wait : TaskWait
  acts : Nat
  misses : Nat
  skipped : Nat
  lag : Nat
  /-- R421: the timer is armed; the nominal release NEXT stands for; NEXT; a release is held. -/
  armed : Bool
  nominal : Nat
  next : Nat
  heldRel : Bool
  /-- R421: the deadline of the activation, until it is counted. -/
  deadline : Option Nat
  /-- R422: a flag made it READY in the scheduler round in progress. -/
  flagRound : Bool
  /-- R419: since when it has held its context, and which. -/
  ctx : Option Nat
  sliceAt : Nat
  /-- R444: the waiting instruction whose microcode sequence restarts when it resumes. -/
  resume : Option (Nat × IWord)
  /-- R360, R418: the load that waits for its channel. -/
  load : Option Load
deriving DecidableEq, Repr

/-- R428: a lock. -/
structure Lock where
  holder : Nat
  waiters : List Nat
deriving DecidableEq, Repr

/-- R425, R426: a queue. An entry of queue 255 put by the ring command INJECT carries its descriptor
(R438). -/
structure SQueue where
  entries : List (Word × Option (List Byte))
  putters : List (Nat × Word)
  getters : List Nat
deriving DecidableEq, Repr

/-- R64: a copy in a core's queue. -/
structure DmaReq where
  task : Nat
  desc : Nat
  src : Nat
  dst : Nat
  len : Nat
  flags : Nat
  waits : Bool
deriving DecidableEq, Repr

/-- R431: an outstanding handle. -/
structure Handle where
  h : Word
  at_ : Nat
  timedOut : Bool
deriving DecidableEq, Repr

/-- R432: an injection that waits for its place. -/
structure HeldInj where
  h : Word
  desc : List Byte
  frame : List Byte
deriving DecidableEq, Repr

/-- The Spindle. -/
structure Spin where
  task : Tbl Task
  /-- R420, R444: by task, what its microcode holds. -/
  micro : Tbl Micro
  /-- R417: READY tasks, in ready order. -/
  ready : List Nat
  queue : Tbl SQueue
  lock : Tbl (Option Lock)
  dma : Tbl (List DmaReq)
  /-- R417: context time of a group, in ns. -/
  groupNs : Tbl Nat
  /-- R429: runs of units in use. -/
  units : List (Nat × Nat)
  /-- R431: units freed and not in use since. -/
  freed : Tbl Bool
  seqs : Tbl Nat
  out : List Handle
  /-- R431: handles released whose units are kept. -/
  kept : List Word
  heldInj : List HeldInj
  /-- R488: handles of copies dropped, code 14, after a thread took them. -/
  lostCopies : List Word
  restarting : Bool
  /-- R413: task commands applied in the scheduler round in progress, and those that wait for the next. -/
  roundCmds : Nat
  cmdQ : List (TaskOp × Nat × BitVec 32)
  /-- R66: program words threads have stored that no batten has followed, each with the batten sequence number then. -/
  stored : List (Nat × BitVec 32)
deriving DecidableEq, Repr

/-- R441, R442: an event ring's backlog. -/
structure Backlog where
  recs : List (List Byte)
  lost : Nat
deriving DecidableEq, Repr

/-- R439: an event record that is due: its type, source and payload. -/
structure EvDue where
  typ : Nat
  src : Nat
  payload : List Byte
deriving DecidableEq, Repr

/-- R447: a patch being switched to. -/
structure PatchSet where
  half : Nat
  version : Nat
  byRing : Bool
  comp : List Byte
deriving DecidableEq, Repr

/-- The host interface. -/
structure HostIf where
  backlog0 : Backlog
  backlog1 : Backlog
  seq : BitVec 32
  /-- R370, R480: records that an access to memory or a count has brought about, yet to be posted, the oldest first. -/
  due : List EvDue
  /-- R442: messages sent of a vector; vectors held; when ring n last raised its own; entries waiting. -/
  raised : Tbl Nat
  held : List Nat
  msiAt : Tbl (Option Nat)
  msiDue : Tbl Bool
  /-- R447: the patch set whose switch is in progress. -/
  switching : Option PatchSet
  /-- Outputs: what the last host read and the last SMBus command returned. -/
  rdData : Word
  /-- R364, R434: the last host read completed with poisoned data. -/
  rdPoison : Bool
  smb : Option (List Byte)
deriving DecidableEq, Repr

/-! ## Tension, Pick glass, digests -/

/-- The voltage controller; voltages in units of 0.1 mV. -/
structure Tension where
  avs : Bool
  avsFail : Bool
  vdd : Nat
  above : Nat
  /-- R455: when the regulator reaches the voltage last commanded. -/
  reachAt : Nat
  brake : Bool
  ramp : Bool
  brakeAt : Nat
  tripped : Bool
  /-- R527: the brake has acted since reset. -/
  braked : Bool
deriving DecidableEq, Repr

/-- R481: an instruction that fell due for sampling. -/
structure SampleRec where
  bytes : List Byte
deriving DecidableEq, Repr

/-- The Pick glass; counters by their offset in the image (R471). -/
structure Glass where
  live : Tbl Word
  snap : Tbl Word
  gather : Option (Tbl Word × Word)
  countdown : Tbl Nat
  draws : Tbl Nat
  due : Tbl (List SampleRec)
  /-- R484: wire bytes of the window in progress; twice its number, plus 1 while it has not begun. -/
  rxWin : Tbl Nat
  txWin : Tbl Nat
  winFrom : Nat
deriving DecidableEq, Repr

/-- The digest unit. -/
structure DigestSt where
  /-- R489: words lost in the master copy of the pattern tables alone, by broadcast address, with what it holds there. -/
  lost : Tbl (Option Word)
deriving DecidableEq, Repr

/-- R393: what an output SYNCE_CLK[j] carries: a clock of `hz` Hz locked to a source (1 the recovered clock of a port,
2 the DPLL, 3 TIME_OSC); low where `hz` is 0. -/
structure SynceClk where
  source : Nat
  port : Nat
  hz : Nat
deriving DecidableEq, Repr

/-- An output held low. -/
def SynceClk.low : SynceClk := { source := 0, port := 0, hz := 0 }

/-- R501: pins the device drives. -/
structure Pins where
  tpo : BitVec 8
  synce : Vector SynceClk 2
  thermTrip : Bool
deriving DecidableEq, Repr

/-- The state of the device. -/
structure State where
  pending : List Instr
  /-- Nanoseconds elapsed since power-on. -/
  now : Nat
  /-- How many free values have been drawn. -/
  freeCtr : Nat
  regs : Tbl Word
  /-- R12: pending WS stages of a register word: mask and value. -/
  ws : Tbl (Word × Word)
  mem : Tbl Byte
  boot : Boot
  pkts : Tbl (Option Pkt)
  nextPkt : Nat
  nextOrder : Nat
  bat : Batten
  warp : Warp
  reed : Reed
  twill : Twill
  learn : Learn
  beam : Beam
  selv : Selv
  creel : Creel
  time : Tally
  spin : Spin
  host : HostIf
  tension : Tension
  glass : Glass
  digest : DigestSt
  pins : Pins
  /-- R129: punt buckets, at loom × 64 + reason, in punts of a millionth. -/
  puntBkt : Tbl Bucket
deriving DecidableEq, Repr

/-! ## Stops -/

/-- Why a step stops. -/
inductive Fault where
  /-- A use of the device the spec calls undefined behaviour, by its number in R500 (R4: no effect is
  promised). Raised by the meaning that meets it. Safe. -/
  | undefinedBehaviour (n : Nat)
deriving DecidableEq, Repr

/-- Why a command has no meaning. -/
inductive Refusal where
  /-- The command has no meaning in the model yet. Raised by Dispatch alone. Safe. -/
  | notModelled (mnemonic : String)
deriving DecidableEq, Repr

/-! ## Reset -/

/-- What a byte of memory reads as when nothing has written it: its reset value where the spec gives
one (R308: ALPHA 7, QUANTUM 24; R309: XOFF 0xF_FFFF; R415: CATCHUP 75), else 0. -/
def memReset (a : Nat) : Byte :=
  if 0x31800000 ≤ a ∧ a < 0x31828000 then
    match a % 16 with
    | 5 => 0x70
    | 11 => 0x80
    | 12 => 0x01
    | _ => 0
  else if 0x31830000 ≤ a ∧ a < 0x31840000 then
    match a % 16 with
    | 5 => 0xF0
    | 6 => 0xFF
    | 7 => 0xFF
    | _ => 0
  else if 0x44000000 ≤ a ∧ a < 0x44040000 then
    match a % 64 with
    | 1 => 0x2C
    | 2 => 0x01
    | _ => 0
  else 0

/-- The canonical form of memory: addresses rise strictly, and no byte is listed that an unlisted address
reads as. -/
def Memory.wf (m : Tbl Byte) : Bool := Tbl.wf memReset m

/-- A task table entry with no task. -/
def Task.none : Task :=
  { st := .free, g := Vector.replicate 32 0, stReg := 0, pc := 0, flags := 0, loops := [], stage := [],
    locks := [], wait := .none, acts := 0, misses := 0, skipped := 0, lag := 0, armed := false,
    nominal := 0, next := 0, heldRel := false, deadline := .none, flagRound := false, ctx := .none, sliceAt := 0,
    resume := .none, load := .none }

/-- A port as reset leaves it. -/
def PortSt.init : PortSt :=
  { lockAt := none, lossAt := none, attempt := none, fails := 0, nextAt := none, lpi := .awake,
    idleAt := 0, pfcReq := false, release := 0, lastPfc := 0 }

/-- A channel as reset leaves it. -/
def Chan.init : Chan :=
  { queue := [], openRow := [], owed := [], deadline := none, slotPos := 0, hintFlow := 0, hintOther := 0, idleAt := 0,
    wake := false, refUntil := [], alerts := 0, alertTimes := [], retry := [], wanted := false,
    searching := false, releasing := false, ceTimes := [], searchTemp := 0, stepped := false, stepGap := 9,
    slot := .idle, nextSlot := .idle, patrol := 0, patrolAt := 0 }

/-- No anchor. -/
def Anchor.none : Anchor := { f := 0, x := 0, t := 0, c1 := 0, c2 := 0, cd := 0, model := 0, lo := 0, hi := 0 }

/-- A domain as reset leaves it. -/
def DomSt.init : DomSt :=
  { time := 0, start := none, elapsed := 0, latch := 0, acc := 0, hist := [], anchor := Anchor.none, lapse := true }

/-- A queue as reset leaves it. -/
def SQueue.init : SQueue := { entries := [], putters := [], getters := [] }

/-- A pulse output as reset leaves it. -/
def Pulse.init : Pulse := { next := none, active := false, endAt := 0 }

/-- A capture input as reset leaves it. -/
def Capture.init : Capture := { fifo := [], lastCap := none, lastEdge := 0 }

/-- R231: a full reclassification bucket. -/
def reclassFull : Bucket := { level := 64000000, at_ := 0 }

/-- The device right after RESET_N rises: every register and store at its reset value, phase INIT. -/
def State.reset : State :=
  { pending := [], now := 0, freeCtr := 0, regs := [], ws := [], mem := [],
    boot := { powered := true, inReset := false, perst := true, pcieUp := false, outside := false,
              sfdp := false, recAt := 0, bodyEnd := 0, waitFrom := none, smbAddr := Config.smbStrap },
    pkts := [], nextPkt := 0, nextOrder := 0,
    bat := { queue := [], waiting := [], cur := none, oldMem := [], oldReg := [], seq := 0,
             hostDone := 0, hstage := [], draining := none, flip := none, curFlip := false },
    warp := { cache := [], victims := [], ptr := [], installs := 0, tags := [], ovf := [],
              disabling := false, owed := [], ovfNext := 0, rdRec := 0 },
    reed := { portQ := [], unverified := [], checking := [], buckets := [], slotPos := [],
              writes := [], lastSlot := [], scrubs := [] },
    twill := { eng := [], oldStarts := [], oldImage := [], next := 0, verdictsLost := 0 },
    learn := { queue := [], deferred := [], age := none, hit := [], lastSeen := [], newest := [],
               moves := [], winStart := [], pinnedAt := [], pinDeferred := [] },
    beam := { q := [], residue := [], called := [], tx := [], bankUsed := [],
              minUsed := 0, sharedUsed := 0, headUsed := 0, recircUsed := 0, sparesUsed := [],
              bankLost := [], acct := [], pauseEnd := [], grantPtr := [], acceptPtr := [],
              credit := [], round := [], shaper := [], puntNext := 0, badCell := [], cellsLost := [] },
    selv := { port := [], refLost := 0, wires := [], moved := [], oldWires := [], sent := [], maxOld := [], txOff := Vector.replicate 8 0 },
    creel := { chan := [], retire := [], waiting := [], nextReq := 0, errs := [], cmd := [], temp := [] },
    time := { dom := Vector.replicate 8 DomSt.init, txq := [], pulse := [], cap := [], tempAcc := 0,
              tempN := 0, temp := 0, tempHist := [], dpllHist := [], dpllLapse := true, seconds := 0, secondAt := 0,
              samples := [], restored := false, dpllAnchor := Anchor.none, refOk := [], sel := none },
    spin := { task := [], micro := [], ready := [], queue := [], lock := [], dma := [], groupNs := [], units := [], freed := [],
              seqs := [], out := [], kept := [], heldInj := [], lostCopies := [], restarting := false, roundCmds := 0, cmdQ := [], stored := [] },
    host := { backlog0 := { recs := [], lost := 0 }, backlog1 := { recs := [], lost := 0 }, seq := 0, due := [],
              raised := [], held := [], msiAt := [], msiDue := [], switching := none, rdData := 0, rdPoison := false,
              smb := none },
    tension := { avs := false, avsFail := false, vdd := 8000, above := 0, reachAt := 0, brake := false,
                 ramp := false, brakeAt := 0, tripped := false, braked := false },
    glass := { live := [], snap := [], gather := none, countdown := [], draws := [], due := [],
               rxWin := [], txWin := [], winFrom := 0 },
    digest := { lost := [] },
    pins := { tpo := 0, synce := Vector.replicate 2 SynceClk.low, thermTrip := false }, puntBkt := [] }

end Sys2Proof.Machine
end

