-- ==== Sys2Proof/Machine/Ops.lean ====
section
/-! DEFINITION. The named operations every block shares: register fields, bytes of memory, free
values, time words, counters, status words, the batten overlay, packets and token buckets. -/

namespace Sys2Proof.Machine

/-- What a step answers. -/
abbrev Out := Host.Outcome State Fault Refusal

/-- Undefined behaviour n of R500. -/
def ub (n : Nat) : Out := .fault (.undefinedBehaviour n)

/-- The outcome of a step that may stop. -/
def toOut : Except Fault State → Out
  | .ok s => .next s
  | .error e => .fault e

/-! ## Registers -/

/-- The stored value of the register at `a`. -/
def State.rd (s : State) (a : Nat) : Word := Tbl.get regReset s.regs a

/-- Stores a register. -/
def State.wr (s : State) (a : Nat) (w : Word) : State := { s with regs := Tbl.set regReset s.regs a w }

/-- A field of a register. -/
def State.fld (s : State) (a : Nat) (f : Fld) : Nat := f.get (s.rd a)

/-- A one-bit field. -/
def State.flag (s : State) (a : Nat) (f : Fld) : Bool := s.fld a f != 0

/-- Stores a field of a register. -/
def State.setF (s : State) (a : Nat) (f : Fld) (v : Nat) : State := s.wr a (f.put (s.rd a) v)

/-- Adds to a field, which wraps. -/
def State.incF (s : State) (a : Nat) (f : Fld) (k : Nat := 1) : State := s.setF a f (s.fld a f + k)

/-- Adds to a field, which saturates. -/
def State.satF (s : State) (a : Nat) (f : Fld) : State :=
  let m := 2 ^ (f.hi + 1 - f.lo) - 1
  s.setF a f (min m (s.fld a f + 1))

/-- The signed value of a field. -/
def State.sfld (s : State) (a : Nat) (f : Fld) : Int := sxInt (f.hi + 1 - f.lo) (s.fld a f)

/-- Sets a sticky bit. -/
def State.setBit (s : State) (a bit : Nat) : State := s.wr a (s.rd a ||| BitVec.ofNat 64 (2 ^ bit))

/-! ## Memory -/

/-- One byte of memory. -/
def State.byte (s : State) (a : Nat) : Byte := Tbl.get memReset s.mem a

/-- Stores one byte. -/
def State.setByte (s : State) (a : Nat) (b : Byte) : State := { s with mem := Tbl.set memReset s.mem a b }

/-- `n` bytes from `a`. -/
def State.bytes (s : State) (a : Nat) : Nat → List Byte
  | 0 => []
  | n + 1 => s.byte a :: State.bytes s (a + 1) n

/-- Stores bytes from `a`. -/
def State.setBytes (s : State) (a : Nat) : List Byte → State
  | [] => s
  | b :: bs => State.setBytes (s.setByte a b) (a + 1) bs

/-- A little-endian value of `n` bytes (R8). -/
def State.le (s : State) (a n : Nat) : Nat := ofLE (s.bytes a n)

/-- Stores a little-endian value of `n` bytes. -/
def State.setLe (s : State) (a n v : Nat) : State := s.setBytes a (toLE n v)

/-- The word of a table in memory. -/
def State.w64 (s : State) (a : Nat) : Word := BitVec.ofNat 64 (s.le a 8)

/-- R489: what the master copy alone holds in a word of the pattern image that it has lost: 0, and what has been written
since. -/
def State.masterLost (s : State) (a : Nat) : Option Word := Tbl.get (Tbl.const none) s.digest.lost a

/-- R489: a word of the pattern image as the master copy holds it. -/
def State.masterLe (s : State) (a : Nat) : Nat := (s.masterLost a).elim (s.le a 8) BitVec.toNat

/-- R489: a lost word in which the bytes `lo` to `hi` of the store have been written. -/
def State.mendWord (s : State) (lo hi a : Nat) (w : Word) : Word :=
  BitVec.ofNat 64 (ofLE ((List.range 8).map fun i =>
    if lo ≤ a + i ∧ a + i < hi then s.byte (a + i) else w.extractLsb' (8 * i) 8))

/-- R489: `n` bytes from `a` have been written: words written whole are lost no longer. -/
def State.mendLost (s : State) (a n : Nat) : State :=
  { s with digest := { s.digest with lost := s.digest.lost.filterMap fun e =>
      if a ≤ e.1 ∧ e.1 + 8 ≤ a + n then none else some (e.1, e.2.map (s.mendWord a (a + n) e.1)) } }

/-! ## Free values, domains, time words -/

/-- The next free value: a value the spec leaves open. -/
def State.draw (s : State) : Nat × State := (Config.free s.freeCtr, { s with freeCtr := s.freeCtr + 1 })

/-- Units of a domain's time in a nanosecond. -/
def nsUnit : Nat := 2 ^ 48

/-- Units in a second. -/
def secUnit : Nat := 1000000000 * 2 ^ 48

/-- The range of a domain's time (R375). -/
def timeRange : Nat := 2 ^ 48 * secUnit

/-- Domain `d`. -/
def State.dom (s : State) (d : Nat) : DomSt := vget s.time.dom d DomSt.init

/-- Changes domain `d`. -/
def State.updDom (s : State) (d : Nat) (f : DomSt → DomSt) : State :=
  { s with time := { s.time with dom := vupd f d s.time.dom } }

/-- R402: domain `d` is enabled. -/
def State.domOn (s : State) (d : Nat) : Bool := s.flag (Reg.timeDomCtl d) Fld.timeDomCtlEnable

/-- The Rostin time word of a domain time (R62). -/
def timeWord (t : Nat) : Word :=
  BitVec.ofNat 64 ((t / secUnit % 2 ^ 34) * 2 ^ 30 + t / nsUnit % 1000000000)

/-- The time word of domain `d` now; 0 while it is disabled (R375). -/
def State.timeWordOf (s : State) (d : Nat) : Word := if s.domOn d then timeWord (s.dom d).time else 0

/-- The flow time of a domain time (R140). -/
def flowTime (t : Nat) : Nat :=
  (t / secUnit % 2 ^ 22) * 1024 + (t / nsUnit % 1000000000) / 1000000

/-- The flow time of domain `d` now; 0 while it is disabled. -/
def State.flowNow (s : State) (d : Nat) : Nat := if s.domOn d then flowTime (s.dom d).time else 0

/-- R416: elapsed ns at the rate of domain `d`. -/
def State.elapsed (s : State) (d : Nat) : Nat := (s.dom d).elapsed / nsUnit

/-! ## Counters (R471, R478 to R480) -/

/-- Adds to the counter at an offset of the live image. -/
def State.count (s : State) (off : Nat) (k : Nat := 1) : State :=
  { s with glass := { s.glass with
      live := Tbl.upd (Tbl.const 0) s.glass.live off (fun v => v + BitVec.ofNat 64 k) } }

/-- Port counter j of port p. -/
def State.cntPort (s : State) (p j : Nat) (k : Nat := 1) : State := s.count (512 * p + 8 * j) k
/-- Queue counter r of queue i. -/
def State.cntQueue (s : State) (i r : Nat) (k : Nat := 1) : State := s.count (0x40000 + 128 * i + 8 * r) k
/-- Loom counter j of loom n. -/
def State.cntLoom (s : State) (n j : Nat) (k : Nat := 1) : State := s.count (0x180000 + 0x1000 * n + 8 * j) k
/-- Shared-block counter j. -/
def State.cntShared (s : State) (j : Nat) (k : Nat := 1) : State := s.count (0x190000 + 8 * j) k

/-- R479: an event with what its filters see. -/
structure GEvent where
  kind : Nat
  weight : Nat
  /-- Bit of PRIV: 0 draft, 1 thread, 2 host, 3 internal. -/
  priv : Nat
  master : EvMaster
  addr : Option Nat
  cls : Option Nat
deriving DecidableEq, Repr

/-- R479: whether an event passes the filters of counter `i`. -/
def State.evPasses (s : State) (i : Nat) (e : GEvent) : Bool :=
  let c := Reg.glassEvtCtl i
  let pv := s.fld c Fld.glassEvtCtlPriv
  let mid := s.fld c Fld.glassEvtCtlMid
  let hi := s.fld (Reg.glassEvtAhi i) Fld.glassEvtAhiAddrHi
  let lo := s.fld (Reg.glassEvtAlo i) Fld.glassEvtAloAddrLo
  let m := s.fld c Fld.glassEvtCtlClassMask
  s.flag c Fld.glassEvtCtlEnable && s.fld c Fld.glassEvtCtlEvent == e.kind &&
  (pv == 0 || pv.testBit e.priv) &&
  (match s.fld c Fld.glassEvtCtlMkind, e.master with
    | 0, _ => true
    | 1, .loom n => n == mid % 16
    | 2, .task k => k == mid
    | 3, .host => true
    | _, _ => false) &&
  (match e.addr with
    | none => true
    | some a => hi == 0 || (lo ≤ a && a < hi)) &&
  (match e.cls with
    | none => true
    | some p => !s.flag c Fld.glassEvtCtlClassEn || (p &&& m) == (s.fld c Fld.glassEvtCtlClass &&& m))

/-- R480: counter 2k + 1 takes the carries of counter 2k. -/
def State.evChained (s : State) (i : Nat) : Bool :=
  i % 2 == 1 && s.flag (Reg.glassEvtCtl i) Fld.glassEvtCtlChain

/-! ## Records that are due (R439, R440, R488) -/

/-- R440: the payload of an ERR_BIT record. -/
def errPayload (a bit info : Nat) : List Byte := toLE 6 a ++ toLE 2 bit ++ toLE 8 info

/-- R488: the payload of a MASKED record. -/
def maskPayload (mech unit_ loss : Nat) : List Byte := toLE 2 mech ++ toLE 2 0 ++ toLE 4 unit_ ++ toLE 8 loss

/-- R439: the source block of a register address (R9). -/
def srcOf (a : Nat) : Nat :=
  if a < 0x80000 then a / 0x10000
  else if a < 0x200000 then 16 + (a - 0x100000) / 0x10000
  else if a < 0x250000 then 32 + (a - 0x200000) / 0x10000
  else if a < 0x380000 then 48 + (a - 0x300000) / 0x10000
  else 64 + (a - 0x400000) / 0x10000

/-- An event record falls due: it is posted before the next one (DESIGN CHOICE, log entry 125). -/
def State.later (s : State) (typ src : Nat) (payload : List Byte) : State :=
  { s with host := { s.host with due := s.host.due ++ [{ typ := typ, src := src, payload := payload }] } }

/-- R440: the record of an error bit falls due. -/
def State.laterErr (s : State) (a bit info : Nat) : State := s.later 1 (srcOf a) (errPayload a bit info)

/-- R488: a MASKED record falls due. -/
def State.laterMasked (s : State) (mech src unit_ loss : Nat) : State := s.later 2 src (maskPayload mech unit_ loss)

/-! ## The device at a stand -/

/-- R465, R501, R503, R524: the handshake domain does nothing: the trip has acted, RESET_N is low, there is
no power, or a clock was interrupted. -/
def State.halted (s : State) : Bool := s.tension.tripped || s.boot.inReset || !s.boot.powered || s.boot.outside

/-- R465, R503, R524: what an event does; at a stand, nothing. -/
def unlessHalted (s : State) (o : Out) : Out := if s.halted = true then .next s else o

/-- R503: RESET_N is low, or the rails are down: every register is at its reset value and stays there. -/
def State.underPin (s : State) : Bool := s.boot.inReset || !s.boot.powered

/-- R503: what an event of a unit that a trip does not stop does; under reset, nothing. -/
def unlessReset (s : State) (o : Out) : Out := if s.underPin = true then .next s else o

/-- R510: the boot ROM's phase. -/
def State.phase (s : State) : Nat := s.fld Reg.identBootStat Fld.identBootStatPhase

/-- R491, R504, R510: the host reaches an address: the link is up, and the ROM has ended or the address is in
IDENT. -/
def State.hostReaches (s : State) (a : Nat) : Bool :=
  s.boot.pcieUp && !s.halted && (decide (5 ≤ s.phase) || decide (a < 0x10000))

/-- R491, R504, R510: a write by the host to the register at `a`, where it reaches it. -/
def unlessBlocked (s : State) (a : Nat) (o : Out) : Out := if s.hostReaches a then o else .next s

/-! ## Status codes (R45) -/

/-- ST_OK. -/
def stOk : Nat := 0
/-- ST_MISS. -/
def stMiss : Nat := 1
/-- ST_FULL. -/
def stFull : Nat := 2
/-- ST_REFUSED. -/
def stRefused : Nat := 3
/-- ST_LOCKCYCLE. -/
def stLockCycle : Nat := 4
/-- ST_REHASH. -/
def stRehash : Nat := 5
/-- ST_STALE. -/
def stStale : Nat := 6
/-- ST_ABSENT. -/
def stAbsent : Nat := 7

/-- The status register holding a code and AUX, every other field 0 (R46). -/
def stWord (code : Nat) (aux : Nat := 0) : Word := BitVec.ofNat 64 (aux % 2 ^ 32 * 2 ^ 32 + code)

/-! ## Batten overlay: what a pick reads (R72, R83) -/

/-- Whether a batten sequence number is older than the batten in the overlay. -/
def State.older (s : State) (seq : BitVec 32) : Bool := s.bat.cur.isSome && seq != s.bat.seq

/-- A byte of a store as a pick with this sequence number reads it. -/
def State.pbyte (s : State) (seq : BitVec 32) (a : Nat) : Byte :=
  if s.older seq then (Tbl.get (Tbl.const none) s.bat.oldMem a).getD (s.byte a) else s.byte a

/-- `n` bytes as a pick reads them. -/
def State.pbytes (s : State) (seq : BitVec 32) (a : Nat) : Nat → List Byte
  | 0 => []
  | n + 1 => s.pbyte seq a :: State.pbytes s seq (a + 1) n

/-- A little-endian value as a pick reads it. -/
def State.ple (s : State) (seq : BitVec 32) (a n : Nat) : Nat := ofLE (s.pbytes seq a n)

/-- A 64-bit table word as a pick reads it. -/
def State.pw64 (s : State) (seq : BitVec 32) (a : Nat) : Word := BitVec.ofNat 64 (s.ple seq a 8)

/-- A register as the device reads it on a pick's behalf. -/
def State.preg (s : State) (seq : BitVec 32) (a : Nat) : Word :=
  if s.older seq then (Tbl.get (Tbl.const none) s.bat.oldReg a).getD (s.rd a) else s.rd a

/-- A field as the device reads it on a pick's behalf. -/
def State.pfld (s : State) (seq : BitVec 32) (a : Nat) (f : Fld) : Nat := f.get (s.preg seq a)

/-- R72, R402: domain `d` is enabled, as the device reads it on a pick's behalf. -/
def State.pickDomOn (s : State) (seq : BitVec 32) (d : Nat) : Bool :=
  s.pfld seq (Reg.timeDomCtl d) Fld.timeDomCtlEnable != 0

/-- R72, R375: the time word of domain `d` for a pick. -/
def State.pickTimeWord (s : State) (seq : BitVec 32) (d : Nat) : Word :=
  if s.pickDomOn seq d then timeWord (s.dom d).time else 0

/-- R72, R140: the flow time of domain `d` for a pick. -/
def State.pickFlowNow (s : State) (seq : BitVec 32) (d : Nat) : Nat :=
  if s.pickDomOn seq d then flowTime (s.dom d).time else 0

/-- R461: the weave profile in effect. -/
def State.profile (s : State) : Nat := s.fld Reg.tensionProfile Fld.tensionProfileProfile

/-- R72, R96: the weave profile a pick sees. -/
def State.pickProfile (s : State) (seq : BitVec 32) : Nat := s.pfld seq Reg.tensionProfile Fld.tensionProfileProfile

/-- R86: the overlay holds the register word at `a`. -/
def State.regInOverlay (s : State) (a : Nat) : Bool := s.bat.cur.isSome && s.bat.oldReg.any fun e => e.1 == a

/-- R86: the overlay holds one of `n` bytes from `a`. -/
def State.memInOverlay (s : State) (a n : Nat) : Bool :=
  s.bat.cur.isSome && s.bat.oldMem.any fun e => decide (a ≤ e.1) && decide (e.1 < a + n)

/-- A command that is a plain write of the register at `a`: undefined while the overlay holds it (R86). At a stand
nothing is written (R465, R503). -/
def State.byWrite (s : State) (a : Nat) (r : Except Fault State) : Out := unlessHalted s <|
  if s.regInOverlay a then ub 8 else toOut r

/-! ## Packets -/

/-- Packet `p`, if it is in the device. -/
def State.pkt? (s : State) (p : Nat) : Option Pkt := Tbl.get (Tbl.const none) s.pkts p

/-- Stores or removes a packet. -/
def State.setPkt (s : State) (p : Nat) (x : Option Pkt) : State :=
  { s with pkts := Tbl.set (Tbl.const none) s.pkts p x }

/-- Changes a packet that is in the device. -/
def State.updPkt (s : State) (p : Nat) (f : Pkt → Pkt) : State :=
  match s.pkt? p with
  | none => s
  | some x => s.setPkt p (some (f x))

/-- R49: md.LEN of a packet. -/
def Pkt.len (x : Pkt) : Nat := x.frame.length

/-! ## Token buckets -/

/-- A bucket brought up to time `now`, refilled at `rate` a ns, never above `cap`. -/
def Bucket.at (b : Bucket) (now rate : Nat) (cap : Int) : Bucket :=
  { level := min cap (b.level + (rate * (now - b.at_) : Nat)), at_ := now }

end Sys2Proof.Machine
end

