-- ==== Sys2Proof/Machine/Hbm.lean ====
section
/-! DEFINITION. The HBM address map, which channel serves an address, requests to channels, and reads
and writes of lines (R349 to R366, R493). -/

namespace Sys2Proof.Machine

/-- The first address of HBM. -/
def hbmBase : Nat := 0x10000000000

/-- R349: the address lies in usable HBM. -/
def inHbm (a : Nat) : Bool := hbmBase ≤ a && a < 0x11E00000000

/-- R349: the granule of an address. -/
def granule (a : Nat) : Nat := (a - hbmBase) / 256
/-- R349: the stack of an address. -/
def hbmStack (a : Nat) : Nat := granule a % 8
/-- R349: the logical slot of an address. -/
def hbmSlot (a : Nat) : Nat := granule a / 8 % 30
/-- R349: the channel granule of an address. -/
def hbmW (a : Nat) : Nat := granule a / 240
/-- R349: the bank of an address. -/
def hbmBank (a : Nat) : Nat := hbmW a % 32
/-- R349: the column block of an address: 256 bytes within a 1 KiB row. -/
def hbmColumn (a : Nat) : Nat := hbmW a / 32 % 4
/-- R349: the row of an address. -/
def hbmRow (a : Nat) : Nat := hbmW a / 128
/-- R488: the HBM line number of an address. -/
def hbmLine (a : Nat) : Nat := (a - hbmBase) / 64

/-- Channel `c` (32 × stack + channel). -/
def State.chan (s : State) (c : Nat) : Chan := Tbl.get (Tbl.const Chan.init) s.creel.chan c

/-- Changes channel `c`. -/
def State.updChan (s : State) (c : Nat) (f : Chan → Chan) : State :=
  { s with creel := { s.creel with chan := Tbl.upd (Tbl.const Chan.init) s.creel.chan c f } }

/-- The CREEL_CHAN register of channel `c`. -/
def chanReg (c : Nat) : Nat := Reg.creelChan (c / 32) (c % 32)

/-- R372: the state code of channel `c`. -/
def State.chanState (s : State) (c : Nat) : Nat := s.fld (chanReg c) Fld.creelChanState

/-- R493: stack `k` is lost. -/
def State.stackLost (s : State) (k : Nat) : Bool :=
  (s.fld Reg.digestFault Fld.digestFaultStackLost).testBit k

/-- R363: the retirement in progress of the source channels of stack `k`. -/
def State.retiring (s : State) (k : Nat) : Option Retire := Tbl.get (Tbl.const none) s.creel.retire k

/-- R363: the retirement in progress of a logical slot. -/
def State.slotRetire (s : State) (stack slot : Nat) : Option Retire :=
  (List.range 8).findSome? fun k =>
    match s.retiring k with
    | some r => if r.slotStack = stack ∧ r.slot = slot then some r else none
    | none => none

/-- The physical channel that serves an address (R349, R363), if one does: while a slot is retired the spare below
CURSOR and the source from there on; else the channel named for the slot, or a FROZEN one that has not been copied. -/
def State.servedBy (s : State) (a : Nat) : Option Nat :=
  match s.slotRetire (hbmStack a) (hbmSlot a) with
  | some r =>
    if r.copying ∧ hbmW a < s.fld (Reg.creelRetireStat (r.src / 32)) Fld.creelRetireStatCursor
    then some r.dst else some r.src
  | none =>
    let named := fun c =>
      s.fld (chanReg c) Fld.creelChanSlotStack == hbmStack a && s.fld (chanReg c) Fld.creelChanSlot == hbmSlot a
    ((List.range 256).find? fun c => decide (s.chanState c < 2) && named c).or
      ((List.range 256).find? fun c => s.chanState c == 3 && named c)

/-- The symbol errors that stand in a line. -/
def State.lineErrs (s : State) (line : Nat) : List SymErr := Tbl.get (Tbl.const []) s.creel.errs line

/-- Stores the symbol errors of a line. -/
def State.setErrs (s : State) (line : Nat) (e : List SymErr) : State :=
  { s with creel := { s.creel with errs := Tbl.set (Tbl.const []) s.creel.errs line e } }

/-- R351: symbol errors come into a line: what the decoder is deceived by stands in the line as its data from then on,
the rest as its errors. -/
def State.spoil (s : State) (line : Nat) (e : List SymErr) : State :=
  if e = [] then s
  else
    let all := s.lineErrs line ++ e
    let left := rsLeft all
    let a := hbmBase + 64 * line
    (if left = [] then s else s.setBytes a (rsDamage (s.bytes a 64) left)).setErrs line (symNorm (all ++ left))

/-- R490: the granule of `a` stood on a spare that failed, and has not been filled yet. -/
def State.spareLost (s : State) (a : Nat) : Bool :=
  match s.slotRetire (hbmStack a) (hbmSlot a) with
  | some r => decide (hbmW a < r.lostBelow) &&
      decide (s.fld (Reg.creelRetireStat (r.src / 32)) Fld.creelRetireStatCursor ≤ hbmW a)
  | none => false

/-- R351, R352, R364, R493: a read of the line of `a` finds uncorrectable data. -/
def State.hbmUnc (s : State) (a : Nat) : Bool :=
  s.stackLost (hbmStack a) || rsUnc (s.lineErrs (hbmLine a)) || s.spareLost a ||
  (match s.servedBy a with
    | none => true
    | some c => s.chanState c == 4)

/-- Forces a line uncorrectable, or writes it good. -/
def State.setBad (s : State) (line : Nat) (b : Bool) : State := s.setErrs line (if b then rsForced else [])

/-- R362: a trigger of a retraining search of channel `c`. -/
def State.wantSearch (s : State) (c : Nat) : State := s.updChan c fun x => { x with wanted := true, wake := true }

/-- R370: CREEL_ERR_INFO of the Creel of channel `c`. -/
def State.creelInfo (s : State) (c a : Nat) : State :=
  s.wr (Reg.creelErrInfo (c / 32)) (BitVec.ofNat 64 ((c % 32) * 2 ^ 56 + a % 2 ^ 48))

/-- Sets the state code of channel `c` (R372). -/
def State.setChanState (s : State) (c v : Nat) : State := s.setF (chanReg c) Fld.creelChanState v

/-- R371: a command of CREEL `k` ends with a code. -/
def State.creelCmdEnd (s : State) (k code : Nat) : State :=
  let s := s.wr (Reg.creelCmdStat k) (Fld.creelCmdStatCode.put 0 code)
  { s with creel := { s.creel with cmd := Tbl.set (Tbl.const none) s.creel.cmd k none } }

/-- R371: the command in progress of channel `c`'s Creel has action `a` and names `c`, as its GO found them. -/
def State.creelCmdIs (s : State) (c a : Nat) : Bool :=
  Tbl.get (Tbl.const none) s.creel.cmd (c / 32) == some (a, c % 32)

/-- R371: a command in progress with action `a` on channel `c` ends with a code. -/
def State.creelCmdOf (s : State) (c a code : Nat) : State :=
  if s.creelCmdIs c a then s.creelCmdEnd (c / 32) code else s

/-- R362, R366: a search of channel `c`, run or wanted, is over without an outcome; a command that asked for it, or for
the release it decides, ends. -/
def State.searchOff (s : State) (c : Nat) : State :=
  ((s.updChan c fun x => { x with searching := false, wanted := false, releasing := false }).creelCmdOf c 1
    stOk).creelCmdOf c 3 stOk

/-- R362: a corrected read at `now`, among those of the last second. -/
def Chan.ceNote (x : Chan) (now : Nat) : Chan :=
  { x with ceTimes := (x.ceTimes.filter fun t => now < t + 1000000000) ++ [now] }

/-- R370: bit CE_LIMIT of Creel `k` sets, with its record. -/
def State.ceBit (s : State) (k : Nat) : State :=
  if s.flag (Reg.creelErr k) Fld.creelErrCeLimit then s
  else (s.setF (Reg.creelErr k) Fld.creelErrCeLimit 1).laterErr (Reg.creelErr k) 0 (s.rd (Reg.creelErrInfo k)).toNat

/-- R362, R370: CE_LIMIT is reached: its bit sets, and a search is wanted. -/
def State.ceReached (s : State) (c a : Nat) : State :=
  ((s.creelInfo c (a / 64 * 64)).ceBit (c / 32)).wantSearch c

/-- R362, R367, R472: a corrected read of channel `c`. -/
def State.corrected (s : State) (c a : Nat) : State :=
  let s := ((s.cntShared 9).incF (chanReg c) Fld.creelChanCe).updChan c fun x => x.ceNote s.now
  let lim := s.fld (Reg.creelCtl (c / 32)) Fld.creelCtlCeLimit
  if lim ≠ 0 ∧ lim ≤ (s.chan c).ceTimes.length then s.ceReached c a else s

/-- R351, R372: a read of the line of `a`, with the symbol errors that stand there: one that needs correction counts. -/
def State.lineSeen (s : State) (a : Nat) : State :=
  if s.stackLost (hbmStack a) || s.lineErrs (hbmLine a) == [] || rsUnc (s.lineErrs (hbmLine a)) then s
  else match s.servedBy a with
    | some c => if s.chanState c = 4 then s else s.corrected c a
    | none => s

/-- R200: the mirror address of an address of table 6, if it has one. -/
def State.mirrorOf (s : State) (a : Nat) : Option Nat :=
  let base := s.fld Reg.warpStbl6Base Fld.warpStbl6BaseBase
  if s.flag Reg.warpStbl6Nb Fld.warpStbl6NbValid ∧ base ≤ a ∧
      a < base + 64 * s.fld Reg.warpStbl6Nb Fld.warpStbl6NbNb
  then some (s.fld Reg.warpStbl6Mirror Fld.warpStbl6MirrorMirror + (a - base)) else none

/-- R493: where a read of the line of `a` takes its data: the mirror, for a primary of table 6 in a lost stack. -/
def State.readFrom (s : State) (a : Nat) : Nat :=
  if s.stackLost (hbmStack a) then (s.mirrorOf a).getD a else a

/-- R363: channel `c` is the source of a retirement. -/
def State.isRetiring (s : State) (c : Nat) : Bool :=
  match s.retiring (c / 32) with
  | some r => r.src == c
  | none => false

/-- R366: an uncorrectable read of a table 6 primary at `a` freezes its channel. The retirement is noted, unless it is in
progress, and starts with the next command slot of any channel, unless the reader starts it (log entry 102). -/
def State.freeze (s : State) (a : Nat) : State :=
  match s.servedBy a with
  | none => s
  | some c =>
    if 2 ≤ s.chanState c ∨ (s.mirrorOf a).isNone ∨ s.stackLost (hbmStack a) = true then s
    else
      let s := (s.setChanState c 3).searchOff c
      let s := (s.setF (Reg.creelErr (c / 32)) Fld.creelErrFrozen 1).creelInfo c (a / 64 * 64)
      let s := s.laterMasked 4 (srcOf (Reg.creelErr (c / 32))) c 0
      if s.isRetiring c then s
      else { s with creel := { s.creel with waiting := s.creel.waiting ++ [(c, true)] } }

/-- R362, R364, R366, R370: what every uncorrectable read does, whoever reads. Bit UE posts no record of its
own: the reader's rule posts a MASKED record (DEDUCED, log entry 22). -/
def State.uncRead (s : State) (a : Nat) : State :=
  let s := s.cntShared 10
  match s.servedBy a with
  | none => s
  | some c =>
    let s := s.setF (Reg.creelErr (c / 32)) Fld.creelErrUe 1
    let s := s.creelInfo c (a / 64 * 64)
    ((s.satF (chanReg c) Fld.creelChanUe).wantSearch c).freeze a

/-- R364, R370: an uncorrectable read for which no reader's rule posts a MASKED record: bit UE posts one when it sets.
R488 names no mechanism code for it: it is a free value (DESIGN CHOICE, log entry 117). -/
def State.uncAlone (s : State) (a : Nat) : State :=
  let t := s.uncRead a
  match s.servedBy a with
  | none => t
  | some c =>
    let reg := Reg.creelErr (c / 32)
    if s.flag reg Fld.creelErrUe then t
    else
      let d := t.draw
      d.2.laterMasked (d.1 % 65536) (srcOf reg) c 0

/-- R359, R360, R366: an access to `a` waits: its channel rests, or is FROZEN. -/
def State.hbmHeld (s : State) (a : Nat) : Bool :=
  !s.stackLost (hbmStack a) &&
  (match s.servedBy a with
    | none => false
    | some c => s.fld (chanReg c) Fld.creelChanRest != 0 || s.chanState c == 3)

/-- R366, R488: the line of `a` waits for the copy of its FROZEN channel. -/
def State.frozenAt (s : State) (a : Nat) : Bool :=
  match s.servedBy a with
  | none => false
  | some c => s.chanState c == 3

/-- R360: an access that waits has reached the channel of `a`. -/
def State.hbmWake (s : State) (a : Nat) : State :=
  match s.servedBy (s.readFrom a) with
  | none => s
  | some c => s.updChan c fun x => { x with wake := true }

/-- R360, R366: a line that an access to `n` bytes from `a` touches and whose channel holds it back: of two bytes the
first and the last, of more every line. -/
def State.accessHeld (s : State) (a n : Nat) : Option Nat :=
  if inHbm a && n != 0 then
    (if n ≤ 64 then [a, a + n - 1] else (List.range ((a + n - 1) / 64 + 1 - a / 64)).map fun i => a / 64 * 64 + 64 * i).find?
      fun b => s.hbmHeld (s.readFrom b)
  else none

/-- R353: queues a request for the line of `a`; its number. A lost stack completes it at once (R493). -/
def State.hbmReq (s : State) (flow read pair : Bool) (a : Nat) (who : EvMaster) : Nat × State :=
  let id := s.creel.nextReq
  let s := { s with creel := { s.creel with nextReq := id + 1 } }
  if s.stackLost (hbmStack a) then (id, s)
  else match s.servedBy a with
    | none => (id, s)
    | some c =>
      (id, s.updChan c fun x => { x with
        queue := x.queue ++ [{ id := id, flow := flow, read := read, line := a / 64 * 64, at_ := s.now, who := who,
                               copy := false, pair := pair }] })

/-- Queues requests for `k` lines from that of `a`, of an access to the bytes from `lo` to `hi`: a read sees its line,
and a write of part of a line is a read-modify-write (R352). -/
def State.hbmReqs (s : State) (flow read : Bool) (who : EvMaster) (lo hi : Nat) : Nat → Nat → State
  | 0, _ => s
  | k + 1, a =>
    let part := decide (a < lo) || decide (hi < a + 64)
    State.hbmReqs ((if read then s.lineSeen a else s).hbmReq flow read (!read && part) a who).2 flow read who lo hi k (a + 64)

/-- R353, R355: the requests of an access to `n` bytes from `a`; what is not in HBM makes none. What the access moves,
it moves as they reach the queue (DESIGN CHOICE, log entry 49). -/
def State.hbmTraffic (s : State) (flow read : Bool) (who : EvMaster) (a n : Nat) : State :=
  if inHbm a && n != 0 then
    s.hbmReqs flow read who a (a + n) ((a + n - 1) / 64 + 1 - a / 64) (a / 64 * 64)
  else s

/-- A request has been issued. -/
def State.reqDone (s : State) (id : Nat) : Bool :=
  s.creel.chan.all fun p => p.2.queue.all fun r => r.id != id

/-- R498: a write from `a`, `n` bytes, that reaches the range being scanned marks it dirty. -/
def State.scanTouch (s : State) (a n : Nat) : State :=
  let base := s.fld Reg.digestScanBase Fld.digestScanBaseBase
  if s.flag Reg.digestScanCtl Fld.digestScanCtlBusy ∧ a < base + s.fld Reg.digestScanLen Fld.digestScanLenLen ∧
      base < a + n
  then s.setF Reg.digestScanCtl Fld.digestScanCtlDirty 1 else s

/-- R352, R362, R493: writes bytes within one line; a whole line written is good again. A part of a line is merged into
what is read: corrected errors go, and a line found uncorrectable stays so; one that waits for the copy of a FROZEN
channel is read after it. A lost stack discards the write. -/
def State.hbmPutLine (s : State) (a : Nat) (bs : List Byte) : State :=
  if s.stackLost (hbmStack a) then s
  else
    let s := (if bs.length = 64 then s else s.lineSeen a).setBytes a bs
    let s := s.scanTouch a bs.length
    if bs.length = 64 then s.setBad (hbmLine a) false
    else if s.hbmUnc a then (if s.frozenAt a then s else s.uncAlone a).setBad (hbmLine a) true
    else s.setErrs (hbmLine a) []

/-- Writes bytes to HBM line by line. -/
def State.hbmPutCopy (s : State) : Nat → Nat → List Byte → State
  | 0, _, _ => s
  | n + 1, a, bs =>
    if bs = [] then s
    else
      let k := 64 - a % 64
      State.hbmPutCopy (s.hbmPutLine a (bs.take k)) n (a + k) (bs.drop k)

/-- Writes bytes to HBM, to one copy. -/
def State.hbmPut (s : State) (a : Nat) (bs : List Byte) : State := s.hbmPutCopy (bs.length / 64 + 2) a bs

/-- R200, R355, R366: a store of bytes to HBM by a master, outside the flow-engine share; one to table 6 goes to both
copies. -/
def State.hbmStore (s : State) (who : EvMaster) (a : Nat) (bs : List Byte) : State :=
  let m := s.mirrorOf a
  let s := (s.hbmTraffic false false who a bs.length).hbmPut a bs
  match m with
  | none => s
  | some b => (s.hbmTraffic false false who b bs.length).hbmPut b bs

/-- R9: the host-memory window. -/
def inHost (a : Nat) : Bool := 0x800000000000 ≤ a && a < 0x1000000000000

/-- A write by the device itself of bytes anywhere in the DAS: HBM by its rules; the host-memory window
discards it while the PCIe link is down (R491). -/
def State.poke (s : State) (a : Nat) (bs : List Byte) : State :=
  if inHbm a then s.hbmStore .internal a bs
  else if inHost a && !s.boot.pcieUp then s
  else s.setBytes a bs

/-- What the device's own read of `n` bytes within a line of HBM returns; for uncorrectable data the spec gives no
value (DESIGN CHOICE, log entry 96). -/
def State.peekLine (s : State) (a n : Nat) : List Byte :=
  let b := s.readFrom a
  if s.hbmUnc b then (List.range n).map fun i => BitVec.ofNat 8 (Config.lostByte s.now (a + i)) else s.bytes b n

/-- What the device's own read of HBM returns, line by line. -/
def State.peekHbm (s : State) : Nat → Nat → Nat → List Byte
  | 0, _, _ => []
  | k + 1, a, n =>
    if n = 0 then []
    else
      let m := min n (64 - a % 64)
      s.peekLine a m ++ State.peekHbm s k (a + m) (n - m)

/-- A read by the device itself of bytes anywhere in the DAS. -/
def State.peek (s : State) (a n : Nat) : List Byte :=
  if inHbm a then s.peekHbm (n / 64 + 2) a n
  else if inHost a && !s.boot.pcieUp then List.replicate n 0
  else s.bytes a n

/-- R355, R364, R370: what the device's own read of the line at `b` does: its request, and what an uncorrectable line
brings about. -/
def State.peekedLine (s : State) (b : Nat) : State :=
  let s := s.hbmTraffic false true .internal b 64
  if s.hbmUnc b then s.uncAlone b else s

/-- The same of `k` lines from that at `a`. -/
def State.peekedLines (s : State) : Nat → Nat → State
  | 0, _ => s
  | k + 1, a => State.peekedLines (s.peekedLine (s.readFrom a)) k (a + 64)

/-- The same of `n` bytes from `a`. -/
def State.peeked (s : State) (a n : Nat) : State :=
  if inHbm a && n != 0 then s.peekedLines ((a + n - 1) / 64 + 1 - a / 64) (a / 64 * 64) else s

end Sys2Proof.Machine
end

