-- ==== Sys2Proof/Machine/Events.lean ====
section
/-! DEFINITION. Tasks as the other blocks touch them (operands, loops, flags, readiness), host rings,
interrupts, event records and error bits (R412 to R422, R437 to R442, R488). -/

namespace Sys2Proof.Machine

/-! ## Tasks: operands, flags, readiness -/

/-- Task `k`. -/
def State.task (s : State) (k : Nat) : Task := Tbl.get (Tbl.const Task.none) s.spin.task k

/-- Stores task `k`. -/
def State.setTask (s : State) (k : Nat) (t : Task) : State :=
  { s with spin := { s.spin with task := Tbl.set (Tbl.const Task.none) s.spin.task k t } }

/-- Changes task `k`. -/
def State.updTask (s : State) (k : Nat) (f : Task → Task) : State := s.setTask k (f (s.task k))

/-- R415: word `i` of task `k`'s table entry. -/
def State.taskWord (s : State) (k i : Nat) : Word := s.w64 (0x44000000 + 64 * k + 8 * i)

/-- R415: the group of a task. -/
def State.taskGroup (s : State) (k : Nat) : Nat := bitsOf (s.taskWord k 0).toNat 27 24

/-- R417: the task leaves its context, if it is in one, and its group has used the time. -/
def State.leaveCtx (s : State) (k : Nat) : State :=
  let t := s.task k
  match t.ctx with
  | none => s
  | some _ =>
    let s := s.setTask k { t with ctx := none }
    { s with spin := { s.spin with
      groupNs := Tbl.upd (Tbl.const 0) s.spin.groupNs (s.taskGroup k) (fun n => n + (s.now - t.sliceAt)) } }

/-- R38, R39: a control thread reads an operand specifier. -/
def Task.read (t : Task) (sp : BitVec 6) : Word :=
  if sp.toNat < 32 then vget t.g sp.toNat 0
  else if sp.toNat = 63 then t.stReg
  else 0

/-- R38, R39: a control thread writes through a dest specifier; zr, st and reserved ones discard. -/
def Task.write (t : Task) (sp : BitVec 6) (v : Word) : Task :=
  if sp.toNat < 32 then { t with g := vupd (fun _ => v) sp.toNat t.g } else t

/-- R55: the loops and the word reached when execution passes on to word `pc`. -/
def passOn : List Loop → Nat → List Loop × Nat
  | [], pc => ([], pc)
  | l :: ls, pc =>
    if pc = l.start + l.len then
      if 1 < l.count then ({ l with count := l.count - 1 } :: ls, l.start) else passOn ls pc
    else if l.start ≤ pc ∧ pc < l.start + l.len then (l :: ls, pc)
    else passOn ls pc

/-- R55: the loops that go on after a branch to `pc`. -/
def branchOut (loops : List Loop) (pc : Nat) : List Loop :=
  loops.dropWhile (fun l => !(l.start ≤ pc && pc < l.start + l.len))

/-- Execution passes on to word `pc`. -/
def Task.passTo (t : Task) (pc : Nat) : Task :=
  let r := passOn t.loops (pc % 2 ^ 18)
  { t with loops := r.1, pc := r.2 }

/-- Execution passes on to the next word. -/
def Task.step (t : Task) : Task := t.passTo (t.pc + 1)

/-- Appends a task to the ready order. -/
def State.pushReady (s : State) (k : Nat) : State :=
  { s with spin := { s.spin with ready := s.spin.ready ++ [k] } }

/-- A blocked task's instruction completes: it passes on and is READY. -/
def State.wakeTask (s : State) (k : Nat) (f : Task → Task) : State :=
  let t := f (s.task k)
  (s.setTask k { t.step with wait := .none, st := .ready }).pushReady k

/-- R63: whether the flags satisfy a WAITEV. -/
def evReady (flags mask : BitVec 32) (all : Bool) : Bool :=
  if all then flags &&& mask == mask else flags &&& mask != 0

/-- R63: the value and the flags WAITEV leaves. -/
def evTake (flags mask : BitVec 32) (clear : Bool) : Word × BitVec 32 :=
  ((flags &&& mask).setWidth 64, if clear then flags &&& ~~~ mask else flags)

/-- R412, R422: a DORMANT task becomes READY by a flag: an activation without a deadline. -/
def State.activateByFlag (s : State) (k : Nat) : State :=
  (s.updTask k fun t => { t with st := .ready, deadline := none, flagRound := true, acts := (t.acts + 1) % 2 ^ 32 }).pushReady k

/-- R63, R412: ORs flags into a task, which may end its WAITEV or start it. -/
def State.signal (s : State) (k : Nat) (mask : BitVec 32) : State :=
  let t := s.task k
  if t.st = .free then s
  else
    let s := s.setTask k { t with flags := t.flags ||| mask }
    let fl := t.flags ||| mask
    match t.wait with
    | .event m all clear dest _ =>
      if evReady fl m all then
        let r := evTake fl m clear
        s.wakeTask k fun t => { t.write dest r.1 with flags := r.2, stReg := stWord stOk }
      else s
    | _ =>
      if t.st = .dormant ∧ fl &&& (s.taskWord k 1).extractLsb' 32 32 ≠ 0 then s.activateByFlag k else s

/-! ## Event records and interrupts (R437 to R442) -/

/-- R442, R491: sends a message, or holds it while the link is down. -/
def State.msi (s : State) (vec : Nat) : State :=
  if s.boot.pcieUp then
    { s with host := { s.host with raised := Tbl.upd (Tbl.const 0) s.host.raised vec (· + 1) } }
  else if vec ∈ s.host.held then s
  else { s with host := { s.host with held := s.host.held ++ [vec] } }

/-- R442: ring `n` gained an entry. -/
def State.ringGained (s : State) (n : Nat) : State :=
  let c := Reg.ringCfg n
  if !s.flag c Fld.ringCfgMsiEn then s
  else
    let mod := s.fld c Fld.ringCfgModUs * 1000
    let last := Tbl.get (Tbl.const none) s.host.msiAt n
    if mod == 0 || (match last with | none => true | some t => decide (t + mod ≤ s.now)) then
      let s := s.msi (s.fld c Fld.ringCfgVec)
      { s with host := { s.host with
          msiAt := Tbl.set (Tbl.const none) s.host.msiAt n (some s.now),
          msiDue := Tbl.set (Tbl.const false) s.host.msiDue n false } }
    else { s with host := { s.host with msiDue := Tbl.set (Tbl.const false) s.host.msiDue n true } }

/-- R437: entries a ring holds. -/
def State.ringUsed (s : State) (n : Nat) : Nat :=
  (s.fld (Reg.ringProd n) Fld.ringProdProd + 2 ^ 32 - s.fld (Reg.ringCons n) Fld.ringConsCons) % 2 ^ 32

/-- R437, R491: the ring can take a record: it is enabled, has room, and the host link is up. -/
def State.ringRoom (s : State) (n : Nat) : Bool :=
  let size := s.fld (Reg.ringCfg n) Fld.ringCfgSize
  size != 0 && s.ringUsed n < size && s.boot.pcieUp

/-- R437: the address of the entry a ring's producer count names. -/
def State.ringSlot (s : State) (n stride : Nat) : Nat :=
  s.fld (Reg.ringBase n) Fld.ringBaseBase +
    stride * (s.fld (Reg.ringProd n) Fld.ringProdProd % s.fld (Reg.ringCfg n) Fld.ringCfgSize)

/-- R437: writes a record into a ring that has room, and advances PROD. -/
def State.ringPut (s : State) (n : Nat) (r : List Byte) : State :=
  ((s.poke (s.ringSlot n r.length) r).incF (Reg.ringProd n) Fld.ringProdProd).ringGained n

/-- The backlog of event ring `k` (0 or 1). -/
def State.backlog (s : State) (k : Nat) : Backlog := if k = 0 then s.host.backlog0 else s.host.backlog1

/-- Stores a backlog. -/
def State.setBacklog (s : State) (k : Nat) (b : Backlog) : State :=
  { s with host := if k = 0 then { s.host with backlog0 := b } else { s.host with backlog1 := b } }

/-- R449: event ring 1 sets a flag with each record. -/
def State.ring1Notify (s : State) : State :=
  if s.flag Reg.hostifEvtCtl Fld.hostifEvtCtlR1Notify then
    s.signal (s.fld Reg.hostifEvtCtl Fld.hostifEvtCtlR1Task)
      (BitVec.ofNat 32 (2 ^ s.fld Reg.hostifEvtCtl Fld.hostifEvtCtlR1Flag))
  else s

/-- R441: a record reaches event ring `k`: the ring, its backlog, or it is discarded. The second result
tells that the discard set the ring's overflow bit. -/
def State.deliver (s : State) (k : Nat) (r : List Byte) : State × Bool :=
  let b := s.backlog k
  if b.recs = [] ∧ b.lost = 0 ∧ s.ringRoom (2 + k) then
    let s := s.ringPut (2 + k) r
    (if k = 1 then s.ring1Notify else s, false)
  else if b.recs.length < 4096 then (s.setBacklog k { b with recs := b.recs ++ [r] }, false)
  else
    let s := s.setBacklog k { b with lost := b.lost + 1 }
    let f := if k = 0 then Fld.hostifErrEvr0Ovf else Fld.hostifErrEvr1Ovf
    let s := s.incF Reg.hostifEvtStat (if k = 0 then Fld.hostifEvtStatLost0 else Fld.hostifEvtStatLost1)
    (s.setF Reg.hostifErr f 1, !s.flag Reg.hostifErr f)

/-- R439: the 32 bytes of an event record. -/
def State.evRecord (s : State) (typ src : Nat) (payload : List Byte) : List Byte :=
  toLE 2 typ ++ toLE 1 src ++ [0] ++ toLE 4 s.host.seq.toNat ++
    toLE 8 (s.timeWordOf (s.fld Reg.hostifEvtCtl Fld.hostifEvtCtlDomain)).toNat ++ slice payload 0 16

/-- R439, R441: posts one event record to the rings its type is routed to; the overflow bits it set. -/
def State.postOne (s : State) (typ src : Nat) (payload : List Byte) : State × List Nat :=
  let r := s.evRecord typ src payload
  let route := (s.rd Reg.hostifEvtRoute).toNat
  let s := { s with host := { s.host with seq := s.host.seq + 1 } }
  let p := if route.testBit (2 * typ) then s.deliver 0 r else (s, false)
  let q := if route.testBit (2 * typ + 1) then p.1.deliver 1 r else (p.1, false)
  (q.1, (if p.2 then [Fld.hostifErrEvr0Ovf.lo] else []) ++ (if q.2 then [Fld.hostifErrEvr1Ovf.lo] else []))

/-- Posts the ERR_BIT records of overflow bits of HOSTIF_ERR, and of those they set in turn; with two
such bits, `n` = 2 rounds are enough. -/
def State.postOvf (s : State) : Nat → List Nat → State
  | 0, _ => s
  | _, [] => s
  | n + 1, bs =>
    let r := bs.foldl (fun (p : State × List Nat) b =>
      let q := p.1.postOne 1 1 (errPayload Reg.hostifErr b 0)
      (q.1, p.2 ++ q.2)) (s, [])
    State.postOvf r.1 n r.2

/-- R439 to R441: posts an event record, after those already due. -/
def State.postNext (s : State) (typ src : Nat) (payload : List Byte) : State :=
  let r := s.postOne typ src payload
  r.1.postOvf 2 r.2

/-- R370, R480: posts the records that accesses to memory and counts have brought about since (DESIGN CHOICE, log entry
125). -/
def State.postDue (s : State) : State :=
  s.host.due.foldl (fun s d => s.postNext d.typ d.src d.payload) { s with host := { s.host with due := [] } }

/-- R439 to R441: posts an event record. -/
def State.post (s : State) (typ src : Nat) (payload : List Byte) : State := s.postDue.postNext typ src payload

/-- R440: an error bit sets; an ERR_BIT record is posted when it changes from 0 to 1. -/
def State.err (s : State) (a bit : Nat) (info : Nat := 0) : State :=
  if (s.rd a).getLsbD bit then s
  else (s.setBit a bit).post 1 (srcOf a) (errPayload a bit info)

/-- R488: posts a MASKED record. -/
def State.masked (s : State) (mech src unit_ loss : Nat) : State :=
  s.post 2 src (maskPayload mech unit_ loss)

/-! ## Event counters (R478 to R480) -/

/-- R480: adds to one event counter. The record of an overflow bit that sets (the text above R485's registers) is posted
next (DESIGN CHOICE, log entry 125). -/
def State.evAdd (s : State) (i k : Nat) : State :=
  let off := 0x320000 + 8 * i
  let v := (Tbl.get (Tbl.const 0) s.glass.live off).toNat % 2 ^ 32 + k
  let s' := { s with glass := { s.glass with
    live := Tbl.set (Tbl.const 0) s.glass.live off (BitVec.ofNat 64 (v % 2 ^ 32)) } }
  if v < 2 ^ 32 then s'
  else if i % 2 == 0 && s.evChained (i + 1) then
    if s.flag (Reg.glassEvtCtl (i + 1)) Fld.glassEvtCtlEnable then
      let off1 := off + 8
      { s' with glass := { s'.glass with
        live := Tbl.upd (Tbl.const 0) s'.glass.live off1
          (fun w => BitVec.ofNat 64 ((w.toNat + v / 2 ^ 32) % 2 ^ 32)) } }
    else s'
  else if (s'.rd Reg.glassEvtOvf).getLsbD i then s'
  else (s'.setBit Reg.glassEvtOvf i).laterErr Reg.glassEvtOvf i 0

/-- R478: counts an event in every event counter it passes. -/
def State.event (s : State) (e : GEvent) : State :=
  (List.range 16).foldl (fun s i => if !s.evChained i && s.evPasses i e then s.evAdd i e.weight else s) s

end Sys2Proof.Machine
end

