-- ==== Sys2Proof/Machine/Operands.lean ====
section
/-! DEFINITION. Operand specifiers of a pick (R38 to R41) and the md window (R42). The specifiers of a
control thread stand in Machine/Events.lean. -/

namespace Sys2Proof.Machine

/-- R38, R39: a pick reads an operand specifier. -/
def Pkt.read (x : Pkt) (sp : BitVec 6) : Word :=
  let n := sp.toNat
  if n < 16 then vget x.pick.g n 0
  else if n < 24 then BitVec.ofNat 64 (b2n (x.pick.p.getLsbD (n - 16)))
  else if n = 24 then x.pick.st
  else if n < 32 then 0
  else if x.hfValid.getLsbD (n - 32) then (vget x.hf (n - 32) 0).setWidth 64
  else 0

/-- R39, R41: a pick writes through a dest specifier; st, zr, reserved specifiers and invalid slots
discard the write. -/
def Pkt.write (x : Pkt) (sp : BitVec 6) (v : Word) : Pkt :=
  let n := sp.toNat
  if n < 16 then { x with pick := { x.pick with g := vupd (fun _ => v) n x.pick.g } }
  else if n < 24 then
    let m : BitVec 8 := BitVec.ofNat 8 (2 ^ (n - 16))
    { x with pick := { x.pick with p := if v.getLsbD 0 then x.pick.p ||| m else x.pick.p &&& ~~~ m } }
  else if n < 32 then x
  else if x.hfValid.getLsbD (n - 32) then
    { x with
      hf := vupd (fun _ => v.setWidth 32) (n - 32) x.hf
      hfDirty := x.hfDirty ||| BitVec.ofNat 32 (2 ^ (n - 32)) }
  else x

/-- A pick's status register. -/
def Pkt.setSt (x : Pkt) (v : Word) : Pkt := { x with pick := { x.pick with st := v } }

/-- R42: the md window as a number, byte k at bits 8k + 7 to 8k. -/
def Pkt.md (x : Pkt) : Nat :=
  x.inPort + (x.len % 2 ^ 14) <<< 16 + b2n x.pick.bank <<< 32 + b2n x.pick.pick2 <<< 33 +
    b2n x.parseDeep <<< 34 + b2n x.parseLen <<< 35 + x.lenPair <<< 36 + b2n x.oversize <<< 39 +
    b2n x.timing <<< 40 + b2n x.injected <<< 41 + x.profile <<< 48 + x.steps.length <<< 56 +
    x.hfValid.toNat <<< 64 + x.hfDirty.toNat <<< 96 + x.flowHash.toNat <<< 128 + x.loom <<< 160 +
    x.shed <<< 164 + x.user.toNat <<< 256

/-- Bytes of a width code (R51). -/
def widthOf (c : Nat) : Nat := 2 ^ (c % 4)

end Sys2Proof.Machine

namespace Sys2Proof

/-- sext(val) (R47). -/
def IWord.sext (w : IWord) : Word := w.val.signExtend 64

/-- The signed value of val. -/
def IWord.disp (w : IWord) : Int := w.val.toInt

end Sys2Proof
end

