-- ==== Sys2Proof/Machine/BeamOps.lean ====
section
/-! DEFINITION. The cells, pools and accounts of the buffer (R285 to R301), and where a packet's cells
return. -/

namespace Sys2Proof.Machine

/-- R285: cells of a frame. -/
def cellsOf (len : Nat) : Nat := ceilDiv len 256

/-- R28, R323: the last cell of the packet is written: one that came through a front port with a bad FCS is whole no
earlier than its ingress MAC has found that (FCS_ERROR), which drops it. One that was injected, and one in its second
pick, is whole. -/
def Pkt.written (x : Pkt) : Bool := x.fcsOk || x.injected || x.pick.pick2 || decide (512 ≤ x.inPort)

/-- R28: a copy may leave its queue: it is cut-through, or its packet is wholly written. -/
def Copy.mayLeave (c : Copy) (x : Pkt) : Bool := c.cut || x.written

/-- R286: cells of bank `b` in use. -/
def State.bankUsed (s : State) (b : Nat) : Nat := Tbl.get (Tbl.const 0) s.beam.bankUsed b

/-- R286, R287: free cells of bank `b`. -/
def State.bankFree (s : State) (b : Nat) : Nat :=
  61440 - Tbl.get (Tbl.const 0) s.beam.bankLost b - s.bankUsed b

/-- Takes or returns cells of a bank. -/
def State.addBank (s : State) (b n : Nat) : State :=
  { s with beam := { s.beam with bankUsed := Tbl.upd (Tbl.const 0) s.beam.bankUsed b (· + n) } }

/-- Returns cells of a bank. -/
def State.subBank (s : State) (b n : Nat) : State :=
  { s with beam := { s.beam with bankUsed := Tbl.upd (Tbl.const 0) s.beam.bankUsed b (· - n) } }

/-- R287: cells retired without replacement. -/
def State.lostCells (s : State) : Nat := (s.beam.bankLost.map (·.2)).sum

/-- R286: free cells of the shared pool. -/
def State.sharedFree (s : State) : Nat :=
  978944 - s.fld Reg.beamPool Fld.beamPoolMinPool - s.fld Reg.beamPool Fld.beamPoolHeadPool -
    s.lostCells - s.beam.sharedUsed

/-- Free cells of the minimum pool. -/
def State.minFree (s : State) : Nat := s.fld Reg.beamPool Fld.beamPoolMinPool - s.beam.minUsed

/-- Free cells of the headroom pool. -/
def State.headFree (s : State) : Nat := s.fld Reg.beamPool Fld.beamPoolHeadPool - s.beam.headUsed

/-- R301: free cells of the recirculation reserve. -/
def State.recircFree (s : State) : Nat := 4096 - s.beam.recircUsed

/-- A PFC account (R292), at 8 × port + class. -/
def State.acct (s : State) (a : Nat) : Acct :=
  Tbl.get (Tbl.const { shared := 0, head := 0, xoff := false }) s.beam.acct a

/-- Stores a PFC account. -/
def State.setAcct (s : State) (a : Nat) (v : Acct) : State :=
  { s with beam := { s.beam with
      acct := Tbl.set (Tbl.const { shared := 0, head := 0, xoff := false }) s.beam.acct a v } }

/-- Word 0 of the account's table entry (R309). -/
def State.acctCfg (s : State) (a : Nat) : Nat := s.le (0x31830000 + 16 * a) 8

/-- Port `p`. -/
def State.port (s : State) (p : Nat) : PortSt := Tbl.get (Tbl.const PortSt.init) s.selv.port p

/-- Changes port `p`. -/
def State.updPort (s : State) (p : Nat) (f : PortSt → PortSt) : State :=
  { s with selv := { s.selv with port := Tbl.upd (Tbl.const PortSt.init) s.selv.port p f } }

/-- SELV_PORT_CFG of front port `p`. -/
def portCfg (p : Nat) : Nat := Reg.selvPortCfg (p / 64) (p % 64)

/-- R335: Tw of port `p` in ns. -/
def State.lpiTw (s : State) (p : Nat) : Nat :=
  max (if s.fld (portCfg p) Fld.selvPortCfgSpeed < 2 then 5000 else 3000)
    (s.fld (Reg.selvPortLpi (p / 64) (p % 64)) Fld.selvPortLpiTw)

/-- R335: the transmitter of port `p` begins to wake, if it is in LPI. -/
def State.lpiWake (s : State) (p : Nat) : State :=
  match (s.port p).lpi with
  | .idle => s.updPort p fun x => { x with lpi := .waking (s.now + s.lpiTw p) }
  | _ => s

/-- R292, R335: asks the Selvedge for a PFC frame, which wakes its transmitter; `rel` names a class that it releases. -/
def State.askPfc (s : State) (p : Nat) (rel : Option Nat) : State :=
  (s.lpiWake p).updPort p fun x => { x with
    pfcReq := true
    release := match rel with
      | some c => x.release ||| BitVec.ofNat 8 (2 ^ c)
      | none => x.release }

/-- R292: takes an account into XON where its use allows it. -/
def State.acctSettle (s : State) (a : Nat) : State :=
  let v := s.acct a
  if v.xoff ∧ v.shared ≤ bitsOf (s.acctCfg a) 43 24 ∧ v.head = 0 then
    (s.setAcct a { v with xoff := false }).askPfc (a / 8) (some (a % 8))
  else s

/-- Changes the shared or headroom cells charged to an account, down. -/
def State.acctSub (s : State) (a : Nat) (head : Bool) (n : Nat) : State :=
  let v := s.acct a
  (s.setAcct a (if head then { v with head := v.head - n } else { v with shared := v.shared - n })).acctSettle a

/-- R299: frees the cells of a stored packet. -/
def State.freeCells (s : State) (x : Pkt) : State :=
  let s := s.subBank x.loom x.cells
  match x.pool with
  | some .minimum => { s with beam := { s.beam with minUsed := s.beam.minUsed - x.cells } }
  | some .shared =>
    let s := { s with beam := { s.beam with sharedUsed := s.beam.sharedUsed - x.cells } }
    match x.acct with
    | some a => s.acctSub a false x.cells
    | none => s
  | some .headroom =>
    let s := { s with beam := { s.beam with headUsed := s.beam.headUsed - x.cells } }
    match x.acct with
    | some a => s.acctSub a true x.cells
    | none => s
  | none => s

/-- One copy of packet `p` is gone: its cells are freed with the last one (R299). -/
def State.dropRef (s : State) (p : Nat) : State :=
  match s.pkt? p with
  | none => s
  | some x =>
    if x.refs ≤ 1 then (s.freeCells x).setPkt p none
    else s.setPkt p (some { x with refs := x.refs - 1 })

/-- R301: `n` reserved cells return to the reserve and to a bank. -/
def State.returnResv (s : State) (loom n : Nat) : State :=
  let s := s.subBank loom n
  { s with beam := { s.beam with recircUsed := s.beam.recircUsed - n } }

/-- Queue `i` of the Beam. -/
def State.queue (s : State) (i : Nat) : List Copy := Tbl.get (Tbl.const []) s.beam.q i

/-- Stores queue `i`. -/
def State.setQueue (s : State) (i : Nat) (l : List Copy) : State :=
  { s with beam := { s.beam with q := Tbl.set (Tbl.const []) s.beam.q i l } }

/-- The residue of queue `i` (R300). -/
def State.residue (s : State) (i : Nat) : List Copy := Tbl.get (Tbl.const []) s.beam.residue i

/-- Stores the residue of queue `i`. -/
def State.setResidue (s : State) (i : Nat) (l : List Copy) : State :=
  { s with beam := { s.beam with residue := Tbl.set (Tbl.const []) s.beam.residue i l } }

/-- Cells of a list of copies. -/
def copyCells (l : List Copy) : Nat := (l.map (·.n)).sum

/-- The index of the punt queue of loom `n`, and of its port 513 queue. -/
def puntQ (n : Nat) : Nat := 10240 + n
/-- The index of the port 513 queue of loom `n`. -/
def recircQ (n : Nat) : Nat := 10256 + n

/-! ## The order of release, and the recirculation queue -/

/-- R75: a packet that its shed releases before packet `p`: same ingress port and flow hash, an earlier
pick start, not yet taken by the Beam. -/
def Pkt.before (y x : Pkt) : Bool :=
  y.inPort == x.inPort && y.flowHash == x.flowHash && y.loom == x.loom && y.shed == x.shed &&
    decide (y.pick.order < x.pick.order) &&
    (y.place == .shedInput || y.place == .running || y.place == .handed)

/-- R75: some packet must be released before packet `p`. -/
def State.heldBack (s : State) (p : Nat) (x : Pkt) : Bool :=
  s.pkts.any fun e => e.1 != p && (match e.2 with
    | some y => y.before x
    | none => false)

/-- R301: a packet that recirculates is stored in its reserved cells, and the rest return. -/
def State.storeRecirc (s : State) (p : Nat) (x : Pkt) : State :=
  let n := min x.resv (cellsOf x.len)
  let s := s.returnResv x.loom (x.resv - n)
  let s := s.setPkt p (some { x with place := .recirc, resv := n })
  s.setQueue (recircQ x.loom) (s.queue (recircQ x.loom) ++ [{ pkt := p, n := n, cut := false }])

end Sys2Proof.Machine
end

