-- ==== Sys2Proof/Machine/Hash.lean ====
section
/-! DEFINITION. The hashes of the device: CRC-32C (R533), CRC-32 of frames (R323), CRC-16/CCITT (R57)
and SipHash-2-4 (R134). -/

namespace Sys2Proof

/-- `n` shifts of a reflected CRC register. -/
def crcShift (poly : BitVec 32) : Nat → BitVec 32 → BitVec 32
  | 0, c => c
  | n + 1, c => crcShift poly n (if c.getLsbD 0 then (c >>> 1) ^^^ poly else c >>> 1)

/-- A reflected CRC register after a byte string. -/
def crcRun (poly : BitVec 32) (c : BitVec 32) (bs : List Byte) : BitVec 32 :=
  bs.foldl (fun c b => crcShift poly 8 (c ^^^ b.setWidth 32)) c

/-- R533: CRC-32C from an initial value. -/
def crc32c (init : BitVec 32) (bs : List Byte) : BitVec 32 := crcRun 0x82F63B78 init bs ^^^ 0xFFFFFFFF

/-- R323: the FCS of IEEE 802.3 over the bytes before it. -/
def crc32 (bs : List Byte) : BitVec 32 := crcRun 0xEDB88320 0xFFFFFFFF bs ^^^ 0xFFFFFFFF

/-- `n` shifts of the CRC-16 register, most significant bit first. -/
def crc16Shift : Nat → BitVec 16 → BitVec 16
  | 0, c => c
  | n + 1, c => crc16Shift n (if c.getLsbD 15 then (c <<< 1) ^^^ 0x1021 else c <<< 1)

/-- R57: CRC-16/CCITT from an initial value (PRESUMED, log entry 20). -/
def crc16 (init : BitVec 16) (bs : List Byte) : BitVec 16 :=
  bs.foldl (fun c b => crc16Shift 8 (c ^^^ ((b.setWidth 16 : BitVec 16) <<< (8 : Nat)))) init

/-- The state of SipHash. -/
structure Sip where
  v0 : BitVec 64
  v1 : BitVec 64
  v2 : BitVec 64
  v3 : BitVec 64
deriving DecidableEq, Repr

/-- One SipRound. -/
def Sip.round (x : Sip) : Sip :=
  let a0 := x.v0 + x.v1
  let a1 := (x.v1.rotateLeft 13) ^^^ a0
  let a0 := a0.rotateLeft 32
  let a2 := x.v2 + x.v3
  let a3 := (x.v3.rotateLeft 16) ^^^ a2
  let b0 := a0 + a3
  let b3 := (a3.rotateLeft 21) ^^^ b0
  let b2 := a2 + a1
  let b1 := (a1.rotateLeft 17) ^^^ b2
  { v0 := b0, v1 := b1, v2 := b2.rotateLeft 32, v3 := b3 }

/-- Absorbs one 64-bit word: two rounds. -/
def Sip.absorb (x : Sip) (m : BitVec 64) : Sip :=
  let y := ({ x with v3 := x.v3 ^^^ m } : Sip).round.round
  { y with v0 := y.v0 ^^^ m }

/-- The words of a message: full words, then the last one with the length in its top byte. -/
def sipWords (len : Nat) : Nat → List Byte → List (BitVec 64)
  | 0, bs => [BitVec.ofNat 64 (ofLE bs + (len % 256) * 2 ^ 56)]
  | n + 1, bs => BitVec.ofNat 64 (ofLE (bs.take 8)) :: sipWords len n (bs.drop 8)

/-- The state after the message. `wide` selects the variant with a 128-bit output. -/
def sipState (wide : Bool) (k0 k1 : BitVec 64) (bs : List Byte) : Sip :=
  let v1 := k1 ^^^ 0x646f72616e646f6d
  let x : Sip :=
    { v0 := k0 ^^^ 0x736f6d6570736575, v1 := if wide then v1 ^^^ 0xee else v1,
      v2 := k0 ^^^ 0x6c7967656e657261, v3 := k1 ^^^ 0x7465646279746573 }
  (sipWords bs.length (bs.length / 8) bs).foldl Sip.absorb x

/-- The exclusive or of the four words. -/
def Sip.out (x : Sip) : BitVec 64 := x.v0 ^^^ x.v1 ^^^ x.v2 ^^^ x.v3

/-- SipHash-2-4 with a 64-bit output. -/
def sip64 (k0 k1 : BitVec 64) (bs : List Byte) : BitVec 64 :=
  let x := sipState false k0 k1 bs
  ({ x with v2 := x.v2 ^^^ 0xff } : Sip).round.round.round.round.out

/-- SipHash-2-4 with a 128-bit output, its first eight bytes in the low half. -/
def sip128 (k0 k1 : BitVec 64) (bs : List Byte) : BitVec 128 :=
  let x := sipState true k0 k1 bs
  let y := ({ x with v2 := x.v2 ^^^ 0xee } : Sip).round.round.round.round
  let z := ({ y with v1 := y.v1 ^^^ 0xdd } : Sip).round.round.round.round
  z.out ++ y.out

end Sys2Proof
end

