-- ==== Sys2Proof/Machine/Heddle.lean ====
section
/-! DEFINITION. The Heddle (R107 to R124): parsing a frame, and writing field slots back. -/

namespace Sys2Proof.Machine

/-! ## The chain -/

/-- What a parse has found so far. -/
structure ParseSt where
  deep : Bool
  lenBad : Bool
  pair : Nat
  profile : Nat
  steps : List StepRec
  valid : BitVec 32
  hf : Vector (BitVec 32) 32
  src : Vector (Option SlotSrc) 32
deriving DecidableEq, Repr

/-- A parse that has applied no step. -/
def ParseSt.init : ParseSt :=
  { deep := false, lenBad := false, pair := 0, profile := 0, steps := [], valid := 0,
    hf := Vector.replicate 32 0, src := Vector.replicate 32 none }

/-- R108: the parse window. -/
def parseWindow : Nat := 192

/-- The bytes from `pos`, `n` of them, lie within the window. -/
def inWindow (pos : Int) (n : Nat) : Bool := decide (0 ≤ pos) && decide (pos + n ≤ parseWindow)

/-- The bytes from `pos`, `n` of them, lie before the FCS of a frame of `len` bytes. -/
def inFrame (len : Nat) (pos : Int) (n : Nat) : Bool := decide (pos + n + 4 ≤ len)

/-- The parse image the looms read: their copies are held once, at the broadcast address. -/
def parseBase : Nat := 0x10300000

/-- R110: applies one extraction command of the step numbered `step` whose base is `base`. -/
def ParseSt.extract (frame : List Byte) (base step : Nat) (x : ParseSt) (cmd : Nat) : ParseSt :=
  let width := min 32 (bitsOf cmd 46 41)
  if width = 0 then x
  else
    let slot := bitsOf cmd 63 59
    let bit := bitsOf cmd 49 47
    let pos : Int := base + sxInt 9 (bitsOf cmd 58 50)
    let n := ceilDiv (bit + width) 8
    let win := inWindow pos n
    let ok := win && inFrame frame.length pos n
    let raw := beAt frame pos.toNat n
    let v := if ok then (raw >>> (8 * n - bit - width)) % 2 ^ width else 0
    { x with
      deep := x.deep || !win
      valid := if ok then x.valid ||| BitVec.ofNat 32 (2 ^ slot) else x.valid &&& ~~~ BitVec.ofNat 32 (2 ^ slot)
      hf := vupd (fun _ => BitVec.ofNat 32 v) slot x.hf
      src := vupd (fun _ => some
        { byte := pos.toNat, bit := bit, width := width, ck := bitsOf cmd 40 39, step := step }) slot x.src }

/-- R112: a shortfall the length check accepts. -/
def okShort (len slack : Nat) (d : Int) : Bool := decide (len ≤ 64) || decide (d ≤ slack)

/-- The first failed check sets the flag and the pair (R113). -/
def ParseSt.fail (x : ParseSt) (pair : Nat) (bad : Bool) : ParseSt :=
  if bad then { x with lenBad := true, pair := if x.lenBad then x.pair else pair } else x

/-- A field the length check needs can be read. -/
def canRead (frame : List Byte) (pos n : Nat) : Bool := inWindow pos n && inFrame frame.length pos n

/-- R112, R113: the length check of a step with this role at this base; `x.steps` holds the earlier
steps. Past the end of the frame `avail` is negative (DESIGN CHOICE, log entry 115). -/
def ParseSt.lenCheck (frame : List Byte) (oversize : Bool) (slack lrole base : Nat) (x : ParseSt) :
    ParseSt :=
  let len := frame.length
  let avail : Int := (len : Int) - 4 - base
  match lrole with
  | 1 =>
    if oversize || !canRead frame base 1 || !canRead frame (base + 2) 2 then x
    else
      let ihl := beAt frame base 1 % 16
      let tot : Int := beAt frame (base + 2) 2
      x.fail 1 (decide (tot < ihl * 4) || decide (avail < tot) || !okShort len slack (avail - tot))
  | 2 =>
    if oversize || !canRead frame (base + 4) 2 then x
    else
      let pay : Int := beAt frame (base + 4) 2
      x.fail 2 (decide (avail - 40 < pay) || !okShort len slack (avail - 40 - pay))
  | 3 =>
    if !canRead frame (base + 4) 2 then x
    else
      let l := beAt frame (base + 4) 2
      match x.steps.reverse.find? (fun p => p.lrole == 1 || p.lrole == 2) with
      | none => x
      | some p =>
        let at_ := if p.lrole = 1 then p.base + 2 else p.base + 4
        if !canRead frame at_ 2 then x
        else
          let whole : Int := beAt frame at_ 2 + (if p.lrole = 1 then 0 else 40)
          x.fail 3 (decide (l < 8) || decide ((l : Int) ≠ whole - ((base : Int) - p.base)))
  | 4 =>
    match x.steps.getLast? with
    | none => x
    | some p =>
      if p.lrole ≠ 3 || !canRead frame (base + 2) 2 || !canRead frame (p.base + 4) 2 then x
      else x.fail 4 (decide ((beAt frame (base + 2) 2 : Int) ≠ (beAt frame (p.base + 4) 2 : Int) - 16))
  | _ => x

/-- R107 item 4, R121: the lowest-indexed valid transition from `step` that matches `key`; its next
step and its advance. -/
def findTransition (w : Nat → Nat) (step key : Nat) : Option (Nat × Nat) :=
  ((List.range 2048).find? (fun i =>
    let w0 := w (parseBase + 0x8000 + 16 * i)
    let w1 := w (parseBase + 0x8000 + 16 * i + 8)
    let mask := w1 % 2 ^ 32
    w0.testBit 63 && bitsOf w0 62 54 == step && (key &&& mask) == (w1 / 2 ^ 32 &&& mask))).map
    (fun i =>
      let w0 := w (parseBase + 0x8000 + 16 * i)
      (bitsOf w0 53 45, bitsOf w0 44 37))

/-- R107: the chain from `step` at `base`; `left` more steps may be applied. `w` reads a word of the
parse image under the pick's batten sequence number (R116). -/
def parseChain (w : Nat → Nat) (frame : List Byte) (oversize : Bool) (slack : Nat) :
    (left step base : Nat) → ParseSt → ParseSt
  | 0, _, _, x => { x with deep := true }
  | left + 1, step, base, x =>
    let w0 := w (parseBase + 16 * step)
    let w1 := w (parseBase + 16 * step + 8)
    let lrole := bitsOf w0 55 53
    let cmds := ((List.range (min 16 (bitsOf w0 35 31))).map (· + bitsOf w0 47 36)).filter (· < 4096)
    let x := cmds.foldl
      (fun x i => x.extract frame base x.steps.length (w (parseBase + 0x10000 + 8 * i))) x
    let x := x.lenCheck frame oversize slack lrole base
    let x := { x with
      profile := bitsOf w0 63 56
      steps := x.steps ++ [{ base := base, lrole := lrole, csum := bitsOf w0 52 51 }] }
    if !w1.testBit 55 then x
    else
      let na := if w1.testBit 54 then 2 else 1
      let pa := base + bitsOf w1 63 56
      let enb := w1.testBit 45
      let nb := if w1.testBit 44 then 2 else 1
      let pb := base + bitsOf w1 53 46
      if !inWindow pa na || (enb && !inWindow pb nb) then { x with deep := true }
      else if !inFrame frame.length pa na || (enb && !inFrame frame.length pb nb) then x
      else
        let key := beAt frame pa na * 2 ^ 16 + (if enb then beAt frame pb nb else 0)
        match findTransition w step key with
        | none => x
        | some (nxt, adv) => parseChain w frame oversize slack left nxt (base + adv) x

/-- R114: the flow hash, where the profile's flow-key slots allow one. -/
def flowHash? (mask seed : BitVec 32) (x : ParseSt) : Option (BitVec 32) :=
  if mask = 0 ∨ x.deep ∨ x.valid &&& mask ≠ mask then none
  else some (crc32c seed ((((List.range 32).filter (fun i => mask.getLsbD i)).map
    (fun i => toLE 4 (vget x.hf i 0).toNat)).flatten))

/-- R119, R126: the first step of a frame of port class `c`. -/
def State.startStep (s : State) (seq : BitVec 32) (c : Nat) : Nat :=
  s.ple seq (parseBase + 0x2800 + 8 * c) 8 % 512

/-- R126: the port class of port `p`. -/
def State.portClass (s : State) (seq : BitVec 32) (p : Nat) : Nat :=
  let k := p % 32
  let a := if k < 16 then Reg.loomPortClassLo (p / 32) else Reg.loomPortClassHi (p / 32)
  bitsOf (s.preg seq a).toNat (4 * (k % 16) + 3) (4 * (k % 16))

/-- R107 to R116: parses packet `x` from port class `c` under a batten sequence number. -/
def State.parse (s : State) (seq : BitVec 32) (c : Nat) (x : Pkt) : Pkt :=
  let ctl := Reg.loomHeddleCtl x.loom
  let slack := s.pfld seq ctl Fld.loomHeddleCtlPadSlack
  let r := parseChain (fun a => s.ple seq a 8) x.frame x.oversize slack 4 (s.startStep seq c) 0 .init
  let mask := BitVec.ofNat 32 (s.ple seq (parseBase + 0x2000 + 8 * r.profile) 8)
  let h := flowHash? mask (BitVec.ofNat 32 (s.pfld seq ctl Fld.loomHeddleCtlSeed)) r
  { x with
    parseDeep := r.deep, parseLen := r.lenBad, lenPair := r.pair, profile := r.profile, steps := r.steps,
    hfValid := r.valid, hfDirty := 0, hf := r.hf, src := r.src, flowHash := h.getD 0,
    shed := if x.pick.pick2 then x.shed else
      match h with
      | some v => v.toNat % 4
      | none => x.inPort % 4 }

/-! ## Write-back (R41, R111) -/

/-- One's complement folding to 16 bits. -/
def fold16 : Nat → Nat → Nat
  | 0, n => n
  | k + 1, n => fold16 k (n % 65536 + n / 65536)

/-- RFC 1624: a checksum adjusted for 16-bit words changed from `old` to `new`. -/
def csumAdjust (hc : Nat) (old new : List Byte) : Nat :=
  let ws := (List.range (old.length / 2)).map fun i =>
    (65535 - beAt old (2 * i) 2) + beAt new (2 * i) 2
  65535 - fold16 8 ((65535 - hc) + ws.sum)

/-- The offset of the checksum a CSUM code names. -/
def csumPos (c : Nat) : Nat :=
  match c with
  | 1 => 10
  | 2 => 16
  | _ => 6

/-- R111: adjusts the checksum of step `st` for bytes changed from `old` to `new`. -/
def adjustStep (steps : List StepRec) (old new : List Byte) (frame : List Byte) (st : Nat) : List Byte :=
  match steps[st]? with
  | none => frame
  | some p =>
    let pos := p.base + csumPos p.csum
    if p.csum = 0 ∨ !canRead frame pos 2 then frame
    else
      let hc := beAt frame pos 2
      if p.csum = 3 ∧ hc = 0 then frame
      else
        let v := csumAdjust hc old new
        patch frame pos (toBE 2 (if p.csum = 3 ∧ v = 0 then 65535 else v))

/-- R111: writes slot `i` back, and adjusts the checksums its command names. -/
def writeSlot (x : Pkt) (frame : List Byte) (i : Nat) : List Byte :=
  match vget x.src i none with
  | none => frame
  | some q =>
    if !(x.hfDirty.getLsbD i && x.hfValid.getLsbD i) then frame
    else
      let n := ceilDiv (q.bit + q.width) 8
      let sh := 8 * n - q.bit - q.width
      let keep := beAt frame q.byte n
      let m := (2 ^ q.width - 1) <<< sh
      let v := (keep &&& ((2 ^ (8 * n) - 1) ^^^ m)) ||| (((vget x.hf i 0).toNat % 2 ^ q.width) <<< sh)
      let new := patch frame q.byte (toBE n v)
      -- whole 16-bit words counted from the base of the command's own step (DEDUCED, log entry 21)
      let base := (x.steps.getD q.step { base := 0, lrole := 0, csum := 0 }).base
      let lo := if (q.byte + base) % 2 = 0 then q.byte else q.byte - 1
      let len := (q.byte + n - lo + 1) / 2 * 2
      let old := slice frame lo len
      let nw := slice new lo len
      let f := if q.ck = 1 ∨ q.ck = 3 then adjustStep x.steps old nw new q.step else new
      if q.ck = 2 ∨ q.ck = 3 then adjustStep x.steps old nw f (q.step + 1) else f

/-- R41, R111: the frame with every dirty slot written back, in ascending slot order. -/
def Pkt.writeBack (x : Pkt) : Pkt :=
  { x with frame := (List.range 32).foldl (writeSlot x) x.frame, hfDirty := 0 }

end Sys2Proof.Machine
end

