-- ==== Sys2Proof/Machine/Edit.lean ====
section
/-! DEFINITION. Header edits: the edit word, templates, and translation between IPv4 and IPv6
(R189 to R195). -/

namespace Sys2Proof.Machine

/-- The template store the looms read, held once at the broadcast address (R192). -/
def templateBase : Nat := 0x10600000

/-- A 16-bit value modulo 65,536. -/
def be16 (v : Int) : List Byte := toBE 2 (v % 65536).toNat

/-- R192: the byte that a fill copies from USER byte `u`. -/
def fillByte (user : BitVec 256) (u : Nat) : Byte := if u < 24 then byteOf user.toNat u else 0

/-- R192: one fill of a template body of length `tlen`. -/
def applyFill (user : BitVec 256) (tlen : Nat) (body : List Byte) (fill : Nat) : List Byte :=
  if fill.testBit 15 then
    (List.range (fill % 8 + 1)).foldl (fun b i =>
      let dst := bitsOf fill 14 8 + i
      if dst < tlen then patch b dst [fillByte user (bitsOf fill 7 3 + i)] else b) body
  else body

/-- The Internet checksum over a byte string. -/
def inetSum (bs : List Byte) : Nat :=
  65535 - fold16 8 (((List.range ((bs.length + 1) / 2)).map fun i => beAt bs (2 * i) 2).sum)

/-- R193: the length fixes of a template inserted at `off`. -/
def lengthFixes (w0 off : Nat) (f : List Byte) : List Byte :=
  let fin : Int := (f.length : Int) - 4
  let ip := bitsOf w0 55 49
  let udp := bitsOf w0 47 41
  let gtp := bitsOf w0 40 34
  let f :=
    if ip = 0x7F then f
    else
      let p := off + ip
      if w0.testBit 48 then patch f (p + 4) (be16 (fin - p - 40))
      else
        let g := patch (patch f (p + 2) (be16 (fin - p))) (p + 10) [0, 0]
        patch g (p + 10) (toBE 2 (inetSum (slice g p (beAt g p 1 % 16 * 4))))
  let f :=
    if udp = 0x7F then f
    else patch (patch f (off + udp + 4) (be16 (fin - off - udp))) (off + udp + 6) [0, 0]
  if gtp = 0x7F then f else patch f (off + gtp + 2) (be16 (fin - off - gtp - 8))

/-- R190: SETETYPE. -/
def setEtype (off : Nat) (f : List Byte) : List Byte :=
  match beAt f off 1 / 16 with
  | 4 => patch f (off - 2) [0x08, 0x00]
  | 6 => patch f (off - 2) [0x86, 0xDD]
  | _ => f

/-- R191: REPLACE. `tmpl` is the 128 bytes of the template. -/
def editReplace (ew : Nat) (user : BitVec 256) (tmpl f : List Byte) : Except Fault (List Byte) :=
  let off := bitsOf ew 47 40
  let len := bitsOf ew 39 32
  let sete := ew.testBit 0
  if 192 < off + len ∨ f.length < off + len + 4 ∨ (sete ∧ off < 14) then .error (.undefinedBehaviour 15)
  else
    let w0 := ofLE (slice tmpl 0 8)
    let w1 := ofLE (slice tmpl 8 8)
    let valid := w0.testBit 63
    let tlen := if valid then min 112 (bitsOf w0 62 56) else 0
    let body := [bitsOf w1 63 48, bitsOf w1 47 32, bitsOf w1 31 16, bitsOf w1 15 0].foldl
      (applyFill user tlen) (slice tmpl 16 tlen)
    let g := f.take off ++ body ++ f.drop (off + len)
    let g := if valid then lengthFixes w0 off g else g
    .ok (if sete then setEtype off g else g)

/-- RFC 1624 over 16-bit words removed and added. -/
def csumMove (hc : Nat) (old new : List Byte) : Nat :=
  let o := ((List.range (old.length / 2)).map fun i => 65535 - beAt old (2 * i) 2).sum
  let n := ((List.range (new.length / 2)).map fun i => beAt new (2 * i) 2).sum
  65535 - fold16 8 ((65535 - hc) + o + n)

/-- The offset of the checksum of a transport protocol in its header. -/
def l4Csum (proto : Nat) : Nat := if proto = 6 then 16 else if proto = 17 then 6 else 2

/-- A UDP checksum is never written 0 (DEDUCED, log entry 23). -/
def udpNonZero (proto v : Nat) : Nat := if proto = 17 ∧ v = 0 then 65535 else v

/-- R194: X64, the IPv6 header at `off` becomes IPv4. An OFFSET below 2, or a frame too short for the checksum, is outside
the subset (DEDUCED, log entry 133). -/
def editX64 (off : Nat) (user : BitVec 256) (f : List Byte) : Except Fault (List Byte) :=
  let nh := beAt f (off + 6) 1
  let l4 := off + 40
  let typ := beAt f l4 1
  let cs := l4Csum nh
  if off < 2 ∨ f.length < l4 + cs + 2 + 4 ∨ beAt f off 1 / 16 ≠ 6 ∨
      ¬(nh = 6 ∨ nh = 17 ∨ (nh = 58 ∧ (typ = 128 ∨ typ = 129))) then .error (.undefinedBehaviour 17)
  else
    let pay := beAt f (off + 4) 2
    let addrs := slice f (off + 8) 32
    let src := toBE 4 (user.toNat % 2 ^ 32)
    let dst := slice f (off + 36) 4
    let tc := beAt f off 2 / 16 % 256
    let hdr := [0x45, BitVec.ofNat 8 tc] ++ be16 (pay + 20) ++ [0, 0, 0x40, 0x00] ++ slice f (off + 7) 1 ++
      [BitVec.ofNat 8 (if nh = 58 then 1 else nh), 0, 0] ++ src ++ dst
    let hdr := patch hdr 10 (toBE 2 (inetSum hdr))
    let tail := f.drop l4
    let hc := beAt tail cs 2
    let tail :=
      if nh = 58 then
        let ty := patch tail 0 [if typ = 128 then 8 else 0]
        patch ty cs (toBE 2 (csumMove hc (addrs ++ toBE 4 pay ++ toBE 4 58 ++ slice tail 0 2) (slice ty 0 2)))
      else patch tail cs (toBE 2 (udpNonZero nh (csumMove hc addrs (src ++ dst))))
    .ok (patch (f.take off) (off - 2) [0x08, 0x00] ++ hdr ++ tail)

/-- R194: X46, the IPv4 header at `off` becomes IPv6. `pfx` is the 96-bit prefix. The subset ends as that of X64 does
(DEDUCED, log entry 133). -/
def editX46 (off : Nat) (user : BitVec 256) (pfx : List Byte) (f : List Byte) : Except Fault (List Byte) :=
  let pr := beAt f (off + 9) 1
  let l4 := off + 20
  let typ := beAt f l4 1
  let cs := l4Csum pr
  let hc := beAt f (l4 + cs) 2
  if off < 2 ∨ f.length < l4 + cs + 2 + 4 ∨ beAt f off 1 ≠ 0x45 ∨ beAt f (off + 6) 2 % 2 ^ 14 ≠ 0 ∨
      ¬(pr = 6 ∨ (pr = 17 ∧ hc ≠ 0) ∨ (pr = 1 ∧ (typ = 8 ∨ typ = 0))) then .error (.undefinedBehaviour 17)
  else
    let pay : Int := (beAt f (off + 2) 2 : Int) - 20
    let src := pfx ++ slice f (off + 12) 4
    let dst := toBE 8 (user.toNat % 2 ^ 64) ++ toBE 8 (user.toNat / 2 ^ 64 % 2 ^ 64)
    let tos := beAt f (off + 1) 1
    let nh := if pr = 1 then 58 else pr
    let hdr := toBE 4 (0x60000000 + tos * 2 ^ 20) ++ be16 pay ++
      [BitVec.ofNat 8 nh] ++ slice f (off + 8) 1 ++ src ++ dst
    let tail := f.drop l4
    let tail :=
      if pr = 1 then
        let ty := patch tail 0 [if typ = 8 then 128 else 129]
        patch ty cs (toBE 2 (csumMove hc (slice tail 0 2)
          (src ++ dst ++ toBE 4 pay.toNat ++ toBE 4 58 ++ slice ty 0 2)))
      else patch tail cs (toBE 2 (udpNonZero pr (csumMove hc (slice f (off + 12) 8) (src ++ dst))))
    .ok (patch (f.take off) (off - 2) [0x86, 0xDD] ++ hdr ++ tail)

/-- R189, R190: the frame after the edit word of a packet, under a batten sequence number. -/
def State.applyEdit (s : State) (seq : BitVec 32) (x : Pkt) : Except Fault (List Byte) :=
  let ew := x.user.toNat / 2 ^ 192
  match bitsOf ew 63 60 with
  | 0 => .ok x.frame
  | 1 => editReplace ew x.user (s.pbytes seq (templateBase + 128 * bitsOf ew 59 48) 128) x.frame
  | 2 => editX64 (bitsOf ew 47 40) x.user x.frame
  | 3 =>
    let pfx := toBE 8 (s.preg seq (Reg.loomXlatPfxHi x.loom)).toNat ++
      toBE 4 (
        s.pfld seq (Reg.loomXlatPfxLo x.loom) Fld.loomXlatPfxLoPfxLo)
    editX46 (bitsOf ew 47 40) x.user pfx x.frame
  | _ => .error (.undefinedBehaviour 14)

end Sys2Proof.Machine
end

