-- ==== Sys2Proof/Machine/Micro.lean ====
section
/-! DEFINITION. Jacquard: microwords and the sequencer that runs them beneath each instruction of a control thread
(R443 to R445). By R65 microcode never changes what an instruction does, so what a sequence writes to
architectural state is the instruction's own effect, which the meanings of the instructions give: a run of the
sequencer leaves its microregisters, its return stack and its count of words. The functions of the ALU, what a load
reads and what a unit answers are free values (DESIGN CHOICE, log entry 109). -/

namespace Sys2Proof.Machine

/-- R443: the fields of a microword. -/
structure MicroWord where
  next : Nat
  seqOp : Nat
  csel : Nat
  alu : Nat
  asel : Nat
  bsel : Nat
  dsel : Nat
  bsrc : Nat
  mem : Nat
  mw : Nat
  msign : Bool
  unit : Nat
  ucmd : Nat
  stw : Bool
  stcode : Nat
  stsrc : Bool
  auxw : Bool
  commit : Bool
  trap : Bool
  const : Word
deriving DecidableEq, Repr

/-- R443: the fields a 192-bit microword spells. -/
def MicroWord.ofBits (w : BitVec 192) : MicroWord :=
  let n := w.toNat
  { next := bitsOf n 191 177, seqOp := bitsOf n 176 173, csel := bitsOf n 172 168, alu := bitsOf n 167 160,
    asel := bitsOf n 159 154, bsel := bitsOf n 153 148, dsel := bitsOf n 147 142, bsrc := bitsOf n 141 140,
    mem := bitsOf n 139 136, mw := bitsOf n 135 134, msign := n.testBit 133, unit := bitsOf n 132 128,
    ucmd := bitsOf n 127 120, stw := n.testBit 119, stcode := bitsOf n 118 116, stsrc := n.testBit 115,
    auxw := n.testBit 114, commit := n.testBit 111, trap := n.testBit 110, const := w.extractLsb' 32 64 }

/-- The microword at a microword address: ROM below 16,384, the patch words from there (R410, R443). -/
def State.microWord (s : State) (a : Nat) : MicroWord :=
  if a < 16384 then MicroWord.ofBits (Config.romWord a)
  else MicroWord.ofBits (BitVec.ofNat 192 (s.le (0x45000000 + 32 * (a - 16384)) 24))

/-- R445: where control that reaches address `a` goes: the target of the hook that names it, else `a`. -/
def State.hooked (s : State) (a : Nat) : Nat :=
  match (List.range 64).find? fun h => s.flag (Reg.jacqHook h) Fld.jacqHookValid &&
      s.fld (Reg.jacqHook h) Fld.jacqHookRomAddr == a with
  | some h => s.fld (Reg.jacqHook h) Fld.jacqHookTarget
  | none => a

/-- R445: the dispatch entry of an opcode: the override of the patch set in effect, else the ROM entry. -/
def State.dispEntry (s : State) (op : Nat) : Nat := s.hooked (s.fld (Reg.jacqDisp op) Fld.jacqDispTarget)

/-- A sequence in progress: its instruction, its microcode state, the registers as its words have left them, the
address reached and the words run. -/
structure MicroRun where
  op : Nat
  w : IWord
  m : Micro
  t : Task
  pos : Nat
  ran : Nat

/-- R443: what a selector reads. -/
def MicroRun.read (r : MicroRun) (n : Nat) : Word :=
  if n < 0x20 then vget r.t.g n 0
  else if n = 0x20 then r.t.read r.w.src1
  else if n = 0x21 then r.t.read r.w.src2
  else if n = 0x22 then r.t.read r.w.dest
  else if n = 0x23 then r.t.stReg
  else if n = 0x24 then BitVec.ofNat 64 r.t.pc
  else if n = 0x25 then r.w.toWord (BitVec.ofNat 8 r.op)
  else if n = 0x26 then r.m.resp
  else if 0x30 ≤ n then vget r.m.u (n - 0x30) 0
  else 0

/-- R443: writes through a destination selector; with COMMIT 0 only microregisters are written. -/
def MicroRun.write (r : MicroRun) (commit : Bool) (n : Nat) (v : Word) : MicroRun :=
  if 0x30 ≤ n then { r with m := { r.m with u := vupd (fun _ => v) (n - 0x30) r.m.u } }
  else if !commit then r
  else if n < 0x20 then { r with t := { r.t with g := vupd (fun _ => v) n r.t.g } }
  else if n = 0x20 then { r with t := r.t.write r.w.src1 v }
  else if n = 0x21 then { r with t := r.t.write r.w.src2 v }
  else if n = 0x22 then { r with t := r.t.write r.w.dest v }
  else if n = 0x23 then { r with t := { r.t with stReg := v } }
  else if n = 0x24 then { r with t := { r.t with pc := v.toNat % 2 ^ 18 } }
  else r

/-- R443: operand B. -/
def MicroRun.opB (r : MicroRun) (m : MicroWord) : Word :=
  match m.bsrc with
  | 0 => r.read m.bsel
  | 1 => m.const
  | 2 => r.w.val.setWidth 64
  | _ => r.w.sext

/-- R444: the ALU flags of a result: zero, carry, sign, result bit 0. -/
def aluFlags (carry : Bool) (v : Word) : BitVec 4 :=
  BitVec.ofNat 4 (b2n (v == 0) + 2 * b2n carry + 4 * b2n v.msb + 8 * b2n (v.getLsbD 0))

/-- R443: the value of a load of width code `mw`, from the bytes read. -/
def microLoaded (mw : Nat) (sign : Bool) (raw : Word) : Word :=
  let k := 8 * 2 ^ mw
  let v := raw.toNat % 2 ^ k
  if sign ∧ v.testBit (k - 1) then BitVec.ofNat 64 (v + 2 ^ 64 - 2 ^ k) else BitVec.ofNat 64 v

/-- R444: the source of a multi-way branch; `requests` are those of the scheduler. -/
def MicroRun.cselSource (r : MicroRun) (requests csel : Nat) : Nat :=
  match csel with
  | 0 => r.m.flags.toNat
  | 1 => r.w.fn.toNat
  | 2 => r.w.fn.toNat / 8
  | 3 => r.m.resp.toNat
  | 4 => (vget r.m.u 15 0).toNat
  | 5 => requests
  | _ => 0

/-- R444: the target of a branch over the low `k` bits of the source. -/
def wayTarget (next k src : Nat) : Nat := next / 2 ^ k * 2 ^ k + src % 2 ^ k

/-- R443: a microword's work on registers: ALU, load, unit, status and destination. `n` numbers its free values. -/
def MicroRun.work (r : MicroRun) (n : Nat) (m : MicroWord) : MicroRun :=
  let a := r.read m.asel
  let b := r.opB m
  let v := Config.microAlu m.alu a b
  let resp := if m.seqOp = 7 then Config.unitResp m.unit m.ucmd n else r.m.resp
  let r := { r with m := { r.m with flags := aluFlags (Config.microCarry m.alu a b) v, resp := resp } }
  let out := if m.mem = 1 ∨ m.mem = 4 then microLoaded m.mw m.msign (Config.microLoad n) else v
  let r := r.write m.commit m.dsel out
  let r := if m.stw ∧ m.commit then
      let code := if m.stsrc then resp.toNat % 256 else m.stcode
      { r with t := { r.t with stReg := BitVec.ofNat 64 (r.t.stReg.toNat / 256 * 256 + code) } }
    else r
  if m.auxw ∧ m.commit then
    { r with t := { r.t with stReg := v.setWidth 32 ++ r.t.stReg.setWidth 32 } }
  else r

/-- R444: one microword: its work, and where control goes; none when the sequence has ended, by END, by the dispatch of
the next instruction or by TRAP (R48). A fifth CALL drops the oldest address, and a RETURN with none goes to NEXT
(DESIGN CHOICE, log entry 109). -/
def MicroRun.step (s : State) (requests : Nat) (r : MicroRun) : MicroRun × Option Nat :=
  let m := s.microWord r.pos
  let r := { r.work (s.freeCtr + r.ran) m with ran := r.ran + 1 }
  let src := r.cselSource requests m.csel
  if m.trap then (r, none)
  else
    match m.seqOp with
    | 1 => (r, some (wayTarget m.next 1 src))
    | 2 => (r, some (wayTarget m.next 2 src))
    | 3 => (r, some (wayTarget m.next 4 src))
    | 4 => (r, none)
    | 5 => ({ r with m := { r.m with ret := (m.const.toNat % 2 ^ 15 :: r.m.ret).take 4 } }, some m.next)
    | 6 => ({ r with m := { r.m with ret := r.m.ret.drop 1 } }, some (r.m.ret.headD m.next))
    | 8 => (r, none)
    | _ => (r, some m.next)

/-- R444: a sequence to its end, over at most `n` words (log entry 109). -/
def MicroRun.go (s : State) (requests : Nat) : Nat → MicroRun → MicroRun
  | 0, r => r
  | n + 1, r =>
    match r.step s requests with
    | (r, none) => r
    | (r, some a) => MicroRun.go s requests n { r with pos := s.hooked a }

/-- The most words of one sequence that the model follows. -/
def microLimit : Nat := 4096

/-- R409: an instruction of the ALU group or a branch, which takes one microword while no patch overrides its
dispatch entry. -/
def State.oneWord (s : State) (op : Nat) : Bool :=
  ((0x10 ≤ op && op ≤ 0x12) || (0x20 ≤ op && op < 0x40)) && !s.flag (Reg.jacqDisp op) Fld.jacqDispPatched

/-- R415: PRIO. -/
def State.prio (s : State) (k : Nat) : Nat := bitsOf (s.taskWord k 0).toNat 23 21

/-- R444, CSEL source 5: the scheduler's requests of running task `k`: bit 0 pre-emption pending, by a READY task of
higher PRIO; bit 1 cancel pending, by a CANCEL or DELETE of it that the next round applies (R413). -/
def State.microRequests (s : State) (k : Nat) : Nat :=
  b2n (s.spin.ready.any fun j => decide (s.prio k < s.prio j)) +
    2 * b2n (s.spin.cmdQ.any fun c => (c.1 == .cancel || c.1 == .delete) && c.2.1 == k)

/-- R443, R444: the sequence of an instruction of task `k`, which begins it as `t`, from its dispatch entry. -/
def State.microSeq (s : State) (k : Nat) (t : Task) (op : Nat) (w : IWord) : MicroRun :=
  MicroRun.go s (s.microRequests k) (if s.oneWord op then 1 else microLimit)
    { op := op, w := w, m := Tbl.get (Tbl.const Micro.none) s.spin.micro k, t := t, pos := s.dispEntry op, ran := 0 }

/-- An event counter counts microwords (R478). -/
def State.countsMicro (s : State) : Bool :=
  (List.range 16).any fun i => s.flag (Reg.glassEvtCtl i) Fld.glassEvtCtlEnable &&
    s.fld (Reg.glassEvtCtl i) Fld.glassEvtCtlEvent == 9

/-- R409, R420, R444, R478: the microcode of an instruction of task `k`, which began it as `t`: the task's microcode
state as the sequence leaves it, and its words counted. -/
def State.microcode (s : State) (k : Nat) (t : Task) (op : Nat) (w : IWord) : State :=
  let r := s.microSeq k t op w
  let s := { s with
    freeCtr := s.freeCtr + microLimit
    spin := { s.spin with micro := Tbl.set (Tbl.const Micro.none) s.spin.micro k r.m } }
  if s.countsMicro then
    s.event { kind := 9, weight := r.ran, priv := 1, master := .task k, addr := none, cls := none }
  else s

end Sys2Proof.Machine
end

