-- ==== Sys2Proof/Machine/WarpOps.lean ====
section
/-! DEFINITION. The operations of the flow-state engine (R132 to R166): keys and seals, placement, the
flow cache, folds, eviction, flow digests and records lost. -/

namespace Sys2Proof.Machine

/-! ## Heads -/

/-- `n` bytes of a head from offset `o`, little-endian (R137). -/
def hget (h : Head) (o n : Nat) : Nat := (h.toNat >>> (8 * o)) % 2 ^ (8 * n)

/-- A head with `n` bytes from offset `o` holding `v`. -/
def hput (h : Head) (o n v : Nat) : Head :=
  let m : Head := BitVec.ofNat 512 ((2 ^ (8 * n) - 1) <<< (8 * o))
  (h &&& ~~~ m) ||| (BitVec.ofNat 512 (v <<< (8 * o)) &&& m)

/-- The seal of a head. -/
def headSeal (h : Head) : Seal := BitVec.ofNat 96 (hget h 4 12)
/-- VALID (R138). -/
def headValid (h : Head) : Bool := h.getLsbD 31
/-- HIT. -/
def headHit (h : Head) : Bool := h.getLsbD 30
/-- FRESH. -/
def headFresh (h : Head) : Bool := h.getLsbD 29
/-- FORM. -/
def headForm (h : Head) : Nat := hget h 3 1 % 16
/-- ONSET. -/
def headOnset (h : Head) : Nat := bitsOf (hget h 0 4) 23 21
/-- GEN. -/
def headGen (h : Head) : Nat := hget h 0 2

/-- A head with one bit of CTL set or cleared. -/
def headBit (h : Head) (bit : Nat) (b : Bool) : Head :=
  let m : Head := BitVec.ofNat 512 (2 ^ bit)
  if b then h ||| m else h &&& ~~~ m

/-- The packet and byte delta of pair `k`. -/
def delta (h : Head) (k : Nat) : Nat × Nat := (hget h (40 + 6 * k) 2, hget h (42 + 6 * k) 4)

/-- Some delta is not 0. -/
def hasDeltas (h : Head) : Bool := hget h 40 24 != 0

/-- The head with every delta 0. -/
def noDeltas (h : Head) : Head := hput h 40 24 0

/-- The head's 64 bytes. -/
def headBytes (h : Head) : List Byte := toLE 64 h.toNat

/-! ## Keys, seals, placement -/

/-- R132: the slot mask of key form `f`, unless the form is undefined. -/
def State.formMask (s : State) (seq : BitVec 32) (f : Nat) : Option (BitVec 32) :=
  let a := Reg.warpKeyform f
  let m := BitVec.ofNat 32 (s.pfld seq a Fld.warpKeyformSlotMask)
  if s.pfld seq a Fld.warpKeyformValid = 0 ∨ 10 < ((List.range 32).filter (fun i => m.getLsbD i)).length
  then none else some m

/-- R133: the key string. -/
def keyString (m : BitVec 32) (hf : Vector (BitVec 32) 32) (zone f : Nat) : List Byte :=
  (((List.range 32).filter (fun i => m.getLsbD i)).map (fun i => toLE 4 (vget hf i 0).toNat)).flatten ++
    toLE 4 zone ++ toLE 1 f

/-- R134: the seal of a key string. -/
def State.sealOf (s : State) (k : List Byte) : Seal :=
  (sip128 (s.rd Reg.warpSealKeyLo) (s.rd Reg.warpSealKeyHi) k).setWidth 96

/-- R57, R134: the bucket hash under seed slot `t` of a 16-byte message, as a pick reads the seeds. -/
def State.pickHash (s : State) (seq : BitVec 32) (t : Nat) (m : List Byte) : BitVec 64 :=
  if t = 0 then sip64 (s.preg seq Reg.warpSeed0Lo) (s.preg seq Reg.warpSeed0Hi) m
  else sip64 (s.preg seq Reg.warpSeed1Lo) (s.preg seq Reg.warpSeed1Hi) m

/-- R57, R134: the bucket hash under seed slot `t` of a 16-byte message. -/
def State.bucketHash (s : State) (t : Nat) (m : List Byte) : BitVec 64 :=
  if t = 0 then sip64 (s.rd Reg.warpSeed0Lo) (s.rd Reg.warpSeed0Hi) m
  else sip64 (s.rd Reg.warpSeed1Lo) (s.rd Reg.warpSeed1Hi) m

/-- R170: the buckets of table `t`. -/
def State.nbOf (s : State) (t : Nat) : Nat :=
  if s.flag (Reg.warpTbl t) Fld.warpTblValid then s.fld (Reg.warpTbl t) Fld.warpTblNb else 0

/-- R170: the first record of table `t`. -/
def State.firstRec (s : State) (t : Nat) : Nat := s.fld (Reg.warpTbl t) Fld.warpTblFirstRec

/-- R171: the overflow entries. -/
def State.ovfCount (s : State) : Nat := min 1048576 (s.fld Reg.warpOvfCfg Fld.warpOvfCfgCount)

/-- R171: the first overflow record. -/
def State.ovfFirst (s : State) : Nat := s.fld Reg.warpOvfCfg Fld.warpOvfCfgFirstRec

/-- R134: bucket and tag of a seal in table `t`. -/
def State.bucketTag (s : State) (t : Nat) (x : Seal) : Nat × Nat :=
  let b := (s.bucketHash t (toLE 16 x.toNat)).toNat
  let g := b / 2 ^ 56
  ((b % 2 ^ 32 * s.nbOf t) / 2 ^ 32, if g = 0 then 1 else g)

/-- The current table. -/
def State.curTable (s : State) : Nat := s.fld Reg.warpCtl Fld.warpCtlCurTable

/-- R144: the table a lookup or create of a seal goes to. -/
def State.tableFor (s : State) (x : Seal) : Nat :=
  let t := s.curTable
  if s.flag Reg.warpRehashStat Fld.warpRehashStatActive then
    if (s.bucketTag t x).1 < s.fld Reg.warpRehashStat Fld.warpRehashStatCursor ∨
        s.flag Reg.warpRehashStat Fld.warpRehashStatOvfPhase then 1 - t else t
  else t

/-- R136: the address of the head of record `r`. -/
def State.headAddr (s : State) (r : Nat) : Nat := s.fld Reg.warpRegion Fld.warpRegionBase + 128 * r

/-- The tag index entry of record `r` (R143). -/
def State.tag (s : State) (r : Nat) : Nat := Tbl.get (Tbl.const 0) s.warp.tags r

/-- Writes a tag index entry. -/
def State.setTag (s : State) (r v : Nat) : State :=
  { s with warp := { s.warp with tags := Tbl.set (Tbl.const 0) s.warp.tags r v } }

/-- Writes an overflow index entry. -/
def State.setOvf (s : State) (i : Nat) (v : Option Seal) : State :=
  { s with warp := { s.warp with ovf := Tbl.set (Tbl.const none) s.warp.ovf i v } }

/-- R144: the candidate record of a seal: by the overflow index, then by tag in one bucket. -/
def State.candidate (s : State) (x : Seal) : Option Nat :=
  match s.warp.ovf.find? (fun p => p.2 == some x) with
  | some p => some (s.ovfFirst + p.1)
  | none =>
    let t := s.tableFor x
    if s.nbOf t = 0 then none
    else
      let bt := s.bucketTag t x
      ((List.range 8).map (fun w => s.firstRec t + 8 * bt.1 + w)).find? fun r => s.tag r == bt.2

/-- R493: the head of record `r` lies in a stack that is not lost. -/
def State.recUsable (s : State) (r : Nat) : Bool := !s.stackLost (hbmStack (s.headAddr r))

/-- The lowest free overflow entry from `i` on, among `n`. -/
def State.freeOvfFrom (s : State) : Nat → Nat → Option Nat
  | 0, _ => none
  | n + 1, i =>
    if Tbl.get (Tbl.const none) s.warp.ovf i == none && s.recUsable (s.ovfFirst + i) then some i
    else State.freeOvfFrom s n (i + 1)

/-- R145: the lowest-numbered free overflow entry. -/
def State.freeOvf (s : State) : Option Nat := s.freeOvfFrom s.ovfCount 0

/-- R145: the way of table `t` that takes a seal, if one does. -/
def State.freeWay (s : State) (t : Nat) (x : Seal) : Option Placed :=
  if s.nbOf t = 0 then none
  else
    let bt := s.bucketTag t x
    let ways := (List.range 8).map fun w => s.firstRec t + 8 * bt.1 + w
    if ways.any (fun r => s.tag r == bt.2) then none
    else (ways.find? fun r => s.tag r == 0 && s.recUsable r).map fun r => .way r bt.2

/-- R145: where a new record of a seal goes in table `t`. -/
def State.place (s : State) (t : Nat) (x : Seal) : Option Placed :=
  match s.freeWay t x with
  | some p => some p
  | none => s.freeOvf.map fun i => .overflow (s.ovfFirst + i) i

/-- Overflow entries in use (R172), of those the overflow area has now (R136). -/
def State.ovfUsed (s : State) : Nat := (s.warp.ovf.filter fun p => p.2.isSome && decide (p.1 < s.ovfCount)).length

/-- Writes the index entry of a placement; at an overflow placement OVF_WARN may set (R172). -/
def State.commitPlace (s : State) (p : Placed) (x : Seal) : State :=
  match p with
  | .way r g => s.setTag r g
  | .overflow _ i =>
    let s := s.setOvf i (some x)
    if s.fld Reg.warpOvfStat Fld.warpOvfStatWarn ≤ s.ovfUsed then s.err Reg.warpErr 0 else s

/-- Frees the index entry of record `r`. -/
def State.freeRec (s : State) (r : Nat) : State :=
  if s.ovfFirst ≤ r ∧ r < s.ovfFirst + s.ovfCount then s.setOvf (r - s.ovfFirst) none else s.setTag r 0

/-- R180: placed records, in both tables and the overflow area. -/
def State.placedCount (s : State) : Nat :=
  (s.warp.tags.filter fun e => (List.range 2).any fun t =>
    decide (s.firstRec t ≤ e.1) && decide (e.1 < s.firstRec t + 8 * s.nbOf t) && e.2 != 0).length + s.ovfUsed

/-- R155: record `r` is placed. -/
def State.isPlaced (s : State) (r : Nat) : Bool :=
  (s.ovfFirst ≤ r && r < s.ovfFirst + s.ovfCount &&
    (Tbl.get (Tbl.const none) s.warp.ovf (r - s.ovfFirst)).isSome) ||
  ((List.range 2).any fun t => s.firstRec t ≤ r && r < s.firstRec t + 8 * s.nbOf t && s.tag r != 0)

/-! ## Flow digests (R216 to R219) -/

/-- The flow time domain in effect. -/
def State.flowDom (s : State) : Nat := s.fld Reg.warpCtl Fld.warpCtlTimeDomain

/-- R219: writes a digest into the ring. -/
def State.fdigPut (s : State) (d : List Byte) : State :=
  let size := min 16777216 (s.fld Reg.warpFdigSize Fld.warpFdigSizeSize)
  let prod := s.fld Reg.warpFdigProd Fld.warpFdigProdProd
  let used := (prod + 2 ^ 32 - s.fld Reg.warpFdigCons Fld.warpFdigConsCons) % 2 ^ 32
  if size = 0 ∨ used = size then
    (s.incF Reg.warpFdigStat Fld.warpFdigStatDropped).setBit Reg.warpFdigStat 0
  else
    (s.poke (s.fld Reg.warpFdigBase Fld.warpFdigBaseBase + 64 * (prod % size)) d).incF
      Reg.warpFdigProd Fld.warpFdigProdProd

/-- R217: a digest: kind, form, key length, loom, record number, seal, bytes 16 to 63. -/
def State.fdig (s : State) (kind form klen loom rno : Nat) (x : Seal) (rest : List Byte) : State :=
  s.fdigPut (toLE 1 kind ++ toLE 1 form ++ toLE 1 klen ++ toLE 1 loom ++ toLE 4 rno ++
    toLE 4 (s.flowNow s.flowDom) ++ toLE 4 (x.toNat % 2 ^ 32) ++ slice rest 0 48)

/-- The bit of a form in a mask field of WARP_FDIG_CTL. -/
def State.fdigForm (s : State) (f : Fld) (form : Nat) : Bool := (s.fld Reg.warpFdigCtl f).testBit form

/-- R72, R216: the same, as a pick's FCREATE reads it. -/
def State.pfdigForm (s : State) (seq : BitVec 32) (f : Fld) (form : Nat) : Bool :=
  (s.pfld seq Reg.warpFdigCtl f).testBit form

/-- R157, R216, R488: a record or a tail is lost: LOST sets, a MASKED record and a LOST digest go out. -/
def State.lostNote (s : State) (rno form : Nat) (x : Seal) : State :=
  let s := (s.setBit Reg.warpErr 4).masked 5 32 rno 1
  if s.flag Reg.warpFdigCtl Fld.warpFdigCtlLostEn then s.fdig 5 form 0 255 rno x [] else s

/-- R157: a head is lost: its way is freed. -/
def State.loseHead (s : State) (rno form : Nat) (x : Seal) : State := (s.freeRec rno).lostNote rno form x

/-- R157, R217: record `r` is lost and its head cannot be read: its seal is what the overflow index holds; where only
a tag stands for it, the seal, and in any case the form, are free values (DESIGN CHOICE, log entry 97). -/
def State.loseRec (s : State) (r : Nat) : State :=
  let d := s.draw
  let x := match (if s.ovfFirst ≤ r then Tbl.get (Tbl.const none) s.warp.ovf (r - s.ovfFirst) else none) with
    | some x => x
    | none => BitVec.ofNat 96 (d.1 / 16)
  d.2.loseHead r (d.1 % 16) x

/-! ## Folds (R152) -/

/-- A number of `n` bytes added into a byte string at `o`, wrapping. -/
def addAt (bs : List Byte) (o n v : Nat) : List Byte := patch bs o (toLE n (ofLE (slice bs o n) + v))

/-- R141: the tail with the deltas of pair `k` added. -/
def addPair (h : Head) (tail : List Byte) (k : Nat) : List Byte :=
  let d := delta h k
  match k with
  | 0 => addAt (addAt tail 0 8 d.1) 8 8 d.2
  | 1 => addAt (addAt tail 24 4 d.1) 16 8 d.2
  | 2 => addAt (addAt tail 32 4 d.1) 40 8 d.2
  | _ => addAt (addAt tail 36 4 d.1) 48 8 d.2

/-- R152: the tail after a fold: `w2` in W2, `fresh` a fold-initialise with its telemetry image; without one the tail
gets MODE 1 and zeros (DESIGN CHOICE, log entry 98). -/
def foldTail (w2 fresh : Bool) (image : Option (BitVec 288)) (h : Head) (old : List Byte) : List Byte :=
  let t0 := if fresh then List.replicate 64 0 else old
  let t1 := if (ofLE (slice t0 28 4)).testBit 31 && !w2 then patch t0 28 (List.replicate 36 0) else t0
  let t2 :=
    if fresh && w2 then
      patch t1 28 (match image with
        | some m => toLE 36 m.toNat
        | none => toLE 36 (2 ^ 31))
    else t1
  (if w2 then [0, 1] else [0, 1, 2, 3]).foldl (addPair h) t2

/-- R152, R216: the head with the deltas that a fold takes: in W2 those of pairs 2 and 3 are discarded. -/
def foldedDeltas (w2 : Bool) (h : Head) : Head := if w2 then hput h 52 12 0 else h

/-- R152: folds the deltas of a head into the tail of its record, in W2 or not; the head comes back with every delta 0
and FRESH 0, and the number of the request. `flow` counts it with the flow-engine traffic (R159). -/
def State.fold (s : State) (w2 flow : Bool) (who : EvMaster) (rno : Nat) (image : Option (BitVec 288))
    (h : Head) : State × Head × Nat :=
  let a := s.headAddr rno + 64
  let unc := !headFresh h && s.hbmUnc a
  let s := if unc then (s.uncRead a).lostNote rno (headForm h) (headSeal h) else s
  let tail := foldTail w2 (headFresh h || unc) image h (s.bytes a 64)
  let lostPairs := ([2, 3].filter fun k => delta h k != (0, 0)).length
  let s := if w2 ∧ 0 < lostPairs then s.cntShared 4 lostPairs else s
  let r := (if headFresh h then s else s.lineSeen a).hbmReq flow (!headFresh h) (!headFresh h) a who
  let s := r.2.hbmPut a tail
  let d := foldedDeltas w2 h
  let s :=
    if hasDeltas d ∧ s.fdigForm Fld.warpFdigCtlExportForms (headForm h) ∧
        s.flag Reg.warpFdigCtl Fld.warpFdigCtlActiveEn then
      s.fdig 3 (headForm h) 0 255 rno (headSeal h)
        (([0, 1, 2, 3].map fun k => toLE 2 (delta d k).1).flatten ++
          ([0, 1, 2, 3].map fun k => toLE 4 (delta d k).2).flatten ++ toLE 4 (hget h 36 4))
    else s
  (s, headBit (noDeltas h) 29 false, r.1)

/-! ## The flow cache (R146 to R151) -/

/-- Lines of a set. -/
def ways : Nat := 16

/-- R146: the first line of the set of a seal. -/
def setBase (x : Seal) : Nat := (x.toNat % 64) * 16384 + (x.toNat / 64 % 1024) * 16

/-- The bank of a line. -/
def lineBank (l : Nat) : Nat := l / 16384

/-- Cache line `l`. -/
def State.line (s : State) (l : Nat) : Option CLine := Tbl.get (Tbl.const none) s.warp.cache l

/-- Writes or frees cache line `l`. -/
def State.setLine (s : State) (l : Nat) (c : Option CLine) : State :=
  { s with warp := { s.warp with cache := Tbl.set (Tbl.const none) s.warp.cache l c } }

/-- Changes cache line `l`, if it holds anything. -/
def State.updLine (s : State) (l : Nat) (f : CLine → CLine) : State :=
  match s.line l with
  | none => s
  | some c => s.setLine l (some (f c))

/-- The line holds a head that lookups find. -/
def CLine.finds (c : CLine) (x : Seal) : Bool :=
  !c.reserved && !c.detached && !c.isSecond && headSeal c.head == x

/-- R146: the line that holds a seal. -/
def State.cacheFind (s : State) (x : Seal) : Option Nat :=
  ((List.range ways).map (setBase x + ·)).find? fun l =>
    match s.line l with
    | some c => c.finds x
    | none => false

/-- The victim buffer of bank `b`. -/
def State.victims (s : State) (b : Nat) : List Victim := Tbl.get (Tbl.const []) s.warp.victims b

/-- Stores the victim buffer of bank `b`. -/
def State.setVictims (s : State) (b : Nat) (v : List Victim) : State :=
  { s with warp := { s.warp with victims := Tbl.set (Tbl.const []) s.warp.victims b v } }

/-- R151: writes the tail image of the record whose head lies at `a`, and the number of the request. -/
def State.putImage (s : State) (flow : Bool) (who : EvMaster) (a : Nat) (m : BitVec 288) : State × Nat :=
  let r := s.hbmReq flow false true (a + 64) who
  (r.2.hbmPut (a + 92) (toLE 36 m.toNat), r.1)

/-- R151: the write-back of a dirty head in W0, W1, W2 or W3; the head as written and the writes. -/
def State.writeBackHead (s : State) (flow : Bool) (who : EvMaster) (rno : Nat)
    (image : Option (BitVec 288)) (h : Head) : State × Head × List Nat :=
  let a := s.headAddr rno
  let prof := s.profile
  let fresh0 := headFresh h
  -- an image kept from W2 is written back at the eviction (R147), before any fold (DEDUCED, log entry 24)
  let i := match image with
    | some m => if prof ≠ 2 then ((s.putImage flow who a m).1, [(s.putImage flow who a m).2]) else (s, [])
    | none => (s, [])
  let s := i.1
  let doFold := if prof = 1 then false else if prof = 2 then hasDeltas h || fresh0 else hasDeltas h
  let f := if doFold then
      let f := s.fold (prof == 2) flow who rno image h
      (f.1, f.2.1, [f.2.2])
    else (s, h, [])
  let j := match image with
    | some m => if prof = 2 ∧ !fresh0 then ((f.1.putImage flow who a m).1, [(f.1.putImage flow who a m).2]) else (f.1, [])
    | none => (f.1, [])
  let r := j.1.hbmReq flow false false a who
  (r.2.hbmPut a (headBytes f.2.1), f.2.1, i.2 ++ f.2.2 ++ j.2 ++ [r.1])

/-- R151: evicts line `l`; a dirty head goes through the victim buffer. A head of a lost stack is lost
(R493). -/
def State.evict (s : State) (l : Nat) (who : EvMaster) : State :=
  match s.line l with
  | none => s
  | some c =>
    let s := (match c.second with
      | some k => s.setLine k none
      | none => s).setLine l none
    if !s.recUsable c.rno then s.loseHead c.rno (headForm c.head) (headSeal c.head)
    else if c.dirty then
      let w := s.writeBackHead true who c.rno c.image c.head
      let b := lineBank l
      w.1.setVictims b (w.1.victims b ++ [{ head := w.2.1, rno := c.rno, image := c.image, reqs := w.2.2 }])
    else s

/-- Lines of a set from its rotating pointer on. -/
def State.scanOrder (s : State) (base : Nat) : List Nat :=
  let p := Tbl.get (Tbl.const 0) s.warp.ptr (base / 16)
  (List.range ways).map fun i => base + (p + i) % ways

/-- A line may be a victim. -/
def State.mayEvict (s : State) (l : Nat) : Bool :=
  match s.line l with
  | some c => c.pins == 0 && !c.reserved && !c.isSecond && !c.detached
  | none => false

/-- The rotating pointer moves to the line after the victim. -/
def State.setPtr (s : State) (base l : Nat) : State :=
  { s with warp := { s.warp with
      ptr := Tbl.set (Tbl.const 0) s.warp.ptr (base / 16) ((l - base + 1) % ways) } }

/-- R148 mode 0: the first line of the scan that may go and whose reference bit is clear, clearing the
bits it passes. -/
def nruScan (s : State) : List Nat → State × Option Nat
  | [] => (s, none)
  | l :: ls =>
    match s.line l with
    | some c =>
      if s.mayEvict l ∧ !c.refBit then (s, some l)
      else nruScan (s.updLine l fun c => { c with refBit := false }) ls
    | none => nruScan s ls

/-- R148: the victim of a full set. -/
def State.victim (s : State) (base : Nat) : State × Option Nat :=
  let order := s.scanOrder base
  let nru (s : State) : State × Option Nat :=
    if order.any s.mayEvict then
      let r := nruScan s (order ++ order)
      match r.2 with
      | some l => (r.1.setPtr base l, some l)
      | none => (r.1, none)
    else (s, none)
  match s.fld Reg.warpCacheCtl Fld.warpCacheCtlEvictMode with
  | 1 =>
    match order.find? (fun l => s.mayEvict l && (match s.line l with
      | some c => !hasDeltas c.head
      | none => false)) with
    | some l => (s.setPtr base l, some l)
    | none => nru s
  | 2 =>
    let old := (order.filter s.mayEvict).foldl (fun (m : Option (Nat × Nat)) l =>
      let o := match s.line l with
        | some c => c.order
        | none => 0
      match m with
      | none => some (l, o)
      | some (_, o') => if o < o' then some (l, o) else m) none
    (s, old.map (·.1))
  | _ => nru s

/-- R148: a free line of the set of a seal, evicting a victim if needed; none: the allocation waits. -/
def State.allocLine (s : State) (x : Seal) (who : EvMaster) : Option (Nat × State) :=
  let base := setBase x
  match ((List.range ways).map (base + ·)).find? fun l => (s.line l).isNone with
  | some l => some (l, s)
  | none =>
    if 64 ≤ (s.victims (lineBank base)).length then none
    else
      match s.victim base with
      | (_, none) => none
      | (s', some v) => some (v, s'.evict v who)

/-- A line as it is first reserved. -/
def CLine.fresh : CLine :=
  { reserved := true, head := 0, rno := 0, dirty := false, refBit := true, pins := 1, recPins := 0,
    order := 0, detached := false, image := none, second := none, isSecond := false }

/-- R147, R148: allocates a line of a seal's set and, in profile W2, the second line of its tail image. The
line comes back reserved, its seal noted. -/
def State.allocFlow (s : State) (prof : Nat) (x : Seal) (who : EvMaster) : Option (Nat × State) :=
  match s.allocLine x who with
  | none => none
  | some (l, s) =>
    let s := s.setLine l (some { CLine.fresh with head := hput 0 4 12 x.toNat })
    if prof = 2 then
      match s.allocLine x who with
      | none => none
      | some (k, s) =>
        some (l, (s.setLine k (some { CLine.fresh with isSecond := true, reserved := false })).updLine l
          fun c => { c with second := some k })
    else some (l, s)

/-- Frees a line and its second line. -/
def State.freeLine (s : State) (l : Nat) : State :=
  match s.line l with
  | none => s
  | some c =>
    (match c.second with
      | some k => s.setLine k none
      | none => s).setLine l none

/-- Installs a head in a line (R150, R154). -/
def State.install (s : State) (l : Nat) (h : Head) (rno : Nat) (dirty : Bool) (image : Option (BitVec 288)) :
    State :=
  let n := s.warp.installs
  let s := s.updLine l fun c => { c with
    reserved := false, head := h, rno := rno, dirty := dirty, refBit := true, order := n,
    detached := false, image := image }
  { s with warp := { s.warp with installs := n + 1 } }

/-! ## Telemetry (R142) -/

/-- A field of a telemetry image, at its offset in the tail. -/
def imgGet (m : BitVec 288) (o n : Nat) : Nat := (m.toNat >>> (8 * (o - 28))) % 2 ^ (8 * n)

/-- A telemetry image from its fields. -/
def imgOf (t0 : Nat) (gaps hist : List Nat) : BitVec 288 :=
  BitVec.ofNat 288 (ofLE (toLE 4 (2 ^ 31) ++ toLE 4 t0 ++ (gaps.map (toLE 2)).flatten ++
    (hist.map (toLE 2)).flatten))

/-- The image a create sets, by whichever pick (DESIGN CHOICE, log entry 98). -/
def imgCreate (now : Nat) : BitVec 288 := imgOf now (List.replicate 7 0) (List.replicate 7 0)

/-- The HIST bin of a gap in µs. -/
def histBin (g : Nat) : Nat :=
  if g < 1 then 0 else if g < 10 then 1 else if g < 100 then 2 else if g < 1000 then 3
  else if g < 10000 then 4 else if g < 100000 then 5 else 6

/-- R142 steps 2 to 5. -/
def imgArrive (m : BitVec 288) (now : Nat) : BitVec 288 :=
  let g := (now + 2 ^ 32 - imgGet m 32 4) % 2 ^ 32
  let gaps := (List.range 7).map fun i => imgGet m (36 + 2 * i) 2
  let hist := (List.range 7).map fun i => imgGet m (50 + 2 * i) 2
  imgOf now (min g 65535 :: gaps.take 6) (updAt (fun v => min 65535 (v + 1)) (histBin g) hist)

/-- R141: µs of a domain time, modulo 2^32. -/
def usTime (t : Nat) : Nat := (t / secUnit * 1000000 + t / nsUnit % 1000000000 / 1000) % 2 ^ 32

/-- R142: the arrival time of a packet in µs of the flow time domain; 0 without a stamp. -/
def Pkt.arrivalUs (x : Pkt) (d : Nat) : Nat :=
  match x.stamps.getD d none with
  | some t => usTime t.time
  | none => 0

/-- The telemetry image read with a tail. A tail in MODE 0 or not yet initialised holds no telemetry,
so the fields are free values (DESIGN CHOICE, log entry 2). -/
def State.readImage (s : State) (rno : Nat) (fresh : Bool) : State × BitVec 288 :=
  let m := BitVec.ofNat 288 (ofLE (s.bytes (s.headAddr rno + 92) 36))
  if fresh || !m.getLsbD 31 then
    let r := s.draw
    (r.2, BitVec.ofNat 288 (r.1 / 2 ^ 32 * 2 ^ 32 + 2 ^ 31))
  else (s, m)

end Sys2Proof.Machine
end

