-- ==== Sys2Proof/Machine/PickOps.lean ====
section
/-! DEFINITION. The life of a pick (R50, R69 to R79): how an instruction of a draft runs and completes,
how a pick ends, and how completed instructions are counted and sampled (R472, R478, R481). -/

namespace Sys2Proof.Machine

/-! ## Draft words -/

/-- The broadcast address of a draft bank (R67); every loom's copy is held there. -/
def draftBase (bank : Bool) : Nat := if bank then 0x10010000 else 0x10000000

/-- R68: the length of a bank in use, in words, as a pick reads it. -/
def State.draftLen (s : State) (seq : BitVec 32) (bank : Bool) : Nat :=
  min 8192 (s.ple seq (draftBase bank) 8 % 65536)

/-- R69: the word number of the entry of index `i`, if the bank has a draft for it. -/
def State.draftEntry (s : State) (seq : BitVec 32) (bank : Bool) (i : Nat) : Option Nat :=
  let h := s.ple seq (draftBase bank) 8
  let e := s.ple seq (draftBase bank + 8 + 2 * i) 2
  if bitsOf h 63 48 = 1 ∧ 129 ≤ e ∧ e < s.draftLen seq bank then some e else none

/-! ## Sampling (R481, R482) -/

/-- R37, R481: the group of an opcode. -/
def opGroup (op : Nat) : Nat :=
  if op = 0x04 ∨ op = 0x05 ∨ op = 0x06 then 1
  else if op = 0x10 ∨ op = 0x11 ∨ op = 0x3E then 2
  else if 0x20 ≤ op ∧ op ≤ 0x3B then 3
  else if op = 0x40 then 4
  else if 0x50 ≤ op ∧ op ≤ 0x53 then 5
  else if 0x60 ≤ op ∧ op ≤ 0x62 then 6
  else if 0x70 ≤ op ∧ op ≤ 0x74 then 7
  else if op = 0x80 ∨ op = 0x81 then 8
  else 0

/-- The opcodes of a draft that write st (R46). -/
def opWritesSt (op : Nat) : Bool :=
  op ∈ [0x05, 0x06, 0x50, 0x51, 0x52, 0x53, 0x60, 0x61, 0x62, 0x73, 0x74, 0x80, 0x81]

/-- R482: the sample record of an instruction that completes now. -/
def State.sampleBytes (s : State) (x : Pkt) (op addr : Nat) : List Byte :=
  toLE 1 (x.loom + x.shed * 16 + b2n x.pick.bank * 64 + b2n x.pick.pick2 * 128) ++ toLE 1 op ++
    toLE 1 (if opWritesSt op then x.pick.st.toNat % 256 else 255) ++ toLE 1 x.profile ++
    toLE 2 x.pick.pc ++ toLE 2 (min 65535 (s.now - x.pick.issueNs)) ++
    toLE 4 (min (2 ^ 32 - 1) (s.now - x.pick.startNs)) ++ toLE 4 x.flowHash.toNat ++ toLE 8 addr ++
    toLE 8 (s.timeWordOf (s.fld Reg.glassSmpCtl Fld.glassSmpCtlDomain)).toNat

/-- R481: counts a completed instruction toward the next sample of its loom. -/
def State.sampleTick (s : State) (x : Pkt) (op addr : Nat) : State :=
  let c := Reg.glassSmpCtl
  let g := s.fld c Fld.glassSmpCtlGroup
  let n := x.loom
  if s.flag c Fld.glassSmpCtlEnable ∧ (s.fld c Fld.glassSmpCtlLooms).testBit n ∧
      (g = 0 ∨ 8 < g ∨ g = opGroup op) ∧ s.fld c Fld.glassSmpCtlLatMin ≤ s.now - x.pick.issueNs then
    let period := max 1 (s.fld c Fld.glassSmpCtlPeriod)
    let draws := Tbl.get (Tbl.const 0) s.glass.draws n
    let left := Tbl.get (Tbl.const 0) s.glass.countdown n
    let (left, s) :=
      if left = 0 then
        (max 1 (period / 2 + Config.sampleDraw n draws % period),
          { s with glass := { s.glass with draws := Tbl.set (Tbl.const 0) s.glass.draws n (draws + 1) } })
      else (left, s)
    let s := { s with glass := { s.glass with
      countdown := Tbl.set (Tbl.const 0) s.glass.countdown n (left - 1) } }
    if left = 1 then
      let held := Tbl.get (Tbl.const []) s.glass.due n
      if held.length < 4 then
        { s with glass := { s.glass with
          due := Tbl.set (Tbl.const []) s.glass.due n (held ++ [{ bytes := s.sampleBytes x op addr }]) } }
      else s.incF Reg.glassSmpStat Fld.glassSmpStatSkipped
    else s
  else s

/-! ## The end of a pick (R76) -/

/-- R148, R156: a pin of a line goes; a detached line goes with its last pin. -/
def State.unpin (s : State) (l : Nat) (recirc : Bool) : State :=
  match s.line l with
  | none => s
  | some c =>
    if c.detached ∧ c.pins ≤ 1 then s.freeLine l
    else s.setLine l (some { c with pins := c.pins - 1, recPins := c.recPins - b2n recirc })

/-- Frees the line a pick reserved and did not use (R150 step 7). -/
def State.freeSpare (s : State) (x : Pkt) : State :=
  match x.pick.spare with
  | some l => s.freeLine l
  | none => s

/-- R263: the rewrite source of a pick. -/
def State.rewriteSrc (s : State) (x : Pkt) : Option Word :=
  let cached := match x.pick.held with
    | none => none
    | some h => (s.line h.line).map fun (c : CLine) => BitVec.ofNat 64 (hget c.head 32 4)
  match cached with
  | some r => if r.getLsbD 14 then some r else x.pick.nextHop
  | none => x.pick.nextHop

/-- R263: the next hop's addresses written into a frame forwarded to port `p`. -/
def State.macRewrite (s : State) (x : Pkt) (p : Nat) (f : List Byte) : List Byte :=
  match s.rewriteSrc x with
  | none => f
  | some r =>
    let a := 0x20A00000 + 16 * bitsOf r.toNat 31 16
    if bitsOf r.toNat 9 0 ≠ p ∨ !(s.pbyte x.pick.seq (a + 1)).getLsbD 7 then f
    else patch f 0 (s.pbytes x.pick.seq (a + 2) 12)

/-- R263: the rewrite of a unicast disposition. -/
def State.rewriteFor (s : State) (x : Pkt) : Pkt :=
  match x.pick.disp with
  | .unicast p _ => { x with frame := s.macRewrite x p x.frame }
  | _ => x

/-- The packet after its pick: write-back, edit and rewrite (R41, R76, R189, R263). -/
def State.finishFrame (s : State) (x : Pkt) : Except Fault Pkt :=
  match x.pick.disp with
  | .punt _ _ => .ok x.writeBack
  | .unicast _ _ | .multicast _ _ | .recirc =>
    let y := x.writeBack
    if x.pick.editSet then
      match s.applyEdit x.pick.seq y with
      | .error e => .error e
      | .ok f =>
        let applied := bitsOf (y.user.toNat / 2 ^ 192) 63 60 != 0
        .ok (s.rewriteFor { y with frame := f, everEdit := y.everEdit || applied, lastEdit := applied })
    else .ok (s.rewriteFor { y with lastEdit := false })
  | _ => .ok x

/-- R34: a first pick that made no flow lookup counts as a hit. -/
def State.countNoLookup (s : State) (x : Pkt) : State :=
  if x.pick.pick2 ∨ x.pick.looked then s else s.cntShared 0

/-- R61: a unicast disposition. -/
def Disp.isUnicast : Disp → Bool
  | .unicast _ _ => true
  | _ => false

/-- R382: the time action word of a packet whose pick has ended, where the action is to be taken. -/
def timeAction (y : Pkt) : Option Word :=
  if y.pick.timeSet && !y.everEdit && y.pick.disp.isUnicast then some (y.user.extractLsb' 128 64) else none

/-- R76: the pick of packet `p` ends with the disposition it holds. -/
def State.endPick (s : State) (p : Nat) : Except Fault State :=
  match s.pkt? p with
  | none => .ok s
  | some x0 =>
    let disp := if x0.pick.disp = .none then Disp.drop 49 else x0.pick.disp
    let x := { x0 with pick := { x0.pick with disp := disp } }
    match s.finishFrame x with
    | .error e => .error e
    | .ok y =>
      let s := (s.countNoLookup x).freeSpare x
      -- step 2: the head, and on a second pick the head its first pick kept
      let s := match x.kept with
        | some h => if x.pick.pick2 then s.unpin h.line true else s
        | none => s
      let isRecirc := disp = .recirc
      let s := match x.pick.held with
        | none => s
        | some h =>
          if isRecirc then s.updLine h.line fun c => { c with recPins := c.recPins + 1 }
          else s.unpin h.line false
      let s := if isRecirc then s else s.returnResv x.loom x.resv
      let y := { y with
        place := .handed
        kept := if isRecirc then x.pick.held else none
        resv := if isRecirc then x.resv else 0
        timeAct := timeAction y
        pick := { y.pick with
          held := none, spare := none, wait := .none
          stampReq := if disp.isUnicast then y.pick.stampReq else [] } }
      match disp with
      | .drop c => .ok ((s.cntLoom x.loom c).setPkt p none)
      | .recirc => .ok (if s.heldBack p y then s.setPkt p (some y) else s.storeRecirc p y)
      | _ => .ok (s.setPkt p (some y))

/-- The pick ends with a drop of its own, which replaces every disposition it set (R50, R48, R69). -/
def State.endPickDrop (s : State) (p code : Nat) : Except Fault State :=
  (s.updPkt p fun x => { x with pick := { x.pick with disp := .drop code } }).endPick p

/-! ## Instructions -/

/-- What a draft instruction does. -/
inductive PickRes where
  /-- It does not complete yet. -/
  | wait (s : State)
  /-- It completes; the address field of a sample (R482). -/
  | done (s : State) (addr : Nat)
  /-- A taken branch. -/
  | jump (s : State) (d : Int)
  /-- BR END. -/
  | stop (s : State)
  /-- An opcode excluded from drafts (R48). -/
  | illegal
  | undef (n : Nat)

/-- R472, R478, R481: what counts a completed draft instruction. -/
def State.countInstr (s : State) (p op addr : Nat) : State :=
  match s.pkt? p with
  | none => s
  | some x =>
    let s := s.cntLoom x.loom 66
    let s := s.event { kind := 2, weight := 1, priv := 0, master := .loom x.loom, addr := none, cls := some x.profile }
    let s := s.sampleTick x op addr
    s.updPkt p fun x => { x with pick := { x.pick with icount := x.pick.icount + 1, issueNs := s.now } }

/-- R50, R70: execution goes on at word `pc`, or the pick ends past the last word. -/
def State.goPick (s : State) (p pc : Nat) : Except Fault State :=
  match s.pkt? p with
  | none => .ok s
  | some x =>
    if s.draftLen x.pick.seq x.pick.bank ≤ pc then s.endPick p
    else .ok (s.setPkt p (some { x with pick := { x.pick with pc := pc } }))

/-- An instruction of the pick of `p` completes and passes on to the next word. -/
def State.nextPick (s : State) (p op addr : Nat) : Except Fault State :=
  match s.pkt? p with
  | none => .ok s
  | some x => (s.countInstr p op addr).goPick p (x.pick.pc + 1)

/-- R50: runs a draft instruction `f` with opcode `op` in the pick of `p`. A pick that waits, or has not
started, executes nothing (DESIGN CHOICE, log entry 11). The budget is tested before the word is decoded. -/
def runPick (p op : Nat) (f : Pkt → State → PickRes) (s : State) : Out :=
  match s.pkt? p with
  | none => .next s
  | some x =>
    if x.place ≠ .running ∨ x.pick.wait ≠ .none ∨ s.halted = true then .next s
    else if 24 ≤ x.pick.icount then toOut (s.endPickDrop p 48)
    else
      match f x s with
      | .wait s => .next s
      | .done s addr => toOut (s.nextPick p op addr)
      | .jump s' d =>
        if d ≤ 0 then toOut (s.endPickDrop p 48)
        else toOut ((s'.countInstr p op 0).goPick p (x.pick.pc + d.toNat))
      | .stop s => toOut ((s.countInstr p op 0).endPick p)
      | .illegal => toOut (s.endPickDrop p 50)
      | .undef n => ub n

/-- The common case: the instruction changes only its packet. -/
def pickPure (p op : Nat) (f : Pkt → Pkt) (s : State) : Out :=
  runPick p op (fun x s => .done (s.setPkt p (some (f x))) 0) s

/-! ## Control threads -/

/-- R411: the pc of a task lies inside its program. -/
def State.inProgram (s : State) (k pc : Nat) : Bool :=
  let w := (s.taskWord k 0).toNat
  bitsOf w 63 46 ≤ pc && pc < bitsOf w 63 46 + bitsOf w 45 28

/-- R48: the task stops before the instruction takes effect, and an ILLEGAL_OP record goes out. -/
def State.illegalTask (s : State) (k : Nat) : State :=
  let pc := (s.task k).pc
  let s := (s.leaveCtx k).updTask k fun t => { t with st := .stopped, wait := .none }
  (s.setF Reg.spinErr Fld.spinErrIllegal 1).post 3 2 (toLE 2 k ++ toLE 6 0 ++ toLE 8 pc)

/-- What a thread's instruction does. -/
inductive TaskRes where
  /-- It completes and passes on to the next word. -/
  | done (s : State)
  /-- A taken branch to a word. -/
  | jump (s : State) (pc : Nat)
  /-- It waits, ends the activation or gives up the context: the state is complete. -/
  | keep (s : State)
  /-- It does not complete yet: an access of it waits (R360). -/
  | hold (s : State)
  /-- An opcode excluded from threads. -/
  | illegal
  | undef (n : Nat)

/-- R478: counts a completed instruction of task `k`, which began it as `t`, and runs its microcode. -/
def State.countThread (s : State) (k : Nat) (t : Task) (op : Nat) (w : IWord) : State :=
  (s.event { kind := 2, weight := 1, priv := 1, master := .task k, addr := none, cls := none }).microcode k t op w

/-- R444: an instruction that waits is kept, since its sequence restarts when it resumes. -/
def State.noteWait (s : State) (k op : Nat) (w : IWord) : State :=
  if (s.task k).st = .blocked then s.updTask k fun t => { t with resume := some (op, w) } else s

/-- Runs an instruction `f` in control thread `k`: it must be RUNNING, not in a wait (DESIGN CHOICE, log entry 11), and
with no load outstanding (R418).
A pc outside the program, and a branch to a word outside it, are handled as an undefined opcode
(R55, R411). `op` and `w` are its opcode and fields. -/
def runTask (k op : Nat) (w : IWord) (f : Task → State → TaskRes) (s : State) : Out :=
  let t := s.task k
  if t.st ≠ .running ∨ t.wait ≠ .none ∨ t.load ≠ none ∨ s.halted = true then .next s
  else if !s.inProgram k t.pc then .next (s.illegalTask k)
  else
    match f t s with
    | .done s => .next ((s.countThread k t op w).updTask k fun t => t.step)
    | .jump s' pc =>
      if !s.inProgram k pc then .next (s.illegalTask k)
      else .next ((s'.countThread k t op w).updTask k fun t => { t with pc := pc, loops := branchOut t.loops pc })
    | .keep s => .next ((s.countThread k t op w).noteWait k op w)
    | .hold s => .next s
    | .illegal => .next (s.illegalTask k)
    | .undef n => ub n

/-- The common case: the instruction changes only its task. -/
def taskPure (k op : Nat) (w : IWord) (f : Task → Task) (s : State) : Out :=
  runTask k op w (fun t s => .done (s.setTask k (f t))) s

/-- An instruction that threads may not execute. -/
def taskIllegal (k : Nat) (s : State) : Out := runTask k 0 (IWord.ofWord 0) (fun _ _ => .illegal) s

/-- An instruction that drafts may not execute. -/
def pickIllegal (p op : Nat) (s : State) : Out := runPick p op (fun _ _ => .illegal) s

end Sys2Proof.Machine
end

