-- ==== Sys2Proof/Machine/RegOps.lean ====
section
/-! DEFINITION. The plain effect of a write on a register, by its access codes (R12, R14), and pending
WS stages. The behaviours of registers that do something stand with their blocks. -/

namespace Sys2Proof.Machine

/-- The pending WS stage of the register at `a`: mask and value. -/
def State.pendingWs (s : State) (a : Nat) : Word × Word := Tbl.get (Tbl.const (0, 0)) s.ws a

/-- Stores the pending WS stage of a register. -/
def State.setWs (s : State) (a : Nat) (v : Word × Word) : State :=
  { s with ws := Tbl.set (Tbl.const (0, 0)) s.ws a v }

/-- R437: RING_0's PROD is the host's and its CONS the device's; of the other rings it is the other
way round. -/
def ringMask (a : Nat) (rw : Nat) : Nat :=
  if a = Reg.ringProd 0 then 0xFFFFFFFF
  else if a = Reg.ringCons 0 then 0
  else if a = Reg.ringProd 1 ∨ a = Reg.ringProd 2 ∨ a = Reg.ringProd 3 then 0
  else if a = Reg.ringCons 1 ∨ a = Reg.ringCons 2 ∨ a = Reg.ringCons 3 then 0xFFFFFFFF
  else rw

/-- The bits of the register at `a` that a write sets: RW. -/
def rwMask (a : Nat) : Word :=
  match regDesc? a with
  | none => 0
  | some d => BitVec.ofNat 64 (ringMask a d.rw)

/-- The WS bits of the register at `a`. -/
def wsMask (a : Nat) : Word :=
  match regDesc? a with
  | none => 0
  | some d => BitVec.ofNat 64 d.ws

/-- The W1C bits of the register at `a`. -/
def w1cMask (a : Nat) : Word :=
  match regDesc? a with
  | none => 0
  | some d => BitVec.ofNat 64 d.w1c

/-- R12: the plain effect of writing `v`, in the bits of `en`, to the register at `a`: RW bits take it,
W1C bits written 1 clear, WS bits wait for a batten, and all others ignore it. -/
def State.plainWrite (s : State) (a : Nat) (v en : Word) : State :=
  let old := s.rd a
  let s := s.wr a (mergeMask (rwMask a &&& en) v old &&& ~~~ (v &&& en &&& w1cMask a))
  let m := wsMask a &&& en
  if m = 0 then s
  else
    let p := s.pendingWs a
    s.setWs a (p.1 ||| m, mergeMask m v p.2)

/-- The bits a write of a register actually carries. -/
def State.written (s : State) (a : Nat) (f : Fld) (v en : Word) : Nat :=
  f.get (mergeMask en v (s.rd a))

/-- A write-only bit is written 1. -/
def wroteOne (f : Fld) (v en : Word) : Bool := f.get (v &&& en) != 0

end Sys2Proof.Machine
end

