-- ==== Sys2Proof/Machine/Tension.lean ====
section
/-! DEFINITION. The Tension: targets, the voltage loop, AVSBus, the thermal limits and loom gating
(R451 to R469). Voltages are in units of 0.1 mV; rates in units of 1 ÷ 2,352,000,000 G picks/s, in which
the demand of R454 is exact. -/

namespace Sys2Proof.Machine

/-! ## Targets (R451, R454) -/

/-- R318: the rate of a SPEED code in Gb/s. -/
def gbps (speed : Nat) : Nat :=
  match speed with
  | 0 => 10
  | 1 => 25
  | 2 => 50
  | 3 => 100
  | 4 => 200
  | 5 => 400
  | 6 => 800
  | _ => 1600

/-- R454: the rate of the enabled front ports of loom `n` in Gb/s. -/
def State.loomGbps (s : State) (n : Nat) : Nat :=
  ((List.range 32).map fun i =>
    if s.flag (portCfg (32 * n + i)) Fld.selvPortCfgEnable then
      gbps (s.fld (portCfg (32 * n + i)) Fld.selvPortCfgSpeed) else 0).sum

/-- R454: 1,000 + MARGIN, clamped. -/
def State.margin (s : State) : Nat := 1000 + min 120 (max 60 (s.fld Reg.tensionCtl Fld.tensionCtlMargin))

/-- R454: the target T of loom `n`. -/
def State.target (s : State) (n : Nat) : Nat :=
  (if s.profile = 3 then max (s.loomGbps n * 1000) (1450 * 2352) else 2721 * 2352) * s.margin

/-- R454: the voltage floor. -/
def State.vmin (s : State) : Nat := if s.profile = 3 then 5500 else 6000

/-- R463: loom `n` is ACTIVE. -/
def State.loomActive (s : State) (n : Nat) : Bool := s.fld (Reg.tensionLoom n) Fld.tensionLoomState == 0

/-- R451: the voltages of the table, in mV. -/
def speedV : List Nat := [550, 600, 650, 700, 720, 760, 820]
/-- R451: its junction temperatures, in °C. -/
def speedT : List Nat := [0, 25, 55, 85, 105]
/-- R451: its rates, in units of 0.01 G picks/s. -/
def speedR : List (List Nat) :=
  [[170, 182, 192, 198, 198], [205, 215, 223, 227, 225], [240, 248, 255, 257, 253], [272, 278, 282, 282, 276],
   [284, 289, 292, 290, 283], [308, 311, 312, 308, 299], [340, 341, 340, 333, 322]]

/-- The segment of a rising list that holds `x`: the last index but one at or below it. -/
def segment (l : List Nat) (x : Nat) : Nat :=
  min (l.length - 2) (((List.range l.length).filter fun i => decide (l.getD i 0 ≤ x)).length - 1)

/-- R451: the rate at `mv` and `t` (in 1/256 °C) reaches the target; temperatures outside the table are
taken at its edge. -/
def speedMeets (mv : Nat) (t : Int) (target : Nat) : Bool :=
  let tn := min (105 * 256) t.toNat
  let i := segment speedV mv
  let j := segment speedT (tn / 256)
  let v0 := speedV.getD i 0
  let v1 := speedV.getD (i + 1) 0
  let t0 := speedT.getD j 0 * 256
  let t1 := speedT.getD (j + 1) 0 * 256
  let r (a b : Nat) : Nat := (speedR.getD a []).getD b 0
  let row (a : Nat) : Nat := r a j * (t1 - tn) + r a (j + 1) * (tn - t0)
  let num := row i * (v1 - mv) + row (i + 1) * (mv - v0)
  decide (target * ((v1 - v0) * (t1 - t0)) ≤ num * 23520000)

/-- R456: VT in mV for a target at a temperature. -/
def directVolt (t : Int) (target : Nat) : Nat :=
  (((List.range 55).map fun k => 550 + 5 * k).find? fun v => speedMeets v t target).getD 820

/-! ## Commands on AVSBus (R455 to R460) -/

/-- R455, R522: ns in which the regulator makes a step of `d`: at its slowest (DESIGN CHOICE, log entry 112), 5 mV/µs,
and 1 µs for a step of up to 5 mV. -/
def slewNs (d : Nat) : Nat := 1000 * max 1 (ceilDiv d 50)

/-- R459: the Tension issues no voltage command: TENSION_AVS is not written, no response comes, or the trip has acted. -/
def State.avsSilent (s : State) : Bool := !s.tension.avs || s.tension.avsFail || s.tension.tripped

/-- R459: the regulator takes a command of VDD_LOOM; windows in a row are counted anew (R455). -/
def State.vAccept (s : State) (v : Nat) : State :=
  let d := if s.tension.vdd ≤ v then v - s.tension.vdd else s.tension.vdd - v
  let s := { s with tension := { s.tension with vdd := v, above := 0, reachAt := s.now + slewNs d } }
  (s.setF Reg.tensionStat Fld.tensionStatVcmd (v / 10)).setF Reg.tensionStat Fld.tensionStatCeiling (b2n (v == 8200))

/-- R459: no valid response after three tries. -/
def State.avsLost (s : State) : State :=
  ({ s with tension := { s.tension with avsFail := true } }).err Reg.tensionErr Fld.tensionErrAvs.lo

/-- R459: commands VDD_LOOM where commands are issued; `ok`: the command draws a valid response. -/
def State.vTry (s : State) (ok : Bool) (v : Nat) : State :=
  if s.avsSilent then s else if ok then s.vAccept v else s.avsLost

/-- R459: a command of VDD_LOOM that follows a write; whether the regulator answers is the board's. -/
def State.vCommand (s : State) (v : Nat) : State := s.vTry (Config.avsAnswers s.now) v

/-- R460, R466: VMAN. -/
def State.vman (s : State) : Nat := min 8200 (max 5500 (10 * s.fld Reg.tensionCtl Fld.tensionCtlVman))

/-- R460, R465: with the loop disabled, and no brake or return from one, VDD_LOOM is held at VMAN. -/
def State.holdVman (s : State) : State :=
  if s.flag Reg.tensionCtl Fld.tensionCtlEnable ∨ s.tension.brake = true ∨ s.tension.ramp = true then s
  else s.vCommand s.vman

/-- R469: DEMAND of loom `n` is its D, in M picks/s. -/
def State.publishDemand (s : State) (n : Nat) : State :=
  s.setF (Reg.tensionLoom n) Fld.tensionLoomDemand (s.loomGbps n * 1000 / 2352)

/-- R453, R469: TARGET and DEMAND of loom `n` as the Tension now has them, in M picks/s. -/
def State.publishTarget (s : State) (n : Nat) : State :=
  (s.setF (Reg.tensionLoom n) Fld.tensionLoomTarget (s.target n / 2352000)).publishDemand n

/-- R456: the direct step for a target that rises. -/
def State.directStep (s : State) (target : Nat) : State :=
  let vt := 10 * directVolt (s.sfld Reg.tensionTemp Fld.tensionTempTj) target
  if s.flag Reg.tensionCtl Fld.tensionCtlEnable ∧ s.tension.brake = false ∧ s.tension.vdd < vt then s.vCommand vt
  else s

/-- R456, R458: a port of loom `n`, whose target was `old`, has been enabled. -/
def State.portEnabledStep (s : State) (n old : Nat) : State :=
  let s := s.publishTarget n
  if old < s.target n ∧ s.loomActive n then s.directStep (s.target n) else s

/-- R463: loom `n` begins to wake. The monitor of a loom that was off has no reading yet. -/
def State.loomWake (s : State) (n : Nat) : State :=
  let a := Reg.tensionLoom n
  let s := if s.fld a Fld.tensionLoomState = 2 then s.setF a Fld.tensionLoomNatRate 0 else s
  s.setF a Fld.tensionLoomState 3

/-- R462, R463: the profile has left W3: gated looms wake, and T rises to the line-rate target. -/
def State.leaveW3 (s : State) : State :=
  let s := (List.range 16).foldl (fun (s : State) n =>
    let s := if s.loomActive n then s else s.loomWake n
    s.publishTarget n) s
  s.directStep (s.target 0)

/-! ## The loop (R455) -/

/-- R455: of two looms with their readings, the one with the lower NAT_RATE ÷ T; the first of equals. -/
def slower (s : State) (a b : Nat × Nat) : Nat × Nat := if b.2 * s.target a.1 < a.2 * s.target b.1 then b else a

/-- R455: windows in a row above the upper bound. -/
def State.setAbove (s : State) (n : Nat) : State := { s with tension := { s.tension with above := n } }

/-- R453: the readings of the monitors of the looms that have power. -/
def State.readMonitors (s : State) (rate : Nat → Nat) : State :=
  ((List.range 16).filter fun n => s.fld (Reg.tensionLoom n) Fld.tensionLoomState != 2).foldl (fun (s : State) n =>
    (s.publishTarget n).setF (Reg.tensionLoom n) Fld.tensionLoomNatRate (rate n)) s

/-- R455: the decision of the loop on the reading `rate` of loom `n`, the slowest; a command draws a response as `resp`
says. The voltage last commanded must have been reached before the window ended (step 5). -/
def State.loopDecide (s : State) (n rate : Nat) (resp : Bool) : State :=
  let t := s.target n
  let r := rate * 2352000
  let above := if 102 * t < 100 * r then s.tension.above + 1 else 0
  if s.now ≤ s.tension.reachAt then s
  else
    let s := s.setAbove (if 100 ≤ above then 0 else above)
    if !s.flag Reg.tensionCtl Fld.tensionCtlEnable ∨ s.tension.brake = true then s
    else if r < t then (if s.tension.vdd < 8200 then s.vTry resp (min 8200 (s.tension.vdd + 50)) else s)
    else if 100 ≤ above ∧ s.vmin < s.tension.vdd then s.vTry resp (max s.vmin (s.tension.vdd - 25))
    else s

/-- RATE_WINDOW: the monitors complete a window with these readings, in M picks/s, and the loop decides. -/
def execRateWindow (r : RateReport) (s : State) : Out :=
  if s.halted then .next s
  else
    let rate (n : Nat) : Nat := (r.rates.getD n 0).toNat
    let s := s.readMonitors rate
    match ((List.range 16).filter s.loomActive).map fun n => (n, rate n) with
    | [] => .next s
    | e :: es =>
      let w := es.foldl (slower s) e
      .next ((s.setF Reg.tensionStat Fld.tensionStatSlowest w.1).loopDecide w.1 w.2 r.resp)

/-! ## AVSBus -/

/-- R459, R460: a write of TENSION_AVS. -/
def State.avsWrite (s : State) (v en : Word) : State :=
  let s := s.plainWrite Reg.tensionAvs v en
  if s.tension.avs then s else ({ s with tension := { s.tension with avs := true } }).holdVman

/-- AVS_START: a write of TENSION_AVS. -/
def execAvsStart (v : Word) (s : State) : Out :=
  s.byWrite Reg.tensionAvs (.ok (s.avsWrite v (BitVec.allOnes 64)))

/-- R459, R460: a valid response: commands resume. -/
def State.avsBack (s : State) : State :=
  if s.tension.avsFail then ({ s with tension := { s.tension with avsFail := false } }).holdVman else s

/-- AVS_READ: the reading of each millisecond: mV, mA, and whether a response was valid. -/
def execAvsRead (mv : BitVec 10) (ma : BitVec 32) (ok : Bool) (s : State) : Out :=
  if !s.tension.avs then .next s
  else if !ok then .next s.avsLost
  else .next ((s.avsBack.setF Reg.tensionStat Fld.tensionStatVout mv.toNat).setF Reg.tensionStat
    Fld.tensionStatPower (mv.toNat * ma.toNat / 1000000))

/-- AVS_RETRY: the retry of each 10 ms while no response is valid. -/
def execAvsRetry (ok : Bool) (s : State) : Out :=
  if s.tension.avs && s.tension.avsFail && ok then .next s.avsBack else .next s

/-- R460, R465, R466: a write of TENSION_CTL: VMAN is commanded when it is written and when the loop is disabled; the
return from a brake ends when the loop is enabled or VMAN is written. -/
def State.tensionCtlWrite (s : State) (v en : Word) : State :=
  let was := s.flag Reg.tensionCtl Fld.tensionCtlEnable
  let s := s.plainWrite Reg.tensionCtl v en
  let on := s.flag Reg.tensionCtl Fld.tensionCtlEnable
  if on ∨ was = true ∨ Fld.tensionCtlVman.get en ≠ 0 then
    { s with tension := { s.tension with ramp := false } }.holdVman
  else s

/-! ## Thermal limits (R465) -/

/-- R465: whole milliseconds since the brake or the ramp last moved the voltage. -/
def State.brakeMs (s : State) : Nat := (s.now - s.tension.brakeAt) / 1000000

/-- R465: the brake lowers VDD_LOOM by 10 mV a ms; `k` steps. -/
def State.brakeStep (s : State) (ok : Bool) (k : Nat) : State :=
  if s.vmin < s.tension.vdd ∧ k ≠ 0 then s.vTry ok (max s.vmin (s.tension.vdd - 100 * k)) else s

/-- R465: after the brake, VDD_LOOM returns to VMAN by 5 mV a ms; `k` steps. -/
def State.rampStep (s : State) (ok : Bool) (k : Nat) : State :=
  let v := s.tension.vdd
  let s := s.vTry ok (if v < s.vman then min s.vman (v + 50 * k) else max s.vman (v - 50 * k))
  if s.tension.vdd = s.vman then { s with tension := { s.tension with ramp := false } } else s

/-- Notes the moment of a step of the brake or the ramp. -/
def State.brakeMark (s : State) (k : Nat) : State :=
  { s with tension := { s.tension with brakeAt := s.tension.brakeAt + k * 1000000 } }

/-- R465: what the brake does at a reading of `tj`; a command draws a response as `ok` says. -/
def State.brakeAct (s : State) (ok : Bool) (tj : Int) : State :=
  if 110 * 256 ≤ tj then
    let s := { s with tension := { s.tension with braked := true } }.err Reg.tensionErr Fld.tensionErrBrake.lo
    if !s.tension.avs then s
    else if s.tension.brake then (s.brakeStep ok s.brakeMs).brakeMark s.brakeMs
    else { s with tension := { s.tension with brake := true, ramp := false, brakeAt := s.now } }.brakeStep ok 1
  else if s.tension.brake then
    if tj < 108 * 256 then
      let e := s.flag Reg.tensionCtl Fld.tensionCtlEnable
      { s with tension := { s.tension with brake := false, ramp := !e, brakeAt := s.now } }
    else (s.brakeStep ok s.brakeMs).brakeMark s.brakeMs
  else if s.tension.ramp then (s.rampStep ok s.brakeMs).brakeMark s.brakeMs
  else s

/-- R465, R528: the trip; its command draws a response as `ok` says. -/
def State.trip (s : State) (ok : Bool) : State :=
  let s := s.vTry ok 0
  { s with tension := { s.tension with tripped := true }, pins := { s.pins with thermTrip := true } }

/-- TJ_SAMPLE: the reading of each 100 µs: the hottest sensor, in 1/256 °C. -/
def execTjSample (tj : BitVec 16) (r : TjReport) (s : State) : Out :=
  if !s.boot.powered || s.boot.inReset || s.tension.tripped then .next s
  else
    let t := tj.toInt
    let s := (s.setF Reg.tensionTemp Fld.tensionTempTj tj.toNat).setF Reg.tensionTemp Fld.tensionTempSensor r.sensor.val
    let s := if 256 * (s.fld Reg.tensionTemp Fld.tensionTempWarn : Int) ≤ t then
      s.err Reg.tensionErr Fld.tensionErrHot.lo else s
    let s := if t < 0 then s.err Reg.tensionErr Fld.tensionErrCold.lo else s
    let s := s.brakeAct r.resp t
    .next (if 125 * 256 ≤ t then s.trip r.resp else s)

/-! ## Loom gating (R463) -/

/-- R463, R469: a write of TENSION_LOOM_n. -/
def State.loomWrite (s : State) (n : Nat) (v en : Word) : State :=
  let a := Reg.tensionLoom n
  if Fld.tensionLoomGate.get en = 0 then s
  else if wroteOne Fld.tensionLoomGate v en then
    if s.profile ≠ 3 then s.err Reg.tensionErr Fld.tensionErrGateRefused.lo
    else
      let st := s.fld a Fld.tensionLoomState
      let s := s.setF a Fld.tensionLoomGate 1
      if st = 2 then s else s.setF a Fld.tensionLoomState 1
  else
    let s := s.setF a Fld.tensionLoomGate 0
    if s.loomActive n then s
    else ((s.loomWake n).publishTarget n).directStep (s.target n)

/-- LOOM_GATE: a write of TENSION_LOOM_n. -/
def execLoomGate (n : LoomId) (v : Word) (s : State) : Out :=
  s.byWrite (Reg.tensionLoom n.val) (.ok (s.loomWrite n.val v (BitVec.allOnes 64)))

/-- R463: GATING may end: the loom's ports are disabled, its bank holds no cell, no pick is in progress. -/
def State.loomQuiet (s : State) (n : Nat) : Bool :=
  ((List.range 32).all fun i => !s.flag (portCfg (32 * n + i)) Fld.selvPortCfgEnable) && s.bankUsed n == 0 &&
    s.pkts.all fun e => match e.2 with
      | some x => x.loom != n || !(x.place == .running || x.place == .shedInput)
      | none => true

/-- LOOM_GATED: the condition of GATING holds. -/
def execLoomGated (n : LoomId) (s : State) : Out := unlessHalted s <|
  let a := Reg.tensionLoom n.val
  if s.fld a Fld.tensionLoomState = 1 ∧ s.loomQuiet n.val then .next (s.setF a Fld.tensionLoomState 2)
  else .next s

/-- LOOM_ACTIVE: waking ends, when the rate monitor confirms the target. -/
def execLoomActive (n : LoomId) (s : State) : Out := unlessHalted s <|
  let a := Reg.tensionLoom n.val
  if s.fld a Fld.tensionLoomState = 3 ∧ s.target n.val ≤ s.fld a Fld.tensionLoomNatRate * 2352000 then
    .next (s.setF a Fld.tensionLoomState 0)
  else .next s

end Sys2Proof.Machine
end

