-- ==== Sys2Proof/Machine/BeamAdmit.lean ====
section
/-! DEFINITION. Admission to the Beam: verdicts, charging, multicast, residue, punts, copies withdrawn, and
uncorrectable cells (R287 to R292, R298 to R304). -/

namespace Sys2Proof.Machine

/-! ## Queues and their configuration -/

/-- R308: word 0 of the configuration of queue `i`. -/
def State.qcfg0 (s : State) (i : Nat) : Nat := s.le (0x31800000 + 16 * i) 8
/-- R308: word 1. -/
def State.qcfg1 (s : State) (i : Nat) : Nat := s.le (0x31800008 + 16 * i) 8

/-- R288: the port of a unicast or multicast queue. -/
def queuePort (i : Nat) : Nat := if i < 8192 then i / 16 else (i - 8192) / 4

/-- R297: the 20 queues of a port. -/
def portQueues (p : Nat) : List Nat :=
  ((List.range 16).map fun j => 16 * p + j) ++ (List.range 4).map fun j => 8192 + 4 * p + j

/-- R308: PFC_CLASS of queue `i`. -/
def State.qClass (s : State) (i : Nat) : Nat := bitsOf (s.qcfg0 i) 42 40

/-- R288: cells in queue `i`, residue and called packets aside. -/
def State.depth (s : State) (i : Nat) : Nat := copyCells (s.queue i)

/-- R303: port `p` is down. -/
def State.portIsDown (s : State) (p : Nat) : Bool := !s.flag (Reg.beamPort p) Fld.beamPortLink

/-- R318: the rate of port `p` in Gb/s. -/
def State.portGbps (s : State) (p : Nat) : Nat := gbps (s.fld (portCfg p) Fld.selvPortCfgSpeed)

/-- R288: the copy of a packet in queue `i` is lossless. -/
def State.lossless (s : State) (x : Pkt) (i : Nat) : Bool :=
  decide (i < 8192) && (s.qcfg0 i).testBit 43 && s.flag (Reg.beamPort (queuePort i)) Fld.beamPortPfcTxEn &&
    decide (x.inPort < 512) && !x.injected

/-- R292: the account of a lossless copy. -/
def State.acctFor (s : State) (x : Pkt) (i : Nat) : Nat := 8 * x.inPort + s.qClass i

/-- R289: the dynamic limit of queue `i`. -/
def State.dynLimit (s : State) (i : Nat) : Nat := s.sharedFree * 2 ^ bitsOf (s.qcfg0 i) 47 44 / 128

/-! ## The verdict of R288 -/

/-- What R288 decides: a pool, or a drop by the counter index of its reason (R472). -/
inductive Verdict where
  | taken (pool : Pool)
  | drop (r : Nat)
deriving DecidableEq, Repr

/-- R288: the first rule that applies to a copy of `n` cells; `room` takes the pool room as present
(R299). -/
def State.verdict (s : State) (x : Pkt) (i n : Nat) (room : Bool) : Verdict :=
  let p := queuePort i
  let d := s.depth i
  if s.portIsDown p && s.flag (Reg.beamPort p) Fld.beamPortDownMode then .drop 0
  else if d + n ≤ bitsOf (s.qcfg0 i) 63 48 ∧ (room = true ∨ n ≤ s.minFree) then .taken .minimum
  else if s.lossless x i then
    let a := s.acctFor x i
    let v := s.acct a
    let c := s.acctCfg a
    if v.shared < bitsOf c 63 44 ∧ n ≤ s.sharedFree then .taken .shared
    else if v.head + n ≤ bitsOf c 23 4 ∧ n ≤ s.headFree then .taken .headroom
    else .drop 2
  else if d + n ≤ s.dynLimit i ∧ (room = true ∨ n ≤ s.sharedFree) then .taken .shared
  else .drop 1

/-! ## Charging -/

/-- R292: an account whose shared use reaches XOFF pauses its class. -/
def State.acctXoff (s : State) (a : Nat) : State :=
  let v := s.acct a
  if !v.xoff ∧ bitsOf (s.acctCfg a) 63 44 ≤ v.shared ∧ s.flag (Reg.beamPort (a / 8)) Fld.beamPortPfcTxEn then
    (s.setAcct a { v with xoff := true }).askPfc (a / 8) none
  else s

/-- R285, R286: charges `n` cells of packet `p` to its bank, a pool and, of a lossless copy, an account. -/
def State.charge (s : State) (p n : Nat) (pool : Pool) (acct : Option Nat) : State :=
  match s.pkt? p with
  | none => s
  | some x =>
    let a := if pool = .minimum then none else acct
    let s := (s.addBank x.loom n).setPkt p (some { x with place := .stored, pool := some pool, acct := a, cells := n })
    let s := match pool with
      | .minimum => { s with beam := { s.beam with minUsed := s.beam.minUsed + n } }
      | .shared => { s with beam := { s.beam with sharedUsed := s.beam.sharedUsed + n } }
      | .headroom => { s with beam := { s.beam with headUsed := s.beam.headUsed + n } }
    match a with
    | none => s
    | some k =>
      let v := s.acct k
      (s.setAcct k (if pool = .headroom then { v with head := v.head + n } else { v with shared := v.shared + n })).acctXoff k

/-- R292: the account a copy counts in, if it is lossless. -/
def State.acctOf (s : State) (x : Pkt) (i : Nat) : Option Nat :=
  if s.lossless x i then some (s.acctFor x i) else none

/-! ## ECN (R291) -/

/-- R291: the frame of an ECN-capable packet marked CE; none where it is not ECN-capable. -/
def ecnMark (x : Pkt) : Option (List Byte) :=
  match (x.steps.filter fun st => st.lrole == 1 || st.lrole == 2).getLast? with
  | none => none
  | some st =>
    let b := beAt x.frame (st.base + 1) 1
    let hl := if st.lrole = 2 then 40 else max 20 (beAt x.frame st.base 1 % 16 * 4)
    if x.lastEdit ∨ 192 < st.base + hl ∨ x.len < st.base + hl + 4 then none
    else if st.lrole = 2 then
      if b / 16 % 4 = 1 ∨ b / 16 % 4 = 2 then
        some (patch x.frame (st.base + 1) [BitVec.ofNat 8 (b ||| 0x30)])
      else none
    else if b % 4 = 1 ∨ b % 4 = 2 then
      let old := slice x.frame st.base 2
      let f := patch x.frame (st.base + 1) [BitVec.ofNat 8 (b ||| 3)]
      some (patch f (st.base + 10) (toBE 2 (csumAdjust (beAt f (st.base + 10) 2) old (slice f st.base 2))))
    else none

/-! ## Drops and admission of one copy -/

/-- R386: the egress stamps a packet asked for that will not be taken. -/
def State.unsent (s : State) (x : Pkt) : State :=
  match x.pick.disp with
  | .unicast port _ =>
    x.pick.stampReq.foldl (fun (s : State) (r : Nat × Nat) =>
      if (s.fld (Reg.timePort port) Fld.timePortDomMask).testBit r.1 then
        s.incF (Reg.timeTxqStat r.1) Fld.timeTxqStatUnsent
      else s) s
  | _ => s

/-- R290, R299: a copy of packet `p` for queue `i` is dropped for the reason of counter index `r`; reason
MC_COPY (4) counts at the port as well. -/
def State.dropCopy (s : State) (p i r : Nat) : State :=
  let s := s.cntQueue i r
  let s := if i < 8192 ∨ r ≠ 4 then s else s.cntPort (queuePort i) 16
  match s.pkt? p with
  | none => s
  | some x => if i < 8192 then s.unsent x else s

/-- R288, R291: a copy of packet `p` enters queue `i`. -/
def State.enqueue (s : State) (p i n : Nat) (cut : Bool) : State :=
  let d := s.depth i
  let s := match s.pkt? p with
    | none => s
    | some x =>
      if i < 8192 ∧ (s.qcfg0 i).testBit 36 ∧ bitsOf (s.qcfg0 i) 35 16 ≤ d then
        match ecnMark x with
        | none => s
        | some f => (s.cntQueue i 10).setPkt p (some { x with frame := f })
      else s
  ((s.setQueue i (s.queue i ++ [{ pkt := p, n := n, cut := cut }])).cntQueue i 8).cntQueue i 9 n

/-- R300: residue cells of all queues. -/
def State.residueCells (s : State) : Nat := (s.beam.residue.map fun e => copyCells e.2).sum

/-- R300: a copy of packet `p` is held as residue of queue `i`, or dropped; `r` is the reason it would
have outside marshal mode. -/
def State.holdResidue (s : State) (p i n r : Nat) (cut : Bool) : State :=
  match s.pkt? p with
  | none => s
  | some x =>
    let put (s : State) : State := (s.setResidue i (s.residue i ++ [{ pkt := p, n := n, cut := cut }])).updPkt p
      fun x => { x with refs := x.refs + 1 }
    let fresh := x.pool.isNone
    if fresh ∧ s.bankFree x.loom < n then s.dropCopy p i 3
    else if s.fld Reg.beamCtl Fld.beamCtlMarshalLimit < s.residueCells + n then
      (s.err Reg.beamErr Fld.beamErrMarshalFull.lo).dropCopy p i 5
    else if !fresh then put s
    else if n ≤ s.minFree then put (s.charge p n .minimum none)
    else if n ≤ s.sharedFree then put (s.charge p n .shared (s.acctOf x i))
    else s.dropCopy p i r

/-- R28: a copy for queue `i` is carried cut-through. -/
def State.cutThrough (s : State) (x : Pkt) (i : Nat) : Bool :=
  decide (x.inPort < 512) && !x.injected && !x.pick.pick2 && (s.queue i).isEmpty && (s.residue i).isEmpty &&
    decide (s.portGbps (queuePort i) ≤ s.portGbps x.inPort)

/-- R288, R299, R300: one copy of packet `p` is admitted to queue `i`, held as residue, or dropped. -/
def State.admitCopy (s : State) (p i : Nat) : State :=
  match s.pkt? p with
  | none => s
  | some x =>
    let n := cellsOf x.len
    let fresh := x.pool.isNone
    let cut := s.cutThrough x i
    let v := s.verdict x i n !fresh
    let r := match v with
      | .drop r => if i < 8192 then r else 4
      | .taken _ => if i < 8192 then 1 else 4
    if v = .drop 2 then (s.err Reg.beamErr Fld.beamErrHeadroom.lo).dropCopy p i 2
    else if s.residue i ≠ [] then s.holdResidue p i n r cut
    else
      match v with
      | .taken pool =>
        if fresh ∧ s.bankFree x.loom < n then s.dropCopy p i 3
        else
          let s := if fresh then s.charge p n pool (s.acctOf x i) else s
          (s.updPkt p fun x => { x with refs := x.refs + 1 }).enqueue p i n cut
      | .drop _ =>
        if s.flag Reg.beamCtl Fld.beamCtlMarshal then s.holdResidue p i n r cut else s.dropCopy p i r

/-- Removes a packet no copy of which is stored. -/
def State.endIfNone (s : State) (p : Nat) : State :=
  match s.pkt? p with
  | none => s
  | some x => if x.refs = 0 then s.setPkt p none else s

/-- R298: the ports that get a copy of a packet of group `g`. -/
def State.groupPorts (s : State) (x : Pkt) (g : Nat) : List Nat :=
  let seq := x.pick.seq
  let a := 0x31000000 + 128 * g
  let ctl := s.ple seq (a + 64) 8
  if !ctl.testBit 63 then []
  else (List.range 512).filter fun p =>
    (s.pbyte seq (a + p / 8)).getLsbD (p % 8) && s.flag (portCfg p) Fld.selvPortCfgEnable &&
      !(ctl.testBit 62 && p == x.inPort)

/-- R302: a punted copy is admitted to its loom's punt queue, or dropped. -/
def State.admitPunt (s : State) (p : Nat) (x : Pkt) : State :=
  let n := cellsOf x.len
  let i := puntQ x.loom
  if s.depth i + n ≤ s.fld Reg.beamPool Fld.beamPoolPuntLimit ∧ n ≤ s.sharedFree ∧ n ≤ s.bankFree x.loom then
    let s := (s.charge p n .shared none).updPkt p fun x => { x with refs := 1 }
    s.setQueue i (s.queue i ++ [{ pkt := p, n := n, cut := false }])
  else ((s.err Reg.beamErr Fld.beamErrPuntDrop.lo).cntLoom x.loom 67).setPkt p none

/-- R76, R288: the Beam takes packet `p` with the disposition it holds. -/
def State.settle (s : State) (p : Nat) : State :=
  match s.pkt? p with
  | none => s
  | some x =>
    match x.pick.disp with
    | .unicast port q => (s.admitCopy p (16 * port + q)).endIfNone p
    | .multicast g m =>
      match s.groupPorts x g with
      | [] => (s.cntLoom x.loom 69).setPkt p none
      | ports => (ports.foldl (fun s port => s.admitCopy p (8192 + 4 * port + m)) s).endIfNone p
    | .punt _ _ => s.admitPunt p x
    | .recirc => s.storeRecirc p x
    | .drop c => (s.cntLoom x.loom c).setPkt p none
    | .none => s

/-- BEAM_ADMIT: the shed releases packet `p` to the Beam in the order of R75. -/
def execBeamAdmit (p : PktId) (s : State) : Out :=
  match s.pkt? p with
  | none => .next s
  | some x => if s.halted = true ∨ x.place ≠ .handed ∨ s.heldBack p x then .next s else .next (s.settle p)

/-! ## Residue that enters its queue (R300) -/

/-- R300: the residue at the head of queue `i`, decided afresh: its verdict, and the state in which its
cells are charged to no pool where no other copy holds them. -/
def State.residueVerdict (s : State) (i : Nat) (c : Copy) (x : Pkt) : Verdict :=
  if x.refs = 1 then (s.freeCells x).verdict x i c.n false else s.verdict x i c.n true

/-- Charges the cells of packet `p` to another pool. -/
def State.recharge (s : State) (p i n : Nat) (x : Pkt) (pool : Pool) : State :=
  if x.refs ≠ 1 ∨ x.pool = some pool then s
  else (s.freeCells x).charge p n pool (s.acctOf x i)

/-- RESIDUE_ADMIT: the oldest residue of queue `q` enters it, if R288 takes it. -/
def execResidueAdmit (q : Fin 10240) (s : State) : Out := unlessHalted s <|
  match s.residue q.val with
  | [] => .next s
  | c :: rest =>
    match s.pkt? c.pkt with
    | none => .next (s.setResidue q.val rest)
    | some x =>
      match s.residueVerdict q.val c x with
      | .drop _ => .next s
      | .taken pool => .next (((s.setResidue q.val rest).recharge c.pkt q.val c.n x pool).enqueue c.pkt q.val c.n c.cut)

/-! ## Flushing (R304) -/

/-- R304: discards copies of queue `i`. -/
def State.discard (s : State) (i : Nat) (l : List Copy) : State :=
  l.foldl (fun (s : State) (c : Copy) =>
    let s := s.cntQueue i 6
    let s := match s.pkt? c.pkt with
      | some x => if i < 8192 then s.unsent x else s
      | none => s
    s.dropRef c.pkt) s

/-- R294: what an egress loom has called, in call order. -/
def State.called (s : State) (n : Nat) : List Called := Tbl.get (Tbl.const []) s.beam.called n

/-- Stores what an egress loom has called. -/
def State.setCalled (s : State) (n : Nat) (l : List Called) : State :=
  { s with beam := { s.beam with called := Tbl.set (Tbl.const []) s.beam.called n l } }

/-- R334: a called packet has left port `p`: its idle time begins anew. -/
def State.callGone (s : State) (p : Nat) : State := s.updPort p fun q => { q with idleAt := s.now }

/-- R304: what a flush of queue `i` discards: packets called whose transmission has not begun, the queue and its
residue. -/
def State.flushed (s : State) (i : Nat) : List Copy :=
  (((s.called (queuePort i / 32)).filter fun c => c.queue == i).map fun c => c.copy) ++ s.queue i ++ s.residue i

/-- R304: empties queue `i`. -/
def State.flushQueue (s : State) (i : Nat) : State :=
  let n := queuePort i / 32
  let l := s.flushed i
  let s := if (s.called n).any fun c => c.queue == i then
      (s.setCalled n ((s.called n).filter fun c => c.queue != i)).callGone (queuePort i)
    else s
  ((s.setQueue i []).setResidue i []).discard i l

/-- R314: a write of BEAM_FLUSH_CMD. -/
def State.flushWrite (s : State) (v en : Word) : State :=
  let s := s.plainWrite Reg.beamFlushCmd v en
  if !wroteOne Fld.beamFlushCmdGo v en then s
  else if s.flag Reg.beamFlushStat Fld.beamFlushStatBusy then s.setF Reg.beamFlushStat Fld.beamFlushStatIgnored 1
  else
    let q := s.fld Reg.beamFlushCmd Fld.beamFlushCmdQueue
    let qs := if 10240 ≤ q then []
      else if s.flag Reg.beamFlushCmd Fld.beamFlushCmdWholePort then portQueues (queuePort q) else [q]
    let n := (qs.map fun i => (s.flushed i).length).sum
    let s := qs.foldl (fun s i => s.flushQueue i) s
    (s.setF Reg.beamFlushStat Fld.beamFlushStatFlushed n).setF Reg.beamFlushStat Fld.beamFlushStatBusy 1

/-- QUEUE_FLUSH: a write of BEAM_FLUSH_CMD. A QUEUE above 10,239 names no queue: nothing is discarded. -/
def execQueueFlush (v : Word) (s : State) : Out :=
  s.byWrite Reg.beamFlushCmd (.ok (s.flushWrite v (BitVec.allOnes 64)))

/-- QUEUE_FLUSH_DONE: the flush in progress completes. -/
def execQueueFlushDone (s : State) : Out := unlessHalted s <|
  .next (s.setF Reg.beamFlushStat Fld.beamFlushStatBusy 0)

/-! ## Register and table words of the Beam -/

/-- R292, R297, R316: a write of BEAM_PORT_p. -/
def State.beamPortWrite (s : State) (p : Nat) (v en : Word) : State :=
  let a := Reg.beamPort p
  let s := s.plainWrite a v en
  let s := if s.fld a Fld.beamPortRate ≠ 0 ∧ Fld.beamPortRate.get en ≠ 0 then
      { s with beam := { s.beam with shaper := Tbl.set (Tbl.const none) s.beam.shaper (10240 + p) none } }
    else s
  if s.flag a Fld.beamPortPfcTxEn then s
  else (List.range 8).foldl (fun (s : State) c => s.setAcct (8 * p + c) { s.acct (8 * p + c) with xoff := false }) s

/-- R297: RATE of queue `i` has been written: its bucket is full, unless RATE is 0. -/
def State.queueCfgWritten (s : State) (i : Nat) : State :=
  if bitsOf (s.qcfg1 i) 63 48 = 0 then s
  else { s with beam := { s.beam with shaper := Tbl.set (Tbl.const none) s.beam.shaper i none } }

/-- R309: word 1 of account `a`. -/
def State.acctStat (s : State) (a : Nat) : Nat :=
  let v := s.acct a
  v.shared * 2 ^ 44 + v.head * 2 ^ 24 + b2n v.xoff * 2 ^ 23

/-- R293: a received pause stops queue `i`. -/
def State.paused (s : State) (i : Nat) : Bool :=
  decide (s.now < Tbl.get (Tbl.const 0) s.beam.pauseEnd (8 * queuePort i + s.qClass i))

/-- R310: the status entry of queue `i`. -/
def State.queueStat (s : State) (i : Nat) : Nat :=
  let l := s.queue i ++ s.residue i
  copyCells l % 2 ^ 20 * 2 ^ 44 + b2n (s.paused i) * 2 ^ 43 + b2n (!(s.residue i).isEmpty) * 2 ^ 42 +
    l.length % 2 ^ 32

/-- R313: BEAM_POOL_STAT. -/
def State.poolStat (s : State) : Nat :=
  s.sharedFree * 2 ^ 44 + s.headFree * 2 ^ 24 + s.minFree * 2 ^ 4

/-- R313: BEAM_RSV_STAT. -/
def State.rsvStat (s : State) : Nat :=
  s.recircFree * 2 ^ 44 + s.residueCells * 2 ^ 24 + s.lostCells * 2 ^ 4

/-! ## Uncorrectable cells (R287) -/

/-- R287: the location `d` of a bank, or the next one that has not been retired without replacement. -/
def State.liveCell (s : State) (bank d : Nat) : Nat :=
  (((List.range (s.beam.cellsLost.length + 1)).map fun i => bank * 65536 + (d + i) % 61440).find? fun l =>
    !s.beam.cellsLost.contains l).getD (bank * 65536 + d % 61440)

/-- R287: a failure of location `loc` of a bank: at its second it is retired to a spare location, or without
replacement. -/
def State.failCell (s : State) (bank loc : Nat) : State :=
  if Tbl.get (Tbl.const 0) s.beam.badCell loc = 0 then
    { s with beam := { s.beam with badCell := Tbl.set (Tbl.const 0) s.beam.badCell loc 1 } }
  else if Tbl.get (Tbl.const 0) s.beam.sparesUsed bank < 512 then
    { s with beam := { s.beam with
        badCell := Tbl.set (Tbl.const 0) s.beam.badCell loc 0
        sparesUsed := Tbl.upd (Tbl.const 0) s.beam.sparesUsed bank (· + 1) } }
  else
    { s with beam := { s.beam with
        badCell := Tbl.set (Tbl.const 0) s.beam.badCell loc 0
        cellsLost := s.beam.cellsLost ++ [loc]
        bankLost := Tbl.upd (Tbl.const 0) s.beam.bankLost bank (· + 1) } }.err Reg.beamErr Fld.beamErrCellLost.lo

/-- R287: a cell read uncorrectable: its location is one the spec leaves open. -/
def State.badCell (s : State) (bank : Nat) : State :=
  let dr := s.draw
  let loc := s.liveCell bank dr.1
  ((dr.2.cntShared 11).masked 8 (srcOf Reg.beamErr) loc 1).failCell bank loc

/-- R287, R351: the errors that unit `u` of a frame meets. -/
def unitErrs (errs : List UnitErr) (u : Nat) : List SymErr := (errs.filter fun e => e.unit == u).flatMap (·.errs)

/-- R287: the units of a frame of `len` bytes that meet errors. -/
def unitsHit (errs : List UnitErr) (len : Nat) : List Nat :=
  (sortUniq (errs.map (·.unit))).filter fun u => decide (64 * u < len)

/-- R287, R351: a frame as it reads with these errors: what the decoder corrects is as it was written; an uncorrectable
unit's bytes are free values, drawn under `n`. -/
def readUnits (n : Nat) (errs : List UnitErr) (f : List Byte) : List Byte :=
  (unitsHit errs f.length).foldl (fun g u =>
    let e := unitErrs errs u
    let d := (f.drop (64 * u)).take 64
    patch g (64 * u) (if rsUnc e then (List.range d.length).map fun i => byteOf (Config.lostByte n (64 * u + i)) 0
      else bytesDamage d (rsLeft e))) f

/-- R287: how many cells of a frame of `len` bytes hold uncorrectable data. -/
def cellsBad (errs : List UnitErr) (len : Nat) : Nat :=
  (sortUniq (((unitsHit errs len).filter fun u => rsUnc (unitErrs errs u)).map fun u => u / 4)).length

/-- R287: `k` cells of a bank read uncorrectable. -/
def State.badCells (s : State) (bank : Nat) : Nat → State
  | 0 => s
  | k + 1 => State.badCells (s.badCell bank) bank k

/-- R287: a packet read from its bank: its data, and, if a cell reads uncorrectable, that it leaves with a stomped FCS. -/
def State.readPkt (s : State) (x : Pkt) (errs : List UnitErr) : State × Pkt :=
  if errs = [] then (s, x)
  else
    let k := cellsBad errs x.len
    (s.draw.2.badCells x.loom k,
      { x with frame := readUnits s.freeCtr errs x.frame, fcsOk := x.fcsOk && decide (k = 0) })

end Sys2Proof.Machine
end

