-- ==== Sys2Proof/Machine/Forward.lean ====
section
/-! DEFINITION. Dispositions, punt buckets, and the start of picks (R61, R69, R72, R73, R76, R107, R116,
R129, R301). -/

namespace Sys2Proof.Machine

/-- Sets a disposition. -/
def Pkt.setDisp (x : Pkt) (d : Disp) : Pkt := { x with pick := { x.pick with disp := d } }

/-- FWD; drafts only (R37). -/
def execFwd (c : Ctx) (w : IWord) (s : State) : Out :=
  match c with
  | .task k => taskIllegal k.val s
  | .pick p => runPick p 0x70 (fun x s =>
      let port := bitsOf (x.read w.src1).toNat 9 0
      let q := bitsOf (x.read w.src2).toNat 3 0
      let d := if port < 512 ∧ s.pfld x.pick.seq (portCfg port) Fld.selvPortCfgEnable = 1 then Disp.unicast port q
        else Disp.drop 51
      .done (s.setPkt p (some (x.setDisp d))) (Config.fwdAddr port q)) s

/-- MCAST; drafts only (R37). -/
def execMcast (c : Ctx) (w : IWord) (s : State) : Out :=
  match c with
  | .task k => taskIllegal k.val s
  | .pick p => runPick p 0x71 (fun x s =>
      let g := bitsOf (x.read w.src1).toNat 15 0
      .done (s.setPkt p (some (x.setDisp (.multicast g (bitsOf (x.read w.src2).toNat 1 0))))) g) s

/-- DROP; drafts only (R37). -/
def execDrop (c : Ctx) (w : IWord) (s : State) : Out :=
  match c with
  | .task k => taskIllegal k.val s
  | .pick p => pickPure p 0x72 (fun x => x.setDisp (.drop w.fn.toNat)) s

/-! ## Punt buckets (R127 to R129) -/

/-- The key of the bucket of a loom and a reason. -/
def puntKey (n r : Nat) : Nat := 64 * n + r

/-- The most a bucket holds, in millionths of a punt. -/
def State.puntCap (s : State) (n r : Nat) : Int := 1000000 * max 1 (s.fld (Reg.loomPuntBkt n r) Fld.loomPuntBktBurst)

/-- The bucket of reason `r` of loom `n` as it stands now at a rate and a cap. -/
def State.puntLevel (s : State) (n r rate : Nat) (cap : Int) : Bucket :=
  (Tbl.get (Tbl.const { level := 0, at_ := 0 }) s.puntBkt (puntKey n r)).at s.now rate cap

/-- The bucket of reason `r` of loom `n` now. -/
def State.puntBucket (s : State) (n r : Nat) : Bucket :=
  s.puntLevel n r (s.fld (Reg.loomPuntBkt n r) Fld.loomPuntBktRate) (s.puntCap n r)

/-- R72: the same for a pick, which reads the register as it stands under its batten sequence number. -/
def State.pickBucket (s : State) (seq : BitVec 32) (n r : Nat) : Bucket :=
  s.puntLevel n r (s.pfld seq (Reg.loomPuntBkt n r) Fld.loomPuntBktRate)
    (1000000 * max 1 (s.pfld seq (Reg.loomPuntBkt n r) Fld.loomPuntBktBurst))

/-- Stores a punt bucket. -/
def State.setPuntBucket (s : State) (n r : Nat) (b : Bucket) : State :=
  { s with puntBkt := Tbl.set (Tbl.const { level := 0, at_ := 0 }) s.puntBkt (puntKey n r) b }

/-- PUNT; drafts only (R37). -/
def execPunt (c : Ctx) (w : IWord) (s : State) : Out :=
  match c with
  | .task k => taskIllegal k.val s
  | .pick p => runPick p 0x73 (fun x s =>
      let r := w.fn.toNat
      let b := s.pickBucket x.pick.seq x.loom r
      if s.pfld x.pick.seq (Reg.loomPuntBkt x.loom r) Fld.loomPuntBktRate = 0 ∨ b.level < 1000000 then
        .done ((s.setPkt p (some (x.setSt (stWord stRefused)))).incF (Reg.loomPuntStat x.loom r)
          Fld.loomPuntStatRefused) 0
      else
        let s := s.setPuntBucket x.loom r { b with level := b.level - 1000000 }
        .done (s.setPkt p (some ((x.setDisp (.punt r ((x.read w.src1).setWidth 32))).setSt (stWord stOk)))) 0) s

/-! ## RECIRC -/

/-- R148: a pick in progress that has a recirculation reservation holds line `l`. -/
def State.recHeld (s : State) (l : Nat) : Bool :=
  s.pkts.any fun e => match e.2 with
    | some x => x.place == .running && x.resv != 0 && !x.pick.pick2 &&
        (match x.pick.held with
          | some h => h.line == l
          | none => false)
    | none => false

/-- R61: the lines of the set of line `l` whose heads recirculated packets pin, each with the lines of its flow (R147). A
pick that RECIRC has given a reservation counts from then on, so that the bound of R148 holds (DESIGN CHOICE, log entry
105). -/
def State.recPinned (s : State) (l : Nat) : List (Nat × Nat) :=
  (List.range ways).filterMap fun i =>
    let m := l / ways * ways + i
    match s.line m with
    | some c => if !c.isSecond && (c.recPins != 0 || s.recHeld m) then some (m, 1 + b2n c.second.isSome) else none
    | none => none

/-- R61, R148: the head in line `l` would be past the 12 lines of its set, or the 6 flows in W2, that recirculated
packets may pin. -/
def State.recFull (s : State) (w2 : Bool) (l : Nat) : Bool :=
  let pinned := s.recPinned l
  let lines := (pinned.map (·.2)).sum
  let more := if pinned.any fun e => e.1 == l then 0 else 1 + b2n ((s.line l).any fun c => c.second.isSome)
  decide (12 ≤ lines) || decide (12 < lines + more) || (w2 && decide (6 ≤ pinned.length))

/-- RECIRC; drafts only (R37). -/
def execRecirc (c : Ctx) (_w : IWord) (s : State) : Out :=
  match c with
  | .task k => taskIllegal k.val s
  | .pick p => runPick p 0x74 (fun x s =>
      let full : PickRes := .done ((s.setPkt p (some (x.setSt (stWord stFull)))).cntLoom x.loom 70) 0
      if x.pick.pick2 then .done (s.setPkt p (some (x.setSt (stWord stRefused)))) 0
      else if x.resv ≠ 0 then .done (s.setPkt p (some ((x.setDisp .recirc).setSt (stWord stOk)))) 0
      else
        let n := ceilDiv (x.len + 112) 256
        let pinned : Bool := match x.pick.held with
          | none => false
          | some h => s.recFull (s.pickProfile x.pick.seq == 2) h.line
        if s.recircFree < n ∨ s.bankFree x.loom < n ∨ pinned = true then full
        else
          let s := s.addBank x.loom n
          let s := { s with beam := { s.beam with recircUsed := s.beam.recircUsed + n } }
          .done (s.setPkt p (some { (x.setDisp .recirc).setSt (stWord stOk) with resv := n })) 0) s

/-! ## The start of picks -/

/-- R40, R72: a pick at its start. -/
def pickAt (s : State) (bank pick2 : Bool) : Pick :=
  { seq := s.bat.seq, bank := bank, pick2 := pick2, order := s.nextOrder, startNs := s.now, issueNs := s.now,
    g := Vector.replicate 16 0, p := 0, st := 0, pc := 0, icount := 0, disp := .none, wait := .none, held := none,
    spare := none, searched := false, cands := [], candMore := false, nextHop := none, stampReq := [],
    editSet := false, timeSet := false, looked := false }

/-- R73, R472, R478: a pick starts: it counts. -/
def State.pickStarts (s : State) (x : Pkt) : State :=
  (s.cntLoom x.loom (if x.pick.pick2 then 65 else 64)).event
    { kind := 1, weight := 1, priv := 0, master := .loom x.loom, addr := none, cls := some x.profile }

/-- R463: the logic of loom `n` is switched off. -/
def State.loomOff (s : State) (n : Nat) : Bool := s.fld (Reg.tensionLoom n) Fld.tensionLoomState == 2

/-- R73: a pick that has its context begins at its entry; without a draft it ends (R69). -/
def State.enterDraft (s : State) (p : Nat) : Except Fault State :=
  match s.pkt? p with
  | none => .ok s
  | some x =>
    match s.draftEntry x.pick.seq x.pick.bank (b2n x.pick.pick2 * 256 + x.profile) with
    | none => s.endPickDrop p 52
    | some e => .ok (s.setPkt p (some { x with place := .running, pick := { x.pick with pc := e, issueNs := s.now } }))

/-- Packets of loom `n` in a place. -/
def State.pktsAt (s : State) (f : Pkt → Bool) : List (Nat × Pkt) :=
  s.pkts.filterMap fun e => match e.2 with
    | some x => if f x then some (e.1, x) else none
    | none => none

/-- R73: a shed of loom `n` holds more than its input takes: the Heddle parses nothing. -/
def State.heddleHeld (s : State) (n : Nat) : Bool :=
  (List.range 4).any fun d =>
    decide (16 < (s.pktsAt fun x => x.place == .shedInput && x.loom == n && x.shed == d).length)

/-- HEDDLE_PARSE: the Heddle of its loom takes the frame, fixes bank and batten sequence number, and
parses it (R72, R107, R116). Frames of one port are taken in order of arrival. -/
def execHeddleParse (p : PktId) (s : State) : Out :=
  match s.pkt? p with
  | none => .next s
  | some x =>
    if s.halted = true ∨ x.place ≠ .crossing ∨ s.loomOff x.loom ∨ s.heddleHeld x.loom ∨
        (s.pktsAt fun y => y.place == .crossing && y.inPort == x.inPort && y.loom == x.loom).any fun e => e.1 < p
    then .next s
    else
      let bank := s.flag Reg.beamDraftCtl Fld.beamDraftCtlActiveBank
      let pk := pickAt s bank false
      let c := if x.injected then s.pfld pk.seq (Reg.loomHeddleCtl x.loom) Fld.loomHeddleCtlClassInj
        else s.portClass pk.seq x.inPort
      let y := s.parse pk.seq c { x with pick := pk }
      .next (({ s with nextOrder := s.nextOrder + 1 }.setPkt p (some { y with place := .shedInput })).pickStarts y)

/-- PICK_START: a parsed packet takes a free context of its shed. -/
def execPickStart (p : PktId) (s : State) : Out :=
  match s.pkt? p with
  | none => .next s
  | some x =>
    if s.halted = true ∨ x.place ≠ .shedInput ∨ s.loomOff x.loom ∨
        1024 ≤ (s.pktsAt fun y => y.place == .running && y.loom == x.loom && y.shed == x.shed && !y.pick.pick2).length
    then .next s
    else toOut (s.enterDraft p)

/-- RECIRC_RETURN: the packet at the head of the port 513 queue of the loom is parsed afresh and its second
pick starts (R23, R79, R116). It is stored whole first (R28), and may read with errors (R287). -/
def execRecircReturn (a : LoomRead) (s : State) : Out :=
  let n := a.loom
  match s.queue (recircQ n.val) with
  | [] => .next s
  | c :: rest =>
    if s.halted ∨ s.loomOff n.val then .next s
    else
    match s.pkt? c.pkt with
    | none => .next (s.setQueue (recircQ n.val) rest)
    | some x0 =>
      if !x0.written then .next s
      else
      let s := s.setQueue (recircQ n.val) rest
      let r := s.readPkt x0 a.errs
      let s := r.1
      let x := r.2
      let pk := pickAt s x.pick.bank true
      let cl := s.pfld pk.seq (Reg.loomHeddleCtl x.loom) Fld.loomHeddleCtlClassRecirc
      let y := s.parse pk.seq cl { x with pick := pk }
      let s := { s with nextOrder := s.nextOrder + 1 }.setPkt c.pkt (some { y with place := .running })
      toOut ((s.pickStarts y).enterDraft c.pkt)

end Sys2Proof.Machine
end

