-- ==== Sys2Proof/Machine/BeamOut.lean ====
section
/-! DEFINITION. Egress: scheduling and calls, the matcher, and ports that go down (R293 to R297, R303,
R329, R331 to R333, R335). -/

namespace Sys2Proof.Machine

/-! ## The tag stage (R329) -/

/-- R329: the frame, without its FCS, after the tag stage of port `p`, and the change of its length. -/
def State.tagStage (s : State) (p : Nat) (f : List Byte) : List Byte × Int :=
  let r := Reg.selvPortTag (p / 64) (p % 64)
  let typ := beAt f 12 2
  let outer : Bool := decide (16 ≤ f.length) && (typ == 0x8100 || typ == 0x88A8)
  let tag (t : Nat) : List Byte :=
    toBE 2 t ++ toBE 2 (s.fld r Fld.selvPortTagPcp * 2 ^ 13 + s.fld r Fld.selvPortTagDei * 2 ^ 12 +
      s.fld r Fld.selvPortTagVid)
  let removed : List Byte × Int := (f.take 12 ++ f.drop 16, -4)
  let inserted (t : Nat) : List Byte × Int := (f.take 12 ++ tag t ++ f.drop 12, 4)
  match s.fld r Fld.selvPortTagTagMode with
  | 1 => if outer then removed else (f, 0)
  | 2 => if outer ∧ beAt f 14 2 % 4096 = s.fld r Fld.selvPortTagNativeVid then removed else (f, 0)
  | 3 => if typ = 0x8100 then (f, 0) else inserted 0x8100
  | 4 => inserted 0x88A8
  | _ => (f, 0)

/-! ## Bolts as the scheduler counts them (R331, R333) -/

/-- R331: the packet is a bolt. -/
def Pkt.isBolt (x : Pkt) : Bool := x.bolt.getLsbD 63
/-- R331: HDR_LEN. -/
def Pkt.boltHdr (x : Pkt) : Nat := bitsOf x.bolt.toNat 31 24
/-- R331: MSS. -/
def Pkt.boltMss (x : Pkt) : Nat := bitsOf x.bolt.toNat 13 0
/-- R332: the payload of a bolt. -/
def Pkt.boltPay (x : Pkt) : Nat := x.len - 4 - x.boltHdr
/-- R332: how many segments it is cut into. -/
def Pkt.boltSegs (x : Pkt) : Nat := max 1 (ceilDiv x.boltPay x.boltMss)

/-- R332, R333: what a bolt's segments, 20 bytes each added, take on the wire of port `p`; each repeats the
header as the tag stage leaves it. -/
def State.boltWire (s : State) (p : Nat) (x : Pkt) : Nat :=
  let dl := (s.tagStage p (x.frame.take (x.len - 4))).2
  x.boltPay + x.boltSegs * (((x.boltHdr : Int) + dl).toNat + 24)

/-- R297, R333: what DWRR credit counts of a packet for port `p`. -/
def State.creditLen (s : State) (p : Nat) (x : Pkt) : Nat := if x.isBolt then s.boltWire p x else x.len

/-- R297, R333: what shapers count of a packet for port `p`. -/
def State.shapeLen (s : State) (p : Nat) (x : Pkt) : Nat := if x.isBolt then s.boltWire p x else x.len + 20

/-! ## Shapers -/

/-- R297: the RATE and bucket size, in bytes × 80, of shaper `k`: a queue, or 10,240 + port. -/
def State.shaperOf (s : State) (k : Nat) : Nat × Nat :=
  if k < 10240 then (bitsOf (s.qcfg1 k) 63 48, max 1 (bitsOf (s.qcfg1 k) 47 40) * 1024 * 80)
  else (s.fld (Reg.beamPort (k - 10240)) Fld.beamPortRate, 16 * 1024 * 80)

/-- R297: the bucket of shaper `k` now. -/
def State.shaperNow (s : State) (k : Nat) : Bucket :=
  let c := s.shaperOf k
  match Tbl.get (Tbl.const none) s.beam.shaper k with
  | none => { level := c.2, at_ := s.now }
  | some b => b.at s.now c.1 c.2

/-- R297: within its shaper. -/
def State.shaperOk (s : State) (k : Nat) : Bool := (s.shaperOf k).1 == 0 || decide (0 ≤ (s.shaperNow k).level)

/-- R297: a called packet debits a shaper. -/
def State.shaperDebit (s : State) (k bytes : Nat) : State :=
  if (s.shaperOf k).1 = 0 then s
  else
    let b := s.shaperNow k
    { s with beam := { s.beam with
        shaper := Tbl.set (Tbl.const none) s.beam.shaper k (some { b with level := b.level - (bytes * 80 : Nat) }) } }

/-! ## The choice of a queue (R297) -/

/-- The packet at the head of queue `i`. -/
def State.frontOf (s : State) (i : Nat) : Option (Copy × Pkt) :=
  match s.queue i with
  | [] => none
  | c :: _ => (s.pkt? c.pkt).map fun x => (c, x)

/-- R297: LEVEL of queue `i`. -/
def State.level (s : State) (i : Nat) : Nat := bitsOf (s.qcfg0 i) 39 37

/-- R297: credit a queue gains in a round. -/
def State.quantum (s : State) (i : Nat) : Nat := max 1 (bitsOf (s.qcfg1 i) 39 28) * 64

/-- R28: the packet at the head of queue `i` may leave it. -/
def State.frontReady (s : State) (i : Nat) : Bool :=
  match s.frontOf i with
  | none => false
  | some (c, x) => c.mayLeave x

/-- R28, R297: the queue is eligible. -/
def State.eligible (s : State) (i : Nat) : Bool := s.frontReady i && !s.paused i && s.shaperOk i

/-- The DWRR credit of queue `i`. -/
def State.credit (s : State) (i : Nat) : Nat := Tbl.get (Tbl.const 0) s.beam.credit i

/-- Stores the DWRR credit of queue `i`. -/
def State.setCredit (s : State) (i v : Nat) : State :=
  { s with beam := { s.beam with credit := Tbl.set (Tbl.const 0) s.beam.credit i v } }

/-- R297: the highest level with an eligible queue, and its eligible queues. -/
def State.serving (s : State) (p : Nat) : Option (Nat × List Nat) :=
  let el := (portQueues p).filter s.eligible
  (List.range 8).reverse.findSome? fun l =>
    match el.filter fun i => s.level i == l with
    | [] => none
    | qs => some (l, qs)

/-- Visits a queue needs before its credit covers its head, the first visit counted 0. `got` tells that
it has gained its credit of this round. -/
def State.visits (s : State) (i : Nat) (got : Bool) : Nat :=
  match s.frontOf i with
  | none => 0
  | some (_, x) =>
    let need := ceilDiv (s.creditLen (queuePort i) x - s.credit i) (s.quantum i)
    if got then need else need - 1

/-- The first entry of the list with the least second component. -/
def leastOf : List (Nat × Nat) → Option (Nat × Nat)
  | [] => none
  | e :: es =>
    match leastOf es with
    | none => some e
    | some f => if f.2 < e.2 then some f else some e

/-- R297: deficit weighted round robin among the queues of a level: the queue served, with every credit
brought up to date and the round at that queue. -/
def State.dwrr (s : State) (p l : Nat) (qs : List Nat) : Option (Nat × State) :=
  let at_ := Tbl.get (Tbl.const none) s.beam.round (8 * p + l)
  let from_ := match at_ with
    | some r => r.1
    | none => 0
  let order := qs.filter (fun i => decide (from_ ≤ i)) ++ qs.filter (fun i => decide (i < from_))
  let got (i : Nat) : Bool := at_ == some (i, true)
  match leastOf (order.map fun i => (i, s.visits i (got i))) with
  | none => none
  | some (w, v) =>
    let before := order.takeWhile (· != w)
    let s := order.foldl (fun (s : State) i =>
      let rounds := v + (if i ∈ before ∨ i = w then 1 else 0) - (if got i then 1 else 0)
      s.setCredit i (s.credit i + rounds * s.quantum i)) s
    let s := { s with beam := { s.beam with
      round := Tbl.set (Tbl.const none) s.beam.round (8 * p + l) (some (w, true)) } }
    some (w, s)

/-- A queue that holds no packet keeps no credit. -/
def State.clearIdle (s : State) (p : Nat) : State :=
  (portQueues p).foldl (fun (s : State) i =>
    if (s.queue i).isEmpty then
      let k := 8 * p + s.level i
      let s := s.setCredit i 0
      if Tbl.get (Tbl.const none) s.beam.round k = some (i, true) then
        { s with beam := { s.beam with round := Tbl.set (Tbl.const none) s.beam.round k (some (i, false)) } }
      else s
    else s) s

/-! ## Calls -/

/-- EGRESS_CALL: the scheduler of port `p` selects a queue and calls its head packet. -/
def execEgressCall (p : Port) (s : State) : Out :=
  let p := p.val
  let n := p / 32
  if s.halted || s.portIsDown p || !s.shaperOk (10240 + p) ||
      decide (64 ≤ ((s.called n).filter fun c => queuePort c.queue == p && c.left != 0).length) then .next s
  else
    let s := s.clearIdle p
    match s.serving p with
    | none => .next s
    | some (l, qs) =>
      match s.dwrr p l qs with
      | none => .next s
      | some (i, s) =>
        match s.frontOf i with
        | none => .next s
        | some (c, x) =>
          let s := s.setQueue i (s.queue i).tail
          let s := s.setCredit i (s.credit i - s.creditLen p x)
          let bytes := s.shapeLen p x
          let s := (s.shaperDebit i bytes).shaperDebit (10240 + p) bytes
          .next ((s.setCalled n (s.called n ++ [{ copy := c, queue := i, left := c.n }])).lpiWake p)

/-! ## The matcher (R294) -/

/-- The bank of a called packet. -/
def State.bankOf (s : State) (c : Called) : Option Nat := (s.pkt? c.copy.pkt).map (·.loom)

/-- R294: output `o` holds a called packet of bank `b` not yet transferred. -/
def State.requests (s : State) (b o : Nat) : Bool :=
  (s.called o).any fun c => c.left != 0 && s.bankOf c == some b

/-- The first of 16, at or after `k`, that satisfies `f`. -/
def firstFrom (k : Nat) (f : Nat → Bool) : Option Nat := ((List.range 16).map fun i => (k + i) % 16).find? f

/-- R294: one iteration: the pairs (bank, output) it adds to `m`. -/
def State.matchRound (s : State) (m : List (Nat × Nat)) : List (Nat × Nat) :=
  let freeB (b : Nat) : Bool := m.all fun (e : Nat × Nat) => e.1 != b
  let freeO (o : Nat) : Bool := m.all fun (e : Nat × Nat) => e.2 != o
  let grant (o : Nat) : Option Nat :=
    if freeO o then firstFrom (Tbl.get (Tbl.const 0) s.beam.grantPtr o) (fun b => freeB b && s.requests b o) else none
  let grants := (List.range 16).map grant
  (List.range 16).filterMap fun b =>
    (firstFrom (Tbl.get (Tbl.const 0) s.beam.acceptPtr b) (fun o => grants.getD o none == some b)).map fun o => (b, o)

/-- R294: a match of the first iteration moves both pointers. -/
def State.movePtrs (s : State) (e : Nat × Nat) : State :=
  { s with beam := { s.beam with
      grantPtr := Tbl.set (Tbl.const 0) s.beam.grantPtr e.2 ((e.1 + 1) % 16),
      acceptPtr := Tbl.set (Tbl.const 0) s.beam.acceptPtr e.1 ((e.2 + 1) % 16) } }

/-- R294: up to `k` cells of bank `b` leave the called packets of a list, in call order. -/
def State.moveCells (s : State) (b : Nat) : Nat → List Called → List Called
  | _, [] => []
  | k, c :: cs =>
    if s.bankOf c = some b then
      { c with left := c.left - k } :: State.moveCells s b (k - c.left) cs
    else c :: State.moveCells s b k cs

/-- R294: one matched pair transfers up to 4 cells. -/
def State.transfer (s : State) (e : Nat × Nat) : State := s.setCalled e.2 (s.moveCells e.1 4 (s.called e.2))

/-- GRANT_PERIOD: three iterations of request, grant and accept, and the transfers they allow. -/
def execGrantPeriod (s : State) : Out :=
  if s.halted then .next s
  else
  let m1 := s.matchRound []
  let m2 := m1 ++ s.matchRound m1
  let m3 := m2 ++ s.matchRound m2
  .next (m3.foldl State.transfer (m1.foldl State.movePtrs s))

/-! ## Copies withdrawn, and ports that go down -/

/-- The packet in transmission on port `p`. -/
def State.tx (s : State) (p : Nat) : Option Tx := Tbl.get (Tbl.const none) s.beam.tx p

/-- Stores what port `p` transmits. -/
def State.setTx (s : State) (p : Nat) (t : Option Tx) : State :=
  { s with beam := { s.beam with tx := Tbl.set (Tbl.const none) s.beam.tx p t } }

/-- R303, R334: called packets of port `p` return to the heads of their queues, in their order; what idle time the port had
ends with the last of them. -/
def State.uncall (s : State) (p : Nat) : State :=
  let l := s.called (p / 32)
  let back := l.filter fun c => queuePort c.queue == p
  let s := s.setCalled (p / 32) (l.filter fun c => queuePort c.queue != p)
  let s := if back = [] then s else s.callGone p
  back.reverse.foldl (fun (s : State) (c : Called) => s.setQueue c.queue (c.copy :: s.queue c.queue)) s

/-- R303: port `p` is down: what it transmits is lost, and what it has called returns. -/
def State.beamPortDown (s : State) (p : Nat) : State :=
  let s := match s.tx p with
    | none => s
    | some t => ((((s.cntPort p 15).cntQueue t.queue 7).setTx p none).dropRef t.copy.pkt).callGone p
  s.uncall p

/-- R323: removes every copy of packet `p` that has not begun transmission. -/
def State.withdrawCopies (s : State) (p : Nat) : State :=
  let keep (l : List Copy) : List Copy := l.filter fun c => c.pkt != p
  let n := (s.beam.q.map fun e => e.2.countP fun c => c.pkt == p).sum +
    (s.beam.residue.map fun e => e.2.countP fun c => c.pkt == p).sum +
    (s.beam.called.map fun e => e.2.countP fun c => c.copy.pkt == p).sum
  let qs := s.beam.q.map (·.1)
  let rs := s.beam.residue.map (·.1)
  let cs := s.beam.called.map (·.1)
  let s := qs.foldl (fun (s : State) i => s.setQueue i (keep (s.queue i))) s
  let s := rs.foldl (fun (s : State) i => s.setResidue i (keep (s.residue i))) s
  let s := cs.foldl (fun (s : State) i =>
    let gone := (s.called i).filter fun c => c.copy.pkt == p
    gone.foldl (fun (s : State) c => s.callGone (queuePort c.queue))
      (s.setCalled i ((s.called i).filter fun c => c.copy.pkt != p))) s
  (List.range n).foldl (fun (s : State) _ => s.dropRef p) s

end Sys2Proof.Machine
end

