-- ==== Sys2Proof/Machine/Transmit.lean ====
section
/-! DEFINITION. Frames on transmit: the tag stage, bolt segments, the size check, PTP fields, egress
stamps, FCS and PFC frames (R324 to R328, R330 to R333, R379 to R386). -/

namespace Sys2Proof.Machine

/-! ## Lengths (R328, R344) -/

/-- R322, R344: MAX of port `p`. -/
def State.maxFrame (s : State) (p : Nat) : Nat :=
  min 16360 (max 1518 (s.fld (portCfg p) Fld.selvPortCfgMaxFrame))

/-- R344: MAX of port `p` for packet `id`: a write of MAX_FRAME applies to frames that arrive after it. -/
def State.maxFor (s : State) (p id : Nat) : Nat :=
  match (Tbl.get (Tbl.const []) s.selv.maxOld p).find? fun e => decide (id < e.1) with
  | some e => e.2
  | none => s.maxFrame p

/-- R344: MAX_FRAME of port `p` has been written; `old` was its MAX, which packets in the device keep. -/
def State.noteMax (s : State) (p old : Nat) : State :=
  if s.maxFrame p = old then s
  else
    let live := fun (e : Nat × Nat) => s.pkts.any fun x => x.1 < e.1
    { s with selv := { s.selv with maxOld := Tbl.upd (Tbl.const []) s.selv.maxOld p fun l =>
        (l ++ [(s.nextPkt, old)]).filter live } }

/-- R328: zero bytes up to 64 with the FCS. -/
def padFrame (f : List Byte) : List Byte := f ++ List.replicate (60 - f.length) 0

/-! ## Bolt segments (R332) -/

/-- R332: the IP header of a segment. -/
def fixIp (ip6 : Bool) (l3 hl i plen : Nat) (h : List Byte) : List Byte :=
  if ip6 then patch h (l3 + 4) (toBE 2 (hl - l3 - 40 + plen))
  else
    let g := patch h (l3 + 2) (toBE 2 (hl - l3 + plen))
    let g := patch g (l3 + 4) (toBE 2 (beAt g (l3 + 4) 2 + i))
    let g := patch g (l3 + 10) [0, 0]
    patch g (l3 + 10) (toBE 2 (inetSum (slice g l3 20)))

/-- The pseudo-header of a transport checksum. -/
def pseudo (ip6 : Bool) (l3 proto len : Nat) (h : List Byte) : List Byte :=
  if ip6 then slice h (l3 + 8) 32 ++ toBE 4 len ++ toBE 4 proto
  else slice h (l3 + 12) 8 ++ toBE 2 proto ++ toBE 2 len

/-- R332: the transport header of a segment, over the segment's bytes. -/
def fixL4 (ip6 udp : Bool) (l3 l4 hl mss i : Nat) (last : Bool) (pay h : List Byte) : List Byte :=
  let tl := hl - l4 + pay.length
  if udp then
    let g := patch (patch h (l4 + 4) (toBE 2 tl)) (l4 + 6) [0, 0]
    let v := inetSum (pseudo ip6 l3 17 tl g ++ g.drop l4 ++ pay)
    patch g (l4 + 6) (toBE 2 (if v = 0 then 65535 else v))
  else
    let fl := beAt h (l4 + 13) 1
    let fl := if last then fl else fl &&& 0xF6
    let fl := if i = 0 then fl else fl &&& 0x7F
    let g := patch h (l4 + 4) (toBE 4 (beAt h (l4 + 4) 4 + mss * i))
    let g := patch (patch g (l4 + 13) [BitVec.ofNat 8 fl]) (l4 + 16) [0, 0]
    patch g (l4 + 16) (toBE 2 (inetSum (pseudo ip6 l3 6 tl g ++ g.drop l4 ++ pay)))

/-- R332: segment `i` of a bolt, without its FCS; `f` is the tagged bolt and `dl` its change of length. -/
def boltSegment (x : Pkt) (f : List Byte) (dl : Int) (i : Nat) : List Byte :=
  let sh (n : Nat) : Nat := ((n : Int) + dl).toNat
  let w := x.bolt.toNat
  let ip6 := w.testBit 60
  let l3 := sh (bitsOf w 47 40)
  let l4 := sh (bitsOf w 39 32)
  let hl := sh x.boltHdr
  let pay := ((f.drop hl).drop (x.boltMss * i)).take x.boltMss
  let h := fixIp ip6 l3 hl i pay.length (f.take hl)
  fixL4 ip6 (bitsOf w 62 61 = 1) l3 l4 hl x.boltMss i (i + 1 = x.boltSegs) pay h ++ pay

/-- R332: all segments of a bolt. -/
def boltSegments (x : Pkt) (f : List Byte) (dl : Int) : List (List Byte) :=
  (List.range x.boltSegs).map (boltSegment x f dl)

/-! ## Stamps and PTP fields -/

/-- A time of a domain moved by `k` units, modulo its range. -/
def timeShift (t : Nat) (k : Int) : Nat := (((t : Int) + k) % (timeRange : Int)).toNat

/-- R379, R380: the egress stamp of port `p` in domain `d`, if the port is in it and it is enabled. -/
def State.egressStamp (s : State) (p d : Nat) : Option Nat :=
  if (s.fld (Reg.timePort p) Fld.timePortDomMask).testBit d ∧ s.domOn d then
    some (timeShift (s.dom d).time (s.sfld (Reg.timePort p) Fld.timePortEgressAdj * (2 ^ 44 : Nat)))
  else none

/-- R386: an egress stamp enters its domain's transmit timestamp queue. -/
def State.txqPut (s : State) (d port id t : Nat) : State :=
  let q := Tbl.get (Tbl.const []) s.time.txq d
  if 64 ≤ q.length then
    let s := (s.incF (Reg.timeTxqStat d) Fld.timeTxqStatOvfCnt).setF (Reg.timeTxqStat d) Fld.timeTxqStatOvf 1
    s.err Reg.timeErr Fld.timeErrTxqOvf.lo
  else { s with time := { s.time with
      txq := Tbl.set (Tbl.const []) s.time.txq d (q ++ [{ port := port, id := id, time := t }]) } }

/-- R384: a PTP action is skipped. -/
def State.ptpSkip (s : State) (d : Nat) : State :=
  (s.incF (Reg.timeDomCtl d) Fld.timeDomCtlSkips).err Reg.timeErr Fld.timeErrSkip.lo

/-- R383: a correctionField after a gain of `k`, in units of 2^-16 ns. -/
def correction (old : Nat) (k : Int) : List Byte :=
  let v := sxInt 64 old + k
  if v < -(2 ^ 63 : Nat) ∨ (2 ^ 63 : Nat) ≤ v then toBE 8 (2 ^ 63 - 1) else toBE 8 (v % (2 ^ 64 : Nat)).toNat

/-- R383: the UDP checksum at `uo` of the frame `new`, which was `old`. -/
def udpFix (uo : Nat) (old new : List Byte) (lo hi : Nat) : List Byte :=
  let hc := beAt new (uo + 6) 2
  if hc = 0 then new
  else
    let lo := lo - (lo + uo) % 2
    let n := hi - lo + (hi - lo) % 2
    let v := csumAdjust hc (slice old lo n) (slice new lo n)
    patch new (uo + 6) (toBE 2 (if v = 0 then 65535 else v))

/-- R382 to R384: the time action of a packet on a tagged frame; `none` where it is skipped. -/
def State.ptpFrame (s : State) (p : Nat) (x : Pkt) (w : Nat) (dl : Int) (tagged : Nat) (f : List Byte) :
    Option (List Byte) :=
  let d := bitsOf w 59 57
  let po : Int := (bitsOf w 55 48 : Int) + dl
  let uo : Int := (bitsOf w 47 40 : Int) + dl
  let udp := bitsOf w 47 40 ≠ 0
  let add : Int := sxInt 16 (bitsOf w 39 24) * 65536
  let lim : Int := min 192 tagged
  if x.isBolt ∨ po < 0 ∨ lim < po + 44 ∨ (udp ∧ (uo < 0 ∨ lim < uo + 8)) then none
  else
    match s.egressStamp p d with
    | none => none
    | some t =>
      let e : Nat := t / 2 ^ 32
      let po := po.toNat
      let fix (g : List Byte) (hi : Nat) : List Byte := if udp then udpFix uo.toNat f g (po + 8) hi else g
      if bitsOf w 63 60 = 1 then
        let g := patch f (po + 34) (toBE 6 (t / secUnit) ++ toBE 4 (t % secUnit / nsUnit))
        some (fix (patch g (po + 8) (correction (beAt f (po + 8) 8) ((e % 65536 : Nat) + add))) (po + 44))
      else
        match x.stamps.getD d none with
        | none => none
        | some i =>
          if i.epoch ≠ s.fld (Reg.timeDomCtl d) Fld.timeDomCtlStepEpoch then none
          else
            some (fix (patch f (po + 8)
              (correction (beAt f (po + 8) 8) ((e : Int) - (i.time / 2 ^ 32 : Nat) + add))) (po + 16))

/-- R382: the time action taken on the frame that leaves port `p`. -/
def State.ptpAction (s : State) (p : Nat) (x : Pkt) (dl : Int) (tagged : Nat) (f : List Byte) : State × List Byte :=
  match x.timeAct with
  | none => (s, f)
  | some w =>
    let op := bitsOf w.toNat 63 60
    if op = 1 ∨ op = 2 then
      match s.ptpFrame p x w.toNat dl tagged f with
      | none => (s.ptpSkip (bitsOf w.toNat 59 57), f)
      | some g => (s, g)
    else (s, f)

/-- R386: the egress stamps a packet asked for. -/
def State.takeStamps (s : State) (p : Nat) (x : Pkt) : State :=
  x.pick.stampReq.foldl (fun (s : State) (r : Nat × Nat) =>
    match s.egressStamp p r.1 with
    | none => s
    | some t => s.txqPut r.1 p r.2 t) s

/-! ## Transmission (R327) -/

/-- The first copy that waits transferred at port `p`, none of its queue called before it (R296). -/
def nextAt (p : Nat) : List Called → List Nat → Option Called
  | [], _ => none
  | c :: cs, seen =>
    if queuePort c.queue = p ∧ c.left = 0 ∧ c.queue ∉ seen then some c else nextAt p cs (c.queue :: seen)

/-- A list without its first entry that equals `c`. -/
def dropFirst (c : Called) (l : List Called) : List Called := l.erase c

/-- R326, R386: a frame dropped at egress before its first bit. -/
def State.egressDrop (s : State) (p : Nat) (c : Called) (x : Pkt) : State :=
  let s := s.cntPort p 13
  (if c.queue < 8192 then s.unsent x else s).dropRef c.copy.pkt

/-- R324: the causes that stomp every frame of a packet. -/
def Pkt.stomp (x : Pkt) : Bool := x.oversize || !x.fcsOk

/-- R287, R324: the first frame of a transmission reads with errors from its bank. -/
def State.spoilTx (s : State) (p bank : Nat) (errs : List UnitErr) (t : Tx) : State :=
  if errs = [] then s.setTx p (some t)
  else
    match t.frames with
    | [] => s.setTx p (some t)
    | f :: fs =>
      let k := cellsBad errs f.length
      (s.draw.2.badCells bank k).setTx p
        (some { t with bad := decide (k ≠ 0), frames := readUnits s.freeCtr errs f :: fs })

/-- R327 to R333: the packet of a call passes the stages and its first frame begins. -/
def State.startTx (s : State) (p : Nat) (c : Called) (x : Pkt) (errs : List UnitErr) : State :=
  let mx := s.maxFor p c.copy.pkt
  let body := x.frame.take (x.len - 4)
  let tg := s.tagStage p body
  let begin_ (s : State) (fs : List (List Byte)) (st : Bool) : State :=
    let s := if c.queue < 8192 then s.takeStamps p x else s
    let t : Tx := { copy := c.copy, queue := c.queue, frames := fs, on := true, stomped := st, bad := false }
    (s.spoilTx p x.loom errs t).callGone p
  let drop_ (s : State) : State :=
    (((s.badCells x.loom (cellsBad errs x.len))).egressDrop p c x).callGone p
  if x.isBolt then
    let fs := boltSegments x tg.1 tg.2
    if fs.any fun f => decide (mx < f.length + 4) then drop_ s
    else
      let r := s.ptpAction p x tg.2 tg.1.length []
      begin_ r.1 (fs.map padFrame) x.stomp
  else if mx < tg.1.length + 4 then
    if c.copy.cut then
      let r := s.ptpAction p x tg.2 tg.1.length (tg.1.take (mx - 4))
      begin_ (r.1.cntPort p 13) [r.2] true
    else drop_ s
  else
    let r := s.ptpAction p x tg.2 tg.1.length (padFrame tg.1)
    begin_ r.1 [r.2] x.stomp

/-- R334 to R337: the transmitter of port `p` can send. -/
def State.txReady (s : State) (p : Nat) : Bool := !s.halted && !s.portIsDown p && (s.port p).lpi == .awake

/-- TRANSMIT_FRAME: the next frame of port `p` begins; `errs` meet its read from the Beam (R287). PFC frames go first
(R330); a copy that is not cut-through begins once its packet is whole (R28). -/
def execTransmitFrame (p : Port) (errs : List UnitErr) (s : State) : Out := unlessHalted s <|
  let p := p.val
  if !s.txReady p || (s.port p).pfcReq then .next s
  else
    match s.tx p with
    | some t =>
      if t.on then .next s
      else
        let t := { t with on := true, bad := false }
        match s.pkt? t.copy.pkt with
        | some x => .next (s.spoilTx p x.loom errs t)
        | none => .next (s.setTx p (some t))
    | none =>
      match nextAt p (s.called (p / 32)) [] with
      | none => .next s
      | some c =>
        let t := s.setCalled (p / 32) (dropFirst c (s.called (p / 32)))
        match s.pkt? c.copy.pkt with
        | none => .next t
        | some x => .next (if c.copy.mayLeave x then t.startTx p c x errs else s)

/-- R323, R324: the frame with its FCS, or the inverse of it. -/
def withFcs (f : List Byte) (stomped : Bool) : List Byte :=
  let c := crc32 f
  f ++ toLE 4 (if stomped then (~~~c).toNat else c.toNat)

/-- R472, R484: a frame has left port `p`. -/
def State.sendFrame (s : State) (p : Nat) (f : List Byte) (stomped : Bool) : State :=
  let g := withFcs f stomped
  let s := { s with selv := { s.selv with sent := Tbl.set (Tbl.const none) s.selv.sent p (some g) },
                    glass := { s.glass with txWin := Tbl.upd (Tbl.const 0) s.glass.txWin p (· + (g.length + 20)) } }
  let s := (s.cntPort p 10).cntPort p 11 g.length
  if stomped then s.cntPort p 12 else s

/-- TRANSMIT_COMPLETE: the frame on the wire of port `p` ends; with its last frame the packet's copy is
gone (R299). -/
def execTransmitComplete (p : Port) (s : State) : Out := unlessHalted s <|
  let p := p.val
  match s.tx p with
  | none => .next s
  | some t =>
    if !t.on then .next s
    else
      match t.frames with
      | [] => .next ((s.setTx p none).dropRef t.copy.pkt)
      | f :: fs =>
        let s := s.sendFrame p f (t.stomped || t.bad)
        if fs = [] then .next (((s.setTx p none).dropRef t.copy.pkt).callGone p)
        else .next (s.setTx p (some { t with frames := fs, on := false }))

/-! ## PFC frames (R330) -/

/-- The classes of port `p` whose account is in XOFF. -/
def State.xoffClasses (s : State) (p : Nat) : Nat :=
  ((List.range 8).map fun c => if (s.acct (8 * p + c)).xoff then 2 ^ c else 0).sum

/-- R346: QUANTA of port `p`. -/
def State.quanta (s : State) (p : Nat) : Nat :=
  max 1 (s.fld (Reg.selvPortPfc (p / 64) (p % 64)) Fld.selvPortPfcQuanta)

/-- R330: the PFC frame of port `p`, without its FCS. -/
def State.pfcFrame (s : State) (p : Nat) : List Byte :=
  let on := s.xoffClasses p
  let rel := (s.port p).release.toNat
  padFrame ([0x01, 0x80, 0xC2, 0x00, 0x00, 0x01] ++
    toBE 6 (s.fld (Reg.selvPortPfc (p / 64) (p % 64)) Fld.selvPortPfcSa) ++ [0x88, 0x08, 0x01, 0x01] ++
    toBE 2 (on ||| rel) ++ ((List.range 8).map fun c => toBE 2 (if on.testBit c then s.quanta p else 0)).flatten)

/-- R330: sends a PFC frame on port `p`. -/
def State.pfcSend (s : State) (p : Nat) : State :=
  let f := s.pfcFrame p
  let s := (s.sendFrame p f false).cntPort p 14
  s.updPort p fun q => { q with pfcReq := false, release := 0, lastPfc := s.now }

/-- R330: port `p` stands at a frame boundary. -/
def State.atBoundary (s : State) (p : Nat) : Bool :=
  match s.tx p with
  | none => true
  | some t => !t.on

/-- PFC_FRAME_SEND: a requested PFC frame leaves port `p` at a frame boundary. -/
def execPfcFrameSend (p : Port) (s : State) : Out := unlessHalted s <|
  if s.txReady p.val && (s.port p.val).pfcReq && s.atBoundary p.val then .next (s.pfcSend p.val) else .next s

/-- R330: ns in which `k` pause quanta of 512 bit times pass at `g` Gb/s, rounded up. -/
def quantaNs (k g : Nat) : Nat := ceilDiv (k * 512) g

/-- PFC_REFRESH: while a class is in XOFF, the frame is sent again each time half of QUANTA has passed, at once or at the
next frame boundary; a transmitter in LPI wakes for it (R335). -/
def execPfcRefresh (p : Port) (s : State) : Out := unlessHalted s <|
  let p := p.val
  let due := (s.port p).lastPfc + quantaNs (max 1 (s.quanta p / 2)) (s.portGbps p)
  if s.portIsDown p || decide (s.xoffClasses p = 0) || decide (s.now < due) then .next s
  else .next (if s.txReady p && s.atBoundary p then s.pfcSend p else s.askPfc p none)

end Sys2Proof.Machine
end

