-- ==== Sys2Proof/Machine/Ports.lean ====
section
/-! DEFINITION. Frames on receive: the MAC, the crossing buffer, FCS errors and received pauses (R31,
R321 to R326, R379). -/

namespace Sys2Proof.Machine

/-! ## Packets that enter -/

/-- R379, R380: the ingress stamps of a packet that arrives now; `adj` is the adjustment in units of
1/16 ns. -/
def State.ingressStamps (s : State) (adj : Int) : List (Option Stamp) :=
  (List.range 8).map fun d =>
    if s.domOn d then
      some { time := timeShift (s.dom d).time (-adj * (2 ^ 44 : Nat)),
             epoch := s.fld (Reg.timeDomCtl d) Fld.timeDomCtlStepEpoch }
    else none

/-- A packet as it enters a loom's crossing buffer. -/
def State.newPkt (s : State) (frame : List Byte) (inPort loom : Nat) : Pkt :=
  { place := .crossing, frame := frame, inPort := inPort, loom := loom, shed := 0, injected := false,
    timing := false, oversize := false, fcsOk := true, bolt := 0, stamps := [], parseDeep := false,
    parseLen := false, lenPair := 0, profile := 0, steps := [], hfValid := 0, hfDirty := 0, hf := Vector.replicate 32 0,
    src := Vector.replicate 32 none, flowHash := 0, user := 0, pick := pickAt s false false, kept := none, resv := 0,
    everEdit := false, lastEdit := false, timeAct := none, pool := none, acct := none, cells := 0, refs := 0 }

/-- Puts a packet into the device. -/
def State.addPkt (s : State) (x : Pkt) : State :=
  { s with nextPkt := s.nextPkt + 1 }.setPkt s.nextPkt (some x)

/-- R31: what the crossing buffer of port `p` holds. -/
def State.crossing (s : State) (p : Nat) : List (Nat × Pkt) :=
  s.pktsAt fun x => x.place == .crossing && x.inPort == p && !x.injected

/-- R31: the buffer has a free descriptor and MAX bytes. -/
def State.crossingRoom (s : State) (p : Nat) : Bool :=
  let l := s.crossing p
  decide (l.length < 64) && decide ((l.map fun e => e.2.len).sum + s.maxFrame p ≤ 32768)

/-! ## Received frames -/

/-- R323: the FCS of a frame as received is good. -/
def fcsGood (f : List Byte) : Bool := ofLE (f.drop (f.length - 4)) == (crc32 (f.take (f.length - 4))).toNat

/-- R326: a PFC frame pauses or releases the classes it enables. -/
def State.pfcObey (s : State) (p : Nat) (f : List Byte) : State :=
  let vec := beAt f 16 2
  (List.range 8).foldl (fun (s : State) c =>
    if vec.testBit c then
      let t := beAt f (18 + 2 * c) 2
      { s with beam := { s.beam with
          pauseEnd := Tbl.set (Tbl.const 0) s.beam.pauseEnd (8 * p + c)
            (if t = 0 then 0 else s.now + quantaNs t (s.portGbps p)) } }
    else s) s

/-- R326: a MAC Control frame. -/
def State.macControl (s : State) (p : Nat) (f : List Byte) : State :=
  if !fcsGood f then s.cntPort p 3
  else if s.maxFrame p < f.length then s.cntPort p (if s.flag (portCfg p) Fld.selvPortCfgTimingClass then 5 else 4)
  else if beAt f 14 2 = 0x0101 then
    let s := s.cntPort p 6
    if s.flag (Reg.beamPort p) Fld.beamPortPfcRxEn then s.pfcObey p f else s
  else if beAt f 14 2 = 0x0001 then s.cntPort p 7
  else s.cntPort p 8

/-- R31, R322, R323: a frame that is no MAC Control frame and no runt. -/
def State.dataFrame (s : State) (p : Nat) (f : List Byte) : State :=
  let ok := fcsGood f
  let tc := s.flag (portCfg p) Fld.selvPortCfgTimingClass
  let mx := s.maxFrame p
  let s := if ok then s else s.cntPort p 3
  if mx < f.length ∧ tc = true then s.cntPort p 5
  else
    let g := f.take mx
    let s := if mx < f.length then s.cntPort p 4 else s
    let s := (s.cntPort p 0).cntPort p 1 g.length
    if !s.crossingRoom p then s.cntPort p 9
    else s.addPkt { s.newPkt g p (p / 32) with
      timing := tc
      oversize := decide (mx < f.length)
      fcsOk := ok
      stamps := s.ingressStamps (s.sfld (Reg.timePort p) Fld.timePortIngressAdj) }

/-- FRAME_RECEIVE: a frame, its FCS included, arrives at port `p`. A port that is not up receives nothing
(R340). -/
def execFrameReceive (p : Port) (frame : List Byte) (s : State) : Out :=
  let p := p.val
  if s.halted || s.portIsDown p then .next s
  else
    let s := { s with glass := { s.glass with
      rxWin := Tbl.upd (Tbl.const 0) s.glass.rxWin p (· + (frame.length + 20)) } }
    if frame.length ≤ 63 then .next (s.cntPort p 2)
    else if beAt frame 12 2 = 0x8808 then .next (s.macControl p frame)
    else .next (s.dataFrame p frame)

/-- PFC_PAUSE_EXPIRE: a received pause of class `cl` of port `p` has run out. -/
def execPfcPauseExpire (p : Port) (cl : Fin 8) (s : State) : Out := unlessHalted s <|
  let k := 8 * p.val + cl.val
  if Tbl.get (Tbl.const 0) s.beam.pauseEnd k ≤ s.now then
    .next { s with beam := { s.beam with pauseEnd := Tbl.set (Tbl.const 0) s.beam.pauseEnd k 0 } }
  else .next s

/-! ## FCS errors (R323) -/

/-- R323: the pick of a frame found bad gives up what it holds. -/
def State.dropRunning (s : State) (p : Nat) (x : Pkt) : State :=
  let s := match x.pick.wait with
    | .head w => (match s.line w.line with
      | some c => if c.reserved then s.freeLine w.line else s.unpin w.line false
      | none => s)
    | .create w => s.freeRec w.place.rno
    | .search _ => { s with reed := { s.reed with portQ := ((s.reed.portQ.map (fun (e : Nat × List Nat) =>
        (e.1, e.2.filter (fun k => k != p)))).filter (fun (e : Nat × List Nat) => !e.2.isEmpty)) } }
    | .none => s
  let s := s.freeSpare x
  let s := match x.pick.held with
    | some h => s.unpin h.line false
    | none => s
  let s := match x.kept with
    | some h => s.unpin h.line true
    | none => s
  (s.returnResv x.loom x.resv).setPkt p none

/-- R323: a recirculated or handed packet found bad. -/
def State.dropKept (s : State) (p : Nat) (x : Pkt) : State :=
  let s := match x.kept with
    | some h => s.unpin h.line true
    | none => s
  let s := (s.unsent x).returnResv x.loom x.resv
  let i := recircQ x.loom
  (s.setQueue i ((s.queue i).filter fun c => c.pkt != p)).setPkt p none

/-- R323: a stored packet found bad: copies not begun are dropped, transmissions begun are stomped. -/
def State.dropStored (s : State) (p : Nat) (x : Pkt) : State :=
  let begun := s.beam.tx.any fun e => match e.2 with
    | some t => t.copy.pkt == p
    | none => false
  let s := if begun then s else s.unsent x
  let s := { s with beam := { s.beam with tx := s.beam.tx.map (fun (e : Nat × Option Tx) =>
    (e.1, e.2.map (fun (t : Tx) => if t.copy.pkt == p then { t with stomped := true } else t))) } }
  s.withdrawCopies p

/-- FCS_ERROR: the ingress MAC finds the FCS of packet `p` bad. -/
def execFcsError (p : PktId) (s : State) : Out := unlessHalted s <|
  match s.pkt? p with
  | none => .next s
  | some x =>
    if x.written then .next s
    else
      match x.place with
      | .crossing | .shedInput => .next (s.setPkt p none)
      | .running => .next (s.dropRunning p x)
      | .handed | .recirc => .next (s.dropKept p x)
      | .stored => .next (s.dropStored p x)

end Sys2Proof.Machine
end

