-- ==== Sys2Proof/Machine/CreelOps.lean ====
section
/-! DEFINITION. Failing HBM channels: spares, retirement, freezing, the loss of a stack (R362 to R366,
R492, R493). -/

namespace Sys2Proof.Machine

/-! ## Channels and spares -/

/-- R363, R493: channel `c` is a spare in the pool. -/
def State.isSpare (s : State) (c : Nat) : Bool := s.chanState c == 2 && !s.stackLost (c / 32)

/-- Spares left in stack `k`. -/
def State.sparesOf (s : State) (k : Nat) : Nat :=
  ((List.range 32).filter fun c => s.isSpare (32 * k + c)).length

/-- R369: spares left in the pool. -/
def State.spares (s : State) : Nat := ((List.range 8).map s.sparesOf).sum

/-- The lowest-numbered spare of stack `k`. -/
def State.firstSpare (s : State) (k : Nat) : Option Nat :=
  ((List.range 32).map fun c => 32 * k + c).find? s.isSpare

/-- R363: the spare that takes over from a channel of stack `k`. -/
def State.pickSpare (s : State) (k : Nat) : Option Nat :=
  match s.firstSpare k with
  | some c => some c
  | none =>
    let best := (List.range 8).foldl (fun b j => if s.sparesOf b < s.sparesOf j then j else b) 0
    s.firstSpare best

/-- Stores the retirement of stack `k`. -/
def State.setRetire (s : State) (k : Nat) (r : Option Retire) : State :=
  { s with creel := { s.creel with retire := Tbl.set (Tbl.const none) s.creel.retire k r } }

/-- R363: a retirement whose target channel `c` is: the stack it is held under, and it. -/
def State.targetOf (s : State) (c : Nat) : Option (Nat × Retire) :=
  (List.range 8).findSome? fun k =>
    match s.retiring k with
    | some r => if r.dst = c then some (k, r) else none
    | none => none

/-- R363: the retirement channel `c` takes part in. -/
def State.retireOf (s : State) (c : Nat) : Option Retire :=
  if s.isRetiring c then s.retiring (c / 32) else (s.targetOf c).map (·.2)

/-- R369, R372: the stack whose slot channel `c` serves; a target's is that of the retirement. -/
def State.servesStack (s : State) (c : Nat) : Nat :=
  match s.targetOf c with
  | some (_, r) => r.slotStack
  | none => s.fld (chanReg c) Fld.creelChanSlotStack

/-- Requests leave channel `c`'s queue; an empty one counts as idle from then on (R359). -/
def State.dropReqs (s : State) (c : Nat) (gone : Req → Bool) : State :=
  s.updChan c fun x => { x with
    queue := x.queue.filter fun r => !gone r
    idleAt := if (x.queue.any gone) && x.queue.all gone then s.now else x.idleAt }

/-! ## Loads that wait (R364, R418) -/

/-- R51: what LD makes of the bytes it read. -/
def loadValue (signed : Bool) (bs : List Byte) : Word :=
  if signed then sx64 (8 * bs.length) (ofLE bs) else BitVec.ofNat 64 (ofLE bs)

/-- R364, R488: an uncorrectable read by a thread, a DMA or the host. -/
def State.readLost (s : State) (a : Nat) : State := s.masked 7 (srcOf (Reg.creelErr (hbmStack a))) (hbmLine a) 1

/-- The lines of an access to `n` bytes from `a`, 64 at most. -/
def linesOf (a n : Nat) : List Nat := if a / 64 = (a + n - 1) / 64 then [a] else [a, a + n - 1]

/-- R364, R418: the load `l` of task `k` completes into the task's registers. -/
def State.loadDone (s : State) (k : Nat) (l : Load) : State :=
  let bad := match l.got with
    | some _ => []
    | none => (linesOf l.addr l.n).filter fun b => s.hbmUnc (s.readFrom b)
  let v := if bad.isEmpty then loadValue l.signed (l.got.getD (s.peek l.addr l.n)) else 0
  let s := bad.foldl (fun (s : State) b => (s.uncRead (s.readFrom b)).readLost b) s
  s.updTask k fun t => { t.write l.dest v with load := none }

/-- R418: loads whose requests are done complete. -/
def State.settleLoads (s : State) : State :=
  s.spin.task.foldl (fun (s : State) e => match e.2.load with
    | some l => if l.reqs.all s.reqDone then s.loadDone e.1 l else s
    | none => s) s

/-! ## The loss of a stack (R493) -/

/-- Step 2: requests to stack `k` complete. -/
def State.dropRequests (s : State) (k : Nat) : State :=
  ((List.range 256).foldl (fun s c =>
    if (s.chan c).queue.any fun r => hbmStack r.line == k then s.dropReqs c fun r => hbmStack r.line == k
    else s) s).settleLoads

/-- A line of the cache holds record `r`, or is reserved for it, or its pending create waits for one. -/
def State.hasLine (s : State) (r : Nat) : Bool :=
  (s.warp.cache.any fun e => match e.2 with
    | some c => !c.detached && !c.isSecond && c.rno == r
    | none => false) ||
  s.pkts.any fun e => match e.2 with
    | some x => (match x.pick.wait with
      | .create w => w.place.rno == r
      | _ => false)
    | none => false

/-- Step 3: every record whose head lies in stack `k` and is not in the cache is lost. -/
def State.withdraw (s : State) (k : Nat) : State :=
  let recs := s.warp.tags.map (·.1) ++
    (s.warp.ovf.filter fun e => e.2.isSome).map fun e => s.ovfFirst + e.1
  let gone := recs.filter fun r => hbmStack (s.headAddr r) == k && !s.hasLine r
  let s := gone.foldl (fun s r => s.loseRec r) s
  { s with warp := { s.warp with victims := (s.warp.victims.map fun e =>
      (e.1, e.2.filter fun v => !gone.contains v.rno)).filter fun e => !e.2.isEmpty } }

/-- A retirement of a slot of stack `k` ends with the stack: its target is a spare again (DESIGN CHOICE, log
entry 102). -/
def State.retireOff (s : State) (k : Nat) : State :=
  (List.range 8).foldl (fun s j =>
    match s.retiring j with
    | some r =>
      if r.slotStack = k then
        let s := if s.chanState r.dst = 5 then s.setChanState r.dst 2 else s
        let s := (s.setRetire j none).setF (Reg.creelRetireStat j) Fld.creelRetireStatActive 0
        s.creelCmdOf r.src 2 stOk
      else s
    | none => s) s

/-- Steps 1 to 3 for stack `k`. -/
def State.stackGone (s : State) (k : Nat) : State :=
  if s.stackLost k then s
  else
    let s := s.setBit Reg.digestFault (8 + k)
    let s := ((s.err Reg.digestFault 0).dropRequests k).retireOff k
    s.withdraw k

/-! ## Retirement (R363, R365) -/

/-- R365: a channel `c` that is to be retired finds no spare. A DEAD one means the loss of the slot's stack; an ACTIVE
one does not fail. -/
def State.noSpare (s : State) (c : Nat) : State :=
  let s := s.creelCmdOf c 2 stFull
  if s.chanState c = 4 then s.stackGone (s.servesStack c)
  else if s.chanState c = 0 then s
  else
    let s := s.wr (Reg.creelErrInfo (c / 32)) (Fld.creelErrInfoChannel.put 0 (c % 32))
    s.err (Reg.creelErr (c / 32)) 5 (s.rd (Reg.creelErrInfo (c / 32))).toNat

/-- R363 step 1: the spare of a retirement begins training; a channel in training does not rest (R354). -/
def State.trainSpare (s : State) (r : Retire) : State :=
  let s := ((s.setChanState r.dst 5).setF (chanReg r.dst) Fld.creelChanRest 0).setRetire (r.src / 32) (some r)
  let w := Fld.creelRetireStatFrom.put (Fld.creelRetireStatTo.put 0 r.dst) (r.src % 32)
  s.wr (Reg.creelRetireStat (r.src / 32)) w

/-- R363: the retirement of channel `c` begins; it waits while its stack has another. The slot of a lost stack is
not moved. -/
def State.startRetire (s : State) (c : Nat) (copy : Bool) : State :=
  if s.stackLost (s.fld (chanReg c) Fld.creelChanSlotStack) then s.creelCmdOf c 2 stOk
  else match s.retiring (c / 32) with
  | some r =>
    if r.src = c ∨ (s.creel.waiting.any fun w => w.1 == c) then s
    else { s with creel := { s.creel with waiting := s.creel.waiting ++ [(c, copy)] } }
  | none =>
    match s.pickSpare (c / 32) with
    | none => s.noSpare c
    | some d =>
      s.trainSpare { src := c, dst := d, slotStack := s.fld (chanReg c) Fld.creelChanSlotStack,
                     slot := s.fld (chanReg c) Fld.creelChanSlot, copy := copy, copying := false,
                     granted := false, notBefore := 0, lostBelow := 0 }

/-- The next retirement of stack `k` that waits. -/
def State.nextRetire (s : State) (k : Nat) : State :=
  match s.creel.waiting.find? fun w => w.1 / 32 == k with
  | none => s
  | some w =>
    ({ s with creel := { s.creel with waiting := s.creel.waiting.filter fun u => u.1 != w.1 } }).startRetire
      w.1 (w.2 && s.chanState w.1 != 4)

/-- R363, R366: retirements that wait begin where their stack has none in progress. -/
def State.startWaiting (s : State) : State :=
  (List.range 8).foldl (fun (s : State) k => if (s.retiring k).isNone then s.nextRetire k else s) s

/-- R349: the address of line `i` of channel granule `w` of a logical slot. -/
def slotLine (stack slot w i : Nat) : Nat := hbmBase + 256 * (240 * w + 8 * slot + stack) + 64 * i

/-- R363 step 3: the copy of granule CURSOR is queued as one indivisible request (R353): at the source, or, where
there is nothing to read, at the spare. -/
def State.queueCopy (s : State) (r : Retire) : State :=
  let w := s.fld (Reg.creelRetireStat (r.src / 32)) Fld.creelRetireStatCursor
  let q : Req := { id := s.creel.nextReq, flow := false, read := true, line := slotLine r.slotStack r.slot w 0,
                   at_ := s.now, who := .internal, copy := true, pair := false }
  let s := { s with creel := { s.creel with nextReq := s.creel.nextReq + 1 } }
  s.updChan (if r.copy then r.src else r.dst) fun x => { x with queue := x.queue ++ [q] }

/-- R363: the spare of retirement `r` has failed: the next one is trained in its place, and what stood on the failed
one is lost (R490; DEDUCED, log entry 102). With no spare left the source has none (R365); a slot part of which the
failed spare served is then served by no channel. -/
def State.nextSpare (s : State) (r : Retire) : State :=
  let k := r.src / 32
  let cur := if r.copying then s.fld (Reg.creelRetireStat k) Fld.creelRetireStatCursor else 0
  let s := s.dropReqs r.src fun q => q.copy
  match s.pickSpare k with
  | some d =>
    s.trainSpare { r with dst := d, copying := false, granted := false, lostBelow := max r.lostBelow cur }
  | none =>
    let s := (s.setRetire k none).setF (Reg.creelRetireStat k) Fld.creelRetireStatActive 0
    let s := s.noSpare r.src
    (if 0 < max r.lostBelow cur then s.stackGone r.slotStack else s).nextRetire k

/-- R362, R363, R490: channel `c` has become DEAD: its requests complete and the slot it serves is retired without
copy; the source of a retirement is copied from no more, and a target that dies gives way to the next spare. -/
def State.chanDead (s : State) (c : Nat) : State :=
  let st := s.chanState c
  let s := ((s.setChanState c 4).updChan c fun x => { x with
    queue := [], slot := .idle, nextSlot := .idle }).settleLoads.searchOff c
  match s.targetOf c with
  | some (_, r) => s.nextSpare r
  | none =>
    if s.isRetiring c then
      match s.retiring (c / 32) with
      | some r =>
        let r' := { r with copy := false }
        let s := s.setRetire (c / 32) (some r')
        if r.copy ∧ r.copying then s.queueCopy r' else s
      | none => s
    else if st < 2 ∨ (st = 3 ∧ s.servedBy (slotLine (s.fld (chanReg c) Fld.creelChanSlotStack)
        (s.fld (chanReg c) Fld.creelChanSlot) 0 0) = none) then s.startRetire c false
    else s

/-- R493: stack `k` is lost; channels of it that serve slots of other stacks are gone with it. -/
def State.loseStack (s : State) (k : Nat) : State :=
  if s.stackLost k then s
  else
    ((List.range 32).foldl (fun s i =>
      let c := 32 * k + i
      let st := s.chanState c
      if (st < 2 ∨ st = 3 ∨ st = 5) ∧ s.servesStack c ≠ k then s.chanDead c else s)
      (s.stackGone k)).startWaiting

/-! ## Table 6 (R200, R366) -/

/-- The other copy of a line of table 6 or its mirror. -/
def State.otherCopy (s : State) (a : Nat) : Option Nat :=
  let base := s.fld Reg.warpStbl6Base Fld.warpStbl6BaseBase
  let mir := s.fld Reg.warpStbl6Mirror Fld.warpStbl6MirrorMirror
  let len := 64 * s.fld Reg.warpStbl6Nb Fld.warpStbl6NbNb
  if !s.flag Reg.warpStbl6Nb Fld.warpStbl6NbValid then none
  else if base ≤ a ∧ a < base + len then some (mir + (a - base))
  else if mir ≤ a ∧ a < mir + len then some (base + (a - mir))
  else none

/-- R493: where the byte at `a` of a mirrored table stands: in the other copy, while its own stack is lost. -/
def State.liveAt (s : State) (a : Nat) : Nat :=
  if s.stackLost (hbmStack a) then (s.otherCopy a).getD a else a

/-- R200, R364, R488: an uncorrectable line of table 4, 5 or 7 counts as a miss. -/
def State.tableMiss (s : State) (a : Nat) : State := s.masked 6 (srcOf (Reg.creelErr (hbmStack a))) (hbmLine a) 1

/-- R355, R364, R366: reads the line of table 6 at `a`, whose primary has been read for `who`: from the mirror where the
primary is uncorrectable, which rewrites the primary and freezes its channel, and while its channel is FROZEN; none where
neither copy can be read. -/
def State.readMirrored (s : State) (who : EvMaster) (a : Nat) : State × Option Nat :=
  let m := s.fld Reg.warpStbl6Mirror Fld.warpStbl6MirrorMirror +
    (a - s.fld Reg.warpStbl6Base Fld.warpStbl6BaseBase)
  let gone := s.stackLost (hbmStack a)
  let waits := !gone && s.frozenAt a
  if !s.hbmUnc a && !waits then (s, some a)
  else
    let s := if gone || waits then s else (s.uncRead a).startWaiting
    let s := s.hbmTraffic false true who m 64
    if s.hbmUnc m then (s.uncAlone m, none)
    else if waits then (s, some m)
    else ((s.hbmTraffic false false who (a / 64 * 64) 64).hbmPutLine (a / 64 * 64) (s.bytes (m / 64 * 64) 64), some m)

end Sys2Proof.Machine
end

