-- ==== Sys2Proof/Machine/Learn.lean ====
section
/-! DEFINITION. Pattern tables, LD.T, the learning shuttle, ageing and the background compare (R54, R198
to R200, R256 to R284). -/

namespace Sys2Proof.Machine

/-! ## Locks as names (R63, R272) -/

/-- The lock a name stands for: table × 2^32 + bucket. -/
def lockKey (w : Word) : Nat := bitsOf w.toNat 63 56 * 2 ^ 32 + bitsOf w.toNat 31 0

/-- The lock, if some task holds it. -/
def State.lockOf (s : State) (k : Nat) : Option Lock := Tbl.get (Tbl.const none) s.spin.lock k

/-! ## The MAC table (R259) -/

/-- MAC entry `e`. -/
def macAddr (e : Nat) : Nat := 0x20000000 + 16 * e

/-- R259: the bucket of a key under a seed. -/
def macBucketOf (seed k : Nat) : Nat := ((crc32c (BitVec.ofNat 32 seed) (toLE 8 k)).toNat * 16384) / 2 ^ 32

/-- R259: the bucket of a key. -/
def State.macBucket (s : State) (k : Nat) : Nat := macBucketOf (s.fld Reg.learnCtl Fld.learnCtlSeed) k

/-- R72, R259: the bucket of a key, as a pick reads the seed. -/
def State.pickMacBucket (s : State) (seq : BitVec 32) (k : Nat) : Nat :=
  macBucketOf (s.pfld seq Reg.learnCtl Fld.learnCtlSeed) k

/-- Word 0 and word 1 of a MAC entry as a pick reads it. -/
def State.macWords (s : State) (seq : BitVec 32) (e : Nat) : Nat × Nat :=
  (s.ple seq (macAddr e) 8, s.ple seq (macAddr e + 8) 8)

/-- The entries of bucket `b` that hold key `k`. -/
def State.macFind (s : State) (seq : BitVec 32) (b k : Nat) : List Nat :=
  ((List.range 8).map fun w => 8 * b + w).filter fun e =>
    let w := (s.macWords seq e).1
    bitsOf w 63 63 == 1 && bitsOf w 59 0 == k

/-- Valid MAC entries of the master copy. -/
def State.macValid (s : State) : List Nat :=
  ((s.mem.filter fun c => 0x20000000 ≤ c.1 && c.1 < 0x20200000 && c.1 % 16 == 7 && c.2.getLsbD 7).map fun c =>
    (c.1 - 0x20000000) / 16).filter fun e => bitsOf (s.masterLe (macAddr e)) 63 63 == 1

/-- The entries of bucket `b` that hold key `k` in the master copy. -/
def State.masterFind (s : State) (b k : Nat) : List Nat :=
  ((List.range 8).map fun w => 8 * b + w).filter fun e =>
    let w := s.masterLe (macAddr e)
    bitsOf w 63 63 == 1 && bitsOf w 59 0 == k

/-- R267: COUNT of port `p`. -/
def State.learnCount (s : State) (p : Nat) : Nat :=
  (s.macValid.filter fun e =>
    let w := s.masterLe (macAddr e + 8)
    bitsOf w 17 17 == 0 && bitsOf w 16 16 == 0 && bitsOf w 15 0 == p).length

/-- R267: COUNT of port `p` has reached a LIMIT. -/
def State.limitMet (s : State) (p limit : Nat) : Bool :=
  let lim := min 131072 limit
  lim != 0 && lim ≤ s.learnCount p

/-- R267: AT_LIMIT of port `p`. -/
def State.atLimit (s : State) (p : Nat) : Bool := s.limitMet p (s.fld (Reg.learnPort p) Fld.learnPortLimit)

/-- R266: a MODE and a LIMIT with which a port does not learn. -/
def notLearning (mode limit : Nat) : Bool := mode == 0 || mode == 3 || limit == 0

/-- R266: the port does not learn, as its configuration stands. -/
def State.noLearn (s : State) (p : Nat) : Bool :=
  notLearning (s.fld (Reg.learnPort p) Fld.learnPortMode) (s.fld (Reg.learnPort p) Fld.learnPortLimit)

/-- R72, R266: the port does not learn, as a pick reads its configuration. -/
def State.pickNoLearn (s : State) (q : BitVec 32) (p : Nat) : Bool :=
  notLearning (s.pfld q (Reg.learnPort p) Fld.learnPortMode) (s.pfld q (Reg.learnPort p) Fld.learnPortLimit)

/-! ## Lookups -/

/-- What a lookup finds. -/
inductive Found where
  | absent
  | miss
  | hit (d : Word)
  | undef (n : Nat)
deriving DecidableEq, Repr

/-- R260: d for a MAC entry. -/
def macResult (w1 : Nat) : Word :=
  BitVec.ofNat 64 (bitsOf w1 15 0 + bitsOf w1 16 16 * 2 ^ 16 + bitsOf w1 17 17 * 2 ^ 17 + bitsOf w1 18 18 * 2 ^ 18)

/-- R261: an LPM record at an address covers a key: its LEN. -/
def State.covers (s : State) (seq : BitVec 32) (v6 : Bool) (a key vrf : Nat) : Option Nat :=
  if v6 then
    let len := s.ple seq (a + 18) 1
    if (s.pbyte seq (a + 19)).getLsbD 7 ∧ len ≤ 128 ∧ s.ple seq (a + 16) 2 = vrf ∧
        s.ple seq a 16 >>> (128 - len) = key >>> (128 - len) then some len else none
  else
    let len := s.ple seq (a + 6) 1
    if (s.pbyte seq (a + 7)).getLsbD 7 ∧ len ≤ 32 ∧ s.ple seq (a + 4) 2 = vrf ∧
        s.ple seq a 4 >>> (32 - len) = key >>> (32 - len) then some len else none

/-- Records of `n` whose byte with VALID is stored, ascending, of a table at `base`. -/
def State.lpmRecs (s : State) (v6 : Bool) (base n : Nat) : List Nat :=
  let sz := if v6 then 32 else 16
  let off := if v6 then 19 else 7
  let keys := (s.mem.map (·.1) ++ s.bat.oldMem.map (·.1)).filter fun a =>
    base ≤ a && a < base + sz * n && (a - base) % sz == off
  sortUniq (keys.map fun a => (a - base) / sz)

/-- R261: the address of the covering record with the greatest LEN, of the lowest index. -/
def State.lpm (s : State) (seq : BitVec 32) (v6 : Bool) (base n key vrf : Nat) : Option Nat :=
  let sz := if v6 then 32 else 16
  ((s.lpmRecs v6 base n).foldl (fun (best : Option (Nat × Nat)) r =>
    match s.covers seq v6 (base + sz * r) key vrf with
    | none => best
    | some l =>
      match best with
      | none => some (l, base + sz * r)
      | some b => if b.1 < l then some (l, base + sz * r) else some b) none).map (·.2)

/-- R261: RESULT of the record at `a`. -/
def State.lpmResult (s : State) (seq : BitVec 32) (v6 : Bool) (a : Nat) : Word :=
  s.pw64 seq (a + if v6 then 24 else 8)

/-- R264: the record of a large LPM table that a lookup reads. -/
def State.lpmx (s : State) (seq : BitVec 32) (v6 : Bool) (key vrf : Nat) : Option Nat :=
  let i := b2n v6
  let c := Reg.learnLpmxCnt i
  if s.flag c Fld.learnLpmxCntBusy then none
  else s.lpm seq v6 (s.pfld seq (Reg.learnLpmxBase i) Fld.learnLpmxBaseBase) (s.pfld seq c Fld.learnLpmxCntCount) key vrf

/-- R264: lookup in a large LPM table; it reads one line. -/
def State.lookX (s : State) (seq : BitVec 32) (who : EvMaster) (v6 : Bool) (key vrf : Nat) : State × Found :=
    match s.lpmx seq v6 key vrf with
    | none => (s, .miss)
    | some a =>
      let s := s.hbmTraffic false true who a 16
      if s.hbmUnc a then ((s.uncRead a).tableMiss a, .miss) else (s, .hit (s.lpmResult seq v6 a))

/-- R198: RESULT of the entry of a bucket that holds a key. -/
def State.stblFind (s : State) (seq : BitVec 32) (a lo hi : Nat) : Option Word :=
  ([a, a + 32].find? fun e =>
    (s.pbyte seq (e + 31)).getLsbD 7 && s.ple seq e 8 == lo && s.ple seq (e + 8) 8 == hi).map fun e =>
    s.pw64 seq (e + 16)

/-- R198: the registers of service table 6 or 7: BASE, NB, SEED. -/
def stblRegs (t : Nat) : Nat × Nat × Nat :=
  if t = 6 then (Reg.warpStbl6Base, Reg.warpStbl6Nb, Reg.warpStbl6Seed)
  else (Reg.warpStbl7Base, Reg.warpStbl7Nb, Reg.warpStbl7Seed)

/-- R198, R200, R364: reads one bucket, of table 6 from the copy that can be read; none: the read is lost. An entry read from the mirror lies at the
same offset there. -/
def State.stblRead (s : State) (seq : BitVec 32) (who : EvMaster) (t a lo hi : Nat) : State × Option (Option Word) :=
  let s := if t = 6 ∧ (s.stackLost (hbmStack a) || s.frozenAt a) then s else s.hbmTraffic false true who a 64
  if t = 6 then
    match s.readMirrored who a with
    | (u, none) => (u.tableMiss a, none)
    | (u, some m) => (u, some (u.stblFind seq m lo hi))
  else if s.hbmUnc a then ((s.uncRead a).tableMiss a, none)
  else (s, some (s.stblFind seq a lo hi))

/-- R198: the candidate buckets of a key. -/
def State.stblBuckets (s : State) (seq : BitVec 32) (t lo hi : Nat) : Nat × Nat :=
  let r := stblRegs t
  let b (f : Fld) : Nat := s.pfld seq r.1 Fld.warpStbl6BaseBase + 64 *
    (((crc32c (BitVec.ofNat 32 (s.pfld seq r.2.2 f)) (toLE 8 lo ++ toLE 8 hi)).toNat *
      s.pfld seq r.2.1 Fld.warpStbl6NbNb) / 2 ^ 32)
  (b Fld.warpStbl6SeedSeed0, b Fld.warpStbl6SeedSeed1)

/-- R72, R198: a pick finds table 6 or 7 valid, and with buckets. -/
def State.stblValid (s : State) (seq : BitVec 32) (t : Nat) : Bool :=
  s.pfld seq (stblRegs t).2.1 Fld.warpStbl6NbValid != 0

/-- R198: lookup in a service table. A key that stands in both buckets, or twice in one, is undefined behaviour
(R199), between the two battens of a move too (DESIGN CHOICE, log entry 128). -/
def State.lookS (s : State) (seq : BitVec 32) (who : EvMaster) (t lo hi : Nat) : State × Found :=
  if !s.stblValid seq t then (s, .absent)
  else if s.pfld seq (stblRegs t).2.1 Fld.warpStbl6NbNb = 0 then (s, .miss)
  else
    let b0 := (s.stblBuckets seq t lo hi).1
    let b1 := (s.stblBuckets seq t lo hi).2
    let keys := fun (b : Nat) => let a := s.liveAt b; ([a, a + 32].filter fun e =>
      (s.pbyte seq (e + 31)).getLsbD 7 && s.ple seq e 8 == lo && s.ple seq (e + 8) 8 == hi).length
    if 2 ≤ keys b0 + (if b1 = b0 then 0 else keys b1) then (s, .undef 18)
    else
    match s.stblRead seq who t b0 lo hi with
    | (s, none) => (s, .miss)
    | (s, some (some d)) => (s, .hit d)
    | (s, some none) =>
      if b1 = b0 then (s, .miss)
      else match s.stblRead seq who t b1 lo hi with
        | (s, some (some d)) => (s, .hit d)
        | (s, _) => (s, .miss)

/-- R360: a line of HBM that a lookup reads and that its channel, at rest, holds back: none, or its address. A primary
of table 6 that is FROZEN or lost is read from the mirror. -/
def State.lookHeld (s : State) (seq : BitVec 32) (t : Nat) (lo hi : Word) (vrf : Nat) : Option Nat :=
  let lines := match t with
    | 4 => (s.lpmx seq false (bitsOf lo.toNat 31 0) vrf).toList
    | 5 => (s.lpmx seq true (lo.toNat + hi.toNat * 2 ^ 64) vrf).toList
    | _ =>
      if (t = 6 ∨ t = 7) ∧ s.stblValid seq t ∧ s.pfld seq (stblRegs t).2.1 Fld.warpStbl6NbNb ≠ 0 then
        let b := s.stblBuckets seq t lo.toNat hi.toNat
        b.1 :: (if (s.stblFind seq (s.liveAt b.1) lo.toNat hi.toNat).isSome then [] else [b.2])
      else []
  (lines.map fun a => if t = 6 ∧ (s.stackLost (hbmStack a) || s.frozenAt a) then (s.mirrorOf a).getD a else a).find? s.hbmHeld

/-- R54: looks a key up in a table. -/
def State.lookTable (s : State) (seq : BitVec 32) (who : EvMaster) (t : Nat) (lo hi : Word) (vrf : Nat) : State × Found :=
  let k4 := bitsOf lo.toNat 31 0
  let k6 := lo.toNat + hi.toNat * 2 ^ 64
  let found (o : Option Word) : Found := match o with
    | some d => .hit d
    | none => .miss
  if t = 0 then
    let k := bitsOf lo.toNat 59 0
    match s.macFind seq (s.pickMacBucket seq k) k with
    | [] => (s, .miss)
    | [e] => (s, .hit (macResult (s.macWords seq e).2))
    | _ => (s, .undef 25)
  else if t = 1 then (s, found ((s.lpm seq false 0x20200000 262144 k4 vrf).map (s.lpmResult seq false)))
  else if t = 2 then (s, found ((s.lpm seq true 0x20600000 131072 k6 vrf).map (s.lpmResult seq true)))
  else if t = 3 then
    let i := bitsOf lo.toNat 15 0
    let w := s.ple seq (0x20A00000 + 16 * i) 2
    (s, if w.testBit 15 then .hit (BitVec.ofNat 64 (i * 2 ^ 16 + bitsOf w 14 0)) else .miss)
  else if t = 4 then s.lookX seq who false k4 vrf
  else if t = 5 then s.lookX seq who true k6 vrf
  else if t = 6 ∨ t = 7 then s.lookS seq who t lo.toNat hi.toNat
  else (s, .absent)

/-! ## Source lookups (R266) -/

/-- HIT and LAST_SEEN of entry `e` in the replica of loom `n` are set, at flow time `t`. -/
def State.macHit (s : State) (t e n : Nat) : State :=
  { s with learn := { s.learn with
    hit := Tbl.upd (Tbl.const 0) s.learn.hit e fun h => h ||| BitVec.ofNat 16 (2 ^ n)
    lastSeen := Tbl.set (Tbl.const 0) s.learn.lastSeen (16 * e + n) (BitVec.ofNat 32 t)
    newest := Tbl.set (Tbl.const 0) s.learn.newest e n } }

/-- R268: the queue with an event in it: in order of arrival, and of looms at one instant. -/
def learnPut (v : LearnEv) : List LearnEv → List LearnEv
  | [] => [v]
  | u :: us => if u.at_ = v.at_ ∧ v.loom < u.loom then v :: u :: us else u :: learnPut v us

/-- R266: AUX of a source lookup of key `k` that found entry word 1 `w1`, and what it queues. -/
def State.sourceAux (s : State) (x : Pkt) (k : Nat) (w1 : Option Nat) : State × Nat :=
  let p := x.inPort
  let own := match w1 with
    | some w => bitsOf w 16 16 == 0 && bitsOf w 15 0 == p
    | none => false
  let fixed := match w1 with
    | some w => bitsOf w 18 16 != 0
    | none => false
  let mine := s.learn.queue.filter fun v => v.loom == x.loom
  let q := x.pick.seq
  if s.pfld q Reg.learnCtl Fld.learnCtlEnable = 0 ∨ x.pick.pick2 ∨ x.injected ∨ 512 ≤ p ∨ s.pickNoLearn q p then (s, 2)
  else if own then (s, 0)
  else if fixed then (s, 5)
  else if s.limitMet p (s.pfld q (Reg.learnPort p) Fld.learnPortLimit) then
    (s, if s.pfld q (Reg.learnPort p) Fld.learnPortExcess != 0 then 4 else 3)
  else if mine.any fun v => v.key == k then (s, 1)
  else if 64 ≤ mine.length then
    ((s.incF Reg.learnStat Fld.learnStatQdrop).err Reg.learnErr 4, 6)
  else
    ({ s with learn := { s.learn with
        queue := learnPut { key := k, port := p, loom := x.loom, at_ := s.now } s.learn.queue } }, 1)

/-- R266: the source lookup of a draft. -/
def State.sourceLookup (s : State) (x : Pkt) (lo : Word) : State × Nat :=
  let k := bitsOf lo.toNat 59 0
  match s.macFind x.pick.seq (s.pickMacBucket x.pick.seq k) k with
  | [] => s.sourceAux x k none
  | e :: _ =>
    let w := (s.macWords x.pick.seq e).2
    let r := s.sourceAux x k (some w)
    if bitsOf w 16 16 = 0 ∧ bitsOf w 15 0 = x.inPort then
      (r.1.macHit (s.pickFlowNow x.pick.seq (s.pfld x.pick.seq Reg.learnCtl Fld.learnCtlTimeDomain)) e x.loom, r.2)
    else r

/-- LD.T in a pick. -/
def ldtPick (w : IWord) (x : Pkt) (p : Nat) (s : State) : PickRes :=
  let t := w.fn.toNat % 32
  let lo := x.read w.src1
  match s.lookHeld x.pick.seq t lo (x.read w.src2) (bitsOf w.val.toNat 15 0) with
  | some a => .wait (s.hbmWake a)
  | none =>
  let r := s.lookTable x.pick.seq (.loom x.loom) t lo (x.read w.src2) (bitsOf w.val.toNat 15 0)
  let src := if t = 0 ∧ w.val.getLsbD 20 then r.1.sourceLookup x lo else (r.1, 0)
  let addr := t * 2 ^ 56 + bitsOf lo.toNat 47 0
  let fin (d : Word) (code : Nat) : PickRes :=
    .done (src.1.setPkt p (some ((x.write w.dest d).setSt (stWord code src.2)))) addr
  match r.2 with
  | .undef n => .undef n
  | .absent => fin 0 stAbsent
  | .miss => fin 0 stMiss
  | .hit d =>
    let y := if t = 3 ∧ d.getLsbD 14 then { x with pick := { x.pick with nextHop := some d } } else x
    .done (src.1.setPkt p (some ((y.write w.dest d).setSt (stWord stOk src.2)))) addr

/-- LD.T in a control thread: tables as they stand. -/
def ldtTask (w : IWord) (k : Nat) (t : Task) (s : State) : TaskRes :=
  match s.lookHeld s.bat.seq (w.fn.toNat % 32) (t.read w.src1) (t.read w.src2) (bitsOf w.val.toNat 15 0) with
  | some a => .hold (s.hbmWake a)
  | none =>
  let r := s.lookTable s.bat.seq (.task k) (w.fn.toNat % 32) (t.read w.src1) (t.read w.src2) (bitsOf w.val.toNat 15 0)
  let fin (d : Word) (code : Nat) : TaskRes :=
    .done (r.1.setTask k { t.write w.dest d with stReg := stWord code })
  match r.2 with
  | .undef n => .undef n
  | .absent => fin 0 stAbsent
  | .miss => fin 0 stMiss
  | .hit d => fin d stOk

/-- LD.T. -/
def execLdT (c : Ctx) (w : IWord) (s : State) : Out :=
  match c with
  | .pick p => runPick p 0x06 (fun x s => ldtPick w x p s) s
  | .task k => runTask k.val 0x06 w (fun t s => ldtTask w k.val t s) s

/-! ## The shuttle (R267 to R273) -/

/-- R440: posts a learning record where its kind is enabled in LEARN_CTL. -/
def State.learnPost (s : State) (f : Fld) (typ : Nat) (v : LearnEv) (old : Nat) (e : Option Nat) : State :=
  if s.flag Reg.learnCtl f then
    s.post typ (srcOf Reg.learnCtl)
      (toLE 6 (bitsOf v.key 47 0) ++ toLE 2 (bitsOf v.key 59 48) ++ toLE 2 v.port ++ toLE 2 old ++
        toLE 4 (e.getD 0xFFFFFFFF))
  else s

/-- Writes the fields a decision changes in word 1 of entry `e`. -/
def State.macWord1 (s : State) (e : Nat) (w : Nat) : State :=
  (s.setLe (macAddr e + 8) 8 w).mendLost (macAddr e + 8) 8

/-- R269: installs a key in entry `e`. -/
def State.macInstall (s : State) (v : LearnEv) (e : Nat) : State :=
  let s := ((s.setLe (macAddr e) 8 (2 ^ 63 + v.key)).mendLost (macAddr e) 8).macWord1 e v.port
  { s with learn := { s.learn with
    hit := Tbl.set (Tbl.const 0) s.learn.hit e 0
    lastSeen := (List.range 16).foldl (fun t n => Tbl.set (Tbl.const 0) t (16 * e + n) 0) s.learn.lastSeen
    moves := Tbl.set (Tbl.const 0) s.learn.moves e 0
    pinnedAt := Tbl.set (Tbl.const none) s.learn.pinnedAt e none } }

/-- R269, R270: moves entry `e` to the event's port. -/
def State.macMove (s : State) (v : LearnEv) (e : Nat) : State :=
  let w := s.masterLe (macAddr e + 8)
  let old := bitsOf w 15 0
  let m := Tbl.get (Tbl.const 0) s.learn.moves e
  let win := s.fld Reg.learnFlap Fld.learnFlapWindowMs * 1000000
  let start := Tbl.get (Tbl.const 0) s.learn.winStart e
  let fresh := m = 0 ∨ win = 0 ∨ start + win < s.now
  let m2 := if fresh then 1 else min 15 (m + 1)
  let n := s.fld Reg.learnFlap Fld.learnFlapN
  let pin : Bool := n ≠ 0 ∧ n ≤ m2
  let s := s.macWord1 e (w - old + v.port + b2n pin * 2 ^ 18)
  let s := { s with learn := { s.learn with
    moves := Tbl.set (Tbl.const 0) s.learn.moves e m2
    winStart := Tbl.set (Tbl.const 0) s.learn.winStart e (if fresh then s.now else start)
    pinnedAt := if pin then Tbl.set (Tbl.const none) s.learn.pinnedAt e (some s.now) else s.learn.pinnedAt } }
  let s := s.learnPost Fld.learnCtlEvMove 8 v old (some e)
  if pin then (s.setF Reg.learnErr Fld.learnErrFlap 1).learnPost Fld.learnCtlEvFlap 9 v 0 (some e) else s

/-- R273: there is room for a deferred update. -/
def State.deferRoom (s : State) : Bool := decide (s.learn.deferred.length + s.learn.pinDeferred.length < 16)

/-- R273: the update of a locked bucket is deferred or dropped. -/
def State.deferLearn (s : State) (v : LearnEv) : State :=
  if s.deferRoom then { s with learn := { s.learn with deferred := s.learn.deferred ++ [v] } }
  else (s.incF Reg.learnStat Fld.learnStatDeferDrop).err Reg.learnErr 3

/-- R269: the shuttle's decision for an event. -/
def State.judge (s : State) (v : LearnEv) : State :=
  let b := s.macBucket v.key
  let es := s.masterFind b v.key
  let locked := (s.lockOf b).isSome
  if s.noLearn v.port then s
  else if s.fld (Reg.learnPort v.port) Fld.learnPortMode = 2 then
    s.learnPost Fld.learnCtlEvLearn 7 v 0 es.head?
  else
    let limit (s : State) : State :=
      (s.setF Reg.learnErr Fld.learnErrLimit 1).learnPost Fld.learnCtlEvLimit 10 v 0 es.head?
    match es with
    | e :: _ =>
      let w := s.masterLe (macAddr e + 8)
      if bitsOf w 16 16 = 0 ∧ bitsOf w 15 0 = v.port then s
      else if bitsOf w 18 16 ≠ 0 then s.cntShared 8
      else if s.atLimit v.port then limit s
      else if locked then s.deferLearn v
      else s.macMove v e
    | [] =>
      if s.atLimit v.port then limit s
      else
        match ((List.range 8).map fun w => 8 * b + w).find? fun e => bitsOf (s.masterLe (macAddr e)) 63 63 == 0 with
        | none =>
          (s.setF Reg.learnErr Fld.learnErrTableFull 1).learnPost Fld.learnCtlEvFull 11 v 0 none
        | some e =>
          if locked then s.deferLearn v
          else (s.macInstall v e).learnPost Fld.learnCtlEvLearn 6 v 0 (some e)

/-- R270: a pin of entry `e` by the shuttle is over. -/
def State.unpinned (s : State) (e : Nat) : State :=
  { s with learn := { s.learn with
    pinnedAt := Tbl.set (Tbl.const none) s.learn.pinnedAt e none
    pinDeferred := s.learn.pinDeferred.filter (· != e) } }

/-- R276: the age command of entry `e`. -/
def State.ageEntry (s : State) (e : Nat) (clear : Bool) : State :=
  let fin (s : State) (locked : Bool) (code : Nat) : State :=
    s.wr Reg.learnAgeStat (Fld.learnAgeStatLocked.put (Fld.learnAgeStatCode.put 0 code) (b2n locked))
  let w0 := s.masterLe (macAddr e)
  if (s.lockOf (e / 8)).isSome then fin s true stRefused
  else if bitsOf w0 63 63 = 0 then fin s false stAbsent
  else if bitsOf (s.masterLe (macAddr e + 8)) 17 17 = 1 then fin s false stRefused
  else if Tbl.get (Tbl.const 0) s.learn.hit e ≠ 0 then
    fin (if clear then { s with learn := { s.learn with hit := Tbl.set (Tbl.const 0) s.learn.hit e 0 } } else s)
      false stRefused
  else fin (((s.setLe (macAddr e) 8 (w0 - 2 ^ 63)).mendLost (macAddr e) 8).unpinned e) false stOk

/-- R276: the age command runs once no earlier event is left. -/
def State.runAge (s : State) : State :=
  match s.learn.age with
  | some (e, c, 0) => ({ s with learn := { s.learn with age := none } }).ageEntry e c
  | _ => s

/-- LEARN_EVENT: the shuttle takes the next event. Two valid entries of one key are undefined behaviour (R259). -/
def execLearnEvent (s : State) : Out := unlessHalted s <|
  match s.learn.queue with
  | [] => .next s
  | v :: rest =>
    let s := { s with learn := { s.learn with
      queue := rest
      age := s.learn.age.map fun (a : Nat × Bool × Nat) => (a.1, a.2.1, a.2.2 - 1) } }
    let s := (s.incF Reg.learnStat Fld.learnStatEvents).event
      { kind := 11, weight := 1, priv := 0, master := .loom v.loom, addr := none, cls := none }
    if !s.noLearn v.port && decide (2 ≤ (s.masterFind (s.macBucket v.key) v.key).length) then ub 25
    else .next (s.judge v).runAge

/-- R270: the shuttle clears PINNED and MOVES of entry `e`. -/
def State.pinClear (s : State) (e : Nat) : State :=
  let w := s.masterLe (macAddr e + 8)
  let s := (s.macWord1 e (w - bitsOf w 18 18 * 2 ^ 18)).unpinned e
  { s with learn := { s.learn with moves := Tbl.set (Tbl.const 0) s.learn.moves e 0 } }

/-- R273: at the release of a lock the deferred updates of its bucket are run again: pins end, and events arrive
again. -/
def State.undefer (s : State) (lock : Nat) : State :=
  let pins := s.learn.pinDeferred.filter fun e => e / 8 == lock
  let s := pins.foldl (fun s e => s.pinClear e) s
  let mine := s.learn.deferred.filter fun v => s.macBucket v.key == lock
  if mine = [] then s
  else { s with learn := { s.learn with
    queue := s.learn.queue ++ mine.map fun v => { v with at_ := s.now }
    deferred := s.learn.deferred.filter fun v => s.macBucket v.key != lock } }

/-- R273: the end of the pin of entry `e` waits for the lock of its bucket; with no room, a later PIN_RELEASE does it. -/
def State.deferPin (s : State) (e : Nat) : State :=
  if s.learn.pinDeferred.contains e then s
  else if s.deferRoom then { s with learn := { s.learn with pinDeferred := s.learn.pinDeferred ++ [e] } }
  else (s.incF Reg.learnStat Fld.learnStatDeferDrop).err Reg.learnErr 3

/-- PIN_RELEASE: HOLD_S after the shuttle pinned entry `e`. -/
def execPinRelease (e : Fin 131072) (s : State) : Out := unlessHalted s <|
  let hold := s.fld Reg.learnFlap Fld.learnFlapHoldS
  match Tbl.get (Tbl.const none) s.learn.pinnedAt e.val with
  | none => .next s
  | some t =>
    if hold = 0 ∨ s.now < t + hold * 1000000000 then .next s
    else if (s.lockOf (e.val / 8)).isSome then .next (s.deferPin e.val)
    else .next (s.pinClear e.val)

/-- Software has written MAC entry `e`: a pin, or an entry, it cleared is no longer the shuttle's (R270). -/
def State.macWritten (s : State) (e : Nat) : State :=
  if (s.byte (macAddr e + 10)).getLsbD 2 && (s.byte (macAddr e + 7)).getLsbD 7 then s else s.unpinned e

/-- R259: word 1 of entry `e` as the broadcast window reads it. -/
def State.macMaster1 (s : State) (e : Nat) : Nat :=
  let n := Tbl.get (Tbl.const 0) s.learn.newest e
  s.le (macAddr e + 8) 8 + (Tbl.get (Tbl.const 0) s.learn.lastSeen (16 * e + n)).toNat * 2 ^ 32 +
    Tbl.get (Tbl.const 0) s.learn.moves e * 2 ^ 20 +
    b2n (Tbl.get (Tbl.const 0) s.learn.hit e != 0) * 2 ^ 19

/-- R259: word 1 of entry `e` in the replica of loom `n`. -/
def State.macReplica1 (s : State) (n e : Nat) : Nat :=
  s.le (macAddr e + 8) 8 + (Tbl.get (Tbl.const 0) s.learn.lastSeen (16 * e + n)).toNat * 2 ^ 32 +
    b2n ((Tbl.get (Tbl.const 0) s.learn.hit e).getLsbD n) * 2 ^ 19

/-! ## Registers (R278 to R284) -/

/-- R276: a write of LEARN_AGE_CMD. -/
def State.ageCmdWrite (s : State) (v en : Word) : Except Fault State :=
  if wroteOne Fld.learnAgeCmdGo v en then
    if s.flag Reg.learnAgeStat Fld.learnAgeStatBusy then .error (.undefinedBehaviour 27)
    else
      let s := s.plainWrite Reg.learnAgeCmd v en
      let s := s.setF Reg.learnAgeStat Fld.learnAgeStatBusy 1
      .ok ({ s with learn := { s.learn with
        age := some (s.fld Reg.learnAgeCmd Fld.learnAgeCmdIndex, s.flag Reg.learnAgeCmd Fld.learnAgeCmdClearHit,
          s.learn.queue.length) } }).runAge
  else .ok (s.plainWrite Reg.learnAgeCmd v en)

/-- AGE_CMD: a write of LEARN_AGE_CMD. -/
def execAgeCmd (v : Word) (s : State) : Out :=
  s.byWrite Reg.learnAgeCmd (s.ageCmdWrite v (BitVec.allOnes 64))

/-- R278: a write of LEARN_CTL. -/
def State.learnCtlWrite (s : State) (v en : Word) : Except Fault State :=
  if Fld.learnCtlSeed.get en ≠ 0 ∧ s.macValid ≠ [] then .error (.undefinedBehaviour 28)
  else .ok (s.plainWrite Reg.learnCtl v en)

/-- R264: a write of LEARN_LPMXn_BASE. -/
def State.lpmxBaseWrite (s : State) (i : Nat) (v en : Word) : Except Fault State :=
  if s.fld (Reg.learnLpmxCnt i) Fld.learnLpmxCntCount ≠ 0 then .error (.undefinedBehaviour 26)
  else .ok (s.plainWrite (Reg.learnLpmxBase i) v en)

/-- R264: a write of LEARN_LPMXn_CNT: a count that is not 0 builds the index. -/
def State.lpmxCntWrite (s : State) (i : Nat) (v en : Word) : Except Fault State :=
  let c := Reg.learnLpmxCnt i
  let t := s.plainWrite c v en
  let n := t.fld c Fld.learnLpmxCntCount
  if Fld.learnLpmxCntCount.get en = 0 then .ok t
  else if n = 0 then .ok (t.setF c Fld.learnLpmxCntBusy 0)
  else if s.fld c Fld.learnLpmxCntCount ≠ 0 ∨ (if i = 0 then 4194304 else 2097152) < n then
    .error (.undefinedBehaviour 26)
  else .ok (t.setF c Fld.learnLpmxCntBusy 1)

/-- Table 4 or 5. -/
def XTable.idx : XTable → Nat
  | .v4 => 0
  | .v6 => 1

/-- INDEX_BUILD: a write of LEARN_LPMXn_CNT. -/
def execIndexBuild (t : XTable) (v : Word) (s : State) : Out :=
  s.byWrite (Reg.learnLpmxCnt (XTable.idx t)) (s.lpmxCntWrite (XTable.idx t) v (BitVec.allOnes 64))

/-- INDEX_BUILD_DONE. -/
def execIndexBuildDone (t : XTable) (s : State) : Out := unlessHalted s <|
  .next (s.setF (Reg.learnLpmxCnt (XTable.idx t)) Fld.learnLpmxCntBusy 0)

/-! ## Background compare (R277) -/

/-- R283: a write of a compare register. -/
def State.cmpWrite (s : State) (a : Nat) (v en : Word) : Except Fault State :=
  if s.flag Reg.learnCmpCtl Fld.learnCmpCtlBusy then .error (.undefinedBehaviour 29)
  else
    let s := s.plainWrite a v en
    if a = Reg.learnCmpCtl ∧ wroteOne Fld.learnCmpCtlGo v en then
      let s := s.wr Reg.learnCmpStat 0
      .ok (if s.fld Reg.learnCmpLen Fld.learnCmpLenLen / 16 = 0 then s
        else s.setF Reg.learnCmpCtl Fld.learnCmpCtlBusy 1)
    else .ok s

/-- COMPARE_START: a write of LEARN_CMP_CTL. -/
def execCompareStart (v : Word) (s : State) : Out :=
  s.byWrite Reg.learnCmpCtl (s.cmpWrite Reg.learnCmpCtl v (BitVec.allOnes 64))

end Sys2Proof.Machine
end

