-- ==== Sys2Proof/Machine/Tasks.lean ====
section
/-! DEFINITION. Hardware tasks: their timers, releases and deadlines, locks, event flags, queues, task
commands and the scheduler (R63, R412 to R428). -/

namespace Sys2Proof.Machine

/-! ## Timers (R415, R416, R421 to R423) -/

/-- R415: a field of word 0 of a task's entry. -/
def State.taskF (s : State) (k hi lo : Nat) : Nat := bitsOf (s.taskWord k 0).toNat hi lo

/-- R416: elapsed ns by the timers of task `k`. -/
def State.taskNow (s : State) (k : Nat) : Nat := s.elapsed (s.taskF k 20 18)

/-- R415: PERIOD in ns; 0 where the task is not periodic. -/
def State.taskPeriod (s : State) (k : Nat) : Nat := 100 * bitsOf (s.taskWord k 1).toNat 31 0

/-- R415, R421: the deadline in ns after the nominal release. -/
def State.taskDeadline (s : State) (k : Nat) : Nat :=
  let d := 100 * bitsOf (s.taskWord k 2).toNat 63 32
  if d = 0 then s.taskPeriod k else d

/-- R415, R421: the shortened period in ns. -/
def State.taskCatchup (s : State) (k : Nat) : Nat :=
  s.taskPeriod k * max 50 (min 100 (s.taskF k 16 10)) / 100

/-- R411: the first word of the program. -/
def State.taskBase (s : State) (k : Nat) : Nat := s.taskF k 63 46

/-- R421: a release with nominal time `r`, made at time `a`. -/
def Task.release (t : Task) (p dl c r a : Nat) : Task :=
  let n := if r + 16 * p ≤ a then (a - r) / p else 0
  let r := r + n * p
  let nx := max (a + c) (r + p)
  { t with
    skipped := (t.skipped + n) % 65536
    deadline := some (r + dl)
    next := nx
    nominal := r + p
    lag := nx - (r + p)
    heldRel := false }

/-- R421: releases task `k` now: a DORMANT task becomes READY. One that a flag made READY in this round is
released by the same activation (R422). -/
def State.releaseTask (s : State) (k : Nat) : State :=
  let t := (s.task k).release (s.taskPeriod k) (s.taskDeadline k) (s.taskCatchup k) (s.task k).nominal (s.taskNow k)
  if t.st = .dormant then
    (s.setTask k { t with st := .ready, acts := (t.acts + 1) % 2 ^ 32 }).pushReady k
  else s.setTask k t

/-- TASK_RELEASE: the time of task `k` has reached NEXT. -/
def execTaskRelease (k : TaskId) (s : State) : Out := unlessHalted s <|
  let t := s.task k.val
  if !t.armed ∨ t.heldRel = true ∨ s.taskNow k.val < t.next then .next s
  else if t.st = .dormant ∨ (t.st = .ready ∧ t.flagRound = true) then .next (s.releaseTask k.val)
  else .next (s.setTask k.val { t with heldRel := true })

/-- R421: an activation that passes its deadline is counted, once. -/
def State.missed (s : State) (k : Nat) : State :=
  let t := s.task k
  match t.deadline with
  | none => s
  | some d =>
    if s.taskNow k ≤ d then s
    else
      let s := s.setTask k { t with deadline := none, misses := (t.misses + 1) % 65536 }
      let s := s.setF Reg.spinErr Fld.spinErrDeadline 1
      if s.taskF k 17 17 = 1 then s.post 14 2 (toLE 2 k ++ toLE 6 0 ++ toLE 8 t.lag) else s

/-- DEADLINE_MISS: task `k` has passed its deadline without BR END. -/
def execDeadlineMiss (k : TaskId) (s : State) : Out := unlessHalted s <|
  .next (s.missed k.val)

/-- R55, R421: BR END ends the activation: the task is DORMANT, a release that was held is made, and flags
of START_MASK make it READY again. The next activation starts at BASE (DEDUCED, log entry 41). -/
def State.endActivation (s : State) (k : Nat) : State :=
  let s := (s.missed k).leaveCtx k
  let base := s.taskBase k
  let s := s.updTask k fun t => { t with st := .dormant, pc := base, loops := [], deadline := none }
  if (s.task k).heldRel then s.releaseTask k
  else if (s.task k).flags &&& (s.taskWord k 1).extractLsb' 32 32 ≠ 0 then s.activateByFlag k else s

/-! ## Waiting -/

/-- A running task begins to wait: it is BLOCKED and gives up its context. -/
def State.blockTask (s : State) (k : Nat) (w : TaskWait) : State :=
  (s.leaveCtx k).updTask k fun t => { t with st := .blocked, wait := w }

/-- A task's status register. -/
def Task.setSt (t : Task) (code : Nat) (aux : Nat := 0) : Task := { t with stReg := stWord code aux }

/-- A running task's instruction completes with a status. -/
def State.codeTask (s : State) (k code : Nat) : TaskRes := .done (s.updTask k fun t => t.setSt code)

/-- A running task's instruction completes with a value and a status. -/
def State.giveTask (s : State) (k : Nat) (d : BitVec 6) (v : Word) (code : Nat) : TaskRes :=
  .done (s.updTask k fun t => (t.write d v).setSt code)

/-! ## Locks (R63, R272, R428) -/

/-- Stores a lock. -/
def State.setLock (s : State) (name : Nat) (l : Option Lock) : State :=
  { s with spin := { s.spin with lock := Tbl.set (Tbl.const none) s.spin.lock name l } }

/-- R428: the chain of wait-for pointers from task `k` reaches task `goal`. -/
def State.chainTo (s : State) (goal : Nat) : Nat → Nat → Bool
  | 0, _ => false
  | n + 1, k =>
    k == goal ||
    (match (s.task k).wait with
      | .lock name => (match s.lockOf name with
          | some l => State.chainTo s goal n l.holder
          | none => false)
      | _ => false)

/-- R63: LOCK in task `k`. -/
def lockTask (w : IWord) (k : Nat) (t : Task) (s : State) : TaskRes :=
  let name := lockKey (t.read w.src1)
  match s.lockOf name with
  | some l =>
    if l.holder = k then .done (s.updTask k fun t => t.setSt stLockCycle k)
    else if 8 ≤ t.locks.length then s.codeTask k stFull
    else if w.fn.getLsbD 0 then s.codeTask k stRefused
    else if s.chainTo k 4096 l.holder then .done (s.updTask k fun t => t.setSt stLockCycle l.holder)
    else .keep ((s.setLock name (some { l with waiters := l.waiters ++ [k] })).blockTask k (.lock name))
  | none =>
    if 8 ≤ t.locks.length then s.codeTask k stFull
    else
      .done ((s.setLock name (some { holder := k, waiters := [] })).updTask k fun t =>
        { t.setSt stOk with locks := t.locks ++ [name] })

/-- LOCK; threads only (R37). -/
def execLock (c : Ctx) (w : IWord) (s : State) : Out :=
  match c with
  | .pick p => pickIllegal p 0x90 s
  | .task k => runTask k.val 0x90 w (lockTask w k.val) s

/-- R273, R428: task `k` gives up a lock: deferred updates arrive again and the oldest waiter takes it. -/
def State.unlock (s : State) (k name : Nat) : State :=
  let s := s.updTask k fun t => { t with locks := t.locks.filter (· != name) }
  let next := match s.lockOf name with
    | some l => l.waiters
    | none => []
  let s := s.undefer name
  match next with
  | [] => s.setLock name none
  | j :: js =>
    (s.setLock name (some { holder := j, waiters := js })).wakeTask j fun t =>
      { t.setSt stOk with locks := t.locks ++ [name] }

/-- UNLOCK; threads only. -/
def execUnlock (c : Ctx) (w : IWord) (s : State) : Out :=
  match c with
  | .pick p => pickIllegal p 0x91 s
  | .task k => runTask k.val 0x91 w (fun t s =>
      let name := lockKey (t.read w.src1)
      if name ∈ t.locks then (s.unlock k.val name).codeTask k.val stOk
      else s.codeTask k.val stAbsent) s

/-! ## Event flags (R63, R424) -/

/-- R63: WAITEV in task `k`. -/
def waitevTask (w : IWord) (k : Nat) (t : Task) (s : State) : TaskRes :=
  let m : BitVec 32 := (t.read w.src1).setWidth 32
  let all := w.fn.getLsbD 0
  let clear := w.fn.getLsbD 1
  if m = 0 then s.giveTask k w.dest 0 stOk
  else if evReady t.flags m all then
    let r := evTake t.flags m clear
    .done (s.updTask k fun t => { (t.write w.dest r.1).setSt stOk with flags := r.2 })
  else if w.val = 0 then s.giveTask k w.dest 0 stMiss
  else .keep (s.blockTask k (.event m all clear w.dest
    (if w.val = 0xFFFFFFFF then none else some (s.taskNow k + 1000 * w.val.toNat))))

/-- WAITEV; threads only. -/
def execWaitev (c : Ctx) (w : IWord) (s : State) : Out :=
  match c with
  | .pick p => pickIllegal p 0x92 s
  | .task k => runTask k.val 0x92 w (waitevTask w k.val) s

/-- WAITEV_TIMEOUT: a waiting WAITEV reaches its timeout. -/
def execWaitevTimeout (k : TaskId) (s : State) : Out := unlessHalted s <|
  match (s.task k.val).wait with
  | .event _ _ _ dest (some t) =>
    if s.taskNow k.val < t then .next s
    else .next (s.wakeTask k.val fun t => (t.write dest 0).setSt stMiss)
  | _ => .next s

/-- SIGNAL; threads only. -/
def execSignal (c : Ctx) (w : IWord) (s : State) : Out :=
  match c with
  | .pick p => pickIllegal p 0x93 s
  | .task k => runTask k.val 0x93 w (fun t s =>
      let j := (t.read w.src1).toNat % 4096
      if (s.task j).st = .free then s.codeTask k.val stAbsent
      else (s.signal j ((t.read w.src2).setWidth 32)).codeTask k.val stOk) s

/-- YIELD; threads only: the task goes to the back of its group's ready order. -/
def execYield (c : Ctx) (w : IWord) (s : State) : Out :=
  match c with
  | .pick p => pickIllegal p 0x94 s
  | .task k => runTask k.val 0x94 w (fun _ s =>
      .keep (((s.leaveCtx k.val).updTask k.val fun t => { t.step with st := .ready }).pushReady k.val)) s

/-! ## Queues (R425 to R427) -/

/-- Queue `q`. -/
def State.squeue (s : State) (q : Nat) : SQueue := Tbl.get (Tbl.const SQueue.init) s.spin.queue q

/-- Stores queue `q`. -/
def State.setSqueue (s : State) (q : Nat) (x : SQueue) : State :=
  { s with spin := { s.spin with queue := Tbl.set (Tbl.const SQueue.init) s.spin.queue q x } }

/-- R425: DEPTH of queue `q`. -/
def State.qDepth (s : State) (q : Nat) : Nat := s.fld (Reg.spinQCfg q) Fld.spinQCfgDepth

/-- R425: a successful put sets the notify flag. -/
def State.queueNotify (s : State) (q : Nat) : State :=
  let c := Reg.spinQCfg q
  if s.flag c Fld.spinQCfgNotifyEn then
    s.signal (s.fld c Fld.spinQCfgNotifyTask) (BitVec.ofNat 32 (2 ^ s.fld c Fld.spinQCfgNotifyFlag))
  else s

/-- R426: a put that need not wait: to the oldest waiting QGET, or into a queue with room. -/
def State.tryPut (s : State) (q : Nat) (v : Word) (desc : Option (List Byte) := none) : Option State :=
  let x := s.squeue q
  match x.getters with
  | g :: gs =>
    let s := s.setSqueue q { x with getters := gs }
    let s := match (s.task g).wait with
      | .qget _ dest => s.wakeTask g fun t => (t.write dest v).setSt stOk
      | _ => s
    some (s.queueNotify q)
  | [] =>
    if x.entries.length < s.qDepth q then
      some ((s.setSqueue q { x with entries := x.entries ++ [(v, desc)] }).queueNotify q)
    else none

/-- R426: room has appeared in queue `q`: the oldest waiting QPUT completes. -/
def State.admitPutter (s : State) (q : Nat) : State :=
  let x := s.squeue q
  match x.putters with
  | [] => s
  | (j, v) :: ps =>
    if x.entries.length < s.qDepth q then
      let s := s.setSqueue q { x with entries := x.entries ++ [(v, none)], putters := ps }
      (s.wakeTask j fun t => t.setSt stOk).queueNotify q
    else s

/-- R427: a put by the device or the host: refused when the queue is full, and counted. -/
def State.devicePut (s : State) (q : Nat) (v : Word) (desc : Option (List Byte) := none) : State × Bool :=
  match s.tryPut q v desc with
  | some s => (s, true)
  | none => (s.incF (Reg.spinQStat q) Fld.spinQStatRefused, false)

/-- QPUT; threads only. -/
def execQput (c : Ctx) (w : IWord) (s : State) : Out :=
  match c with
  | .pick p => pickIllegal p 0x95 s
  | .task k => runTask k.val 0x95 w (fun t s =>
      let q := (t.read w.src1).toNat % 256
      let v := t.read w.src2
      match s.tryPut q v with
      | some s => s.codeTask k.val stOk
      | none =>
        if !w.fn.getLsbD 0 then s.codeTask k.val stRefused
        else
          let x := s.squeue q
          .keep ((s.setSqueue q { x with putters := x.putters ++ [(k.val, v)] }).blockTask k.val (.qput q v))) s

/-- R426: QGET in task `k`: the head entry, or the value of a waiting QPUT that finds no room. The device alone consumes
queue 255 (R427): a thread finds nothing there (DESIGN CHOICE, log entry 104). -/
def qgetTask (w : IWord) (k : Nat) (t : Task) (s : State) : TaskRes :=
  let q := (t.read w.src1).toNat % 256
  let x := s.squeue q
  if q = 255 then
    if !w.fn.getLsbD 0 then s.giveTask k w.dest 0 stMiss else .keep (s.blockTask k (.qget q w.dest))
  else match x.entries, x.putters with
  | e :: es, _ => ((s.setSqueue q { x with entries := es }).admitPutter q).giveTask k w.dest e.1 stOk
  | [], (j, v) :: ps =>
    let s := ((s.setSqueue q { x with putters := ps }).wakeTask j fun t => t.setSt stOk).queueNotify q
    s.giveTask k w.dest v stOk
  | [], [] =>
    if !w.fn.getLsbD 0 then s.giveTask k w.dest 0 stMiss
    else .keep ((s.setSqueue q { x with getters := x.getters ++ [k] }).blockTask k (.qget q w.dest))

/-- QGET; threads only. -/
def execQget (c : Ctx) (w : IWord) (s : State) : Out :=
  match c with
  | .pick p => pickIllegal p 0x96 s
  | .task k => runTask k.val 0x96 w (qgetTask w k.val) s

/-! ## Task commands (R413, R414, R423) -/

/-- Changes the DMA queue of core `c`. -/
def State.updDma (s : State) (c : Nat) (f : List DmaReq → List DmaReq) : State :=
  { s with spin := { s.spin with dma := Tbl.upd (Tbl.const []) s.spin.dma c f } }

/-- R88, R413, R414: CANCEL: the task stops, withdraws its wait and its place in the ready order, and no
longer observes its batten or its DMA. -/
def State.cancelTask (s : State) (k : Nat) : State :=
  let s := s.leaveCtx k
  let s := match (s.task k).wait with
    | .lock name => match s.lockOf name with
      | some l => s.setLock name (some { l with waiters := l.waiters.filter (· != k) })
      | none => s
    | .qput q _ => s.setSqueue q { s.squeue q with putters := (s.squeue q).putters.filter fun e => e.1 != k }
    | .qget q _ => s.setSqueue q { s.squeue q with getters := (s.squeue q).getters.filter (· != k) }
    | _ => s
  let quiet := fun (b : BatReq) => if !b.host ∧ b.task = k then { b with wake := false } else b
  let s := s.updTask k fun t =>
    { t with st := .stopped, wait := .none, armed := false, deadline := none, heldRel := false, resume := none }
  let s := (List.range 32).foldl (fun (s : State) c => s.updDma c fun l =>
    l.map fun (d : DmaReq) => if d.task = k then { d with waits := false } else d) s
  { s with
    spin := { s.spin with ready := s.spin.ready.filter (· != k) }
    bat := { s.bat with
      queue := s.bat.queue.map quiet
      waiting := s.bat.waiting.filter fun b => b.task != k
      cur := s.bat.cur.map quiet
      flip := s.bat.flip.map quiet } }

/-- R413: DELETE of a task that exists. -/
def State.deleteTask (s : State) (k : Nat) : State :=
  let s := s.cancelTask k
  let s := (s.task k).locks.foldl (fun (s : State) name => s.unlock k name) s
  { s with spin := { s.spin with micro := Tbl.set (Tbl.const Micro.none) s.spin.micro k Micro.none } }.setTask k Task.none

/-- R413, R423: START of a STOPPED task. -/
def State.startTask (s : State) (k : Nat) : State :=
  let first := s.taskNow k + 100 * bitsOf (s.taskWord k 2).toNat 31 0
  let base := s.taskBase k
  let per := s.taskPeriod k != 0
  s.updTask k fun t => { t with
    st := .dormant, pc := base, loops := [], armed := per, nominal := first, next := first,
    lag := 0, deadline := none, heldRel := false }

/-- R413: applies a task command; its result. -/
def State.taskCmd (s : State) (op : TaskOp) (k : Nat) (mask : BitVec 32) : State × Nat :=
  let st := (s.task k).st
  match op with
  | .create => if st = .free then (s.setTask k { Task.none with st := .stopped }, stOk) else (s, stRefused)
  | .start => if st = .stopped then (s.startTask k, stOk) else (s, stRefused)
  | .cancel => if st = .free then (s, stAbsent) else (s.cancelTask k, stOk)
  | .delete => if st = .free then (s, stAbsent) else (s.deleteTask k, stOk)
  | .signal => if st = .free then (s, stAbsent) else (s.signal k mask, stOk)

/-- R413, R448: a task command is applied in this scheduler round; its result goes to SPIN_TASK_STAT. -/
def State.taskCmdNow (s : State) (op : TaskOp) (k : Nat) (mask : BitVec 32) : State × Nat :=
  let r := s.taskCmd op k mask
  let s := r.1.setF Reg.spinTaskStat Fld.spinTaskStatCode r.2
  ({ s with spin := { s.spin with roundCmds := s.spin.roundCmds + 1 } }, r.2)

/-- R413: no further task command is applied in this scheduler round, or earlier ones wait. -/
def State.cmdsFull (s : State) : Bool := decide (16 ≤ s.spin.roundCmds) || !s.spin.cmdQ.isEmpty

/-- R413: a task command by SPIN_TASK_CMD: a 17th of a round waits for the next. -/
def State.taskCmdReg (s : State) (op : TaskOp) (k : Nat) (mask : BitVec 32) : State :=
  if s.cmdsFull then { s with spin := { s.spin with cmdQ := s.spin.cmdQ ++ [(op, k, mask)] } }
  else (s.taskCmdNow op k mask).1

/-- R413: a scheduler round begins: the task commands that wait are applied in their order, 16 at most. -/
def State.roundBegins (s : State) : State :=
  let q := s.spin.cmdQ
  let s := { s with spin := { s.spin with roundCmds := 0, cmdQ := q.drop 16 } }
  (q.take 16).foldl (fun (s : State) c => (s.taskCmdNow c.1 c.2.1 c.2.2).1) s

/-- R448: the command an OP code names. -/
def taskOpOf (n : Nat) : Option TaskOp :=
  match n with
  | 1 => some .create
  | 2 => some .start
  | 3 => some .cancel
  | 4 => some .delete
  | 5 => some .signal
  | _ => none

/-- R448: a write of SPIN_TASK_CMD. -/
def State.taskCmdWrite (s : State) (v en : Word) : State :=
  let s := s.plainWrite Reg.spinTaskCmd v en
  let c := Reg.spinTaskCmd
  if wroteOne Fld.spinTaskCmdGo v en then
    match taskOpOf (s.fld c Fld.spinTaskCmdOp) with
    | some op => s.taskCmdReg op (s.fld c Fld.spinTaskCmdTask) (BitVec.ofNat 32 (s.fld c Fld.spinTaskCmdMask))
    | none => s
  else s

/-- TASK_CREATE. -/
def execTaskCreate (k : TaskId) (s : State) : Out :=
  s.byWrite Reg.spinTaskCmd (.ok (s.taskCmdReg .create k.val 0))
/-- TASK_START. -/
def execTaskStart (k : TaskId) (s : State) : Out :=
  s.byWrite Reg.spinTaskCmd (.ok (s.taskCmdReg .start k.val 0))
/-- TASK_CANCEL. -/
def execTaskCancel (k : TaskId) (s : State) : Out :=
  s.byWrite Reg.spinTaskCmd (.ok (s.taskCmdReg .cancel k.val 0))
/-- TASK_DELETE. -/
def execTaskDelete (k : TaskId) (s : State) : Out :=
  s.byWrite Reg.spinTaskCmd (.ok (s.taskCmdReg .delete k.val 0))
/-- TASK_SIGNAL. -/
def execTaskSignal (k : TaskId) (mask : BitVec 32) (s : State) : Out :=
  s.byWrite Reg.spinTaskCmd (.ok (s.taskCmdReg .signal k.val mask))

/-! ## The scheduler (R417 to R420) -/

/-- Tasks in a context. -/
def State.running (s : State) : List Nat :=
  (s.spin.task.filter fun e => e.2.st == .running).map (·.1)

/-- R409, R505: a free context; the boot ROM holds context 0 until it ends. -/
def State.freeCtx (s : State) : Option Nat :=
  let used := s.spin.task.filterMap fun e => if e.2.st = .running then e.2.ctx else none
  (List.range 128).find? fun c =>
    !used.contains c && !(c == 0 && Nat.blt (s.fld Reg.identBootStat Fld.identBootStatPhase) 5)

/-- R417: the context time a group has used, in ns. -/
def State.groupUsed (s : State) (g : Nat) : Nat :=
  Tbl.get (Tbl.const 0) s.spin.groupNs g +
    ((s.running.filter fun k => s.taskGroup k == g).map fun k => s.now - (s.task k).sliceAt).sum

/-- R417: the weight of a group. -/
def State.groupWeight (s : State) (g : Nat) : Nat := max 1 (s.fld (Reg.spinGroup g) Fld.spinGroupWeight)

/-- R417: how far a group is behind its share among `gs`, times the sum of their weights. -/
def State.behind (s : State) (gs : List Nat) (g : Nat) : Int :=
  let used := (gs.map s.groupUsed).sum
  let sum := (gs.map s.groupWeight).sum
  ((used * s.groupWeight g : Nat) : Int) - ((s.groupUsed g * sum : Nat) : Int)

/-- The first entry with the greatest value. -/
def argMax (f : Nat → Int) : List Nat → Option Nat
  | [] => none
  | x :: xs =>
    match argMax f xs with
    | none => some x
    | some y => if f y ≤ f x then some x else some y

/-- R417: the READY task that takes the next free context. -/
def State.nextTask (s : State) : Option Nat :=
  match (s.spin.ready.map s.prio).foldl (fun (m : Option Nat) p => some (max p (m.getD 0))) none with
  | none => none
  | some p =>
    let ready := s.spin.ready.filter fun k => s.prio k == p
    let gs := sortUniq ((ready ++ s.running.filter fun k => s.prio k == p).map s.taskGroup)
    let cand := sortUniq (ready.map s.taskGroup)
    (argMax (s.behind gs) cand).bind fun g => ready.find? fun k => s.taskGroup k == g

/-- A READY task enters context `c`. The sequence of an instruction it has waited in restarts (R444). -/
def State.dispatchTask (s : State) (k c : Nat) : State :=
  let s := { s with spin := { s.spin with ready := s.spin.ready.filter (· != k) } }
  let s := s.updTask k fun t => { t with st := .running, ctx := some c, sliceAt := s.now, flagRound := false }
  match (s.task k).resume with
  | some i => (s.microcode k (s.task k) i.1 i.2).updTask k fun t => { t with resume := none }
  | none => s

/-- R418: the RUNNING task of lowest PRIO, in the lowest context among equals. -/
def State.lowestRunning (s : State) : Option Nat :=
  (List.range 128).foldl (fun (m : Option Nat) c =>
    match s.running.find? fun k => (s.task k).ctx == some c && (s.task k).wait == .none with
    | none => m
    | some k => match m with
      | none => some k
      | some j => if s.prio k < s.prio j then some k else m) none

/-- R417: a pre-empted task re-enters its group's ready order at the front. -/
def State.preempt (s : State) (k : Nat) : State :=
  let s := (s.leaveCtx k).updTask k fun t => { t with st := .ready }
  { s with spin := { s.spin with ready := k :: s.spin.ready } }

/-- R417, R418: fills free contexts and pre-empts, at most `n` dispatches. -/
def State.fillContexts (s : State) : Nat → State
  | 0 => s
  | n + 1 =>
    match s.nextTask with
    | none => s
    | some k =>
      match s.freeCtx with
      | some c => State.fillContexts (s.dispatchTask k c) n
      | none =>
        match s.lowestRunning with
        | none => s
        | some j =>
          match (s.task j).ctx with
          | none => s
          | some c =>
            if s.prio j < s.prio k then State.fillContexts ((s.preempt j).dispatchTask k c) n else s

/-- R412, R414: DORMANT tasks with a flag of START_MASK become READY. -/
def State.flagStarts (s : State) : State :=
  (s.spin.task.map (·.1)).foldl (fun (s : State) k =>
    if (s.task k).st = .dormant ∧ (s.task k).flags &&& (s.taskWord k 1).extractLsb' 32 32 ≠ 0
    then s.activateByFlag k else s) s

/-- SCHED_ROUND: one round of the scheduler. A task whose program holds a word that a thread has stored, and that no
batten has followed, may not run (R66). -/
def execSchedRound (s : State) : Out :=
  if s.halted ∨ s.spin.restarting = true then .next s
  else
    let s := s.roundBegins.flagStarts
    let s := (s.spin.task.map (·.1)).foldl (fun (s : State) k =>
      s.updTask k fun t => { t with flagRound := false }) s
    let s := s.fillContexts 4096
    if s.running.any fun k => s.spin.stored.any fun e => s.inProgram k e.1 then ub 4 else .next s

/-- SLICE_EXPIRE: a task that has held its context for 10 µs returns to its group's ready order when a
task of the same PRIO is READY. -/
def execSliceExpire (k : TaskId) (s : State) : Out := unlessHalted s <|
  let t := s.task k.val
  if t.st ≠ .running ∨ t.wait ≠ .none ∨ s.now < t.sliceAt + 10000 ∨
      (s.spin.ready.all fun j => s.prio j != s.prio k.val) then .next s
  else .next (((s.leaveCtx k.val).updTask k.val fun t => { t with st := .ready }).pushReady k.val)

end Sys2Proof.Machine
end

