-- ==== Sys2Proof/Machine/Punt.lean ====
section
/-! DEFINITION. Punted copies, handles and injections (R24, R429 to R433, R331, R463). -/

namespace Sys2Proof.Machine

/-! ## Handles (R430, R431) -/

/-- R430: a handle. -/
def handleWord (seq reason loom unit nunits len : Nat) : Word :=
  BitVec.ofNat 64 ((seq % 65536) <<< 48 + (reason % 64) <<< 42 + (loom % 16) <<< 38 + (unit % 2 ^ 17) <<< 21 +
    (nunits % 128) <<< 14 + len % 2 ^ 14)

/-- REASON of a handle. -/
def handleReason (h : Word) : Nat := bitsOf h.toNat 47 42
/-- UNIT of a handle. -/
def handleUnit (h : Word) : Nat := bitsOf h.toNat 37 21
/-- NUNITS of a handle. -/
def handleUnits (h : Word) : Nat := bitsOf h.toNat 20 14

/-- The punt buffer (R410). -/
def puntBase : Nat := 0x42000000

/-- R429: the first of `n` contiguous free units, the lowest such. -/
def State.freeRun (s : State) (n : Nat) : Option Nat :=
  (sortUniq (0 :: s.spin.units.map fun u => u.1 + u.2)).find? fun a =>
    decide (a + n ≤ 131072) && s.spin.units.all fun u => decide (a + n ≤ u.1) || decide (u.1 + u.2 ≤ a)

/-- R431: notes units as freed, or as in use again. -/
def State.setFreed (s : State) (u n : Nat) (b : Bool) : State :=
  { s with spin := { s.spin with
    freed := (List.range n).foldl (fun (m : Tbl Bool) i => Tbl.set (Tbl.const false) m (u + i) b) s.spin.freed } }

/-- R448: units not in use. -/
def State.freeUnits (s : State) : Nat := 131072 - (s.spin.units.map (·.2)).sum

/-- R432: the reason is ordered. -/
def State.ordered (s : State) (r : Nat) : Bool := s.flag (Reg.spinPunt r) Fld.spinPuntOrdered

/-- R429: the 64-byte header of a punted copy. -/
def State.puntHeader (s : State) (x : Pkt) (h : Word) (code : BitVec 32) : List Byte :=
  let stamp : Nat := match x.stamps.getD (s.fld Reg.spinPuntCtl Fld.spinPuntCtlDomain) none with
    | some t => (timeWord t.time).toNat
    | none => 0
  toLE 8 h.toNat ++ toLE 4 code.toNat ++ toLE 2 x.inPort ++ toLE 1 x.profile ++
    toLE 1 (b2n x.parseDeep + 2 * b2n x.parseLen + 4 * b2n x.oversize + 8 * b2n x.timing + 16 * b2n x.injected +
      32 * b2n x.pick.pick2) ++
    toLE 8 stamp ++ toLE 4 x.flowHash.toNat ++ toLE 1 x.lenPair ++ [0, 0, 0] ++ toLE 32 x.user.toNat

/-- R430: a punted copy is dropped. -/
def State.puntDropped (s : State) (r : Nat) : State :=
  (s.incF (Reg.spinPunt r) Fld.spinPuntDropped).err Reg.spinErr Fld.spinErrPuntDrop.lo

/-- R429, R430, R432: a copy with reason `r` enters the buffer and its handle the reason's queue. -/
def State.puntStore (s : State) (x : Pkt) (r : Nat) (code : BitVec 32) : State :=
  let n := ceilDiv (64 + x.len) 256
  let held := (s.spin.out.filter fun (e : Handle) => handleReason e.h == r).length
  if s.spin.restarting ∨ (s.ordered r ∧ 4096 ≤ held) then s.puntDropped r
  else match s.freeRun n with
    | none => s.puntDropped r
    | some u =>
      let seq := Tbl.get (Tbl.const 0) s.spin.seqs r
      let h := handleWord seq r x.loom u n x.len
      let t := s.setBytes (puntBase + 256 * u) (s.puntHeader x h code ++ x.frame)
      let t := { t with spin := { t.spin with
        units := t.spin.units ++ [(u, n)]
        seqs := Tbl.set (Tbl.const 0) t.spin.seqs r ((seq + 1) % 65536)
        out := t.spin.out ++ [(⟨h, s.now, false⟩ : Handle)] } }
      let p := t.devicePut (s.fld (Reg.spinPunt r) Fld.spinPuntQueue) h
      if p.2 then p.1.setFreed u n false
      else (s.incF (Reg.spinQStat (s.fld (Reg.spinPunt r) Fld.spinPuntQueue)) Fld.spinQStatRefused).puntDropped r

/-- R28, R302, R429: the loom whose punt queue is served next: in round robin, of those that hold a copy which may leave. -/
def State.puntLoom (s : State) : Option Nat :=
  firstFrom s.beam.puntNext fun n => match s.queue (puntQ n) with
    | [] => false
    | c :: _ => match s.pkt? c.pkt with
      | none => true
      | some x => c.mayLeave x

/-- PUNT_TAKE: the Spindle takes the next copy of the loom's punt queue, which may read with errors (R287). -/
def execPuntTake (a : LoomRead) (s : State) : Out :=
  let n := a.loom
  if s.puntLoom ≠ some n.val ∨ s.halted = true then .next s
  else match s.queue (puntQ n.val) with
    | [] => .next s
    | c :: cs =>
      let s := { s with beam := { s.beam with puntNext := (n.val + 1) % 16 } }.setQueue (puntQ n.val) cs
      match s.pkt? c.pkt with
      | none => .next s
      | some x =>
        let r := s.readPkt x a.errs
        match x.pick.disp with
        | .punt reason code => .next ((r.1.dropRef c.pkt).puntStore r.2 reason code)
        | _ => .next (r.1.dropRef c.pkt)

/-! ## Releases (R431, R432) -/

/-- R432: a handle of the same reason, put before `h`, still keeps its place. -/
def State.earlier (s : State) (h : Word) : Bool :=
  (s.spin.out.takeWhile fun (e : Handle) => e.h != h).any fun (e : Handle) =>
    handleReason e.h == handleReason h && !e.timedOut

/-- R431, R432: the release of an outstanding handle: it is no longer outstanding, its units are freed if the
release says so, and a late one is counted. -/
def State.releaseHandle (s : State) (h : Word) (free : Bool) : State :=
  let late := s.spin.out.any fun (e : Handle) => e.h == h && e.timedOut
  let s := { s with spin := { s.spin with
    out := s.spin.out.filter (fun (e : Handle) => e.h != h)
    lostCopies := s.spin.lostCopies.filter (· != h)
    units := if free then s.spin.units.filter (fun u => u.1 != handleUnit h) else s.spin.units
    kept := if free then s.spin.kept else s.spin.kept ++ [h] } }
  let s := if free then s.setFreed (handleUnit h) (handleUnits h) true else s
  if late then
    (s.incF (Reg.spinPunt (handleReason h)) Fld.spinPuntLate).err Reg.spinErr Fld.spinErrLate.lo
  else s

/-- RELEASE_TIMEOUT: handle `h` of an ordered reason has been outstanding for RELEASE_MS: it gives up its
place. -/
def execReleaseTimeout (h : Word) (s : State) : Out := unlessHalted s <|
  let ms := s.fld Reg.spinPuntCtl Fld.spinPuntCtlReleaseMs
  if ms = 0 ∨ s.ordered (handleReason h) = false then .next s
  else .next { s with spin := { s.spin with
    out := s.spin.out.map fun (e : Handle) =>
      if e.h = h ∧ e.at_ + ms * 1000000 ≤ s.now then { e with timedOut := true } else e } }

/-! ## Injection (R433) -/

/-- R433: the fields of an inject descriptor. -/
structure InjDesc where
  addr : Nat
  handle : Word
  len : Nat
  loom : Nat
  hvalid : Bool
  fromPunt : Bool
  free : Bool
  boltv : Bool
  notify : Bool
  task : Nat
  flag : Nat
  bolt : Word
deriving DecidableEq, Repr

/-- R433: the descriptor 32 bytes spell. -/
def injDesc (b : List Byte) : InjDesc :=
  let f := ofLE (slice b 19 1)
  { addr := ofLE (slice b 0 6), handle := BitVec.ofNat 64 (ofLE (slice b 8 8)), len := ofLE (slice b 16 2),
    loom := ofLE (slice b 18 1) % 16, hvalid := f.testBit 0, fromPunt := f.testBit 1, free := f.testBit 2,
    boltv := f.testBit 3, notify := f.testBit 4, task := ofLE (slice b 20 2) % 4096,
    flag := ofLE (slice b 22 1) % 32, bolt := BitVec.ofNat 64 (ofLE (slice b 24 8)) }

/-- R331: a bolt word describes the frame's headers. -/
def boltOk (w : Word) (f : List Byte) : Bool :=
  let n := w.toNat
  let l3 := bitsOf n 47 40
  let l4 := bitsOf n 39 32
  let hl := bitsOf n 31 24
  let udp := bitsOf n 62 61 == 1
  let proto := if udp then 17 else 6
  let ip :=
    if w.getLsbD 60 then l4 == l3 + 40 && beAt f l3 1 / 16 == 6 && beAt f (l3 + 6) 1 == proto
    else l4 == l3 + 20 && beAt f l3 1 == 0x45 && beAt f (l3 + 9) 1 == proto
  let l4end := if udp then l4 + 8 else l4 + 4 * (beAt f (l4 + 12) 1 / 16)
  let tcpOk := udp || Nat.ble 5 (beAt f (l4 + 12) 1 / 16)
  Nat.ble (bitsOf n 62 61) 1 && tcpOk && bitsOf n 13 0 != 0 && hl != 0 && Nat.ble hl 192 && ip && l4end == hl &&
    Nat.ble (hl + 4) f.length

/-- R24, R379, R433, R463: a frame enters through port 512 into its loom. -/
def State.injectFrame (s : State) (d : InjDesc) (f : List Byte) : State :=
  if !s.loomActive d.loom then s.cntLoom d.loom 68
  else s.addPkt { s.newPkt f 512 d.loom with
    injected := true
    bolt := if d.boltv then d.bolt else 0
    stamps := s.ingressStamps 0 }

/-- R432, R433: an injection goes out: its handle is released and its frame enters, unless it is that of a copy dropped
since (R488, code 14). -/
def State.injectNow (s : State) (d : InjDesc) (f : List Byte) : State :=
  let lost := d.fromPunt && s.spin.lostCopies.contains d.handle
  let s := if d.hvalid then s.releaseHandle d.handle d.free else s
  if d.len = 0 ∨ lost = true then s else s.injectFrame d f

/-- R433: the frame a descriptor names. -/
def State.injectBytes (s : State) (d : InjDesc) : List Byte :=
  if d.fromPunt then s.bytes (puntBase + 256 * handleUnit d.handle + 64) d.len else s.peek d.addr d.len

/-- R360, R433: a line of what INJECT reads, its descriptor at `src` or, as `d` names it, its frame, that its channel holds
back. -/
def State.injectHeld (s : State) (src : Option Nat) (d : InjDesc) : Option Nat :=
  (src.bind fun a => s.accessHeld a 32).or (if d.fromPunt ∨ d.len = 0 then none else s.accessHeld d.addr d.len)

/-- R355, R433: what the device's reads of a descriptor and of its frame do. -/
def State.injectReads (s : State) (src : Option Nat) (d : InjDesc) : State :=
  let s := src.elim s fun a => s.peeked a 32
  if d.fromPunt ∨ d.len = 0 then s else s.peeked d.addr d.len

/-- R431: some of the `n` bytes at `a` lie in a unit of the punt buffer that has been freed. -/
def State.inFreed (s : State) (a n : Nat) : Bool :=
  let first := (a - puntBase) / 256
  decide (puntBase ≤ a) && decide (a < 0x44000000) && n != 0 &&
    (List.range ((a - puntBase + n - 1) / 256 + 1 - first)).any fun i =>
      Tbl.get (Tbl.const false) s.spin.freed (first + i)

/-- R431, R433: the uses of a descriptor that are undefined behaviour, reading freed units among them. -/
def State.injectBad (s : State) (d : InjDesc) : Option Nat :=
  let isOut := s.spin.out.any fun (e : Handle) => e.h == d.handle
  let isHeld := s.spin.heldInj.any fun (e : HeldInj) => e.h == d.handle
  if (1 ≤ d.len ∧ d.len ≤ 63) ∨ 16360 < d.len ∨ ((d.fromPunt || d.free) && !d.hvalid) = true then some 40
  else if d.hvalid && (!isOut || isHeld) then some 39
  else if d.fromPunt ∧ 256 * handleUnits d.handle - 64 < d.len then some 40
  else if (!d.fromPunt && s.inFreed d.addr d.len) = true then some 39
  else none

/-- INJECT_TAKE: the device takes the next entry of queue 255. -/
def execInjectTake (s : State) : Out :=
  match (s.squeue 255).entries with
  | [] => .next s
  | e :: es =>
    let src := e.1.toNat % 2 ^ 48
    let b := e.2.getD (s.peek src 32)
    let d := injDesc b
    let at_ := if e.2.isNone then some src else none
    if s.halted then .next s
    else match s.injectHeld at_ d with
    | some a => .next (s.hbmWake a)
    | none =>
      let s := ((s.setSqueue 255 { s.squeue 255 with entries := es }).admitPutter 255).injectReads at_ d
      let bad := if (e.2.isNone && s.inFreed src 32) = true then some 39 else s.injectBad d
      match bad with
      | some n => ub n
      | none =>
        let f := s.injectBytes d
        let bolt := d.boltv && d.bolt.getLsbD 63 && d.len != 0
        if bolt && !boltOk d.bolt f then ub 32
        else
          let s := if d.notify then s.signal d.task (BitVec.ofNat 32 (2 ^ d.flag)) else s
          let late := s.spin.out.any fun (x : Handle) => x.h == d.handle && x.timedOut
          if d.hvalid && s.ordered (handleReason d.handle) && !late && s.earlier d.handle then
            .next { s with spin := { s.spin with
              heldInj := s.spin.heldInj ++ [{ h := d.handle, desc := b, frame := f }] } }
          else .next (s.injectNow d f)

/-- R432: the held injection of reason `r` that may go out. -/
def State.heldReady (s : State) (r : Nat) : Option HeldInj :=
  s.spin.heldInj.find? fun (e : HeldInj) => handleReason e.h == r && !s.earlier e.h

/-- R432: a held injection goes out. -/
def State.releaseHeld (s : State) (e : HeldInj) : State :=
  let s := { s with spin := { s.spin with heldInj := s.spin.heldInj.filter fun (x : HeldInj) => x.h != e.h } }
  s.injectNow (injDesc e.desc) e.frame

/-- INJECT_RELEASE_HELD: a held injection of reason `r` goes out once every earlier handle is released. -/
def execInjectReleaseHeld (r : Fin 64) (s : State) : Out := unlessHalted s <|
  match s.heldReady r.val with
  | none => .next s
  | some e => .next (s.releaseHeld e)

end Sys2Proof.Machine
end

