-- ==== Sys2Proof/Machine/BattenQ.lean ====
section
/-! DEFINITION. The regions of the address space, the batten unit's queue, the host stage list, epochs and
flips (R9, R10, R82 to R93). -/

namespace Sys2Proof.Machine

/-! ## Regions (R9, R10) -/

/-- A region of the address space. -/
inductive Region where
  | reg | die | hbm | host | none
deriving DecidableEq, Repr

/-- The on-die stores: first and last address of each (R67, R118, R192, R221, R242, R256, R306, R410, R470). -/
def dieRanges : List (Nat × Nat) :=
  [(0x10000000, 0x1021FFFF), (0x10300000, 0x1031FFFF), (0x10400000, 0x105FFFFF), (0x10600000, 0x1067FFFF),
    (0x10800000, 0x10FFFFFF), (0x11000000, 0x14FFFFFF), (0x15000000, 0x1CFFFFFF), (0x20000000, 0x30FFFFFF),
    (0x31000000, 0x31827FFF), (0x31830000, 0x3183FFFF), (0x31840000, 0x31853FFF), (0x40000000, 0x401FFFFF),
    (0x41000000, 0x417FFFFF), (0x42000000, 0x43FFFFFF), (0x44000000, 0x4403FFFF), (0x44400000, 0x444FFFFF),
    (0x45000000, 0x4501FFFF), (0x60000000, 0x61FFFFFF)]

/-- R9: the block windows. -/
def inWindows (a : Nat) : Bool :=
  Nat.blt a 0x80000 || (Nat.ble 0x100000 a && Nat.blt a 0x250000) || (Nat.ble 0x300000 a && Nat.blt a 0x380000) ||
    (Nat.ble 0x400000 a && Nat.blt a 0x480000)

/-- R9, R10: the region an address lies in; between two on-die stores there is none (DESIGN CHOICE, log entry 114). -/
def regionOf (a : Nat) : Region :=
  if inWindows a then .reg
  else if dieRanges.any fun r => Nat.ble r.1 a && Nat.ble a r.2 then .die
  else if inHbm a then .hbm
  else if inHost a then .host
  else .none

/-- R11: a register access is an aligned one of 32 or 64 bits. -/
def regAccessOk (a n : Nat) : Bool := (n == 4 || n == 8) && a % n == 0

/-! ## Stage entries (R85) -/

/-- R85: the HBM regions of the service tables and of the large LPM tables. A table whose VALID is 0 has no region, and
the mirror of table 6 is none of its own (DESIGN CHOICE, log entry 107). -/
def State.inTableRegion (s : State) (a : Nat) : Bool :=
  let within := fun (base n : Nat) => Nat.ble base a && Nat.blt a (base + n)
  let stbl := fun (nb base : Nat) =>
    s.flag nb Fld.warpStbl6NbValid && within (s.fld base Fld.warpStbl6BaseBase) (64 * s.fld nb Fld.warpStbl6NbNb)
  stbl Reg.warpStbl6Nb Reg.warpStbl6Base || stbl Reg.warpStbl7Nb Reg.warpStbl7Base ||
    within (s.fld (Reg.learnLpmxBase 0) Fld.learnLpmxBaseBase) (16 * s.fld (Reg.learnLpmxCnt 0) Fld.learnLpmxCntCount) ||
    within (s.fld (Reg.learnLpmxBase 1) Fld.learnLpmxBaseBase) (32 * s.fld (Reg.learnLpmxCnt 1) Fld.learnLpmxCntCount)

/-- R11, R85: why a stage entry is undefined behaviour. -/
def State.stageBad (s : State) (a n : Nat) : Option Nat :=
  match regionOf a with
  | .reg => if regAccessOk a n then none else some 3
  | .die => none
  | .hbm => if s.inTableRegion a then none else some 7
  | _ => some 7

/-! ## The batten queue (R82, R90) -/

/-- R82: thread battens in the queue. -/
def State.threadBattens (s : State) : Nat := (s.bat.queue.filter fun b => !b.host).length

/-- R90: a host batten is queued. -/
def State.hostPend (s : State) : Bool := s.bat.queue.any fun b => b.host

/-- Puts a batten at the end of the queue. -/
def State.pushBatten (s : State) (b : BatReq) : State :=
  { s with bat := { s.bat with queue := s.bat.queue ++ [b] } }

/-- R82, R88: a thread's batten takes its place, with the task's stage list. -/
def State.placeBatten (s : State) (b : BatReq) : State :=
  let l := (s.task b.task).stage
  (s.updTask b.task fun t => { t with stage := [] }).pushBatten { b with list := l }

/-- R82: BATTEN in task `k`. -/
def State.threadBatten (s : State) (k : Nat) (ws : Bool) : State :=
  let b : BatReq := { host := false, task := k, wake := true, ws := ws, list := [] }
  if s.threadBattens < 63 then s.placeBatten b
  else { s with bat := { s.bat with waiting := s.bat.waiting ++ [b] } }

/-- R90, R100: a write of BEAM_BATTEN_CMD. -/
def State.battenCmdWrite (s : State) (v en : Word) : State :=
  if wroteOne Fld.beamBattenCmdGo v en && !s.hostPend then
    s.pushBatten { host := true, task := 0, wake := false, ws := true, list := [] }
  else s

/-- R89, R103: a write of BEAM_HSTAGE_DATA; one of 32 bits is ignored. -/
def State.hstageWrite (s : State) (v en : Word) : Except Fault State :=
  if en ≠ BitVec.allOnes 64 then .ok s
  else if 256 ≤ s.bat.hstage.length then .ok (s.setF Reg.beamHstageStat Fld.beamHstageStatFull 1)
  else
    let a := s.fld Reg.beamHstageAddr Fld.beamHstageAddrAddr
    let w := s.fld Reg.beamHstageAddr Fld.beamHstageAddrW
    match s.stageBad a (widthOf w) with
    | some n => .error (.undefinedBehaviour n)
    | none => .ok { s with bat := { s.bat with hstage := s.bat.hstage ++ [{ addr := a, w := w, data := v }] } }

/-! ## Epochs and flips (R91, R93) -/

/-- R91: the packet counts as in flight for the bank of its first pick. -/
def Pkt.inFlight (x : Pkt) : Bool :=
  match x.place with
  | .shedInput | .running | .recirc => true
  | .handed => x.pick.disp == .recirc
  | _ => false

/-- R91, R99: packets in flight of a bank. -/
def State.epochCount (s : State) (b : Bool) : Nat :=
  (s.pkts.filter fun e => match e.2 with
    | some x => x.pick.bank == b && x.inFlight
    | none => false).length

/-- R91: the bank in effect for first picks. -/
def State.activeBank (s : State) : Bool := s.flag Reg.beamDraftCtl Fld.beamDraftCtlActiveBank

/-- R51: the bytes of a stage entry. -/
def StageEntry.bytes (e : StageEntry) : List Byte := toLE (widthOf e.w) e.data.toNat

/-- A register access of `n` bytes at `a`: the word, and value and mask in place. -/
def regLane (a n : Nat) (v : Nat) : Nat × Word × Word :=
  let sh := 8 * (a % 8)
  (a / 8 * 8, BitVec.ofNat 64 ((v % 2 ^ (8 * n)) <<< sh), BitVec.ofNat 64 ((2 ^ (8 * n) - 1) <<< sh))

/-- R89: the list a batten applies; the host's is taken at step 1. -/
def State.batList (s : State) (b : BatReq) : List StageEntry := if b.host then s.bat.hstage else b.list

/-- R83, R534: the value of the register at `a` at the slot of a batten: the pending WS stages it includes,
then the register's own entries in order. `f` gives the bits an entry sets. -/
def State.slotValue (s : State) (b : BatReq) (f : Word) (a : Nat) : Word :=
  let p := s.pendingWs a
  let w0 := if b.ws then mergeMask p.1 p.2 (s.rd a) else s.rd a
  (s.batList b).foldl (fun w e =>
    let l := regLane e.addr (widthOf e.w) e.data.toNat
    if regionOf e.addr = .reg ∧ l.1 = a then mergeMask (l.2.2 &&& f) l.2.1 w else w) w0

/-- R93: the batten flips ACTIVE_BANK. -/
def State.isFlip (s : State) (b : BatReq) : Bool :=
  (s.slotValue b (wsMask Reg.beamDraftCtl) Reg.beamDraftCtl).getLsbD 0 != s.activeBank

/-- R93: the batten at the head of the queue is a flip that waits for a bank to retire. -/
def State.flipWait (s : State) : Bool :=
  match s.bat.queue with
  | b :: _ => s.bat.draining.isSome && s.isFlip b
  | [] => false

/-- R68: the header of a bank. -/
def State.draftHeader (s : State) (bank : Bool) : Nat := (s.w64 (draftBase bank)).toNat

/-- R68: DRAFT_ID of a bank. -/
def State.draftId (s : State) (bank : Bool) : Nat := bitsOf (s.draftHeader bank) 47 16

end Sys2Proof.Machine
end

