-- ==== Sys2Proof/Machine/Flow.lean ====
section
/-! DEFINITION. The flow instructions and what completes them (R58, R132 to R156). -/

namespace Sys2Proof.Machine

/-! ## Holding a head -/

/-- R34, R472, R478: a first pick's first flow lookup counts as a hit or a miss. -/
def State.countLookup (s : State) (p : Nat) (hit : Bool) : State :=
  match s.pkt? p with
  | none => s
  | some x =>
    if x.pick.looked then s
    else
      let s := s.setPkt p (some { x with pick := { x.pick with looked := true } })
      if x.pick.pick2 then s
      else if hit then s.cntShared 0
      else (s.cntShared 1).event
        { kind := 3, weight := 1, priv := 0, master := .loom x.loom, addr := none, cls := some x.profile }

/-- R138, R150 step 2: the head after a lookup by a pick at a flow time. -/
def touchHead (h : Head) (first : Bool) (now : Nat) : Head :=
  let h := hput (headBit h 30 true) 20 4 now
  if first then
    let ctl := hget h 0 4
    hput h 0 4 (ctl - bitsOf ctl 23 21 * 2 ^ 21 + min 7 (headOnset h + 1) * 2 ^ 21)
  else h

/-- The flow time a pick writes (R140). -/
def State.pickFlowTime (s : State) (x : Pkt) : Nat :=
  s.pickFlowNow x.pick.seq (s.pfld x.pick.seq Reg.warpCtl Fld.warpCtlTimeDomain)

/-- The generation a pick reads (R72, R160). -/
def State.pickGen (s : State) (x : Pkt) : Nat := s.pfld x.pick.seq Reg.warpGen Fld.warpGenCurrent

/-- R142, R150: the pick of packet `p` holds line `l`, with the updates of a lookup. `pinned`: the line
already counts this pick. -/
def State.holdLine (s : State) (p l : Nat) (pinned : Bool) : State :=
  match s.pkt? p, s.line l with
  | some x, some c =>
    let first := !x.pick.pick2
    let h := touchHead c.head first (s.pickFlowTime x)
    let img := match c.image with
      | some m =>
        if s.pickProfile x.pick.seq = 2 ∧ first then some (imgArrive m (x.arrivalUs (s.pfld x.pick.seq Reg.warpCtl Fld.warpCtlTimeDomain)))
        else some m
      | none => none
    let s := s.setLine l (some { c with
      head := h, image := img, dirty := true, refBit := true, pins := if pinned then c.pins else c.pins + 1 })
    s.setPkt p (some { x with pick := { x.pick with
      wait := .none
      held := some { line := l, key96 := headSeal h, rno := c.rno, gen := headGen h, created := false,
                     onset := headOnset h } } })
  | _, _ => s

/-- R58, R160: the status of a lookup that holds a head. -/
def State.lookStatus (s : State) (x : Pkt) (l : Nat) : Nat :=
  match s.line l with
  | some c => if headGen c.head = s.pickGen x then stOk else stStale
  | none => stMiss

/-- Some other pick waits for a head of this seal, or for a line for its pending create (R146, R154). -/
def State.sealBusy (s : State) (p : Nat) (x : Seal) : Bool :=
  s.pkts.any fun e => e.1 != p && (match e.2 with
    | some y => (match y.pick.wait with
      | .head w => w.key96 == x
      | .create w => w.key96 == x
      | _ => false)
    | none => false)

/-- R146, R154: a pick waits for the head of record `r`, or for a line for it: what else would touch the record waits. -/
def State.recBusy (s : State) (r : Nat) : Bool :=
  s.pkts.any fun e => match e.2 with
    | some y => (match y.pick.wait with
      | .head w => w.rno == r
      | .create w => w.place.rno == r
      | _ => false)
    | none => false

/-- R133: the form's mask and key string of a pick; none where st is ST_ABSENT. -/
def State.pickKey (s : State) (x : Pkt) (f zone : Nat) : Option (BitVec 32 × List Byte) :=
  match s.formMask x.pick.seq f with
  | none => none
  | some m => if x.hfValid &&& m = m then some (m, keyString m x.hf zone f) else none

/-- What a lookup finds at once. -/
inductive Looked where
  /-- The pick holds the line; the lookup was a flow-cache hit. -/
  | held (l : Nat) (s : State)
  /-- No record, by the indexes alone or by a head already read for this pick. -/
  | none_ (s : State)
  /-- A read from HBM is under way, or nothing could be done yet. -/
  | waits (s : State)

/-- R150 step 7: the line the pick reserved, if it lies in the set of this seal. -/
def State.spareFor (s : State) (x : Pkt) (k : Seal) : Option Nat :=
  match x.pick.spare with
  | none => none
  | some l =>
    match s.line l with
    | some c => if setBase (headSeal c.head) = setBase k then some l else none
    | none => none

/-- R147: line `l`, which may not be evicted, gets a second line for its tail image. -/
def State.addSecond (s : State) (l : Nat) (k : Seal) (who : EvMaster) : Option State :=
  (s.allocLine k who).map fun n =>
    (n.2.setLine n.1 (some { CLine.fresh with isSecond := true, reserved := false })).updLine l
      fun c => { c with second := some n.1 }

/-- A line for a seal: the reserved one, with a second line in W2, or an allocation. -/
def State.takeLine (s : State) (x : Pkt) (k : Seal) : Option (Nat × State) :=
  let prof := s.pickProfile x.pick.seq
  match s.spareFor x k with
  | some l =>
    let s := s.updLine l fun c => { c with head := hput 0 4 12 k.toNat }
    if prof = 2 ∧ ((s.line l).any fun c => c.second.isNone) = true then
      (s.addSecond l k (.loom x.loom)).map fun s => (l, s)
    else some (l, s)
  | none => s.allocFlow prof k (.loom x.loom)

/-- The line the pick of a packet reserved goes where it takes line `l` instead. -/
def State.dropSpare (s : State) (x : Pkt) (l : Nat) : State :=
  if x.pick.spare = some l then s else s.freeSpare x

/-- R150 step 7: the candidate has been read for this pick and holds another seal. -/
def State.alreadyRead (s : State) (x : Pkt) (k : Seal) (r : Nat) : Bool :=
  match x.pick.spare with
  | none => false
  | some l =>
    match s.line l with
    | some c => headSeal c.head == k && c.rno == r &&
        BitVec.ofNat 96 (s.le (s.headAddr r + 4) 12) != k
    | none => false

/-- R150, R154 step 1: looks up a key for the pick of packet `p`. `create` is the dest of an FCREATE. -/
def State.lookup (s : State) (p : Nat) (x : Pkt) (f : Nat) (key : List Byte) (create : Option (BitVec 6)) :
    Looked :=
  let k := s.sealOf key
  if s.sealBusy p k then .waits s
  else
    let mine := match x.kept with
      | some h => if x.pick.pick2 ∧ h.key96 = k then some h.line else none
      | none => none
    let w2 := s.pickProfile x.pick.seq == 2
    let wait (s : State) (l rno : Nat) (reqs : List Nat) : State :=
      (s.updPkt p fun x => { x with pick := { x.pick with
        spare := none
        wait := .head { key96 := k, key := key, form := f, rno := rno, line := l, create := create, reqs := reqs } } }).countLookup
          p false
    match (match mine with
      | some l => some l
      | none => s.cacheFind k) with
    | some l =>
      match s.line l with
      | none => .waits s
      | some c =>
        if w2 ∧ c.image.isNone then
          -- R147: the head gets its tail image: a second line and a read of the tail
          match (s.updLine l fun c => { c with pins := c.pins + 1 }).addSecond l k (.loom x.loom) with
          | none => .waits s
          | some s =>
            let r := (s.dropSpare x l).hbmReq true true false (s.headAddr c.rno + 64) (.loom x.loom)
            .waits (wait r.2 l c.rno [r.1])
        else .held l ((s.countLookup p true).holdLine p l false)
    | none =>
      let b := lineBank (setBase k)
      match (s.victims b).find? fun v => headSeal v.head == k with
      | some v =>
        match s.takeLine x k with
        | none => .waits s
        | some (l, s) =>
          let s := s.setVictims b ((s.victims b).filter fun u => headSeal u.head != k)
          let (s, img) := match v.image with
            | some m => (s, some m)
            | none => if w2 then
                -- R146 against R147: a hit, its tail image taken at once (DESIGN CHOICE, log entry 99)
                let r := s.readImage v.rno (headFresh v.head)
                (r.1, some r.2) else (s, none)
          let s := (s.install l v.head v.rno false img).dropSpare x l
          let s := s.updPkt p fun x => { x with pick := { x.pick with spare := none } }
          .held l ((s.countLookup p true).holdLine p l true)
      | none =>
        match s.candidate k with
        | none => .none_ (s.countLookup p false)
        | some r =>
          if s.alreadyRead x k r then .none_ s
          else
            match s.takeLine x k with
            | none => .waits s
            | some (l, s) =>
              let s := (s.updLine l fun c => { c with rno := r }).dropSpare x l
              let q := s.hbmReq true true false (s.headAddr r) (.loom x.loom)
              if w2 then
                let t := q.2.hbmReq true true false (s.headAddr r + 64) (.loom x.loom)
                .waits (wait t.2 l r [q.1, t.1])
              else .waits (wait q.2 l r [q.1])

/-- R154 step 5: the head of the new record of packet `p` is built in line `l`; its pending create ends. -/
def State.buildRec (s : State) (p : Nat) (x : Pkt) (w : CreateWait) (l : Nat) : State :=
  let pl := w.place
  let now := s.pickFlowTime x
  let gen := s.pickGen x
  let ctl := 2 ^ 31 + 2 ^ 30 + 2 ^ 29 + b2n pl.isOvf * 2 ^ 28 + w.form * 2 ^ 24 + 2 ^ 21 + gen
  let h := hput (hput (hput (hput 0 0 4 ctl) 4 12 w.key96.toNat) 16 4 now) 20 4 now
  let img := if s.pickProfile x.pick.seq = 2 then
      some (imgCreate (x.arrivalUs (s.pfld x.pick.seq Reg.warpCtl Fld.warpCtlTimeDomain)))
    else none
  let s := (s.install l h pl.rno true img).cntShared 2
  let s := s.updPkt p fun x => (x.write w.dest 1).setSt (stWord (if pl.isOvf then stRehash else stOk))
  let s := s.updPkt p fun x => { x with pick := { x.pick with
    spare := if x.pick.spare = some l then none else x.pick.spare
    wait := .none
    held := some { line := l, key96 := w.key96, rno := pl.rno, gen := gen, created := true, onset := 1 } } }
  if s.pfdigForm x.pick.seq Fld.warpFdigCtlCreateForms w.form then
    s.fdig 1 w.form w.key.length x.loom pl.rno w.key96 w.key
  else s

/-- R154 step 4: the pick of packet `p` takes a line for its pending create; none: the allocation waits. -/
def State.finishCreate (s : State) (p : Nat) (x : Pkt) (w : CreateWait) : Option State :=
  (s.takeLine x w.key96).map fun l => l.2.buildRec p x w l.1

/-- R154 steps 2 to 5: places a new record for the pick of packet `p`, and whether the FCREATE completes; where no line
is to be had, the pending create waits for one, its record placed. -/
def State.createRec (s : State) (p : Nat) (x : Pkt) (f : Nat) (key : List Byte) (dest : BitVec 6) : State × Bool :=
  let k := s.sealOf key
  match s.place (s.tableFor k) k with
  | none => ((s.err Reg.warpErr 1).updPkt p fun x => x.setSt (stWord stFull), true)
  | some pl =>
    let w : CreateWait := { key96 := k, form := f, key := key, dest := dest, place := pl }
    let s := s.commitPlace pl k
    match s.finishCreate p x w with
    | some s => (s, true)
    | none => (s.updPkt p fun x => { x with pick := { x.pick with wait := .create w } }, false)

/-- The sample address of a flow instruction (R482). -/
def State.flowAddr (s : State) (p : Nat) (hit : Bool) : Nat :=
  match s.pkt? p with
  | some x => (match x.pick.held with
    | some h => h.rno + b2n hit * 2 ^ 63
    | none => 0)
  | none => 0

/-- A pick's instruction that writes only a status word. -/
def pickSt (p code : Nat) (s : State) : PickRes := .done (s.updPkt p fun x => x.setSt (stWord code)) 0

/-- R167: the Warp serves flow instructions. -/
def State.warpOn (s : State) : Bool := s.flag Reg.warpCtl Fld.warpCtlEnable

/-- R72, R167: the Warp serves flow instructions of a pick. -/
def State.pickWarpOn (s : State) (x : Pkt) : Bool := s.pfld x.pick.seq Reg.warpCtl Fld.warpCtlEnable != 0

/-- FLOOK. -/
def execFlook (c : Ctx) (w : IWord) (s : State) : Out :=
  match c with
  | .task k => taskIllegal k.val s
  | .pick p => runPick p 0x50 (fun x s =>
      if !s.pickWarpOn x then pickSt p stAbsent s
      else if x.pick.held.isSome then pickSt p stRefused s
      else
        let f := w.fn.toNat % 16
        match s.pickKey x f ((x.read w.src1).toNat % 2 ^ 32) with
        | none => pickSt p stAbsent s
        | some (_, key) =>
          match s.lookup p x f key none with
          | .held l s =>
            let s := s.updPkt p fun y => y.setSt (stWord (s.lookStatus y l))
            .done s (s.flowAddr p true)
          | .none_ s => pickSt p stMiss s
          | .waits s => .wait s) s

/-- R154: the packet whose FCREATE waits for a line, and its pending create. -/
def State.pendingCreate (s : State) (p : Nat) : Option (Pkt × CreateWait) :=
  match s.pkt? p with
  | none => none
  | some x => match x.pick.wait with
    | .create w => some (x, w)
    | _ => none

/-- FCREATE. One whose pending create waits goes on when it is commanded again. -/
def execFcreate (c : Ctx) (w : IWord) (s : State) : Out :=
  match c with
  | .task k => taskIllegal k.val s
  | .pick p => match s.pendingCreate p with
    | some (x, cw) => unlessHalted s (match s.finishCreate p x cw with
      | none => .next s
      | some s => toOut (s.nextPick p 0x51 (s.flowAddr p false)))
    | none => runPick p 0x51 (fun x s =>
      if !s.pickWarpOn x then pickSt p stAbsent s
      else if x.pick.held.isSome then pickSt p stRefused s
      else
        let f := w.fn.toNat % 16
        match s.pickKey x f ((x.read w.src1).toNat % 2 ^ 32) with
        | none => pickSt p stAbsent s
        | some (_, key) =>
          match s.lookup p x f key (some w.dest) with
          | .held _ s => .done (s.updPkt p fun y => (y.write w.dest 0).setSt (stWord stOk)) (s.flowAddr p true)
          | .none_ s' =>
            (match s'.pkt? p with
            | none => .wait s
            | some y =>
              let r := s'.createRec p y f key w.dest
              if r.2 then .done r.1 (r.1.flowAddr p false) else .wait r.1)
          | .waits s => .wait s) s

/-- R147, R157: the tail image of a head whose tail line has been read; of an unreadable tail only the mark and
the notices come. -/
def State.tailRead (s : State) (rno form : Nat) (k : Seal) (fresh : Bool) : State × BitVec 288 :=
  let a := s.headAddr rno + 64
  let s := s.lineSeen a
  let bad := s.hbmUnc a
  let s := if bad then s.uncRead a else s
  let s := if bad && !fresh then s.lostNote rno form k else s
  s.readImage rno (fresh || bad)

/-- FLOW_HEAD_FILL: the head a pick waits for has been read (R150 steps 6 and 7, R157); `errs` come into its line. -/
def execFlowHeadFill (p : PktId) (errs : List SymErr) (s : State) : Out := unlessHalted s <|
  match s.pkt? p with
  | none => .next s
  | some x =>
    match x.pick.wait with
    | .head w =>
      if !w.reqs.all s.reqDone then .next s
      else
        let op := if w.create.isSome then 0x51 else 0x50
        let found (s : State) : Out :=
          let s := s.holdLine p w.line true
          let s := match w.create with
            | some d => s.updPkt p fun y => (y.write d 0).setSt (stWord stOk)
            | none => s.updPkt p fun y => y.setSt (stWord (s.lookStatus y w.line))
          toOut (s.nextPick p op (s.flowAddr p false))
        let lost (s : State) : Out :=
          -- no such record: an FLOOK misses and keeps the line, an FCREATE places one
          let s := s.updPkt p fun y => { y with pick := { y.pick with spare := some w.line, wait := .none } }
          match w.create with
          | none => toOut ((s.updPkt p fun y => y.setSt (stWord stMiss)).nextPick p op 0)
          | some d =>
            match s.pkt? p with
            | none => .next s
            | some y =>
              let r := s.createRec p y w.form w.key d
              if r.2 then toOut (r.1.nextPick p op (r.1.flowAddr p false)) else .next r.1
        match s.line w.line with
        | none => .next s
        | some c =>
          if !c.reserved then
            -- R147: the tail image of a cached head
            let r := (s.spoil (hbmLine (s.headAddr c.rno + 64)) errs).tailRead c.rno (headForm c.head) w.key96
              (headFresh c.head)
            found (r.1.updLine w.line fun c => { c with image := some r.2 })
          else
            match s.candidate w.key96 with
            | none => lost s
            | some r =>
              let a := s.headAddr r
              let s := (s.spoil (hbmLine a) errs).lineSeen a
              if s.hbmUnc a then lost ((s.uncRead a).loseHead r w.form w.key96)
              else
                let h : Head := BitVec.ofNat 512 (s.le a 64)
                if headValid h ∧ headSeal h = w.key96 then
                  if s.pickProfile x.pick.seq = 2 then
                    let q := s.tailRead r w.form w.key96 (headFresh h)
                    found (q.1.install w.line h r false (some q.2))
                  else found (s.install w.line h r false none)
                else lost (s.updLine w.line fun c => { c with rno := r })
    | _ => .next s

/-- R139: an offset and size that FUPD may write. -/
def fupdField (o n : Nat) : Bool := o % n == 0 && 24 ≤ o && o + n ≤ 40

/-- The new value of a field under an FUPD op (R58). -/
def fupdValue (op old n : Nat) (v : Word) : Nat :=
  match op with
  | 1 => old ||| v.toNat % 2 ^ (8 * n)
  | 2 => old &&& (2 ^ (8 * n) - 1 - v.toNat % 2 ^ (8 * n))
  | 3 => (old + v.toNat) % 2 ^ (8 * n)
  | _ => v.toNat % 2 ^ (8 * n)

/-- Changes the held head: HIT sets and the line is dirty; a discarded update is counted (R138, R156). -/
def State.updHeld (s : State) (l : Nat) (f : Head → Head) : State :=
  match s.line l with
  | none => s
  | some c =>
    let s := s.setLine l (some { c with head := headBit (f c.head) 30 true, dirty := true, refBit := true })
    if c.detached then s.cntShared 3 else s

/-- FUPD. -/
def execFupd (c : Ctx) (w : IWord) (s : State) : Out :=
  match c with
  | .task k => taskIllegal k.val s
  | .pick p => runPick p 0x52 (fun x s =>
      if !s.pickWarpOn x then pickSt p stAbsent s
      else match x.pick.held with
        | none => pickSt p stAbsent s
        | some h =>
          let op := w.fn.toNat % 8
          let o := w.val.toNat % 64
          let n := widthOf (w.val.toNat / 64)
          if op = 4 then
            .done ((s.updHeld h.line fun y => hput y 0 2 (s.pickGen x)).updPkt p fun y =>
              y.setSt (stWord stOk)) h.rno
          else if !fupdField o n then pickSt p stRefused s
          else
            .done ((s.updHeld h.line fun y => hput y o n (fupdValue op (hget y o n) n (x.read w.src1))).updPkt p
              fun y => y.setSt (stWord stOk)) h.rno) s

/-- R153: adds to a delta pair, after an overflow fold where one would carry. -/
def State.foldInto (s : State) (w2 : Bool) (l pair bytes pkts loom : Nat) : State :=
  match s.line l with
  | none => s
  | some c =>
    let d := delta c.head pair
    let s :=
      if 0xFFFF < d.1 + pkts ∨ 0xFFFFFFFF < d.2 + bytes then
        if c.detached then s.updLine l fun c => { c with head := noDeltas c.head }
        else
          let r := s.fold w2 true (.loom loom) c.rno c.image c.head
          r.1.updLine l fun c => { c with head := r.2.1 }
      else s
    s.updHeld l fun h =>
      let d := delta h pair
      hput (hput h (40 + 6 * pair) 2 (d.1 + pkts)) (42 + 6 * pair) 4 (d.2 + bytes)

/-- FFOLD. -/
def execFfold (c : Ctx) (w : IWord) (s : State) : Out :=
  match c with
  | .task k => taskIllegal k.val s
  | .pick p => runPick p 0x53 (fun x s =>
      if !s.pickWarpOn x then pickSt p stAbsent s
      else match x.pick.held with
        | none => pickSt p stAbsent s
        | some h =>
          let bytes := (x.read w.src1).toNat % 2 ^ 32
          let pkts := w.val.toNat % 2 ^ 16
          let s := if bytes = 0 ∧ pkts = 0 then s else s.foldInto (s.pickProfile x.pick.seq == 2) h.line (w.fn.toNat % 4) bytes pkts x.loom
          .done (s.updPkt p fun y => y.setSt (stWord stOk)) h.rno) s

/-! ## Deletion and the victim buffer -/

/-- The cached line of record `r`. -/
def State.lineOfRec (s : State) (r : Nat) : Option Nat :=
  (s.warp.cache.find? fun e => match e.2 with
    | some c => !c.reserved && !c.detached && !c.isSecond && c.rno == r
    | none => false).map (·.1)

/-- The victim-buffer entry of record `r`, with its bank. -/
def State.victimOfRec (s : State) (r : Nat) : Option (Nat × Victim) :=
  s.warp.victims.findSome? fun e => (e.2.find? fun v => v.rno == r).map fun v => (e.1, v)

/-- The head of record `r` as the cache, the victim buffer or HBM holds it. -/
def State.headOf (s : State) (r : Nat) : Head :=
  match s.lineOfRec r with
  | some l => (match s.line l with
    | some c => c.head
    | none => 0)
  | none =>
    match s.victimOfRec r with
    | some (_, v) => v.head
    | none => BitVec.ofNat 512 (s.le (s.headAddr r) 64)

/-- The tail image of record `r`, where the cache holds one. -/
def State.imageOf (s : State) (r : Nat) : Option (BitVec 288) :=
  match s.lineOfRec r with
  | some l => (match s.line l with
    | some c => c.image
    | none => none)
  | none => none

/-- R166: a tail as it stands, with the deltas added into the totals; pairs 2 and 3 have none in W2, and outside W2 a
MODE 1 tail gives its AREA up only to deltas of those pairs (R152). -/
def coherentTail (w2 : Bool) (h : Head) (old : List Byte) : List Byte :=
  let t := [0, 1].foldl (addPair h) old
  if w2 || (delta h 2 == (0, 0) && delta h 3 == (0, 0)) then t
  else
    let t := if (ofLE (slice t 28 4)).testBit 31 then patch t 28 (List.replicate 36 0) else t
    [2, 3].foldl (addPair h) t

/-- R166: the record as a coherent read returns it: head with no deltas and FRESH 0, tail with the
deltas added. -/
def State.coherent (s : State) (r : Nat) : List Byte :=
  let h := s.headOf r
  let w2 := s.profile == 2
  let old := s.bytes (s.headAddr r + 64) 64
  let t := if headFresh h then foldTail w2 true (s.imageOf r) h old else coherentTail w2 h old
  let t := match s.imageOf r with
    | some m => if w2 then patch t 28 (toLE 36 m.toNat) else t
    | none => t
  headBytes (headBit (noDeltas h) 29 false) ++ t

/-- R159: the reads of record `r` outside the flow share: its head unless the cache or the victim buffer holds it, and
its tail. -/
def State.readRec (s : State) (who : EvMaster) (r : Nat) : State :=
  let a := s.headAddr r
  let s := if (s.lineOfRec r).isNone && (s.victimOfRec r).isNone then s.hbmTraffic false true who a 64 else s
  s.hbmTraffic false true who (a + 64) 64

/-- R157: the tail of record `r` is read; an uncorrectable one is written again, fold-initialised. -/
def State.mendTail (s : State) (r : Nat) (h : Head) : State :=
  let a := s.headAddr r + 64
  if !headFresh h && s.hbmUnc a then
    ((s.uncRead a).lostNote r (headForm h) (headSeal h)).hbmPut a (foldTail (s.profile == 2) true (s.imageOf r) 0 [])
  else s

/-- R216: the END digest of record `r`, from a coherent read. -/
def State.endDigest (s : State) (who : EvMaster) (r : Nat) (h : Head) : State :=
  if s.fdigForm Fld.warpFdigCtlExportForms (headForm h) ∧ s.flag Reg.warpFdigCtl Fld.warpFdigCtlEndEn then
    let s := (s.readRec who r).mendTail r h
    let c := s.coherent r
    s.fdig 2 (headForm h) 0 255 r (headSeal h)
      (slice c 64 8 ++ slice c 72 8 ++ slice c 80 8 ++ slice c 88 4 ++ slice c 16 4 ++ slice c 36 4 ++
        slice c 24 8)
  else s

/-- R155 step 5, R156: deletes record `r`, whose head is `h`. -/
def State.deleteRec (s : State) (who : EvMaster) (r : Nat) (h : Head) : State :=
  let s := s.endDigest who r h
  let s := match s.lineOfRec r with
    | some l =>
      (match s.line l with
      | some c => if c.pins = 0 then s.freeLine l else s.setLine l (some { c with detached := true })
      | none => s)
    | none => s
  let s := match s.victimOfRec r with
    | some (b, _) => s.setVictims b ((s.victims b).filter fun v => v.rno != r)
    | none => s
  ((s.hbmTraffic false false who (s.headAddr r) 64).hbmPut (s.headAddr r) (headBytes (headBit h 31 false))).freeRec r

/-- R155 for record `r`: the status, and what the delete changes. A head that cannot be read is lost with its record, and
the answer is ST_ABSENT (DESIGN CHOICE, log entry 127). -/
def State.deleteIdle (s : State) (who : EvMaster) (r : Nat) (clear : Bool) : Nat × State :=
  if !s.isPlaced r then (stAbsent, s)
  else
    let a := s.headAddr r
    let inHbmOnly := (s.lineOfRec r).isNone && (s.victimOfRec r).isNone
    let s := s.hbmTraffic false true who a 64
    if inHbmOnly && s.hbmUnc a then (stAbsent, (s.uncRead a).loseRec r)
    else
      let h := s.headOf r
      if headHit h then
        (stRefused,
          if !clear then s
          else match s.lineOfRec r with
            | some l => s.updLine l fun c => { c with head := headBit c.head 30 false, dirty := true }
            | none =>
              let s := match s.victimOfRec r with
                | some (b, _) => s.setVictims b ((s.victims b).map fun (v : Victim) =>
                    if v.rno = r then { v with head := headBit v.head 30 false } else v)
                | none => s
              (s.hbmTraffic false false who a 64).hbmPut a (headBytes (headBit h 30 false)))
      else (stOk, s.deleteRec who r h)

/-- R155: FDELIDLE in task `k`. It waits for a lookup or create of its record (R157), and for a channel that holds the
record back (R360, R366). -/
def fdelidleTask (w : IWord) (k : Nat) (t : Task) (s : State) : TaskRes :=
  let r := (t.read w.src1).toNat % 2 ^ 28
  let fin (code : Nat) (s : State) : TaskRes := .done (s.updTask k fun t => { t with stReg := stWord code })
  if !s.warpOn || !s.isPlaced r then fin stAbsent s
  else if s.recBusy r then .hold s
  else match s.accessHeld (s.headAddr r) 128 with
    | some a => .hold (s.hbmWake a)
    | none =>
      let d := s.deleteIdle (.task k) r (w.fn.getLsbD 0)
      fin d.1 d.2

/-- FDELIDLE. -/
def execFdelidle (c : Ctx) (w : IWord) (s : State) : Out :=
  match c with
  | .pick p => pickIllegal p 0x54 s
  | .task k => runTask k.val 0x54 w (fdelidleTask w k.val) s

/-- VICTIM_RELEASE: entry `n` of bank `b` leaves the victim buffer once its writes are issued (R151). -/
def execVictimRelease (b : Fin 64) (n : Nat) (s : State) : Out := unlessHalted s <|
  match (s.victims b.val)[n]? with
  | none => .next s
  | some v =>
    if v.reqs.all s.reqDone then .next (s.setVictims b.val ((s.victims b.val).eraseIdx n)) else .next s

end Sys2Proof.Machine
end

