-- ==== Sys2Proof/Machine/Creel.lean ====
section
/-! DEFINITION. The Creel and the Treadle: command slots, refresh, rest, replays, retraining searches,
retirement, scrub, stack loss, and the CREEL registers (R352 to R372, R493). -/

namespace Sys2Proof.Machine

/-- The number of a channel: 32 × stack + channel. -/
def chNum (c : ChanId) : Nat := 32 * c.stack.val + c.chan.val

/-! ## Command slots (R353 to R357) -/

/-- R355: length of the slot table of the profile in force. -/
def State.slotLen (s : State) : Nat := if s.profile = 1 then 20 else 10

/-- R355: slot `i` belongs to FLOW. -/
def State.slotFlow (s : State) (i : Nat) : Bool :=
  if s.profile = 1 then i % 20 != 19 else i % 10 != 4 && i % 10 != 9

/-- R357: slots from slot `i` until the next that a class owns, at most 15. -/
def State.turnHint (s : State) (i : Nat) (flow : Bool) : Nat :=
  ((List.range 15).find? fun k => s.slotFlow (i + k + 1) == flow).elim 15 (· + 1)

/-- R353 rule 4: two requests of which the later may not pass the earlier: to one line, or, where one is the copy of a
granule, to one granule. -/
def Req.meets (p q : Req) : Bool :=
  if p.copy || q.copy then p.line / 256 == q.line / 256 else p.line == q.line

/-- R353 rule 4: the requests that no earlier one stands before. -/
def blocked : List Req → List Req → List Req
  | _, [] => []
  | before, r :: rs =>
    if before.any fun q => q.meets r then blocked (before ++ [r]) rs
    else r :: blocked (before ++ [r]) rs

/-- R353: the request of a class that ranks first among the first 128 of those that may go. -/
def Chan.rank (x : Chan) (now : Nat) (may : Req → Bool) (flow : Bool) : Option Req :=
  let q := (blocked [] (x.queue.take 128)).filter fun r =>
    r.flow == flow && may r && decide (Tbl.get (Tbl.const 0) x.refUntil (hbmBank r.line) ≤ now)
  match q.find? fun r => r.at_ + 500 ≤ now with
  | some r => some r
  | none =>
    match q.find? fun r => Tbl.get (Tbl.const none) x.openRow (hbmBank r.line) == some (hbmRow r.line) with
    | some r => some r
    | none => q.head?

/-- R363, R366: a request of channel `c` may go: the copy of a granule once, and no sooner than RETIRE_RATE allows; at
a FROZEN channel nothing but the copy. -/
def State.mayIssue (s : State) (c : Nat) (r : Req) : Bool :=
  if r.copy then (s.retireOf c).any fun t => !t.granted && decide (t.notBefore ≤ s.now)
  else s.chanState c != 3

/-- R356: the request of a class that channel `c` would issue; in power-down it issues none (R359). -/
def State.chanRank (s : State) (c : Nat) (flow : Bool) : Option Req :=
  if s.fld (chanReg c) Fld.creelChanRest = 0 then (s.chan c).rank s.now (s.mayIssue c) flow else none

/-- R361: a command enters the retry buffer, and draws no alert. -/
def Chan.issued (x : Chan) (k : HbmCmd) : Chan :=
  { x with
    retry := (x.retry ++ [k]).drop (x.retry.length + 1 - 64)
    alerts := 0
    openRow := match k with
      | .access b row => Tbl.set (Tbl.const none) x.openRow b (some row)
      | .refresh b => Tbl.set (Tbl.const none) x.openRow b none }

/-- R478: channel `c` issues an access to a line for a master. -/
def State.hbmAccess (s : State) (c line : Nat) (who : EvMaster) : State :=
  let b := hbmBank line
  let hit := Tbl.get (Tbl.const none) (s.chan c).openRow b == some (hbmRow line)
  let s := s.updChan c fun x => x.issued (.access b (hbmRow line))
  let priv := match who with
    | .loom _ => 0
    | .task _ => 1
    | .host => 2
    | .internal => 3
  let e : GEvent := { kind := 5, weight := 1, priv := priv, master := who, addr := some line, cls := none }
  let s := s.event e
  if hit then s.event { e with kind := 6 } else s

/-- R356, R478: issues a request of channel `c`; a fold or a read-modify-write is two commands. The copy of a granule
stays queued until it is done, so that requests to the granule wait (R363). -/
def State.issueReq (s : State) (c : Nat) (r : Req) : State :=
  if r.copy then
    let s := (List.range 4).foldl (fun s i => s.hbmAccess c (r.line + 64 * i) .internal) s
    match s.retireOf c with
    | some t => s.setRetire (t.src / 32) (some { t with granted := true })
    | none => s
  else
    let s := (s.dropReqs c fun q => q.id == r.id).hbmAccess c r.line r.who
    if r.pair then s.hbmAccess c r.line r.who else s

/-- R358: a refresh of bank `b` of channel `c` is issued, and occupies the bank for 120 ns. -/
def State.refresh (s : State) (c b : Nat) : State :=
  s.updChan c fun x => { x.issued (.refresh b) with
    owed := Tbl.upd (Tbl.const 0) x.owed b (· - 1)
    deadline := if x.deadline = some b then none else x.deadline
    refUntil := Tbl.set (Tbl.const 0) x.refUntil b (s.now + 120) }

/-- R356 rule 1: a bank whose refresh is forced: the one whose deadline came last, where it is still eight behind, else
the first that is. -/
def Chan.forced (x : Chan) : Option Nat :=
  (x.deadline.filter fun b => decide (8 ≤ Tbl.get (Tbl.const 0) x.owed b)).or
    ((x.owed.find? fun e => 8 ≤ e.2).map (·.1))

/-- R358: a due bank that has no queued request; first one with pending requests, behind the queue's 128, of a class
alone whose turn hint is 2 or more. -/
def Chan.dueFree (x : Chan) : Option Nat :=
  let free := (x.owed.filter fun e => 1 ≤ e.2 &&
    !((x.queue.take 128).any fun r => hbmBank r.line == e.1)).map (·.1)
  let far (r : Req) : Bool := decide (2 ≤ if r.flow then x.hintFlow else x.hintOther)
  let behind (b : Nat) := (x.queue.drop 128).filter fun r => hbmBank r.line == b
  (free.find? fun b => !(behind b).isEmpty && (behind b).all far).or free.head?

/-- R367: the period of the patrol of channel `c`'s Creel in ns. -/
def State.scrubNs (s : State) (c : Nat) : Nat := 3600000000000 * s.fld (Reg.creelCtl (c / 32)) Fld.creelCtlScrubHours

/-- R349: lines in a logical slot. -/
def slotLines : Nat := 8388608

/-- R367: the patrol of channel `c` has a line to read: its pass, spread evenly over its period, stands behind. A
retirement of the slot reads and writes every line itself (DESIGN CHOICE, log entry 103). -/
def State.scrubDue (s : State) (c : Nat) : Bool :=
  let x := s.chan c
  s.scrubNs c != 0 && s.chanState c < 2 && (s.retireOf c).isNone && decide (x.patrol < slotLines) &&
    decide (x.patrol * s.scrubNs c ≤ (s.now - x.patrolAt) * slotLines)

/-- R367: a new pass of the patrol begins with each period, once the last one has read its lines. -/
def State.patrolTurn (s : State) (c : Nat) : State :=
  if s.scrubNs c ≠ 0 ∧ slotLines ≤ (s.chan c).patrol ∧ (s.chan c).patrolAt + s.scrubNs c ≤ s.now then
    s.updChan c fun x => { x with patrol := 0, patrolAt := s.now }
  else s

/-- R356 rules 4 and 5: what a slot that no request takes falls to. -/
def State.background (s : State) (c : Nat) : Slot :=
  let x := s.chan c
  match x.dueFree with
  | some b => .refresh b
  | none =>
    if s.fld (chanReg c) Fld.creelChanRest ≠ 0 then .idle
    else if s.scrubDue c then .scrub
    else if x.searching then .step else .idle

/-- R356: who wins the slot at position `i` of channel `c`, and whether it is an owned slot that a retraining step takes
(R362: no more than one in ten; `step` asks for it). -/
def State.decideSlot (s : State) (c i : Nat) (step : Bool) : Slot :=
  let x := s.chan c
  let f := s.chanRank c true
  let o := s.chanRank c false
  match x.forced with
  | some b => .refresh b
  | none =>
    if step && x.searching && decide (9 ≤ x.stepGap) then .step
    else match (if s.slotFlow i then f else o).or (if s.slotFlow i then o else f) with
      | some r => .req r.id
      | none => s.background c

/-- R357: the next slot goes to `w`: a class with a request queued that does not win it gets a turn hint. -/
def State.setNextSlot (s : State) (c i : Nat) (w : Slot) : State :=
  let q := (s.chan c).queue.filter fun r => !r.copy || s.mayIssue c r
  let lost (flow : Bool) : Bool := (q.any fun r => r.flow == flow) && q.all fun r => r.flow != flow || w != .req r.id
  let hf := if lost true then s.turnHint i true else 0
  let ho := if lost false then s.turnHint i false else 0
  let own := w == .step && ((s.chanRank c true).isSome || (s.chanRank c false).isSome)
  s.updChan c fun x => { x with
    hintFlow := hf, hintOther := ho, slotPos := i, nextSlot := w
    stepGap := if own then 0 else min 9 (x.stepGap + 1) }

/-- R356: carries out what the slot that begins was decided to go to; a request that has been withdrawn, or whose bank a
refresh occupies, leaves it idle (R353, R357). -/
def State.runSlot (s : State) (c : Nat) : State :=
  let x := s.chan c
  let w := x.nextSlot
  let s := s.updChan c fun x => { x with slot := w, stepped := x.stepped || w == .step }
  match w with
  | .refresh b => s.refresh c b
  | .req id =>
    match x.queue.find? fun r => r.id == id && decide (Tbl.get (Tbl.const 0) x.refUntil (hbmBank r.line) ≤ s.now) with
    | some r => s.issueReq c r
    | none => s.updChan c fun x => { x with slot := .idle }
  | _ => s

/-- R351: symbol errors come into lines that channel `c` serves. -/
def State.spoilLines (s : State) (c : Nat) (errs : List (Fin 2013265920 × List SymErr)) : State :=
  errs.foldl (fun (s : State) e =>
    if s.servedBy (hbmBase + 64 * e.1.val) = some c then s.spoil e.1.val e.2 else s) s

/-- Channel `c` has command slots: it serves a slot, or takes part in a retirement, and is awake or in power-down. -/
def State.chanUp (s : State) (c : Nat) : Bool :=
  let st := s.chanState c
  (st < 2 || st == 3 || st == 5) && s.fld (chanReg c) Fld.creelChanRest < 2 && !s.stackLost (s.servesStack c)

/-- TREADLE_SLOT: one command slot of a channel: the slot decided one slot ago is carried out, and the next one is
decided from the requests queued when this one begins (R357). Errors that come into its lines meet the reads made from
then on (log entry 49). Retirements that wait begin. -/
def execTreadleSlot (ch : ChanId) (r : SlotRead) (s : State) : Out := unlessReset s <|
  let c := chNum ch
  if !s.chanUp c then .next s
  else
    let s := (((s.patrolTurn c).runSlot c).spoilLines c r.errs).settleLoads.startWaiting
    let i := ((s.chan c).slotPos + 1) % s.slotLen
    .next (s.setNextSlot c i (s.decideSlot c i r.step))

/-- REFRESH_DUE: a refresh of a bank falls due; in self-refresh the stack does it itself (R359). No bank falls more
than 8 behind. The stack's report comes with it: its hottest die's temperature (R358, R369). -/
def execRefreshDue (ch : ChanId) (r : BankReport) (s : State) : Out := unlessReset s <|
  let b := r.bank
  let c := chNum ch
  let s := { s with creel := { s.creel with temp := Tbl.set (Tbl.const 0) s.creel.temp (c / 32) r.temp.toNat } }
  let st := s.chanState c
  if !(st < 2 || st == 3 || st == 5) || 2 ≤ s.fld (chanReg c) Fld.creelChanRest then .next s
  else .next (s.updChan c fun x => { x with owed := Tbl.upd (Tbl.const 0) x.owed b.val fun n => min 8 (n + 1) })

/-- REFRESH_DEADLINE: the refresh of a bank eight behind is forced: it takes the next slot to be decided (R356 rule 1). -/
def execRefreshDeadline (ch : ChanId) (b : Fin 32) (s : State) : Out := unlessReset s <|
  let c := chNum ch
  if !s.chanUp c ∨ Tbl.get (Tbl.const 0) (s.chan c).owed b.val < 8 then .next s
  else .next (s.updChan c fun x => { x with deadline := some b.val })

/-! ## Rest (R359, R360) -/

/-- CHANNEL_REST: in W3 a channel idle for IDLE_US enters its rest grade. -/
def execChannelRest (ch : ChanId) (s : State) : Out := unlessReset s <|
  let c := chNum ch
  let ctl := Reg.creelCtl (c / 32)
  let g := s.fld ctl Fld.creelCtlRestGrade
  let x := s.chan c
  if s.profile = 3 ∧ g ≠ 0 ∧ s.chanState c < 4 ∧ x.queue = [] ∧ !x.searching ∧
      (s.retireOf c).isNone ∧ x.idleAt + 1000 * max 1 (s.fld ctl Fld.creelCtlIdleUs) ≤ s.now then
    .next ((s.setF (chanReg c) Fld.creelChanRest g).updChan c fun x => { x with wake := false, nextSlot := .idle })
  else .next s

/-- R360 steps 4 and 5: channel `c` leaves rest; the request that waits first has the next slot. -/
def State.wakeChan (s : State) (c : Nat) : State :=
  (s.setF (chanReg c) Fld.creelChanRest 0).updChan c fun x => { x with
    wake := false, idleAt := s.now, nextSlot := x.queue.head?.elim .idle fun r => .req r.id }

/-- REST_EXIT: a resting channel that a request has reached wakes. -/
def execRestExit (ch : ChanId) (s : State) : Out :=
  let c := chNum ch
  let x := s.chan c
  if s.fld (chanReg c) Fld.creelChanRest = 0 ∨ (x.queue = [] ∧ !x.wake) then .next s
  else .next (s.wakeChan c)

/-- R359: a change of profile out of W3 wakes every channel. -/
def State.wakeAll (s : State) : State :=
  (List.range 256).foldl (fun s c =>
    if s.fld (chanReg c) Fld.creelChanRest = 0 then s else s.wakeChan c) s

/-! ## Replays and searches (R361, R362) -/

/-- R361: a command is replayed. -/
def Chan.replay (x : Chan) (now : Nat) : HbmCmd → Chan
  | .access b row => { x with openRow := Tbl.set (Tbl.const none) x.openRow b (some row) }
  | .refresh b => { x with openRow := Tbl.set (Tbl.const none) x.openRow b none,
                           refUntil := Tbl.set (Tbl.const 0) x.refUntil b (now + 120) }

/-- R361, R370: the replays of channel `c` escalate to a search. The bit posts a MASKED record, for which R488 names no
mechanism code: it is a free value. -/
def State.replayEsc (s : State) (c : Nat) : State :=
  let reg := Reg.creelErr (c / 32)
  let s := s.wr (Reg.creelErrInfo (c / 32)) (Fld.creelErrInfoChannel.put 0 (c % 32))
  let s := if s.flag reg Fld.creelErrReplayEsc then s
    else
      let d := s.draw
      (d.2.setF reg Fld.creelErrReplayEsc 1).masked (d.1 % 65536) (srcOf reg) c 0
  s.wantSearch c

/-- PARITY_ALERT: the last commands of the channel, those the stack has not confirmed, are replayed in their order; a
fifth alert in a row, or more than 16 in 1 ms, starts a search. -/
def execParityAlert (r : ParityReport) (s : State) : Out := unlessReset s <|
  let c := chNum r.chan
  if !s.chanUp c then .next s
  else
    let x := s.chan c
    let times := (x.alertTimes.filter fun t => s.now < t + 1000000) ++ [s.now]
    let fifth := 5 ≤ x.alerts + 1
    let esc := fifth || 16 < times.length
    let s := if fifth then s
      else (s.satF (chanReg c) Fld.creelChanReplays).updChan c fun x =>
        (x.retry.drop (x.retry.length - r.unconfirmed.val)).foldl (fun x k => x.replay s.now k) x
    let s := s.updChan c fun x => { x with alerts := if esc then 0 else x.alerts + 1, alertTimes := times }
    .next (if esc then s.replayEsc c else s)

/-- R362: the temperature of channel `c`'s stack has changed by 20 °C since its last search. -/
def State.tempMoved (s : State) (c : Nat) : Bool :=
  let t := Tbl.get (Tbl.const 0) s.creel.temp (c / 32)
  let u := (s.chan c).searchTemp
  t + 20 ≤ u || u + 20 ≤ t

/-- RETRAIN_SEARCH_START: a search that a trigger wants starts; a resting channel wakes for it first (R354). -/
def execRetrainSearchStart (ch : ChanId) (s : State) : Out := unlessReset s <|
  let c := chNum ch
  let x := s.chan c
  if (x.wanted ∨ s.tempMoved c) ∧ !x.searching ∧ !s.isRetiring c ∧
      (s.chanState c < 2 ∨ (s.chanState c = 3 ∧ x.releasing)) then
    if s.fld (chanReg c) Fld.creelChanRest ≠ 0 then .next (s.updChan c fun x => { x with wake := true })
    else .next (s.updChan c fun x => { x with
      wanted := false, searching := true, stepped := false, ceTimes := []
      searchTemp := Tbl.get (Tbl.const 0) s.creel.temp (c / 32) })
  else .next s

/-- R366, R372: channel `c` serves a slot, or is still copied. -/
def State.chanServing (s : State) (c : Nat) : Bool :=
  s.chanState c < 2 || s.isRetiring c ||
    s.servedBy (slotLine (s.fld (chanReg c) Fld.creelChanSlotStack) (s.fld (chanReg c) Fld.creelChanSlot) 0 0) == some c

/-- R366: the search of a release of channel `c` has ended: SPARE, or DEAD. -/
def State.released (s : State) (c : Nat) (good : Bool) : State :=
  let s := { s with creel := { s.creel with waiting := s.creel.waiting.filter fun w => w.1 != c } }
  if good then s.setChanState c 2
  else if s.chanServing c then s.chanDead c
  else s.setChanState c 4

/-- RETRAIN_SEARCH_DONE: the search, some step of which has been taken, ends; a search of a release returns the channel
as SPARE or DEAD (R366). -/
def execRetrainSearchDone (ch : ChanId) (r : SearchResult) (s : State) : Out :=
  let c := chNum ch
  let x := s.chan c
  if !x.searching ∨ !x.stepped then .next s
  else
    let s := (s.updChan c fun x => { x with searching := false, releasing := false }).creelCmdOf c
      (if x.releasing then 3 else 1) stOk
    if x.releasing then .next (s.released c (decide (r = .active)))
    else match r with
      | .active => .next (s.setChanState c 0)
      | .relaxed => .next ((s.setChanState c 1).startRetire c true)
      | .dead => .next (s.chanDead c)

/-! ## Retirement (R363) -/

/-- SPARE_TRAINED: the spare of the retirement of stack `k` is trained, or is DEAD and the next one is
taken. -/
def execSpareTrained (k : StackId) (ok : Bool) (s : State) : Out :=
  match s.retiring k.val with
  | none => .next s
  | some r =>
    if r.copying then .next s
    else if ok then
      .next (((s.setRetire k.val (some { r with copying := true })).setF (Reg.creelRetireStat k.val)
        Fld.creelRetireStatActive 1).queueCopy r)
    else .next (s.chanDead r.dst)

/-- R363 step 3: one line of the granule is copied or filled; `errs` come into it as the source is read. -/
def State.copyRetired (s : State) (r : Retire) (a : Nat) (errs : List SymErr) : State :=
  let s := if r.copy then (s.spoil (hbmLine a) errs).lineSeen a else s
  if r.copy ∧ !s.hbmUnc a then s.setErrs (hbmLine a) []
  else
    let s := if r.copy then s.uncAlone a else s
    match s.otherCopy a with
    | some m =>
      if s.hbmUnc m then (s.setBad (hbmLine a) true).incF (Reg.creelRetireStat (r.src / 32)) Fld.creelRetireStatLost
      else (s.setBytes a (s.bytes m 64)).setBad (hbmLine a) false
    | none => (s.setBad (hbmLine a) true).incF (Reg.creelRetireStat (r.src / 32)) Fld.creelRetireStatLost

/-- R363 step 4: the slot maps to the spare. -/
def State.retireEnd (s : State) (r : Retire) : State :=
  let k := r.src / 32
  let x := s.chan r.src
  let s := (s.setF (chanReg r.dst) Fld.creelChanSlotStack r.slotStack).setF (chanReg r.dst) Fld.creelChanSlot r.slot
  let s := s.setChanState r.dst 0
  let s := (s.dropReqs r.src fun _ => true).updChan r.dst fun y => { y with
    queue := y.queue ++ x.queue, patrol := x.patrol, patrolAt := x.patrolAt }
  let s := (s.setRetire k none).setF (Reg.creelRetireStat k) Fld.creelRetireStatActive 0
  let s := if s.chanState r.src = 3 then s else (s.setChanState r.src 4).searchOff r.src
  let s := (s.setF (Reg.creelErr k) Fld.creelErrRetired 1).wr (Reg.creelErrInfo k)
    (Fld.creelErrInfoChannel.put 0 (r.src % 32))
  let s := s.masked 3 (srcOf (Reg.creelErr k)) r.src (s.fld (Reg.creelRetireStat k) Fld.creelRetireStatLost)
  (s.creelCmdOf r.src 2 stOk).nextRetire k

/-- R368: ns that RETIRE_RATE leaves a granule of Creel `k`. -/
def State.granuleNs (s : State) (k : Nat) : Nat :=
  let rate := max 1 (s.fld (Reg.creelCtl k) Fld.creelCtlRetireRate)
  (256 + rate - 1) / rate

/-- RETIRE_COPY_GRANULE: granule CURSOR, whose copy has won its slot, is copied; `errs` come into its lines as the
source is read. Requests that waited for it go to the spare. -/
def execRetireCopyGranule (k : StackId) (errs : List (List SymErr)) (s : State) : Out :=
  match s.retiring k.val with
  | none => .next s
  | some r =>
    if !r.copying ∨ !r.granted then .next s
    else
      let w := s.fld (Reg.creelRetireStat k.val) Fld.creelRetireStatCursor
      let s := (List.range 4).foldl (fun s i =>
        s.copyRetired r (slotLine r.slotStack r.slot w i) (errs.getD i [])) s
      let s := s.setF (Reg.creelRetireStat k.val) Fld.creelRetireStatCursor (w + 1)
      let s := (List.range 4).foldl (fun s i => s.hbmAccess r.dst (slotLine r.slotStack r.slot w i) .internal) s
      let q := (s.chan r.src).queue
      let here (x : Req) : Bool := granule x.line == granule (slotLine r.slotStack r.slot w 0)
      let s := (s.dropReqs r.src fun y => y.copy || here y).dropReqs r.dst fun y => y.copy
      let s := s.updChan r.dst fun x => { x with queue := x.queue ++ q.filter fun y => !y.copy && here y }
      let r := { r with granted := false, notBefore := s.now + s.granuleNs k.val }
      let s := s.setRetire k.val (some r)
      .next (if w + 1 = 2097152 then s.retireEnd r else s.queueCopy r)

/-! ## Registers (R368 to R372) -/

/-- R371: performs the ACTION of CREEL_CMD of Creel `k`. A FROZEN channel whose slot has been moved has nothing to
retire: ST_OK at once (DESIGN CHOICE, log entry 102). -/
def State.creelAction (s : State) (k : Nat) : State :=
  let cmd := Reg.creelCmd k
  let i := s.fld cmd Fld.creelCmdChannel
  let c := 32 * k + i
  let act := s.fld cmd Fld.creelCmdAction
  let busy (s : State) : State :=
    let s := s.wr (Reg.creelCmdStat k) (Fld.creelCmdStatBusy.put 0 1)
    { s with creel := { s.creel with cmd := Tbl.set (Tbl.const none) s.creel.cmd k (some (act, i)) } }
  match act with
  | 1 => if s.chanState c < 2 then (busy s).wantSearch c else s.creelCmdEnd k stOk
  | 2 =>
    let st := s.chanState c
    if st = 2 ∨ st = 4 ∨ st = 5 then s.creelCmdEnd k stRefused
    else if s.isRetiring c then busy s
    else if !s.chanServing c then s.creelCmdEnd k stOk
    else if (s.pickSpare k).isNone then s.creelCmdEnd k stFull
    else (busy s).startRetire c true
  | 3 =>
    if s.chanState c ≠ 3 then s.creelCmdEnd k stRefused
    else ((busy s).wantSearch c).updChan c fun x => { x with releasing := true }
  | _ => s

/-- R371: a write of CREEL_CMD. -/
def State.creelCmdWrite (s : State) (k : Nat) (v en : Word) : State :=
  let s := s.plainWrite (Reg.creelCmd k) v en
  if wroteOne Fld.creelCmdGo v en ∧ !s.flag (Reg.creelCmdStat k) Fld.creelCmdStatBusy then s.creelAction k
  else s

/-- CREEL_SEARCH_CMD: a write of CREEL_CMD. -/
def execCreelSearchCmd (k : StackId) (v : Word) (s : State) : Out :=
  s.byWrite (Reg.creelCmd k.val) (.ok (s.creelCmdWrite k.val v (BitVec.allOnes 64)))

/-- CREEL_RETIRE_CMD: a write of CREEL_CMD. -/
def execCreelRetireCmd (k : StackId) (v : Word) (s : State) : Out :=
  s.byWrite (Reg.creelCmd k.val) (.ok (s.creelCmdWrite k.val v (BitVec.allOnes 64)))

/-- CREEL_RELEASE_CMD: a write of CREEL_CMD. -/
def execCreelReleaseCmd (k : StackId) (v : Word) (s : State) : Out :=
  s.byWrite (Reg.creelCmd k.val) (.ok (s.creelCmdWrite k.val v (BitVec.allOnes 64)))

/-! ## Patrol scrub and stack loss -/

/-- The address lies in the region of a service table or of a large LPM table other than table 6. -/
def State.inMissTable (s : State) (a : Nat) : Bool :=
  let base7 := s.fld Reg.warpStbl7Base Fld.warpStbl7BaseBase
  let x4 := s.fld (Reg.learnLpmxBase 0) Fld.learnLpmxBaseBase
  let x6 := s.fld (Reg.learnLpmxBase 1) Fld.learnLpmxBaseBase
  (s.flag Reg.warpStbl7Nb Fld.warpStbl7NbValid &&
    base7 ≤ a && a < base7 + 64 * s.fld Reg.warpStbl7Nb Fld.warpStbl7NbNb) ||
  (x4 ≤ a && a < x4 + 16 * s.fld (Reg.learnLpmxCnt 0) Fld.learnLpmxCntCount) ||
  (x6 ≤ a && a < x6 + 32 * s.fld (Reg.learnLpmxCnt 1) Fld.learnLpmxCntCount)

/-- R157, R364, R367: the patrol finds the line at `a` uncorrectable; it is handled as its table says. -/
def State.patrolUnc (s : State) (a : Nat) : State :=
  let base := s.fld Reg.warpRegion Fld.warpRegionBase
  match s.otherCopy a with
  | some m =>
    let s := (if s.mirrorOf a = some m then s.uncRead a else s.uncAlone a).hbmTraffic false true .internal m 64
    let s := if s.hbmUnc m then s.uncAlone m
      else (s.hbmTraffic false false .internal a 64).hbmPutLine a (s.bytes m 64)
    s.startWaiting
  | none =>
    if s.inMissTable a then (s.uncRead a).tableMiss a
    else if base ≤ a ∧ s.isPlaced ((a - base) / 128) then
      let r := (a - base) / 128
      if (a - base) % 128 < 64 then
        if (s.lineOfRec r).isSome ∨ (s.victimOfRec r).isSome ∨ s.recBusy r = true then s.uncAlone a
        else (s.uncRead a).loseRec r
      else
        let h := s.headOf r
        if headFresh h then s.uncAlone a
        else ((s.uncRead a).lostNote r (headForm h) (headSeal h)).hbmPut a (foldTail (s.profile == 2) true (s.imageOf r) 0 [])
    else s.uncAlone a

/-- R367: the next line of the pass of channel `c`. -/
def State.patrolLine (s : State) (c : Nat) : Nat :=
  let x := s.chan c
  hbmLine (slotLine (s.fld (chanReg c) Fld.creelChanSlotStack) (s.fld (chanReg c) Fld.creelChanSlot)
    (x.patrol / 4) (x.patrol % 4))

/-- PATROL_SCRUB: in a slot that fell to it, the patrol of a channel reads the next line of its pass; `errs` come into
the line. A line whose read needed correction is rewritten. -/
def execPatrolScrub (line : Fin 2013265920) (errs : List SymErr) (s : State) : Out :=
  let a := hbmBase + 64 * line.val
  match s.servedBy a with
  | none => .next s
  | some c =>
    if (s.chan c).slot ≠ .scrub ∨ s.patrolLine c ≠ line.val ∨ s.stackLost (hbmStack a) then .next s
    else
      let s := s.updChan c fun x => { x with slot := .idle, patrol := x.patrol + 1 }
      let s := ((s.hbmAccess c a .internal).spoil line.val errs).lineSeen a
      .next (if s.hbmUnc a then s.patrolUnc a
        else if s.lineErrs line.val = [] then s
        else (s.hbmAccess c a .internal).setErrs line.val [])

/-- STACK_LOSS: stack `k` is lost. -/
def execStackLoss (k : StackId) (s : State) : Out := unlessReset s <|
  .next (s.loseStack k.val)

end Sys2Proof.Machine
end

