-- ==== Sys2Proof/Machine/Digest.lean ====
section
/-! DEFINITION. Weave digests, the store patrol, digest snapshots and scans (R488, R489, R494 to
R499). A digest is a function of what the stores hold. -/

namespace Sys2Proof.Machine

/-! ## Digests (R494 to R496) -/

/-- One bit of CRC-64, ECMA-182, most significant bit first. -/
def crcEcmaBit (c : BitVec 64) (b : Bool) : BitVec 64 :=
  let x := c <<< 1
  if c.msb != b then x ^^^ 0x42F0E1EBA9EA3693 else x

/-- CRC-64, ECMA-182, not reflected, initial value 0 (R494). -/
def crcEcma (bs : List Byte) : BitVec 64 :=
  bs.foldl (fun c b => (List.range 8).foldl (fun c i => crcEcmaBit c (b.getLsbD (7 - i))) c) 0

/-- One bit of CRC-64, ISO 3309, least significant bit first. -/
def crcIsoBit (c : BitVec 64) (b : Bool) : BitVec 64 :=
  let x := c >>> 1
  if c.getLsbD 0 != b then x ^^^ 0xD800000000000000 else x

/-- CRC-64, ISO 3309, reflected, initial value and final XOR all ones (R494). -/
def crcIso (bs : List Byte) : BitVec 64 :=
  ~~~ (bs.foldl (fun c b => (List.range 8).foldl (fun c i => crcIsoBit c (b.getLsbD i)) c) (BitVec.allOnes 64))

/-- R494: the term of a word. -/
def digestTerm (a : Nat) (v : Word) : BitVec 128 :=
  let m := toLE 8 a ++ toLE 8 v.toNat
  crcEcma m ++ crcIso m

/-- R495: the digest of words and their values. -/
def digestOf (ws : List (Nat × Word)) : BitVec 128 :=
  ws.foldl (fun d w => if w.2 = 0 then d else d ^^^ digestTerm w.1 w.2) 0

/-- Consecutive duplicates of an ascending list removed. -/
def dedup : List Nat → List Nat
  | [] => []
  | x :: xs =>
    match xs with
    | [] => [x]
    | y :: _ => if x = y then dedup xs else x :: dedup xs

/-- The words from `lo` to `hi` of which some byte is listed. -/
def State.listedWords (s : State) (lo hi : Nat) : List Nat :=
  dedup ((s.mem.filter fun c => lo ≤ c.1 && c.1 < hi).map fun c => c.1 / 8 * 8)

/-- R496: a word without its excluded bits: of MAC entries, all of a dynamic one. HIT, MOVES and LAST_SEEN
are not in the store (R259). -/
def State.digWord (s : State) (a : Nat) : Word :=
  if 0x20000000 ≤ a ∧ a < 0x20200000 then
    if (s.byte (a / 16 * 16 + 10)).getLsbD 1 then s.w64 a else 0
  else s.w64 a

/-- The digest of the words listed from `lo` to `hi`. -/
def State.rangeDigest (s : State) (lo hi : Nat) : BitVec 128 :=
  digestOf ((s.listedWords lo hi).map fun a => (a, s.digWord a))

/-- R496: the ranges of the five parts of a loom unit, in broadcast addresses. -/
def partRange (k : Nat) : Nat × Nat :=
  match k with
  | 0 => (0x10000000, 0x10010000)
  | 1 => (0x10010000, 0x10020000)
  | 2 => (0x10300000, 0x10320000)
  | 3 => (0x10600000, 0x10680000)
  | _ => (0x20000000, 0x21000000)

/-- R496: the digest of part `k`, the same in every loom. -/
def State.partDigest (s : State) (k : Nat) : BitVec 128 := s.rangeDigest (partRange k).1 (partRange k).2

/-- R496: a word of the master copy without its excluded bits. -/
def State.masterDigWord (s : State) (a : Nat) : Word :=
  if a < 0x20200000 ∧ bitsOf (s.masterLe (a / 16 * 16 + 8)) 17 17 = 0 then 0 else BitVec.ofNat 64 (s.masterLe a)

/-- R496: the digest of the master copy. -/
def State.masterDigest (s : State) : BitVec 128 :=
  digestOf ((s.listedWords 0x20000000 0x21000000).map fun a => (a, s.masterDigWord a))

/-- R306, R496: the words of queue configuration and of PFC accounts, word 0. -/
def beamWords : List Nat :=
  (List.range 20480).map (fun i => 0x31800000 + 8 * i) ++ (List.range 4096).map (fun a => 0x31830000 + 16 * a)

/-- R496: the registers that hold WS fields. -/
def wsRegs : List Nat :=
  (regDescs.filter fun (d : RegDesc) => d.ws != 0).flatMap fun (d : RegDesc) =>
    (List.range d.n1).flatMap fun i => (List.range d.n2).map fun j => d.base + d.s1 * i + d.s2 * j

/-- R496: the digest of unit `u` other than 31. -/
def State.unitDigest (s : State) (u : Nat) : BitVec 128 :=
  if u < 16 then (List.range 5).foldl (fun d k => d ^^^ s.partDigest k) 0
  else match u with
    | 16 => s.masterDigest
    | 17 => s.rangeDigest 0x11000000 0x15000000
    | 18 => s.rangeDigest 0x15000000 0x1D000000
    | 19 => s.rangeDigest 0x31000000 0x31800000 ^^^ digestOf (beamWords.map fun a => (a, s.w64 a))
    | 20 => s.rangeDigest 0x40000000 0x40200000
    | 21 => s.rangeDigest 0x45000000 0x45020000
    | 22 => digestOf (wsRegs.map fun a => (a, s.rd a &&& wsMask a))
    | _ => 0

/-- R496: the digest register of unit `u`. -/
def State.digest128 (s : State) (u : Nat) : BitVec 128 :=
  if u = 31 then [0, 17, 18, 19, 20, 21, 22].foldl (fun d k => d ^^^ s.unitDigest k) 0 else s.unitDigest u

/-! ## Registers (R497, R499) -/

/-- The digest a HI register reports, and its LO register. -/
def State.digestAt (s : State) (a : Nat) : Option (BitVec 128 × Nat) :=
  if 0x70100 ≤ a ∧ a < 0x70300 ∧ a % 16 = 0 then some (s.digest128 ((a - 0x70100) / 16), a + 8)
  else if 0x70800 ≤ a ∧ a < 0x70D00 ∧ (a - 0x70800) % 16 = 0 then
    some (s.partDigest ((a - 0x70800) / 16 % 5), a + 8)
  else none

/-- High and low word of a digest. -/
def digHi (d : BitVec 128) : Word := d.extractLsb' 64 64
/-- The low word. -/
def digLo (d : BitVec 128) : Word := d.setWidth 64

/-- R497: a 64-bit read of a HI register latches LO. -/
def State.digestRead (s : State) (a : Nat) : State × Word :=
  match s.digestAt a with
  | none => (s, s.rd a)
  | some (d, lo) => (s.wr lo (digLo d), digHi d)

/-- DIGEST_HI_READ: a read by the host of a digest HI register, at an offset of the window; 0 where the ROM keeps the
host out (R510). -/
def execDigestHiRead (off : BitVec 16) (s : State) : Out :=
  if !s.boot.pcieUp || s.halted then .next s
  else
    let r := if s.hostReaches (0x70000 + off.toNat) then s.digestRead (0x70000 + off.toNat) else (s, 0)
    .next { r.1 with host := { r.1.host with rdData := r.2 } }

/-- R497: GO latches every unit and part. -/
def State.digestSnap (s : State) : State :=
  let units := (List.range 32).foldl (fun (t : State) u =>
    (t.wr (Reg.digestSnapHi u) (digHi (s.digest128 u))).wr (Reg.digestSnapLo u) (digLo (s.digest128 u))) s
  let parts := (List.range 80).foldl (fun (t : State) i =>
    (t.wr (Reg.digestSnappHi (i / 5) (i % 5)) (digHi (s.partDigest (i % 5)))).wr
      (Reg.digestSnappLo (i / 5) (i % 5)) (digLo (s.partDigest (i % 5)))) units
  parts.incF Reg.digestSnap Fld.digestSnapSeq

/-- A write of DIGEST_SNAP. -/
def State.digestSnapWrite (s : State) (v en : Word) : State :=
  if wroteOne Fld.digestSnapGo v en then s.digestSnap else s

/-- DIGEST_SNAPSHOT: a write of DIGEST_SNAP. -/
def execDigestSnapshot (v : Word) (s : State) : Out :=
  s.byWrite Reg.digestSnap (.ok (s.digestSnapWrite v (BitVec.allOnes 64)))

/-! ## Scans (R498) -/

/-- A result of a scan. -/
def State.scanResult (s : State) (d : BitVec 128) (unread : Nat) : State :=
  ((((s.wr Reg.digestScanHi (digHi d)).wr Reg.digestScanLo (digLo d)).setF
    Reg.digestScanCtl Fld.digestScanCtlUnread unread)).setF Reg.digestScanCtl Fld.digestScanCtlBusy 0

/-- R499: a write of a scan register, which BUSY makes undefined; GO starts a scan, whose reads are of
the share for other traffic (R355). A scan of words outside usable HBM is an access to addresses of no use (R10). -/
def State.scanWrite (s : State) (a : Nat) (v en : Word) : Except Fault State :=
  if s.flag Reg.digestScanCtl Fld.digestScanCtlBusy then .error (.undefinedBehaviour 43)
  else
    let s := s.plainWrite a v en
    if a = Reg.digestScanCtl ∧ wroteOne Fld.digestScanCtlGo v en = true then
      let base := s.fld Reg.digestScanBase Fld.digestScanBaseBase
      let len := s.fld Reg.digestScanLen Fld.digestScanLenLen
      let s := s.setF Reg.digestScanCtl Fld.digestScanCtlDirty 0
      if len = 0 then .ok (s.scanResult 0 0)
      else if inHbm base && inHbm (base + len - 1) then
        .ok ((s.setF Reg.digestScanCtl Fld.digestScanCtlBusy 1).hbmTraffic false true .internal base len)
      else .error (.undefinedBehaviour 2)
    else .ok s

/-- DIGEST_SCAN: a write of DIGEST_SCAN_CTL. -/
def execDigestScan (v : Word) (s : State) : Out :=
  s.byWrite Reg.digestScanCtl (s.scanWrite Reg.digestScanCtl v (BitVec.allOnes 64))

/-- R366, R493, R498: where a scan reads the line of `a`: a table 6 primary of a lost stack from its mirror. `unread` names
lines it finds uncorrectable, besides those that read so already. -/
def State.scanUnc (s : State) (unread : List Nat) (a : Nat) : Bool :=
  s.hbmUnc (s.readFrom a) || unread.contains (hbmLine a)

/-- The words of a scan of `len` bytes from `base` of which some byte is listed, of table 6 in either copy. -/
def State.scanWords (s : State) (base len : Nat) : List Nat :=
  let p := s.fld Reg.warpStbl6Base Fld.warpStbl6BaseBase
  let m := s.fld Reg.warpStbl6Mirror Fld.warpStbl6MirrorMirror
  let n := if s.flag Reg.warpStbl6Nb Fld.warpStbl6NbValid then 64 * s.fld Reg.warpStbl6Nb Fld.warpStbl6NbNb else 0
  let mirrored := (s.listedWords m (m + n)).map fun a => p + (a - m)
  sortUniq (s.listedWords base (base + len) ++ mirrored.filter fun a => decide (base ≤ a) && decide (a < base + len))

/-- DIGEST_SCAN_DONE: the scan ends; `unread` names HBM lines it found uncorrectable, besides those that
read so already. It waits for a channel that holds its range back (R360). -/
def execDigestScanDone (unread : List Nat) (s : State) : Out := unlessHalted s <|
  if !s.flag Reg.digestScanCtl Fld.digestScanCtlBusy then .next s
  else
    let base := s.fld Reg.digestScanBase Fld.digestScanBaseBase
    let len := s.fld Reg.digestScanLen Fld.digestScanLenLen
    match s.accessHeld base len with
    | some a => .next (s.hbmWake a)
    | none =>
      let d := digestOf (((s.scanWords base len).filter fun a => !s.scanUnc unread a).map fun a =>
        (a - base, s.w64 (s.readFrom a)))
      let first := base / 64
      let lines := ((List.range ((base + len + 63) / 64 - first)).map fun i => 64 * (first + i)).filter (s.scanUnc unread)
      .next ((lines.foldl (fun (s : State) a => s.uncAlone (s.readFrom a)) s).scanResult d lines.length)

/-! ## The store patrol (R488, R489) -/

/-- R496: the unit that covers a word, the word's number in it, and whether it is a loom's copy. The
numbers run on from one part of a unit to the next (DESIGN CHOICE, log entry 40). -/
def patrolled (a : Nat) : Option (Nat × Nat × Bool) :=
  let at_ := fun (u first base : Nat) (loom : Bool) => some (u, first + (a - base) / 8, loom)
  if a < 0x480000 then if wsMask a = 0 then none else some (22, a / 8, false)
  else if 0x10000000 ≤ a ∧ a < 0x10020000 then at_ 0 0 0x10000000 true
  else if 0x10020000 ≤ a ∧ a < 0x10220000 then
    let n := (a - 0x10020000) / 0x20000
    at_ n 0 (0x10020000 + n * 0x20000) true
  else if 0x10300000 ≤ a ∧ a < 0x10320000 then at_ 0 0x4000 0x10300000 true
  else if 0x10400000 ≤ a ∧ a < 0x10600000 then
    let n := (a - 0x10400000) / 0x20000
    at_ n 0x4000 (0x10400000 + n * 0x20000) true
  else if 0x10600000 ≤ a ∧ a < 0x10680000 then at_ 0 0x8000 0x10600000 true
  else if 0x10800000 ≤ a ∧ a < 0x11000000 then
    let n := (a - 0x10800000) / 0x80000
    at_ n 0x8000 (0x10800000 + n * 0x80000) true
  else if 0x20000000 ≤ a ∧ a < 0x21000000 then at_ 16 0 0x20000000 false
  else if 0x21000000 ≤ a ∧ a < 0x31000000 then
    let n := (a - 0x21000000) / 0x1000000
    at_ n 0x18000 (0x21000000 + n * 0x1000000) true
  else if 0x11000000 ≤ a ∧ a < 0x15000000 then at_ 17 0 0x11000000 false
  else if 0x15000000 ≤ a ∧ a < 0x1D000000 then at_ 18 0 0x15000000 false
  else if 0x31000000 ≤ a ∧ a < 0x31828000 then at_ 19 0 0x31000000 false
  else if 0x31830000 ≤ a ∧ a < 0x31840000 then
    if a % 16 = 0 then at_ 19 0 0x31000000 false else none
  else if 0x40000000 ≤ a ∧ a < 0x40200000 then at_ 20 0 0x40000000 false
  else if 0x45000000 ≤ a ∧ a < 0x45020000 then
    if a % 32 < 24 then at_ 21 0 0x45000000 false else none
  else none

/-- R489: a word of a covered store outside the looms is lost: it reads 0. -/
def State.loseWord (s : State) (a : Nat) : State :=
  if a < 0x480000 then s.wr a (s.rd a &&& ~~~ wsMask a)
  else if 0x20000000 ≤ a ∧ a < 0x21000000 then
    { s with digest := { s.digest with lost := Tbl.set (Tbl.const none) s.digest.lost a (some 0) } }
  else s.setLe a 8 0

end Sys2Proof.Machine
end

