-- ==== Sys2Proof/Machine/Glass.lean ====
section
/-! DEFINITION. The Pick glass: counter images, snapshots, samples and bandwidth windows (R470 to R487). -/

namespace Sys2Proof.Machine

/-! ## Snapshots (R378, R476, R477) -/

/-- R378: latches all eight domains at one instant. -/
def State.latchDomains (s : State) : State :=
  (List.range 8).foldl (fun (s : State) d =>
    s.updDom d fun x => { x with latch := if s.domOn d then x.time else 0 }) s

/-- R477: a request while BUSY takes no counter snapshot. -/
def State.snapIgnored (s : State) : State := s.err Reg.glassErr Fld.glassErrSnapIgnored.lo

/-- R471: a port counter of a lane inside another port reads 0. -/
def State.counterHidden (s : State) (off : Nat) : Bool :=
  decide (off < 0x40000) && (List.range 8).any fun i =>
    let p := off / 512
    let q := p - i
    decide (0 < i) && decide (i ≤ p) && q / 64 == p / 64 && s.flag (portCfg q) Fld.selvPortCfgEnable &&
      decide (i < match s.fld (portCfg q) Fld.selvPortCfgSpeed with
        | 5 => 2
        | 6 => 4
        | 7 => 8
        | _ => 1)

/-- R476: the counters and the time word are latched; the counters of a lane inside another port as 0 (R471). -/
def State.snapCounters (s : State) : State :=
  let t := s.timeWordOf (s.fld Reg.glassSnap Fld.glassSnapDomain)
  ({ s with glass := { s.glass with gather := some (s.glass.live.filter fun e => !s.counterHidden e.1, t) } }).setF Reg.glassSnap Fld.glassSnapBusy 1

/-- R476, R477: a snapshot by GLASS_SNAP.GO or a pulse edge. -/
def State.snapshot (s : State) : State :=
  if s.flag Reg.glassSnap Fld.glassSnapBusy then s.snapIgnored else s.latchDomains.snapCounters

/-- R378, R477: a snapshot by TIME_CTL.SNAP. -/
def State.timeSnapshot (s : State) : State :=
  if s.flag Reg.glassSnap Fld.glassSnapBusy then s.latchDomains.snapIgnored else s.latchDomains.snapCounters

/-- R485: a write of GLASS_SNAP. -/
def State.glassSnapWrite (s : State) (v en : Word) : State :=
  let s := s.plainWrite Reg.glassSnap v en
  if wroteOne Fld.glassSnapGo v en then s.snapshot else s

/-- GLASS_SNAPSHOT: a write of GLASS_SNAP. -/
def execGlassSnapshot (v : Word) (s : State) : Out :=
  s.byWrite Reg.glassSnap (.ok (s.glassSnapWrite v (BitVec.allOnes 64)))

/-- GLASS_SNAPSHOT_DONE: the image has been gathered. -/
def execGlassSnapshotDone (s : State) : Out := unlessHalted s <|
  match s.glass.gather with
  | none => .next s
  | some (img, t) =>
    let s := { s with glass := { s.glass with gather := none, snap := img } }
    .next (((s.wr Reg.glassSnapTime t).setF Reg.glassSnap Fld.glassSnapBusy 0).incF Reg.glassSnap Fld.glassSnapSeq)

/-! ## The images (R470, R471, R475) -/

/-- R475: the offset is a pool entry word or an event counter. -/
def counterWritable (off : Nat) : Bool :=
  off % 8 == 0 && ((decide (0x200000 ≤ off) && decide (off < 0x300000)) ||
    (decide (0x320000 ≤ off) && decide (off < 0x320080)))

/-- R475, R480: a write of an aligned word of the live image. -/
def State.counterWrite (s : State) (off : Nat) (v : Word) : State :=
  if counterWritable off then
    let v := if 0x320000 ≤ off then v &&& 0xFFFFFFFF else v
    { s with glass := { s.glass with live := Tbl.set (Tbl.const 0) s.glass.live off v } }
  else s

/-- COUNTER_WRITE: a write by the host of the live image, at 0x6000_0000; a thread's stores come by ST (DESIGN CHOICE, log
entry 14). -/
def execCounterWrite (a : BitVec 48) (v : Word) (s : State) : Out := unlessBlocked s a.toNat <|
  if s.memInOverlay a.toNat 8 then ub 8
  else if 0x60000000 ≤ a.toNat ∧ a.toNat < 0x61000000 then .next (s.counterWrite (a.toNat - 0x60000000) v)
  else .next s

/-- R470: a word of the live image. -/
def State.liveWord (s : State) (off : Nat) : Word :=
  if s.counterHidden off then 0 else Tbl.get (Tbl.const 0) s.glass.live off

/-- R470: a word of the snapshot image. -/
def State.snapWord (s : State) (off : Nat) : Word := Tbl.get (Tbl.const 0) s.glass.snap off

/-! ## Samples (R483) -/

/-- R483: a record enters the sample ring or is discarded. -/
def State.samplePut (s : State) (r : List Byte) : State :=
  let size := min 16777216 (s.fld Reg.glassSmpSize Fld.glassSmpSizeSize)
  let prod := s.fld Reg.glassSmpProd Fld.glassSmpProdProd
  let used := (prod + 2 ^ 32 - s.fld Reg.glassSmpCons Fld.glassSmpConsCons) % 2 ^ 32
  if size = 0 ∨ used = size then
    ((s.incF Reg.glassSmpStat Fld.glassSmpStatDropped).setF Reg.glassSmpStat Fld.glassSmpStatOverflow 1).err
      Reg.glassErr Fld.glassErrSmpOvf.lo
  else
    (s.poke (s.fld Reg.glassSmpBase Fld.glassSmpBaseBase + 32 * (prod % size)) r).incF
      Reg.glassSmpProd Fld.glassSmpProdProd

/-- SAMPLE_TAKE: the oldest sample that loom `n` holds enters the ring. -/
def execSampleTake (n : LoomId) (s : State) : Out := unlessHalted s <|
  match Tbl.get (Tbl.const []) s.glass.due n.val with
  | [] => .next s
  | r :: rs => .next (({ s with glass := { s.glass with
      due := Tbl.set (Tbl.const []) s.glass.due n.val rs } }).samplePut r.bytes)

/-- R487: a write of GLASS_SMP_BASE or GLASS_SMP_SIZE. -/
def State.smpRingWrite (s : State) (a : Nat) (v en : Word) : Except Fault State :=
  if s.flag Reg.glassSmpCtl Fld.glassSmpCtlEnable then .error (.undefinedBehaviour 42)
  else .ok (s.plainWrite a v en)

/-! ## Bandwidth windows (R484) -/

/-- R484: the number of the window the present moment lies in. -/
def State.bwIndex (s : State) : Nat :=
  let w := max 1 (s.fld Reg.glassBwCtl Fld.glassBwCtlWUs) * 1000
  let d := s.fld Reg.glassBwCtl Fld.glassBwCtlDomain
  (if s.domOn d then (s.dom d).time / nsUnit else s.now) / w

/-- R484: LAST and PEAK of one direction of port `p`. -/
def State.bwPublish (s : State) (p off bytes : Nat) : State :=
  let a := 0x330000 + 32 * p + off
  let pk := Tbl.get (Tbl.const 0) s.glass.live (a + 16)
  { s with glass := { s.glass with
      live := Tbl.set (Tbl.const 0) (Tbl.set (Tbl.const 0) s.glass.live a (BitVec.ofNat 64 bytes)) (a + 16)
        (if pk.toNat < bytes then BitVec.ofNat 64 bytes else pk) } }

/-- R484: the window in progress begins afresh as number `i`. -/
def State.bwStart (s : State) (i : Nat) : State :=
  { s with glass := { s.glass with rxWin := [], txWin := [], winFrom := 2 * i } }

/-- BW_WINDOW_END: a window boundary has been reached. -/
def execBwWindowEnd (s : State) : Out := unlessHalted s <|
  let i := s.bwIndex
  let k := s.glass.winFrom / 2
  if s.glass.winFrom % 2 = 1 then .next (if k ≤ i then s.bwStart i else s)
  else if i = k then .next s
  else if i < k then .next (s.bwStart i)
  else
    let s := (List.range 512).foldl (fun (s : State) p =>
      (s.bwPublish p 0 (Tbl.get (Tbl.const 0) s.glass.rxWin p)).bwPublish p 8
        (Tbl.get (Tbl.const 0) s.glass.txWin p)) s
    .next (s.bwStart i)

/-- R484: sets every PEAK to 0. -/
def State.bwClearPeak (s : State) : State :=
  { s with glass := { s.glass with live := s.glass.live.filter fun e =>
      !(decide (0x330000 ≤ e.1) && decide (e.1 < 0x334000) && decide (16 ≤ e.1 % 32)) } }

/-- BW_CLEAR_PEAK: CLR_PEAK is written 1. -/
def execBwClearPeak (s : State) : Out :=
  s.byWrite Reg.glassBwCtl (.ok s.bwClearPeak)

/-- R484, R487: a write of GLASS_BW_CTL. -/
def State.bwCtlWrite (s : State) (v en : Word) : State :=
  let s := s.plainWrite Reg.glassBwCtl v en
  let s := if Fld.glassBwCtlWUs.get en = 0 ∧ Fld.glassBwCtlDomain.get en = 0 then s
    else { s with glass := { s.glass with rxWin := [], txWin := [], winFrom := 2 * (s.bwIndex + 1) + 1 } }
  if wroteOne Fld.glassBwCtlClrPeak v en then s.bwClearPeak else s

end Sys2Proof.Machine
end

