-- ==== Sys2Proof/Machine/Holdover.lean ====
section
/-! DEFINITION. Sense inputs, the oscillator learner, holdover and the DPLL (R391 to R400, R405 to
R407). -/

namespace Sys2Proof.Machine

/-! ## Sense inputs (R395) -/

/-- R395: breakpoint `k` of the sense table: code and temperature in 1/256 °C. -/
def State.senseTbl (s : State) (k : Nat) : Nat × Int :=
  (s.fld (Reg.timeSenseTbl k) Fld.timeSenseTblCode, s.sfld (Reg.timeSenseTbl k) Fld.timeSenseTblTemp)

/-- R395: the codes of the table rise strictly. -/
def State.senseRises (s : State) : Bool :=
  (List.range 15).all fun k => decide ((s.senseTbl k).1 < (s.senseTbl (k + 1)).1)

/-- R395: the temperature of a code inside the table, rounded down. -/
def State.senseTemp (s : State) (code : Nat) : Int :=
  let k := min 14 (((List.range 16).filter fun k => decide ((s.senseTbl k).1 ≤ code)).length - 1)
  let a := s.senseTbl k
  let b := s.senseTbl (k + 1)
  a.2 + (b.2 - a.2) * ((code : Int) - a.1) / ((b.1 : Int) - a.1)

/-- SENSE_CONVERT: a conversion of SENSE_A[i]. Inside a table that does not rise strictly: UB-36. -/
def execSenseConvert (i : Fin 4) (code : BitVec 16) (s : State) : Out := unlessReset s <|
  let a := Reg.timeSense i.val
  let c := code.toNat
  let s1 := s.setF a Fld.timeSenseCode c
  if c < (s.senseTbl 0).1 ∨ (s.senseTbl 15).1 < c then
    .next ((s1.setF a Fld.timeSenseFault 1).err Reg.timeErr Fld.timeErrSenseFault.lo)
  else if !s.senseRises then ub 36
  else
    let t := s.senseTemp c
    let s1 := (s1.setF a Fld.timeSenseFault 0).setF a Fld.timeSenseTemp (t % (65536 : Int)).toNat
    .next (if i.val = s.fld Reg.timeHoldCfg Fld.timeHoldCfgSense then
      { s1 with time := { s1.time with tempAcc := s1.time.tempAcc + t, tempN := s1.time.tempN + 1 } }
    else s1)

/-! ## Prediction (R398, R399) -/

/-- Units of FREQ_ADJ in one ppb (R376). -/
def ppbUnit : Int := 281475

/-- R398: the fit in use now, as an anchor without its own values. -/
def State.fitNow (s : State) : Anchor :=
  { f := 0, x := 0, t := 0
    c1 := (s.rd Reg.timeHoldC1).toInt
    c2 := (s.rd Reg.timeHoldC2).toInt
    cd := (s.rd Reg.timeHoldD).toInt
    model := s.fld Reg.timeHoldStat Fld.timeHoldStatModel
    lo := s.sfld Reg.timeHoldRange Fld.timeHoldRangeTmin
    hi := s.sfld Reg.timeHoldRange Fld.timeHoldRangeTmax }

/-- R406: TREF in 1/256 °C. -/
def State.tref (s : State) : Int := s.sfld Reg.timeHoldTref Fld.timeHoldTrefTref

/-- R399: the predicted change of y in ppb × 2^32, and whether a clamp acted. -/
def State.predict (s : State) (a : Anchor) : Int × Bool :=
  if a.model = 0 then (0, false)
  else
    let ext : Int := 256 * s.fld Reg.timeHoldCfg Fld.timeHoldCfgExtrap
    let x0 := s.time.temp - s.tref
    let x := max (a.lo - ext - s.tref) (min (a.hi + ext - s.tref) x0)
    let day : Int := 86400000000000
    let num := a.c1 * (x - a.x) * 256 * day + a.c2 * (x * x - a.x * a.x) * day +
      a.cd * ((s.now : Int) - a.t) * 65536
    let y := num / (65536 * day)
    let lim : Int := 100 * 2 ^ 32
    let z := max (-lim) (min lim y)
    (z, x != x0 || z != y)

/-- R398: a frequency after a predicted change. -/
def freqAfter (f pred : Int) : Int := f - ppbUnit * pred / (2 ^ 32 : Nat)

/-- A signed value in a field of 40 bits. -/
def freqBits (f : Int) : Nat := (f % (2 ^ 40 : Nat)).toNat

/-- R399: notes a prediction. -/
def State.notePred (s : State) (p : Int × Bool) : State :=
  let s := s.wr Reg.timeHoldPred (BitVec.ofInt 64 p.1)
  if p.2 then s.err Reg.timeErr Fld.timeErrExtrap.lo else s

/-- The mean of a list, rounded down; 0 of none. -/
def meanOf (l : List Int) : Int := l.sum / (l.length : Int)

/-! ## Domain holdover (R398, R400) -/

/-- R398: ANCHOR_S × 10 seconds. -/
def State.anchorS (s : State) : Nat := 10 * min 101 (max 1 (s.fld Reg.timeHoldCfg Fld.timeHoldCfgAnchorS))

/-- R398: domain `d` enters holdover. -/
def State.holdEnter (s : State) (d : Nat) : State :=
  let w := s.anchorS
  let win := ((s.dom d).hist.drop 10).take w
  let tmp := (s.time.tempHist.drop 10).take w
  let pick := (win.zip tmp).filter fun (e : (Int × Bool) × Int) => e.1.2
  let a : Anchor := { s.fitNow with
    f := if (win.filter fun (e : Int × Bool) => e.2) = [] then s.sfld (Reg.timeDomFreq d) Fld.timeDomFreqFreqAdj
      else meanOf ((win.filter fun (e : Int × Bool) => e.2).map fun (e : Int × Bool) => e.1)
    x := (if pick = [] then s.time.temp else meanOf (pick.map fun (e : (Int × Bool) × Int) => e.2)) - s.tref
    t := (s.now : Int) - 10000000000 - (w * 500000000 : Nat) }
  ((s.updDom d fun x => { x with anchor := a }).setF (Reg.timeDomCtl d) Fld.timeDomCtlHold 1).err
    Reg.timeErr Fld.timeErrHold.lo

/-- R398, R400: what a change of REF_STATE or HOLD_EN does; `was` is REF_STATE before. -/
def State.holdCheck (s : State) (d : Nat) (was : Bool) : State :=
  let a := Reg.timeDomCtl d
  let ref := s.flag a Fld.timeDomCtlRefState
  let en := s.flag a Fld.timeDomCtlHoldEn
  let s := if ref then s else s.updDom d fun x => { x with lapse := true }
  if was ∧ !ref ∧ en then s.holdEnter d
  else if ref ∨ !en then s.setF a Fld.timeDomCtlHold 0
  else s

/-- R398: one second of holdover of domain `d`; one with SOURCE 1 keeps its anchor's frequency. -/
def State.holdSecond (s : State) (d : Nat) : State :=
  let a := Reg.timeDomCtl d
  let an := (s.dom d).anchor
  if !s.flag a Fld.timeDomCtlHold then s
  else if s.flag a Fld.timeDomCtlSource then
    s.setF (Reg.timeDomFreq d) Fld.timeDomFreqFreqAdj (freqBits an.f)
  else
    let p := s.predict an
    (s.notePred p).setF (Reg.timeDomFreq d) Fld.timeDomFreqFreqAdj (freqBits (freqAfter an.f p.1))

/-- R392: one second of the DPLL's holdover with HOLD_MODEL. -/
def State.dpllHoldSecond (s : State) : State :=
  if s.fld Reg.dpllStat Fld.dpllStatState = 3 ∧ s.flag Reg.dpllCtl Fld.dpllCtlHoldModel ∧
      s.fld Reg.timeHoldCfg Fld.timeHoldCfgSrc = 8 then
    let an := s.time.dpllAnchor
    let p := s.predict an
    (s.notePred p).setF Reg.dpllStat Fld.dpllStatFreq (freqBits (freqAfter an.f p.1))
  else s

/-- HOLDOVER_TICK: a second of holdover passes. -/
def execHoldoverTick (s : State) : Out := unlessReset s <|
  .next ((List.range 8).foldl (fun (s : State) d => s.holdSecond d) s.dpllHoldSecond)

/-! ## The DPLL (R391, R392) -/

/-- R392: a change of state of the DPLL, with its record. -/
def State.dpllGo (s : State) (st : Nat) : State :=
  let old := s.fld Reg.dpllStat Fld.dpllStatState
  let s := s.setF Reg.dpllStat Fld.dpllStatState st
  let s := if st = 2 then s else { s with time := { s.time with dpllLapse := true } }
  let s := match st with
    | 0 => s.setF Reg.dpllStat Fld.dpllStatFreq 0
    | 3 =>
      if old = 3 then s
      else
        let f := if s.time.dpllHist = [] then s.sfld Reg.dpllStat Fld.dpllStatFreq
          else meanOf (s.time.dpllHist.map fun (e : Int × Bool) => e.1)
        let a : Anchor := { s.fitNow with
          f := f
          x := (if s.time.tempHist = [] then s.time.temp else meanOf s.time.tempHist) - s.tref
          t := (s.now : Int) - (s.time.dpllHist.length * 500000000 : Nat) }
        ({ s with time := { s.time with dpllAnchor := a } }).setF Reg.dpllStat Fld.dpllStatFreq (freqBits f)
    | _ => s
  if old = st then s
  else s.post 15 (srcOf Reg.dpllStat) (toLE 1 old ++ toLE 1 st ++ toLE 1 (s.fld Reg.dpllStat Fld.dpllStatActiveRef))

/-- R391: reference `r` is enabled and qualified. -/
def State.refQual (s : State) (r : Nat) : Bool := (s.fld Reg.dpllStat Fld.dpllStatQual).testBit r

/-- R391: the reference of two that is preferred; the first of equals. -/
def State.refBetter (s : State) (a : Option Nat) (r : Nat) : Option Nat :=
  match a with
  | none => some r
  | some q => if s.fld (Reg.dpllRef r) Fld.dpllRefPrio < s.fld (Reg.dpllRef q) Fld.dpllRefPrio then some r else some q

/-- R391: the reference that is selected. -/
def State.refChoice (s : State) : Option Nat :=
  match s.fld Reg.dpllCtl Fld.dpllCtlMode with
  | 0 => ((List.range 4).filter s.refQual).foldl s.refBetter none
  | 1 =>
    let r := s.fld Reg.dpllCtl Fld.dpllCtlSel
    if s.refQual r then some r else none
  | _ => none

/-- R392: selects a reference and moves among the states. -/
def State.reselect (s : State) : State :=
  let st := s.fld Reg.dpllStat Fld.dpllStatState
  let c := s.refChoice
  let s := { s with time := { s.time with sel := c } }
  let s := match c with
    | some r => s.setF Reg.dpllStat Fld.dpllStatActiveRef r
    | none => s
  match s.fld Reg.dpllCtl Fld.dpllCtlMode, c with
  | 2, _ => s.dpllGo 0
  | 3, _ => s.dpllGo 3
  | _, some _ => if st = 0 ∨ st = 3 then s.dpllGo 1 else s
  | _, none => if st = 1 ∨ st = 2 then s.dpllGo 3 else s

/-- Sets the qualification of reference `r`. -/
def State.setQual (s : State) (r : Nat) (b : Bool) : State :=
  let q := s.fld Reg.dpllStat Fld.dpllStatQual
  s.setF Reg.dpllStat Fld.dpllStatQual (if b then q ||| 2 ^ r else q &&& (15 - 2 ^ r))

/-- Notes since when reference `r` has been without fault. -/
def State.setRefOk (s : State) (r : Nat) (t : Option Nat) : State :=
  { s with time := { s.time with refOk := Tbl.set (Tbl.const none) s.time.refOk r t } }

/-- R389, R391, R404: reference `r` is there: a port reference while its port is up, an input in reference function while
it has not lost its edges. -/
def State.refPresent (s : State) (r : Nat) : Bool :=
  let a := Reg.dpllRef r
  let u := s.fld a Fld.dpllRefUnit
  if s.flag a Fld.dpllRefType then
    decide (u < 4) && (s.fld (Reg.timeTpiCtl u) Fld.timeTpiCtlFunction).testBit 1 &&
      !s.flag (Reg.timeTpiCtl u) Fld.timeTpiCtlLos
  else decide (u < 512) && s.flag (Reg.beamPort u) Fld.beamPortLink

/-- REF_DISQUALIFY: reference `r` is lost or its offset exceeds FREQ_LIM. Its time without fault begins now, or, of one that
is lost, when it is back. -/
def execRefDisqualify (r : Fin 4) (s : State) : Out :=
  if s.flag (Reg.dpllRef r.val) Fld.dpllRefEnable then
    .next (((s.setQual r.val false).setRefOk r.val (if s.refPresent r.val then some s.now else none)).reselect)
  else .next s

/-- R391: what the presence of an enabled reference changes: one that is lost is disqualified; one that is back begins
its time without fault, and is qualified at once with WTR_S 0. -/
def State.refScan (s : State) (r : Nat) : State :=
  if !s.flag (Reg.dpllRef r) Fld.dpllRefEnable then s
  else
    let ok := Tbl.get (Tbl.const none) s.time.refOk r
    match s.refPresent r, ok with
    | false, none => s
    | false, some _ => ((s.setQual r false).setRefOk r none).reselect
    | true, none =>
      let s := s.setRefOk r (some s.now)
      if s.fld Reg.dpllCtl Fld.dpllCtlWtrS = 0 then (s.setQual r true).reselect else s
    | true, some _ => s

/-- R391: the references after a port or an input has come or gone. -/
def State.refScanAll (s : State) : State := (List.range 4).foldl (fun (s : State) r => s.refScan r) s

/-- REF_REQUALIFY: reference `r` has been without fault for WTR_S seconds. -/
def execRefRequalify (r : Fin 4) (s : State) : Out :=
  match Tbl.get (Tbl.const none) s.time.refOk r.val with
  | none => .next s
  | some t =>
    if s.flag (Reg.dpllRef r.val) Fld.dpllRefEnable && s.refPresent r.val &&
        decide (t + s.fld Reg.dpllCtl Fld.dpllCtlWtrS * 1000000000 ≤ s.now) then
      .next ((s.setQual r.val true).reselect)
    else .next s

/-- DPLL_LOCK: the phase error has stayed within 10 ns for 10 s. -/
def execDpllLock (s : State) : Out :=
  if s.fld Reg.dpllStat Fld.dpllStatState = 1 then .next (s.dpllGo 2) else .next s

/-- R407: a write of DPLL_CTL. -/
def State.dpllCtlWrite (s : State) (v en : Word) : State := (s.plainWrite Reg.dpllCtl v en).reselect

/-- R407: a write of DPLL_REF_r. -/
def State.dpllRefWrite (s : State) (r : Nat) (v en : Word) : State :=
  let a := Reg.dpllRef r
  let which (s : State) := (s.flag a Fld.dpllRefEnable, s.flag a Fld.dpllRefType, s.fld a Fld.dpllRefUnit)
  let was := which s
  let s := s.plainWrite a v en
  let s := if which s = was then s else (s.setQual r false).setRefOk r none
  (s.refScan r).reselect

/-- R393: a write of SYNCE_OUT_j: what the output carries from then on. -/
def State.synceWrite (s : State) (j : Nat) (v en : Word) : State :=
  let a := Reg.synceOut j
  let s := s.plainWrite a v en
  let src := s.fld a Fld.synceOutSource
  let hz := s.fld a Fld.synceOutOutHz
  let c : SynceClk := if src = 0 ∨ hz < 1000 ∨ 156250000 < hz then SynceClk.low
    else { source := src, port := if src = 1 then s.fld a Fld.synceOutPort else 0, hz := hz }
  { s with pins := { s.pins with synce := vupd (fun _ => c) j s.pins.synce } }

/-! ## The learner (R396, R397) -/

/-- The frequency of a domain or of the DPLL as the history keeps it. -/
def State.dpllFreq (s : State) : Int := s.sfld Reg.dpllStat Fld.dpllStatFreq

/-- R396: the one-second values of domain `d`. -/
def State.domSecond (s : State) (d : Nat) : State :=
  let n : Nat := s.now - s.time.secondAt
  let f := s.sfld (Reg.timeDomFreq d) Fld.timeDomFreqFreqAdj
  let lock := s.flag (Reg.timeDomCtl d) Fld.timeDomCtlRefState
  s.updDom d fun x => { x with
    acc := 0
    lapse := !lock
    hist := (((if n = 0 then f else x.acc / (n : Int)), lock && !x.lapse) :: x.hist).take 1024 }

/-- R396: the mean temperature of the second; the last valid one where there was no conversion. -/
def State.tempSecond (s : State) : State :=
  let t := if s.time.tempN = 0 then s.time.temp else s.time.tempAcc / (s.time.tempN : Int)
  { s with time := { s.time with
      tempAcc := 0, tempN := 0, temp := t, tempHist := (t :: s.time.tempHist).take 1024 } }

/-- LEARNER_SECOND: a second ends: the one-second values join their histories; while the DPLL follows a
reference, its frequency is what the reference makes it: a free value. -/
def execLearnerSecond (s : State) : Out := unlessReset s <|
  let s := s.tempSecond
  let s := (List.range 8).foldl (fun (s : State) d => s.domSecond d) s
  let st := s.fld Reg.dpllStat Fld.dpllStatState
  let s := { s with time := { s.time with
    dpllHist := ((s.dpllFreq, decide (st = 2) && !s.time.dpllLapse) :: s.time.dpllHist).take 1024
    dpllLapse := decide (st ≠ 2)
    seconds := s.time.seconds + 1
    secondAt := s.now } }
  if st = 1 ∨ st = 2 then
    let r := s.draw
    .next (r.2.setF Reg.dpllStat Fld.dpllStatFreq r.1)
  else .next s

/-- The determinant of a square matrix, by its first row; `n` is its size. -/
def detOf : Nat → List (List Rat) → Rat
  | 0, _ => 1
  | _, [] => 1
  | n + 1, row :: rows =>
    ((List.range (n + 1)).map fun j =>
      (if j % 2 = 0 then 1 else -1) * row.getD j 0 * detOf n (rows.map fun r => r.eraseIdx j)).sum

/-- The solution of a linear system by Cramer's rule; 0 where it is singular. -/
def solveOf (n : Nat) (m : List (List Rat)) (b : List Rat) : List Rat :=
  let d := detOf n m
  (List.range n).map fun j =>
    if d = 0 then 0 else detOf n ((m.zip b).map fun (e : List Rat × Rat) => e.1.set j e.2) / d

/-- R397: the values of the fitted terms at a sample: 1, x, x², t. -/
def termsOf (tref : Int) (x : Int) (t : Nat) : List Rat :=
  let xr : Rat := ((x - tref : Int) : Rat) / 256
  [1, xr, xr * xr, ((t : Nat) : Rat) / 86400000000000]

/-- R397: weighted least squares over the terms `sel`. -/
def fitOf (tref : Int) (sel : List Nat) (l : List Sample) : List Rat :=
  let rows := l.map fun (q : Sample) =>
    let v := termsOf tref q.x q.t
    (sel.map fun j => v.getD j 0, q.w, (q.y : Rat) / (2 ^ 32 : Nat))
  let n := sel.length
  let cell (i j : Nat) : Rat := (rows.map fun (r : List Rat × Rat × Rat) => r.2.1 * r.1.getD i 0 * r.1.getD j 0).sum
  let rhs (i : Nat) : Rat := (rows.map fun (r : List Rat × Rat × Rat) => r.2.1 * r.1.getD i 0 * r.2.2).sum
  let sol := solveOf n ((List.range n).map fun i => (List.range n).map fun j => cell i j) ((List.range n).map rhs)
  (List.range 4).map fun j => ((sel.zip sol).find? fun (e : Nat × Rat) => e.1 == j).elim 0 (·.2)

/-- The value of a fit at a sample, in ppb. -/
def fitAt (tref : Int) (c : List Rat) (x : Int) (t : Nat) : Rat :=
  ((c.zip (termsOf tref x t)).map fun (e : Rat × Rat) => e.1 * e.2).sum

/-- R397: the weighted RMS residual in units of 1/1,024 ppb, rounded down. -/
def rmsOf (tref : Int) (c : List Rat) (l : List Sample) : Nat :=
  let sw := (l.map fun (q : Sample) => q.w).sum
  let se := (l.map fun (q : Sample) => q.w * (((q.y : Rat) / (2 ^ 32 : Nat)) - fitAt tref c q.x q.t) ^ 2).sum
  if sw = 0 then 0 else Nat.sqrt (se / sw * (1024 * 1024)).floor.toNat

/-- R396: FORGET. -/
def State.forget (s : State) : Nat := max 8 (s.fld Reg.timeHoldCfg Fld.timeHoldCfgForget)

/-- R397: publishes a fit of the samples. -/
def State.publishFit (s : State) : State :=
  let l := s.time.samples
  let heavy := l.filter fun (q : Sample) => decide ((1 : Rat) / 16 ≤ q.w)
  let xs := heavy.map fun (q : Sample) => q.x
  let ts := heavy.map fun (q : Sample) => q.t
  let tmin := xs.foldl min (xs.headD 0)
  let tmax := xs.foldl max (xs.headD 0)
  let span := (ts.foldl max 0 - ts.foldl min (ts.headD 0)) / 86400000000000
  let n := s.fld Reg.timeHoldStat Fld.timeHoldStatN
  let ageOk := decide (s.fld Reg.timeHoldCfg Fld.timeHoldCfgAgeMinDays ≤ span)
  let range := tmax - tmin
  let model :=
    if n < 64 then 0
    else if range < 256 * s.fld Reg.timeHoldCfg Fld.timeHoldCfgSpanMinL then 1
    else if range < 256 * s.fld Reg.timeHoldCfg Fld.timeHoldCfgSpanMinQ then 2
    else 3
  let sel := (List.range model) ++ (if ageOk ∧ model ≠ 0 then [3] else [])
  let c := fitOf s.tref sel l
  let put (s : State) (a j : Nat) : State := s.wr a (BitVec.ofInt 64 ((c.getD j 0) * (2 ^ 32 : Nat)).floor)
  let s := put (put (put (put s Reg.timeHoldC0 0) Reg.timeHoldC1 1) Reg.timeHoldC2 2) Reg.timeHoldD 3
  let st := Reg.timeHoldStat
  let s := (s.setF st Fld.timeHoldStatModel model).setF st Fld.timeHoldStatAgeOk (b2n ageOk)
  let s := s.setF st Fld.timeHoldStatAgeSpan (min 8191 span)
  let rg := Reg.timeHoldRange
  let s := (s.setF rg Fld.timeHoldRangeTmin (tmin % (65536 : Int)).toNat).setF rg Fld.timeHoldRangeTmax
    (tmax % (65536 : Int)).toNat
  s.setF rg Fld.timeHoldRangeRms (min 65535 (rmsOf s.tref c l))

/-- R396: the source's one-second values over the last `k` seconds, newest first; none without a
source, or where it was not locked throughout. -/
def State.sourceMean (s : State) (k : Nat) : Option Int :=
  let src := s.fld Reg.timeHoldCfg Fld.timeHoldCfgSrc
  let h := if src < 8 then (s.dom src).hist else if src = 8 then s.time.dpllHist else []
  let w := h.take k
  if w.length < k ∨ (w.any fun (e : Int × Bool) => !e.2) then none
  else some (meanOf (w.map fun (e : Int × Bool) => e.1))

/-- R396: the residual of a sample exceeds 8 × RMS + 0.05 ppb. -/
def State.outlier (s : State) (y x : Int) : Bool :=
  let c := [Reg.timeHoldC0, Reg.timeHoldC1, Reg.timeHoldC2, Reg.timeHoldD].map fun a =>
    (((s.rd a).toInt : Rat) / (2 ^ 32 : Nat))
  let r := (y : Rat) / (2 ^ 32 : Nat) - fitAt s.tref c x s.now
  let lim := 8 * ((s.fld Reg.timeHoldRange Fld.timeHoldRangeRms : Nat) : Rat) / 1024 + 5 / 100
  s.fld Reg.timeHoldStat Fld.timeHoldStatModel != 0 && (decide (lim < r) || decide (r < -lim))

/-- R396, R397, R400: a sample joins the fit. -/
def State.addSample (s : State) (y x : Int) : State :=
  let k : Rat := 1 - 1 / ((2 ^ s.forget : Nat) : Rat)
  let old := s.time.samples.map fun (q : Sample) => { q with w := q.w * k }
  let s : State := State.satF
    { s with time := { s.time with samples := { y := y, x := x, t := s.now, w := 1 } :: old } }
    Reg.timeHoldStat Fld.timeHoldStatN
  if s.time.restored = true ∧ s.fld Reg.timeHoldStat Fld.timeHoldStatN < 2 ^ (s.forget - 3) then s
  else State.publishFit { s with time := { s.time with restored := false } }

/-- LEARNER_SAMPLE: SAMPLE_S seconds have passed. -/
def execLearnerSample (s : State) : Out := unlessReset s <|
  let k := max 1 (s.fld Reg.timeHoldCfg Fld.timeHoldCfgSampleS)
  if s.time.seconds < k then .next s
  else
    let t0 := { s with time := { s.time with seconds := 0 } }
    match s.sourceMean k with
    | none => .next t0
    | some f =>
      let y := -(f * (2 ^ 32 : Nat)) / ppbUnit
      let x := meanOf (s.time.tempHist.take k)
      if s.outlier y x then .next (t0.incF Reg.timeHoldStat Fld.timeHoldStatRejects)
      else .next (t0.addSample y x)

/-- R400, R406: clears the learner. -/
def State.learnerClear (s : State) : State :=
  let s := { s with time := { s.time with samples := [], restored := false, seconds := 0 } }
  [Reg.timeHoldStat, Reg.timeHoldRange, Reg.timeHoldC0, Reg.timeHoldC1, Reg.timeHoldC2, Reg.timeHoldD].foldl
    (fun (s : State) a => s.wr a 0) s

/-- R406: a write of TIME_HOLD_TREF. -/
def State.trefWrite (s : State) (v en : Word) : State :=
  let s := s.plainWrite Reg.timeHoldTref v en
  if wroteOne Fld.timeHoldTrefReset v en then s.learnerClear else s

/-- LEARNER_RESET: a write of TIME_HOLD_TREF. -/
def execLearnerReset (v : Word) (s : State) : Out :=
  s.byWrite Reg.timeHoldTref (.ok (s.trefWrite v (BitVec.allOnes 64)))

/-- R400: software restores a saved model. -/
def State.holdRestore (s : State) (a : Nat) (v en : Word) : State :=
  let s := s.plainWrite a v en
  { s with time := { s.time with restored := true } }

end Sys2Proof.Machine
end

