-- ==== Sys2Proof/Machine/Reed.lean ====
section
/-! DEFINITION. The Reed, the ternary matcher: profiles, searches, verification, scrubbing, bank power
and bank slots (R60, R221 to R236, R246 to R251, R373). -/

namespace Sys2Proof.Machine

/-- The slot of Reed row `i` (R221). -/
def reedRow (i : Nat) : Nat := 0x11000000 + 128 * i

/-! ## Banks, profiles, keys -/

/-- R222: the width code in force in bank `b` for a pick: 0, 1, 2 as 160, 320, 640 bits; none for the odd
bank of a 640-bit pair. -/
def State.reedWidth (s : State) (seq : BitVec 32) (b : Nat) : Option Nat :=
  let w (b : Nat) := s.pfld seq (Reg.reedBank b) Fld.reedBankWidth
  if b % 2 = 1 then
    if w (b - 1) = 2 then none else some (if w b = 0 then 0 else 1)
  else some (if w b = 3 then 1 else w b)

/-- R226: bank `b` is powered and checked. -/
def State.reedOn (s : State) (b : Nat) : Bool := s.flag (Reg.reedBank b) Fld.reedBankPowerAck

/-- R225: the banks named in a profile, as a mask of 128 bits. -/
def State.reedMask (s : State) (seq : BitVec 32) (p : Nat) : Nat :=
  (s.preg seq (Reg.reedSprofMaskLo p)).toNat + (s.preg seq (Reg.reedSprofMaskHi p)).toNat * 2 ^ 64

/-- R251: SLOTi of profile `p`. -/
def State.reedSlot (s : State) (seq : BitVec 32) (p i : Nat) : Nat :=
  if i < 12 then bitsOf (s.preg seq (Reg.reedSprofSlotsA p)).toNat (5 * i + 4) (5 * i)
  else bitsOf (s.preg seq (Reg.reedSprofSlotsB p)).toNat (5 * (i - 12) + 4) (5 * (i - 12))

/-- R225: the meta word. -/
def metaWord (x : Pkt) : Nat :=
  x.inPort % 1024 + x.profile % 256 * 2 ^ 10 + b2n x.timing * 2 ^ 18 + b2n x.injected * 2 ^ 19 +
    b2n x.pick.pick2 * 2 ^ 20

/-- R225: key words in the width. -/
def keyWords (w : Nat) : Nat := 5 * 2 ^ w

/-- R225: the search a pick makes with profile `p`; none where RSEARCH returns ST_ABSENT. -/
def State.searchOf (s : State) (x : Pkt) (p : Nat) (dest : BitVec 6) : Option Search :=
  let seq := x.pick.seq
  let c := Reg.reedSprofCtl p
  let w := s.pfld seq c Fld.reedSprofCtlWidth
  if s.pfld seq c Fld.reedSprofCtlValid = 0 ∨ s.pfld seq Reg.reedCtl Fld.reedCtlEnable = 0 ∨ w = 3 then none
  else
    let hasMeta := s.pfld seq c Fld.reedSprofCtlMetaEn = 1
    let head := if hasMeta then [metaWord x] else []
    let slots := ((List.range (min 20 (s.pfld seq c Fld.reedSprofCtlNslot))).map (s.reedSlot seq p)).take
      (keyWords w - head.length)
    if slots.any fun i => !x.hfValid.getLsbD i then none
    else
      let words := head ++ slots.map fun i => (vget x.hf i 0).toNat
      some { prof := p, key := words.foldr (fun v acc => v + acc * 2 ^ 32) 0, width := w,
             mask := s.reedMask seq p, dest := dest, at_ := s.now, got := 0 }

/-! ## Matching -/

/-- Rows whose VALID is 1 as a pick reads them, ascending. -/
def State.reedValid (s : State) (seq : BitVec 32) : List Nat :=
  let keys := (s.mem.map (·.1) ++ s.bat.oldMem.map (·.1)).filter fun a =>
    0x11000000 ≤ a && a < 0x15000000 && (a - 0x11000000) % 128 == 95
  (sortUniq (keys.map fun a => (a - 0x11000000) / 128)).filter fun i =>
    (s.pbyte seq (reedRow i + 95)).getLsbD 7

/-- R222, R223: stored key and mask of entry `i`, of a width. -/
def State.reedKeyMask (s : State) (seq : BitVec 32) (w i : Nat) : Nat × Nat :=
  let a := reedRow i
  if w = 0 then (s.ple seq a 20, s.ple seq (a + 40) 20)
  else if w = 1 then (s.ple seq a 40, s.ple seq (a + 40) 40)
  else
    let b := reedRow (i + 4096)
    (s.ple seq a 40 + s.ple seq b 40 * 2 ^ 320, s.ple seq (a + 40) 40 + s.ple seq (b + 40) 40 * 2 ^ 320)

/-- R223, R225, R226: bank `b` is searched by a search. -/
def State.reedSearched (s : State) (seq : BitVec 32) (q : Search) (b : Nat) : Bool :=
  q.mask.testBit b && s.reedWidth seq b == some q.width && s.reedOn b && (q.width != 2 || s.reedOn (b + 1))

/-- R223: entry `i` matches. -/
def State.reedMatches (s : State) (seq : BitVec 32) (q : Search) (i : Nat) : Bool :=
  let km := s.reedKeyMask seq q.width i
  (s.pbyte seq (reedRow i + 95)).getLsbD 7 && (q.key &&& km.2 == km.1 &&& km.2)

/-- R226: the search names a bank that lacks POWER_ACK. -/
def State.reedUnpowered (s : State) (seq : BitVec 32) (q : Search) : Bool :=
  (List.range 128).any fun b =>
    q.mask.testBit b && !(q.width == 2 && b % 2 == 1) &&
      (!s.reedOn b || (s.reedWidth seq b == some 2 && !s.reedOn (b + 1)))

/-- R229: a candidate: index, priority, and whether its side copy verifies it. -/
structure Cand where
  idx : Nat
  prio : Nat
  ok : Bool
deriving DecidableEq, Repr

/-- The candidates of a search in ascending index order: rows that match, and disturbed rows that match
where they should not; `missed` names disturbed rows that fail to match. A row both of whose copies are lost is
taken as it is (R228). -/
def State.reedCands (s : State) (seq : BitVec 32) (q : Search) (falseHits missed : List Nat) : List Cand :=
  let rows := (sortUniq (s.reedValid seq ++ falseHits)).filter fun i =>
    s.reedSearched seq q (i / 4096) && !missed.contains i
  (rows.map fun i =>
    let real := s.reedMatches seq q i
    ({ idx := i, prio := s.ple seq (reedRow i + 84) 2,
       ok := real || (falseHits.contains i && s.reed.unverified.contains i) } : Cand)).filter fun c =>
    c.ok || falseHits.contains c.idx

/-- R224: the better of two matches. -/
def Cand.better (a b : Cand) : Bool := b.prio < a.prio || (a.prio == b.prio && a.idx < b.idx)

/-- R224: the winner among verified matches. -/
def winner (cs : List Cand) : Option Cand :=
  cs.foldl (fun best c =>
    if !c.ok then best
    else match best with
      | none => some c
      | some b => if c.better b then some c else some b) none

/-- R227: a false hit is discarded and its row rewritten from the copy. -/
def State.falseHit (s : State) (i : Nat) : State :=
  let s := (s.setF Reg.reedErr Fld.reedErrFalseHit 1).setF Reg.reedErrIdx Fld.reedErrIdxIndex i
  (s.cntShared 6).masked 9 (srcOf Reg.reedErr) i 0

/-- R60: the word RSEARCH and RNEXT return for entry `i`. -/
def State.reedResult (s : State) (seq : BitVec 32) (i : Nat) : Word :=
  BitVec.ofNat 64 (s.ple seq (reedRow i + 80) 4 * 2 ^ 32 + i)

/-! ## RSEARCH and RNEXT -/

/-- The queue of search port `q`. -/
def State.portQ (s : State) (q : Nat) : List Nat := Tbl.get (Tbl.const []) s.reed.portQ q

/-- Stores the queue of a search port. -/
def State.setPortQ (s : State) (q : Nat) (l : List Nat) : State :=
  { s with reed := { s.reed with portQ := Tbl.set (Tbl.const []) s.reed.portQ q l } }

/-- R231: the RSEARCH of this pick is a reclassification search. -/
def State.isReclass (s : State) (x : Pkt) : Bool :=
  match x.pick.held with
  | none => false
  | some h =>
    !h.created && (match s.line h.line with
      | some c => headGen c.head != s.pickGen x
      | none => false)

/-- R231: the reclassification bucket of port `q` now. -/
def State.reclassBucket (s : State) (q : Nat) : Bucket :=
  (Tbl.get (Tbl.const reclassFull) s.reed.buckets q).at s.now
    (1000 * s.fld Reg.reedReclass Fld.reedReclassRate) 64000000

/-- R231: a reclassification search takes a token; none: it is deferred. -/
def State.takeReclass (s : State) (q : Nat) : Option State :=
  let b := s.reclassBucket q
  if (s.portQ q).length < s.fld Reg.reedReclass Fld.reedReclassDepth ∧
      s.fld Reg.reedReclass Fld.reedReclassRate ≠ 0 ∧ 1000000 ≤ b.level then
    some { s with reed := { s.reed with
      buckets := Tbl.set (Tbl.const reclassFull) s.reed.buckets q { b with level := b.level - 1000000 } } }
  else none

/-- R229: the search of a pick ends; what it retains. -/
def Pkt.endSearch (x : Pkt) (dest : BitVec 6) (d st : Word) (cands : List (Nat × Bool)) (more : Bool) : Pkt :=
  let y := (x.write dest d).setSt st
  { y with pick := { y.pick with wait := .none, searched := true, cands := cands, candMore := more } }

/-- RSEARCH in a pick (R60, R230, R231); a DEPTH above 64 is used as it stands (DESIGN CHOICE, log entry 136). -/
def rsearchPick (w : IWord) (x : Pkt) (p : Nat) (s : State) : PickRes :=
  let fin (s : State) (st : Word) : PickRes := .done (s.setPkt p (some (x.endSearch w.dest 0 st [] false))) 0
  match s.searchOf x w.fn.toNat w.dest with
  | none => fin s (stWord stAbsent)
  | some q =>
    let port := x.loom % 4
    let enqueue (s : State) : PickRes :=
      .wait ((s.setPortQ port (s.portQ port ++ [p])).setPkt p (some { x with pick := { x.pick with wait := .search q } }))
    if s.isReclass x then
      if 64 ≤ (s.portQ port).length ∧ 64 < s.fld Reg.reedReclass Fld.reedReclassDepth then .wait s
      else match s.takeReclass port with
        | some s => enqueue s
        | none =>
          let s := s.incF (Reg.reedPortStat port) Fld.reedPortStatDeferred
          let s := s.event { kind := 4, weight := 1, priv := 0, master := .loom x.loom, addr := none, cls := some x.profile }
          fin s (stWord stMiss 1)
    else if 64 ≤ (s.portQ port).length then .wait s
    else enqueue s

/-- RSEARCH; drafts only (R37). -/
def execRsearch (c : Ctx) (w : IWord) (s : State) : Out :=
  match c with
  | .task k => taskIllegal k.val s
  | .pick p => runPick p 0x60 (fun x s => rsearchPick w x p s) s

/-- R229: the next retained candidate that verifies, what is left, and the state after the false hits
before it. -/
def rnextScan (s : State) : List (Nat × Bool) → State × Option Nat × List (Nat × Bool)
  | [] => (s, none, [])
  | (i, ok) :: cs => if ok then (s, some i, cs) else rnextScan (s.falseHit i) cs

/-- RNEXT; drafts only (R37). -/
def execRnext (c : Ctx) (w : IWord) (s : State) : Out :=
  match c with
  | .task k => taskIllegal k.val s
  | .pick p => runPick p 0x61 (fun x s =>
      if !x.pick.searched then .done (s.setPkt p (some ((x.write w.dest 0).setSt (stWord stAbsent)))) 0
      else
        let r := rnextScan s x.pick.cands
        let x := { x with pick := { x.pick with cands := r.2.2 } }
        match r.2.1 with
        | none => .done (r.1.setPkt p (some ((x.write w.dest 0).setSt (stWord stMiss (b2n x.pick.candMore))))) 0
        | some i =>
          .done (r.1.setPkt p (some ((x.write w.dest (s.reedResult x.pick.seq i)).setSt (stWord stOk)))) i) s

/-- The search of the pick of packet `p` against the banks (R223 to R229). -/
def State.runSearch (s : State) (p : Nat) (x : Pkt) (q : Search) (falseHits missed : List Nat) :
    Except Fault State :=
  let seq := x.pick.seq
  let s := s.cntShared 5
  let s := if s.reedUnpowered seq q then s.err Reg.reedErr 3 (s.rd Reg.reedErrIdx).toNat else s
  let cs := s.reedCands seq q falseHits missed
  match winner cs with
  | none =>
    let s := cs.foldl (fun s c => s.falseHit c.idx) s
    (s.setPkt p (some (x.endSearch q.dest 0 (stWord stMiss) [] false))).nextPick p 0x60 0
  | some m =>
    let second := cs.find? fun c => c.ok && c.prio == m.prio && c.idx != m.idx
    let met (c : Cand) : Bool := !c.ok && (m.prio < c.prio || (c.prio == m.prio &&
      (match second with
        | some d => decide (c.idx < d.idx)
        | none => true)))
    let s := (cs.filter met).foldl (fun s c => s.falseHit c.idx) s
    let rest := cs.filter fun c => c.idx != m.idx && !met c
    let st := stWord stOk ||| (if second.isSome then 0x100 else 0)
    let y := x.endSearch q.dest (s.reedResult seq m.idx) st ((rest.take 15).map fun c => (c.idx, c.ok))
      ((rest.drop 15).any fun c => c.ok)
    (s.setPkt p (some y)).nextPick p 0x60 m.idx

/-- R223, R373: a search takes a slot of bank `b`: it searches it, or the pair it is the odd bank of. -/
def State.reedNeeds (s : State) (seq : BitVec 32) (q : Search) (b : Nat) : Bool :=
  s.reedSearched seq q b || (q.width == 2 && b % 2 == 1 && s.reedSearched seq q (b - 1))

/-- R373: a search has had its slot of every bank it takes one of. -/
def State.reedGranted (s : State) (seq : BitVec 32) (q : Search) : Bool :=
  (List.range 128).all fun b => !s.reedNeeds seq q b || q.got.testBit b

/-- REED_SEARCH: port `q` serves the first search of its queue, once the slot table has given it its bank slots. -/
def execReedSearch (q : Fin 4) (m : Misread) (s : State) : Out := unlessHalted s <|
  match s.portQ q.val with
  | [] => .next s
  | p :: rest =>
    match s.pkt? p with
    | none => .next (s.setPortQ q.val rest)
    | some x =>
      match x.pick.wait with
      | .search r =>
        if s.reedGranted x.pick.seq r then
          toOut ((s.setPortQ q.val rest).runSearch p x r (m.falseHits.map (·.val)) (m.missed.map (·.val)))
        else .next s
      | _ => .next (s.setPortQ q.val rest)

/-! ## Scrub, power, bank slots -/

/-- R228: the scrub rewrites row `i` from its copy. -/
def State.scrubRepair (s : State) (i : Nat) : State :=
  let s := (s.setF Reg.reedErr Fld.reedErrScrubRepair 1).setF Reg.reedErrIdx Fld.reedErrIdxIndex i
  s.masked 10 (srcOf Reg.reedErr) i 0

/-- R228, R351: a side copy as it reads: what remains wrong of its two code words; none where one is uncorrectable. -/
def copyRead (e : List SymErr × List SymErr) : Option (List SymErr × List SymErr) :=
  if rsUnc e.1 || rsUnc e.2 then none else some (rsLeft e.1, rsLeft e.2)

/-- R228: the copy the scrub compares a row with: the first, or, where it is uncorrectable, the other, from which it is
rewritten. -/
def scrubCopy (f : RowFault) : Option (List SymErr × List SymErr) := (copyRead f.copyA).or (copyRead f.copyB)

/-- R228: row `i` takes what a side copy reads as: bytes 0 to 63 of the row are the copy's first code word, the rest its
second (DESIGN CHOICE, log entry 95). -/
def State.rowFromCopy (s : State) (i : Nat) (l : List SymErr × List SymErr) : State :=
  if l = ([], []) then s
  else
    let a := reedRow i
    s.setBytes a (bytesDamage (s.bytes a 64) l.1 ++ bytesDamage (s.bytes (a + 64) 32) l.2)

/-- REED_SCRUB: row `i` of a powered bank is compared with its side copies, in a slot that a scrub access has won
(R373). -/
def execReedScrub (i : Fin 524288) (fault : RowFault) (s : State) : Out := unlessHalted s <|
  let b := i.val / 4096
  if !s.flag Reg.reedCtl Fld.reedCtlScrubEn ∨ !s.reedOn b ∨ Tbl.get (Tbl.const 0) s.reed.scrubs b = 0 then .next s
  else
    let s := { s with reed := { s.reed with scrubs := Tbl.upd (Tbl.const 0) s.reed.scrubs b (· - 1) } }
    match scrubCopy fault with
    | some l =>
        if (fault.differs ∨ l ≠ ([], [])) ∧ !s.reed.unverified.contains i.val then
          .next ((s.rowFromCopy i.val l).scrubRepair i.val)
        else .next s
    | none =>
        let s := { s with reed := { s.reed with unverified := insUniq i.val s.reed.unverified } }
        let s := (s.setF Reg.reedErr Fld.reedErrCopyLost 1).setF Reg.reedErrIdx Fld.reedErrIdxIndex i.val
        .next (s.masked 11 (srcOf Reg.reedErr) i.val 1)

/-- R226: a write of REED_BANK_b. -/
def State.reedBankWrite (s : State) (b : Nat) (v en : Word) : State :=
  let a := Reg.reedBank b
  let was := s.flag a Fld.reedBankPower
  let s := s.plainWrite a v en
  let now := s.flag a Fld.reedBankPower
  if now ∧ !was then { s with reed := { s.reed with checking := insUniq b s.reed.checking } }
  else if was ∧ !now then
    { s.setF a Fld.reedBankPowerAck 0 with
      reed := { s.reed with checking := s.reed.checking.filter (· != b) } }
  else s

/-- REED_BANK_POWER_UP: a write of REED_BANK_b. -/
def execReedBankPowerUp (b : Fin 128) (v : Word) (s : State) : Out :=
  s.byWrite (Reg.reedBank b.val) (.ok (s.reedBankWrite b.val v (BitVec.allOnes 64)))

/-- REED_POWER_ACK: the check of bank `b` ends; rows of it that differ are rewritten as by the scrub. -/
def execReedPowerAck (b : Fin 128) (bad : List (Fin 4096)) (s : State) : Out := unlessHalted s <|
  if !s.reed.checking.contains b.val then .next s
  else
    let s := bad.foldl (fun s r => s.scrubRepair (4096 * b.val + r.val)) s
    let s := { s with reed := { s.reed with checking := s.reed.checking.filter (· != b.val) } }
    .next (s.setF (Reg.reedBank b.val) Fld.reedBankPowerAck 1)

/-- R373: when the first search of port `q` entered the queue, where it still takes a slot of bank `b`. -/
def State.portHead (s : State) (b q : Nat) : Option (Nat × Nat) :=
  match s.portQ q with
  | [] => none
  | p :: _ =>
    match s.pkt? p with
    | none => none
    | some x =>
      match x.pick.wait with
      | .search r =>
        if s.reedNeeds x.pick.seq r b && !r.got.testBit b then some (r.at_, q) else none
      | _ => none

/-- R373: the port whose waiting search is oldest. -/
def State.oldestPort (s : State) (b : Nat) : Option Nat :=
  let f (best : Option (Nat × Nat)) (q : Nat) : Option (Nat × Nat) :=
    match best, s.portHead b q with
    | none, h => h
    | some x, some y => if y.1 < x.1 then some y else some x
    | some x, none => some x
  ([0, 1, 2, 3].foldl f none).map (·.2)

/-- R373: entry `i` of the Reed slot table. -/
def State.reedSlotCode (s : State) (i : Nat) : Nat :=
  if i < 21 then bitsOf (s.rd Reg.reedTreadleTblLo).toNat (3 * i + 2) (3 * i)
  else bitsOf (s.rd Reg.reedTreadleTblHi).toNat (3 * (i - 21) + 2) (3 * (i - 21))

/-- Who a bank slot goes to: 0 nobody, 1 to 4 a search port, 5 an entry write, 6 a scrub access. -/
def State.reedSlotOwner (s : State) (b : Nat) : Nat :=
  let len := min 32 (s.fld Reg.reedTreadleCtl Fld.reedTreadleCtlLen)
  let write := Tbl.get (Tbl.const 0) s.reed.writes b != 0
  let scrub := s.flag Reg.reedCtl Fld.reedCtlScrubEn && s.reedOn b
  let maint := if write then 5 else if scrub then 6 else 0
  let search := (s.oldestPort b).elim 0 (· + 1)
  let code := if len = 0 then 0 else s.reedSlotCode (Tbl.get (Tbl.const 0) s.reed.slotPos b % len)
  if len = 0 then (if search ≠ 0 then search else maint)
  else if 1 ≤ code ∧ code ≤ 4 then
    if (s.portHead b (code - 1)).isSome then code else if search ≠ 0 then search else maint
  else if maint ≠ 0 then maint else search

/-- R373: the first search of port `q` takes a slot of bank `b`. -/
def State.grantSlot (s : State) (b q : Nat) : State :=
  match s.portQ q with
  | [] => s
  | p :: _ => s.updPkt p fun x =>
    match x.pick.wait with
    | .search r => { x with pick := { x.pick with wait := .search { r with got := r.got ||| 2 ^ b } } }
    | _ => x

/-- REED_BANK_SLOT: one slot of bank `b` goes to its owner: a search, an entry write or a scrub access. -/
def execReedBankSlot (b : Fin 128) (s : State) : Out := unlessHalted s <|
  let o := s.reedSlotOwner b.val
  let len := min 32 (s.fld Reg.reedTreadleCtl Fld.reedTreadleCtlLen)
  let s := if 1 ≤ o ∧ o ≤ 4 then s.grantSlot b.val (o - 1) else s
  .next { s with reed := { s.reed with
    slotPos := Tbl.upd (Tbl.const 0) s.reed.slotPos b.val fun i => if len = 0 then 0 else (i + 1) % len
    scrubs := if o = 6 then Tbl.set (Tbl.const 0) s.reed.scrubs b.val 1 else s.reed.scrubs
    writes := if o = 5 then Tbl.upd (Tbl.const 0) s.reed.writes b.val (· - 1) else s.reed.writes
    lastSlot := Tbl.set (Tbl.const 0) s.reed.lastSlot b.val o } }

/-- R227, R228: row `i` has been written: its copies agree with it again, and the write takes a slot. -/
def State.reedWritten (s : State) (i : Nat) : State :=
  { s with reed := { s.reed with
    unverified := s.reed.unverified.filter (· != i)
    writes := Tbl.upd (Tbl.const 0) s.reed.writes (i / 4096) (· + 1) } }

end Sys2Proof.Machine
end

