-- ==== Sys2Proof/Machine/Selvedge.lean ====
section
/-! DEFINITION. Port configuration, link training and link state, Low Power Idle, reference clocks and
die-to-die wires (R19, R317 to R319, R325, R334 to R348, R490, R524). -/

namespace Sys2Proof.Machine

/-! ## Registers of a port -/

/-- SELV_PORT_STAT of port `p`. -/
def portStat (p : Nat) : Nat := Reg.selvPortStat (p / 64) (p % 64)

/-- A field of SELV_PORT_CFG of port `p`. -/
def State.pcfg (s : State) (p : Nat) (f : Fld) : Nat := s.fld (portCfg p) f

/-- R317: port `p` is configured. -/
def State.portOn (s : State) (p : Nat) : Bool := s.flag (portCfg p) Fld.selvPortCfgEnable

/-- R340: port `p` is up. -/
def State.portUp (s : State) (p : Nat) : Bool := s.flag (portStat p) Fld.selvPortStatLink

/-- R318: lanes of a SPEED code. -/
def speedLanes (speed : Nat) : Nat :=
  match speed with
  | 5 => 2
  | 6 => 4
  | 7 => 8
  | _ => 1

/-- R318: the FEC code is allowed for the SPEED code. -/
def fecAllowed (speed fec : Nat) : Bool :=
  match speed with
  | 0 => decide (fec ≤ 1)
  | 1 => decide (fec ≤ 2)
  | _ => fec == 3

/-- R343: an event of SELV_ERR of tile `t` for port `p`. -/
def State.selvPort (s : State) (p : Nat) : State := s.setF (Reg.selvErrPort (p / 64)) Fld.selvErrPortPort p

/-- R343: CFG_IGNORED or TC_LIMIT. -/
def State.selvRefuse (s : State) (p : Nat) (f : Fld) : State := (s.selvPort p).err (Reg.selvErr (p / 64)) f.lo p

/-! ## Training (R338, R339) -/

/-- R339: an attempt begins. -/
def State.startAttempt (s : State) (p : Nat) : State :=
  (s.setF (portStat p) Fld.selvPortStatTraining 1).updPort p fun x =>
    { x with attempt := some s.now, nextAt := none }

/-- R341: TIMEOUT_MS, UP_MS, BACKOFF_MIN and BACKOFF_MAX of a tile, in ns. -/
def State.timeoutNs (s : State) (t : Nat) : Nat :=
  max 1 (s.fld (Reg.selvTrainCtl t) Fld.selvTrainCtlTimeoutMs) * 1000000
/-- UP_MS in ns. -/
def State.upNs (s : State) (t : Nat) : Nat := max 1 (s.fld (Reg.selvTrainCtl t) Fld.selvTrainCtlUpMs) * 1000000
/-- BACKOFF_MIN in ns. -/
def State.backoffMin (s : State) (t : Nat) : Nat :=
  max 1 (s.fld (Reg.selvTrainCtl t) Fld.selvTrainCtlBackoffMin) * 100000000
/-- The longest wait in ns. -/
def State.backoffMax (s : State) (t : Nat) : Nat :=
  max (s.backoffMin t) (s.fld (Reg.selvTrainCtl t) Fld.selvTrainCtlBackoffMax * 1000000000)

/-- R338: the attempt begun at `t0` succeeds at this moment, if lock holds. -/
def State.lockDone (s : State) (p t0 : Nat) : Option Nat :=
  match (s.port p).lockAt with
  | none => none
  | some l =>
    if s.selv.refLost.getLsbD (p / 64) then none else
    let e := max t0 l + s.upNs (p / 64)
    if e ≤ t0 + s.timeoutNs (p / 64) then some e else none

/-- LINK_UP: the attempt of port `p` succeeds. -/
def execLinkUp (p : Port) (s : State) : Out := unlessReset s <|
  let p := p.val
  match (s.port p).attempt with
  | none => .next s
  | some t0 =>
    match s.lockDone p t0 with
    | none => .next s
    | some e =>
      if s.now < e ∨ s.portOn p = false then .next s
      else
        let a := portStat p
        let s := (s.setF a Fld.selvPortStatLink 1).setF a Fld.selvPortStatTraining 0
        let s := (s.setF a Fld.selvPortStatRetries 0).setF a Fld.selvPortStatLanesOk
          (2 ^ speedLanes (s.pcfg p Fld.selvPortCfgSpeed) - 1)
        let s := s.setF (Reg.beamPort p) Fld.beamPortLink 1
        .next (s.updPort p fun x => { x with attempt := none, nextAt := none, fails := 0, lossAt := none }).refScanAll

/-- LINK_TRAIN_FAIL: the attempt of port `p` fails at its limit; bit i of `lanes`: lane i trained. -/
def execLinkTrainFail (p : Port) (lanes : BitVec 8) (s : State) : Out := unlessReset s <|
  let p := p.val
  let t := p / 64
  match (s.port p).attempt with
  | none => .next s
  | some t0 =>
    if s.now < t0 + s.timeoutNs t ∨ (s.lockDone p t0).isSome = true ∨ s.portOn p = false then .next s
    else
      let a := portStat p
      let k := 2 ^ speedLanes (s.pcfg p Fld.selvPortCfgSpeed)
      let s := ((s.setF a Fld.selvPortStatTraining 0).satF a Fld.selvPortStatRetries).setF a
        Fld.selvPortStatLanesOk (lanes.toNat % k)
      let s := (s.selvPort p).setF (Reg.selvErr t) Fld.selvErrLinkTrainFail 1
      let s := s.post 13 (srcOf (Reg.selvErr t)) (toLE 2 p ++ toLE 2 (s.fld a Fld.selvPortStatRetries))
      let j := (s.port p).fails
      let wait := min (s.backoffMin t * 2 ^ j) (s.backoffMax t)
      .next (s.updPort p fun x => { x with attempt := none, nextAt := some (s.now + wait), fails := j + 1 })

/-- TRAIN_RETRY: the backoff wait of port `p` ends. -/
def execTrainRetry (p : Port) (s : State) : Out := unlessReset s <|
  match (s.port p.val).nextAt with
  | none => .next s
  | some t => if s.now < t ∨ s.portOn p.val = false then .next s else .next (s.startAttempt p.val)

/-! ## Ports that go down (R303, R340) -/

/-- R303, R340, R391: LINK clears and the Beam acts; a reference that was the port's clock is lost. -/
def State.linkClear (s : State) (p : Nat) : State :=
  let s := (s.setF (portStat p) Fld.selvPortStatLink 0).setF (Reg.beamPort p) Fld.beamPortLink 0
  ((s.beamPortDown p).updPort p fun x => { x with lpi := .awake }).refScanAll

/-- R340: a port that is up goes down; it trains at once unless its reference clock has stopped. -/
def State.linkDrop (s : State) (p : Nat) : State :=
  let t := p / 64
  let s := (s.linkClear p).selvPort p
  let s := s.setF (Reg.selvErr t) Fld.selvErrLinkDown 1
  let s := s.post 12 (srcOf (Reg.selvErr t)) (toLE 2 p)
  if s.selv.refLost.getLsbD t then s.updPort p fun x => { x with attempt := none, nextAt := none, fails := 0 }
  else (s.updPort p fun x => { x with fails := 0 }).startAttempt p

/-- R340: lock has been lost for DOWN_US. -/
def State.lossOver (s : State) (p : Nat) : Bool :=
  match (s.port p).lossAt with
  | none => false
  | some t => decide (t + s.fld (Reg.selvTrainCtl (p / 64)) Fld.selvTrainCtlDownUs * 1000 ≤ s.now)

/-- LINK_DOWN: lock of port `p` has been lost for DOWN_US. -/
def execLinkDown (p : Port) (s : State) : Out :=
  if s.portUp p.val && s.lossOver p.val then .next (s.linkDrop p.val) else .next s

/-- R340: lock of port `p` is lost now. -/
def State.loseLock (s : State) (p : Nat) : State :=
  s.updPort p fun x => { x with lockAt := none, lossAt := some (x.lossAt.getD s.now) }

/-- ALIGNMENT_LOCK_LOSS: the PCS of port `p` loses alignment or FEC lock; with DOWN_US 0 a port that is up
goes down at once. -/
def execAlignmentLockLoss (p : Port) (s : State) : Out := unlessReset s <|
  let s := s.loseLock p.val
  if s.portUp p.val && s.fld (Reg.selvTrainCtl (p.val / 64)) Fld.selvTrainCtlDownUs == 0 then
    .next (s.linkDrop p.val)
  else .next s

/-- ALIGNMENT_LOCK_GAIN: every lane of port `p` is trained and the PCS has alignment and FEC lock. -/
def execAlignmentLockGain (p : Port) (s : State) : Out := unlessReset s <|
  if s.selv.refLost.getLsbD (p.val / 64) then .next s
  else .next (s.updPort p.val fun x => { x with lockAt := some (x.lockAt.getD s.now), lossAt := none })

/-- R339, R342: bit `k` of a write of SELV_RETRAIN of tile `t`. -/
def State.retrainPort (s : State) (p : Nat) : State :=
  if !s.portOn p then s
  else if s.portUp p then s.linkDrop p
  else if (s.port p).attempt.isSome then s
  else (s.updPort p fun x => { x with fails := 0 }).startAttempt p

/-- R342: a write of SELV_RETRAIN of tile `t`. -/
def State.retrainWrite (s : State) (t : Nat) (v en : Word) : State :=
  (List.range 64).foldl (fun (s : State) k => if (v &&& en).getLsbD k then s.retrainPort (64 * t + k) else s) s

/-- RETRAIN: a write of SELV_RETRAIN. -/
def execRetrain (t : Tile) (v : Word) (s : State) : Out :=
  s.byWrite (Reg.selvRetrain t.val) (.ok (s.retrainWrite t.val v (BitVec.allOnes 64)))

/-- R348: SELV_PORT_STAT of port `p`, LPI_TX and NEXT_MS among it. -/
def State.portStatRead (s : State) (p : Nat) : Word :=
  let w := Fld.selvPortStatLpiTx.put (s.rd (portStat p)) (b2n ((s.port p).lpi != .awake))
  Fld.selvPortStatNextMs.put w (match (s.port p).nextAt with
    | none => 0
    | some t => ceilDiv (t - s.now) 1000000)

/-! ## Configuration (R319, R325) -/

/-- R317: a lane belongs to an enabled port other than `p`. -/
def State.laneTaken (s : State) (p lane : Nat) : Bool :=
  (List.range 8).any fun i =>
    let q := lane - i
    decide (i ≤ lane) && q != p && q / 64 == lane / 64 && s.portOn q &&
      decide (i < speedLanes (s.pcfg q Fld.selvPortCfgSpeed))

/-- R319, R325: why an enable of port `p`, its register holding the values to be enabled, is refused. -/
def State.enableRefused (s : State) (p : Nat) : Option Fld :=
  let sp := s.pcfg p Fld.selvPortCfgSpeed
  let k := speedLanes sp
  let lanes := (List.range k).map (p + ·)
  if 8 ≤ sp ∨ !fecAllowed sp (s.pcfg p Fld.selvPortCfgFec) ∨ p % k ≠ 0 ∨ (lanes.any (s.laneTaken p)) = true ∨
      !s.loomActive (p / 32) then some Fld.selvErrCfgIgnored
  else if s.pcfg p Fld.selvPortCfgTimingClass = 1 ∧
      8 ≤ ((List.range 64).filter fun i => s.portOn (64 * (p / 64) + i) &&
        s.pcfg (64 * (p / 64) + i) Fld.selvPortCfgTimingClass == 1).length then some Fld.selvErrTcLimit
  else none

/-- SPEED, FEC and TIMING_CLASS. -/
def latchedMask : Word := Fld.selvPortCfgSpeed.mask ||| Fld.selvPortCfgFec.mask ||| Fld.selvPortCfgTimingClass.mask

/-- R319, R336, R344: a write of SELV_PORT_CFG of port `p`. -/
def State.portCfgPut (s : State) (p : Nat) (v en : Word) : Except Fault State :=
  let a := portCfg p
  let old := s.rd a
  let new := mergeMask (rwMask a &&& en) v old
  if Fld.selvPortCfgMaxFrame.get new = 0 then .error (.undefinedBehaviour 33)
  else if Fld.selvPortCfgEnable.get new = 0 then
    let s := s.wr a new
    if Fld.selvPortCfgEnable.get old = 0 then .ok s
    else
      let s := if s.portUp p then s.linkClear p else s
      let s := s.setF (portStat p) Fld.selvPortStatTraining 0
      .ok ((s.updPort p fun x => { x with attempt := none, nextAt := none, lpi := .awake }).publishDemand (p / 32))
  else if Fld.selvPortCfgEnable.get old = 1 then
    let s := s.wr a (mergeMask latchedMask old new)
    let s := if new &&& latchedMask = old &&& latchedMask then s else s.selvRefuse p Fld.selvErrCfgIgnored
    .ok (if s.pcfg p Fld.selvPortCfgLpiEn = 0 then s.lpiWake p else s)
  else
    let t0 := s.target (p / 32)
    let s := s.wr a (Fld.selvPortCfgEnable.put new 0)
    match s.enableRefused p with
    | some f => .ok (s.selvRefuse p f)
    | none => .ok (((s.wr a new).startAttempt p).portEnabledStep (p / 32) t0)

/-- R344: a write of SELV_PORT_CFG of port `p`; frames that arrived before it keep the MAX they met. -/
def State.portCfgWrite (s : State) (p : Nat) (v en : Word) : Except Fault State :=
  (s.portCfgPut p v en).map fun t => t.noteMax p (s.maxFrame p)

/-- PORT_CONFIG_WRITE: a write of SELV_PORT_CFG_k. -/
def execPortConfigWrite (p : Port) (v : Word) (s : State) : Out :=
  s.byWrite (Reg.selvPortCfg (p.val / 64) (p.val % 64)) (s.portCfgWrite p.val v (BitVec.allOnes 64))

/-! ## Low Power Idle (R334, R335) -/

/-- LPI_ENTER: the transmitter of port `p` enters LPI. -/
def execLpiEnter (p : Port) (s : State) : Out :=
  let p := p.val
  let idle := max 1 (s.fld (Reg.selvPortLpi (p / 64) (p % 64)) Fld.selvPortLpiIdleUs) * 1000
  if s.portUp p && s.pcfg p Fld.selvPortCfgLpiEn == 1 && s.pcfg p Fld.selvPortCfgTimingClass == 0 &&
      (s.port p).lpi == .awake && !(s.port p).pfcReq && (s.tx p).isNone &&
      ((s.called (p / 32)).all fun c => queuePort c.queue != p) && decide ((s.port p).idleAt + idle ≤ s.now) then
    .next (s.updPort p fun x => { x with lpi := .idle })
  else .next s

/-- LPI_WAKE_DONE: the wake time of port `p` is over. -/
def execLpiWakeDone (p : Port) (s : State) : Out :=
  match (s.port p.val).lpi with
  | .waking t => if s.now < t then .next s else .next (s.updPort p.val fun x => { x with lpi := .awake })
  | _ => .next s

/-- PARTNER_LPI_SIGNAL: the receiver of port `p` follows the partner's LPI signalling. -/
def execPartnerLpiSignal (p : Port) (on : Bool) (s : State) : Out := unlessReset s <|
  .next (if s.portOn p.val then s.setF (portStat p.val) Fld.selvPortStatLpiRx (b2n on) else s)

/-! ## Reference clocks (R524) -/

/-- REFCLK_LOSS: SD_REFCLK of tile `t` stops: every port of the tile loses lock and goes down. -/
def execRefclkLoss (t : Tile) (s : State) : Out :=
  let s := { s with selv := { s.selv with refLost := s.selv.refLost ||| BitVec.ofNat 8 (2 ^ t.val) } }
  .next ((List.range 64).foldl (fun (s : State) k =>
    let p := 64 * t.val + k
    let s := s.loseLock p
    if s.portUp p then s.linkDrop p else s) s)

/-- REFCLK_RETURN: the ports of tile `t` retrain. -/
def execRefclkReturn (t : Tile) (s : State) : Out :=
  if !s.selv.refLost.getLsbD t.val then .next s
  else
    let s := { s with selv := { s.selv with refLost := s.selv.refLost &&& ~~~ BitVec.ofNat 8 (2 ^ t.val) } }
    .next ((List.range 64).foldl (fun (s : State) k =>
      let p := 64 * t.val + k
      if s.portOn p && !s.portUp p && (s.port p).attempt.isNone && (s.port p).nextAt.isNone then s.startAttempt p
      else s) s)

/-! ## Die-to-die wires (R19, R490) -/

/-- R488: the block that reports for die-to-die link `l`: links 0 to 7 are those of the Selvedge tiles, 8 to 15 those of
the HBM PHYs (DESIGN CHOICE, log entry 72). -/
def linkSrc (l : Nat) : Nat := if l < 8 then srcOf (Reg.selvErr l) else srcOf (Reg.creelErr (l - 8))

/-- R490: some group of link `l` uses its spare group. -/
def State.spareGroupUsed (s : State) (l : Nat) : Bool :=
  (List.range 256).any fun g => Tbl.get (Tbl.const false) s.selv.moved (256 * l + g)

/-- R490: the lanes of a group go down. -/
def State.lanesDown (s : State) (lanes : List Port) : State :=
  (List.range 512).foldl (fun (s : State) p =>
    let k := speedLanes (s.pcfg p Fld.selvPortCfgSpeed)
    if s.portOn p && lanes.any (fun q => decide (p ≤ q.val ∧ q.val < p + k)) then
      let s := s.loseLock p
      if s.portUp p then s.linkDrop p else s
    else s) s

/-- R490: the channels of a group become DEAD and are retired. -/
def State.chansDead (s : State) (chans : List ChanId) : State :=
  chans.foldl (fun (s : State) ch =>
    let c := 32 * ch.stack.val + ch.chan.val
    if s.chanState c = 4 then s else s.chanDead c) s

/-- WIRE_FAIL: retraining finds a wire of group `g` of link `l` unusable. Links 0 to 7 are those of the
Selvedge tiles, 8 to 15 those of the HBM PHYs. `lanes` and `chans` are what the group carries. -/
def execWireFail (l : Fin 16) (g : BitVec 8) (lanes : List Port) (chans : List ChanId) (s : State) : Out :=
  unlessReset s <|
  let key := 256 * l.val + g.toNat
  let src := linkSrc l.val
  let n := Tbl.get (Tbl.const 0) s.selv.wires key + 1
  let moved := Tbl.get (Tbl.const false) s.selv.moved key
  let s1 := { s with selv := { s.selv with wires := Tbl.set (Tbl.const 0) s.selv.wires key n } }
  if n = 1 ∨ (n = 3 ∧ moved = true) then .next (s1.masked 1 src key 0)
  else if n = 2 ∧ !s.spareGroupUsed l.val then
    .next ({ s1 with selv := { s1.selv with moved := Tbl.set (Tbl.const false) s1.selv.moved key true } }.masked 2 src key 0)
  else if l.val < 8 then .next (s1.lanesDown lanes)
  else .next (s1.chansDead chans)

end Sys2Proof.Machine
end

