-- ==== Sys2Proof/Machine/Time.lean ====
section
/-! DEFINITION. Time domains, pulse outputs, capture inputs and the transmit timestamp queues (R375 to
R378, R386 to R390, R401 to R404). -/

namespace Sys2Proof.Machine

/-! ## Pulse outputs (R387, R388) -/

/-- Pulse output `j`. -/
def State.pulse (s : State) (j : Nat) : Pulse := Tbl.get (Tbl.const Pulse.init) s.time.pulse j

/-- Stores pulse output `j`, and drives its pin (R387, R403). -/
def State.setPulse (s : State) (j : Nat) (p : Pulse) : State :=
  let m : BitVec 8 := BitVec.ofNat 8 (2 ^ j)
  let level := p.active != s.flag (Reg.timeTpoCtl j) Fld.timeTpoCtlPol
  { s with
    time := { s.time with pulse := Tbl.set (Tbl.const Pulse.init) s.time.pulse j p }
    pins := { s.pins with tpo := if level then s.pins.tpo ||| m else s.pins.tpo &&& ~~~ m } }

/-- The domain of pulse output `j`. -/
def State.pulseDom (s : State) (j : Nat) : Nat := s.fld (Reg.timeTpoCtl j) Fld.timeTpoCtlDomain

/-- START of pulse output `j` in units of 2^-48 ns. -/
def State.pulseStart (s : State) (j : Nat) : Nat :=
  s.fld (Reg.timeTpoStartSec j) Fld.timeTpoStartSecSeconds * secUnit +
    s.fld (Reg.timeTpoStartNs j) Fld.timeTpoStartNsNs * nsUnit

/-- PERIOD of pulse output `j` in units of 2^-48 ns. -/
def State.pulsePeriod (s : State) (j : Nat) : Nat := s.fld (Reg.timeTpoPeriod j) Fld.timeTpoPeriodPeriod * nsUnit

/-- The next edge of pulse output `j` or none; `ARMED` follows. -/
def State.setNext (s : State) (j : Nat) (n : Option Nat) : State :=
  (s.setF (Reg.timeTpoCtl j) Fld.timeTpoCtlArmed (b2n n.isSome)).setPulse j { s.pulse j with next := n }

/-- R387: arms pulse output `j` from the present time of its domain. -/
def State.pulseArm (s : State) (j : Nat) : State :=
  let t := (s.dom (s.pulseDom j)).time + 1000 * nsUnit
  let st := s.pulseStart j
  let pd := s.pulsePeriod j
  if t ≤ st then s.setNext j (some st)
  else if pd = 0 then (s.setNext j none).err Reg.timeErr Fld.timeErrPulseMissed.lo
  else s.setNext j (some (st + ceilDiv (t - st) pd * pd))

/-- R388: the outputs of domain `d` re-arm; a one-shot that has fired or been missed does not. -/
def State.rearm (s : State) (d : Nat) : State :=
  (List.range 8).foldl (fun (s : State) j =>
    let c := Reg.timeTpoCtl j
    if s.flag c Fld.timeTpoCtlEnable && s.pulseDom j == d &&
        (s.pulsePeriod j != 0 || s.flag c Fld.timeTpoCtlArmed) then s.pulseArm j else s) s

/-- R387, R403: a write of TIME_TPO_j_CTL. -/
def State.pulseWrite (s : State) (j : Nat) (v en : Word) : State :=
  let c := Reg.timeTpoCtl j
  let s := s.plainWrite c v en
  if !s.flag c Fld.timeTpoCtlEnable then
    (s.setF c Fld.timeTpoCtlArmed 0).setPulse j { next := none, active := false, endAt := 0 }
  else if wroteOne Fld.timeTpoCtlEnable v en then s.pulseArm j
  else s.setPulse j (s.pulse j)

/-- PULSE_ARM: a write of TIME_TPO_j_CTL. -/
def execPulseArm (j : Fin 8) (v : Word) (s : State) : Out :=
  s.byWrite (Reg.timeTpoCtl j.val) (.ok (s.pulseWrite j.val v (BitVec.allOnes 64)))

/-- R387: the active time of pulse output `j` in ns. -/
def State.pulseWidth (s : State) (j : Nat) : Nat :=
  let w := s.fld (Reg.timeTpoCtl j) Fld.timeTpoCtlWidth
  let p := s.fld (Reg.timeTpoPeriod j) Fld.timeTpoPeriodPeriod
  if p ≠ 0 ∧ p ≤ w then p / 2 else w

/-- PULSE_EDGE: the domain of pulse output `j` reaches its next edge. -/
def execPulseEdge (j : Fin 8) (s : State) : Out :=
  let j := j.val
  let d := s.pulseDom j
  match (s.pulse j).next with
  | none => .next s
  | some e =>
    if !s.domOn d ∨ (s.dom d).time < e then .next s
    else
      let pd := s.pulsePeriod j
      let w := s.pulseWidth j
      let s := s.setNext j (if pd = 0 then none else some (e + pd))
      let s := if w = 0 then s else s.setPulse j { s.pulse j with active := true, endAt := s.now + w }
      .next (if s.flag Reg.glassSnap Fld.glassSnapTpoEn && s.fld Reg.glassSnap Fld.glassSnapTpo == j then s.snapshot
        else s)

/-- PULSE_WIDTH_END: the active time of pulse output `j` is over. -/
def execPulseWidthEnd (j : Fin 8) (s : State) : Out :=
  let p := s.pulse j.val
  if p.active && decide (p.endAt ≤ s.now) then .next (s.setPulse j.val { p with active := false }) else .next s

/-! ## Domains (R375 to R378) -/

/-- R377, R402: the value SEC, NS and SUBNS were written to. -/
def State.setValue (s : State) (d : Nat) : Nat :=
  s.fld (Reg.timeDomSec d) Fld.timeDomSecSeconds * secUnit +
    min 999999999 (s.fld (Reg.timeDomNs d) Fld.timeDomNsNs) * nsUnit +
    s.fld (Reg.timeDomNs d) Fld.timeDomNsSubns * 2 ^ 32

/-- R377: counts a set or a step. -/
def State.bumpEpoch (s : State) (d : Nat) : State := s.incF (Reg.timeDomCtl d) Fld.timeDomCtlStepEpoch

/-- R377: SET of domain `d`. -/
def State.domSet (s : State) (d : Nat) : State :=
  let v := s.setValue d
  if s.domOn d then ((s.updDom d fun x => { x with time := v }).bumpEpoch d).rearm d
  else (s.updDom d fun x => { x with start := some v }).bumpEpoch d

/-- R375, R377: domain `d` is enabled. -/
def State.domStart (s : State) (d : Nat) : State :=
  (s.updDom d fun x => { x with time := x.start.getD 0, start := none }).rearm d

/-- R377, R398, R402: a write of TIME_DOM_d_CTL. A SET acts before an enable of the same write. -/
def State.domCtlWrite (s : State) (d : Nat) (v en : Word) : State :=
  let a := Reg.timeDomCtl d
  let on := s.domOn d
  let ref := s.flag a Fld.timeDomCtlRefState
  let s := if wroteOne Fld.timeDomCtlSet v en then s.domSet d else s
  let s := s.plainWrite a v en
  let s := if s.domOn d ∧ !on then s.domStart d else s
  s.holdCheck d ref

/-- DOMAIN_ENABLE: a write of TIME_DOM_d_CTL. -/
def execDomainEnable (d : Dom) (v : Word) (s : State) : Out :=
  s.byWrite (Reg.timeDomCtl d.val) (.ok (s.domCtlWrite d.val v (BitVec.allOnes 64)))

/-- DOMAIN_SET: a write of TIME_DOM_d_CTL. -/
def execDomainSet (d : Dom) (v : Word) (s : State) : Out :=
  s.byWrite (Reg.timeDomCtl d.val) (.ok (s.domCtlWrite d.val v (BitVec.allOnes 64)))

/-- R377: a time moved by a signed number of ns, modulo the range. -/
def stepTime (t : Nat) (ns : Int) : Nat := (((t : Int) + ns * (nsUnit : Nat)) % (timeRange : Nat)).toNat

/-- R377: a write of TIME_DOM_d_STEP. -/
def State.domStepWrite (s : State) (d : Nat) (v en : Word) : State :=
  if s.domOn d then
    ((s.updDom d fun x => { x with time := stepTime x.time (v &&& en).toInt }).bumpEpoch d).rearm d
  else s

/-- DOMAIN_STEP: a write of TIME_DOM_d_STEP. -/
def execDomainStep (d : Dom) (v : Word) (s : State) : Out :=
  s.byWrite (Reg.timeDomStep d.val) (.ok (s.domStepWrite d.val v (BitVec.allOnes 64)))

/-- R376, R398: a write of TIME_DOM_d_FREQ, ignored in holdover. -/
def State.freqWrite (s : State) (d : Nat) (v en : Word) : State :=
  if s.flag (Reg.timeDomCtl d) Fld.timeDomCtlHold then s else s.plainWrite (Reg.timeDomFreq d) v en

/-- FREQ_ADJ_WRITE: a write of TIME_DOM_d_FREQ. -/
def execFreqAdjWrite (d : Dom) (v : Word) (s : State) : Out :=
  s.byWrite (Reg.timeDomFreq d.val) (.ok (s.freqWrite d.val v (BitVec.allOnes 64)))

/-- R402: what a read of SEC and NS of domain `d` returns. -/
def State.secRead (s : State) (d : Nat) : Word := BitVec.ofNat 64 ((s.dom d).latch / secUnit)
/-- R402: NS and SUBNS as latched. -/
def State.nsRead (s : State) (d : Nat) : Word :=
  let t := (s.dom d).latch % secUnit
  BitVec.ofNat 64 (t / nsUnit * 65536 + t % nsUnit / 2 ^ 32)

/-- R401: OSC_FREQ as it acts. -/
def oscFreq (v : Word) : Nat := Fld.timeCtlOscFreq.get v % 3

/-- R376, R378, R401: a write of TIME_CTL. -/
def State.timeCtlWrite (s : State) (v en : Word) : Except Fault State :=
  let old := oscFreq (s.rd Reg.timeCtl)
  let t := s.plainWrite Reg.timeCtl v en
  if oscFreq (t.rd Reg.timeCtl) ≠ old ∧ (List.range 8).any s.domOn then .error (.undefinedBehaviour 35)
  else .ok (if wroteOne Fld.timeCtlSnap v en then t.timeSnapshot else t)

/-- TIME_SNAP: a write of TIME_CTL. -/
def execTimeSnap (v : Word) (s : State) : Out :=
  s.byWrite Reg.timeCtl (s.timeCtlWrite v (BitVec.allOnes 64))

/-! ## Transmit timestamp queues (R386) -/

/-- R386: a read of TIME_TXQ_d_W0: it removes the oldest entry and latches the rest. -/
def State.txqRead (s : State) (d : Nat) : State × Word :=
  match Tbl.get (Tbl.const []) s.time.txq d with
  | [] => (s, 0)
  | e :: es =>
    let sec := e.time / secUnit
    let r := e.time % secUnit
    let s := { s with time := { s.time with txq := Tbl.set (Tbl.const []) s.time.txq d es } }
    (s.wr (Reg.timeTxqW1 d) (BitVec.ofNat 64 (sec % 2 ^ 32 * 2 ^ 32 + r / nsUnit)),
      BitVec.ofNat 64 (2 ^ 63 + e.port * 2 ^ 53 + e.id * 2 ^ 32 + r % nsUnit / 2 ^ 32 * 2 ^ 16 + sec / 2 ^ 32))

/-- What the last read returned. -/
def State.returned (s : State) (w : Word) : State := { s with host := { s.host with rdData := w } }

/-- TXQ_READ: a read of TIME_TXQ_d_W0. -/
def execTxqRead (d : Dom) (s : State) : Out := unlessReset s <|
  let r := s.txqRead d.val
  .next (r.1.returned r.2)

/-! ## Capture inputs (R389, R390) -/

/-- Capture input `i`. -/
def State.capture (s : State) (i : Nat) : Capture :=
  Tbl.get (Tbl.const { fifo := [], lastCap := none, lastEdge := 0 }) s.time.cap i

/-- Stores capture input `i`. -/
def State.setCapture (s : State) (i : Nat) (c : Capture) : State :=
  { s with time := { s.time with
      cap := Tbl.set (Tbl.const { fifo := [], lastCap := none, lastEdge := 0 }) s.time.cap i c } }

/-- R404: the edge is selected. -/
def State.edgeSelected (s : State) (i : Nat) (falling : Bool) : Bool :=
  match s.fld (Reg.timeTpiCtl i) Fld.timeTpiCtlEdge with
  | 1 => falling
  | 2 => true
  | _ => !falling

/-- R389: a selected edge is captured, or counted as not captured. -/
def State.captureEdge (s : State) (i : Nat) (falling : Bool) : State :=
  let c := s.capture i
  let st := Reg.timeTpiStat i
  let d := s.fld (Reg.timeTpiCtl i) Fld.timeTpiCtlDomain
  if !s.domOn d then s
  else if (match c.lastCap with
      | some t => decide (s.now < t + 100)
      | none => false) then s.incF st Fld.timeTpiStatOvfCnt
  else if 16 ≤ c.fifo.length then
    ((s.incF st Fld.timeTpiStatOvfCnt).setF st Fld.timeTpiStatOvf 1).err Reg.timeErr Fld.timeErrCapOvf.lo
  else s.setCapture i { c with fifo := c.fifo ++ [(falling, (s.dom d).time)], lastCap := some s.now }

/-- CAPTURE_EDGE: an edge on TPI[i]. -/
def execCaptureEdge (i : Fin 4) (falling : Bool) (s : State) : Out := unlessReset s <|
  let i := i.val
  if !s.edgeSelected i falling then .next s
  else
    let s := (s.setCapture i { s.capture i with lastEdge := s.now }).setF (Reg.timeTpiCtl i) Fld.timeTpiCtlLos 0
    let s := s.refScanAll
    .next (if (s.fld (Reg.timeTpiCtl i) Fld.timeTpiCtlFunction).testBit 0 then s.captureEdge i falling else s)

/-- R389: a read of TIME_TPI_i_W0. -/
def State.captureRead (s : State) (i : Nat) : State × Word :=
  let c := s.capture i
  match c.fifo with
  | [] => (s, 0)
  | e :: es =>
    let r := e.2 % secUnit
    ((s.setCapture i { c with fifo := es }).wr (Reg.timeTpiW1 i)
        (BitVec.ofNat 64 (r / nsUnit * 65536 + r % nsUnit / 2 ^ 32)),
      BitVec.ofNat 64 (2 ^ 63 + b2n e.1 * 2 ^ 62 + e.2 / secUnit))

/-- CAPTURE_READ: a read of TIME_TPI_i_W0. -/
def execCaptureRead (i : Fin 4) (s : State) : Out := unlessReset s <|
  let r := s.captureRead i.val
  .next (r.1.returned r.2)

/-- R390, R404: a write of TIME_TPI_i_CTL; the watch begins anew when WATCH_MS is written. -/
def State.tpiWrite (s : State) (i : Nat) (v en : Word) : State :=
  let s := (s.plainWrite (Reg.timeTpiCtl i) v en).refScanAll
  if Fld.timeTpiCtlWatchMs.get en = 0 then s else s.setCapture i { s.capture i with lastEdge := s.now }

/-- R390: what the loss of input `i` does to a domain that watches it. -/
def State.losDomain (s : State) (i d : Nat) : State :=
  let a := Reg.timeDomCtl d
  if s.flag a Fld.timeDomCtlHoldAuto && s.fld a Fld.timeDomCtlRefCap == i then
    let was := s.flag a Fld.timeDomCtlRefState
    (s.setF a Fld.timeDomCtlRefState 0).holdCheck d was
  else s

/-- CAPTURE_LOS: input `i` has seen no selected edge for WATCH_MS. -/
def execCaptureLos (i : Fin 4) (s : State) : Out := unlessReset s <|
  let i := i.val
  let c := Reg.timeTpiCtl i
  let w := s.fld c Fld.timeTpiCtlWatchMs
  if w = 0 ∨ s.flag c Fld.timeTpiCtlLos ∨ s.now < (s.capture i).lastEdge + w * 1000000 then .next s
  else
    let s := ((s.setF c Fld.timeTpiCtlLos 1).err Reg.timeErr Fld.timeErrLos.lo).refScanAll
    .next ((List.range 8).foldl (fun (s : State) d => s.losDomain i d) s)

/-- R386, R404: COUNT of a transmit timestamp queue and of a capture FIFO. -/
def State.txqStat (s : State) (d : Nat) : Word :=
  Fld.timeTxqStatCount.put (s.rd (Reg.timeTxqStat d)) (Tbl.get (Tbl.const []) s.time.txq d).length
/-- R404: TIME_TPI_i_STAT. -/
def State.tpiStat (s : State) (i : Nat) : Word :=
  Fld.timeTpiStatCount.put (s.rd (Reg.timeTpiStat i)) (s.capture i).fifo.length

end Sys2Proof.Machine
end

