-- ==== Sys2Proof/Machine/Twill.lean ====
section
/-! DEFINITION. The Twill, the pattern automata: TSCAN, scans and verdicts (R60, R237 to R245, R252 to
R255). -/

namespace Sys2Proof.Machine

/-! ## TSTATE and TCLASS of a head (R240) -/

/-- TSTATE of a head. -/
def headTstate (h : Head) : Nat := bitsOf (hget h 2 1) 4 3
/-- TCLASS of a head. -/
def headTclass (h : Head) : Nat := bitsOf (hget h 2 1) 2 0

/-- A head with TSTATE and TCLASS. -/
def headTwill (h : Head) (t c : Nat) : Head :=
  hput h 2 1 (bitsOf (hget h 2 1) 7 5 * 32 + t % 4 * 8 + c % 8)

/-- FIRST_SEEN of a head. -/
def headFirstSeen (h : Head) : Nat := hget h 16 4

/-! ## TSCAN -/

/-- The queue of engine `e`. -/
def State.engine (s : State) (e : Nat) : List ScanReq := Tbl.get (Tbl.const []) s.twill.eng e

/-- Stores the queue of engine `e`. -/
def State.setEngine (s : State) (e : Nat) (l : List ScanReq) : State :=
  { s with twill := { s.twill with eng := Tbl.set (Tbl.const []) s.twill.eng e l } }

/-- R237: the onset window a pick reads: 7 acts as 6. -/
def State.onsetWindow (s : State) (seq : BitVec 32) : Nat :=
  min 6 (s.pfld seq Reg.twillCtl Fld.twillCtlOnsetWindow)

/-- R237: the pick's packet is an onset packet of the head it holds. -/
def State.isOnset (s : State) (x : Pkt) (h : Held) (head : Head) : Bool :=
  let w := s.onsetWindow x.pick.seq
  s.pfld x.pick.seq Reg.twillCtl Fld.twillCtlEnable == 1 && 1 ≤ w && headTstate head != 2 &&
    (if x.pick.pick2 then h.created else 1 ≤ h.onset && h.onset ≤ w)

/-- R238: the payload a TSCAN names: from s1 to the byte before the FCS, at most 512. -/
def scanBytes (x : Pkt) (s1 len : Nat) : List Byte :=
  ((x.frame.take (x.len - 4)).drop s1).take (min len 512)

/-- R240: TSCAN returns ST_OK: TSTATE 0 of the head held becomes 1. -/
def State.scanning (s : State) (l : Nat) : State :=
  s.updLine l fun c =>
    if headTstate c.head = 0 then { c with head := headTwill c.head 1 (headTclass c.head), dirty := true } else c

/-- TSCAN in a pick. -/
def tscanPick (w : IWord) (x : Pkt) (p : Nat) (s : State) : PickRes :=
  let s1 := (x.read w.src1).toNat
  let len := bitsOf w.val.toNat 9 0
  let fin (s : State) (code : Nat) : PickRes := .done (s.setPkt p (some (x.setSt (stWord code)))) s1
  match x.pick.held with
  | none => fin s stAbsent
  | some h =>
    if len = 0 then fin (s.scanning h.line) stOk
    else match s.line h.line with
      | none => fin s stAbsent
      | some c =>
        if !s.isOnset x h c.head then fin s stMiss
        else
          let e := bitsOf h.key96.toNat 7 6
          let q := s.engine e
          let bs := scanBytes x s1 len
          if 4096 ≤ q.length ∨ 2097152 < (q.map fun r => r.bytes.length).sum + bs.length then
            let s := s.updLine h.line fun c => { c with head := headTwill c.head 3 (headTclass c.head), dirty := true }
            fin (s.err Reg.twillErr 1) stFull
          else
            let set := Reg.twillSet (w.fn.toNat % 16)
            let r : ScanReq :=
              { key96 := h.key96, firstSeen := headFirstSeen c.head,
                start := s.pfld x.pick.seq set Fld.twillSetStart,
                valid := s.pfld x.pick.seq set Fld.twillSetValid == 1, bytes := bs,
                onset := if x.pick.pick2 then 1 else h.onset, window := s.onsetWindow x.pick.seq,
                seq := x.pick.seq, order := s.twill.next }
            let s := s.setEngine e (q ++ [r])
            let s := { s with twill := { s.twill with next := s.twill.next + 1 } }
            fin (s.scanning h.line) stOk

/-- TSCAN; drafts only (R37). -/
def execTscan (c : Ctx) (w : IWord) (s : State) : Out :=
  match c with
  | .task k => taskIllegal k.val s
  | .pick p => runPick p 0x62 (fun x s => tscanPick w x p s) s

/-! ## Scans (R244) -/

/-- Word 0 of a state record (R242). -/
def State.twState (s : State) (n : Nat) : Nat := s.le (0x15000000 + 16 * n) 8
/-- Word 1 of a state record. -/
def State.twState1 (s : State) (n : Nat) : Nat := s.le (0x15000000 + 16 * n + 8) 8
/-- An edge. -/
def State.twEdge (s : State) (n : Nat) : Nat := s.le (0x19000000 + 4 * n) 4

/-- R242: edges of a state record. -/
def edgeCnt (w0 : Nat) : Nat := min 256 (bitsOf w0 54 46)

/-- R253: states in use. -/
def State.twStates (s : State) : Nat := min 4194304 (s.fld Reg.twillCfg Fld.twillCfgNstates)
/-- R253: edges in use. -/
def State.twEdges (s : State) : Nat := min 16777216 (s.fld Reg.twillCfg Fld.twillCfgNedges)

/-- The NEXT of the edge for byte `b` among `n` edges from `e`. -/
def State.findEdge (s : State) (b : Byte) : Nat → Nat → Option Nat
  | 0, _ => none
  | n + 1, e =>
    let w := s.twEdge e
    if bitsOf w 31 24 = b.toNat then some (bitsOf w 21 0) else State.findEdge s b n (e + 1)

/-- R243: `n` edges from `e` have strictly ascending bytes. -/
def State.edgesRise (s : State) : Nat → Nat → Bool
  | 0, _ => true
  | 1, _ => true
  | n + 2, e =>
    bitsOf (s.twEdge e) 31 24 < bitsOf (s.twEdge (e + 1)) 31 24 && State.edgesRise s (n + 1) (e + 1)

/-- What a scan finds: its class, whether it met a bad state, the patterns accepted, and whether an edge
list on its way was out of order. -/
structure ScanRes where
  cls : Nat
  bad : Bool
  pats : List Nat
  unsorted : Bool
deriving DecidableEq, Repr

/-- R244: scans bytes from a state, by the image and the counts in effect when it runs (DESIGN CHOICE, log entry 135). -/
def State.scan (s : State) : List Byte → Nat → ScanRes → ScanRes
  | [], _, r => r
  | b :: bs, st, r =>
    if s.twStates ≤ st then { r with bad := true }
    else
      let w := s.twState st
      let n := edgeCnt w
      let e := bitsOf w 45 22
      if s.twEdges < e + n then { r with bad := true }
      else
        let r := { r with unsorted := r.unsorted || !s.edgesRise n e }
        let nx := (s.findEdge b n e).getD (bitsOf w 21 0)
        if nx < s.twStates ∧ bitsOf (s.twState nx) 55 55 = 1 then
          let w1 := s.twState1 nx
          let r := { r with
            cls := max r.cls (max 1 (bitsOf (s.twState nx) 58 56)), pats := r.pats ++ [bitsOf w1 13 0] }
          if bitsOf w1 14 14 = 1 then r else State.scan s bs nx r
        else State.scan s bs nx r

/-- R240: TSTATE and TCLASS after a scan. -/
def verdictHead (h : Head) (q : ScanReq) (r : ScanRes) : Head :=
  let t := headTstate h
  headTwill h (if r.bad then 3 else if t = 1 ∧ q.onset = q.window then 2 else t) (max (headTclass h) r.cls)

/-- R241: the verdict is written to the head of a flow, wherever it is; none: it is lost. -/
def State.writeVerdict (s : State) (q : ScanReq) (r : ScanRes) : Option State :=
  let k := q.key96
  match s.cacheFind k with
  | some l =>
    match s.line l with
    | some c =>
      if headFirstSeen c.head = q.firstSeen then
        some (s.setLine l (some { c with head := verdictHead c.head q r, dirty := true }))
      else none
    | none => none
  | none =>
    match s.candidate k with
    | none => none
    | some n =>
      let a := s.headAddr n
      match s.victimOfRec n with
      | some (b, v) =>
        if headValid v.head && headSeal v.head == k && headFirstSeen v.head == q.firstSeen then
          let s := s.setVictims b ((s.victims b).map fun u =>
            if u.rno = n then { u with head := verdictHead u.head q r } else u)
          some (s.hbmPut (a + 2) [byteOf (hget (verdictHead v.head q r) 2 1) 0])
        else none
      | none =>
        let h : Head := BitVec.ofNat 512 (s.le a 64)
        let s := s.hbmTraffic false true .internal a 64
        if s.hbmUnc a then none
        else if headValid h && headSeal h == k && headFirstSeen h == q.firstSeen then
          some ((s.hbmTraffic false false .internal a 64).hbmPut (a + 2) [byteOf (hget (verdictHead h q r) 2 1) 0])
        else none

/-- R157, R241: the read of an uncached head finds it uncorrectable: the record is lost. -/
def State.verdictUnc (s : State) (k : Seal) : State :=
  if (s.cacheFind k).isSome then s
  else match s.candidate k with
    | none => s
    | some n =>
      if (s.victimOfRec n).isNone && s.hbmUnc (s.headAddr n) then
        (s.uncRead (s.headAddr n)).loseRec n
      else s

/-- TWILL_SCAN: engine `e` scans its next request and writes the verdict. -/
def execTwillScan (e : Fin 4) (s : State) : Out := unlessHalted s <|
  match s.engine e.val with
  | [] => .next s
  | q :: rest =>
    let r := if q.valid then s.scan q.bytes q.start { cls := 0, bad := false, pats := [], unsorted := false }
      else { cls := 0, bad := false, pats := [], unsorted := false }
    if r.unsorted then ub 22
    else
      let s := (s.setEngine e.val rest).incF (Reg.twillEng e.val) Fld.twillEngScanned
      let s := r.pats.foldl (fun s n => s.count (0x300000 + 8 * n)) (s.cntShared 7)
      let s := if r.bad then s.err Reg.twillErr 2 else s
      match s.writeVerdict q r with
      | some s => .next s
      | none =>
        let s := s.verdictUnc q.key96
        .next ({ s with twill := { s.twill with verdictsLost := s.twill.verdictsLost + 1 } }.err Reg.twillErr 0)

/-- R254: the batten sequence number of the oldest queued request, and whether none is queued. -/
def State.twOldest (s : State) : Option (BitVec 32) :=
  let all := (List.range 4).flatMap s.engine
  (all.foldl (fun (best : Option ScanReq) q =>
    match best with
    | none => some q
    | some b => if q.order < b.order then some q else some b) none).map (·.seq)

end Sys2Proof.Machine
end

