-- ==== Sys2Proof/Machine/Warp.lean ====
section
/-! DEFINITION. The sweeps, live rehash, initialisation, disabling, flushing and coherent reads of the
flow-state engine, and the behaviours of its registers (R158 to R183, R201). -/

namespace Sys2Proof.Machine

/-! ## Register behaviours -/

/-- R136: every range in use lies below record 2^28 and in usable HBM, and no two overlap. -/
def State.flowRangesOk (s : State) : Bool :=
  let rs := ([(s.firstRec 0, 8 * s.nbOf 0), (s.firstRec 1, 8 * s.nbOf 1), (s.ovfFirst, s.ovfCount)]).filter
    fun r => r.2 != 0
  let fits (r : Nat × Nat) : Bool :=
    r.1 + r.2 ≤ 2 ^ 28 && inHbm (s.headAddr r.1) && inHbm (s.headAddr (r.1 + r.2) - 1)
  let apart (x y : Nat × Nat) : Bool := x.1 + x.2 ≤ y.1 || y.1 + y.2 ≤ x.1
  rs.all fits && (rs.zipIdx.all fun x => rs.zipIdx.all fun y => x.2 == y.2 || apart x.1 y.1)

/-- R167: a write of WARP_CTL. Clearing ENABLE first writes the cache back (WARP_DISABLE_DONE), which a
later write of 1 does not undo (DESIGN CHOICE, log entry 132). -/
def State.warpCtlWrite (s : State) (v en : Word) : Except Fault State :=
  let on := s.warpOn
  let enNew := s.written Reg.warpCtl Fld.warpCtlEnable v en
  if on ∧ s.written Reg.warpCtl Fld.warpCtlCurTable v en ≠ s.curTable then .error (.undefinedBehaviour 13)
  else
    let s := s.plainWrite Reg.warpCtl v en
    if on ∧ enNew = 0 then
      .ok { s.setF Reg.warpCtl Fld.warpCtlEnable 1 with warp := { s.warp with disabling := true } }
    else if !on ∧ enNew = 1 ∧ !s.flowRangesOk then .error (.undefinedBehaviour 12)
    else .ok s

/-- R165: a write of a register that must not change while the Warp is enabled. -/
def State.warpFixedWrite (s : State) (a : Nat) (v en : Word) : Except Fault State :=
  if s.warpOn then .error (.undefinedBehaviour 13) else .ok (s.plainWrite a v en)

/-- R165: a write of the descriptor or a seed half of table `t`. -/
def State.warpTableWrite (s : State) (t a : Nat) (v en : Word) : Except Fault State :=
  if (s.warpOn ∧ s.curTable = t) ∨ s.flag Reg.warpRehashStat Fld.warpRehashStatActive then
    .error (.undefinedBehaviour 13)
  else .ok (s.plainWrite a v en)

/-- R174: writes every dirty unpinned line back, leaving it clean. -/
def State.flushCache (s : State) : State :=
  s.warp.cache.foldl (fun s e =>
    match e.2 with
    | none => s
    | some c =>
      if c.dirty ∧ c.pins = 0 ∧ !c.reserved ∧ !c.isSecond ∧ !c.detached then
        let w := s.writeBackHead false .internal c.rno c.image c.head
        w.1.setLine e.1 (some { c with head := w.2.1, dirty := false })
      else s) s

/-- A write of WARP_CACHE_CTL. -/
def State.cacheCtlWrite (s : State) (v en : Word) : State :=
  let s := s.plainWrite Reg.warpCacheCtl v en
  if wroteOne Fld.warpCacheCtlFlush v en then
    s.flushCache.setF Reg.warpCacheCtl Fld.warpCacheCtlFlushBusy 1
  else s

/-- R162: a write of WARP_REHASH_CTL. -/
def State.rehashCtlWrite (s : State) (v en : Word) : Except Fault State :=
  let t := s.plainWrite Reg.warpRehashCtl v en
  if wroteOne Fld.warpRehashCtlStart v en then
    if s.flag Reg.warpRehashStat Fld.warpRehashStatActive then .error (.undefinedBehaviour 13)
    else if !s.flowRangesOk then .error (.undefinedBehaviour 12)
    else .ok (t.wr Reg.warpRehashStat (Fld.warpRehashStatActive.put 0 1))
  else .ok t

/-- R178: clears the tag entries of table `t`. -/
def State.clearTable (s : State) (t : Nat) : State :=
  { s with warp := { s.warp with
      tags := s.warp.tags.filter fun e => e.1 < s.firstRec t || s.firstRec t + 8 * s.nbOf t ≤ e.1 } }

/-- R178: frees every overflow entry. -/
def State.clearOvf (s : State) : State := { s with warp := { s.warp with ovf := [] } }

/-- R165, R178: a write of WARP_INIT. -/
def State.warpInitWrite (s : State) (v en : Word) : Except Fault State :=
  let b0 := wroteOne Fld.warpInitTbl0 v en
  let b1 := wroteOne Fld.warpInitTbl1 v en
  let bo := wroteOne Fld.warpInitOvf v en
  let act := s.flag Reg.warpRehashStat Fld.warpRehashStatActive
  let on := s.warpOn
  if ((b0 || b1 || bo) && act) || (b0 && on && s.curTable == 0) || (b1 && on && s.curTable == 1) then
    .error (.undefinedBehaviour 13)
  else
    let s := if b0 then s.clearTable 0 else s
    let s := if b1 then s.clearTable 1 else s
    let s := if bo then s.clearOvf else s
    .ok (if b0 || b1 || bo then s.setF Reg.warpInit Fld.warpInitBusy 1 else s)

/-- R166: a write of WARP_RD_CMD; GO while BUSY is 1 names another record (DESIGN CHOICE, log entry 100). -/
def State.rdCmdWrite (s : State) (v en : Word) : State :=
  let s := s.plainWrite Reg.warpRdCmd v en
  if wroteOne Fld.warpRdCmdGo v en then
    { s.setF Reg.warpRdStat Fld.warpRdStatBusy 1 with
      warp := { s.warp with rdRec := s.fld Reg.warpRdCmd Fld.warpRdCmdRec } }
  else s

/-- R201: a write of a register of a service table whose NB register is `nb`. -/
def State.stblWrite (s : State) (nb a : Nat) (v en : Word) : Except Fault State :=
  let t := s.plainWrite a v en
  if a = nb then
    if s.flag nb Fld.warpStbl6NbValid ∧ t.flag nb Fld.warpStbl6NbValid then .error (.undefinedBehaviour 19)
    else if 83886080 < t.fld nb Fld.warpStbl6NbNb then
      .error (.undefinedBehaviour 19)
    else if nb = Reg.warpStbl6Nb ∧ t.flag nb Fld.warpStbl6NbValid ∧
        (t.fld Reg.warpStbl6Mirror Fld.warpStbl6MirrorMirror + 2048 -
          t.fld Reg.warpStbl6Base Fld.warpStbl6BaseBase % 2048) % 2048 ≠ 1024 then
      .error (.undefinedBehaviour 34)
    else .ok t
  else if s.flag nb Fld.warpStbl6NbValid then .error (.undefinedBehaviour 19)
  else .ok t

/-- R219: a write of the base or size of the digest ring while a digest is enabled, or a form of it (DESIGN CHOICE, log
entry 134). -/
def State.fdigCfgWrite (s : State) (a : Nat) (v en : Word) : Except Fault State :=
  if s.rd Reg.warpFdigCtl ≠ 0 then .error (.undefinedBehaviour 20) else .ok (s.plainWrite a v en)

/-! ## Commands that are writes of those registers -/

/-- WARP_INIT_TBL0: writes WARP_INIT.TBL0. -/
def execWarpInitTbl0 (s : State) : Out := unlessHalted s <|
  s.byWrite Reg.warpInit (s.warpInitWrite (Fld.warpInitTbl0.put 0 1) (BitVec.allOnes 64))

/-- WARP_INIT_TBL1: writes WARP_INIT.TBL1. -/
def execWarpInitTbl1 (s : State) : Out := unlessHalted s <|
  s.byWrite Reg.warpInit (s.warpInitWrite (Fld.warpInitTbl1.put 0 1) (BitVec.allOnes 64))

/-- WARP_INIT_OVF: writes WARP_INIT.OVF. -/
def execWarpInitOvf (s : State) : Out := unlessHalted s <|
  s.byWrite Reg.warpInit (s.warpInitWrite (Fld.warpInitOvf.put 0 1) (BitVec.allOnes 64))

/-- WARP_INIT_DONE. -/
def execWarpInitDone (s : State) : Out := unlessHalted s <|
  .next (s.setF Reg.warpInit Fld.warpInitBusy 0)

/-- WARP_DISABLE: a write of WARP_CTL. -/
def execWarpDisable (v : Word) (s : State) : Out :=
  s.byWrite Reg.warpCtl (s.warpCtlWrite v (BitVec.allOnes 64))

/-- R150, R167: the lines that picks have reserved and not used go. -/
def State.freeSpares (s : State) : State :=
  s.pkts.foldl (fun (s : State) e => match e.2 with
    | some x => (s.freeSpare x).updPkt e.1 fun x => { x with pick := { x.pick with spare := none } }
    | none => s) s

/-- R167: the whole cache is written back and invalidated; a line that a pick holds becomes detached, and a head of a
lost stack is lost (R493). -/
def State.emptyCache (s : State) : State :=
  let s := s.freeSpares
  let s := s.warp.cache.foldl (fun s e =>
    match e.2 with
    | none => s
    | some c =>
      if c.isSecond ∨ c.reserved ∨ c.detached then s
      else
        let s := if !s.recUsable c.rno then s.loseHead c.rno (headForm c.head) (headSeal c.head)
          else if c.dirty then (s.writeBackHead false .internal c.rno c.image c.head).1 else s
        if c.pins = 0 then s.freeLine e.1 else s.setLine e.1 (some { c with detached := true })) s
  { s with warp := { s.warp with victims := [] } }

/-- R150, R154: some pick waits for a head, or for a line for its pending create. -/
def State.looksPending (s : State) : Bool :=
  s.pkts.any fun e => match e.2 with
    | some x => (match x.pick.wait with
      | .head _ => true
      | .create _ => true
      | _ => false)
    | none => false

/-- WARP_DISABLE_DONE: the write-back of a disable ends and ENABLE reads 0. Lookups and creates in progress end before
it. -/
def execWarpDisableDone (s : State) : Out := unlessHalted s <|
  if s.warp.disabling && !s.looksPending then
    let s := s.emptyCache.setF Reg.warpCtl Fld.warpCtlEnable 0
    .next { s with warp := { s.warp with disabling := false } }
  else .next s

/-- CACHE_FLUSH: a write of WARP_CACHE_CTL. -/
def execCacheFlush (v : Word) (s : State) : Out :=
  s.byWrite Reg.warpCacheCtl (.ok (s.cacheCtlWrite v (BitVec.allOnes 64)))

/-- CACHE_FLUSH_DONE. -/
def execCacheFlushDone (s : State) : Out := unlessHalted s <|
  .next (s.setF Reg.warpCacheCtl Fld.warpCacheCtlFlushBusy 0)

/-- COHERENT_READ: a write of WARP_RD_CMD. -/
def execCoherentRead (v : Word) (s : State) : Out :=
  s.byWrite Reg.warpRdCmd (.ok (s.rdCmdWrite v (BitVec.allOnes 64)))

/-- Stores the 128 bytes of a coherent read in WARP_RD_DATA_0 to 15 (R183). -/
def State.putRdData (s : State) (bs : List Byte) : State :=
  (List.range 16).foldl (fun s k =>
    s.wr (Reg.warpRdData k) (BitVec.ofNat 64 (ofLE (slice bs (8 * k) 8)))) s

/-- COHERENT_READ_DONE: the record appears in WARP_RD_DATA (R166); lines read from HBM that are
uncorrectable are handled as in R157. -/
def execCoherentReadDone (s : State) : Out := unlessHalted s <|
  if !s.flag Reg.warpRdStat Fld.warpRdStatBusy then .next s
  else
    let r := s.warp.rdRec
    let fin (s : State) (code : Nat) (bs : List Byte) : Out :=
      .next ((s.putRdData bs).wr Reg.warpRdStat (Fld.warpRdStatCode.put 0 code))
    if !s.isPlaced r then fin s stAbsent (List.replicate 128 0)
    else if s.recBusy r then .next s
    else match s.accessHeld (s.headAddr r) 128 with
    | some a => .next (s.hbmWake a)
    | none =>
      let a := s.headAddr r
      let s := s.readRec .internal r
      if (s.lineOfRec r).isNone && (s.victimOfRec r).isNone && s.hbmUnc a then
        fin ((s.uncRead a).loseRec r) stAbsent (List.replicate 128 0)
      else
        let s := s.mendTail r (s.headOf r)
        fin s stOk (s.coherent r)

/-- REHASH_START: a write of WARP_REHASH_CTL. -/
def execRehashStart (v : Word) (s : State) : Out :=
  s.byWrite Reg.warpRehashCtl (s.rehashCtlWrite v (BitVec.allOnes 64))

/-! ## Rehash (R162 to R164) -/

/-- Copies one HBM line, uncorrectable or not. -/
def State.copyLine (s : State) (src dst : Nat) : State :=
  let unc := s.hbmUnc src
  let s := (s.hbmTraffic false true .internal src 64).hbmTraffic false false .internal dst 64
  (s.hbmPut dst (s.bytes src 64)).setBad (hbmLine dst) (unc && !s.stackLost (hbmStack dst))

/-- R162 step 3: moves the record `r` with head `h` to its new place. -/
def State.moveRec (s : State) (r : Nat) (h : Head) (p : Placed) : State :=
  let n := p.rno
  let ov (x : Head) : Head := headBit x 28 p.isOvf
  let s := (s.copyLine (s.headAddr r) (s.headAddr n))
  let s := s.hbmPut (s.headAddr n + 3) [byteOf (ov (BitVec.ofNat 512 (s.le (s.headAddr n) 64))).toNat 3]
  let s := if headFresh h then s else s.copyLine (s.headAddr r + 64) (s.headAddr n + 64)
  let s := match s.lineOfRec r with
    | some l => s.updLine l fun c => { c with head := ov c.head, rno := n }
    | none => s
  let s := match s.victimOfRec r with
    | some (b, _) => s.setVictims b ((s.victims b).map fun (v : Victim) =>
        if v.rno = r then { v with head := ov v.head, rno := n } else v)
    | none => s
  let s := { s with warp := { s.warp with owed := s.warp.owed.map fun k => if k = r then n else k } }
  let s := s.incF Reg.warpRehashStat Fld.warpRehashStatMoved
  if s.flag Reg.warpFdigCtl Fld.warpFdigCtlMoveEn then
    s.fdig 4 (headForm h) 0 255 r (headSeal h) (toLE 4 n)
  else s

/-- R157: a record whose head is held only in an uncorrectable line. -/
def State.recUnread (s : State) (r : Nat) : Bool :=
  (s.lineOfRec r).isNone && (s.victimOfRec r).isNone && s.hbmUnc (s.headAddr r)

/-- R162 step 3: places every record of a bucket in table `t`; none where one has no place (R163). -/
def State.placeAll (s : State) (t : Nat) : List (Nat × Head) → Option (State × List (Nat × Head × Placed))
  | [] => some (s, [])
  | (r, h) :: rs =>
    match s.place t (headSeal h) with
    | none => none
    | some p =>
      match State.placeAll (s.commitPlace p (headSeal h)) t rs with
      | none => none
      | some (s, out) => some (s, (r, h, p) :: out)

/-- R162 step 6. -/
def State.rehashEnd (s : State) : State :=
  let t := 1 - s.curTable
  let s := s.setF Reg.warpCtl Fld.warpCtlCurTable t
  let s := (s.setF Reg.warpRehashStat Fld.warpRehashStatActive 0).setF Reg.warpRehashStat
    Fld.warpRehashStatOvfPhase 0
  s.err Reg.warpErr 3

/-- The lowest used overflow entry not yet offered in step 5. -/
def State.nextOvf (s : State) : Option Nat :=
  (s.warp.ovf.find? fun e => e.2.isSome && s.warp.ovfNext ≤ e.1).map (·.1)

/-- R162 step 5 begins; with no overflow record the rehash ends. -/
def State.enterOvf (s : State) : State :=
  let s := s.setF Reg.warpRehashStat Fld.warpRehashStatOvfPhase 1
  let s := { s with warp := { s.warp with ovfNext := 0 } }
  if s.nextOvf.isNone then s.rehashEnd else s

/-- R162 steps 2 to 4 for the bucket at CURSOR; R163 where a record has no place. -/
def State.migrate (s : State) : State :=
  let old := s.curTable
  let cur := s.fld Reg.warpRehashStat Fld.warpRehashStatCursor
  if s.nbOf old ≤ cur then s.enterOvf
  else
    let rs := ((List.range 8).map fun w => s.firstRec old + 8 * cur + w).filter fun r => s.tag r != 0
    let s := (rs.filter s.recUnread).foldl (fun s r => (s.uncRead (s.headAddr r)).loseRec r) s
    let rs := rs.filter fun r => s.tag r != 0
    match s.placeAll (1 - old) (rs.map fun r => (r, s.headOf r)) with
    | none => (s.setF Reg.warpRehashStat Fld.warpRehashStatStall 1).err Reg.warpErr 2
    | some (s, ps) =>
      let s := ps.foldl (fun s x => s.moveRec x.1 x.2.1 x.2.2) s
      let s := rs.foldl (fun s r => s.setTag r 0) s
      let s := (s.setF Reg.warpRehashStat Fld.warpRehashStatStall 0).incF Reg.warpRehashStat
        Fld.warpRehashStatCursor
      if s.nbOf old ≤ cur + 1 then s.enterOvf else s

/-- A rehash is in its bucket phase. -/
def State.migrating (s : State) : Bool :=
  s.flag Reg.warpRehashStat Fld.warpRehashStatActive && !s.flag Reg.warpRehashStat Fld.warpRehashStatOvfPhase

/-- R146, R360: records to be moved that a lookup or create waits for, or whose channel holds them back: the move
waits. -/
def State.moveHeld (s : State) (rs : List Nat) : Option State :=
  if rs.any s.recBusy then some s
  else (rs.findSome? fun r => s.accessHeld (s.headAddr r) 128).map s.hbmWake

/-- R162: the records of the bucket at CURSOR. -/
def State.bucketRecs (s : State) : List Nat :=
  ((List.range 8).map fun w => s.firstRec s.curTable + 8 * s.fld Reg.warpRehashStat Fld.warpRehashStatCursor + w).filter
    fun r => s.tag r != 0

/-- R162: the bucket at CURSOR is migrated once nothing holds its records. -/
def State.migrateNow (s : State) : State := (s.moveHeld s.bucketRecs).getD s.migrate

/-- MIGRATE_BUCKET. -/
def execMigrateBucket (s : State) : Out := unlessHalted s <|
  if s.migrating ∧ !s.flag Reg.warpRehashStat Fld.warpRehashStatStall then .next s.migrateNow else .next s

/-- REHASH_RETRY: the stalled bucket is taken again. -/
def execRehashRetry (s : State) : Out := unlessHalted s <|
  if s.migrating ∧ s.flag Reg.warpRehashStat Fld.warpRehashStatStall then .next s.migrateNow else .next s

/-- MIGRATE_OVERFLOW: overflow entry `i` is offered to the new table, entries in ascending order (DESIGN CHOICE, log
entry 27). With no entry left to offer the rehash ends. -/
def execMigrateOverflow (i : Fin 1048576) (s : State) : Out := unlessHalted s <|
  if !(s.flag Reg.warpRehashStat Fld.warpRehashStatActive && s.flag Reg.warpRehashStat Fld.warpRehashStatOvfPhase) then
    .next s
  else if s.nextOvf.isNone then .next s.rehashEnd
  else if s.nextOvf = some i.val then
    let r := s.ovfFirst + i.val
    match s.moveHeld [r] with
    | some t => .next t
    | none =>
    let s :=
      if s.recUnread r then (s.uncRead (s.headAddr r)).loseRec r
      else
        let h := s.headOf r
        match s.freeWay (1 - s.curTable) (headSeal h) with
        | none => s
        | some p => ((s.commitPlace p (headSeal h)).moveRec r h p).setOvf i.val none
    let s := { s with warp := { s.warp with ovfNext := i.val + 1 } }
    .next (if s.nextOvf.isNone then s.rehashEnd else s)
  else .next s

/-! ## Sweeps (R158) -/

/-- CACHE_SWEEP: the sweep reaches line `l`. -/
def execCacheSweep (line : Fin 1048576) (s : State) : Out := unlessHalted s <|
  match s.line line.val with
  | none => .next s
  | some c =>
    if hasDeltas c.head ∧ !c.reserved ∧ !c.isSecond ∧ !c.detached then
      match s.accessHeld (s.headAddr c.rno + 64) 64 with
      | some a => .next (s.hbmWake a)
      | none =>
      let r := s.fold (s.profile == 2) true .internal c.rno c.image c.head
      .next (r.1.updLine line.val fun c => { c with head := r.2.1, dirty := true })
    else .next s

/-- R158: record `r` is for the table sweep: placed, its head neither cached nor in the victim buffer nor awaited. -/
def State.sweepable (s : State) (r : Nat) : Bool :=
  s.isPlaced r && (s.lineOfRec r).isNone && (s.victimOfRec r).isNone && !s.recBusy r

/-- R158: a change out of W1 owes a pass over the placed records. -/
def State.owePass (s : State) : State :=
  { s with warp := { s.warp with owed := (s.warp.tags.map (·.1) ++
      (s.warp.ovf.filter fun e => e.2.isSome).map fun e => s.ovfFirst + e.1).filter s.isPlaced } }

/-- The table sweep runs: a period is set, W1 is in effect (with TABLE_PERIOD 0 too: DESIGN CHOICE, log entry 101), or
records of the pass owed after W1 are still to be visited. -/
def State.tableSweeps (s : State) : Bool :=
  s.fld Reg.warpSweepCtl Fld.warpSweepCtlTablePeriod != 0 || s.profile == 1 || s.warp.owed.any s.sweepable

/-- TABLE_SWEEP: the sweep visits record `r`. -/
def execTableSweep (r : BitVec 28) (s : State) : Out := unlessHalted s <|
  let n := r.toNat
  if !s.tableSweeps ∨ !s.sweepable n then .next s
  else match s.accessHeld (s.headAddr n) 128 with
  | some a => .next (s.hbmWake a)
  | none =>
    let s := { s with warp := { s.warp with owed := s.warp.owed.filter fun k => k != n } }
    let a := s.headAddr n
    let s := s.hbmTraffic false true .internal a 64
    if s.recUnread n then .next ((s.uncRead a).loseRec n)
    else
      let h : Head := BitVec.ofNat 512 (s.le a 64)
      let f := if hasDeltas h then
          let f := s.fold (s.profile == 2) false .internal n none h
          (f.1, f.2.1)
        else (s, h)
      let g := headGen f.2
      let h2 := if g ≠ 0 ∧ g ≠ f.1.fld Reg.warpGen Fld.warpGenCurrent then hput f.2 0 2 0 else f.2
      .next (if h2 = h then f.1 else (f.1.hbmTraffic false false .internal a 64).hbmPut a (headBytes h2))

end Sys2Proof.Machine
end

