-- ==== Sys2Proof/Machine/RegHooks.lean ====
section
/-! DEFINITION. Register accesses: what a write of each register does, and what a read returns (R11 to R14).
Registers of which the spec says no more than their access codes take the plain effect. -/

namespace Sys2Proof.Machine

/-! ## Registers of the host interface, the Spindle and Jacquard -/

/-- Sets the phase. -/
def State.setPhase (s : State) (p : Nat) : State := s.setF Reg.identBootStat Fld.identBootStatPhase p

/-- R510: a write of IDENT_BOOT_CMD; GO in FAILED offers a host image. -/
def State.bootCmdWrite (s : State) (v en : Word) : State :=
  let s := s.plainWrite Reg.identBootCmd v en
  if wroteOne Fld.identBootCmdGo v en ∧ s.phase = 6 then
    (s.setPhase 3).setF Reg.identBootStat Fld.identBootStatImage 2
  else s

/-- R437: a write of BASE or CFG of ring `n`. -/
def State.ringCfgWrite (s : State) (n a : Nat) (v en : Word) : Except Fault State :=
  if s.ringUsed n ≠ 0 then .error (.undefinedBehaviour 41) else .ok (s.plainWrite a v en)

/-- R442, R449: a write of HOSTIF_MSI_SEND raises its vector once. -/
def State.msiSendWrite (s : State) (v en : Word) : State :=
  if Fld.hostifMsiSendVector.get en = 0 then s else s.msi (Fld.hostifMsiSendVector.get (v &&& en))

/-- R516, steps 1 and 2: dispatch stops and every task is deleted. -/
def State.restartSpindle (s : State) : State :=
  let s := s.setF Reg.spinRestart Fld.spinRestartBusy 1
  let s := { s with spin := { s.spin with restarting := true } }
  (s.spin.task.map (·.1)).foldl (fun (s : State) k => s.deleteTask k) s

/-- R515: a write of SPIN_RESTART; GO is ignored while BUSY is 1. -/
def State.restartWrite (s : State) (v en : Word) : State :=
  let s := s.plainWrite Reg.spinRestart v en
  if wroteOne Fld.spinRestartGo v en && !s.flag Reg.spinRestart Fld.spinRestartBusy then s.restartSpindle else s

/-- R425: a queue's range runs past the queue memory, or overlaps another queue's. -/
def State.queueBad (s : State) (q : Nat) : Bool :=
  let base := fun i => s.fld (Reg.spinQCfg i) Fld.spinQCfgBase
  decide (65536 < base q + s.qDepth q) || (List.range 256).any fun i =>
    i != q && decide (0 < s.qDepth q) && decide (0 < s.qDepth i) && decide (base i < base q + s.qDepth q) && decide (base q < base i + s.qDepth i)

/-- R425: a write of SPIN_Q_q_CFG. -/
def State.queueCfgWrite (s : State) (q : Nat) (v en : Word) : Except Fault State :=
  let t := s.plainWrite (Reg.spinQCfg q) v en
  let x := s.squeue q
  let moved := s.qDepth q != t.qDepth q ||
    s.fld (Reg.spinQCfg q) Fld.spinQCfgBase != t.fld (Reg.spinQCfg q) Fld.spinQCfgBase
  let used := !x.entries.isEmpty || !x.putters.isEmpty || !x.getters.isEmpty
  if (moved && used || moved && t.queueBad q) = true then .error (.undefinedBehaviour 38) else .ok t

/-- R450: a write of JACQ_FLOOR; one below the present value is ignored. -/
def State.floorWrite (s : State) (v en : Word) : State :=
  let new := s.written Reg.jacqFloor Fld.jacqFloorFloor v en
  if new < s.fld Reg.jacqFloor Fld.jacqFloorFloor then s else s.setF Reg.jacqFloor Fld.jacqFloorFloor new

/-! ## Registers of the rings, buckets and pools -/

/-- R483: a write of GLASS_SMP_CONS, by the rule of WARP_FDIG_CONS (R219): no ring holds more than 16,777,216 samples, so a
CONS that stands further from PROD, modulo 2^32, has run ahead of it. -/
def State.smpConsWrite (s : State) (v en : Word) : Except Fault State :=
  let t := s.plainWrite Reg.glassSmpCons v en
  let used := (t.fld Reg.glassSmpProd Fld.glassSmpProdProd + 2 ^ 32 - t.fld Reg.glassSmpCons Fld.glassSmpConsCons) % 2 ^ 32
  if 16777216 < used then .error (.undefinedBehaviour 42) else .ok t

/-- R219: a write of WARP_FDIG_CONS. No ring holds more than 16,777,216 digests, so a CONS that stands further from
PROD, modulo 2^32, has run ahead of it. -/
def State.fdigConsWrite (s : State) (v en : Word) : Except Fault State :=
  let t := s.plainWrite Reg.warpFdigCons v en
  let used := (t.fld Reg.warpFdigProd Fld.warpFdigProdProd + 2 ^ 32 - t.fld Reg.warpFdigCons Fld.warpFdigConsCons) % 2 ^ 32
  if 16777216 < used then .error (.undefinedBehaviour 20) else .ok t

/-- R127, R129: a write of LOOM_PUNT_BKT_r: the bucket fills at the old rate up to now. -/
def State.puntBktWrite (s : State) (n r : Nat) (v en : Word) : State :=
  (s.setPuntBucket n r (s.puntBucket n r)).plainWrite (Reg.loomPuntBkt n r) v en

/-- R231, R247: a write of REED_RECLASS: the buckets fill at the old rate up to now. -/
def State.reclassWrite (s : State) (v en : Word) : State :=
  let s := (List.range 4).foldl (fun (s : State) q =>
    let b := s.reclassBucket q
    { s with reed := { s.reed with buckets := Tbl.set (Tbl.const reclassFull) s.reed.buckets q b } }) s
  s.plainWrite Reg.reedReclass v en

/-- R312: the pools a value of BEAM_POOL gives are larger than the buffer. -/
def State.poolBad (s : State) (w : Word) : Bool :=
  decide (978944 - s.lostCells < Fld.beamPoolMinPool.get w + Fld.beamPoolHeadPool.get w)

/-- R312: a write of BEAM_POOL. -/
def State.poolWrite (s : State) (v en : Word) : Except Fault State :=
  let t := s.plainWrite Reg.beamPool v en
  let p := t.pendingWs Reg.beamPool
  if t.poolBad (mergeMask p.1 p.2 (t.rd Reg.beamPool)) = true then .error (.undefinedBehaviour 31) else .ok t

/-! ## Writes -/

/-- What a write does to a register of IDENT, HOSTIF, SPINDLE, JACQUARD or TENSION; `b` is the address of
instance 0 of its kind and `i` its number. -/
def State.writeCore (s : State) (b i a : Nat) (v en : Word) : Except Fault State :=
  if b = Reg.identBootCmd then .ok (s.bootCmdWrite v en)
  else if b = Reg.ringBase 0 ∨ b = Reg.ringCfg 0 then s.ringCfgWrite i a v en
  else if b = Reg.hostifMsiSend then .ok (s.msiSendWrite v en)
  else if b = Reg.spinTaskCmd then .ok (s.taskCmdWrite v en)
  else if b = Reg.spinRestart then .ok (s.restartWrite v en)
  else if b = Reg.spinQCfg 0 then s.queueCfgWrite i v en
  else if b = Reg.jacqFloor then .ok (s.floorWrite v en)
  else if b = Reg.tensionCtl then .ok (s.tensionCtlWrite v en)
  else if b = Reg.tensionAvs then .ok (s.avsWrite v en)
  else if b = Reg.tensionLoom 0 then .ok (s.loomWrite i v en)
  else .ok (s.plainWrite a v en)

/-- What a write does to a register of TIME. -/
def State.writeTime (s : State) (b i a : Nat) (v en : Word) : Except Fault State :=
  if b = Reg.timeCtl then s.timeCtlWrite v en
  else if b = Reg.timeDomCtl 0 then .ok (s.domCtlWrite i v en)
  else if b = Reg.timeDomFreq 0 then .ok (s.freqWrite i v en)
  else if b = Reg.timeDomStep 0 then .ok (s.domStepWrite i v en)
  else if b = Reg.timeTpoCtl 0 then .ok (s.pulseWrite i v en)
  else if b = Reg.timeTpiCtl 0 then .ok (s.tpiWrite i v en)
  else if b = Reg.timeHoldTref then .ok (s.trefWrite v en)
  else if b = Reg.timeHoldStat ∨ b = Reg.timeHoldRange ∨ b = Reg.timeHoldC0 ∨ b = Reg.timeHoldC1 ∨
      b = Reg.timeHoldC2 ∨ b = Reg.timeHoldD then .ok (s.holdRestore a v en)
  else if b = Reg.dpllCtl then .ok (s.dpllCtlWrite v en)
  else if b = Reg.dpllRef 0 then .ok (s.dpllRefWrite i v en)
  else if b = Reg.synceOut 0 then .ok (s.synceWrite i v en)
  else .ok (s.plainWrite a v en)

/-- What a write does to a register of GLASS or DIGEST. -/
def State.writeGlass (s : State) (b a : Nat) (v en : Word) : Except Fault State :=
  if b = Reg.glassSnap then .ok (s.glassSnapWrite v en)
  else if b = Reg.glassSmpBase ∨ b = Reg.glassSmpSize then s.smpRingWrite a v en
  else if b = Reg.glassSmpCons then s.smpConsWrite v en
  else if b = Reg.glassBwCtl then .ok (s.bwCtlWrite v en)
  else if b = Reg.digestSnap then .ok (s.digestSnapWrite v en)
  else if b = Reg.digestScanBase ∨ b = Reg.digestScanLen ∨ b = Reg.digestScanCtl then s.scanWrite a v en
  else .ok (s.plainWrite a v en)

/-- What a write does to a register of WARP. -/
def State.writeWarp (s : State) (b i a : Nat) (v en : Word) : Except Fault State :=
  if b = Reg.warpCtl then s.warpCtlWrite v en
  else if b = Reg.warpRegion ∨ b = Reg.warpOvfCfg ∨ b = Reg.warpSealKeyLo ∨ b = Reg.warpSealKeyHi then
    s.warpFixedWrite a v en
  else if b = Reg.warpTbl 0 then s.warpTableWrite i a v en
  else if b = Reg.warpSeed0Lo ∨ b = Reg.warpSeed0Hi then s.warpTableWrite 0 a v en
  else if b = Reg.warpSeed1Lo ∨ b = Reg.warpSeed1Hi then s.warpTableWrite 1 a v en
  else if b = Reg.warpCacheCtl then .ok (s.cacheCtlWrite v en)
  else if b = Reg.warpRehashCtl then s.rehashCtlWrite v en
  else if b = Reg.warpInit then s.warpInitWrite v en
  else if b = Reg.warpRdCmd then .ok (s.rdCmdWrite v en)
  else if b = Reg.warpStbl6Base ∨ b = Reg.warpStbl6Nb ∨ b = Reg.warpStbl6Seed ∨ b = Reg.warpStbl6Mirror then
    s.stblWrite Reg.warpStbl6Nb a v en
  else if b = Reg.warpStbl7Base ∨ b = Reg.warpStbl7Nb ∨ b = Reg.warpStbl7Seed then s.stblWrite Reg.warpStbl7Nb a v en
  else if b = Reg.warpFdigBase ∨ b = Reg.warpFdigSize then s.fdigCfgWrite a v en
  else if b = Reg.warpFdigCons then s.fdigConsWrite v en
  else .ok (s.plainWrite a v en)

/-- What a write does to a register of REED, BEAM or LEARN. -/
def State.writeBeam (s : State) (b i a : Nat) (v en : Word) : Except Fault State :=
  if b = Reg.reedReclass then .ok (s.reclassWrite v en)
  else if b = Reg.reedBank 0 then .ok (s.reedBankWrite i v en)
  else if b = Reg.beamFlushCmd then .ok (s.flushWrite v en)
  else if b = Reg.beamPort 0 then .ok (s.beamPortWrite i v en)
  else if b = Reg.beamBattenCmd then .ok (s.battenCmdWrite v en)
  else if b = Reg.beamHstageData then s.hstageWrite v en
  else if b = Reg.beamPool then s.poolWrite v en
  else if b = Reg.learnCtl then s.learnCtlWrite v en
  else if b = Reg.learnAgeCmd then s.ageCmdWrite v en
  else if b = Reg.learnLpmxBase 0 then s.lpmxBaseWrite i v en
  else if b = Reg.learnLpmxCnt 0 then s.lpmxCntWrite i v en
  else if b = Reg.learnCmpSrc ∨ b = Reg.learnCmpDst ∨ b = Reg.learnCmpLen ∨ b = Reg.learnCmpCtl ∨
      b = Reg.learnCmpStat then s.cmpWrite a v en
  else .ok (s.plainWrite a v en)

/-- What a write does to a register of a LOOM, SELVEDGE or CREEL window; `i` numbers the block and `j` the
register in it. -/
def State.writeTile (s : State) (b i j a : Nat) (v en : Word) : Except Fault State :=
  if b = Reg.loomPuntBkt 0 0 then .ok (s.puntBktWrite i j v en)
  else if b = Reg.selvRetrain 0 then .ok (s.retrainWrite i v en)
  else if b = Reg.selvPortCfg 0 0 then s.portCfgWrite (64 * i + j) v en
  else if b = Reg.creelCmd 0 then .ok (s.creelCmdWrite i v en)
  else .ok (s.plainWrite a v en)

/-- R12: a write of `v`, in the bits of `en`, to the register word at `a`. R10: where the window holds no
register it is ignored. -/
def State.regWrite (s : State) (a : Nat) (v en : Word) : Except Fault State :=
  match regDesc? a with
  | none => .ok s
  | some d =>
    let i := (a - d.base) / d.s1
    let j := (a - d.base) % d.s1 / d.s2
    if a < 0x50000 then s.writeCore d.base i a v en
    else if a < 0x60000 then s.writeTime d.base i a v en
    else if a < 0x80000 then s.writeGlass d.base a v en
    else if a < 0x200000 then s.writeTile d.base i j a v en
    else if a < 0x210000 then s.writeWarp d.base i a v en
    else if a < 0x300000 then s.writeBeam d.base i a v en
    else s.writeTile d.base i j a v en

/-! ## Reads -/

/-- R101: BEAM_BATTEN_STAT. -/
def State.battenStat (s : State) : Nat :=
  s.bat.seq.toNat * 2 ^ 32 + s.bat.hostDone.toNat * 2 ^ 24 + s.bat.queue.length * 2 ^ 17 + b2n s.flipWait * 4 +
    b2n s.bat.cur.isSome * 2 + b2n s.hostPend

/-- R98: BEAM_DRAFT_STAT. -/
def State.draftStat (s : State) : Nat :=
  s.draftId s.activeBank * 2 ^ 32 + b2n (s.bat.draining == some true) * 4 + b2n s.bat.draining.isSome * 2 +
    b2n s.activeBank

/-- R369: CREEL_STAT. -/
def State.creelStat (s : State) (k : Nat) : Nat :=
  let up := fun (slot : Nat) => !s.stackLost k && (List.range 256).any fun c =>
    decide (s.chanState c < 2) && s.fld (chanReg c) Fld.creelChanSlotStack == k &&
      s.fld (chanReg c) Fld.creelChanSlot == slot
  let moving := (List.range 8).any fun j => match s.retiring j with
    | some r => r.slotStack == k
    | none => false
  Tbl.get (Tbl.const 0) s.creel.temp k % 256 * 2 ^ 56 + s.spares * 2 ^ 51 +
    ((List.range 30).filter up).length * 2 ^ 46 + b2n moving

/-- R369: CREEL_TREADLE. -/
def State.creelTreadle (s : State) : Nat :=
  s.slotLen * 2 ^ 59 + ((List.range s.slotLen).map fun i => if s.slotFlow i then 2 ^ i else 0).sum

/-- R254: TWILL_STAT. -/
def State.twillStat (s : State) : Nat :=
  match s.twOldest with
  | none => 1
  | some q => q.toNat * 2 ^ 32

/-- What a read of a register of HOSTIF, SPINDLE, TIME or DIGEST returns where it is not the stored value. -/
def State.readCore (s : State) (b i a : Nat) : Word × State :=
  let put := fun (f : Fld) (v : Nat) => (f.put (s.rd a) v, s)
  if b = Reg.spinPuntCtl then put Fld.spinPuntCtlFreeUnits s.freeUnits
  else if b = Reg.spinGroup 0 then put Fld.spinGroupRunUs (s.groupUsed i / 1000)
  else if b = Reg.spinQStat 0 then put Fld.spinQStatCount (s.squeue i).entries.length
  else if b = Reg.timeDomSec 0 then (s.secRead i, s)
  else if b = Reg.timeDomNs 0 then (s.nsRead i, s)
  else if b = Reg.timeTxqW0 0 then ((s.txqRead i).2, (s.txqRead i).1)
  else if b = Reg.timeTxqStat 0 then (s.txqStat i, s)
  else if b = Reg.timeTpiW0 0 then ((s.captureRead i).2, (s.captureRead i).1)
  else if b = Reg.timeTpiStat 0 then (s.tpiStat i, s)
  else (s.rd a, s)

/-- The same for WARP, REED, TWILL, BEAM and LEARN. -/
def State.readBeam (s : State) (b i a : Nat) : Word × State :=
  let put := fun (f : Fld) (v : Nat) => (f.put (s.rd a) v, s)
  let num := fun (n : Nat) => (BitVec.ofNat 64 n, s)
  if b = Reg.warpOvfStat then put Fld.warpOvfStatUsed s.ovfUsed
  else if b = Reg.warpOcc then num (s.placedCount % 2 ^ 28)
  else if b = Reg.reedPortStat 0 then put Fld.reedPortStatQueued (s.portQ i).length
  else if b = Reg.twillStat then num s.twillStat
  else if b = Reg.twillEng 0 then put Fld.twillEngQueued (s.engine i).length
  else if b = Reg.beamPoolStat then num s.poolStat
  else if b = Reg.beamRsvStat then num s.rsvStat
  else if b = Reg.beamDraftStat then num s.draftStat
  else if b = Reg.beamEpochCnt then num (s.epochCount true * 2 ^ 32 + s.epochCount false)
  else if b = Reg.beamBattenStat then num s.battenStat
  else if b = Reg.beamHstageStat then put Fld.beamHstageStatCount s.bat.hstage.length
  else if b = Reg.learnDefer then put Fld.learnDeferPending (s.learn.deferred.length + s.learn.pinDeferred.length)
  else if b = Reg.learnPort 0 then
    (Fld.learnPortAtLimit.put (Fld.learnPortCount.put (s.rd a) (s.learnCount i)) (b2n (s.atLimit i)), s)
  else (s.rd a, s)

/-- The same for LOOM, SELVEDGE and CREEL. -/
def State.readTile (s : State) (b i j a : Nat) : Word × State :=
  if b = Reg.loomPuntStat 0 0 then
    (Fld.loomPuntStatTokens.put (s.rd a) ((s.puntBucket i j).level / 1000000).toNat, s)
  else if b = Reg.selvPortStat 0 0 then (s.portStatRead (64 * i + j), s)
  else if b = Reg.creelStat 0 then (BitVec.ofNat 64 (s.creelStat i), s)
  else if b = Reg.creelTreadle 0 then (BitVec.ofNat 64 s.creelTreadle, s)
  else (s.rd a, s)

/-- A read of the register word at `a`, and what it changes; 0 where the window holds no register (R10). -/
def State.regRead (s : State) (a : Nat) : Word × State :=
  match regDesc? a with
  | none => (0, s)
  | some d =>
    let i := (a - d.base) / d.s1
    let j := (a - d.base) % d.s1 / d.s2
    if a < 0x70000 then s.readCore d.base i a
    else if a < 0x80000 then ((s.digestRead a).2, (s.digestRead a).1)
    else if a < 0x200000 then s.readTile d.base i j a
    else if a < 0x300000 then s.readBeam d.base i a
    else s.readTile d.base i j a

/-- R11: a register read of `n` bytes; one of 32 bits acts on its half only, so it latches no digest (R497).
A read of either half of TIME_TXQ_d_W0 or TIME_TPI_i_W0 removes the entry (DESIGN CHOICE, log entry 113). -/
def State.regAccess (s : State) (a n : Nat) : List Byte × State :=
  let w := a / 8 * 8
  let r := if n = 4 ∧ 0x70000 ≤ w ∧ w < 0x80000 then (match s.digestAt w with
      | some d => (digHi d.1, s)
      | none => s.regRead w)
    else s.regRead w
  (slice (toLE 8 r.1.toNat) (a % 8) n, r.2)

end Sys2Proof.Machine
end

