-- ==== Sys2Proof/WellFormed.lean ====
section
/-! DEFINITION. Which terms are commands: the checks on operands that the types do not carry. -/

namespace Sys2Proof

/-- No member of the list stands in it twice. -/
def noRepeat {α : Type} [DecidableEq α] : List α → Bool
  | [] => true
  | x :: xs => !xs.contains x && noRepeat xs

/-- R11: bytes of a register access. -/
def RegWidth.size : RegWidth → Nat
  | .w8 => 1
  | .w16 => 2
  | .w32 => 4
  | .w64 => 8

/-- R489: a word at a DAS address is aligned. -/
def storeWordOk : StoreWord → Bool
  | .das a => a.toNat % 8 == 0
  | _ => true

/-- The command is well formed: a value fits the width it is written in; lists
name what they name once, and only what their event can meet (R11, R19, R349, R455, R475, R489, R527). -/
def Instr.wf : Instr → Bool
  | .powerOn => true
  | .powerOff => true
  | .resetAssert => true
  | .resetRelease => true
  | .bootInitDone _ => true
  | .bootLinksDone => true
  | .bootHbmDone failed => noRepeat failed
  | .imageCheck _ => true
  | .bootCopy => true
  | .bootWait => true
  | .bootWaitTimeout => true
  | .bootPatch => true
  | .bootTask => true
  | .bootEnd => true
  | .bootBadRecord => true
  | .hostImageBoot _ => true
  | .pcieLinkTrain => true
  | .perstAssert => true
  | .pcieLinkLoss => true
  | .pcieLinkReturn => true
  | .registerWrite _ _ wd v => decide (v.toNat < 256 ^ wd.size)
  | .nop _ _ => true
  | .illegalOp _ => true
  | .ld _ _ => true
  | .st _ _ => true
  | .sts _ _ => true
  | .batten _ _ => true
  | .ldW _ _ => true
  | .stW _ _ => true
  | .ldT _ _ => true
  | .br _ _ => true
  | .brp _ _ => true
  | .loop _ _ => true
  | .add _ _ => true
  | .addImm _ _ => true
  | .sub _ _ => true
  | .subImm _ _ => true
  | .and _ _ => true
  | .andImm _ _ => true
  | .or _ _ => true
  | .orImm _ _ => true
  | .xor _ _ => true
  | .xorImm _ _ => true
  | .shl _ _ => true
  | .shlImm _ _ => true
  | .shr _ _ => true
  | .shrImm _ _ => true
  | .sar _ _ => true
  | .sarImm _ _ => true
  | .min _ _ => true
  | .minImm _ _ => true
  | .max _ _ => true
  | .maxImm _ _ => true
  | .cmp _ _ => true
  | .cmpImm _ _ => true
  | .mul _ _ => true
  | .mulImm _ _ => true
  | .mulh _ _ => true
  | .movi _ _ => true
  | .ext _ _ => true
  | .ins _ _ => true
  | .sel _ _ => true
  | .hash _ _ => true
  | .flook _ _ => true
  | .flowHeadFill _ _ => true
  | .fcreate _ _ => true
  | .fupd _ _ => true
  | .ffold _ _ => true
  | .fdelidle _ _ => true
  | .victimRelease _ _ => true
  | .rsearch _ _ => true
  | .rnext _ _ => true
  | .tscan _ _ => true
  | .fwd _ _ => true
  | .mcast _ _ => true
  | .drop _ _ => true
  | .punt _ _ => true
  | .recirc _ _ => true
  | .tstamp _ _ => true
  | .cnt _ _ => true
  | .lock _ _ => true
  | .unlock _ _ => true
  | .waitev _ _ => true
  | .waitevTimeout _ => true
  | .signal _ _ => true
  | .yield _ _ => true
  | .qput _ _ => true
  | .qget _ _ => true
  | .dma _ _ => true
  | .dmaComplete _ _ => true
  | .frameReceive _ f => decide (f.length ≠ 0)
  | .fcsError _ => true
  | .pfcPauseExpire _ _ => true
  | .heddleParse _ => true
  | .pickStart _ => true
  | .pickBudgetExceeded _ => true
  | .recircReturn _ => true
  | .beamAdmit _ => true
  | .residueAdmit _ => true
  | .egressCall _ => true
  | .grantPeriod => true
  | .transmitFrame _ _ => true
  | .transmitComplete _ => true
  | .pfcFrameSend _ => true
  | .pfcRefresh _ => true
  | .queueFlush _ => true
  | .queueFlushDone => true
  | .hostStageAppend _ => true
  | .hostBatten _ => true
  | .battenSlotOpen => true
  | .battenApply => true
  | .bankRetire => true
  | .cacheSweep _ => true
  | .tableSweep _ => true
  | .rehashStart _ => true
  | .migrateBucket => true
  | .rehashRetry => true
  | .migrateOverflow _ => true
  | .warpInitTbl0 => true
  | .warpInitTbl1 => true
  | .warpInitOvf => true
  | .warpInitDone => true
  | .warpDisable _ => true
  | .warpDisableDone => true
  | .cacheFlush _ => true
  | .cacheFlushDone => true
  | .coherentRead _ => true
  | .coherentReadDone => true
  | .reedBankPowerUp _ _ => true
  | .reedPowerAck _ bad => noRepeat bad
  | .reedSearch _ m => noRepeat m.falseHits && noRepeat m.missed && m.falseHits.all fun i => !m.missed.contains i
  | .reedScrub _ _ => true
  | .reedBankSlot _ => true
  | .twillScan _ => true
  | .learnEvent => true
  | .pinRelease _ => true
  | .ageCmd _ => true
  | .compareStart _ => true
  | .compareDone => true
  | .indexBuild _ _ => true
  | .indexBuildDone _ => true
  | .portConfigWrite _ _ => true
  | .linkUp _ => true
  | .linkTrainFail _ _ => true
  | .trainRetry _ => true
  | .retrain _ _ => true
  | .linkDown _ => true
  | .lpiEnter _ => true
  | .lpiWakeDone _ => true
  | .refclkLoss _ => true
  | .wireFail l _ lanes chans => noRepeat lanes && noRepeat chans && 
    (if l.val < 8 then chans.isEmpty && lanes.all (fun p => p.val / 64 == l.val)
      else lanes.isEmpty && chans.all fun c => c.stack.val + 8 == l.val)
  | .treadleSlot _ _ => true
  | .refreshDue _ _ => true
  | .refreshDeadline _ _ => true
  | .channelRest _ => true
  | .restExit _ => true
  | .parityAlert _ => true
  | .retrainSearchStart _ => true
  | .retrainSearchDone _ _ => true
  | .spareTrained _ _ => true
  | .retireCopyGranule _ errs => decide (errs.length ≤ 4)
  | .creelSearchCmd _ _ => true
  | .creelRetireCmd _ _ => true
  | .creelReleaseCmd _ _ => true
  | .patrolScrub _ _ => true
  | .stackLoss _ => true
  | .domainEnable _ _ => true
  | .domainSet _ _ => true
  | .domainStep _ _ => true
  | .freqAdjWrite _ _ => true
  | .timeSnap _ => true
  | .txqRead _ => true
  | .pulseArm _ _ => true
  | .pulseEdge _ => true
  | .pulseWidthEnd _ => true
  | .captureEdge _ _ => true
  | .captureRead _ => true
  | .captureLos _ => true
  | .holdoverTick => true
  | .refDisqualify _ => true
  | .refRequalify _ => true
  | .dpllLock => true
  | .senseConvert _ _ => true
  | .learnerSecond => true
  | .learnerSample => true
  | .learnerReset _ => true
  | .taskCreate _ => true
  | .taskStart _ => true
  | .taskCancel _ => true
  | .taskDelete _ => true
  | .taskSignal _ _ => true
  | .schedRound => true
  | .sliceExpire _ => true
  | .taskRelease _ => true
  | .deadlineMiss _ => true
  | .puntTake _ => true
  | .injectTake => true
  | .injectReleaseHeld _ => true
  | .releaseTimeout _ => true
  | .cmdNop => true
  | .cmdCopy => true
  | .cmdTask => true
  | .cmdQput => true
  | .cmdInject => true
  | .cmdPatch => true
  | .cmdBad => true
  | .patchSwitchDone => true
  | .eventBacklogDrain _ => true
  | .msiModeration _ => true
  | .msiSend _ => true
  | .jacqFloorWrite _ => true
  | .spindleRestart _ => true
  | .spindleRestartDone => true
  | .rateWindow r => r.rates.length == 16
  | .avsStart _ => true
  | .avsRead _ _ _ => true
  | .avsRetry _ => true
  | .tjSample _ _ => true
  | .loomGate _ _ => true
  | .loomGated _ => true
  | .loomActive _ => true
  | .glassSnapshot _ => true
  | .glassSnapshotDone => true
  | .counterWrite a _ => decide (0x60000000 ≤ a.toNat) && decide (a.toNat < 0x61000000) && a.toNat % 8 == 0
  | .sampleTake _ => true
  | .bwWindowEnd => true
  | .bwClearPeak => true
  | .storePatrol w _ => storeWordOk w
  | .digestSnapshot _ => true
  | .digestHiRead a => a.toNat % 8 == 0
  | .digestScan _ => true
  | .digestScanDone unread => noRepeat unread
  | .smbReadIdent => true
  | .smbReadTj => true
  | .smbReadHbmTemp => true
  | .smbReadBootStat => true
  | .smbReadThermal => true
  | .smbNack _ => true
  | .alignmentLockLoss _ => true
  | .alignmentLockGain _ => true
  | .partnerLpiSignal _ _ => true
  | .refclkReturn _ => true
  | .clockInterruption => true

end Sys2Proof
end

