-- ==== Sys2Proof/Machine/Access.lean ====
section
/-! DEFINITION. Accesses to the device address space: what each on-die store reads as and takes, the plain
stores the spec leaves undefined, and reads and writes by the host, by threads and by the device (R8 to R11,
R66, R67, R118, R192, R221, R242, R256, R306, R410, R470). -/

namespace Sys2Proof.Machine

/-! ## Reads of the on-die stores -/

/-- R415: the STATE code of a task. -/
def TaskState.code : TaskState → Nat
  | .free => 0
  | .stopped => 1
  | .dormant => 2
  | .ready => 3
  | .running => 4
  | .blocked => 5

/-- R415: the WAIT code of a task. -/
def TaskWait.code : TaskWait → Nat
  | .none => 0
  | .lock _ => 1
  | .event .. => 2
  | .qput .. => 3
  | .qget .. => 4
  | .dma => 5
  | .batten => 0

/-- R415: word `i` of the entry of task `k`. -/
def State.taskEntry (s : State) (k i : Nat) : Nat :=
  let t := s.task k
  match i with
  | 3 => t.st.code * 2 ^ 61 + t.wait.code * 2 ^ 58 + t.locks.length % 16 * 2 ^ 54 + t.pc % 2 ^ 18 * 2 ^ 36 + t.flags.toNat
  | 4 => t.acts % 2 ^ 32 * 2 ^ 32 + t.misses % 65536 * 65536 + t.skipped % 65536
  | 5 => t.lag % 2 ^ 64
  | n => if n < 3 then (s.taskWord k n).toNat else 0

/-- R256, R259: a word of the pattern image as the broadcast window reads it. -/
def State.masterWord (s : State) (o : Nat) : Nat :=
  if (s.masterLost (0x20000000 + o)).isSome then s.masterLe (0x20000000 + o)
  else if o < 0x200000 ∧ o % 16 = 8 then s.macMaster1 (o / 16)
  else s.le (0x20000000 + o) 8

/-- R256, R259: a word of the replica of loom `n`. -/
def State.replicaWord (s : State) (n o : Nat) : Nat :=
  if o < 0x200000 ∧ o % 16 = 8 then s.macReplica1 n (o / 16) else s.le (0x20000000 + o) 8

/-- The aligned word of an on-die store at `a`. A loom's copy reads as the broadcast copy does. -/
def State.dieWord (s : State) (a : Nat) : Nat :=
  if 0x10020000 ≤ a ∧ a < 0x10220000 then s.le (0x10000000 + (a - 0x10020000) % 0x20000) 8
  else if 0x10400000 ≤ a ∧ a < 0x10600000 then s.le (0x10300000 + (a - 0x10400000) % 0x20000) 8
  else if 0x10800000 ≤ a ∧ a < 0x11000000 then s.le (0x10600000 + (a - 0x10800000) % 0x80000) 8
  else if 0x20000000 ≤ a ∧ a < 0x21000000 then s.masterWord (a - 0x20000000)
  else if 0x21000000 ≤ a ∧ a < 0x31000000 then
    s.replicaWord ((a - 0x21000000) / 0x1000000) ((a - 0x21000000) % 0x1000000)
  else if 0x31830000 ≤ a ∧ a < 0x31840000 ∧ a % 16 = 8 then s.acctStat ((a - 0x31830000) / 16)
  else if 0x31840000 ≤ a ∧ a < 0x31854000 then s.queueStat ((a - 0x31840000) / 8)
  else if 0x44000000 ≤ a ∧ a < 0x44040000 then s.taskEntry ((a - 0x44000000) / 64) (a % 64 / 8)
  else if 0x44400000 ≤ a ∧ a < 0x44500000 then
    let t := s.task ((a - 0x44400000) / 256)
    if t.st = .stopped then (vget t.g (a % 256 / 8) 0).toNat else 0
  else if 0x60000000 ≤ a ∧ a < 0x61000000 then (s.liveWord (a - 0x60000000)).toNat
  else if 0x61000000 ≤ a ∧ a < 0x62000000 then (s.snapWord (a - 0x61000000)).toNat
  else s.le a 8

/-- `n` bytes of an on-die store from `a`. -/
def State.dieBytes (s : State) (a n : Nat) : List Byte :=
  let first := a / 8 * 8
  let ws := (List.range ((a + n + 7) / 8 - a / 8)).map fun i => toLE 8 (s.dieWord (first + 8 * i))
  (ws.flatten.drop (a - first)).take n

/-! ## Entries that plain stores may not change -/

/-- R94, R124, R192, R199, R258: picks may read the tables: a port is up, or a packet is in the device. Before that
nothing reaches a draft bank, a parse table, a template, a MAC entry or a service table, and plain stores write them
(R513; DEDUCED, log entry 28). -/
def State.datapath (s : State) : Bool :=
  !s.pkts.isEmpty || (List.range 512).any fun p => s.portUp p

/-- Every stage list the device holds. -/
def State.stageLists (s : State) : List StageEntry :=
  s.bat.hstage ++ (s.bat.queue.flatMap fun b => b.list) ++ (s.bat.cur.toList.flatMap fun b => b.list) ++
    s.spin.task.flatMap fun e => e.2.stage

/-- Bit `bit` of the byte at `a` is 1 in a copy that some pick can read: in effect, or as the overlay keeps it for picks
older than its batten. -/
def State.bitLive (s : State) (a bit : Nat) : Bool :=
  (s.byte a).getLsbD bit || (s.bat.cur.isSome && (match Tbl.get (Tbl.const none) s.bat.oldMem a with
    | some b => b.getLsbD bit
    | none => false))

/-- The same, or 1 as staged. -/
def State.bitOrStaged (s : State) (a bit : Nat) : Bool :=
  s.bitLive a bit || s.stageLists.any fun e =>
    decide (e.addr ≤ a) && decide (a < e.addr + widthOf e.w) && (e.bytes.getD (a - e.addr) 0).getLsbD bit

/-- R233: a register as each stage that the device holds would leave it: the pending WS stages, and every entry of a
stage list. -/
def State.stagedRegs (s : State) (a : Nat) : List Word :=
  mergeMask (s.pendingWs a).1 (s.pendingWs a).2 (s.rd a) :: s.stageLists.filterMap fun e =>
    let lane := regLane e.addr (widthOf e.w) e.data.toNat
    if lane.1 = a then some (mergeMask lane.2.2 lane.2.1 (s.rd a)) else none

/-- R233: a register as the overlay keeps it for older picks. -/
def State.olderReg (s : State) (a : Nat) : Word :=
  if s.bat.cur.isSome then (Tbl.get (Tbl.const none) s.bat.oldReg a).getD (s.rd a) else s.rd a

/-- R233: a register holds a value with a property: in effect, for older picks, or as staged. -/
def State.regHas (s : State) (a : Nat) (p : Word → Bool) : Bool := (s.rd a :: s.olderReg a :: s.stagedRegs a).any p

/-- R233: entry `i` is reachable: VALID and in a bank, or a pair whose even bank, that a valid profile names; each in
effect, for older picks, or as staged. -/
def State.reedReachable (s : State) (i : Nat) : Bool :=
  let b := i / 4096
  let named (p b : Nat) : Bool :=
    s.regHas (Reg.reedSprofCtl p) (fun w => Fld.reedSprofCtlValid.get w == 1) &&
      (if b < 64 then s.regHas (Reg.reedSprofMaskLo p) (fun w => w.getLsbD b)
        else s.regHas (Reg.reedSprofMaskHi p) (fun w => w.getLsbD (b - 64)))
  let evens := sortUniq (b :: if b % 2 = 1 ∧ s.regHas (Reg.reedBank (b - 1)) (fun w => Fld.reedBankWidth.get w == 2)
    then [b - 1] else [])
  evens.any fun even => s.bitOrStaged (reedRow (i % 4096 + 4096 * even) + 95) 7 && (List.range 64).any fun p => named p even

/-- The members of a set of numbers and of all that can be reached from it by `next`. -/
def closure (next : Nat → List Nat) : Nat → List Nat → List Nat
  | 0, l => l
  | n + 1, l =>
    let m := sortUniq (l ++ l.flatMap next)
    if m.length = l.length then m else closure next n m

/-- R124: the steps a start entry or a valid transition can reach. -/
def State.parseSteps (s : State) : List Nat :=
  let tr := (List.range 2048).map fun i => s.le (0x10308000 + 16 * i) 8
  let next := fun st => (tr.filter fun w => bitsOf w 63 63 == 1 && bitsOf w 62 54 == st).map fun w => bitsOf w 53 45
  closure next 512 (sortUniq ((List.range 16).map fun c => bitsOf (s.le (0x10302800 + 8 * c) 8) 8 0))

/-- R118: the offset of a parse image lies in one of its tables. -/
def inParseTables (o : Nat) : Bool :=
  decide (o < 0x2880) || (decide (0x8000 ≤ o) && decide (o < 0x18000))

/-- R124: the entry at an offset of the parse image is reachable. -/
def State.parseReachable (s : State) (o : Nat) : Bool :=
  if o < 0x2000 then s.parseSteps.contains (o / 16)
  else if o < 0x2880 then true
  else if o < 0x10000 then s.parseSteps.contains (bitsOf (s.le (0x10300000 + o / 16 * 16) 8) 62 54)
  else
    let i := (o - 0x10000) / 8
    s.parseSteps.any fun st =>
      let w := s.le (0x10300000 + 16 * st) 8
      decide (bitsOf w 47 36 ≤ i) && decide (i < bitsOf w 47 36 + min 16 (bitsOf w 35 31))

/-- R245: a queued scan may have begun under a batten sequence number before `q`. -/
def State.twSince (s : State) (q : BitVec 32) : Bool :=
  match s.twOldest with
  | none => false
  | some o => q != o && decide ((q - o).toNat < 2 ^ 31)

/-- R245: what the word at an address of the automata store holds, and has held since the oldest queued scan began. -/
def State.twHeld (s : State) (a now : Nat) : List Nat :=
  now :: (s.twill.oldImage.filter fun e => e.1 == a && s.twSince e.2.2).map (·.2.1)

/-- R242, R245: the edges of state `n`. -/
def State.twEdgesOf (s : State) (n : Nat) : List Nat :=
  (s.twHeld (0x15000000 + 16 * n) (s.twState n)).flatMap fun w => (List.range (edgeCnt w)).map (bitsOf w 45 22 + ·)

/-- R242, R245: the states that follow state `n`. -/
def State.twNext (s : State) (n : Nat) : List Nat :=
  (s.twHeld (0x15000000 + 16 * n) (s.twState n)).map (bitsOf · 21 0) ++
    (s.twEdgesOf n).flatMap fun e => (s.twHeld (0x19000000 + 4 * e) (s.twEdge e)).map (bitsOf · 21 0)

/-- R245: the STARTs of valid sets; while a scan is queued, every START since the oldest began, and those the queued scans
use. -/
def State.twStarts (s : State) : List Nat :=
  let now (k : Nat) : Nat := s.fld (Reg.twillSet k) Fld.twillSetStart
  if s.twOldest.isNone then ((List.range 16).filter fun k => s.flag (Reg.twillSet k) Fld.twillSetValid).map now
  else (List.range 16).map now ++ ((s.twill.oldStarts.filter fun e => s.twSince e.2).map (·.1)) ++
    (List.range 4).flatMap fun e => (s.engine e).map fun q => q.start

/-- R245: the live states; each round of the closure adds one at least. -/
def State.twLive (s : State) : List Nat :=
  closure s.twNext (s.mem.length + s.twill.oldImage.length + 64) (sortUniq s.twStarts)

/-- R245: the state or edge at `a` is live. -/
def State.twillLive (s : State) (a : Nat) : Bool :=
  if a < 0x19000000 then s.twLive.contains ((a - 0x15000000) / 16)
  else s.twLive.any fun n => (s.twEdgesOf n).contains ((a - 0x19000000) / 4)

/-- R258: the entry at an offset of the pattern image is reachable. -/
def State.patternReachable (s : State) (o : Nat) : Bool :=
  if o < 0x200000 then true
  else if o < 0x600000 then s.bitOrStaged (0x20000000 + o / 16 * 16 + 7) 7
  else if o < 0xA00000 then s.bitOrStaged (0x20000000 + o / 32 * 32 + 19) 7
  else if o < 0xB00000 then s.bitOrStaged (0x20000000 + o / 16 * 16 + 1) 7
  else false

/-- R411: the word is in the program of task `k`. -/
def State.inProgramOf (s : State) (k w : Nat) : Bool :=
  let t := (s.taskWord k 0).toNat
  decide (bitsOf t 63 46 ≤ w) && decide (w < bitsOf t 63 46 + bitsOf t 45 28)

/-- R66: a store by a thread, or by a DMA it has issued (DEDUCED, log entry 131), to word `w` of its own program, or of one
that may run. -/
def State.programBad (s : State) (who : EvMaster) (w : Nat) : Bool :=
  match who with
  | .task k => s.inProgramOf k w || s.spin.task.any fun e =>
      e.2.st != .free && e.2.st != .stopped && s.inProgramOf e.1 w
  | _ => false

/-- R94: the bank is in effect or draining. -/
def State.bankInUse (s : State) (b : Bool) : Bool := s.activeBank == b || s.bat.draining == some b

/-- Why a plain store to an on-die store at `a` is undefined behaviour. -/
def State.dieBad (s : State) (who : EvMaster) (a : Nat) : Option Nat :=
  let when := fun (c : Bool) (n : Nat) => if s.datapath && c then some n else none
  if 0x10000000 ≤ a ∧ a < 0x10020000 then when (s.bankInUse (decide (0x10010000 ≤ a))) 10
  else if 0x10300000 ≤ a ∧ a < 0x10320000 then
    when (inParseTables (a - 0x10300000) && s.parseReachable (a - 0x10300000)) 11
  else if 0x10600000 ≤ a ∧ a < 0x10680000 then when true 16
  else if 0x11000000 ≤ a ∧ a < 0x15000000 then if s.reedReachable ((a - 0x11000000) / 128) then some 21 else none
  else if 0x15000000 ≤ a ∧ a < 0x1D000000 then if s.twillLive a then some 23 else none
  else if 0x20000000 ≤ a ∧ a < 0x21000000 then when (s.patternReachable (a - 0x20000000)) 24
  else if 0x31000000 ≤ a ∧ a < 0x31800000 then
    if s.bitOrStaged (a / 128 * 128 + 71) 7 then some 30 else none
  else if 0x40000000 ≤ a ∧ a < 0x40200000 then
    if s.programBad who ((a - 0x40000000) / 8) then some 4 else none
  else if 0x44000000 ≤ a ∧ a < 0x44040000 ∧ a % 64 < 24 then
    let st := (s.task ((a - 0x44000000) / 64)).st
    if st = .free ∨ st = .stopped then none else some 37
  else none

/-- Why a plain store of byte `b` to HBM at `a` is undefined behaviour: R165, R199, R258. The key and result of an entry
of a service table may be written while it is valid in no copy, its VALID may not be changed so, and the rest of CTL is
free (R198). -/
def State.hbmBad (s : State) (a : Nat) (b : Byte) : Option Nat :=
  let within := fun (base n : Nat) => decide (base ≤ a) && decide (a < base + n)
  let recs := fun (first n : Nat) => within (s.headAddr first) (128 * n)
  let valid := fun (nb : Nat) => s.flag nb Fld.warpStbl6NbValid
  let stbl := fun (nb base : Nat) => valid nb && within base (64 * s.fld nb Fld.warpStbl6NbNb) &&
    (let v := s.liveAt (base + (a - base) / 32 * 32 + 31)
     if (a - base) % 32 < 24 then s.bitLive v 7
     else (a - base) % 32 == 31 && b.getLsbD 7 != (s.byte v).getLsbD 7)
  let lpmx := fun (t k o : Nat) =>
    let base := s.fld (Reg.learnLpmxBase t) Fld.learnLpmxBaseBase
    within base (k * s.fld (Reg.learnLpmxCnt t) Fld.learnLpmxCntCount) && s.bitOrStaged (base + (a - base) / k * k + o) 7
  if s.warpOn && (recs (s.firstRec 0) (8 * s.nbOf 0) || recs (s.firstRec 1) (8 * s.nbOf 1) ||
      recs s.ovfFirst s.ovfCount) then some 13
  else if s.datapath && (stbl Reg.warpStbl6Nb (s.fld Reg.warpStbl6Base Fld.warpStbl6BaseBase) ||
      stbl Reg.warpStbl6Nb (s.fld Reg.warpStbl6Mirror Fld.warpStbl6MirrorMirror) ||
      stbl Reg.warpStbl7Nb (s.fld Reg.warpStbl7Base Fld.warpStbl7BaseBase)) then some 9
  else if s.datapath && (lpmx 0 16 7 || lpmx 1 32 19) then some 24
  else none

/-! ## Writes of the on-die stores -/

/-- The byte of an on-die store at `a` takes writes. Loom copies, queue status, account status, patch words,
words 3 to 7 of task entries, parse gaps and Reed bytes 96 to 127 do not. -/
def dieTakes (a : Nat) : Bool :=
  if a < 0x10300000 then decide (a < 0x10020000)
  else if a < 0x10320000 then inParseTables (a - 0x10300000)
  else if a < 0x11000000 then decide (0x10600000 ≤ a) && decide (a < 0x10680000)
  else if a < 0x15000000 then decide (a % 128 < 96)
  else if a < 0x20000000 then true
  else if a < 0x31000000 then decide (a < 0x20B00000)
  else if a < 0x31830000 then true
  else if a < 0x31840000 then decide (a % 16 < 8)
  else if a < 0x40000000 then false
  else if a < 0x44000000 then true
  else if a < 0x44040000 then decide (a % 64 < 24)
  else false

/-- R14: the bits of a byte of a store that writes reach. Of a MAC entry: VALID, VID and ADDR of word 0, and PINNED,
STATIC, MC and DEST of word 1 (R259); reserved bits of LPM and next-hop entries and of Reed rows stay 0 (R221, R261,
R262). Reserved fields that their table gives the access RW are stored (DESIGN CHOICE, log entry 116). -/
def dieMask (a : Nat) : Byte :=
  if 0x20000000 ≤ a ∧ a < 0x20200000 then
    match a % 16 with
    | 7 => 0x8F
    | 10 => 0x07
    | n => if n < 10 then 0xFF else 0
  else if 0x20200000 ≤ a ∧ a < 0x20600000 then if a % 16 = 7 then 0x80 else 0xFF
  else if 0x20600000 ≤ a ∧ a < 0x20A00000 then
    if a % 32 = 19 then 0x80 else if 20 ≤ a % 32 ∧ a % 32 < 24 then 0 else 0xFF
  else if 0x20A00000 ≤ a ∧ a < 0x20B00000 then if 14 ≤ a % 16 then 0 else 0xFF
  else if 0x11000000 ≤ a ∧ a < 0x15000000 then
    if a % 128 = 95 then 0x80 else if 86 ≤ a % 128 ∧ a % 128 ≠ 95 ∧ a % 128 < 96 then 0 else 0xFF
  else 0xFF

/-- Writes one byte of a store. -/
def State.dieByte (s : State) (a : Nat) (b : Byte) : State :=
  if dieTakes a then s.setByte a ((b &&& dieMask a) ||| (s.byte a &&& ~~~ dieMask a)) else s

/-- Writes bytes of a store. -/
def State.dieSet (s : State) (a : Nat) : List Byte → State
  | [] => s
  | b :: bs => State.dieSet (s.dieByte a b) (a + 1) bs

/-- R410: a byte of a register image; writes reach a STOPPED task only. -/
def State.imageByte (s : State) (a : Nat) (b : Byte) : State :=
  s.updTask ((a - 0x44400000) / 256) fun t =>
    if t.st = .stopped then
      { t with g := vupd (fun w => BitVec.ofNat 64 (ofLE (patch (toLE 8 w.toNat) (a % 8) [b]))) (a % 256 / 8) t.g }
    else t

/-- Bytes of register images. -/
def State.imageSet (s : State) (a : Nat) : List Byte → State
  | [] => s
  | b :: bs => State.imageSet (s.imageByte a b) (a + 1) bs

/-- The 16-byte entries that `n` bytes from `a` touch. -/
def entriesOf (a n : Nat) : List Nat := (List.range ((a + n - 1) / 16 + 1 - a / 16)).map (a / 16 + ·)

/-- What blocks do when bytes of their stores are written; RATE of a queue is its bytes 14 and 15 (R307). -/
def State.dieWritten (s : State) (a n : Nat) : State :=
  if 0x11000000 ≤ a ∧ a < 0x15000000 then s.reedWritten ((a - 0x11000000) / 128)
  else if 0x20000000 ≤ a ∧ a < 0x21000000 then
    let s := s.mendLost a n
    if a < 0x20200000 then (entriesOf a n).foldl (fun (s : State) e => s.macWritten (e - 0x2000000)) s else s
  else if 0x31800000 ≤ a ∧ a < 0x31828000 then
    ((entriesOf a n).filter fun e => a < 16 * e + 16 && 16 * e + 14 < a + n).foldl
      (fun (s : State) e => s.queueCfgWritten (e - 0x3180000)) s
  else s

/-- Writes bytes to an on-die store; R475: the live image takes aligned words only. -/
def State.dieWrite (s : State) (a : Nat) (bs : List Byte) : State :=
  if 0x60000000 ≤ a then
    if bs.length = 8 ∧ a % 8 = 0 ∧ a < 0x61000000 then s.counterWrite (a - 0x60000000) (BitVec.ofNat 64 (ofLE bs)) else s
  else if 0x44400000 ≤ a ∧ a < 0x44500000 then s.imageSet a bs
  else (s.dieSet a bs).dieWritten a bs.length

/-! ## Accesses (R10, R11, R51, R86, R364, R491) -/

/-- What a read returns. -/
structure ReadRes where
  bytes : List Byte
  /-- R364: a line read was uncorrectable. -/
  unc : Bool
  st : State

/-- R364, R366, R493: a read of HBM within one line, for a master. A table 6 primary of a lost stack is read from its
mirror; one found uncorrectable freezes its channel, and its retirement begins. -/
def State.hbmRead (s : State) (who : EvMaster) (a n : Nat) : ReadRes :=
  let b := s.readFrom a
  let s := s.hbmTraffic false true who b n
  if s.hbmUnc b then ⟨List.replicate n 0, true, (s.uncRead b).startWaiting⟩ else ⟨s.bytes b n, false, s⟩

/-- A read that lies in one 64-byte block. -/
def State.readPiece (s : State) (who : EvMaster) (a n : Nat) : Except Fault ReadRes :=
  match regionOf a with
  | .reg => if regAccessOk a n then .ok ⟨(s.regAccess a n).1, false, (s.regAccess a n).2⟩ else .error (.undefinedBehaviour 3)
  | .die => if s.inFreed a n then .error (.undefinedBehaviour 39) else .ok ⟨s.dieBytes a n, false, s⟩
  | .hbm => .ok (s.hbmRead who a n)
  | .host => .ok ⟨s.peek a n, false, s⟩
  | .none => .error (.undefinedBehaviour 2)

/-- R51: a read of at most 64 bytes; one that crosses a 64-byte boundary is two accesses, and none that R11 allows
to a register. -/
def State.busRead (s : State) (who : EvMaster) (a n : Nat) : Except Fault ReadRes :=
  let k := 64 - a % 64
  if n ≤ k then s.readPiece who a n
  else if regionOf a = .reg then .error (.undefinedBehaviour 3)
  else match s.readPiece who a k with
    | .error e => .error e
    | .ok x => match x.st.readPiece who (a + k) (n - k) with
      | .error e => .error e
      | .ok y => .ok ⟨x.bytes ++ y.bytes, x.unc || y.unc, y.st⟩

/-- R86: the overlay holds a byte, or the register word, of an access. -/
def State.inOverlay (s : State) (a n : Nat) : Bool :=
  s.memInOverlay a n || (regionOf a == .reg && s.regInOverlay (a / 8 * 8))

/-- R66: the bytes lie in the descriptor of a copy that has not completed. -/
def State.inDescriptor (s : State) (a n : Nat) : Bool :=
  s.spin.dma.any fun e => e.2.any fun r => decide (a < r.desc + 32) && decide (r.desc < a + n)

/-- The first reason among `n` values. -/
def firstBad (f : Nat → Option Nat) (n : Nat) : Option Nat := (List.range n).findSome? f

/-- R66: words of a program that a thread stores to. -/
def State.noteStored (s : State) (who : EvMaster) (a n : Nat) : State :=
  match who with
  | .task _ =>
    if 0x40000000 ≤ a ∧ a < 0x40200000 then
      { s with spin := { s.spin with stored := s.spin.stored ++
          (List.range ((a + n + 7) / 8 - a / 8)).map fun i => ((a - 0x40000000) / 8 + i, s.bat.seq) } }
    else s
  | _ => s

/-- A plain store that lies in one 64-byte block. -/
def State.writePiece (s : State) (who : EvMaster) (a : Nat) (bs : List Byte) : Except Fault State :=
  let n := bs.length
  if s.inOverlay a n then .error (.undefinedBehaviour 8)
  else if s.inDescriptor a n then .error (.undefinedBehaviour 6)
  else match regionOf a with
  | .reg =>
    if regAccessOk a n then
      let l := regLane a n (ofLE bs)
      s.regWrite l.1 l.2.1 l.2.2
    else .error (.undefinedBehaviour 3)
  | .die =>
    match firstBad (fun i => s.dieBad who (a + i)) n with
    | some u => .error (.undefinedBehaviour u)
    | none => .ok ((s.noteStored who a n).dieWrite a bs)
  | .hbm =>
    match firstBad (fun i => s.hbmBad (a + i) (bs.getD i 0)) n with
    | some u => .error (.undefinedBehaviour u)
    | none => .ok (s.hbmStore who a bs)
  | .host => .ok (s.poke a bs)
  | .none => .error (.undefinedBehaviour 2)

/-- R51: a plain store of at most 64 bytes; one that crosses a 64-byte boundary is two accesses, and none that R11
allows to a register. -/
def State.busWrite (s : State) (who : EvMaster) (a : Nat) (bs : List Byte) : Except Fault State :=
  let k := 64 - a % 64
  if bs.length ≤ k then s.writePiece who a bs
  else if regionOf a = .reg then .error (.undefinedBehaviour 3)
  else match s.writePiece who a (bs.take k) with
    | .error e => .error e
    | .ok t => t.writePiece who (a + k) (bs.drop k)

/-- R478: event 7, an access to a register or an on-die table by a thread or the host. -/
def State.countAccess (s : State) (who : EvMaster) (a : Nat) : State :=
  match regionOf a with
  | .reg | .die =>
    let priv := match who with
      | .host => 2
      | _ => 1
    s.event { kind := 7, weight := 1, priv := priv, master := who, addr := some a, cls := none }
  | _ => s

/-- R13, R478: a write by the host or a thread, with the access itself counted. A bit of GLASS_EVT_OVF that the count
sets stays set where the write clears it in the same cycle. -/
def State.countedWrite (s : State) (who : EvMaster) (a : Nat) (bs : List Byte) : Except Fault State :=
  let set := ((s.wr Reg.glassEvtOvf 0).countAccess who a).rd Reg.glassEvtOvf
  match (s.countAccess who a).busWrite who a bs with
  | .error e => .error e
  | .ok t => .ok (if set = 0 then t else t.wr Reg.glassEvtOvf (t.rd Reg.glassEvtOvf ||| set))

/-! ## The host (R434, R435, R491, R510) -/

/-- R435: an address lies in BAR0 or in the aperture of BAR2. -/
def State.inBars (s : State) (a : Nat) : Bool :=
  decide (a < 0x2000000) || a / 2 ^ 32 == s.fld Reg.hostifAperture Fld.hostifApertureBase

/-- R435, R436: a host write over the link; the commands' order is the order in which the link delivers. -/
def State.hostWrite (s : State) (a : Nat) (bs : List Byte) : Except Fault State :=
  if s.hostReaches a && s.inBars a then s.countedWrite .host a bs else .ok s

/-- R364, R434, R435, R510: a host read over the link: what the completion carries, poisoned where a line was
uncorrectable; 0 where the ROM keeps the host out. The table has no row for it: a row that reads a register names the register. -/
def State.hostRead (s : State) (a n : Nat) : Except Fault State :=
  if s.hostReaches a && s.inBars a then
    match (s.countAccess .host a).busRead .host a n with
    | .error e => .error e
    | .ok r =>
      let t := if r.unc then r.st.readLost a else r.st
      .ok { t with host := { t.host with rdData := BitVec.ofNat 64 (ofLE r.bytes), rdPoison := r.unc } }
  else if s.boot.pcieUp && !s.halted && s.inBars a then .ok { s with host := { s.host with rdData := 0, rdPoison := false } }
  else .ok s

/-- REGISTER_WRITE: a write by the host or by a thread at an address. One outside the block windows reaches whatever
lies there, as a plain store does (R10, R435). -/
def execRegisterWrite (m : Master) (a : BitVec 48) (wd : RegWidth) (v : Word) (s : State) : Out :=
  match m with
    | .host => toOut (s.hostWrite a.toNat (toLE wd.size v.toNat))
    | .thread k =>
      if s.halted then .next s
      else toOut (s.countedWrite (.task k.val) a.toNat (toLE wd.size v.toNat))

end Sys2Proof.Machine
end

