-- ==== Sys2Proof/Machine/Alu.lean ====
section
/-! DEFINITION. The ALU group and HASH (R56, R57). -/

namespace Sys2Proof.Machine

/-- R56: the conditions of CMP. -/
def cmpCond (fn : BitVec 6) (a b : Word) : Bool :=
  match fn.toNat % 8 with
  | 0 => a == b
  | 1 => a != b
  | 2 => decide (a < b)
  | 3 => !decide (a < b)
  | 4 => a.slt b
  | 5 => !a.slt b
  | 6 => a &&& b != 0
  | _ => a &&& b == 0

/-- The value CMP writes. -/
def cmpWord (fn : BitVec 6) (a b : Word) : Word := if cmpCond fn a b then 1 else 0

/-- R56: EXT: `len` bits of `a` from bit `pos`. -/
def extWord (pos len : Nat) (a : Word) : Word := BitVec.ofNat 64 ((a >>> pos).toNat % 2 ^ min len 64)

/-- R56: INS: `d` with `len` bits from `pos` replaced by the low bits of `a`. -/
def insWord (pos len : Nat) (d a : Word) : Word :=
  let m : Word := BitVec.ofNat 64 ((2 ^ min len 64 - 1) <<< pos)
  (d &&& ~~~ m) ||| ((a <<< pos) &&& m)

/-- R56: MOVI, with the old value of d. -/
def moviWord (fn : BitVec 6) (val : BitVec 32) (d : Word) : Word :=
  match fn.toNat % 4 with
  | 1 => val.signExtend 64
  | 2 => val ++ d.setWidth 32
  | _ => val.setWidth 64

/-- The register form of an ALU instruction: d := f s1 s2 in either context. -/
def aluRR (op : Nat) (f : Word → Word → Word) (c : Ctx) (w : IWord) (s : State) : Out :=
  match c with
  | .pick p => pickPure p op (fun x => x.write w.dest (f (x.read w.src1) (x.read w.src2))) s
  | .task k => taskPure k.val op w (fun t => t.write w.dest (f (t.read w.src1) (t.read w.src2))) s

/-- The imm form: d := f s1 sext(val) in either context. -/
def aluRI (op : Nat) (f : Word → Word → Word) (c : Ctx) (w : IWord) (s : State) : Out :=
  match c with
  | .pick p => pickPure p op (fun x => x.write w.dest (f (x.read w.src1) w.sext)) s
  | .task k => taskPure k.val op w (fun t => t.write w.dest (f (t.read w.src1) w.sext)) s

/-- ADD: the sum of s1 and s2. -/
def execAdd (c : Ctx) (w : IWord) (s : State) : Out := aluRR 0x20 (fun a b => a + b) c w s

/-- ADD imm: the sum of s1 and sext(val). -/
def execAddImm (c : Ctx) (w : IWord) (s : State) : Out := aluRI 0x21 (fun a b => a + b) c w s

/-- SUB: the difference of s1 and s2. -/
def execSub (c : Ctx) (w : IWord) (s : State) : Out := aluRR 0x22 (fun a b => a - b) c w s

/-- SUB imm: the difference of s1 and sext(val). -/
def execSubImm (c : Ctx) (w : IWord) (s : State) : Out := aluRI 0x23 (fun a b => a - b) c w s

/-- AND: bitwise and of s1 and s2. -/
def execAnd (c : Ctx) (w : IWord) (s : State) : Out := aluRR 0x24 (fun a b => a &&& b) c w s

/-- AND imm: bitwise and of s1 and sext(val). -/
def execAndImm (c : Ctx) (w : IWord) (s : State) : Out := aluRI 0x25 (fun a b => a &&& b) c w s

/-- OR: bitwise or of s1 and s2. -/
def execOr (c : Ctx) (w : IWord) (s : State) : Out := aluRR 0x26 (fun a b => a ||| b) c w s

/-- OR imm: bitwise or of s1 and sext(val). -/
def execOrImm (c : Ctx) (w : IWord) (s : State) : Out := aluRI 0x27 (fun a b => a ||| b) c w s

/-- XOR: bitwise exclusive or of s1 and s2. -/
def execXor (c : Ctx) (w : IWord) (s : State) : Out := aluRR 0x28 (fun a b => a ^^^ b) c w s

/-- XOR imm: bitwise exclusive or of s1 and sext(val). -/
def execXorImm (c : Ctx) (w : IWord) (s : State) : Out := aluRI 0x29 (fun a b => a ^^^ b) c w s

/-- SHL: shift left of s1 and s2. -/
def execShl (c : Ctx) (w : IWord) (s : State) : Out := aluRR 0x2A (fun a b => a <<< (b.toNat % 64)) c w s

/-- SHL imm: shift left of s1 and sext(val). -/
def execShlImm (c : Ctx) (w : IWord) (s : State) : Out := aluRI 0x2B (fun a b => a <<< (b.toNat % 64)) c w s

/-- SHR: shift right, zero fill of s1 and s2. -/
def execShr (c : Ctx) (w : IWord) (s : State) : Out := aluRR 0x2C (fun a b => a >>> (b.toNat % 64)) c w s

/-- SHR imm: shift right, zero fill of s1 and sext(val). -/
def execShrImm (c : Ctx) (w : IWord) (s : State) : Out := aluRI 0x2D (fun a b => a >>> (b.toNat % 64)) c w s

/-- SAR: shift right, sign fill of s1 and s2. -/
def execSar (c : Ctx) (w : IWord) (s : State) : Out := aluRR 0x2E (fun a b => a.sshiftRight (b.toNat % 64)) c w s

/-- SAR imm: shift right, sign fill of s1 and sext(val). -/
def execSarImm (c : Ctx) (w : IWord) (s : State) : Out := aluRI 0x2F (fun a b => a.sshiftRight (b.toNat % 64)) c w s

/-- MIN: unsigned minimum of s1 and s2. -/
def execMin (c : Ctx) (w : IWord) (s : State) : Out := aluRR 0x30 (fun a b => if b < a then b else a) c w s

/-- MIN imm: unsigned minimum of s1 and sext(val). -/
def execMinImm (c : Ctx) (w : IWord) (s : State) : Out := aluRI 0x31 (fun a b => if b < a then b else a) c w s

/-- MAX: unsigned maximum of s1 and s2. -/
def execMax (c : Ctx) (w : IWord) (s : State) : Out := aluRR 0x32 (fun a b => if a < b then b else a) c w s

/-- MAX imm: unsigned maximum of s1 and sext(val). -/
def execMaxImm (c : Ctx) (w : IWord) (s : State) : Out := aluRI 0x33 (fun a b => if a < b then b else a) c w s

/-- CMP: 1 or 0 by the condition of fn of s1 and s2. -/
def execCmp (c : Ctx) (w : IWord) (s : State) : Out := aluRR 0x34 (cmpWord w.fn) c w s

/-- CMP imm: 1 or 0 by the condition of fn of s1 and sext(val). -/
def execCmpImm (c : Ctx) (w : IWord) (s : State) : Out := aluRI 0x35 (cmpWord w.fn) c w s

/-- MUL: low half of s1 × s2; control threads only (R37). -/
def execMul (c : Ctx) (w : IWord) (s : State) : Out :=
  match c with
  | .pick p => pickIllegal p 0x36 s
  | .task k => aluRR 0x36 (fun a b => a * b) (.task k) w s

/-- MUL imm: low half of s1 × sext(val); control threads only. -/
def execMulImm (c : Ctx) (w : IWord) (s : State) : Out :=
  match c with
  | .pick p => pickIllegal p 0x37 s
  | .task k => aluRI 0x37 (fun a b => a * b) (.task k) w s

/-- MULH: high half of the unsigned product; control threads only. -/
def execMulh (c : Ctx) (w : IWord) (s : State) : Out :=
  match c with
  | .pick p => pickIllegal p 0x39 s
  | .task k => aluRR 0x39 (fun a b => BitVec.ofNat 64 (a.toNat * b.toNat / 2 ^ 64)) (.task k) w s

/-- MOVI: val placed by fn. -/
def execMovi (c : Ctx) (w : IWord) (s : State) : Out :=
  match c with
  | .pick p => pickPure p 0x38 (fun x => x.write w.dest (moviWord w.fn w.val (x.read w.dest))) s
  | .task k => taskPure k.val 0x38 w (fun t => t.write w.dest (moviWord w.fn w.val (t.read w.dest))) s

/-- EXT: a bit field of s1. -/
def execExt (c : Ctx) (w : IWord) (s : State) : Out :=
  aluRR 0x3A (fun a _ => extWord w.fn.toNat (w.val.toNat % 128) a) c w s

/-- INS: low bits of s1 into a bit field of d. -/
def execIns (c : Ctx) (w : IWord) (s : State) : Out :=
  let f (d a : Word) : Word := insWord w.fn.toNat (w.val.toNat % 128) d a
  match c with
  | .pick p => pickPure p 0x3B (fun x => x.write w.dest (f (x.read w.dest) (x.read w.src1))) s
  | .task k => taskPure k.val 0x3B w (fun t => t.write w.dest (f (t.read w.dest) (t.read w.src1))) s

/-- SEL: s1 or s2 by a predicate; drafts only (R37). -/
def execSel (c : Ctx) (w : IWord) (s : State) : Out :=
  match c with
  | .pick p => pickPure p 0x3E (fun x => x.write w.dest
      (if x.pick.p.getLsbD (w.fn.toNat % 8) then x.read w.src1 else x.read w.src2)) s
  | .task k => taskIllegal k.val s

/-- R72: the batten sequence number under which an instruction reads: a pick's own, or the current one. -/
def State.ctxSeq (s : State) (c : Ctx) : BitVec 32 :=
  match c with
  | .pick p => (s.pkt? p).elim s.bat.seq fun x => x.pick.seq
  | .task _ => s.bat.seq

/-- R57: the value HASH computes. -/
def State.hashWord (s : State) (seq : BitVec 32) (alg : Nat) (val : BitVec 32) (a b : Word) : Word :=
  match alg with
  | 0 => (crc32c val (toLE 8 a.toNat ++ toLE 8 b.toNat)).setWidth 64
  | 1 => s.pickHash seq (val.toNat % 2) (toLE 8 a.toNat ++ toLE 8 b.toNat)
  | 2 => (crc16 (val.setWidth 16) (toLE 8 a.toNat)).setWidth 64
  | 3 => BitVec.ofNat 64 ((crc32c val (toLE 8 a.toNat)).toNat * (b.toNat % 2 ^ 32) / 2 ^ 32)
  | 4 => (crc32c val (toLE 8 a.toNat)).setWidth 64
  | _ => 0

/-- HASH: a CRC, the bucket hash or a uniform value by algorithm. -/
def execHash (c : Ctx) (w : IWord) (s : State) : Out := aluRR 0x40 (s.hashWord (s.ctxSeq c) w.fn.toNat w.val) c w s

/-- NOP: does nothing. -/
def execNop (c : Ctx) (w : IWord) (s : State) : Out :=
  match c with
  | .pick p => pickPure p 0x00 id s
  | .task k => taskPure k.val 0x00 w id s

/-- ILLEGAL_OP: an undefined opcode (R48). -/
def execIllegalOp (c : Ctx) (s : State) : Out :=
  match c with
  | .pick p => pickIllegal p 0xFF s
  | .task k => taskIllegal k.val s

/-- PICK_BUDGET_EXCEEDED: a pick that reaches a 25th instruction ends with DROP BUDGET (R50). -/
def execPickBudgetExceeded (p : PktId) (s : State) : Out := unlessHalted s <|
  match s.pkt? p with
  | none => .next s
  | some x =>
    if x.place = .running ∧ x.pick.wait = .none ∧ 24 ≤ x.pick.icount then toOut (s.endPickDrop p 48)
    else .next s

end Sys2Proof.Machine
end

