-- ==== Sys2Proof/Machine/Memory.lean ====
section
/-! DEFINITION. The memory and control-flow instructions, and DMA (R51, R55, R64, R274, R364). -/

namespace Sys2Proof.Machine

/-! ## LD, ST, STS, BATTEN (R51) -/

/-- R51: the address of a memory instruction. -/
def lsAddr (w : IWord) (t : Task) : Nat := ((t.read w.src1).toNat + w.sext.toNat) % 2 ^ 48

/-- R364: the lines of an access to `n` bytes from `a` that were uncorrectable are reported. -/
def State.linesLost (s : State) (was : State) (a n : Nat) : State :=
  ((linesOf a n).filter fun b => inHbm b && was.hbmUnc (was.readFrom b)).foldl (fun (s : State) b => s.readLost b) s

/-- R360, R418: an LD of `n` bytes from `a` that its channel holds back: its requests wait, and the load with them. -/
def State.holdLoad (s : State) (w : IWord) (k a n : Nat) : State :=
  let bad := (linesOf a n).any fun b => s.hbmUnc (s.readFrom b)
  let t := (linesOf a n).foldl (fun (s : State) b => s.hbmTraffic false true (.task k) (s.readFrom b) 1) s
  t.updTask k fun u => { u with load := some {
    reqs := (List.range (t.creel.nextReq - s.creel.nextReq)).map (s.creel.nextReq + ·)
    got := if bad then none else some (s.peek a n)
    addr := a, n := n, signed := w.fn.getLsbD 2, dest := w.dest } }

/-- LD in task `k`. -/
def ldTask (w : IWord) (k : Nat) (t : Task) (s : State) : TaskRes :=
  let a := lsAddr w t
  let n := widthOf w.fn.toNat
  match s.accessHeld a n with
  | some _ => .done (s.holdLoad w k a n)
  | none =>
  match (s.countAccess (.task k) a).busRead (.task k) a n with
  | .error (.undefinedBehaviour u) => .undef u
  | .ok r =>
    let s := if r.unc then r.st.linesLost s a n else r.st
    .done (s.updTask k fun t => t.write w.dest (if r.unc then 0 else loadValue (w.fn.getLsbD 2) r.bytes))

/-- LD; threads only (R37). -/
def execLd (c : Ctx) (w : IWord) (s : State) : Out :=
  match c with
  | .pick p => pickIllegal p 0x01 s
  | .task k => runTask k.val 0x01 w (ldTask w k.val) s

/-- ST in task `k`. At a channel that holds it back the store's request waits, and the task goes on (R360, R418; log entry
49). -/
def stTask (w : IWord) (k : Nat) (t : Task) (s : State) : TaskRes :=
  let a := lsAddr w t
  match s.countedWrite (.task k) a (toLE (widthOf w.fn.toNat) (t.read w.src2).toNat) with
  | .error (.undefinedBehaviour u) => .undef u
  | .ok s => .done s

/-- ST; threads only. -/
def execSt (c : Ctx) (w : IWord) (s : State) : Out :=
  match c with
  | .pick p => pickIllegal p 0x02 s
  | .task k => runTask k.val 0x02 w (stTask w k.val) s

/-- STS in task `k`. -/
def stsTask (w : IWord) (k : Nat) (t : Task) (s : State) : TaskRes :=
  if 256 ≤ t.stage.length then s.codeTask k stFull
  else
    match s.stageBad (lsAddr w t) (widthOf w.fn.toNat) with
    | some u => .undef u
    | none => .done (s.updTask k fun t => { t with
        stage := t.stage ++ [{ addr := lsAddr w t, w := w.fn.toNat % 4, data := t.read w.src2 }]
        stReg := stWord stOk })

/-- STS; threads only. -/
def execSts (c : Ctx) (w : IWord) (s : State) : Out :=
  match c with
  | .pick p => pickIllegal p 0x03 s
  | .task k => runTask k.val 0x03 w (stsTask w k.val) s

/-- BATTEN; threads only. The task keeps its context while it waits (R63 names no such wait; DEDUCED, log entry 29). -/
def execBatten (c : Ctx) (w : IWord) (s : State) : Out :=
  match c with
  | .pick p => pickIllegal p 0x07 s
  | .task k => runTask k.val 0x07 w (fun _ s =>
      .keep ((s.threadBatten k.val (w.fn.getLsbD 0)).updTask k.val fun t => { t with wait := .batten })) s

/-! ## BR and LOOP (R55) -/

/-- R55: the branch of this kind is taken. -/
def brTaken (kind code : Nat) (st s1 : Word) : Bool :=
  match kind with
  | 1 => st.toNat % 256 == code
  | 2 => st.toNat % 256 != code
  | 3 => s1 == 0
  | 4 => s1 != 0
  | _ => true

/-- R55: the kind of a BR. -/
def brKind (w : IWord) : Nat := bitsOf w.fn.toNat 5 3

/-- BR in a pick. -/
def brPick (w : IWord) (x : Pkt) (s : State) : PickRes :=
  if brKind w = 7 then .stop s
  else if brKind w = 5 ∨ brKind w = 6 then .illegal
  else if brTaken (brKind w) (w.fn.toNat % 8) x.pick.st (x.read w.src1) then .jump s w.disp
  else .done s 0

/-- R55: the word a branch of a thread goes to; -1 stands for one below word 0. -/
def brTarget (w : IWord) (t : Task) : Nat :=
  if brKind w = 5 then (t.read w.src1).toNat
  else
    let d := (t.pc : Int) + w.disp
    if d < 0 then 2 ^ 64 else d.toNat

/-- BR in a task. -/
def brTask (w : IWord) (k : Nat) (t : Task) (s : State) : TaskRes :=
  if brKind w = 7 then .keep (s.endActivation k)
  else if brTaken (brKind w) (w.fn.toNat % 8) t.stReg (t.read w.src1) then
    .jump (if brKind w = 6 then s.updTask k fun t => t.write w.dest (BitVec.ofNat 64 (t.pc + 1)) else s) (brTarget w t)
  else .done s

/-- BR. -/
def execBr (c : Ctx) (w : IWord) (s : State) : Out :=
  match c with
  | .pick p => runPick p 0x10 (brPick w) s
  | .task k => runTask k.val 0x10 w (brTask w k.val) s

/-- R55: LOOP. -/
def Task.loop (t : Task) (w : IWord) : Task :=
  let len := w.val.toNat % 4096
  let n := (t.read w.src1).toNat
  if 4 ≤ t.loops.length then { t.passTo (t.pc + 1 + len) with stReg := stWord stFull }
  else if n = 0 ∨ len = 0 then { t.passTo (t.pc + 1 + len) with stReg := stWord stOk }
  else { t with
    loops := { count := n, start := t.pc + 1, len := len } :: t.loops
    pc := t.pc + 1
    stReg := stWord stOk }

/-- LOOP; threads only. -/
def execLoop (c : Ctx) (w : IWord) (s : State) : Out :=
  match c with
  | .pick p => pickIllegal p 0x12 s
  | .task k => runTask k.val 0x12 w (fun t s => .keep (s.setTask k.val (t.loop w))) s

/-! ## Copies: DMA and COPY (R64, R274, R364, R491) -/

/-- R272: the name of the lock that guards the bucket an address lies in: a line of a large LPM table whole, though
COUNT end within it. -/
def State.bucketOf (s : State) (a : Nat) : Option Nat :=
  let within := fun (base n : Nat) => decide (base ≤ a) && decide (a < base + n)
  let lp := fun (i : Nat) => s.fld (Reg.learnLpmxBase i) Fld.learnLpmxBaseBase
  let cnt := fun (i : Nat) => s.fld (Reg.learnLpmxCnt i) Fld.learnLpmxCntCount
  let b6 := s.fld Reg.warpStbl6Base Fld.warpStbl6BaseBase
  let b7 := s.fld Reg.warpStbl7Base Fld.warpStbl7BaseBase
  if within 0x20000000 0x200000 then some ((a - 0x20000000) / 128)
  else if within (lp 0) (64 * ceilDiv (cnt 0) 4) then some (4 * 2 ^ 32 + (a - lp 0) / 64)
  else if within (lp 1) (64 * ceilDiv (cnt 1) 2) then some (5 * 2 ^ 32 + (a - lp 1) / 64)
  else if within b6 (64 * s.fld Reg.warpStbl6Nb Fld.warpStbl6NbNb) then
    some (6 * 2 ^ 32 + (a - b6) / 64)
  else if within b7 (64 * s.fld Reg.warpStbl7Nb Fld.warpStbl7NbNb) then
    some (7 * 2 ^ 32 + (a - b7) / 64)
  else none

/-- R274: a task other than `k` holds the lock of the bucket at `a`. -/
def State.lockedAgainst (s : State) (k a : Nat) : Bool :=
  match s.bucketOf a with
  | none => false
  | some name => match s.lockOf name with
    | none => false
    | some l => l.holder != k

/-- The bytes a copy moves at once: within one 64-byte block of each side, and register words whole. -/
def copyChunk (src dst len : Nat) : Nat :=
  let k := min len (min (64 - src % 64) (64 - dst % 64))
  if regionOf src = .reg ∨ regionOf dst = .reg then min k (8 - (if regionOf dst = .reg then dst else src) % 8) else k

/-- How far a copy came: the state, the bytes moved, and the completion code. -/
structure CopyRes where
  st : State
  moved : Nat
  code : Nat

/-- Copies up to `n` pieces. -/
def State.copyRun (s : State) (who : EvMaster) : Nat → Nat → Nat → Nat → Nat → Except Fault CopyRes
  | 0, _, _, _, moved => .ok ⟨s, moved, stOk⟩
  | n + 1, src, dst, len, moved =>
    let stop := match who with
      | .task k => s.lockedAgainst k dst
      | _ => false
    if len = 0 then .ok ⟨s, moved, stOk⟩
    else if stop then .ok ⟨s, moved, stRefused⟩
    else
      let k := copyChunk src dst len
      match s.readPiece who src k with
      | .error e => .error e
      | .ok r =>
        if r.unc then .ok ⟨r.st.readLost src, moved, stAbsent⟩
        else match r.st.writePiece who dst r.bytes with
          | .error e => .error e
          | .ok t =>
            let t := t.event { kind := 8, weight := k, priv := (match who with | .host => 2 | _ => 1), master := who, addr := some dst, cls := none }
            State.copyRun t who n (src + k) (dst + k) (len - k) (moved + k)

/-- R491: the copy touches host memory while the link is down. -/
def State.hostAbsent (s : State) (src dst : Nat) : Bool := (inHost src || inHost dst) && !s.boot.pcieUp

/-- A copy of `len` bytes. With the link down it reads 0 and discards writes, and ends in ST_ABSENT (R491). -/
def State.copy (s : State) (who : EvMaster) (src dst len : Nat) : Except Fault CopyRes :=
  match s.copyRun who (len + 1) src dst len 0 with
  | .error e => .error e
  | .ok r => .ok (if s.hostAbsent src dst && r.code == stOk then { r with code := stAbsent } else r)

/-- R66: two ranges of `len` bytes overlap. -/
def overlap (a b len : Nat) : Bool := decide (a < b + len) && decide (b < a + len)

/-- R64: a transfer has ended: STATUS, the flag, and the task that waits. -/
def State.dmaEnd (s : State) (r : DmaReq) (moved code : Nat) : State :=
  let s := if r.flags.testBit 6 then s.poke (r.desc + 24) (toLE 8 (moved * 2 ^ 32 + code)) else s
  let s := if r.flags.testBit 5 then s.signal r.task (BitVec.ofNat 32 (2 ^ (r.flags % 32))) else s
  if r.waits && (s.task r.task).wait == .dma then s.wakeTask r.task fun t => t.setSt code else s

/-- R409: the core a task's context belongs to. -/
def Task.core (t : Task) : Nat := t.ctx.getD 0 / 4

/-- The copies that wait in a core's queue. -/
def State.dmaQueue (s : State) (c : Nat) : List DmaReq := Tbl.get (Tbl.const []) s.spin.dma c

/-- DMA in task `k`. The descriptor is read where it lies, and bits 63:48 of SRC and DST are ignored (DESIGN CHOICE, log entry
130). -/
def dmaTask (w : IWord) (k : Nat) (t : Task) (s : State) : TaskRes :=
  let a := (t.read w.src1).toNat % 2 ^ 48
  match s.accessHeld a 32 with
  | some b => .hold (s.hbmWake b)
  | none =>
  match s.busRead (.task k) a 32 with
  | .error (.undefinedBehaviour u) => .undef u
  | .ok d =>
    let s := if d.unc then d.st.readLost a else d.st
    let r : DmaReq := {
      task := k, desc := a, src := ofLE (slice d.bytes 0 6), dst := ofLE (slice d.bytes 8 6)
      len := ofLE (slice d.bytes 16 4), flags := ofLE (slice d.bytes 20 4), waits := w.fn.getLsbD 0 }
    if d.unc then s.codeTask k (if r.waits then stAbsent else stOk)
    else if 16777216 < r.len then s.codeTask k stRefused
    else if 64 ≤ (s.dmaQueue t.core).length then s.codeTask k stFull
    else if r.len = 0 then (s.dmaEnd { r with waits := false } 0 stOk).codeTask k stOk
    else if overlap r.src r.dst r.len then .undef 5
    else
      let s := s.updDma t.core fun l => l ++ [r]
      if r.waits then .keep (s.blockTask k .dma) else s.codeTask k stOk

/-- DMA; threads only. -/
def execDma (c : Ctx) (w : IWord) (s : State) : Out :=
  match c with
  | .pick p => pickIllegal p 0x97 s
  | .task k => runTask k.val 0x97 w (dmaTask w k.val) s

/-- R360, R366: a line a copy is to read that a channel at rest or FROZEN holds back. -/
def State.copyHeld (s : State) (src len : Nat) : Option Nat :=
  (List.range (len / 64 + 2)).findSome? fun i => s.accessHeld (src + min (64 * i) (len - 1)) 1

/-- DMA_COMPLETE: the copy at the head of a core's queue runs and ends; `errs` come into the first line it reads, if in
HBM. Until then its descriptor may not change (R66). A copy that reaches a channel at rest waits (R360). -/
def execDmaComplete (core : Fin 32) (errs : List SymErr) (s : State) : Out :=
  match s.dmaQueue core.val with
  | [] => .next s
  | r :: rest =>
    if s.halted then .next s
    else match s.copyHeld r.src r.len with
    | some a => .next (s.hbmWake a)
    | none =>
      let s := if inHbm r.src then s.spoil (hbmLine r.src) errs else s
      match s.copy (.task r.task) r.src r.dst r.len with
      | .error e => .fault e
      | .ok x => .next ((x.st.updDma core.val fun _ => rest).dmaEnd r x.moved x.code)

end Sys2Proof.Machine
end

