-- ==== Sys2Proof/Machine/Batten.lean ====
section
/-! DEFINITION. The batten unit: slots, application, retirement of draft banks, and the host's stage list
(R82 to R93, R96, R534). -/

namespace Sys2Proof.Machine

/-! ## Step 1 to 3: the slot opens (R83) -/

/-- R83: the overlay keeps the old value of the register at `a`. -/
def State.keepReg (s : State) (a : Nat) : State :=
  match Tbl.get (Tbl.const none) s.bat.oldReg a with
  | some _ => s
  | none => { s with bat := { s.bat with oldReg := Tbl.set (Tbl.const none) s.bat.oldReg a (some (s.rd a)) } }

/-- R83: the overlay keeps the old value of the byte at `a`. -/
def State.keepByte (s : State) (a : Nat) : State :=
  match Tbl.get (Tbl.const none) s.bat.oldMem a with
  | some _ => s
  | none => { s with bat := { s.bat with oldMem := Tbl.set (Tbl.const none) s.bat.oldMem a (some (s.byte a)) } }

/-- The same for `n` bytes. -/
def State.keepBytes (s : State) (a n : Nat) : State := (List.range n).foldl (fun (s : State) i => s.keepByte (a + i)) s

/-- R82: every pending WS stage takes effect. -/
def State.slotWs (s : State) : State :=
  let t := s.ws.foldl (fun (s : State) e => (s.keepReg e.1).wr e.1 (mergeMask e.2.1 e.2.2 (s.rd e.1))) s
  { t with ws := [] }

/-- R534: an entry that names a register: its WS fields and the rest of the word take effect, and pending
stages of those fields are discarded. What the write does, it does at the slot (DEDUCED, log entry 30). -/
def State.slotReg (s : State) (e : StageEntry) : Except Fault State :=
  let l := regLane e.addr (widthOf e.w) e.data.toNat
  let m := wsMask l.1 &&& l.2.2
  let p := s.pendingWs l.1
  let s := (s.keepReg l.1).setWs l.1 (p.1 &&& ~~~ m, p.2 &&& ~~~ m)
  (s.wr l.1 (mergeMask m l.2.1 (s.rd l.1))).regWrite l.1 l.2.1 (l.2.2 &&& ~~~ m)

/-- R83: an entry takes effect; one that reaches the descriptor of a queued copy is undefined behaviour (R66). -/
def State.slotEntry (s : State) (e : StageEntry) : Except Fault State :=
  let bs := e.bytes
  if s.inDescriptor e.addr bs.length then .error (.undefinedBehaviour 6)
  else match regionOf e.addr with
  | .reg => s.slotReg e
  | .die =>
    if s.dieBad .internal e.addr = some 37 then .error (.undefinedBehaviour 37)
    else .ok ((s.keepBytes e.addr bs.length).dieWrite e.addr bs)
  | _ =>
    let s := s.keepBytes e.addr bs.length
    let s := match s.mirrorOf e.addr with
      | some b => s.keepBytes b bs.length
      | none => s
    .ok (s.hbmStore .internal e.addr bs)

/-- The entries of a list, in order. -/
def State.slotEntries (s : State) : List StageEntry → Except Fault State
  | [] => .ok s
  | e :: es => match s.slotEntry e with
    | .error f => .error f
    | .ok t => State.slotEntries t es

/-- R160: a current generation of 0 acts as 1. -/
def State.genNotZero (s : State) : State :=
  if s.fld Reg.warpGen Fld.warpGenCurrent = 0 then s.setF Reg.warpGen Fld.warpGenCurrent 1 else s

/-- R158, R359, R462: what a change of profile from `old` does at its slot. -/
def State.profileFrom (s : State) (old : Nat) : State :=
  let s := if old = 1 ∧ s.profile ≠ 1 then s.owePass else s
  if old = 3 ∧ s.profile ≠ 3 then s.wakeAll.leaveW3 else s

/-- R245: the states and edges that the entries of batten `b` touch: the address of each, and its bytes. -/
def twTouched (l : List StageEntry) : List (Nat × Nat) :=
  l.filterMap fun e =>
    if 0x15000000 ≤ e.addr ∧ e.addr < 0x19000000 then some (e.addr / 16 * 16, 8)
    else if 0x19000000 ≤ e.addr ∧ e.addr < 0x1D000000 then some (e.addr / 4 * 4, 4)
    else none

/-- R245: the STARTs, the states and the edges that this batten, of list `l`, replaced. -/
def State.noteStarts (s old : State) (l : List StageEntry) : State :=
  let gone := (List.range 16).filter fun k => s.rd (Reg.twillSet k) != old.rd (Reg.twillSet k)
  let words := ((twTouched l).flatMap fun e => if e.2 = 4 then [e, (e.1 + 4, 4)] else [e]).filter fun e =>
    s.le e.1 e.2 != old.le e.1 e.2
  { s with twill := { s.twill with
    oldStarts := s.twill.oldStarts ++ gone.map fun k => (old.fld (Reg.twillSet k) Fld.twillSetStart, s.bat.seq)
    oldImage := s.twill.oldImage ++ words.map fun e => (e.1, old.le e.1 e.2, s.bat.seq) } }

/-- R91: the bank that was active drains, if the batten made another one active. -/
def State.noteFlip (s old : State) : State :=
  if s.activeBank = old.activeBank then s
  else { s with bat := { s.bat with draining := some old.activeBank, curFlip := true } }

/-- R82: a thread batten that waits takes the free place. -/
def State.admitBatten (s : State) : State :=
  match s.bat.waiting with
  | [] => s
  | b :: bs =>
    if s.threadBattens < 63 then ({ s with bat := { s.bat with waiting := bs } }).placeBatten b else s

/-- R83, steps 1 and 2: the batten at the head of the queue is taken, with the host's list if it is the
host's, and the sequence number advances. The two steps are one here, also of a flip that R93 holds (DESIGN CHOICE, log
entry 106). -/
def State.takeBatten (s : State) (b : BatReq) (rest : List BatReq) : State :=
  { s with bat := { s.bat with
    queue := rest
    cur := some { b with list := s.batList b }
    hstage := if b.host then [] else s.bat.hstage
    seq := s.bat.seq + 1 } }

/-- R83: the slot of batten `b` opens. -/
def State.openSlot (s : State) (b : BatReq) (rest : List BatReq) : Except Fault State :=
  let t := s.takeBatten b rest
  let t := if b.ws then t.slotWs else t
  match t.slotEntries (s.batList b) with
  | .error f => .error f
  | .ok u =>
    if u.poolBad (u.rd Reg.beamPool) = true then .error (.undefinedBehaviour 31)
    else .ok ((((u.genNotZero.profileFrom s.profile).noteStarts s (s.batList b)).noteFlip s).admitBatten)

/-- BATTEN_SLOT_OPEN: the batten at the head of the queue is loaded and its slot opens, if the overlay is
free and the batten is not a flip that must wait (R93). -/
def execBattenSlotOpen (s : State) : Out :=
  match s.bat.queue with
  | [] => .next s
  | b :: rest =>
    if s.bat.cur.isSome ∨ s.flipWait = true ∨ s.halted = true then .next s else toOut (s.openSlot b rest)

/-! ## Steps 4 and 5 (R83, R84, R88) -/

/-- R478: event 10, a batten completed. -/
def State.countBatten (s : State) (b : BatReq) : State :=
  s.event { kind := 10, weight := 1, priv := if b.host then 2 else 1,
            master := if b.host then .host else .task b.task, addr := none, cls := none }

/-- R84, R88, R90: a batten is complete; it follows the program words stored before its slot (R66). -/
def State.completeBatten (s : State) (b : BatReq) : State :=
  let s := s.countBatten b
  let s := { s with spin := { s.spin with stored := s.spin.stored.filter fun e => e.2 == s.bat.seq } }
  if b.host then
    let s := { s with bat := { s.bat with hostDone := s.bat.hostDone + 1 } }
    if s.flag Reg.beamBattenEvt Fld.beamBattenEvtOnHostDone then
      s.post 5 (srcOf Reg.beamBattenEvt) (toLE 1 s.bat.hostDone.toNat ++ [0, 0, 0] ++ toLE 4 s.bat.seq.toNat)
    else s
  else if b.wake && (s.task b.task).wait == .batten then
    s.updTask b.task fun t => { t.step with wait := .none, stReg := stWord stOk }
  else s

/-- R73, R298: the pick of a packet is in progress, or has chosen a group that the Beam has still to read. -/
def Pkt.readsTables (x : Pkt) : Bool :=
  match x.place, x.pick.disp with
  | .shedInput, _ => true
  | .running, _ => true
  | .handed, .multicast _ _ => true
  | _, _ => false

/-- R83, step 4: a pick that started before the slot opened has not ended, or the Beam has still to read the group it
chose (R298). -/
def State.oldPicks (s : State) : Bool :=
  s.pkts.any fun e => match e.2 with
    | some x => x.readsTables && x.pick.seq != s.bat.seq
    | none => false

/-- BATTEN_APPLY: every pick that started before the slot has ended; the overlay is freed, and the batten is
complete, unless it flipped the bank and the old one has not retired. -/
def execBattenApply (s : State) : Out :=
  match s.bat.cur with
  | none => .next s
  | some b =>
    if s.oldPicks ∨ s.halted = true then .next s
    else
      let flips := s.bat.curFlip
      let s := { s with bat := { s.bat with
        cur := none, oldMem := [], oldReg := [], curFlip := false
        flip := if flips then some b else s.bat.flip } }
      .next (if flips then s else s.completeBatten b)

/-! ## Bank retirement (R91) -/

/-- R105: posts DRAFT_RETIRED where it is asked for. -/
def State.postRetired (s : State) (b : Bool) : State :=
  if s.flag Reg.beamBattenEvt Fld.beamBattenEvtOnRetire then
    s.post 4 (srcOf Reg.beamBattenEvt) (toLE 1 (b2n b) ++ [0, 0, 0] ++ toLE 4 (s.draftId b))
  else s

/-- BANK_RETIRE: no packet in flight belongs to the draining bank: it retires, and the batten that carried the
flip is complete if it has been applied. -/
def execBankRetire (s : State) : Out :=
  match s.bat.draining with
  | none => .next s
  | some b =>
    if s.epochCount b ≠ 0 ∨ s.halted = true then .next s
    else
      let held := s.bat.flip
      let s := ({ s with bat := { s.bat with draining := none, flip := none, curFlip := false } }).postRetired b
      .next (match held with
        | some f => s.completeBatten f
        | none => s)

/-! ## The host (R89, R90) -/

/-- HOST_STAGE_APPEND: a write of BEAM_HSTAGE_DATA. -/
def execHostStageAppend (v : Word) (s : State) : Out := unlessBlocked s Reg.beamHstageData <|
  s.byWrite Reg.beamHstageData (s.hstageWrite v (BitVec.allOnes 64))

/-- HOST_BATTEN: a write of BEAM_BATTEN_CMD. -/
def execHostBatten (v : Word) (s : State) : Out := unlessBlocked s Reg.beamBattenCmd <|
  s.byWrite Reg.beamBattenCmd (.ok (s.battenCmdWrite v (BitVec.allOnes 64)))

end Sys2Proof.Machine
end

