-- ==== Sys2Proof/Machine/Ring.lean ====
section
/-! DEFINITION. The command ring, Jacquard patches, event backlogs, interrupts, and the restart of the
Spindle (R437 to R447, R515, R516). -/

namespace Sys2Proof.Machine

/-! ## Commands (R437, R438) -/

/-- R437, R438, R491, R516: where the command stands that the device executes next, if it may: the ring is enabled, the host
link is up, the ring holds an entry, the completion ring is not full, no patch is being switched to for the ring,
and no restart pauses it. -/
def State.ringAt (s : State) : Option Nat :=
  let size := s.fld (Reg.ringCfg 0) Fld.ringCfgSize
  let base := s.fld (Reg.ringBase 0) Fld.ringBaseBase
  let addr := base + 64 * (s.fld (Reg.ringCons 0) Fld.ringConsCons % size)
  let full := s.fld (Reg.ringCfg 1) Fld.ringCfgSize != 0 && !s.ringRoom 1
  let busy := match s.host.switching with
    | some p => p.byRing
    | none => false
  if size = 0 ∨ s.ringUsed 0 = 0 ∨ full = true ∨ busy = true ∨ s.spin.restarting = true ∨ s.halted = true ∨
      s.boot.pcieUp = false then none
  else some addr

/-- The record of that command. -/
def State.ringHead (s : State) : Option (List Byte) := s.ringAt.map fun a => s.peek a 64

/-- The OP of a command record. -/
def cmdOp (r : List Byte) : Nat := (r.getD 0 0).toNat

/-- R438: a command completes: CONS advances and the completion record goes out. An AUX the spec does not
give is a free value. -/
def State.cmdEnd (s : State) (r : List Byte) (code : Nat) (aux : Option Nat := none) : State :=
  let s := s.incF (Reg.ringCons 0) Fld.ringConsCons
  if (r.getD 1 0).getLsbD 0 ∧ s.fld (Reg.ringCfg 1) Fld.ringCfgSize ≠ 0 then
    let d := match aux with
      | some n => (n, s)
      | none => s.draw
    d.2.ringPut 1 (slice r 4 4 ++ slice r 0 1 ++ toLE 1 code ++ [0, 0] ++ toLE 8 d.1)
  else s

/-- Runs the command at the head of the ring if its OP is one that `is` names; its record is read for it. One in HBM at a
channel at rest waits (R360). -/
def cmdRun (is : Nat → Bool) (f : List Byte → State → Out) (s : State) : Out :=
  match s.ringAt with
  | none => .next s
  | some a =>
    let r := s.peek a 64
    if !is (cmdOp r) then .next s
    else match s.accessHeld a 64 with
      | some b => .next (s.hbmWake b)
      | none => f r (s.peeked a 64)

/-- CMD_NOP. -/
def execCmdNop (s : State) : Out := cmdRun (· == 0) (fun r s => .next (s.cmdEnd r stOk)) s

/-- R438: COPY, as DMA; the host ignores bucket locks (R272). One that reaches a channel at rest waits (R360). -/
def cmdCopy (r : List Byte) (s : State) : Out :=
  let src := ofLE (slice r 8 6)
  let dst := ofLE (slice r 16 6)
  let len := ofLE (slice r 24 4)
  if 16777216 < len then .next (s.cmdEnd r stRefused)
  else if overlap src dst len && len != 0 then ub 5
  else match (if len = 0 then none else s.copyHeld src len) with
    | some a => .next (s.hbmWake a)
    | none => match s.copy .host src dst len with
      | .error e => .fault e
      | .ok x => .next (x.st.cmdEnd r x.code)

/-- CMD_COPY. -/
def execCmdCopy (s : State) : Out := cmdRun (· == 1) cmdCopy s

/-- R413, R438: TASK; a 17th of a scheduler round waits at the head of the ring. The result of a command code that names
no command is a free value. -/
def cmdTask (r : List Byte) (s : State) : Out :=
  match taskOpOf (ofLE (slice r 8 1)) with
  | some op =>
    if s.cmdsFull then .next s
    else
      let x := s.taskCmdNow op (ofLE (slice r 10 2) % 4096) (BitVec.ofNat 32 (ofLE (slice r 12 4)))
      .next (x.1.cmdEnd r x.2)
  | none => .next (s.draw.2.cmdEnd r (s.draw.1 % 256))

/-- CMD_TASK. -/
def execCmdTask (s : State) : Out := cmdRun (· == 2) cmdTask s

/-- CMD_QPUT. -/
def execCmdQput (s : State) : Out := cmdRun (· == 3) (fun r s =>
  let x := s.devicePut (ofLE (slice r 8 1)) (BitVec.ofNat 64 (ofLE (slice r 16 8)))
  .next (x.1.cmdEnd r (if x.2 then stOk else stRefused))) s

/-- The address of the command at the head of the ring. -/
def State.ringAddr (s : State) : Nat :=
  s.fld (Reg.ringBase 0) Fld.ringBaseBase +
    64 * (s.fld (Reg.ringCons 0) Fld.ringConsCons % s.fld (Reg.ringCfg 0) Fld.ringCfgSize)

/-- CMD_INJECT: the descriptor enters queue 255 as it stands in the command. -/
def execCmdInject (s : State) : Out := cmdRun (· == 4) (fun r s =>
  let x := s.devicePut 255 (BitVec.ofNat 64 (s.ringAddr + 32)) (some (slice r 32 32))
  .next (x.1.cmdEnd r (if x.2 then stOk else stRefused))) s

/-- CMD_BAD: an OP above 5. -/
def execCmdBad (s : State) : Out := cmdRun (fun op => decide (5 < op)) (fun r s =>
  .next ((s.err Reg.hostifErr Fld.hostifErrSqBad.lo).cmdEnd r stRefused)) s

/-! ## Patches (R445 to R447) -/

/-- R446: the fields of a container's header. -/
structure PatchHdr where
  half : Nat
  version : Nat
  nwords : Nat
  ndisp : Nat
  nhook : Nat
  bodyLen : Nat

/-- The header of a container. -/
def patchHdr (c : List Byte) : PatchHdr :=
  { half := (c.getD 6 0).toNat % 2, version := ofLE (slice c 8 4), nwords := ofLE (slice c 16 2)
    ndisp := ofLE (slice c 18 2), nhook := ofLE (slice c 20 2), bodyLen := ofLE (slice c 52 4) }

/-- R446, R447: the checks of step 2 before the tag; the check that fails, by its AUX. -/
def State.patchFails (s : State) (c : List Byte) : Option Nat :=
  let h := patchHdr c
  let good := slice c 0 4 == toLE 4 0x5450514A && slice c 4 2 == toLE 2 1 && slice c 12 2 == toLE 2 0x9012 &&
    slice c 14 1 == [0x20] && Nat.ble h.nwords 2048 && Nat.ble h.ndisp 256 && Nat.ble h.nhook 64 &&
    h.bodyLen == 24 * h.nwords + 4 * h.ndisp + 4 * h.nhook && c.length == 224 + h.bodyLen
  if !good then some 1
  else if !Config.patchSigOk (c.take (128 + h.bodyLen)) (slice c (128 + h.bodyLen) 96) then some 2
  else if h.version < s.fld Reg.jacqFloor Fld.jacqFloorFloor then some 3
  else none

/-- R443, R447: writes the microwords of a body into a half. -/
def State.patchWords (s : State) (half n : Nat) (body : List Byte) : State :=
  (List.range n).foldl (fun (s : State) i =>
    s.setBytes (0x45000000 + 32 * (2048 * half + i)) (slice body (24 * i) 24)) s

/-- R445, R450: the overrides and hooks of a body replace those of the set before. -/
def State.patchEntries (s : State) (h : PatchHdr) (body : List Byte) : State :=
  let s := (List.range 256).foldl (fun (s : State) o => s.wr (Reg.jacqDisp o) (regReset (Reg.jacqDisp o))) s
  let s := (List.range 64).foldl (fun (s : State) k => s.wr (Reg.jacqHook k) 0) s
  let s := (List.range h.ndisp).foldl (fun (s : State) i =>
    let o := 24 * h.nwords + 4 * i
    s.wr (Reg.jacqDisp (ofLE (slice body o 1)))
      (Fld.jacqDispTarget.put (Fld.jacqDispPatched.put 0 1) (ofLE (slice body (o + 2) 2)))) s
  (List.range h.nhook).foldl (fun (s : State) i =>
    let o := 24 * h.nwords + 4 * h.ndisp + 4 * i
    s.wr (Reg.jacqHook i) (Fld.jacqHookTarget.put (Fld.jacqHookRomAddr.put (Fld.jacqHookValid.put 0 1)
      (ofLE (slice body o 2))) (ofLE (slice body (o + 2) 2)))) s

/-- What a PATCH answers before step 4: refused with AUX, full, or begun. -/
inductive PatchRes where
  | refused (aux : Nat)
  | full
  | begun (s : State)

/-- R445: every override and hook of a body names a word of the container's own half. A body that does not is refused
as a fault of its format (DEDUCED, log entry 108). -/
def patchInHalf (h : PatchHdr) (body : List Byte) : Bool :=
  let lo := 16384 + 2048 * h.half
  (List.range (h.ndisp + h.nhook)).all fun i =>
    let t := ofLE (slice body (24 * h.nwords + 4 * i + 2) 2)
    decide (lo ≤ t ∧ t < lo + 2048)

/-- R447, steps 1 to 4: a container is applied; `comp` is the command that waits for step 5. -/
def State.patch (s : State) (c : List Byte) (byRing : Bool) (comp : List Byte) : PatchRes :=
  let h := patchHdr c
  match s.patchFails c with
  | some n => .refused n
  | none =>
    match Config.patchDecrypt (slice c 24 12) (slice c 36 16) (c.take 24) (slice c 128 h.bodyLen) with
    | none => .refused 4
    | some body =>
      if !patchInHalf h body then .refused 1
      else if s.flag Reg.jacqPatchStat Fld.jacqPatchStatValid ∧ s.fld Reg.jacqPatchStat Fld.jacqPatchStatHalf = h.half then .full
      else
        let s := (s.patchWords h.half h.nwords body).patchEntries h body
        let v := Fld.jacqPatchStatVersion.put (Fld.jacqPatchStatSwitching.put (Fld.jacqPatchStatValid.put
          (Fld.jacqPatchStatHalf.put 0 h.half) 1) 1) h.version
        let s := s.wr Reg.jacqPatchStat v
        .begun { s with host := { s.host with
          switching := some { half := h.half, version := h.version, byRing := byRing, comp := comp } } }

/-- R438: PATCH. -/
def cmdPatch (r : List Byte) (s : State) : Out :=
  let a := ofLE (slice r 8 6)
  let n := ofLE (slice r 16 4)
  if s.host.switching.isSome then .next s
  else match s.accessHeld a n with
  | some b => .next (s.hbmWake b)
  | none =>
    let c := s.peek a n
    let s := s.peeked a n
    match s.patch c true r with
    | .refused n => .next (s.cmdEnd r stRefused (some n))
    | .full => .next (s.cmdEnd r stFull)
    | .begun t => .next t

/-- CMD_PATCH. -/
def execCmdPatch (s : State) : Out := cmdRun (· == 5) cmdPatch s

/-- PATCH_SWITCH_DONE: step 5 of R447: every context has passed an instruction boundary. -/
def execPatchSwitchDone (s : State) : Out :=
  match s.host.switching with
  | none => .next s
  | some p =>
    if s.halted then .next s
    else
      let s := { s with host := { s.host with switching := none } }
      let s := s.setF Reg.jacqPatchStat Fld.jacqPatchStatSwitching 0
      let s := s.post 16 (srcOf Reg.jacqPatchStat) (toLE 1 stOk ++ [0, 0, 0] ++ toLE 4 p.version)
      .next (if p.byRing then s.cmdEnd p.comp stOk else s)

/-- JACQ_FLOOR_WRITE: a write of JACQ_FLOOR. -/
def execJacqFloorWrite (v : Word) (s : State) : Out :=
  s.byWrite Reg.jacqFloor (.ok (s.floorWrite v (BitVec.allOnes 64)))

/-! ## Backlogs and interrupts (R441, R442) -/

/-- R441: the record that goes first once ring space returns. -/
def State.lostRecord (s : State) (n : Nat) : List Byte :=
  s.evRecord 17 (srcOf Reg.hostifErr) (toLE 4 (s.backlog n).lost)

/-- A record of a backlog enters its ring. -/
def State.drain (s : State) (n : Nat) (r : List Byte) : State :=
  let s := s.ringPut (2 + n) r
  if n = 1 then s.ring1Notify else s

/-- EVENT_BACKLOG_DRAIN: event ring `n` has room: the count of lost records goes first, then the oldest record
of the backlog. -/
def execEventBacklogDrain (n : Fin 2) (s : State) : Out :=
  if s.halted then .next s else
  let s := s.postDue
  if !s.ringRoom (2 + n.val) then .next s
  else
    let b := s.backlog n.val
    if b.lost ≠ 0 then
      let t := (s.setBacklog n.val { b with lost := 0 }).drain n.val (s.lostRecord n.val)
      .next { t with host := { t.host with seq := t.host.seq + 1 } }
    else match b.recs with
      | [] => .next s
      | r :: rs => .next ((s.setBacklog n.val { b with recs := rs }).drain n.val r)

/-- MSI_MODERATION: the moderation time of ring `n` has passed; a message goes out where entries remain and
the ring's MSI_EN is still 1 (R442). -/
def execMsiModeration (n : Fin 4) (s : State) : Out := unlessHalted s <|
  let k := n.val
  if !Tbl.get (Tbl.const false) s.host.msiDue k then .next s
  else
    let wait := s.fld (Reg.ringCfg k) Fld.ringCfgModUs * 1000
    let past := match Tbl.get (Tbl.const none) s.host.msiAt k with
      | none => true
      | some t => decide (t + wait ≤ s.now)
    if !past then .next s
    else
      let t := { s with host := { s.host with msiDue := Tbl.set (Tbl.const false) s.host.msiDue k false } }
      if s.ringUsed k = 0 ∨ s.fld (Reg.ringCfg k) Fld.ringCfgMsiEn = 0 then .next t
      else
        let t := t.msi (s.fld (Reg.ringCfg k) Fld.ringCfgVec)
        .next { t with host := { t.host with msiAt := Tbl.set (Tbl.const none) t.host.msiAt k (some s.now) } }

/-- MSI_SEND: a write of HOSTIF_MSI_SEND. -/
def execMsiSend (v : Word) (s : State) : Out :=
  s.byWrite Reg.hostifMsiSend (.ok (s.msiSendWrite v (BitVec.allOnes 64)))

/-! ## The restart of the Spindle (R515, R516) -/

/-- SPINDLE_RESTART: a write of SPIN_RESTART. -/
def execSpindleRestart (v : Word) (s : State) : Out :=
  s.byWrite Reg.spinRestart (.ok (s.restartWrite v (BitVec.allOnes 64)))

/-- R516, step 4: handles are released as discards and queues emptied. -/
def State.emptySpindle (s : State) : State :=
  let s := s.spin.out.foldl (fun (s : State) (e : Handle) => s.releaseHandle e.h true) s
  { s with spin := { s.spin with
    heldInj := []
    queue := [] } }

/-- R516, step 5: clears a range of a store. -/
def State.clearRange (s : State) (lo hi : Nat) : State :=
  { s with mem := s.mem.filter fun e => !(decide (lo ≤ e.1) && decide (e.1 < hi)) }

/-- SPINDLE_RESTART_DONE: every copy accepted has ended: steps 4 to 6. -/
def execSpindleRestartDone (s : State) : Out :=
  if !s.spin.restarting || s.halted || (s.spin.dma.any fun e => !e.2.isEmpty) then .next s
  else
    let s := s.emptySpindle
    let s := if s.flag Reg.spinRestart Fld.spinRestartClearProg then s.clearRange 0x40000000 0x40200000 else s
    let s := if s.flag Reg.spinRestart Fld.spinRestartClearScratch then s.clearRange 0x41000000 0x41800000 else s
    let s := s.setF Reg.spinRestart Fld.spinRestartBusy 0
    .next { s with spin := { s.spin with restarting := false } }

end Sys2Proof.Machine
end

