-- ==== Sys2Proof/Machine/Boot.lean ====
section
/-! DEFINITION. Power, reset, the boot ROM, the PCIe link, clock interruptions, and the SMBus target
(R491, R501 to R512, R524, R527). -/

namespace Sys2Proof.Machine

/-! ## Power and reset (R501 to R505) -/

/-- R525, R526: the SMBus target's address: 0b10110 and the strap as sampled. -/
def State.smbTarget (s : State) : BitVec 7 := (0b10110 : BitVec 5) ++ s.boot.smbAddr

/-- R526: what the JTAG port answers as its IDCODE. -/
def jtagIdcode : BitVec 32 := 0x2901223F

/-- R503: the device with RESET_N low: everything at its reset value. What stands outside the registers stays:
the regulator's voltage, host memory, stopped clocks, the strap as last sampled, and failed wires, which the links find
again when they train (DEDUCED, log entry 32). -/
def State.underReset (s : State) : State :=
  { State.reset with
    pending := s.pending
    now := s.now
    freeCtr := s.freeCtr
    mem := s.mem.filter fun e => inHost e.1
    boot := { State.reset.boot with powered := s.boot.powered, inReset := true, perst := s.boot.perst, smbAddr := s.boot.smbAddr }
    selv := { State.reset.selv with
      refLost := s.selv.refLost, wires := s.selv.wires, moved := s.selv.moved, oldWires := s.selv.wires }
    tension := { State.reset.tension with vdd := s.tension.vdd } }

/-- POWER_ON: the rails rise in order, RESET_N low. VDD_LOOM powers up at the recommended voltage (PRESUMED, log
entry 8). -/
def execPowerOn (s : State) : Out :=
  if s.boot.powered then .next s
  else
    let t := s.underReset
    .next { t with now := 0, boot := { t.boot with powered := true }, tension := State.reset.tension }

/-- POWER_OFF: the rails fall. -/
def execPowerOff (s : State) : Out :=
  if !s.boot.powered then .next s
  else
    let t := s.underReset
    .next { t with boot := { t.boot with powered := false } }

/-- RESET_ASSERT: RESET_N falls, every rail good. -/
def execResetAssert (s : State) : Out := if s.boot.powered then .next s.underReset else .next s

/-- RESET_RELEASE: RESET_N rises, and the strap SMB_ADDR is sampled (R525). -/
def execResetRelease (s : State) : Out :=
  if s.boot.powered ∧ s.boot.inReset then
    .next { s with boot := { s.boot with inReset := false, smbAddr := Config.smbStrap } }
  else .next s

/-- CLOCK_INTERRUPTION: only RESET_N recovers the device (R524). -/
def execClockInterruption (s : State) : Out :=
  if s.boot.powered ∧ !s.boot.inReset then .next { s with boot := { s.boot with outside := true } } else .next s

/-! ## The phases (R505, R506) -/

/-- Runs a step of the ROM in its phase. -/
def inPhase (p : Nat) (f : State → Out) (s : State) : Out :=
  if s.phase = p ∧ s.halted = false then f s else .next s

/-- BOOT_INIT_DONE: reset initialisation has ended; `sfdp` tells whether the flash answers SFDP. -/
def execBootInitDone (sfdp : Bool) (s : State) : Out :=
  inPhase 0 (fun s => .next ({ s with boot := { s.boot with sfdp := sfdp } }.setPhase 1)) s

/-- R19, R490: the mechanisms by which the first `n` wires of a group were replaced, in order. -/
def wireMechs (n : Nat) (moved : Bool) : List Nat := if moved then [1, 2, 1].take n else [1].take n

/-- R505: a record for each replacement that the links have made again since RESET_N fell; WIRE_FAIL posts those of the
wires that fail later. -/
def State.wireRecords (s : State) : State :=
  let s := s.selv.oldWires.foldl (fun (s : State) e =>
    (wireMechs e.2 (Tbl.get (Tbl.const false) s.selv.moved e.1)).foldl
      (fun (s : State) m => s.masked m (linkSrc (e.1 / 256)) e.1 0) s) s
  { s with selv := { s.selv with oldWires := [] } }

/-- BOOT_LINKS_DONE: every die-to-die link has trained. -/
def execBootLinksDone (s : State) : Out := inPhase 1 (fun s => .next (s.wireRecords.setPhase 2)) s

/-- R505: a channel has failed training: a spare takes its slot without a copy; with no spare its stack is
lost (R365, R492). -/
def State.bootDead (s : State) (c : Nat) : State :=
  let w := s.rd (chanReg c)
  let spare := s.chanState c == 2
  let t := s.setChanState c 4
  if spare || t.stackLost (c / 32) then t
  else match t.pickSpare (c / 32) with
    | none => t.stackGone (Fld.creelChanSlotStack.get w)
    | some d =>
      let t := t.setChanState d 0
      let t := t.setF (chanReg d) Fld.creelChanSlotStack (Fld.creelChanSlotStack.get w)
      let t := t.setF (chanReg d) Fld.creelChanSlot (Fld.creelChanSlot.get w)
      t.masked 3 (srcOf (Reg.creelErr (c / 32))) c 0

/-- R492: every channel of stack `k` is in the list: its PHY has failed. -/
def phyFailed (failed : List Nat) (k : Nat) : Bool := (List.range 32).all fun i => failed.contains (32 * k + i)

/-- R492, R505: a stack whose PHY has failed is lost whole, with no channel replaced; of the others, spares that failed
leave the pool before channels that failed take from it. -/
def State.bootFailed (s : State) (failed : List Nat) : State :=
  let gone := (List.range 8).filter (phyFailed failed)
  let s := gone.foldl (fun (s : State) k =>
    ((List.range 32).foldl (fun (s : State) i => s.setChanState (32 * k + i) 4) s).stackGone k) s
  let rest := failed.filter fun c => !gone.contains (c / 32)
  let spares := rest.filter fun c => s.chanState c == 2
  (spares ++ rest.filter fun c => s.chanState c != 2).foldl (fun (s : State) c => s.bootDead c) s

/-- BOOT_HBM_DONE: the stacks have trained, but for the channels in `failed`. -/
def execBootHbmDone (failed : List ChanId) (s : State) : Out :=
  inPhase 2 (fun s => .next ((s.bootFailed (failed.map chNum)).setPhase 3)) s

/-! ## The image (R506, R507, R509) -/

/-- The ROM ends in FAILED. -/
def State.bootFail (s : State) (code : Nat) : State :=
  (s.setF Reg.identBootStat Fld.identBootStatCode code).setPhase 6

/-- R507: the field of an image of `k` bytes at offset `o`. -/
def imgField (im : List Byte) (o k : Nat) : Nat := ofLE (slice im o k)

/-- R509: the first check an image fails, by its CODE. -/
def imageFails (im : List Byte) : Option Nat :=
  let body := imgField im 16 4
  if !(imgField im 0 4 == 0x5442564B && imgField im 4 2 == 1 && imgField im 8 2 == 0x9012 && imgField im 10 1 == 0x20 &&
      body % 8 == 0 && Nat.ble body 8388352) then some 2
  else if Config.secure && !Config.ownerKeyOk (slice im 24 96) then some 3
  else if !Config.bootSigOk (slice im 24 96) (slice im 0 (256 + body)) (slice im (256 + body) 96) then some 4
  else if imgField im 11 1 < Config.secFloor % 256 then some 5
  else none

/-- R507: the scratch memory in which the ROM holds an image, from its first byte on: the greatest image fills it
(DEDUCED, log entry 51). -/
def imageBase : Nat := 0x41000000

/-- R505, R507, R512: an image that passes every check is held in scratch memory and begins to run, as image `n`. -/
def State.runImage (s : State) (im : List Byte) (n : Nat) : State :=
  let st := Reg.identBootStat
  let k := 256 + imgField im 16 4
  let s := s.setBytes imageBase (slice im 0 k)
  let s := { s with boot := { s.boot with recAt := imageBase + 256, bodyEnd := imageBase + k, waitFrom := none } }
  let s := ((s.setF st Fld.identBootStatVersion (imgField im 12 4)).setF st Fld.identBootStatImage n)
  (s.setF st Fld.identBootStatUnsecured (b2n (!Config.secure))).setPhase 4

/-- R510: the image the host offers; without the link, or without bus mastering, it reads as zeros. -/
def State.hostImage (s : State) : List Byte :=
  let a := s.fld Reg.identBootCmd Fld.identBootCmdAddr
  if !Config.busMaster s.now then List.replicate 352 0
  else
    let n := imgField (s.peek a 256) 16 4
    s.peek a (352 + min n 8388352)

/-- IMAGE_CHECK: the image at flash offset 0, then the one at half the flash's density; or the image the host
offers. -/
def execImageCheck (flash : List Byte) (s : State) : Out :=
  inPhase 3 (fun s =>
    if s.fld Reg.identBootStat Fld.identBootStatImage = 2 then
      match imageFails s.hostImage with
      | none => .next (s.runImage s.hostImage 2)
      | some c => .next (s.bootFail c)
    else if !s.boot.sfdp then .next (s.bootFail 1)
    else match imageFails flash with
      | none => .next (s.runImage flash 0)
      | some c =>
        let second := flash.drop (flash.length / 2)
        match imageFails second with
        | none => .next (s.runImage second 1)
        | some _ => .next (s.bootFail c)) s

/-- HOST_IMAGE_BOOT: a write of IDENT_BOOT_CMD. -/
def execHostImageBoot (v : Word) (s : State) : Out :=
  s.byWrite Reg.identBootCmd (.ok (s.bootCmdWrite v (BitVec.allOnes 64)))

/-! ## Records (R508) -/

/-- R508: the header of a record and its payload. -/
structure BootRec where
  typ : Nat
  len : Nat
  dst : Nat
  data : List Byte

/-- The `n` bytes of the body from `a`, as scratch memory holds them, cut at the body's end. -/
def State.bodyBytes (s : State) (a n : Nat) : List Byte := s.bytes a (min n (s.boot.bodyEnd - a))

/-- The record at the front of the body; past its end, one of kind 0 (DEDUCED, log entry 33). -/
def State.bootRec (s : State) : BootRec :=
  let a := s.boot.recAt
  let h := s.bodyBytes a 16
  { typ := ofLE (slice h 0 1), len := ofLE (slice h 4 4), dst := ofLE (slice h 8 8),
    data := s.bodyBytes (a + 16) (ofLE (slice h 4 4)) }

/-- The record at the front has run. -/
def State.bootNext (s : State) (r : BootRec) : State :=
  { s with boot := { s.boot with recAt := s.boot.recAt + 16 + (r.len + 7) / 8 * 8, waitFrom := none } }

/-- Runs the record at the front if its kind is `t`, and no patch is being switched to. -/
def bootRun (t : Nat) (f : BootRec → State → Out) (s : State) : Out :=
  inPhase 4 (fun s => if s.bootRec.typ = t ∧ s.host.switching.isNone then f s.bootRec s else .next s) s

/-- Aligned 64-bit stores of a payload, the last padded with zeros. -/
def State.bootStores (s : State) : Nat → Nat → List Byte → Except Fault State
  | 0, _, _ => .ok s
  | n + 1, a, bs => match s.busWrite .internal a (slice bs 0 8) with
    | .error e => .error e
    | .ok t => State.bootStores t n (a + 8) (bs.drop 8)

/-- BOOT_COPY. -/
def execBootCopy (s : State) : Out :=
  bootRun 1 (fun r s =>
    if inHost r.dst then .next s
    else match s.bootStores ((r.len + 7) / 8) r.dst r.data with
      | .error e => .fault e
      | .ok t => .next (t.bootNext r)) s

/-- R508: what a poll of a WAIT finds. -/
def State.waitMet (s : State) (r : BootRec) : Except Fault (Bool × State) :=
  match s.busRead .internal r.dst 8 with
  | .error e => .error e
  | .ok x => .ok (ofLE x.bytes &&& ofLE (slice r.data 0 8) == ofLE (slice r.data 8 8), x.st)

/-- BOOT_WAIT: polls once; a WAIT that is met has run. -/
def execBootWait (s : State) : Out :=
  bootRun 2 (fun r s => match s.waitMet r with
    | .error e => .fault e
    | .ok (true, t) => .next (t.bootNext r)
    | .ok (false, t) =>
      .next { t with boot := { t.boot with waitFrom := some (t.boot.waitFrom.getD t.now) } }) s

/-- BOOT_WAIT_TIMEOUT: the WAIT has polled for its time. -/
def execBootWaitTimeout (s : State) : Out :=
  bootRun 2 (fun r s => match s.boot.waitFrom with
    | none => .next s
    | some t => if t + 1000 * ofLE (slice r.data 16 4) ≤ s.now then .next (s.bootFail 7) else .next s) s

/-- BOOT_PATCH. -/
def execBootPatch (s : State) : Out :=
  bootRun 3 (fun r s => match s.patch r.data false [] with
    | .begun t => .next (t.bootNext r)
    | _ => .next (s.bootFail 8)) s

/-- BOOT_TASK: CREATE, words 0 to 2 of the table entry, START. -/
def execBootTask (s : State) : Out :=
  bootRun 4 (fun r s =>
    let k := ofLE (slice r.data 0 2) % 4096
    let s := s.taskCmdReg .create k 0
    match s.busWrite .internal (0x44000000 + 64 * k) (slice r.data 8 24) with
    | .error e => .fault e
    | .ok t => .next ((t.taskCmdReg .start k 0).bootNext r)) s

/-- BOOT_END. -/
def execBootEnd (s : State) : Out := bootRun 5 (fun _ s => .next (s.setPhase 5)) s

/-- BOOT_BAD_RECORD: a record of another kind, or a COPY to the host-memory window. -/
def execBootBadRecord (s : State) : Out :=
  inPhase 4 (fun s =>
    let r := s.bootRec
    if s.host.switching.isNone ∧ (r.typ = 0 ∨ 6 ≤ r.typ ∨ (r.typ = 1 ∧ inHost r.dst = true)) then .next (s.bootFail 6)
    else .next s) s

/-! ## The PCIe link (R491, R504, R511) -/

/-- R491: the link is up: the vectors held, and those of rings that hold entries, are sent once each. -/
def State.linkBack (s : State) : State :=
  let rings := ([1, 2, 3].filter fun n => s.ringUsed n != 0 && s.flag (Reg.ringCfg n) Fld.ringCfgMsiEn).map fun n =>
    s.fld (Reg.ringCfg n) Fld.ringCfgVec
  let vs := sortUniq (s.host.held ++ rings)
  let s := { s with boot := { s.boot with pcieUp := true }, host := { s.host with held := [] } }
  vs.foldl (fun (s : State) v => s.msi v) s

/-- PCIE_LINK_TRAIN: PERST_N rises and the link trains. -/
def execPcieLinkTrain (s : State) : Out :=
  if s.boot.powered ∧ !s.boot.inReset ∧ !s.boot.outside ∧ s.boot.pcieUp = false then
    .next ({ s with boot := { s.boot with perst := false } }.linkBack)
  else .next s

/-- PERST_ASSERT: PERST_N falls: a link loss. -/
def execPerstAssert (s : State) : Out :=
  .next { s with boot := { s.boot with perst := true, pcieUp := false } }

/-- PCIE_LINK_LOSS. -/
def execPcieLinkLoss (s : State) : Out := .next { s with boot := { s.boot with pcieUp := false } }

/-- PCIE_LINK_RETURN: a link that was lost while PERST_N stayed high is back. -/
def execPcieLinkReturn (s : State) : Out :=
  if s.boot.powered ∧ !s.boot.inReset ∧ !s.boot.outside ∧ s.boot.perst = false ∧ s.boot.pcieUp = false then
    .next s.linkBack
  else .next s

/-! ## SMBus (R527) -/

/-- The target answers from the moment VDD_IO is good. -/
def State.smbAnswer (s : State) (bs : List Byte) : State :=
  if s.boot.powered then { s with host := { s.host with smb := some bs } } else s

/-- SMB_READ_IDENT: command 0x00. -/
def execSmbReadIdent (s : State) : Out := .next (s.smbAnswer (toLE 8 (s.rd Reg.identPart).toNat))

/-- SMB_READ_TJ: command 0x01. -/
def execSmbReadTj (s : State) : Out := .next (s.smbAnswer (toLE 2 (s.fld Reg.tensionTemp Fld.tensionTempTj)))

/-- SMB_READ_HBM_TEMP: command 0x02: the greatest CREEL_STAT.TEMP; under reset that is 0. -/
def execSmbReadHbmTemp (s : State) : Out :=
  .next (s.smbAnswer (toLE 1 (((List.range 8).map fun k => Tbl.get (Tbl.const 0) s.creel.temp k).foldl max 0)))

/-- SMB_READ_BOOT_STAT: command 0x03. -/
def execSmbReadBootStat (s : State) : Out := .next (s.smbAnswer (toLE 2 (s.rd Reg.identBootStat).toNat))

/-- SMB_READ_THERMAL: command 0x04. -/
def execSmbReadThermal (s : State) : Out :=
  .next (s.smbAnswer [BitVec.ofNat 8 (b2n s.tension.braked + 2 * b2n s.tension.tripped)])

/-- SMB_NACK: a command byte that is no read of the table, or a write of data after any, is not acknowledged. -/
def execSmbNack (_cmd : BitVec 8) (s : State) : Out :=
  if s.boot.powered = true then .next { s with host := { s.host with smb := none } } else .next s

end Sys2Proof.Machine
end

