-- ==== Sys2Proof/Machine/Compare.lean ====
section
/-! DEFINITION. The background compare (R277). -/

namespace Sys2Proof.Machine

/-- R277: two 16-byte units of the image at offset `o` agree. -/
def unitsAgree (skipDyn : Bool) (o : Nat) (x y : List Byte) : Bool :=
  if o < 0x200000 then
    let w (l : List Byte) : Nat := ofLE (slice l 8 8)
    let keep (n : Nat) : Nat := bitsOf n 18 0 + bitsOf n 31 24 * 2 ^ 24
    let dyn (l : List Byte) : Bool := bitsOf (w l) 17 17 == 0
    (skipDyn && dyn x && dyn y) || (slice x 0 8 == slice y 0 8 && keep (w x) == keep (w y))
  else x == y

/-- R10, R256: 16 bytes of the shadow at `a`; none where nothing lies, or where a register does, which is read in
accesses of 32 or 64 bits only (R11). -/
def State.shadow (s : State) (a : Nat) : Except Fault (List Byte) :=
  match regionOf a with
  | .reg => .error (.undefinedBehaviour 3)
  | .die => if s.inFreed a 16 then .error (.undefinedBehaviour 39) else .ok (s.dieBytes a 16)
  | .hbm | .host => .ok (s.peek a 16)
  | .none => .error (.undefinedBehaviour 2)

/-- R277: offsets of the units that differ, of `n` from offset `o`. -/
def State.compareFrom (s : State) (src : Nat) (skipDyn : Bool) : Nat → Nat → Except Fault (List Nat)
  | 0, _ => .ok []
  | n + 1, o =>
    match s.shadow src with
    | .error e => .error e
    | .ok x =>
      let y := if o < 0x1000000 then s.bytes (0x20000000 + o) 16 else List.replicate 16 0
      match State.compareFrom s (src + 16) skipDyn n (o + 16) with
      | .error e => .error e
      | .ok rest => .ok (if unitsAgree skipDyn o x y then rest else o :: rest)

/-- COMPARE_DONE: the compare ends; it waits for a channel that holds its shadow back (R360). -/
def execCompareDone (s : State) : Out := unlessHalted s <|
  if !s.flag Reg.learnCmpCtl Fld.learnCmpCtlBusy then .next s
  else
    let src := s.fld Reg.learnCmpSrc Fld.learnCmpSrcSrc
    let n := s.fld Reg.learnCmpLen Fld.learnCmpLenLen / 16
    match s.accessHeld src (16 * n) with
    | some a => .next (s.hbmWake a)
    | none =>
    match s.compareFrom src (s.flag Reg.learnCmpCtl Fld.learnCmpCtlSkipDyn) n (s.fld Reg.learnCmpDst Fld.learnCmpDstOffset) with
    | .error e => .fault e
    | .ok l =>
      let s := (s.peeked src (16 * n)).setF Reg.learnCmpCtl Fld.learnCmpCtlBusy 0
      .next (s.wr Reg.learnCmpStat
        (Fld.learnCmpStatFirst.put (Fld.learnCmpStatMismatch.put 0 l.length) (l.head?.getD 0)))

end Sys2Proof.Machine
end

