-- ==== Sys2Proof/Machine/Patrol.lean ====
section
/-! DEFINITION. The store patrol (R488, R489): covered words, and the working stores held once (codes 5, 14 and 15). -/

namespace Sys2Proof.Machine

/-! ## The flow cache and the indexes (codes 5 and 15) -/

/-- The line of the record whose second line (R147) is line `l`. -/
def State.firstOf (s : State) (l : Nat) : Option Nat :=
  (s.warp.cache.find? fun e => match e.2 with
    | some c => c.second == some l
    | none => false).map (·.1)

/-- R488, code 5: line `l` of the flow cache is uncorrectable: its record is lost. A line that picks hold stays theirs,
detached, and what it holds is a free value (DESIGN CHOICE, log entry 110). -/
def State.loseLine (s : State) (l : Nat) : State :=
  match s.line l with
  | none => s
  | some c =>
    if c.reserved || c.detached then s
    else
      let s := s.loseRec c.rno
      if c.pins = 0 ∧ c.recPins = 0 then s.freeLine l
      else
        let d := s.draw
        d.2.setLine l (some { c with detached := true, dirty := false, head := BitVec.ofNat 512 d.1 })

/-- The newest copy of record `r`'s head: in its line, in the victim buffer, or in HBM. -/
def State.newestHead (s : State) (r : Nat) : Head :=
  match s.warp.cache.findSome? (fun e => match e.2 with
      | some c => if !c.reserved && !c.detached && !c.isSecond && c.rno == r then some c.head else none
      | none => none) with
  | some h => h
  | none =>
    match s.warp.victims.findSome? (fun e => (e.2.find? fun v => v.rno == r).map fun v => v.head) with
    | some h => h
    | none => BitVec.ofNat 512 (s.le (s.headAddr r) 64)

/-- R488, code 15: the index entry of record `r` is uncorrectable: `rebuilt` is what the record's head gives. If that
read also fails, the record is lost. -/
def State.rebuildIndex (s : State) (r : Nat) (rebuilt : Head → State) : State :=
  if s.hbmUnc (s.headAddr r) || !s.recUsable r then (s.uncRead (s.headAddr r)).loseRec r
  else (rebuilt (s.newestHead r)).masked 15 32 r 0

/-- The table whose records include `r`. -/
def State.tableOf (s : State) (r : Nat) : Nat :=
  if s.firstRec 1 ≤ r ∧ r < s.firstRec 1 + 8 * s.nbOf 1 then 1 else 0

/-- Code 15, the tag index: the entry of record `r`. -/
def State.rebuildTag (s : State) (r : Nat) : State :=
  s.rebuildIndex r fun h => s.setTag r (if headValid h then (s.bucketTag (s.tableOf r) (headSeal h)).2 else 0)

/-- Code 15, the overflow index: entry `i`. -/
def State.rebuildOvf (s : State) (i : Nat) : State :=
  s.rebuildIndex (s.ovfFirst + i) fun h => s.setOvf i (if headValid h then some (headSeal h) else none)

/-! ## The Spindle's memories (code 14) -/

/-- The outstanding handle whose units hold a word of the punt buffer. -/
def State.handleAt (s : State) (a : Nat) : Option Word :=
  let u := (a - puntBase) / 256
  (s.spin.out.find? fun (e : Handle) => handleUnit e.h ≤ u && u < handleUnit e.h + handleUnits e.h).map fun e => e.h

/-- R488, code 14: the punted copy of an outstanding handle is dropped. A handle still in its queue leaves it with its
units; one that a thread has taken stays outstanding, and its frame is injected no more (DESIGN CHOICE, log entry
110). -/
def State.dropPunted (s : State) (h : Word) : State :=
  let q := s.fld (Reg.spinPunt (handleReason h)) Fld.spinPuntQueue
  let s := s.puntDropped (handleReason h)
  if (s.squeue q).entries.any fun e => e.1 == h then
    (s.setSqueue q { s.squeue q with entries := (s.squeue q).entries.filter fun e => e.1 != h }).releaseHandle h true
  else { s with spin := { s.spin with lostCopies := s.spin.lostCopies ++ [h] } }

/-- R488: the word at `a` is a scratch, punt buffer or register image word. -/
def inSpinMem (a : Nat) : Bool :=
  (0x41000000 ≤ a && a < 0x41800000) || (0x42000000 ≤ a && a < 0x44000000) || (0x44400000 ≤ a && a < 0x44500000)

/-- R488, code 14: the word at `a` is uncorrectable: LD returns 0. A register image is that of a task whose registers
no core holds. -/
def State.loseSpinWord (s : State) (a : Nat) : State :=
  let s := if 0x44400000 ≤ a then
      let k := (a - 0x44400000) / 256
      if (s.task k).st = .running then s
      else s.updTask k fun t => { t with g := vupd (fun _ => 0) (a % 256 / 8) t.g }
    else s.setLe a 8 0
  let s := if 0x42000000 ≤ a ∧ a < 0x44000000 then
      match s.handleAt a with
      | some h => s.dropPunted h
      | none => s
    else s
  s.masked 14 2 (a % 2 ^ 32) 1

/-- R488, code 14: entry `i` of queue `q`, counted from the oldest, is uncorrectable: it reads 0. The record's unit is a
free value, since the spec gives queue memory no DAS address (DESIGN CHOICE, log entry 110). -/
def State.loseQueueEntry (s : State) (q i : Nat) : State :=
  let x := s.squeue q
  let d := s.draw
  (d.2.setSqueue q { x with entries := x.entries.set i (0, none) }).masked 14 2 (d.1 % 2 ^ 32) 1

/-! ## The command -/

/-- R489: what the patrol of a word at a DAS address does where it finds it bad. -/
def State.patrolBad (s : State) (w : Nat) (r : ArrayFault) : State :=
  match patrolled w with
  | some (u, i, loom) =>
    let unit := u * 2 ^ 24 + i % 2 ^ 24
    if r = .oneBad ∨ loom = true then s.masked 12 7 unit 0
    else ((s.loseWord w).setF Reg.digestFault Fld.digestFaultStoreLost 1).masked 13 7 unit 1
  | none => if inSpinMem w then s.loseSpinWord w else s

/-- STORE_PATROL: the patrol reads a word, and finds it bad in one array, in both, or in none. A word held once is
uncorrectable where it is bad. -/
def execStorePatrol (w : StoreWord) (r : ArrayFault) (s : State) : Out := unlessHalted s <|
  if r = .clean then .next s
  else .next (match w with
    | .das a => s.patrolBad (a.toNat / 8 * 8) r
    | .cacheLine l => s.loseLine ((s.firstOf l.val).getD l.val)
    | .tagEntry e => s.rebuildTag e.toNat
    | .ovfEntry i => s.rebuildOvf i.val
    | .queueEntry q i => if i.val < (s.squeue q.val).entries.length then s.loseQueueEntry q.val i.val else s)

end Sys2Proof.Machine
end

