-- ==== Sys2Proof/Machine/Window.lean ====
section
/-! DEFINITION. Window accesses, branches on predicates, time stamps and pool counts (R42 to R44, R53,
R55, R62, R473). -/

namespace Sys2Proof.Machine

/-! ## LD.W and ST.W -/

/-- R44: the head in the fr window, 0 while the pick holds none. -/
def State.frWindow (s : State) (x : Pkt) : Nat :=
  match x.pick.held with
  | none => 0
  | some h =>
    match s.line h.line with
    | some c => c.head.toNat
    | none => 0

/-- R53: a zero-extended window access: `n` bytes from byte `o`; bytes past 63 read 0. -/
def windowRead (win o n : Nat) : Word := BitVec.ofNat 64 ((win >>> (8 * o)) % 2 ^ (8 * n))

/-- LD.W; drafts only (R37). -/
def execLdW (c : Ctx) (w : IWord) (s : State) : Out :=
  match c with
  | .task k => taskIllegal k.val s
  | .pick p => runPick p 0x04 (fun x s =>
      let win := if w.val.getLsbD 8 then s.frWindow x else x.md
      let d := windowRead win (bitsOf w.val.toNat 5 0) (widthOf (w.fn.toNat % 4))
      .done (s.setPkt p (some (x.write w.dest d))) 0) s

/-- R43: a store in the USER words. -/
def Pkt.storeUser (x : Pkt) (o n : Nat) (v : Word) : Pkt :=
  let u := ofLE (patch (toLE 32 x.user.toNat) (o - 32) (toLE n v.toNat))
  { x with
    user := BitVec.ofNat 256 u
    pick := { x.pick with
      editSet := x.pick.editSet || decide (56 < o + n)
      timeSet := x.pick.timeSet || (decide (o ≤ 55) && decide (55 < o + n)) } }

/-- ST.W; drafts only (R37). -/
def execStW (c : Ctx) (w : IWord) (s : State) : Out :=
  match c with
  | .task k => taskIllegal k.val s
  | .pick p => runPick p 0x05 (fun x s =>
      let o := bitsOf w.val.toNat 5 0
      let n := widthOf (w.fn.toNat % 4)
      let y := if !w.val.getLsbD 8 ∧ 32 ≤ o ∧ o + n ≤ 64
        then (x.storeUser o n (x.read w.src2)).setSt (stWord stOk)
        else x.setSt (stWord stRefused)
      .done (s.setPkt p (some y)) 0) s

/-- BRP; drafts only (R37). -/
def execBrp (c : Ctx) (w : IWord) (s : State) : Out :=
  match c with
  | .task k => taskIllegal k.val s
  | .pick p => runPick p 0x11 (fun x s =>
      if x.pick.p.getLsbD (w.fn.toNat % 8) != w.fn.getLsbD 3 then .jump s w.disp else .done s 0) s

/-! ## TSTAMP -/

/-- TSTAMP in a pick. -/
def tstampPick (w : IWord) (x : Pkt) (s : State) : Pkt :=
  let d := w.fn.toNat % 8
  let absent := (x.write w.dest 0).setSt (stWord stAbsent)
  if !s.pickDomOn x.pick.seq d then absent
  else
    match w.val.toNat % 4 with
    | 0 => (x.write w.dest (s.pickTimeWord x.pick.seq d)).setSt (stWord stOk)
    | 1 =>
      match x.stamps.getD d none with
      | some t => (x.write w.dest (timeWord t.time)).setSt (stWord stOk)
      | none => absent
    | 2 =>
      let id := bitsOf (x.read w.src1).toNat 15 0
      let y := { x with pick := { x.pick with
        stampReq := (x.pick.stampReq.filter fun (r : Nat × Nat) => r.1 != d) ++ [(d, id)] } }
      y.setSt (stWord stOk)
    | _ => absent

/-- TSTAMP in a control thread. -/
def tstampTask (w : IWord) (t : Task) (s : State) : Task :=
  let d := w.fn.toNat % 8
  if s.domOn d ∧ w.val.toNat % 4 = 0 then { t.write w.dest (s.timeWordOf d) with stReg := stWord stOk }
  else { t.write w.dest 0 with stReg := stWord stAbsent }

/-- TSTAMP. -/
def execTstamp (c : Ctx) (w : IWord) (s : State) : Out :=
  match c with
  | .pick p => runPick p 0x80 (fun x s => .done (s.setPkt p (some (tstampPick w x s))) 0) s
  | .task k => runTask k.val 0x80 w (fun t s => .done (s.setTask k.val (tstampTask w t s))) s

/-! ## CNT (R473, R474) -/

/-- R473: the entry a CNT counts into. -/
def poolEntry (pool idx : Word) : Option Nat :=
  let base := Fld.glassPoolBase.get pool
  if idx.toNat < Fld.glassPoolSize.get pool ∧ base + idx.toNat ≤ 65535 then some (base + idx.toNat) else none

/-- R62, R474: adds to the packets and bytes of an entry. -/
def State.countPool (s : State) (e : Nat) (packets : Nat) (bytes : Word) : State :=
  (s.count (0x200000 + 16 * e) packets).count (0x200000 + 16 * e + 8) bytes.toNat

/-- CNT. -/
def execCnt (c : Ctx) (w : IWord) (s : State) : Out :=
  let pool := Reg.glassPool (w.fn.toNat % 16)
  let n := bitsOf w.val.toNat 15 0
  match c with
  | .pick p => runPick p 0x81 (fun x s =>
      match poolEntry (s.preg x.pick.seq pool) (x.read w.src1) with
      | none => .done (s.setPkt p (some (x.setSt (stWord stAbsent)))) 0
      | some e => .done ((s.setPkt p (some (x.setSt (stWord stOk)))).countPool e n (x.read w.src2)) 0) s
  | .task k => runTask k.val 0x81 w (fun t s =>
      match poolEntry (s.rd pool) (t.read w.src1) with
      | none => .done (s.setTask k.val { t with stReg := stWord stAbsent })
      | some e => .done ((s.setTask k.val { t with stReg := stWord stOk }).countPool e n (t.read w.src2))) s

end Sys2Proof.Machine
end

