-- ==== Sys2Proof/Machine/Dispatch.lean ====
section
/-! DEFINITION. The effect of every command on everything but the queue. -/

namespace Sys2Proof.Machine

/-- One command. -/
def exec (i : Instr) (s : State) : Host.Outcome State Fault Refusal :=
  match i with
  | .powerOn => Sys2Proof.Machine.execPowerOn s
  | .powerOff => Sys2Proof.Machine.execPowerOff s
  | .resetAssert => Sys2Proof.Machine.execResetAssert s
  | .resetRelease => Sys2Proof.Machine.execResetRelease s
  | .bootInitDone sfdp => Sys2Proof.Machine.execBootInitDone sfdp s
  | .bootLinksDone => Sys2Proof.Machine.execBootLinksDone s
  | .bootHbmDone failed => Sys2Proof.Machine.execBootHbmDone failed s
  | .imageCheck flash => Sys2Proof.Machine.execImageCheck flash s
  | .bootCopy => Sys2Proof.Machine.execBootCopy s
  | .bootWait => Sys2Proof.Machine.execBootWait s
  | .bootWaitTimeout => Sys2Proof.Machine.execBootWaitTimeout s
  | .bootPatch => Sys2Proof.Machine.execBootPatch s
  | .bootTask => Sys2Proof.Machine.execBootTask s
  | .bootEnd => Sys2Proof.Machine.execBootEnd s
  | .bootBadRecord => Sys2Proof.Machine.execBootBadRecord s
  | .hostImageBoot v => Sys2Proof.Machine.execHostImageBoot v s
  | .pcieLinkTrain => Sys2Proof.Machine.execPcieLinkTrain s
  | .perstAssert => Sys2Proof.Machine.execPerstAssert s
  | .pcieLinkLoss => Sys2Proof.Machine.execPcieLinkLoss s
  | .pcieLinkReturn => Sys2Proof.Machine.execPcieLinkReturn s
  | .registerWrite m a wd v => Sys2Proof.Machine.execRegisterWrite m a wd v s
  | .nop c w => Sys2Proof.Machine.execNop c w s
  | .illegalOp c => Sys2Proof.Machine.execIllegalOp c s
  | .ld c w => Sys2Proof.Machine.execLd c w s
  | .st c w => Sys2Proof.Machine.execSt c w s
  | .sts c w => Sys2Proof.Machine.execSts c w s
  | .batten c w => Sys2Proof.Machine.execBatten c w s
  | .ldW c w => Sys2Proof.Machine.execLdW c w s
  | .stW c w => Sys2Proof.Machine.execStW c w s
  | .ldT c w => Sys2Proof.Machine.execLdT c w s
  | .br c w => Sys2Proof.Machine.execBr c w s
  | .brp c w => Sys2Proof.Machine.execBrp c w s
  | .loop c w => Sys2Proof.Machine.execLoop c w s
  | .add c w => Sys2Proof.Machine.execAdd c w s
  | .addImm c w => Sys2Proof.Machine.execAddImm c w s
  | .sub c w => Sys2Proof.Machine.execSub c w s
  | .subImm c w => Sys2Proof.Machine.execSubImm c w s
  | .and c w => Sys2Proof.Machine.execAnd c w s
  | .andImm c w => Sys2Proof.Machine.execAndImm c w s
  | .or c w => Sys2Proof.Machine.execOr c w s
  | .orImm c w => Sys2Proof.Machine.execOrImm c w s
  | .xor c w => Sys2Proof.Machine.execXor c w s
  | .xorImm c w => Sys2Proof.Machine.execXorImm c w s
  | .shl c w => Sys2Proof.Machine.execShl c w s
  | .shlImm c w => Sys2Proof.Machine.execShlImm c w s
  | .shr c w => Sys2Proof.Machine.execShr c w s
  | .shrImm c w => Sys2Proof.Machine.execShrImm c w s
  | .sar c w => Sys2Proof.Machine.execSar c w s
  | .sarImm c w => Sys2Proof.Machine.execSarImm c w s
  | .min c w => Sys2Proof.Machine.execMin c w s
  | .minImm c w => Sys2Proof.Machine.execMinImm c w s
  | .max c w => Sys2Proof.Machine.execMax c w s
  | .maxImm c w => Sys2Proof.Machine.execMaxImm c w s
  | .cmp c w => Sys2Proof.Machine.execCmp c w s
  | .cmpImm c w => Sys2Proof.Machine.execCmpImm c w s
  | .mul c w => Sys2Proof.Machine.execMul c w s
  | .mulImm c w => Sys2Proof.Machine.execMulImm c w s
  | .mulh c w => Sys2Proof.Machine.execMulh c w s
  | .movi c w => Sys2Proof.Machine.execMovi c w s
  | .ext c w => Sys2Proof.Machine.execExt c w s
  | .ins c w => Sys2Proof.Machine.execIns c w s
  | .sel c w => Sys2Proof.Machine.execSel c w s
  | .hash c w => Sys2Proof.Machine.execHash c w s
  | .flook c w => Sys2Proof.Machine.execFlook c w s
  | .flowHeadFill p errs => Sys2Proof.Machine.execFlowHeadFill p errs s
  | .fcreate c w => Sys2Proof.Machine.execFcreate c w s
  | .fupd c w => Sys2Proof.Machine.execFupd c w s
  | .ffold c w => Sys2Proof.Machine.execFfold c w s
  | .fdelidle c w => Sys2Proof.Machine.execFdelidle c w s
  | .victimRelease b n => Sys2Proof.Machine.execVictimRelease b n s
  | .rsearch c w => Sys2Proof.Machine.execRsearch c w s
  | .rnext c w => Sys2Proof.Machine.execRnext c w s
  | .tscan c w => Sys2Proof.Machine.execTscan c w s
  | .fwd c w => Sys2Proof.Machine.execFwd c w s
  | .mcast c w => Sys2Proof.Machine.execMcast c w s
  | .drop c w => Sys2Proof.Machine.execDrop c w s
  | .punt c w => Sys2Proof.Machine.execPunt c w s
  | .recirc c w => Sys2Proof.Machine.execRecirc c w s
  | .tstamp c w => Sys2Proof.Machine.execTstamp c w s
  | .cnt c w => Sys2Proof.Machine.execCnt c w s
  | .lock c w => Sys2Proof.Machine.execLock c w s
  | .unlock c w => Sys2Proof.Machine.execUnlock c w s
  | .waitev c w => Sys2Proof.Machine.execWaitev c w s
  | .waitevTimeout k => Sys2Proof.Machine.execWaitevTimeout k s
  | .signal c w => Sys2Proof.Machine.execSignal c w s
  | .yield c w => Sys2Proof.Machine.execYield c w s
  | .qput c w => Sys2Proof.Machine.execQput c w s
  | .qget c w => Sys2Proof.Machine.execQget c w s
  | .dma c w => Sys2Proof.Machine.execDma c w s
  | .dmaComplete core unc => Sys2Proof.Machine.execDmaComplete core unc s
  | .frameReceive p frame => Sys2Proof.Machine.execFrameReceive p frame s
  | .fcsError p => Sys2Proof.Machine.execFcsError p s
  | .pfcPauseExpire p cl => Sys2Proof.Machine.execPfcPauseExpire p cl s
  | .heddleParse p => Sys2Proof.Machine.execHeddleParse p s
  | .pickStart p => Sys2Proof.Machine.execPickStart p s
  | .pickBudgetExceeded p => Sys2Proof.Machine.execPickBudgetExceeded p s
  | .recircReturn r => Sys2Proof.Machine.execRecircReturn r s
  | .beamAdmit p => Sys2Proof.Machine.execBeamAdmit p s
  | .residueAdmit q => Sys2Proof.Machine.execResidueAdmit q s
  | .egressCall p => Sys2Proof.Machine.execEgressCall p s
  | .grantPeriod => Sys2Proof.Machine.execGrantPeriod s
  | .transmitFrame p errs => Sys2Proof.Machine.execTransmitFrame p errs s
  | .transmitComplete p => Sys2Proof.Machine.execTransmitComplete p s
  | .pfcFrameSend p => Sys2Proof.Machine.execPfcFrameSend p s
  | .pfcRefresh p => Sys2Proof.Machine.execPfcRefresh p s
  | .queueFlush v => Sys2Proof.Machine.execQueueFlush v s
  | .queueFlushDone => Sys2Proof.Machine.execQueueFlushDone s
  | .hostStageAppend v => Sys2Proof.Machine.execHostStageAppend v s
  | .hostBatten v => Sys2Proof.Machine.execHostBatten v s
  | .battenSlotOpen => Sys2Proof.Machine.execBattenSlotOpen s
  | .battenApply => Sys2Proof.Machine.execBattenApply s
  | .bankRetire => Sys2Proof.Machine.execBankRetire s
  | .cacheSweep line => Sys2Proof.Machine.execCacheSweep line s
  | .tableSweep rec => Sys2Proof.Machine.execTableSweep rec s
  | .rehashStart v => Sys2Proof.Machine.execRehashStart v s
  | .migrateBucket => Sys2Proof.Machine.execMigrateBucket s
  | .rehashRetry => Sys2Proof.Machine.execRehashRetry s
  | .migrateOverflow idx => Sys2Proof.Machine.execMigrateOverflow idx s
  | .warpInitTbl0 => Sys2Proof.Machine.execWarpInitTbl0 s
  | .warpInitTbl1 => Sys2Proof.Machine.execWarpInitTbl1 s
  | .warpInitOvf => Sys2Proof.Machine.execWarpInitOvf s
  | .warpInitDone => Sys2Proof.Machine.execWarpInitDone s
  | .warpDisable v => Sys2Proof.Machine.execWarpDisable v s
  | .warpDisableDone => Sys2Proof.Machine.execWarpDisableDone s
  | .cacheFlush v => Sys2Proof.Machine.execCacheFlush v s
  | .cacheFlushDone => Sys2Proof.Machine.execCacheFlushDone s
  | .coherentRead v => Sys2Proof.Machine.execCoherentRead v s
  | .coherentReadDone => Sys2Proof.Machine.execCoherentReadDone s
  | .reedBankPowerUp b v => Sys2Proof.Machine.execReedBankPowerUp b v s
  | .reedPowerAck b bad => Sys2Proof.Machine.execReedPowerAck b bad s
  | .reedSearch q m => Sys2Proof.Machine.execReedSearch q m s
  | .reedScrub idx fault => Sys2Proof.Machine.execReedScrub idx fault s
  | .reedBankSlot b => Sys2Proof.Machine.execReedBankSlot b s
  | .twillScan e => Sys2Proof.Machine.execTwillScan e s
  | .learnEvent => Sys2Proof.Machine.execLearnEvent s
  | .pinRelease e => Sys2Proof.Machine.execPinRelease e s
  | .ageCmd v => Sys2Proof.Machine.execAgeCmd v s
  | .compareStart v => Sys2Proof.Machine.execCompareStart v s
  | .compareDone => Sys2Proof.Machine.execCompareDone s
  | .indexBuild t v => Sys2Proof.Machine.execIndexBuild t v s
  | .indexBuildDone t => Sys2Proof.Machine.execIndexBuildDone t s
  | .portConfigWrite p v => Sys2Proof.Machine.execPortConfigWrite p v s
  | .linkUp p => Sys2Proof.Machine.execLinkUp p s
  | .linkTrainFail p lanes => Sys2Proof.Machine.execLinkTrainFail p lanes s
  | .trainRetry p => Sys2Proof.Machine.execTrainRetry p s
  | .retrain t v => Sys2Proof.Machine.execRetrain t v s
  | .linkDown p => Sys2Proof.Machine.execLinkDown p s
  | .lpiEnter p => Sys2Proof.Machine.execLpiEnter p s
  | .lpiWakeDone p => Sys2Proof.Machine.execLpiWakeDone p s
  | .refclkLoss t => Sys2Proof.Machine.execRefclkLoss t s
  | .wireFail l g lanes chans => Sys2Proof.Machine.execWireFail l g lanes chans s
  | .treadleSlot ch r => Sys2Proof.Machine.execTreadleSlot ch r s
  | .refreshDue ch r => Sys2Proof.Machine.execRefreshDue ch r s
  | .refreshDeadline ch b => Sys2Proof.Machine.execRefreshDeadline ch b s
  | .channelRest ch => Sys2Proof.Machine.execChannelRest ch s
  | .restExit ch => Sys2Proof.Machine.execRestExit ch s
  | .parityAlert r => Sys2Proof.Machine.execParityAlert r s
  | .retrainSearchStart ch => Sys2Proof.Machine.execRetrainSearchStart ch s
  | .retrainSearchDone ch r => Sys2Proof.Machine.execRetrainSearchDone ch r s
  | .spareTrained stk ok => Sys2Proof.Machine.execSpareTrained stk ok s
  | .retireCopyGranule stk lost => Sys2Proof.Machine.execRetireCopyGranule stk lost s
  | .creelSearchCmd stk v => Sys2Proof.Machine.execCreelSearchCmd stk v s
  | .creelRetireCmd stk v => Sys2Proof.Machine.execCreelRetireCmd stk v s
  | .creelReleaseCmd stk v => Sys2Proof.Machine.execCreelReleaseCmd stk v s
  | .patrolScrub line r => Sys2Proof.Machine.execPatrolScrub line r s
  | .stackLoss stk => Sys2Proof.Machine.execStackLoss stk s
  | .domainEnable d v => Sys2Proof.Machine.execDomainEnable d v s
  | .domainSet d v => Sys2Proof.Machine.execDomainSet d v s
  | .domainStep d v => Sys2Proof.Machine.execDomainStep d v s
  | .freqAdjWrite d v => Sys2Proof.Machine.execFreqAdjWrite d v s
  | .timeSnap v => Sys2Proof.Machine.execTimeSnap v s
  | .txqRead d => Sys2Proof.Machine.execTxqRead d s
  | .pulseArm j v => Sys2Proof.Machine.execPulseArm j v s
  | .pulseEdge j => Sys2Proof.Machine.execPulseEdge j s
  | .pulseWidthEnd j => Sys2Proof.Machine.execPulseWidthEnd j s
  | .captureEdge idx falling => Sys2Proof.Machine.execCaptureEdge idx falling s
  | .captureRead idx => Sys2Proof.Machine.execCaptureRead idx s
  | .captureLos idx => Sys2Proof.Machine.execCaptureLos idx s
  | .holdoverTick => Sys2Proof.Machine.execHoldoverTick s
  | .refDisqualify r => Sys2Proof.Machine.execRefDisqualify r s
  | .refRequalify r => Sys2Proof.Machine.execRefRequalify r s
  | .dpllLock => Sys2Proof.Machine.execDpllLock s
  | .senseConvert idx code => Sys2Proof.Machine.execSenseConvert idx code s
  | .learnerSecond => Sys2Proof.Machine.execLearnerSecond s
  | .learnerSample => Sys2Proof.Machine.execLearnerSample s
  | .learnerReset v => Sys2Proof.Machine.execLearnerReset v s
  | .taskCreate k => Sys2Proof.Machine.execTaskCreate k s
  | .taskStart k => Sys2Proof.Machine.execTaskStart k s
  | .taskCancel k => Sys2Proof.Machine.execTaskCancel k s
  | .taskDelete k => Sys2Proof.Machine.execTaskDelete k s
  | .taskSignal k mask => Sys2Proof.Machine.execTaskSignal k mask s
  | .schedRound => Sys2Proof.Machine.execSchedRound s
  | .sliceExpire k => Sys2Proof.Machine.execSliceExpire k s
  | .taskRelease k => Sys2Proof.Machine.execTaskRelease k s
  | .deadlineMiss k => Sys2Proof.Machine.execDeadlineMiss k s
  | .puntTake r => Sys2Proof.Machine.execPuntTake r s
  | .injectTake => Sys2Proof.Machine.execInjectTake s
  | .injectReleaseHeld r => Sys2Proof.Machine.execInjectReleaseHeld r s
  | .releaseTimeout h => Sys2Proof.Machine.execReleaseTimeout h s
  | .cmdNop => Sys2Proof.Machine.execCmdNop s
  | .cmdCopy => Sys2Proof.Machine.execCmdCopy s
  | .cmdTask => Sys2Proof.Machine.execCmdTask s
  | .cmdQput => Sys2Proof.Machine.execCmdQput s
  | .cmdInject => Sys2Proof.Machine.execCmdInject s
  | .cmdPatch => Sys2Proof.Machine.execCmdPatch s
  | .cmdBad => Sys2Proof.Machine.execCmdBad s
  | .patchSwitchDone => Sys2Proof.Machine.execPatchSwitchDone s
  | .eventBacklogDrain n => Sys2Proof.Machine.execEventBacklogDrain n s
  | .msiModeration n => Sys2Proof.Machine.execMsiModeration n s
  | .msiSend v => Sys2Proof.Machine.execMsiSend v s
  | .jacqFloorWrite v => Sys2Proof.Machine.execJacqFloorWrite v s
  | .spindleRestart v => Sys2Proof.Machine.execSpindleRestart v s
  | .spindleRestartDone => Sys2Proof.Machine.execSpindleRestartDone s
  | .rateWindow r => Sys2Proof.Machine.execRateWindow r s
  | .avsStart v => Sys2Proof.Machine.execAvsStart v s
  | .avsRead mv ma ok => Sys2Proof.Machine.execAvsRead mv ma ok s
  | .avsRetry ok => Sys2Proof.Machine.execAvsRetry ok s
  | .tjSample tj r => Sys2Proof.Machine.execTjSample tj r s
  | .loomGate n v => Sys2Proof.Machine.execLoomGate n v s
  | .loomGated n => Sys2Proof.Machine.execLoomGated n s
  | .loomActive n => Sys2Proof.Machine.execLoomActive n s
  | .glassSnapshot v => Sys2Proof.Machine.execGlassSnapshot v s
  | .glassSnapshotDone => Sys2Proof.Machine.execGlassSnapshotDone s
  | .counterWrite a v => Sys2Proof.Machine.execCounterWrite a v s
  | .sampleTake n => Sys2Proof.Machine.execSampleTake n s
  | .bwWindowEnd => Sys2Proof.Machine.execBwWindowEnd s
  | .bwClearPeak => Sys2Proof.Machine.execBwClearPeak s
  | .storePatrol a r => Sys2Proof.Machine.execStorePatrol a r s
  | .digestSnapshot v => Sys2Proof.Machine.execDigestSnapshot v s
  | .digestHiRead a => Sys2Proof.Machine.execDigestHiRead a s
  | .digestScan v => Sys2Proof.Machine.execDigestScan v s
  | .digestScanDone unread => Sys2Proof.Machine.execDigestScanDone unread s
  | .smbReadIdent => Sys2Proof.Machine.execSmbReadIdent s
  | .smbReadTj => Sys2Proof.Machine.execSmbReadTj s
  | .smbReadHbmTemp => Sys2Proof.Machine.execSmbReadHbmTemp s
  | .smbReadBootStat => Sys2Proof.Machine.execSmbReadBootStat s
  | .smbReadThermal => Sys2Proof.Machine.execSmbReadThermal s
  | .smbNack cmd => Sys2Proof.Machine.execSmbNack cmd s
  | .alignmentLockLoss p => Sys2Proof.Machine.execAlignmentLockLoss p s
  | .alignmentLockGain p => Sys2Proof.Machine.execAlignmentLockGain p s
  | .partnerLpiSignal p on => Sys2Proof.Machine.execPartnerLpiSignal p on s
  | .refclkReturn t => Sys2Proof.Machine.execRefclkReturn t s
  | .clockInterruption => Sys2Proof.Machine.execClockInterruption s

end Sys2Proof.Machine
end

