-- ==== Sys2Proof/Machine/Tick.lean ====
section
/-! DEFINITION. The passage of one nanosecond, which a step on an empty queue stands for. -/

namespace Sys2Proof.Machine

/-- R376: what domain `d` gains in a nanosecond, in units of 2^-48 ns. -/
def State.domRate (s : State) (d : Nat) : Nat :=
  let f := 2 ^ 48 + s.sfld (Reg.timeDomFreq d) Fld.timeDomFreqFreqAdj
  let src : Int := if s.flag (Reg.timeDomCtl d) Fld.timeDomCtlSource then
      2 ^ 48 + s.sfld Reg.dpllStat Fld.dpllStatFreq else 2 ^ 48
  (src * f / 2 ^ 48).toNat

/-- R375, R416: a nanosecond of domain `d`. -/
def State.domTick (s : State) (d : Nat) : State :=
  let r := s.domRate d
  let on := s.domOn d
  s.updDom d fun x => { x with
    time := if on then (x.time + r) % timeRange else x.time
    elapsed := x.elapsed + (if on then r else nsUnit)
    acc := x.acc + s.sfld (Reg.timeDomFreq d) Fld.timeDomFreqFreqAdj }

/-- R393: the most a transmit frequency moves in a nanosecond: 1 ppm/s. -/
def slewLimit : Int := 281474976

/-- R393: the offset from SD_REFCLK that the transmit synthesizers of tile `t` are to have: they follow the DPLL's
frequency while their bit of TX_SYNC is set, and SD_REFCLK otherwise. -/
def State.txTarget (s : State) (t : Nat) : Int :=
  if (s.fld Reg.dpllCtl Fld.dpllCtlTxSync).testBit t then
    (s.sfld Reg.dpllStat Fld.dpllStatFreq - Config.sdOffset t s.now) * 10 ^ 9
  else 0

/-- A frequency offset a nanosecond later, on its way to a target. -/
def slewed (x target : Int) : Int := x + max (-slewLimit) (min slewLimit (target - x))

/-- R393: the transmit frequencies move toward their targets, as fast as the limit allows (DESIGN CHOICE, log entry
111). -/
def State.slewTx (s : State) : State :=
  { s with selv := { s.selv with txOff := s.selv.txOff.mapFinIdx fun t x _ => slewed x (s.txTarget t) } }

/-- One nanosecond passes (DESIGN CHOICE, log entry 1). -/
def State.tick (s : State) : State :=
  (List.range 8).foldl (fun (s : State) d => s.domTick d) { s.slewTx with now := s.now + 1 }

end Sys2Proof.Machine
end

