-- ==== Sys2Proof/Machine/Step.lean ====
section
/-! DEFINITION. One step: the command at the front of the queue, or a nanosecond passing. -/

namespace Sys2Proof.Machine

/-- The command at the front of the queue, run on the state with the queue's rest. On an empty queue one
nanosecond passes (DESIGN CHOICE, log entry 1), and what event counters have to post is posted (log entry 125). -/
def step (s : State) : Host.Outcome State Fault Refusal :=
  match s.pending with
  | [] => .next s.tick.postDue
  | c :: rest => exec c { s with pending := rest }

/-- The state with the command a word spells at the front of the queue; no word spells one. -/
def State.withFetchWord (s : State) (nbits w : Nat) : State :=
  match decodeTableWord nbits w with
  | none => s
  | some c => { s with pending := c :: s.pending }

end Sys2Proof.Machine
end

