-- ==== Sys2Proof/Safety.lean ====
section
/-! DEFINITION. What counts as a safe run, and the words statements use of states and commands. -/

namespace Sys2Proof.Machine

/-- A step's outcome is a next state. -/
def Out.isNext : Out → Bool
  | .next _ => true
  | _ => false

/-- R4: the command meets no use of the device that the spec calls undefined behaviour. -/
def safeFor (c : Instr) (s : State) : Prop := Out.isNext (exec c s) = true

/-- R4: a run of `n` steps that meets no undefined behaviour. -/
def safeRun (n : Nat) (s : State) : Prop := ∃ t, Sys2Proof.core.run n s = .next t

/-! ## Comparing states -/

/-- Bytes of the address space at an address, as stored. -/
def State.sameMem (s t : State) : Prop := ∀ a, t.byte a = s.byte a

/-- Every register reads as before, but for those listed. -/
def State.sameRegs (s t : State) (but : List Nat) : Prop := ∀ a, a ∉ but → t.rd a = s.rd a

/-- The registers that measurement writes: the overflow bits of the event counters and the samples skipped. -/
def measured : List Nat := [Reg.glassEvtOvf, Reg.glassSmpStat]

/-- R480, R485: the record of an overflow bit of an event counter. -/
def EvDue.measures (e : EvDue) : Bool := e.typ == 1 && e.payload.take 6 == toLE 6 Reg.glassEvtOvf

/-- The state without its registers and without what measures it: the Pick glass, its records that fall due, how many
free values have been drawn, and what the microcode of threads holds. -/
def State.bare (s : State) : State :=
  { s with
    regs := [], freeCtr := 0, glass := State.reset.glass, spin := { s.spin with micro := [] }
    host := { s.host with due := s.host.due.filter fun e => !e.measures } }

/-- `t` is `u` but for measurement: the Pick glass with its two registers, how many free values have been drawn, and
what the microcode of threads holds (R443). -/
def State.alike (t u : State) : Prop := t.bare = u.bare ∧ u.sameRegs t measured

/-- The command answers a next state that is `u` but for measurement. -/
def becomes (c : Instr) (s u : State) : Prop := ∃ t, exec c s = .next t ∧ t.alike u

/-! ## Who may run an instruction -/

/-- R411, R412, R418: task `k` may run its next instruction: it is RUNNING, in no wait, no load of it is outstanding, its
pc is inside its program, and the device is not at a stand. -/
def State.threadRuns (s : State) (k : TaskId) : Prop :=
  (s.task k.val).st = .running ∧ (s.task k.val).wait = .none ∧ s.inProgram k.val (s.task k.val).pc = true ∧
    s.halted = false ∧ (s.task k.val).load = none

/-- R50: the pick of packet `p`, which is `x`, may run its next instruction: it has started, waits for nothing,
has budget left, and the device is not at a stand. -/
def State.pickRuns (s : State) (p : PktId) (x : Pkt) : Prop :=
  s.pkt? p = some x ∧ x.place = .running ∧ x.pick.wait = .none ∧ s.halted = false ∧ x.pick.icount < 24

/-- The word after the pick's lies inside its draft. -/
def State.pickGoesOn (s : State) (x : Pkt) : Prop := x.pick.pc + 1 < s.draftLen x.pick.seq x.pick.bank

/-- R50: the pick of `x` has run one instruction more and stands at word `pc`. -/
def Pkt.ran (x : Pkt) (now pc : Nat) : Pkt :=
  { x with pick := { x.pick with icount := x.pick.icount + 1, issueNs := now, pc := pc } }

/-- In task `k`, the command makes the task `t`, which then passes on to its next word. -/
def threadDoes (c : Instr) (s : State) (k : TaskId) (t : Task) : Prop :=
  becomes c s (s.setTask k.val t.step)

/-- In task `k`, the command writes `v` through its dest specifier and passes on. -/
def threadWrites (c : Instr) (s : State) (k : TaskId) (w : IWord) (v : Word) : Prop :=
  threadDoes c s k ((s.task k.val).write w.dest v)

/-- R50, R76: in the pick of packet `p`, the command makes the device `u` and the packet `x`, and with that the pick
ends. -/
def pickEndsIn (c : Instr) (s : State) (p : PktId) (u : State) (x : Pkt) : Prop :=
  ∃ v : State, exec c s = toOut (v.endPick p) ∧ v.alike (u.setPkt p (some (x.ran s.now x.pick.pc)))

/-- R50, R70: in the pick of packet `p`, the command makes the device `u` and the packet `x`, and the pick passes on to
its next word; after the draft's last word it ends. -/
def pickLeaves (c : Instr) (s : State) (p : PktId) (u : State) (x : Pkt) : Prop :=
  (u.pickGoesOn x → becomes c s (u.setPkt p (some (x.ran s.now (x.pick.pc + 1))))) ∧
  (¬ u.pickGoesOn x → pickEndsIn c s p u x)

/-- In task `k`, the command makes the device `u` and the task `t`, which then passes on to its next word. -/
def threadLeaves (c : Instr) (s : State) (k : TaskId) (u : State) (t : Task) : Prop :=
  becomes c s (u.setTask k.val t.step)

/-- In task `k`, the command, whose opcode is `op` and whose fields are `w`, makes the device `u`, and the task begins to
wait; what it waits in is kept, since its sequence restarts when it resumes (R444). -/
def threadWaits (c : Instr) (s : State) (k : TaskId) (op : Nat) (w : IWord) (u : State) (wt : TaskWait) : Prop :=
  becomes c s ((u.blockTask k.val wt).updTask k.val fun t => { t with resume := some (op, w) })

/-- R55: whether a BR whose kind is not INDIRECT, CALL or END is taken, from its fields, the status register and
s1. -/
def brTakes (w : IWord) (st a : Word) : Prop :=
  let kind := bitsOf w.fn.toNat 5 3
  kind = 0 ∨ (kind = 1 ∧ st.toNat % 256 = w.fn.toNat % 8) ∨ (kind = 2 ∧ st.toNat % 256 ≠ w.fn.toNat % 8) ∨
    (kind = 3 ∧ a = 0) ∨ (kind = 4 ∧ a ≠ 0)

/-- In the pick of packet `p`, the command makes the packet `x`, and the pick passes on to its next word or, after the
draft's last word, ends. -/
def pickDoes (c : Instr) (s : State) (p : PktId) (x : Pkt) : Prop := pickLeaves c s p s x

/-- In the pick of packet `p`, which is `x`, the command writes `v` through its dest specifier and passes on. -/
def pickWrites (c : Instr) (s : State) (p : PktId) (x : Pkt) (w : IWord) (v : Word) : Prop :=
  pickDoes c s p (x.write w.dest v)

/-- R86, R465, R503: a command that writes the register at `a` writes it: the device is not at a stand, and the overlay
does not hold the word. -/
def State.takesWrites (s : State) (a : Nat) : Prop := s.halted = false ∧ s.regInOverlay a = false

/-- R12: the register at `a` has been written `v`, all its bits, with no behaviour of its own. -/
def State.wrote (s : State) (a : Nat) (v : Word) : State := s.plainWrite a v (BitVec.allOnes 64)

/-- The registers a write of which does more than their access codes say: instance 0 of each kind. -/
def ownEffect : List Nat :=
  [Reg.identBootCmd, Reg.ringBase 0, Reg.ringCfg 0, Reg.hostifMsiSend, Reg.spinTaskCmd, Reg.spinRestart,
    Reg.spinQCfg 0, Reg.jacqFloor, Reg.tensionCtl, Reg.tensionAvs, Reg.tensionLoom 0, Reg.timeCtl,
    Reg.timeDomCtl 0, Reg.timeDomFreq 0, Reg.timeDomStep 0, Reg.timeTpoCtl 0, Reg.timeTpiCtl 0,
    Reg.timeHoldTref, Reg.timeHoldStat, Reg.timeHoldRange, Reg.timeHoldC0, Reg.timeHoldC1, Reg.timeHoldC2,
    Reg.timeHoldD, Reg.dpllCtl, Reg.dpllRef 0, Reg.glassSnap, Reg.glassSmpBase, Reg.glassSmpSize,
    Reg.glassSmpCons, Reg.glassBwCtl, Reg.digestSnap, Reg.digestScanBase, Reg.digestScanLen, Reg.digestScanCtl,
    Reg.warpCtl, Reg.warpRegion, Reg.warpOvfCfg, Reg.warpSealKeyLo, Reg.warpSealKeyHi, Reg.warpTbl 0,
    Reg.warpSeed0Lo, Reg.warpSeed0Hi, Reg.warpSeed1Lo, Reg.warpSeed1Hi, Reg.warpCacheCtl, Reg.warpRehashCtl,
    Reg.warpInit, Reg.warpRdCmd, Reg.warpStbl6Base, Reg.warpStbl6Nb, Reg.warpStbl6Seed, Reg.warpStbl6Mirror,
    Reg.warpStbl7Base, Reg.warpStbl7Nb, Reg.warpStbl7Seed, Reg.warpFdigBase, Reg.warpFdigSize, Reg.warpFdigCons,
    Reg.reedReclass, Reg.reedBank 0, Reg.beamFlushCmd, Reg.beamPort 0, Reg.beamBattenCmd, Reg.beamHstageData,
    Reg.beamPool, Reg.learnCtl, Reg.learnAgeCmd, Reg.learnLpmxBase 0, Reg.learnLpmxCnt 0, Reg.learnCmpSrc,
    Reg.learnCmpDst, Reg.learnCmpLen, Reg.learnCmpCtl, Reg.learnCmpStat, Reg.synceOut 0, Reg.loomPuntBkt 0 0, Reg.selvRetrain 0,
    Reg.selvPortCfg 0 0, Reg.creelCmd 0]

/-- The command answers a next state that has a property. -/
def leaves (c : Instr) (s : State) (good : State → Prop) : Prop := ∃ t, exec c s = .next t ∧ good t

/-- R4, R500: the command is use `n` of the list of undefined behaviour. -/
def undefinedUse (c : Instr) (s : State) (n : Nat) : Prop := exec c s = .fault (.undefinedBehaviour n)

/-- R471: the counter at an offset of the live image. -/
def State.counter (s : State) (off : Nat) : Word := Tbl.get (Tbl.const 0) s.glass.live off

/-- R472: counter `j` of loom `n`. -/
def State.loomCounter (s : State) (n j : Nat) : Word := s.counter (0x180000 + 0x1000 * n + 8 * j)

/-- The command makes packet `p`, which is `x`, leave the device as dropped for reason `code`: its loom counts the
reason, and memory and every other packet stay as they are. -/
def drops (c : Instr) (s : State) (p : PktId) (x : Pkt) (code : Nat) : Prop :=
  ∃ t, exec c s = .next t ∧ t.pkt? p = none ∧ (∀ q, q ≠ p → t.pkt? q = s.pkt? q) ∧ s.sameMem t ∧
    (x.loom < 16 → t.loomCounter x.loom code = s.loomCounter x.loom code + 1)

end Sys2Proof.Machine
end

