-- ==== Sys2Proof/Certificates/Slice0/Obligations.lean ====
section
/-! DEFINITION. The statements for the provers. Each is a conjunction of what the rules it names say of the commands
it names; a conjunct begins with its own quantifiers. -/

open Sys2Proof Sys2Proof.Machine

/-- R56: what each ALU instruction of a control thread writes through its dest, the second operand s2 in the register
form and sext(val) in the imm form; nothing else of the device changes but the thread's passing on and measurement, st
included. R56: the same in a draft, where MUL and MULH are excluded and SEL is allowed. R56: CMP writes 1 where the
condition of fn holds and 0 where it does not, in both forms and contexts. R56: EXT, INS and MOVI, bit by bit, in both
contexts. -/
def Obligations.AluInstructions : Prop :=
  (∀ (k : TaskId) (w : IWord) (s : State), s.threadRuns k →
     let a := (s.task k.val).read w.src1
     let b := (s.task k.val).read w.src2
     let i := w.val.signExtend 64
     threadWrites (.add (.task k) w) s k w (a + b) ∧ threadWrites (.addImm (.task k) w) s k w (a + i) ∧
     threadWrites (.sub (.task k) w) s k w (a - b) ∧ threadWrites (.subImm (.task k) w) s k w (a - i) ∧
     threadWrites (.and (.task k) w) s k w (a &&& b) ∧ threadWrites (.andImm (.task k) w) s k w (a &&& i) ∧
     threadWrites (.or (.task k) w) s k w (a ||| b) ∧ threadWrites (.orImm (.task k) w) s k w (a ||| i) ∧
     threadWrites (.xor (.task k) w) s k w (a ^^^ b) ∧ threadWrites (.xorImm (.task k) w) s k w (a ^^^ i) ∧
     threadWrites (.shl (.task k) w) s k w (a <<< (b.toNat % 64)) ∧
     threadWrites (.shlImm (.task k) w) s k w (a <<< (i.toNat % 64)) ∧
     threadWrites (.shr (.task k) w) s k w (a >>> (b.toNat % 64)) ∧
     threadWrites (.shrImm (.task k) w) s k w (a >>> (i.toNat % 64)) ∧
     threadWrites (.sar (.task k) w) s k w (a.sshiftRight (b.toNat % 64)) ∧
     threadWrites (.sarImm (.task k) w) s k w (a.sshiftRight (i.toNat % 64)) ∧
     threadWrites (.min (.task k) w) s k w (BitVec.ofNat 64 (min a.toNat b.toNat)) ∧
     threadWrites (.minImm (.task k) w) s k w (BitVec.ofNat 64 (min a.toNat i.toNat)) ∧
     threadWrites (.max (.task k) w) s k w (BitVec.ofNat 64 (max a.toNat b.toNat)) ∧
     threadWrites (.maxImm (.task k) w) s k w (BitVec.ofNat 64 (max a.toNat i.toNat)) ∧
     threadWrites (.mul (.task k) w) s k w (BitVec.ofNat 64 (a.toNat * b.toNat)) ∧
     threadWrites (.mulImm (.task k) w) s k w (BitVec.ofNat 64 (a.toNat * i.toNat)) ∧
     threadWrites (.mulh (.task k) w) s k w (BitVec.ofNat 64 (a.toNat * b.toNat / 2 ^ 64))) ∧
  (∀ (p : PktId) (x : Pkt) (w : IWord) (s : State), s.pickRuns p x →
     let a := x.read w.src1
     let b := x.read w.src2
     let i := w.val.signExtend 64
     pickWrites (.add (.pick p) w) s p x w (a + b) ∧ pickWrites (.addImm (.pick p) w) s p x w (a + i) ∧
     pickWrites (.sub (.pick p) w) s p x w (a - b) ∧ pickWrites (.subImm (.pick p) w) s p x w (a - i) ∧
     pickWrites (.and (.pick p) w) s p x w (a &&& b) ∧ pickWrites (.andImm (.pick p) w) s p x w (a &&& i) ∧
     pickWrites (.or (.pick p) w) s p x w (a ||| b) ∧ pickWrites (.orImm (.pick p) w) s p x w (a ||| i) ∧
     pickWrites (.xor (.pick p) w) s p x w (a ^^^ b) ∧ pickWrites (.xorImm (.pick p) w) s p x w (a ^^^ i) ∧
     pickWrites (.shl (.pick p) w) s p x w (a <<< (b.toNat % 64)) ∧
     pickWrites (.shlImm (.pick p) w) s p x w (a <<< (i.toNat % 64)) ∧
     pickWrites (.shr (.pick p) w) s p x w (a >>> (b.toNat % 64)) ∧
     pickWrites (.shrImm (.pick p) w) s p x w (a >>> (i.toNat % 64)) ∧
     pickWrites (.sar (.pick p) w) s p x w (a.sshiftRight (b.toNat % 64)) ∧
     pickWrites (.sarImm (.pick p) w) s p x w (a.sshiftRight (i.toNat % 64)) ∧
     pickWrites (.min (.pick p) w) s p x w (BitVec.ofNat 64 (min a.toNat b.toNat)) ∧
     pickWrites (.minImm (.pick p) w) s p x w (BitVec.ofNat 64 (min a.toNat i.toNat)) ∧
     pickWrites (.max (.pick p) w) s p x w (BitVec.ofNat 64 (max a.toNat b.toNat)) ∧
     pickWrites (.maxImm (.pick p) w) s p x w (BitVec.ofNat 64 (max a.toNat i.toNat)) ∧
     pickWrites (.sel (.pick p) w) s p x w (if x.pick.p.getLsbD (w.fn.toNat % 8) then a else b)) ∧
  (let cond (fn : BitVec 6) (a b : Word) : Prop :=
     (fn.toNat % 8 = 0 ∧ a = b) ∨ (fn.toNat % 8 = 1 ∧ a ≠ b) ∨ (fn.toNat % 8 = 2 ∧ a.toNat < b.toNat) ∨
     (fn.toNat % 8 = 3 ∧ b.toNat ≤ a.toNat) ∨ (fn.toNat % 8 = 4 ∧ a.toInt < b.toInt) ∨
     (fn.toNat % 8 = 5 ∧ b.toInt ≤ a.toInt) ∨ (fn.toNat % 8 = 6 ∧ a &&& b ≠ 0) ∨ (fn.toNat % 8 = 7 ∧ a &&& b = 0)
   (∀ (k : TaskId) (w : IWord) (s : State), s.threadRuns k →
     ∃ v u : Word, threadWrites (.cmp (.task k) w) s k w v ∧ threadWrites (.cmpImm (.task k) w) s k w u ∧
       ((v = 1 ∧ cond w.fn ((s.task k.val).read w.src1) ((s.task k.val).read w.src2)) ∨
         (v = 0 ∧ ¬ cond w.fn ((s.task k.val).read w.src1) ((s.task k.val).read w.src2))) ∧
       ((u = 1 ∧ cond w.fn ((s.task k.val).read w.src1) (w.val.signExtend 64)) ∨
         (u = 0 ∧ ¬ cond w.fn ((s.task k.val).read w.src1) (w.val.signExtend 64)))) ∧
   (∀ (p : PktId) (x : Pkt) (w : IWord) (s : State), s.pickRuns p x →
     ∃ v u : Word, pickWrites (.cmp (.pick p) w) s p x w v ∧ pickWrites (.cmpImm (.pick p) w) s p x w u ∧
       ((v = 1 ∧ cond w.fn (x.read w.src1) (x.read w.src2)) ∨
         (v = 0 ∧ ¬ cond w.fn (x.read w.src1) (x.read w.src2))) ∧
       ((u = 1 ∧ cond w.fn (x.read w.src1) (w.val.signExtend 64)) ∨
         (u = 0 ∧ ¬ cond w.fn (x.read w.src1) (w.val.signExtend 64))))) ∧
  (let len (w : IWord) : Nat := min (w.val.toNat % 128) 64
   let isExt (w : IWord) (a v : Word) : Prop :=
     ∀ j, j < 64 → v.getLsbD j = (decide (j < len w) && a.getLsbD (w.fn.toNat + j))
   let isIns (w : IWord) (d a v : Word) : Prop :=
     ∀ j, j < 64 → v.getLsbD j =
       if w.fn.toNat ≤ j ∧ j < w.fn.toNat + len w then a.getLsbD (j - w.fn.toNat) else d.getLsbD j
   let isMovi (w : IWord) (d v : Word) : Prop :=
     ∀ j, j < 64 → v.getLsbD j =
       if w.fn.toNat % 4 = 2 then (if j < 32 then d.getLsbD j else w.val.getLsbD (j - 32))
       else if w.fn.toNat % 4 = 1 then w.val.getLsbD (min j 31) else w.val.getLsbD j
   (∀ (k : TaskId) (w : IWord) (s : State), s.threadRuns k →
     let T := s.task k.val
     ∃ v1 v2 v3 : Word, threadWrites (.ext (.task k) w) s k w v1 ∧ isExt w (T.read w.src1) v1 ∧
       threadWrites (.ins (.task k) w) s k w v2 ∧ isIns w (T.read w.dest) (T.read w.src1) v2 ∧
       threadWrites (.movi (.task k) w) s k w v3 ∧ isMovi w (T.read w.dest) v3) ∧
   (∀ (p : PktId) (x : Pkt) (w : IWord) (s : State), s.pickRuns p x →
     ∃ v1 v2 v3 : Word, pickWrites (.ext (.pick p) w) s p x w v1 ∧ isExt w (x.read w.src1) v1 ∧
       pickWrites (.ins (.pick p) w) s p x w v2 ∧ isIns w (x.read w.dest) (x.read w.src1) v2 ∧
       pickWrites (.movi (.pick p) w) s p x w v3 ∧ isMovi w (x.read w.dest) v3))

/-- R38, R39, R41: operand specifiers. A thread writes g0 to g31 and nothing else; a draft writes g0 to g15,
predicates (bit 0), and valid field slots (the low 32 bits, setting the slot's dirty bit). Every other dest discards
the write; a written register reads back, zr, st's writes and reserved specifiers as R39 says. R57: the algorithms of
HASH, in both contexts; algorithms 5 to 63 give 0. The seeds of the bucket hash are those of the pick's batten (R72).
Beside the rules it rests on the readings and choices of log entry 20. -/
def Obligations.OperandsAndHashes : Prop :=
  ((∀ (t : Task) (d e : BitVec 6) (v : Word),
     (t.write d v).read e = (if e.toNat < 32 ∧ e = d then v else t.read e) ∧
     (32 ≤ d.toNat → t.write d v = t) ∧
     (32 ≤ e.toNat ∧ e.toNat < 63 → t.read e = 0) ∧ (e.toNat = 63 → t.read e = t.stReg)) ∧
   (∀ (x : Pkt) (d e : BitVec 6) (v : Word),
     (d.toNat < 16 → (x.write d v).read e = if e = d then v else x.read e) ∧
     (16 ≤ d.toNat ∧ d.toNat < 24 → (x.write d v).read e = if e = d then v &&& 1 else x.read e) ∧
     (24 ≤ d.toNat ∧ d.toNat < 32 → x.write d v = x) ∧
     (32 ≤ d.toNat → x.hfValid.getLsbD (d.toNat - 32) = true →
       (x.write d v).read e = (if e = d then v &&& 0xFFFFFFFF else x.read e) ∧
       (x.write d v).hfDirty = x.hfDirty ||| BitVec.ofNat 32 (2 ^ (d.toNat - 32))) ∧
     (32 ≤ d.toNat → x.hfValid.getLsbD (d.toNat - 32) = false → x.write d v = x ∧ x.read d = 0) ∧
     (e.toNat = 24 → x.read e = x.pick.st) ∧ (24 < e.toNat ∧ e.toNat < 32 → x.read e = 0))) ∧
  (let isHash (s : State) (seq : BitVec 32) (w : IWord) (a b v : Word) : Prop :=
     v = match w.fn.toNat with
       | 0 => (crc32c w.val (toLE 8 a.toNat ++ toLE 8 b.toNat)).setWidth 64
       | 1 => s.pickHash seq (w.val.toNat % 2) (toLE 8 a.toNat ++ toLE 8 b.toNat)
       | 2 => (crc16 (w.val.setWidth 16) (toLE 8 a.toNat)).setWidth 64
       | 3 => BitVec.ofNat 64 ((crc32c w.val (toLE 8 a.toNat)).toNat * (b.toNat % 2 ^ 32) / 2 ^ 32)
       | 4 => (crc32c w.val (toLE 8 a.toNat)).setWidth 64
       | _ => 0
   (∀ (k : TaskId) (w : IWord) (s : State), s.threadRuns k →
     ∃ v, threadWrites (.hash (.task k) w) s k w v ∧
       isHash s s.bat.seq w ((s.task k.val).read w.src1) ((s.task k.val).read w.src2) v) ∧
   (∀ (p : PktId) (x : Pkt) (w : IWord) (s : State), s.pickRuns p x →
     ∃ v, pickWrites (.hash (.pick p) w) s p x w v ∧ isHash s x.pick.seq w (x.read w.src1) (x.read w.src2) v))

/-- R47, R48: the words of a program. The fields of a word stand where R47 puts them, and a word is its opcode and
fields. Each opcode of the table of R48 spells its instruction; every other one is undefined, and spells ILLEGAL_OP.
R48: NOP does nothing but pass on, in both contexts, and ends a pick on the last word of its draft (R50). R48: a
thread that executes an opcode its context may not execute, or an undefined one, stops before the instruction takes
effect: its pc, registers and status stay, it leaves its context, SPIN_ERR.ILLEGAL is set, no other task changes, and
an ILLEGAL_OP record with the task and the instruction's address is posted. R48, R37: a draft that executes an opcode
it may not execute, or an undefined one, ends its pick at once with DROP, reason ILLEGAL (50); so do the BR kinds
INDIRECT (5) and CALL (6). Beside the rules it rests on the readings and choices of log entries 11, 13. -/
def Obligations.NopAndIllegalUses : Prop :=
  ((∀ (op : BitVec 8) (w : IWord), opcodeOf (w.toWord op) = op.toNat ∧ IWord.ofWord (w.toWord op) = w ∧
     (w.toWord op).toNat = op.toNat * 2 ^ 56 + w.dest.toNat * 2 ^ 50 + w.src1.toNat * 2 ^ 44 + w.src2.toNat * 2 ^ 38 +
       w.fn.toNat * 2 ^ 32 + w.val.toNat) ∧
   (∀ v : Word, (IWord.ofWord v).toWord (v.extractLsb' 56 8) = v) ∧
   (∀ (c : Ctx) (w : IWord),
     let table : List (Nat × Instr) := [
       (0x00, .nop c w), (0x01, .ld c w), (0x02, .st c w), (0x03, .sts c w), (0x04, .ldW c w), (0x05, .stW c w),
       (0x06, .ldT c w), (0x07, .batten c w), (0x10, .br c w), (0x11, .brp c w), (0x12, .loop c w), (0x20, .add c
       w), (0x21, .addImm c w), (0x22, .sub c w), (0x23, .subImm c w), (0x24, .and c w), (0x25, .andImm c w),
       (0x26, .or c w), (0x27, .orImm c w), (0x28, .xor c w), (0x29, .xorImm c w), (0x2A, .shl c w), (0x2B,
       .shlImm c w), (0x2C, .shr c w), (0x2D, .shrImm c w), (0x2E, .sar c w), (0x2F, .sarImm c w), (0x30, .min c
       w), (0x31, .minImm c w), (0x32, .max c w), (0x33, .maxImm c w), (0x34, .cmp c w), (0x35, .cmpImm c w),
       (0x36, .mul c w), (0x37, .mulImm c w), (0x38, .movi c w), (0x39, .mulh c w), (0x3A, .ext c w), (0x3B, .ins
       c w), (0x3E, .sel c w), (0x40, .hash c w), (0x50, .flook c w), (0x51, .fcreate c w), (0x52, .fupd c w),
       (0x53, .ffold c w), (0x54, .fdelidle c w), (0x60, .rsearch c w), (0x61, .rnext c w), (0x62, .tscan c w),
       (0x70, .fwd c w), (0x71, .mcast c w), (0x72, .drop c w), (0x73, .punt c w), (0x74, .recirc c w), (0x80,
       .tstamp c w), (0x81, .cnt c w), (0x90, .lock c w), (0x91, .unlock c w), (0x92, .waitev c w), (0x93,
       .signal c w), (0x94, .yield c w), (0x95, .qput c w), (0x96, .qget c w), (0x97, .dma c w)]
     (∀ e ∈ table, ∀ v : Word, opcodeOf v = e.1 → IWord.ofWord v = w → instrOfWord c v = e.2) ∧
     (∀ v : Word, (∀ e ∈ table, opcodeOf v ≠ e.1) → instrOfWord c v = .illegalOp c))) ∧
  ((∀ (k : TaskId) (w : IWord) (s : State), s.threadRuns k → threadDoes (.nop (.task k) w) s k (s.task k.val)) ∧
   (∀ (p : PktId) (x : Pkt) (w : IWord) (s : State), s.pickRuns p x →
     pickDoes (.nop (.pick p) w) s p x)) ∧
  (∀ (k : TaskId) (w : IWord) (s : State), s.threadRuns k →
     (∃ u : State, exec (.illegalOp (.task k)) s = .next (u.post 3 2
         (toLE 2 k.val ++ toLE 6 0 ++ toLE 8 (s.task k.val).pc)) ∧
       u.task k.val = { s.task k.val with st := .stopped, ctx := none }) ∧
     ∀ c ∈ [Instr.illegalOp (.task k), .ldW (.task k) w, .stW (.task k) w, .brp (.task k) w, .sel (.task k) w,
         .flook (.task k) w, .fcreate (.task k) w, .fupd (.task k) w, .ffold (.task k) w, .rsearch (.task k) w,
         .rnext (.task k) w, .tscan (.task k) w, .fwd (.task k) w, .mcast (.task k) w, .drop (.task k) w,
         .punt (.task k) w, .recirc (.task k) w],
       ∃ u, exec c s = .next (u.post 3 2 (toLE 2 k.val ++ toLE 6 0 ++ toLE 8 (s.task k.val).pc)) ∧
         u.task k.val = { s.task k.val with st := .stopped, ctx := none } ∧
         (∀ j, j ≠ k.val → u.task j = s.task j) ∧ s.sameMem u ∧ s.sameRegs u [Reg.spinErr] ∧
         u.rd Reg.spinErr = Fld.spinErrIllegal.put (s.rd Reg.spinErr) 1 ∧ u.pkts = s.pkts) ∧
  (∀ (p : PktId) (x : Pkt) (w : IWord) (s : State), s.pickRuns p x →
     drops (.illegalOp (.pick p)) s p x 50 ∧
     (∀ c ∈ [Instr.ld (.pick p) w, .st (.pick p) w, .sts (.pick p) w, .batten (.pick p) w,
         .loop (.pick p) w, .mul (.pick p) w, .mulImm (.pick p) w, .mulh (.pick p) w, .fdelidle (.pick p) w,
         .lock (.pick p) w, .unlock (.pick p) w, .waitev (.pick p) w, .signal (.pick p) w, .yield (.pick p) w,
         .qput (.pick p) w, .qget (.pick p) w, .dma (.pick p) w], drops c s p x 50) ∧
     (bitsOf w.fn.toNat 5 3 = 5 ∨ bitsOf w.fn.toNat 5 3 = 6 → drops (.br (.pick p) w) s p x 50))

/-- R55: BR in a thread: a branch that is not taken passes on; one that is taken goes to pc + val, or for INDIRECT to
the word s1 names, and leaves every loop it branches out of; CALL writes the address of the next word. A target
outside the program stops the task. R55: BR of kind END in a thread whose deadline has not passed, with no release
held and no flag of its START_MASK set: the task becomes DORMANT, its next activation at its program's first word, and
its context is free. R55: LOOP in a thread: at depth 4 it gives ST_FULL and passes over the body; with a count or a
length of 0 it gives ST_OK and passes over the body; else it enters the body, once for each count. Beside the rules it
rests on the readings and choices of log entries 26, 41. -/
def Obligations.ThreadControlFlow : Prop :=
  (∀ (k : TaskId) (w : IWord) (s : State), s.threadRuns k →
     let T := s.task k.val
     let kind := bitsOf w.fn.toNat 5 3
     let goes (pc : Nat) (t : Task) : Prop :=
       (s.inProgram k.val pc = true →
         becomes (.br (.task k) w) s (s.setTask k.val { t with pc := pc, loops := branchOut t.loops pc })) ∧
       (s.inProgram k.val pc = false → exec (.br (.task k) w) s = .next (s.illegalTask k.val))
     (kind < 5 → ¬ brTakes w T.stReg (T.read w.src1) → threadDoes (.br (.task k) w) s k T) ∧
     (kind < 5 → brTakes w T.stReg (T.read w.src1) → ∀ pc : Nat, (pc : Int) = T.pc + w.val.toInt → goes pc T) ∧
     (kind = 5 → goes (T.read w.src1).toNat T) ∧
     ((kind < 5 ∧ brTakes w T.stReg (T.read w.src1)) ∨ kind = 6 → T.pc + w.val.toInt < 0 →
       exec (.br (.task k) w) s = .next (s.illegalTask k.val)) ∧
     (kind = 6 → ∀ pc : Nat, (pc : Int) = T.pc + w.val.toInt →
       goes pc (T.write w.dest (BitVec.ofNat 64 (T.pc + 1))))) ∧
  (∀ (k : TaskId) (w : IWord) (s : State), s.threadRuns k → bitsOf w.fn.toNat 5 3 = 7 →
     (s.task k.val).heldRel = false → (∀ d, (s.task k.val).deadline = some d → s.taskNow k.val ≤ d) →
     (s.task k.val).flags &&& (s.taskWord k.val 1).extractLsb' 32 32 = 0 →
     ∃ t, exec (.br (.task k) w) s = .next t ∧
       t.task k.val = { s.task k.val with
         st := .dormant, pc := bitsOf (s.taskWord k.val 0).toNat 63 46, loops := [], deadline := none, ctx := none } ∧
       (∀ j, j ≠ k.val → t.task j = s.task j) ∧ s.sameMem t ∧ s.sameRegs t measured) ∧
  (∀ (k : TaskId) (w : IWord) (s : State), s.threadRuns k →
     let T := s.task k.val
     let n := (T.read w.src1).toNat
     let len := w.val.toNat % 4096
     (4 ≤ T.loops.length → becomes (.loop (.task k) w) s (s.setTask k.val { T.passTo (T.pc + 1 + len) with
         stReg := stWord stFull })) ∧
     (T.loops.length < 4 → n = 0 ∨ len = 0 →
       becomes (.loop (.task k) w) s (s.setTask k.val { T.passTo (T.pc + 1 + len) with stReg := stWord stOk })) ∧
     (T.loops.length < 4 → n ≠ 0 → len ≠ 0 →
       becomes (.loop (.task k) w) s (s.setTask k.val { T with
         loops := { count := n, start := T.pc + 1, len := len } :: T.loops, pc := T.pc + 1, stReg := stWord stOk })))

/-- R55, R50, R70: BR and BRP in a draft: not taken, the pick passes on; taken to a word ahead inside the draft, it
goes there; taken to word LEN or beyond, and at BR of kind END, the pick ends. R50: the budget. A pick that has
executed 24 instructions ends with DROP, reason BUDGET (48), whatever its next word holds, excluded and undefined
opcodes included; so does a taken branch of displacement 0 or less, of every kind. PICK_BUDGET_EXCEEDED is that end
for a word the table has no row for. R41, R50, R76, R91, R148, R156, R189, R263: the end of a pick, with the last
disposition that succeeded, or a drop with reason NONE (49) where none did. A dropped packet is gone, and its loom
counts the reason. Any other packet is handed on with the frame of its disposition: a PUNT has its dirty slots written
back; FWD, MCAST and RECIRC then apply the edit word where the pick wrote one, and FWD then rewrites the addresses.
The held head loses the pick's pin, or for RECIRC keeps it for the second pick; a pick that does not recirculate
counts in its epoch no more. No other packet and no byte of memory changes. R111, R191, R192, R263: the parts of the
frame's end. A dirty slot without a checksum is written at its bits, and no other bit of the frame changes; with none
dirty nothing changes. An adjusted checksum keeps the ones' complement sum of the words and the checksum. REPLACE
takes out LEN bytes at OFFSET and puts the body of a template in their place, none for one that is not VALID, and is
undefined (UB 15) past byte 192 or the frame. The rewrite of addresses takes a source whose port is the disposition's
and whose next-hop entry is VALID, and writes bytes 0 to 11. Beside the rules it rests on the readings and choices of
log entries 21, 23, 67, 133. -/
def Obligations.DraftControlFlow : Prop :=
  (∀ (p : PktId) (x : Pkt) (w : IWord) (s : State), s.pickRuns p x →
     let kind := bitsOf w.fn.toNat 5 3
     let hit := x.pick.p.getLsbD (w.fn.toNat % 8) ≠ w.fn.getLsbD 3
     let dst : Int := x.pick.pc + w.val.toInt
     (kind < 5 → ¬ brTakes w x.pick.st (x.read w.src1) → pickDoes (.br (.pick p) w) s p x) ∧
     (¬ hit → pickDoes (.brp (.pick p) w) s p x) ∧
     (0 < w.val.toInt → (s.draftLen x.pick.seq x.pick.bank : Int) ≤ dst →
       (kind < 5 → brTakes w x.pick.st (x.read w.src1) → pickEndsIn (.br (.pick p) w) s p s x) ∧
       (hit → pickEndsIn (.brp (.pick p) w) s p s x)) ∧
     (kind = 7 → pickEndsIn (.br (.pick p) w) s p s x) ∧
     (0 < w.val.toInt → dst < s.draftLen x.pick.seq x.pick.bank →
       (kind < 5 → brTakes w x.pick.st (x.read w.src1) →
         becomes (.br (.pick p) w) s (s.setPkt p (some (x.ran s.now dst.toNat)))) ∧
       (hit → becomes (.brp (.pick p) w) s (s.setPkt p (some (x.ran s.now dst.toNat)))))) ∧
  ((∀ (p : PktId) (x : Pkt) (s : State), s.pkt? p = some x → x.place = .running → x.pick.wait = .none →
     s.halted = false → 24 ≤ x.pick.icount →
     drops (.pickBudgetExceeded p) s p x 48 ∧
     ∀ v : Word, drops (instrOfWord (.pick p) v) s p x 48) ∧
   (∀ (p : PktId) (x : Pkt) (w : IWord) (s : State), s.pickRuns p x → w.val.toInt ≤ 0 →
     (bitsOf w.fn.toNat 5 3 < 5 → brTakes w x.pick.st (x.read w.src1) → drops (.br (.pick p) w) s p x 48) ∧
     (x.pick.p.getLsbD (w.fn.toNat % 8) ≠ w.fn.getLsbD 3 → drops (.brp (.pick p) w) s p x 48))) ∧
  (∀ (s : State) (p : Nat) (x : Pkt), s.pkt? p = some x →
     let d := if x.pick.disp = .none then Disp.drop 49 else x.pick.disp
     let x' : Pkt := { x with pick := { x.pick with disp := d } }
     (∀ t, s.endPick p = .ok t → (∀ q, q ≠ p → t.pkt? q = s.pkt? q) ∧ s.sameMem t ∧
       (∀ h c, x.pick.held = some h → s.line h.line = some c → c.detached = false → x.pick.spare = none →
         x.pick.pick2 = false → t.line h.line =
           some (if d = .recirc then { c with recPins := c.recPins + 1 } else { c with pins := c.pins - 1 })) ∧
       (d ≠ .recirc → x.place = .running → Tbl.wf (Tbl.const none) s.pkts = true →
         t.epochCount x.pick.bank + 1 = s.epochCount x.pick.bank)) ∧
     (∀ code, code < 64 → d = .drop code → ∃ t, s.endPick p = .ok t ∧ t.pkt? p = none ∧
       (x.loom < 16 → t.loomCounter x.loom code = s.loomCounter x.loom code + 1)) ∧
     ((∀ code, d ≠ .drop code) → d ≠ .recirc → ∀ y, s.finishFrame x' = .ok y →
       ∃ t z, s.endPick p = .ok t ∧ t.pkt? p = some z ∧ z.place = .handed ∧ z.frame = y.frame ∧ z.pick.disp = d ∧
         z.pick.held = none ∧ z.resv = 0 ∧ z.kept = none) ∧
     (d = .recirc → ∀ y, s.finishFrame x' = .ok y →
       ∃ t z, s.endPick p = .ok t ∧ t.pkt? p = some z ∧ z.frame = y.frame ∧ z.kept = x.pick.held ∧
         (z.place = .handed ∨ z.place = .recirc)) ∧
     (∀ r n, d = .punt r n → s.finishFrame x' = .ok x'.writeBack) ∧
     ((∃ g m, d = .multicast g m) ∨ d = .recirc → x.pick.editSet = false →
       ∃ y, s.finishFrame x' = .ok y ∧ y.frame = x.writeBack.frame) ∧
     (∀ port q, d = .unicast port q → x.pick.editSet = false →
       ∃ y, s.finishFrame x' = .ok y ∧ y.frame = s.macRewrite x' port x.writeBack.frame) ∧
     (x.pick.editSet = true → (∃ port q, d = .unicast port q) ∨ (∃ g m, d = .multicast g m) ∨ d = .recirc →
       (∀ e, s.applyEdit x.pick.seq x'.writeBack = .error e → s.endPick p = .error e) ∧
       (∀ f, s.applyEdit x.pick.seq x'.writeBack = .ok f → ∃ y, s.finishFrame x' = .ok y ∧
         (∀ port q, d = .unicast port q → y.frame = s.macRewrite x' port f) ∧
         ((∀ port q, d ≠ .unicast port q) → y.frame = f)))) ∧
  (let bit (f : List Byte) (k : Nat) : Bool := (f.getD (k / 8) 0).getLsbD (7 - k % 8)
   (∀ x : Pkt, x.hfDirty = 0 → x.writeBack.frame = x.frame) ∧
   (∀ (x : Pkt) (i : Nat) (q : SlotSrc), i < 32 → x.hfDirty = BitVec.ofNat 32 (2 ^ i) → x.hfValid.getLsbD i = true →
     vget x.src i none = some q → q.ck = 0 → q.bit < 8 → 0 < q.width → q.width ≤ 32 →
     8 * q.byte + q.bit + q.width ≤ 8 * x.frame.length →
     let lo := 8 * q.byte + q.bit
     x.writeBack.frame.length = x.frame.length ∧
     ∀ k, k < 8 * x.frame.length → bit x.writeBack.frame k =
       if lo ≤ k ∧ k < lo + q.width then (vget x.hf i 0).getLsbD (q.width - 1 - (k - lo)) else bit x.frame k) ∧
   (∀ (hc : Nat) (old new : List Byte), hc ≤ 65535 → old.length = new.length → new.length % 2 = 0 → new.length ≤ 64 →
     let sum (l : List Byte) : Nat := ((List.range (l.length / 2)).map fun i => beAt l (2 * i) 2).sum
     (csumAdjust hc old new + sum new) % 65535 = (hc + sum old) % 65535) ∧
   (∀ (ew : Nat) (user : BitVec 256) (tmpl f : List Byte),
     let off := bitsOf ew 47 40
     let len := bitsOf ew 39 32
     (192 < off + len ∨ f.length < off + len + 4 → editReplace ew user tmpl f = .error (.undefinedBehaviour 15)) ∧
     (off + len ≤ 192 → off + len + 4 ≤ f.length → ew.testBit 0 = false →
       (ofLE (slice tmpl 0 8)).testBit 63 = false → editReplace ew user tmpl f =
           .ok (f.take off ++ f.drop (off + len)))) ∧
   (∀ (s : State) (x : Pkt) (port : Nat) (f : List Byte),
     (s.rewriteSrc x = none → s.macRewrite x port f = f) ∧
     (∀ r, s.rewriteSrc x = some r →
       let a := 0x20A00000 + 16 * (r.toNat / 2 ^ 16 % 2 ^ 16)
       (r.toNat % 1024 ≠ port ∨ (s.pbyte x.pick.seq (a + 1)).getLsbD 7 = false → s.macRewrite x port f = f) ∧
       (r.toNat % 1024 = port → (s.pbyte x.pick.seq (a + 1)).getLsbD 7 = true → 12 ≤ f.length →
         s.macRewrite x port f = s.pbytes x.pick.seq (a + 2) 12 ++ f.drop 12))))

/-- R43, R44, R53: LD.W and ST.W. LD.W zero-extends the bytes of the md window, or of the head the pick holds, from
its offset; ST.W writes bytes of the USER words and nothing else of the packet but its status and whether an edit or a
time word was written; every other store is refused with ST_REFUSED and writes nothing. R62: TSTAMP. Kind 0 is the
domain's time word, in both contexts; kind 1 the packet's ingress stamp; kind 2 asks for an egress stamp; with the
domain disabled, no stamp, another kind, or kinds 1 and 2 in a thread, dest is 0 and the code ST_ABSENT. R62, R473,
R474: CNT adds to the packets and the bytes of the entry its pool and index name, and leaves every other counter of
the pools; an index at or above the pool's size, or an entry above 65,535, is ST_ABSENT and counts nothing. Beside the
rules it rests on the readings and choices of log entry 70. -/
def Obligations.WindowsTimesAndCounts : Prop :=
  (∀ (p : PktId) (x : Pkt) (w : IWord) (s : State), s.pickRuns p x →
     let o := bitsOf w.val.toNat 5 0
     let n := 2 ^ (w.fn.toNat % 4)
     let isRead (win : Nat) (v : Word) : Prop := v.toNat = (win / 2 ^ (8 * o)) % 2 ^ (8 * n)
     (w.val.getLsbD 8 = false → ∃ v, pickWrites (.ldW (.pick p) w) s p x w v ∧ isRead x.md v) ∧
     (w.val.getLsbD 8 = true → x.pick.held = none → pickWrites (.ldW (.pick p) w) s p x w 0) ∧
     (w.val.getLsbD 8 = true → ∀ h c, x.pick.held = some h → s.line h.line = some c →
       ∃ v, pickWrites (.ldW (.pick p) w) s p x w v ∧ isRead c.head.toNat v) ∧
     (w.val.getLsbD 8 = true ∨ o < 32 ∨ 64 < o + n →
       pickDoes (.stW (.pick p) w) s p { x with pick := { x.pick with st := stWord stRefused } }) ∧
     (w.val.getLsbD 8 = false → 32 ≤ o → o + n ≤ 64 →
       ∃ u : BitVec 256, pickDoes (.stW (.pick p) w) s p { x with
           user := u
           pick := { x.pick with
             st := stWord stOk
             editSet := x.pick.editSet || decide (56 < o + n)
             timeSet := x.pick.timeSet || (decide (o ≤ 55) && decide (55 < o + n)) } } ∧
         ∀ j, j < 32 → byteOf u.toNat j =
           if o ≤ j + 32 ∧ j + 32 < o + n then byteOf (x.read w.src2).toNat (j + 32 - o) else
             byteOf x.user.toNat j)) ∧
  ((∀ (k : TaskId) (w : IWord) (s : State), s.threadRuns k →
     let T := s.task k.val
     let d := w.fn.toNat % 8
     (s.domOn d = true → w.val.toNat % 4 = 0 → threadDoes (.tstamp (.task k) w) s k
       { T.write w.dest (timeWord (s.dom d).time) with stReg := stWord stOk }) ∧
     (s.domOn d = false ∨ w.val.toNat % 4 ≠ 0 → threadDoes (.tstamp (.task k) w) s k
       { T.write w.dest 0 with stReg := stWord stAbsent })) ∧
   (∀ (p : PktId) (x : Pkt) (w : IWord) (s : State), s.pickRuns p x →
     let d := w.fn.toNat % 8
     let kind := w.val.toNat % 4
     (s.pickDomOn x.pick.seq d = true → kind = 0 → pickDoes (.tstamp (.pick p) w) s p
       ((x.write w.dest (timeWord (s.dom d).time)).setSt (stWord stOk))) ∧
     (s.pickDomOn x.pick.seq d = true → kind = 1 → ∀ t, x.stamps.getD d none = some t →
         pickDoes (.tstamp (.pick p) w) s p
       ((x.write w.dest (timeWord t.time)).setSt (stWord stOk))) ∧
     (s.pickDomOn x.pick.seq d = true → kind = 2 → pickDoes (.tstamp (.pick p) w) s p
       { x with pick := { x.pick with
         st := stWord stOk
         stampReq := (x.pick.stampReq.filter fun r => r.1 != d) ++ [(d, (x.read w.src1).toNat % 65536)] } }) ∧
     (s.pickDomOn x.pick.seq d = false ∨ kind = 3 ∨ (kind = 1 ∧ x.stamps.getD d none = none) →
         pickDoes (.tstamp (.pick p) w) s p
       ((x.write w.dest 0).setSt (stWord stAbsent))))) ∧
  (let entry (pool : Word) (idx : Word) (e : Nat) : Prop :=
     idx.toNat < Fld.glassPoolSize.get pool ∧ e = Fld.glassPoolBase.get pool + idx.toNat ∧ e ≤ 65535
   let counts (s t : State) (e n : Nat) (bytes : Word) : Prop :=
     t.counter (0x200000 + 16 * e) = s.counter (0x200000 + 16 * e) + BitVec.ofNat 64 n ∧
     t.counter (0x200000 + 16 * e + 8) = s.counter (0x200000 + 16 * e + 8) + bytes ∧
     ∀ i, i < 131072 → i / 2 ≠ e → t.counter (0x200000 + 8 * i) = s.counter (0x200000 + 8 * i)
   (∀ (k : TaskId) (w : IWord) (s : State), s.threadRuns k →
     let T := s.task k.val
     let pool := s.rd (Reg.glassPool (w.fn.toNat % 16))
     (∀ e, entry pool (T.read w.src1) e → ∃ t, exec (.cnt (.task k) w) s = .next t ∧
       t.alike (s.setTask k.val { T with stReg := stWord stOk }.step) ∧
       counts s t e (w.val.toNat % 65536) (T.read w.src2)) ∧
     ((∀ e, ¬ entry pool (T.read w.src1) e) →
       threadDoes (.cnt (.task k) w) s k { T with stReg := stWord stAbsent })) ∧
   (∀ (p : PktId) (x : Pkt) (w : IWord) (s : State), s.pickRuns p x → x.loom < 16 →
     let pool := s.preg x.pick.seq (Reg.glassPool (w.fn.toNat % 16))
     (∀ e, entry pool (x.read w.src1) e → s.pickGoesOn x → ∃ t, exec (.cnt (.pick p) w) s = .next t ∧
       t.alike (s.setPkt p (some ((x.setSt (stWord stOk)).ran s.now (x.pick.pc + 1)))) ∧
       counts s t e (w.val.toNat % 65536) (x.read w.src2)) ∧
     ((∀ e, ¬ entry pool (x.read w.src1) e) → pickDoes (.cnt (.pick p) w) s p (x.setSt (stWord stAbsent)))))

/-- R61: FWD, MCAST and DROP set the pick's disposition, the last one set counting, and change nothing else of the
packet; FWD to a port that is not enabled, or to a number that is no port, is a drop with reason BAD_PORT (51). R61,
R129: PUNT takes a token of its loom's bucket for the reason, and sets the disposition with ST_OK; with no rate set,
or less than one token there, it is ST_REFUSED, leaves the disposition and counts in REFUSED of its PUNT_STAT. R61,
R148, R301: RECIRC. In a second pick it is ST_REFUSED and does nothing more. In a first pick it reserves the packet's
cells, ceil((LEN + 112) / 256), once, in the bank of the loom and in the recirculation reserve, and sets the
disposition with ST_OK; with too little room in either, or a head that would be past the 12 lines of its set, or the 6
flows in W2, that recirculated packets pin, it is ST_FULL and leaves the disposition. Beside the rules it rests on the
readings and choices of log entry 105. -/
def Obligations.DispositionInstructions : Prop :=
  (∀ (p : PktId) (x : Pkt) (w : IWord) (s : State), s.pickRuns p x →
     let port := (x.read w.src1).toNat % 1024
     let put (d : Disp) : Pkt := { x with pick := { x.pick with disp := d } }
     let on := s.pfld x.pick.seq (portCfg port) Fld.selvPortCfgEnable = 1
     (port < 512 ∧ on → pickDoes (.fwd (.pick p) w) s p (put (.unicast port ((x.read w.src2).toNat % 16)))) ∧
     (512 ≤ port ∨ ¬ on → pickDoes (.fwd (.pick p) w) s p (put (.drop 51))) ∧
     pickDoes (.mcast (.pick p) w) s p
       (put (.multicast ((x.read w.src1).toNat % 65536) ((x.read w.src2).toNat % 4))) ∧
     pickDoes (.drop (.pick p) w) s p (put (.drop w.fn.toNat))) ∧
  (∀ (p : PktId) (x : Pkt) (w : IWord) (s : State), s.pickRuns p x →
     let r := w.fn.toNat
     let rate := s.pfld x.pick.seq (Reg.loomPuntBkt x.loom r) Fld.loomPuntBktRate
     let burst := max 1 (s.pfld x.pick.seq (Reg.loomPuntBkt x.loom r) Fld.loomPuntBktBurst)
     let b := Tbl.get (Tbl.const { level := 0, at_ := 0 }) s.puntBkt (64 * x.loom + r)
     let level : Int := min (1000000 * burst) (b.level + rate * (s.now - b.at_ : Nat))
     (rate ≠ 0 → 1000000 ≤ level → pickLeaves (.punt (.pick p) w) s p
       (s.setPuntBucket x.loom r { level := level - 1000000, at_ := s.now })
       { x with pick := { x.pick with disp := .punt r ((x.read w.src1).setWidth 32), st := stWord stOk } }) ∧
     (rate = 0 ∨ level < 1000000 → pickLeaves (.punt (.pick p) w) s p
       (s.incF (Reg.loomPuntStat x.loom r) Fld.loomPuntStatRefused) (x.setSt (stWord stRefused)))) ∧
  (∀ (p : PktId) (x : Pkt) (w : IWord) (s : State), s.pickRuns p x →
     let n := (x.frame.length + 112 + 255) / 256
     let pinned := ∃ h, x.pick.held = some h ∧
       let flows := s.recPinned h.line
       let lines := (flows.map (·.2)).sum
       let more := if ∃ e ∈ flows, e.1 = h.line then 0 else
         if (s.line h.line).any (fun c => c.second.isSome) = true then 2 else 1
       12 ≤ lines ∨ 12 < lines + more ∨ (s.pickProfile x.pick.seq = 2 ∧ 6 ≤ flows.length)
     let room := n ≤ s.recircFree ∧ n ≤ s.bankFree x.loom
     let y := { x with pick := { x.pick with disp := .recirc, st := stWord stOk } }
     (x.pick.pick2 = true → pickDoes (.recirc (.pick p) w) s p (x.setSt (stWord stRefused))) ∧
     (x.pick.pick2 = false → x.resv ≠ 0 → pickDoes (.recirc (.pick p) w) s p y) ∧
     (x.pick.pick2 = false → x.resv = 0 → room → ¬ pinned →
       pickLeaves (.recirc (.pick p) w) s p { s.addBank x.loom n with beam := { (s.addBank x.loom n).beam with
         recircUsed := s.beam.recircUsed + n } } { y with resv := n }) ∧
     (x.pick.pick2 = false → x.resv = 0 → ¬ room ∨ pinned →
         pickDoes (.recirc (.pick p) w) s p (x.setSt (stWord stFull))))

/-- R54, R260, R266, R360: LD.T of a pick and of a thread: the dest and the code from what the lookup finds, and AUX
from the source lookup that bit 20 of val asks for. A next hop with REWRITE is remembered as a rewrite source (R263).
A lookup whose line stands in a channel that rests waits, and has the channel woken. R54, R260 to R262: what the
replicated tables answer: MAC entries by exact match, next hops by index, and no table above 7. R261: tables 1 and 2
answer the RESULT of the covering record with the greatest LEN, of the lowest index among equals; with no covering
record they miss. R266: AUX of a source lookup and what it queues: the entry is of the packet's own port, AUX 0;
learning is off, on a second pick, for an injected packet, AUX 2; the entry is static, pinned or of a group, AUX 5;
the port is at its limit, AUX 3 or 4; a new key is queued for the shuttle once, AUX 1; a full queue drops it, AUX 6.
An entry of the packet's own port is marked HIT, now, in the replica of its loom, whatever AUX says. Beside the rules
it rests on the readings and choices of log entries 49, 63, 76, 128. -/
def Obligations.TableLookups : Prop :=
  ((∀ (k : TaskId) (w : IWord) (s : State), s.threadRuns k →
     let T := s.task k.val
     let t := w.fn.toNat % 32
     let held := s.lookHeld s.bat.seq t (T.read w.src1) (T.read w.src2) (w.val.toNat % 65536)
     let r := s.lookTable s.bat.seq (.task k.val) t (T.read w.src1) (T.read w.src2) (w.val.toNat % 65536)
     (∀ a, held = some a → exec (.ldT (.task k) w) s = .next (s.hbmWake a)) ∧ (held = none →
     (∀ d, r.2 = .hit d → threadLeaves (.ldT (.task k) w) s k r.1 { T.write w.dest d with stReg := stWord stOk }) ∧
     (r.2 = .miss → threadLeaves (.ldT (.task k) w) s k r.1 { T.write w.dest 0 with stReg := stWord stMiss }) ∧
     (r.2 = .absent → threadLeaves (.ldT (.task k) w) s k r.1 { T.write w.dest 0 with stReg := stWord stAbsent }))) ∧
   (∀ (p : PktId) (x : Pkt) (w : IWord) (s : State), s.pickRuns p x →
     let t := w.fn.toNat % 32
     let held := s.lookHeld x.pick.seq t (x.read w.src1) (x.read w.src2) (w.val.toNat % 65536)
     let r := s.lookTable x.pick.seq (.loom x.loom) t (x.read w.src1) (x.read w.src2) (w.val.toNat % 65536)
     let src := if t = 0 ∧ w.val.getLsbD 20 = true then r.1.sourceLookup x (x.read w.src1) else (r.1, 0)
     let via (d : Word) : Pkt := { x with pick := { x.pick with
       nextHop := if t = 3 ∧ d.getLsbD 14 = true then some d else x.pick.nextHop } }
     (∀ a, held = some a → exec (.ldT (.pick p) w) s = .next (s.hbmWake a)) ∧ (held = none →
     (∀ d, r.2 = .hit d →
         pickLeaves (.ldT (.pick p) w) s p src.1 (((via d).write w.dest d).setSt (stWord stOk src.2))) ∧
     (r.2 = .miss → pickLeaves (.ldT (.pick p) w) s p src.1 ((x.write w.dest 0).setSt (stWord stMiss src.2))) ∧
     (r.2 = .absent → pickLeaves (.ldT (.pick p) w) s p src.1 ((x.write w.dest 0).setSt (stWord stAbsent src.2)))))) ∧
  (∀ (s : State) (seq : BitVec 32) (who : EvMaster) (lo hi : Word) (vrf : Nat),
     let key := lo.toNat % 2 ^ 60
     let inBucket (e : Nat) : Prop := e / 8 = s.pickMacBucket seq key ∧
       (s.ple seq (0x20000000 + 16 * e) 8).testBit 63 = true ∧ s.ple seq (0x20000000 + 16 * e) 8 % 2 ^ 60 = key
     let nh := s.ple seq (0x20A00000 + 16 * (lo.toNat % 65536)) 2
     ((∀ e, ¬ inBucket e) → s.lookTable seq who 0 lo hi vrf = (s, .miss)) ∧
     (∀ e, inBucket e → (∀ f, inBucket f → f = e) →
       ∃ d, s.lookTable seq who 0 lo hi vrf = (s, .hit d) ∧
         d.toNat = s.ple seq (0x20000000 + 16 * e + 8) 8 % 2 ^ 19) ∧
     (nh.testBit 15 = false → s.lookTable seq who 3 lo hi vrf = (s, .miss)) ∧
     (nh.testBit 15 = true → ∃ d, s.lookTable seq who 3 lo hi vrf = (s, .hit d) ∧
       d.toNat = nh % 2 ^ 15 + lo.toNat % 65536 * 65536) ∧
     (∀ t, 8 ≤ t → s.lookTable seq who t lo hi vrf = (s, .absent))) ∧
  (∀ (s : State) (seq : BitVec 32) (who : EvMaster) (lo hi : Word) (vrf : Nat) (v6 : Bool),
     let t := if v6 then 2 else 1
     let key := if v6 then lo.toNat + hi.toNat * 2 ^ 64 else lo.toNat % 2 ^ 32
     let at_ (i : Nat) : Nat := if v6 then 0x20600000 + 32 * i else 0x20200000 + 16 * i
     let n := if v6 then 131072 else 262144
     let len (i : Nat) : Option Nat := s.covers seq v6 (at_ i) key vrf
     ((∀ i, i < n → len i = none) → s.lookTable seq who t lo hi vrf = (s, .miss)) ∧
     (∀ i l, i < n → len i = some l → (∀ j m, j < n → len j = some m → m < l ∨ (m = l ∧ i ≤ j)) →
       s.lookTable seq who t lo hi vrf = (s, .hit (s.pw64 seq (at_ i + if v6 then 24 else 8))))) ∧
  (∀ (s : State) (x : Pkt) (k : Nat) (w1 : Option Nat),
     let q := x.pick.seq
     let full := s.limitMet x.inPort (s.pfld q (Reg.learnPort x.inPort) Fld.learnPortLimit)
     let mine := s.learn.queue.filter fun v => v.loom == x.loom
     let off := s.pfld q Reg.learnCtl Fld.learnCtlEnable = 0 ∨ x.pick.pick2 = true ∨ x.injected = true ∨
       512 ≤ x.inPort ∨ s.pickNoLearn q x.inPort = true
     let own := ∃ w, w1 = some w ∧ w.testBit 16 = false ∧ w % 65536 = x.inPort
     let fixed := ∃ w, w1 = some w ∧ (w.testBit 16 = true ∨ w.testBit 17 = true ∨ w.testBit 18 = true)
     (off → s.sourceAux x k w1 = (s, 2)) ∧
     (¬ off → own → s.sourceAux x k w1 = (s, 0)) ∧
     (¬ off → ¬ own → fixed → s.sourceAux x k w1 = (s, 5)) ∧
     (¬ off → ¬ own → ¬ fixed → full = true →
       s.sourceAux x k w1 = (s, if s.pfld q (Reg.learnPort x.inPort) Fld.learnPortExcess = 0 then 3 else 4)) ∧
     (¬ off → ¬ own → ¬ fixed → full = false → (∃ v ∈ mine, v.key = k) → s.sourceAux x k w1 = (s, 1)) ∧
     (¬ off → ¬ own → ¬ fixed → full = false → (∀ v ∈ mine, v.key ≠ k) → mine.length < 64 →
       ∃ l, s.sourceAux x k w1 = ({ s with learn := { s.learn with queue := l } }, 1) ∧
         l.Perm ({ key := k, port := x.inPort, loom := x.loom, at_ := s.now } :: s.learn.queue)) ∧
     (¬ off → ¬ own → ¬ fixed → full = false → (∀ v ∈ mine, v.key ≠ k) → 64 ≤ mine.length →
       (s.sourceAux x k w1).2 = 6 ∧ (s.sourceAux x k w1).1.learn = s.learn) ∧
     (∀ lo : Word, lo.toNat % 2 ^ 60 = k →
       let e := s.macFind q (s.pickMacBucket q k) k
       (e = [] → s.sourceLookup x lo = s.sourceAux x k none) ∧
       (∀ i l w, e = i :: l → (s.macWords q i).2 = w →
         let r := s.sourceAux x k (some w)
         let now := s.pickFlowNow q (s.pfld q Reg.learnCtl Fld.learnCtlTimeDomain)
         s.sourceLookup x lo =
           if w.testBit 16 = false ∧ w % 65536 = x.inPort then (r.1.macHit now i x.loom, r.2) else r)))

/-- R58: what the flow instructions refuse. With the Warp disabled every one is ST_ABSENT. FLOOK and FCREATE in a pick
that holds a head are ST_REFUSED; with an undefined key form, or an invalid slot of the form, ST_ABSENT. FUPD and
FFOLD without a head are ST_ABSENT; FUPD to a field it may not write is ST_REFUSED. Nothing else changes. R58, R138,
R142, R150: FLOOK of a key whose head is in the flow cache, in W2 with its tail image, holds it: HIT sets, LAST_SEEN
is now, ONSET rises to at most 7 on a first pick, the line is dirty and pinned once more, in W2 a first pick's arrival
enters the image, and the code is ST_OK where the head's generation is the current one and ST_STALE where it is not.
FCREATE of the same key holds it too, with dest 0 and ST_OK. In W2 a cached head without its image is pinned, gets a
second line, and its tail is read (R147). R144, R150: FLOOK of a key that neither the flow cache, nor the victim
buffer, nor an index knows is ST_MISS, at once and with no other effect. Beside the rules it rests on the readings and
choices of log entries 92, 99. -/
def Obligations.FlowLookups : Prop :=
  ((∀ (p : PktId) (x : Pkt) (w : IWord) (s : State), s.pickRuns p x →
     let off := s.pickWarpOn x = false
     let gives (c : Instr) (code : Nat) : Prop := pickDoes c s p (x.setSt (stWord code))
     let badForm := s.pfld x.pick.seq (Reg.warpKeyform (w.fn.toNat % 16)) Fld.warpKeyformValid = 0
     let slots := BitVec.ofNat 32 (s.pfld x.pick.seq (Reg.warpKeyform (w.fn.toNat % 16)) Fld.warpKeyformSlotMask)
     (off → gives (.flook (.pick p) w) stAbsent ∧ gives (.fcreate (.pick p) w) stAbsent ∧
       gives (.fupd (.pick p) w) stAbsent ∧ gives (.ffold (.pick p) w) stAbsent) ∧
     (¬ off → x.pick.held.isSome = true →
       gives (.flook (.pick p) w) stRefused ∧ gives (.fcreate (.pick p) w) stRefused) ∧
     (¬ off → x.pick.held = none → badForm ∨ x.hfValid &&& slots ≠ slots →
       gives (.flook (.pick p) w) stAbsent ∧ gives (.fcreate (.pick p) w) stAbsent) ∧
     (¬ off → x.pick.held = none → gives (.fupd (.pick p) w) stAbsent ∧ gives (.ffold (.pick p) w) stAbsent) ∧
     (¬ off → x.pick.held.isSome = true → w.fn.toNat % 8 ≠ 4 →
       fupdField (w.val.toNat % 64) (2 ^ (w.val.toNat / 64 % 4)) = false → gives (.fupd (.pick p) w) stRefused)) ∧
   (∀ (k : TaskId) (w : IWord) (s : State), s.threadRuns k →
     s.warpOn = false ∨ s.isPlaced (((s.task k.val).read w.src1).toNat % 2 ^ 28) = false →
     threadDoes (.fdelidle (.task k) w) s k { s.task k.val with stReg := stWord stAbsent })) ∧
  (∀ (p : PktId) (x : Pkt) (w : IWord) (s : State) (m : BitVec 32) (key : List Byte) (l : Nat) (c : CLine),
     s.pickRuns p x → s.pickWarpOn x = true → x.pick.held = none → x.kept = none →
     s.pickKey x (w.fn.toNat % 16) ((x.read w.src1).toNat % 2 ^ 32) = some (m, key) →
     s.sealBusy p (s.sealOf key) = false → s.cacheFind (s.sealOf key) = some l → s.line l = some c →
     let w2 := s.pickProfile x.pick.seq = 2
     let h := touchHead c.head (!x.pick.pick2) (s.pickFlowTime x)
     let arrival := x.arrivalUs (s.pfld x.pick.seq Reg.warpCtl Fld.warpCtlTimeDomain)
     let img := if w2 ∧ x.pick.pick2 = false then c.image.map (imgArrive · arrival) else c.image
     let u := s.setLine l (some { c with head := h, image := img, dirty := true, refBit := true, pins := c.pins + 1 })
     let y (code : Nat) : Pkt := { x with pick := { x.pick with
       looked := true, st := stWord code
       held := some { line := l, key96 := headSeal h, rno := c.rno, gen := headGen h, created := false,
                      onset := headOnset h } } }
     (¬ w2 ∨ c.image.isSome = true →
       pickLeaves (.flook (.pick p) w) s p u (y (if headGen h = s.pickGen x then stOk else stStale)) ∧
       pickLeaves (.fcreate (.pick p) w) s p u ((y stOk).write w.dest 0)) ∧
     headHit h = true ∧ hget h 20 4 = s.pickFlowTime x % 2 ^ 32 ∧
     headOnset h = (if x.pick.pick2 then headOnset c.head else min 7 (headOnset c.head + 1)) ∧
     headSeal h = headSeal c.head ∧ headGen h = headGen c.head ∧
     (w2 → c.image = none → x.pick.spare = none →
       ∀ n, ((List.range 16).map (setBase (s.sealOf key) + ·)).find? (fun i => (s.line i).isNone) = some n →
       ∃ t y i, exec (.flook (.pick p) w) s = .next t ∧ t.pkt? p = some y ∧ y.pick.wait = .head i ∧ i.line = l ∧
         i.rno = c.rno ∧ t.line l = some { c with pins := c.pins + 1, second := some n } ∧
         (t.line n).map (fun d => d.isSecond) = some true)) ∧
  (∀ (p : PktId) (x : Pkt) (w : IWord) (s : State) (m : BitVec 32) (key : List Byte),
     s.pickRuns p x → s.pickWarpOn x = true → x.pick.held = none → x.kept = none →
     s.pickKey x (w.fn.toNat % 16) ((x.read w.src1).toNat % 2 ^ 32) = some (m, key) →
     s.sealBusy p (s.sealOf key) = false → s.cacheFind (s.sealOf key) = none →
     (s.victims (lineBank (setBase (s.sealOf key)))).find? (fun v => headSeal v.head == s.sealOf key) = none →
     s.candidate (s.sealOf key) = none →
     pickDoes (.flook (.pick p) w) s p { x with pick := { x.pick with looked := true, st := stWord stMiss } })

/-- R145, R154: FCREATE of an unknown key places a record: the pick holds a new head with VALID, HIT and FRESH set,
its form, generation and ONSET 1, its seal, and both times now; dest is 1 and the code ST_OK, or ST_REHASH in the
overflow area. In W2 the head gets a second line and an image that holds its arrival (R142, R147). With every line
taken and the victim buffer full, the record keeps its place and the pick waits for a line. With no place it is
ST_FULL and the pick holds nothing. R58, R138, R153: FUPD changes one field of the held head, by its op, and FFOLD
adds to a delta pair that has room; each sets HIT and gives ST_OK. R138: a field written in a head reads back, and
every field that does not meet it stays. Beside the rules it rests on the readings and choices of log entry 98. -/
def Obligations.FlowRecords : Prop :=
  (∀ (p : PktId) (x : Pkt) (w : IWord) (s : State) (m : BitVec 32) (key : List Byte),
     s.pickRuns p x → s.pickGoesOn x → s.pickWarpOn x = true → x.pick.held = none → x.kept = none →
     x.pick.spare = none → w.dest.toNat < 16 → (∀ f, s.pfdigForm x.pick.seq Fld.warpFdigCtlCreateForms f = false) →
     s.pickKey x (w.fn.toNat % 16) ((x.read w.src1).toNat % 2 ^ 32) = some (m, key) →
     let k := s.sealOf key
     s.sealBusy p k = false → s.cacheFind k = none →
     (s.victims (lineBank (setBase k))).find? (fun v => headSeal v.head == k) = none → s.candidate k = none →
     (∀ r g l, s.pickProfile x.pick.seq ≠ 2 → s.place (s.tableFor k) k = some (.way r g) →
       ((List.range 16).map (setBase k + ·)).find? (fun i => (s.line i).isNone) = some l →
       ∃ t h c, exec (.fcreate (.pick p) w) s = .next t ∧ t.line l = some c ∧ c.head = h ∧ c.rno = r ∧
         c.dirty = true ∧ c.pins = 1 ∧ t.tag r = g ∧ headSeal h = k ∧ headValid h = true ∧ headHit h = true ∧
         headFresh h = true ∧ headForm h = w.fn.toNat % 16 ∧ headOnset h = 1 ∧ headGen h = s.pickGen x % 65536 ∧
         hget h 16 4 = s.pickFlowTime x % 2 ^ 32 ∧ hget h 20 4 = s.pickFlowTime x % 2 ^ 32 ∧ hasDeltas h = false ∧
         ∃ y, t.pkt? p = some y ∧ y.pick.held.map (fun i => (i.line, i.rno)) = some (l, r) ∧
           y.pick.st = stWord stOk ∧ y.read w.dest = 1 ∧ y.pick.pc = x.pick.pc + 1) ∧
     (∀ r i l, s.pickProfile x.pick.seq ≠ 2 → s.place (s.tableFor k) k = some (.overflow r i) →
       ((List.range 16).map (setBase k + ·)).find? (fun i => (s.line i).isNone) = some l →
       ∃ t c y, exec (.fcreate (.pick p) w) s = .next t ∧ t.line l = some c ∧ headSeal c.head = k ∧ c.rno = r ∧
         Tbl.get (Tbl.const none) t.warp.ovf i = some k ∧ t.pkt? p = some y ∧ y.pick.st = stWord stRehash ∧
         y.pick.held.map (fun i => (i.line, i.rno)) = some (l, r) ∧ y.read w.dest = 1) ∧
     (∀ r g l n, s.pickProfile x.pick.seq = 2 → s.place (s.tableFor k) k = some (.way r g) →
       ((List.range 16).map (setBase k + ·)).find? (fun i => (s.line i).isNone) = some l →
       ((List.range 16).map (setBase k + ·)).find? (fun i => decide (i ≠ l) && (s.line i).isNone) = some n →
       ∃ t c y, exec (.fcreate (.pick p) w) s = .next t ∧ t.line l = some c ∧ headSeal c.head = k ∧ c.rno = r ∧
         c.second = some n ∧ c.image = some (imgCreate (x.arrivalUs
           (s.pfld x.pick.seq Reg.warpCtl Fld.warpCtlTimeDomain))) ∧
         (t.line n).map (fun d => d.isSecond) = some true ∧ t.pkt? p = some y ∧ y.pick.st = stWord stOk ∧
         y.pick.held.map (fun i => (i.line, i.rno)) = some (l, r) ∧ y.read w.dest = 1) ∧
     (∀ r g, s.place (s.tableFor k) k = some (.way r g) → (∀ i, i < 16 → (s.line (setBase k + i)).isSome = true) →
       64 ≤ (s.victims (lineBank (setBase k))).length →
       ∃ t y cw, exec (.fcreate (.pick p) w) s = .next t ∧ t.tag r = g ∧ t.pkt? p = some y ∧
         y.pick.wait = .create cw ∧
         cw.key96 = k ∧ y.pick.pc = x.pick.pc) ∧
     (s.place (s.tableFor k) k = none → (s.rd Reg.warpErr).getLsbD 1 = true → pickDoes (.fcreate (.pick p) w) s p
       { x with pick := { x.pick with looked := true, st := stWord stFull } })) ∧
  (∀ (p : PktId) (x : Pkt) (w : IWord) (s : State) (i : Held) (c : CLine), s.pickRuns p x →
     s.pickWarpOn x = true → x.pick.held = some i → s.line i.line = some c →
     let op := w.fn.toNat % 8
     let o := w.val.toNat % 64
     let n := 2 ^ (w.val.toNat / 64 % 4)
     let v := (x.read w.src1).toNat
     let old := hget c.head o n
     let new := if op = 1 then old ||| v % 2 ^ (8 * n) else if op = 2 then old &&& (2 ^ (8 * n) - 1 - v % 2 ^ (8 * n))
       else if op = 3 then (old + v) % 2 ^ (8 * n) else v % 2 ^ (8 * n)
     let leaves (b : Instr) (h : Head) : Prop := pickLeaves b s p
       (s.setLine i.line (some { c with head := headBit h 30 true, dirty := true, refBit := true }))
       (x.setSt (stWord stOk))
     let pair := w.fn.toNat % 4
     let bytes := v % 2 ^ 32
     let pkts := w.val.toNat % 65536
     let d := delta c.head pair
     (op ≠ 4 → o % n = 0 → 24 ≤ o → o + n ≤ 40 → leaves (.fupd (.pick p) w) (hput c.head o n new)) ∧
     (op = 4 → leaves (.fupd (.pick p) w) (hput c.head 0 2 (s.pickGen x))) ∧
     (bytes = 0 → pkts = 0 → pickDoes (.ffold (.pick p) w) s p (x.setSt (stWord stOk))) ∧
     (bytes ≠ 0 ∨ pkts ≠ 0 → d.1 + pkts ≤ 0xFFFF → d.2 + bytes ≤ 0xFFFFFFFF →
       leaves (.ffold (.pick p) w)
         (hput (hput c.head (40 + 6 * pair) 2 (d.1 + pkts)) (42 + 6 * pair) 4 (d.2 + bytes)))) ∧
  (∀ (h : Head) (o n v : Nat), o + n ≤ 64 →
     hget (hput h o n v) o n = v % 2 ^ (8 * n) ∧
     ∀ q m, q + m ≤ 64 → q + m ≤ o ∨ o + n ≤ q → hget (hput h o n v) q m = hget h q m)

/-- R155, R156, R157, R360: FDELIDLE of a placed record reads its head, which the cache or HBM holds. Where its HIT is
set, it is ST_REFUSED, and clears HIT of its cached head where bit 0 of fn asks for it; of an idle record, it is ST_OK
and the record is placed no more: its tag or its overflow entry is released, and an unpinned line of it is freed. A
head that cannot be read is lost with its record, with ST_ABSENT (log entry 127). While a pick waits for the record's
head, or its channel rests, the instruction does not complete yet. R147, R150 steps 6 and 7, R154: the head a pick
waits for has been read. A head that is valid and of the key's seal is held by the pick that waited, in W2 with its
tail image, which a cached head without one gets too; FCREATE then gives dest 0 and ST_OK. Another head leaves an
FLOOK with ST_MISS and its line in reserve, and so does one that reads uncorrectable (R157), and a key that no index
knows any more. While the read is in its queue, nothing happens. R151: an entry leaves the victim buffer once its
writes have been issued, and not before. Beside the rules it rests on the readings and choices of log entries 92, 97,
127. That a command whose conditions do not hold changes nothing is log entry 5. -/
def Obligations.FlowHeadsComeAndGo : Prop :=
  (∀ (k : TaskId) (w : IWord) (s : State), s.threadRuns k → s.warpOn = true →
     let T := s.task k.val
     let r := (T.read w.src1).toNat % 2 ^ 28
     let a := s.headAddr r
     let u := s.hbmTraffic false true (.task k.val) a 64
     let gone (t : State) : Prop := t.isPlaced r = false ∧
       (s.ovfFirst ≤ r → r < s.ovfFirst + s.ovfCount → Tbl.get (Tbl.const none) t.warp.ovf (r - s.ovfFirst) = none) ∧
       (¬ (s.ovfFirst ≤ r ∧ r < s.ovfFirst + s.ovfCount) → t.tag r = 0)
     s.isPlaced r = true →
     (s.recBusy r = true → exec (.fdelidle (.task k) w) s = .next s) ∧
     (s.recBusy r = false → ∀ b, s.accessHeld a 128 = some b → exec (.fdelidle (.task k) w) s = .next (s.hbmWake b)) ∧
     (s.recBusy r = false → s.accessHeld a 128 = none →
       (∀ l c, s.lineOfRec r = some l → s.line l = some c → headHit c.head = true →
         (w.fn.getLsbD 0 = false → threadLeaves (.fdelidle (.task k) w) s k u { T with stReg := stWord stRefused }) ∧
         (w.fn.getLsbD 0 = true → threadLeaves (.fdelidle (.task k) w) s k
           (u.setLine l (some { c with head := headBit c.head 30 false, dirty := true }))
           { T with stReg := stWord stRefused })) ∧
       ((s.ovfFirst ≤ r → r < s.ovfFirst + s.ovfCount → s.tag r = 0) →
         (∀ l c, s.lineOfRec r = some l → s.line l = some c → headHit c.head = false →
           ∃ t, exec (.fdelidle (.task k) w) s = .next t ∧ (t.task k.val).stReg = stWord stOk ∧ gone t ∧
             (c.pins = 0 → t.line l = none)) ∧
         (s.lineOfRec r = none → s.victimOfRec r = none → u.hbmUnc a = false →
           headHit (BitVec.ofNat 512 (u.le a 64)) = false →
           ∃ t, exec (.fdelidle (.task k) w) s = .next t ∧ (t.task k.val).stReg = stWord stOk ∧ gone t) ∧
         (s.lineOfRec r = none → s.victimOfRec r = none → u.hbmUnc a = true →
           ∃ t, exec (.fdelidle (.task k) w) s = .next t ∧ (t.task k.val).stReg = stWord stAbsent ∧ gone t)))) ∧
  (∀ (p : PktId) (x : Pkt) (i : HeadWait) (c : CLine) (s : State), s.halted = false → s.pkt? p = some x →
     x.pick.wait = .head i → s.line i.line = some c →
     let held (errs : List SymErr) (r : Nat) (h : Head) : Prop :=
       ∃ t y d, exec (.flowHeadFill p errs) s = .next t ∧ t.pkt? p = some y ∧ t.line i.line = some d ∧
         y.pick.held.map (fun j => (j.line, j.rno, j.key96)) = some (i.line, r, headSeal h) ∧ y.pick.wait = .none ∧
         (i.create = none → y.pick.st = stWord (if headGen h = s.pickGen x then stOk else stStale)) ∧
         (∀ e, i.create = some e → y.pick.st = stWord stOk ∧ (e.toNat < 16 → y.read e = 0)) ∧
         y.pick.pc = x.pick.pc + 1 ∧ d.reserved = false ∧ d.rno = r ∧
         d.head = touchHead h (!x.pick.pick2) (s.pickFlowTime x) ∧
         (s.pickProfile x.pick.seq = 2 → d.image.isSome = true)
     let missed : Pkt := { x with pick := { x.pick with wait := .none, spare := some i.line, st := stWord stMiss } }
     (∀ errs, i.reqs.all s.reqDone = false → exec (.flowHeadFill p errs) s = .next s) ∧
     (i.reqs.all s.reqDone = true → c.reserved = false → s.pickGoesOn x → ∀ errs, held errs c.rno c.head) ∧
     (i.reqs.all s.reqDone = true → c.reserved = true → i.create = none → s.candidate i.key96 = none → ∀ errs,
       pickLeaves (.flowHeadFill p errs) s p s missed) ∧
     (i.reqs.all s.reqDone = true → c.reserved = true → ∀ r errs, s.candidate i.key96 = some r →
       let v := (s.spoil (hbmLine (s.headAddr r)) errs).lineSeen (s.headAddr r)
       let h : Head := BitVec.ofNat 512 (v.le (s.headAddr r) 64)
       (i.create = none → v.hbmUnc (s.headAddr r) = true → s.pickGoesOn x →
         ∃ t y, exec (.flowHeadFill p errs) s = .next t ∧ t.pkt? p = some y ∧ y.pick.wait = .none ∧
           y.pick.st = stWord stMiss ∧ y.pick.spare = some i.line) ∧
       (v.hbmUnc (s.headAddr r) = false → headValid h = true → headSeal h = i.key96 → s.pickGoesOn x →
           held errs r h) ∧
       (i.create = none → v.hbmUnc (s.headAddr r) = false → ¬ (headValid h = true ∧ headSeal h = i.key96) →
         pickLeaves (.flowHeadFill p errs) s p (v.setLine i.line (some { c with rno := r })) missed))) ∧
  (∀ (b : Fin 64) (n : Nat) (v : Victim) (s : State), s.halted = false → (s.victims b.val)[n]? = some v →
     (v.reqs.all s.reqDone = true →
       exec (.victimRelease b n) s = .next (s.setVictims b.val ((s.victims b.val).eraseIdx n))) ∧
     (v.reqs.all s.reqDone = false → exec (.victimRelease b n) s = .next s))

/-- R13, R51: LD gives the bytes its access returns, zero- or sign-extended, and ST stores the low bytes of s2, at (s1
+ sext(val)) mod 2^48; an uncorrectable read gives 0 and a MASKED record (R364); a load that a channel at rest holds
back stands outstanding while its requests wait, and completes into the task's register when they are done (R360,
R418); an access that is undefined behaviour stops (R4). R9, R10, R51, R200, R364: an access inside one 64-byte block:
HBM and reachable host memory give and take the bytes they hold, an access to HBM queuing its requests, and a store to
table 6 going to both copies; a freed unit of the punt buffer is undefined behaviour 39 to read (R431); an address in
no region is undefined behaviour 2, and a register access that is not an aligned one of 32 or 64 bits undefined
behaviour 3. A register access takes the registers' rules. The memory of the model: a read gives the byte last stored
at its address, a store leaves every other byte, and the list keeps its one canonical form: addresses rise, and no
byte is listed that an unlisted address reads as. Beside the rules it rests on the readings and choices of log entries
49, 83, 84, 89. -/
def Obligations.MemoryAccess : Prop :=
  (∀ (k : TaskId) (w : IWord) (s : State), s.threadRuns k →
     let T := s.task k.val
     let a := ((T.read w.src1).toNat + (w.val.signExtend 64).toNat) % 2 ^ 48
     let n := 2 ^ (w.fn.toNat % 4)
     let s1 := s.countAccess (.task k.val) a
     let held := s.accessHeld a n
     (held ≠ none → becomes (.ld (.task k) w) s ((s.holdLoad w k.val a n).updTask k.val Task.step) ∧
       ∃ l, (s.holdLoad w k.val a n).task k.val = { T with load := some l } ∧ l.addr = a ∧ l.n = n ∧ l.dest = w.dest ∧
         l.signed = w.fn.getLsbD 2) ∧
     (∀ (u : State) (l : Load), (∀ b ∈ linesOf l.addr l.n, u.hbmUnc (u.readFrom b) = false) →
       (u.loadDone k.val l).task k.val = { (u.task k.val).write l.dest
         (loadValue l.signed (l.got.getD (u.peek l.addr l.n))) with load := none }) ∧
     (∀ r, held = none → s1.busRead (.task k.val) a n = .ok r → r.unc = false → ∃ v : Word,
       becomes (.ld (.task k) w) s ((r.st.updTask k.val fun t => t.write w.dest v).updTask k.val Task.step) ∧
       (w.fn.getLsbD 2 = false → r.bytes.length = n → v.toNat = ofLE r.bytes) ∧
       (w.fn.getLsbD 2 = true → r.bytes.length = n → v.toInt = (BitVec.ofNat (8 * n) (ofLE r.bytes)).toInt)) ∧
     (∀ r, held = none → s1.busRead (.task k.val) a n = .ok r → r.unc = true → becomes (.ld (.task k) w) s
       (((r.st.linesLost s a n).updTask k.val fun t => t.write w.dest 0).updTask k.val Task.step)) ∧
     (∀ e, held = none → s1.busRead (.task k.val) a n = .error e → exec (.ld (.task k) w) s = .fault e) ∧
     (∀ u, s.countedWrite (.task k.val) a (toLE n (T.read w.src2).toNat) = .ok u →
       becomes (.st (.task k) w) s (u.updTask k.val Task.step)) ∧
     (∀ e, s.countedWrite (.task k.val) a (toLE n (T.read w.src2).toNat) = .error e →
       exec (.st (.task k) w) s = .fault e)) ∧
  (∀ (s : State) (who : EvMaster) (a : Nat) (bs : List Byte), bs ≠ [] → a % 64 + bs.length ≤ 64 →
     let n := bs.length
     let free := s.inOverlay a n = false ∧ s.inDescriptor a n = false
     (regionOf a = .none → s.busRead who a n = .error (.undefinedBehaviour 2) ∧
       (free → s.busWrite who a bs = .error (.undefinedBehaviour 2))) ∧
     (regionOf a = .reg → regAccessOk a n = false → s.busRead who a n = .error (.undefinedBehaviour 3) ∧
       (free → s.busWrite who a bs = .error (.undefinedBehaviour 3))) ∧
     (regionOf a = .reg → regAccessOk a n = true → s.busRead who a n =
       .ok { bytes := (s.regAccess a n).1, unc := false, st := (s.regAccess a n).2 }) ∧
     (regionOf a = .host → s.boot.pcieUp = true → s.busRead who a n =
         .ok { bytes := s.bytes a n, unc := false, st := s } ∧
       (free → s.busWrite who a bs = .ok (s.setBytes a bs))) ∧
     (regionOf a = .hbm → s.hbmUnc (s.readFrom a) = false → s.busRead who a n =
       .ok { bytes := s.bytes (s.readFrom a) n, unc := false, st := s.hbmTraffic false true who (s.readFrom a) n }) ∧
     (regionOf a = .hbm → s.hbmUnc (s.readFrom a) = true → ∃ t, s.busRead who a n =
       .ok { bytes := List.replicate n 0, unc := true, st := t }) ∧
     (regionOf a = .hbm → free → (∀ i, i < n → s.hbmBad (a + i) (bs.getD i 0) = none) →
       let u := (s.hbmTraffic false false who a n).hbmPut a bs
       (s.mirrorOf a = none → s.busWrite who a bs = .ok u) ∧
       (∀ m, s.mirrorOf a = some m → s.busWrite who a bs = .ok ((u.hbmTraffic false false who m n).hbmPut m bs))) ∧
     (regionOf a = .die → s.busRead who a n = if s.inFreed a n = true then .error (.undefinedBehaviour 39)
       else .ok { bytes := s.dieBytes a n, unc := false, st := s }) ∧
     (s.inOverlay a n = true → s.busWrite who a bs = .error (.undefinedBehaviour 8)) ∧
     (s.inOverlay a n = false → s.inDescriptor a n = true → s.busWrite who a bs = .error (.undefinedBehaviour 6))) ∧
  (∀ (s : State) (a : Nat) (bs : List Byte),
     (∀ b, (s.setBytes a bs).byte b = if a ≤ b ∧ b < a + bs.length then bs.getD (b - a) 0 else s.byte b) ∧
     (s.setBytes a bs).bytes a bs.length = bs ∧
     (Tbl.wf memReset s.mem = true → Tbl.wf memReset (s.setBytes a bs).mem = true) ∧
     ∀ t : State, Tbl.wf memReset s.mem = true → Tbl.wf memReset t.mem = true → (∀ b, t.byte b = s.byte b) →
       t.mem = s.mem)

/-- R51, R82: STS appends to the task's stage list, up to 256 entries, and is ST_FULL beyond; an entry that a batten
may not carry is undefined behaviour. BATTEN hands the list to the batten queue, where it takes a place, or waits for
one among the 63 that thread battens have, and the task waits. R89, R90, R103: a write of BEAM_HSTAGE_DATA appends an
entry at the staged address and width to the host's list, up to 256 entries, and beyond sets FULL; an entry that a
batten may not carry is undefined behaviour. A write of BEAM_BATTEN_CMD with GO 1 queues a host batten, unless one is
queued. The host reaches neither before the start ends, nor over a link that is down (R491, R510). A register word
that the overlay holds is not written (R86, case 8), nor any at a stand (R465, R503), here and in every statement of a
register write below. Beside the rules it rests on the readings and choices of log entries 14, 29, 107. That a command
whose conditions do not hold changes nothing is log entry 5. -/
def Obligations.StagingStores : Prop :=
  (∀ (k : TaskId) (w : IWord) (s : State), s.threadRuns k →
     let T := s.task k.val
     let a := ((T.read w.src1).toNat + (w.val.signExtend 64).toNat) % 2 ^ 48
     let n := 2 ^ (w.fn.toNat % 4)
     let b : BatReq := { host := false, task := k.val, wake := true, ws := w.fn.getLsbD 0, list := [] }
     (256 ≤ T.stage.length → threadDoes (.sts (.task k) w) s k { T with stReg := stWord stFull }) ∧
     (T.stage.length < 256 → s.stageBad a n = none → threadDoes (.sts (.task k) w) s k { T with
       stage := T.stage ++ [{ addr := a, w := w.fn.toNat % 4, data := T.read w.src2 }], stReg := stWord stOk }) ∧
     (∀ u, T.stage.length < 256 → s.stageBad a n = some u →
       exec (.sts (.task k) w) s = .fault (.undefinedBehaviour u)) ∧
     (s.threadBattens < 63 → becomes (.batten (.task k) w) s
       ({ s with bat := { s.bat with queue := s.bat.queue ++ [{ b with list := T.stage }] } }.setTask k.val
         { T with stage := [], wait := .batten })) ∧
     (63 ≤ s.threadBattens → becomes (.batten (.task k) w) s
       ({ s with bat := { s.bat with waiting := s.bat.waiting ++ [b] } }.setTask k.val { T with wait := .batten }))) ∧
  (∀ (v : Word) (s : State),
     let a := s.fld Reg.beamHstageAddr Fld.beamHstageAddrAddr
     let w := s.fld Reg.beamHstageAddr Fld.beamHstageAddrW
     let go := v.getLsbD Fld.beamBattenCmdGo.lo = true
     let pend := ∃ b ∈ s.bat.queue, b.host = true
     (s.hostReaches Reg.beamHstageData = false → exec (.hostStageAppend v) s = .next s) ∧
     (s.hostReaches Reg.beamBattenCmd = false → exec (.hostBatten v) s = .next s) ∧
     (s.hostReaches Reg.beamHstageData = true → s.hostReaches Reg.beamBattenCmd = true →
       s.takesWrites Reg.beamHstageData → s.takesWrites Reg.beamBattenCmd →
     (256 ≤ s.bat.hstage.length → exec (.hostStageAppend v) s =
         .next (s.setF Reg.beamHstageStat Fld.beamHstageStatFull 1)) ∧
     (s.bat.hstage.length < 256 → s.stageBad a (2 ^ (w % 4)) = none → exec (.hostStageAppend v) s =
       .next { s with bat := { s.bat with hstage := s.bat.hstage ++ [{ addr := a, w := w, data := v }] } }) ∧
     (∀ u, s.bat.hstage.length < 256 → s.stageBad a (2 ^ (w % 4)) = some u →
       exec (.hostStageAppend v) s = .fault (.undefinedBehaviour u)) ∧
     (go ∧ ¬ pend → exec (.hostBatten v) s = .next { s with bat := { s.bat with
       queue := s.bat.queue ++ [{ host := true, task := 0, wake := false, ws := true, list := [] }] } }) ∧
     (¬ go ∨ pend → exec (.hostBatten v) s = .next s)))

/-- R63, R273, R428: LOCK and UNLOCK. At an UNLOCK the deferred updates of the bucket arrive again, in deferral order,
and the oldest waiter takes the lock. R412, R417: a task that begins to wait is BLOCKED and in no context, and one
whose wait ends is READY, at the back of the ready order, past its instruction (the model's choice where the rules do
not name the place); nothing else of the device changes but the context time of its group. Beside the rules it rests
on the readings and choices of log entries 57, 118. -/
def Obligations.LocksAndWaits : Prop :=
  (∀ (k : TaskId) (w : IWord) (s : State), s.threadRuns k →
     let T := s.task k.val
     let v := (T.read w.src1).toNat
     let name := v / 2 ^ 56 * 2 ^ 32 + v % 2 ^ 32
     let ends (code aux : Nat) : Task := { T with stReg := stWord code aux }
     (s.lockOf name = none → 8 ≤ T.locks.length → threadDoes (.lock (.task k) w) s k (ends stFull 0)) ∧
     (s.lockOf name = none → T.locks.length < 8 → threadLeaves (.lock (.task k) w) s k
       (s.setLock name (some { holder := k.val, waiters := [] }))
       { T with stReg := stWord stOk, locks := T.locks ++ [name] }) ∧
     (∀ l, s.lockOf name = some l →
       (l.holder = k.val → threadDoes (.lock (.task k) w) s k (ends stLockCycle k.val)) ∧
       (l.holder ≠ k.val → 8 ≤ T.locks.length → threadDoes (.lock (.task k) w) s k (ends stFull 0)) ∧
       (l.holder ≠ k.val → T.locks.length < 8 → w.fn.getLsbD 0 = true →
           threadDoes (.lock (.task k) w) s k (ends stRefused 0)) ∧
       (l.holder ≠ k.val → T.locks.length < 8 → w.fn.getLsbD 0 = false → s.chainTo k.val 4096 l.holder = true →
         threadDoes (.lock (.task k) w) s k (ends stLockCycle l.holder)) ∧
       (l.holder ≠ k.val → T.locks.length < 8 → w.fn.getLsbD 0 = false → s.chainTo k.val 4096 l.holder = false →
         threadWaits (.lock (.task k) w) s k 0x90 w (s.setLock name (some { l with waiters := l.waiters ++ [k.val] }))
           (.lock name))) ∧
     (name ∉ T.locks → threadDoes (.unlock (.task k) w) s k (ends stAbsent 0)) ∧
     (name ∈ T.locks → ∃ t, exec (.unlock (.task k) w) s = .next t ∧ (t.task k.val).stReg = stWord stOk ∧
       ((∀ e ∈ s.learn.pinDeferred, e / 8 ≠ name) →
         t.learn.queue = s.learn.queue ++
           (s.learn.deferred.filter fun v => s.macBucket v.key == name).map (fun v => { v with at_ := s.now }) ∧
         t.learn.deferred = s.learn.deferred.filter fun v => s.macBucket v.key != name) ∧
       (∀ l, s.lockOf name = some l → l.waiters = [] → t.lockOf name = none) ∧
       (∀ l j js, s.lockOf name = some l → l.waiters = j :: js → j ≠ k.val →
         t.lockOf name = some { holder := j, waiters := js } ∧ (t.task j).st = .ready ∧ (t.task j).wait = .none ∧
         name ∈ (t.task j).locks ∧ (t.task j).stReg = stWord stOk))) ∧
  (∀ (s : State) (k : Nat) (w : TaskWait) (f : Task → Task),
     (s.blockTask k w).task k = { s.task k with st := .blocked, wait := w, ctx := none } ∧
     (∀ j, j ≠ k → (s.blockTask k w).task j = s.task j ∧ (s.wakeTask k f).task j = s.task j) ∧
     (s.blockTask k w).spin.ready = s.spin.ready ∧
     (s.wakeTask k f).task k = { (f (s.task k)).step with wait := .none, st := .ready } ∧
     (s.wakeTask k f).spin.ready = s.spin.ready ++ [k] ∧
     (s.blockTask k w).mem = s.mem ∧ (s.blockTask k w).regs = s.regs ∧ (s.wakeTask k f).mem = s.mem ∧
     (s.wakeTask k f).regs = s.regs)

/-- R63: WAITEV, its timeout, SIGNAL and YIELD. R63, R425, R426: QPUT and QGET on a queue with no notify flag. A QGET
of queue 255, whose one consumer is the device (R427), finds nothing (the model's choice, log entry 104). Beside the
rules it rests on the readings and choices of log entries 57, 104. That a command whose conditions do not hold changes
nothing is log entry 5. -/
def Obligations.EventsAndQueues : Prop :=
  ((∀ (k : TaskId) (w : IWord) (s : State), s.threadRuns k →
     let T := s.task k.val
     let m : BitVec 32 := (T.read w.src1).setWidth 32
     let all := w.fn.getLsbD 0
     let clear := w.fn.getLsbD 1
     let ready := if all then T.flags &&& m = m else T.flags &&& m ≠ 0
     let until_ : Option Nat := if w.val = 0xFFFFFFFF then none else some (s.taskNow k.val + 1000 * w.val.toNat)
     (m = 0 → threadDoes (.waitev (.task k) w) s k { T.write w.dest 0 with stReg := stWord stOk }) ∧
     (m ≠ 0 → ready → threadDoes (.waitev (.task k) w) s k { T.write w.dest ((T.flags &&& m).setWidth 64) with
       stReg := stWord stOk, flags := if clear then T.flags &&& ~~~ m else T.flags }) ∧
     (m ≠ 0 → ¬ ready → w.val = 0 → threadDoes (.waitev (.task k) w) s k { T.write w.dest 0 with
         stReg := stWord stMiss }) ∧
     (m ≠ 0 → ¬ ready → w.val ≠ 0 → threadWaits (.waitev (.task k) w) s k 0x92 w s
         (.event m all clear w.dest until_))) ∧
   (∀ (k : TaskId) (s : State) (m : BitVec 32) (all clear : Bool) (dest : BitVec 6) (t : Nat), s.halted = false →
     (s.task k.val).wait = .event m all clear dest (some t) →
     (t ≤ s.taskNow k.val → exec (.waitevTimeout k) s =
       .next (s.wakeTask k.val fun t => { t.write dest 0 with stReg := stWord stMiss })) ∧
     (s.taskNow k.val < t → exec (.waitevTimeout k) s = .next s)) ∧
   (∀ (k : TaskId) (w : IWord) (s : State), s.threadRuns k →
     let T := s.task k.val
     let j := (T.read w.src1).toNat % 4096
     let m : BitVec 32 := (T.read w.src2).setWidth 32
     ((s.task j).st = .free → threadDoes (.signal (.task k) w) s k { T with stReg := stWord stAbsent }) ∧
     ((s.task j).st ≠ .free → j ≠ k.val → ∃ t, exec (.signal (.task k) w) s = .next t ∧
       (t.task k.val) = { T with stReg := stWord stOk }.step ∧
       ((s.task j).wait = .none → (s.task j).st ≠ .dormant →
         t.task j = { s.task j with flags := (s.task j).flags ||| m }) ∧
       (∀ mk all clear dest u, (s.task j).wait = .event mk all clear dest u →
         evReady ((s.task j).flags ||| m) mk all = true →
         (t.task j).st = .ready ∧ (t.task j).wait = .none ∧ (t.task j).stReg = stWord stOk) ∧
       ((s.task j).wait = .none → (s.task j).st = .dormant →
         ((s.task j).flags ||| m) &&& (s.taskWord j 1).extractLsb' 32 32 ≠ 0 →
         (t.task j).st = .ready ∧ (t.task j).deadline = none))) ∧
   (∀ (k : TaskId) (w : IWord) (s : State), s.threadRuns k → ∃ t, exec (.yield (.task k) w) s = .next t ∧
     t.task k.val = { (s.task k.val).step with st := .ready, ctx := none } ∧ t.spin.ready = s.spin.ready ++ [k.val] ∧
     (∀ j, j ≠ k.val → t.task j = s.task j) ∧ t.mem = s.mem)) ∧
  (∀ (k : TaskId) (w : IWord) (s : State), s.threadRuns k →
     let T := s.task k.val
     let q := (T.read w.src1).toNat % 256
     let v := T.read w.src2
     let x := s.squeue q
     let wait := w.fn.getLsbD 0
     s.flag (Reg.spinQCfg q) Fld.spinQCfgNotifyEn = false →
     (x.getters = [] → x.entries.length < s.qDepth q → threadLeaves (.qput (.task k) w) s k
       (s.setSqueue q { x with entries := x.entries ++ [(v, none)] }) { T with stReg := stWord stOk }) ∧
     (x.getters = [] → s.qDepth q ≤ x.entries.length → wait = false →
       threadDoes (.qput (.task k) w) s k { T with stReg := stWord stRefused }) ∧
     (x.getters = [] → s.qDepth q ≤ x.entries.length → wait = true → threadWaits (.qput (.task k) w) s k 0x95 w
       (s.setSqueue q { x with putters := x.putters ++ [(k.val, v)] }) (.qput q v)) ∧
     (∀ g gs dest, x.getters = g :: gs → g ≠ k.val → (s.task g).wait = .qget q dest → becomes (.qput (.task k) w) s
       (((s.setSqueue q { x with getters := gs }).wakeTask g fun t => { t.write dest v with
           stReg := stWord stOk }).updTask
         k.val fun t => { t with stReg := stWord stOk }.step)) ∧
     (∀ e es, q ≠ 255 → x.entries = e :: es → x.putters = [] →
         threadLeaves (.qget (.task k) w) s k (s.setSqueue q { x with entries := es })
       { T.write w.dest e.1 with stReg := stWord stOk }) ∧
     (x.entries = [] → x.putters = [] → wait = false →
       threadDoes (.qget (.task k) w) s k { T.write w.dest 0 with stReg := stWord stMiss }) ∧
     (q ≠ 255 → x.entries = [] → x.putters = [] → wait = true → threadWaits (.qget (.task k) w) s k 0x96 w
       (s.setSqueue q { x with getters := x.getters ++ [k.val] }) (.qget q w.dest)) ∧
     (q = 255 → wait = false → threadDoes (.qget (.task k) w) s k { T.write w.dest 0 with stReg := stWord stMiss }) ∧
     (q = 255 → wait = true → threadWaits (.qget (.task k) w) s k 0x96 w s (.qget q w.dest)))

/-- R64: DMA. A descriptor's length above 16,777,216 is ST_REFUSED; a full queue of the core is ST_FULL; a length of 0
ends at once with ST_OK; else the copy joins the queue of the task's core, and the task goes on with ST_OK, or waits.
DMA_COMPLETE runs the copy at the head of a core's queue, which waits where it reaches a channel at rest (R360). R64:
a copy of one piece in host memory moves its bytes: every byte of the destination is the source's, and no other byte
changes. Beside the rules it rests on the readings and choices of log entries 46, 47, 130. That a command whose
conditions do not hold changes nothing is log entry 5. -/
def Obligations.DmaCopies : Prop :=
  ((∀ (k : TaskId) (w : IWord) (s : State), s.threadRuns k →
     let T := s.task k.val
     let a := (T.read w.src1).toNat % 2 ^ 48
     (∀ b, s.accessHeld a 32 = some b → exec (.dma (.task k) w) s = .next (s.hbmWake b)) ∧
     (s.accessHeld a 32 = none → ∀ d, s.busRead (.task k.val) a 32 = .ok d → d.unc = false →
       let u := d.st
       let r : DmaReq := { task := k.val, desc := a, src := ofLE (slice d.bytes 0 6), dst := ofLE (slice d.bytes 8 6),
                           len := ofLE (slice d.bytes 16 4), flags := ofLE (slice d.bytes 20 4),
                           waits := w.fn.getLsbD 0 }
       let core := T.ctx.getD 0 / 4
       u.spin = s.spin →
       (16777216 < r.len → threadLeaves (.dma (.task k) w) s k u { T with stReg := stWord stRefused }) ∧
       (r.len ≤ 16777216 → 64 ≤ (s.dmaQueue core).length → threadLeaves (.dma (.task k) w) s k u { T with
           stReg := stWord stFull }) ∧
       (r.len = 0 → (s.dmaQueue core).length < 64 →
         ∃ t, exec (.dma (.task k) w) s = .next t ∧ (t.task k.val).stReg = stWord stOk ∧ t.spin.dma = s.spin.dma) ∧
       (r.len ≤ 16777216 → (s.dmaQueue core).length < 64 → r.len ≠ 0 → overlap r.src r.dst r.len = true →
         exec (.dma (.task k) w) s = .fault (.undefinedBehaviour 5)) ∧
       (r.len ≤ 16777216 → (s.dmaQueue core).length < 64 → r.len ≠ 0 → overlap r.src r.dst r.len = false →
         (r.waits = false → threadLeaves (.dma (.task k) w) s k (u.updDma core fun l => l ++ [r]) { T with
             stReg := stWord stOk }) ∧
         (r.waits = true → threadWaits (.dma (.task k) w) s k 0x97 w (u.updDma core fun l => l ++ [r]) .dma)))) ∧
   (∀ (core : Fin 32) (errs : List SymErr) (s : State), s.halted = false →
     (s.dmaQueue core.val = [] → exec (.dmaComplete core errs) s = .next s) ∧
     (∀ r rest, s.dmaQueue core.val = r :: rest →
       (∀ a, s.copyHeld r.src r.len = some a → exec (.dmaComplete core errs) s = .next (s.hbmWake a)) ∧
       (s.copyHeld r.src r.len = none → ∀ x,
         (if inHbm r.src then s.spoil (hbmLine r.src) errs else s).copy (.task r.task) r.src r.dst r.len = .ok x →
         exec (.dmaComplete core errs) s =
           .next ((x.st.updDma core.val fun _ => rest).dmaEnd r x.moved x.code))))) ∧
  (∀ (s : State) (k src dst len : Nat), 0 < len → src % 64 + len ≤ 64 → dst % 64 + len ≤ 64 →
     regionOf src = .host → regionOf dst = .host → s.boot.pcieUp = true → s.bat.cur = none → s.spin.dma = [] →
       s.spin.lock = [] →
     overlap src dst len = false →
     ∃ x, s.copy (.task k) src dst len = .ok x ∧ x.moved = len ∧ x.code = stOk ∧
       (∀ i, i < len → x.st.byte (dst + i) = s.byte (src + i)) ∧
       ∀ b, b < dst ∨ dst + len ≤ b → x.st.byte b = s.byte b)

/-- R83: the slot of a thread batten that stores into the draft store. The batten is in the overlay and the sequence
number is one more; a pick that started before reads every byte as it was, and one that starts from now on reads what
the entries leave, the later of two entries for a byte counting. No slot opens while the overlay is in use, or for a
flip that waits for a bank to retire (R93). R83, R84, R88, R91: a batten is applied once no pick that started before
its slot runs: the overlay is free, and a thread that waits goes on with ST_OK, or the host's count of battens done
rises; program words stored before its slot are safe to run (R66). One that flipped the bank completes when the old
bank retires, which is when no packet in flight belongs to it. Beside the rules it rests on the readings and choices
of log entry 106. That a command whose conditions do not hold changes nothing is log entry 5. -/
def Obligations.BattensApply : Prop :=
  (∀ (s : State) (b : BatReq) (rest : List BatReq), s.bat.queue = b :: rest → s.halted = false →
     (s.bat.cur.isSome = true ∨ s.flipWait = true → exec .battenSlotOpen s = .next s) ∧
     (s.bat.cur = none → s.flipWait = false → s.bat.oldMem = [] → b.host = false → b.ws = false →
       s.poolBad (s.rd Reg.beamPool) = false →
       (∀ e ∈ b.list, 0x10000000 ≤ e.addr ∧ e.addr + 8 ≤ 0x10020000 ∧
         s.inDescriptor e.addr (2 ^ (e.w % 4)) = false) →
       ∃ t, exec .battenSlotOpen s = .next t ∧ t.bat.seq = s.bat.seq + 1 ∧ t.bat.cur = some b ∧
         (∀ q a, q ≠ t.bat.seq → t.pbyte q a = s.byte a) ∧
         (∀ a, t.pbyte t.bat.seq a = b.list.foldl (fun v (e : StageEntry) =>
           if e.addr ≤ a ∧ a < e.addr + 2 ^ (e.w % 4) then byteOf e.data.toNat (a - e.addr) else v) (s.byte a)) ∧
         (∀ r, r ≠ Reg.warpGen → t.rd r = s.rd r))) ∧
  ((∀ (s : State) (b : BatReq), s.bat.cur = some b → s.halted = false →
     let free : State := { s with
       bat := { s.bat with cur := none, oldMem := [], oldReg := [], curFlip := false }
       spin := { s.spin with stored := s.spin.stored.filter fun e => e.2 == s.bat.seq } }
     (s.oldPicks = true → exec .battenApply s = .next s) ∧
     (s.oldPicks = false → s.bat.curFlip = true → exec .battenApply s = .next { s with bat := { s.bat with
       cur := none, oldMem := [], oldReg := [], curFlip := false, flip := some b } }) ∧
     (s.oldPicks = false → s.bat.curFlip = false → b.host = false → b.wake = true → (s.task b.task).wait = .batten →
       becomes .battenApply s (free.setTask b.task
         { (s.task b.task).step with wait := .none, stReg := stWord stOk })) ∧
     (s.oldPicks = false → s.bat.curFlip = false → b.host = false → b.wake = false → becomes .battenApply s free) ∧
     (s.oldPicks = false → s.bat.curFlip = false → b.host = true →
       s.flag Reg.beamBattenEvt Fld.beamBattenEvtOnHostDone = false →
       becomes .battenApply s { free with bat := { free.bat with hostDone := s.bat.hostDone + 1 } })) ∧
   (∀ (s : State) (b : Bool), s.bat.draining = some b → s.halted = false →
     let gone : State := { s with bat := { s.bat with draining := none, flip := none, curFlip := false } }
     let told : State := { gone with spin := { s.spin with
       stored := s.spin.stored.filter fun e => e.2 == s.bat.seq } }
     (s.epochCount b ≠ 0 → exec .bankRetire s = .next s) ∧
     (s.epochCount b = 0 → s.flag Reg.beamBattenEvt Fld.beamBattenEvtOnRetire = false →
       (s.bat.flip = none → exec .bankRetire s = .next gone) ∧
       (∀ f, s.bat.flip = some f → f.host = false → f.wake = true → (s.task f.task).wait = .batten →
         becomes .bankRetire s (told.setTask f.task
           { (s.task f.task).step with wait := .none, stReg := stWord stOk })))))

/-- R60, R229 to R231: RSEARCH and RNEXT in a pick. A profile that cannot search is ST_ABSENT with dest 0; else the
search joins its port's queue, and the pick waits, once there is room; a reclassification search that finds no token
is ST_MISS with AUX 1. RNEXT gives the next match kept, in ascending index order. R223, R224, R373: a search that has
had its slot of every bank it takes one of, whose banks are powered and which meets no disturbed row, ends with the
verified match of the greatest priority, of the lowest index among equals, and MULTI where another has that priority;
with no match it is ST_MISS and dest is 0. Before its slots it waits. Beside the rules it rests on the readings and
choices of log entries 78, 124, 136. That a command whose conditions do not hold changes nothing is log entry 5. -/
def Obligations.ReedSearches : Prop :=
  (∀ (p : PktId) (x : Pkt) (w : IWord) (s : State), s.pickRuns p x →
     let port := x.loom % 4
     let ends (st : Word) : Pkt := { (x.write w.dest 0).setSt st with
       pick := { ((x.write w.dest 0).setSt st).pick with
       wait := .none, searched := true, cands := [], candMore := false } }
     (s.searchOf x w.fn.toNat w.dest = none → pickDoes (.rsearch (.pick p) w) s p (ends (stWord stAbsent))) ∧
     (∀ q, s.searchOf x w.fn.toNat w.dest = some q → s.isReclass x = false →
       ((s.portQ port).length < 64 → exec (.rsearch (.pick p) w) s =
         .next ((s.setPortQ port (s.portQ port ++ [p])).setPkt p
           (some { x with pick := { x.pick with wait := .search q } }))) ∧
       (64 ≤ (s.portQ port).length → exec (.rsearch (.pick p) w) s = .next s)) ∧
     (∀ q, s.searchOf x w.fn.toNat w.dest = some q → s.isReclass x = true → (s.portQ port).length < 64 →
       s.takeReclass port = none → pickLeaves (.rsearch (.pick p) w) s p
         (s.incF (Reg.reedPortStat port) Fld.reedPortStatDeferred) (ends (stWord stMiss 1))) ∧
     (x.pick.searched = false → pickDoes (.rnext (.pick p) w) s p ((x.write w.dest 0).setSt (stWord stAbsent))) ∧
     (x.pick.searched = true → x.pick.cands = [] → pickDoes (.rnext (.pick p) w) s p
       ((x.write w.dest 0).setSt (stWord stMiss (if x.pick.candMore then 1 else 0)))) ∧
     (∀ i cs, x.pick.searched = true → x.pick.cands = (i, true) :: cs → ∃ v : Word,
       pickDoes (.rnext (.pick p) w) s p
         (({ x with pick := { x.pick with cands := cs } }.write w.dest v).setSt (stWord stOk)) ∧
       (i < 524288 → v.toNat % 2 ^ 32 = i ∧ v.toNat / 2 ^ 32 = s.ple x.pick.seq (0x11000000 + 128 * i + 80) 4))) ∧
  (∀ (n : Fin 4) (p : Nat) (rest : List Nat) (x : Pkt) (q : Search) (s : State), s.halted = false →
     s.portQ n.val = p :: rest → s.pkt? p = some x → x.pick.wait = .search q → s.pickGoesOn x → q.dest.toNat < 16 →
     s.reedUnpowered x.pick.seq q = false →
     let granted := ∀ b < 128, s.reedNeeds x.pick.seq q b = true → q.got.testBit b = true
     let hit (i : Nat) : Prop := i < 524288 ∧ s.reedSearched x.pick.seq q (i / 4096) = true ∧
       s.reedMatches x.pick.seq q i = true
     let prio (i : Nat) : Nat := s.ple x.pick.seq (0x11000000 + 128 * i + 84) 2
     let action (i : Nat) : Nat := s.ple x.pick.seq (0x11000000 + 128 * i + 80) 4
     (¬ granted → exec (.reedSearch n ⟨[], []⟩) s = .next s) ∧
     (granted → (∀ i, ¬ hit i) → ∃ t y, exec (.reedSearch n ⟨[], []⟩) s = .next t ∧ t.pkt? p = some y ∧
         y.read q.dest = 0 ∧
       y.pick.st = stWord stMiss ∧ y.pick.wait = .none ∧ y.pick.pc = x.pick.pc + 1 ∧ t.portQ n.val = rest) ∧
     (∀ i, granted → hit i → (∀ j, hit j → prio j < prio i ∨ (prio j = prio i ∧ i ≤ j)) →
       ∃ t y, exec (.reedSearch n ⟨[], []⟩) s = .next t ∧ t.pkt? p = some y ∧
         (y.read q.dest).toNat = action i * 2 ^ 32 + i ∧ y.pick.wait = .none ∧ y.pick.pc = x.pick.pc + 1 ∧
         t.portQ n.val = rest ∧ t.mem = s.mem ∧
         ((∃ j, j ≠ i ∧ hit j ∧ prio j = prio i) → y.pick.st = 0x100) ∧
         ((∀ j, j ≠ i → hit j → prio j ≠ prio i) → y.pick.st = stWord stOk)))

/-- R226, R228, R351, R373: bank power and scrubbing. A write that turns a bank's POWER on starts its check, at whose
end POWER_ACK sets; one that turns it off clears POWER_ACK. The scrub, in a slot that it has won, repairs a row that
differs from the first copy that its code can read, with a MASKED record, and where both copies are lost the row is
searched without verification from then on. A bank slot goes to its owner, a search or a scrub access or a write among
them, and the position moves on. Beside the rules it rests on the readings and choices of log entries 95, 124. That a
command whose conditions do not hold changes nothing is log entry 5. -/
def Obligations.ReedBankPower : Prop :=
  (∀ (b : Fin 128) (v : Word) (s : State),
    let a := Reg.reedBank b.val
    let t := s.plainWrite a v (BitVec.allOnes 64)
    s.takesWrites a →
    (s.flag a Fld.reedBankPower = false → t.flag a Fld.reedBankPower = true →
      exec (.reedBankPowerUp b v) s = .next { t with reed := { t.reed with
        checking := insUniq b.val t.reed.checking } }) ∧
    (s.flag a Fld.reedBankPower = true → t.flag a Fld.reedBankPower = false →
      exec (.reedBankPowerUp b v) s = .next { t.setF a Fld.reedBankPowerAck 0 with
        reed := { t.reed with checking := t.reed.checking.filter (· != b.val) } }) ∧
    (s.flag a Fld.reedBankPower = t.flag a Fld.reedBankPower → exec (.reedBankPowerUp b v) s = .next t)) ∧
  (∀ (b : Fin 128) (s : State), s.halted = false →
    (b.val ∈ s.reed.checking → exec (.reedPowerAck b []) s =
      .next ({ s with reed := { s.reed with checking := s.reed.checking.filter (· != b.val) } }.setF
        (Reg.reedBank b.val) Fld.reedBankPowerAck 1)) ∧
    (b.val ∉ s.reed.checking → ∀ bad, exec (.reedPowerAck b bad) s = .next s)) ∧
  (∀ (i : Fin 524288) (s : State), s.halted = false →
    let won := Tbl.get (Tbl.const 0) s.reed.scrubs (i.val / 4096)
    let on := s.flag Reg.reedCtl Fld.reedCtlScrubEn = true ∧ s.reedOn (i.val / 4096) = true ∧ won ≠ 0
    let did : State := { s with reed := { s.reed with
      scrubs := Tbl.upd (Tbl.const 0) s.reed.scrubs (i.val / 4096) (· - 1) } }
    let note (u : State) (f : Fld) : State :=
      (u.setF Reg.reedErr f 1).setF Reg.reedErrIdx Fld.reedErrIdxIndex i.val
    let lost (c : List SymErr × List SymErr) : Bool := rsUnc c.1 || rsUnc c.2
    let reads (c : List SymErr × List SymErr) : Prop := lost c = false ∧ rsLeft c.1 = [] ∧ rsLeft c.2 = []
    (¬ on → ∀ f, exec (.reedScrub i f) s = .next s) ∧
    (∀ f : RowFault, on → reads f.copyA ∨ (lost f.copyA = true ∧ reads f.copyB) →
      (f.differs = false ∨ i.val ∈ s.reed.unverified → exec (.reedScrub i f) s = .next did) ∧
      (f.differs = true → i.val ∉ s.reed.unverified → exec (.reedScrub i f) s =
        .next ((note did Fld.reedErrScrubRepair).masked 10 (srcOf Reg.reedErr) i.val 0))) ∧
    (∀ f : RowFault, on → lost f.copyA = true → lost f.copyB = true → exec (.reedScrub i f) s =
      .next ((note { did with reed := { did.reed with unverified := insUniq i.val s.reed.unverified } }
        Fld.reedErrCopyLost).masked 11 (srcOf Reg.reedErr) i.val 1))) ∧
  (∀ (b : Fin 128) (s : State), s.halted = false →
    let len := min 32 (s.fld Reg.reedTreadleCtl Fld.reedTreadleCtlLen)
    ∃ t, exec (.reedBankSlot b) s = .next t ∧ t.mem = s.mem ∧ t.regs = s.regs ∧
      Tbl.get (Tbl.const 0) t.reed.lastSlot b.val = s.reedSlotOwner b.val ∧
      (s.reedSlotOwner b.val = 6 → Tbl.get (Tbl.const 0) t.reed.scrubs b.val = 1) ∧
      (∀ q p x r, s.reedSlotOwner b.val = q + 1 → q < 4 → (s.portQ q).head? = some p → s.pkt? p = some x →
        x.pick.wait = .search r → ∃ y, t.pkt? p = some y ∧
          y.pick.wait = .search { r with got := r.got ||| 2 ^ b.val }) ∧
      (len ≠ 0 → Tbl.get (Tbl.const 0) t.reed.slotPos b.val =
        (Tbl.get (Tbl.const 0) s.reed.slotPos b.val + 1) % len))

/-- R60, R237 to R240: TSCAN in a pick. Without a head it is ST_ABSENT; of length 0, ST_OK; of a packet that is not an
onset packet of the head held, ST_MISS; else the payload from s1 joins the queue of the flow's engine, with ST_OK.
With ST_OK a head whose TSTATE is 0 goes to 1; with the queue full it is ST_FULL and TSTATE is 3. R240, R241, R244: an
engine scans its oldest request and writes the verdict to the cached head of the flow, if that is the flow the request
was made for; the class never falls. A set that is not valid scans nothing. An edge list out of order on the way is
undefined behaviour 22. Beside the rules it rests on the readings and choices of log entries 121, 135. -/
def Obligations.TwillScans : Prop :=
  (∀ (p : PktId) (x : Pkt) (w : IWord) (s : State), s.pickRuns p x →
     let s1 := (x.read w.src1).toNat
     let len := w.val.toNat % 1024
     let bs := ((x.frame.take (x.frame.length - 4)).drop s1).take (min len 512)
     (x.pick.held = none → pickDoes (.tscan (.pick p) w) s p (x.setSt (stWord stAbsent))) ∧
     (∀ h k, x.pick.held = some h → s.line h.line = some k →
       let q := s.engine (h.key96.toNat / 64 % 4)
       let full := 4096 ≤ q.length ∨ 2097152 < (q.map fun r => r.bytes.length).sum + bs.length
       let r : ScanReq := {
         key96 := h.key96, firstSeen := hget k.head 16 4
         start := s.pfld x.pick.seq (Reg.twillSet (w.fn.toNat % 16)) Fld.twillSetStart
         valid := s.pfld x.pick.seq (Reg.twillSet (w.fn.toNat % 16)) Fld.twillSetValid == 1
         bytes := bs, onset := if x.pick.pick2 then 1 else h.onset, window := s.onsetWindow x.pick.seq
         seq := x.pick.seq, order := s.twill.next }
       let queued : State := { s with twill := { s.twill with
         eng := Tbl.set (Tbl.const []) s.twill.eng (h.key96.toNat / 64 % 4) (q ++ [r]), next := s.twill.next + 1 } }
       let scanning (u : State) : State :=
         u.setLine h.line (some { k with head := headTwill k.head 1 (headTclass k.head), dirty := true })
       (len = 0 → headTstate k.head ≠ 0 → pickDoes (.tscan (.pick p) w) s p (x.setSt (stWord stOk))) ∧
       (len = 0 → headTstate k.head = 0 → pickLeaves (.tscan (.pick p) w) s p (scanning s) (x.setSt (stWord stOk))) ∧
       (len ≠ 0 → s.isOnset x h k.head = false → pickDoes (.tscan (.pick p) w) s p (x.setSt (stWord stMiss))) ∧
       (len ≠ 0 → s.isOnset x h k.head = true → ¬ full → headTstate k.head ≠ 0 →
         pickLeaves (.tscan (.pick p) w) s p queued (x.setSt (stWord stOk))) ∧
       (len ≠ 0 → s.isOnset x h k.head = true → ¬ full → headTstate k.head = 0 →
         pickLeaves (.tscan (.pick p) w) s p (scanning queued) (x.setSt (stWord stOk))) ∧
       (len ≠ 0 → s.isOnset x h k.head = true → full → (s.rd Reg.twillErr).getLsbD 1 = true →
         pickLeaves (.tscan (.pick p) w) s p (s.setLine h.line
           (some { k with head := headTwill k.head 3 (headTclass k.head), dirty := true }))
               (x.setSt (stWord stFull))))) ∧
  (∀ (e : Fin 4) (q : ScanReq) (rest : List ScanReq) (s : State), s.halted = false → s.engine e.val = q :: rest →
     let r := if q.valid then s.scan q.bytes q.start { cls := 0, bad := false, pats := [], unsorted := false }
       else { cls := 0, bad := false, pats := [], unsorted := false }
     (r.unsorted = true → exec (.twillScan e) s = .fault (.undefinedBehaviour 22)) ∧
     (∀ l c, r.unsorted = false → r.bad = false → s.cacheFind q.key96 = some l → s.line l = some c →
       hget c.head 16 4 = q.firstSeen →
       ∃ t d, exec (.twillScan e) s = .next t ∧ t.engine e.val = rest ∧ t.line l = some d ∧ d.dirty = true ∧
         t.mem = s.mem ∧ headTclass d.head = max (headTclass c.head) r.cls % 8 ∧
         headTstate d.head = (if headTstate c.head = 1 ∧ q.onset = q.window then 2 else headTstate c.head) ∧
         t.sameRegs s [Reg.twillEng e.val]))

/-- R31, R322, R323, R326, R379: a frame at a port. A port that is down receives nothing; a frame of at most 63 bytes
is a runt and only counted; a frame that is no MAC Control frame enters its port's crossing buffer as a packet, cut to
MAX and marked oversize where it is longer, unless the port is of the timing class, or the buffer has no room: then it
is dropped and counted. R326, R293: a PFC frame that the port obeys pauses each class it enables for its time field,
in quanta of 512 bit times, and releases a class whose field is 0; other classes keep theirs. No MAC Control frame
enters a buffer. A pause that has run out ends. R28, R323: a packet whose last cell is not written and whose FCS turns
out bad is dropped wherever it is before its copies are stored; a running one gives up the line it holds pinned and
its reserved cells (R148, R301). One that is written stays. Beside the rules it rests on the readings and choices of
log entries 68, 69. That a command whose conditions do not hold changes nothing is log entry 5. -/
def Obligations.FramesArrive : Prop :=
  (∀ (p : Port) (f : List Byte) (s : State), s.halted = false →
     let c := Instr.frameReceive p f
     let up := s.flag (Reg.beamPort p.val) Fld.beamPortLink = true
     let mx := s.maxFrame p.val
     let tc := s.flag (portCfg p.val) Fld.selvPortCfgTimingClass
     let data := 64 ≤ f.length ∧ beAt f 12 2 ≠ 0x8808
     let bump (t : State) (j n : Nat) : Prop :=
       t.counter (512 * p.val + 8 * j) = s.counter (512 * p.val + 8 * j) + BitVec.ofNat 64 n
     let enters (g : List Byte) (big : Bool) : State := s.addPkt { s.newPkt g p.val (p.val / 32) with
       timing := tc, oversize := big, fcsOk := fcsGood f
       stamps := s.ingressStamps (s.sfld (Reg.timePort p.val) Fld.timePortIngressAdj) }
     (¬ up → exec c s = .next s) ∧
     (up → f.length < 64 → ∃ t, exec c s = .next t ∧ t.alike s ∧ bump t 2 1) ∧
     (up → data → f.length ≤ mx → s.crossingRoom p.val = true →
       ∃ t, exec c s = .next t ∧ t.alike (enters f false) ∧ bump t 0 1 ∧ bump t 1 f.length) ∧
     (up → data → mx < f.length → tc = false → s.crossingRoom p.val = true →
       ∃ t, exec c s = .next t ∧ t.alike (enters (f.take mx) true) ∧ bump t 4 1 ∧ bump t 0 1 ∧ bump t 1 mx) ∧
     (up → data → mx < f.length → tc = true → ∃ t, exec c s = .next t ∧ t.alike s ∧ bump t 5 1 ∧ bump t 0 0) ∧
     (up → data → f.length ≤ mx ∨ tc = false → s.crossingRoom p.val = false →
       ∃ t, exec c s = .next t ∧ t.alike s ∧ bump t 9 1)) ∧
  ((∀ (p : Port) (f : List Byte) (s : State), s.halted = false → s.flag (Reg.beamPort p.val) Fld.beamPortLink = true →
     64 ≤ f.length → f.length ≤ s.maxFrame p.val → fcsGood f = true → beAt f 12 2 = 0x8808 →
     ∃ t, exec (.frameReceive p f) s = .next t ∧ t.pkts = s.pkts ∧ t.mem = s.mem ∧
       ∀ k, Tbl.get (Tbl.const 0) t.beam.pauseEnd k =
         if beAt f 14 2 = 0x0101 ∧ s.flag (Reg.beamPort p.val) Fld.beamPortPfcRxEn = true ∧ k / 8 = p.val ∧
             (beAt f 16 2).testBit (k % 8) = true then
           (if beAt f (18 + 2 * (k % 8)) 2 = 0 then 0
             else s.now + (beAt f (18 + 2 * (k % 8)) 2 * 512 + s.portGbps p.val - 1) / s.portGbps p.val)
         else Tbl.get (Tbl.const 0) s.beam.pauseEnd k) ∧
   (∀ (p : Port) (k : Fin 8) (s : State), s.halted = false →
     let e := Tbl.get (Tbl.const 0) s.beam.pauseEnd (8 * p.val + k.val)
     (s.now < e → exec (.pfcPauseExpire p k) s = .next s) ∧
     (e ≤ s.now → exec (.pfcPauseExpire p k) s = .next { s with beam := { s.beam with
       pauseEnd := Tbl.set (Tbl.const 0) s.beam.pauseEnd (8 * p.val + k.val) 0 } }))) ∧
  (∀ (p : PktId) (x : Pkt) (s : State), s.halted = false → s.pkt? p = some x →
     (x.written = true → exec (.fcsError p) s = .next s) ∧
     (x.written = false → x.place = .crossing ∨ x.place = .shedInput →
       exec (.fcsError p) s = .next (s.setPkt p none)) ∧
     (x.written = false → x.place ≠ .stored → ∃ t, exec (.fcsError p) s = .next t ∧ t.pkt? p = none ∧ t.mem = s.mem ∧
       (∀ q, q ≠ p → t.pkt? q = s.pkt? q) ∧ (x.place = .running → t.bankUsed x.loom = s.bankUsed x.loom - x.resv ∧
         t.beam.recircUsed = s.beam.recircUsed - x.resv)) ∧
     (∀ h l, x.written = false → x.place = .running → x.pick.wait = .none → x.pick.spare = none → x.kept = none →
       x.pick.held = some h → s.line h.line = some l → l.detached = false → ∃ t, exec (.fcsError p) s = .next t ∧
         t.line h.line = some { l with pins := l.pins - 1 } ∧ ∀ k, k ≠ h.line → t.line k = s.line k) ∧
     (x.written = false → x.place = .stored → ∃ t, exec (.fcsError p) s = .next t ∧ t.mem = s.mem ∧
       ∀ q, ∀ d ∈ t.queue q, d.pkt ≠ p))

/-- R69, R72, R73, R107, R116: the Heddle takes the oldest frame of a port and parses it under the bank and the batten
sequence number now in effect, and its pick starts and counts; a parsed packet takes a context, its pick starting at
its draft's entry, or is dropped with reason 52 where the bank has no draft for it; a packet that returns from the
recirculation queue, whole (R28), is parsed afresh and its second pick starts under the bank of its first. A loom that
is switched off does none of this (R463). R69: the entry of a draft: the bank's header and entry word as the pick
reads them. R110: an extraction command whose bytes lie inside the parse window and before the FCS makes its slot
valid, and the slot holds the field, most significant bit first on the wire; one whose bytes do not leaves the slot
invalid and 0; no other slot changes. Beside the rules it rests on the readings and choices of log entries 69, 122.
That a command whose conditions do not hold changes nothing is log entry 5. -/
def Obligations.PacketsEnterDrafts : Prop :=
  ((∀ (p : PktId) (x : Pkt) (s : State), s.halted = false → s.pkt? p = some x → x.place = .crossing →
     s.heddleHeld x.loom = false → s.loomOff x.loom = false →
     (∀ q y, s.pkt? q = some y → y.place = .crossing → y.inPort = x.inPort → y.loom = x.loom → p ≤ q) →
     (∀ e ∈ s.pkts, s.pkt? e.1 = e.2) →
     let pk : Pick := { pickAt s (s.flag Reg.beamDraftCtl Fld.beamDraftCtlActiveBank) false with
       order := s.nextOrder }
     let cl := if x.injected then s.pfld s.bat.seq (Reg.loomHeddleCtl x.loom) Fld.loomHeddleCtlClassInj
       else s.portClass s.bat.seq x.inPort
     ∃ t, exec (.heddleParse p) s = .next t ∧ t.alike ({ s with nextOrder := s.nextOrder + 1 }.setPkt p
         (some { s.parse s.bat.seq cl { x with pick := pk } with place := .shedInput })) ∧
       (x.loom < 16 → t.loomCounter x.loom 64 = s.loomCounter x.loom 64 + 1)) ∧
   (∀ (p : PktId) (x : Pkt) (s : State), s.pkt? p = some x → s.loomOff x.loom = true →
     exec (.heddleParse p) s = .next s ∧ exec (.pickStart p) s = .next s) ∧
   (∀ (p : PktId) (x : Pkt) (s : State), s.halted = false → s.pkt? p = some x → x.place = .shedInput →
       s.loomOff x.loom = false →
     (s.pktsAt fun y => y.place == .running && y.loom == x.loom && y.shed == x.shed && !y.pick.pick2).length < 1024 →
     x.pick.pick2 = false →
     let e := s.draftEntry x.pick.seq x.pick.bank x.profile
     (∀ w, e = some w → becomes (.pickStart p) s (s.setPkt p
       (some { x with place := .running, pick := { x.pick with pc := w, issueNs := s.now } }))) ∧
     (e = none → drops (.pickStart p) s p x 52)) ∧
   (∀ (n : LoomId) (c : Copy) (rest : List Copy) (x : Pkt) (s : State), s.halted = false → s.loomOff n.val = false →
     s.queue (10256 + n.val) = c :: rest → s.pkt? c.pkt = some x →
     (x.written = false → exec (.recircReturn ⟨n, []⟩) s = .next s) ∧ (x.written = true →
     let y := s.parse s.bat.seq (s.pfld s.bat.seq (Reg.loomHeddleCtl x.loom) Fld.loomHeddleCtlClassRecirc)
       { x with pick := pickAt s x.pick.bank true }
     ∀ w, s.draftEntry s.bat.seq x.pick.bank (256 + y.profile) = some w →
       becomes (.recircReturn ⟨n, []⟩) s ({ s.setQueue (10256 + n.val) rest with
         nextOrder := s.nextOrder + 1 }.setPkt c.pkt
         (some { y with place := .running, pick := { y.pick with pc := w, issueNs := s.now } }))))) ∧
  (∀ (s : State) (seq : BitVec 32) (bank : Bool) (i : Nat),
     let base := if bank then 0x10010000 else 0x10000000
     let h := s.ple seq base 8
     let e := s.ple seq (base + 8 + 2 * i) 2
     let len := min 8192 (h % 65536)
     s.draftEntry seq bank i = if h / 2 ^ 48 % 65536 = 1 ∧ 129 ≤ e ∧ e < len then some e else none) ∧
  (∀ (f : List Byte) (base step cmd : Nat) (x : ParseSt),
     let width : Nat := min 32 (cmd / 2 ^ 41 % 64)
     let slot : Nat := cmd / 2 ^ 59 % 32
     let bit : Nat := cmd / 2 ^ 47 % 8
     let off : Nat := cmd / 2 ^ 50 % 512
     let pos : Int := (base : Int) + (if off < 256 then (off : Int) else (off : Int) - 512)
     let n : Nat := (bit + width + 7) / 8
     let y := x.extract f base step cmd
     let inside := 0 ≤ pos ∧ pos + (n : Int) ≤ 192 ∧ pos + (n : Int) + 4 ≤ f.length
     (width = 0 → y = x) ∧
     (∀ i, i < 32 → i ≠ slot → vget y.hf i 0 = vget x.hf i 0 ∧ y.valid.getLsbD i = x.valid.getLsbD i) ∧
     (width ≠ 0 → inside → y.valid.getLsbD slot = true ∧ ∀ j, j < width →
       (vget y.hf slot 0).getLsbD j =
         (f.getD (pos.toNat + (bit + width - 1 - j) / 8) 0).getLsbD (7 - (bit + width - 1 - j) % 8)) ∧
     (width ≠ 0 → ¬ inside → y.valid.getLsbD slot = false ∧ vget y.hf slot 0 = 0) ∧
     (width ≠ 0 → y.deep = (x.deep || !(decide (0 ≤ pos) && decide (pos + (n : Int) ≤ 192)))))

/-- R288: the first rule that applies to a copy of `n` cells of packet `x` for queue `i`: the drop of a port that is
down in drop mode, the minimum, the account and the headroom of a lossless copy, the dynamic limit of another. R76,
R285, R288, R290, R298, R302: the Beam takes a packet its shed has released. A unicast copy that R288 takes is charged
to its bank and to the pool, and joins the end of its queue; one that it does not is dropped, and its queue counts the
reason. A multicast packet of a group without ports is dropped with reason 69. A punted packet joins its loom's punt
queue where that has room. Other queues stay. R286, R288, R292, R298 to R300: one copy after another. A multicast
packet has a copy for each port of its group that is configured, but for the port it came from where SRC_PRUNE is 1,
and a packet no copy of which is stored is gone. The first copy that R288 takes is charged to its bank, a pool and,
where lossless, its account, which goes into XOFF at its limit and asks for a PFC frame; a later one charges nothing,
and its pool room counts as present. A copy that fails is counted, MC_COPY at its port as well. In marshal mode it
becomes residue of its queue instead, within the bank, the limit and the pools, and so does any copy for a queue that
holds residue, but for one dropped for HEADROOM. R300: the oldest residue of a queue enters it once R288, decided
afresh, takes it, and stays where it does not. R304: a flush of one queue leaves it empty with its residue, takes back
what is called of it and has not begun, and counts what it discarded; while one is in progress, another is ignored.
Beside the rules it rests on the readings and choices of log entries 64, 65, 66, 69. That a command whose conditions
do not hold changes nothing is log entry 5. -/
def Obligations.BufferAdmission : Prop :=
  (∀ (s : State) (x : Pkt) (i n : Nat),
     let p := if i < 8192 then i / 16 else (i - 8192) / 4
     let down := s.flag (Reg.beamPort p) Fld.beamPortLink = false ∧
       s.flag (Reg.beamPort p) Fld.beamPortDownMode = true
     let depth := copyCells (s.queue i)
     let min_ := depth + n ≤ s.qcfg0 i / 2 ^ 48 % 65536 ∧ n ≤ s.minFree
     let a := 8 * x.inPort + s.qClass i
     let within := (s.acct a).shared < s.acctCfg a / 2 ^ 44 % 2 ^ 20 ∧ n ≤ s.sharedFree
     let head := (s.acct a).head + n ≤ s.acctCfg a / 2 ^ 4 % 2 ^ 20 ∧ n ≤ s.headFree
     let dyn := depth + n ≤ s.sharedFree * 2 ^ (s.qcfg0 i / 2 ^ 44 % 16) / 128 ∧ n ≤ s.sharedFree
     let v := s.verdict x i n false
     (down → v = .drop 0) ∧ (¬ down → min_ → v = .taken .minimum) ∧
     (¬ down → ¬ min_ → s.lossless x i = true →
       (within → v = .taken .shared) ∧ (¬ within → head → v = .taken .headroom) ∧ (¬ within → ¬ head → v = .drop 2)) ∧
     (¬ down → ¬ min_ → s.lossless x i = false → (dyn → v = .taken .shared) ∧ (¬ dyn → v = .drop 1))) ∧
  (∀ (p : PktId) (x : Pkt) (s : State), s.halted = false → s.pkt? p = some x → x.place = .handed →
     s.heldBack p x = false → x.pool = none → x.refs = 0 →
     let n := (x.frame.length + 255) / 256
     (∀ port q, x.pick.disp = .unicast port q → port < 512 → q < 16 →
       let i := 16 * port + q
       s.residue i = [] → s.qcfg0 i / 2 ^ 36 % 2 = 0 →
       (∀ pool, s.verdict x i n false = .taken pool → n ≤ s.bankFree x.loom → s.lossless x i = false →
         ∃ t y, exec (.beamAdmit p) s = .next t ∧ t.queue i =
           s.queue i ++ [{ pkt := p, n := n, cut := s.cutThrough x i }] ∧
           t.pkt? p = some y ∧ y.place = .stored ∧ y.pool = some pool ∧ y.cells = n ∧ y.refs = 1 ∧ y.frame = x.frame ∧
           t.bankUsed x.loom = s.bankUsed x.loom + n ∧
           (t.beam.minUsed + t.beam.sharedUsed + t.beam.headUsed =
             s.beam.minUsed + s.beam.sharedUsed + s.beam.headUsed + n) ∧
           (∀ j, j ≠ i → t.queue j = s.queue j) ∧ t.mem = s.mem ∧ t.regs = s.regs) ∧
       (∀ r, s.verdict x i n false = .drop r → r ≠ 2 → s.flag Reg.beamCtl Fld.beamCtlMarshal = false →
         x.pick.stampReq = [] → ∃ t, exec (.beamAdmit p) s = .next t ∧ t.alike (s.setPkt p none) ∧
           t.counter (0x40000 + 128 * i + 8 * r) = s.counter (0x40000 + 128 * i + 8 * r) + 1)) ∧
     (∀ g m, x.pick.disp = .multicast g m → s.groupPorts x g = [] →
       ∃ t, exec (.beamAdmit p) s = .next t ∧ t.alike (s.setPkt p none) ∧
         t.loomCounter x.loom 69 = s.loomCounter x.loom 69 + 1) ∧
     (∀ r code, x.pick.disp = .punt r code →
       let i := 10240 + x.loom
       let room := copyCells (s.queue i) + n ≤ s.fld Reg.beamPool Fld.beamPoolPuntLimit ∧ n ≤ s.sharedFree ∧
         n ≤ s.bankFree x.loom
       (room → ∃ t y, exec (.beamAdmit p) s = .next t ∧ t.queue i =
           s.queue i ++ [{ pkt := p, n := n, cut := false }] ∧
         t.pkt? p = some y ∧ y.place = .stored ∧ y.refs = 1 ∧ t.bankUsed x.loom = s.bankUsed x.loom + n ∧
         t.beam.sharedUsed = s.beam.sharedUsed + n ∧ (∀ j, j ≠ i → t.queue j = s.queue j)) ∧
       (¬ room → ∃ t, exec (.beamAdmit p) s = .next t ∧ t.pkt? p = none ∧
         t.loomCounter x.loom 67 = s.loomCounter x.loom 67 + 1))) ∧
  ((∀ (p : PktId) (x : Pkt) (s : State), s.halted = false → s.pkt? p = some x → x.place = .handed →
     s.heldBack p x = false →
     (∀ port q, x.pick.disp = .unicast port q →
       exec (.beamAdmit p) s = .next ((s.admitCopy p (16 * port + q)).endIfNone p)) ∧
     (∀ g m, x.pick.disp = .multicast g m → s.groupPorts x g ≠ [] → exec (.beamAdmit p) s =
       .next (((s.groupPorts x g).foldl (fun t port => t.admitCopy p (8192 + 4 * port + m)) s).endIfNone p))) ∧
   (∀ (s : State) (x : Pkt) (g q : Nat),
     let a := 0x31000000 + 128 * g
     let ctl := s.ple x.pick.seq (a + 64) 8
     (q ∈ s.groupPorts x g ↔ q < 512 ∧ ctl.testBit 63 = true ∧
         (s.pbyte x.pick.seq (a + q / 8)).getLsbD (q % 8) = true ∧
       s.flag (portCfg q) Fld.selvPortCfgEnable = true ∧ ¬ (ctl.testBit 62 = true ∧ q = x.inPort)) ∧
     (s.groupPorts x g).Pairwise (· < ·)) ∧
   (∀ (s : State) (p : Nat) (x : Pkt), s.pkt? p = some x →
     (x.refs = 0 → (s.endIfNone p).pkt? p = none) ∧ (x.refs ≠ 0 → s.endIfNone p = s)) ∧
   (∀ (s : State) (x : Pkt) (i n : Nat), s.lossless x i = false →
     ¬ (s.portIsDown (queuePort i) = true ∧ s.flag (Reg.beamPort (queuePort i)) Fld.beamPortDownMode = true) →
     s.verdict x i n true = if copyCells (s.queue i) + n ≤ s.qcfg0 i / 2 ^ 48 % 65536 then .taken .minimum
       else if copyCells (s.queue i) + n ≤ s.sharedFree * 2 ^ (s.qcfg0 i / 2 ^ 44 % 16) / 128 then .taken .shared
       else .drop 1) ∧
   (∀ (s : State) (p i : Nat) (x : Pkt), s.pkt? p = some x → i < 10240 →
     let n := (x.frame.length + 255) / 256
     let fresh := x.pool = none
     let v := s.verdict x i n (!x.pool.isNone)
     let t := s.admitCopy p i
     let c : Copy := { pkt := p, n := n, cut := s.cutThrough x i }
     let used (u : State) (b : Pool → Nat) : Prop := u.bankUsed x.loom =
       s.bankUsed x.loom + b .minimum + b .shared + b .headroom ∧
       u.beam.minUsed = s.beam.minUsed + b .minimum ∧ u.beam.sharedUsed = s.beam.sharedUsed + b .shared ∧
       u.beam.headUsed = s.beam.headUsed + b .headroom
     let charged (pool : Pool) : Prop := used t fun q => if q = pool then n else 0
     let entered : Prop := t.queue i = s.queue i ++ [c] ∧ t.residue i = s.residue i ∧
       ∃ y, t.pkt? p = some y ∧ y.refs = x.refs + 1
     let kept : Prop := t.queue i = s.queue i ∧ t.residue i = s.residue i ++ [c] ∧
       ∃ y, t.pkt? p = some y ∧ y.refs = x.refs + 1
     let dropped (r : Nat) : Prop := t.queue i = s.queue i ∧ t.residue i = s.residue i ∧ t.pkt? p = some x ∧
       used t (fun _ => 0) ∧ t.counter (0x40000 + 128 * i + 8 * r) = s.counter (0x40000 + 128 * i + 8 * r) + 1 ∧
       (8192 ≤ i → r = 4 → t.counter (512 * queuePort i + 128) = s.counter (512 * queuePort i + 128) + 1)
     let aside := s.residue i ≠ [] ∨ ((∃ r, v = .drop r) ∧ s.flag Reg.beamCtl Fld.beamCtlMarshal = true)
     let why (r : Nat) : Prop := if i < 8192 then v = .drop r ∨ (r = 1 ∧ ∃ q, v = .taken q) else r = 4
     (∀ q, v = .taken q → s.residue i = [] →
       (fresh → n ≤ s.bankFree x.loom → entered ∧ charged q) ∧ (fresh → s.bankFree x.loom < n → dropped 3) ∧
       (¬ fresh → entered ∧ used t fun _ => 0)) ∧
     (v = .drop 2 → dropped 2 ∧ t.flag Reg.beamErr Fld.beamErrHeadroom = true) ∧
     (∀ r, v ≠ .drop 2 → ¬ aside → (∃ q, v = .drop q) → why r → dropped r) ∧
     (v ≠ .drop 2 → aside →
       (fresh → s.bankFree x.loom < n → dropped 3) ∧
       (¬ fresh ∨ n ≤ s.bankFree x.loom → s.fld Reg.beamCtl Fld.beamCtlMarshalLimit < s.residueCells + n →
         dropped 5 ∧ t.flag Reg.beamErr Fld.beamErrMarshalFull = true) ∧
       (s.residueCells + n ≤ s.fld Reg.beamCtl Fld.beamCtlMarshalLimit →
         (¬ fresh → kept ∧ used t fun _ => 0) ∧
         (fresh → n ≤ s.bankFree x.loom → (n ≤ s.minFree → kept ∧ charged .minimum) ∧
           (s.minFree < n → n ≤ s.sharedFree → kept ∧ charged .shared) ∧
           (∀ r, s.minFree < n → s.sharedFree < n → why r → dropped r)))) ∧
     (∀ q, fresh → v = .taken q → s.residue i = [] → n ≤ s.bankFree x.loom → s.lossless x i = true →
       let a := 8 * x.inPort + s.qClass i
       let u := s.acct a
       let xoff := s.acctCfg a / 2 ^ 44
       let hit := q ≠ .minimum ∧ u.xoff = false ∧ xoff ≤ (t.acct a).shared ∧
         s.flag (Reg.beamPort x.inPort) Fld.beamPortPfcTxEn = true
       (t.acct a).shared = u.shared + (if q = .shared then n else 0) ∧
       (t.acct a).head = u.head + (if q = .headroom then n else 0) ∧
       ((t.acct a).xoff = true ↔ u.xoff = true ∨ hit) ∧ (hit → (t.port x.inPort).pfcReq = true)))) ∧
  ((∀ (q : Fin 10240) (c : Copy) (rest : List Copy) (x : Pkt) (s : State), s.halted = false →
     s.residue q.val = c :: rest → s.pkt? c.pkt = some x →
     (∀ r, s.residueVerdict q.val c x = .drop r → exec (.residueAdmit q) s = .next s) ∧
     (∀ pool, s.residueVerdict q.val c x = .taken pool → ∃ t, exec (.residueAdmit q) s = .next t ∧
       t.residue q.val = rest ∧ t.queue q.val = s.queue q.val ++ [c] ∧
       (∀ j, j ≠ q.val → t.queue j = s.queue j ∧ t.residue j = s.residue j) ∧ t.mem = s.mem)) ∧
   (∀ (v : Word) (s : State), s.takesWrites Reg.beamFlushCmd →
     let t0 := s.plainWrite Reg.beamFlushCmd v (BitVec.allOnes 64)
     let i := t0.fld Reg.beamFlushCmd Fld.beamFlushCmdQueue
     let go := Fld.beamFlushCmdGo.get v ≠ 0
     let busy := t0.flag Reg.beamFlushStat Fld.beamFlushStatBusy = true
     (¬ go → exec (.queueFlush v) s = .next t0) ∧
     (go → busy → exec (.queueFlush v) s = .next (t0.setF Reg.beamFlushStat Fld.beamFlushStatIgnored 1)) ∧
     (go → ¬ busy → i < 10240 → t0.flag Reg.beamFlushCmd Fld.beamFlushCmdWholePort = false →
       let e := queuePort i / 32
       ∃ t, exec (.queueFlush v) s = .next t ∧ t.queue i = [] ∧ t.residue i = [] ∧
         t.called e = (s.called e).filter (·.queue != i) ∧
         (∀ j, j ≠ i → t.queue j = s.queue j ∧ t.residue j = s.residue j) ∧ t.mem = s.mem ∧
         t.flag Reg.beamFlushStat Fld.beamFlushStatBusy = true ∧
         t.fld Reg.beamFlushStat Fld.beamFlushStatFlushed =
           (((s.called e).filter (·.queue == i)).length + (s.queue i).length + (s.residue i).length) %
             2 ^ (Fld.beamFlushStatFlushed.hi + 1 - Fld.beamFlushStatFlushed.lo)) ∧
     (s.halted = false → exec .queueFlushDone s = .next (s.setF Reg.beamFlushStat Fld.beamFlushStatBusy 0))))

/-- R294, R296, R297: the scheduler of a port calls the head of an eligible queue of the highest level that has one.
R294: a period of the matcher. In a round, an output without a partner grants the first bank at or after its grant
pointer that has none and for which it holds a called packet, and a bank takes the first such grant at or after its
accept pointer; three rounds add up, each bank and each output to one pair at most, and the first makes a pair if any
output asks. A pair of the first round moves both pointers one past the partner. Each pair moves up to 4 cells of the
output's called packets of that bank, in call order; so no bank gives more than 4. An output without a partner stays,
and every called list keeps its copies. Beside the rules it rests on the readings and choices of log entry 67. That a
command whose conditions do not hold changes nothing is log entry 5. -/
def Obligations.EgressScheduling : Prop :=
  (∀ (p : Port) (s : State), s.halted = false → s.flag (Reg.beamPort p.val) Fld.beamPortLink = true →
     s.shaperOk (10240 + p.val) = true →
     ((s.called (p.val / 32)).filter fun c => queuePort c.queue == p.val && c.left != 0).length < 64 →
     ((∀ i ∈ portQueues p.val, s.eligible i = false) → ∃ t, exec (.egressCall p) s = .next t ∧ t.beam.q = s.beam.q ∧
       t.beam.called = s.beam.called ∧ t.mem = s.mem ∧ t.regs = s.regs ∧ t.pkts = s.pkts) ∧
     ((∃ i ∈ portQueues p.val, s.eligible i = true) → ∃ t i c rest, exec (.egressCall p) s = .next t ∧
       i ∈ portQueues p.val ∧ s.eligible i = true ∧ (∀ j ∈ portQueues p.val, s.eligible j = true →
         s.level j ≤ s.level i) ∧
       s.queue i = c :: rest ∧ t.queue i = rest ∧ (∀ j, j ≠ i → t.queue j = s.queue j) ∧
       t.called (p.val / 32) = s.called (p.val / 32) ++ [{ copy := c, queue := i, left := c.n }] ∧
       (∀ n, n ≠ p.val / 32 → t.called n = s.called n) ∧ t.mem = s.mem ∧ t.regs = s.regs ∧ t.pkts = s.pkts)) ∧
  (∀ (s : State),
     let gp (u : State) (o : Nat) : Nat := Tbl.get (Tbl.const 0) u.beam.grantPtr o
     let ap (u : State) (b : Nat) : Nat := Tbl.get (Tbl.const 0) u.beam.acceptPtr b
     let asks (b o : Nat) : Prop := ∃ c ∈ s.called o, c.left ≠ 0 ∧ s.bankOf c = some b
     let first (k : Nat) (f : Nat → Prop) (i : Nat) : Prop :=
       i < 16 ∧ f i ∧ ∀ j, j < 16 → f j → (i + 16 - k % 16) % 16 ≤ (j + 16 - k % 16) % 16
     let grants (m : List (Nat × Nat)) (o b : Nat) : Prop :=
       (∀ e ∈ m, e.2 ≠ o) ∧ first (gp s o) (fun b => (∀ e ∈ m, e.1 ≠ b) ∧ asks b o) b
     let m1 := s.matchRound []
     let m2 := m1 ++ s.matchRound m1
     let m3 := m2 ++ s.matchRound m2
     let lefts (l : List Called) : Nat := (l.map (·.left)).sum
     let ofBank (b : Nat) (l : List Called) : List Called := l.filter fun c => s.bankOf c == some b
     (∀ m b o, (b, o) ∈ s.matchRound m ↔ b < 16 ∧ first (ap s b) (fun o => grants m o b) o) ∧
     ((∃ b o, b < 16 ∧ o < 16 ∧ asks b o) → m1 ≠ []) ∧
     m3.Pairwise (fun e f => e.1 ≠ f.1 ∧ e.2 ≠ f.2) ∧
     (∀ b k (l : List Called) i, (s.moveCells b k l)[i]? = l[i]?.map fun c => if s.bankOf c = some b then
       { c with left := c.left - (k - lefts (ofBank b (l.take i))) } else c) ∧
     (s.halted = true → exec .grantPeriod s = .next s) ∧
     (s.halted = false → ∃ t, exec .grantPeriod s = .next t ∧
       (∀ b o, (b, o) ∈ m3 → t.called o = s.moveCells b 4 (s.called o)) ∧
       (∀ o, (∀ e ∈ m3, e.2 ≠ o) → t.called o = s.called o) ∧
       (∀ b o, (b, o) ∈ m1 → gp t o = (b + 1) % 16 ∧ ap t b = (o + 1) % 16) ∧
       (∀ o, (∀ e ∈ m1, e.2 ≠ o) → gp t o = gp s o) ∧ (∀ b, (∀ e ∈ m1, e.1 ≠ b) → ap t b = ap s b) ∧
       (∀ b, ((List.range 16).map fun o => lefts (ofBank b (s.called o))).sum ≤
         ((List.range 16).map fun o => lefts (ofBank b (t.called o))).sum + 4) ∧
       (∀ n, (t.called n).map (fun c => (c.copy, c.queue)) = (s.called n).map (fun c => (c.copy, c.queue)) ∧
         lefts (s.called n) ≤ lefts (t.called n) + 4 ∧ lefts (t.called n) ≤ lefts (s.called n)) ∧
       t.pkts = s.pkts ∧ t.mem = s.mem ∧ t.regs = s.regs ∧ t.beam.q = s.beam.q))

/-- R299, R323, R327 to R329: transmission of a packet that is no bolt, asks for no stamp and no time action. The
frame passes the tag stage, is padded, and begins, once the packet is whole or where the copy is cut-through (R28);
where it is longer than the MAX it met (R344) it is dropped, or, cut-through, leaves cut to MAX and stomped. When its
frame ends, it leaves with its FCS, inverted where it is stomped, and the copy is gone. R331 to R333, R344:
transmission of a bolt without stamp or time action. All its segments, each padded, leave one after the other; if one
is longer than MAX, the whole bolt is dropped. Its payload is cut into ⌈P ÷ MSS⌉ segments, one at least; each repeats
the header as the tag stage leaves it, with the IP and transport fields of R332. R379, R382 to R384, R386: the times
of a frame that leaves, no bolt. A time action is taken on the frame after the tag stage: ORIGIN writes the egress
stamp and adds its fraction and ADD to the correctionField, RESIDENCE adds the time between the stamps and ADD; a sum
that overflows is written as the greatest; the UDP checksum is adjusted where there is one; where R384 says so the
frame stays and the skip counts. An egress stamp a unicast packet asked for enters its domain's queue, which holds 64;
a stamp beyond is discarded and counted. R330: a requested PFC frame leaves at a frame boundary of a port that can
send; while a class is in XOFF it leaves again once half of QUANTA has passed, and a transmitter that sleeps is woken
for it (R335), and one in the midst of a frame sends it at the next boundary. It enables the classes in XOFF, with
QUANTA, and those it releases, with 0. Beside the rules it rests on the readings and choices of log entries 67, 68,
70, 95, 122. That a command whose conditions do not hold changes nothing is log entry 5. -/
def Obligations.FramesLeave : Prop :=
  ((∀ (p : Port) (c : Called) (x : Pkt) (s : State), s.txReady p.val = true → (s.port p.val).pfcReq = false →
     s.tx p.val = none → nextAt p.val (s.called (p.val / 32)) [] = some c → s.pkt? c.copy.pkt = some x →
     x.bolt = 0 → x.timeAct = none → x.pick.stampReq = [] →
     (c.copy.mayLeave x = false → exec (.transmitFrame p []) s = .next s) ∧ (c.copy.mayLeave x = true →
     let f := (s.tagStage p.val (x.frame.take (x.frame.length - 4))).1
     let called := s.setCalled (p.val / 32) (dropFirst c (s.called (p.val / 32)))
     let mx := s.maxFor p.val c.copy.pkt
     let moment (u : State) : State := u.updPort p.val fun q => { q with idleAt := s.now }
     (f.length + 4 ≤ mx → exec (.transmitFrame p []) s = .next (moment (called.setTx p.val (some {
         copy := c.copy, queue := c.queue, frames := [f ++ List.replicate (60 - f.length) 0], on := true
         stomped := x.oversize || !x.fcsOk, bad := false })))) ∧
     (mx < f.length + 4 → c.copy.cut = false →
       becomes (.transmitFrame p []) s (moment (called.dropRef c.copy.pkt))) ∧
     (mx < f.length + 4 → c.copy.cut = true → becomes (.transmitFrame p []) s (moment (called.setTx p.val (some {
         copy := c.copy, queue := c.queue, frames := [f.take (mx - 4)], on := true, stomped := true, bad :=
           false })))))) ∧
   (∀ (p : Port) (t : Tx) (f : List Byte) (s : State), s.halted = false → s.tx p.val = some t →
     (t.on = false → exec (.transmitComplete p) s = .next s) ∧
     (t.on = true → t.frames = [f] → ∃ u, exec (.transmitComplete p) s = .next u ∧ u.tx p.val = none ∧
       Tbl.get (Tbl.const none) u.selv.sent p.val =
         some (f ++ toLE 4 (if t.stomped || t.bad then (~~~ crc32 f).toNat else (crc32 f).toNat)) ∧
       u.counter (512 * p.val + 80) = s.counter (512 * p.val + 80) + 1 ∧
       u.counter (512 * p.val + 88) = s.counter (512 * p.val + 88) + BitVec.ofNat 64 (f.length + 4) ∧
       (∀ x, s.pkt? t.copy.pkt = some x → x.refs ≤ 1 → u.pkt? t.copy.pkt = none) ∧
       (∀ x, s.pkt? t.copy.pkt = some x → 1 < x.refs → u.pkt? t.copy.pkt = some { x with refs := x.refs - 1 }) ∧
       (∀ q, q ≠ t.copy.pkt → u.pkt? q = s.pkt? q) ∧ u.mem = s.mem ∧ u.regs = s.regs))) ∧
  ((∀ (p : Port) (c : Called) (x : Pkt) (s : State), s.txReady p.val = true → (s.port p.val).pfcReq = false →
     s.tx p.val = none → nextAt p.val (s.called (p.val / 32)) [] = some c → s.pkt? c.copy.pkt = some x →
     c.copy.mayLeave x = true → x.bolt.getLsbD 63 = true → x.timeAct = none → x.pick.stampReq = [] →
     let tg := s.tagStage p.val (x.frame.take (x.frame.length - 4))
     let fs := boltSegments x tg.1 tg.2
     let called := s.setCalled (p.val / 32) (dropFirst c (s.called (p.val / 32)))
     let mx := s.maxFor p.val c.copy.pkt
     let moment (u : State) : State := u.updPort p.val fun q => { q with idleAt := s.now }
     ((∀ f ∈ fs, f.length + 4 ≤ mx) → exec (.transmitFrame p []) s = .next (moment (called.setTx p.val (some {
         copy := c.copy, queue := c.queue, frames := fs.map fun f => f ++ List.replicate (60 - f.length) 0, on := true
         stomped := x.oversize || !x.fcsOk, bad := false })))) ∧
     ((∃ f ∈ fs, mx < f.length + 4) → becomes (.transmitFrame p []) s (moment (called.dropRef c.copy.pkt)))) ∧
   (∀ (p : Port) (t : Tx) (s : State), s.txReady p.val = true → (s.port p.val).pfcReq = false → s.tx p.val = some t →
     exec (.transmitFrame p []) s = .next (if t.on then s else
       s.setTx p.val (some { t with on := true, bad := false }))) ∧
   (∀ (p : Port) (t : Tx) (f g : List Byte) (fs : List (List Byte)) (s : State), s.halted = false →
       s.tx p.val = some t →
     t.on = true → t.frames = f :: g :: fs → becomes (.transmitComplete p) s ({ s with selv := { s.selv with
       sent := Tbl.set (Tbl.const none) s.selv.sent p.val (some (withFcs f (t.stomped || t.bad))) } }.setTx p.val
         (some { t with frames := g :: fs, on := false }))) ∧
   (∀ (x : Pkt) (f : List Byte) (dl : Int) (i : Nat),
     let w := x.bolt.toNat
     let mss := w % 2 ^ 14
     let sh (n : Nat) : Nat := ((n : Int) + dl).toNat
     let l3 := sh (w / 2 ^ 40 % 256)
     let l4 := sh (w / 2 ^ 32 % 256)
     let hl := sh (w / 2 ^ 24 % 256)
     let ip6 := w.testBit 60
     let udp := w / 2 ^ 61 % 4 = 1
     let segs := boltSegments x f dl
     let g := segs.getD i []
     let pay := ((f.drop hl).drop (mss * i)).take mss
     let tl := hl - l4 + pay.length
     let sum (proto at_ : Nat) : Nat := inetSum (pseudo ip6 l3 proto tl g ++ patch (g.drop l4) at_ [0, 0])
     (mss ≠ 0 → segs.length = max 1 ((x.frame.length - 4 - w / 2 ^ 24 % 256 + mss - 1) / mss)) ∧
     (i < segs.length → hl ≤ f.length → l3 + (if ip6 then 40 else 20) = l4 → l4 + (if udp then 8 else 20) ≤ hl →
       g.drop hl = pay ∧ g.take l3 = f.take l3 ∧
       (ip6 = true → beAt g (l3 + 4) 2 = (hl - l3 - 40 + pay.length) % 65536) ∧
       (ip6 = false → beAt g (l3 + 2) 2 = (hl - l3 + pay.length) % 65536 ∧
         beAt g (l3 + 4) 2 = (beAt f (l3 + 4) 2 + i) % 65536 ∧ beAt g (l3 + 6) 2 = beAt f (l3 + 6) 2 ∧
         beAt g (l3 + 10) 2 = inetSum (patch (slice g l3 20) 10 [0, 0])) ∧
       (udp → beAt g (l4 + 4) 2 = tl % 65536 ∧ beAt g (l4 + 6) 2 = if sum 17 6 = 0 then 65535 else sum 17 6) ∧
       (¬ udp → beAt g (l4 + 4) 4 = (beAt f (l4 + 4) 4 + mss * i) % 2 ^ 32 ∧
         beAt g (l4 + 13) 1 = beAt f (l4 + 13) 1 &&& (if i + 1 = segs.length then 255 else 0xF6) &&&
           (if i = 0 then 255 else 0x7F) ∧ beAt g (l4 + 16) 2 = sum 6 16)))) ∧
  ((∀ (p : Port) (c : Called) (x : Pkt) (s : State), s.txReady p.val = true → (s.port p.val).pfcReq = false →
     s.tx p.val = none → nextAt p.val (s.called (p.val / 32)) [] = some c → s.pkt? c.copy.pkt = some x →
     c.copy.mayLeave x = true → x.bolt = 0 →
     let tg := s.tagStage p.val (x.frame.take (x.frame.length - 4))
     let called := s.setCalled (p.val / 32) (dropFirst c (s.called (p.val / 32)))
     let moment (u : State) : State := u.updPort p.val fun q => { q with idleAt := s.now }
     let r := called.ptpAction p.val x tg.2 tg.1.length (padFrame tg.1)
     let txq (u : State) (d : Nat) : List TxqE := Tbl.get (Tbl.const []) u.time.txq d
     tg.1.length + 4 ≤ s.maxFor p.val c.copy.pkt →
     (x.pick.stampReq = [] → exec (.transmitFrame p []) s = .next (moment (r.1.setTx p.val (some {
       copy := c.copy, queue := c.queue, frames := [r.2], on := true, stomped := x.oversize || !x.fcsOk, bad :=
         false })))) ∧
     (∀ d id, x.timeAct = none → x.pick.stampReq = [(d, id)] → c.queue < 8192 → d < 8 →
       ∃ u, exec (.transmitFrame p []) s = .next u ∧ (∀ e, e ≠ d → txq u e = txq s e) ∧
       (s.egressStamp p.val d = none → txq u d = txq s d) ∧
       ∀ t, s.egressStamp p.val d = some t →
         ((txq s d).length < 64 → txq u d = txq s d ++ [{ port := p.val, id := id, time := t }]) ∧
         (64 ≤ (txq s d).length → txq u d = txq s d ∧ u.flag (Reg.timeTxqStat d) Fld.timeTxqStatOvf = true ∧
           u.flag Reg.timeErr Fld.timeErrTxqOvf = true ∧ u.fld (Reg.timeTxqStat d) Fld.timeTxqStatOvfCnt =
             (s.fld (Reg.timeTxqStat d) Fld.timeTxqStatOvfCnt + 1) %
               2 ^ (Fld.timeTxqStatOvfCnt.hi + 1 - Fld.timeTxqStatOvfCnt.lo)))) ∧
   (∀ (s : State) (p d : Nat), s.egressStamp p d =
     if (s.fld (Reg.timePort p) Fld.timePortDomMask).testBit d = true ∧ s.domOn d = true then
       some ((((s.dom d).time : Int) + s.sfld (Reg.timePort p) Fld.timePortEgressAdj * (2 ^ 44 : Nat)) %
         ((2 ^ 48 * secUnit : Nat) : Int)).toNat
     else none) ∧
   (∀ (s : State) (p tagged : Nat) (x : Pkt) (v : Word) (dl : Int) (f : List Byte), x.timeAct = some v →
     let w := v.toNat
     let op := w / 2 ^ 60
     let d := w / 2 ^ 57 % 8
     let poI : Int := (w / 2 ^ 48 % 256 : Nat) + dl
     let uoI : Int := (w / 2 ^ 40 % 256 : Nat) + dl
     let po := poI.toNat
     let uo := uoI.toNat
     let udp := w / 2 ^ 40 % 256 ≠ 0
     let lim : Int := min 192 tagged
     let add : Int := sxInt 16 (w / 2 ^ 24) * 65536
     let fits := 0 ≤ poI ∧ poI + 44 ≤ lim ∧ (udp → 0 ≤ uoI ∧ uoI + 8 ≤ lim)
     let r := s.ptpAction p x dl tagged f
     let hi := po + (if op = 1 then 44 else 16)
     let lo := po + 8 - (po + 8 + uo) % 2
     let n := (hi - lo) + (hi - lo) % 2
     let sat (k : Int) : Int := if -(2 ^ 63) ≤ k ∧ k < 2 ^ 63 then k else 2 ^ 63 - 1
     let skips : Prop := r = (s.ptpSkip d, f)
     let does (gain : Int) : Prop := r.1 = s ∧ r.2.length = f.length ∧
       sxInt 64 (beAt r.2 (po + 8) 8) = sat (sxInt 64 (beAt f (po + 8) 8) + gain) ∧
       (∀ j, ¬ (po + 8 ≤ j ∧ j < po + 16) → ¬ (op = 1 ∧ po + 34 ≤ j ∧ j < po + 44) →
         ¬ (udp ∧ uo + 6 ≤ j ∧ j < uo + 8) → r.2[j]? = f[j]?) ∧
       (udp → uo + 8 ≤ po → let hc := beAt f (uo + 6) 2
         let c := csumAdjust hc (slice f lo n) (slice r.2 lo n)
         beAt r.2 (uo + 6) 2 = if hc = 0 then 0 else if c = 0 then 65535 else c)
     (op = 0 ∨ 3 ≤ op → r = (s, f)) ∧
     (op = 1 ∨ op = 2 → ¬ fits ∨ x.bolt.getLsbD 63 = true ∨ s.egressStamp p d = none → skips) ∧
     (∀ t, s.egressStamp p d = some t → fits → x.bolt.getLsbD 63 = false → po + 44 ≤ f.length →
       (udp → uo + 8 ≤ po) →
       (op = 1 → does ((t / 2 ^ 32 % 65536 : Nat) + add) ∧ beAt r.2 (po + 34) 6 = t / secUnit % 2 ^ 48 ∧
         beAt r.2 (po + 40) 4 = t % secUnit / nsUnit % 2 ^ 32) ∧
       (op = 2 → x.stamps.getD d none = none → skips) ∧
       (∀ i, op = 2 → x.stamps.getD d none = some i →
         (i.epoch ≠ s.fld (Reg.timeDomCtl d) Fld.timeDomCtlStepEpoch → skips) ∧
         (i.epoch = s.fld (Reg.timeDomCtl d) Fld.timeDomCtlStepEpoch →
           does ((t / 2 ^ 32 : Nat) - (i.time / 2 ^ 32 : Nat) + add))))) ∧
   (∀ (s : State) (d : Nat), d < 8 → let u := s.ptpSkip d
     u.fld (Reg.timeDomCtl d) Fld.timeDomCtlSkips = (s.fld (Reg.timeDomCtl d) Fld.timeDomCtlSkips + 1) %
       2 ^ (Fld.timeDomCtlSkips.hi + 1 - Fld.timeDomCtlSkips.lo) ∧ u.flag Reg.timeErr Fld.timeErrSkip = true)) ∧
  (∀ (p : Port) (s : State), s.halted = false →
     let ready := s.txReady p.val = true ∧ s.atBoundary p.val = true
     let on := s.xoffClasses p.val
     let f := s.pfcFrame p.val
     let due := (s.port p.val).lastPfc + quantaNs (max 1 (s.quanta p.val / 2)) (s.portGbps p.val)
     let sent (t : State) : Prop :=
       Tbl.get (Tbl.const none) t.selv.sent p.val = some (f ++ toLE 4 (crc32 f).toNat) ∧
       (t.port p.val).pfcReq = false ∧ (t.port p.val).release = 0 ∧ (t.port p.val).lastPfc = s.now ∧
       t.counter (512 * p.val + 112) = s.counter (512 * p.val + 112) + 1 ∧ t.mem = s.mem ∧ t.regs = s.regs ∧
       t.beam = s.beam
     (ready → (s.port p.val).pfcReq = true → leaves (.pfcFrameSend p) s sent) ∧
     (¬ ready ∨ (s.port p.val).pfcReq = false → exec (.pfcFrameSend p) s = .next s) ∧
     (ready → on ≠ 0 → due ≤ s.now → leaves (.pfcRefresh p) s sent) ∧
     (s.portIsDown p.val = false → ¬ ready → on ≠ 0 → due ≤ s.now →
       exec (.pfcRefresh p) s = .next ((s.lpiWake p.val).updPort p.val fun q => { q with pfcReq := true })) ∧
     (s.portIsDown p.val = true ∨ on = 0 ∨ s.now < due → exec (.pfcRefresh p) s = .next s) ∧
     f.length = 60 ∧ beAt f 12 2 = 0x8808 ∧ beAt f 14 2 = 0x0101 ∧
     beAt f 16 2 = (on ||| (s.port p.val).release.toNat) % 65536 ∧
     ∀ k, k < 8 → beAt f (18 + 2 * k) 2 = if on.testBit k then s.quanta p.val % 65536 else 0)

/-- R141, R152, R166: what a fold makes of a tail: the totals of each pair grow by its deltas, wrapping; a fold of a
FRESH record begins with zeros. The head comes back with every delta 0 and FRESH 0. A record of 128 bytes is what a
coherent read returns. R158: the cache sweep folds a line that holds deltas; the table sweep reads the head of a
record that is placed and neither cached nor in the victim buffer nor awaited by a pick, which the pass owed is then
rid of, folds it where it holds deltas, and gives a head of an old generation GEN 0. Each waits while a channel it
needs is held back (R360). R162 to R164: live rehash. START of a rehash that is not active sets ACTIVE with CURSOR 0.
A bucket without records moves CURSOR on; a record that has no place in the new table stalls the bucket, which moves
nothing; a record that has a way moves to it, its cached head with it. In step 5 each overflow record goes to a free
way, or stays; after the last one, or where none is left to offer, the new table is the current one. A move waits
while a pick waits for its record, or a channel that it needs is held back (R146, R360). Beside the rules it rests on
the readings and choices of log entries 24, 27, 101. That a command whose conditions do not hold changes nothing is
log entry 5. -/
def Obligations.WarpMaintenance : Prop :=
  ((∀ (h : Head) (fresh : Bool) (old : List Byte), old.length = 64 →
     let z := if fresh then List.replicate 64 0 else old
     (ofLE (slice z 28 4)).testBit 31 = false →
     let t := foldTail false fresh none h old
     let grown (o n d : Nat) : Prop := ofLE (slice t o n) = (ofLE (slice z o n) + d) % 2 ^ (8 * n)
     t.length = 64 ∧ grown 0 8 (delta h 0).1 ∧ grown 8 8 (delta h 0).2 ∧ grown 24 4 (delta h 1).1 ∧
       grown 16 8 (delta h 1).2 ∧ grown 32 4 (delta h 2).1 ∧ grown 40 8 (delta h 2).2 ∧
       grown 36 4 (delta h 3).1 ∧ grown 48 8 (delta h 3).2) ∧
   (∀ (s : State) (w2 flow : Bool) (who : EvMaster) (r : Nat) (m : Option (BitVec 288)) (h : Head),
     let f := s.fold w2 flow who r m h
     hasDeltas f.2.1 = false ∧ headFresh f.2.1 = false ∧ headSeal f.2.1 = headSeal h ∧ headGen f.2.1 = headGen h ∧
     (s.flag Reg.warpFdigCtl Fld.warpFdigCtlActiveEn = false → headFresh h = false → w2 = false →
       let a := s.headAddr r + 64
       a % 64 = 0 → s.hbmUnc a = false →
       f.1.bytes a 64 = foldTail false false m h (s.bytes a 64))) ∧
   (∀ (s : State) (r : Nat), (s.coherent r).length = 128)) ∧
  ((∀ (l : Fin 1048576) (s : State), s.halted = false →
     (∀ c, s.line l.val = some c → hasDeltas c.head = true → c.reserved = false → c.isSecond = false →
       c.detached = false →
       (∀ a, s.accessHeld (s.headAddr c.rno + 64) 64 = some a → exec (.cacheSweep l) s = .next (s.hbmWake a)) ∧
       (s.accessHeld (s.headAddr c.rno + 64) 64 = none → leaves (.cacheSweep l) s fun t =>
         t.line l.val = some { c with head := headBit (noDeltas c.head) 29 false, dirty := true } ∧
         (∀ j, j ≠ l.val → t.line j = s.line j) ∧ t.warp.tags = s.warp.tags ∧
         t.mem = (s.fold (s.profile == 2) true .internal c.rno c.image c.head).1.mem)) ∧
     (∀ c, s.line l.val = some c → hasDeltas c.head = false → exec (.cacheSweep l) s = .next s) ∧
     (s.line l.val = none → exec (.cacheSweep l) s = .next s)) ∧
   (∀ (r : BitVec 28) (s : State), s.halted = false → s.sweepable r.toNat = false →
       exec (.tableSweep r) s = .next s) ∧
   (∀ (r : BitVec 28) (s : State), s.halted = false → s.isPlaced r.toNat = true → s.lineOfRec r.toNat = none →
     s.victimOfRec r.toNat = none → s.recBusy r.toNat = false → s.recUnread r.toNat = false →
     let a := s.headAddr r.toNat
     let h : Head := BitVec.ofNat 512 (s.le a 64)
     let stale := headGen h ≠ 0 ∧ headGen h ≠ s.fld Reg.warpGen Fld.warpGenCurrent
     let u : State := { s with warp := { s.warp with
       owed := s.warp.owed.filter (· != r.toNat) } }.hbmTraffic false true .internal a 64
     let put (t : State) (g : Head) : State := (t.hbmTraffic false false .internal a 64).hbmPut a (headBytes g)
     (s.tableSweeps = false → exec (.tableSweep r) s = .next s) ∧
     (∀ b, s.tableSweeps = true → s.accessHeld a 128 = some b → exec (.tableSweep r) s = .next (s.hbmWake b)) ∧
     (s.accessHeld a 128 = none →
     (s.tableSweeps = true → hasDeltas h = false → ¬ stale → exec (.tableSweep r) s = .next u) ∧
     (s.tableSweeps = true → hasDeltas h = false → stale →
       exec (.tableSweep r) s = .next (put u (hput h 0 2 0))) ∧
     (s.tableSweeps = true → hasDeltas h = true → ¬ stale →
       let f := u.fold (s.profile == 2) false .internal r.toNat none h
       f.1.fld Reg.warpGen Fld.warpGenCurrent = s.fld Reg.warpGen Fld.warpGenCurrent →
       exec (.tableSweep r) s = .next (put f.1 f.2.1))))) ∧
  ((∀ (v : Word) (s : State), s.takesWrites Reg.warpRehashCtl →
     let t := s.wrote Reg.warpRehashCtl v
     let start := Fld.warpRehashCtlStart.get v ≠ 0
     let active := s.flag Reg.warpRehashStat Fld.warpRehashStatActive = true
     (¬ start → exec (.rehashStart v) s = .next t) ∧
     (start → active → undefinedUse (.rehashStart v) s 13) ∧
     (start → ¬ active → s.flowRangesOk = false → undefinedUse (.rehashStart v) s 12) ∧
     (start → ¬ active → s.flowRangesOk = true → leaves (.rehashStart v) s fun u =>
       u = t.wr Reg.warpRehashStat (BitVec.ofNat 64 (2 ^ 63)) ∧
         u.flag Reg.warpRehashStat Fld.warpRehashStatActive = true ∧
       u.fld Reg.warpRehashStat Fld.warpRehashStatCursor = 0)) ∧
   (∀ (c : Instr) (s : State), s.halted = false → s.migrating = true →
     (c = .migrateBucket ∧ s.flag Reg.warpRehashStat Fld.warpRehashStatStall = false) ∨
       (c = .rehashRetry ∧ s.flag Reg.warpRehashStat Fld.warpRehashStatStall = true) →
     let old := s.curTable
     let cur := s.fld Reg.warpRehashStat Fld.warpRehashStatCursor
     let way (w : Nat) : Nat := s.firstRec old + 8 * cur + w
     let moved (t : State) : State := (t.setF Reg.warpRehashStat Fld.warpRehashStatStall 0).incF Reg.warpRehashStat
       Fld.warpRehashStatCursor
     cur + 1 < s.nbOf old →
     (∀ t, s.moveHeld s.bucketRecs = some t → exec c s = .next t) ∧
     ((∀ w, w < 8 → s.tag (way w) = 0) →
       (c = .migrateBucket → exec (.migrateBucket) s = .next (moved s)) ∧
       (c = .rehashRetry → exec (.rehashRetry) s = .next (moved s))) ∧
     ((∀ w, w < 8 → s.tag (way w) ≠ 0 → s.recUnread (way w) = false) →
       (∃ w, w < 8 ∧ s.tag (way w) ≠ 0 ∧ s.place (1 - old) (headSeal (s.headOf (way w))) = none) →
       s.moveHeld s.bucketRecs = none → exec c s =
         .next ((s.setF Reg.warpRehashStat Fld.warpRehashStatStall 1).err Reg.warpErr 2)) ∧
     (∀ w r g, w < 8 → s.tag (way w) ≠ 0 → (∀ j, j < 8 → j ≠ w → s.tag (way j) = 0) → s.recUnread (way w) = false →
       s.place (1 - old) (headSeal (s.headOf (way w))) = some (.way r g) → r ≠ way w →
         s.moveHeld s.bucketRecs = none →
       leaves c s fun t =>
         t.tag r = g ∧ t.tag (way w) = 0 ∧ t.fld Reg.warpRehashStat Fld.warpRehashStatCursor = cur + 1 ∧
         t.flag Reg.warpRehashStat Fld.warpRehashStatStall = false ∧
         ∀ l k, s.lineOfRec (way w) = some l → s.line l = some k →
           t.line l = some { k with head := headBit k.head 28 false, rno := r })) ∧
   (∀ (i : Fin 1048576) (s : State), s.halted = false →
     let on := s.flag Reg.warpRehashStat Fld.warpRehashStatActive = true ∧
       s.flag Reg.warpRehashStat Fld.warpRehashStatOvfPhase = true
     let r := s.ovfFirst + i.val
     let seen (t : State) : State := { t with warp := { t.warp with ovfNext := i.val + 1 } }
     (¬ on → exec (.migrateOverflow i) s = .next s) ∧
     (∀ j, on → s.nextOvf = some j → j ≠ i.val → exec (.migrateOverflow i) s = .next s) ∧
     (on → s.nextOvf = none → leaves (.migrateOverflow i) s fun t => t.curTable = 1 - s.curTable ∧
       t.flag Reg.warpRehashStat Fld.warpRehashStatActive = false ∧ (t.rd Reg.warpErr).getLsbD 3 = true) ∧
     (∀ t, on → s.nextOvf = some i.val → s.moveHeld [r] = some t → exec (.migrateOverflow i) s = .next t) ∧
     (on → s.nextOvf = some i.val → s.moveHeld [r] = none → s.recUnread r = false →
       s.freeWay (1 - s.curTable) (headSeal (s.headOf r)) = none →
       ((seen s).nextOvf ≠ none → exec (.migrateOverflow i) s = .next (seen s)) ∧
       ((seen s).nextOvf = none → leaves (.migrateOverflow i) s fun t => t.curTable = 1 - s.curTable ∧
         t.flag Reg.warpRehashStat Fld.warpRehashStatActive = false ∧ (t.rd Reg.warpErr).getLsbD 3 = true ∧
         t.warp.ovf = s.warp.ovf)) ∧
     (∀ q g, on → s.nextOvf = some i.val → s.moveHeld [r] = none → s.recUnread r = false →
       s.freeWay (1 - s.curTable) (headSeal (s.headOf r)) = some (.way q g) →
       leaves (.migrateOverflow i) s fun t => t.tag q = g ∧ Tbl.get (Tbl.const none) t.warp.ovf i.val = none ∧
         ∀ j, j ≠ i.val → Tbl.get (Tbl.const none) t.warp.ovf j = Tbl.get (Tbl.const none) s.warp.ovf j)) ∧
   (∀ (s : State) (rs : List Nat),
     ((∃ r ∈ rs, s.recBusy r = true) → s.moveHeld rs = some s) ∧
     ((∀ r ∈ rs, s.recBusy r = false) → (∀ r ∈ rs, s.accessHeld (s.headAddr r) 128 = none) → s.moveHeld rs = none) ∧
     ((∀ r ∈ rs, s.recBusy r = false) → (∃ r ∈ rs, (s.accessHeld (s.headAddr r) 128).isSome = true) →
       ∃ r ∈ rs, ∃ a, s.accessHeld (s.headAddr r) 128 = some a ∧ s.moveHeld rs = some (s.hbmWake a))))

/-- R162, R165, R167, R174, R178: clearing a table or the overflow index, enabling and disabling the Warp, and writing
the cache back. A disable ends once no lookup or create is in progress. R166, R183: a coherent read: GO sets BUSY;
when it ends, WARP_RD_DATA holds the record, with its deltas added and shown 0, and CODE is ST_OK; a record in a free
way reads as zeros with ST_ABSENT. It waits for a head that a pick waits for, and while a channel it needs is held
back (R360). Beside the rules it rests on the readings and choices of log entries 15, 100, 132. That a command whose
conditions do not hold changes nothing is log entry 5. -/
def Obligations.WarpControl : Prop :=
  ((∀ (s : State), s.halted = false → s.takesWrites Reg.warpInit →
     let active := s.flag Reg.warpRehashStat Fld.warpRehashStatActive = true
     let busy (t : State) : State := t.setF Reg.warpInit Fld.warpInitBusy 1
     let inTable (t r : Nat) : Prop := s.firstRec t ≤ r ∧ r < s.firstRec t + 8 * s.nbOf t
     let inUse (n : Nat) : Prop := active ∨ (s.warpOn = true ∧ s.curTable = n)
     let cleared (n : Nat) (t : State) : Prop := t = busy (s.clearTable n) ∧
       (∀ r, inTable n r → t.tag r = 0) ∧ (∀ r, ¬ inTable n r → t.tag r = s.tag r)
     (inUse 0 → undefinedUse .warpInitTbl0 s 13) ∧ (¬ inUse 0 → leaves .warpInitTbl0 s (cleared 0)) ∧
     (inUse 1 → undefinedUse .warpInitTbl1 s 13) ∧ (¬ inUse 1 → leaves .warpInitTbl1 s (cleared 1)) ∧
     (active → undefinedUse .warpInitOvf s 13) ∧
     (¬ active → exec .warpInitOvf s = .next (busy { s with warp := { s.warp with ovf := [] } })) ∧
     exec .warpInitDone s = .next (s.setF Reg.warpInit Fld.warpInitBusy 0) ∧
     exec .cacheFlushDone s = .next (s.setF Reg.warpCacheCtl Fld.warpCacheCtlFlushBusy 0) ∧
     (s.warp.disabling = false → exec .warpDisableDone s = .next s) ∧
     (s.warp.disabling = true → s.looksPending = true → exec .warpDisableDone s = .next s) ∧
     (s.warp.disabling = true → s.looksPending = false → Tbl.wf (Tbl.const none) s.warp.cache = true →
         leaves .warpDisableDone s fun t =>
       t.warpOn = false ∧ t.warp.disabling = false ∧ t.warp.victims = [] ∧
       ∀ l c, s.line l = some c → c.isSecond = false → c.reserved = false → c.detached = false → c.pins = 0 →
         t.line l = none)) ∧
   (∀ (v : Word) (s : State), s.takesWrites Reg.warpCtl →
     let t := s.wrote Reg.warpCtl v
     let same := Fld.warpCtlCurTable.get v = s.curTable
     let enable := Fld.warpCtlEnable.get v = 1
     (s.warpOn = true → ¬ same → undefinedUse (.warpDisable v) s 13) ∧
     (s.warpOn = true → same → enable → exec (.warpDisable v) s = .next t) ∧
     (s.warpOn = true → same → ¬ enable → exec (.warpDisable v) s = .next
       { t.setF Reg.warpCtl Fld.warpCtlEnable 1 with warp := { s.warp with disabling := true } }) ∧
     (s.warpOn = false → ¬ enable → exec (.warpDisable v) s = .next t) ∧
     (s.warpOn = false → enable → s.flowRangesOk = true → exec (.warpDisable v) s = .next t) ∧
     (s.warpOn = false → enable → s.flowRangesOk = false → undefinedUse (.warpDisable v) s 12)) ∧
   (∀ (v : Word) (s : State), Tbl.wf (Tbl.const none) s.warp.cache = true →
     s.takesWrites Reg.warpCacheCtl →
     let t := s.wrote Reg.warpCacheCtl v
     (Fld.warpCacheCtlFlush.get v = 0 → exec (.cacheFlush v) s = .next t) ∧
     (Fld.warpCacheCtlFlush.get v ≠ 0 → leaves (.cacheFlush v) s fun u =>
       u.flag Reg.warpCacheCtl Fld.warpCacheCtlFlushBusy = true ∧ u.warp.tags = s.warp.tags ∧
       ∀ l c, s.line l = some c → ∃ d, u.line l = some d ∧ d.rno = c.rno ∧ d.pins = c.pins ∧
         (c.pins = 0 → c.reserved = false → c.isSecond = false → c.detached = false → d.dirty = false)))) ∧
  ((∀ (v : Word) (s : State), s.takesWrites Reg.warpRdCmd →
     let t := s.wrote Reg.warpRdCmd v
     (Fld.warpRdCmdGo.get v = 0 → exec (.coherentRead v) s = .next t) ∧
     (Fld.warpRdCmdGo.get v ≠ 0 → exec (.coherentRead v) s = .next { t.setF Reg.warpRdStat Fld.warpRdStatBusy 1 with
       warp := { s.warp with rdRec := t.fld Reg.warpRdCmd Fld.warpRdCmdRec } })) ∧
   (∀ (s : State), s.halted = false →
     let r := s.warp.rdRec
     let a := s.headAddr r
     let answers (code : Nat) (bs : List Byte) : Prop := leaves .coherentReadDone s fun t =>
       (∀ k, k < 16 → t.rd (Reg.warpRdData k) = BitVec.ofNat 64 (ofLE (slice bs (8 * k) 8))) ∧
       t.flag Reg.warpRdStat Fld.warpRdStatBusy = false ∧ t.fld Reg.warpRdStat Fld.warpRdStatCode = code ∧
       t.mem = s.mem ∧ t.warp = s.warp
     (s.flag Reg.warpRdStat Fld.warpRdStatBusy = false → exec .coherentReadDone s = .next s) ∧
     (s.flag Reg.warpRdStat Fld.warpRdStatBusy = true →
       (s.isPlaced r = false → answers stAbsent (List.replicate 128 0)) ∧
       (s.isPlaced r = true → s.recBusy r = true → exec .coherentReadDone s = .next s) ∧
       (∀ b, s.isPlaced r = true → s.recBusy r = false → s.accessHeld a 128 = some b →
         exec .coherentReadDone s = .next (s.hbmWake b)) ∧
       (s.isPlaced r = true → s.recBusy r = false → s.accessHeld a 128 = none → s.hbmUnc a = false →
         s.hbmUnc (a + 64) = false → answers stOk (s.coherent r)))))

/-- R266 to R270, R273, R440: the shuttle takes the oldest event. A port that does not learn, and a key that is known
at the event's own port, change nothing. In MODE 2 only a LEARN_REQ record is posted, where EV_LEARN is 1. An unknown
key takes the lowest free way of its bucket; a full bucket sets TABLE_FULL. A dynamic key known at another port moves
to the event's. A port at its limit sets LIMIT. An update of a locked bucket is deferred, or dropped and counted where
16 are. It decides on the master copy, where a lost word reads 0 (R489); two entries of the key in it are undefined
behaviour 25 (R259). Beside the rules it rests on the readings and choices of log entries 62, 77, 118. -/
def Obligations.AddressLearning : Prop :=
  ∀ (v : LearnEv) (rest : List LearnEv) (s : State), s.halted = false → s.learn.queue = v :: rest →
    s.learn.age = none →
    let quiet := ∀ f ∈ [Fld.learnCtlEvLearn, Fld.learnCtlEvMove, Fld.learnCtlEvFlap, Fld.learnCtlEvLimit,
      Fld.learnCtlEvFull],
      s.flag Reg.learnCtl f = false
    let u := ({ s with learn := { s.learn with queue := rest } }.incF Reg.learnStat Fld.learnStatEvents).event
      { kind := 11, weight := 1, priv := 0, master := .loom v.loom, addr := none, cls := none }
    let told (old e : Nat) : List Byte :=
      toLE 6 (v.key % 2 ^ 48) ++ toLE 2 (v.key / 2 ^ 48 % 4096) ++ toLE 2 v.port ++ toLE 2 old ++ toLE 4 e
    let b := s.macBucket v.key
    let known := s.masterFind b v.key
    let w1 (e : Nat) : Nat := s.masterLe (macAddr e + 8)
    let dynamic (e : Nat) : Prop := w1 e / 2 ^ 16 % 8 = 0
    let own (e : Nat) : Prop := w1 e / 2 ^ 16 % 2 = 0 ∧ w1 e % 65536 = v.port
    let requests := s.noLearn v.port = false ∧ s.fld (Reg.learnPort v.port) Fld.learnPortMode = 2 ∧ known.length ≤ 1
    let learns := quiet ∧ s.noLearn v.port = false ∧ s.fld (Reg.learnPort v.port) Fld.learnPortMode ≠ 2
    let limit := s.atLimit v.port = true
    let locked := (s.lockOf b).isSome = true
    let free (e : Nat) : Prop := 8 * b ≤ e ∧ e < 8 * b + 8 ∧ s.masterLe (macAddr e) / 2 ^ 63 % 2 = 0
    let updates (t : State) (e w0 w1 : Nat) : Prop := t.le (macAddr e) 8 = w0 ∧ t.le (macAddr e + 8) 8 = w1 ∧
      (∀ a, a < macAddr e ∨ macAddr e + 16 ≤ a → t.byte a = s.byte a)
    let waits : Prop :=
      (s.learn.deferred.length + s.learn.pinDeferred.length < 16 →
        exec .learnEvent s = .next { u with learn := { u.learn with deferred := s.learn.deferred ++ [v] } }) ∧
      (16 ≤ s.learn.deferred.length + s.learn.pinDeferred.length →
        exec .learnEvent s = .next ((u.incF Reg.learnStat Fld.learnStatDeferDrop).err Reg.learnErr 3))
    (s.noLearn v.port = true → exec .learnEvent s = .next u) ∧
    (s.noLearn v.port = false → 2 ≤ known.length → undefinedUse .learnEvent s 25) ∧
    (requests → s.flag Reg.learnCtl Fld.learnCtlEvLearn = false → exec .learnEvent s = .next u) ∧
    (requests → s.flag Reg.learnCtl Fld.learnCtlEvLearn = true →
      exec .learnEvent s = .next (u.post 7 36 (told 0 (known.head?.getD 0xFFFFFFFF)))) ∧
    (learns → known = [] →
      (limit → exec .learnEvent s = .next (u.setF Reg.learnErr Fld.learnErrLimit 1)) ∧
      (¬ limit → (∀ e, ¬ free e) → exec .learnEvent s = .next (u.setF Reg.learnErr Fld.learnErrTableFull 1)) ∧
      (∀ e, ¬ limit → free e → (∀ d, free d → e ≤ d) →
        (locked → waits) ∧
        (¬ locked → v.key < 2 ^ 60 → v.port < 65536 → leaves .learnEvent s fun t =>
            updates t e (2 ^ 63 + v.key) v.port))) ∧
    (∀ e, learns → known = [e] →
      (own e → exec .learnEvent s = .next u) ∧
      (¬ own e → ¬ dynamic e → leaves .learnEvent s fun t => t.mem = s.mem ∧ t.learn = u.learn) ∧
      (¬ own e → dynamic e → limit → exec .learnEvent s = .next (u.setF Reg.learnErr Fld.learnErrLimit 1)) ∧
      (¬ own e → dynamic e → ¬ limit → locked → waits) ∧
      (¬ own e → dynamic e → ¬ limit → ¬ locked → v.port < 65536 → s.fld Reg.learnFlap Fld.learnFlapN = 0 →
        leaves .learnEvent s fun t => updates t e (s.le (macAddr e) 8) (w1 e / 65536 * 65536 + v.port)))

/-- R270, R273, R276: the shuttle's pin of an entry goes after HOLD_S, and MOVES becomes 0; under a lock of the bucket
this is deferred. An age command deletes a valid dynamic entry whose HIT is 0 and whose bucket is not locked; it
refuses another, and clears HIT where it is asked to. A second command while one is busy is undefined. R264, R277: a
write of a COUNT that is not 0 over a COUNT of 0 begins the index of a large table, which ends; a COUNT of 0 empties
the table. A compare counts the 16-byte units that differ and names the first; a source that lies nowhere stops it. It
waits while a channel it needs is held back (R360). Beside the rules it rests on the readings and choices of log
entries 63, 77, 118. That a command whose conditions do not hold changes nothing is log entry 5. -/
def Obligations.AgingAndIndexes : Prop :=
  ((∀ (e : Fin 131072) (s : State), s.halted = false →
     let hold := s.fld Reg.learnFlap Fld.learnFlapHoldS
     (Tbl.get (Tbl.const none) s.learn.pinnedAt e.val = none → exec (.pinRelease e) s = .next s) ∧
     (∀ t, Tbl.get (Tbl.const none) s.learn.pinnedAt e.val = some t →
       (hold = 0 ∨ s.now < t + hold * 1000000000 → exec (.pinRelease e) s = .next s) ∧
       (hold ≠ 0 → t + hold * 1000000000 ≤ s.now → (s.lockOf (e.val / 8)).isSome = true →
           e.val ∉ s.learn.pinDeferred →
         s.deferRoom = true → exec (.pinRelease e) s =
           .next { s with learn := { s.learn with pinDeferred := s.learn.pinDeferred ++ [e.val] } }) ∧
       (hold ≠ 0 → t + hold * 1000000000 ≤ s.now → (s.lockOf (e.val / 8)).isSome = false →
           leaves (.pinRelease e) s fun u =>
         u.le (macAddr e.val + 8) 8 / 2 ^ 18 % 2 = 0 ∧ Tbl.get (Tbl.const 0) u.learn.moves e.val = 0 ∧
         Tbl.get (Tbl.const none) u.learn.pinnedAt e.val = none ∧ u.regs = s.regs))) ∧
   (∀ (v : Word) (s : State), s.takesWrites Reg.learnAgeCmd →
     let go := Fld.learnAgeCmdGo.get v ≠ 0
     let t := s.wrote Reg.learnAgeCmd v
     let e := t.fld Reg.learnAgeCmd Fld.learnAgeCmdIndex
     let hit := Tbl.get (Tbl.const 0) s.learn.hit e ≠ 0
     let locked := (s.lockOf (e / 8)).isSome = true
     let valid := s.masterLe (macAddr e) / 2 ^ 63 % 2 = 1
     let static_ := s.masterLe (macAddr e + 8) / 2 ^ 17 % 2 = 1
     let ends (code lock : Nat) (good : State → Prop) : Prop := leaves (.ageCmd v) s fun u =>
       u.rd Reg.learnAgeStat = BitVec.ofNat 64 (code + 2 ^ 62 * lock) ∧ good u
     (¬ go → exec (.ageCmd v) s = .next t) ∧
     (go → s.flag Reg.learnAgeStat Fld.learnAgeStatBusy = true → undefinedUse (.ageCmd v) s 27) ∧
     (go → s.flag Reg.learnAgeStat Fld.learnAgeStatBusy = false → s.learn.queue ≠ [] → leaves (.ageCmd v) s fun u =>
       u.flag Reg.learnAgeStat Fld.learnAgeStatBusy = true ∧ u.mem = s.mem ∧ u.learn.hit = s.learn.hit ∧
       u.learn.age = some (e, t.flag Reg.learnAgeCmd Fld.learnAgeCmdClearHit, s.learn.queue.length)) ∧
     (go → s.flag Reg.learnAgeStat Fld.learnAgeStatBusy = false → s.learn.queue = [] →
       let kept (u : State) : Prop := u.mem = s.mem ∧ u.learn.hit = s.learn.hit
       (locked → ends stRefused 1 kept) ∧ (¬ locked → ¬ valid → ends stAbsent 0 kept) ∧
       (¬ locked → valid → static_ → ends stRefused 0 kept) ∧
       (¬ locked → valid → ¬ static_ → hit → ends stRefused 0 fun u => u.mem = s.mem ∧
         (t.flag Reg.learnAgeCmd Fld.learnAgeCmdClearHit = true → Tbl.get (Tbl.const 0) u.learn.hit e = 0) ∧
         (t.flag Reg.learnAgeCmd Fld.learnAgeCmdClearHit = false → u.learn.hit = s.learn.hit)) ∧
       (¬ locked → valid → ¬ static_ → ¬ hit → ends stOk 0 fun u =>
         u.le (macAddr e) 8 = s.masterLe (macAddr e) - 2 ^ 63 ∧
         ∀ a, a < macAddr e ∨ macAddr e + 8 ≤ a → u.byte a = s.byte a)))) ∧
  ((∀ (x : XTable) (v : Word) (s : State),
     let c := Reg.learnLpmxCnt (XTable.idx x)
     let t := s.wrote c v
     let n := t.fld c Fld.learnLpmxCntCount
     let most := if x = .v4 then 4194304 else 2097152
     s.takesWrites c →
     (n = 0 → exec (.indexBuild x v) s = .next (t.setF c Fld.learnLpmxCntBusy 0)) ∧
     (n ≠ 0 → s.fld c Fld.learnLpmxCntCount = 0 → n ≤ most →
       exec (.indexBuild x v) s = .next (t.setF c Fld.learnLpmxCntBusy 1)) ∧
     (n ≠ 0 → s.fld c Fld.learnLpmxCntCount ≠ 0 ∨ most < n → undefinedUse (.indexBuild x v) s 26) ∧
     (s.halted = false → exec (.indexBuildDone x) s = .next (s.setF c Fld.learnLpmxCntBusy 0))) ∧
   (∀ (v : Word) (s : State), s.takesWrites Reg.learnCmpCtl →
     let t := (s.wrote Reg.learnCmpCtl v)
     let go := Fld.learnCmpCtlGo.get v ≠ 0
     let busy := s.flag Reg.learnCmpCtl Fld.learnCmpCtlBusy = true
     (busy → undefinedUse (.compareStart v) s 29) ∧ (¬ busy → ¬ go → exec (.compareStart v) s = .next t) ∧
     (¬ busy → go → 16 ≤ s.fld Reg.learnCmpLen Fld.learnCmpLenLen →
       exec (.compareStart v) s = .next ((t.wr Reg.learnCmpStat 0).setF Reg.learnCmpCtl Fld.learnCmpCtlBusy 1)) ∧
     (¬ busy → go → s.fld Reg.learnCmpLen Fld.learnCmpLenLen < 16 →
       exec (.compareStart v) s = .next (t.wr Reg.learnCmpStat 0))) ∧
   (∀ (s : State), s.halted = false →
     let src := s.fld Reg.learnCmpSrc Fld.learnCmpSrcSrc
     let dst := s.fld Reg.learnCmpDst Fld.learnCmpDstOffset
     let n := s.fld Reg.learnCmpLen Fld.learnCmpLenLen / 16
     let unit (o : Nat) : List Byte := ((s.shadow (src + (o - dst))).toOption).getD []
     let stands (o : Nat) : Prop := ∃ x, s.shadow (src + (o - dst)) = .ok x
     let differ := ((List.range n).map (dst + 16 * ·)).filter fun o =>
       !unitsAgree (s.flag Reg.learnCmpCtl Fld.learnCmpCtlSkipDyn) o (unit o)
         (if o < 0x1000000 then s.bytes (0x20000000 + o) 16 else List.replicate 16 0)
     (s.flag Reg.learnCmpCtl Fld.learnCmpCtlBusy = false → exec .compareDone s = .next s) ∧
     (∀ a, s.flag Reg.learnCmpCtl Fld.learnCmpCtlBusy = true → s.accessHeld src (16 * n) = some a →
       exec .compareDone s = .next (s.hbmWake a)) ∧
     (s.flag Reg.learnCmpCtl Fld.learnCmpCtlBusy = true → s.accessHeld src (16 * n) = none →
         (∃ k < n, ¬ stands (dst + 16 * k)) →
       ∃ m, undefinedUse .compareDone s m) ∧
     (s.flag Reg.learnCmpCtl Fld.learnCmpCtlBusy = true → s.accessHeld src (16 * n) = none →
         (∀ k < n, stands (dst + 16 * k)) → leaves .compareDone s fun t =>
       t.flag Reg.learnCmpCtl Fld.learnCmpCtlBusy = false ∧ t.mem = s.mem ∧
       t.fld Reg.learnCmpStat Fld.learnCmpStatMismatch = differ.length ∧
       t.fld Reg.learnCmpStat Fld.learnCmpStatFirst = differ.head?.getD 0 % 2 ^ 24)))

/-- R338, R339, R503: training. An attempt ends up when its lock has held for UP_MS, complete by its limit, and the
tile has its clock; it fails at its limit, with a LINK_TRAIN_FAIL record of the port and RETRIES, and the next starts
after a wait that doubles, within its bounds; a success resets the failures and RETRIES. Under RESET_N nothing trains.
R303, R339, R340, R342, R472, R503: a port that is up goes down when its lock has been lost for DOWN_US, at once where
DOWN_US is 0, or where SELV_RETRAIN names it: LINK clears, LINK_DOWN sets, a LINK_DOWN record is posted, and it trains
at once. What it had called returns to the heads of its queues, in order and ahead of what they hold; the frame it
transmits is lost, counted with reason TX_ABORT at its queue and its port, and its copy is gone. A gain of lock is
noted. Beside the rules it rests on the readings and choices of log entries 71, 73. That a command whose conditions do
not hold changes nothing is log entry 5. -/
def Obligations.LinkStates : Prop :=
  (∀ (p : Port) (s : State),
     let st := portStat p.val
     let full := 2 ^ speedLanes (s.pcfg p.val Fld.selvPortCfgSpeed)
     let up := s.upNs (p.val / 64)
     let limit (t0 : Nat) : Nat := t0 + s.timeoutNs (p.val / 64)
     let stopped := s.selv.refLost.getLsbD (p.val / 64) = true
     let most := 2 ^ (Fld.selvPortStatRetries.hi + 1 - Fld.selvPortStatRetries.lo) - 1
     (∀ lanes, s.underPin = true → exec (.linkUp p) s = .next s ∧ exec (.linkTrainFail p lanes) s = .next s ∧
       exec (.trainRetry p) s = .next s) ∧
     (∀ lanes, (s.port p.val).attempt = none →
       exec (.linkUp p) s = .next s ∧ exec (.linkTrainFail p lanes) s = .next s) ∧
     (stopped → exec (.linkUp p) s = .next s) ∧
     (∀ t0 l, s.underPin = false → ¬ stopped → (s.port p.val).attempt = some t0 → (s.port p.val).lockAt = some l →
       s.portOn p.val = true → max t0 l + up ≤ limit t0 → max t0 l + up ≤ s.now → leaves (.linkUp p) s fun t =>
         t.portUp p.val = true ∧
         t.flag (Reg.beamPort p.val) Fld.beamPortLink = true ∧ t.flag st Fld.selvPortStatTraining = false ∧
         t.fld st Fld.selvPortStatRetries = 0 ∧ t.fld st Fld.selvPortStatLanesOk = full - 1 ∧
         (t.port p.val).attempt = none ∧ (t.port p.val).fails = 0 ∧ t.mem = s.mem ∧ t.pkts = s.pkts ∧
         ∀ q, q ≠ p.val → t.port q = s.port q) ∧
     (∀ t0 lanes, s.underPin = false → (s.port p.val).attempt = some t0 → s.portOn p.val = true →
       (s.now < limit t0 → exec (.linkTrainFail p lanes) s = .next s) ∧
       (limit t0 ≤ s.now → stopped ∨ (∀ l, (s.port p.val).lockAt = some l → limit t0 < max t0 l + up) →
         let j := (s.port p.val).fails
         leaves (.linkTrainFail p lanes) s fun t => (t.port p.val).attempt = none ∧ (t.port p.val).fails = j + 1 ∧
           (t.port p.val).nextAt =
             some (s.now + min (s.backoffMin (p.val / 64) * 2 ^ j) (s.backoffMax (p.val / 64))) ∧
           t.flag st Fld.selvPortStatTraining = false ∧ t.fld st Fld.selvPortStatLanesOk = lanes.toNat % full ∧
           t.fld st Fld.selvPortStatRetries = min most (s.fld st Fld.selvPortStatRetries + 1) ∧
           t.flag (Reg.selvErr (p.val / 64)) Fld.selvErrLinkTrainFail = true ∧ t.portUp p.val = s.portUp p.val ∧
           ∃ u : State, u.host = s.host ∧ u.mem = s.mem ∧ t.host = (u.post 13 (48 + p.val / 64)
             (toLE 2 p.val ++ toLE 2 (t.fld st Fld.selvPortStatRetries))).host)) ∧
     (∀ n, s.underPin = false → (s.port p.val).nextAt = some n →
       (s.now < n ∨ s.portOn p.val = false → exec (.trainRetry p) s = .next s) ∧
       (n ≤ s.now → s.portOn p.val = true → exec (.trainRetry p) s = .next
         ((s.setF st Fld.selvPortStatTraining 1).updPort p.val fun x =>
           { x with attempt := some s.now, nextAt := none }))) ∧
     ((s.port p.val).nextAt = none → exec (.trainRetry p) s = .next s)) ∧
  (∀ (p : Port) (s : State),
     let tile := p.val / 64
     let downUs := s.fld (Reg.selvTrainCtl tile) Fld.selvTrainCtlDownUs
     let called := s.called (p.val / 32)
     let aborts (t : State) (x : Tx) : Prop :=
       t.counter (512 * p.val + 120) = s.counter (512 * p.val + 120) + 1 ∧
       t.counter (0x40000 + 128 * x.queue + 56) = s.counter (0x40000 + 128 * x.queue + 56) + 1 ∧
       ∀ y, s.pkt? x.copy.pkt = some y → t.pkt? x.copy.pkt = if y.refs ≤ 1 then
         none else some { y with refs := y.refs - 1 }
     let down (t : State) : Prop := t.portUp p.val = false ∧
       t.flag (Reg.beamPort p.val) Fld.beamPortLink = false ∧
       t.flag (Reg.selvErr tile) Fld.selvErrLinkDown = true ∧ t.tx p.val = none ∧
       (∀ x, s.tx p.val = some x → aborts t x) ∧ (s.tx p.val = none → t.pkts = s.pkts) ∧
       t.called (p.val / 32) = called.filter (fun c => queuePort c.queue != p.val) ∧
       (∀ n, n ≠ p.val / 32 → t.called n = s.called n) ∧
       (∀ i, t.queue i = (if queuePort i = p.val then (called.filter (fun c => c.queue == i)).map (·.copy) else []) ++
         s.queue i) ∧
       (∃ u : State, t.host = (u.post 12 (48 + tile) (toLE 2 p.val)).host) ∧ (t.port p.val).fails = 0 ∧
       (s.selv.refLost.getLsbD tile = false → (t.port p.val).attempt = some s.now ∧
         t.flag (portStat p.val) Fld.selvPortStatTraining = true)
     let lost := s.updPort p.val fun x => { x with lockAt := none, lossAt := some (x.lossAt.getD s.now) }
     (s.portUp p.val = true →
       (∀ t, (s.port p.val).lossAt = some t → t + downUs * 1000 ≤ s.now → leaves (.linkDown p) s down) ∧
       (∀ t, (s.port p.val).lossAt = some t → s.now < t + downUs * 1000 → exec (.linkDown p) s = .next s) ∧
       ((s.port p.val).lossAt = none → exec (.linkDown p) s = .next s) ∧
       (downUs = 0 → s.underPin = false → leaves (.alignmentLockLoss p) s down) ∧
       (downUs ≠ 0 → s.underPin = false → exec (.alignmentLockLoss p) s = .next lost)) ∧
     (s.portUp p.val = false → exec (.linkDown p) s = .next s ∧
       (s.underPin = false → exec (.alignmentLockLoss p) s = .next lost)) ∧
     (s.underPin = true → exec (.alignmentLockLoss p) s = .next s) ∧
     (s.underPin = true ∨ s.selv.refLost.getLsbD tile = true → exec (.alignmentLockGain p) s = .next s) ∧
     (s.underPin = false → s.selv.refLost.getLsbD tile = false →
         exec (.alignmentLockGain p) s = .next (s.updPort p.val fun x =>
       { x with lockAt := some (x.lockAt.getD s.now), lossAt := none })) ∧
     (∀ (t : Tile) (v : Word), t.val = tile → v = BitVec.ofNat 64 (2 ^ (p.val % 64)) →
       s.takesWrites (Reg.selvRetrain tile) →
       (s.portOn p.val = false → exec (.retrain t v) s = .next s) ∧
       (s.portOn p.val = true → s.portUp p.val = true → leaves (.retrain t v) s down) ∧
       (s.portOn p.val = true → s.portUp p.val = false → (s.port p.val).attempt.isSome = true →
         exec (.retrain t v) s = .next s) ∧
       (s.portOn p.val = true → s.portUp p.val = false → (s.port p.val).attempt = none →
         leaves (.retrain t v) s fun u => (u.port p.val).attempt = some s.now ∧ (u.port p.val).fails = 0 ∧
           u.flag (portStat p.val) Fld.selvPortStatTraining = true ∧ u.mem = s.mem)))

/-- R319, R325, R336, R344: a write of SELV_PORT_CFG. MAX_FRAME 0 is undefined. ENABLE written 0 takes effect whole.
While a port is enabled, SPEED, FEC and TIMING_CLASS keep their values, and CFG_IGNORED sets if another was written.
An enable that is refused leaves ENABLE 0 and sets CFG_IGNORED, or, as the ninth timing-class port of its tile,
TC_LIMIT; another one starts training. LPI_EN written 0 wakes a transmitter that is idle, and no other write does.
Packets already in the device keep the MAX they met. R334 to R337: a port enters Low Power Idle when LPI_EN lets it,
it has called nothing for IDLE_US, sends nothing and no PFC frame waits; it is awake again when its wake time is over.
The receiver follows its partner. Beside the rules it rests on the readings and choices of log entries 44, 71, 126.
That a command whose conditions do not hold changes nothing is log entry 5. -/
def Obligations.PortModes : Prop :=
  (∀ (p : Port) (v : Word) (s : State),
     let a := portCfg p.val
     let old := s.rd a
     let new := mergeMask (rwMask a) v old
     let on := Fld.selvPortCfgEnable.get old = 1
     let asks := Fld.selvPortCfgEnable.get new = 1
     let trial := s.wr a (Fld.selvPortCfgEnable.put new 0)
     let notes (t : State) : State := t.noteMax p.val (s.maxFrame p.val)
     s.takesWrites (Reg.selvPortCfg (p.val / 64) (p.val % 64)) →
     let sp := Fld.selvPortCfgSpeed.get new
     let bad := 8 ≤ sp ∨ fecAllowed sp (Fld.selvPortCfgFec.get new) = false ∨ p.val % speedLanes sp ≠ 0 ∨
       (∃ i, i < speedLanes sp ∧ s.laneTaken p.val (p.val + i) = true) ∨ s.loomActive (p.val / 32) = false
     let other (i : Nat) : Bool := decide (64 * (p.val / 64) + i ≠ p.val) && s.portOn (64 * (p.val / 64) + i) &&
       decide (s.pcfg (64 * (p.val / 64) + i) Fld.selvPortCfgTimingClass = 1)
     let full := Fld.selvPortCfgTimingClass.get new = 1 ∧ 8 ≤ ((List.range 64).filter other).length
     let refused (f : Fld) : State := notes (trial.selvRefuse p.val f)
     (Fld.selvPortCfgMaxFrame.get new = 0 → undefinedUse (.portConfigWrite p v) s 33) ∧
     (Fld.selvPortCfgMaxFrame.get new ≠ 0 →
       (¬ asks → ¬ on → exec (.portConfigWrite p v) s = .next (notes (s.wr a new))) ∧
       (¬ asks → on → leaves (.portConfigWrite p v) s fun t => t.rd a = new ∧ t.portUp p.val = false ∧
         t.flag (portStat p.val) Fld.selvPortStatTraining = false ∧ (t.port p.val).attempt = none) ∧
       (asks → on → leaves (.portConfigWrite p v) s fun t => t.rd a = mergeMask latchedMask old new ∧
           t.portUp p.val = s.portUp p.val ∧
         (new &&& latchedMask ≠ old &&& latchedMask →
           t.flag (Reg.selvErr (p.val / 64)) Fld.selvErrCfgIgnored = true) ∧
         (t.port p.val).lpi = if Fld.selvPortCfgLpiEn.get new = 0 ∧ (s.port p.val).lpi = .idle
           then .waking (s.now + s.lpiTw p.val) else (s.port p.val).lpi) ∧
       (asks → ¬ on → bad → exec (.portConfigWrite p v) s = .next (refused Fld.selvErrCfgIgnored)) ∧
       (asks → ¬ on → ¬ bad → full → exec (.portConfigWrite p v) s = .next (refused Fld.selvErrTcLimit)) ∧
       (∀ f ∈ [Fld.selvErrCfgIgnored, Fld.selvErrTcLimit], (refused f).flag (Reg.selvErr (p.val / 64)) f = true ∧
         (refused f).portOn p.val = false) ∧
       (asks → ¬ on → ¬ bad → ¬ full → leaves (.portConfigWrite p v) s fun t => t.rd a = new ∧
         (t.port p.val).attempt = some s.now ∧ t.flag (portStat p.val) Fld.selvPortStatTraining = true ∧
         t.portUp p.val = s.portUp p.val))) ∧
  (∀ (p : Port) (s : State),
     let idle := max 1 (s.fld (Reg.selvPortLpi (p.val / 64) (p.val % 64)) Fld.selvPortLpiIdleUs) * 1000
     let mayIdle := s.portUp p.val = true ∧ s.pcfg p.val Fld.selvPortCfgLpiEn = 1 ∧
       s.pcfg p.val Fld.selvPortCfgTimingClass = 0 ∧ (s.port p.val).lpi = .awake ∧ (s.port p.val).pfcReq = false ∧
       s.tx p.val = none ∧ (∀ c ∈ s.called (p.val / 32), queuePort c.queue ≠ p.val) ∧
       (s.port p.val).idleAt + idle ≤ s.now
     (mayIdle → exec (.lpiEnter p) s = .next (s.updPort p.val fun x => { x with lpi := .idle })) ∧
     (¬ mayIdle → exec (.lpiEnter p) s = .next s) ∧
     (∀ t, (s.port p.val).lpi = .waking t →
       (s.now < t → exec (.lpiWakeDone p) s = .next s) ∧
       (t ≤ s.now → exec (.lpiWakeDone p) s = .next (s.updPort p.val fun x => { x with lpi := .awake }))) ∧
     ((s.port p.val).lpi = .idle → (s.lpiWake p.val).port p.val =
       { s.port p.val with lpi := .waking (s.now + s.lpiTw p.val) }) ∧
     (s.lpiTw p.val ≥ (if s.fld (portCfg p.val) Fld.selvPortCfgSpeed < 2 then 5000 else 3000)) ∧
     (∀ on, s.underPin = true → exec (.partnerLpiSignal p on) s = .next s) ∧
     (∀ on, s.underPin = false → exec (.partnerLpiSignal p on) s = .next
       (if s.portOn p.val then s.setF (portStat p.val) Fld.selvPortStatLpiRx (if on then 1 else 0) else s)))

/-- R524: while SD_REFCLK of a tile is stopped, none of its ports is up or holds lock, enabled or not, nor comes up or
gains lock; other ports stay as they were. When the clock returns, the ports that neither train nor wait begin. R19,
R488, R490: the first failed wire of a group goes to its spare wire; the second moves the group to the link's spare
group, if that is free; the third of a group that has moved goes to the spare group's own spare wire; each with a
MASKED record and no loss. Any other takes down the lanes of a Selvedge link, or the channels of an HBM link. Beside
the rules it rests on the readings and choices of log entries 72, 73. That a command whose conditions do not hold
changes nothing is log entry 5. -/
def Obligations.ClocksAndWires : Prop :=
  (∀ (t : Tile) (s : State),
     (leaves (.refclkLoss t) s fun u => u.selv.refLost.getLsbD t.val = true ∧
       (∀ k, k < 64 →
         u.portUp (64 * t.val + k) = false ∧ (u.port (64 * t.val + k)).lockAt = none) ∧
       (∀ q, q / 64 ≠ t.val → q < 512 → u.portUp q = s.portUp q)) ∧
     (s.selv.refLost.getLsbD t.val = true → ∀ p : Port, p.val / 64 = t.val →
       exec (.linkUp p) s = .next s ∧ exec (.alignmentLockGain p) s = .next s) ∧
     (s.selv.refLost.getLsbD t.val = false → exec (.refclkReturn t) s = .next s) ∧
     (s.selv.refLost.getLsbD t.val = true → leaves (.refclkReturn t) s fun u =>
       u.selv.refLost.getLsbD t.val = false ∧ u.mem = s.mem ∧
       (∀ k, k < 64 → s.portOn (64 * t.val + k) = true → s.portUp (64 * t.val + k) = false →
         (s.port (64 * t.val + k)).attempt = none → (s.port (64 * t.val + k)).nextAt = none →
         (u.port (64 * t.val + k)).attempt = some s.now) ∧
       (∀ q, q / 64 ≠ t.val → u.port q = s.port q))) ∧
  (∀ (l : Fin 16) (g : BitVec 8) (lanes : List Port) (chans : List ChanId) (s : State),
     let key := 256 * l.val + g.toNat
     let n := Tbl.get (Tbl.const 0) s.selv.wires key + 1
     let moved (k : Nat) : Bool := Tbl.get (Tbl.const false) s.selv.moved k
     let src := if l.val < 8 then srcOf (Reg.selvErr l.val) else srcOf (Reg.creelErr (l.val - 8))
     let s1 := { s with selv := { s.selv with wires := Tbl.set (Tbl.const 0) s.selv.wires key n } }
     let spareTaken := ∃ i, i < 256 ∧ moved (256 * l.val + i) = true
     let beyond := (n = 2 ∧ spareTaken) ∨ (n = 3 ∧ moved key = false) ∨ 3 < n
     (s.underPin = true → exec (.wireFail l g lanes chans) s = .next s) ∧ (s.underPin = false →
     (n = 1 ∨ (n = 3 ∧ moved key = true) → exec (.wireFail l g lanes chans) s = .next (s1.masked 1 src key 0)) ∧
     (n = 2 → ¬ spareTaken → exec (.wireFail l g lanes chans) s = .next (({ s1 with selv := { s1.selv with
         moved := Tbl.set (Tbl.const false) s1.selv.moved key true } }).masked 2 src key 0)) ∧
     (beyond → l.val < 8 → leaves (.wireFail l g lanes chans) s fun t =>
       ∀ q ∈ lanes, s.portOn q.val = true → t.portUp q.val = false ∧ (t.port q.val).lockAt = none) ∧
     (beyond → 8 ≤ l.val → leaves (.wireFail l g lanes chans) s fun t => ∀ h ∈ chans, t.chanState (chNum h) = 4)))

/-- R353: the request of a class that ranks first. The candidates are those among the first 128 that may go, whose
bank is in no refresh, and before which no earlier request to their line (or, with the copy of a granule, their
granule) stands. There is one if there is a candidate: the oldest of those that have waited 0.5 µs; else the first
that hits an open row; else the first. R353, R356 to R358, R362: a command slot of a channel carries out what the slot
before decided for it: a refresh, a request, which leaves the queue and opens its row, or nothing where the request is
gone or its bank is in a refresh. It decides the next slot from what is queued then: a forced refresh, a retraining
step that is asked for and has its turn, the owner's request, the other class's, a due refresh of a bank without a
request, the patrol, a step, or nothing. A channel that has no slots does nothing. What the slot carries out is stated
where no load and no retirement waits for it. R359 to R362: an idle channel rests in W3 and wakes for a request, which
gets its next slot. A parity alert counts a replay; the fifth in a row, or one beyond 16 in 1 ms, wants a search and
sets REPLAY_ESC. A search that a trigger wants starts, on a channel that is awake, and ends in a state once a step of
it has been taken. R356, R358, R359, R369: a refresh that falls due is owed, in a channel that serves a slot or is
trained for one and is not in self-refresh; no bank falls more than eight behind. The stack's temperature comes with
the report. At its deadline a refresh eight behind is the one forced, and while any is eight behind, one is. Beside
the rules it rests on the readings and choices of log entries 42, 48, 49, 103, 119. That a command whose conditions do
not hold changes nothing is log entry 5. -/
def Obligations.ChannelCommands : Prop :=
  (∀ (x : Chan) (now : Nat) (may : Req → Bool) (flow : Bool),
     let stands (q r : Req) : Prop :=
       if q.copy = true ∨ r.copy = true then q.line / 256 = r.line / 256 else q.line = r.line
     let hits (q : Req) : Prop := Tbl.get (Tbl.const none) x.openRow (hbmBank q.line) = some (hbmRow q.line)
     let waited (q : Req) : Prop := q.at_ + 500 ≤ now
     let cand (q : Req) (pre : List Req) : Prop := (∃ post, x.queue.take 128 = pre ++ q :: post) ∧
       (∀ e ∈ pre, ¬ stands e q) ∧ q.flow = flow ∧ may q = true ∧
           Tbl.get (Tbl.const 0) x.refUntil (hbmBank q.line) ≤ now
     (x.rank now may flow = none ↔ ∀ q pre, ¬ cand q pre) ∧
     (∀ r, x.rank now may flow = some r → ∃ pre, cand r pre ∧
       (waited r → ∀ q a, cand q a → a.length < pre.length → ¬ waited q) ∧
       (¬ waited r → (∀ q a, cand q a → ¬ waited q) ∧
         (hits r → ∀ q a, cand q a → a.length < pre.length → ¬ hits q) ∧
         (¬ hits r → ∀ q a, cand q a → ¬ hits q ∧ pre.length ≤ a.length)))) ∧
  (∀ (h : ChanId) (errs : List (Fin 2013265920 × List SymErr)) (step : Bool) (s : State),
     let c := chNum h
     let x := s.chan c
     let i := (x.slotPos + 1) % s.slotLen
     let quiet := s.creel.waiting = [] ∧ ∀ e ∈ s.spin.task, e.2.load = none
     let ready (b : Nat) : Prop := Tbl.get (Tbl.const 0) x.refUntil b ≤ s.now
     (s.underPin = true ∨ s.chanUp c = false → exec (.treadleSlot h ⟨errs, step⟩) s = .next s) ∧
     (s.underPin = false → s.chanUp c = true → leaves (.treadleSlot h ⟨errs, step⟩) s fun t =>
       let y := t.chan c
       let first := (if s.slotFlow i then t.chanRank c true else t.chanRank c false).or
         (if s.slotFlow i then t.chanRank c false else t.chanRank c true)
       y.slotPos = i ∧ (errs = [] → quiet → t.mem = s.mem) ∧
       (∀ b, quiet → x.nextSlot = .refresh b → y.slot = .refresh b ∧ y.queue = x.queue ∧
         Tbl.get (Tbl.const 0) y.owed b = Tbl.get (Tbl.const 0) x.owed b - 1 ∧
         Tbl.get (Tbl.const 0) y.refUntil b = s.now + 120 ∧ Tbl.get (Tbl.const none) y.openRow b = none) ∧
       (∀ r, quiet → x.nextSlot = .req r.id → x.queue.find? (fun q => q.id == r.id) = some r → r.copy = false →
         ready (hbmBank r.line) →
         y.slot = .req r.id ∧ y.queue = x.queue.filter (fun q => q.id != r.id) ∧ y.owed = x.owed ∧
         Tbl.get (Tbl.const none) y.openRow (hbmBank r.line) = some (hbmRow r.line)) ∧
       (∀ n, quiet → x.nextSlot = .req n → (∀ q ∈ x.queue, q.id = n → ¬ ready (hbmBank q.line)) →
         y.slot = .idle ∧ y.queue = x.queue ∧ y.owed = x.owed) ∧
       (∀ b, y.forced = some b → y.nextSlot = .refresh b) ∧
       (y.forced = none → step = true → y.searching = true → 9 ≤ x.stepGap → y.nextSlot = .step) ∧
       (∀ r, y.forced = none → step = false → first = some r → y.nextSlot = .req r.id) ∧
       (y.forced = none → step = false → first = none → y.dueFree.isSome = true → ∃ b, y.nextSlot = .refresh b ∧
         (∃ n, (b, n) ∈ y.owed ∧ 1 ≤ n) ∧ ∀ r ∈ y.queue.take 128, hbmBank r.line ≠ b) ∧
       (y.forced = none → step = false → first = none → y.dueFree = none → t.fld (chanReg c) Fld.creelChanRest = 0 →
         y.nextSlot = if t.scrubDue c then .scrub else if y.searching then .step else .idle))) ∧
  (∀ (h : ChanId) (s : State),
     let c := chNum h
     let x := s.chan c
     let ctl := Reg.creelCtl (c / 32)
     let g := s.fld ctl Fld.creelCtlRestGrade
     let rests := s.profile = 3 ∧ g ≠ 0 ∧ s.chanState c < 4 ∧ x.queue = [] ∧ x.searching = false ∧
       s.retireOf c = none ∧ x.idleAt + 1000 * max 1 (s.fld ctl Fld.creelCtlIdleUs) ≤ s.now
     let times := (x.alertTimes.filter fun t => s.now < t + 1000000) ++ [s.now]
     let temp := Tbl.get (Tbl.const 0) s.creel.temp (c / 32)
     let moved := temp + 20 ≤ x.searchTemp ∨ x.searchTemp + 20 ≤ temp
     let awake := s.fld (chanReg c) Fld.creelChanRest = 0
     let mayStart := x.searching = false ∧ s.isRetiring c = false ∧
       (s.chanState c < 2 ∨ (s.chanState c = 3 ∧ x.releasing = true))
     (∀ n, s.underPin = true → exec (.channelRest h) s = .next s ∧ exec (.parityAlert ⟨h, n⟩) s = .next s ∧
       exec (.retrainSearchStart h) s = .next s) ∧
     (s.underPin = false → rests → exec (.channelRest h) s =
         .next ((s.setF (chanReg c) Fld.creelChanRest g).updChan c fun x =>
       { x with wake := false, nextSlot := .idle })) ∧
     (¬ rests → exec (.channelRest h) s = .next s) ∧
     (s.fld (chanReg c) Fld.creelChanRest ≠ 0 → x.queue ≠ [] ∨ x.wake = true → leaves (.restExit h) s fun t =>
       t.fld (chanReg c) Fld.creelChanRest = 0 ∧ (t.chan c).queue = x.queue ∧ (t.chan c).wake = false ∧
       (∀ r rs, x.queue = r :: rs → (t.chan c).nextSlot = .req r.id) ∧ t.mem = s.mem) ∧
     (s.fld (chanReg c) Fld.creelChanRest = 0 ∨ (x.queue = [] ∧ x.wake = false) → exec (.restExit h) s = .next s) ∧
     (∀ n, s.chanUp c = false → exec (.parityAlert ⟨h, n⟩) s = .next s) ∧
     (∀ n, s.underPin = false → s.chanUp c = true → x.alerts + 1 < 5 → times.length ≤ 16 →
         leaves (.parityAlert ⟨h, n⟩) s fun t =>
       t.regs = (s.satF (chanReg c) Fld.creelChanReplays).regs ∧ (t.chan c).alerts = x.alerts + 1 ∧
       (t.chan c).alertTimes = times ∧ (t.chan c).retry = x.retry ∧ (t.chan c).queue = x.queue ∧ t.mem = s.mem ∧
       (∀ pre b row, x.retry = pre ++ [.access b row] → n.val ≠ 0 →
         Tbl.get (Tbl.const none) (t.chan c).openRow b = some row) ∧
       (n.val = 0 → (t.chan c).openRow = x.openRow ∧ (t.chan c).refUntil = x.refUntil)) ∧
     (∀ n, s.underPin = false → s.chanUp c = true → 5 ≤ x.alerts + 1 ∨ 16 < times.length →
         leaves (.parityAlert ⟨h, n⟩) s fun t =>
       (t.chan c).wanted = true ∧ (t.chan c).alerts = 0 ∧
       t.flag (Reg.creelErr (c / 32)) Fld.creelErrReplayEsc = true) ∧
     (s.underPin = false → x.wanted = true ∨ moved → mayStart → ¬ awake → exec (.retrainSearchStart h) s =
       .next (s.updChan c fun x => { x with wake := true })) ∧
     (s.underPin = false → x.wanted = true ∨ moved → mayStart → awake → exec (.retrainSearchStart h) s =
       .next (s.updChan c fun x => { x with
         wanted := false, searching := true, stepped := false, ceTimes := [], searchTemp := temp })) ∧
     (¬ (x.wanted = true ∨ moved) ∨ ¬ mayStart → exec (.retrainSearchStart h) s = .next s) ∧
     (∀ r, x.searching = false ∨ x.stepped = false → exec (.retrainSearchDone h r) s = .next s) ∧
     (∀ r, x.searching = true → x.stepped = true → leaves (.retrainSearchDone h r) s fun t =>
         (t.chan c).searching = false ∧
       (t.chan c).releasing = false ∧ (r = .active → t.chanState c = if x.releasing then 2 else 0) ∧
       (r = .relaxed → x.releasing = false → t.chanState c = 1) ∧
       (r = .relaxed → x.releasing = true → t.chanState c = 4) ∧ (r = .dead → t.chanState c = 4))) ∧
  ((∀ (h : ChanId) (b : Fin 32) (temp : BitVec 8) (s : State),
     let c := chNum h
     let owes := Tbl.get (Tbl.const 0) (s.chan c).owed b.val
     let told : State := { s with creel := { s.creel with
       temp := Tbl.set (Tbl.const 0) s.creel.temp (c / 32) temp.toNat } }
     let off := s.chanState c = 2 ∨ s.chanState c = 4 ∨ 5 < s.chanState c ∨ 2 ≤ s.fld (chanReg c) Fld.creelChanRest
     (s.underPin = true → exec (.refreshDue h ⟨b, temp⟩) s = .next s ∧ exec (.refreshDeadline h b) s = .next s) ∧
     (s.underPin = false → off → exec (.refreshDue h ⟨b, temp⟩) s = .next told) ∧
     (s.underPin = false → ¬ off → exec (.refreshDue h ⟨b, temp⟩) s = .next
       (told.updChan c fun x => { x with owed := Tbl.upd (Tbl.const 0) x.owed b.val fun n => min 8 (n + 1) })) ∧
     (s.underPin = false → s.chanUp c = true → 8 ≤ owes → exec (.refreshDeadline h b) s = .next
       (s.updChan c fun x => { x with deadline := some b.val })) ∧
     (s.chanUp c = false ∨ owes < 8 → exec (.refreshDeadline h b) s = .next s)) ∧
   (∀ (x : Chan), (∀ b, x.deadline = some b → 8 ≤ Tbl.get (Tbl.const 0) x.owed b → x.forced = some b) ∧
     (∀ e ∈ x.owed, 8 ≤ e.2 → x.forced.isSome = true) ∧
     (∀ b, x.forced = some b → 8 ≤ Tbl.get (Tbl.const 0) x.owed b ∨ ∃ n, (b, n) ∈ x.owed ∧ 8 ≤ n)))

/-- R363, R364: retirement. A spare that is trained begins the copy, which is queued granule by granule, and one that
is not is DEAD, and the next is trained. A granule whose copy has won its slot moves CURSOR on, and what waited for it
goes to the spare; a line that cannot be taken is marked. With the last granule the slot maps to the spare. R366,
R371: a write of CREEL_CMD. Without GO, or while a command runs, it is the write alone. A search of a channel that
serves a slot is wanted; a retirement needs such a channel, or a FROZEN one that is not moved yet, and a spare; a
release needs a FROZEN one. Beside the rules it rests on the readings and choices of log entries 74, 75, 102. That a
command whose conditions do not hold changes nothing is log entry 5. -/
def Obligations.ChannelRetirement : Prop :=
  (∀ (k : StackId) (r : Retire) (s : State), s.retiring k.val = some r → r.src / 32 = k.val → r.dst < 256 →
     r.src ≠ r.dst → s.creel.waiting = [] → (∀ j q, s.retiring j = some q → q.dst = r.dst → j = k.val) →
     let stat := Reg.creelRetireStat k.val
     let w := s.fld stat Fld.creelRetireStatCursor
     let line (i : Nat) : Nat := slotLine r.slotStack r.slot w i
     let server := if r.copy then r.src else r.dst
     let here (q : Req) : Bool := !q.copy && granule q.line == granule (line 0)
     let away (q : Req) : Bool := !q.copy && !(granule q.line == granule (line 0))
     let src := (s.chan r.src).queue
     let dst := (s.chan r.dst).queue.filter fun q => !q.copy
     (∀ ok, r.copying = true → exec (.spareTrained k ok) s = .next s) ∧
     (r.copying = false → leaves (.spareTrained k true) s fun t =>
       t.retiring k.val = some { r with copying := true } ∧ t.flag stat Fld.creelRetireStatActive = true ∧
       t.mem = s.mem ∧ ∃ q, (t.chan server).queue = (s.chan server).queue ++ [q] ∧ q.copy = true ∧ q.line = line 0) ∧
     (∀ d, r.copying = false → (s.setChanState r.dst 4).pickSpare k.val = some d → leaves (.spareTrained k false) s
       fun t => t.retiring k.val = some { r with dst := d, granted := false } ∧ t.chanState d = 5 ∧
         t.chanState r.dst = 4) ∧
     (∀ e, r.copying = false ∨ r.granted = false → exec (.retireCopyGranule k e) s = .next s) ∧
     (r.copying = true → r.granted = true → w + 1 ≠ 2097152 →
       (∀ i, i < 4 → s.lineErrs (hbmLine (line i)) = [] ∨ rsUnc (s.lineErrs (hbmLine (line i))) = true) →
           s.flag Reg.warpStbl6Nb Fld.warpStbl6NbValid = false →
       leaves (.retireCopyGranule k []) s fun t => t.fld stat Fld.creelRetireStatCursor = (w + 1) % 2 ^ 22 ∧
         t.mem = s.mem ∧
         t.retiring k.val = some { r with granted := false, notBefore := s.now + s.granuleNs k.val } ∧
         (∀ i, i < 4 → r.copy = false ∨ s.hbmUnc (line i) = true → rsUnc (t.lineErrs (hbmLine (line i))) = true) ∧
         (∀ i, i < 4 → r.copy = true → s.hbmUnc (line i) = false → t.lineErrs (hbmLine (line i)) = []) ∧
         (∃ q, q.copy = true ∧ q.line = slotLine r.slotStack r.slot ((w + 1) % 2 ^ 22) 0 ∧
           (t.chan r.src).queue = src.filter away ++ (if r.copy then [q] else []) ∧
           (t.chan r.dst).queue = dst ++ src.filter here ++ (if r.copy then [] else [q]))) ∧
     (∀ e, r.copying = true → r.granted = true → w + 1 = 2097152 →
         s.flag Reg.warpStbl6Nb Fld.warpStbl6NbValid = false →
       leaves (.retireCopyGranule k e) s fun t =>
       t.retiring k.val = none ∧ t.flag stat Fld.creelRetireStatActive = false ∧ t.chanState r.dst = 0 ∧
       t.fld (chanReg r.dst) Fld.creelChanSlotStack = r.slotStack % 8 ∧
       t.fld (chanReg r.dst) Fld.creelChanSlot = r.slot % 32 ∧
       t.chanState r.src = (if s.chanState r.src = 3 then 3 else 4) ∧
       t.flag (Reg.creelErr k.val) Fld.creelErrRetired = true ∧
       (e = [] → s.rd Reg.hostifEvtRoute = 0 →
         (t.chan r.src).queue = [] ∧ (t.chan r.dst).queue = dst ++ src.filter here ++ src.filter away))) ∧
  (∀ (k : StackId) (v : Word) (s : State),
     s.takesWrites (Reg.creelCmd k.val) →
     let t := s.wrote (Reg.creelCmd k.val) v
     let stat := Reg.creelCmdStat k.val
     let go := Fld.creelCmdGo.get v ≠ 0 ∧ s.flag stat Fld.creelCmdStatBusy = false
     let act := t.fld (Reg.creelCmd k.val) Fld.creelCmdAction
     let i := t.fld (Reg.creelCmd k.val) Fld.creelCmdChannel
     let ch := 32 * k.val + i
     let st := s.chanState ch
     let cmd (u : State) (e : Option (Nat × Nat)) : State := { u with creel := { u.creel with
       cmd := Tbl.set (Tbl.const none) u.creel.cmd k.val e } }
     let ended (code : Nat) : State := cmd (t.wr stat (BitVec.ofNat 64 code)) none
     let busy := cmd (t.wr stat (Fld.creelCmdStatBusy.put 0 1)) (some (act, i))
     (¬ go → exec (.creelSearchCmd k v) s = .next t ∧ exec (.creelRetireCmd k v) s = .next t ∧
       exec (.creelReleaseCmd k v) s = .next t) ∧
     (go → act = 1 → (st < 2 → exec (.creelSearchCmd k v) s =
         .next (busy.updChan ch fun x => { x with wanted := true, wake := true })) ∧
       (2 ≤ st → exec (.creelSearchCmd k v) s = .next (ended stOk))) ∧
     (go → act = 2 → (st = 2 ∨ st = 4 ∨ st = 5 → exec (.creelRetireCmd k v) s = .next (ended stRefused)) ∧
       (st = 0 ∨ st = 1 → s.isRetiring ch = true → exec (.creelRetireCmd k v) s = .next busy) ∧
       (st = 0 ∨ st = 1 → s.isRetiring ch = false → s.pickSpare k.val = none →
           exec (.creelRetireCmd k v) s = .next (ended stFull)) ∧
       (st = 3 → s.isRetiring ch = true → exec (.creelRetireCmd k v) s = .next busy) ∧
       (st = 3 → s.isRetiring ch = false → s.chanServing ch = false →
           exec (.creelRetireCmd k v) s = .next (ended stOk)) ∧
       (∀ d, st = 0 ∨ st = 1 ∨ (st = 3 ∧ s.chanServing ch = true) → s.pickSpare k.val = some d →
           s.retiring k.val = none →
         s.stackLost (s.fld (chanReg ch) Fld.creelChanSlotStack) = false → leaves (.creelRetireCmd k v) s fun u =>
         u.retiring (ch / 32) = some ⟨ch, d, s.fld (chanReg ch) Fld.creelChanSlotStack,
           s.fld (chanReg ch) Fld.creelChanSlot, true, false, false, 0, 0⟩ ∧ u.chanState d = 5)) ∧
     (go → act = 3 → (st ≠ 3 → exec (.creelReleaseCmd k v) s = .next (ended stRefused)) ∧
       (st = 3 → exec (.creelReleaseCmd k v) s = .next ((busy.updChan ch fun x =>
         { x with wanted := true, wake := true }).updChan ch fun x => { x with releasing := true }))))

/-- R351, R356, R362, R367: the patrol reads the next line of the pass of the channel that serves it, in a slot that
has fallen to it, and at no other time. A clean line stays; one that needs correction counts and is rewritten, and the
read that reaches CE_LIMIT within a second wants a search; an uncorrectable one sets UE and wants a search. R493: the
loss of a stack: STACK_LOST names it, no request to it waits, and no record whose head lay in it alone is in a way of
a table. A stack that is lost already stays so. Beside the rules it rests on the readings and choices of log entries
74, 76, 102, 103. That a command whose conditions do not hold changes nothing is log entry 5. -/
def Obligations.HbmFaults : Prop :=
  (∀ (n : Fin 2013265920) (c : Nat) (s : State), s.servedBy (hbmBase + 64 * n.val) = some c →
     let a := hbmBase + 64 * n.val
     let x := s.chan c
     let lim := s.fld (Reg.creelCtl (c / 32)) Fld.creelCtlCeLimit
     let times := (x.ceTimes.filter fun t => s.now < t + 1000000000) ++ [s.now]
     let turn := x.slot = .scrub ∧ s.patrolLine c = n.val ∧ s.stackLost (hbmStack a) = false
     let reads (t : State) : Prop := (t.chan c).patrol = x.patrol + 1 ∧ (t.chan c).slot = .idle
     (∀ e, ¬ turn → exec (.patrolScrub n e) s = .next s) ∧
     (turn → s.hbmUnc a = false → s.lineErrs n.val = [] → leaves (.patrolScrub n []) s fun t => reads t ∧
       t.mem = s.mem ∧ t.lineErrs n.val = [] ∧ (t.chan c).queue = x.queue ∧ (t.chan c).wanted = x.wanted ∧
         s.sameRegs t measured) ∧
     (turn → s.hbmUnc a = false → s.lineErrs n.val ≠ [] → leaves (.patrolScrub n []) s fun t => reads t ∧
       t.lineErrs n.val = [] ∧ (t.chan c).ceTimes = times ∧
       t.counter (0x190000 + 72) = s.counter (0x190000 + 72) + 1 ∧
       (lim = 0 ∨ times.length < lim → (t.chan c).wanted = x.wanted ∧ t.mem = s.mem) ∧
       (lim ≠ 0 → lim ≤ times.length → (t.chan c).wanted = true ∧ (t.rd (Reg.creelErr (c / 32))).getLsbD 0 = true)) ∧
     (turn → s.hbmUnc a = true → s.otherCopy a = none → leaves (.patrolScrub n []) s fun t =>
       (s.flag Reg.warpStbl6Nb Fld.warpStbl6NbValid = false → (t.chan c).wanted = true) ∧
           t.flag (Reg.creelErr (c / 32)) Fld.creelErrUe = true)) ∧
  (∀ (k : StackId) (s : State),
     (s.underPin = true ∨ s.stackLost k.val = true → exec (.stackLoss k) s = .next s) ∧
     (s.underPin = false → s.stackLost k.val = false → leaves (.stackLoss k) s fun t => t.stackLost k.val = true ∧
       (t.rd Reg.digestFault).getLsbD 0 = true ∧
       (∀ c, c < 256 → ∀ r ∈ (t.chan c).queue, r.copy = false ∨ (∀ j, j < 8 → s.retiring j = none) →
         hbmStack r.line ≠ k.val) ∧
       (∀ r, r < s.ovfFirst ∨ s.ovfFirst + s.ovfCount ≤ r → hbmStack (s.headAddr r) = k.val → s.hasLine r = false →
         t.tag r = 0)))

/-- R377, R402: SET loads an enabled domain with SEC, NS and SUBNS at once, and gives a disabled one its start value;
ENABLE starts a domain at that value, or at 0, and consumes it; each set of a domain counts in STEP_EPOCH. Other
domains stay. A STEP moves an enabled domain by its signed number of ns, modulo 2^48 s; a disabled one ignores it. A
write of FREQ_ADJ is ignored in holdover. R376, R378, R386, R401: TIME_CTL.SNAP latches every domain at one instant;
another OSC_FREQ while a domain is enabled is undefined. A read of a transmit timestamp queue takes its oldest entry;
under RESET_N there is none (R503), here and below. Beside the rules it rests on the readings and choices of log entry
39. That a command whose conditions do not hold changes nothing is log entry 5. -/
def Obligations.TimeDomains : Prop :=
  (∀ (d : Dom) (v : Word) (s : State),
     let a := Reg.timeDomCtl d.val
     let value := s.fld (Reg.timeDomSec d.val) Fld.timeDomSecSeconds * secUnit +
       min 999999999 (s.fld (Reg.timeDomNs d.val) Fld.timeDomNsNs) * nsUnit +
       s.fld (Reg.timeDomNs d.val) Fld.timeDomNsSubns * 2 ^ 32
     let sets := Fld.timeDomCtlSet.get v ≠ 0
     let enable := Fld.timeDomCtlEnable.get v = 1
     let on := s.domOn d.val = true
     let x := s.dom d.val
     let epoch := s.fld a Fld.timeDomCtlStepEpoch
     let given (time : Nat) (start : Option Nat) (bump : Nat) (t : State) : Prop :=
       (t.dom d.val).time = time ∧ (t.dom d.val).start = start ∧
       t.fld a Fld.timeDomCtlStepEpoch = (epoch + bump) % 2 ^ 32 ∧
       t.domOn d.val = (if enable then true else false) ∧ ∀ e, e ≠ d.val → t.dom e = s.dom e
     let writable (b : Nat) : Prop := s.takesWrites b
     let cases_ (done : (State → Prop) → Prop) : Prop :=
       (on → sets → done (given value x.start 1)) ∧ (on → ¬ sets → done (given x.time x.start 0)) ∧
       (¬ on → sets → ¬ enable → done (given x.time (some value) 1)) ∧
       (¬ on → sets → enable → done (given value none 1)) ∧
       (¬ on → ¬ sets → enable → done (given (x.start.getD 0) none 0)) ∧
       (¬ on → ¬ sets → ¬ enable → done (given x.time x.start 0))
     (writable a → cases_ (leaves (.domainSet d v) s) ∧ cases_ (leaves (.domainEnable d v) s)) ∧
     (writable (Reg.timeDomStep d.val) → s.domOn d.val = false → exec (.domainStep d v) s = .next s) ∧
     (writable (Reg.timeDomStep d.val) → on → leaves (.domainStep d v) s fun t =>
       ((t.dom d.val).time : Int) = ((x.time : Int) + v.toInt * (nsUnit : Int)) % (timeRange : Int) ∧
       t.fld a Fld.timeDomCtlStepEpoch = (epoch + 1) % 2 ^ 32 ∧ ∀ e, e ≠ d.val → t.dom e = s.dom e) ∧
     (writable (Reg.timeDomFreq d.val) → s.flag a Fld.timeDomCtlHold = true → exec (.freqAdjWrite d v) s = .next s) ∧
     (writable (Reg.timeDomFreq d.val) → s.flag a Fld.timeDomCtlHold = false →
         exec (.freqAdjWrite d v) s = .next (s.wrote (Reg.timeDomFreq d.val) v))) ∧
  ((∀ (v : Word) (s : State), s.takesWrites Reg.timeCtl →
     let t0 := s.wrote Reg.timeCtl v
     let same := Fld.timeCtlOscFreq.get v % 3 = s.fld Reg.timeCtl Fld.timeCtlOscFreq % 3
     (¬ same → (∃ d, d < 8 ∧ s.domOn d = true) → undefinedUse (.timeSnap v) s 35) ∧
     (same → Fld.timeCtlSnap.get v = 0 → exec (.timeSnap v) s = .next t0) ∧
     (same → Fld.timeCtlSnap.get v ≠ 0 → leaves (.timeSnap v) s fun t =>
       (∀ d, d < 8 → t.dom d = { s.dom d with latch := if s.domOn d then (s.dom d).time else 0 }) ∧
       (s.flag Reg.glassSnap Fld.glassSnapBusy = false → t.flag Reg.glassSnap Fld.glassSnapBusy = true ∧
         t.glass.gather.map (·.1) = some (s.glass.live.filter fun e => !s.counterHidden e.1)))) ∧
   (∀ (d : Dom) (s : State),
     (s.underPin = true → exec (.txqRead d) s = .next s) ∧
     (s.underPin = false → Tbl.get (Tbl.const []) s.time.txq d.val = [] →
         exec (.txqRead d) s = .next (s.returned 0)) ∧
     (∀ e es, s.underPin = false → Tbl.get (Tbl.const []) s.time.txq d.val = e :: es → e.port < 1024 →
         e.id < 65536 → e.time < timeRange →
       leaves (.txqRead d) s fun t => Tbl.get (Tbl.const []) t.time.txq d.val = es ∧
         Fld.timeTxqW0Valid.get t.host.rdData = 1 ∧ Fld.timeTxqW0Port.get t.host.rdData = e.port ∧
         Fld.timeTxqW0Id.get t.host.rdData = e.id ∧
         Fld.timeTxqW0SecHi.get t.host.rdData = e.time / secUnit / 2 ^ 32 ∧
         t.fld (Reg.timeTxqW1 d.val) Fld.timeTxqW1SecLo = e.time / secUnit % 2 ^ 32 ∧
         t.fld (Reg.timeTxqW1 d.val) Fld.timeTxqW1Ns = e.time % secUnit / nsUnit)))

/-- R387, R388, R403: pulse outputs. ENABLE arms an output at its first edge at least 1 µs ahead; a one-shot that is
missed clears ARMED; a disabled output is at its inactive level. At its edge a periodic output names the next and is
active for WIDTH, or half of PERIOD where WIDTH is not below it; a WIDTH of 0 keeps it inactive. R389, R390, R404:
capture inputs. A selected edge clears LOS, which may bring a reference back (R391), and with FUNCTION bit 0 it joins
the FIFO with the time of an enabled domain; one within 100 ns of the last captured counts alone, and one that finds
16 captures sets OVF and CAP_OVF. A read takes the oldest. After WATCH_MS without a selected edge LOS sets. Beside the
rules it rests on the readings and choices of log entries 37, 38, 113. That a command whose conditions do not hold
changes nothing is log entry 5. -/
def Obligations.PulsesAndCaptures : Prop :=
  (∀ (j : Fin 8) (v : Word) (s : State), s.takesWrites (Reg.timeTpoCtl j.val) →
     let c := Reg.timeTpoCtl j.val
     let t0 := s.wrote c v
     let ahead := (s.dom (t0.pulseDom j.val)).time + 1000 * nsUnit
     let start := s.pulseStart j.val
     let pd := s.pulsePeriod j.val
     let enable := Fld.timeTpoCtlEnable.get v = 1
     let w := s.pulseWidth j.val
     (¬ enable → leaves (.pulseArm j v) s fun t => t.pulse j.val = { next := none, active := false, endAt := 0 } ∧
       t.flag c Fld.timeTpoCtlArmed = false ∧ t.pins.tpo.getLsbD j.val = (Fld.timeTpoCtlPol.get v == 1)) ∧
     (enable → ahead ≤ start → leaves (.pulseArm j v) s fun t =>
       (t.pulse j.val).next = some start ∧ t.flag c Fld.timeTpoCtlArmed = true) ∧
     (enable → start < ahead → pd ≠ 0 → leaves (.pulseArm j v) s fun t => ∃ k, t.flag c Fld.timeTpoCtlArmed = true ∧
       (t.pulse j.val).next = some (start + k * pd) ∧ ahead ≤ start + k * pd ∧ start + k * pd < ahead + pd) ∧
     (enable → start < ahead → pd = 0 → leaves (.pulseArm j v) s fun t => (t.pulse j.val).next = none ∧
       t.flag c Fld.timeTpoCtlArmed = false ∧ t.flag Reg.timeErr Fld.timeErrPulseMissed = true) ∧
     ((s.pulse j.val).next = none → exec (.pulseEdge j) s = .next s) ∧
     (∀ e, (s.pulse j.val).next = some e →
       let d := s.dom (s.pulseDom j.val)
       (s.domOn (s.pulseDom j.val) = false ∨ d.time < e → exec (.pulseEdge j) s = .next s) ∧
       (s.domOn (s.pulseDom j.val) = true → e ≤ d.time → leaves (.pulseEdge j) s fun t =>
         (t.pulse j.val).next = (if pd = 0 then none else some (e + pd)) ∧
         (w ≠ 0 → (t.pulse j.val).active = true ∧ (t.pulse j.val).endAt = s.now + w) ∧
         (w = 0 → (t.pulse j.val).active = (s.pulse j.val).active) ∧
         t.pins.tpo.getLsbD j.val = ((t.pulse j.val).active != s.flag c Fld.timeTpoCtlPol))) ∧
     w = (if pd ≠ 0 ∧ s.fld (Reg.timeTpoPeriod j.val) Fld.timeTpoPeriodPeriod ≤ s.fld c Fld.timeTpoCtlWidth
       then s.fld (Reg.timeTpoPeriod j.val) Fld.timeTpoPeriodPeriod / 2 else s.fld c Fld.timeTpoCtlWidth) ∧
     ((s.pulse j.val).active = false ∨ s.now < (s.pulse j.val).endAt → exec (.pulseWidthEnd j) s = .next s) ∧
     ((s.pulse j.val).active = true → (s.pulse j.val).endAt ≤ s.now → leaves (.pulseWidthEnd j) s fun t =>
       t.pulse j.val = { s.pulse j.val with active := false } ∧
       t.pins.tpo.getLsbD j.val = s.flag c Fld.timeTpoCtlPol)) ∧
  (∀ (i : Fin 4) (s : State),
     let c := Reg.timeTpiCtl i.val
     let st := Reg.timeTpiStat i.val
     let x := s.capture i.val
     let dom := s.fld c Fld.timeTpiCtlDomain
     let seen := ((s.setCapture i.val { x with lastEdge := s.now }).setF c Fld.timeTpiCtlLos 0).refScanAll
     let near := ∃ t, x.lastCap = some t ∧ s.now < t + 100
     let takes := (s.fld c Fld.timeTpiCtlFunction) % 2 = 1 ∧ s.domOn dom = true
     (∀ f, s.underPin = true → exec (.captureEdge i f) s = .next s ∧ exec (.captureRead i) s = .next s ∧
       exec (.captureLos i) s = .next s) ∧ (s.underPin = false →
     (∀ f, s.edgeSelected i.val f = false → exec (.captureEdge i f) s = .next s) ∧
     (∀ f, s.edgeSelected i.val f = true →
       (¬ takes → exec (.captureEdge i f) s = .next seen) ∧
       (takes → near → exec (.captureEdge i f) s = .next (seen.incF st Fld.timeTpiStatOvfCnt)) ∧
       (takes → ¬ near → 16 ≤ x.fifo.length → leaves (.captureEdge i f) s fun t => t.capture i.val =
           seen.capture i.val ∧
         t.flag st Fld.timeTpiStatOvf = true ∧ t.flag Reg.timeErr Fld.timeErrCapOvf = true ∧
         t.fld st Fld.timeTpiStatOvfCnt = (s.fld st Fld.timeTpiStatOvfCnt + 1) % 2 ^ 32) ∧
       (takes → ¬ near → x.fifo.length < 16 → exec (.captureEdge i f) s = .next (seen.setCapture i.val
         { fifo := x.fifo ++ [(f, (s.dom dom).time)], lastCap := some s.now, lastEdge := s.now }))) ∧
     (x.fifo = [] → exec (.captureRead i) s = .next (s.returned 0)) ∧
     (∀ f t0 es, x.fifo = (f, t0) :: es → t0 < timeRange → leaves (.captureRead i) s fun t =>
       t.capture i.val = { x with fifo := es } ∧ Fld.timeTpiW0Valid.get t.host.rdData = 1 ∧
       Fld.timeTpiW0Fall.get t.host.rdData = (if f then 1 else 0) ∧
       Fld.timeTpiW0Seconds.get t.host.rdData = t0 / secUnit ∧
       t.fld (Reg.timeTpiW1 i.val) Fld.timeTpiW1Ns = t0 % secUnit / nsUnit) ∧
     (let w := s.fld c Fld.timeTpiCtlWatchMs
       let quiet := w ≠ 0 ∧ s.flag c Fld.timeTpiCtlLos = false ∧ x.lastEdge + w * 1000000 ≤ s.now
       (¬ quiet → exec (.captureLos i) s = .next s) ∧
       (quiet → leaves (.captureLos i) s fun t => t.flag c Fld.timeTpiCtlLos = true ∧
         t.flag Reg.timeErr Fld.timeErrLos = true ∧ t.capture i.val = x ∧
         ∀ d, d < 8 → s.flag (Reg.timeDomCtl d) Fld.timeDomCtlHoldAuto = true →
           s.fld (Reg.timeDomCtl d) Fld.timeDomCtlRefCap = i.val →
           t.flag (Reg.timeDomCtl d) Fld.timeDomCtlRefState = false))))

/-- R398 to R400, R402: holdover. A write that drops REF_STATE while HOLD_EN stays 1 sets HOLD; HOLD clears where
REF_STATE is 1 or HOLD_EN is 0. Each second a domain in holdover with SOURCE 0 runs at its anchor's frequency less
281,475 units for each ppb predicted, and one with SOURCE 1 at its anchor's; other domains keep theirs. A prediction
lies within 100 ppb, and is 0 with MODEL 0. R391, R392: the DPLL. Automatic selection takes the qualified reference of
the lowest PRIO, of the lowest number among equals. A reference that is lost is no longer qualified; one without fault
for WTR_S, from now or, where it is absent, from its return, is again. Losing the last one enters HOLDOVER; a
reference selected in FREE_RUN or HOLDOVER enters LOCKING, which ends in LOCKED. R393: a write of SYNCE_OUT_j sets
what the output carries: it is held low with SOURCE 0 or a rate outside 1,000 to 156,250,000 Hz, and otherwise carries
the source at that rate. Beside the rules it rests on the readings and choices of log entries 34, 35, 36, 91. That a
command whose conditions do not hold changes nothing is log entry 5. -/
def Obligations.HoldoverAndReferences : Prop :=
  ((∀ (d : Dom) (v : Word) (c : Instr) (s : State), c = .domainSet d v ∨ c = .domainEnable d v →
     s.takesWrites (Reg.timeDomCtl d.val) →
     let a := Reg.timeDomCtl d.val
     let ref := Fld.timeDomCtlRefState.get v = 1
     let en := Fld.timeDomCtlHoldEn.get v = 1
     (s.flag a Fld.timeDomCtlRefState = true → ¬ ref → en → leaves c s fun t =>
       t.flag a Fld.timeDomCtlHold = true ∧ t.flag Reg.timeErr Fld.timeErrHold = true ∧
       ((s.dom d.val).hist = [] →
         (t.dom d.val).anchor.f = s.sfld (Reg.timeDomFreq d.val) Fld.timeDomFreqFreqAdj)) ∧
     (ref ∨ ¬ en → leaves c s fun t => t.flag a Fld.timeDomCtlHold = false)) ∧
   (∀ (s : State), s.underPin = false → leaves .holdoverTick s fun t => ∀ d, d < 8 →
     let hold := s.flag (Reg.timeDomCtl d) Fld.timeDomCtlHold = true
     let an := (s.dom d).anchor
     let f := t.fld (Reg.timeDomFreq d) Fld.timeDomFreqFreqAdj
     (¬ hold → t.rd (Reg.timeDomFreq d) = s.rd (Reg.timeDomFreq d)) ∧
     (hold → s.flag (Reg.timeDomCtl d) Fld.timeDomCtlSource = false →
       (f : Int) = (an.f - 281475 * (s.predict an).1 / (2 ^ 32 : Int)) % (2 ^ 40 : Int)) ∧
     (hold → s.flag (Reg.timeDomCtl d) Fld.timeDomCtlSource = true → (f : Int) = an.f % (2 ^ 40 : Int))) ∧
   (∀ (s : State) (an : Anchor), (s.predict an).1 ≤ 100 * 2 ^ 32 ∧ -(100 * 2 ^ 32) ≤ (s.predict an).1 ∧
     (an.model = 0 → s.predict an = (0, false)))) ∧
  ((∀ (s : State), s.fld Reg.dpllCtl Fld.dpllCtlMode = 0 →
     let prio (r : Nat) : Nat := s.fld (Reg.dpllRef r) Fld.dpllRefPrio
     (s.refChoice = none ↔ ∀ r, r < 4 → s.refQual r = false) ∧
     ∀ r, s.refChoice = some r → r < 4 ∧ s.refQual r = true ∧
       ∀ q, q < 4 → s.refQual q = true → prio r < prio q ∨ (prio r = prio q ∧ r ≤ q)) ∧
   (∀ (r : Fin 4) (s : State), s.fld Reg.dpllCtl Fld.dpllCtlMode < 2 →
     let st := s.fld Reg.dpllStat Fld.dpllStatState
     let enabled := s.flag (Reg.dpllRef r.val) Fld.dpllRefEnable = true
     let lostU := (s.setQual r.val false).setRefOk r.val (if s.refPresent r.val then some s.now else none)
     let goodU := s.setQual r.val true
     let goes (t : State) (u : State) : Prop :=
       t.time.sel = u.refChoice ∧
       (u.refChoice.isSome = true → t.fld Reg.dpllStat Fld.dpllStatState = if st = 0 ∨ st = 3 then 1 else st) ∧
       (u.refChoice = none → t.fld Reg.dpllStat Fld.dpllStatState = if st = 1 ∨ st = 2 then 3 else st)
     (¬ enabled → exec (.refDisqualify r) s = .next s) ∧
     (enabled → leaves (.refDisqualify r) s fun t => t.refQual r.val = false ∧ goes t lostU) ∧
     (Tbl.get (Tbl.const none) s.time.refOk r.val = none → exec (.refRequalify r) s = .next s) ∧
     (∀ since, Tbl.get (Tbl.const none) s.time.refOk r.val = some since →
       let fit := enabled ∧ s.refPresent r.val = true ∧
         since + s.fld Reg.dpllCtl Fld.dpllCtlWtrS * 1000000000 ≤ s.now
       (¬ fit → exec (.refRequalify r) s = .next s) ∧
       (fit → leaves (.refRequalify r) s fun t => t.refQual r.val = true ∧ goes t goodU))) ∧
   (∀ (s : State),
     (s.fld Reg.dpllStat Fld.dpllStatState = 1 → leaves .dpllLock s fun t =>
       t.fld Reg.dpllStat Fld.dpllStatState = 2 ∧ t.time = s.time) ∧
     (s.fld Reg.dpllStat Fld.dpllStatState ≠ 1 → exec .dpllLock s = .next s))) ∧
  (∀ (j : Fin 2) (k : TaskId) (v : Word) (s : State), s.takesWrites (Reg.synceOut j.val) →
     s.spin.dma = [] → s.memInOverlay (Reg.synceOut j.val) 8 = false →
     let src := Fld.synceOutSource.get v
     let hz := Fld.synceOutOutHz.get v
     leaves (.registerWrite (.thread k) (BitVec.ofNat 48 (Reg.synceOut j.val)) .w64 v) s fun t =>
       (t.rd (Reg.synceOut j.val) = (s.wrote (Reg.synceOut j.val) v).rd (Reg.synceOut j.val)) ∧
       vget t.pins.synce j.val SynceClk.low =
         if src = 0 ∨ hz < 1000 ∨ 156250000 < hz then SynceClk.low
         else { source := src, port := if src = 1 then Fld.synceOutPort.get v else 0, hz := hz })

/-- R395 to R397, R400, R406: the oscillator learner. A conversion outside the sense table sets FAULT and SENSE_FAULT;
inside a table that rises it gives TEMP, at a breakpoint that breakpoint's; a table that does not rise is undefined.
Each second joins the histories, as locked where it was locked throughout. A sample waits for SAMPLE_S seconds, needs
a source locked throughout, and is rejected where it lies far from the fit. RESET clears the learner. Beside the rules
it rests on the readings and choices of log entries 35, 39. That a command whose conditions do not hold changes
nothing is log entry 5. -/
def Obligations.OscillatorLearner : Prop :=
  (∀ (i : Fin 4) (code : BitVec 16) (s : State),
    let a := Reg.timeSense i.val
    let outside := code.toNat < (s.senseTbl 0).1 ∨ (s.senseTbl 15).1 < code.toNat
    let on := s.underPin = false
    let rises := ∀ k, k < 15 → (s.senseTbl k).1 < (s.senseTbl (k + 1)).1
    (on → outside → leaves (.senseConvert i code) s fun t => t.fld a Fld.timeSenseCode = code.toNat ∧
      t.flag a Fld.timeSenseFault = true ∧ t.flag Reg.timeErr Fld.timeErrSenseFault = true ∧ t.time = s.time) ∧
    (on → ¬ outside → ¬ rises → undefinedUse (.senseConvert i code) s 36) ∧
    (on → ¬ outside → rises → leaves (.senseConvert i code) s fun t => t.fld a Fld.timeSenseCode = code.toNat ∧
      t.flag a Fld.timeSenseFault = false ∧
      (∀ k, k < 16 → (s.senseTbl k).1 = code.toNat →
        (t.fld a Fld.timeSenseTemp : Int) = (s.senseTbl k).2 % 65536) ∧
      (i.val = s.fld Reg.timeHoldCfg Fld.timeHoldCfgSense → t.time.tempN = s.time.tempN + 1) ∧
      (i.val ≠ s.fld Reg.timeHoldCfg Fld.timeHoldCfgSense → t.time = s.time))) ∧
  (∀ (s : State), s.underPin = false → leaves .learnerSecond s fun t =>
    t.time.seconds = s.time.seconds + 1 ∧ t.time.tempN = 0 ∧ t.time.tempAcc = 0 ∧
    t.time.temp = (if s.time.tempN = 0 then s.time.temp else s.time.tempAcc / (s.time.tempN : Int)) ∧
    t.time.tempHist = (t.time.temp :: s.time.tempHist).take 1024 ∧ t.mem = s.mem ∧
    (∀ a, a ≠ Reg.dpllStat → t.rd a = s.rd a) ∧
    ∀ d, d < 8 → (t.dom d).hist.tail = (s.dom d).hist.take 1023 ∧ (t.dom d).time = (s.dom d).time ∧
      (t.dom d).hist.head?.map (·.2) =
        some (s.flag (Reg.timeDomCtl d) Fld.timeDomCtlRefState && !(s.dom d).lapse)) ∧
  (∀ (s : State), s.underPin = false →
    let k := max 1 (s.fld Reg.timeHoldCfg Fld.timeHoldCfgSampleS)
    let t0 := { s with time := { s.time with seconds := 0 } }
    let x := meanOf (s.time.tempHist.take k)
    let y (f : Int) : Int := -(f * (2 ^ 32 : Nat)) / ppbUnit
    (s.time.seconds < k → exec .learnerSample s = .next s) ∧
    (k ≤ s.time.seconds → s.sourceMean k = none → exec .learnerSample s = .next t0) ∧
    (∀ f, k ≤ s.time.seconds → s.sourceMean k = some f →
      (s.outlier (y f) x = true → exec .learnerSample s = .next (t0.incF Reg.timeHoldStat Fld.timeHoldStatRejects)) ∧
      (s.outlier (y f) x = false → leaves .learnerSample s fun t =>
        t.time.samples.head?.map (fun q => (q.y, q.x, q.t)) = some (y f, x, s.now) ∧
        t.time.samples.length = s.time.samples.length + 1 ∧ t.time.seconds = 0 ∧ t.mem = s.mem))) ∧
  (∀ (v : Word) (s : State), s.takesWrites Reg.timeHoldTref →
    let t0 := s.wrote Reg.timeHoldTref v
    (Fld.timeHoldTrefReset.get v = 0 → exec (.learnerReset v) s = .next t0) ∧
    (Fld.timeHoldTrefReset.get v ≠ 0 → leaves (.learnerReset v) s fun t => t.time.samples = [] ∧
      t.time.restored = false ∧ t.rd Reg.timeHoldTref = t0.rd Reg.timeHoldTref ∧
      ∀ a ∈ [Reg.timeHoldStat, Reg.timeHoldRange, Reg.timeHoldC0, Reg.timeHoldC1, Reg.timeHoldC2, Reg.timeHoldD],
        t.rd a = 0))

/-- R413, R448: a task command: from a state that allows it, it has its effect, and another one is refused or absent;
SPIN_TASK_STAT takes the code. Sixteen have their effect in a scheduler round; a further one waits for the next.
Beside the rules it rests on the readings and choices of log entries 41, 56, 57. -/
def Obligations.TaskCommandResults : Prop :=
  ∀ (k : TaskId) (mask : BitVec 32) (s : State),
    let T := s.task k.val
    let code (t : State) (n : Nat) : State := { t.setF Reg.spinTaskStat Fld.spinTaskStatCode n with
      spin := { t.spin with roundCmds := t.spin.roundCmds + 1 } }
    let waits (c : Instr) (o : TaskOp) (m : BitVec 32) : Prop := exec c s = .next { s with
      spin := { s.spin with cmdQ := s.spin.cmdQ ++ [(o, k.val, m)] } }
    let full := 16 ≤ s.spin.roundCmds ∨ s.spin.cmdQ ≠ []
    s.takesWrites Reg.spinTaskCmd →
    (full → waits (.taskCreate k) .create 0 ∧ waits (.taskStart k) .start 0 ∧ waits (.taskCancel k) .cancel 0 ∧
      waits (.taskDelete k) .delete 0 ∧ waits (.taskSignal k mask) .signal mask) ∧
    (¬ full →
    let others (t : State) : Prop := ∀ j, j ≠ k.val → t.task j = s.task j
    (T.st = .free → exec (.taskCreate k) s =
      .next (code (s.setTask k.val { Task.none with st := .stopped }) stOk)) ∧
    (T.st ≠ .free → exec (.taskCreate k) s = .next (code s stRefused)) ∧
    (T.st ≠ .stopped → exec (.taskStart k) s = .next (code s stRefused)) ∧
    (T.st = .stopped → leaves (.taskStart k) s fun t => others t ∧ (t.task k.val).st = .dormant ∧
      (t.task k.val).pc = s.taskBase k.val ∧ (t.task k.val).loops = [] ∧ (t.task k.val).g = T.g ∧
      (t.task k.val).armed = decide (s.taskPeriod k.val ≠ 0) ∧
      (t.task k.val).next = s.taskNow k.val + 100 * ((s.taskWord k.val 2).toNat % 2 ^ 32) ∧
      t.fld Reg.spinTaskStat Fld.spinTaskStatCode = stOk) ∧
    (T.st = .free → exec (.taskCancel k) s = .next (code s stAbsent) ∧
      exec (.taskDelete k) s = .next (code s stAbsent) ∧
      exec (.taskSignal k mask) s = .next (code s stAbsent)) ∧
    (T.st ≠ .free → leaves (.taskCancel k) s fun t => others t ∧ (t.task k.val).st = .stopped ∧
      (t.task k.val).wait = .none ∧ (t.task k.val).ctx = none ∧ k.val ∉ t.spin.ready ∧ (t.task k.val).g = T.g ∧
      (t.task k.val).locks = T.locks ∧ (t.task k.val).flags = T.flags ∧ t.mem = s.mem ∧
      t.fld Reg.spinTaskStat Fld.spinTaskStatCode = stOk) ∧
    (T.st ≠ .free → leaves (.taskDelete k) s fun t => t.task k.val = Task.none ∧
      t.fld Reg.spinTaskStat Fld.spinTaskStatCode = stOk ∧
      ∀ name l, name ∈ T.locks → s.lockOf name = some l → l.waiters = [] → t.lockOf name = none) ∧
    (T.st ≠ .free → exec (.taskSignal k mask) s = .next (code (s.signal k.val mask) stOk)))

/-- R421, R422: at NEXT a DORMANT task is released: its deadline counts from its nominal release, of which those a
multiple of PERIOD too late are skipped, and the next comes after the shortened period at the earliest. A task that a
flag made READY in the same round takes the release into that activation; any other task that is not DORMANT, a READY
one too, holds the release. An activation past its deadline is counted once, and recorded where DL_EVT asks for it.
R412, R417 to R419: a round of the scheduler with one READY task puts it into a free context; with none free it takes
that of the RUNNING task of the lowest PRIO, where that is lower, and that task is READY again, at the front. A task
that has held its context for 10 µs gives it up to a READY one of its PRIO. R515, R516: a restart of the Spindle
deletes every task and pauses dispatch and the command ring; GO is ignored while one is in progress. Once every copy
accepted has ended, the handles are released, the queues are empty, the stores named are cleared and BUSY clears.
Beside the rules it rests on the readings and choices of log entries 29, 50, 55, 56. That a command whose conditions
do not hold changes nothing is log entry 5. -/
def Obligations.TaskScheduling : Prop :=
  (∀ (k : TaskId) (s : State), s.halted = false →
     let T := s.task k.val
     let a := s.taskNow k.val
     let p := s.taskPeriod k.val
     let n := if T.nominal + 16 * p ≤ a then (a - T.nominal) / p else 0
     let r := T.nominal + n * p
     let due := T.armed = true ∧ T.heldRel = false ∧ T.next ≤ a
     (¬ due → exec (.taskRelease k) s = .next s) ∧
     (due → T.st = .dormant → leaves (.taskRelease k) s fun t => (t.task k.val).st = .ready ∧
       (t.task k.val).deadline = some (r + s.taskDeadline k.val) ∧
       (t.task k.val).next = max (a + s.taskCatchup k.val) (r + p) ∧
       (t.task k.val).lag = (t.task k.val).next - (r + p) ∧
       (t.task k.val).skipped = (T.skipped + n) % 65536 ∧ t.spin.ready = s.spin.ready ++ [k.val] ∧
       (∀ j, j ≠ k.val → t.task j = s.task j) ∧ t.mem = s.mem ∧ t.regs = s.regs) ∧
     (due → T.st = .ready → T.flagRound = true → leaves (.taskRelease k) s fun t => (t.task k.val).st = .ready ∧
       (t.task k.val).acts = T.acts ∧ (t.task k.val).deadline = some (r + s.taskDeadline k.val) ∧
       (t.task k.val).next = max (a + s.taskCatchup k.val) (r + p) ∧ t.spin.ready = s.spin.ready ∧
       (∀ j, j ≠ k.val → t.task j = s.task j) ∧ t.mem = s.mem ∧ t.regs = s.regs) ∧
     (due → T.st ≠ .dormant → ¬ (T.st = .ready ∧ T.flagRound = true) → exec (.taskRelease k) s =
       .next (s.setTask k.val { T with heldRel := true })) ∧
     (T.deadline = none → exec (.deadlineMiss k) s = .next s) ∧
     (∀ d, T.deadline = some d → a ≤ d → exec (.deadlineMiss k) s = .next s) ∧
     (∀ d, T.deadline = some d → d < a →
       let u := (s.setTask k.val { T with deadline := none, misses := (T.misses + 1) % 65536 }).setF Reg.spinErr
         Fld.spinErrDeadline 1
       (s.taskF k.val 17 17 = 0 → exec (.deadlineMiss k) s = .next u) ∧
       (s.taskF k.val 17 17 = 1 → exec (.deadlineMiss k) s = .next
         (u.post 14 2 (toLE 2 k.val ++ toLE 6 0 ++ toLE 8 T.lag))))) ∧
  ((∀ (k : Nat) (s : State), s.halted = false → s.spin.restarting = false →
     Tbl.wf (Tbl.const Task.none) s.spin.task = true → s.spin.cmdQ = [] → s.spin.stored = [] →
       s.spin.ready = [k] → (s.task k).st = .ready →
     (∀ i j, (s.task i).st = .running → (s.task j).st = .running → (s.task i).ctx = (s.task j).ctx → i = j) →
     (∀ j, (s.task j).st = .dormant → (s.task j).flags &&& (s.taskWord j 1).extractLsb' 32 32 = 0) →
     let runs (t : State) (c : Nat) : Prop := (t.task k).st = .running ∧ (t.task k).ctx = some c ∧
       (t.task k).sliceAt = s.now ∧ (t.task k).pc = (s.task k).pc ∧ (t.task k).g = (s.task k).g
     (∀ c, s.freeCtx = some c → leaves .schedRound s fun t => runs t c ∧ t.spin.ready = [] ∧ t.mem = s.mem ∧
       s.sameRegs t measured) ∧
     (∀ j c, s.freeCtx = none → s.lowestRunning = some j → (s.task j).ctx = some c → j ≠ k →
       (s.prio j < s.prio k → leaves .schedRound s fun t => runs t c ∧ t.spin.ready = [j] ∧
         (t.task j).st = .ready ∧ (t.task j).ctx = none ∧ (t.task j).pc = (s.task j).pc) ∧
       (s.prio k ≤ s.prio j → leaves .schedRound s fun t => t.spin.ready = [k] ∧ (t.task k).st = .ready ∧
         (t.task j).ctx = some c))) ∧
   (∀ (s : State), s.halted = true ∨ s.spin.restarting = true → exec .schedRound s = .next s) ∧
   (∀ (k : TaskId) (s : State), s.halted = false →
     let T := s.task k.val
     let spent := T.st = .running ∧ T.wait = .none ∧ T.sliceAt + 10000 ≤ s.now ∧
       ∃ j ∈ s.spin.ready, s.prio j = s.prio k.val
     (¬ spent → exec (.sliceExpire k) s = .next s) ∧
     (spent → leaves (.sliceExpire k) s fun t => (t.task k.val).st = .ready ∧ (t.task k.val).ctx = none ∧
       t.spin.ready = s.spin.ready ++ [k.val] ∧ (∀ j, j ≠ k.val → t.task j = s.task j) ∧ t.mem = s.mem ∧
       t.regs = s.regs))) ∧
  ((∀ (v : Word) (s : State), s.takesWrites Reg.spinRestart →
     let t0 := s.wrote Reg.spinRestart v
     let go := Fld.spinRestartGo.get v ≠ 0 ∧ s.flag Reg.spinRestart Fld.spinRestartBusy = false
     (¬ go → exec (.spindleRestart v) s = .next t0) ∧
     (go → (∀ name l, s.lockOf name = some l → l.waiters.Nodup ∧ ∀ j ∈ l.waiters, (s.task j).wait = .lock name) →
       leaves (.spindleRestart v) s fun t => t.flag Reg.spinRestart Fld.spinRestartBusy = true ∧
       t.spin.restarting = true ∧ (∀ k, t.task k = Task.none) ∧ t.ringAt = none)) ∧
   (∀ (s : State), s.halted = false →
     let idle := ∀ e ∈ s.spin.dma, e.2 = []
     (s.spin.restarting = false ∨ ¬ idle → exec .spindleRestartDone s = .next s) ∧
     (s.spin.restarting = true → idle → leaves .spindleRestartDone s fun t => t.spin.restarting = false ∧
       t.flag Reg.spinRestart Fld.spinRestartBusy = false ∧ t.spin.out = [] ∧ t.spin.heldInj = [] ∧
       (∀ q, t.squeue q = SQueue.init) ∧
       (s.flag Reg.spinRestart Fld.spinRestartClearProg = true → ∀ a, 0x40000000 ≤ a → a < 0x40200000 →
         t.byte a = memReset a) ∧
       (s.flag Reg.spinRestart Fld.spinRestartClearScratch = true → ∀ a, 0x41000000 ≤ a → a < 0x41800000 →
         t.byte a = memReset a))))

/-- R302, R429, R430: the Spindle takes the next punted copy. Where its reason's queue and the punt buffer have room,
no restart is in progress and an ordered reason has fewer than 4,096 handles outstanding, the buffer takes its header
and frame, and the queue its handle; else the copy is dropped and counted. A handle names its sequence number, reason,
loom, units and length. R431 to R433, R463: the device takes the next inject descriptor of queue 255. One of LEN 1 to
63 or above 16,360, or that names a handle it may not, or freed units, is undefined. A frame enters through port 512
into its loom, or is dropped with reason 68 where that loom is not ACTIVE. A release of LEN 0 injects nothing. An
injection of an ordered reason waits while a handle of the reason that was put before its own is outstanding; the
first that need not wait goes out, once those are released or have given up their places after RELEASE_MS. One whose
descriptor or frame a channel holds back waits. Beside the rules it rests on the readings and choices of log entries
58, 59. That a command whose conditions do not hold changes nothing is log entry 5. -/
def Obligations.PuntAndInjection : Prop :=
  ((∀ (n : LoomId) (c : Copy) (cs : List Copy) (x : Pkt) (r : Nat) (code : BitVec 32) (s : State), s.halted = false →
     s.queue (10240 + n.val) = c :: cs → s.pkt? c.pkt = some x → x.pick.disp = .punt r code → r < 64 →
     let len := x.frame.length
     let m := (64 + len + 255) / 256
     let q := s.fld (Reg.spinPunt r) Fld.spinPuntQueue
     let Q := s.squeue q
     (s.puntLoom ≠ some n.val → exec (.puntTake ⟨n, []⟩) s = .next s) ∧
     let window := (s.spin.out.filter fun (e : Handle) => handleReason e.h == r).length
     let lets := s.spin.restarting = false ∧ (s.ordered r = true → window < 4096)
     (s.puntLoom = some n.val → s.flag (Reg.spinQCfg q) Fld.spinQCfgNotifyEn = false →
       (∀ u, lets → s.freeRun m = some u → Q.getters = [] → Q.entries.length < s.qDepth q →
         let h := handleWord (Tbl.get (Tbl.const 0) s.spin.seqs r) r x.loom u m len
         leaves (.puntTake ⟨n, []⟩) s fun t => t.squeue q = { Q with entries := Q.entries ++ [(h, none)] } ∧
           t.bytes (0x42000000 + 256 * u) (64 + len) = s.puntHeader x h code ++ x.frame ∧
           (∀ a, a < 0x42000000 + 256 * u ∨ 0x42000000 + 256 * u + 64 + len ≤ a → t.byte a = s.byte a) ∧
           t.queue (10240 + n.val) = cs ∧ t.spin.units = s.spin.units ++ [(u, m)] ∧ t.regs = s.regs) ∧
       (¬ lets ∨ s.freeRun m = none ∨ (Q.getters = [] ∧ s.qDepth q ≤ Q.entries.length) →
           leaves (.puntTake ⟨n, []⟩) s fun t =>
         t.spin.units = s.spin.units ∧ t.queue (10240 + n.val) = cs ∧ t.squeue q = Q ∧
         t.fld (Reg.spinPunt r) Fld.spinPuntDropped =
           (s.fld (Reg.spinPunt r) Fld.spinPuntDropped + 1) % 2 ^ 32 ∧
         t.flag Reg.spinErr Fld.spinErrPuntDrop = true))) ∧
   (∀ seq r loom u m len, seq < 65536 → r < 64 → loom < 16 → u < 2 ^ 17 → m < 128 → len < 2 ^ 14 →
     let h := handleWord seq r loom u m len
     h.toNat / 2 ^ 48 = seq ∧ handleReason h = r ∧ h.toNat / 2 ^ 38 % 16 = loom ∧ handleUnit h = u ∧
       handleUnits h = m ∧ h.toNat % 2 ^ 14 = len) ∧
   (∀ (s : State) (n u : Nat), s.freeRun n = some u → u + n ≤ 131072 ∧
     ∀ v ∈ s.spin.units, u + n ≤ v.1 ∨ v.1 + v.2 ≤ u)) ∧
  ((∀ (e : Word × Option (List Byte)) (es : List (Word × Option (List Byte))) (s : State), s.halted = false →
     (s.squeue 255).entries = e :: es → (s.squeue 255).putters = [] →
     let src := e.1.toNat % 2 ^ 48
     let b := e.2.getD (s.peek src 32)
     let d := injDesc b
     let at_ := if e.2.isNone then some src else none
     let u := (s.setSqueue 255 { s.squeue 255 with entries := es }).injectReads at_ d
     let f := u.injectBytes d
     let bad := if e.2 = none ∧ s.inFreed src 32 = true then some 39 else s.injectBad d
     (∀ a, s.injectHeld at_ d = some a → exec .injectTake s = .next (s.hbmWake a)) ∧
     (∀ n, s.injectHeld at_ d = none → bad = some n → undefinedUse .injectTake s n) ∧
     (s.injectHeld at_ d = none → bad = none → d.boltv = false → d.notify = false →
       (d.hvalid = false → d.len = 0 → exec .injectTake s = .next u) ∧
       (d.hvalid = false → d.len ≠ 0 → s.loomActive d.loom = true → exec .injectTake s = .next (u.addPkt
         { u.newPkt f 512 d.loom with injected := true, bolt := 0, stamps := u.ingressStamps 0 })) ∧
       (d.hvalid = false → d.len ≠ 0 → s.loomActive d.loom = false → leaves .injectTake s fun t =>
         t.loomCounter d.loom 68 = u.loomCounter d.loom 68 + 1 ∧ t.pkts = s.pkts ∧ t.squeue 255 = u.squeue 255 ∧
         t.spin.out = s.spin.out) ∧
       (d.hvalid = true → d.len = 0 → s.ordered (handleReason d.handle) = false →
         (∀ h ∈ s.spin.out, h.timedOut = false) → leaves .injectTake s fun t => t.pkts = s.pkts ∧ t.mem = u.mem ∧
         (∀ h, h ∈ t.spin.out ↔ h ∈ s.spin.out ∧ h.h ≠ d.handle) ∧
         (d.free = true → t.spin.units = s.spin.units.filter fun v => v.1 != handleUnit d.handle) ∧
         (d.free = false → t.spin.units = s.spin.units)) ∧
       (d.hvalid = true → d.len ≠ 0 → s.ordered (handleReason d.handle) = false ∨ s.earlier d.handle = false →
         d.handle ∉ s.spin.lostCopies → s.loomActive d.loom = true → leaves .injectTake s fun t =>
         t.nextPkt = s.nextPkt + 1 ∧ (∀ h, h ∈ t.spin.out ↔ h ∈ s.spin.out ∧ h.h ≠ d.handle) ∧
         ∃ y, t.pkt? s.nextPkt = some y ∧ y.frame = f ∧ y.injected = true ∧ y.inPort = 512 ∧ y.place = .crossing ∧
           y.loom = d.loom) ∧
       (d.hvalid = true → s.ordered (handleReason d.handle) = true → s.earlier d.handle = true →
         (∀ h ∈ s.spin.out, h.timedOut = false) → exec .injectTake s = .next { u with spin := { u.spin with
           heldInj := u.spin.heldInj ++ [{ h := d.handle, desc := b, frame := f }] } }))) ∧
   (∀ (d : InjDesc) (s : State), (1 ≤ d.len ∧ d.len ≤ 63) ∨ 16360 < d.len ∨
     ((d.fromPunt = true ∨ d.free = true) ∧ d.hvalid = false) → s.injectBad d = some 40) ∧
   (∀ (s : State), (s.squeue 255).entries = [] → exec .injectTake s = .next s) ∧
   (∀ (s : State) (r : Nat),
     (s.heldReady r = none ↔ ∀ e ∈ s.spin.heldInj, handleReason e.h = r → s.earlier e.h = true) ∧
     ∀ e, s.heldReady r = some e ↔ ∃ l l', s.spin.heldInj = l ++ e :: l' ∧ handleReason e.h = r ∧
       s.earlier e.h = false ∧ ∀ x ∈ l, handleReason x.h = r → s.earlier x.h = true) ∧
   (∀ (s : State) (h : Word), s.earlier h = true ↔ ∃ l x l', s.spin.out = l ++ x :: l' ∧ (∀ y ∈ l, y.h ≠ h) ∧
       x.h ≠ h ∧
     handleReason x.h = handleReason h ∧ x.timedOut = false) ∧
   (∀ (r : Fin 64) (s : State), s.halted = false →
     (s.heldReady r.val = none → exec (.injectReleaseHeld r) s = .next s) ∧
     (∀ e, s.heldReady r.val = some e → (injDesc e.desc).hvalid = true → (injDesc e.desc).len ≠ 0 →
       (injDesc e.desc).handle ∉ s.spin.lostCopies → s.loomActive (injDesc e.desc).loom = true →
           leaves (.injectReleaseHeld r) s fun t =>
         (∀ x ∈ t.spin.heldInj, x.h ≠ e.h) ∧ t.nextPkt = s.nextPkt + 1 ∧
         ∃ y, t.pkt? s.nextPkt = some y ∧ y.frame = e.frame ∧ y.injected = true ∧ y.inPort = 512 ∧
           y.place = .crossing ∧ y.loom = (injDesc e.desc).loom) ∧
     (∀ e, s.heldReady r.val = some e → (injDesc e.desc).hvalid = true → (injDesc e.desc).len = 0 ∨
       ((injDesc e.desc).fromPunt = true ∧ (injDesc e.desc).handle ∈ s.spin.lostCopies) →
       leaves (.injectReleaseHeld r) s fun t => t.pkts = s.pkts ∧ (∀ x ∈ t.spin.heldInj, x.h ≠ e.h) ∧
         ∀ x, x ∈ t.spin.out ↔ x ∈ s.spin.out ∧ x.h ≠ (injDesc e.desc).handle)) ∧
   (∀ (h : Word) (s : State), s.halted = false →
     let ms := s.fld Reg.spinPuntCtl Fld.spinPuntCtlReleaseMs
     (ms = 0 ∨ s.ordered (handleReason h) = false → exec (.releaseTimeout h) s = .next s) ∧
     (ms ≠ 0 → s.ordered (handleReason h) = true → leaves (.releaseTimeout h) s fun t => t.mem = s.mem ∧
       t.spin.out.length = s.spin.out.length ∧
       ∀ e ∈ s.spin.out, e.h = h → e.at_ + ms * 1000000 ≤ s.now → { e with timedOut := true } ∈ t.spin.out)))

/-- R437, R438: the command ring. A command completes with CONS moved on and, where it asks for one, a record of its
TAG, OP, CODE and AUX in the completion ring. Its record is read first, and waits where its channel holds the read
back. With no command that may run, and for the command of another OP, nothing happens. R445 to R447, R450: a PATCH. A
container that fails a check completes with ST_REFUSED and the number of the check, and so does one whose overrides or
hooks leave its half (DEDUCED, log entry 108); one that names the half in effect with ST_FULL; another one begins its
switch, whose end posts PATCH_DONE with ST_OK and the version (type 16) and completes the command with ST_OK. While a
switch is in progress, a further command waits. JACQ_FLOOR never falls. Beside the rules it rests on the readings and
choices of log entries 31, 46, 87, 108. That a command whose conditions do not hold changes nothing is log entry 5. -/
def Obligations.RingsAndPatches : Prop :=
  ((∀ (a : Nat) (s : State), s.ringAt = some a →
     let r := s.peek a 64
     let u := s.peeked a 64
     let op := (r.getD 0 0).toNat
     let refused (q : Nat) : State := (u.incF (Reg.spinQStat q) Fld.spinQStatRefused).cmdEnd r stRefused
     let q := ofLE (slice r 8 1)
     let v := BitVec.ofNat 64 (ofLE (slice r 16 8))
     let desc := BitVec.ofNat 64 (a + 32)
     let body := some (slice r 32 32)
     let src := ofLE (slice r 8 6)
     let dst := ofLE (slice r 16 6)
     let len := ofLE (slice r 24 4)
     let task (o : TaskOp) : State × Nat :=
       u.taskCmd o (ofLE (slice r 10 2) % 4096) (BitVec.ofNat 32 (ofLE (slice r 12 4)))
     let full := 16 ≤ s.spin.roundCmds ∨ s.spin.cmdQ ≠ []
     let runs : Instr := match op with
       | 0 => .cmdNop
       | 1 => .cmdCopy
       | 2 => .cmdTask
       | 3 => .cmdQput
       | 4 => .cmdInject
       | 5 => .cmdPatch
       | _ => .cmdBad
     (∀ c ∈ [Instr.cmdNop, .cmdCopy, .cmdTask, .cmdQput, .cmdInject, .cmdPatch, .cmdBad], c ≠ runs →
         exec c s = .next s) ∧
     (∀ b, s.accessHeld a 64 = some b → exec runs s = .next (s.hbmWake b)) ∧
     (s.accessHeld a 64 = none →
     (op = 0 → exec .cmdNop s = .next (u.cmdEnd r stOk)) ∧
     (op = 1 → 16777216 < len → exec .cmdCopy s = .next (u.cmdEnd r stRefused)) ∧
     (op = 1 → len = 0 → exec .cmdCopy s = .next (u.cmdEnd r stOk)) ∧
     (op = 1 → len ≤ 16777216 → len ≠ 0 → overlap src dst len = true → undefinedUse .cmdCopy s 5) ∧
     (∀ b, op = 1 → len ≤ 16777216 → len ≠ 0 → overlap src dst len = false → u.copyHeld src len = some b →
       exec .cmdCopy s = .next (u.hbmWake b)) ∧
     (∀ x, op = 1 → len ≤ 16777216 → len ≠ 0 → overlap src dst len = false → u.copyHeld src len = none →
       u.copy .host src dst len = .ok x → exec .cmdCopy s = .next (x.st.cmdEnd r x.code)) ∧
     (op = 2 → taskOpOf (ofLE (slice r 8 1)) = none →
       exec .cmdTask s = .next (u.draw.2.cmdEnd r (u.draw.1 % 256))) ∧
     (∀ o, op = 2 → taskOpOf (ofLE (slice r 8 1)) = some o →
       (full → exec .cmdTask s = .next u) ∧
       (¬ full → exec .cmdTask s = .next (State.cmdEnd { (task o).1.setF Reg.spinTaskStat Fld.spinTaskStatCode
         (task o).2 with spin := { (task o).1.spin with
             roundCmds := (task o).1.spin.roundCmds + 1 } } r (task o).2))) ∧
     (∀ t, op = 3 → u.tryPut q v none = some t → exec .cmdQput s = .next (t.cmdEnd r stOk)) ∧
     (op = 3 → u.tryPut q v none = none → exec .cmdQput s = .next (refused q)) ∧
     (∀ t, op = 4 → u.tryPut 255 desc body = some t → exec .cmdInject s = .next (t.cmdEnd r stOk)) ∧
     (op = 4 → u.tryPut 255 desc body = none → exec .cmdInject s = .next (refused 255)) ∧
     (5 < op → exec .cmdBad s = .next ((u.err Reg.hostifErr Fld.hostifErrSqBad.lo).cmdEnd r stRefused)))) ∧
   (∀ (s : State), s.ringAt = none → ∀ c ∈ [Instr.cmdNop, .cmdCopy, .cmdTask, .cmdQput, .cmdInject, .cmdPatch,
     .cmdBad], exec c s = .next s) ∧
   (∀ (r : List Byte) (code aux : Nat) (s : State), r.length = 64 → code < 256 →
     let t := s.cmdEnd r code (some aux)
     let base := s.fld (Reg.ringBase 1) Fld.ringBaseBase
     let slot := base + 16 * (s.fld (Reg.ringProd 1) Fld.ringProdProd % s.fld (Reg.ringCfg 1) Fld.ringCfgSize)
     t.fld (Reg.ringCons 0) Fld.ringConsCons = (s.fld (Reg.ringCons 0) Fld.ringConsCons + 1) % 2 ^ 32 ∧
     ((r.getD 1 0).getLsbD 0 = true → s.fld (Reg.ringCfg 1) Fld.ringCfgSize ≠ 0 → 0x800000000000 ≤ base →
       s.boot.pcieUp = true →
       t.fld (Reg.ringProd 1) Fld.ringProdProd = (s.fld (Reg.ringProd 1) Fld.ringProdProd + 1) % 2 ^ 32 ∧
       t.bytes slot 16 = slice r 4 4 ++ slice r 0 1 ++ toLE 1 code ++ [0, 0] ++ toLE 8 aux) ∧
     ((r.getD 1 0).getLsbD 0 = false → t = s.incF (Reg.ringCons 0) Fld.ringConsCons))) ∧
  ((∀ (at_ : Nat) (s : State), s.ringAt = some at_ → s.accessHeld at_ 64 = none →
     let r := s.peek at_ 64
     let v := s.peeked at_ 64
     let a := ofLE (slice r 8 6)
     let n := ofLE (slice r 16 4)
     let c := v.peek a n
     let u := v.peeked a n
     (r.getD 0 0).toNat = 5 →
     (s.host.switching ≠ none → exec .cmdPatch s = .next v) ∧
     (∀ b, s.host.switching = none → v.accessHeld a n = some b → exec .cmdPatch s = .next (v.hbmWake b)) ∧
     (s.host.switching = none → v.accessHeld a n = none →
     let h := patchHdr c
     let body := Config.patchDecrypt (slice c 24 12) (slice c 36 16) (c.take 24) (slice c 128 h.bodyLen)
     let inEffect := s.flag Reg.jacqPatchStat Fld.jacqPatchStatValid = true ∧
       s.fld Reg.jacqPatchStat Fld.jacqPatchStatHalf = h.half
     (∀ n, s.patchFails c = some n → exec .cmdPatch s = .next (u.cmdEnd r stRefused (some n))) ∧
     (s.patchFails c = none → body = none → exec .cmdPatch s = .next (u.cmdEnd r stRefused (some 4))) ∧
     (∀ bs, s.patchFails c = none → body = some bs → patchInHalf h bs = false →
       exec .cmdPatch s = .next (u.cmdEnd r stRefused (some 1))) ∧
     (∀ bs, s.patchFails c = none → body = some bs → patchInHalf h bs = true →
       (inEffect → exec .cmdPatch s = .next (u.cmdEnd r stFull)) ∧
       (¬ inEffect → leaves .cmdPatch s fun t =>
         t.host.switching = some { half := h.half, version := h.version, byRing := true, comp := r } ∧
         t.fld Reg.jacqPatchStat Fld.jacqPatchStatVersion = h.version % 2 ^ 32 ∧
         t.fld Reg.jacqPatchStat Fld.jacqPatchStatHalf = h.half ∧
         t.flag Reg.jacqPatchStat Fld.jacqPatchStatSwitching = true ∧
         (∀ i, i < h.nwords → t.bytes (0x45000000 + 32 * (2048 * h.half + i)) 24 = slice bs (24 * i) 24) ∧
         ∀ a, a < 0x45000000 ∨ 0x45020000 ≤ a → t.byte a = u.byte a)))) ∧
   (∀ (s : State) (c : List Byte), slice c 0 4 ≠ toLE 4 0x5450514A → s.patchFails c = some 1) ∧
   (∀ (s : State), s.host.switching = none → exec .patchSwitchDone s = .next s) ∧
   (∀ (s : State) (p : PatchSet), s.host.switching = some p → s.halted = false →
     let t := (State.setF { s with host := { s.host with switching := none } } Reg.jacqPatchStat
       Fld.jacqPatchStatSwitching 0).post 16 (srcOf Reg.jacqPatchStat) (toLE 1 stOk ++ [0, 0, 0] ++ toLE 4 p.version)
     exec .patchSwitchDone s = .next (if p.byRing then t.cmdEnd p.comp stOk else t) ∧
     (p.byRing = true → (t.cmdEnd p.comp stOk).fld (Reg.ringCons 0) Fld.ringConsCons =
       (s.fld (Reg.ringCons 0) Fld.ringConsCons + 1) % 2 ^ 32)) ∧
   (∀ (s : State) (p : PatchSet), s.host.switching = some p → s.halted = true → exec .patchSwitchDone s = .next s) ∧
   (∀ (v : Word) (s : State), s.takesWrites Reg.jacqFloor →
     (Fld.jacqFloorFloor.get v < s.fld Reg.jacqFloor Fld.jacqFloorFloor → exec (.jacqFloorWrite v) s = .next s) ∧
     (s.fld Reg.jacqFloor Fld.jacqFloorFloor ≤ Fld.jacqFloorFloor.get v → exec (.jacqFloorWrite v) s = .next
       (s.setF Reg.jacqFloor Fld.jacqFloorFloor (Fld.jacqFloorFloor.get v)))))

/-- R437, R439, R441: an event record that ring 0 alone is to take, and can, stands at its next entry: type, source,
sequence number, time word and payload; PROD moves on, and the next sequence number is one more. Where the ring has no
room, the record waits in its backlog, and where that is full it is discarded and counted. R441, R442, R449, R491:
once an event ring has room, a record of type 17 with the count of the records lost goes first, then the oldest record
that waits, as it stands, into the ring's next entry. A moderated message goes out when its time has passed and
entries remain, if MSI_EN is still set. A write of HOSTIF_MSI_SEND raises its vector once; while the link is down a
message is held. Beside the rules it rests on the readings and choices of log entries 53, 81, 123, 125. That a command
whose conditions do not hold changes nothing is log entry 5. -/
def Obligations.EventPosting : Prop :=
  (∀ (s : State) (typ src : Nat) (payload : List Byte), typ < 32 → src < 256 → payload.length ≤ 16 → s.host.due = [] →
     (s.rd Reg.hostifEvtRoute).getLsbD (2 * typ) = true → (s.rd Reg.hostifEvtRoute).getLsbD (2 * typ + 1) = false →
     let t := s.post typ src payload
     let base := s.fld (Reg.ringBase 2) Fld.ringBaseBase
     let slot := base + 32 * (s.fld (Reg.ringProd 2) Fld.ringProdProd % s.fld (Reg.ringCfg 2) Fld.ringCfgSize)
     let stamp := s.timeWordOf (s.fld Reg.hostifEvtCtl Fld.hostifEvtCtlDomain)
     let record := toLE 2 typ ++ toLE 1 src ++ [0] ++ toLE 4 s.host.seq.toNat ++ toLE 8 stamp.toNat ++
       (payload ++ List.replicate (16 - payload.length) 0)
     t.host.seq = s.host.seq + 1 ∧
     (s.backlog 0 = { recs := [], lost := 0 } → s.ringRoom 2 = true → 0x800000000000 ≤ base →
       t.bytes slot 32 = record ∧ t.backlog 0 = s.backlog 0 ∧
       t.fld (Reg.ringProd 2) Fld.ringProdProd = (s.fld (Reg.ringProd 2) Fld.ringProdProd + 1) % 2 ^ 32) ∧
     (s.ringRoom 2 = false → (s.backlog 0).recs.length < 4096 →
       t = { s with host := { s.host with seq := s.host.seq + 1
                                          backlog0 := { s.backlog 0 with
                                            recs := (s.backlog 0).recs ++ [record] } } }) ∧
     (s.ringRoom 2 = false → 4096 ≤ (s.backlog 0).recs.length → s.flag Reg.hostifErr Fld.hostifErrEvr0Ovf = true →
       t.backlog 0 = { s.backlog 0 with lost := (s.backlog 0).lost + 1 } ∧
       t.fld Reg.hostifEvtStat Fld.hostifEvtStatLost0 = (s.fld Reg.hostifEvtStat Fld.hostifEvtStatLost0 +
         1) % 2 ^ 32 ∧
       t.mem = s.mem)) ∧
  ((∀ (n : Fin 2) (s : State), s.host.due = [] →
     let b := s.backlog n.val
     let room := s.ringRoom (2 + n.val) = true ∧ s.halted = false
     let base := s.fld (Reg.ringBase (2 + n.val)) Fld.ringBaseBase
     let slot := base + 32 * (s.fld (Reg.ringProd (2 + n.val)) Fld.ringProdProd %
       s.fld (Reg.ringCfg (2 + n.val)) Fld.ringCfgSize)
     let stamp := s.timeWordOf (s.fld Reg.hostifEvtCtl Fld.hostifEvtCtlDomain)
     (¬ room → exec (.eventBacklogDrain n) s = .next s) ∧
     (room → b.lost = 0 → b.recs = [] → exec (.eventBacklogDrain n) s = .next s) ∧
     (∀ r rs, room → b.lost = 0 → b.recs = r :: rs → leaves (.eventBacklogDrain n) s fun t =>
       t.backlog n.val = { b with recs := rs } ∧ (0x800000000000 ≤ base → r.length = 32 →
         t.bytes slot 32 = r) ∧ t.fld (Reg.ringProd (2 + n.val)) Fld.ringProdProd =
         (s.fld (Reg.ringProd (2 + n.val)) Fld.ringProdProd + 1) % 2 ^ 32) ∧
     (room → b.lost ≠ 0 → leaves (.eventBacklogDrain n) s fun t => t.backlog n.val = { b with lost := 0 } ∧
       t.host.seq = s.host.seq + 1 ∧ (0x800000000000 ≤ base → t.bytes slot 32 = toLE 2 17 ++
         toLE 1 (srcOf Reg.hostifErr) ++ [0] ++ toLE 4 s.host.seq.toNat ++ toLE 8 stamp.toNat ++ toLE 4 b.lost ++
         List.replicate 12 0) ∧ t.fld (Reg.ringProd (2 + n.val)) Fld.ringProdProd =
         (s.fld (Reg.ringProd (2 + n.val)) Fld.ringProdProd + 1) % 2 ^ 32)) ∧
   (∀ (n : Fin 4) (s : State), s.halted = false →
     let wait := s.fld (Reg.ringCfg n.val) Fld.ringCfgModUs * 1000
     let due := Tbl.get (Tbl.const false) s.host.msiDue n.val = true ∧
       ∀ t, Tbl.get (Tbl.const none) s.host.msiAt n.val = some t → t + wait ≤ s.now
     let vec := s.fld (Reg.ringCfg n.val) Fld.ringCfgVec
     (¬ due → exec (.msiModeration n) s = .next s) ∧
     (due → leaves (.msiModeration n) s fun t => Tbl.get (Tbl.const false) t.host.msiDue n.val = false ∧
       t.mem = s.mem ∧ t.regs = s.regs ∧
       let on := s.ringUsed n.val ≠ 0 ∧ s.fld (Reg.ringCfg n.val) Fld.ringCfgMsiEn ≠ 0
       (¬ on → t.host.raised = s.host.raised) ∧
       (on → s.boot.pcieUp = true → Tbl.get (Tbl.const 0) t.host.raised vec =
         Tbl.get (Tbl.const 0) s.host.raised vec + 1))) ∧
   (∀ (v : Word) (s : State), s.takesWrites Reg.hostifMsiSend →
     let vec := v.toNat % 64
     (s.boot.pcieUp = true → exec (.msiSend v) s = .next { s with host := { s.host with
       raised := Tbl.upd (Tbl.const 0) s.host.raised vec (· + 1) } }) ∧
     (s.boot.pcieUp = false → vec ∈ s.host.held → exec (.msiSend v) s = .next s) ∧
     (s.boot.pcieUp = false → vec ∉ s.host.held → exec (.msiSend v) s = .next { s with host := { s.host with
       held := s.host.held ++ [vec] } })))

/-- R451, R454, R456: the voltage of a direct step is a multiple of 5 mV from 550 to 820 mV; where some voltage of the
table gives the target at the temperature, it gives it, and no lower multiple of 5 mV does. At the points of the table
of R451 the rate is the table's. R453, R454, R455, R459, R463, R469: at the end of a window every loom that has power
reports its reading, its target and its demand, SLOWEST names an active one whose reading ÷ target is least, and the
enabled loop, with no brake, raises VDD_LOOM by 5 mV, up to 820 mV, where that loom is below its target, and lowers it
by 2.5 mV, down to VMIN, after 100 windows in a row above 1.02. It decides nothing before the voltage last commanded
is reached. A command without a valid response sets TENSION_ERR.AVS and moves nothing. A loom that is off keeps its
reading. R459, R460: the first write of TENSION_AVS starts AVSBus, and with the loop disabled, and no brake or return
from one, commands VMAN; a reading without a valid response sets TENSION_ERR.AVS and stops the commands, and a valid
one gives VOUT and POWER, in whole watts, and lets them go on. Whether a command draws a valid response is the board's
(Config.avsAnswers, log entry 129); one that draws none moves nothing and sets TENSION_ERR.AVS. No reading happens
before that write. Beside the rules it rests on the readings and choices of log entries 43, 44, 112, 129. That a
command whose conditions do not hold changes nothing is log entry 5. -/
def Obligations.VoltageLoop : Prop :=
  (∀ (tj : Int) (target : Nat),
     directVolt tj target % 5 = 0 ∧ 550 ≤ directVolt tj target ∧ directVolt tj target ≤ 820 ∧
     (∀ v, v % 5 = 0 → 550 ≤ v → v < directVolt tj target → speedMeets v tj target = false) ∧
     ((∃ v, v % 5 = 0 ∧ 550 ≤ v ∧ v ≤ 820 ∧ speedMeets v tj target = true) →
       speedMeets (directVolt tj target) tj target = true) ∧
     ∀ i j, i < 7 → j < 5 → (speedMeets (speedV.getD i 0) (speedT.getD j 0 * 256 : Nat) target = true ↔
       target ≤ (speedR.getD i []).getD j 0 * 23520000)) ∧
  (∀ (rates : List (BitVec 16)) (s : State), s.halted = false →
     let act := (List.range 16).filter s.loomActive
     let rate (n : Nat) : Nat := (rates.getD n 0).toNat
     let may := s.flag Reg.tensionCtl Fld.tensionCtlEnable = true ∧ s.tension.brake = false ∧ s.tension.avs = true ∧
       s.tension.avsFail = false ∧ s.tension.tripped = false
     let ready := s.tension.reachAt < s.now
     let on (n : Nat) : Prop := s.fld (Reg.tensionLoom n) Fld.tensionLoomState ≠ 2
     let reads (t : State) : Prop :=
       (∀ n, n < 16 → on n → t.fld (Reg.tensionLoom n) Fld.tensionLoomNatRate = rate n ∧
         t.fld (Reg.tensionLoom n) Fld.tensionLoomTarget = s.target n / 2352000 % 65536 ∧
         t.fld (Reg.tensionLoom n) Fld.tensionLoomDemand = s.loomGbps n * 1000 / 2352 % 65536) ∧
       (∀ n, n < 16 → ¬ on n → t.rd (Reg.tensionLoom n) = s.rd (Reg.tensionLoom n))
     (∀ resp, act = [] → leaves (.rateWindow ⟨rates, resp⟩) s fun t => reads t ∧ t.tension = s.tension ∧
         s.sameMem t) ∧
     (act ≠ [] → ∃ w ∈ act, (∀ n ∈ act, rate w * s.target n ≤ rate n * s.target w) ∧
       let low := rate w * 2352000 < s.target w
       let high := 102 * s.target w < 100 * (rate w * 2352000)
       let moves := (low ∧ s.tension.vdd < 8200) ∨ (high ∧ 99 ≤ s.tension.above ∧ s.vmin < s.tension.vdd)
       (may → ready → moves → leaves (.rateWindow ⟨rates, false⟩) s fun t => reads t ∧ t.tension.vdd = s.tension.vdd ∧
         t.tension.avsFail = true ∧ t.flag Reg.tensionErr Fld.tensionErrAvs = true) ∧
       leaves (.rateWindow ⟨rates, true⟩) s fun t =>
         t.fld Reg.tensionStat Fld.tensionStatSlowest = w ∧ reads t ∧
         (¬ ready → t.tension = s.tension) ∧
         (may → ready → low → t.tension.vdd = if s.tension.vdd < 8200 then
             min 8200 (s.tension.vdd + 50) else s.tension.vdd) ∧
         (may → ready → high → 99 ≤ s.tension.above → t.tension.above = 0 ∧
           t.tension.vdd = if s.vmin < s.tension.vdd then max s.vmin (s.tension.vdd - 25) else s.tension.vdd) ∧
         (¬ low → ¬ (high ∧ 99 ≤ s.tension.above) → t.tension.vdd = s.tension.vdd) ∧
         (ready → high → s.tension.above < 99 → t.tension.above = s.tension.above + 1) ∧
         (ready → ¬ high → t.tension.above = 0) ∧
         (¬ may → t.tension.vdd = s.tension.vdd) ∧ s.sameMem t)) ∧
  (∀ (s : State), s.takesWrites Reg.tensionAvs →
     let answers := Config.avsAnswers s.now
     (∀ v, s.tension.avs = true → exec (.avsStart v) s = .next (s.wrote Reg.tensionAvs v)) ∧
     (∀ v, s.tension.avs = false → s.tension.avsFail = false → s.tension.tripped = false → s.tension.brake = false →
       s.tension.ramp = false → s.flag Reg.tensionCtl Fld.tensionCtlEnable = false → answers = true →
         leaves (.avsStart v) s fun t =>
         t.tension.avs = true ∧ t.tension.avsFail = false ∧
           t.tension.vdd = min 8200 (max 5500 (10 * s.fld Reg.tensionCtl Fld.tensionCtlVman)) ∧
         t.fld Reg.tensionStat Fld.tensionStatVcmd = t.tension.vdd / 10 ∧
         t.rd Reg.tensionAvs = (s.wrote Reg.tensionAvs v).rd Reg.tensionAvs) ∧
     (∀ v, s.tension.avs = false → s.tension.avsFail = false → s.tension.tripped = false → s.tension.brake = false →
       s.tension.ramp = false → s.flag Reg.tensionCtl Fld.tensionCtlEnable = false → answers = false →
       leaves (.avsStart v) s fun t => t.tension.avs = true ∧ t.tension.avsFail = true ∧
         t.tension.vdd = s.tension.vdd ∧
         t.flag Reg.tensionErr Fld.tensionErrAvs = true) ∧
     (∀ v, s.tension.avs = false → s.flag Reg.tensionCtl Fld.tensionCtlEnable = true →
       exec (.avsStart v) s = .next { s.wrote Reg.tensionAvs v with tension := { s.tension with avs := true } }) ∧
     (∀ mv ma ok, s.tension.avs = false → exec (.avsRead mv ma ok) s = .next s) ∧
     (∀ mv ma, s.tension.avs = true → exec (.avsRead mv ma false) s = .next
       (({ s with tension := { s.tension with avsFail := true } }).err Reg.tensionErr Fld.tensionErrAvs.lo)) ∧
     (∀ mv ma, s.tension.avs = true → leaves (.avsRead mv ma true) s fun t =>
       (answers = true → t.tension.avsFail = false) ∧ t.fld Reg.tensionStat Fld.tensionStatVout = mv.toNat ∧
       t.fld Reg.tensionStat Fld.tensionStatPower = mv.toNat * ma.toNat / 1000000 % 65536 ∧
       (s.tension.avsFail = false → t.tension = s.tension)) ∧
     (∀ ok, (ok = false ∨ s.tension.avs = false ∨ s.tension.avsFail = false) → exec (.avsRetry ok) s = .next s) ∧
     (s.tension.avs = true → s.tension.avsFail = true → answers = true →
       leaves (.avsRetry true) s fun t => t.tension.avsFail = false))

/-- R465, R528: a reading of the hottest sensor reports TJ, sets HOT at WARN and COLD below 0, brakes at 110 °C by 10
mV at once and then 10 mV a ms down to VMIN, releases below 108 °C, with the loop disabled returns to VMAN by 5 mV a
ms, and at 125 °C trips: VDD_LOOM is commanded off and THERM_TRIP_N is asserted. A command without a valid response
moves nothing. Before TENSION_AVS is written only BRAKE sets. R456, R463, R464: GATE 1 outside W3 is refused; in W3 it
makes a loom GATING, which becomes GATED once its ports are disabled, its bank empty and no pick of it is in progress.
GATE 0 of a loom that is not active wakes it, with the direct step of its target, and waking ends ACTIVE once the rate
monitor confirms the target. Beside the rules it rests on the readings and choices of log entries 44, 45, 112, 129.
That a command whose conditions do not hold changes nothing is log entry 5. -/
def Obligations.ThermalLimitsAndGating : Prop :=
  (∀ (tj : BitVec 16) (n : Fin 64) (resp : Bool) (s : State),
     let stands := s.boot.powered = false ∨ s.boot.inReset = true ∨ s.tension.tripped = true
     let hot := 110 * 256 ≤ tj.toInt
     let trips := 125 * 256 ≤ tj.toInt
     let cmd := s.tension.avs = true ∧ s.tension.avsFail = false
     let v := s.tension.vdd
     let ms := (s.now - s.tension.brakeAt) / 1000000
     let down (k : Nat) : Nat := if s.vmin < v ∧ k ≠ 0 then max s.vmin (v - 100 * k) else v
     let errBit (t : State) (b : Nat) : Bool := (t.rd Reg.tensionErr).getLsbD b
     (stands → exec (.tjSample tj ⟨n, resp⟩) s = .next s) ∧
     (¬ stands → leaves (.tjSample tj ⟨n, resp⟩) s fun t =>
       t.fld Reg.tensionTemp Fld.tensionTempTj = tj.toNat ∧ t.fld Reg.tensionTemp Fld.tensionTempSensor = n.val ∧
       (errBit t Fld.tensionErrHot.lo = true ↔ errBit s Fld.tensionErrHot.lo = true ∨
         256 * (s.fld Reg.tensionTemp Fld.tensionTempWarn : Int) ≤ tj.toInt) ∧
       (errBit t Fld.tensionErrCold.lo = true ↔ errBit s Fld.tensionErrCold.lo = true ∨ tj.toInt < 0) ∧
       (errBit t Fld.tensionErrBrake.lo = true ↔ errBit s Fld.tensionErrBrake.lo = true ∨ hot) ∧
       (t.tension.tripped = true ↔ trips) ∧ (trips → t.pins.thermTrip = true ∧
         (cmd → resp = true → t.tension.vdd = 0) ∧ (cmd → resp = false → t.tension.vdd = v ∧
             t.tension.avsFail = true ∧
           errBit t Fld.tensionErrAvs.lo = true)) ∧
       (¬ trips → hot → s.tension.avs = true → t.tension.brake = true) ∧
       (¬ trips → hot → cmd → s.tension.brake = false → resp = true → t.tension.vdd = down 1) ∧
       (¬ trips → hot → cmd → s.tension.brake = false → resp = false → s.vmin < v →
         t.tension.vdd = v ∧ t.tension.avsFail = true ∧ errBit t Fld.tensionErrAvs.lo = true) ∧
       (¬ trips → 108 * 256 ≤ tj.toInt → cmd → s.tension.brake = true → resp = true → t.tension.vdd = down ms) ∧
       (tj.toInt < 108 * 256 → s.tension.brake = true → t.tension.brake = false ∧ t.tension.vdd = v ∧
         t.tension.ramp = !s.flag Reg.tensionCtl Fld.tensionCtlEnable) ∧
       (¬ hot → cmd → s.tension.brake = false → s.tension.ramp = true → resp = true →
         t.tension.vdd = if v < s.vman then min s.vman (v + 50 * ms) else max s.vman (v - 50 * ms)) ∧
       (¬ hot → s.tension.brake = false → s.tension.ramp = false → t.tension = s.tension) ∧
       (¬ cmd → t.tension.vdd = v) ∧ (∀ e, e < 16 → t.rd (Reg.tensionLoom e) = s.rd (Reg.tensionLoom e)))) ∧
  (∀ (n : LoomId) (v : Word) (s : State),
     let a := Reg.tensionLoom n.val
     let gate := Fld.tensionLoomGate.get v = 1
     let st := s.fld a Fld.tensionLoomState
     let vt := 10 * directVolt (s.sfld Reg.tensionTemp Fld.tensionTempTj) (s.target n.val)
     let quiet := (∀ i, i < 32 → s.flag (portCfg (32 * n.val + i)) Fld.selvPortCfgEnable = false) ∧
       s.bankUsed n.val = 0 ∧ ∀ e ∈ s.pkts, ∀ x, e.2 = some x → x.loom = n.val → x.place ≠ .running ∧
         x.place ≠ .shedInput
     let confirmed := s.target n.val ≤ s.fld a Fld.tensionLoomNatRate * 2352000
     s.takesWrites a →
     (gate → s.profile ≠ 3 →
       exec (.loomGate n v) s = .next (s.err Reg.tensionErr Fld.tensionErrGateRefused.lo)) ∧
     (gate → s.profile = 3 → leaves (.loomGate n v) s fun t => t.fld a Fld.tensionLoomGate = 1 ∧
       t.fld a Fld.tensionLoomState = (if st = 2 then 2 else 1) ∧ ∀ r, r ≠ a → t.rd r = s.rd r) ∧
     (¬ gate → st = 0 → exec (.loomGate n v) s = .next (s.setF a Fld.tensionLoomGate 0)) ∧
     (¬ gate → st ≠ 0 → leaves (.loomGate n v) s fun t => t.fld a Fld.tensionLoomGate = 0 ∧
       t.fld a Fld.tensionLoomState = 3 ∧ t.fld a Fld.tensionLoomTarget = s.target n.val / 2352000 % 65536 ∧
       (s.flag Reg.tensionCtl Fld.tensionCtlEnable = true → s.tension.brake = false → s.tension.avs = true →
         s.tension.avsFail = false → s.tension.tripped = false →
         (Config.avsAnswers s.now = true → t.tension.vdd = max s.tension.vdd vt) ∧
         (Config.avsAnswers s.now = false → s.tension.vdd < vt → t.tension.vdd = s.tension.vdd ∧
             t.tension.avsFail = true))) ∧
     (s.halted = false →
       (st = 1 ∧ quiet → exec (.loomGated n) s = .next (s.setF a Fld.tensionLoomState 2)) ∧
       (¬ (st = 1 ∧ quiet) → exec (.loomGated n) s = .next s) ∧
       (st = 3 → confirmed → exec (.loomActive n) s = .next (s.setF a Fld.tensionLoomState 0)) ∧
       (st ≠ 3 ∨ ¬ confirmed → exec (.loomActive n) s = .next s)))

/-- R378, R471, R476, R477, R485: GO latches the counters, those of a lane inside another port as 0, the time word of
DOMAIN and the eight domains at one instant, and the image then shows them: SEQ advances, BUSY clears, and the
counters themselves stay. GO while BUSY sets SNAP_IGNORED and latches nothing. R470, R471, R475: a host write of an
aligned pool or event-counter word of the live image sets that word, an event counter's low 32 bits (R480), and a
write of any other word changes nothing; a word that the overlay holds is undefined behaviour 8 (R86). Below PHASE
DONE, and with the link down or the device at a stand, it is ignored (R491, R510). R219, R483: the oldest record that
a loom holds enters the sample ring at GLASS_SMP_BASE + 32 × (PROD mod SIZE), and PROD advances; a full ring discards
it, counts it in DROPPED and sets OVERFLOW. R484: at the end of a window every front port's RX_LAST and TX_LAST are
the bytes counted in it, and a PEAK that was less takes them; the counts begin again at 0. CLR_PEAK sets every PEAK to
0. Every other counter stays. Beside the rules it rests on the readings and choices of log entries 14, 84, 90, 93.
That a command whose conditions do not hold changes nothing is log entry 5. -/
def Obligations.CounterImages : Prop :=
  ((∀ (v : Word) (s : State), s.takesWrites Reg.glassSnap →
     let u := s.wrote Reg.glassSnap v
     let go := Fld.glassSnapGo.get v = 1
     let busy := s.flag Reg.glassSnap Fld.glassSnapBusy = true
     (¬ go → exec (.glassSnapshot v) s = .next u) ∧
     (go → busy → exec (.glassSnapshot v) s = .next (u.err Reg.glassErr Fld.glassErrSnapIgnored.lo)) ∧
     (go → ¬ busy → leaves (.glassSnapshot v) s fun t =>
       t.glass.gather = some (s.glass.live.filter fun e => !s.counterHidden e.1,
         s.timeWordOf (Fld.glassSnapDomain.get v)) ∧ t.glass.live = s.glass.live ∧
       t.glass.snap = s.glass.snap ∧ t.flag Reg.glassSnap Fld.glassSnapBusy = true ∧
       t.fld Reg.glassSnap Fld.glassSnapSeq = s.fld Reg.glassSnap Fld.glassSnapSeq ∧
       ∀ d, d < 8 → t.dom d = { s.dom d with latch := if s.domOn d then (s.dom d).time else 0 })) ∧
   (∀ (s : State), s.halted = false →
     (s.glass.gather = none → exec .glassSnapshotDone s = .next s) ∧
     (∀ img w, s.glass.gather = some (img, w) → leaves .glassSnapshotDone s fun t =>
       t.glass = { s.glass with gather := none, snap := img } ∧ t.rd Reg.glassSnapTime = w ∧
       t.flag Reg.glassSnap Fld.glassSnapBusy = false ∧
       t.fld Reg.glassSnap Fld.glassSnapSeq = (s.fld Reg.glassSnap Fld.glassSnapSeq + 1) % 2 ^ 32 ∧
       (∀ off, t.snapWord off = Tbl.get (Tbl.const 0) img off) ∧
       ∀ r, r ≠ Reg.glassSnap → r ≠ Reg.glassSnapTime → t.rd r = s.rd r))) ∧
  (∀ (a : BitVec 48) (v : Word) (s : State),
     let off := a.toNat - 0x60000000
     let pool := 0x200000 ≤ off ∧ off < 0x300000
     let evt := 0x320000 ≤ off ∧ off < 0x320080
     let hit := 0x60000000 ≤ a.toNat ∧ off % 8 = 0 ∧ (pool ∨ evt)
     (s.hostReaches a.toNat = false → exec (.counterWrite a v) s = .next s) ∧
     (s.hostReaches a.toNat = true →
     (s.memInOverlay a.toNat 8 = true → undefinedUse (.counterWrite a v) s 8) ∧
     (s.memInOverlay a.toNat 8 = false → ¬ hit → exec (.counterWrite a v) s = .next s) ∧
     (s.memInOverlay a.toNat 8 = false → hit → leaves (.counterWrite a v) s fun t =>
       (∀ o, t.counter o = if o = off then (if evt then v &&& 0xFFFFFFFF else v) else s.counter o) ∧
       t = { s with glass := { s.glass with live := t.glass.live } }))) ∧
  (∀ (n : LoomId) (s : State), s.halted = false →
     let due (t : State) (k : Nat) := Tbl.get (Tbl.const []) t.glass.due k
     let size := min 16777216 (s.fld Reg.glassSmpSize Fld.glassSmpSizeSize)
     let prod := s.fld Reg.glassSmpProd Fld.glassSmpProdProd
     let used := (prod + 2 ^ 32 - s.fld Reg.glassSmpCons Fld.glassSmpConsCons) % 2 ^ 32
     (due s n.val = [] → exec (.sampleTake n) s = .next s) ∧
     ∀ r rs, due s n.val = r :: rs →
       (size = 0 ∨ used = size → leaves (.sampleTake n) s fun t => due t n.val = rs ∧
         (∀ k, k ≠ n.val → due t k = due s k) ∧ t.flag Reg.glassSmpStat Fld.glassSmpStatOverflow = true ∧
         t.rd Reg.glassSmpProd = s.rd Reg.glassSmpProd) ∧
       (¬ (size = 0 ∨ used = size) → leaves (.sampleTake n) s fun t => due t n.val = rs ∧
         (∀ k, k ≠ n.val → due t k = due s k) ∧
         t.fld Reg.glassSmpProd Fld.glassSmpProdProd = (prod + 1) % 2 ^ 32 ∧
         (∀ b, t.byte b = (s.poke (s.fld Reg.glassSmpBase Fld.glassSmpBaseBase +
             32 * (prod % size)) r.bytes).byte b) ∧
         t.rd Reg.glassSmpStat = s.rd Reg.glassSmpStat)) ∧
  (∀ (s : State),
     let i := s.bwIndex
     let k := s.glass.winFrom / 2
     let rx (p : Nat) : Nat := Tbl.get (Tbl.const 0) s.glass.rxWin p
     let tx (p : Nat) : Nat := Tbl.get (Tbl.const 0) s.glass.txWin p
     let at32 (p o : Nat) : Nat := 0x330000 + 32 * p + o
     let window (o : Nat) : Prop := 0x330000 ≤ o ∧ o < 0x334000
     let peak (old : Word) (bytes : Nat) : Word := if old.toNat < bytes then BitVec.ofNat 64 bytes else old
     (s.halted = false → s.glass.winFrom % 2 = 0 → i = k → exec .bwWindowEnd s = .next s) ∧
     (s.halted = false → s.glass.winFrom % 2 = 0 → k < i → leaves .bwWindowEnd s fun t =>
       (∀ p, p < 512 → t.counter (at32 p 0) = BitVec.ofNat 64 (rx p) ∧ t.counter (at32 p 8) = BitVec.ofNat 64 (tx p) ∧
         t.counter (at32 p 16) = peak (s.counter (at32 p 16)) (rx p) ∧
         t.counter (at32 p 24) = peak (s.counter (at32 p 24)) (tx p)) ∧
       (∀ o, ¬ window o → t.counter o = s.counter o) ∧
       t = { s with glass := { s.glass with live := t.glass.live, rxWin := [], txWin := [], winFrom := 2 * i } }) ∧
     (s.halted = false → s.glass.winFrom % 2 = 1 → exec .bwWindowEnd s = .next (if k ≤ i then
       { s with glass := { s.glass with rxWin := [], txWin := [], winFrom := 2 * i } } else s)) ∧
     (s.takesWrites Reg.glassBwCtl → leaves .bwClearPeak s fun t => t =
         { s with glass := { s.glass with live := t.glass.live } } ∧
       ∀ o, t.counter o = if window o ∧ 16 ≤ o % 32 then 0 else s.counter o))

/-- R495, R497, R499, R510: a host read of a live digest answers its high half and latches its low half from the same
instant; GO of DIGEST_SNAP latches every unit and every part, and SEQ advances. No digest moves. Below PHASE DONE the
read answers 0, and with the link down there is none. R494, R495, R496: what a digest is: the XOR over the words of
the two CRCs of address and value. The check values of R494 hold; a word of value 0 contributes nothing, so a cleared
range has digest 0; the order of the words does not count; the looms agree, their digest is that of their five parts,
and the device digest leaves out the looms but one. R498, R499: a write of DIGEST_SCAN_CTL while a scan runs is
undefined (UB-43); GO with LEN 0 completes at once with result 0, and otherwise the scan runs until its end, when the
result is the digest of the words that can be read, at their offsets from the base; a table 6 primary in a lost stack
reads from its mirror (R493). It waits while a channel holds its range back. R488, R489, R496: the patrol corrects a
word of which one array is bad, and a loom's copy in any case, and reports it as code 12 with the unit and word; a
word outside the looms whose arrays are both bad is lost: it reads 0, and code 13 is reported and STORE_LOST set.
R488, R489, codes 14 and 15: working stores that are held once. A scratch word, a word of a register image, or a word
of the punt buffer that is uncorrectable reads 0, and a punted copy that holds it is dropped and counted; a queue
entry reads 0. A tag or an overflow entry is built again from the head, and with no head that can be read its record
is lost; so is the record of a line of the flow cache. Beside the rules it rests on the readings and choices of log
entries 40, 61, 62, 110. That a command whose conditions do not hold changes nothing is log entry 5. -/
def Obligations.StoreDigests : Prop :=
  ((∀ (off : BitVec 16) (s : State),
     (s.boot.pcieUp = false ∨ s.halted = true → exec (.digestHiRead off) s = .next s) ∧
     (s.boot.pcieUp = true → s.halted = false → s.hostReaches (0x70000 + off.toNat) = false →
       exec (.digestHiRead off) s = .next (s.returned 0)) ∧
     (s.hostReaches (0x70000 + off.toNat) = true →
     (∀ d lo, s.digestAt (0x70000 + off.toNat) = some (d, lo) → leaves (.digestHiRead off) s fun t =>
       t.host.rdData = digHi d ∧ t.rd lo = digLo d ∧ s.sameMem t ∧ ∀ r, r ≠ lo → t.rd r = s.rd r) ∧
     (s.digestAt (0x70000 + off.toNat) = none →
       exec (.digestHiRead off) s = .next (s.returned (s.rd (0x70000 + off.toNat)))))) ∧
   (∀ (s : State) (u : Nat), u < 32 →
     s.digestAt (0x70100 + 16 * u) = some (s.digest128 u, 0x70108 + 16 * u) ∧
     ∀ k, u < 16 → k < 5 →
       s.digestAt (0x70800 + 0x50 * u + 16 * k) = some (s.partDigest k, 0x70808 + 0x50 * u + 16 * k)) ∧
   (∀ (v : Word) (s : State), s.takesWrites Reg.digestSnap →
     (Fld.digestSnapGo.get v = 0 → exec (.digestSnapshot v) s = .next s) ∧
     (Fld.digestSnapGo.get v ≠ 0 → leaves (.digestSnapshot v) s fun t =>
       (∀ u, u < 32 → t.rd (Reg.digestSnapHi u) = digHi (s.digest128 u) ∧
         t.rd (Reg.digestSnapLo u) = digLo (s.digest128 u)) ∧
       (∀ u k, u < 16 → k < 5 → t.rd (Reg.digestSnappHi u k) = digHi (s.partDigest k) ∧
         t.rd (Reg.digestSnappLo u k) = digLo (s.partDigest k)) ∧
       t.fld Reg.digestSnap Fld.digestSnapSeq = (s.fld Reg.digestSnap Fld.digestSnapSeq + 1) % 2 ^ 32 ∧
       s.sameMem t))) ∧
  ((crcEcma ([0x31, 0x32, 0x33, 0x34, 0x35, 0x36, 0x37, 0x38, 0x39] : List Byte) = 0x6C40DF5F0B497347) ∧
   (crcIso ([0x31, 0x32, 0x33, 0x34, 0x35, 0x36, 0x37, 0x38, 0x39] : List Byte) = 0xB90956C775A41001) ∧
   (∀ ws, (∀ w ∈ ws, (w : Nat × Word).2 = 0) → digestOf ws = 0) ∧
   (∀ us ws : List (Nat × Word), digestOf (us ++ ws) = digestOf us ^^^ digestOf ws) ∧
   (∀ us ws : List (Nat × Word), us.Perm ws → digestOf us = digestOf ws) ∧
   (∀ (s : State) (u : Nat), u < 16 → s.unitDigest u = s.partDigest 0 ^^^ s.partDigest 1 ^^^ s.partDigest 2 ^^^
     s.partDigest 3 ^^^ s.partDigest 4) ∧
   (∀ (s : State) (u : Nat), 23 ≤ u → u < 31 → s.digest128 u = 0) ∧
   (∀ (s : State), s.digest128 31 = s.digest128 0 ^^^ s.digest128 17 ^^^ s.digest128 18 ^^^ s.digest128 19 ^^^
     s.digest128 20 ^^^ s.digest128 21 ^^^ s.digest128 22)) ∧
  ((∀ (v : Word) (s : State), s.takesWrites Reg.digestScanCtl →
     let base := s.fld Reg.digestScanBase Fld.digestScanBaseBase
     let len := s.fld Reg.digestScanLen Fld.digestScanLenLen
     let go := Fld.digestScanCtlGo.get v = 1
     let idle := s.flag Reg.digestScanCtl Fld.digestScanCtlBusy = false
     (¬ idle → undefinedUse (.digestScan v) s 43) ∧
     (idle → ¬ go → exec (.digestScan v) s = .next (s.wrote Reg.digestScanCtl v)) ∧
     (idle → go → len = 0 → leaves (.digestScan v) s fun t => t.rd Reg.digestScanHi = 0 ∧
       t.rd Reg.digestScanLo = 0 ∧ t.fld Reg.digestScanCtl Fld.digestScanCtlUnread = 0 ∧
       t.flag Reg.digestScanCtl Fld.digestScanCtlBusy = false ∧
       t.flag Reg.digestScanCtl Fld.digestScanCtlDirty = false) ∧
     (idle → go → len ≠ 0 → inHbm base = true → inHbm (base + len - 1) = true → leaves (.digestScan v) s fun t =>
       t.flag Reg.digestScanCtl Fld.digestScanCtlBusy = true ∧
       t.flag Reg.digestScanCtl Fld.digestScanCtlDirty = false ∧ ∀ r, r ≠ Reg.digestScanCtl → t.rd r = s.rd r)) ∧
   (∀ (unread : List Nat) (s : State), s.halted = false →
     let base := s.fld Reg.digestScanBase Fld.digestScanBaseBase
     let len := s.fld Reg.digestScanLen Fld.digestScanLenLen
     let busy := s.flag Reg.digestScanCtl Fld.digestScanCtlBusy = true
     let unc (a : Nat) : Bool := s.hbmUnc (s.readFrom a) || unread.contains (hbmLine a)
     let d := digestOf ((List.range (len / 8)).map fun i =>
       (8 * i, if unc (base + 8 * i) then 0 else s.w64 (s.readFrom (base + 8 * i))))
     let lines := ((List.range ((base + len + 63) / 64 - base / 64)).map fun i => 64 * (base / 64 + i)).filter unc
     (¬ busy → exec (.digestScanDone unread) s = .next s) ∧
     (∀ a, busy → s.accessHeld base len = some a → exec (.digestScanDone unread) s = .next (s.hbmWake a)) ∧
     (busy → s.accessHeld base len = none → inHbm base = true → inHbm (base + len - 1) = true → base % 8 = 0 →
       len % 8 = 0 → s.fld Reg.warpStbl6Base Fld.warpStbl6BaseBase % 64 = 0 →
       s.fld Reg.warpStbl6Mirror Fld.warpStbl6MirrorMirror % 64 = 0 →
       inHbm (s.fld Reg.warpStbl6Mirror Fld.warpStbl6MirrorMirror) = true →
         leaves (.digestScanDone unread) s fun t => t.rd Reg.digestScanHi = digHi d ∧
       t.rd Reg.digestScanLo = digLo d ∧ t.flag Reg.digestScanCtl Fld.digestScanCtlBusy = false ∧
       t.fld Reg.digestScanCtl Fld.digestScanCtlUnread = lines.length % 2 ^ 32 ∧ s.sameMem t))) ∧
  (∀ (a : BitVec 48) (r : ArrayFault) (s : State), s.halted = false →
     let w := a.toNat / 8 * 8
     (∀ x, exec (.storePatrol x .clean) s = .next s) ∧
     (patrolled w = none → inSpinMem w = false → exec (.storePatrol (.das a) r) s = .next s) ∧
     ∀ u i loom, patrolled w = some (u, i, loom) → r ≠ .clean →
       let unit := u * 2 ^ 24 + i % 2 ^ 24
       (r = .oneBad ∨ loom = true → exec (.storePatrol (.das a) r) s = .next (s.masked 12 7 unit 0)) ∧
       (r ≠ .oneBad → loom = false → exec (.storePatrol (.das a) r) s =
           .next (((s.loseWord w).setF Reg.digestFault Fld.digestFaultStoreLost 1).masked 13 7 unit 1)) ∧
       (w < 0x480000 → (s.loseWord w).rd w = s.rd w &&& ~~~ wsMask w ∧ ∀ e, e ≠ w → (s.loseWord w).rd e = s.rd e) ∧
       (0x20000000 ≤ w → w < 0x21000000 → (s.loseWord w).masterLost w = some 0 ∧ (s.loseWord w).masterLe w = 0 ∧
         (∀ e, e ≠ w → (s.loseWord w).masterLost e = s.masterLost e) ∧ s.sameMem (s.loseWord w)) ∧
       (0x480000 ≤ w → ¬ (0x20000000 ≤ w ∧ w < 0x21000000) → (s.loseWord w).w64 w = 0 ∧
         ∀ e, ¬ (w ≤ e ∧ e < w + 8) → (s.loseWord w).byte e = s.byte e)) ∧
  (∀ (r : ArrayFault) (s : State), s.halted = false → r ≠ .clean →
     let wiped (w : Nat) : State := (s.setLe w 8 0).masked 14 2 (w % 2 ^ 32) 1
     (∀ a : BitVec 48, let w := a.toNat / 8 * 8
       (0x41000000 ≤ w → w < 0x41800000 → exec (.storePatrol (.das a) r) s = .next (wiped w)) ∧
       (0x42000000 ≤ w → w < 0x44000000 →
         (s.handleAt w = none → exec (.storePatrol (.das a) r) s = .next (wiped w)) ∧
         ∀ h q, s.handleAt w = some h → q = s.fld (Reg.spinPunt (handleReason h)) Fld.spinPuntQueue →
           (∀ e ∈ (s.squeue q).entries, e.1 ≠ h) → leaves (.storePatrol (.das a) r) s fun t =>
             h ∈ t.spin.lostCopies ∧ t.fld (Reg.spinPunt (handleReason h)) Fld.spinPuntDropped =
               (s.fld (Reg.spinPunt (handleReason h)) Fld.spinPuntDropped + 1) % 2 ^ 32) ∧
       (0x44400000 ≤ w → w < 0x44500000 → (s.task ((w - 0x44400000) / 256)).st ≠ .running →
         s.flag Reg.hostifEvtCtl Fld.hostifEvtCtlR1Notify = false → leaves (.storePatrol (.das a) r) s fun t =>
           vget (t.task ((w - 0x44400000) / 256)).g (w % 256 / 8) 0 = 0)) ∧
     (∀ (q : Fin 256) (i : Fin 65536), i.val < (s.squeue q.val).entries.length →
       leaves (.storePatrol (.queueEntry q i) r) s fun t =>
         (t.squeue q.val).entries = (s.squeue q.val).entries.set i.val (0, none)) ∧
     (∀ (e : BitVec 28), e.toNat < s.ovfFirst →
       let h := s.newestHead e.toNat
       let readable := s.hbmUnc (s.headAddr e.toNat) = false ∧ s.recUsable e.toNat = true
       leaves (.storePatrol (.tagEntry e) r) s fun t =>
         (readable → headValid h = true → t.tag e.toNat = (s.bucketTag (s.tableOf e.toNat) (headSeal h)).2) ∧
         (¬ (readable ∧ headValid h = true) → t.tag e.toNat = 0) ∧ ∀ k, k ≠ e.toNat → t.tag k = s.tag k) ∧
     (∀ (i : Fin 1048576), s.hbmUnc (s.headAddr (s.ovfFirst + i.val)) = false →
       s.recUsable (s.ovfFirst + i.val) = true → let h := s.newestHead (s.ovfFirst + i.val)
       leaves (.storePatrol (.ovfEntry i) r) s fun t => Tbl.get (Tbl.const none) t.warp.ovf i.val =
         if headValid h then some (headSeal h) else none) ∧
     (∀ (l : Fin 1048576) (c : CLine), s.line l.val = some c → s.firstOf l.val = none → c.reserved = false →
       c.detached = false → c.pins = 0 → c.recPins = 0 → c.rno < s.ovfFirst →
       leaves (.storePatrol (.cacheLine l) r) s fun t => t.line l.val = none ∧ t.tag c.rno = 0))

/-- R527: the target answers command bytes 0 to 4 from the moment VDD_IO is good, whatever RESET_N does: IDENT_PART,
the junction temperature, the hottest stack, IDENT_BOOT_STAT and the thermal flags; it acknowledges no other byte and
no write of data, whatever its byte, and nothing of the device moves. Its address is 0b10110 and the strap as sampled
(R526). R465, R503, R524: at a stand (tripped, RESET_N low, no power, or a clock interrupted) no pick and no thread
runs an instruction, no packet enters or leaves, and neither the Warp, the Beam, the learning shuttle nor a task
moves; no write of a register does anything, and while RESET_N is low or there is no power no link comes up. Beside
the rules it rests on the readings and choices of log entries 12, 54. That a command whose conditions do not hold
changes nothing is log entry 5. -/
def Obligations.SmbusTarget : Prop :=
  (∀ (s : State),
     let bytes (v : Option (List Byte)) : State := { s with host := { s.host with smb := v } }
     let cs := [Instr.smbReadIdent, .smbReadTj, .smbReadBootStat, .smbReadThermal]
     s.smbTarget = (0b10110 : BitVec 5) ++ s.boot.smbAddr ∧
     (s.boot.powered = false → (∀ c ∈ .smbReadHbmTemp :: cs, exec c s = .next s) ∧
         ∀ b, exec (.smbNack b) s = .next s) ∧
     (s.boot.powered = true →
       exec .smbReadIdent s = .next (bytes (some (toLE 8 (s.rd Reg.identPart).toNat))) ∧
       exec .smbReadTj s = .next (bytes (some (toLE 2 (s.fld Reg.tensionTemp Fld.tensionTempTj)))) ∧
       exec .smbReadBootStat s = .next (bytes (some (toLE 2 (s.rd Reg.identBootStat).toNat))) ∧
       exec .smbReadThermal s =
         .next (bytes (some [BitVec.ofNat 8 (b2n s.tension.braked + 2 * b2n s.tension.tripped)])) ∧
       (∀ b, exec (.smbNack b) s = .next (bytes none)) ∧
       exec .smbReadHbmTemp s = .next (bytes (some (toLE 1
         (((List.range 8).map fun k => Tbl.get (Tbl.const 0) s.creel.temp k).foldl max 0)))))) ∧
  (∀ (s : State), s.halted = true →
     (∀ (c : Ctx) (w : IWord), ∀ i ∈ [Instr.nop c w, .illegalOp c, .ld c w, .st c w, .sts c w, .batten c w, .ldW c w,
       .stW c w, .ldT c w, .br c w, .brp c w, .loop c w, .add c w, .addImm c w, .sub c w, .subImm c w, .and c w,
       .andImm c w, .or c w, .orImm c w, .xor c w, .xorImm c w, .shl c w, .shlImm c w, .shr c w, .shrImm c w,
         .sar c w,
       .sarImm c w, .min c w, .minImm c w, .max c w, .maxImm c w, .cmp c w, .cmpImm c w, .mul c w, .mulImm c w,
       .mulh c w, .movi c w, .ext c w, .ins c w, .sel c w, .hash c w, .flook c w, .fcreate c w, .fupd c w, .ffold c w,
       .fdelidle c w, .rsearch c w, .rnext c w, .tscan c w, .fwd c w, .mcast c w, .drop c w, .punt c w, .recirc c w,
       .tstamp c w, .cnt c w, .lock c w, .unlock c w, .waitev c w, .signal c w, .yield c w, .qput c w, .qget c w,
       .dma c w], exec i s = .next s) ∧
     (∀ (p : Port) (f : List Byte), ∀ i ∈ [Instr.frameReceive p f, .pfcPauseExpire p 0, .egressCall p,
         .transmitFrame p
       [], .transmitComplete p, .pfcFrameSend p, .pfcRefresh p, .grantPeriod], exec i s = .next s) ∧
     (∀ (p : PktId) (n : LoomId) (q : Fin 10240), ∀ i ∈ [Instr.fcsError p, .heddleParse p, .pickStart p,
       .pickBudgetExceeded p, .recircReturn ⟨n, []⟩, .beamAdmit p, .residueAdmit q, .queueFlushDone, .battenSlotOpen,
       .battenApply, .bankRetire, .sampleTake n, .loomGated n, .loomActive n], exec i s = .next s) ∧
     (∀ (k : TaskId), ∀ i ∈ [Instr.taskRelease k, .deadlineMiss k, .waitevTimeout k, .sliceExpire k],
       exec i s = .next s) ∧
     (∀ (p : Port) (k : TaskId) (v : Word), ∀ i ∈ [Instr.portConfigWrite p v, .taskCreate k, .taskStart k,
         .taskCancel k,
       .taskDelete k, .hostBatten v, .hostStageAppend v, .spindleRestart v], exec i s = .next s) ∧
     (s.underPin = true → ∀ p : Port, ∀ i ∈ [Instr.alignmentLockGain p, .linkUp p], exec i s = .next s) ∧
     (∀ i ∈ [Instr.warpInitTbl0, .warpInitTbl1, .warpInitOvf, .warpInitDone, .warpDisableDone, .cacheFlushDone,
       .migrateBucket, .rehashRetry, .learnEvent, .compareDone], exec i s = .next s))

/-- R465, R501, R503, R524, R528: RESET_N low leaves every register, task and table at its reset value, no packet in
the device, HBM without its contents, every pulse output inactive, THERM_TRIP_N deasserted and the device at a stand;
the regulator keeps its voltage, and host memory, which is no part of the device, its bytes. Power does the same.
RESET_N rises only with power, then the ROM begins at PHASE INIT, and the strap SMB_ADDR is sampled (R525). A clock
interruption leaves the device at a stand. R442, R491, R504, R511: the link trains once RESET_N is high and PERST_N
rises; its loss, and the assertion of PERST_N, change nothing else of the device, and its return sends once each
vector that was held or whose ring holds entries. Beside the rules it rests on the readings and choices of log entries
6, 8, 32, 53, 54. That a command whose conditions do not hold changes nothing is log entry 5. -/
def Obligations.PowerResetAndLink : Prop :=
  (∀ (s : State),
     let cleared (t : State) : Prop := t.boot.inReset = true ∧ t.halted = true ∧
       (∀ r, t.rd r = State.reset.rd r) ∧ (∀ a, t.byte a = if inHost a then s.byte a else State.reset.byte a) ∧
       t.pkts = [] ∧ (∀ k, t.task k = Task.none) ∧ (∀ d, t.dom d = State.reset.dom d) ∧ t.pins.tpo = 0 ∧
       t.pins.thermTrip = false ∧ t.tension.avs = false ∧ t.tension.tripped = false ∧ t.boot.pcieUp = false
     (s.boot.powered = true → exec .powerOn s = .next s) ∧
     (s.boot.powered = false → ∃ t, exec .powerOn s = .next t ∧ cleared t ∧ t.boot.powered = true) ∧
     (s.boot.powered = false → exec .powerOff s = .next s ∧ exec .resetAssert s = .next s) ∧
     (s.boot.powered = true → ∃ t, exec .powerOff s = .next t ∧ cleared t ∧ t.boot.powered = false) ∧
     (s.boot.powered = true → ∃ t, exec .resetAssert s = .next t ∧ cleared t ∧ t.boot.powered = true ∧
       t.tension.vdd = s.tension.vdd) ∧
     (s.boot.powered = true → s.boot.inReset = true → exec .resetRelease s =
       .next { s with boot := { s.boot with inReset := false, smbAddr := Config.smbStrap } }) ∧
     (¬ (s.boot.powered = true ∧ s.boot.inReset = true) → exec .resetRelease s = .next s) ∧
     (s.boot.powered = true → s.boot.inReset = false → ∃ t, exec .clockInterruption s = .next t ∧ t.halted = true ∧
       t = { s with boot := { s.boot with outside := true } }) ∧
     (s.boot.powered = false ∨ s.boot.inReset = true → exec .clockInterruption s = .next s)) ∧
  (∀ (s : State),
     let can := s.boot.powered = true ∧ s.boot.inReset = false ∧ s.boot.outside = false ∧ s.boot.pcieUp = false
     let vecs (v : Nat) : Prop := v ∈ s.host.held ∨ ∃ n ∈ [1, 2, 3], s.ringUsed n ≠ 0 ∧
       s.flag (Reg.ringCfg n) Fld.ringCfgMsiEn = true ∧ s.fld (Reg.ringCfg n) Fld.ringCfgVec = v
     let raised (t : State) (v : Nat) : Nat := Tbl.get (Tbl.const 0) t.host.raised v
     let back (t : State) : Prop := t.boot.pcieUp = true ∧ t.host.held = [] ∧ t.mem = s.mem ∧ t.regs = s.regs ∧
       t.pkts = s.pkts ∧ t.spin = s.spin ∧
       (∀ v, vecs v → raised t v = raised s v + 1) ∧ ∀ v, ¬ vecs v → raised t v = raised s v
     exec .pcieLinkLoss s = .next { s with boot := { s.boot with pcieUp := false } } ∧
     exec .perstAssert s = .next { s with boot := { s.boot with perst := true, pcieUp := false } } ∧
     (can → ∃ t, exec .pcieLinkTrain s = .next t ∧ back t) ∧
     (can → s.boot.perst = false → ∃ t, exec .pcieLinkReturn s = .next t ∧ back t) ∧
     (¬ can → exec .pcieLinkTrain s = .next s) ∧
     (¬ can ∨ s.boot.perst = true → exec .pcieLinkReturn s = .next s))

/-- R507, R509: the checks of an image, in their order: header, owner key where the part is secure, signature, and the
security version against the floor; an image fails with the code of the first that it fails. R509: of the two flash
images the ROM runs the first that passes every check, with UNSECURED set where the part is not secure; where neither
passes, PHASE becomes FAILED with the code of the image at offset 0. No record runs before that. Beside the rules it
rests on the readings and choices of log entries 6, 86. That a command whose conditions do not hold changes nothing is
log entry 5. -/
def Obligations.BootToImage : Prop :=
  (∀ (im : List Byte),
     let f (o k : Nat) : Nat := ofLE (slice im o k)
     let header := f 0 4 = 0x5442564B ∧ f 4 2 = 1 ∧ f 8 2 = 0x9012 ∧ f 10 1 = 0x20 ∧ f 16 4 % 8 = 0 ∧ f 16 4 ≤ 8388352
     let owner := Config.secure = false ∨ Config.ownerKeyOk (slice im 24 96) = true
     let signed := Config.bootSigOk (slice im 24 96) (slice im 0 (256 + f 16 4)) (slice im (256 + f 16 4) 96) = true
     let fresh := Config.secFloor % 256 ≤ f 11 1
     (¬ header → imageFails im = some 2) ∧
     (header → ¬ owner → imageFails im = some 3) ∧
     (header → owner → ¬ signed → imageFails im = some 4) ∧
     (header → owner → signed → ¬ fresh → imageFails im = some 5) ∧
     (header → owner → signed → fresh → imageFails im = none)) ∧
  ((∀ (flash : List Byte) (s : State), s.halted = false → s.phase = 3 → s.boot.sfdp = true →
     s.fld Reg.identBootStat Fld.identBootStatImage ≠ 2 →
     let second := flash.drop (flash.length / 2)
     let begins (n : Nat) (t : State) : Prop := t.phase = 4 ∧ t.fld Reg.identBootStat Fld.identBootStatImage = n ∧
       t.flag Reg.identBootStat Fld.identBootStatUnsecured = !Config.secure
     (imageFails flash = none → leaves (.imageCheck flash) s (begins 0)) ∧
     (imageFails flash ≠ none → imageFails second = none → leaves (.imageCheck flash) s (begins 1)) ∧
     (∀ c, imageFails flash = some c → imageFails second ≠ none → leaves (.imageCheck flash) s fun t =>
       t.phase = 6 ∧ t.fld Reg.identBootStat Fld.identBootStatCode = c)) ∧
   (∀ (s : State), s.phase ≠ 4 → ∀ c ∈ [Instr.bootCopy, .bootWait, .bootWaitTimeout, .bootPatch, .bootTask, .bootEnd,
     .bootBadRecord], exec c s = .next s))

/-- R365, R492, R505: the first phases run in order, each only from the one before it: initialisation, the links,
whose failed wires of before RESET_N fell are reported again, and the stacks, in which a spare takes the slot of a
channel that fails training and, with no spare in the pool, its stack is lost. Spares that failed leave the pool
first. A stack whose PHY fails on every channel is lost, and no spare of another is spent on it. R505, R506, R509,
R510, R512: in phase IMAGE the ROM runs the first of the two flash images that passes, or the image the host offers;
with neither it is FAILED with the code of the image at offset 0, and with a flash that does not answer SFDP with code
1. The image stands in the scratch memory, from its first byte on (log entry 51). Without bus mastering the host's
image reads as zeros. In FAILED, GO of IDENT_BOOT_CMD returns to IMAGE with the host's image; in any other phase it is
ignored. R508: the records of the body, in the scratch memory, run in order, each on a boundary of 8 bytes. COPY
stores its payload (shown for the scratch memory); a WAIT passes once the masked word is VALUE, and fails with code 7
after its timeout; a PATCH that is refused fails with code 8; TASK creates the task, writes its words and starts it;
END ends the ROM; another kind, or a COPY to host memory, fails with code 6. Beside the rules it rests on the readings
and choices of log entries 6, 32, 33, 51, 52, 102. That a command whose conditions do not hold changes nothing is log
entry 5. -/
def Obligations.BootRecordActions : Prop :=
  ((∀ (s : State), s.halted = false →
     (s.phase = 0 → ∀ b, leaves (.bootInitDone b) s fun t => t.phase = 1 ∧ t.boot.sfdp = b) ∧
     (s.phase = 1 → exec .bootLinksDone s = .next (s.wireRecords.setPhase 2)) ∧
     (s.phase = 1 → s.selv.oldWires = [] → exec .bootLinksDone s = .next (s.setPhase 2)) ∧
     (s.phase = 1 → ∀ g, s.selv.oldWires = [(g, 1)] → exec .bootLinksDone s = .next (State.setPhase
       { s.masked 1 (linkSrc (g / 256)) g 0 with selv := { s.selv with oldWires := [] } } 2)) ∧
     (s.phase = 2 → exec (.bootHbmDone []) s = .next (s.setPhase 3)) ∧
     (s.phase = 2 → ∀ cs, let ns := cs.map chNum
       (∀ k, k < 8 → ∃ n, n / 32 = k ∧ n ∉ ns) →
       exec (.bootHbmDone cs) s = .next (((ns.filter (s.chanState · == 2) ++ ns.filter (s.chanState · != 2)).foldl
         (fun (u : State) n => u.bootDead n) s).setPhase 3)) ∧
     (s.phase = 2 → ∀ (k : StackId) (cs : List ChanId), s.stackLost k.val = false → (∀ j, s.retiring j = none) →
       (∀ n, n ∈ cs.map chNum ↔ n / 32 = k.val) → leaves (.bootHbmDone cs) s fun t => t.phase = 3 ∧
         t.stackLost k.val = true ∧ ∀ c, c < 256 → t.chanState c = if c / 32 = k.val then 4 else s.chanState c) ∧
     (∀ p, p < 7 → (s.setPhase p).phase = p)) ∧
   (∀ (s : State) (p : Nat), s.phase = p ∨ s.halted = true →
     (p ≠ 0 ∨ s.halted = true → ∀ b, exec (.bootInitDone b) s = .next s) ∧
     (p ≠ 1 ∨ s.halted = true → exec .bootLinksDone s = .next s) ∧
     (p ≠ 2 ∨ s.halted = true → ∀ cs, exec (.bootHbmDone cs) s = .next s) ∧
     (p ≠ 3 ∨ s.halted = true → ∀ f, exec (.imageCheck f) s = .next s)) ∧
   (∀ (s : State) (c : ChanId),
     let n := chNum c
     let dead := s.setChanState n 4
     (s.chanState n = 2 ∨ s.stackLost c.stack.val = true → s.bootDead n = dead) ∧
     (s.chanState n ≠ 2 → s.stackLost c.stack.val = false →
       (dead.pickSpare c.stack.val = none → s.bootDead n = dead.stackGone
           (s.fld (chanReg n) Fld.creelChanSlotStack)) ∧
       ∀ d, dead.pickSpare c.stack.val = some d → d < 256 → d ≠ n →
         (s.bootDead n).chanState d = 0 ∧ (s.bootDead n).chanState n = 4 ∧
         (s.bootDead n).fld (chanReg d) Fld.creelChanSlotStack = s.fld (chanReg n) Fld.creelChanSlotStack ∧
         (s.bootDead n).fld (chanReg d) Fld.creelChanSlot = s.fld (chanReg n) Fld.creelChanSlot))) ∧
  ((∀ (flash : List Byte) (s : State), s.halted = false → s.phase = 3 →
     let st := Reg.identBootStat
     let second := flash.drop (flash.length / 2)
     let host := s.fld st Fld.identBootStatImage = 2
     let runs (im : List Byte) (n : Nat) (t : State) : Prop := t.phase = 4 ∧ t.fld st Fld.identBootStatImage = n ∧
       t.fld st Fld.identBootStatVersion = ofLE (slice im 12 4) ∧ 
       (let k := 256 + ofLE (slice im 16 4)
        t.bytes 0x41000000 k = slice im 0 k ∧ t.boot.recAt = 0x41000100 ∧ t.boot.bodyEnd = 0x41000000 + k ∧
        ∀ a, a < 0x41000000 ∨ 0x41000000 + k ≤ a → t.byte a = s.byte a) ∧
       t.flag st Fld.identBootStatUnsecured = !Config.secure
     let failed (c : Nat) (t : State) : Prop := t.phase = 6 ∧ t.fld st Fld.identBootStatCode = c
     (Config.busMaster s.now = false → imageFails s.hostImage = some 2) ∧
     (host → imageFails s.hostImage = none → leaves (.imageCheck flash) s (runs s.hostImage 2)) ∧
     (host → ∀ c, imageFails s.hostImage = some c → leaves (.imageCheck flash) s (failed c)) ∧
     (¬ host → s.boot.sfdp = false → leaves (.imageCheck flash) s (failed 1)) ∧
     (¬ host → s.boot.sfdp = true → imageFails flash = none → leaves (.imageCheck flash) s (runs flash 0)) ∧
     (¬ host → s.boot.sfdp = true → imageFails flash ≠ none → imageFails second = none →
       leaves (.imageCheck flash) s (runs second 1)) ∧
     (¬ host → s.boot.sfdp = true → imageFails second ≠ none → ∀ c, imageFails flash = some c →
       leaves (.imageCheck flash) s (failed c))) ∧
   (∀ (v : Word) (s : State), s.takesWrites Reg.identBootCmd →
     let u := s.wrote Reg.identBootCmd v
     let go := Fld.identBootCmdGo.get v ≠ 0
     (go → s.phase = 6 → leaves (.hostImageBoot v) s fun t => t.phase = 3 ∧
       t.fld Reg.identBootStat Fld.identBootStatImage = 2 ∧ t.rd Reg.identBootCmd = u.rd Reg.identBootCmd) ∧
     (¬ go ∨ s.phase ≠ 6 → exec (.hostImageBoot v) s = .next u))) ∧
  (∀ (s : State), s.halted = false → s.phase = 4 → s.host.switching = none →
     let r := s.bootRec
     let at_ := s.boot.recAt
     let next := at_ + 16 + (r.len + 7) / 8 * 8
     let word (o : Nat) : Nat := ofLE (slice r.data o 8)
     let failed (c : Nat) (t : State) : Prop := t.phase = 6 ∧ t.fld Reg.identBootStat Fld.identBootStatCode = c ∧
       t.boot = s.boot
     let still := s.bat.cur = none ∧ s.spin.dma = []
     let room := s.spin.roundCmds ≤ 14 ∧ s.spin.cmdQ = []
     (at_ + 16 ≤ s.boot.bodyEnd → r.typ = (s.byte at_).toNat ∧ r.len = ofLE (s.bytes (at_ + 4) 4) ∧
       r.dst = ofLE (s.bytes (at_ + 8) 8)) ∧
     (at_ + 16 + r.len ≤ s.boot.bodyEnd → r.data = s.bytes (at_ + 16) r.len) ∧
     (s.boot.bodyEnd ≤ at_ → r.typ = 0) ∧
     (r.typ = 1 → still → r.dst % 8 = 0 → 0x41000000 ≤ r.dst → r.dst + (r.len + 7) / 8 * 8 ≤ 0x41800000 →
       leaves .bootCopy s fun t => t.boot.recAt = next ∧ t.regs = s.regs ∧
         ∀ a, t.byte a = if r.dst ≤ a ∧ a < r.dst + (r.len + 7) / 8 * 8 then
           r.data.getD (a - r.dst) 0 else s.byte a) ∧
     (r.typ = 1 → inHost r.dst = true → leaves .bootBadRecord s (failed 6)) ∧
     (r.typ = 0 ∨ 6 ≤ r.typ → leaves .bootBadRecord s (failed 6)) ∧
     (1 ≤ r.typ → r.typ ≤ 5 → (r.typ = 1 → inHost r.dst = false) → exec .bootBadRecord s = .next s) ∧
     (r.typ = 2 → ∀ x, s.busRead .internal r.dst 8 = .ok x →
       (ofLE x.bytes &&& word 0 = word 8 → leaves .bootWait s fun t => t.boot.recAt = next ∧ t.regs = x.st.regs) ∧
       (ofLE x.bytes &&& word 0 ≠ word 8 → exec .bootWait s = .next { x.st with
         boot := { x.st.boot with waitFrom := some (x.st.boot.waitFrom.getD x.st.now) } })) ∧
     (r.typ = 2 → ∀ t0, s.boot.waitFrom = some t0 →
       (t0 + 1000 * ofLE (slice r.data 16 4) ≤ s.now → leaves .bootWaitTimeout s (failed 7)) ∧
       (s.now < t0 + 1000 * ofLE (slice r.data 16 4) → exec .bootWaitTimeout s = .next s)) ∧
     (r.typ = 3 → ∀ n, s.patchFails r.data = some n → leaves .bootPatch s (failed 8)) ∧
     (r.typ = 3 → ∀ u, s.patch r.data false [] = .begun u → exec .bootPatch s = .next (u.bootNext r)) ∧
     (r.typ = 4 → still → room → ∀ k, k = ofLE (slice r.data 0 2) % 4096 → (s.task k).st = .free →
       leaves .bootTask s fun t => t.boot.recAt = next ∧ (t.task k).st = .dormant ∧
         (∀ i, i < 3 → (t.taskWord k i).toNat = word (8 + 8 * i)) ∧ (t.task k).pc = t.taskBase k ∧
         ∀ j, j ≠ k → t.task j = s.task j) ∧
     (r.typ = 5 → exec .bootEnd s = .next (s.setPhase 5)) ∧
     (∀ c ∈ [Instr.bootCopy, .bootWait, .bootWaitTimeout, .bootPatch, .bootTask, .bootEnd],
       r.typ = 0 ∨ 6 ≤ r.typ → exec c s = .next s))

/-- R12, R14: the access codes. In the bits that a write enables, an RW bit takes the value written; a W1C bit written
1 is cleared, and written 0 stays; a WS bit keeps its value in effect, and its stage takes the value written; every
other bit ignores the write. Every other register, and all of memory, stays. R10, R11, R86, R435, R491, R510:
REGISTER_WRITE by the host while the link is down, the device at a stand, before the ROM ends outside IDENT, or
outside its windows, changes nothing. One that reaches its address is a plain store there. To the block windows: where
it is no aligned access of 32 or 64 bits it is undefined (UB-3); a register of a batten in progress may not be written
(UB-8); an address that holds no register ignores it; a register that the spec gives access codes only takes them, in
the half written. To no region at all it is undefined (UB-2). Beside the rules it rests on the readings and choices of
log entries 14, 83, 120. That a command whose conditions do not hold changes nothing is log entry 5. -/
def Obligations.RegisterAccess : Prop :=
  (∀ (s : State) (a : Nat) (v en : Word) (i : Nat), i < 64 →
     let t := s.plainWrite a v en
     let old := (s.rd a).getLsbD i
     let new := (t.rd a).getLsbD i
     let on (m : Word) : Prop := m.getLsbD i = true
     (on en → on (rwMask a) → new = v.getLsbD i) ∧
     (on en → on (w1cMask a) → new = (old && !v.getLsbD i)) ∧
     (¬ on en ∨ ¬ on (rwMask a) ∧ ¬ on (w1cMask a) → new = old) ∧
     (on en → on (wsMask a) → new = old ∧ on (t.pendingWs a).1 ∧ (t.pendingWs a).2.getLsbD i = v.getLsbD i) ∧
     (¬ on en ∨ ¬ on (wsMask a) → (t.pendingWs a).1.getLsbD i = (s.pendingWs a).1.getLsbD i ∧
       (t.pendingWs a).2.getLsbD i = (s.pendingWs a).2.getLsbD i) ∧
     (∀ b, b ≠ a → t.rd b = s.rd b ∧ t.pendingWs b = s.pendingWs b) ∧ t = { s with regs := t.regs, ws := t.ws }) ∧
  (∀ (m : Master) (a : BitVec 48) (wd : RegWidth) (v : Word) (s : State),
     let n := wd.size
     let w := a.toNat / 8 * 8
     let reach := match m with
       | .host => s.boot.pcieUp = true ∧ s.halted = false ∧ (5 ≤ s.phase ∨ a.toNat < 0x10000) ∧
         s.inBars a.toNat = true
       | .thread _ => s.halted = false
     let free := s.inOverlay a.toNat n = false ∧ s.spin.dma = []
     let okay := (n = 4 ∨ n = 8) ∧ a.toNat % n = 0
     let win := inWindows a.toNat = true
     let en : Word := if n = 8 then BitVec.allOnes 64 else if a.toNat % 8 = 0 then 0xFFFFFFFF else 0xFFFFFFFF00000000
     let lane : Word := if n = 8 then v else if a.toNat % 8 = 0 then v &&& 0xFFFFFFFF else v <<< 32
     (¬ reach → exec (.registerWrite m a wd v) s = .next s) ∧
     (win → reach → free → ¬ okay → undefinedUse (.registerWrite m a wd v) s 3) ∧
     (win → reach → okay → s.inOverlay a.toNat n = true → undefinedUse (.registerWrite m a wd v) s 8) ∧
     (win → reach → free → okay → regDesc? w = none → becomes (.registerWrite m a wd v) s s) ∧
     (win → reach → free → okay → ∀ d, regDesc? w = some d → d.base ∉ ownEffect → w ∉ measured →
       becomes (.registerWrite m a wd v) s (s.plainWrite w lane en)) ∧
     (reach → free → n ≤ 64 - a.toNat % 64 → regionOf a.toNat = .none → undefinedUse (.registerWrite m a wd v) s 2) ∧
     (reach → free → n ≤ 64 - a.toNat % 64 → regionOf a.toNat = .host →
       exec (.registerWrite m a wd v) s = .next (s.poke a.toNat (toLE n v.toNat))))

/-- The device acts on one command at a time: a step takes the command at the front of the queue and does what it
does, with the rest of the queue waiting. -/
def Obligations.StepRunsTheFront : Prop :=
  (∀ (s : State) (c : Instr) (rest : List Instr), s.pending = c :: rest →
    step s = exec c { s with pending := rest }) ∧
  ∀ (s : State) (c : Instr), step { s with pending := c :: s.pending } = exec c s

/-- The model's choice (DESIGN CHOICE, log entries 1 and 125): with no command waiting only the clocks and what
follows them move, and the state is otherwise as it was; the records that still fall due are posted. Beside the rules
it rests on the readings and choices of log entries 1, 125. -/
def Obligations.IdleStep : Prop :=
  ∀ (s : State), s.pending = [] → step s = .next s.tick.postDue ∧ (s.host.due = [] → s.tick.postDue = s.tick) ∧
    s.tick.pending = [] ∧ s.tick.mem = s.mem ∧ s.tick.pkts = s.pkts ∧ s.tick.regs = s.regs ∧ s.tick.now = s.now + 1

/-- R12, R27, R308, R309, R372, R415, R450, R466, R501, R503, R505: the machine right after RESET_N rises: every
register at the reset value its table gives, of which some are shown, every store cleared but for the fields with
reset values of their own, no packet, task, batten or copy in the device, PHASE INIT and every port disabled. The
bounds hold at reset. Beside the rules it rests on the readings and choices of log entries 3, 4, 89. -/
def Obligations.ResetState : Prop :=
  (let s := State.reset
   (∀ a d, regDesc? a = some d → d.base ≠ Reg.creelChan 0 0 → a ≠ Reg.identFuse → ¬ (0x31000 ≤ a ∧ a < 0x31800) →
     s.rd a = BitVec.ofNat 64 d.reset) ∧
   (∀ a, regDesc? a = none → a ≠ Reg.identFuse → ¬ (0x31000 ≤ a ∧ a < 0x31800) → s.rd a = 0) ∧
   (∀ a, ¬ (0x31800000 ≤ a ∧ a < 0x31840000) → ¬ (0x44000000 ≤ a ∧ a < 0x44040000) → s.byte a = 0) ∧
   s.fld Reg.tensionCtl Fld.tensionCtlVman = 800 ∧ s.fld Reg.tensionCtl Fld.tensionCtlMargin = 60 ∧ s.phase = 0 ∧
   s.halted = false ∧ s.pkts = [] ∧ (∀ k, (s.task k).st = .free) ∧ s.bat.queue = [] ∧ s.bat.cur = none ∧
   s.spin.dma = [] ∧ (∀ d, d < 8 → s.domOn d = false) ∧ (∀ p, p < 512 →
     s.flag (portCfg p) Fld.selvPortCfgEnable = false) ∧
   (∀ q, q < 10240 → s.le (0x31800000 + 16 * q) 8 / 2 ^ 44 % 16 = 7) ∧ s.pending = []) ∧
  (State.reset.bat.hstage.length ≤ 256 ∧ State.reset.pending = [] ∧ Memory.wf State.reset.mem = true)

/-- No command puts a command into the queue, or takes one out: a step takes exactly the command it runs. -/
def Obligations.QueueUntouched : Prop :=
  (∀ (c : Instr) (s t : State), exec c s = .next t → t.pending = s.pending) ∧
  ∀ (s t : State), step s = .next t → t.pending = s.pending.tail

/-- R89, R103: the host's stage list holds at most 256 entries, whatever command runs. -/
def Obligations.HostListBounded : Prop :=
  ∀ (s t : State), s.bat.hstage.length ≤ 256 → step s = .next t → t.bat.hstage.length ≤ 256

/-- Memory keeps its one canonical form, whatever command runs: addresses rise, and no byte is listed that an unlisted
address reads as, so that equal memories are equal data. Beside the rules it rests on the readings and choices of log
entry 89. -/
def Obligations.MemoryStaysCanonical : Prop :=
  ∀ (s t : State), Memory.wf s.mem = true → step s = .next t → Memory.wf t.mem = true

/-- R465, R528: once the Tension has tripped, no command but the reset or the loss of power undoes it. -/
def Obligations.TripLatches : Prop :=
  ∀ (s t : State), s.tension.tripped = true → step s = .next t →
    t.tension.tripped = true ∨ s.pending.head? = some .resetAssert ∨ s.pending.head? = some .powerOff ∨
      s.pending.head? = some .powerOn
end

