-- ==== Sys2Proof/Laws/Bits.lean ====
section
/-! SUPPORT. Laws of register fields. -/

namespace Sys2Proof

theorem Fld.mask_getLsbD (f : Fld) (i : Nat) :
    f.mask.getLsbD i = (decide (i < 64) && decide (f.lo ≤ i) && decide (i < f.lo + (f.hi + 1 - f.lo))) := by
  unfold Fld.mask
  rw [BitVec.getLsbD_ofNat, Nat.testBit_shiftLeft, Nat.testBit_two_pow_sub_one]
  grind

theorem Fld.get_testBit (f : Fld) (w : Word) (i : Nat) :
    (f.get w).testBit i = (decide (i < f.hi + 1 - f.lo) && w.getLsbD (f.lo + i)) := by
  unfold Fld.get bitsOf
  rw [Nat.testBit_mod_two_pow, Nat.testBit_shiftRight, BitVec.testBit_toNat]

theorem Fld.put_getLsbD (f : Fld) (w : Word) (v i : Nat) :
    (f.put w v).getLsbD i =
      if i < 64 ∧ f.lo ≤ i ∧ i < f.lo + (f.hi + 1 - f.lo) then v.testBit (i - f.lo) else w.getLsbD i := by
  unfold Fld.put
  by_cases h : i < 64
  · simp only [BitVec.getLsbD_or, BitVec.getLsbD_and, BitVec.getLsbD_not, Fld.mask_getLsbD, BitVec.getLsbD_ofNat,
      Nat.testBit_shiftLeft]
    grind
  · have h1 : ∀ x : Word, x.getLsbD i = false := fun x => BitVec.getLsbD_of_ge x i (by omega)
    simp [h1, h]

/-- A field reads as it was written, modulo its size. -/
theorem Fld.get_put (f : Fld) (w : Word) (v : Nat) (h : f.hi < 64) :
    f.get (f.put w v) = v % 2 ^ (f.hi + 1 - f.lo) := by
  apply Nat.eq_of_testBit_eq
  intro i
  rw [Fld.get_testBit, Fld.put_getLsbD, Nat.testBit_mod_two_pow]
  grind

/-- Another field keeps its value. -/
theorem Fld.get_put_other (f g : Fld) (w : Word) (v : Nat) (h : g.hi < f.lo ∨ f.hi < g.lo) :
    g.get (f.put w v) = g.get w := by
  apply Nat.eq_of_testBit_eq
  intro i
  rw [Fld.get_testBit, Fld.get_testBit, Fld.put_getLsbD]
  grind

theorem Fld.get_lt (f : Fld) (w : Word) : f.get w < 2 ^ (f.hi + 1 - f.lo) := Nat.mod_lt _ (Nat.two_pow_pos _)

@[simp] theorem length_toLE (k n : Nat) : (toLE k n).length = k := by simp [toLE]

@[simp] theorem length_updAt {α : Type} (f : α → α) (n : Nat) (l : List α) : (updAt f n l).length = l.length := by
  induction l generalizing n with
  | nil => simp [updAt]
  | cons x xs ih => cases n <;> simp [updAt, ih]

/-- An entry of a list after one of them changed. -/
theorem getD_updAt {α : Type} (f : α → α) (n i : Nat) (l : List α) (d : α) :
    (updAt f n l).getD i d = if i = n ∧ n < l.length then f (l.getD i d) else l.getD i d := by
  induction l generalizing n i with
  | nil => simp [updAt]
  | cons x xs ih =>
    cases n with
    | zero => cases i <;> simp [updAt]
    | succ n =>
      cases i with
      | zero => simp [updAt]
      | succ i => simp only [updAt, List.getD_cons_succ, ih, List.length_cons]; grind

/-- An entry of a table of fixed size after one of its entries changed. -/
theorem vget_vupd {α : Type} {n : Nat} (f : α → α) (i j : Nat) (v : Vector α n) (d : α) :
    vget (vupd f i v) j d = if j = i ∧ i < n then f (vget v j d) else vget v j d := by
  unfold vget vupd
  split
  · rename_i h
    simp only [Vector.getElem?_set]
    split
    · subst_vars; simp [h]
    · rename_i h1; simp [Ne.symm h1]
  · rename_i h; simp [h]

@[simp] theorem vget_vupd_same {α : Type} {n : Nat} (f : α → α) (i : Nat) (v : Vector α n) (d : α) (h : i < n) :
    vget (vupd f i v) i d = f (vget v i d) := by simp [vget_vupd, h]

theorem vget_vupd_other {α : Type} {n : Nat} (f : α → α) (i j : Nat) (v : Vector α n) (d : α) (h : j ≠ i) :
    vget (vupd f i v) j d = vget v j d := by simp [vget_vupd, h]

end Sys2Proof
end

