-- ==== Sys2Proof/Laws/Tbl.lean ====
section
/-! SUPPORT. Laws of sparse tables: a read after a write, and the canonical form. -/

namespace Sys2Proof

variable {α : Type}

@[simp] theorem Tbl.get_nil (d : Nat → α) (k : Nat) : Tbl.get d [] k = d k := rfl

theorem Tbl.get_insert (d : Nat → α) (m : Tbl α) (k : Nat) (v : α) (j : Nat) :
    Tbl.get d (Tbl.insert k v m) j = if j = k then v else Tbl.get d m j := by
  induction m with
  | nil => simp only [Tbl.insert, Tbl.get, eq_comm (a := k)]
  | cons e m ih =>
    obtain ⟨i, w⟩ := e
    simp only [Tbl.insert]
    split
    · simp only [Tbl.get, eq_comm (a := k)]
    · split
      · rename_i h; subst h
        simp only [Tbl.get]
        grind
      · simp only [Tbl.get, ih]
        grind

theorem Tbl.get_erase (d : Nat → α) (m : Tbl α) (k j : Nat) :
    Tbl.get d (Tbl.erase k m) j = if j = k then d k else Tbl.get d m j := by
  induction m with
  | nil => simp only [Tbl.erase, Tbl.get]; grind
  | cons e m ih =>
    obtain ⟨i, w⟩ := e
    simp only [Tbl.erase]
    split
    · rw [ih]; simp only [Tbl.get]; grind
    · simp only [Tbl.get, ih]; grind

/-- A read after a write. -/
theorem Tbl.get_set [DecidableEq α] (d : Nat → α) (m : Tbl α) (k : Nat) (v : α) (j : Nat) :
    Tbl.get d (Tbl.set d m k v) j = if j = k then v else Tbl.get d m j := by
  unfold Tbl.set
  split
  · rename_i h; subst h; exact Tbl.get_erase d m k j
  · exact Tbl.get_insert d m k v j

@[simp] theorem Tbl.get_set_same [DecidableEq α] (d : Nat → α) (m : Tbl α) (k : Nat) (v : α) :
    Tbl.get d (Tbl.set d m k v) k = v := by simp [Tbl.get_set]

theorem Tbl.get_set_other [DecidableEq α] (d : Nat → α) (m : Tbl α) {k j : Nat} (v : α) (h : j ≠ k) :
    Tbl.get d (Tbl.set d m k v) j = Tbl.get d m j := by simp [Tbl.get_set, h]

/-! ## The canonical form -/

theorem Tbl.wfFrom_mono [DecidableEq α] {d : Nat → α} {m : Tbl α} {lo lo' : Nat} (h : lo' ≤ lo)
    (hm : Tbl.wfFrom d lo m = true) : Tbl.wfFrom d lo' m = true := by
  cases m with
  | nil => rfl
  | cons e m =>
    simp only [Tbl.wfFrom, Bool.and_eq_true, decide_eq_true_eq] at hm ⊢
    exact ⟨⟨by omega, hm.1.2⟩, hm.2⟩

theorem Tbl.wfFrom_erase [DecidableEq α] {d : Nat → α} (k : Nat) {m : Tbl α} {lo : Nat}
    (hm : Tbl.wfFrom d lo m = true) : Tbl.wfFrom d lo (Tbl.erase k m) = true := by
  induction m generalizing lo with
  | nil => rfl
  | cons e m ih =>
    simp only [Tbl.wfFrom, Bool.and_eq_true, decide_eq_true_eq] at hm
    simp only [Tbl.erase]
    split
    · exact Tbl.wfFrom_mono (by omega) (ih hm.2)
    · simp only [Tbl.wfFrom, Bool.and_eq_true, decide_eq_true_eq]
      exact ⟨hm.1, ih hm.2⟩

theorem Tbl.wfFrom_insert [DecidableEq α] {d : Nat → α} {k : Nat} {v : α} (hv : v ≠ d k) {m : Tbl α} {lo : Nat}
    (hk : lo ≤ k) (hm : Tbl.wfFrom d lo m = true) : Tbl.wfFrom d lo (Tbl.insert k v m) = true := by
  induction m generalizing lo with
  | nil => simp [Tbl.insert, Tbl.wfFrom, hv, hk]
  | cons e m ih =>
    obtain ⟨j, w⟩ := e
    simp only [Tbl.wfFrom, Bool.and_eq_true, decide_eq_true_eq] at hm
    simp only [Tbl.insert]
    split
    · simp only [Tbl.wfFrom, Bool.and_eq_true, decide_eq_true_eq]
      exact ⟨⟨hk, hv⟩, ⟨by omega, hm.1.2⟩, hm.2⟩
    · split
      · rename_i h; subst h
        simp only [Tbl.wfFrom, Bool.and_eq_true, decide_eq_true_eq]
        exact ⟨⟨hk, hv⟩, hm.2⟩
      · simp only [Tbl.wfFrom, Bool.and_eq_true, decide_eq_true_eq]
        exact ⟨hm.1, ih (by omega) hm.2⟩

/-- A write keeps the canonical form. -/
theorem Tbl.wf_set [DecidableEq α] {d : Nat → α} {m : Tbl α} (k : Nat) (v : α) (hm : Tbl.wf d m = true) :
    Tbl.wf d (Tbl.set d m k v) = true := by
  unfold Tbl.set
  split
  · exact Tbl.wfFrom_erase k hm
  · exact Tbl.wfFrom_insert (by assumption) (Nat.zero_le k) hm

theorem Tbl.wfFrom_filter [DecidableEq α] {d : Nat → α} (p : Nat × α → Bool) {m : Tbl α} {lo : Nat}
    (hm : Tbl.wfFrom d lo m = true) : Tbl.wfFrom d lo (m.filter p) = true := by
  induction m generalizing lo with
  | nil => rfl
  | cons e m ih =>
    simp only [Tbl.wfFrom, Bool.and_eq_true, decide_eq_true_eq] at hm
    rw [List.filter_cons]
    split
    · simp only [Tbl.wfFrom, Bool.and_eq_true, decide_eq_true_eq]
      exact ⟨hm.1, ih hm.2⟩
    · exact Tbl.wfFrom_mono (by omega) (ih hm.2)

/-- Dropping entries keeps the canonical form. -/
theorem Tbl.wf_filter [DecidableEq α] {d : Nat → α} (p : Nat × α → Bool) {m : Tbl α} (hm : Tbl.wf d m = true) :
    Tbl.wf d (m.filter p) = true := Tbl.wfFrom_filter p hm

theorem Tbl.get_wfFrom_lt [DecidableEq α] {d : Nat → α} {m : Tbl α} {lo k : Nat} (hm : Tbl.wfFrom d lo m = true)
    (hk : k < lo) : Tbl.get d m k = d k := by
  induction m generalizing lo with
  | nil => rfl
  | cons e m ih =>
    obtain ⟨j, w⟩ := e
    simp only [Tbl.wfFrom, Bool.and_eq_true, decide_eq_true_eq] at hm
    have : j ≠ k := by omega
    simp only [Tbl.get, this, if_false]
    exact ih hm.2 (by omega)

theorem Tbl.wfFrom_ext [DecidableEq α] {d : Nat → α} {m n : Tbl α} {lo : Nat} (hm : Tbl.wfFrom d lo m = true)
    (hn : Tbl.wfFrom d lo n = true) (h : ∀ k, Tbl.get d m k = Tbl.get d n k) : m = n := by
  induction m generalizing lo n with
  | nil =>
    cases n with
    | nil => rfl
    | cons e n =>
      obtain ⟨j, w⟩ := e
      simp only [Tbl.wfFrom, Bool.and_eq_true, decide_eq_true_eq] at hn
      have := h j
      simp [Tbl.get] at this
      exact absurd this.symm hn.1.2
  | cons e m ih =>
    obtain ⟨j, w⟩ := e
    simp only [Tbl.wfFrom, Bool.and_eq_true, decide_eq_true_eq] at hm
    cases n with
    | nil =>
      have := h j
      simp [Tbl.get] at this
      exact absurd this hm.1.2
    | cons f n =>
      obtain ⟨i, v⟩ := f
      simp only [Tbl.wfFrom, Bool.and_eq_true, decide_eq_true_eq] at hn
      have hij : j = i := by
        rcases Nat.lt_trichotomy j i with hlt | heq | hgt
        · have := h j
          simp only [Tbl.get, if_true, show i ≠ j by omega, if_false, Tbl.get_wfFrom_lt hn.2 (show j < i + 1 by omega)] at this
          exact absurd this hm.1.2
        · exact heq
        · have := h i
          simp only [Tbl.get, if_true, show j ≠ i by omega, if_false, Tbl.get_wfFrom_lt hm.2 (show i < j + 1 by omega)] at this
          exact absurd this.symm hn.1.2
      subst hij
      have hv : w = v := by simpa [Tbl.get] using h j
      subst hv
      congr 1
      apply ih hm.2 hn.2
      intro k
      by_cases hk : j = k
      · subst hk
        rw [Tbl.get_wfFrom_lt hm.2 (by omega), Tbl.get_wfFrom_lt hn.2 (by omega)]
      · simpa [Tbl.get, hk] using h k

/-- Canonical tables that read alike are the same data. -/
theorem Tbl.wf_ext [DecidableEq α] {d : Nat → α} {m n : Tbl α} (hm : Tbl.wf d m = true) (hn : Tbl.wf d n = true)
    (h : ∀ k, Tbl.get d m k = Tbl.get d n k) : m = n := Tbl.wfFrom_ext hm hn h

end Sys2Proof
end

