-- ==== Sys2Proof/Laws/Alike.lean ====
section
/-! SUPPORT. States that agree but for measurement: what counts and samples keeps the rest, and what an
instruction of a thread or of a draft does once its own effect is known. -/

namespace Sys2Proof.Machine

theorem State.rd_wr (s : State) (a b : Nat) (w : Word) : (s.wr a w).rd b = if b = a then w else s.rd b :=
  Tbl.get_set regReset s.regs a w b

@[simp] theorem State.rd_wr_same (s : State) (a : Nat) (w : Word) : (s.wr a w).rd a = w := by simp [State.rd_wr]

theorem State.rd_wr_other (s : State) {a b : Nat} (w : Word) (h : b ≠ a) : (s.wr a w).rd b = s.rd b := by
  simp [State.rd_wr, h]

@[simp] theorem State.wr_bare (s : State) (a : Nat) (w : Word) : (s.wr a w).bare = s.bare := rfl
@[simp] theorem State.setF_bare (s : State) (a : Nat) (f : Fld) (v : Nat) : (s.setF a f v).bare = s.bare := rfl

theorem State.alike_refl (s : State) : s.alike s := ⟨rfl, fun _ _ => rfl⟩
theorem State.alike_trans {s t u : State} (h : s.alike t) (k : t.alike u) : s.alike u :=
  ⟨h.1.trans k.1, fun a ha => (h.2 a ha).trans (k.2 a ha)⟩

/-! ## What measures keeps the rest -/

theorem State.wr_alike (s : State) (a : Nat) (w : Word) (h : a ∈ measured) : (s.wr a w).alike s :=
  ⟨rfl, fun _ hb => State.rd_wr_other s w (fun e => hb (e ▸ h))⟩

theorem State.count_alike (s : State) (o k : Nat) : (s.count o k).alike s := ⟨rfl, fun _ _ => rfl⟩

/-- The record of an event counter's overflow bit is measurement. -/
theorem State.laterOvf_alike (s : State) (i : Nat) : (s.laterErr Reg.glassEvtOvf i 0).alike s := by
  refine ⟨?_, fun _ _ => rfl⟩
  have h : (EvDue.mk 1 (srcOf Reg.glassEvtOvf) (errPayload Reg.glassEvtOvf i 0)).measures = true := by
    simp [EvDue.measures, errPayload]
  unfold State.laterErr State.later State.bare
  dsimp only
  rw [List.filter_append]
  simp [h]

theorem State.evAdd_alike (s : State) (i k : Nat) : (s.evAdd i k).alike s := by
  unfold State.evAdd
  extract_lets off v g s1 off1
  have h1 : s1.alike s := ⟨rfl, fun _ _ => rfl⟩
  clear_value s1
  split
  · exact h1
  · split
    · split
      · exact State.alike_trans ⟨rfl, fun _ _ => rfl⟩ h1
      · exact h1
    · split
      · exact h1
      · exact State.alike_trans (State.laterOvf_alike _ _)
          (State.alike_trans (State.wr_alike _ _ _ (by decide)) h1)

theorem foldl_alike {α : Type} (g : State → α → State) (h : ∀ s a, (g s a).alike s) (l : List α) (s : State) :
    (l.foldl g s).alike s := by
  induction l generalizing s with
  | nil => exact State.alike_refl s
  | cons a l ih => exact State.alike_trans (ih _) (h s a)

theorem State.event_alike (s : State) (e : GEvent) : (s.event e).alike s := by
  unfold State.event
  refine foldl_alike _ (fun s a => ?_) _ _
  split
  · exact State.evAdd_alike _ _ _
  · exact State.alike_refl _

theorem State.draw_alike (s : State) : s.draw.2.alike s := ⟨rfl, fun _ _ => rfl⟩

theorem State.microcode_alike (s : State) (k : Nat) (x : Task) (op : Nat) (w : IWord) :
    (s.microcode k x op w).alike s := by
  unfold State.microcode
  extract_lets r sp s1
  have h1 : s1.alike s := ⟨rfl, fun _ _ => rfl⟩
  split
  · exact State.alike_trans (State.event_alike _ _) h1
  · exact h1

theorem State.countThread_alike (s : State) (k : Nat) (x : Task) (op : Nat) (w : IWord) :
    (s.countThread k x op w).alike s :=
  State.alike_trans (State.microcode_alike _ _ _ _ _) (State.event_alike _ _)

/-! ## Operations on states that are alike -/

theorem State.alike.task {t u : State} (h : t.alike u) (k : Nat) : t.task k = u.task k :=
  (show t.bare.task k = u.bare.task k by rw [h.1])

theorem State.alike.pkt {t u : State} (h : t.alike u) (p : Nat) : t.pkt? p = u.pkt? p :=
  (show t.bare.pkt? p = u.bare.pkt? p by rw [h.1])

theorem State.alike.now {t u : State} (h : t.alike u) : t.now = u.now :=
  (show t.bare.now = u.bare.now by rw [h.1])

theorem State.alike.setTask {t u : State} (h : t.alike u) (k : Nat) (x : Task) :
    (t.setTask k x).alike (u.setTask k x) :=
  ⟨congrArg (fun s : State => s.setTask k x) h.1, h.2⟩

theorem State.alike.updTask {t u : State} (h : t.alike u) (k : Nat) (f : Task → Task) :
    (t.updTask k f).alike (u.updTask k f) := by
  unfold State.updTask
  rw [h.task]
  exact h.setTask k _

theorem State.alike.noteWait {t u : State} (h : t.alike u) (k op : Nat) (w : IWord) :
    (t.noteWait k op w).alike (u.noteWait k op w) := by
  unfold State.noteWait
  rw [h.task]
  split
  · exact h.updTask k _
  · exact h

theorem State.alike.setPkt {t u : State} (h : t.alike u) (p : Nat) (x : Option Pkt) :
    (t.setPkt p x).alike (u.setPkt p x) :=
  ⟨congrArg (fun s : State => s.setPkt p x) h.1, h.2⟩

@[simp] theorem State.pkt_setPkt (s : State) (p : Nat) (x : Option Pkt) : (s.setPkt p x).pkt? p = x :=
  Tbl.get_set_same _ _ _ _

@[simp] theorem State.task_setTask (s : State) (k : Nat) (x : Task) : (s.setTask k x).task k = x :=
  Tbl.get_set_same _ _ _ _

theorem State.pkt_setPkt_other (s : State) (p : Nat) (x : Option Pkt) {q : Nat} (h : q ≠ p) :
    (s.setPkt p x).pkt? q = s.pkt? q := Tbl.get_set_other (Tbl.const none) s.pkts x h

theorem State.task_setTask_other (s : State) (k : Nat) (x : Task) {j : Nat} (h : j ≠ k) :
    (s.setTask k x).task j = s.task j := Tbl.get_set_other (Tbl.const Task.none) s.spin.task x h

theorem Tbl.insert_insert {α : Type} (m : Tbl α) (k : Nat) (v w : α) :
    Tbl.insert k w (Tbl.insert k v m) = Tbl.insert k w m := by
  induction m with
  | nil => simp [Tbl.insert]
  | cons e m ih =>
    obtain ⟨j, u⟩ := e
    simp only [Tbl.insert]
    split
    · simp [Tbl.insert]
    · split
      · simp [Tbl.insert]
      · simp_all [Tbl.insert]

/-- Writing twice at a key is writing once, where the first value is listed. -/
theorem Tbl.set_set {α : Type} [DecidableEq α] (d : Nat → α) (m : Tbl α) (k : Nat) (v w : α) (hv : v ≠ d k)
    (hw : w ≠ d k) : Tbl.set d (Tbl.set d m k v) k w = Tbl.set d m k w := by
  simp [Tbl.set, hv, hw, Tbl.insert_insert]

theorem State.setPkt_setPkt (s : State) (p : Nat) (x y : Pkt) :
    (s.setPkt p (some x)).setPkt p (some y) = s.setPkt p (some y) := by
  unfold State.setPkt
  rw [Tbl.set_set _ _ _ _ _ (by simp) (by simp)]

theorem State.setTask_setTask (s : State) (k : Nat) (x y : Task) (hx : x.st ≠ .free) (hy : y.st ≠ .free) :
    (s.setTask k x).setTask k y = s.setTask k y := by
  unfold State.setTask
  rw [Tbl.set_set _ _ _ _ _ (by intro h; exact hx (by rw [h]; rfl)) (by intro h; exact hy (by rw [h]; rfl))]

/-! ## Threads -/

@[simp] theorem Task.write_st (t : Task) (sp : BitVec 6) (v : Word) : (t.write sp v).st = t.st := by
  unfold Task.write; split <;> rfl

@[simp] theorem Task.step_st (t : Task) : t.step.st = t.st := rfl

/-- A thread that may run runs its instruction, and passes on where the instruction completes. -/
theorem runTask_done {k : TaskId} {f : Task → State → TaskRes} {s u : State} {op : Nat} {w : IWord} (h : s.threadRuns k)
    (hf : f (s.task k.val) s = .done u) :
    ∃ t, runTask k.val op w f s = .next t ∧ t.alike (u.updTask k.val Task.step) := by
  obtain ⟨h1, h2, h3, h4, h5⟩ := h
  refine ⟨(u.countThread k.val (s.task k.val) op w).updTask k.val Task.step, ?_, (State.countThread_alike u _ _ _ _).updTask _ _⟩
  unfold runTask
  simp [h1, h2, h3, h4, h5, hf]

/-- The same where the instruction keeps the thread at its word: what it is is kept while it waits. -/
theorem runTask_keep {k : TaskId} {f : Task → State → TaskRes} {s u : State} {op : Nat} {w : IWord} (h : s.threadRuns k)
    (hf : f (s.task k.val) s = .keep u) :
    ∃ t, runTask k.val op w f s = .next t ∧ t.alike (u.noteWait k.val op w) := by
  obtain ⟨h1, h2, h3, h4, h5⟩ := h
  refine ⟨(u.countThread k.val (s.task k.val) op w).noteWait k.val op w, ?_,
    (State.countThread_alike u _ _ _ _).noteWait _ _ _⟩
  unfold runTask
  simp [h1, h2, h3, h4, h5, hf]

/-- A branch that is taken to a word inside the program. -/
theorem runTask_jump {k : TaskId} {f : Task → State → TaskRes} {s u : State} {op : Nat} {w : IWord} {pc : Nat}
    (h : s.threadRuns k) (hf : f (s.task k.val) s = .jump u pc) (hp : s.inProgram k.val pc = true) :
    ∃ t, runTask k.val op w f s = .next t ∧
      t.alike (u.updTask k.val fun t => { t with pc := pc, loops := branchOut t.loops pc }) := by
  obtain ⟨h1, h2, h3, h4, h5⟩ := h
  refine ⟨(u.countThread k.val (s.task k.val) op w).updTask k.val _, ?_, (State.countThread_alike u _ _ _ _).updTask _ _⟩
  unfold runTask
  simp [h1, h2, h3, h4, h5, hf, hp]

/-- An instruction that threads may not execute stops its task. -/
theorem taskIllegal_runs {k : TaskId} {s : State} (h : s.threadRuns k) :
    taskIllegal k.val s = .next (s.illegalTask k.val) := by
  obtain ⟨h1, h2, h3, h4, h5⟩ := h
  unfold taskIllegal runTask
  simp [h1, h2, h3, h4, h5]

theorem taskPure_runs {k : TaskId} {g : Task → Task} {s : State} {op : Nat} {w : IWord} (h : s.threadRuns k)
    (hg : (g (s.task k.val)).st = .running) :
    ∃ t, taskPure k.val op w g s = .next t ∧ t.alike (s.setTask k.val (g (s.task k.val)).step) := by
  obtain ⟨t, e, a⟩ := runTask_done (f := fun t s => .done (s.setTask k.val (g t))) (op := op) (w := w) h rfl
  refine ⟨t, e, ?_⟩
  unfold State.updTask at a
  rw [State.task_setTask, State.setTask_setTask _ _ _ _ (by simp [hg]) (by simp [hg])] at a
  exact a

/-! ## Picks -/

theorem State.sampleTick_alike (s : State) (x : Pkt) (op addr : Nat) : (s.sampleTick x op addr).alike s := by
  unfold State.sampleTick
  extract_lets c g n period draws left r
  split
  · split
    rename_i l u hu
    have h1 : u.alike s := by
      unfold r at hu
      split at hu <;> cases hu
      · exact ⟨rfl, fun _ _ => rfl⟩
      · exact State.alike_refl _
    extract_lets gl u2 held
    have h2 : u2.alike s := State.alike_trans ⟨rfl, fun _ _ => rfl⟩ h1
    clear_value u2
    split
    · split
      · exact State.alike_trans ⟨rfl, fun _ _ => rfl⟩ h2
      · exact State.alike_trans (State.wr_alike _ _ _ (by decide)) h2
    · exact h2
  · exact State.alike_refl _

/-- What counts a completed instruction leaves the packet with one instruction more. -/
theorem State.countInstr_alike {s : State} {p : Nat} {x : Pkt} (h : s.pkt? p = some x) (op addr : Nat) :
    (s.countInstr p op addr).alike (s.setPkt p (some (x.ran s.now x.pick.pc))) := by
  unfold State.countInstr
  simp only [h]
  generalize hs : ((s.cntLoom x.loom 66).event _).sampleTick x op addr = s3
  have h3 : s3.alike s := by
    rw [← hs]
    exact State.alike_trans (State.sampleTick_alike _ _ _ _)
      (State.alike_trans (State.event_alike _ _) (State.count_alike _ _ _))
  clear hs
  simp only [State.updPkt, h3.pkt, h, h3.now]
  exact h3.setPkt _ _

theorem State.alike.halted {t u : State} (h : t.alike u) : t.halted = u.halted :=
  (show t.bare.halted = u.bare.halted by rw [h.1])

theorem State.bare_ple (s : State) (seq : BitVec 32) (a n : Nat) : s.bare.ple seq a n = s.ple seq a n := by
  unfold State.ple
  congr 1
  induction n generalizing a with
  | zero => rfl
  | succ n ih => simp only [State.pbytes, ih]; rfl

theorem State.alike.draftLen {t u : State} (h : t.alike u) (seq : BitVec 32) (b : Bool) :
    t.draftLen seq b = u.draftLen seq b := by
  unfold State.draftLen
  rw [← State.bare_ple t, h.1, State.bare_ple]

theorem State.setPkt_ple (s : State) (p : Nat) (x : Option Pkt) (seq : BitVec 32) (a n : Nat) :
    (s.setPkt p x).ple seq a n = s.ple seq a n := by
  unfold State.ple
  congr 1
  induction n generalizing a with
  | zero => rfl
  | succ n ih => simp only [State.pbytes, ih]; rfl

theorem State.setPkt_draftLen (s : State) (p : Nat) (x : Option Pkt) (seq : BitVec 32) (b : Bool) :
    (s.setPkt p x).draftLen seq b = s.draftLen seq b := by
  unfold State.draftLen
  rw [State.setPkt_ple]

/-- An instruction of the pick of `y` completes, and the next word lies inside the draft. -/
theorem State.nextPick_inside {u : State} {p : Nat} {y : Pkt} (hy : u.pkt? p = some y) (hl : u.pickGoesOn y)
    (op addr : Nat) :
    ∃ t, u.nextPick p op addr = .ok t ∧ t.alike (u.setPkt p (some (y.ran u.now (y.pick.pc + 1)))) := by
  have hc := State.countInstr_alike hy op addr
  have hp := hc.pkt p
  rw [State.pkt_setPkt] at hp
  have hd := hc.draftLen y.pick.seq y.pick.bank
  rw [State.setPkt_draftLen] at hd
  refine ⟨(u.countInstr p op addr).setPkt p (some (y.ran u.now (y.pick.pc + 1))), ?_, ?_⟩
  · unfold State.nextPick State.goPick
    simp only [hy, hp, Pkt.ran, hd]
    rw [if_neg (Nat.not_le.mpr hl)]
  · have := hc.setPkt p (some (y.ran u.now (y.pick.pc + 1)))
    rw [State.setPkt_setPkt] at this
    exact this

/-- A pick that may run runs its instruction, and passes on where the instruction completes. -/
theorem runPick_done {p op addr : Nat} {f : Pkt → State → PickRes} {s u : State} {x y : Pkt} (h : s.pickRuns p x)
    (hf : f x s = .done u addr) (hy : u.pkt? p = some y) (hl : u.pickGoesOn y) :
    ∃ t, runPick p op f s = .next t ∧ t.alike (u.setPkt p (some (y.ran u.now (y.pick.pc + 1)))) := by
  obtain ⟨h1, h2, h3, h4, h5⟩ := h
  obtain ⟨t, ht, ha⟩ := State.nextPick_inside hy hl op addr
  refine ⟨t, ?_, ha⟩
  unfold runPick
  simp [h1, h2, h3, h4, hf, Nat.not_le.mpr h5, ht, toOut]

/-- An instruction of the pick of `y` on its draft's last word ends the pick. -/
theorem State.nextPick_outside {u : State} {p : Nat} {y : Pkt} (hy : u.pkt? p = some y) (hl : ¬ u.pickGoesOn y)
    (op addr : Nat) :
    ∃ v : State, u.nextPick p op addr = v.endPick p ∧ v.alike (u.setPkt p (some (y.ran u.now y.pick.pc))) := by
  have hc := State.countInstr_alike hy op addr
  have hp := hc.pkt p
  rw [State.pkt_setPkt] at hp
  have hd := hc.draftLen y.pick.seq y.pick.bank
  rw [State.setPkt_draftLen] at hd
  refine ⟨u.countInstr p op addr, ?_, hc⟩
  unfold State.nextPick State.goPick
  simp only [hy, hp, Pkt.ran, hd]
  rw [if_pos (Nat.not_lt.mp hl)]

/-- A pick that may run runs its instruction, and ends where that completes on the draft's last word. -/
theorem runPick_last {p op addr : Nat} {f : Pkt → State → PickRes} {s u : State} {x y : Pkt} (h : s.pickRuns p x)
    (hf : f x s = .done u addr) (hy : u.pkt? p = some y) (hl : ¬ u.pickGoesOn y) :
    ∃ v : State, runPick p op f s = toOut (v.endPick p) ∧ v.alike (u.setPkt p (some (y.ran u.now y.pick.pc))) := by
  obtain ⟨h1, h2, h3, h4, h5⟩ := h
  obtain ⟨v, hv, ha⟩ := State.nextPick_outside hy hl op addr
  refine ⟨v, ?_, ha⟩
  unfold runPick
  simp [h1, h2, h3, h4, hf, Nat.not_le.mpr h5, hv]

/-- A taken branch: ahead to a word inside the draft. -/
theorem runPick_jump {p op : Nat} {f : Pkt → State → PickRes} {s : State} {x : Pkt} {d : Int} (h : s.pickRuns p x)
    (hf : f x s = .jump s d) (hd : 0 < d) (hl : x.pick.pc + d.toNat < s.draftLen x.pick.seq x.pick.bank) :
    ∃ t, runPick p op f s = .next t ∧ t.alike (s.setPkt p (some (x.ran s.now (x.pick.pc + d.toNat)))) := by
  obtain ⟨h1, h2, h3, h4, h5⟩ := h
  have hc := State.countInstr_alike h1 op 0
  have hp := hc.pkt p
  rw [State.pkt_setPkt] at hp
  have hn := hc.draftLen x.pick.seq x.pick.bank
  rw [State.setPkt_draftLen] at hn
  refine ⟨(s.countInstr p op 0).setPkt p (some (x.ran s.now (x.pick.pc + d.toNat))), ?_, ?_⟩
  · unfold runPick
    simp only [h1, h2, h3, h4, hf, ne_eq, not_true_eq_false, Bool.false_eq_true, or_self, if_false, if_neg (Nat.not_le.mpr h5),
      if_neg (Int.not_le.mpr hd)]
    unfold State.goPick
    simp only [hp, Pkt.ran, hn, if_neg (Nat.not_le.mpr hl), toOut]
  · have := hc.setPkt p (some (x.ran s.now (x.pick.pc + d.toNat)))
    rw [State.setPkt_setPkt] at this
    exact this

/-- A taken branch that does not go ahead ends the pick with DROP BUDGET. -/
theorem runPick_back {p op : Nat} {f : Pkt → State → PickRes} {s : State} {x : Pkt} {d : Int} (h : s.pickRuns p x)
    (hf : f x s = .jump s d) (hd : d ≤ 0) : runPick p op f s = toOut (s.endPickDrop p 48) := by
  obtain ⟨h1, h2, h3, h4, h5⟩ := h
  unfold runPick
  simp only [h1, h2, h3, h4, hf, ne_eq, not_true_eq_false, Bool.false_eq_true, or_self, if_false, if_neg (Nat.not_le.mpr h5),
    if_pos hd]

theorem pickPure_runs {p op : Nat} {g : Pkt → Pkt} {s : State} {x : Pkt} (h : s.pickRuns p x)
    (hl : s.pickGoesOn (g x)) :
    ∃ t, pickPure p op g s = .next t ∧ t.alike (s.setPkt p (some ((g x).ran s.now ((g x).pick.pc + 1)))) := by
  obtain ⟨t, e, a⟩ := runPick_done (op := op) (f := fun x s => .done (s.setPkt p (some (g x))) 0) h rfl
    (State.pkt_setPkt _ _ _) (by unfold State.pickGoesOn at *; rw [State.setPkt_draftLen]; exact hl)
  refine ⟨t, e, ?_⟩
  rw [State.setPkt_setPkt] at a
  exact a

/-- An instruction that drafts may not execute ends the pick with DROP ILLEGAL. -/
theorem pickIllegal_runs {p op : Nat} {s : State} {x : Pkt} (h : s.pickRuns p x) :
    pickIllegal p op s = toOut (s.endPickDrop p 50) := by
  obtain ⟨h1, h2, h3, h4, h5⟩ := h
  unfold pickIllegal runPick
  simp [h1, h2, h3, h4, Nat.not_le.mpr h5]

@[simp] theorem Pkt.write_pc (x : Pkt) (sp : BitVec 6) (v : Word) : (x.write sp v).pick.pc = x.pick.pc := by
  unfold Pkt.write; grind
@[simp] theorem Pkt.write_seq (x : Pkt) (sp : BitVec 6) (v : Word) : (x.write sp v).pick.seq = x.pick.seq := by
  unfold Pkt.write; grind
@[simp] theorem Pkt.write_bank (x : Pkt) (sp : BitVec 6) (v : Word) : (x.write sp v).pick.bank = x.pick.bank := by
  unfold Pkt.write; grind

end Sys2Proof.Machine
end

