-- ==== Sys2Proof/Laws/Kept.lean ====
section
/-! SUPPORT. What a command leaves alone that no register holds: the queue of waiting commands, the latch of the
thermal trip (R465), and the bound of the host's batten list (R89). The three are one value, `State.kept`, so
that one lemma a definition says it of all three. -/

namespace Sys2Proof.Machine

/-- The queue, the trip latch, and whether the host's batten list has at most 256 entries. -/
structure Kept where
  pending : List Instr
  tripped : Bool
  hok : Bool

/-- What `s` holds of these. -/
def State.kept (s : State) : Kept := 
  ⟨s.pending, s.tension.tripped, decide (s.bat.hstage.length ≤ 256)⟩

@[simp] theorem State.kept_mk (a b c d e f g i j k l m n o p q r u v w x y z a1 b1 c1) :
    (State.mk a b c d e f g i j k l m n o p q r u v w x y z a1 b1 c1).kept =
      ⟨a, y.tripped, decide (l.hstage.length ≤ 256)⟩ := rfl

theorem State.kept_eta (s : State) :
    (⟨s.pending, s.tension.tripped, decide (s.bat.hstage.length ≤ 256)⟩ : Kept) = s.kept := rfl

theorem State.kept_pending (s : State) : s.pending = s.kept.pending := rfl
theorem State.kept_tripped (s : State) : s.tension.tripped = s.kept.tripped := rfl
theorem State.kept_hok (s : State) : s.bat.hstage.length ≤ 256 ↔ s.kept.hok = true := by simp [State.kept]

theorem foldl_kept {α : Type} (g : State → α → State) (h : ∀ s a, (g s a).kept = s.kept) (l : List α) (s : State) :
    (l.foldl g s).kept = s.kept := by
  induction l generalizing s with
  | nil => rfl
  | cons a l ih => rw [List.foldl_cons, ih, h]

theorem foldl_kept_fst {α β : Type} (g : State × β → α → State × β) (h : ∀ s a, (g s a).1.kept = s.1.kept)
    (l : List α) (s : State × β) : (l.foldl g s).1.kept = s.1.kept := by
  induction l generalizing s with
  | nil => rfl
  | cons a l ih => rw [List.foldl_cons, ih, h]

/-- The state an answer carries. -/
def PickRes.state? : PickRes → Option State
  | .wait s => some s
  | .done s _ => some s
  | .jump s _ => some s
  | .stop s => some s
  | .illegal => none
  | .undef _ => none

/-- The state an answer carries. -/
def TaskRes.state? : TaskRes → Option State
  | .done s => some s
  | .jump s _ => some s
  | .keep s => some s
  | .hold s => some s
  | .illegal => none
  | .undef _ => none

/-- The state an answer carries. -/
def Looked.state? : Looked → Option State
  | .held _ s => some s
  | .none_ s => some s
  | .waits s => some s

/-- The state an answer carries. -/
def PatchRes.state? : PatchRes → Option State
  | .begun s => some s
  | _ => none

@[simp] theorem toOut_ok {r : Except Fault State} {t : State} : toOut r = .next t ↔ r = .ok t := by
  cases r <;> simp [toOut]
@[simp] theorem ub_ne (n : Nat) (t : State) : ub n ≠ .next t := by simp [ub]
/-- What an event answers at a stand, or else. -/
theorem unlessHalted_cases {s t : State} {o : Out} (h : unlessHalted s o = .next t) : t = s ∨ o = .next t := by
  unfold unlessHalted at h
  split at h
  · cases h; exact .inl rfl
  · exact .inr h
/-- The same under reset. -/
theorem unlessReset_cases {s t : State} {o : Out} (h : unlessReset s o = .next t) : t = s ∨ o = .next t := by
  unfold unlessReset at h
  split at h
  · cases h; exact .inl rfl
  · exact .inr h
/-- The same of a write by the host. -/
theorem unlessBlocked_cases {s t : State} {a : Nat} {o : Out} (h : unlessBlocked s a o = .next t) : t = s ∨ o = .next t := by
  unfold unlessBlocked at h
  split at h
  · exact .inr h
  · cases h; exact .inl rfl
/-- An event that keeps `kept` when it acts keeps it. -/
theorem unlessHalted_kept {s t : State} {o : Out} (h : unlessHalted s o = .next t)
    (ho : o = .next t → t.kept = s.kept) : t.kept = s.kept := by
  obtain rfl | h := unlessHalted_cases h
  · rfl
  · exact ho h
/-- The same under reset. -/
theorem unlessReset_kept {s t : State} {o : Out} (h : unlessReset s o = .next t)
    (ho : o = .next t → t.kept = s.kept) : t.kept = s.kept := by
  obtain rfl | h := unlessReset_cases h
  · rfl
  · exact ho h
/-- The same of a write by the host. -/
theorem unlessBlocked_kept {s t : State} {a : Nat} {o : Out} (h : unlessBlocked s a o = .next t)
    (ho : o = .next t → t.kept = s.kept) : t.kept = s.kept := by
  obtain rfl | h := unlessBlocked_cases h
  · rfl
  · exact ho h
/-- What a plain write of a register answers is what the write does, or, at a stand, nothing. -/
theorem State.byWrite_kept {s t : State} {a : Nat} {r : Except Fault State} (h : s.byWrite a r = .next t)
    (hr : r = .ok t → t.kept = s.kept) : t.kept = s.kept := by
  unfold State.byWrite at h
  refine unlessHalted_kept h fun h => ?_
  split at h
  · exact absurd h (ub_ne _ _)
  · exact hr (toOut_ok.1 h)

end Sys2Proof.Machine
end

