-- ==== Sys2Proof/Laws/KeptOps.lean ====
section
/-! SUPPORT. Registers, memory, events, the pick and task drivers:
what each definition keeps of the queue, the trip latch and the bound of the host's batten list
(Laws/Kept.lean). One lemma a definition, so that no proof unfolds one again. -/

namespace Sys2Proof.Machine

@[simp] theorem State.wr_kept (s : State) (a : Nat) (w : Word) :
    (State.wr s a w).kept = s.kept := by
  simp only [State.wr, State.kept_mk]
  with_reducible exact State.kept_eta _

@[simp] theorem State.setF_kept (s : State) (a : Nat) (f : Fld) (v : Nat) :
    (State.setF s a f v).kept = s.kept := by
  simp only [State.setF, State.wr_kept]

@[simp] theorem State.incF_kept (s : State) (a : Nat) (f : Fld) (k : Nat) :
    (State.incF s a f k).kept = s.kept := by
  simp only [State.incF, State.setF_kept]

@[simp] theorem State.satF_kept (s : State) (a : Nat) (f : Fld) :
    (State.satF s a f).kept = s.kept := by
  simp only [State.satF, State.setF_kept]

@[simp] theorem State.setBit_kept (s : State) (a : Nat) (bit : Nat) :
    (State.setBit s a bit).kept = s.kept := by
  simp only [State.setBit, State.wr_kept]

@[simp] theorem State.setByte_kept (s : State) (a : Nat) (b : Byte) :
    (State.setByte s a b).kept = s.kept := by
  simp only [State.setByte, State.kept_mk]
  with_reducible exact State.kept_eta _

@[simp] theorem State.setBytes_kept (s : State) (a : Nat) (x2 : List Byte) :
    (State.setBytes s a x2).kept = s.kept := by
  induction x2 generalizing s a with
  | nil => rfl
  | cons b bs ih => rw [State.setBytes, ih, State.setByte_kept]

@[simp] theorem State.setLe_kept (s : State) (a : Nat) (n : Nat) (v : Nat) :
    (State.setLe s a n v).kept = s.kept := by
  simp only [State.setLe, State.setBytes_kept]

@[simp] theorem State.mendLost_kept (s : State) (a : Nat) (n : Nat) :
    (State.mendLost s a n).kept = s.kept := by
  simp only [State.mendLost, State.kept_mk]
  with_reducible exact State.kept_eta _

@[simp] theorem State.draw_kept (s : State) :
    (State.draw s).2.kept = s.kept := by
  simp only [State.draw, State.kept_mk]
  with_reducible exact State.kept_eta _

@[simp] theorem State.updDom_kept (s : State) (d : Nat) (f : DomSt → DomSt) :
    (State.updDom s d f).kept = s.kept := by
  simp only [State.updDom, State.kept_mk]
  with_reducible exact State.kept_eta _

@[simp] theorem State.count_kept (s : State) (off : Nat) (k : Nat) :
    (State.count s off k).kept = s.kept := by
  simp only [State.count, State.kept_mk]
  with_reducible exact State.kept_eta _

@[simp] theorem State.cntPort_kept (s : State) (p : Nat) (j : Nat) (k : Nat) :
    (State.cntPort s p j k).kept = s.kept := by
  simp only [State.cntPort, State.count_kept]

@[simp] theorem State.cntQueue_kept (s : State) (i : Nat) (r : Nat) (k : Nat) :
    (State.cntQueue s i r k).kept = s.kept := by
  simp only [State.cntQueue, State.count_kept]

@[simp] theorem State.cntLoom_kept (s : State) (n : Nat) (j : Nat) (k : Nat) :
    (State.cntLoom s n j k).kept = s.kept := by
  simp only [State.cntLoom, State.count_kept]

@[simp] theorem State.cntShared_kept (s : State) (j : Nat) (k : Nat) :
    (State.cntShared s j k).kept = s.kept := by
  simp only [State.cntShared, State.count_kept]

@[simp] theorem State.later_kept (s : State) (typ : Nat) (src : Nat) (payload : List Byte) :
    (State.later s typ src payload).kept = s.kept := by
  simp only [State.later, State.kept_mk]
  with_reducible exact State.kept_eta _

@[simp] theorem State.laterErr_kept (s : State) (a : Nat) (bit : Nat) (info : Nat) :
    (State.laterErr s a bit info).kept = s.kept := by rw [State.laterErr, State.later_kept]

@[simp] theorem State.laterMasked_kept (s : State) (mech : Nat) (src : Nat) (unit_ : Nat) (loss : Nat) :
    (State.laterMasked s mech src unit_ loss).kept = s.kept := by rw [State.laterMasked, State.later_kept]

@[simp] theorem State.setPkt_kept (s : State) (p : Nat) (x : Option Pkt) :
    (State.setPkt s p x).kept = s.kept := by
  simp only [State.setPkt, State.kept_mk]
  with_reducible exact State.kept_eta _

@[simp] theorem State.updPkt_kept (s : State) (p : Nat) (f : Pkt → Pkt) :
    (State.updPkt s p f).kept = s.kept := by
  simp only [State.updPkt]
  repeat' split
  all_goals (try simp only [State.setPkt_kept])

@[simp] theorem State.updChan_kept (s : State) (c : Nat) (f : Chan → Chan) :
    (State.updChan s c f).kept = s.kept := by
  simp only [State.updChan, State.kept_mk]
  with_reducible exact State.kept_eta _

@[simp] theorem State.setErrs_kept (s : State) (line : Nat) (e : List SymErr) :
    (State.setErrs s line e).kept = s.kept := by
  simp only [State.setErrs, State.kept_mk]
  with_reducible exact State.kept_eta _

@[simp] theorem State.spoil_kept (s : State) (line : Nat) (e : List SymErr) :
    (State.spoil s line e).kept = s.kept := by
  simp only [State.spoil, apply_ite State.kept, ite_self, State.setErrs_kept, State.setBytes_kept]

@[simp] theorem State.setBad_kept (s : State) (line : Nat) (b : Bool) :
    (State.setBad s line b).kept = s.kept := by
  simp only [State.setBad, State.setErrs_kept]

@[simp] theorem State.wantSearch_kept (s : State) (c : Nat) :
    (State.wantSearch s c).kept = s.kept := by
  simp only [State.wantSearch, State.updChan_kept]

@[simp] theorem State.creelInfo_kept (s : State) (c : Nat) (a : Nat) :
    (State.creelInfo s c a).kept = s.kept := by
  simp only [State.creelInfo, State.wr_kept]

@[simp] theorem State.setChanState_kept (s : State) (c : Nat) (v : Nat) :
    (State.setChanState s c v).kept = s.kept := by
  simp only [State.setChanState, State.setF_kept]

@[simp] theorem State.creelCmdEnd_kept (s : State) (k : Nat) (code : Nat) :
    (State.creelCmdEnd s k code).kept = s.kept := by
  unfold State.creelCmdEnd
  grind [State.kept, foldl_kept, foldl_kept_fst, State.wr_kept]

@[simp] theorem State.creelCmdOf_kept (s : State) (c : Nat) (a : Nat) (code : Nat) :
    (State.creelCmdOf s c a code).kept = s.kept := by
  simp only [State.creelCmdOf, apply_ite State.kept, ite_self, State.creelCmdEnd_kept]

@[simp] theorem State.searchOff_kept (s : State) (c : Nat) :
    (State.searchOff s c).kept = s.kept := by
  simp only [State.searchOff, State.creelCmdOf_kept, State.updChan_kept]

@[simp] theorem State.ceBit_kept (s : State) (k : Nat) : (State.ceBit s k).kept = s.kept := by
  unfold State.ceBit
  split
  · exact rfl
  · rw [State.laterErr_kept, State.setF_kept]

@[simp] theorem State.ceReached_kept (s : State) (c : Nat) (a : Nat) : (State.ceReached s c a).kept = s.kept := by
  rw [State.ceReached, State.wantSearch_kept, State.ceBit_kept, State.creelInfo_kept]

@[simp] theorem State.corrected_kept (s : State) (c : Nat) (a : Nat) : (State.corrected s c a).kept = s.kept := by
  simp only [State.corrected, apply_ite State.kept, ite_self, State.ceReached_kept, State.updChan_kept, State.incF_kept,
    State.cntShared_kept]

@[simp] theorem State.lineSeen_kept (s : State) (a : Nat) : (State.lineSeen s a).kept = s.kept := by
  unfold State.lineSeen
  split
  · exact rfl
  · split
    · split
      · exact rfl
      · exact State.corrected_kept _ _ _
    · exact rfl

@[simp] theorem State.freeze_kept (s : State) (a : Nat) : (State.freeze s a).kept = s.kept := by
  unfold State.freeze
  split
  · exact rfl
  · split
    · exact rfl
    · dsimp only
      split
      · simp only [State.laterMasked_kept, State.creelInfo_kept, State.setF_kept, State.searchOff_kept,
          State.setChanState_kept]
      · simp only [State.kept_mk]
        refine (State.kept_eta _).trans ?_
        simp only [State.laterMasked_kept, State.creelInfo_kept, State.setF_kept, State.searchOff_kept,
          State.setChanState_kept]

@[simp] theorem State.uncRead_kept (s : State) (a : Nat) : (State.uncRead s a).kept = s.kept := by
  simp only [State.uncRead]
  split
  · exact State.cntShared_kept _ _ _
  · simp only [State.freeze_kept, State.wantSearch_kept, State.satF_kept, State.creelInfo_kept, State.setF_kept,
      State.cntShared_kept]

@[simp] theorem State.uncAlone_kept (s : State) (a : Nat) : (State.uncAlone s a).kept = s.kept := by
  simp only [State.uncAlone]
  split
  · exact State.uncRead_kept _ _
  · split
    · exact State.uncRead_kept _ _
    · simp only [State.laterMasked_kept, State.draw_kept, State.uncRead_kept]

@[simp] theorem State.hbmWake_kept (s : State) (a : Nat) :
    (State.hbmWake s a).kept = s.kept := by
  simp only [State.hbmWake]
  repeat' split
  all_goals (try simp only [State.updChan_kept])

@[simp] theorem State.hbmReq_kept (s : State) (flow : Bool) (read : Bool) (pair : Bool) (a : Nat) (who : EvMaster) :
    (State.hbmReq s flow read pair a who).2.kept = s.kept := by
  simp only [State.hbmReq]
  repeat' split
  all_goals (try simp only [State.kept_mk, State.updChan_kept])
  all_goals (try with_reducible exact State.kept_eta _)

@[simp] theorem State.hbmReqs_kept (s : State) (flow : Bool) (read : Bool) (who : EvMaster) (lo : Nat) (hi : Nat)
    (k : Nat) (a : Nat) : (State.hbmReqs s flow read who lo hi k a).kept = s.kept := by
  induction k generalizing s a with
  | zero => rfl
  | succ n ih =>
    rw [State.hbmReqs, ih, State.hbmReq_kept]
    split
    · exact State.lineSeen_kept _ _
    · exact rfl

@[simp] theorem State.hbmTraffic_kept (s : State) (flow : Bool) (read : Bool) (who : EvMaster) (a : Nat) (n :
    Nat) :
    (State.hbmTraffic s flow read who a n).kept = s.kept := by
  simp only [State.hbmTraffic, apply_ite State.kept, ite_self, State.hbmReqs_kept]

@[simp] theorem State.scanTouch_kept (s : State) (a : Nat) (n : Nat) :
    (State.scanTouch s a n).kept = s.kept := by
  simp only [State.scanTouch, apply_ite State.kept, ite_self, State.setF_kept]

@[simp] theorem State.hbmPutLine_kept (s : State) (a : Nat) (bs : List Byte) :
    (State.hbmPutLine s a bs).kept = s.kept := by
  unfold State.hbmPutLine
  split
  · exact rfl
  · extract_lets u v
    have hu : u.kept = s.kept := by
      refine (State.setBytes_kept _ _ _).trans ?_
      split
      · exact rfl
      · exact State.lineSeen_kept _ _
    have hv : v.kept = s.kept := (State.scanTouch_kept _ _ _).trans hu
    clear_value v
    split
    · exact (State.setBad_kept _ _ _).trans hv
    · split
      · refine (State.setBad_kept _ _ _).trans ?_
        split
        · exact hv
        · exact (State.uncAlone_kept _ _).trans hv
      · exact (State.setErrs_kept _ _ _).trans hv

@[simp] theorem State.hbmPutCopy_kept (s : State) (x1 : Nat) (x2 : Nat) (x3 : List Byte) :
    (State.hbmPutCopy s x1 x2 x3).kept = s.kept := by
  induction x1 generalizing s x2 x3 with
  | zero => rfl
  | succ n ih => unfold State.hbmPutCopy; split <;> simp [ih]

@[simp] theorem State.hbmPut_kept (s : State) (a : Nat) (bs : List Byte) :
    (State.hbmPut s a bs).kept = s.kept := by
  simp only [State.hbmPut]
  repeat' split
  all_goals (try simp only [State.hbmPutCopy_kept])

@[simp] theorem State.hbmStore_kept (s : State) (who : EvMaster) (a : Nat) (bs : List Byte) :
    (State.hbmStore s who a bs).kept = s.kept := by
  simp only [State.hbmStore]
  split
  · simp only [State.hbmPut_kept, State.hbmTraffic_kept]
  · simp only [State.hbmPut_kept, State.hbmTraffic_kept]

@[simp] theorem State.poke_kept (s : State) (a : Nat) (bs : List Byte) :
    (State.poke s a bs).kept = s.kept := by
  simp only [State.poke, apply_ite State.kept, ite_self, State.setBytes_kept, State.hbmStore_kept, State.kept_mk]

@[simp] theorem State.peekedLine_kept (s : State) (b : Nat) : (State.peekedLine s b).kept = s.kept := by
  simp only [State.peekedLine, apply_ite State.kept, State.uncAlone_kept, State.hbmTraffic_kept, ite_self]

@[simp] theorem State.peekedLines_kept (s : State) (k : Nat) (a : Nat) : (State.peekedLines s k a).kept = s.kept := by
  induction k generalizing s a with
  | zero => rfl
  | succ n ih => rw [State.peekedLines, ih, State.peekedLine_kept]

@[simp] theorem State.peeked_kept (s : State) (a : Nat) (n : Nat) : (State.peeked s a n).kept = s.kept := by
  unfold State.peeked
  split
  · exact State.peekedLines_kept _ _ _
  · exact rfl

@[simp] theorem State.setTask_kept (s : State) (k : Nat) (t : Task) :
    (State.setTask s k t).kept = s.kept := by
  simp only [State.setTask, State.kept_mk]
  with_reducible exact State.kept_eta _

@[simp] theorem State.updTask_kept (s : State) (k : Nat) (f : Task → Task) :
    (State.updTask s k f).kept = s.kept := by
  simp only [State.updTask, State.setTask_kept]

@[simp] theorem State.leaveCtx_kept (s : State) (k : Nat) :
    (State.leaveCtx s k).kept = s.kept := by
  unfold State.leaveCtx
  grind [State.kept, foldl_kept, foldl_kept_fst, State.setTask_kept]

@[simp] theorem State.pushReady_kept (s : State) (k : Nat) :
    (State.pushReady s k).kept = s.kept := by
  simp only [State.pushReady, State.kept_mk]
  with_reducible exact State.kept_eta _

@[simp] theorem State.wakeTask_kept (s : State) (k : Nat) (f : Task → Task) :
    (State.wakeTask s k f).kept = s.kept := by
  simp only [State.wakeTask, State.pushReady_kept, State.setTask_kept]

@[simp] theorem State.activateByFlag_kept (s : State) (k : Nat) :
    (State.activateByFlag s k).kept = s.kept := by
  simp only [State.activateByFlag, State.pushReady_kept, State.updTask_kept]

@[simp] theorem State.signal_kept (s : State) (k : Nat) (mask : BitVec 32) :
    (State.signal s k mask).kept = s.kept := by
  simp only [State.signal]
  repeat' split
  all_goals (try simp only [State.setTask_kept, State.wakeTask_kept, State.activateByFlag_kept])

@[simp] theorem State.msi_kept (s : State) (vec : Nat) :
    (State.msi s vec).kept = s.kept := by
  simp only [State.msi]
  repeat' split
  all_goals (try simp only [State.kept_mk])
  all_goals (try with_reducible exact State.kept_eta _)

@[simp] theorem State.ringGained_kept (s : State) (n : Nat) :
    (State.ringGained s n).kept = s.kept := by
  unfold State.ringGained
  grind [State.kept, foldl_kept, foldl_kept_fst, State.msi_kept]

@[simp] theorem State.ringPut_kept (s : State) (n : Nat) (r : List Byte) :
    (State.ringPut s n r).kept = s.kept := by
  simp only [State.ringPut, State.ringGained_kept, State.incF_kept, State.poke_kept]

@[simp] theorem State.setBacklog_kept (s : State) (k : Nat) (b : Backlog) :
    (State.setBacklog s k b).kept = s.kept := by
  simp only [State.setBacklog, State.kept_mk]
  with_reducible exact State.kept_eta _

@[simp] theorem State.ring1Notify_kept (s : State) :
    (State.ring1Notify s).kept = s.kept := by
  simp only [State.ring1Notify, apply_ite State.kept, ite_self, State.signal_kept]

@[simp] theorem State.deliver_kept (s : State) (k : Nat) (r : List Byte) :
    (State.deliver s k r).1.kept = s.kept := by
  simp only [State.deliver]
  repeat' split
  all_goals (try simp only [
    State.ringPut_kept, State.ring1Notify_kept, State.setBacklog_kept, State.incF_kept, State.setF_kept])

@[simp] theorem State.postOne_kept (s : State) (typ : Nat) (src : Nat) (payload : List Byte) :
    (State.postOne s typ src payload).1.kept = s.kept := by
  simp only [State.postOne]
  repeat' split
  all_goals (try simp only [State.kept_mk, State.deliver_kept])
  all_goals (try with_reducible exact State.kept_eta _)

@[simp] theorem State.postOvf_kept (s : State) (x1 : Nat) (x2 : List Nat) :
    (State.postOvf s x1 x2).kept = s.kept := by
  induction x1 generalizing s x2 with
  | zero => cases x2 <;> simp [State.postOvf]
  | succ n ih =>
    cases x2 with
    | nil => simp [State.postOvf]
    | cons b bs =>
      unfold State.postOvf
      simp only [ih]
      rw [foldl_kept_fst]
      intro s a
      simp only [State.postOne_kept]

@[simp] theorem State.postNext_kept (s : State) (typ : Nat) (src : Nat) (payload : List Byte) :
    (State.postNext s typ src payload).kept = s.kept := by
  simp only [State.postNext, State.postOne_kept, State.postOvf_kept]

@[simp] theorem State.postDue_kept (s : State) :
    (State.postDue s).kept = s.kept := by
  unfold State.postDue
  grind [State.kept, foldl_kept, foldl_kept_fst, State.postNext_kept]

@[simp] theorem State.post_kept (s : State) (typ : Nat) (src : Nat) (payload : List Byte) :
    (State.post s typ src payload).kept = s.kept := by
  simp only [State.post, State.postNext_kept, State.postDue_kept]

@[simp] theorem State.err_kept (s : State) (a : Nat) (bit : Nat) (info : Nat) :
    (State.err s a bit info).kept = s.kept := by
  simp only [State.err, apply_ite State.kept, ite_self, State.post_kept, State.setBit_kept]

@[simp] theorem State.masked_kept (s : State) (mech : Nat) (src : Nat) (unit_ : Nat) (loss : Nat) :
    (State.masked s mech src unit_ loss).kept = s.kept := by
  simp only [State.masked, State.post_kept]

@[simp] theorem State.evAdd_kept (s : State) (i : Nat) (k : Nat) : (State.evAdd s i k).kept = s.kept := by
  unfold State.evAdd
  extract_lets off v g u off1
  have hu : u.kept = s.kept := rfl
  clear_value u
  split
  · exact hu
  · split
    · split
      · simp only [State.kept_mk]
        exact (State.kept_eta _).trans hu
      · exact hu
    · split
      · exact hu
      · exact (State.laterErr_kept _ _ _ _).trans ((State.setBit_kept _ _ _).trans hu)

@[simp] theorem State.event_kept (s : State) (e : GEvent) :
    (State.event s e).kept = s.kept := by
  unfold State.event
  grind [State.kept, foldl_kept, foldl_kept_fst, State.evAdd_kept]

@[simp] theorem State.setTag_kept (s : State) (r : Nat) (v : Nat) :
    (State.setTag s r v).kept = s.kept := by
  simp only [State.setTag, State.kept_mk]
  with_reducible exact State.kept_eta _

@[simp] theorem State.setOvf_kept (s : State) (i : Nat) (v : Option Seal) :
    (State.setOvf s i v).kept = s.kept := by
  simp only [State.setOvf, State.kept_mk]
  with_reducible exact State.kept_eta _

@[simp] theorem State.commitPlace_kept (s : State) (p : Placed) (x : Seal) :
    (State.commitPlace s p x).kept = s.kept := by
  simp only [State.commitPlace]
  repeat' split
  all_goals (try simp only [State.setTag_kept, State.setOvf_kept, State.err_kept])

@[simp] theorem State.freeRec_kept (s : State) (r : Nat) :
    (State.freeRec s r).kept = s.kept := by
  simp only [State.freeRec, apply_ite State.kept, ite_self, State.setOvf_kept, State.setTag_kept]

@[simp] theorem State.fdigPut_kept (s : State) (d : List Byte) :
    (State.fdigPut s d).kept = s.kept := by
  simp only [State.fdigPut, apply_ite State.kept, ite_self,
    State.setBit_kept, State.incF_kept, State.poke_kept]

@[simp] theorem State.fdig_kept (s : State) (kind : Nat) (form : Nat) (klen : Nat) (loom : Nat) (rno : Nat) (x
    : Seal) (rest : List Byte) :
    (State.fdig s kind form klen loom rno x rest).kept = s.kept := by
  simp only [State.fdig, State.fdigPut_kept]

@[simp] theorem State.lostNote_kept (s : State) (rno : Nat) (form : Nat) (x : Seal) :
    (State.lostNote s rno form x).kept = s.kept := by
  simp only [State.lostNote, apply_ite State.kept, ite_self,
    State.masked_kept, State.setBit_kept, State.fdig_kept]

@[simp] theorem State.loseHead_kept (s : State) (rno : Nat) (form : Nat) (x : Seal) :
    (State.loseHead s rno form x).kept = s.kept := by
  simp only [State.loseHead, State.lostNote_kept, State.freeRec_kept]

@[simp] theorem State.loseRec_kept (s : State) (r : Nat) :
    (State.loseRec s r).kept = s.kept := by
  simp only [State.loseRec, State.draw_kept, State.loseHead_kept]

@[simp] theorem State.fold_kept (s : State) (w2 : Bool) (flow : Bool) (who : EvMaster) (rno : Nat)
    (image : Option (BitVec 288)) (h : Head) : (State.fold s w2 flow who rno image h).1.kept = s.kept := by
  unfold State.fold
  extract_lets a unc s1 tail lp s2 r s3 d s4
  have h1 : s1.kept = s.kept := by
    dsimp only [s1]
    split
    · exact (State.lostNote_kept _ _ _ _).trans (State.uncRead_kept _ _)
    · exact rfl
  have h2 : s2.kept = s.kept := by
    dsimp only [s2]
    split
    · exact (State.cntShared_kept _ _ _).trans h1
    · exact h1
  clear_value s1 s2
  have h3 : s3.kept = s.kept := by
    dsimp only [s3, r]
    rw [State.hbmPut_kept, State.hbmReq_kept]
    split
    · exact h2
    · exact (State.lineSeen_kept _ _).trans h2
  clear_value s3
  show s4.kept = s.kept
  dsimp only [s4]
  split
  · exact (State.fdig_kept _ _ _ _ _ _ _ _).trans h3
  · exact h3

@[simp] theorem State.setLine_kept (s : State) (l : Nat) (c : Option CLine) :
    (State.setLine s l c).kept = s.kept := by
  simp only [State.setLine, State.kept_mk]
  with_reducible exact State.kept_eta _

@[simp] theorem State.updLine_kept (s : State) (l : Nat) (f : CLine → CLine) :
    (State.updLine s l f).kept = s.kept := by
  simp only [State.updLine]
  repeat' split
  all_goals (try simp only [State.setLine_kept])

@[simp] theorem State.setVictims_kept (s : State) (b : Nat) (v : List Victim) :
    (State.setVictims s b v).kept = s.kept := by
  simp only [State.setVictims, State.kept_mk]
  with_reducible exact State.kept_eta _

@[simp] theorem State.putImage_kept (s : State) (flow : Bool) (who : EvMaster) (a : Nat) (m : BitVec 288) :
    (State.putImage s flow who a m).1.kept = s.kept := by
  simp only [State.putImage, State.hbmReq_kept, State.hbmPut_kept]

@[simp] theorem State.writeBackHead_kept (s : State) (flow : Bool) (who : EvMaster) (rno : Nat) (image :
    Option (BitVec 288)) (h : Head) :
    (State.writeBackHead s flow who rno image h).1.kept = s.kept := by
  simp only [State.writeBackHead]
  repeat' split
  all_goals (try simp only [State.putImage_kept, State.fold_kept, State.hbmReq_kept, State.hbmPut_kept])

@[simp] theorem State.evict_kept (s : State) (l : Nat) (who : EvMaster) :
    (State.evict s l who).kept = s.kept := by
  simp only [State.evict]
  repeat' split
  all_goals (try simp only [
    State.setLine_kept, State.loseHead_kept, State.writeBackHead_kept, State.setVictims_kept])

@[simp] theorem State.setPtr_kept (s : State) (base : Nat) (l : Nat) :
    (State.setPtr s base l).kept = s.kept := by
  simp only [State.setPtr, State.kept_mk]
  with_reducible exact State.kept_eta _

@[simp] theorem nruScan_kept (s : State) (x1 : List Nat) :
    (nruScan s x1).1.kept = s.kept := by
  induction x1 generalizing s with
  | nil => rfl
  | cons l ls ih =>
    unfold nruScan
    split
    · split
      · rfl
      · rw [ih, State.updLine_kept]
    · exact ih _

@[simp] theorem State.victim_kept (s : State) (base : Nat) :
    (State.victim s base).1.kept = s.kept := by
  simp only [State.victim]
  repeat' split
  all_goals (try simp only [nruScan_kept, State.setPtr_kept])

theorem State.allocLine_kept (s : State) (x : Seal) (who : EvMaster) {t : Nat × State} :
    State.allocLine s x who = some t → t.2.kept = s.kept := by
  intro h
  unfold State.allocLine at h
  grind [State.kept, foldl_kept, toOut_ok, ub_ne, PickRes.state?, TaskRes.state?, Looked.state?,
    PatchRes.state?, State.victim_kept, State.evict_kept]

theorem State.allocFlow_kept (s : State) (prof : Nat) (x : Seal) (who : EvMaster) {t : Nat × State} :
    State.allocFlow s prof x who = some t → t.2.kept = s.kept := by
  intro h
  unfold State.allocFlow at h
  split at h
  · simp at h
  · rename_i h1
    have k1 := State.allocLine_kept _ _ _ h1
    simp only at h k1
    split at h
    · split at h
      · simp at h
      · rename_i h2
        have k2 := State.allocLine_kept _ _ _ h2
        simp only [State.setLine_kept] at k2
        cases h
        simp only [State.updLine_kept, State.setLine_kept, k2, k1]
    · cases h
      simp only [State.setLine_kept, k1]

@[simp] theorem State.freeLine_kept (s : State) (l : Nat) :
    (State.freeLine s l).kept = s.kept := by
  simp only [State.freeLine]
  repeat' split
  all_goals (try simp only [State.setLine_kept])

@[simp] theorem State.install_kept (s : State) (l : Nat) (h : Head) (rno : Nat) (dirty : Bool) (image : Option
    (BitVec 288)) :
    (State.install s l h rno dirty image).kept = s.kept := by
  unfold State.install
  grind [State.kept, foldl_kept, foldl_kept_fst, State.updLine_kept]

@[simp] theorem State.readImage_kept (s : State) (rno : Nat) (fresh : Bool) :
    (State.readImage s rno fresh).1.kept = s.kept := by
  simp only [State.readImage]
  repeat' split
  all_goals (try simp only [State.draw_kept])

@[simp] theorem State.addBank_kept (s : State) (b : Nat) (n : Nat) :
    (State.addBank s b n).kept = s.kept := by
  simp only [State.addBank, State.kept_mk]
  with_reducible exact State.kept_eta _

@[simp] theorem State.subBank_kept (s : State) (b : Nat) (n : Nat) :
    (State.subBank s b n).kept = s.kept := by
  simp only [State.subBank, State.kept_mk]
  with_reducible exact State.kept_eta _

@[simp] theorem State.setAcct_kept (s : State) (a : Nat) (v : Acct) :
    (State.setAcct s a v).kept = s.kept := by
  simp only [State.setAcct, State.kept_mk]
  with_reducible exact State.kept_eta _

@[simp] theorem State.updPort_kept (s : State) (p : Nat) (f : PortSt → PortSt) :
    (State.updPort s p f).kept = s.kept := by
  simp only [State.updPort, State.kept_mk]
  with_reducible exact State.kept_eta _

@[simp] theorem State.lpiWake_kept (s : State) (p : Nat) :
    (State.lpiWake s p).kept = s.kept := by
  simp only [State.lpiWake]
  repeat' split
  all_goals (try simp only [State.updPort_kept])

@[simp] theorem State.askPfc_kept (s : State) (p : Nat) (rel : Option Nat) :
    (State.askPfc s p rel).kept = s.kept := by
  simp only [State.askPfc, State.updPort_kept, State.lpiWake_kept]

@[simp] theorem State.acctSettle_kept (s : State) (a : Nat) :
    (State.acctSettle s a).kept = s.kept := by
  simp only [State.acctSettle, apply_ite State.kept, ite_self, State.askPfc_kept, State.setAcct_kept]

@[simp] theorem State.acctSub_kept (s : State) (a : Nat) (head : Bool) (n : Nat) :
    (State.acctSub s a head n).kept = s.kept := by
  simp only [State.acctSub, State.acctSettle_kept, State.setAcct_kept]

@[simp] theorem State.freeCells_kept (s : State) (x : Pkt) :
    (State.freeCells s x).kept = s.kept := by
  unfold State.freeCells
  grind [State.kept, foldl_kept, foldl_kept_fst, State.subBank_kept, State.acctSub_kept]

@[simp] theorem State.dropRef_kept (s : State) (p : Nat) :
    (State.dropRef s p).kept = s.kept := by
  simp only [State.dropRef]
  repeat' split
  all_goals (try simp only [State.setPkt_kept, State.freeCells_kept])

@[simp] theorem State.returnResv_kept (s : State) (loom : Nat) (n : Nat) :
    (State.returnResv s loom n).kept = s.kept := by
  unfold State.returnResv
  grind [State.kept, foldl_kept, foldl_kept_fst, State.subBank_kept]

@[simp] theorem State.setQueue_kept (s : State) (i : Nat) (l : List Copy) :
    (State.setQueue s i l).kept = s.kept := by
  simp only [State.setQueue, State.kept_mk]
  with_reducible exact State.kept_eta _

@[simp] theorem State.setResidue_kept (s : State) (i : Nat) (l : List Copy) :
    (State.setResidue s i l).kept = s.kept := by
  simp only [State.setResidue, State.kept_mk]
  with_reducible exact State.kept_eta _

@[simp] theorem State.storeRecirc_kept (s : State) (p : Nat) (x : Pkt) :
    (State.storeRecirc s p x).kept = s.kept := by
  simp only [State.storeRecirc, State.returnResv_kept, State.setPkt_kept, State.setQueue_kept]

@[simp] theorem State.microcode_kept (s : State) (k : Nat) (t : Task) (op : Nat) (w : IWord) :
    (State.microcode s k t op w).kept = s.kept := by
  simp only [State.microcode, State.kept_mk, apply_ite State.kept, ite_self, State.event_kept]
  with_reducible exact State.kept_eta _

@[simp] theorem State.sampleTick_kept (s : State) (x : Pkt) (op : Nat) (addr : Nat) :
    (State.sampleTick s x op addr).kept = s.kept := by
  simp only [State.sampleTick]
  repeat' split
  all_goals (try simp only [State.kept_mk, State.incF_kept])
  all_goals (try with_reducible exact State.kept_eta _)

@[simp] theorem State.unpin_kept (s : State) (l : Nat) (recirc : Bool) :
    (State.unpin s l recirc).kept = s.kept := by
  simp only [State.unpin]
  repeat' split
  all_goals (try simp only [State.freeLine_kept, State.setLine_kept])

@[simp] theorem State.freeSpare_kept (s : State) (x : Pkt) :
    (State.freeSpare s x).kept = s.kept := by
  simp only [State.freeSpare]
  repeat' split
  all_goals (try simp only [State.freeLine_kept])

@[simp] theorem State.countNoLookup_kept (s : State) (x : Pkt) :
    (State.countNoLookup s x).kept = s.kept := by
  simp only [State.countNoLookup, apply_ite State.kept, ite_self, State.cntShared_kept]

theorem State.endPick_kept (s : State) (p : Nat) {t : State} :
    State.endPick s p = .ok t → t.kept = s.kept := by
  intro h
  unfold State.endPick at h
  split at h
  · cases h; rfl
  · simp only at h
    split at h
    · cases h
    · split at h <;> cases h <;> (repeat' split) <;> simp only [State.setPkt_kept, State.cntLoom_kept, State.storeRecirc_kept, State.returnResv_kept, State.unpin_kept, State.updLine_kept, State.freeSpare_kept, State.countNoLookup_kept]

theorem State.endPickDrop_kept (s : State) (p : Nat) (code : Nat) {t : State} :
    State.endPickDrop s p code = .ok t → t.kept = s.kept := by
  intro h
  unfold State.endPickDrop at h
  grind [State.kept, foldl_kept, toOut_ok, ub_ne, PickRes.state?, TaskRes.state?, Looked.state?,
    PatchRes.state?, State.updPkt_kept, → State.endPick_kept]

@[simp] theorem State.countInstr_kept (s : State) (p : Nat) (op : Nat) (addr : Nat) :
    (State.countInstr s p op addr).kept = s.kept := by
  simp only [State.countInstr]
  repeat' split
  all_goals (try simp only [State.cntLoom_kept, State.event_kept, State.sampleTick_kept, State.updPkt_kept])

theorem State.goPick_kept (s : State) (p : Nat) (pc : Nat) {t : State} :
    State.goPick s p pc = .ok t → t.kept = s.kept := by
  intro h
  unfold State.goPick at h
  grind [State.kept, foldl_kept, toOut_ok, ub_ne, PickRes.state?, TaskRes.state?, Looked.state?,
    PatchRes.state?, State.setPkt_kept, → State.endPick_kept]

theorem State.nextPick_kept (s : State) (p : Nat) (op : Nat) (addr : Nat) {t : State} :
    State.nextPick s p op addr = .ok t → t.kept = s.kept := by
  intro h
  unfold State.nextPick at h
  grind [State.kept, foldl_kept, toOut_ok, ub_ne, PickRes.state?, TaskRes.state?, Looked.state?,
    PatchRes.state?, State.countInstr_kept, → State.goPick_kept]

theorem runPick_kept (p op : Nat) (f : Pkt → State → PickRes) (s : State) {t : State}
    (hf : ∀ x u, (f x s).state? = some u → u.kept = s.kept) (h : runPick p op f s = .next t) : t.kept = s.kept := by
  unfold runPick at h
  split at h
  · cases h; rfl
  · rename_i x hx
    have hfx := hf x
    split at h
    · cases h; rfl
    · split at h
      · rw [toOut_ok] at h
        exact State.endPickDrop_kept _ _ _ h
      · split at h
        · rename_i h1; cases h; exact hfx _ (by rw [h1]; rfl)
        · rename_i h1
          rw [toOut_ok] at h
          rw [State.nextPick_kept _ _ _ _ h]; exact hfx _ (by rw [h1]; rfl)
        · rename_i h1
          split at h
          · rw [toOut_ok] at h
            exact State.endPickDrop_kept _ _ _ h
          · rw [toOut_ok] at h
            rw [State.goPick_kept _ _ _ h, State.countInstr_kept]; exact hfx _ (by rw [h1]; rfl)
        · rename_i h1
          rw [toOut_ok] at h
          rw [State.endPick_kept _ _ h, State.countInstr_kept]; exact hfx _ (by rw [h1]; rfl)
        · rw [toOut_ok] at h
          exact State.endPickDrop_kept _ _ _ h
        · simp [ub] at h

theorem pickPure_kept (p : Nat) (op : Nat) (f : Pkt → Pkt) (s : State) {t : State} :
    pickPure p op f s = .next t → t.kept = s.kept := by
  refine runPick_kept _ _ _ _ ?_
  intro x u h; cases h; simp only [State.setPkt_kept]

@[simp] theorem State.illegalTask_kept (s : State) (k : Nat) :
    (State.illegalTask s k).kept = s.kept := by
  simp only [State.illegalTask, State.updTask_kept, State.leaveCtx_kept, State.post_kept, State.setF_kept]

@[simp] theorem State.countThread_kept (s : State) (k : Nat) (t : Task) (op : Nat) (w : IWord) :
    (State.countThread s k t op w).kept = s.kept := by
  simp only [State.countThread, State.microcode_kept, State.event_kept]

@[simp] theorem State.noteWait_kept (s : State) (k : Nat) (op : Nat) (w : IWord) :
    (State.noteWait s k op w).kept = s.kept := by
  simp only [State.noteWait, apply_ite State.kept, ite_self, State.updTask_kept]

theorem runTask_kept (k op : Nat) (w : IWord) (f : Task → State → TaskRes) (s : State) {t : State}
    (hf : ∀ x u, (f x s).state? = some u → u.kept = s.kept) (h : runTask k op w f s = .next t) : t.kept = s.kept := by
  unfold runTask at h
  simp only at h
  have hfx := hf (s.task k)
  split at h
  · cases h; rfl
  · split at h
    · cases h; simp only [State.illegalTask_kept]
    · split at h
      · rename_i h1; cases h
        simp only [State.updTask_kept, State.countThread_kept]; exact hfx _ (by rw [h1]; rfl)
      · rename_i h1
        split at h
        · cases h; simp only [State.illegalTask_kept]
        · cases h
          simp only [State.updTask_kept, State.countThread_kept]; exact hfx _ (by rw [h1]; rfl)
      · rename_i h1; cases h
        simp only [State.noteWait_kept, State.countThread_kept]; exact hfx _ (by rw [h1]; rfl)
      · rename_i h1; cases h; exact hfx _ (by rw [h1]; rfl)
      · cases h; simp only [State.illegalTask_kept]
      · simp [ub] at h

theorem taskPure_kept (k : Nat) (op : Nat) (w : IWord) (f : Task → Task) (s : State) {t : State} :
    taskPure k op w f s = .next t → t.kept = s.kept := by
  refine runTask_kept _ _ _ _ _ ?_
  intro x u h; cases h; simp only [State.setTask_kept]

theorem taskIllegal_kept (k : Nat) (s : State) {t : State} :
    taskIllegal k s = .next t → t.kept = s.kept := by
  refine runTask_kept _ _ _ _ _ ?_
  intro x u h; cases h

theorem pickIllegal_kept (p : Nat) (op : Nat) (s : State) {t : State} :
    pickIllegal p op s = .next t → t.kept = s.kept := by
  refine runPick_kept _ _ _ _ ?_
  intro x u h; cases h

@[simp] theorem State.setWs_kept (s : State) (a : Nat) (v : Word × Word) :
    (State.setWs s a v).kept = s.kept := by
  simp only [State.setWs, State.kept_mk]
  with_reducible exact State.kept_eta _

@[simp] theorem State.plainWrite_kept (s : State) (a : Nat) (v : Word) (en : Word) :
    (State.plainWrite s a v en).kept = s.kept := by
  simp only [State.plainWrite, apply_ite State.kept, ite_self, State.wr_kept, State.setWs_kept]

@[simp] theorem State.vAccept_kept (s : State) (v : Nat) :
    (State.vAccept s v).kept = s.kept := by
  simp only [State.vAccept, apply_ite State.kept, ite_self, State.setF_kept, State.kept_mk]
  with_reducible exact State.kept_eta _

@[simp] theorem State.avsLost_kept (s : State) :
    (State.avsLost s).kept = s.kept := by
  simp only [State.avsLost, State.kept_mk, State.err_kept]
  with_reducible exact State.kept_eta _

@[simp] theorem State.vTry_kept (s : State) (ok : Bool) (v : Nat) :
    (State.vTry s ok v).kept = s.kept := by
  simp only [State.vTry, apply_ite State.kept, ite_self, State.vAccept_kept, State.avsLost_kept, State.kept_mk]

@[simp] theorem State.vCommand_kept (s : State) (v : Nat) :
    (State.vCommand s v).kept = s.kept := by
  simp only [State.vCommand, apply_ite State.kept, ite_self, State.vTry_kept, State.kept_mk]

@[simp] theorem State.holdVman_kept (s : State) :
    (State.holdVman s).kept = s.kept := by
  simp only [State.holdVman]
  repeat' split
  all_goals (try simp only [State.vCommand_kept])

@[simp] theorem State.publishDemand_kept (s : State) (n : Nat) :
    (State.publishDemand s n).kept = s.kept := by
  simp only [State.publishDemand, State.setF_kept]

@[simp] theorem State.publishTarget_kept (s : State) (n : Nat) :
    (State.publishTarget s n).kept = s.kept := by
  simp only [State.publishTarget, State.publishDemand_kept, State.setF_kept]

@[simp] theorem State.directStep_kept (s : State) (target : Nat) :
    (State.directStep s target).kept = s.kept := by
  simp only [State.directStep, apply_ite State.kept, ite_self, State.vCommand_kept]

@[simp] theorem State.portEnabledStep_kept (s : State) (n : Nat) (old : Nat) :
    (State.portEnabledStep s n old).kept = s.kept := by
  simp only [State.portEnabledStep, apply_ite State.kept, ite_self,
    State.publishTarget_kept, State.directStep_kept]

@[simp] theorem State.loomWake_kept (s : State) (n : Nat) :
    (State.loomWake s n).kept = s.kept := by
  simp only [State.loomWake, apply_ite State.kept, ite_self, State.setF_kept]

@[simp] theorem State.leaveW3_kept (s : State) :
    (State.leaveW3 s).kept = s.kept := by
  unfold State.leaveW3
  grind [State.kept, foldl_kept, foldl_kept_fst, State.loomWake_kept, State.publishTarget_kept,
    State.directStep_kept]

@[simp] theorem State.setAbove_kept (s : State) (n : Nat) :
    (State.setAbove s n).kept = s.kept := by
  simp only [State.setAbove, State.kept_mk]
  with_reducible exact State.kept_eta _

@[simp] theorem State.readMonitors_kept (s : State) (rate : Nat → Nat) :
    (State.readMonitors s rate).kept = s.kept := by
  unfold State.readMonitors
  grind [State.kept, foldl_kept, foldl_kept_fst, State.setF_kept, State.publishTarget_kept]

@[simp] theorem State.loopDecide_kept (s : State) (n : Nat) (rate : Nat) (resp : Bool) :
    (State.loopDecide s n rate resp).kept = s.kept := by
  simp only [State.loopDecide, apply_ite State.kept, ite_self, State.setAbove_kept, State.vTry_kept]

theorem execRateWindow_kept (r : RateReport) (s : State) {t : State} :
    execRateWindow r s = .next t → t.kept = s.kept := by
  intro h
  unfold execRateWindow at h
  grind [State.kept, foldl_kept, toOut_ok, ub_ne, PickRes.state?, TaskRes.state?, Looked.state?,
    PatchRes.state?, State.readMonitors_kept, State.loopDecide_kept, State.setF_kept]

@[simp] theorem State.avsWrite_kept (s : State) (v : Word) (en : Word) :
    (State.avsWrite s v en).kept = s.kept := by
  unfold State.avsWrite
  grind [State.kept, foldl_kept, foldl_kept_fst, State.plainWrite_kept, State.holdVman_kept]

theorem execAvsStart_kept (v : Word) (s : State) {t : State} :
    execAvsStart v s = .next t → t.kept = s.kept := by
  intro h
  unfold execAvsStart at h
  refine State.byWrite_kept h ?_
  clear h; intro h
  cases h
  simp only [State.avsWrite_kept]

@[simp] theorem State.avsBack_kept (s : State) :
    (State.avsBack s).kept = s.kept := by
  simp only [State.avsBack]
  repeat' split
  all_goals (try simp only [State.kept_mk, State.holdVman_kept])
  all_goals (try with_reducible exact State.kept_eta _)

theorem execAvsRead_kept (mv : BitVec 10) (ma : BitVec 32) (ok : Bool) (s : State) {t : State} :
    execAvsRead mv ma ok s = .next t → t.kept = s.kept := by
  intro h
  unfold execAvsRead at h
  grind [State.kept, foldl_kept, toOut_ok, ub_ne, PickRes.state?, TaskRes.state?, Looked.state?,
    PatchRes.state?, State.avsLost_kept, State.setF_kept, State.avsBack_kept]

theorem execAvsRetry_kept (ok : Bool) (s : State) {t : State} :
    execAvsRetry ok s = .next t → t.kept = s.kept := by
  intro h
  unfold execAvsRetry at h
  grind [State.kept, foldl_kept, toOut_ok, ub_ne, PickRes.state?, TaskRes.state?, Looked.state?,
    PatchRes.state?, State.avsBack_kept]

@[simp] theorem State.tensionCtlWrite_kept (s : State) (v : Word) (en : Word) :
    (State.tensionCtlWrite s v en).kept = s.kept := by
  unfold State.tensionCtlWrite
  grind [State.kept, foldl_kept, foldl_kept_fst, State.plainWrite_kept, State.holdVman_kept]

theorem State.kept_brakeAt (s : State) (n : Nat) :
    ({ s with tension := { s.tension with brakeAt := n } } : State).kept = s.kept := rfl

@[simp] theorem State.brakeStep_kept (s : State) (ok : Bool) (k : Nat) :
    (State.brakeStep s ok k).kept = s.kept := by
  simp only [State.brakeStep, apply_ite State.kept, ite_self, State.vTry_kept]

@[simp] theorem State.rampStep_kept (s : State) (ok : Bool) (k : Nat) :
    (State.rampStep s ok k).kept = s.kept := by
  unfold State.rampStep
  grind [State.kept, foldl_kept, foldl_kept_fst, State.vTry_kept]

@[simp] theorem State.brakeMark_kept (s : State) (k : Nat) :
    (State.brakeMark s k).kept = s.kept := by
  exact State.kept_brakeAt s _

@[simp] theorem State.brakeAct_kept (s : State) (ok : Bool) (tj : Int) :
    (State.brakeAct s ok tj).kept = s.kept := by
  unfold State.brakeAct
  grind [State.kept, foldl_kept, foldl_kept_fst, State.err_kept, State.brakeMark_kept, State.brakeStep_kept,
    State.rampStep_kept]

/-- R465: the trip latches. -/
theorem State.trip_kept (s : State) (ok : Bool) : (s.trip ok).kept = ⟨s.kept.pending, true, s.kept.hok⟩ := by
  rw [← State.vTry_kept s ok 0]
  rfl

/-- TJ_SAMPLE may set the latch, and keeps the rest. -/
theorem execTjSample_kept (tj : BitVec 16) (r : TjReport) (s : State) {t : State}
    (h : execTjSample tj r s = .next t) :
    t.kept = s.kept ∨ t.kept = ⟨s.kept.pending, true, s.kept.hok⟩ := by
  unfold execTjSample at h
  split at h
  · cases h; exact .inl rfl
  extract_lets k s1 s2 s3 s4 at h
  have e1 : s1.kept = s.kept := by unfold s1; simp only [State.setF_kept]
  clear_value s1
  have e2 : s2.kept = s.kept := by unfold s2; split <;> simp only [State.err_kept, e1]
  clear_value s2
  have e3 : s3.kept = s.kept := by unfold s3; split <;> simp only [State.err_kept, e2]
  clear_value s3
  have e4 : s4.kept = s.kept := by unfold s4; rw [State.brakeAct_kept, e3]
  clear_value s4
  cases h
  split
  · rw [State.trip_kept, e4]; exact .inr rfl
  · exact .inl e4

@[simp] theorem State.loomWrite_kept (s : State) (n : Nat) (v : Word) (en : Word) :
    (State.loomWrite s n v en).kept = s.kept := by
  simp only [State.loomWrite, apply_ite State.kept, ite_self,
    State.err_kept, State.setF_kept, State.directStep_kept, State.publishTarget_kept, State.loomWake_kept]

theorem execLoomGate_kept (n : LoomId) (v : Word) (s : State) {t : State} :
    execLoomGate n v s = .next t → t.kept = s.kept := by
  intro h
  unfold execLoomGate at h
  refine State.byWrite_kept h ?_
  clear h; intro h
  cases h
  simp only [State.loomWrite_kept]

theorem execLoomGated_kept (n : LoomId) (s : State) {t : State} :
    execLoomGated n s = .next t → t.kept = s.kept := by
  intro h
  unfold execLoomGated at h
  grind [State.kept, foldl_kept, toOut_ok, ub_ne, PickRes.state?, TaskRes.state?, Looked.state?,
    PatchRes.state?, State.setF_kept, → unlessHalted_cases]

theorem execLoomActive_kept (n : LoomId) (s : State) {t : State} :
    execLoomActive n s = .next t → t.kept = s.kept := by
  intro h
  unfold execLoomActive at h
  grind [State.kept, foldl_kept, toOut_ok, ub_ne, PickRes.state?, TaskRes.state?, Looked.state?,
    PatchRes.state?, State.setF_kept, → unlessHalted_cases]

end Sys2Proof.Machine
end

