-- ==== Sys2Proof/Laws/KeptBeam.lean ====
section
/-! SUPPORT. Packets in and out, ports, learning:
what each definition keeps of the queue, the trip latch and the bound of the host's batten list
(Laws/Kept.lean). One lemma a definition, so that no proof unfolds one again. -/

namespace Sys2Proof.Machine

@[simp] theorem State.acctXoff_kept (s : State) (a : Nat) :
    (State.acctXoff s a).kept = s.kept := by
  simp only [State.acctXoff, apply_ite State.kept, ite_self, State.askPfc_kept, State.setAcct_kept]

@[simp] theorem State.charge_kept (s : State) (p : Nat) (n : Nat) (pool : Pool) (acct : Option Nat) :
    (State.charge s p n pool acct).kept = s.kept := by
  unfold State.charge
  grind [State.kept, foldl_kept, foldl_kept_fst, State.setPkt_kept, State.addBank_kept, State.acctXoff_kept,
    State.setAcct_kept]

@[simp] theorem State.unsent_kept (s : State) (x : Pkt) :
    (State.unsent s x).kept = s.kept := by
  unfold State.unsent
  grind [State.kept, foldl_kept, foldl_kept_fst, State.incF_kept]

@[simp] theorem State.dropCopy_kept (s : State) (p : Nat) (i : Nat) (r : Nat) :
    (State.dropCopy s p i r).kept = s.kept := by
  simp only [State.dropCopy]
  repeat' split
  all_goals (try simp only [State.cntQueue_kept, State.cntPort_kept, State.unsent_kept])

@[simp] theorem State.enqueue_kept (s : State) (p : Nat) (i : Nat) (n : Nat) (cut : Bool) :
    (State.enqueue s p i n cut).kept = s.kept := by
  simp only [State.enqueue]
  repeat' split
  all_goals (try simp only [State.setPkt_kept, State.cntQueue_kept, State.setQueue_kept])

@[simp] theorem State.holdResidue_kept (s : State) (p : Nat) (i : Nat) (n : Nat) (r : Nat) (cut : Bool) :
    (State.holdResidue s p i n r cut).kept = s.kept := by
  simp only [State.holdResidue]
  repeat' split
  all_goals (try simp only [
    State.updPkt_kept, State.setResidue_kept, State.dropCopy_kept, State.err_kept, State.charge_kept])

@[simp] theorem State.admitCopy_kept (s : State) (p : Nat) (i : Nat) :
    (State.admitCopy s p i).kept = s.kept := by
  simp only [State.admitCopy]
  repeat' split
  all_goals (try simp only [
    State.dropCopy_kept, State.err_kept, State.holdResidue_kept, State.charge_kept, State.enqueue_kept,
    State.updPkt_kept])

@[simp] theorem State.endIfNone_kept (s : State) (p : Nat) :
    (State.endIfNone s p).kept = s.kept := by
  simp only [State.endIfNone]
  repeat' split
  all_goals (try simp only [State.setPkt_kept])

@[simp] theorem State.admitPunt_kept (s : State) (p : Nat) (x : Pkt) :
    (State.admitPunt s p x).kept = s.kept := by
  simp only [State.admitPunt, apply_ite State.kept, ite_self,
    State.updPkt_kept, State.charge_kept, State.setQueue_kept, State.setPkt_kept, State.cntLoom_kept,
    State.err_kept]

@[simp] theorem State.settle_kept (s : State) (p : Nat) :
    (State.settle s p).kept = s.kept := by
  unfold State.settle
  grind [State.kept, foldl_kept, foldl_kept_fst, State.endIfNone_kept, State.admitCopy_kept,
    State.setPkt_kept, State.cntLoom_kept, State.admitPunt_kept, State.storeRecirc_kept]

theorem execBeamAdmit_kept (p : PktId) (s : State) {t : State} :
    execBeamAdmit p s = .next t → t.kept = s.kept := by
  intro h
  unfold execBeamAdmit at h
  grind [State.kept, foldl_kept, toOut_ok, ub_ne, PickRes.state?, TaskRes.state?, Looked.state?,
    PatchRes.state?, State.settle_kept]

@[simp] theorem State.recharge_kept (s : State) (p : Nat) (i : Nat) (n : Nat) (x : Pkt) (pool : Pool) :
    (State.recharge s p i n x pool).kept = s.kept := by
  simp only [State.recharge, apply_ite State.kept, ite_self, State.charge_kept, State.freeCells_kept]

theorem execResidueAdmit_kept (q : Fin 10240) (s : State) {t : State} :
    execResidueAdmit q s = .next t → t.kept = s.kept := by
  intro h
  unfold execResidueAdmit at h
  grind [State.kept, foldl_kept, toOut_ok, ub_ne, PickRes.state?, TaskRes.state?, Looked.state?,
    PatchRes.state?, State.setResidue_kept, State.enqueue_kept, State.recharge_kept, → unlessHalted_cases]

@[simp] theorem State.discard_kept (s : State) (i : Nat) (l : List Copy) :
    (State.discard s i l).kept = s.kept := by
  unfold State.discard
  grind [State.kept, foldl_kept, foldl_kept_fst, State.cntQueue_kept, State.unsent_kept, State.dropRef_kept]

@[simp] theorem State.setCalled_kept (s : State) (n : Nat) (l : List Called) :
    (State.setCalled s n l).kept = s.kept := by
  simp only [State.setCalled, State.kept_mk]
  with_reducible exact State.kept_eta _

@[simp] theorem State.callGone_kept (s : State) (p : Nat) :
    (State.callGone s p).kept = s.kept := by
  simp only [State.callGone, State.updPort_kept]

@[simp] theorem State.flushQueue_kept (s : State) (i : Nat) :
    (State.flushQueue s i).kept = s.kept := by
  simp only [State.flushQueue, apply_ite State.kept, ite_self,
    State.callGone_kept, State.setCalled_kept, State.discard_kept, State.setResidue_kept, State.setQueue_kept]

@[simp] theorem State.flushWrite_kept (s : State) (v : Word) (en : Word) :
    (State.flushWrite s v en).kept = s.kept := by
  unfold State.flushWrite
  grind [State.kept, foldl_kept, foldl_kept_fst, State.plainWrite_kept, State.setF_kept,
    State.flushQueue_kept]

theorem execQueueFlush_kept (v : Word) (s : State) {t : State} :
    execQueueFlush v s = .next t → t.kept = s.kept := by
  intro h
  unfold execQueueFlush at h
  refine State.byWrite_kept h ?_
  clear h; intro h
  cases h
  simp only [State.flushWrite_kept]

theorem execQueueFlushDone_kept (s : State) {t : State} :
    execQueueFlushDone s = .next t → t.kept = s.kept := by
  intro h
  unfold execQueueFlushDone at h
  refine unlessHalted_kept h fun h => ?_
  cases h
  simp only [State.setF_kept]

@[simp] theorem State.beamPortWrite_kept (s : State) (p : Nat) (v : Word) (en : Word) :
    (State.beamPortWrite s p v en).kept = s.kept := by
  unfold State.beamPortWrite
  grind [State.kept, foldl_kept, foldl_kept_fst, State.plainWrite_kept, State.setAcct_kept]

@[simp] theorem State.queueCfgWritten_kept (s : State) (i : Nat) :
    (State.queueCfgWritten s i).kept = s.kept := by
  simp only [State.queueCfgWritten]
  repeat' split
  all_goals (try simp only [State.kept_mk])
  all_goals (try with_reducible exact State.kept_eta _)

@[simp] theorem State.failCell_kept (s : State) (bank : Nat) (loc : Nat) :
    (State.failCell s bank loc).kept = s.kept := by
  simp only [State.failCell, State.kept_mk, apply_ite State.kept, ite_self, State.err_kept]
  with_reducible exact State.kept_eta _

@[simp] theorem State.badCell_kept (s : State) (bank : Nat) :
    (State.badCell s bank).kept = s.kept := by
  unfold State.badCell
  grind [State.kept, foldl_kept, foldl_kept_fst, State.draw_kept, State.failCell_kept, State.masked_kept,
    State.cntShared_kept]

@[simp] theorem State.badCells_kept (s : State) (bank : Nat) (k : Nat) : (State.badCells s bank k).kept = s.kept := by
  induction k generalizing s with
  | zero => rfl
  | succ n ih => rw [State.badCells, ih, State.badCell_kept]

@[simp] theorem State.readPkt_kept (s : State) (x : Pkt) (errs : List UnitErr) :
    (State.readPkt s x errs).1.kept = s.kept := by
  unfold State.readPkt
  split
  · exact rfl
  · simp only [State.badCells_kept, State.draw_kept]

@[simp] theorem State.shaperDebit_kept (s : State) (k : Nat) (bytes : Nat) :
    (State.shaperDebit s k bytes).kept = s.kept := by
  simp only [State.shaperDebit]
  repeat' split
  all_goals (try simp only [State.kept_mk])
  all_goals (try with_reducible exact State.kept_eta _)

@[simp] theorem State.setCredit_kept (s : State) (i : Nat) (v : Nat) :
    (State.setCredit s i v).kept = s.kept := by
  simp only [State.setCredit, State.kept_mk]
  with_reducible exact State.kept_eta _

theorem State.dwrr_kept (s : State) (p : Nat) (l : Nat) (qs : List Nat) {t : Nat × State} :
    State.dwrr s p l qs = some t → t.2.kept = s.kept := by
  intro h
  unfold State.dwrr at h
  grind [State.kept, foldl_kept, toOut_ok, ub_ne, PickRes.state?, TaskRes.state?, Looked.state?,
    PatchRes.state?, State.setCredit_kept]

@[simp] theorem State.clearIdle_kept (s : State) (p : Nat) :
    (State.clearIdle s p).kept = s.kept := by
  unfold State.clearIdle
  grind [State.kept, foldl_kept, foldl_kept_fst, State.setCredit_kept]

theorem execEgressCall_kept (p : Port) (s : State) {t : State} :
    execEgressCall p s = .next t → t.kept = s.kept := by
  intro h
  unfold execEgressCall at h
  grind [State.kept, foldl_kept, toOut_ok, ub_ne, PickRes.state?, TaskRes.state?, Looked.state?,
    PatchRes.state?, State.clearIdle_kept, State.setQueue_kept, State.setCredit_kept, State.shaperDebit_kept,
    State.lpiWake_kept, State.setCalled_kept, → State.dwrr_kept]

@[simp] theorem State.movePtrs_kept (s : State) (e : Nat × Nat) :
    (State.movePtrs s e).kept = s.kept := by
  simp only [State.movePtrs, State.kept_mk]
  with_reducible exact State.kept_eta _

@[simp] theorem State.transfer_kept (s : State) (e : Nat × Nat) :
    (State.transfer s e).kept = s.kept := by
  simp only [State.transfer, State.setCalled_kept]

theorem execGrantPeriod_kept (s : State) {t : State} :
    execGrantPeriod s = .next t → t.kept = s.kept := by
  intro h
  unfold execGrantPeriod at h
  grind [State.kept, foldl_kept, toOut_ok, ub_ne, PickRes.state?, TaskRes.state?, Looked.state?,
    PatchRes.state?, State.transfer_kept, State.movePtrs_kept]

@[simp] theorem State.setTx_kept (s : State) (p : Nat) (t : Option Tx) :
    (State.setTx s p t).kept = s.kept := by
  simp only [State.setTx, State.kept_mk]
  with_reducible exact State.kept_eta _

@[simp] theorem State.uncall_kept (s : State) (p : Nat) : (State.uncall s p).kept = s.kept := by
  unfold State.uncall
  extract_lets l back u v
  have hu : u.kept = s.kept := State.setCalled_kept _ _ _
  have hv : v.kept = s.kept := by
    dsimp only [v]
    split
    · exact hu
    · exact (State.callGone_kept _ _).trans hu
  exact (foldl_kept _ (fun _ _ => State.setQueue_kept _ _ _) _ _).trans hv

@[simp] theorem State.beamPortDown_kept (s : State) (p : Nat) :
    (State.beamPortDown s p).kept = s.kept := by
  simp only [State.beamPortDown]
  repeat' split
  all_goals (try simp only [apply_ite State.kept, ite_self, State.cntPort_kept, State.cntQueue_kept, State.dropRef_kept, State.callGone_kept, State.setTx_kept, State.uncall_kept, State.kept_mk])
  all_goals (try with_reducible exact State.kept_eta _)

@[simp] theorem State.withdrawCopies_kept (s : State) (p : Nat) :
    (State.withdrawCopies s p).kept = s.kept := by
  unfold State.withdrawCopies
  grind [State.kept, foldl_kept, foldl_kept_fst, State.setQueue_kept, State.setResidue_kept,
    State.callGone_kept, State.setCalled_kept, State.dropRef_kept]

@[simp] theorem State.noteMax_kept (s : State) (p : Nat) (old : Nat) :
    (State.noteMax s p old).kept = s.kept := by
  simp only [State.noteMax]
  repeat' split
  all_goals (try simp only [State.kept_mk])
  all_goals (try with_reducible exact State.kept_eta _)

@[simp] theorem State.txqPut_kept (s : State) (d : Nat) (port : Nat) (id : Nat) (t : Nat) :
    (State.txqPut s d port id t).kept = s.kept := by
  simp only [State.txqPut]
  repeat' split
  all_goals (try simp only [State.kept_mk, State.setF_kept, State.incF_kept, State.err_kept])
  all_goals (try with_reducible exact State.kept_eta _)

@[simp] theorem State.ptpSkip_kept (s : State) (d : Nat) :
    (State.ptpSkip s d).kept = s.kept := by
  simp only [State.ptpSkip, State.err_kept, State.incF_kept]

@[simp] theorem State.ptpAction_kept (s : State) (p : Nat) (x : Pkt) (dl : Int) (tagged : Nat) (f : List Byte)
    :
    (State.ptpAction s p x dl tagged f).1.kept = s.kept := by
  simp only [State.ptpAction]
  repeat' split
  all_goals (try simp only [State.ptpSkip_kept])

@[simp] theorem State.takeStamps_kept (s : State) (p : Nat) (x : Pkt) :
    (State.takeStamps s p x).kept = s.kept := by
  unfold State.takeStamps
  grind [State.kept, foldl_kept, foldl_kept_fst, State.txqPut_kept]

@[simp] theorem State.egressDrop_kept (s : State) (p : Nat) (c : Called) (x : Pkt) :
    (State.egressDrop s p c x).kept = s.kept := by
  simp only [State.egressDrop, apply_ite State.kept, ite_self,
    State.cntPort_kept, State.dropRef_kept, State.unsent_kept]

@[simp] theorem State.spoilTx_kept (s : State) (p : Nat) (bank : Nat) (errs : List UnitErr) (t : Tx) :
    (State.spoilTx s p bank errs t).kept = s.kept := by
  simp only [State.spoilTx]
  repeat' split
  all_goals simp only [State.setTx_kept, State.badCells_kept, State.draw_kept]

@[simp] theorem State.startTx_kept (s : State) (p : Nat) (c : Called) (x : Pkt) (errs : List UnitErr) :
    (State.startTx s p c x errs).kept = s.kept := by
  simp only [State.startTx, apply_ite State.kept, ite_self,
    State.takeStamps_kept, State.callGone_kept, State.spoilTx_kept, State.setTx_kept, State.egressDrop_kept,
    State.badCells_kept, State.ptpAction_kept, State.cntPort_kept]

theorem execTransmitFrame_kept (p : Port) (errs : List UnitErr) (s : State) {t : State} :
    execTransmitFrame p errs s = .next t → t.kept = s.kept := by
  intro h
  unfold execTransmitFrame at h
  grind [State.kept, foldl_kept, toOut_ok, ub_ne, PickRes.state?, TaskRes.state?, Looked.state?,
    PatchRes.state?, State.spoilTx_kept, State.setTx_kept, State.setCalled_kept, State.startTx_kept, →
    unlessHalted_cases]

@[simp] theorem State.sendFrame_kept (s : State) (p : Nat) (f : List Byte) (stomped : Bool) :
    (State.sendFrame s p f stomped).kept = s.kept := by
  simp only [State.sendFrame, State.kept_mk, apply_ite State.kept, ite_self, State.cntPort_kept]
  with_reducible exact State.kept_eta _

theorem execTransmitComplete_kept (p : Port) (s : State) {t : State} :
    execTransmitComplete p s = .next t → t.kept = s.kept := by
  intro h
  unfold execTransmitComplete at h
  grind [State.kept, foldl_kept, toOut_ok, ub_ne, PickRes.state?, TaskRes.state?, Looked.state?,
    PatchRes.state?, State.dropRef_kept, State.setTx_kept, State.sendFrame_kept, State.callGone_kept, →
    unlessHalted_cases]

@[simp] theorem State.pfcSend_kept (s : State) (p : Nat) :
    (State.pfcSend s p).kept = s.kept := by
  simp only [State.pfcSend, State.cntPort_kept, State.sendFrame_kept, State.updPort_kept]

theorem execPfcFrameSend_kept (p : Port) (s : State) {t : State} :
    execPfcFrameSend p s = .next t → t.kept = s.kept := by
  intro h
  unfold execPfcFrameSend at h
  grind [State.kept, foldl_kept, toOut_ok, ub_ne, PickRes.state?, TaskRes.state?, Looked.state?,
    PatchRes.state?, State.pfcSend_kept, → unlessHalted_cases]

theorem execPfcRefresh_kept (p : Port) (s : State) {t : State} :
    execPfcRefresh p s = .next t → t.kept = s.kept := by
  intro h
  unfold execPfcRefresh at h
  grind [State.kept, foldl_kept, toOut_ok, ub_ne, PickRes.state?, TaskRes.state?, Looked.state?,
    PatchRes.state?, State.pfcSend_kept, State.askPfc_kept, → unlessHalted_cases]

theorem execFwd_kept (c : Ctx) (w : IWord) (s : State) {t : State} :
    execFwd c w s = .next t → t.kept = s.kept := by
  intro h
  unfold execFwd at h
  split at h
  · exact taskIllegal_kept _ _ h
  · refine runPick_kept _ _ _ _ ?_ h
    clear h
    intro x u hu
    cases hu; rw [State.setPkt_kept]

theorem execMcast_kept (c : Ctx) (w : IWord) (s : State) {t : State} :
    execMcast c w s = .next t → t.kept = s.kept := by
  intro h
  unfold execMcast at h
  split at h
  · exact taskIllegal_kept _ _ h
  · refine runPick_kept _ _ _ _ ?_ h
    clear h
    intro x u hu
    cases hu; rw [State.setPkt_kept]

theorem execDrop_kept (c : Ctx) (w : IWord) (s : State) {t : State} :
    execDrop c w s = .next t → t.kept = s.kept := by
  intro h
  unfold execDrop at h
  grind [State.kept, foldl_kept, toOut_ok, ub_ne, PickRes.state?, TaskRes.state?, Looked.state?,
    PatchRes.state?, → taskIllegal_kept, → pickPure_kept]

@[simp] theorem State.setPuntBucket_kept (s : State) (n : Nat) (r : Nat) (b : Bucket) :
    (State.setPuntBucket s n r b).kept = s.kept := by
  simp only [State.setPuntBucket, State.kept_mk]
  with_reducible exact State.kept_eta _

theorem execPunt_kept (c : Ctx) (w : IWord) (s : State) {t : State} :
    execPunt c w s = .next t → t.kept = s.kept := by
  intro h
  unfold execPunt at h
  (repeat' split at h) <;> first
    | exact taskIllegal_kept _ _ h
    | refine runPick_kept _ _ _ _ ?_ h
      clear h
      intro x u hu
      (try simp only at hu)
      (repeat' split at hu) <;> first
        | (cases hu; simp only [State.incF_kept,
              State.setPkt_kept, State.setPuntBucket_kept])

theorem execRecirc_kept (c : Ctx) (x1 : IWord) (s : State) {t : State} :
    execRecirc c x1 s = .next t → t.kept = s.kept := by
  intro h
  unfold execRecirc at h
  (repeat' split at h) <;> first
    | exact taskIllegal_kept _ _ h
    | refine runPick_kept _ _ _ _ ?_ h
      clear h
      intro x u hu
      (repeat' split at hu) <;> first
        | grind [State.kept, PickRes.state?, TaskRes.state?, Looked.state?, State.cntLoom_kept,
              State.setPkt_kept, State.addBank_kept, → taskIllegal_kept]

@[simp] theorem State.pickStarts_kept (s : State) (x : Pkt) :
    (State.pickStarts s x).kept = s.kept := by
  simp only [State.pickStarts, State.event_kept, State.cntLoom_kept]

theorem State.enterDraft_kept (s : State) (p : Nat) {t : State} :
    State.enterDraft s p = .ok t → t.kept = s.kept := by
  intro h
  unfold State.enterDraft at h
  grind [State.kept, foldl_kept, toOut_ok, ub_ne, PickRes.state?, TaskRes.state?, Looked.state?,
    PatchRes.state?, State.setPkt_kept, → State.endPickDrop_kept]

theorem execHeddleParse_kept (p : PktId) (s : State) {t : State} :
    execHeddleParse p s = .next t → t.kept = s.kept := by
  intro h
  unfold execHeddleParse at h
  grind [State.kept, foldl_kept, toOut_ok, ub_ne, PickRes.state?, TaskRes.state?, Looked.state?,
    PatchRes.state?, State.pickStarts_kept, State.setPkt_kept]

theorem execPickStart_kept (p : PktId) (s : State) {t : State} :
    execPickStart p s = .next t → t.kept = s.kept := by
  intro h
  unfold execPickStart at h
  grind [State.kept, foldl_kept, toOut_ok, ub_ne, PickRes.state?, TaskRes.state?, Looked.state?,
    PatchRes.state?, → State.enterDraft_kept]

theorem execRecircReturn_kept (a : LoomRead) (s : State) {t : State} :
    execRecircReturn a s = .next t → t.kept = s.kept := by
  intro h
  unfold execRecircReturn at h
  extract_lets n at h
  split at h
  · cases h; rfl
  · split at h
    · cases h; rfl
    · split at h
      · cases h; exact State.setQueue_kept _ _ _
      · split at h
        · cases h; rfl
        · refine (State.enterDraft_kept _ _ (toOut_ok.1 h)).trans ?_
          simp only [State.pickStarts_kept, State.setPkt_kept, State.kept_mk]
          refine (State.kept_eta _).trans ?_
          simp only [State.readPkt_kept, State.setQueue_kept]

@[simp] theorem State.addPkt_kept (s : State) (x : Pkt) :
    (State.addPkt s x).kept = s.kept := by
  simp only [State.addPkt, State.kept_mk, State.setPkt_kept]
  with_reducible exact State.kept_eta _

@[simp] theorem State.pfcObey_kept (s : State) (p : Nat) (f : List Byte) :
    (State.pfcObey s p f).kept = s.kept := by
  unfold State.pfcObey
  grind [State.kept, foldl_kept, foldl_kept_fst]

@[simp] theorem State.macControl_kept (s : State) (p : Nat) (f : List Byte) :
    (State.macControl s p f).kept = s.kept := by
  simp only [State.macControl, apply_ite State.kept, ite_self, State.cntPort_kept, State.pfcObey_kept]

@[simp] theorem State.dataFrame_kept (s : State) (p : Nat) (f : List Byte) :
    (State.dataFrame s p f).kept = s.kept := by
  simp only [State.dataFrame, apply_ite State.kept, ite_self, State.cntPort_kept, State.addPkt_kept]

theorem execFrameReceive_kept (p : Port) (frame : List Byte) (s : State) {t : State} :
    execFrameReceive p frame s = .next t → t.kept = s.kept := by
  intro h
  unfold execFrameReceive at h
  grind [State.kept, foldl_kept, toOut_ok, ub_ne, PickRes.state?, TaskRes.state?, Looked.state?,
    PatchRes.state?, State.cntPort_kept, State.macControl_kept, State.dataFrame_kept]

theorem execPfcPauseExpire_kept (p : Port) (cl : Fin 8) (s : State) {t : State} :
    execPfcPauseExpire p cl s = .next t → t.kept = s.kept := by
  intro h
  unfold execPfcPauseExpire at h
  grind [State.kept, foldl_kept, toOut_ok, ub_ne, PickRes.state?, TaskRes.state?, Looked.state?,
    PatchRes.state?, → unlessHalted_cases]

@[simp] theorem State.dropRunning_kept (s : State) (p : Nat) (x : Pkt) :
    (State.dropRunning s p x).kept = s.kept := by
  simp only [State.dropRunning]
  repeat' split
  all_goals (try simp only [apply_ite State.kept, ite_self, State.setPkt_kept, State.freeRec_kept, State.freeLine_kept, State.returnResv_kept, State.unpin_kept, State.freeSpare_kept, State.kept_mk])
  all_goals (try with_reducible exact State.kept_eta _)

@[simp] theorem State.dropKept_kept (s : State) (p : Nat) (x : Pkt) :
    (State.dropKept s p x).kept = s.kept := by
  simp only [State.dropKept]
  repeat' split
  all_goals (try simp only [
    State.unpin_kept, State.returnResv_kept, State.unsent_kept, State.setPkt_kept, State.setQueue_kept])

@[simp] theorem State.dropStored_kept (s : State) (p : Nat) (x : Pkt) :
    (State.dropStored s p x).kept = s.kept := by
  unfold State.dropStored
  grind [State.kept, foldl_kept, foldl_kept_fst, State.unsent_kept, State.withdrawCopies_kept]

theorem execFcsError_kept (p : PktId) (s : State) {t : State} :
    execFcsError p s = .next t → t.kept = s.kept := by
  intro h
  unfold execFcsError at h
  grind [State.kept, foldl_kept, toOut_ok, ub_ne, PickRes.state?, TaskRes.state?, Looked.state?,
    PatchRes.state?, State.setPkt_kept, State.dropRunning_kept, State.dropKept_kept, State.dropStored_kept, →
    unlessHalted_cases]

@[simp] theorem State.setRetire_kept (s : State) (k : Nat) (r : Option Retire) :
    (State.setRetire s k r).kept = s.kept := by
  simp only [State.setRetire, State.kept_mk]
  with_reducible exact State.kept_eta _

@[simp] theorem State.dropReqs_kept (s : State) (c : Nat) (gone : Req → Bool) :
    (State.dropReqs s c gone).kept = s.kept := by
  simp only [State.dropReqs, apply_ite State.kept, ite_self, State.updChan_kept, State.kept_mk]

@[simp] theorem State.readLost_kept (s : State) (a : Nat) :
    (State.readLost s a).kept = s.kept := by
  simp only [State.readLost, State.masked_kept]

@[simp] theorem State.loadDone_kept (s : State) (k : Nat) (l : Load) :
    (State.loadDone s k l).kept = s.kept := by
  unfold State.loadDone
  grind [State.kept, foldl_kept, foldl_kept_fst, State.uncRead_kept, State.updTask_kept, State.readLost_kept]

@[simp] theorem State.settleLoads_kept (s : State) :
    (State.settleLoads s).kept = s.kept := by
  unfold State.settleLoads
  grind [State.kept, foldl_kept, foldl_kept_fst, State.loadDone_kept]

@[simp] theorem State.dropRequests_kept (s : State) (k : Nat) :
    (State.dropRequests s k).kept = s.kept := by
  unfold State.dropRequests
  grind [State.kept, foldl_kept, foldl_kept_fst, State.dropReqs_kept, State.settleLoads_kept]

@[simp] theorem State.withdraw_kept (s : State) (k : Nat) :
    (State.withdraw s k).kept = s.kept := by
  unfold State.withdraw
  grind [State.kept, foldl_kept, foldl_kept_fst, State.loseRec_kept]

@[simp] theorem State.retireOff_kept (s : State) (k : Nat) :
    (State.retireOff s k).kept = s.kept := by
  unfold State.retireOff
  grind [State.kept, foldl_kept, foldl_kept_fst, State.setChanState_kept, State.setF_kept,
    State.setRetire_kept, State.creelCmdOf_kept]

@[simp] theorem State.stackGone_kept (s : State) (k : Nat) :
    (State.stackGone s k).kept = s.kept := by
  simp only [State.stackGone, apply_ite State.kept, ite_self,
    State.setBit_kept, State.retireOff_kept, State.dropRequests_kept, State.err_kept, State.withdraw_kept]

@[simp] theorem State.noSpare_kept (s : State) (c : Nat) :
    (State.noSpare s c).kept = s.kept := by
  simp only [State.noSpare, apply_ite State.kept, ite_self,
    State.creelCmdOf_kept, State.stackGone_kept, State.wr_kept, State.err_kept]

@[simp] theorem State.trainSpare_kept (s : State) (r : Retire) :
    (State.trainSpare s r).kept = s.kept := by
  simp only [State.trainSpare, apply_ite State.kept, ite_self, State.wr_kept, State.setF_kept, State.setChanState_kept, State.setRetire_kept, State.kept_mk]

@[simp] theorem State.startRetire_kept (s : State) (c : Nat) (copy : Bool) :
    (State.startRetire s c copy).kept = s.kept := by
  simp only [State.startRetire]
  repeat' split
  all_goals (try simp only [State.kept_mk, State.creelCmdOf_kept, State.noSpare_kept, State.trainSpare_kept])
  all_goals (try with_reducible exact State.kept_eta _)

@[simp] theorem State.nextRetire_kept (s : State) (k : Nat) :
    (State.nextRetire s k).kept = s.kept := by
  simp only [State.nextRetire]
  repeat' split
  all_goals (try simp only [State.kept_mk, State.startRetire_kept])
  all_goals (try with_reducible exact State.kept_eta _)

@[simp] theorem State.startWaiting_kept (s : State) :
    (State.startWaiting s).kept = s.kept := by
  unfold State.startWaiting
  grind [State.kept, foldl_kept, foldl_kept_fst, State.nextRetire_kept]

@[simp] theorem State.queueCopy_kept (s : State) (r : Retire) :
    (State.queueCopy s r).kept = s.kept := by
  simp only [State.queueCopy, State.kept_mk, State.updChan_kept]
  with_reducible exact State.kept_eta _

@[simp] theorem State.nextSpare_kept (s : State) (r : Retire) :
    (State.nextSpare s r).kept = s.kept := by
  simp only [State.nextSpare]
  repeat' split
  all_goals (try simp only [apply_ite State.kept, ite_self, State.setF_kept, State.setRetire_kept, State.dropReqs_kept, State.stackGone_kept, State.noSpare_kept, State.trainSpare_kept, State.nextRetire_kept, State.kept_mk])
  all_goals (try with_reducible exact State.kept_eta _)

@[simp] theorem State.chanDead_kept (s : State) (c : Nat) :
    (State.chanDead s c).kept = s.kept := by
  unfold State.chanDead
  extract_lets st u
  have hu : u.kept = s.kept := by
    simp only [u, State.searchOff_kept, State.settleLoads_kept, State.updChan_kept, State.setChanState_kept]
  clear_value u
  rw [← hu]
  repeat' split
  all_goals simp only [State.nextSpare_kept, State.setRetire_kept, State.queueCopy_kept, State.startRetire_kept]

@[simp] theorem State.loseStack_kept (s : State) (k : Nat) :
    (State.loseStack s k).kept = s.kept := by
  unfold State.loseStack
  grind [State.kept, foldl_kept, foldl_kept_fst, State.stackGone_kept, State.startWaiting_kept, State.chanDead_kept]

@[simp] theorem State.tableMiss_kept (s : State) (a : Nat) :
    (State.tableMiss s a).kept = s.kept := by
  simp only [State.tableMiss, State.masked_kept]

@[simp] theorem State.readMirrored_kept (s : State) (who : EvMaster) (a : Nat) :
    (State.readMirrored s who a).1.kept = s.kept := by
  simp only [State.readMirrored]
  repeat' split
  all_goals (try simp only [apply_ite State.kept, ite_self, State.uncRead_kept, State.uncAlone_kept, State.hbmTraffic_kept, State.hbmPutLine_kept, State.startWaiting_kept, State.kept_mk])
  all_goals (try with_reducible exact State.kept_eta _)

@[simp] theorem State.lookX_kept (s : State) (seq : BitVec 32) (who : EvMaster) (v6 : Bool) (key : Nat) (vrf :
    Nat) :
    (State.lookX s seq who v6 key vrf).1.kept = s.kept := by
  simp only [State.lookX]
  repeat' split
  all_goals (try simp only [State.hbmTraffic_kept, State.tableMiss_kept, State.uncRead_kept])

@[simp] theorem State.stblRead_kept (s : State) (seq : BitVec 32) (who : EvMaster) (t a lo hi : Nat) :
    (State.stblRead s seq who t a lo hi).1.kept = s.kept := by
  unfold State.stblRead
  extract_lets u
  have hu : u.kept = s.kept := by
    simp only [u]
    split
    · rfl
    · exact State.hbmTraffic_kept _ _ _ _ _ _
  clear_value u
  split
  · have hr := State.readMirrored_kept u who a
    split
    · rename_i h; rw [h] at hr; simp only [State.tableMiss_kept]; exact hr.trans hu
    · rename_i h; rw [h] at hr; exact hr.trans hu
  · split
    · simp only [State.tableMiss_kept, State.uncRead_kept, hu]
    · exact hu

@[simp] theorem State.lookS_kept (s : State) (seq : BitVec 32) (who : EvMaster) (t : Nat) (lo : Nat) (hi :
    Nat) :
    (State.lookS s seq who t lo hi).1.kept = s.kept := by
  unfold State.lookS
  grind [State.kept, foldl_kept, foldl_kept_fst, State.stblRead_kept]

@[simp] theorem State.lookTable_kept (s : State) (seq : BitVec 32) (who : EvMaster) (t : Nat) (lo : Word) (hi
    : Word) (vrf : Nat) :
    (State.lookTable s seq who t lo hi vrf).1.kept = s.kept := by
  simp only [State.lookTable]
  repeat' split
  all_goals (try simp only [State.lookX_kept, State.lookS_kept])

@[simp] theorem State.macHit_kept (s : State) (t : Nat) (e : Nat) (n : Nat) :
    (State.macHit s t e n).kept = s.kept := by
  simp only [State.macHit, apply_ite State.kept, ite_self, State.kept_mk]
  with_reducible exact State.kept_eta _

@[simp] theorem State.sourceAux_kept (s : State) (x : Pkt) (k : Nat) (w1 : Option Nat) :
    (State.sourceAux s x k w1).1.kept = s.kept := by
  simp only [State.sourceAux]
  repeat' split
  all_goals (try simp only [State.kept_mk, State.err_kept, State.incF_kept])
  all_goals (try with_reducible exact State.kept_eta _)

@[simp] theorem State.sourceLookup_kept (s : State) (x : Pkt) (lo : Word) :
    (State.sourceLookup s x lo).1.kept = s.kept := by
  simp only [State.sourceLookup]
  repeat' split
  all_goals (try simp only [apply_ite State.kept, ite_self, State.macHit_kept, State.sourceAux_kept, State.kept_mk])
  all_goals (try with_reducible exact State.kept_eta _)

theorem ldtPick_kept (w : IWord) (x : Pkt) (p : Nat) (s : State) {t : State} :
    (ldtPick w x p s).state? = some t → t.kept = s.kept := by
  intro h
  unfold ldtPick at h
  grind [State.kept, foldl_kept, toOut_ok, ub_ne, PickRes.state?, TaskRes.state?, Looked.state?,
    PatchRes.state?, State.hbmWake_kept, State.lookTable_kept, State.sourceLookup_kept, State.setPkt_kept]

theorem ldtTask_kept (w : IWord) (k : Nat) (t : Task) (s : State) {tt : State} :
    (ldtTask w k t s).state? = some tt → tt.kept = s.kept := by
  intro h
  unfold ldtTask at h
  grind [State.kept, foldl_kept, toOut_ok, ub_ne, PickRes.state?, TaskRes.state?, Looked.state?,
    PatchRes.state?, State.hbmWake_kept, State.lookTable_kept, State.setTask_kept]

theorem execLdT_kept (c : Ctx) (w : IWord) (s : State) {t : State} :
    execLdT c w s = .next t → t.kept = s.kept := by
  intro h
  unfold execLdT at h
  (repeat' split at h) <;> first
    | (first | refine runPick_kept _ _ _ _ ?_ h | refine runTask_kept _ _ _ _ _ ?_ h)
      clear h
      intro x u hu
      grind [→ ldtPick_kept, → ldtTask_kept]

@[simp] theorem State.learnPost_kept (s : State) (f : Fld) (typ : Nat) (v : LearnEv) (old : Nat) (e : Option
    Nat) :
    (State.learnPost s f typ v old e).kept = s.kept := by
  simp only [State.learnPost, apply_ite State.kept, ite_self, State.post_kept]

@[simp] theorem State.macWord1_kept (s : State) (e : Nat) (w : Nat) :
    (State.macWord1 s e w).kept = s.kept := by
  simp only [State.macWord1, State.mendLost_kept, State.setLe_kept]

@[simp] theorem State.macInstall_kept (s : State) (v : LearnEv) (e : Nat) :
    (State.macInstall s v e).kept = s.kept := by
  unfold State.macInstall
  grind [State.kept, foldl_kept, foldl_kept_fst, State.macWord1_kept, State.mendLost_kept, State.setLe_kept]

@[simp] theorem State.macMove_kept (s : State) (v : LearnEv) (e : Nat) :
    (State.macMove s v e).kept = s.kept := by
  unfold State.macMove
  grind [State.kept, foldl_kept, foldl_kept_fst, State.macWord1_kept, State.learnPost_kept, State.setF_kept]

@[simp] theorem State.deferLearn_kept (s : State) (v : LearnEv) :
    (State.deferLearn s v).kept = s.kept := by
  simp only [State.deferLearn]
  repeat' split
  all_goals (try simp only [State.kept_mk, State.err_kept, State.incF_kept])
  all_goals (try with_reducible exact State.kept_eta _)

@[simp] theorem State.judge_kept (s : State) (v : LearnEv) :
    (State.judge s v).kept = s.kept := by
  simp only [State.judge]
  repeat' split
  all_goals (try simp only [
    State.learnPost_kept, State.setF_kept, State.cntShared_kept, State.deferLearn_kept, State.macMove_kept,
    State.macInstall_kept])

@[simp] theorem State.unpinned_kept (s : State) (e : Nat) :
    (State.unpinned s e).kept = s.kept := by
  simp only [State.unpinned, State.kept_mk]
  with_reducible exact State.kept_eta _

@[simp] theorem State.ageEntry_kept (s : State) (e : Nat) (clear : Bool) :
    (State.ageEntry s e clear).kept = s.kept := by
  simp only [State.ageEntry]
  repeat' split
  all_goals (try simp only [State.kept_mk,
    State.wr_kept, State.unpinned_kept, State.mendLost_kept, State.setLe_kept])
  all_goals (try with_reducible exact State.kept_eta _)

@[simp] theorem State.runAge_kept (s : State) :
    (State.runAge s).kept = s.kept := by
  simp only [State.runAge]
  repeat' split
  all_goals (try simp only [State.kept_mk, State.ageEntry_kept])
  all_goals (try with_reducible exact State.kept_eta _)

theorem execLearnEvent_kept (s : State) {t : State} :
    execLearnEvent s = .next t → t.kept = s.kept := by
  intro h
  unfold execLearnEvent at h
  grind [State.kept, foldl_kept, toOut_ok, ub_ne, PickRes.state?, TaskRes.state?, Looked.state?,
    PatchRes.state?, State.event_kept, State.incF_kept, State.runAge_kept, State.judge_kept, →
    unlessHalted_cases]

@[simp] theorem State.pinClear_kept (s : State) (e : Nat) :
    (State.pinClear s e).kept = s.kept := by
  unfold State.pinClear
  grind [State.kept, foldl_kept, foldl_kept_fst, State.unpinned_kept, State.macWord1_kept]

@[simp] theorem State.undefer_kept (s : State) (lock : Nat) :
    (State.undefer s lock).kept = s.kept := by
  unfold State.undefer
  grind [State.kept, foldl_kept, foldl_kept_fst, State.pinClear_kept]

@[simp] theorem State.deferPin_kept (s : State) (e : Nat) :
    (State.deferPin s e).kept = s.kept := by
  simp only [State.deferPin]
  repeat' split
  all_goals (try simp only [State.kept_mk, State.err_kept, State.incF_kept])
  all_goals (try with_reducible exact State.kept_eta _)

theorem execPinRelease_kept (e : Fin 131072) (s : State) {t : State} :
    execPinRelease e s = .next t → t.kept = s.kept := by
  intro h
  unfold execPinRelease at h
  grind [State.kept, foldl_kept, toOut_ok, ub_ne, PickRes.state?, TaskRes.state?, Looked.state?,
    PatchRes.state?, State.deferPin_kept, State.pinClear_kept, → unlessHalted_cases]

@[simp] theorem State.macWritten_kept (s : State) (e : Nat) :
    (State.macWritten s e).kept = s.kept := by
  simp only [State.macWritten]
  repeat' split
  all_goals (try simp only [State.unpinned_kept])

theorem State.ageCmdWrite_kept (s : State) (v : Word) (en : Word) {t : State} :
    State.ageCmdWrite s v en = .ok t → t.kept = s.kept := by
  intro h
  unfold State.ageCmdWrite at h
  grind [State.kept, foldl_kept, toOut_ok, ub_ne, PickRes.state?, TaskRes.state?, Looked.state?,
    PatchRes.state?, State.plainWrite_kept, State.setF_kept, State.runAge_kept]

theorem execAgeCmd_kept (v : Word) (s : State) {t : State} :
    execAgeCmd v s = .next t → t.kept = s.kept := by
  intro h
  unfold execAgeCmd at h
  refine State.byWrite_kept h ?_
  clear h; intro h
  exact State.ageCmdWrite_kept _ _ _ h

theorem State.learnCtlWrite_kept (s : State) (v : Word) (en : Word) {t : State} :
    State.learnCtlWrite s v en = .ok t → t.kept = s.kept := by
  intro h
  unfold State.learnCtlWrite at h
  grind [State.kept, foldl_kept, toOut_ok, ub_ne, PickRes.state?, TaskRes.state?, Looked.state?,
    PatchRes.state?, State.plainWrite_kept]

theorem State.lpmxBaseWrite_kept (s : State) (i : Nat) (v : Word) (en : Word) {t : State} :
    State.lpmxBaseWrite s i v en = .ok t → t.kept = s.kept := by
  intro h
  unfold State.lpmxBaseWrite at h
  grind [State.kept, foldl_kept, toOut_ok, ub_ne, PickRes.state?, TaskRes.state?, Looked.state?,
    PatchRes.state?, State.plainWrite_kept]

theorem State.lpmxCntWrite_kept (s : State) (i : Nat) (v : Word) (en : Word) {t : State} :
    State.lpmxCntWrite s i v en = .ok t → t.kept = s.kept := by
  intro h
  unfold State.lpmxCntWrite at h
  grind [State.kept, foldl_kept, toOut_ok, ub_ne, PickRes.state?, TaskRes.state?, Looked.state?,
    PatchRes.state?, State.plainWrite_kept, State.setF_kept]

theorem execIndexBuild_kept (t : XTable) (v : Word) (s : State) {tt : State} :
    execIndexBuild t v s = .next tt → tt.kept = s.kept := by
  intro h
  unfold execIndexBuild at h
  refine State.byWrite_kept h ?_
  clear h; intro h
  exact State.lpmxCntWrite_kept _ _ _ _ h

theorem execIndexBuildDone_kept (t : XTable) (s : State) {tt : State} :
    execIndexBuildDone t s = .next tt → tt.kept = s.kept := by
  intro h
  unfold execIndexBuildDone at h
  refine unlessHalted_kept h fun h => ?_
  cases h
  simp only [State.setF_kept]

theorem State.cmpWrite_kept (s : State) (a : Nat) (v : Word) (en : Word) {t : State} :
    State.cmpWrite s a v en = .ok t → t.kept = s.kept := by
  intro h
  unfold State.cmpWrite at h
  grind [State.kept, foldl_kept, toOut_ok, ub_ne, PickRes.state?, TaskRes.state?, Looked.state?,
    PatchRes.state?, State.plainWrite_kept, State.wr_kept, State.setF_kept]

theorem execCompareStart_kept (v : Word) (s : State) {t : State} :
    execCompareStart v s = .next t → t.kept = s.kept := by
  intro h
  unfold execCompareStart at h
  refine State.byWrite_kept h ?_
  clear h; intro h
  exact State.cmpWrite_kept _ _ _ _ h

end Sys2Proof.Machine
end

