-- ==== Sys2Proof/Laws/KeptSpin.lean ====
section
/-! SUPPORT. Control threads, punts, battens queued, digests, measurements:
what each definition keeps of the queue, the trip latch and the bound of the host's batten list
(Laws/Kept.lean). One lemma a definition, so that no proof unfolds one again. -/

namespace Sys2Proof.Machine

@[simp] theorem State.releaseTask_kept (s : State) (k : Nat) :
    (State.releaseTask s k).kept = s.kept := by
  simp only [State.releaseTask, apply_ite State.kept, ite_self, State.pushReady_kept, State.setTask_kept]

theorem execTaskRelease_kept (k : TaskId) (s : State) {t : State} :
    execTaskRelease k s = .next t → t.kept = s.kept := by
  intro h
  unfold execTaskRelease at h
  grind [State.kept, foldl_kept, toOut_ok, ub_ne, PickRes.state?, TaskRes.state?, Looked.state?,
    PatchRes.state?, State.releaseTask_kept, State.setTask_kept, → unlessHalted_cases]

@[simp] theorem State.missed_kept (s : State) (k : Nat) :
    (State.missed s k).kept = s.kept := by
  simp only [State.missed]
  repeat' split
  all_goals (try simp only [State.setTask_kept, State.setF_kept, State.post_kept])

theorem execDeadlineMiss_kept (k : TaskId) (s : State) {t : State} :
    execDeadlineMiss k s = .next t → t.kept = s.kept := by
  intro h
  unfold execDeadlineMiss at h
  refine unlessHalted_kept h fun h => ?_
  cases h
  simp only [State.missed_kept]

@[simp] theorem State.endActivation_kept (s : State) (k : Nat) :
    (State.endActivation s k).kept = s.kept := by
  simp only [State.endActivation, apply_ite State.kept, ite_self,
    State.leaveCtx_kept, State.missed_kept, State.updTask_kept, State.releaseTask_kept,
    State.activateByFlag_kept]

@[simp] theorem State.blockTask_kept (s : State) (k : Nat) (w : TaskWait) :
    (State.blockTask s k w).kept = s.kept := by
  simp only [State.blockTask, State.updTask_kept, State.leaveCtx_kept]

theorem State.codeTask_kept (s : State) (k : Nat) (code : Nat) {t : State} :
    (State.codeTask s k code).state? = some t → t.kept = s.kept := by
  intro h
  unfold State.codeTask at h
  grind [State.kept, foldl_kept, toOut_ok, ub_ne, PickRes.state?, TaskRes.state?, Looked.state?,
    PatchRes.state?, State.updTask_kept]

theorem State.giveTask_kept (s : State) (k : Nat) (d : BitVec 6) (v : Word) (code : Nat) {t : State} :
    (State.giveTask s k d v code).state? = some t → t.kept = s.kept := by
  intro h
  unfold State.giveTask at h
  grind [State.kept, foldl_kept, toOut_ok, ub_ne, PickRes.state?, TaskRes.state?, Looked.state?,
    PatchRes.state?, State.updTask_kept]

@[simp] theorem State.setLock_kept (s : State) (name : Nat) (l : Option Lock) :
    (State.setLock s name l).kept = s.kept := by
  simp only [State.setLock, State.kept_mk]
  with_reducible exact State.kept_eta _

theorem lockTask_kept (w : IWord) (k : Nat) (t : Task) (s : State) {tt : State} :
    (lockTask w k t s).state? = some tt → tt.kept = s.kept := by
  intro h
  unfold lockTask at h
  grind [State.kept, foldl_kept, toOut_ok, ub_ne, PickRes.state?, TaskRes.state?, Looked.state?,
    PatchRes.state?, State.updTask_kept, State.blockTask_kept, State.setLock_kept, → State.codeTask_kept]

theorem execLock_kept (c : Ctx) (w : IWord) (s : State) {t : State} :
    execLock c w s = .next t → t.kept = s.kept := by
  intro h
  unfold execLock at h
  (repeat' split at h) <;> first
    | exact pickIllegal_kept _ _ _ h
    | refine runTask_kept _ _ _ _ _ ?_ h
      clear h
      intro x u hu
      grind [→ pickIllegal_kept, → lockTask_kept]

@[simp] theorem State.unlock_kept (s : State) (k : Nat) (name : Nat) :
    (State.unlock s k name).kept = s.kept := by
  simp only [State.unlock]
  repeat' split
  all_goals (try simp only [State.updTask_kept, State.undefer_kept, State.setLock_kept, State.wakeTask_kept])

theorem execUnlock_kept (c : Ctx) (w : IWord) (s : State) {t : State} :
    execUnlock c w s = .next t → t.kept = s.kept := by
  intro h
  unfold execUnlock at h
  (repeat' split at h) <;> first
    | exact pickIllegal_kept _ _ _ h
    | refine runTask_kept _ _ _ _ _ ?_ h
      clear h
      intro x u hu
      grind [State.unlock_kept, → pickIllegal_kept, → State.codeTask_kept]

theorem waitevTask_kept (w : IWord) (k : Nat) (t : Task) (s : State) {tt : State} :
    (waitevTask w k t s).state? = some tt → tt.kept = s.kept := by
  intro h
  unfold waitevTask at h
  grind [State.kept, foldl_kept, toOut_ok, ub_ne, PickRes.state?, TaskRes.state?, Looked.state?,
    PatchRes.state?, State.updTask_kept, State.blockTask_kept, → State.giveTask_kept]

theorem execWaitev_kept (c : Ctx) (w : IWord) (s : State) {t : State} :
    execWaitev c w s = .next t → t.kept = s.kept := by
  intro h
  unfold execWaitev at h
  (repeat' split at h) <;> first
    | exact pickIllegal_kept _ _ _ h
    | refine runTask_kept _ _ _ _ _ ?_ h
      clear h
      intro x u hu
      grind [→ pickIllegal_kept, → waitevTask_kept]

theorem execWaitevTimeout_kept (k : TaskId) (s : State) {t : State} :
    execWaitevTimeout k s = .next t → t.kept = s.kept := by
  intro h
  unfold execWaitevTimeout at h
  grind [State.kept, foldl_kept, toOut_ok, ub_ne, PickRes.state?, TaskRes.state?, Looked.state?,
    PatchRes.state?, State.wakeTask_kept, → unlessHalted_cases]

theorem execSignal_kept (c : Ctx) (w : IWord) (s : State) {t : State} :
    execSignal c w s = .next t → t.kept = s.kept := by
  intro h
  unfold execSignal at h
  (repeat' split at h) <;> first
    | exact pickIllegal_kept _ _ _ h
    | refine runTask_kept _ _ _ _ _ ?_ h
      clear h
      intro x u hu
      grind [State.signal_kept, → pickIllegal_kept, → State.codeTask_kept]

theorem execYield_kept (c : Ctx) (w : IWord) (s : State) {t : State} :
    execYield c w s = .next t → t.kept = s.kept := by
  intro h
  unfold execYield at h
  split at h
  · exact pickIllegal_kept _ _ _ h
  · refine runTask_kept _ _ _ _ _ ?_ h
    clear h
    intro x u hu
    cases hu; simp only [State.pushReady_kept, State.updTask_kept, State.leaveCtx_kept]

@[simp] theorem State.setSqueue_kept (s : State) (q : Nat) (x : SQueue) :
    (State.setSqueue s q x).kept = s.kept := by
  simp only [State.setSqueue, State.kept_mk]
  with_reducible exact State.kept_eta _

@[simp] theorem State.queueNotify_kept (s : State) (q : Nat) :
    (State.queueNotify s q).kept = s.kept := by
  simp only [State.queueNotify, apply_ite State.kept, ite_self, State.signal_kept]

theorem State.tryPut_kept (s : State) (q : Nat) (v : Word) (desc : Option (List Byte)) {t : State} :
    State.tryPut s q v desc = some t → t.kept = s.kept := by
  intro h
  unfold State.tryPut at h
  grind [State.kept, foldl_kept, toOut_ok, ub_ne, PickRes.state?, TaskRes.state?, Looked.state?,
    PatchRes.state?, State.setSqueue_kept, State.wakeTask_kept, State.queueNotify_kept]

@[simp] theorem State.admitPutter_kept (s : State) (q : Nat) :
    (State.admitPutter s q).kept = s.kept := by
  simp only [State.admitPutter]
  repeat' split
  all_goals (try simp only [State.setSqueue_kept, State.queueNotify_kept, State.wakeTask_kept])

@[simp] theorem State.devicePut_kept (s : State) (q : Nat) (v : Word) (desc : Option (List Byte)) :
    (State.devicePut s q v desc).1.kept = s.kept := by
  unfold State.devicePut
  grind [State.kept, foldl_kept, foldl_kept_fst, State.incF_kept, → State.tryPut_kept]

theorem execQput_kept (c : Ctx) (w : IWord) (s : State) {t : State} :
    execQput c w s = .next t → t.kept = s.kept := by
  intro h
  unfold execQput at h
  (repeat' split at h) <;> first
    | exact pickIllegal_kept _ _ _ h
    | refine runTask_kept _ _ _ _ _ ?_ h
      clear h
      intro x u hu
      (try simp only at hu)
      (repeat' split at hu) <;> first
        | (cases hu; simp only [
              State.blockTask_kept, State.setSqueue_kept])
        | grind [State.blockTask_kept, State.setSqueue_kept, → pickIllegal_kept, → State.tryPut_kept, →
              State.codeTask_kept]

theorem qgetTask_kept (w : IWord) (k : Nat) (t : Task) (s : State) {tt : State} :
    (qgetTask w k t s).state? = some tt → tt.kept = s.kept := by
  intro h
  unfold qgetTask at h
  grind [State.kept, foldl_kept, toOut_ok, ub_ne, PickRes.state?, TaskRes.state?, Looked.state?,
    PatchRes.state?, State.blockTask_kept, State.admitPutter_kept, State.setSqueue_kept,
    State.queueNotify_kept, State.wakeTask_kept, → State.giveTask_kept]

theorem execQget_kept (c : Ctx) (w : IWord) (s : State) {t : State} :
    execQget c w s = .next t → t.kept = s.kept := by
  intro h
  unfold execQget at h
  (repeat' split at h) <;> first
    | exact pickIllegal_kept _ _ _ h
    | refine runTask_kept _ _ _ _ _ ?_ h
      clear h
      intro x u hu
      grind [→ pickIllegal_kept, → qgetTask_kept]

@[simp] theorem State.updDma_kept (s : State) (c : Nat) (f : List DmaReq → List DmaReq) :
    (State.updDma s c f).kept = s.kept := by
  simp only [State.updDma, State.kept_mk]
  with_reducible exact State.kept_eta _

@[simp] theorem State.cancelTask_kept (s : State) (k : Nat) :
    (State.cancelTask s k).kept = s.kept := by
  unfold State.cancelTask
  grind [State.kept, foldl_kept, foldl_kept_fst, State.leaveCtx_kept, State.setLock_kept,
    State.setSqueue_kept, State.updTask_kept, State.updDma_kept]

@[simp] theorem State.deleteTask_kept (s : State) (k : Nat) :
    (State.deleteTask s k).kept = s.kept := by
  unfold State.deleteTask
  grind [State.kept, foldl_kept, foldl_kept_fst, State.cancelTask_kept, State.unlock_kept, State.setTask_kept]

@[simp] theorem State.startTask_kept (s : State) (k : Nat) :
    (State.startTask s k).kept = s.kept := by
  simp only [State.startTask, State.updTask_kept]

@[simp] theorem State.taskCmd_kept (s : State) (op : TaskOp) (k : Nat) (mask : BitVec 32) :
    (State.taskCmd s op k mask).1.kept = s.kept := by
  simp only [State.taskCmd]
  repeat' split
  all_goals (try simp only [
    State.setTask_kept, State.startTask_kept, State.cancelTask_kept, State.deleteTask_kept,
    State.signal_kept])

@[simp] theorem State.taskCmdNow_kept (s : State) (op : TaskOp) (k : Nat) (mask : BitVec 32) :
    (State.taskCmdNow s op k mask).1.kept = s.kept := by
  unfold State.taskCmdNow
  grind [State.kept, foldl_kept, foldl_kept_fst, State.taskCmd_kept, State.setF_kept]

@[simp] theorem State.taskCmdReg_kept (s : State) (op : TaskOp) (k : Nat) (mask : BitVec 32) :
    (State.taskCmdReg s op k mask).kept = s.kept := by
  simp only [State.taskCmdReg]
  repeat' split
  all_goals (try simp only [State.kept_mk, State.taskCmdNow_kept])
  all_goals (try with_reducible exact State.kept_eta _)

@[simp] theorem State.roundBegins_kept (s : State) :
    (State.roundBegins s).kept = s.kept := by
  unfold State.roundBegins
  grind [State.kept, foldl_kept, foldl_kept_fst, State.taskCmdNow_kept]

@[simp] theorem State.taskCmdWrite_kept (s : State) (v : Word) (en : Word) :
    (State.taskCmdWrite s v en).kept = s.kept := by
  simp only [State.taskCmdWrite]
  repeat' split
  all_goals (try simp only [State.plainWrite_kept, State.taskCmdReg_kept])

theorem execTaskCreate_kept (k : TaskId) (s : State) {t : State} :
    execTaskCreate k s = .next t → t.kept = s.kept := by
  intro h
  unfold execTaskCreate at h
  refine State.byWrite_kept h ?_
  clear h; intro h
  cases h
  simp only [State.taskCmdReg_kept]

theorem execTaskStart_kept (k : TaskId) (s : State) {t : State} :
    execTaskStart k s = .next t → t.kept = s.kept := by
  intro h
  unfold execTaskStart at h
  refine State.byWrite_kept h ?_
  clear h; intro h
  cases h
  simp only [State.taskCmdReg_kept]

theorem execTaskCancel_kept (k : TaskId) (s : State) {t : State} :
    execTaskCancel k s = .next t → t.kept = s.kept := by
  intro h
  unfold execTaskCancel at h
  refine State.byWrite_kept h ?_
  clear h; intro h
  cases h
  simp only [State.taskCmdReg_kept]

theorem execTaskDelete_kept (k : TaskId) (s : State) {t : State} :
    execTaskDelete k s = .next t → t.kept = s.kept := by
  intro h
  unfold execTaskDelete at h
  refine State.byWrite_kept h ?_
  clear h; intro h
  cases h
  simp only [State.taskCmdReg_kept]

theorem execTaskSignal_kept (k : TaskId) (mask : BitVec 32) (s : State) {t : State} :
    execTaskSignal k mask s = .next t → t.kept = s.kept := by
  intro h
  unfold execTaskSignal at h
  refine State.byWrite_kept h ?_
  clear h; intro h
  cases h
  simp only [State.taskCmdReg_kept]

@[simp] theorem State.dispatchTask_kept (s : State) (k : Nat) (c : Nat) :
    (State.dispatchTask s k c).kept = s.kept := by
  simp only [State.dispatchTask]
  repeat' split
  all_goals (try simp only [State.kept_mk, State.updTask_kept, State.microcode_kept])
  all_goals (try with_reducible exact State.kept_eta _)

@[simp] theorem State.preempt_kept (s : State) (k : Nat) :
    (State.preempt s k).kept = s.kept := by
  unfold State.preempt
  grind [State.kept, foldl_kept, foldl_kept_fst, State.updTask_kept, State.leaveCtx_kept]

@[simp] theorem State.fillContexts_kept (s : State) (x1 : Nat) :
    (State.fillContexts s x1).kept = s.kept := by
  induction x1 generalizing s with
  | zero => rfl
  | succ n ih =>
    unfold State.fillContexts
    (repeat' split) <;> simp only [ih, State.dispatchTask_kept, State.preempt_kept]

@[simp] theorem State.flagStarts_kept (s : State) :
    (State.flagStarts s).kept = s.kept := by
  unfold State.flagStarts
  grind [State.kept, foldl_kept, foldl_kept_fst, State.activateByFlag_kept]

theorem execSchedRound_kept (s : State) {t : State} :
    execSchedRound s = .next t → t.kept = s.kept := by
  intro h
  unfold execSchedRound at h
  grind [State.kept, foldl_kept, toOut_ok, ub_ne, PickRes.state?, TaskRes.state?, Looked.state?,
    PatchRes.state?, State.flagStarts_kept, State.roundBegins_kept, State.updTask_kept,
    State.fillContexts_kept]

theorem execSliceExpire_kept (k : TaskId) (s : State) {t : State} :
    execSliceExpire k s = .next t → t.kept = s.kept := by
  intro h
  unfold execSliceExpire at h
  grind [State.kept, foldl_kept, toOut_ok, ub_ne, PickRes.state?, TaskRes.state?, Looked.state?,
    PatchRes.state?, State.pushReady_kept, State.updTask_kept, State.leaveCtx_kept, → unlessHalted_cases]

@[simp] theorem State.setFreed_kept (s : State) (u : Nat) (n : Nat) (b : Bool) :
    (State.setFreed s u n b).kept = s.kept := by
  simp only [State.setFreed, State.kept_mk]
  with_reducible exact State.kept_eta _

@[simp] theorem State.puntDropped_kept (s : State) (r : Nat) :
    (State.puntDropped s r).kept = s.kept := by
  simp only [State.puntDropped, State.err_kept, State.incF_kept]

@[simp] theorem State.puntStore_kept (s : State) (x : Pkt) (r : Nat) (code : BitVec 32) :
    (State.puntStore s x r code).kept = s.kept := by
  unfold State.puntStore
  grind [State.kept, foldl_kept, foldl_kept_fst, State.puntDropped_kept, State.setBytes_kept,
    State.devicePut_kept, State.setFreed_kept, State.incF_kept]

theorem execPuntTake_kept (a : LoomRead) (s : State) {t : State} :
    execPuntTake a s = .next t → t.kept = s.kept := by
  intro h
  unfold execPuntTake at h
  grind [State.kept, foldl_kept, foldl_kept_fst, toOut_ok, ub_ne, PickRes.state?, TaskRes.state?, Looked.state?, PatchRes.state?, State.dropRef_kept, State.setQueue_kept, State.readPkt_kept, State.puntStore_kept]

@[simp] theorem State.releaseHandle_kept (s : State) (h : Word) (free : Bool) :
    (State.releaseHandle s h free).kept = s.kept := by
  simp only [State.releaseHandle, State.kept_mk, apply_ite State.kept, ite_self,
    State.setFreed_kept, State.err_kept, State.incF_kept]
  with_reducible exact State.kept_eta _

theorem execReleaseTimeout_kept (h : Word) (s : State) {t : State} :
    execReleaseTimeout h s = .next t → t.kept = s.kept := by
  intro h
  unfold execReleaseTimeout at h
  grind [State.kept, foldl_kept, toOut_ok, ub_ne, PickRes.state?, TaskRes.state?, Looked.state?,
    PatchRes.state?, → unlessHalted_cases]

@[simp] theorem State.injectFrame_kept (s : State) (d : InjDesc) (f : List Byte) :
    (State.injectFrame s d f).kept = s.kept := by
  simp only [State.injectFrame, apply_ite State.kept, ite_self, State.cntLoom_kept, State.addPkt_kept]

@[simp] theorem State.injectNow_kept (s : State) (d : InjDesc) (f : List Byte) :
    (State.injectNow s d f).kept = s.kept := by
  simp only [State.injectNow, apply_ite State.kept, ite_self,
    State.releaseHandle_kept, State.injectFrame_kept]

@[simp] theorem State.injectReads_kept (s : State) (src : Option Nat) (d : InjDesc) :
    (State.injectReads s src d).kept = s.kept := by
  unfold State.injectReads
  extract_lets u
  have hu : u.kept = s.kept := by
    unfold u
    cases src
    · rfl
    · exact State.peeked_kept _ _ _
  clear_value u
  split
  · exact hu
  · rw [State.peeked_kept, hu]

theorem execInjectTake_kept (s : State) {t : State} :
    execInjectTake s = .next t → t.kept = s.kept := by
  intro h
  unfold execInjectTake at h
  grind [State.kept, foldl_kept, foldl_kept_fst, toOut_ok, ub_ne, PickRes.state?, TaskRes.state?, Looked.state?, PatchRes.state?, State.hbmWake_kept, State.signal_kept, State.setSqueue_kept, State.admitPutter_kept, State.injectNow_kept, State.injectReads_kept]

@[simp] theorem State.releaseHeld_kept (s : State) (e : HeldInj) :
    (State.releaseHeld s e).kept = s.kept := by
  simp only [State.releaseHeld, State.kept_mk, State.injectNow_kept]
  with_reducible exact State.kept_eta _

theorem execInjectReleaseHeld_kept (r : Fin 64) (s : State) {t : State} :
    execInjectReleaseHeld r s = .next t → t.kept = s.kept := by
  intro h
  unfold execInjectReleaseHeld at h
  grind [State.kept, foldl_kept, toOut_ok, ub_ne, PickRes.state?, TaskRes.state?, Looked.state?,
    PatchRes.state?, State.releaseHeld_kept, → unlessHalted_cases]

@[simp] theorem State.pushBatten_kept (s : State) (b : BatReq) :
    (State.pushBatten s b).kept = s.kept := by
  simp only [State.pushBatten, State.kept_mk]
  with_reducible exact State.kept_eta _

@[simp] theorem State.placeBatten_kept (s : State) (b : BatReq) :
    (State.placeBatten s b).kept = s.kept := by
  simp only [State.placeBatten, State.pushBatten_kept, State.updTask_kept]

@[simp] theorem State.threadBatten_kept (s : State) (k : Nat) (ws : Bool) :
    (State.threadBatten s k ws).kept = s.kept := by
  simp only [State.threadBatten]
  repeat' split
  all_goals (try simp only [State.kept_mk, State.placeBatten_kept])
  all_goals (try with_reducible exact State.kept_eta _)

@[simp] theorem State.battenCmdWrite_kept (s : State) (v : Word) (en : Word) :
    (State.battenCmdWrite s v en).kept = s.kept := by
  simp only [State.battenCmdWrite, apply_ite State.kept, ite_self, State.pushBatten_kept]

theorem State.hstageWrite_kept (s : State) (v : Word) (en : Word) {t : State} :
    State.hstageWrite s v en = .ok t → t.kept = s.kept := by
  intro h
  unfold State.hstageWrite at h
  split at h
  · cases h; rfl
  · split at h
    · cases h; simp only [State.setF_kept]
    · rename_i h1
      extract_lets a w at h
      clear_value a w
      split at h
      · cases h
      · cases h
        simp only [State.kept, List.length_append, List.length_singleton]
        congr 2
        apply propext
        omega

@[simp] theorem State.digestRead_kept (s : State) (a : Nat) :
    (State.digestRead s a).1.kept = s.kept := by
  simp only [State.digestRead]
  repeat' split
  all_goals (try simp only [State.wr_kept])

theorem execDigestHiRead_kept (off : BitVec 16) (s : State) {t : State} :
    execDigestHiRead off s = .next t → t.kept = s.kept := by
  intro h
  unfold execDigestHiRead at h
  split at h
  · cases h; rfl
  · extract_lets r at h
    have hr : r.1.kept = s.kept := by
      unfold r; split
      · exact State.digestRead_kept s _
      · rfl
    clear_value r
    cases h
    rw [← hr]; rfl

@[simp] theorem State.digestSnap_kept (s : State) :
    (State.digestSnap s).kept = s.kept := by
  unfold State.digestSnap
  grind [State.kept, foldl_kept, foldl_kept_fst, State.wr_kept, State.incF_kept]

@[simp] theorem State.digestSnapWrite_kept (s : State) (v : Word) (en : Word) :
    (State.digestSnapWrite s v en).kept = s.kept := by
  simp only [State.digestSnapWrite, apply_ite State.kept, ite_self, State.digestSnap_kept]

theorem execDigestSnapshot_kept (v : Word) (s : State) {t : State} :
    execDigestSnapshot v s = .next t → t.kept = s.kept := by
  intro h
  unfold execDigestSnapshot at h
  refine State.byWrite_kept h ?_
  clear h; intro h
  cases h
  simp only [State.digestSnapWrite_kept]

@[simp] theorem State.scanResult_kept (s : State) (d : BitVec 128) (unread : Nat) :
    (State.scanResult s d unread).kept = s.kept := by
  simp only [State.scanResult, State.setF_kept, State.wr_kept]

theorem State.scanWrite_kept (s : State) (a : Nat) (v : Word) (en : Word) {t : State} :
    State.scanWrite s a v en = .ok t → t.kept = s.kept := by
  intro h
  unfold State.scanWrite at h
  grind [State.kept, foldl_kept, toOut_ok, ub_ne, PickRes.state?, TaskRes.state?, Looked.state?,
    PatchRes.state?, State.plainWrite_kept, State.setF_kept, State.scanResult_kept, State.hbmTraffic_kept]

theorem execDigestScan_kept (v : Word) (s : State) {t : State} :
    execDigestScan v s = .next t → t.kept = s.kept := by
  intro h
  unfold execDigestScan at h
  refine State.byWrite_kept h ?_
  clear h; intro h
  exact State.scanWrite_kept _ _ _ _ h

theorem execDigestScanDone_kept (unread : List Nat) (s : State) {t : State} :
    execDigestScanDone unread s = .next t → t.kept = s.kept := by
  intro h
  unfold execDigestScanDone at h
  refine unlessHalted_kept h ?_
  clear h; intro h
  grind [State.kept, foldl_kept, foldl_kept_fst, toOut_ok, ub_ne, PickRes.state?, TaskRes.state?, Looked.state?, PatchRes.state?, State.uncAlone_kept, State.hbmWake_kept, State.scanResult_kept]

@[simp] theorem State.loseWord_kept (s : State) (a : Nat) :
    (State.loseWord s a).kept = s.kept := by
  simp only [State.loseWord]
  repeat' split
  all_goals (try simp only [State.kept_mk, State.wr_kept, State.setLe_kept])
  all_goals (try with_reducible exact State.kept_eta _)

@[simp] theorem State.latchDomains_kept (s : State) :
    (State.latchDomains s).kept = s.kept := by
  unfold State.latchDomains
  grind [State.kept, foldl_kept, foldl_kept_fst, State.updDom_kept]

@[simp] theorem State.snapIgnored_kept (s : State) :
    (State.snapIgnored s).kept = s.kept := by
  simp only [State.snapIgnored, State.err_kept]

@[simp] theorem State.snapCounters_kept (s : State) :
    (State.snapCounters s).kept = s.kept := by
  simp only [State.snapCounters, State.kept_mk, State.setF_kept]
  with_reducible exact State.kept_eta _

@[simp] theorem State.snapshot_kept (s : State) :
    (State.snapshot s).kept = s.kept := by
  simp only [State.snapshot, apply_ite State.kept, ite_self,
    State.snapIgnored_kept, State.snapCounters_kept, State.latchDomains_kept]

@[simp] theorem State.timeSnapshot_kept (s : State) :
    (State.timeSnapshot s).kept = s.kept := by
  simp only [State.timeSnapshot, apply_ite State.kept, ite_self,
    State.snapIgnored_kept, State.latchDomains_kept, State.snapCounters_kept]

@[simp] theorem State.glassSnapWrite_kept (s : State) (v : Word) (en : Word) :
    (State.glassSnapWrite s v en).kept = s.kept := by
  simp only [State.glassSnapWrite, apply_ite State.kept, ite_self, State.plainWrite_kept, State.snapshot_kept]

theorem execGlassSnapshot_kept (v : Word) (s : State) {t : State} :
    execGlassSnapshot v s = .next t → t.kept = s.kept := by
  intro h
  unfold execGlassSnapshot at h
  refine State.byWrite_kept h ?_
  clear h; intro h
  cases h
  simp only [State.glassSnapWrite_kept]

theorem execGlassSnapshotDone_kept (s : State) {t : State} :
    execGlassSnapshotDone s = .next t → t.kept = s.kept := by
  intro h
  unfold execGlassSnapshotDone at h
  grind [State.kept, foldl_kept, toOut_ok, ub_ne, PickRes.state?, TaskRes.state?, Looked.state?,
    PatchRes.state?, State.incF_kept, State.setF_kept, State.wr_kept, → unlessHalted_cases]

@[simp] theorem State.counterWrite_kept (s : State) (off : Nat) (v : Word) :
    (State.counterWrite s off v).kept = s.kept := by
  simp only [State.counterWrite]
  repeat' split
  all_goals (try simp only [State.kept_mk])
  all_goals (try with_reducible exact State.kept_eta _)

theorem execCounterWrite_kept (a : BitVec 48) (v : Word) (s : State) {t : State} :
    execCounterWrite a v s = .next t → t.kept = s.kept := by
  intro h
  unfold execCounterWrite at h
  refine unlessBlocked_kept h ?_
  clear h; intro h
  grind [State.kept, foldl_kept, foldl_kept_fst, toOut_ok, ub_ne, PickRes.state?, TaskRes.state?, Looked.state?, PatchRes.state?, State.counterWrite_kept]

@[simp] theorem State.samplePut_kept (s : State) (r : List Byte) :
    (State.samplePut s r).kept = s.kept := by
  simp only [State.samplePut, apply_ite State.kept, ite_self,
    State.err_kept, State.setF_kept, State.incF_kept, State.poke_kept]

theorem execSampleTake_kept (n : LoomId) (s : State) {t : State} :
    execSampleTake n s = .next t → t.kept = s.kept := by
  intro h
  unfold execSampleTake at h
  grind [State.kept, foldl_kept, toOut_ok, ub_ne, PickRes.state?, TaskRes.state?, Looked.state?,
    PatchRes.state?, State.samplePut_kept, → unlessHalted_cases]

theorem State.smpRingWrite_kept (s : State) (a : Nat) (v : Word) (en : Word) {t : State} :
    State.smpRingWrite s a v en = .ok t → t.kept = s.kept := by
  intro h
  unfold State.smpRingWrite at h
  grind [State.kept, foldl_kept, toOut_ok, ub_ne, PickRes.state?, TaskRes.state?, Looked.state?,
    PatchRes.state?, State.plainWrite_kept]

@[simp] theorem State.bwPublish_kept (s : State) (p : Nat) (off : Nat) (bytes : Nat) :
    (State.bwPublish s p off bytes).kept = s.kept := by
  simp only [State.bwPublish, State.kept_mk]
  with_reducible exact State.kept_eta _

@[simp] theorem State.bwStart_kept (s : State) (i : Nat) :
    (State.bwStart s i).kept = s.kept := by
  simp only [State.bwStart, State.kept_mk]
  with_reducible exact State.kept_eta _

theorem execBwWindowEnd_kept (s : State) {t : State} :
    execBwWindowEnd s = .next t → t.kept = s.kept := by
  intro h
  unfold execBwWindowEnd at h
  grind [State.kept, foldl_kept, toOut_ok, ub_ne, PickRes.state?, TaskRes.state?, Looked.state?,
    PatchRes.state?, State.bwStart_kept, State.bwPublish_kept, → unlessHalted_cases]

@[simp] theorem State.bwClearPeak_kept (s : State) :
    (State.bwClearPeak s).kept = s.kept := by
  simp only [State.bwClearPeak, State.kept_mk]
  with_reducible exact State.kept_eta _

theorem execBwClearPeak_kept (s : State) {t : State} :
    execBwClearPeak s = .next t → t.kept = s.kept := by
  intro h
  unfold execBwClearPeak at h
  refine State.byWrite_kept h ?_
  clear h; intro h
  cases h
  simp only [State.bwClearPeak_kept]

@[simp] theorem State.bwCtlWrite_kept (s : State) (v : Word) (en : Word) :
    (State.bwCtlWrite s v en).kept = s.kept := by
  unfold State.bwCtlWrite
  grind [State.kept, foldl_kept, foldl_kept_fst, State.plainWrite_kept, State.bwClearPeak_kept]

end Sys2Proof.Machine
end

