-- ==== Sys2Proof/Laws/KeptTime.lean ====
section
/-! SUPPORT. Time, holdover, the ports' links:
what each definition keeps of the queue, the trip latch and the bound of the host's batten list
(Laws/Kept.lean). One lemma a definition, so that no proof unfolds one again. -/

namespace Sys2Proof.Machine

theorem execSenseConvert_kept (i : Fin 4) (code : BitVec 16) (s : State) {t : State} :
    execSenseConvert i code s = .next t → t.kept = s.kept := by
  intro h
  unfold execSenseConvert at h
  refine unlessReset_kept h ?_
  clear h; intro h
  grind [State.kept, foldl_kept, toOut_ok, ub_ne, PickRes.state?, TaskRes.state?, Looked.state?,
    PatchRes.state?, State.setF_kept, State.err_kept]

@[simp] theorem State.notePred_kept (s : State) (p : Int × Bool) :
    (State.notePred s p).kept = s.kept := by
  simp only [State.notePred, apply_ite State.kept, ite_self, State.wr_kept, State.err_kept]

@[simp] theorem State.holdEnter_kept (s : State) (d : Nat) :
    (State.holdEnter s d).kept = s.kept := by
  simp only [State.holdEnter, State.err_kept, State.setF_kept, State.updDom_kept]

@[simp] theorem State.holdCheck_kept (s : State) (d : Nat) (was : Bool) :
    (State.holdCheck s d was).kept = s.kept := by
  simp only [State.holdCheck, apply_ite State.kept, ite_self,
    State.updDom_kept, State.holdEnter_kept, State.setF_kept]

@[simp] theorem State.holdSecond_kept (s : State) (d : Nat) :
    (State.holdSecond s d).kept = s.kept := by
  simp only [State.holdSecond, apply_ite State.kept, ite_self, State.setF_kept, State.notePred_kept]

@[simp] theorem State.dpllHoldSecond_kept (s : State) :
    (State.dpllHoldSecond s).kept = s.kept := by
  simp only [State.dpllHoldSecond, apply_ite State.kept, ite_self, State.setF_kept, State.notePred_kept]

theorem execHoldoverTick_kept (s : State) {t : State} :
    execHoldoverTick s = .next t → t.kept = s.kept := by
  intro h
  unfold execHoldoverTick at h
  refine unlessReset_kept h ?_
  clear h; intro h
  grind [State.kept, foldl_kept, toOut_ok, ub_ne, PickRes.state?, TaskRes.state?, Looked.state?,
    PatchRes.state?, State.holdSecond_kept, State.dpllHoldSecond_kept]

@[simp] theorem State.dpllGo_kept (s : State) (st : Nat) :
    (State.dpllGo s st).kept = s.kept := by
  unfold State.dpllGo
  grind [State.kept, foldl_kept, foldl_kept_fst, State.setF_kept, State.post_kept]

@[simp] theorem State.reselect_kept (s : State) :
    (State.reselect s).kept = s.kept := by
  simp only [State.reselect]
  repeat' split
  all_goals (try simp only [State.kept_mk, State.setF_kept, State.dpllGo_kept])
  all_goals (try with_reducible exact State.kept_eta _)

@[simp] theorem State.setQual_kept (s : State) (r : Nat) (b : Bool) :
    (State.setQual s r b).kept = s.kept := by
  simp only [State.setQual, State.setF_kept]

@[simp] theorem State.setRefOk_kept (s : State) (r : Nat) (t : Option Nat) :
    (State.setRefOk s r t).kept = s.kept := by
  simp only [State.setRefOk, State.kept_mk]
  with_reducible exact State.kept_eta _

theorem execRefDisqualify_kept (r : Fin 4) (s : State) {t : State} :
    execRefDisqualify r s = .next t → t.kept = s.kept := by
  intro h
  unfold execRefDisqualify at h
  grind [State.kept, foldl_kept, toOut_ok, ub_ne, PickRes.state?, TaskRes.state?, Looked.state?,
    PatchRes.state?, State.reselect_kept, State.setRefOk_kept, State.setQual_kept]

@[simp] theorem State.refScan_kept (s : State) (r : Nat) :
    (State.refScan s r).kept = s.kept := by
  simp only [State.refScan]
  repeat' split
  all_goals (try simp only [State.reselect_kept, State.setRefOk_kept, State.setQual_kept])

@[simp] theorem State.refScanAll_kept (s : State) :
    (State.refScanAll s).kept = s.kept := by
  unfold State.refScanAll
  grind [State.kept, foldl_kept, foldl_kept_fst, State.refScan_kept]

theorem execRefRequalify_kept (r : Fin 4) (s : State) {t : State} :
    execRefRequalify r s = .next t → t.kept = s.kept := by
  intro h
  unfold execRefRequalify at h
  grind [State.kept, foldl_kept, toOut_ok, ub_ne, PickRes.state?, TaskRes.state?, Looked.state?,
    PatchRes.state?, State.reselect_kept, State.setQual_kept]

theorem execDpllLock_kept (s : State) {t : State} :
    execDpllLock s = .next t → t.kept = s.kept := by
  intro h
  unfold execDpllLock at h
  grind [State.kept, foldl_kept, toOut_ok, ub_ne, PickRes.state?, TaskRes.state?, Looked.state?,
    PatchRes.state?, State.dpllGo_kept]

@[simp] theorem State.dpllCtlWrite_kept (s : State) (v : Word) (en : Word) :
    (State.dpllCtlWrite s v en).kept = s.kept := by
  simp only [State.dpllCtlWrite, State.reselect_kept, State.plainWrite_kept]

@[simp] theorem State.dpllRefWrite_kept (s : State) (r : Nat) (v : Word) (en : Word) :
    (State.dpllRefWrite s r v en).kept = s.kept := by
  simp only [State.dpllRefWrite, apply_ite State.kept, ite_self,
    State.plainWrite_kept, State.setRefOk_kept, State.setQual_kept, State.reselect_kept, State.refScan_kept]

@[simp] theorem State.synceWrite_kept (s : State) (j : Nat) (v : Word) (en : Word) :
    (State.synceWrite s j v en).kept = s.kept := by
  unfold State.synceWrite
  grind [State.kept, foldl_kept, foldl_kept_fst, State.plainWrite_kept]

@[simp] theorem State.domSecond_kept (s : State) (d : Nat) :
    (State.domSecond s d).kept = s.kept := by
  simp only [State.domSecond, State.updDom_kept]

@[simp] theorem State.tempSecond_kept (s : State) :
    (State.tempSecond s).kept = s.kept := by
  simp only [State.tempSecond, State.kept_mk]
  with_reducible exact State.kept_eta _

theorem execLearnerSecond_kept (s : State) {t : State} :
    execLearnerSecond s = .next t → t.kept = s.kept := by
  intro h
  unfold execLearnerSecond at h
  refine unlessReset_kept h ?_
  clear h; intro h
  grind [State.kept, foldl_kept, toOut_ok, ub_ne, PickRes.state?, TaskRes.state?, Looked.state?,
    PatchRes.state?, State.tempSecond_kept, State.domSecond_kept, State.draw_kept, State.setF_kept]

@[simp] theorem State.publishFit_kept (s : State) :
    (State.publishFit s).kept = s.kept := by
  simp only [State.publishFit, State.wr_kept, State.setF_kept]

@[simp] theorem State.addSample_kept (s : State) (y : Int) (x : Int) :
    (State.addSample s y x).kept = s.kept := by
  unfold State.addSample
  grind [State.kept, foldl_kept, foldl_kept_fst, State.satF_kept, State.publishFit_kept]

theorem execLearnerSample_kept (s : State) {t : State} :
    execLearnerSample s = .next t → t.kept = s.kept := by
  intro h
  unfold execLearnerSample at h
  refine unlessReset_kept h ?_
  clear h; intro h
  grind [State.kept, foldl_kept, toOut_ok, ub_ne, PickRes.state?, TaskRes.state?, Looked.state?,
    PatchRes.state?, State.incF_kept, State.addSample_kept]

@[simp] theorem State.learnerClear_kept (s : State) :
    (State.learnerClear s).kept = s.kept := by
  unfold State.learnerClear
  grind [State.kept, foldl_kept, foldl_kept_fst, State.wr_kept]

@[simp] theorem State.trefWrite_kept (s : State) (v : Word) (en : Word) :
    (State.trefWrite s v en).kept = s.kept := by
  simp only [State.trefWrite, apply_ite State.kept, ite_self, State.plainWrite_kept, State.learnerClear_kept]

theorem execLearnerReset_kept (v : Word) (s : State) {t : State} :
    execLearnerReset v s = .next t → t.kept = s.kept := by
  intro h
  unfold execLearnerReset at h
  refine State.byWrite_kept h ?_
  clear h; intro h
  cases h
  simp only [State.trefWrite_kept]

@[simp] theorem State.holdRestore_kept (s : State) (a : Nat) (v : Word) (en : Word) :
    (State.holdRestore s a v en).kept = s.kept := by
  unfold State.holdRestore
  grind [State.kept, foldl_kept, foldl_kept_fst, State.plainWrite_kept]

@[simp] theorem State.setPulse_kept (s : State) (j : Nat) (p : Pulse) :
    (State.setPulse s j p).kept = s.kept := by
  simp only [State.setPulse, State.kept_mk]
  with_reducible exact State.kept_eta _

@[simp] theorem State.setNext_kept (s : State) (j : Nat) (n : Option Nat) :
    (State.setNext s j n).kept = s.kept := by
  simp only [State.setNext, State.setPulse_kept, State.setF_kept]

@[simp] theorem State.pulseArm_kept (s : State) (j : Nat) :
    (State.pulseArm s j).kept = s.kept := by
  simp only [State.pulseArm, apply_ite State.kept, ite_self, State.setNext_kept, State.err_kept]

@[simp] theorem State.rearm_kept (s : State) (d : Nat) :
    (State.rearm s d).kept = s.kept := by
  unfold State.rearm
  grind [State.kept, foldl_kept, foldl_kept_fst, State.pulseArm_kept]

@[simp] theorem State.pulseWrite_kept (s : State) (j : Nat) (v : Word) (en : Word) :
    (State.pulseWrite s j v en).kept = s.kept := by
  simp only [State.pulseWrite, apply_ite State.kept, ite_self,
    State.plainWrite_kept, State.setPulse_kept, State.setF_kept, State.pulseArm_kept]

theorem execPulseArm_kept (j : Fin 8) (v : Word) (s : State) {t : State} :
    execPulseArm j v s = .next t → t.kept = s.kept := by
  intro h
  unfold execPulseArm at h
  refine State.byWrite_kept h ?_
  clear h; intro h
  cases h
  simp only [State.pulseWrite_kept]

theorem execPulseEdge_kept (j : Fin 8) (s : State) {t : State} :
    execPulseEdge j s = .next t → t.kept = s.kept := by
  intro h
  unfold execPulseEdge at h
  extract_lets j d at h
  clear_value d
  split at h
  · cases h; rfl
  · split at h
    · cases h; rfl
    · cases h
      (repeat' split) <;> simp only [State.snapshot_kept, State.setPulse_kept, State.setNext_kept]

theorem execPulseWidthEnd_kept (j : Fin 8) (s : State) {t : State} :
    execPulseWidthEnd j s = .next t → t.kept = s.kept := by
  intro h
  unfold execPulseWidthEnd at h
  grind [State.kept, foldl_kept, toOut_ok, ub_ne, PickRes.state?, TaskRes.state?, Looked.state?,
    PatchRes.state?, State.setPulse_kept]

@[simp] theorem State.bumpEpoch_kept (s : State) (d : Nat) :
    (State.bumpEpoch s d).kept = s.kept := by
  simp only [State.bumpEpoch, State.incF_kept]

@[simp] theorem State.domSet_kept (s : State) (d : Nat) :
    (State.domSet s d).kept = s.kept := by
  simp only [State.domSet, apply_ite State.kept, ite_self,
    State.rearm_kept, State.bumpEpoch_kept, State.updDom_kept]

@[simp] theorem State.domStart_kept (s : State) (d : Nat) :
    (State.domStart s d).kept = s.kept := by
  simp only [State.domStart, State.rearm_kept, State.updDom_kept]

@[simp] theorem State.domCtlWrite_kept (s : State) (d : Nat) (v : Word) (en : Word) :
    (State.domCtlWrite s d v en).kept = s.kept := by
  simp only [State.domCtlWrite, apply_ite State.kept, ite_self,
    State.domSet_kept, State.plainWrite_kept, State.domStart_kept, State.holdCheck_kept]

theorem execDomainEnable_kept (d : Dom) (v : Word) (s : State) {t : State} :
    execDomainEnable d v s = .next t → t.kept = s.kept := by
  intro h
  unfold execDomainEnable at h
  refine State.byWrite_kept h ?_
  clear h; intro h
  cases h
  simp only [State.domCtlWrite_kept]

theorem execDomainSet_kept (d : Dom) (v : Word) (s : State) {t : State} :
    execDomainSet d v s = .next t → t.kept = s.kept := by
  intro h
  unfold execDomainSet at h
  refine State.byWrite_kept h ?_
  clear h; intro h
  cases h
  simp only [State.domCtlWrite_kept]

@[simp] theorem State.domStepWrite_kept (s : State) (d : Nat) (v : Word) (en : Word) :
    (State.domStepWrite s d v en).kept = s.kept := by
  simp only [State.domStepWrite, apply_ite State.kept, ite_self,
    State.rearm_kept, State.bumpEpoch_kept, State.updDom_kept]

theorem execDomainStep_kept (d : Dom) (v : Word) (s : State) {t : State} :
    execDomainStep d v s = .next t → t.kept = s.kept := by
  intro h
  unfold execDomainStep at h
  refine State.byWrite_kept h ?_
  clear h; intro h
  cases h
  simp only [State.domStepWrite_kept]

@[simp] theorem State.freqWrite_kept (s : State) (d : Nat) (v : Word) (en : Word) :
    (State.freqWrite s d v en).kept = s.kept := by
  simp only [State.freqWrite, apply_ite State.kept, ite_self, State.plainWrite_kept]

theorem execFreqAdjWrite_kept (d : Dom) (v : Word) (s : State) {t : State} :
    execFreqAdjWrite d v s = .next t → t.kept = s.kept := by
  intro h
  unfold execFreqAdjWrite at h
  refine State.byWrite_kept h ?_
  clear h; intro h
  cases h
  simp only [State.freqWrite_kept]

theorem State.timeCtlWrite_kept (s : State) (v : Word) (en : Word) {t : State} :
    State.timeCtlWrite s v en = .ok t → t.kept = s.kept := by
  intro h
  unfold State.timeCtlWrite at h
  grind [State.kept, foldl_kept, toOut_ok, ub_ne, PickRes.state?, TaskRes.state?, Looked.state?,
    PatchRes.state?, State.plainWrite_kept, State.timeSnapshot_kept]

theorem execTimeSnap_kept (v : Word) (s : State) {t : State} :
    execTimeSnap v s = .next t → t.kept = s.kept := by
  intro h
  unfold execTimeSnap at h
  refine State.byWrite_kept h ?_
  clear h; intro h
  exact State.timeCtlWrite_kept _ _ _ h

@[simp] theorem State.txqRead_kept (s : State) (d : Nat) :
    (State.txqRead s d).1.kept = s.kept := by
  simp only [State.txqRead]
  repeat' split
  all_goals (try simp only [State.kept_mk, State.wr_kept])
  all_goals (try with_reducible exact State.kept_eta _)

@[simp] theorem State.returned_kept (s : State) (w : Word) :
    (State.returned s w).kept = s.kept := by
  simp only [State.returned, State.kept_mk]
  with_reducible exact State.kept_eta _

theorem execTxqRead_kept (d : Dom) (s : State) {t : State} :
    execTxqRead d s = .next t → t.kept = s.kept := by
  intro h
  unfold execTxqRead at h
  refine unlessReset_kept h ?_
  clear h; intro h
  (repeat' split at h) <;> first
    | (cases h; simp only [apply_ite State.kept, ite_self, State.txqRead_kept, State.returned_kept, State.kept_mk])
    | (cases h; rfl)
    | (cases h; (repeat' first | with_reducible rfl | simp only [State.txqRead_kept, State.returned_kept, State.kept_mk] | split | with_reducible exact State.kept_eta _); done)
    | (cases h; simp only [apply_ite State.kept, ite_self, State.txqRead_kept, State.returned_kept, State.kept_mk]; with_reducible exact State.kept_eta _)

@[simp] theorem State.setCapture_kept (s : State) (i : Nat) (c : Capture) :
    (State.setCapture s i c).kept = s.kept := by
  simp only [State.setCapture, State.kept_mk]
  with_reducible exact State.kept_eta _

@[simp] theorem State.captureEdge_kept (s : State) (i : Nat) (falling : Bool) :
    (State.captureEdge s i falling).kept = s.kept := by
  simp only [State.captureEdge, apply_ite State.kept, ite_self,
    State.incF_kept, State.err_kept, State.setF_kept, State.setCapture_kept]

theorem execCaptureEdge_kept (i : Fin 4) (falling : Bool) (s : State) {t : State} :
    execCaptureEdge i falling s = .next t → t.kept = s.kept := by
  intro h
  unfold execCaptureEdge at h
  refine unlessReset_kept h ?_
  clear h; intro h
  grind [State.kept, foldl_kept, toOut_ok, ub_ne, PickRes.state?, TaskRes.state?, Looked.state?,
    PatchRes.state?, State.setF_kept, State.setCapture_kept, State.refScanAll_kept, State.captureEdge_kept]

@[simp] theorem State.captureRead_kept (s : State) (i : Nat) :
    (State.captureRead s i).1.kept = s.kept := by
  simp only [State.captureRead]
  repeat' split
  all_goals (try simp only [State.wr_kept, State.setCapture_kept])

theorem execCaptureRead_kept (i : Fin 4) (s : State) {t : State} :
    execCaptureRead i s = .next t → t.kept = s.kept := by
  intro h
  unfold execCaptureRead at h
  refine unlessReset_kept h ?_
  clear h; intro h
  (repeat' split at h) <;> first
    | (cases h; simp only [apply_ite State.kept, ite_self, State.returned_kept, State.captureRead_kept, State.kept_mk])
    | (cases h; rfl)
    | (cases h; (repeat' first | with_reducible rfl | simp only [State.returned_kept, State.captureRead_kept, State.kept_mk] | split | with_reducible exact State.kept_eta _); done)
    | (cases h; simp only [apply_ite State.kept, ite_self, State.returned_kept, State.captureRead_kept, State.kept_mk]; with_reducible exact State.kept_eta _)

@[simp] theorem State.tpiWrite_kept (s : State) (i : Nat) (v : Word) (en : Word) :
    (State.tpiWrite s i v en).kept = s.kept := by
  simp only [State.tpiWrite, apply_ite State.kept, ite_self,
    State.refScanAll_kept, State.plainWrite_kept, State.setCapture_kept]

@[simp] theorem State.losDomain_kept (s : State) (i : Nat) (d : Nat) :
    (State.losDomain s i d).kept = s.kept := by
  simp only [State.losDomain, apply_ite State.kept, ite_self, State.holdCheck_kept, State.setF_kept]

theorem execCaptureLos_kept (i : Fin 4) (s : State) {t : State} :
    execCaptureLos i s = .next t → t.kept = s.kept := by
  intro h
  unfold execCaptureLos at h
  refine unlessReset_kept h ?_
  clear h; intro h
  grind [State.kept, foldl_kept, toOut_ok, ub_ne, PickRes.state?, TaskRes.state?, Looked.state?,
    PatchRes.state?, State.refScanAll_kept, State.err_kept, State.setF_kept, State.losDomain_kept]

@[simp] theorem State.selvPort_kept (s : State) (p : Nat) :
    (State.selvPort s p).kept = s.kept := by
  simp only [State.selvPort, State.setF_kept]

@[simp] theorem State.selvRefuse_kept (s : State) (p : Nat) (f : Fld) :
    (State.selvRefuse s p f).kept = s.kept := by
  simp only [State.selvRefuse, State.err_kept, State.selvPort_kept]

@[simp] theorem State.startAttempt_kept (s : State) (p : Nat) :
    (State.startAttempt s p).kept = s.kept := by
  simp only [State.startAttempt, State.updPort_kept, State.setF_kept]

theorem execLinkUp_kept (p : Port) (s : State) {t : State} :
    execLinkUp p s = .next t → t.kept = s.kept := by
  intro h
  unfold execLinkUp at h
  refine unlessReset_kept h ?_
  clear h; intro h
  grind [State.kept, foldl_kept, toOut_ok, ub_ne, PickRes.state?, TaskRes.state?, Looked.state?,
    PatchRes.state?, State.setF_kept, State.refScanAll_kept, State.updPort_kept]

theorem execLinkTrainFail_kept (p : Port) (lanes : BitVec 8) (s : State) {t : State} :
    execLinkTrainFail p lanes s = .next t → t.kept = s.kept := by
  intro h
  unfold execLinkTrainFail at h
  refine unlessReset_kept h ?_
  clear h; intro h
  extract_lets p tt at h
  clear_value tt
  split at h
  · cases h; rfl
  · split at h
    · cases h; rfl
    · rename_i a k s1 s2 s3 j wait _ _ _ _
      have h1 : s1.kept = s.kept := by unfold s1; simp only [State.setF_kept, State.satF_kept]
      clear_value s1
      have h2 : s2.kept = s.kept := by unfold s2; simp only [State.setF_kept, State.selvPort_kept, h1]
      clear_value s2
      have h3 : s3.kept = s.kept := by unfold s3; simp only [State.post_kept, h2]
      clear_value s3 wait
      cases h
      rw [State.updPort_kept, h3]

theorem execTrainRetry_kept (p : Port) (s : State) {t : State} :
    execTrainRetry p s = .next t → t.kept = s.kept := by
  intro h
  unfold execTrainRetry at h
  refine unlessReset_kept h ?_
  clear h; intro h
  grind [State.kept, foldl_kept, toOut_ok, ub_ne, PickRes.state?, TaskRes.state?, Looked.state?,
    PatchRes.state?, State.startAttempt_kept]

@[simp] theorem State.linkClear_kept (s : State) (p : Nat) :
    (State.linkClear s p).kept = s.kept := by
  simp only [State.linkClear,
    State.setF_kept, State.refScanAll_kept, State.updPort_kept, State.beamPortDown_kept]

@[simp] theorem State.linkDrop_kept (s : State) (p : Nat) :
    (State.linkDrop s p).kept = s.kept := by
  simp only [State.linkDrop, apply_ite State.kept, ite_self,
    State.selvPort_kept, State.linkClear_kept, State.setF_kept, State.post_kept, State.updPort_kept,
    State.startAttempt_kept]

theorem execLinkDown_kept (p : Port) (s : State) {t : State} :
    execLinkDown p s = .next t → t.kept = s.kept := by
  intro h
  unfold execLinkDown at h
  grind [State.kept, foldl_kept, toOut_ok, ub_ne, PickRes.state?, TaskRes.state?, Looked.state?,
    PatchRes.state?, State.linkDrop_kept]

@[simp] theorem State.loseLock_kept (s : State) (p : Nat) :
    (State.loseLock s p).kept = s.kept := by
  simp only [State.loseLock, State.updPort_kept]

theorem execAlignmentLockLoss_kept (p : Port) (s : State) {t : State} :
    execAlignmentLockLoss p s = .next t → t.kept = s.kept := by
  intro h
  unfold execAlignmentLockLoss at h
  refine unlessReset_kept h ?_
  clear h; intro h
  grind [State.kept, foldl_kept, toOut_ok, ub_ne, PickRes.state?, TaskRes.state?, Looked.state?,
    PatchRes.state?, State.loseLock_kept, State.linkDrop_kept]

theorem execAlignmentLockGain_kept (p : Port) (s : State) {t : State} :
    execAlignmentLockGain p s = .next t → t.kept = s.kept := by
  intro h
  unfold execAlignmentLockGain at h
  refine unlessReset_kept h ?_
  clear h; intro h
  grind [State.kept, foldl_kept, toOut_ok, ub_ne, PickRes.state?, TaskRes.state?, Looked.state?,
    PatchRes.state?, State.updPort_kept]

@[simp] theorem State.retrainPort_kept (s : State) (p : Nat) :
    (State.retrainPort s p).kept = s.kept := by
  simp only [State.retrainPort, apply_ite State.kept, ite_self,
    State.linkDrop_kept, State.startAttempt_kept, State.updPort_kept]

@[simp] theorem State.retrainWrite_kept (s : State) (t : Nat) (v : Word) (en : Word) :
    (State.retrainWrite s t v en).kept = s.kept := by
  unfold State.retrainWrite
  grind [State.kept, foldl_kept, foldl_kept_fst, State.retrainPort_kept]

theorem execRetrain_kept (t : Tile) (v : Word) (s : State) {tt : State} :
    execRetrain t v s = .next tt → tt.kept = s.kept := by
  intro h
  unfold execRetrain at h
  refine State.byWrite_kept h ?_
  clear h; intro h
  cases h
  simp only [State.retrainWrite_kept]

theorem State.portCfgPut_kept (s : State) (p : Nat) (v : Word) (en : Word) {t : State} :
    State.portCfgPut s p v en = .ok t → t.kept = s.kept := by
  intro h
  unfold State.portCfgPut at h
  grind [State.kept, foldl_kept, toOut_ok, ub_ne, PickRes.state?, TaskRes.state?, Looked.state?,
    PatchRes.state?, State.wr_kept, State.linkClear_kept, State.setF_kept, State.publishDemand_kept,
    State.updPort_kept, State.selvRefuse_kept, State.lpiWake_kept, State.portEnabledStep_kept,
    State.startAttempt_kept]

theorem State.portCfgWrite_kept (s : State) (p : Nat) (v : Word) (en : Word) {t : State} :
    State.portCfgWrite s p v en = .ok t → t.kept = s.kept := by
  intro h
  unfold State.portCfgWrite at h
  cases h1 : s.portCfgPut p v en with
  | error e => rw [h1] at h; cases h
  | ok u =>
    rw [h1] at h
    cases h
    rw [State.noteMax_kept, State.portCfgPut_kept _ _ _ _ h1]

theorem execPortConfigWrite_kept (p : Port) (v : Word) (s : State) {t : State} :
    execPortConfigWrite p v s = .next t → t.kept = s.kept := by
  intro h
  unfold execPortConfigWrite at h
  refine State.byWrite_kept h ?_
  clear h; intro h
  exact State.portCfgWrite_kept _ _ _ _ h

theorem execLpiEnter_kept (p : Port) (s : State) {t : State} :
    execLpiEnter p s = .next t → t.kept = s.kept := by
  intro h
  unfold execLpiEnter at h
  grind [State.kept, foldl_kept, toOut_ok, ub_ne, PickRes.state?, TaskRes.state?, Looked.state?,
    PatchRes.state?, State.updPort_kept]

theorem execLpiWakeDone_kept (p : Port) (s : State) {t : State} :
    execLpiWakeDone p s = .next t → t.kept = s.kept := by
  intro h
  unfold execLpiWakeDone at h
  grind [State.kept, foldl_kept, toOut_ok, ub_ne, PickRes.state?, TaskRes.state?, Looked.state?,
    PatchRes.state?, State.updPort_kept]

theorem execPartnerLpiSignal_kept (p : Port) (on : Bool) (s : State) {t : State} :
    execPartnerLpiSignal p on s = .next t → t.kept = s.kept := by
  intro h
  unfold execPartnerLpiSignal at h
  refine unlessReset_kept h ?_
  clear h; intro h
  grind [State.kept, foldl_kept, toOut_ok, ub_ne, PickRes.state?, TaskRes.state?, Looked.state?,
    PatchRes.state?, State.setF_kept]

theorem execRefclkLoss_kept (t : Tile) (s : State) {tt : State} :
    execRefclkLoss t s = .next tt → tt.kept = s.kept := by
  intro h
  unfold execRefclkLoss at h
  grind [State.kept, foldl_kept, toOut_ok, ub_ne, PickRes.state?, TaskRes.state?, Looked.state?,
    PatchRes.state?, State.loseLock_kept, State.linkDrop_kept]

theorem execRefclkReturn_kept (t : Tile) (s : State) {tt : State} :
    execRefclkReturn t s = .next tt → tt.kept = s.kept := by
  intro h
  unfold execRefclkReturn at h
  grind [State.kept, foldl_kept, toOut_ok, ub_ne, PickRes.state?, TaskRes.state?, Looked.state?,
    PatchRes.state?, State.startAttempt_kept]

@[simp] theorem State.lanesDown_kept (s : State) (lanes : List Port) :
    (State.lanesDown s lanes).kept = s.kept := by
  unfold State.lanesDown
  grind [State.kept, foldl_kept, foldl_kept_fst, State.loseLock_kept, State.linkDrop_kept]

@[simp] theorem State.chansDead_kept (s : State) (chans : List ChanId) :
    (State.chansDead s chans).kept = s.kept := by
  unfold State.chansDead
  grind [State.kept, foldl_kept, foldl_kept_fst, State.chanDead_kept]

theorem execWireFail_kept (l : Fin 16) (g : BitVec 8) (lanes : List Port) (chans : List ChanId) (s : State) {t
    : State} :
    execWireFail l g lanes chans s = .next t → t.kept = s.kept := by
  intro h
  unfold execWireFail at h
  refine unlessReset_kept h ?_
  clear h; intro h
  grind [State.kept, foldl_kept, toOut_ok, ub_ne, PickRes.state?, TaskRes.state?, Looked.state?,
    PatchRes.state?, State.masked_kept, State.lanesDown_kept, State.chansDead_kept]

end Sys2Proof.Machine
end

