-- ==== Sys2Proof/Laws/KeptWarp.lean ====
section
/-! SUPPORT. Flow records, HBM, searches, sweeps, patrols:
what each definition keeps of the queue, the trip latch and the bound of the host's batten list
(Laws/Kept.lean). One lemma a definition, so that no proof unfolds one again. -/

namespace Sys2Proof.Machine

@[simp] theorem State.countLookup_kept (s : State) (p : Nat) (hit : Bool) :
    (State.countLookup s p hit).kept = s.kept := by
  simp only [State.countLookup]
  repeat' split
  all_goals (try simp only [State.setPkt_kept, State.cntShared_kept, State.event_kept])

@[simp] theorem State.holdLine_kept (s : State) (p : Nat) (l : Nat) (pinned : Bool) :
    (State.holdLine s p l pinned).kept = s.kept := by
  simp only [State.holdLine]
  repeat' split
  all_goals (try simp only [State.setLine_kept, State.setPkt_kept])

theorem State.addSecond_kept (s : State) (l : Nat) (k : Seal) (who : EvMaster) {t : State} :
    State.addSecond s l k who = some t → t.kept = s.kept := by
  intro h
  unfold State.addSecond at h
  rw [Option.map_eq_some_iff] at h
  obtain ⟨n, h1, rfl⟩ := h
  rw [State.updLine_kept, State.setLine_kept, State.allocLine_kept _ _ _ h1]

theorem State.takeLine_kept (s : State) (x : Pkt) (k : Seal) {t : Nat × State} :
    State.takeLine s x k = some t → t.2.kept = s.kept := by
  intro h
  unfold State.takeLine at h
  extract_lets prof at h
  clear_value prof
  split at h
  · extract_lets u at h
    have hu : u.kept = s.kept := State.updLine_kept _ _ _
    clear_value u
    split at h
    · rw [Option.map_eq_some_iff] at h
      obtain ⟨n, h1, rfl⟩ := h
      rw [State.addSecond_kept _ _ _ _ h1, hu]
    · cases h; exact hu
  · exact State.allocFlow_kept _ _ _ _ h

@[simp] theorem State.dropSpare_kept (s : State) (x : Pkt) (l : Nat) :
    (State.dropSpare s x l).kept = s.kept := by
  simp only [State.dropSpare, apply_ite State.kept, ite_self, State.freeSpare_kept, State.kept_mk]

theorem State.lookup_kept (s : State) (p : Nat) (x : Pkt) (f : Nat) (key : List Byte) (create : Option (BitVec
    6)) {t : State} :
    (State.lookup s p x f key create).state? = some t → t.kept = s.kept := by
  intro h
  unfold State.lookup at h
  extract_lets k at h
  clear_value k
  split at h
  · cases h; rfl
  · rename_i mine w2 wait b _
    have hw : ∀ u l n q, (wait u l n q).kept = u.kept := by
      intro u l n q; unfold wait; rw [State.countLookup_kept, State.updPkt_kept]
    clear_value wait mine w2 b
    split at h
    · split at h
      · cases h; rfl
      · split at h
        · split at h
          · cases h; rfl
          · rename_i u h1
            have k1 := State.addSecond_kept _ _ _ _ h1
            cases h
            rw [hw, State.hbmReq_kept, State.dropSpare_kept, k1, State.updLine_kept]
        · cases h
          rw [State.holdLine_kept, State.countLookup_kept]
    · split at h
      · split at h
        · cases h; rfl
        · rename_i l u h1
          have k1 := State.takeLine_kept _ _ _ h1
          extract_lets s1 r at h
          have e1 : s1.kept = s.kept := by unfold s1; rw [State.setVictims_kept, k1]
          have er : r.1.kept = s.kept := by unfold r; rw [State.readImage_kept, e1]
          clear_value r s1
          split at h
          rename_i u2 img hq
          have e2 : u2.kept = s.kept := by
            split at hq
            · cases hq; exact e1
            · split at hq <;> cases hq
              · exact er
              · exact e1
          clear hq
          cases h
          rw [State.holdLine_kept, State.countLookup_kept, State.updPkt_kept, State.dropSpare_kept,
            State.install_kept, e2]
      · split at h
        · cases h; rw [State.countLookup_kept]
        · split at h
          · cases h; rfl
          · split at h
            · cases h; rfl
            · rename_i l u h1
              have k1 := State.takeLine_kept _ _ _ h1
              extract_lets s1 q at h
              have e1 : s1.kept = s.kept := by unfold s1; rw [State.dropSpare_kept, State.updLine_kept, k1]
              have eq : q.2.kept = s.kept := by unfold q; rw [State.hbmReq_kept, e1]
              clear_value q
              split at h
              · cases h; rw [hw]; exact (State.hbmReq_kept _ _ _ _ _ _).trans eq
              · cases h; rw [hw, eq]

@[simp] theorem State.buildRec_kept (s : State) (p : Nat) (x : Pkt) (w : CreateWait) (l : Nat) :
    (State.buildRec s p x w l).kept = s.kept := by
  simp only [State.buildRec, apply_ite State.kept, ite_self, State.cntShared_kept, State.updPkt_kept, State.fdig_kept, State.install_kept, State.kept_mk]

theorem State.finishCreate_kept (s : State) (p : Nat) (x : Pkt) (w : CreateWait) {t : State} :
    State.finishCreate s p x w = some t → t.kept = s.kept := by
  intro h
  unfold State.finishCreate at h
  rw [Option.map_eq_some_iff] at h
  obtain ⟨l, h1, rfl⟩ := h
  rw [State.buildRec_kept, State.takeLine_kept _ _ _ h1]

@[simp] theorem State.createRec_kept (s : State) (p : Nat) (x : Pkt) (f : Nat) (key : List Byte)
    (dest : BitVec 6) : (State.createRec s p x f key dest).1.kept = s.kept := by
  unfold State.createRec
  extract_lets k
  clear_value k
  split
  · rw [State.updPkt_kept, State.err_kept]
  · extract_lets w u
    have hu : u.kept = s.kept := State.commitPlace_kept _ _ _
    clear_value w u
    split
    · rename_i h1
      exact (State.finishCreate_kept _ _ _ _ h1).trans hu
    · rw [State.updPkt_kept, hu]

theorem pickSt_kept (p : Nat) (code : Nat) (s : State) {t : State} :
    (pickSt p code s).state? = some t → t.kept = s.kept := by
  intro h
  unfold pickSt at h
  grind [State.kept, foldl_kept, toOut_ok, ub_ne, PickRes.state?, TaskRes.state?, Looked.state?,
    PatchRes.state?, State.updPkt_kept]

theorem execFlook_kept (c : Ctx) (w : IWord) (s : State) {t : State} :
    execFlook c w s = .next t → t.kept = s.kept := by
  intro h
  unfold execFlook at h
  split at h
  · exact taskIllegal_kept _ _ h
  · refine runPick_kept _ _ _ _ ?_ h
    clear h
    intro x u h
    extract_lets f at h
    clear_value f
    split at h
    · exact pickSt_kept _ _ _ h
    · split at h
      · exact pickSt_kept _ _ _ h
      · split at h
        · exact pickSt_kept _ _ _ h
        · split at h
          · rename_i h1
            have k1 := State.lookup_kept _ _ _ _ _ _ (t := _) (by rw [h1]; rfl)
            cases h
            rw [State.updPkt_kept, k1]
          · rename_i h1
            have k1 := State.lookup_kept _ _ _ _ _ _ (t := _) (by rw [h1]; rfl)
            rw [pickSt_kept _ _ _ h, k1]
          · rename_i h1
            have k1 := State.lookup_kept _ _ _ _ _ _ (t := _) (by rw [h1]; rfl)
            cases h
            exact k1

theorem execFcreate_kept (c : Ctx) (w : IWord) (s : State) {t : State} :
    execFcreate c w s = .next t → t.kept = s.kept := by
  intro h
  unfold execFcreate at h
  split at h
  · exact taskIllegal_kept _ _ h
  · split at h
    · refine unlessHalted_kept h fun h => ?_
      split at h
      · cases h; rfl
      · rename_i h1
        rw [State.nextPick_kept _ _ _ _ (toOut_ok.1 h), State.finishCreate_kept _ _ _ _ h1]
    · refine runPick_kept _ _ _ _ ?_ h
      clear h
      intro x u h
      split at h
      · exact pickSt_kept _ _ _ h
      · split at h
        · exact pickSt_kept _ _ _ h
        · extract_lets f at h
          clear_value f
          split at h
          · exact pickSt_kept _ _ _ h
          · split at h
            · rename_i h1
              have k1 : _ = s.kept := State.lookup_kept s _ _ _ _ _ (by rw [h1]; rfl)
              cases h
              rw [State.updPkt_kept, k1]
            · rename_i h1
              have k1 : _ = s.kept := State.lookup_kept s _ _ _ _ _ (by rw [h1]; rfl)
              split at h
              · cases h; rfl
              · extract_lets r at h
                have kr : r.1.kept = s.kept := (State.createRec_kept _ _ _ _ _ _).trans k1
                clear_value r
                split at h <;> cases h <;> exact kr
            · rename_i h1
              have k1 : _ = s.kept := State.lookup_kept s _ _ _ _ _ (by rw [h1]; rfl)
              cases h
              exact k1

@[simp] theorem State.tailRead_kept (s : State) (rno form : Nat) (k : Seal) (fresh : Bool) :
    (State.tailRead s rno form k fresh).1.kept = s.kept := by
  unfold State.tailRead
  extract_lets a u bad v w
  have ku : u.kept = s.kept := State.lineSeen_kept _ _
  have kv : v.kept = s.kept := by unfold v; split <;> simp only [State.uncRead_kept, ku]
  have kw : w.kept = s.kept := by unfold w; split <;> simp only [State.lostNote_kept, kv]
  rw [State.readImage_kept, kw]

theorem execFlowHeadFill_kept (p : PktId) (errs : List SymErr) (s : State) {t : State} :
    execFlowHeadFill p errs s = .next t → t.kept = s.kept := by
  intro h
  unfold execFlowHeadFill at h
  refine unlessHalted_kept h fun h => ?_
  split at h
  · cases h; rfl
  · rename_i x _
    split at h
    · rename_i w _
      split at h
      · cases h; rfl
      · extract_lets op found lost at h
        have hf : ∀ u t, found u = .next t → t.kept = u.kept := by
          intro u t hu
          unfold found at hu
          rw [toOut_ok] at hu
          rw [State.nextPick_kept _ _ _ _ hu]
          split <;> rw [State.updPkt_kept, State.holdLine_kept]
        have hl : ∀ u t, lost u = .next t → t.kept = u.kept := by
          intro u t hu
          unfold lost at hu
          extract_lets v at hu
          have kv : v.kept = u.kept := State.updPkt_kept _ _ _
          clear_value v
          split at hu
          · rw [State.nextPick_kept _ _ _ _ (toOut_ok.1 hu), State.updPkt_kept, kv]
          · split at hu
            · cases hu; exact kv
            · extract_lets r at hu
              have kr : r.1.kept = u.kept := (State.createRec_kept _ _ _ _ _ _).trans kv
              clear_value r
              split at hu
              · rw [State.nextPick_kept _ _ _ _ (toOut_ok.1 hu), kr]
              · cases hu; exact kr
        clear_value found lost op
        split at h
        · cases h; rfl
        · split at h
          · extract_lets r at h
            have kr : r.1.kept = s.kept := by unfold r; rw [State.tailRead_kept, State.spoil_kept]
            clear_value r
            rw [hf _ _ h, State.updLine_kept, kr]
          · split at h
            · exact hl _ _ h
            · rename_i r _
              extract_lets a v at h
              have kv : v.kept = s.kept := by unfold v; rw [State.lineSeen_kept, State.spoil_kept]
              clear_value a v
              split at h
              · rw [hl _ _ h, State.loseHead_kept, State.uncRead_kept, kv]
              · rename_i hd q _
                split at h
                · split at h
                  · have kq : q.1.kept = s.kept := by unfold q; rw [State.tailRead_kept, kv]
                    clear_value q
                    rw [hf _ _ h, State.install_kept, kq]
                  · rw [hf _ _ h, State.install_kept, kv]
                · rw [hl _ _ h, State.updLine_kept, kv]
    · cases h; rfl

@[simp] theorem State.updHeld_kept (s : State) (l : Nat) (f : Head → Head) :
    (State.updHeld s l f).kept = s.kept := by
  simp only [State.updHeld]
  repeat' split
  all_goals (try simp only [State.setLine_kept, State.cntShared_kept])

theorem execFupd_kept (c : Ctx) (w : IWord) (s : State) {t : State} :
    execFupd c w s = .next t → t.kept = s.kept := by
  intro h
  unfold execFupd at h
  (repeat' split at h) <;> first
    | exact taskIllegal_kept _ _ h
    | refine runPick_kept _ _ _ _ ?_ h
      clear h
      intro x u hu
      (try simp only at hu)
      (repeat' split at hu) <;> first
        | (cases hu; simp only [State.updPkt_kept,
              State.updHeld_kept])

@[simp] theorem State.foldInto_kept (s : State) (w2 : Bool) (l : Nat) (pair : Nat) (bytes : Nat) (pkts : Nat)
    (loom : Nat) :
    (State.foldInto s w2 l pair bytes pkts loom).kept = s.kept := by
  simp only [State.foldInto]
  repeat' split
  all_goals (try simp only [State.updLine_kept, State.fold_kept, State.updHeld_kept])

theorem execFfold_kept (c : Ctx) (w : IWord) (s : State) {t : State} :
    execFfold c w s = .next t → t.kept = s.kept := by
  intro h
  unfold execFfold at h
  (repeat' split at h) <;> first
    | exact taskIllegal_kept _ _ h
    | refine runPick_kept _ _ _ _ ?_ h
      clear h
      intro x u hu
      (try simp only at hu)
      (repeat' split at hu) <;> first
        | (cases hu; simp only [
              State.foldInto_kept, State.updPkt_kept])

@[simp] theorem State.readRec_kept (s : State) (who : EvMaster) (r : Nat) :
    (State.readRec s who r).kept = s.kept := by
  simp only [State.readRec, apply_ite State.kept, ite_self, State.hbmTraffic_kept]

@[simp] theorem State.mendTail_kept (s : State) (r : Nat) (h : Head) :
    (State.mendTail s r h).kept = s.kept := by
  simp only [State.mendTail, apply_ite State.kept, ite_self,
    State.hbmPut_kept, State.lostNote_kept, State.uncRead_kept]

@[simp] theorem State.endDigest_kept (s : State) (who : EvMaster) (r : Nat) (h : Head) :
    (State.endDigest s who r h).kept = s.kept := by
  simp only [State.endDigest, apply_ite State.kept, ite_self, State.fdig_kept, State.readRec_kept, State.mendTail_kept, State.kept_mk]

@[simp] theorem State.deleteRec_kept (s : State) (who : EvMaster) (r : Nat) (h : Head) :
    (State.deleteRec s who r h).kept = s.kept := by
  simp only [State.deleteRec]
  repeat' split
  all_goals (try simp only [apply_ite State.kept, ite_self, State.hbmTraffic_kept, State.hbmPut_kept, State.freeRec_kept, State.setLine_kept, State.setVictims_kept, State.freeLine_kept, State.endDigest_kept, State.kept_mk])
  all_goals (try with_reducible exact State.kept_eta _)

@[simp] theorem State.deleteIdle_kept (s : State) (who : EvMaster) (r : Nat) (clear : Bool) :
    (State.deleteIdle s who r clear).2.kept = s.kept := by
  simp only [State.deleteIdle]
  repeat' split
  all_goals (try simp only [apply_ite State.kept, ite_self, State.uncRead_kept, State.hbmTraffic_kept, State.hbmPut_kept, State.loseRec_kept, State.updLine_kept, State.setVictims_kept, State.deleteRec_kept, State.kept_mk])
  all_goals (try with_reducible exact State.kept_eta _)

theorem fdelidleTask_kept (w : IWord) (k : Nat) (t : Task) (s : State) {tt : State} :
    (fdelidleTask w k t s).state? = some tt → tt.kept = s.kept := by
  intro h
  unfold fdelidleTask at h
  extract_lets r fin at h
  have hf : ∀ c u v, (fin c u).state? = some v → v.kept = u.kept := by
    intro c u v hu; cases hu; exact State.updTask_kept _ _ _
  clear_value r fin
  split at h
  · exact hf _ _ _ h
  · split at h
    · cases h; rfl
    · split at h
      · cases h; exact State.hbmWake_kept _ _
      · exact (hf _ _ _ h).trans (State.deleteIdle_kept _ _ _ _)

theorem execFdelidle_kept (c : Ctx) (w : IWord) (s : State) {t : State} :
    execFdelidle c w s = .next t → t.kept = s.kept := by
  intro h
  unfold execFdelidle at h
  grind [State.kept, foldl_kept, foldl_kept_fst, toOut_ok, ub_ne, PickRes.state?, TaskRes.state?, Looked.state?, PatchRes.state?, → runTask_kept, → pickIllegal_kept, → fdelidleTask_kept]

theorem execVictimRelease_kept (b : Fin 64) (n : Nat) (s : State) {t : State} :
    execVictimRelease b n s = .next t → t.kept = s.kept := by
  intro h
  unfold execVictimRelease at h
  grind [State.kept, foldl_kept, toOut_ok, ub_ne, PickRes.state?, TaskRes.state?, Looked.state?,
    PatchRes.state?, State.setVictims_kept, → unlessHalted_cases]

@[simp] theorem State.hbmAccess_kept (s : State) (c : Nat) (line : Nat) (who : EvMaster) :
    (State.hbmAccess s c line who).kept = s.kept := by
  simp only [State.hbmAccess, apply_ite State.kept, ite_self, State.updChan_kept, State.event_kept]

@[simp] theorem State.issueReq_kept (s : State) (c : Nat) (r : Req) :
    (State.issueReq s c r).kept = s.kept := by
  have hf : ∀ (l : List Nat) (u : State),
      (l.foldl (fun u i => u.hbmAccess c (r.line + 64 * i) .internal) u).kept = u.kept :=
    fun l u => foldl_kept _ (fun _ _ => State.hbmAccess_kept _ _ _ _) l u
  simp only [State.issueReq]
  split
  · split
    · rw [State.setRetire_kept, hf]
    · exact hf _ _
  · split
    · rw [State.hbmAccess_kept, State.hbmAccess_kept, State.dropReqs_kept]
    · rw [State.hbmAccess_kept, State.dropReqs_kept]

@[simp] theorem State.refresh_kept (s : State) (c : Nat) (b : Nat) :
    (State.refresh s c b).kept = s.kept := by
  simp only [State.refresh, State.updChan_kept]

@[simp] theorem State.patrolTurn_kept (s : State) (c : Nat) :
    (State.patrolTurn s c).kept = s.kept := by
  simp only [State.patrolTurn, apply_ite State.kept, ite_self, State.updChan_kept]

@[simp] theorem State.setNextSlot_kept (s : State) (c : Nat) (i : Nat) (w : Slot) :
    (State.setNextSlot s c i w).kept = s.kept := by
  simp only [State.setNextSlot, State.updChan_kept]

@[simp] theorem State.runSlot_kept (s : State) (c : Nat) :
    (State.runSlot s c).kept = s.kept := by
  simp only [State.runSlot]
  repeat' split
  all_goals (try simp only [apply_ite State.kept, ite_self, State.updChan_kept, State.issueReq_kept, State.refresh_kept, State.kept_mk])
  all_goals (try with_reducible exact State.kept_eta _)

@[simp] theorem State.spoilLines_kept (s : State) (c : Nat) (errs : List (Fin 2013265920 × List SymErr)) :
    (State.spoilLines s c errs).kept = s.kept := by
  unfold State.spoilLines
  grind [State.kept, foldl_kept, foldl_kept_fst, State.spoil_kept]

theorem execTreadleSlot_kept (ch : ChanId) (r : SlotRead) (s : State) {t : State} :
    execTreadleSlot ch r s = .next t → t.kept = s.kept := by
  intro h
  unfold execTreadleSlot at h
  refine unlessReset_kept h fun h => ?_
  extract_lets c at h
  clear_value c
  split at h
  · cases h; rfl
  · rename_i u i _
    have ku : u.kept = s.kept := by
      unfold u
      rw [State.startWaiting_kept, State.settleLoads_kept, State.spoilLines_kept, State.runSlot_kept,
        State.patrolTurn_kept]
    clear_value u i
    cases h
    rw [State.setNextSlot_kept, ku]

theorem execRefreshDue_kept (ch : ChanId) (r : BankReport) (s : State) {t : State} :
    execRefreshDue ch r s = .next t → t.kept = s.kept := by
  intro h
  unfold execRefreshDue at h
  refine unlessReset_kept h ?_
  clear h; intro h
  grind [State.kept, foldl_kept, toOut_ok, ub_ne, PickRes.state?, TaskRes.state?, Looked.state?,
    PatchRes.state?, State.refresh_kept, State.updChan_kept]

theorem execRefreshDeadline_kept (ch : ChanId) (b : Fin 32) (s : State) {t : State} :
    execRefreshDeadline ch b s = .next t → t.kept = s.kept := by
  intro h
  unfold execRefreshDeadline at h
  refine unlessReset_kept h ?_
  clear h; intro h
  grind [State.kept, foldl_kept, foldl_kept_fst, toOut_ok, ub_ne, PickRes.state?, TaskRes.state?, Looked.state?, PatchRes.state?, State.updChan_kept]

theorem execChannelRest_kept (ch : ChanId) (s : State) {t : State} :
    execChannelRest ch s = .next t → t.kept = s.kept := by
  intro h
  unfold execChannelRest at h
  refine unlessReset_kept h ?_
  clear h; intro h
  grind [State.kept, foldl_kept, toOut_ok, ub_ne, PickRes.state?, TaskRes.state?, Looked.state?,
    PatchRes.state?, State.updChan_kept, State.setF_kept]

@[simp] theorem State.wakeChan_kept (s : State) (c : Nat) :
    (State.wakeChan s c).kept = s.kept := by
  simp only [State.wakeChan, State.updChan_kept, State.setF_kept]

theorem execRestExit_kept (ch : ChanId) (s : State) {t : State} :
    execRestExit ch s = .next t → t.kept = s.kept := by
  intro h
  unfold execRestExit at h
  grind [State.kept, foldl_kept, toOut_ok, ub_ne, PickRes.state?, TaskRes.state?, Looked.state?,
    PatchRes.state?, State.wakeChan_kept]

@[simp] theorem State.wakeAll_kept (s : State) :
    (State.wakeAll s).kept = s.kept := by
  unfold State.wakeAll
  grind [State.kept, foldl_kept, foldl_kept_fst, State.wakeChan_kept]

@[simp] theorem State.replayEsc_kept (s : State) (c : Nat) :
    (State.replayEsc s c).kept = s.kept := by
  simp only [State.replayEsc, apply_ite State.kept, ite_self,
    State.wr_kept, State.draw_kept, State.masked_kept, State.setF_kept, State.wantSearch_kept]

theorem execParityAlert_kept (r : ParityReport) (s : State) {t : State} :
    execParityAlert r s = .next t → t.kept = s.kept := by
  intro h
  unfold execParityAlert at h
  refine unlessReset_kept h ?_
  clear h; intro h
  grind [State.kept, foldl_kept, toOut_ok, ub_ne, PickRes.state?, TaskRes.state?, Looked.state?,
    PatchRes.state?, State.updChan_kept, State.satF_kept, State.replayEsc_kept]

theorem execRetrainSearchStart_kept (ch : ChanId) (s : State) {t : State} :
    execRetrainSearchStart ch s = .next t → t.kept = s.kept := by
  intro h
  unfold execRetrainSearchStart at h
  refine unlessReset_kept h ?_
  clear h; intro h
  grind [State.kept, foldl_kept, toOut_ok, ub_ne, PickRes.state?, TaskRes.state?, Looked.state?,
    PatchRes.state?, State.updChan_kept]

@[simp] theorem State.released_kept (s : State) (c : Nat) (good : Bool) :
    (State.released s c good).kept = s.kept := by
  simp only [State.released, apply_ite State.kept, ite_self, State.setChanState_kept, State.chanDead_kept, State.kept_mk]
  with_reducible exact State.kept_eta _

theorem execRetrainSearchDone_kept (ch : ChanId) (r : SearchResult) (s : State) {t : State} :
    execRetrainSearchDone ch r s = .next t → t.kept = s.kept := by
  intro h
  unfold execRetrainSearchDone at h
  grind [State.kept, foldl_kept, foldl_kept_fst, toOut_ok, ub_ne, PickRes.state?, TaskRes.state?, Looked.state?, PatchRes.state?, State.updChan_kept, State.setChanState_kept, State.creelCmdOf_kept, State.startRetire_kept, State.chanDead_kept, State.released_kept]

theorem execSpareTrained_kept (k : StackId) (ok : Bool) (s : State) {t : State} :
    execSpareTrained k ok s = .next t → t.kept = s.kept := by
  intro h
  unfold execSpareTrained at h
  grind [State.kept, foldl_kept, toOut_ok, ub_ne, PickRes.state?, TaskRes.state?, Looked.state?,
    PatchRes.state?, State.queueCopy_kept, State.setF_kept, State.setRetire_kept, State.chanDead_kept]

@[simp] theorem State.copyRetired_kept (s : State) (r : Retire) (a : Nat) (errs : List SymErr) :
    (State.copyRetired s r a errs).kept = s.kept := by
  simp only [State.copyRetired]
  repeat' split
  all_goals (try simp only [apply_ite State.kept, ite_self, State.incF_kept, State.setBytes_kept, State.setErrs_kept, State.spoil_kept, State.setBad_kept, State.lineSeen_kept, State.uncAlone_kept, State.kept_mk])
  all_goals (try with_reducible exact State.kept_eta _)

@[simp] theorem State.retireEnd_kept (s : State) (r : Retire) :
    (State.retireEnd s r).kept = s.kept := by
  simp only [State.retireEnd, apply_ite State.kept, ite_self, State.wr_kept, State.setF_kept, State.updChan_kept, State.setChanState_kept, State.creelCmdOf_kept, State.searchOff_kept, State.masked_kept, State.setRetire_kept, State.dropReqs_kept, State.nextRetire_kept, State.kept_mk]

theorem execRetireCopyGranule_kept (k : StackId) (errs : List (List SymErr)) (s : State) {t : State} :
    execRetireCopyGranule k errs s = .next t → t.kept = s.kept := by
  intro h
  unfold execRetireCopyGranule at h
  grind [State.kept, foldl_kept, foldl_kept_fst, toOut_ok, ub_ne, PickRes.state?, TaskRes.state?, Looked.state?, PatchRes.state?, State.setF_kept, State.updChan_kept, State.setRetire_kept, State.dropReqs_kept, State.queueCopy_kept, State.hbmAccess_kept, State.copyRetired_kept, State.retireEnd_kept]

@[simp] theorem State.creelAction_kept (s : State) (k : Nat) :
    (State.creelAction s k).kept = s.kept := by
  unfold State.creelAction
  grind [State.kept, foldl_kept, foldl_kept_fst, State.wr_kept, State.wantSearch_kept, State.creelCmdEnd_kept,
    State.startRetire_kept, State.updChan_kept]

@[simp] theorem State.creelCmdWrite_kept (s : State) (k : Nat) (v : Word) (en : Word) :
    (State.creelCmdWrite s k v en).kept = s.kept := by
  simp only [State.creelCmdWrite, apply_ite State.kept, ite_self,
    State.plainWrite_kept, State.creelAction_kept]

theorem execCreelSearchCmd_kept (k : StackId) (v : Word) (s : State) {t : State} :
    execCreelSearchCmd k v s = .next t → t.kept = s.kept := by
  intro h
  unfold execCreelSearchCmd at h
  refine State.byWrite_kept h ?_
  clear h; intro h
  cases h
  simp only [State.creelCmdWrite_kept]

theorem execCreelRetireCmd_kept (k : StackId) (v : Word) (s : State) {t : State} :
    execCreelRetireCmd k v s = .next t → t.kept = s.kept := by
  intro h
  unfold execCreelRetireCmd at h
  refine State.byWrite_kept h ?_
  clear h; intro h
  cases h
  simp only [State.creelCmdWrite_kept]

theorem execCreelReleaseCmd_kept (k : StackId) (v : Word) (s : State) {t : State} :
    execCreelReleaseCmd k v s = .next t → t.kept = s.kept := by
  intro h
  unfold execCreelReleaseCmd at h
  refine State.byWrite_kept h ?_
  clear h; intro h
  cases h
  simp only [State.creelCmdWrite_kept]

@[simp] theorem State.patrolUnc_kept (s : State) (a : Nat) :
    (State.patrolUnc s a).kept = s.kept := by
  simp only [State.patrolUnc]
  repeat' split
  all_goals (try simp only [apply_ite State.kept, ite_self, State.uncRead_kept, State.uncAlone_kept, State.hbmTraffic_kept, State.hbmPutLine_kept, State.hbmPut_kept, State.lostNote_kept, State.loseRec_kept, State.startWaiting_kept, State.tableMiss_kept, State.kept_mk])
  all_goals (try with_reducible exact State.kept_eta _)

theorem execPatrolScrub_kept (line : Fin 2013265920) (errs : List SymErr) (s : State) {t : State} :
    execPatrolScrub line errs s = .next t → t.kept = s.kept := by
  intro h
  unfold execPatrolScrub at h
  extract_lets a at h
  clear_value a
  split at h
  · cases h; rfl
  · split at h
    · cases h; rfl
    · extract_lets s1 s2 at h
      have k2 : s2.kept = s.kept := by
        unfold s2 s1
        rw [State.lineSeen_kept, State.spoil_kept, State.hbmAccess_kept, State.updChan_kept]
      clear_value s2
      cases h
      split
      · rw [State.patrolUnc_kept, k2]
      · split
        · exact k2
        · rw [State.setErrs_kept, State.hbmAccess_kept, k2]

theorem execStackLoss_kept (k : StackId) (s : State) {t : State} :
    execStackLoss k s = .next t → t.kept = s.kept := by
  intro h
  unfold execStackLoss at h
  refine unlessReset_kept h ?_
  clear h; intro h
  (repeat' split at h) <;> first
    | (cases h; simp only [apply_ite State.kept, ite_self, State.loseStack_kept, State.kept_mk])
    | (cases h; rfl)
    | (cases h; (repeat' first | with_reducible rfl | simp only [State.loseStack_kept, State.kept_mk] | split | with_reducible exact State.kept_eta _); done)
    | (cases h; simp only [apply_ite State.kept, ite_self, State.loseStack_kept, State.kept_mk]; with_reducible exact State.kept_eta _)

@[simp] theorem State.falseHit_kept (s : State) (i : Nat) :
    (State.falseHit s i).kept = s.kept := by
  simp only [State.falseHit, State.setF_kept, State.masked_kept, State.cntShared_kept]

@[simp] theorem State.setPortQ_kept (s : State) (q : Nat) (l : List Nat) :
    (State.setPortQ s q l).kept = s.kept := by
  simp only [State.setPortQ, State.kept_mk]
  with_reducible exact State.kept_eta _

theorem State.takeReclass_kept (s : State) (q : Nat) {t : State} :
    State.takeReclass s q = some t → t.kept = s.kept := by
  intro h
  unfold State.takeReclass at h
  grind [State.kept, foldl_kept, toOut_ok, ub_ne, PickRes.state?, TaskRes.state?, Looked.state?,
    PatchRes.state?]

theorem rsearchPick_kept (w : IWord) (x : Pkt) (p : Nat) (s : State) {t : State} :
    (rsearchPick w x p s).state? = some t → t.kept = s.kept := by
  intro h
  unfold rsearchPick at h
  grind [State.kept, foldl_kept, toOut_ok, ub_ne, PickRes.state?, TaskRes.state?, Looked.state?,
    PatchRes.state?, State.setPkt_kept, State.setPortQ_kept, State.incF_kept, State.event_kept, →
    State.takeReclass_kept]

theorem execRsearch_kept (c : Ctx) (w : IWord) (s : State) {t : State} :
    execRsearch c w s = .next t → t.kept = s.kept := by
  intro h
  unfold execRsearch at h
  (repeat' split at h) <;> first
    | exact taskIllegal_kept _ _ h
    | refine runPick_kept _ _ _ _ ?_ h
      clear h
      intro x u hu
      grind [→ taskIllegal_kept, → rsearchPick_kept]

@[simp] theorem rnextScan_kept (s : State) (x1 : List (Nat × Bool)) :
    (rnextScan s x1).1.kept = s.kept := by
  induction x1 generalizing s with
  | nil => rfl
  | cons e l ih =>
    obtain ⟨i, ok⟩ := e
    unfold rnextScan
    split
    · rfl
    · rw [ih, State.falseHit_kept]

theorem execRnext_kept (c : Ctx) (w : IWord) (s : State) {t : State} :
    execRnext c w s = .next t → t.kept = s.kept := by
  intro h
  unfold execRnext at h
  (repeat' split at h) <;> first
    | exact taskIllegal_kept _ _ h
    | refine runPick_kept _ _ _ _ ?_ h
      clear h
      intro x u hu
      (try simp only at hu)
      (repeat' split at hu) <;> first
        | (cases hu; simp only [State.setPkt_kept,
              rnextScan_kept])

theorem State.runSearch_kept (s : State) (p : Nat) (x : Pkt) (q : Search) (falseHits : List Nat) (missed :
    List Nat) {t : State} :
    State.runSearch s p x q falseHits missed = .ok t → t.kept = s.kept := by
  intro h
  unfold State.runSearch at h
  grind [State.kept, foldl_kept, toOut_ok, ub_ne, PickRes.state?, TaskRes.state?, Looked.state?,
    PatchRes.state?, State.cntShared_kept, State.err_kept, State.falseHit_kept, State.setPkt_kept, →
    State.nextPick_kept]

theorem execReedSearch_kept (q : Fin 4) (m : Misread) (s : State) {t : State} :
    execReedSearch q m s = .next t → t.kept = s.kept := by
  intro h
  unfold execReedSearch at h
  grind [State.kept, foldl_kept, toOut_ok, ub_ne, PickRes.state?, TaskRes.state?, Looked.state?,
    PatchRes.state?, State.setPortQ_kept, → State.runSearch_kept, → unlessHalted_cases]

@[simp] theorem State.scrubRepair_kept (s : State) (i : Nat) :
    (State.scrubRepair s i).kept = s.kept := by
  simp only [State.scrubRepair, State.setF_kept, State.masked_kept]

@[simp] theorem State.rowFromCopy_kept (s : State) (i : Nat) (l : List SymErr × List SymErr) :
    (State.rowFromCopy s i l).kept = s.kept := by
  simp only [State.rowFromCopy, apply_ite State.kept, ite_self, State.setBytes_kept, State.kept_mk]

theorem execReedScrub_kept (i : Fin 524288) (fault : RowFault) (s : State) {t : State} :
    execReedScrub i fault s = .next t → t.kept = s.kept := by
  intro h
  unfold execReedScrub at h
  refine unlessHalted_kept h ?_
  clear h; intro h
  grind [State.kept, foldl_kept, foldl_kept_fst, toOut_ok, ub_ne, PickRes.state?, TaskRes.state?, Looked.state?, PatchRes.state?, State.setF_kept, State.masked_kept, State.scrubRepair_kept, State.rowFromCopy_kept]

@[simp] theorem State.reedBankWrite_kept (s : State) (b : Nat) (v : Word) (en : Word) :
    (State.reedBankWrite s b v en).kept = s.kept := by
  unfold State.reedBankWrite
  grind [State.kept, foldl_kept, foldl_kept_fst, State.plainWrite_kept, State.setF_kept]

theorem execReedBankPowerUp_kept (b : Fin 128) (v : Word) (s : State) {t : State} :
    execReedBankPowerUp b v s = .next t → t.kept = s.kept := by
  intro h
  unfold execReedBankPowerUp at h
  refine State.byWrite_kept h ?_
  clear h; intro h
  cases h
  simp only [State.reedBankWrite_kept]

theorem execReedPowerAck_kept (b : Fin 128) (bad : List (Fin 4096)) (s : State) {t : State} :
    execReedPowerAck b bad s = .next t → t.kept = s.kept := by
  intro h
  unfold execReedPowerAck at h
  grind [State.kept, foldl_kept, toOut_ok, ub_ne, PickRes.state?, TaskRes.state?, Looked.state?,
    PatchRes.state?, State.scrubRepair_kept, State.setF_kept, → unlessHalted_cases]

@[simp] theorem State.grantSlot_kept (s : State) (b : Nat) (q : Nat) :
    (State.grantSlot s b q).kept = s.kept := by
  simp only [State.grantSlot]
  repeat' split
  all_goals (try simp only [State.updPkt_kept])

theorem execReedBankSlot_kept (b : Fin 128) (s : State) {t : State} :
    execReedBankSlot b s = .next t → t.kept = s.kept := by
  intro h
  unfold execReedBankSlot at h
  grind [State.kept, foldl_kept, toOut_ok, ub_ne, PickRes.state?, TaskRes.state?, Looked.state?,
    PatchRes.state?, State.grantSlot_kept, → unlessHalted_cases]

@[simp] theorem State.reedWritten_kept (s : State) (i : Nat) :
    (State.reedWritten s i).kept = s.kept := by
  simp only [State.reedWritten, State.kept_mk]
  with_reducible exact State.kept_eta _

@[simp] theorem State.setEngine_kept (s : State) (e : Nat) (l : List ScanReq) :
    (State.setEngine s e l).kept = s.kept := by
  simp only [State.setEngine, State.kept_mk]
  with_reducible exact State.kept_eta _

@[simp] theorem State.scanning_kept (s : State) (l : Nat) :
    (State.scanning s l).kept = s.kept := by
  simp only [State.scanning, State.updLine_kept]

theorem tscanPick_kept (w : IWord) (x : Pkt) (p : Nat) (s : State) {t : State} :
    (tscanPick w x p s).state? = some t → t.kept = s.kept := by
  intro h
  unfold tscanPick at h
  grind [State.kept, foldl_kept, toOut_ok, ub_ne, PickRes.state?, TaskRes.state?, Looked.state?,
    PatchRes.state?, State.setPkt_kept, State.scanning_kept, State.updLine_kept, State.err_kept,
    State.setEngine_kept]

theorem execTscan_kept (c : Ctx) (w : IWord) (s : State) {t : State} :
    execTscan c w s = .next t → t.kept = s.kept := by
  intro h
  unfold execTscan at h
  (repeat' split at h) <;> first
    | exact taskIllegal_kept _ _ h
    | refine runPick_kept _ _ _ _ ?_ h
      clear h
      intro x u hu
      grind [→ taskIllegal_kept, → tscanPick_kept]

theorem State.writeVerdict_kept (s : State) (q : ScanReq) (r : ScanRes) {t : State} :
    State.writeVerdict s q r = some t → t.kept = s.kept := by
  intro h
  unfold State.writeVerdict at h
  extract_lets k at h
  clear_value k
  split at h
  · split at h
    · split at h
      · cases h; exact State.setLine_kept _ _ _
      · cases h
    · cases h
  · split at h
    · cases h
    · extract_lets a at h
      clear_value a
      split at h
      · split at h
        · cases h; rw [State.hbmPut_kept, State.setVictims_kept]
        · cases h
      · rename_i hd s1 _ _
        have k1 : s1.kept = s.kept := State.hbmTraffic_kept _ _ _ _ _ _
        clear_value hd s1
        split at h
        · cases h
        · split at h
          · cases h; rw [State.hbmPut_kept, State.hbmTraffic_kept, k1]
          · cases h

@[simp] theorem State.verdictUnc_kept (s : State) (k : Seal) :
    (State.verdictUnc s k).kept = s.kept := by
  simp only [State.verdictUnc]
  repeat' split
  all_goals (try simp only [State.loseRec_kept, State.uncRead_kept])

theorem execTwillScan_kept (e : Fin 4) (s : State) {t : State} :
    execTwillScan e s = .next t → t.kept = s.kept := by
  intro h
  unfold execTwillScan at h
  grind [State.kept, foldl_kept, toOut_ok, ub_ne, PickRes.state?, TaskRes.state?, Looked.state?,
    PatchRes.state?, State.incF_kept, State.setEngine_kept, State.count_kept, State.cntShared_kept,
    State.err_kept, State.verdictUnc_kept, → State.writeVerdict_kept, → unlessHalted_cases]

theorem State.warpCtlWrite_kept (s : State) (v : Word) (en : Word) {t : State} :
    State.warpCtlWrite s v en = .ok t → t.kept = s.kept := by
  intro h
  unfold State.warpCtlWrite at h
  grind [State.kept, foldl_kept, toOut_ok, ub_ne, PickRes.state?, TaskRes.state?, Looked.state?,
    PatchRes.state?, State.plainWrite_kept, State.setF_kept]

theorem State.warpFixedWrite_kept (s : State) (a : Nat) (v : Word) (en : Word) {t : State} :
    State.warpFixedWrite s a v en = .ok t → t.kept = s.kept := by
  intro h
  unfold State.warpFixedWrite at h
  grind [State.kept, foldl_kept, toOut_ok, ub_ne, PickRes.state?, TaskRes.state?, Looked.state?,
    PatchRes.state?, State.plainWrite_kept]

theorem State.warpTableWrite_kept (s : State) (t : Nat) (a : Nat) (v : Word) (en : Word) {tt : State} :
    State.warpTableWrite s t a v en = .ok tt → tt.kept = s.kept := by
  intro h
  unfold State.warpTableWrite at h
  grind [State.kept, foldl_kept, toOut_ok, ub_ne, PickRes.state?, TaskRes.state?, Looked.state?,
    PatchRes.state?, State.plainWrite_kept]

@[simp] theorem State.flushCache_kept (s : State) :
    (State.flushCache s).kept = s.kept := by
  unfold State.flushCache
  grind [State.kept, foldl_kept, foldl_kept_fst, State.writeBackHead_kept, State.setLine_kept]

@[simp] theorem State.cacheCtlWrite_kept (s : State) (v : Word) (en : Word) :
    (State.cacheCtlWrite s v en).kept = s.kept := by
  simp only [State.cacheCtlWrite, apply_ite State.kept, ite_self,
    State.plainWrite_kept, State.setF_kept, State.flushCache_kept]

theorem State.rehashCtlWrite_kept (s : State) (v : Word) (en : Word) {t : State} :
    State.rehashCtlWrite s v en = .ok t → t.kept = s.kept := by
  intro h
  unfold State.rehashCtlWrite at h
  grind [State.kept, foldl_kept, toOut_ok, ub_ne, PickRes.state?, TaskRes.state?, Looked.state?,
    PatchRes.state?, State.plainWrite_kept, State.wr_kept]

@[simp] theorem State.clearTable_kept (s : State) (t : Nat) :
    (State.clearTable s t).kept = s.kept := by
  simp only [State.clearTable, State.kept_mk]
  with_reducible exact State.kept_eta _

@[simp] theorem State.clearOvf_kept (s : State) :
    (State.clearOvf s).kept = s.kept := by
  simp only [State.clearOvf, State.kept_mk]
  with_reducible exact State.kept_eta _

theorem State.warpInitWrite_kept (s : State) (v : Word) (en : Word) {t : State} :
    State.warpInitWrite s v en = .ok t → t.kept = s.kept := by
  intro h
  unfold State.warpInitWrite at h
  grind [State.kept, foldl_kept, toOut_ok, ub_ne, PickRes.state?, TaskRes.state?, Looked.state?,
    PatchRes.state?, State.clearTable_kept, State.clearOvf_kept, State.setF_kept]

@[simp] theorem State.rdCmdWrite_kept (s : State) (v : Word) (en : Word) :
    (State.rdCmdWrite s v en).kept = s.kept := by
  unfold State.rdCmdWrite
  grind [State.kept, foldl_kept, foldl_kept_fst, State.plainWrite_kept, State.setF_kept]

theorem State.stblWrite_kept (s : State) (nb : Nat) (a : Nat) (v : Word) (en : Word) {t : State} :
    State.stblWrite s nb a v en = .ok t → t.kept = s.kept := by
  intro h
  unfold State.stblWrite at h
  grind [State.kept, foldl_kept, toOut_ok, ub_ne, PickRes.state?, TaskRes.state?, Looked.state?,
    PatchRes.state?, State.plainWrite_kept]

theorem State.fdigCfgWrite_kept (s : State) (a : Nat) (v : Word) (en : Word) {t : State} :
    State.fdigCfgWrite s a v en = .ok t → t.kept = s.kept := by
  intro h
  unfold State.fdigCfgWrite at h
  grind [State.kept, foldl_kept, toOut_ok, ub_ne, PickRes.state?, TaskRes.state?, Looked.state?,
    PatchRes.state?, State.plainWrite_kept]

theorem execWarpInitTbl0_kept (s : State) {t : State} :
    execWarpInitTbl0 s = .next t → t.kept = s.kept := by
  intro h
  unfold execWarpInitTbl0 at h
  refine unlessHalted_kept h fun h => ?_
  refine State.byWrite_kept h ?_
  clear h; intro h
  exact State.warpInitWrite_kept _ _ _ h

theorem execWarpInitTbl1_kept (s : State) {t : State} :
    execWarpInitTbl1 s = .next t → t.kept = s.kept := by
  intro h
  unfold execWarpInitTbl1 at h
  refine unlessHalted_kept h fun h => ?_
  refine State.byWrite_kept h ?_
  clear h; intro h
  exact State.warpInitWrite_kept _ _ _ h

theorem execWarpInitOvf_kept (s : State) {t : State} :
    execWarpInitOvf s = .next t → t.kept = s.kept := by
  intro h
  unfold execWarpInitOvf at h
  refine unlessHalted_kept h fun h => ?_
  refine State.byWrite_kept h ?_
  clear h; intro h
  exact State.warpInitWrite_kept _ _ _ h

theorem execWarpInitDone_kept (s : State) {t : State} :
    execWarpInitDone s = .next t → t.kept = s.kept := by
  intro h
  unfold execWarpInitDone at h
  refine unlessHalted_kept h fun h => ?_
  cases h
  simp only [State.setF_kept]

theorem execWarpDisable_kept (v : Word) (s : State) {t : State} :
    execWarpDisable v s = .next t → t.kept = s.kept := by
  intro h
  unfold execWarpDisable at h
  refine State.byWrite_kept h ?_
  clear h; intro h
  exact State.warpCtlWrite_kept _ _ _ h

@[simp] theorem State.freeSpares_kept (s : State) :
    (State.freeSpares s).kept = s.kept := by
  unfold State.freeSpares
  grind [State.kept, foldl_kept, foldl_kept_fst, State.updPkt_kept, State.freeSpare_kept]

@[simp] theorem State.emptyCache_kept (s : State) :
    (State.emptyCache s).kept = s.kept := by
  unfold State.emptyCache
  extract_lets u v
  have hu : u.kept = s.kept := State.freeSpares_kept _
  have hv : v.kept = u.kept := by
    refine foldl_kept _ ?_ _ _
    intro s e
    split
    · rfl
    · split
      · rfl
      · extract_lets w
        have hw : w.kept = s.kept := by
          unfold w
          split
          · exact State.loseHead_kept _ _ _ _
          · split
            · exact State.writeBackHead_kept _ _ _ _ _ _
            · rfl
        clear_value w
        split
        · rw [State.freeLine_kept, hw]
        · rw [State.setLine_kept, hw]
  clear_value v
  exact hv.trans hu

theorem execWarpDisableDone_kept (s : State) {t : State} :
    execWarpDisableDone s = .next t → t.kept = s.kept := by
  intro h
  unfold execWarpDisableDone at h
  grind [State.kept, foldl_kept, toOut_ok, ub_ne, PickRes.state?, TaskRes.state?, Looked.state?,
    PatchRes.state?, State.setF_kept, State.emptyCache_kept, → unlessHalted_cases]

theorem execCacheFlush_kept (v : Word) (s : State) {t : State} :
    execCacheFlush v s = .next t → t.kept = s.kept := by
  intro h
  unfold execCacheFlush at h
  refine State.byWrite_kept h ?_
  clear h; intro h
  cases h
  simp only [State.cacheCtlWrite_kept]

theorem execCacheFlushDone_kept (s : State) {t : State} :
    execCacheFlushDone s = .next t → t.kept = s.kept := by
  intro h
  unfold execCacheFlushDone at h
  refine unlessHalted_kept h fun h => ?_
  cases h
  simp only [State.setF_kept]

theorem execCoherentRead_kept (v : Word) (s : State) {t : State} :
    execCoherentRead v s = .next t → t.kept = s.kept := by
  intro h
  unfold execCoherentRead at h
  refine State.byWrite_kept h ?_
  clear h; intro h
  cases h
  simp only [State.rdCmdWrite_kept]

@[simp] theorem State.putRdData_kept (s : State) (bs : List Byte) :
    (State.putRdData s bs).kept = s.kept := by
  unfold State.putRdData
  grind [State.kept, foldl_kept, foldl_kept_fst, State.wr_kept]

theorem execCoherentReadDone_kept (s : State) {t : State} :
    execCoherentReadDone s = .next t → t.kept = s.kept := by
  intro h
  unfold execCoherentReadDone at h
  refine unlessHalted_kept h ?_
  clear h; intro h
  grind [State.kept, foldl_kept, foldl_kept_fst, toOut_ok, ub_ne, PickRes.state?, TaskRes.state?, Looked.state?, PatchRes.state?, State.wr_kept, State.uncRead_kept, State.hbmWake_kept, State.loseRec_kept, State.readRec_kept, State.mendTail_kept, State.putRdData_kept]

theorem execRehashStart_kept (v : Word) (s : State) {t : State} :
    execRehashStart v s = .next t → t.kept = s.kept := by
  intro h
  unfold execRehashStart at h
  refine State.byWrite_kept h ?_
  clear h; intro h
  exact State.rehashCtlWrite_kept _ _ _ h

@[simp] theorem State.copyLine_kept (s : State) (src : Nat) (dst : Nat) :
    (State.copyLine s src dst).kept = s.kept := by
  simp only [State.copyLine, State.hbmTraffic_kept, State.setBad_kept, State.hbmPut_kept]

@[simp] theorem State.moveRec_kept (s : State) (r : Nat) (h : Head) (p : Placed) :
    (State.moveRec s r h p).kept = s.kept := by
  unfold State.moveRec
  grind [State.kept, foldl_kept, foldl_kept_fst, State.incF_kept, State.hbmPut_kept, State.fdig_kept, State.updLine_kept, State.setVictims_kept, State.copyLine_kept]

theorem State.placeAll_kept (s : State) (t : Nat) (x2 : List (Nat × Head)) {tt : _} :
    State.placeAll s t x2 = some tt → tt.1.kept = s.kept := by
  induction x2 generalizing s tt with
  | nil => intro h; cases h; rfl
  | cons e l ih =>
    obtain ⟨r, hd⟩ := e
    intro h
    unfold State.placeAll at h
    split at h
    · cases h
    · split at h
      · cases h
      · rename_i h1
        cases h
        have := ih _ h1
        rw [State.commitPlace_kept] at this
        exact this

@[simp] theorem State.rehashEnd_kept (s : State) :
    (State.rehashEnd s).kept = s.kept := by
  simp only [State.rehashEnd, State.setF_kept, State.err_kept]

@[simp] theorem State.enterOvf_kept (s : State) :
    (State.enterOvf s).kept = s.kept := by
  unfold State.enterOvf
  grind [State.kept, foldl_kept, foldl_kept_fst, State.setF_kept, State.rehashEnd_kept]

@[simp] theorem State.migrate_kept (s : State) :
    (State.migrate s).kept = s.kept := by
  unfold State.migrate
  grind [State.kept, foldl_kept, foldl_kept_fst, State.enterOvf_kept, State.loseRec_kept, State.uncRead_kept,
    State.err_kept, State.setF_kept, State.moveRec_kept, State.setTag_kept, State.incF_kept, →
    State.placeAll_kept]

theorem State.moveHeld_kept (s : State) (rs : List Nat) {t : State} :
    State.moveHeld s rs = some t → t.kept = s.kept := by
  intro h
  unfold State.moveHeld at h
  split at h
  · cases h; rfl
  · rw [Option.map_eq_some_iff] at h
    obtain ⟨a, -, rfl⟩ := h
    exact State.hbmWake_kept _ _

@[simp] theorem State.migrateNow_kept (s : State) :
    (State.migrateNow s).kept = s.kept := by
  unfold State.migrateNow
  cases h : s.moveHeld s.bucketRecs
  · exact State.migrate_kept _
  · exact State.moveHeld_kept _ _ h

theorem execMigrateBucket_kept (s : State) {t : State} :
    execMigrateBucket s = .next t → t.kept = s.kept := by
  intro h
  unfold execMigrateBucket at h
  refine unlessHalted_kept h ?_
  clear h; intro h
  (repeat' split at h) <;> first
    | (cases h; simp only [apply_ite State.kept, ite_self, State.migrateNow_kept, State.kept_mk])
    | (cases h; rfl)
    | (cases h; (repeat' first | with_reducible rfl | simp only [State.migrateNow_kept, State.kept_mk] | split | with_reducible exact State.kept_eta _); done)
    | (cases h; simp only [apply_ite State.kept, ite_self, State.migrateNow_kept, State.kept_mk]; with_reducible exact State.kept_eta _)

theorem execRehashRetry_kept (s : State) {t : State} :
    execRehashRetry s = .next t → t.kept = s.kept := by
  intro h
  unfold execRehashRetry at h
  refine unlessHalted_kept h ?_
  clear h; intro h
  (repeat' split at h) <;> first
    | (cases h; simp only [apply_ite State.kept, ite_self, State.migrateNow_kept, State.kept_mk])
    | (cases h; rfl)
    | (cases h; (repeat' first | with_reducible rfl | simp only [State.migrateNow_kept, State.kept_mk] | split | with_reducible exact State.kept_eta _); done)
    | (cases h; simp only [apply_ite State.kept, ite_self, State.migrateNow_kept, State.kept_mk]; with_reducible exact State.kept_eta _)

theorem execMigrateOverflow_kept (i : Fin 1048576) (s : State) {t : State} :
    execMigrateOverflow i s = .next t → t.kept = s.kept := by
  intro h
  unfold execMigrateOverflow at h
  refine unlessHalted_kept h ?_
  clear h; intro h
  grind [State.kept, foldl_kept, foldl_kept_fst, toOut_ok, ub_ne, PickRes.state?, TaskRes.state?, Looked.state?, PatchRes.state?, State.uncRead_kept, State.setOvf_kept, State.commitPlace_kept, State.loseRec_kept, State.moveRec_kept, State.rehashEnd_kept, → State.moveHeld_kept]

theorem execCacheSweep_kept (line : Fin 1048576) (s : State) {t : State} :
    execCacheSweep line s = .next t → t.kept = s.kept := by
  intro h
  unfold execCacheSweep at h
  refine unlessHalted_kept h ?_
  clear h; intro h
  (repeat' split at h) <;> first
    | (cases h; simp only [apply_ite State.kept, ite_self, State.hbmWake_kept, State.fold_kept, State.updLine_kept, State.kept_mk])
    | (cases h; rfl)
    | (cases h; (repeat' first | with_reducible rfl | simp only [State.hbmWake_kept, State.fold_kept, State.updLine_kept, State.kept_mk] | split | with_reducible exact State.kept_eta _); done)
    | (cases h; simp only [apply_ite State.kept, ite_self, State.hbmWake_kept, State.fold_kept, State.updLine_kept, State.kept_mk]; with_reducible exact State.kept_eta _)

@[simp] theorem State.owePass_kept (s : State) :
    (State.owePass s).kept = s.kept := by
  simp only [State.owePass, State.kept_mk]
  with_reducible exact State.kept_eta _

theorem execTableSweep_kept (r : BitVec 28) (s : State) {t : State} :
    execTableSweep r s = .next t → t.kept = s.kept := by
  intro h
  unfold execTableSweep at h
  refine unlessHalted_kept h ?_
  clear h; intro h
  grind [State.kept, foldl_kept, foldl_kept_fst, toOut_ok, ub_ne, PickRes.state?, TaskRes.state?, Looked.state?, PatchRes.state?, State.uncRead_kept, State.hbmWake_kept, State.hbmTraffic_kept, State.hbmPut_kept, State.loseRec_kept, State.fold_kept]

end Sys2Proof.Machine
end

