-- ==== Sys2Proof/Laws/KeptRegs.lean ====
section
/-! SUPPORT. Register hooks:
what each definition keeps of the queue, the trip latch and the bound of the host's batten list
(Laws/Kept.lean). One lemma a definition, so that no proof unfolds one again. -/

namespace Sys2Proof.Machine

theorem ite_ok_kept {c : Prop} [Decidable c] {x y : Except Fault State} {t : State} {s : State}
   (hx : x = .ok t → t.kept = s.kept) (hy : y = .ok t → t.kept = s.kept) : (if c then x else y) = .ok t → t.kept = s.kept := by
  intro h; split at h
  · exact hx h
  · exact hy h
theorem ok_kept {x : State} {t : State} {s : State} (hx : x.kept = s.kept) : (Except.ok x : Except Fault State) = .ok t → t.kept = s.kept := by
  intro h; cases h; exact hx

@[simp] theorem State.setPhase_kept (s : State) (p : Nat) :
    (State.setPhase s p).kept = s.kept := by
  simp only [State.setPhase, State.setF_kept]

@[simp] theorem State.bootCmdWrite_kept (s : State) (v : Word) (en : Word) :
    (State.bootCmdWrite s v en).kept = s.kept := by
  simp only [State.bootCmdWrite, apply_ite State.kept, ite_self,
    State.plainWrite_kept, State.setF_kept, State.setPhase_kept]

theorem State.ringCfgWrite_kept (s : State) (n : Nat) (a : Nat) (v : Word) (en : Word) {t : State} :
    State.ringCfgWrite s n a v en = .ok t → t.kept = s.kept := by
  intro h
  unfold State.ringCfgWrite at h
  split at h
  · cases h
  · cases h; exact State.plainWrite_kept _ _ _ _

@[simp] theorem State.msiSendWrite_kept (s : State) (v : Word) (en : Word) :
    (State.msiSendWrite s v en).kept = s.kept := by
  simp only [State.msiSendWrite, apply_ite State.kept, ite_self, State.msi_kept]

@[simp] theorem State.restartSpindle_kept (s : State) :
    (State.restartSpindle s).kept = s.kept := by
  unfold State.restartSpindle
  grind [State.kept, foldl_kept, foldl_kept_fst, State.setF_kept, State.deleteTask_kept]

@[simp] theorem State.restartWrite_kept (s : State) (v : Word) (en : Word) :
    (State.restartWrite s v en).kept = s.kept := by
  simp only [State.restartWrite, apply_ite State.kept, ite_self,
    State.plainWrite_kept, State.restartSpindle_kept]

theorem State.queueCfgWrite_kept (s : State) (q : Nat) (v : Word) (en : Word) {t : State} :
    State.queueCfgWrite s q v en = .ok t → t.kept = s.kept := by
  intro h
  unfold State.queueCfgWrite at h
  grind [State.kept, foldl_kept, toOut_ok, ub_ne, PickRes.state?, TaskRes.state?, Looked.state?,
    PatchRes.state?, State.plainWrite_kept]

@[simp] theorem State.floorWrite_kept (s : State) (v : Word) (en : Word) :
    (State.floorWrite s v en).kept = s.kept := by
  simp only [State.floorWrite, apply_ite State.kept, ite_self, State.setF_kept]

theorem State.smpConsWrite_kept (s : State) (v : Word) (en : Word) {t : State} :
    State.smpConsWrite s v en = .ok t → t.kept = s.kept := by
  intro h
  unfold State.smpConsWrite at h
  simp only at h
  split at h
  · cases h
  · cases h; exact State.plainWrite_kept _ _ _ _

theorem State.fdigConsWrite_kept (s : State) (v : Word) (en : Word) {t : State} :
    State.fdigConsWrite s v en = .ok t → t.kept = s.kept := by
  intro h
  unfold State.fdigConsWrite at h
  simp only at h
  split at h
  · cases h
  · cases h; exact State.plainWrite_kept _ _ _ _

@[simp] theorem State.puntBktWrite_kept (s : State) (n : Nat) (r : Nat) (v : Word) (en : Word) :
    (State.puntBktWrite s n r v en).kept = s.kept := by
  simp only [State.puntBktWrite, State.plainWrite_kept, State.setPuntBucket_kept]

@[simp] theorem State.reclassWrite_kept (s : State) (v : Word) (en : Word) :
    (State.reclassWrite s v en).kept = s.kept := by
  unfold State.reclassWrite
  grind [State.kept, foldl_kept, foldl_kept_fst, State.plainWrite_kept]

theorem State.poolWrite_kept (s : State) (v : Word) (en : Word) {t : State} :
    State.poolWrite s v en = .ok t → t.kept = s.kept := by
  intro h
  unfold State.poolWrite at h
  grind [State.kept, foldl_kept, toOut_ok, ub_ne, PickRes.state?, TaskRes.state?, Looked.state?,
    PatchRes.state?, State.plainWrite_kept]

theorem State.writeCore_kept (s : State) (b : Nat) (i : Nat) (a : Nat) (v : Word) (en : Word) {t : State} :
    State.writeCore s b i a v en = .ok t → t.kept = s.kept := by
  intro h
  unfold State.writeCore at h
  repeat' (split at h)
  all_goals first | with_reducible exact State.ringCfgWrite_kept _ _ _ _ _ h | with_reducible exact State.queueCfgWrite_kept _ _ _ _ h | (obtain rfl := Except.ok.inj h; first | with_reducible exact State.bootCmdWrite_kept _ _ _ | with_reducible exact State.msiSendWrite_kept _ _ _ | with_reducible exact State.taskCmdWrite_kept _ _ _ | with_reducible exact State.restartWrite_kept _ _ _ | with_reducible exact State.floorWrite_kept _ _ _ | with_reducible exact State.tensionCtlWrite_kept _ _ _ | with_reducible exact State.avsWrite_kept _ _ _ | with_reducible exact State.loomWrite_kept _ _ _ _ | with_reducible exact State.plainWrite_kept _ _ _ _)

theorem State.writeTime_kept (s : State) (b : Nat) (i : Nat) (a : Nat) (v : Word) (en : Word) {t : State} :
    State.writeTime s b i a v en = .ok t → t.kept = s.kept := by
  unfold State.writeTime
  repeat' with_reducible first
    | apply ite_ok_kept | exact State.timeCtlWrite_kept _ _ _
    | (apply ok_kept; simp only [State.domCtlWrite_kept, State.freqWrite_kept, State.domStepWrite_kept,
        State.pulseWrite_kept, State.tpiWrite_kept, State.trefWrite_kept, State.holdRestore_kept,
        State.dpllCtlWrite_kept, State.dpllRefWrite_kept, State.synceWrite_kept, State.plainWrite_kept])

theorem State.writeGlass_kept (s : State) (b : Nat) (a : Nat) (v : Word) (en : Word) {t : State} :
    State.writeGlass s b a v en = .ok t → t.kept = s.kept := by
  intro h
  unfold State.writeGlass at h
  grind [State.kept, foldl_kept, toOut_ok, ub_ne, PickRes.state?, TaskRes.state?, Looked.state?,
    PatchRes.state?, State.glassSnapWrite_kept, State.bwCtlWrite_kept, State.digestSnapWrite_kept,
    State.plainWrite_kept, → State.smpRingWrite_kept, → State.smpConsWrite_kept, → State.scanWrite_kept]

theorem State.writeWarp_kept (s : State) (b : Nat) (i : Nat) (a : Nat) (v : Word) (en : Word) {t : State} :
    State.writeWarp s b i a v en = .ok t → t.kept = s.kept := by
  unfold State.writeWarp
  repeat' with_reducible first
    | apply ite_ok_kept | exact State.warpCtlWrite_kept _ _ _ | exact State.warpFixedWrite_kept _ _ _ _
    | exact State.warpTableWrite_kept _ _ _ _ _ | exact State.rehashCtlWrite_kept _ _ _
    | exact State.warpInitWrite_kept _ _ _ | exact State.stblWrite_kept _ _ _ _ _
    | exact State.fdigCfgWrite_kept _ _ _ _ | exact State.fdigConsWrite_kept _ _ _
    | (apply ok_kept; simp only [State.cacheCtlWrite_kept, State.rdCmdWrite_kept, State.plainWrite_kept])

theorem State.writeBeam_kept (s : State) (b : Nat) (i : Nat) (a : Nat) (v : Word) (en : Word) {t : State} :
    State.writeBeam s b i a v en = .ok t → t.kept = s.kept := by
  unfold State.writeBeam
  repeat' with_reducible first
    | apply ite_ok_kept | exact State.hstageWrite_kept _ _ _ | exact State.poolWrite_kept _ _ _
    | exact State.learnCtlWrite_kept _ _ _ | exact State.ageCmdWrite_kept _ _ _ | exact State.lpmxBaseWrite_kept _ _ _ _
    | exact State.lpmxCntWrite_kept _ _ _ _ | exact State.cmpWrite_kept _ _ _ _
    | (apply ok_kept; simp only [State.reclassWrite_kept, State.reedBankWrite_kept, State.flushWrite_kept,
        State.beamPortWrite_kept, State.battenCmdWrite_kept, State.plainWrite_kept])

theorem State.writeTile_kept (s : State) (b : Nat) (i : Nat) (j : Nat) (a : Nat) (v : Word) (en : Word) {t :
    State} :
    State.writeTile s b i j a v en = .ok t → t.kept = s.kept := by
  intro h
  unfold State.writeTile at h
  grind [State.kept, foldl_kept, toOut_ok, ub_ne, PickRes.state?, TaskRes.state?, Looked.state?,
    PatchRes.state?, State.puntBktWrite_kept, State.retrainWrite_kept, State.creelCmdWrite_kept,
    State.plainWrite_kept, → State.portCfgWrite_kept]

theorem State.regWrite_kept (s : State) (a : Nat) (v : Word) (en : Word) {t : State} :
    State.regWrite s a v en = .ok t → t.kept = s.kept := by
  intro h
  unfold State.regWrite at h
  grind [State.kept, foldl_kept, toOut_ok, ub_ne, PickRes.state?, TaskRes.state?, Looked.state?,
    PatchRes.state?, → State.writeCore_kept, → State.writeTime_kept, → State.writeGlass_kept, →
    State.writeTile_kept, → State.writeWarp_kept, → State.writeBeam_kept]

@[simp] theorem State.readCore_kept (s : State) (b : Nat) (i : Nat) (a : Nat) :
    (State.readCore s b i a).2.kept = s.kept := by
  simp only [State.readCore]
  repeat' split
  all_goals (try simp only [State.txqRead_kept, State.captureRead_kept])

@[simp] theorem State.readBeam_kept (s : State) (b : Nat) (i : Nat) (a : Nat) :
    (State.readBeam s b i a).2.kept = s.kept := by
  unfold State.readBeam
  simp only [apply_ite Prod.snd, ite_self]

@[simp] theorem State.readTile_kept (s : State) (b : Nat) (i : Nat) (j : Nat) (a : Nat) :
    (State.readTile s b i j a).2.kept = s.kept := by
  simp only [State.readTile]
  repeat' split
  all_goals (try simp only)

@[simp] theorem State.regRead_kept (s : State) (a : Nat) :
    (State.regRead s a).2.kept = s.kept := by
  simp only [State.regRead]
  repeat' split
  all_goals (try simp only [
    State.readCore_kept, State.digestRead_kept, State.readTile_kept, State.readBeam_kept])

@[simp] theorem State.regAccess_kept (s : State) (a : Nat) (n : Nat) :
    (State.regAccess s a n).2.kept = s.kept := by
  simp only [State.regAccess]
  repeat' split
  all_goals (try simp only [State.regRead_kept])

end Sys2Proof.Machine
end

