-- ==== Sys2Proof/Laws/KeptAccess.lean ====
section
/-! SUPPORT. Register and memory accesses:
what each definition keeps of the queue, the trip latch and the bound of the host's batten list
(Laws/Kept.lean). One lemma a definition, so that no proof unfolds one again. -/

namespace Sys2Proof.Machine

@[simp] theorem State.dieByte_kept (s : State) (a : Nat) (b : Byte) :
    (State.dieByte s a b).kept = s.kept := by
  simp only [State.dieByte, apply_ite State.kept, ite_self, State.setByte_kept]

@[simp] theorem State.dieSet_kept (s : State) (a : Nat) (x2 : List Byte) :
    (State.dieSet s a x2).kept = s.kept := by
  induction x2 generalizing s a with
  | nil => rfl
  | cons b bs ih => rw [State.dieSet, ih, State.dieByte_kept]

@[simp] theorem State.imageByte_kept (s : State) (a : Nat) (b : Byte) :
    (State.imageByte s a b).kept = s.kept := by
  simp only [State.imageByte, State.updTask_kept]

@[simp] theorem State.imageSet_kept (s : State) (a : Nat) (x2 : List Byte) :
    (State.imageSet s a x2).kept = s.kept := by
  induction x2 generalizing s a with
  | nil => rfl
  | cons b bs ih => rw [State.imageSet, ih, State.imageByte_kept]

@[simp] theorem State.dieWritten_kept (s : State) (a : Nat) (n : Nat) :
    (State.dieWritten s a n).kept = s.kept := by
  unfold State.dieWritten
  grind [State.kept, foldl_kept, foldl_kept_fst, State.reedWritten_kept, State.mendLost_kept,
    State.macWritten_kept, State.queueCfgWritten_kept]

@[simp] theorem State.dieWrite_kept (s : State) (a : Nat) (bs : List Byte) :
    (State.dieWrite s a bs).kept = s.kept := by
  simp only [State.dieWrite, apply_ite State.kept, ite_self,
    State.counterWrite_kept, State.imageSet_kept, State.dieWritten_kept, State.dieSet_kept]

@[simp] theorem State.hbmRead_kept (s : State) (who : EvMaster) (a : Nat) (n : Nat) :
    (State.hbmRead s who a n).st.kept = s.kept := by
  simp only [State.hbmRead]
  repeat' split
  all_goals (try simp only [State.hbmTraffic_kept, State.startWaiting_kept, State.uncRead_kept])

theorem State.readPiece_kept (s : State) (who : EvMaster) (a : Nat) (n : Nat) {t : ReadRes} :
    State.readPiece s who a n = .ok t → t.st.kept = s.kept := by
  intro h
  unfold State.readPiece at h
  grind [State.kept, foldl_kept, toOut_ok, ub_ne, PickRes.state?, TaskRes.state?, Looked.state?,
    PatchRes.state?, State.regAccess_kept, State.hbmRead_kept]

theorem State.busRead_kept (s : State) (who : EvMaster) (a : Nat) (n : Nat) {t : ReadRes} :
    State.busRead s who a n = .ok t → t.st.kept = s.kept := by
  intro h
  unfold State.busRead at h
  grind [State.kept, foldl_kept, toOut_ok, ub_ne, PickRes.state?, TaskRes.state?, Looked.state?,
    PatchRes.state?, → State.readPiece_kept]

@[simp] theorem State.noteStored_kept (s : State) (who : EvMaster) (a : Nat) (n : Nat) :
    (State.noteStored s who a n).kept = s.kept := by
  simp only [State.noteStored]
  repeat' split
  all_goals (try simp only [State.kept_mk])
  all_goals (try with_reducible exact State.kept_eta _)

theorem State.writePiece_kept (s : State) (who : EvMaster) (a : Nat) (bs : List Byte) {t : State} :
    State.writePiece s who a bs = .ok t → t.kept = s.kept := by
  intro h
  unfold State.writePiece at h
  grind [State.kept, foldl_kept, foldl_kept_fst, toOut_ok, ub_ne, PickRes.state?, TaskRes.state?, Looked.state?, PatchRes.state?, State.hbmStore_kept, State.poke_kept, State.dieWrite_kept, State.noteStored_kept, → State.regWrite_kept]

theorem State.busWrite_kept (s : State) (who : EvMaster) (a : Nat) (bs : List Byte) {t : State} :
    State.busWrite s who a bs = .ok t → t.kept = s.kept := by
  intro h
  unfold State.busWrite at h
  grind [State.kept, foldl_kept, toOut_ok, ub_ne, PickRes.state?, TaskRes.state?, Looked.state?,
    PatchRes.state?, → State.writePiece_kept]

@[simp] theorem State.countAccess_kept (s : State) (who : EvMaster) (a : Nat) :
    (State.countAccess s who a).kept = s.kept := by
  unfold State.countAccess
  split
  · exact State.event_kept _ _
  · exact State.event_kept _ _
  · rfl

theorem State.countedWrite_kept (s : State) (who : EvMaster) (a : Nat) (bs : List Byte) {t : State} :
    State.countedWrite s who a bs = .ok t → t.kept = s.kept := by
  intro h
  unfold State.countedWrite at h
  grind [State.kept, foldl_kept, foldl_kept_fst, toOut_ok, ub_ne, PickRes.state?, TaskRes.state?, Looked.state?, PatchRes.state?, State.wr_kept, State.countAccess_kept, → State.busWrite_kept]

theorem State.hostWrite_kept (s : State) (a : Nat) (bs : List Byte) {t : State} :
    State.hostWrite s a bs = .ok t → t.kept = s.kept := by
  intro h
  unfold State.hostWrite at h
  grind [State.kept, foldl_kept, foldl_kept_fst, toOut_ok, ub_ne, PickRes.state?, TaskRes.state?, Looked.state?, PatchRes.state?, → State.countedWrite_kept]

theorem State.hostRead_kept (s : State) (a : Nat) (n : Nat) {t : State} :
    State.hostRead s a n = .ok t → t.kept = s.kept := by
  intro h
  unfold State.hostRead at h
  grind [State.kept, foldl_kept, toOut_ok, ub_ne, PickRes.state?, TaskRes.state?, Looked.state?,
    PatchRes.state?, State.countAccess_kept, State.readLost_kept, → State.busRead_kept]

theorem execRegisterWrite_kept (m : Master) (a : BitVec 48) (wd : RegWidth) (v : Word) (s : State) {t : State} :
    execRegisterWrite m a wd v s = .next t → t.kept = s.kept := by
  intro h
  unfold execRegisterWrite at h
  grind [State.kept, foldl_kept, foldl_kept_fst, toOut_ok, ub_ne, PickRes.state?, TaskRes.state?, Looked.state?, PatchRes.state?, → State.countedWrite_kept, → State.hostWrite_kept]

end Sys2Proof.Machine
end

