-- ==== Sys2Proof/Laws/KeptAlu.lean ====
section
/-! SUPPORT. The arithmetic commands:
what each definition keeps of the queue, the trip latch and the bound of the host's batten list
(Laws/Kept.lean). One lemma a definition, so that no proof unfolds one again. -/

namespace Sys2Proof.Machine

theorem aluRR_kept (op : Nat) (f : Word → Word → Word) (c : Ctx) (w : IWord) (s : State) {t : State} :
    aluRR op f c w s = .next t → t.kept = s.kept := by
  intro h
  unfold aluRR at h
  grind [State.kept, foldl_kept, toOut_ok, ub_ne, PickRes.state?, TaskRes.state?, Looked.state?,
    PatchRes.state?, → pickPure_kept, → taskPure_kept]

theorem aluRI_kept (op : Nat) (f : Word → Word → Word) (c : Ctx) (w : IWord) (s : State) {t : State} :
    aluRI op f c w s = .next t → t.kept = s.kept := by
  intro h
  unfold aluRI at h
  grind [State.kept, foldl_kept, toOut_ok, ub_ne, PickRes.state?, TaskRes.state?, Looked.state?,
    PatchRes.state?, → pickPure_kept, → taskPure_kept]

theorem execAdd_kept (c : Ctx) (w : IWord) (s : State) {t : State} :
    execAdd c w s = .next t → t.kept = s.kept := by
  intro h
  unfold execAdd at h
  grind [State.kept, foldl_kept, toOut_ok, ub_ne, PickRes.state?, TaskRes.state?, Looked.state?,
    PatchRes.state?, → aluRR_kept]

theorem execAddImm_kept (c : Ctx) (w : IWord) (s : State) {t : State} :
    execAddImm c w s = .next t → t.kept = s.kept := by
  intro h
  unfold execAddImm at h
  grind [State.kept, foldl_kept, toOut_ok, ub_ne, PickRes.state?, TaskRes.state?, Looked.state?,
    PatchRes.state?, → aluRI_kept]

theorem execSub_kept (c : Ctx) (w : IWord) (s : State) {t : State} :
    execSub c w s = .next t → t.kept = s.kept := by
  intro h
  unfold execSub at h
  grind [State.kept, foldl_kept, toOut_ok, ub_ne, PickRes.state?, TaskRes.state?, Looked.state?,
    PatchRes.state?, → aluRR_kept]

theorem execSubImm_kept (c : Ctx) (w : IWord) (s : State) {t : State} :
    execSubImm c w s = .next t → t.kept = s.kept := by
  intro h
  unfold execSubImm at h
  grind [State.kept, foldl_kept, toOut_ok, ub_ne, PickRes.state?, TaskRes.state?, Looked.state?,
    PatchRes.state?, → aluRI_kept]

theorem execAnd_kept (c : Ctx) (w : IWord) (s : State) {t : State} :
    execAnd c w s = .next t → t.kept = s.kept := by
  intro h
  unfold execAnd at h
  grind [State.kept, foldl_kept, toOut_ok, ub_ne, PickRes.state?, TaskRes.state?, Looked.state?,
    PatchRes.state?, → aluRR_kept]

theorem execAndImm_kept (c : Ctx) (w : IWord) (s : State) {t : State} :
    execAndImm c w s = .next t → t.kept = s.kept := by
  intro h
  unfold execAndImm at h
  grind [State.kept, foldl_kept, toOut_ok, ub_ne, PickRes.state?, TaskRes.state?, Looked.state?,
    PatchRes.state?, → aluRI_kept]

theorem execOr_kept (c : Ctx) (w : IWord) (s : State) {t : State} :
    execOr c w s = .next t → t.kept = s.kept := by
  intro h
  unfold execOr at h
  grind [State.kept, foldl_kept, toOut_ok, ub_ne, PickRes.state?, TaskRes.state?, Looked.state?,
    PatchRes.state?, → aluRR_kept]

theorem execOrImm_kept (c : Ctx) (w : IWord) (s : State) {t : State} :
    execOrImm c w s = .next t → t.kept = s.kept := by
  intro h
  unfold execOrImm at h
  grind [State.kept, foldl_kept, toOut_ok, ub_ne, PickRes.state?, TaskRes.state?, Looked.state?,
    PatchRes.state?, → aluRI_kept]

theorem execXor_kept (c : Ctx) (w : IWord) (s : State) {t : State} :
    execXor c w s = .next t → t.kept = s.kept := by
  intro h
  unfold execXor at h
  grind [State.kept, foldl_kept, toOut_ok, ub_ne, PickRes.state?, TaskRes.state?, Looked.state?,
    PatchRes.state?, → aluRR_kept]

theorem execXorImm_kept (c : Ctx) (w : IWord) (s : State) {t : State} :
    execXorImm c w s = .next t → t.kept = s.kept := by
  intro h
  unfold execXorImm at h
  grind [State.kept, foldl_kept, toOut_ok, ub_ne, PickRes.state?, TaskRes.state?, Looked.state?,
    PatchRes.state?, → aluRI_kept]

theorem execShl_kept (c : Ctx) (w : IWord) (s : State) {t : State} :
    execShl c w s = .next t → t.kept = s.kept := by
  intro h
  unfold execShl at h
  grind [State.kept, foldl_kept, toOut_ok, ub_ne, PickRes.state?, TaskRes.state?, Looked.state?,
    PatchRes.state?, → aluRR_kept]

theorem execShlImm_kept (c : Ctx) (w : IWord) (s : State) {t : State} :
    execShlImm c w s = .next t → t.kept = s.kept := by
  intro h
  unfold execShlImm at h
  grind [State.kept, foldl_kept, toOut_ok, ub_ne, PickRes.state?, TaskRes.state?, Looked.state?,
    PatchRes.state?, → aluRI_kept]

theorem execShr_kept (c : Ctx) (w : IWord) (s : State) {t : State} :
    execShr c w s = .next t → t.kept = s.kept := by
  intro h
  unfold execShr at h
  grind [State.kept, foldl_kept, toOut_ok, ub_ne, PickRes.state?, TaskRes.state?, Looked.state?,
    PatchRes.state?, → aluRR_kept]

theorem execShrImm_kept (c : Ctx) (w : IWord) (s : State) {t : State} :
    execShrImm c w s = .next t → t.kept = s.kept := by
  intro h
  unfold execShrImm at h
  grind [State.kept, foldl_kept, toOut_ok, ub_ne, PickRes.state?, TaskRes.state?, Looked.state?,
    PatchRes.state?, → aluRI_kept]

theorem execSar_kept (c : Ctx) (w : IWord) (s : State) {t : State} :
    execSar c w s = .next t → t.kept = s.kept := by
  intro h
  unfold execSar at h
  grind [State.kept, foldl_kept, toOut_ok, ub_ne, PickRes.state?, TaskRes.state?, Looked.state?,
    PatchRes.state?, → aluRR_kept]

theorem execSarImm_kept (c : Ctx) (w : IWord) (s : State) {t : State} :
    execSarImm c w s = .next t → t.kept = s.kept := by
  intro h
  unfold execSarImm at h
  grind [State.kept, foldl_kept, toOut_ok, ub_ne, PickRes.state?, TaskRes.state?, Looked.state?,
    PatchRes.state?, → aluRI_kept]

theorem execMin_kept (c : Ctx) (w : IWord) (s : State) {t : State} :
    execMin c w s = .next t → t.kept = s.kept := by
  intro h
  unfold execMin at h
  grind [State.kept, foldl_kept, toOut_ok, ub_ne, PickRes.state?, TaskRes.state?, Looked.state?,
    PatchRes.state?, → aluRR_kept]

theorem execMinImm_kept (c : Ctx) (w : IWord) (s : State) {t : State} :
    execMinImm c w s = .next t → t.kept = s.kept := by
  intro h
  unfold execMinImm at h
  grind [State.kept, foldl_kept, toOut_ok, ub_ne, PickRes.state?, TaskRes.state?, Looked.state?,
    PatchRes.state?, → aluRI_kept]

theorem execMax_kept (c : Ctx) (w : IWord) (s : State) {t : State} :
    execMax c w s = .next t → t.kept = s.kept := by
  intro h
  unfold execMax at h
  grind [State.kept, foldl_kept, toOut_ok, ub_ne, PickRes.state?, TaskRes.state?, Looked.state?,
    PatchRes.state?, → aluRR_kept]

theorem execMaxImm_kept (c : Ctx) (w : IWord) (s : State) {t : State} :
    execMaxImm c w s = .next t → t.kept = s.kept := by
  intro h
  unfold execMaxImm at h
  grind [State.kept, foldl_kept, toOut_ok, ub_ne, PickRes.state?, TaskRes.state?, Looked.state?,
    PatchRes.state?, → aluRI_kept]

theorem execCmp_kept (c : Ctx) (w : IWord) (s : State) {t : State} :
    execCmp c w s = .next t → t.kept = s.kept := by
  intro h
  unfold execCmp at h
  grind [State.kept, foldl_kept, toOut_ok, ub_ne, PickRes.state?, TaskRes.state?, Looked.state?,
    PatchRes.state?, → aluRR_kept]

theorem execCmpImm_kept (c : Ctx) (w : IWord) (s : State) {t : State} :
    execCmpImm c w s = .next t → t.kept = s.kept := by
  intro h
  unfold execCmpImm at h
  grind [State.kept, foldl_kept, toOut_ok, ub_ne, PickRes.state?, TaskRes.state?, Looked.state?,
    PatchRes.state?, → aluRI_kept]

theorem execMul_kept (c : Ctx) (w : IWord) (s : State) {t : State} :
    execMul c w s = .next t → t.kept = s.kept := by
  intro h
  unfold execMul at h
  grind [State.kept, foldl_kept, toOut_ok, ub_ne, PickRes.state?, TaskRes.state?, Looked.state?,
    PatchRes.state?, → pickIllegal_kept, → aluRR_kept]

theorem execMulImm_kept (c : Ctx) (w : IWord) (s : State) {t : State} :
    execMulImm c w s = .next t → t.kept = s.kept := by
  intro h
  unfold execMulImm at h
  grind [State.kept, foldl_kept, toOut_ok, ub_ne, PickRes.state?, TaskRes.state?, Looked.state?,
    PatchRes.state?, → pickIllegal_kept, → aluRI_kept]

theorem execMulh_kept (c : Ctx) (w : IWord) (s : State) {t : State} :
    execMulh c w s = .next t → t.kept = s.kept := by
  intro h
  unfold execMulh at h
  grind [State.kept, foldl_kept, toOut_ok, ub_ne, PickRes.state?, TaskRes.state?, Looked.state?,
    PatchRes.state?, → pickIllegal_kept, → aluRR_kept]

theorem execMovi_kept (c : Ctx) (w : IWord) (s : State) {t : State} :
    execMovi c w s = .next t → t.kept = s.kept := by
  intro h
  unfold execMovi at h
  grind [State.kept, foldl_kept, toOut_ok, ub_ne, PickRes.state?, TaskRes.state?, Looked.state?,
    PatchRes.state?, → pickPure_kept, → taskPure_kept]

theorem execExt_kept (c : Ctx) (w : IWord) (s : State) {t : State} :
    execExt c w s = .next t → t.kept = s.kept := by
  intro h
  unfold execExt at h
  grind [State.kept, foldl_kept, toOut_ok, ub_ne, PickRes.state?, TaskRes.state?, Looked.state?,
    PatchRes.state?, → aluRR_kept]

theorem execIns_kept (c : Ctx) (w : IWord) (s : State) {t : State} :
    execIns c w s = .next t → t.kept = s.kept := by
  intro h
  unfold execIns at h
  grind [State.kept, foldl_kept, toOut_ok, ub_ne, PickRes.state?, TaskRes.state?, Looked.state?,
    PatchRes.state?, → pickPure_kept, → taskPure_kept]

theorem execSel_kept (c : Ctx) (w : IWord) (s : State) {t : State} :
    execSel c w s = .next t → t.kept = s.kept := by
  intro h
  unfold execSel at h
  grind [State.kept, foldl_kept, toOut_ok, ub_ne, PickRes.state?, TaskRes.state?, Looked.state?,
    PatchRes.state?, → pickPure_kept, → taskIllegal_kept]

theorem execHash_kept (c : Ctx) (w : IWord) (s : State) {t : State} :
    execHash c w s = .next t → t.kept = s.kept := by
  intro h
  unfold execHash at h
  grind [State.kept, foldl_kept, toOut_ok, ub_ne, PickRes.state?, TaskRes.state?, Looked.state?,
    PatchRes.state?, → aluRR_kept]

theorem execNop_kept (c : Ctx) (w : IWord) (s : State) {t : State} :
    execNop c w s = .next t → t.kept = s.kept := by
  intro h
  unfold execNop at h
  grind [State.kept, foldl_kept, toOut_ok, ub_ne, PickRes.state?, TaskRes.state?, Looked.state?,
    PatchRes.state?, → pickPure_kept, → taskPure_kept]

theorem execIllegalOp_kept (c : Ctx) (s : State) {t : State} :
    execIllegalOp c s = .next t → t.kept = s.kept := by
  intro h
  unfold execIllegalOp at h
  grind [State.kept, foldl_kept, toOut_ok, ub_ne, PickRes.state?, TaskRes.state?, Looked.state?,
    PatchRes.state?, → pickIllegal_kept, → taskIllegal_kept]

theorem execPickBudgetExceeded_kept (p : PktId) (s : State) {t : State} :
    execPickBudgetExceeded p s = .next t → t.kept = s.kept := by
  intro h
  unfold execPickBudgetExceeded at h
  grind [State.kept, foldl_kept, toOut_ok, ub_ne, PickRes.state?, TaskRes.state?, Looked.state?,
    PatchRes.state?, → State.endPickDrop_kept, → unlessHalted_cases]

end Sys2Proof.Machine
end

