-- ==== Sys2Proof/Laws/KeptMemory.lean ====
section
/-! SUPPORT. Memory commands, battens, compares:
what each definition keeps of the queue, the trip latch and the bound of the host's batten list
(Laws/Kept.lean). One lemma a definition, so that no proof unfolds one again. -/

namespace Sys2Proof.Machine

@[simp] theorem State.linesLost_kept (s : State) (was : State) (a : Nat) (n : Nat) :
    (State.linesLost s was a n).kept = s.kept := by
  unfold State.linesLost
  grind [State.kept, foldl_kept, foldl_kept_fst, State.readLost_kept]

@[simp] theorem State.holdLoad_kept (s : State) (w : IWord) (k : Nat) (a : Nat) (n : Nat) :
    (State.holdLoad s w k a n).kept = s.kept := by
  unfold State.holdLoad
  grind [State.kept, foldl_kept, foldl_kept_fst, State.hbmTraffic_kept, State.updTask_kept]

theorem ldTask_kept (w : IWord) (k : Nat) (t : Task) (s : State) {tt : State} :
    (ldTask w k t s).state? = some tt → tt.kept = s.kept := by
  intro h
  unfold ldTask at h
  extract_lets a n at h
  clear_value a n
  split at h
  · cases h; exact State.holdLoad_kept _ _ _ _ _
  · split at h
    · cases h
    · rename_i r h1
      have k1 : r.st.kept = s.kept := (State.busRead_kept _ _ _ _ h1).trans (State.countAccess_kept _ _ _)
      extract_lets u at h
      have ku : u.kept = s.kept := by
        unfold u; split
        · rw [State.linesLost_kept, k1]
        · exact k1
      clear_value u
      cases h
      rw [State.updTask_kept, ku]

theorem execLd_kept (c : Ctx) (w : IWord) (s : State) {t : State} :
    execLd c w s = .next t → t.kept = s.kept := by
  intro h
  unfold execLd at h
  (repeat' split at h) <;> first
    | exact pickIllegal_kept _ _ _ h
    | refine runTask_kept _ _ _ _ _ ?_ h
      clear h
      intro x u hu
      grind [→ pickIllegal_kept, → ldTask_kept]

theorem stTask_kept (w : IWord) (k : Nat) (t : Task) (s : State) {tt : State} :
    (stTask w k t s).state? = some tt → tt.kept = s.kept := by
  intro h
  unfold stTask at h
  grind [State.kept, foldl_kept, foldl_kept_fst, toOut_ok, ub_ne, PickRes.state?, TaskRes.state?, Looked.state?, PatchRes.state?, → State.countedWrite_kept]

theorem execSt_kept (c : Ctx) (w : IWord) (s : State) {t : State} :
    execSt c w s = .next t → t.kept = s.kept := by
  intro h
  unfold execSt at h
  (repeat' split at h) <;> first
    | exact pickIllegal_kept _ _ _ h
    | refine runTask_kept _ _ _ _ _ ?_ h
      clear h
      intro x u hu
      grind [→ pickIllegal_kept, → stTask_kept]

theorem stsTask_kept (w : IWord) (k : Nat) (t : Task) (s : State) {tt : State} :
    (stsTask w k t s).state? = some tt → tt.kept = s.kept := by
  intro h
  unfold stsTask at h
  grind [State.kept, foldl_kept, toOut_ok, ub_ne, PickRes.state?, TaskRes.state?, Looked.state?,
    PatchRes.state?, State.updTask_kept, → State.codeTask_kept]

theorem execSts_kept (c : Ctx) (w : IWord) (s : State) {t : State} :
    execSts c w s = .next t → t.kept = s.kept := by
  intro h
  unfold execSts at h
  (repeat' split at h) <;> first
    | exact pickIllegal_kept _ _ _ h
    | refine runTask_kept _ _ _ _ _ ?_ h
      clear h
      intro x u hu
      grind [→ pickIllegal_kept, → stsTask_kept]

theorem execBatten_kept (c : Ctx) (w : IWord) (s : State) {t : State} :
    execBatten c w s = .next t → t.kept = s.kept := by
  intro h
  unfold execBatten at h
  split at h
  · exact pickIllegal_kept _ _ _ h
  · refine runTask_kept _ _ _ _ _ ?_ h
    clear h
    intro x u hu
    cases hu
    simp only [State.updTask_kept, State.threadBatten_kept]

theorem brPick_kept (w : IWord) (x : Pkt) (s : State) {t : State} :
    (brPick w x s).state? = some t → t.kept = s.kept := by
  intro h
  unfold brPick at h
  grind [State.kept, foldl_kept, toOut_ok, ub_ne, PickRes.state?, TaskRes.state?, Looked.state?,
    PatchRes.state?]

theorem brTask_kept (w : IWord) (k : Nat) (t : Task) (s : State) {tt : State} :
    (brTask w k t s).state? = some tt → tt.kept = s.kept := by
  intro h
  unfold brTask at h
  grind [State.kept, foldl_kept, toOut_ok, ub_ne, PickRes.state?, TaskRes.state?, Looked.state?,
    PatchRes.state?, State.endActivation_kept, State.updTask_kept]

theorem execBr_kept (c : Ctx) (w : IWord) (s : State) {t : State} :
    execBr c w s = .next t → t.kept = s.kept := by
  intro h
  unfold execBr at h
  (repeat' split at h) <;> first
    | (first | refine runPick_kept _ _ _ _ ?_ h | refine runTask_kept _ _ _ _ _ ?_ h)
      clear h
      intro x u hu
      grind [→ brPick_kept, → brTask_kept]

theorem execLoop_kept (c : Ctx) (w : IWord) (s : State) {t : State} :
    execLoop c w s = .next t → t.kept = s.kept := by
  intro h
  unfold execLoop at h
  split at h
  · exact pickIllegal_kept _ _ _ h
  · refine runTask_kept _ _ _ _ _ ?_ h
    clear h
    intro x u hu
    cases hu
    simp only [State.setTask_kept]

theorem State.copyRun_kept (s : State) (who : EvMaster) (x2 : Nat) (x3 : Nat) (x4 : Nat) (x5 : Nat) (x6 : Nat)
    {t : CopyRes} :
    State.copyRun s who x2 x3 x4 x5 x6 = .ok t → t.st.kept = s.kept := by
  intro h
  induction x2 generalizing s x3 x4 x5 x6 with
  | zero => unfold State.copyRun at h; cases h; rfl
  | succ n ih =>
    unfold State.copyRun at h
    extract_lets stop k at h
    clear_value stop
    clear_value k
    split at h
    · cases h; rfl
    · split at h
      · cases h; rfl
      · split at h
        · cases h
        · rename_i r h1
          have k1 := State.readPiece_kept _ _ _ _ h1
          split at h
          · cases h; rw [State.readLost_kept, k1]
          · split at h
            · cases h
            · rename_i u h2
              have k2 := State.writePiece_kept _ _ _ _ h2
              rw [ih _ _ _ _ _ h, State.event_kept, k2, k1]

theorem State.copy_kept (s : State) (who : EvMaster) (src : Nat) (dst : Nat) (len : Nat) {t : CopyRes} :
    State.copy s who src dst len = .ok t → t.st.kept = s.kept := by
  intro h
  unfold State.copy at h
  split at h
  · cases h
  · rename_i r h1
    have k1 := State.copyRun_kept _ _ _ _ _ _ _ h1
    cases h
    rw [← k1]
    split <;> rfl

@[simp] theorem State.dmaEnd_kept (s : State) (r : DmaReq) (moved : Nat) (code : Nat) :
    (State.dmaEnd s r moved code).kept = s.kept := by
  simp only [State.dmaEnd, apply_ite State.kept, ite_self,
    State.poke_kept, State.signal_kept, State.wakeTask_kept]

theorem dmaTask_kept (w : IWord) (k : Nat) (t : Task) (s : State) {tt : State} :
    (dmaTask w k t s).state? = some tt → tt.kept = s.kept := by
  intro h
  unfold dmaTask at h
  grind [State.kept, foldl_kept, toOut_ok, ub_ne, PickRes.state?, TaskRes.state?, Looked.state?,
    PatchRes.state?, State.hbmWake_kept, State.readLost_kept, State.dmaEnd_kept, State.updDma_kept,
    State.blockTask_kept, → State.busRead_kept, → State.codeTask_kept]

theorem execDma_kept (c : Ctx) (w : IWord) (s : State) {t : State} :
    execDma c w s = .next t → t.kept = s.kept := by
  intro h
  unfold execDma at h
  (repeat' split at h) <;> first
    | exact pickIllegal_kept _ _ _ h
    | refine runTask_kept _ _ _ _ _ ?_ h
      clear h
      intro x u hu
      grind [→ pickIllegal_kept, → dmaTask_kept]

theorem execDmaComplete_kept (core : Fin 32) (errs : List SymErr) (s : State) {t : State} :
    execDmaComplete core errs s = .next t → t.kept = s.kept := by
  intro h
  unfold execDmaComplete at h
  grind [State.kept, foldl_kept, toOut_ok, ub_ne, PickRes.state?, TaskRes.state?, Looked.state?,
    PatchRes.state?, State.hbmWake_kept, State.spoil_kept, State.dmaEnd_kept, State.updDma_kept, →
    State.copy_kept]

@[simp] theorem State.keepReg_kept (s : State) (a : Nat) :
    (State.keepReg s a).kept = s.kept := by
  simp only [State.keepReg]
  repeat' split
  all_goals (try simp only [State.kept_mk])
  all_goals (try with_reducible exact State.kept_eta _)

@[simp] theorem State.keepByte_kept (s : State) (a : Nat) :
    (State.keepByte s a).kept = s.kept := by
  simp only [State.keepByte]
  repeat' split
  all_goals (try simp only [State.kept_mk])
  all_goals (try with_reducible exact State.kept_eta _)

@[simp] theorem State.keepBytes_kept (s : State) (a : Nat) (n : Nat) :
    (State.keepBytes s a n).kept = s.kept := by
  unfold State.keepBytes
  grind [State.kept, foldl_kept, foldl_kept_fst, State.keepByte_kept]

@[simp] theorem State.slotWs_kept (s : State) :
    (State.slotWs s).kept = s.kept := by
  unfold State.slotWs
  grind [State.kept, foldl_kept, foldl_kept_fst, State.wr_kept, State.keepReg_kept]

theorem State.slotReg_kept (s : State) (e : StageEntry) {t : State} :
    State.slotReg s e = .ok t → t.kept = s.kept := by
  intro h
  unfold State.slotReg at h
  grind [State.kept, foldl_kept, toOut_ok, ub_ne, PickRes.state?, TaskRes.state?, Looked.state?,
    PatchRes.state?, State.setWs_kept, State.keepReg_kept, State.wr_kept, → State.regWrite_kept]

theorem State.slotEntry_kept (s : State) (e : StageEntry) {t : State} :
    State.slotEntry s e = .ok t → t.kept = s.kept := by
  intro h
  unfold State.slotEntry at h
  grind [State.kept, foldl_kept, foldl_kept_fst, toOut_ok, ub_ne, PickRes.state?, TaskRes.state?, Looked.state?, PatchRes.state?, State.hbmStore_kept, State.dieWrite_kept, State.keepBytes_kept, → State.slotReg_kept]

theorem State.slotEntries_kept (s : State) (x1 : List StageEntry) {t : State} :
    State.slotEntries s x1 = .ok t → t.kept = s.kept := by
  intro h
  induction x1 generalizing s with
  | nil => unfold State.slotEntries at h; cases h; rfl
  | cons e es ih =>
    unfold State.slotEntries at h
    split at h
    · cases h
    · rename_i u h1
      rw [ih _ h, State.slotEntry_kept _ _ h1]

@[simp] theorem State.genNotZero_kept (s : State) :
    (State.genNotZero s).kept = s.kept := by
  simp only [State.genNotZero, apply_ite State.kept, ite_self, State.setF_kept]

@[simp] theorem State.profileFrom_kept (s : State) (old : Nat) :
    (State.profileFrom s old).kept = s.kept := by
  simp only [State.profileFrom]
  repeat' split
  all_goals (try simp only [State.owePass_kept, State.leaveW3_kept, State.wakeAll_kept])

@[simp] theorem State.noteStarts_kept (s : State) (old : State) (l : List StageEntry) :
    (State.noteStarts s old l).kept = s.kept := by
  simp only [State.noteStarts, apply_ite State.kept, ite_self, State.kept_mk]
  with_reducible exact State.kept_eta _

@[simp] theorem State.noteFlip_kept (s : State) (old : State) :
    (State.noteFlip s old).kept = s.kept := by
  simp only [State.noteFlip]
  repeat' split
  all_goals (try simp only [State.kept_mk])
  all_goals (try with_reducible exact State.kept_eta _)

@[simp] theorem State.admitBatten_kept (s : State) :
    (State.admitBatten s).kept = s.kept := by
  simp only [State.admitBatten]
  repeat' split
  all_goals (try simp only [State.kept_mk, State.placeBatten_kept])
  all_goals (try with_reducible exact State.kept_eta _)

/-- Taking a batten of the host's empties the host's list; the rest stays. -/
theorem State.takeBatten_kept (s : State) (b : BatReq) (rest : List BatReq) :
    (s.takeBatten b rest).kept = ⟨s.kept.pending, s.kept.tripped, b.host || s.kept.hok⟩ := by
  unfold State.takeBatten
  cases hb : b.host <;> simp [State.kept]

theorem State.openSlot_kept (s : State) (b : BatReq) (rest : List BatReq) {t : State}
    (h : s.openSlot b rest = .ok t) : t.kept = ⟨s.kept.pending, s.kept.tripped, b.host || s.kept.hok⟩ := by
  unfold State.openSlot at h
  extract_lets t1 t2 at h
  have e1 : t1.kept = _ := State.takeBatten_kept s b rest
  clear_value t1
  have e2 : t2.kept = t1.kept := by
    unfold t2; split
    · exact State.slotWs_kept _
    · rfl
  clear_value t2
  split at h
  · cases h
  · rename_i u h1
    have e3 := State.slotEntries_kept _ _ h1
    split at h
    · cases h
    · cases h
      simp only [State.admitBatten_kept, State.noteFlip_kept, State.noteStarts_kept, State.profileFrom_kept,
        State.genNotZero_kept, e3, e2, e1]

/-- BATTEN_SLOT_OPEN keeps the queue and the latch, and keeps the bound of the host's list. -/
theorem execBattenSlotOpen_kept (s : State) {t : State} (h : execBattenSlotOpen s = .next t) :
    t.kept = s.kept ∨ t.kept = ⟨s.kept.pending, s.kept.tripped, true⟩ := by
  unfold execBattenSlotOpen at h
  split at h
  · cases h; exact .inl rfl
  · rename_i b rest _
    split at h
    · cases h; exact .inl rfl
    · rw [toOut_ok] at h
      rw [State.openSlot_kept _ _ _ h]
      cases b.host
      · exact .inl rfl
      · exact .inr rfl

@[simp] theorem State.countBatten_kept (s : State) (b : BatReq) :
    (State.countBatten s b).kept = s.kept := by
  simp only [State.countBatten, State.event_kept]

@[simp] theorem State.completeBatten_kept (s : State) (b : BatReq) :
    (State.completeBatten s b).kept = s.kept := by
  unfold State.completeBatten
  grind [State.kept, foldl_kept, foldl_kept_fst, State.countBatten_kept, State.post_kept, State.updTask_kept]

theorem execBattenApply_kept (s : State) {t : State} :
    execBattenApply s = .next t → t.kept = s.kept := by
  intro h
  unfold execBattenApply at h
  grind [State.kept, foldl_kept, toOut_ok, ub_ne, PickRes.state?, TaskRes.state?, Looked.state?,
    PatchRes.state?, State.completeBatten_kept]

@[simp] theorem State.postRetired_kept (s : State) (b : Bool) :
    (State.postRetired s b).kept = s.kept := by
  simp only [State.postRetired, apply_ite State.kept, ite_self, State.post_kept]

theorem execBankRetire_kept (s : State) {t : State} :
    execBankRetire s = .next t → t.kept = s.kept := by
  intro h
  unfold execBankRetire at h
  grind [State.kept, foldl_kept, toOut_ok, ub_ne, PickRes.state?, TaskRes.state?, Looked.state?,
    PatchRes.state?, State.postRetired_kept, State.completeBatten_kept]

theorem execHostStageAppend_kept (v : Word) (s : State) {t : State} :
    execHostStageAppend v s = .next t → t.kept = s.kept := by
  intro h
  unfold execHostStageAppend at h
  refine unlessBlocked_kept h fun h => ?_
  refine State.byWrite_kept h fun h => ?_
  exact State.hstageWrite_kept _ _ _ h

theorem execHostBatten_kept (v : Word) (s : State) {t : State} :
    execHostBatten v s = .next t → t.kept = s.kept := by
  intro h
  unfold execHostBatten at h
  refine unlessBlocked_kept h fun h => ?_
  refine State.byWrite_kept h fun h => ?_
  cases h
  exact State.battenCmdWrite_kept _ _ _

end Sys2Proof.Machine
end

