-- ==== Sys2Proof/Laws/KeptHost.lean ====
section
/-! SUPPORT. The host ring, boot, windows, the tick:
what each definition keeps of the queue, the trip latch and the bound of the host's batten list
(Laws/Kept.lean). One lemma a definition, so that no proof unfolds one again. -/

namespace Sys2Proof.Machine

@[simp] theorem State.cmdEnd_kept (s : State) (r : List Byte) (code : Nat) (aux : Option Nat) :
    (State.cmdEnd s r code aux).kept = s.kept := by
  simp only [State.cmdEnd]
  repeat' split
  all_goals (try simp only [State.incF_kept, State.draw_kept, State.ringPut_kept])

theorem cmdRun_kept (is : Nat → Bool) (f : List Byte → State → Out) (s : State) {t : State}
    (hf : ∀ r u, f r u = .next t → t.kept = u.kept) (h : cmdRun is f s = .next t) : t.kept = s.kept := by
  unfold cmdRun at h
  split at h
  · cases h; rfl
  · extract_lets r at h
    clear_value r
    split at h
    · cases h; rfl
    · split at h
      · cases h; exact State.hbmWake_kept _ _
      · exact (hf _ _ h).trans (State.peeked_kept _ _ _)

theorem execCmdNop_kept (s : State) {t : State} :
    execCmdNop s = .next t → t.kept = s.kept := by
  refine fun h => cmdRun_kept _ _ _ ?_ h
  clear h
  intro r u h
  cases h; exact State.cmdEnd_kept _ _ _ _

theorem cmdCopy_kept (r : List Byte) (s : State) {t : State} :
    cmdCopy r s = .next t → t.kept = s.kept := by
  intro h
  unfold cmdCopy at h
  grind [State.kept, foldl_kept, toOut_ok, ub_ne, PickRes.state?, TaskRes.state?, Looked.state?,
    PatchRes.state?, State.cmdEnd_kept, State.hbmWake_kept, → State.copy_kept]

theorem execCmdCopy_kept (s : State) {t : State} :
    execCmdCopy s = .next t → t.kept = s.kept := by
  refine fun h => cmdRun_kept _ _ _ ?_ h
  clear h
  intro r u h
  exact cmdCopy_kept _ _ h

theorem cmdTask_kept (r : List Byte) (s : State) {t : State} :
    cmdTask r s = .next t → t.kept = s.kept := by
  intro h
  unfold cmdTask at h
  grind [State.kept, foldl_kept, toOut_ok, ub_ne, PickRes.state?, TaskRes.state?, Looked.state?,
    PatchRes.state?, State.taskCmdNow_kept, State.cmdEnd_kept, State.draw_kept]

theorem execCmdTask_kept (s : State) {t : State} :
    execCmdTask s = .next t → t.kept = s.kept := by
  refine fun h => cmdRun_kept _ _ _ ?_ h
  clear h
  intro r u h
  exact cmdTask_kept _ _ h

theorem execCmdQput_kept (s : State) {t : State} :
    execCmdQput s = .next t → t.kept = s.kept := by
  refine fun h => cmdRun_kept _ _ _ ?_ h
  clear h
  intro r u h
  cases h; rw [State.cmdEnd_kept, State.devicePut_kept]

theorem execCmdInject_kept (s : State) {t : State} :
    execCmdInject s = .next t → t.kept = s.kept := by
  refine fun h => cmdRun_kept _ _ _ ?_ h
  clear h
  intro r u h
  cases h; rw [State.cmdEnd_kept, State.devicePut_kept]

theorem execCmdBad_kept (s : State) {t : State} :
    execCmdBad s = .next t → t.kept = s.kept := by
  refine fun h => cmdRun_kept _ _ _ ?_ h
  clear h
  intro r u h
  cases h; rw [State.cmdEnd_kept, State.err_kept]

@[simp] theorem State.patchWords_kept (s : State) (half : Nat) (n : Nat) (body : List Byte) :
    (State.patchWords s half n body).kept = s.kept := by
  unfold State.patchWords
  grind [State.kept, foldl_kept, foldl_kept_fst, State.setBytes_kept]

@[simp] theorem State.patchEntries_kept (s : State) (h : PatchHdr) (body : List Byte) :
    (State.patchEntries s h body).kept = s.kept := by
  unfold State.patchEntries
  grind [State.kept, foldl_kept, foldl_kept_fst, State.wr_kept]

theorem State.patch_kept (s : State) (c : List Byte) (byRing : Bool) (comp : List Byte) {t : State} :
    (State.patch s c byRing comp).state? = some t → t.kept = s.kept := by
  intro h
  unfold State.patch at h
  grind [State.kept, foldl_kept, toOut_ok, ub_ne, PickRes.state?, TaskRes.state?, Looked.state?,
    PatchRes.state?, State.patchEntries_kept, State.patchWords_kept, State.wr_kept]

theorem cmdPatch_kept (r : List Byte) (s : State) {t : State} :
    cmdPatch r s = .next t → t.kept = s.kept := by
  intro h
  unfold cmdPatch at h
  extract_lets a n at h
  clear_value a n
  split at h
  · cases h; rfl
  · split at h
    · cases h; exact State.hbmWake_kept _ _
    · rename_i c u _ _ _
      have ku : u.kept = s.kept := State.peeked_kept _ _ _
      clear_value c u
      split at h
      · cases h; rw [State.cmdEnd_kept, ku]
      · cases h; rw [State.cmdEnd_kept, ku]
      · rename_i u h1
        cases h
        exact (State.patch_kept _ _ _ _ (by rw [h1]; rfl)).trans ku

theorem execCmdPatch_kept (s : State) {t : State} :
    execCmdPatch s = .next t → t.kept = s.kept := by
  refine fun h => cmdRun_kept _ _ _ ?_ h
  clear h
  intro r u h
  exact cmdPatch_kept _ _ h

theorem execPatchSwitchDone_kept (s : State) {t : State} :
    execPatchSwitchDone s = .next t → t.kept = s.kept := by
  intro h
  unfold execPatchSwitchDone at h
  grind [State.kept, foldl_kept, toOut_ok, ub_ne, PickRes.state?, TaskRes.state?, Looked.state?,
    PatchRes.state?, State.setF_kept, State.post_kept, State.cmdEnd_kept]

theorem execJacqFloorWrite_kept (v : Word) (s : State) {t : State} :
    execJacqFloorWrite v s = .next t → t.kept = s.kept := by
  intro h
  unfold execJacqFloorWrite at h
  refine State.byWrite_kept h ?_
  clear h; intro h
  cases h
  simp only [State.floorWrite_kept]

@[simp] theorem State.drain_kept (s : State) (n : Nat) (r : List Byte) :
    (State.drain s n r).kept = s.kept := by
  simp only [State.drain, apply_ite State.kept, ite_self, State.ringPut_kept, State.ring1Notify_kept]

theorem execEventBacklogDrain_kept (n : Fin 2) (s : State) {t : State} :
    execEventBacklogDrain n s = .next t → t.kept = s.kept := by
  intro h
  unfold execEventBacklogDrain at h
  grind [State.kept, foldl_kept, toOut_ok, ub_ne, PickRes.state?, TaskRes.state?, Looked.state?,
    PatchRes.state?, State.postDue_kept, State.drain_kept, State.setBacklog_kept]

theorem execMsiModeration_kept (n : Fin 4) (s : State) {t : State} :
    execMsiModeration n s = .next t → t.kept = s.kept := by
  intro h
  obtain h | h := unlessHalted_cases h
  · rw [h]
  extract_lets k wait past at h
  clear_value wait past k
  split at h
  · cases h; rfl
  · split at h
    · cases h; rfl
    · rename_i r1 u v r2 _ _
      have hk : u.kept = s.kept := rfl
      split at h <;> injection h with h <;> rw [← h]
      · exact hk
      · exact (State.msi_kept u _).trans hk

theorem execMsiSend_kept (v : Word) (s : State) {t : State} :
    execMsiSend v s = .next t → t.kept = s.kept := by
  intro h
  unfold execMsiSend at h
  refine State.byWrite_kept h ?_
  clear h; intro h
  cases h
  simp only [State.msiSendWrite_kept]

theorem execSpindleRestart_kept (v : Word) (s : State) {t : State} :
    execSpindleRestart v s = .next t → t.kept = s.kept := by
  intro h
  unfold execSpindleRestart at h
  refine State.byWrite_kept h ?_
  clear h; intro h
  cases h
  simp only [State.restartWrite_kept]

@[simp] theorem State.emptySpindle_kept (s : State) :
    (State.emptySpindle s).kept = s.kept := by
  unfold State.emptySpindle
  grind [State.kept, foldl_kept, foldl_kept_fst, State.releaseHandle_kept]

@[simp] theorem State.clearRange_kept (s : State) (lo : Nat) (hi : Nat) :
    (State.clearRange s lo hi).kept = s.kept := by
  simp only [State.clearRange, State.kept_mk]
  with_reducible exact State.kept_eta _

theorem execSpindleRestartDone_kept (s : State) {t : State} :
    execSpindleRestartDone s = .next t → t.kept = s.kept := by
  intro h
  unfold execSpindleRestartDone at h
  grind [State.kept, foldl_kept, toOut_ok, ub_ne, PickRes.state?, TaskRes.state?, Looked.state?,
    PatchRes.state?, State.emptySpindle_kept, State.clearRange_kept, State.setF_kept]

/-- R503: under reset the latch is clear and the host's list empty. -/
theorem State.underReset_kept (s : State) : s.underReset.kept = ⟨s.kept.pending, false, true⟩ := rfl

theorem execPowerOn_kept (s : State) {t : State} (h : execPowerOn s = .next t) :
    t.kept = s.kept ∨ t.kept = ⟨s.kept.pending, false, true⟩ := by
  unfold execPowerOn at h
  split at h
  · cases h; exact .inl rfl
  · cases h; exact .inr rfl

theorem execPowerOff_kept (s : State) {t : State} (h : execPowerOff s = .next t) :
    t.kept = s.kept ∨ t.kept = ⟨s.kept.pending, false, true⟩ := by
  unfold execPowerOff at h
  split at h
  · cases h; exact .inl rfl
  · cases h; exact .inr rfl

theorem execResetAssert_kept (s : State) {t : State} (h : execResetAssert s = .next t) :
    t.kept = s.kept ∨ t.kept = ⟨s.kept.pending, false, true⟩ := by
  unfold execResetAssert at h
  split at h
  · cases h; exact .inr rfl
  · cases h; exact .inl rfl

theorem execResetRelease_kept (s : State) {t : State} :
    execResetRelease s = .next t → t.kept = s.kept := by
  intro h
  unfold execResetRelease at h
  grind [State.kept, foldl_kept, toOut_ok, ub_ne, PickRes.state?, TaskRes.state?, Looked.state?,
    PatchRes.state?]

theorem execClockInterruption_kept (s : State) {t : State} :
    execClockInterruption s = .next t → t.kept = s.kept := by
  intro h
  unfold execClockInterruption at h
  grind [State.kept, foldl_kept, toOut_ok, ub_ne, PickRes.state?, TaskRes.state?, Looked.state?,
    PatchRes.state?]

theorem inPhase_kept (p : Nat) (f : State → Out) (s : State) {t : State}
    (hf : f s = .next t → t.kept = s.kept) (h : inPhase p f s = .next t) : t.kept = s.kept := by
  unfold inPhase at h
  split at h
  · exact hf h
  · cases h; rfl

theorem execBootInitDone_kept (sfdp : Bool) (s : State) {t : State} :
    execBootInitDone sfdp s = .next t → t.kept = s.kept := by
  refine inPhase_kept _ _ _ ?_
  intro h; cases h; rw [State.setPhase_kept]; rfl

@[simp] theorem State.wireRecords_kept (s : State) :
    (State.wireRecords s).kept = s.kept := by
  unfold State.wireRecords
  grind [State.kept, foldl_kept, foldl_kept_fst, State.masked_kept]

theorem execBootLinksDone_kept (s : State) {t : State} :
    execBootLinksDone s = .next t → t.kept = s.kept := by
  refine inPhase_kept _ _ _ ?_
  intro h; cases h; rw [State.setPhase_kept, State.wireRecords_kept]

@[simp] theorem State.bootDead_kept (s : State) (c : Nat) :
    (State.bootDead s c).kept = s.kept := by
  simp only [State.bootDead]
  repeat' split
  all_goals (try simp only [
    State.setChanState_kept, State.stackGone_kept, State.setF_kept, State.masked_kept])

@[simp] theorem State.bootFailed_kept (s : State) (failed : List Nat) :
    (State.bootFailed s failed).kept = s.kept := by
  unfold State.bootFailed
  grind [State.kept, foldl_kept, foldl_kept_fst, State.stackGone_kept, State.setChanState_kept,
    State.bootDead_kept]

theorem execBootHbmDone_kept (failed : List ChanId) (s : State) {t : State} :
    execBootHbmDone failed s = .next t → t.kept = s.kept := by
  refine inPhase_kept _ _ _ ?_
  intro h; cases h; rw [State.setPhase_kept, State.bootFailed_kept]

@[simp] theorem State.bootFail_kept (s : State) (code : Nat) :
    (State.bootFail s code).kept = s.kept := by
  simp only [State.bootFail, State.setPhase_kept, State.setF_kept]

@[simp] theorem State.runImage_kept (s : State) (im : List Byte) (n : Nat) :
    (State.runImage s im n).kept = s.kept := by
  unfold State.runImage
  grind [State.kept, foldl_kept, foldl_kept_fst, State.setF_kept, State.setBytes_kept, State.setPhase_kept]

theorem execImageCheck_kept (flash : List Byte) (s : State) {t : State} :
    execImageCheck flash s = .next t → t.kept = s.kept := by
  refine inPhase_kept _ _ _ ?_
  intro h
  extract_lets second at h
  clear_value second
  split at h
  · split at h <;> cases h
    · exact State.runImage_kept _ _ _
    · exact State.bootFail_kept _ _
  · split at h
    · cases h; exact State.bootFail_kept _ _
    · split at h
      · cases h; exact State.runImage_kept _ _ _
      · split at h <;> cases h
        · exact State.runImage_kept _ _ _
        · exact State.bootFail_kept _ _

theorem execHostImageBoot_kept (v : Word) (s : State) {t : State} :
    execHostImageBoot v s = .next t → t.kept = s.kept := by
  intro h
  unfold execHostImageBoot at h
  refine State.byWrite_kept h ?_
  clear h; intro h
  cases h
  simp only [State.bootCmdWrite_kept]

@[simp] theorem State.bootNext_kept (s : State) (r : BootRec) :
    (State.bootNext s r).kept = s.kept := by
  simp only [State.bootNext, apply_ite State.kept, ite_self, State.kept_mk]
  with_reducible exact State.kept_eta _

theorem bootRun_kept (k : Nat) (f : BootRec → State → Out) (s : State) {t : State}
    (hf : f s.bootRec s = .next t → t.kept = s.kept) (h : bootRun k f s = .next t) : t.kept = s.kept := by
  unfold bootRun at h
  refine inPhase_kept _ _ _ ?_ h
  clear h
  intro h
  split at h
  · exact hf h
  · cases h; rfl

theorem State.bootStores_kept (s : State) (x1 : Nat) (x2 : Nat) (x3 : List Byte) {t : State} :
    State.bootStores s x1 x2 x3 = .ok t → t.kept = s.kept := by
  intro h
  induction x1 generalizing s x2 x3 with
  | zero => unfold State.bootStores at h; cases h; rfl
  | succ n ih =>
    unfold State.bootStores at h
    split at h
    · cases h
    · rename_i u h1
      rw [ih _ _ _ h, State.busWrite_kept _ _ _ _ h1]

theorem execBootCopy_kept (s : State) {t : State} :
    execBootCopy s = .next t → t.kept = s.kept := by
  refine bootRun_kept _ _ _ ?_
  intro h
  split at h
  · cases h; rfl
  · split at h
    · cases h
    · rename_i u h1
      cases h
      rw [State.bootNext_kept, State.bootStores_kept _ _ _ _ h1]

theorem State.waitMet_kept (s : State) (r : BootRec) {t : Bool × State} :
    State.waitMet s r = .ok t → t.2.kept = s.kept := by
  intro h
  unfold State.waitMet at h
  grind [State.kept, foldl_kept, toOut_ok, ub_ne, PickRes.state?, TaskRes.state?, Looked.state?,
    PatchRes.state?, → State.busRead_kept]

theorem execBootWait_kept (s : State) {t : State} :
    execBootWait s = .next t → t.kept = s.kept := by
  refine bootRun_kept _ _ _ ?_
  intro h
  split at h
  · cases h
  · rename_i u h1
    have k1 := State.waitMet_kept _ _ h1
    cases h
    rw [State.bootNext_kept, k1]
  · rename_i u h1
    have k1 := State.waitMet_kept _ _ h1
    cases h
    exact k1

theorem execBootWaitTimeout_kept (s : State) {t : State} :
    execBootWaitTimeout s = .next t → t.kept = s.kept := by
  refine bootRun_kept _ _ _ ?_
  intro h
  split at h
  · cases h; rfl
  · split at h <;> cases h
    · exact State.bootFail_kept _ _
    · rfl

theorem execBootPatch_kept (s : State) {t : State} :
    execBootPatch s = .next t → t.kept = s.kept := by
  refine bootRun_kept _ _ _ ?_
  intro h
  split at h
  · rename_i u h1
    cases h
    rw [State.bootNext_kept, State.patch_kept _ _ _ _ (by rw [h1]; rfl)]
  · cases h; exact State.bootFail_kept _ _

theorem execBootTask_kept (s : State) {t : State} :
    execBootTask s = .next t → t.kept = s.kept := by
  refine bootRun_kept _ _ _ ?_
  intro h
  extract_lets k s1 at h
  have k1 : s1.kept = s.kept := State.taskCmdReg_kept _ _ _ _
  clear_value s1
  split at h
  · cases h
  · rename_i u h1
    cases h
    rw [State.bootNext_kept, State.taskCmdReg_kept, State.busWrite_kept _ _ _ _ h1, k1]

theorem execBootEnd_kept (s : State) {t : State} :
    execBootEnd s = .next t → t.kept = s.kept := by
  refine bootRun_kept _ _ _ ?_
  intro h; cases h; exact State.setPhase_kept _ _

theorem execBootBadRecord_kept (s : State) {t : State} :
    execBootBadRecord s = .next t → t.kept = s.kept := by
  refine inPhase_kept _ _ _ ?_
  intro h
  extract_lets r at h
  clear_value r
  split at h <;> cases h
  · exact State.bootFail_kept _ _
  · rfl

@[simp] theorem State.linkBack_kept (s : State) :
    (State.linkBack s).kept = s.kept := by
  unfold State.linkBack
  grind [State.kept, foldl_kept, foldl_kept_fst, State.msi_kept]

theorem execPcieLinkTrain_kept (s : State) {t : State} :
    execPcieLinkTrain s = .next t → t.kept = s.kept := by
  intro h
  unfold execPcieLinkTrain at h
  grind [State.kept, foldl_kept, toOut_ok, ub_ne, PickRes.state?, TaskRes.state?, Looked.state?,
    PatchRes.state?, State.linkBack_kept]

theorem execPerstAssert_kept (s : State) {t : State} :
    execPerstAssert s = .next t → t.kept = s.kept := by
  intro h
  unfold execPerstAssert at h
  grind [State.kept, foldl_kept, toOut_ok, ub_ne, PickRes.state?, TaskRes.state?, Looked.state?,
    PatchRes.state?]

theorem execPcieLinkLoss_kept (s : State) {t : State} :
    execPcieLinkLoss s = .next t → t.kept = s.kept := by
  intro h
  unfold execPcieLinkLoss at h
  grind [State.kept, foldl_kept, toOut_ok, ub_ne, PickRes.state?, TaskRes.state?, Looked.state?,
    PatchRes.state?]

theorem execPcieLinkReturn_kept (s : State) {t : State} :
    execPcieLinkReturn s = .next t → t.kept = s.kept := by
  intro h
  unfold execPcieLinkReturn at h
  grind [State.kept, foldl_kept, toOut_ok, ub_ne, PickRes.state?, TaskRes.state?, Looked.state?,
    PatchRes.state?, State.linkBack_kept]

@[simp] theorem State.smbAnswer_kept (s : State) (bs : List Byte) :
    (State.smbAnswer s bs).kept = s.kept := by
  simp only [State.smbAnswer]
  repeat' split
  all_goals (try simp only [State.kept_mk])
  all_goals (try with_reducible exact State.kept_eta _)

theorem execSmbReadIdent_kept (s : State) {t : State} :
    execSmbReadIdent s = .next t → t.kept = s.kept := by
  intro h
  simp [execSmbReadIdent] at h
  try (subst h; simp [State.smbAnswer_kept])

theorem execSmbReadTj_kept (s : State) {t : State} :
    execSmbReadTj s = .next t → t.kept = s.kept := by
  intro h
  simp [execSmbReadTj] at h
  try (subst h; simp [State.smbAnswer_kept])

theorem execSmbReadHbmTemp_kept (s : State) {t : State} :
    execSmbReadHbmTemp s = .next t → t.kept = s.kept := by
  intro h
  unfold execSmbReadHbmTemp at h
  grind [State.kept, foldl_kept, toOut_ok, ub_ne, PickRes.state?, TaskRes.state?, Looked.state?,
    PatchRes.state?, State.smbAnswer_kept]

theorem execSmbReadBootStat_kept (s : State) {t : State} :
    execSmbReadBootStat s = .next t → t.kept = s.kept := by
  intro h
  simp [execSmbReadBootStat] at h
  try (subst h; simp [State.smbAnswer_kept])

theorem execSmbReadThermal_kept (s : State) {t : State} :
    execSmbReadThermal s = .next t → t.kept = s.kept := by
  intro h
  simp [execSmbReadThermal] at h
  try (subst h; simp [State.smbAnswer_kept])

theorem execSmbNack_kept (cmd : BitVec 8) (s : State) {t : State} :
    execSmbNack cmd s = .next t → t.kept = s.kept := by
  intro h
  unfold execSmbNack at h
  grind [State.kept, foldl_kept, toOut_ok, ub_ne, PickRes.state?, TaskRes.state?, Looked.state?,
    PatchRes.state?]

theorem execCompareDone_kept (s : State) {t : State} :
    execCompareDone s = .next t → t.kept = s.kept := by
  intro h
  unfold execCompareDone at h
  refine unlessHalted_kept h ?_
  clear h; intro h
  grind [State.kept, foldl_kept, foldl_kept_fst, toOut_ok, ub_ne, PickRes.state?, TaskRes.state?, Looked.state?, PatchRes.state?, State.wr_kept, State.setF_kept, State.hbmWake_kept, State.peeked_kept]

@[simp] theorem State.loseLine_kept (s : State) (l : Nat) :
    (State.loseLine s l).kept = s.kept := by
  simp only [State.loseLine]
  repeat' split
  all_goals (try simp only [State.loseRec_kept, State.freeLine_kept, State.draw_kept, State.setLine_kept])

theorem State.rebuildIndex_kept (s : State) (r : Nat) (f : Head → State) (hf : ∀ h, (f h).kept = s.kept) :
    (s.rebuildIndex r f).kept = s.kept := by
  unfold State.rebuildIndex
  split
  · rw [State.loseRec_kept, State.uncRead_kept]
  · rw [State.masked_kept, hf]

@[simp] theorem State.rebuildTag_kept (s : State) (r : Nat) :
    (State.rebuildTag s r).kept = s.kept := by
  unfold State.rebuildTag
  exact State.rebuildIndex_kept _ _ _ fun h => State.setTag_kept _ _ _

@[simp] theorem State.rebuildOvf_kept (s : State) (i : Nat) :
    (State.rebuildOvf s i).kept = s.kept := by
  unfold State.rebuildOvf
  exact State.rebuildIndex_kept _ _ _ fun h => State.setOvf_kept _ _ _

@[simp] theorem State.dropPunted_kept (s : State) (h : Word) :
    (State.dropPunted s h).kept = s.kept := by
  unfold State.dropPunted
  grind [State.kept, foldl_kept, foldl_kept_fst, State.puntDropped_kept, State.releaseHandle_kept,
    State.setSqueue_kept]

@[simp] theorem State.loseSpinWord_kept (s : State) (a : Nat) :
    (State.loseSpinWord s a).kept = s.kept := by
  simp only [State.loseSpinWord]
  repeat' split
  all_goals (try simp only [State.updTask_kept, State.setLe_kept, State.dropPunted_kept, State.masked_kept])

@[simp] theorem State.loseQueueEntry_kept (s : State) (q : Nat) (i : Nat) :
    (State.loseQueueEntry s q i).kept = s.kept := by
  simp only [State.loseQueueEntry, State.draw_kept, State.masked_kept, State.setSqueue_kept]

@[simp] theorem State.patrolBad_kept (s : State) (w : Nat) (r : ArrayFault) :
    (State.patrolBad s w r).kept = s.kept := by
  simp only [State.patrolBad]
  repeat' split
  all_goals (try simp only [
    State.masked_kept, State.setF_kept, State.loseWord_kept, State.loseSpinWord_kept])

theorem execStorePatrol_kept (w : StoreWord) (r : ArrayFault) (s : State) {t : State} :
    execStorePatrol w r s = .next t → t.kept = s.kept := by
  intro h
  unfold execStorePatrol at h
  grind [State.kept, foldl_kept, toOut_ok, ub_ne, PickRes.state?, TaskRes.state?, Looked.state?,
    PatchRes.state?, State.patrolBad_kept, State.loseLine_kept, State.rebuildTag_kept, State.rebuildOvf_kept,
    State.loseQueueEntry_kept, → unlessHalted_cases]

theorem execLdW_kept (c : Ctx) (w : IWord) (s : State) {t : State} :
    execLdW c w s = .next t → t.kept = s.kept := by
  intro h
  unfold execLdW at h
  (repeat' split at h) <;> first
    | exact taskIllegal_kept _ _ h
    | exact pickPure_kept _ _ _ _ h

theorem execStW_kept (c : Ctx) (w : IWord) (s : State) {t : State} :
    execStW c w s = .next t → t.kept = s.kept := by
  intro h
  unfold execStW at h
  (repeat' split at h) <;> first
    | exact taskIllegal_kept _ _ h
    | exact pickPure_kept _ _ _ _ h

theorem execBrp_kept (c : Ctx) (w : IWord) (s : State) {t : State} :
    execBrp c w s = .next t → t.kept = s.kept := by
  intro h
  unfold execBrp at h
  (repeat' split at h) <;> first
    | exact taskIllegal_kept _ _ h
    | refine runPick_kept _ _ _ _ ?_ h
      clear h
      intro x u hu
      (repeat' split at hu) <;> (cases hu; simp only)

theorem execTstamp_kept (c : Ctx) (w : IWord) (s : State) {t : State} :
    execTstamp c w s = .next t → t.kept = s.kept := by
  intro h
  unfold execTstamp at h
  split at h
  · refine runPick_kept _ _ _ _ ?_ h
    clear h
    intro x u hu
    cases hu; rw [State.setPkt_kept]
  · refine runTask_kept _ _ _ _ _ ?_ h
    clear h
    intro x u hu
    cases hu; rw [State.setTask_kept]

@[simp] theorem State.countPool_kept (s : State) (e : Nat) (packets : Nat) (bytes : Word) :
    (State.countPool s e packets bytes).kept = s.kept := by
  simp only [State.countPool, State.count_kept]

theorem execCnt_kept (c : Ctx) (w : IWord) (s : State) {t : State} :
    execCnt c w s = .next t → t.kept = s.kept := by
  intro h
  unfold execCnt at h
  (repeat' split at h) <;> first
    | (first | refine runPick_kept _ _ _ _ ?_ h | refine runTask_kept _ _ _ _ _ ?_ h)
      clear h
      intro x u hu
      (repeat' split at hu) <;> first
        | (cases hu; simp only [State.setPkt_kept,
              State.countPool_kept, State.setTask_kept])

@[simp] theorem State.domTick_kept (s : State) (d : Nat) :
    (State.domTick s d).kept = s.kept := by
  simp only [State.domTick, State.updDom_kept]

@[simp] theorem State.slewTx_kept (s : State) :
    (State.slewTx s).kept = s.kept := by
  simp only [State.slewTx, State.kept_mk]
  with_reducible exact State.kept_eta _

@[simp] theorem State.tick_kept (s : State) :
    (State.tick s).kept = s.kept := by
  unfold State.tick
  grind [State.kept, foldl_kept, foldl_kept_fst, State.domTick_kept, State.slewTx_kept]

end Sys2Proof.Machine
end

