-- ==== Sys2Proof/Laws/State.lean ====
section
/-! SUPPORT. What each named update of the state leaves as it was: one lemma a field an update, each true by
definition, so that no proof unfolds a record update. -/

namespace Sys2Proof.Machine

section
variable (s : State)

@[simp] theorem State.wr_pending (a : Nat) (w : Word) : (s.wr a w).pending = s.pending := rfl
@[simp] theorem State.wr_now (a : Nat) (w : Word) : (s.wr a w).now = s.now := rfl
@[simp] theorem State.wr_freeCtr (a : Nat) (w : Word) : (s.wr a w).freeCtr = s.freeCtr := rfl
@[simp] theorem State.wr_ws (a : Nat) (w : Word) : (s.wr a w).ws = s.ws := rfl
@[simp] theorem State.wr_mem (a : Nat) (w : Word) : (s.wr a w).mem = s.mem := rfl
@[simp] theorem State.wr_boot (a : Nat) (w : Word) : (s.wr a w).boot = s.boot := rfl
@[simp] theorem State.wr_pkts (a : Nat) (w : Word) : (s.wr a w).pkts = s.pkts := rfl
@[simp] theorem State.wr_nextPkt (a : Nat) (w : Word) : (s.wr a w).nextPkt = s.nextPkt := rfl
@[simp] theorem State.wr_nextOrder (a : Nat) (w : Word) : (s.wr a w).nextOrder = s.nextOrder := rfl
@[simp] theorem State.wr_bat (a : Nat) (w : Word) : (s.wr a w).bat = s.bat := rfl
@[simp] theorem State.wr_warp (a : Nat) (w : Word) : (s.wr a w).warp = s.warp := rfl
@[simp] theorem State.wr_reed (a : Nat) (w : Word) : (s.wr a w).reed = s.reed := rfl
@[simp] theorem State.wr_twill (a : Nat) (w : Word) : (s.wr a w).twill = s.twill := rfl
@[simp] theorem State.wr_learn (a : Nat) (w : Word) : (s.wr a w).learn = s.learn := rfl
@[simp] theorem State.wr_beam (a : Nat) (w : Word) : (s.wr a w).beam = s.beam := rfl
@[simp] theorem State.wr_selv (a : Nat) (w : Word) : (s.wr a w).selv = s.selv := rfl
@[simp] theorem State.wr_creel (a : Nat) (w : Word) : (s.wr a w).creel = s.creel := rfl
@[simp] theorem State.wr_time (a : Nat) (w : Word) : (s.wr a w).time = s.time := rfl
@[simp] theorem State.wr_spin (a : Nat) (w : Word) : (s.wr a w).spin = s.spin := rfl
@[simp] theorem State.wr_host (a : Nat) (w : Word) : (s.wr a w).host = s.host := rfl
@[simp] theorem State.wr_tension (a : Nat) (w : Word) : (s.wr a w).tension = s.tension := rfl
@[simp] theorem State.wr_glass (a : Nat) (w : Word) : (s.wr a w).glass = s.glass := rfl
@[simp] theorem State.wr_digest (a : Nat) (w : Word) : (s.wr a w).digest = s.digest := rfl
@[simp] theorem State.wr_pins (a : Nat) (w : Word) : (s.wr a w).pins = s.pins := rfl
@[simp] theorem State.wr_puntBkt (a : Nat) (w : Word) : (s.wr a w).puntBkt = s.puntBkt := rfl

@[simp] theorem State.setF_pending (a : Nat) (f : Fld) (v : Nat) : (s.setF a f v).pending = s.pending := rfl
@[simp] theorem State.setF_now (a : Nat) (f : Fld) (v : Nat) : (s.setF a f v).now = s.now := rfl
@[simp] theorem State.setF_freeCtr (a : Nat) (f : Fld) (v : Nat) : (s.setF a f v).freeCtr = s.freeCtr := rfl
@[simp] theorem State.setF_ws (a : Nat) (f : Fld) (v : Nat) : (s.setF a f v).ws = s.ws := rfl
@[simp] theorem State.setF_mem (a : Nat) (f : Fld) (v : Nat) : (s.setF a f v).mem = s.mem := rfl
@[simp] theorem State.setF_boot (a : Nat) (f : Fld) (v : Nat) : (s.setF a f v).boot = s.boot := rfl
@[simp] theorem State.setF_pkts (a : Nat) (f : Fld) (v : Nat) : (s.setF a f v).pkts = s.pkts := rfl
@[simp] theorem State.setF_nextPkt (a : Nat) (f : Fld) (v : Nat) : (s.setF a f v).nextPkt = s.nextPkt := rfl
@[simp] theorem State.setF_nextOrder (a : Nat) (f : Fld) (v : Nat) : (s.setF a f v).nextOrder = s.nextOrder := rfl
@[simp] theorem State.setF_bat (a : Nat) (f : Fld) (v : Nat) : (s.setF a f v).bat = s.bat := rfl
@[simp] theorem State.setF_warp (a : Nat) (f : Fld) (v : Nat) : (s.setF a f v).warp = s.warp := rfl
@[simp] theorem State.setF_reed (a : Nat) (f : Fld) (v : Nat) : (s.setF a f v).reed = s.reed := rfl
@[simp] theorem State.setF_twill (a : Nat) (f : Fld) (v : Nat) : (s.setF a f v).twill = s.twill := rfl
@[simp] theorem State.setF_learn (a : Nat) (f : Fld) (v : Nat) : (s.setF a f v).learn = s.learn := rfl
@[simp] theorem State.setF_beam (a : Nat) (f : Fld) (v : Nat) : (s.setF a f v).beam = s.beam := rfl
@[simp] theorem State.setF_selv (a : Nat) (f : Fld) (v : Nat) : (s.setF a f v).selv = s.selv := rfl
@[simp] theorem State.setF_creel (a : Nat) (f : Fld) (v : Nat) : (s.setF a f v).creel = s.creel := rfl
@[simp] theorem State.setF_time (a : Nat) (f : Fld) (v : Nat) : (s.setF a f v).time = s.time := rfl
@[simp] theorem State.setF_spin (a : Nat) (f : Fld) (v : Nat) : (s.setF a f v).spin = s.spin := rfl
@[simp] theorem State.setF_host (a : Nat) (f : Fld) (v : Nat) : (s.setF a f v).host = s.host := rfl
@[simp] theorem State.setF_tension (a : Nat) (f : Fld) (v : Nat) : (s.setF a f v).tension = s.tension := rfl
@[simp] theorem State.setF_glass (a : Nat) (f : Fld) (v : Nat) : (s.setF a f v).glass = s.glass := rfl
@[simp] theorem State.setF_digest (a : Nat) (f : Fld) (v : Nat) : (s.setF a f v).digest = s.digest := rfl
@[simp] theorem State.setF_pins (a : Nat) (f : Fld) (v : Nat) : (s.setF a f v).pins = s.pins := rfl
@[simp] theorem State.setF_puntBkt (a : Nat) (f : Fld) (v : Nat) : (s.setF a f v).puntBkt = s.puntBkt := rfl

@[simp] theorem State.setBit_pending (a b : Nat) : (s.setBit a b).pending = s.pending := rfl
@[simp] theorem State.setBit_now (a b : Nat) : (s.setBit a b).now = s.now := rfl
@[simp] theorem State.setBit_freeCtr (a b : Nat) : (s.setBit a b).freeCtr = s.freeCtr := rfl
@[simp] theorem State.setBit_ws (a b : Nat) : (s.setBit a b).ws = s.ws := rfl
@[simp] theorem State.setBit_mem (a b : Nat) : (s.setBit a b).mem = s.mem := rfl
@[simp] theorem State.setBit_boot (a b : Nat) : (s.setBit a b).boot = s.boot := rfl
@[simp] theorem State.setBit_pkts (a b : Nat) : (s.setBit a b).pkts = s.pkts := rfl
@[simp] theorem State.setBit_nextPkt (a b : Nat) : (s.setBit a b).nextPkt = s.nextPkt := rfl
@[simp] theorem State.setBit_nextOrder (a b : Nat) : (s.setBit a b).nextOrder = s.nextOrder := rfl
@[simp] theorem State.setBit_bat (a b : Nat) : (s.setBit a b).bat = s.bat := rfl
@[simp] theorem State.setBit_warp (a b : Nat) : (s.setBit a b).warp = s.warp := rfl
@[simp] theorem State.setBit_reed (a b : Nat) : (s.setBit a b).reed = s.reed := rfl
@[simp] theorem State.setBit_twill (a b : Nat) : (s.setBit a b).twill = s.twill := rfl
@[simp] theorem State.setBit_learn (a b : Nat) : (s.setBit a b).learn = s.learn := rfl
@[simp] theorem State.setBit_beam (a b : Nat) : (s.setBit a b).beam = s.beam := rfl
@[simp] theorem State.setBit_selv (a b : Nat) : (s.setBit a b).selv = s.selv := rfl
@[simp] theorem State.setBit_creel (a b : Nat) : (s.setBit a b).creel = s.creel := rfl
@[simp] theorem State.setBit_time (a b : Nat) : (s.setBit a b).time = s.time := rfl
@[simp] theorem State.setBit_spin (a b : Nat) : (s.setBit a b).spin = s.spin := rfl
@[simp] theorem State.setBit_host (a b : Nat) : (s.setBit a b).host = s.host := rfl
@[simp] theorem State.setBit_tension (a b : Nat) : (s.setBit a b).tension = s.tension := rfl
@[simp] theorem State.setBit_glass (a b : Nat) : (s.setBit a b).glass = s.glass := rfl
@[simp] theorem State.setBit_digest (a b : Nat) : (s.setBit a b).digest = s.digest := rfl
@[simp] theorem State.setBit_pins (a b : Nat) : (s.setBit a b).pins = s.pins := rfl
@[simp] theorem State.setBit_puntBkt (a b : Nat) : (s.setBit a b).puntBkt = s.puntBkt := rfl

@[simp] theorem State.setWs_pending (a : Nat) (v : Word × Word) : (s.setWs a v).pending = s.pending := rfl
@[simp] theorem State.setWs_now (a : Nat) (v : Word × Word) : (s.setWs a v).now = s.now := rfl
@[simp] theorem State.setWs_freeCtr (a : Nat) (v : Word × Word) : (s.setWs a v).freeCtr = s.freeCtr := rfl
@[simp] theorem State.setWs_regs (a : Nat) (v : Word × Word) : (s.setWs a v).regs = s.regs := rfl
@[simp] theorem State.setWs_mem (a : Nat) (v : Word × Word) : (s.setWs a v).mem = s.mem := rfl
@[simp] theorem State.setWs_boot (a : Nat) (v : Word × Word) : (s.setWs a v).boot = s.boot := rfl
@[simp] theorem State.setWs_pkts (a : Nat) (v : Word × Word) : (s.setWs a v).pkts = s.pkts := rfl
@[simp] theorem State.setWs_nextPkt (a : Nat) (v : Word × Word) : (s.setWs a v).nextPkt = s.nextPkt := rfl
@[simp] theorem State.setWs_nextOrder (a : Nat) (v : Word × Word) : (s.setWs a v).nextOrder = s.nextOrder := rfl
@[simp] theorem State.setWs_bat (a : Nat) (v : Word × Word) : (s.setWs a v).bat = s.bat := rfl
@[simp] theorem State.setWs_warp (a : Nat) (v : Word × Word) : (s.setWs a v).warp = s.warp := rfl
@[simp] theorem State.setWs_reed (a : Nat) (v : Word × Word) : (s.setWs a v).reed = s.reed := rfl
@[simp] theorem State.setWs_twill (a : Nat) (v : Word × Word) : (s.setWs a v).twill = s.twill := rfl
@[simp] theorem State.setWs_learn (a : Nat) (v : Word × Word) : (s.setWs a v).learn = s.learn := rfl
@[simp] theorem State.setWs_beam (a : Nat) (v : Word × Word) : (s.setWs a v).beam = s.beam := rfl
@[simp] theorem State.setWs_selv (a : Nat) (v : Word × Word) : (s.setWs a v).selv = s.selv := rfl
@[simp] theorem State.setWs_creel (a : Nat) (v : Word × Word) : (s.setWs a v).creel = s.creel := rfl
@[simp] theorem State.setWs_time (a : Nat) (v : Word × Word) : (s.setWs a v).time = s.time := rfl
@[simp] theorem State.setWs_spin (a : Nat) (v : Word × Word) : (s.setWs a v).spin = s.spin := rfl
@[simp] theorem State.setWs_host (a : Nat) (v : Word × Word) : (s.setWs a v).host = s.host := rfl
@[simp] theorem State.setWs_tension (a : Nat) (v : Word × Word) : (s.setWs a v).tension = s.tension := rfl
@[simp] theorem State.setWs_glass (a : Nat) (v : Word × Word) : (s.setWs a v).glass = s.glass := rfl
@[simp] theorem State.setWs_digest (a : Nat) (v : Word × Word) : (s.setWs a v).digest = s.digest := rfl
@[simp] theorem State.setWs_pins (a : Nat) (v : Word × Word) : (s.setWs a v).pins = s.pins := rfl
@[simp] theorem State.setWs_puntBkt (a : Nat) (v : Word × Word) : (s.setWs a v).puntBkt = s.puntBkt := rfl

@[simp] theorem State.setByte_pending (a : Nat) (b : Byte) : (s.setByte a b).pending = s.pending := rfl
@[simp] theorem State.setByte_now (a : Nat) (b : Byte) : (s.setByte a b).now = s.now := rfl
@[simp] theorem State.setByte_freeCtr (a : Nat) (b : Byte) : (s.setByte a b).freeCtr = s.freeCtr := rfl
@[simp] theorem State.setByte_regs (a : Nat) (b : Byte) : (s.setByte a b).regs = s.regs := rfl
@[simp] theorem State.setByte_ws (a : Nat) (b : Byte) : (s.setByte a b).ws = s.ws := rfl
@[simp] theorem State.setByte_boot (a : Nat) (b : Byte) : (s.setByte a b).boot = s.boot := rfl
@[simp] theorem State.setByte_pkts (a : Nat) (b : Byte) : (s.setByte a b).pkts = s.pkts := rfl
@[simp] theorem State.setByte_nextPkt (a : Nat) (b : Byte) : (s.setByte a b).nextPkt = s.nextPkt := rfl
@[simp] theorem State.setByte_nextOrder (a : Nat) (b : Byte) : (s.setByte a b).nextOrder = s.nextOrder := rfl
@[simp] theorem State.setByte_bat (a : Nat) (b : Byte) : (s.setByte a b).bat = s.bat := rfl
@[simp] theorem State.setByte_warp (a : Nat) (b : Byte) : (s.setByte a b).warp = s.warp := rfl
@[simp] theorem State.setByte_reed (a : Nat) (b : Byte) : (s.setByte a b).reed = s.reed := rfl
@[simp] theorem State.setByte_twill (a : Nat) (b : Byte) : (s.setByte a b).twill = s.twill := rfl
@[simp] theorem State.setByte_learn (a : Nat) (b : Byte) : (s.setByte a b).learn = s.learn := rfl
@[simp] theorem State.setByte_beam (a : Nat) (b : Byte) : (s.setByte a b).beam = s.beam := rfl
@[simp] theorem State.setByte_selv (a : Nat) (b : Byte) : (s.setByte a b).selv = s.selv := rfl
@[simp] theorem State.setByte_creel (a : Nat) (b : Byte) : (s.setByte a b).creel = s.creel := rfl
@[simp] theorem State.setByte_time (a : Nat) (b : Byte) : (s.setByte a b).time = s.time := rfl
@[simp] theorem State.setByte_spin (a : Nat) (b : Byte) : (s.setByte a b).spin = s.spin := rfl
@[simp] theorem State.setByte_host (a : Nat) (b : Byte) : (s.setByte a b).host = s.host := rfl
@[simp] theorem State.setByte_tension (a : Nat) (b : Byte) : (s.setByte a b).tension = s.tension := rfl
@[simp] theorem State.setByte_glass (a : Nat) (b : Byte) : (s.setByte a b).glass = s.glass := rfl
@[simp] theorem State.setByte_digest (a : Nat) (b : Byte) : (s.setByte a b).digest = s.digest := rfl
@[simp] theorem State.setByte_pins (a : Nat) (b : Byte) : (s.setByte a b).pins = s.pins := rfl
@[simp] theorem State.setByte_puntBkt (a : Nat) (b : Byte) : (s.setByte a b).puntBkt = s.puntBkt := rfl

@[simp] theorem State.setTask_pending (k : Nat) (t : Task) : (s.setTask k t).pending = s.pending := rfl
@[simp] theorem State.setTask_now (k : Nat) (t : Task) : (s.setTask k t).now = s.now := rfl
@[simp] theorem State.setTask_freeCtr (k : Nat) (t : Task) : (s.setTask k t).freeCtr = s.freeCtr := rfl
@[simp] theorem State.setTask_regs (k : Nat) (t : Task) : (s.setTask k t).regs = s.regs := rfl
@[simp] theorem State.setTask_ws (k : Nat) (t : Task) : (s.setTask k t).ws = s.ws := rfl
@[simp] theorem State.setTask_mem (k : Nat) (t : Task) : (s.setTask k t).mem = s.mem := rfl
@[simp] theorem State.setTask_boot (k : Nat) (t : Task) : (s.setTask k t).boot = s.boot := rfl
@[simp] theorem State.setTask_pkts (k : Nat) (t : Task) : (s.setTask k t).pkts = s.pkts := rfl
@[simp] theorem State.setTask_nextPkt (k : Nat) (t : Task) : (s.setTask k t).nextPkt = s.nextPkt := rfl
@[simp] theorem State.setTask_nextOrder (k : Nat) (t : Task) : (s.setTask k t).nextOrder = s.nextOrder := rfl
@[simp] theorem State.setTask_bat (k : Nat) (t : Task) : (s.setTask k t).bat = s.bat := rfl
@[simp] theorem State.setTask_warp (k : Nat) (t : Task) : (s.setTask k t).warp = s.warp := rfl
@[simp] theorem State.setTask_reed (k : Nat) (t : Task) : (s.setTask k t).reed = s.reed := rfl
@[simp] theorem State.setTask_twill (k : Nat) (t : Task) : (s.setTask k t).twill = s.twill := rfl
@[simp] theorem State.setTask_learn (k : Nat) (t : Task) : (s.setTask k t).learn = s.learn := rfl
@[simp] theorem State.setTask_beam (k : Nat) (t : Task) : (s.setTask k t).beam = s.beam := rfl
@[simp] theorem State.setTask_selv (k : Nat) (t : Task) : (s.setTask k t).selv = s.selv := rfl
@[simp] theorem State.setTask_creel (k : Nat) (t : Task) : (s.setTask k t).creel = s.creel := rfl
@[simp] theorem State.setTask_time (k : Nat) (t : Task) : (s.setTask k t).time = s.time := rfl
@[simp] theorem State.setTask_host (k : Nat) (t : Task) : (s.setTask k t).host = s.host := rfl
@[simp] theorem State.setTask_tension (k : Nat) (t : Task) : (s.setTask k t).tension = s.tension := rfl
@[simp] theorem State.setTask_glass (k : Nat) (t : Task) : (s.setTask k t).glass = s.glass := rfl
@[simp] theorem State.setTask_digest (k : Nat) (t : Task) : (s.setTask k t).digest = s.digest := rfl
@[simp] theorem State.setTask_pins (k : Nat) (t : Task) : (s.setTask k t).pins = s.pins := rfl
@[simp] theorem State.setTask_puntBkt (k : Nat) (t : Task) : (s.setTask k t).puntBkt = s.puntBkt := rfl

@[simp] theorem State.updTask_pending (k : Nat) (f : Task → Task) : (s.updTask k f).pending = s.pending := rfl
@[simp] theorem State.updTask_now (k : Nat) (f : Task → Task) : (s.updTask k f).now = s.now := rfl
@[simp] theorem State.updTask_freeCtr (k : Nat) (f : Task → Task) : (s.updTask k f).freeCtr = s.freeCtr := rfl
@[simp] theorem State.updTask_regs (k : Nat) (f : Task → Task) : (s.updTask k f).regs = s.regs := rfl
@[simp] theorem State.updTask_ws (k : Nat) (f : Task → Task) : (s.updTask k f).ws = s.ws := rfl
@[simp] theorem State.updTask_mem (k : Nat) (f : Task → Task) : (s.updTask k f).mem = s.mem := rfl
@[simp] theorem State.updTask_boot (k : Nat) (f : Task → Task) : (s.updTask k f).boot = s.boot := rfl
@[simp] theorem State.updTask_pkts (k : Nat) (f : Task → Task) : (s.updTask k f).pkts = s.pkts := rfl
@[simp] theorem State.updTask_nextPkt (k : Nat) (f : Task → Task) : (s.updTask k f).nextPkt = s.nextPkt := rfl
@[simp] theorem State.updTask_nextOrder (k : Nat) (f : Task → Task) : (s.updTask k f).nextOrder = s.nextOrder := rfl
@[simp] theorem State.updTask_bat (k : Nat) (f : Task → Task) : (s.updTask k f).bat = s.bat := rfl
@[simp] theorem State.updTask_warp (k : Nat) (f : Task → Task) : (s.updTask k f).warp = s.warp := rfl
@[simp] theorem State.updTask_reed (k : Nat) (f : Task → Task) : (s.updTask k f).reed = s.reed := rfl
@[simp] theorem State.updTask_twill (k : Nat) (f : Task → Task) : (s.updTask k f).twill = s.twill := rfl
@[simp] theorem State.updTask_learn (k : Nat) (f : Task → Task) : (s.updTask k f).learn = s.learn := rfl
@[simp] theorem State.updTask_beam (k : Nat) (f : Task → Task) : (s.updTask k f).beam = s.beam := rfl
@[simp] theorem State.updTask_selv (k : Nat) (f : Task → Task) : (s.updTask k f).selv = s.selv := rfl
@[simp] theorem State.updTask_creel (k : Nat) (f : Task → Task) : (s.updTask k f).creel = s.creel := rfl
@[simp] theorem State.updTask_time (k : Nat) (f : Task → Task) : (s.updTask k f).time = s.time := rfl
@[simp] theorem State.updTask_host (k : Nat) (f : Task → Task) : (s.updTask k f).host = s.host := rfl
@[simp] theorem State.updTask_tension (k : Nat) (f : Task → Task) : (s.updTask k f).tension = s.tension := rfl
@[simp] theorem State.updTask_glass (k : Nat) (f : Task → Task) : (s.updTask k f).glass = s.glass := rfl
@[simp] theorem State.updTask_digest (k : Nat) (f : Task → Task) : (s.updTask k f).digest = s.digest := rfl
@[simp] theorem State.updTask_pins (k : Nat) (f : Task → Task) : (s.updTask k f).pins = s.pins := rfl
@[simp] theorem State.updTask_puntBkt (k : Nat) (f : Task → Task) : (s.updTask k f).puntBkt = s.puntBkt := rfl

@[simp] theorem State.setPkt_pending (p : Nat) (x : Option Pkt) : (s.setPkt p x).pending = s.pending := rfl
@[simp] theorem State.setPkt_now (p : Nat) (x : Option Pkt) : (s.setPkt p x).now = s.now := rfl
@[simp] theorem State.setPkt_freeCtr (p : Nat) (x : Option Pkt) : (s.setPkt p x).freeCtr = s.freeCtr := rfl
@[simp] theorem State.setPkt_regs (p : Nat) (x : Option Pkt) : (s.setPkt p x).regs = s.regs := rfl
@[simp] theorem State.setPkt_ws (p : Nat) (x : Option Pkt) : (s.setPkt p x).ws = s.ws := rfl
@[simp] theorem State.setPkt_mem (p : Nat) (x : Option Pkt) : (s.setPkt p x).mem = s.mem := rfl
@[simp] theorem State.setPkt_boot (p : Nat) (x : Option Pkt) : (s.setPkt p x).boot = s.boot := rfl
@[simp] theorem State.setPkt_nextPkt (p : Nat) (x : Option Pkt) : (s.setPkt p x).nextPkt = s.nextPkt := rfl
@[simp] theorem State.setPkt_nextOrder (p : Nat) (x : Option Pkt) : (s.setPkt p x).nextOrder = s.nextOrder := rfl
@[simp] theorem State.setPkt_bat (p : Nat) (x : Option Pkt) : (s.setPkt p x).bat = s.bat := rfl
@[simp] theorem State.setPkt_warp (p : Nat) (x : Option Pkt) : (s.setPkt p x).warp = s.warp := rfl
@[simp] theorem State.setPkt_reed (p : Nat) (x : Option Pkt) : (s.setPkt p x).reed = s.reed := rfl
@[simp] theorem State.setPkt_twill (p : Nat) (x : Option Pkt) : (s.setPkt p x).twill = s.twill := rfl
@[simp] theorem State.setPkt_learn (p : Nat) (x : Option Pkt) : (s.setPkt p x).learn = s.learn := rfl
@[simp] theorem State.setPkt_beam (p : Nat) (x : Option Pkt) : (s.setPkt p x).beam = s.beam := rfl
@[simp] theorem State.setPkt_selv (p : Nat) (x : Option Pkt) : (s.setPkt p x).selv = s.selv := rfl
@[simp] theorem State.setPkt_creel (p : Nat) (x : Option Pkt) : (s.setPkt p x).creel = s.creel := rfl
@[simp] theorem State.setPkt_time (p : Nat) (x : Option Pkt) : (s.setPkt p x).time = s.time := rfl
@[simp] theorem State.setPkt_spin (p : Nat) (x : Option Pkt) : (s.setPkt p x).spin = s.spin := rfl
@[simp] theorem State.setPkt_host (p : Nat) (x : Option Pkt) : (s.setPkt p x).host = s.host := rfl
@[simp] theorem State.setPkt_tension (p : Nat) (x : Option Pkt) : (s.setPkt p x).tension = s.tension := rfl
@[simp] theorem State.setPkt_glass (p : Nat) (x : Option Pkt) : (s.setPkt p x).glass = s.glass := rfl
@[simp] theorem State.setPkt_digest (p : Nat) (x : Option Pkt) : (s.setPkt p x).digest = s.digest := rfl
@[simp] theorem State.setPkt_pins (p : Nat) (x : Option Pkt) : (s.setPkt p x).pins = s.pins := rfl
@[simp] theorem State.setPkt_puntBkt (p : Nat) (x : Option Pkt) : (s.setPkt p x).puntBkt = s.puntBkt := rfl

@[simp] theorem State.count_pending (o k : Nat) : (s.count o k).pending = s.pending := rfl
@[simp] theorem State.count_now (o k : Nat) : (s.count o k).now = s.now := rfl
@[simp] theorem State.count_freeCtr (o k : Nat) : (s.count o k).freeCtr = s.freeCtr := rfl
@[simp] theorem State.count_regs (o k : Nat) : (s.count o k).regs = s.regs := rfl
@[simp] theorem State.count_ws (o k : Nat) : (s.count o k).ws = s.ws := rfl
@[simp] theorem State.count_mem (o k : Nat) : (s.count o k).mem = s.mem := rfl
@[simp] theorem State.count_boot (o k : Nat) : (s.count o k).boot = s.boot := rfl
@[simp] theorem State.count_pkts (o k : Nat) : (s.count o k).pkts = s.pkts := rfl
@[simp] theorem State.count_nextPkt (o k : Nat) : (s.count o k).nextPkt = s.nextPkt := rfl
@[simp] theorem State.count_nextOrder (o k : Nat) : (s.count o k).nextOrder = s.nextOrder := rfl
@[simp] theorem State.count_bat (o k : Nat) : (s.count o k).bat = s.bat := rfl
@[simp] theorem State.count_warp (o k : Nat) : (s.count o k).warp = s.warp := rfl
@[simp] theorem State.count_reed (o k : Nat) : (s.count o k).reed = s.reed := rfl
@[simp] theorem State.count_twill (o k : Nat) : (s.count o k).twill = s.twill := rfl
@[simp] theorem State.count_learn (o k : Nat) : (s.count o k).learn = s.learn := rfl
@[simp] theorem State.count_beam (o k : Nat) : (s.count o k).beam = s.beam := rfl
@[simp] theorem State.count_selv (o k : Nat) : (s.count o k).selv = s.selv := rfl
@[simp] theorem State.count_creel (o k : Nat) : (s.count o k).creel = s.creel := rfl
@[simp] theorem State.count_time (o k : Nat) : (s.count o k).time = s.time := rfl
@[simp] theorem State.count_spin (o k : Nat) : (s.count o k).spin = s.spin := rfl
@[simp] theorem State.count_host (o k : Nat) : (s.count o k).host = s.host := rfl
@[simp] theorem State.count_tension (o k : Nat) : (s.count o k).tension = s.tension := rfl
@[simp] theorem State.count_digest (o k : Nat) : (s.count o k).digest = s.digest := rfl
@[simp] theorem State.count_pins (o k : Nat) : (s.count o k).pins = s.pins := rfl
@[simp] theorem State.count_puntBkt (o k : Nat) : (s.count o k).puntBkt = s.puntBkt := rfl

@[simp] theorem State.updDom_pending (d : Nat) (f : DomSt → DomSt) : (s.updDom d f).pending = s.pending := rfl
@[simp] theorem State.updDom_now (d : Nat) (f : DomSt → DomSt) : (s.updDom d f).now = s.now := rfl
@[simp] theorem State.updDom_freeCtr (d : Nat) (f : DomSt → DomSt) : (s.updDom d f).freeCtr = s.freeCtr := rfl
@[simp] theorem State.updDom_regs (d : Nat) (f : DomSt → DomSt) : (s.updDom d f).regs = s.regs := rfl
@[simp] theorem State.updDom_ws (d : Nat) (f : DomSt → DomSt) : (s.updDom d f).ws = s.ws := rfl
@[simp] theorem State.updDom_mem (d : Nat) (f : DomSt → DomSt) : (s.updDom d f).mem = s.mem := rfl
@[simp] theorem State.updDom_boot (d : Nat) (f : DomSt → DomSt) : (s.updDom d f).boot = s.boot := rfl
@[simp] theorem State.updDom_pkts (d : Nat) (f : DomSt → DomSt) : (s.updDom d f).pkts = s.pkts := rfl
@[simp] theorem State.updDom_nextPkt (d : Nat) (f : DomSt → DomSt) : (s.updDom d f).nextPkt = s.nextPkt := rfl
@[simp] theorem State.updDom_nextOrder (d : Nat) (f : DomSt → DomSt) : (s.updDom d f).nextOrder = s.nextOrder := rfl
@[simp] theorem State.updDom_bat (d : Nat) (f : DomSt → DomSt) : (s.updDom d f).bat = s.bat := rfl
@[simp] theorem State.updDom_warp (d : Nat) (f : DomSt → DomSt) : (s.updDom d f).warp = s.warp := rfl
@[simp] theorem State.updDom_reed (d : Nat) (f : DomSt → DomSt) : (s.updDom d f).reed = s.reed := rfl
@[simp] theorem State.updDom_twill (d : Nat) (f : DomSt → DomSt) : (s.updDom d f).twill = s.twill := rfl
@[simp] theorem State.updDom_learn (d : Nat) (f : DomSt → DomSt) : (s.updDom d f).learn = s.learn := rfl
@[simp] theorem State.updDom_beam (d : Nat) (f : DomSt → DomSt) : (s.updDom d f).beam = s.beam := rfl
@[simp] theorem State.updDom_selv (d : Nat) (f : DomSt → DomSt) : (s.updDom d f).selv = s.selv := rfl
@[simp] theorem State.updDom_creel (d : Nat) (f : DomSt → DomSt) : (s.updDom d f).creel = s.creel := rfl
@[simp] theorem State.updDom_spin (d : Nat) (f : DomSt → DomSt) : (s.updDom d f).spin = s.spin := rfl
@[simp] theorem State.updDom_host (d : Nat) (f : DomSt → DomSt) : (s.updDom d f).host = s.host := rfl
@[simp] theorem State.updDom_tension (d : Nat) (f : DomSt → DomSt) : (s.updDom d f).tension = s.tension := rfl
@[simp] theorem State.updDom_glass (d : Nat) (f : DomSt → DomSt) : (s.updDom d f).glass = s.glass := rfl
@[simp] theorem State.updDom_digest (d : Nat) (f : DomSt → DomSt) : (s.updDom d f).digest = s.digest := rfl
@[simp] theorem State.updDom_pins (d : Nat) (f : DomSt → DomSt) : (s.updDom d f).pins = s.pins := rfl
@[simp] theorem State.updDom_puntBkt (d : Nat) (f : DomSt → DomSt) : (s.updDom d f).puntBkt = s.puntBkt := rfl

@[simp] theorem State.updPort_pending (p : Nat) (f : PortSt → PortSt) : (s.updPort p f).pending = s.pending := rfl
@[simp] theorem State.updPort_now (p : Nat) (f : PortSt → PortSt) : (s.updPort p f).now = s.now := rfl
@[simp] theorem State.updPort_freeCtr (p : Nat) (f : PortSt → PortSt) : (s.updPort p f).freeCtr = s.freeCtr := rfl
@[simp] theorem State.updPort_regs (p : Nat) (f : PortSt → PortSt) : (s.updPort p f).regs = s.regs := rfl
@[simp] theorem State.updPort_ws (p : Nat) (f : PortSt → PortSt) : (s.updPort p f).ws = s.ws := rfl
@[simp] theorem State.updPort_mem (p : Nat) (f : PortSt → PortSt) : (s.updPort p f).mem = s.mem := rfl
@[simp] theorem State.updPort_boot (p : Nat) (f : PortSt → PortSt) : (s.updPort p f).boot = s.boot := rfl
@[simp] theorem State.updPort_pkts (p : Nat) (f : PortSt → PortSt) : (s.updPort p f).pkts = s.pkts := rfl
@[simp] theorem State.updPort_nextPkt (p : Nat) (f : PortSt → PortSt) : (s.updPort p f).nextPkt = s.nextPkt := rfl
@[simp] theorem State.updPort_nextOrder (p : Nat) (f : PortSt → PortSt) : (s.updPort p f).nextOrder = s.nextOrder := rfl
@[simp] theorem State.updPort_bat (p : Nat) (f : PortSt → PortSt) : (s.updPort p f).bat = s.bat := rfl
@[simp] theorem State.updPort_warp (p : Nat) (f : PortSt → PortSt) : (s.updPort p f).warp = s.warp := rfl
@[simp] theorem State.updPort_reed (p : Nat) (f : PortSt → PortSt) : (s.updPort p f).reed = s.reed := rfl
@[simp] theorem State.updPort_twill (p : Nat) (f : PortSt → PortSt) : (s.updPort p f).twill = s.twill := rfl
@[simp] theorem State.updPort_learn (p : Nat) (f : PortSt → PortSt) : (s.updPort p f).learn = s.learn := rfl
@[simp] theorem State.updPort_beam (p : Nat) (f : PortSt → PortSt) : (s.updPort p f).beam = s.beam := rfl
@[simp] theorem State.updPort_creel (p : Nat) (f : PortSt → PortSt) : (s.updPort p f).creel = s.creel := rfl
@[simp] theorem State.updPort_time (p : Nat) (f : PortSt → PortSt) : (s.updPort p f).time = s.time := rfl
@[simp] theorem State.updPort_spin (p : Nat) (f : PortSt → PortSt) : (s.updPort p f).spin = s.spin := rfl
@[simp] theorem State.updPort_host (p : Nat) (f : PortSt → PortSt) : (s.updPort p f).host = s.host := rfl
@[simp] theorem State.updPort_tension (p : Nat) (f : PortSt → PortSt) : (s.updPort p f).tension = s.tension := rfl
@[simp] theorem State.updPort_glass (p : Nat) (f : PortSt → PortSt) : (s.updPort p f).glass = s.glass := rfl
@[simp] theorem State.updPort_digest (p : Nat) (f : PortSt → PortSt) : (s.updPort p f).digest = s.digest := rfl
@[simp] theorem State.updPort_pins (p : Nat) (f : PortSt → PortSt) : (s.updPort p f).pins = s.pins := rfl
@[simp] theorem State.updPort_puntBkt (p : Nat) (f : PortSt → PortSt) : (s.updPort p f).puntBkt = s.puntBkt := rfl

@[simp] theorem State.updChan_pending (c : Nat) (f : Chan → Chan) : (s.updChan c f).pending = s.pending := rfl
@[simp] theorem State.updChan_now (c : Nat) (f : Chan → Chan) : (s.updChan c f).now = s.now := rfl
@[simp] theorem State.updChan_freeCtr (c : Nat) (f : Chan → Chan) : (s.updChan c f).freeCtr = s.freeCtr := rfl
@[simp] theorem State.updChan_regs (c : Nat) (f : Chan → Chan) : (s.updChan c f).regs = s.regs := rfl
@[simp] theorem State.updChan_ws (c : Nat) (f : Chan → Chan) : (s.updChan c f).ws = s.ws := rfl
@[simp] theorem State.updChan_mem (c : Nat) (f : Chan → Chan) : (s.updChan c f).mem = s.mem := rfl
@[simp] theorem State.updChan_boot (c : Nat) (f : Chan → Chan) : (s.updChan c f).boot = s.boot := rfl
@[simp] theorem State.updChan_pkts (c : Nat) (f : Chan → Chan) : (s.updChan c f).pkts = s.pkts := rfl
@[simp] theorem State.updChan_nextPkt (c : Nat) (f : Chan → Chan) : (s.updChan c f).nextPkt = s.nextPkt := rfl
@[simp] theorem State.updChan_nextOrder (c : Nat) (f : Chan → Chan) : (s.updChan c f).nextOrder = s.nextOrder := rfl
@[simp] theorem State.updChan_bat (c : Nat) (f : Chan → Chan) : (s.updChan c f).bat = s.bat := rfl
@[simp] theorem State.updChan_warp (c : Nat) (f : Chan → Chan) : (s.updChan c f).warp = s.warp := rfl
@[simp] theorem State.updChan_reed (c : Nat) (f : Chan → Chan) : (s.updChan c f).reed = s.reed := rfl
@[simp] theorem State.updChan_twill (c : Nat) (f : Chan → Chan) : (s.updChan c f).twill = s.twill := rfl
@[simp] theorem State.updChan_learn (c : Nat) (f : Chan → Chan) : (s.updChan c f).learn = s.learn := rfl
@[simp] theorem State.updChan_beam (c : Nat) (f : Chan → Chan) : (s.updChan c f).beam = s.beam := rfl
@[simp] theorem State.updChan_selv (c : Nat) (f : Chan → Chan) : (s.updChan c f).selv = s.selv := rfl
@[simp] theorem State.updChan_time (c : Nat) (f : Chan → Chan) : (s.updChan c f).time = s.time := rfl
@[simp] theorem State.updChan_spin (c : Nat) (f : Chan → Chan) : (s.updChan c f).spin = s.spin := rfl
@[simp] theorem State.updChan_host (c : Nat) (f : Chan → Chan) : (s.updChan c f).host = s.host := rfl
@[simp] theorem State.updChan_tension (c : Nat) (f : Chan → Chan) : (s.updChan c f).tension = s.tension := rfl
@[simp] theorem State.updChan_glass (c : Nat) (f : Chan → Chan) : (s.updChan c f).glass = s.glass := rfl
@[simp] theorem State.updChan_digest (c : Nat) (f : Chan → Chan) : (s.updChan c f).digest = s.digest := rfl
@[simp] theorem State.updChan_pins (c : Nat) (f : Chan → Chan) : (s.updChan c f).pins = s.pins := rfl
@[simp] theorem State.updChan_puntBkt (c : Nat) (f : Chan → Chan) : (s.updChan c f).puntBkt = s.puntBkt := rfl

@[simp] theorem State.setRetire_pending (k : Nat) (r : Option Retire) : (s.setRetire k r).pending = s.pending := rfl
@[simp] theorem State.setRetire_now (k : Nat) (r : Option Retire) : (s.setRetire k r).now = s.now := rfl
@[simp] theorem State.setRetire_freeCtr (k : Nat) (r : Option Retire) : (s.setRetire k r).freeCtr = s.freeCtr := rfl
@[simp] theorem State.setRetire_regs (k : Nat) (r : Option Retire) : (s.setRetire k r).regs = s.regs := rfl
@[simp] theorem State.setRetire_ws (k : Nat) (r : Option Retire) : (s.setRetire k r).ws = s.ws := rfl
@[simp] theorem State.setRetire_mem (k : Nat) (r : Option Retire) : (s.setRetire k r).mem = s.mem := rfl
@[simp] theorem State.setRetire_boot (k : Nat) (r : Option Retire) : (s.setRetire k r).boot = s.boot := rfl
@[simp] theorem State.setRetire_pkts (k : Nat) (r : Option Retire) : (s.setRetire k r).pkts = s.pkts := rfl
@[simp] theorem State.setRetire_nextPkt (k : Nat) (r : Option Retire) : (s.setRetire k r).nextPkt = s.nextPkt := rfl
@[simp] theorem State.setRetire_nextOrder (k : Nat) (r : Option Retire) : (s.setRetire k r).nextOrder = s.nextOrder := rfl
@[simp] theorem State.setRetire_bat (k : Nat) (r : Option Retire) : (s.setRetire k r).bat = s.bat := rfl
@[simp] theorem State.setRetire_warp (k : Nat) (r : Option Retire) : (s.setRetire k r).warp = s.warp := rfl
@[simp] theorem State.setRetire_reed (k : Nat) (r : Option Retire) : (s.setRetire k r).reed = s.reed := rfl
@[simp] theorem State.setRetire_twill (k : Nat) (r : Option Retire) : (s.setRetire k r).twill = s.twill := rfl
@[simp] theorem State.setRetire_learn (k : Nat) (r : Option Retire) : (s.setRetire k r).learn = s.learn := rfl
@[simp] theorem State.setRetire_beam (k : Nat) (r : Option Retire) : (s.setRetire k r).beam = s.beam := rfl
@[simp] theorem State.setRetire_selv (k : Nat) (r : Option Retire) : (s.setRetire k r).selv = s.selv := rfl
@[simp] theorem State.setRetire_time (k : Nat) (r : Option Retire) : (s.setRetire k r).time = s.time := rfl
@[simp] theorem State.setRetire_spin (k : Nat) (r : Option Retire) : (s.setRetire k r).spin = s.spin := rfl
@[simp] theorem State.setRetire_host (k : Nat) (r : Option Retire) : (s.setRetire k r).host = s.host := rfl
@[simp] theorem State.setRetire_tension (k : Nat) (r : Option Retire) : (s.setRetire k r).tension = s.tension := rfl
@[simp] theorem State.setRetire_glass (k : Nat) (r : Option Retire) : (s.setRetire k r).glass = s.glass := rfl
@[simp] theorem State.setRetire_digest (k : Nat) (r : Option Retire) : (s.setRetire k r).digest = s.digest := rfl
@[simp] theorem State.setRetire_pins (k : Nat) (r : Option Retire) : (s.setRetire k r).pins = s.pins := rfl
@[simp] theorem State.setRetire_puntBkt (k : Nat) (r : Option Retire) : (s.setRetire k r).puntBkt = s.puntBkt := rfl

@[simp] theorem State.setAcct_pending (a : Nat) (v : Acct) : (s.setAcct a v).pending = s.pending := rfl
@[simp] theorem State.setAcct_now (a : Nat) (v : Acct) : (s.setAcct a v).now = s.now := rfl
@[simp] theorem State.setAcct_freeCtr (a : Nat) (v : Acct) : (s.setAcct a v).freeCtr = s.freeCtr := rfl
@[simp] theorem State.setAcct_regs (a : Nat) (v : Acct) : (s.setAcct a v).regs = s.regs := rfl
@[simp] theorem State.setAcct_ws (a : Nat) (v : Acct) : (s.setAcct a v).ws = s.ws := rfl
@[simp] theorem State.setAcct_mem (a : Nat) (v : Acct) : (s.setAcct a v).mem = s.mem := rfl
@[simp] theorem State.setAcct_boot (a : Nat) (v : Acct) : (s.setAcct a v).boot = s.boot := rfl
@[simp] theorem State.setAcct_pkts (a : Nat) (v : Acct) : (s.setAcct a v).pkts = s.pkts := rfl
@[simp] theorem State.setAcct_nextPkt (a : Nat) (v : Acct) : (s.setAcct a v).nextPkt = s.nextPkt := rfl
@[simp] theorem State.setAcct_nextOrder (a : Nat) (v : Acct) : (s.setAcct a v).nextOrder = s.nextOrder := rfl
@[simp] theorem State.setAcct_bat (a : Nat) (v : Acct) : (s.setAcct a v).bat = s.bat := rfl
@[simp] theorem State.setAcct_warp (a : Nat) (v : Acct) : (s.setAcct a v).warp = s.warp := rfl
@[simp] theorem State.setAcct_reed (a : Nat) (v : Acct) : (s.setAcct a v).reed = s.reed := rfl
@[simp] theorem State.setAcct_twill (a : Nat) (v : Acct) : (s.setAcct a v).twill = s.twill := rfl
@[simp] theorem State.setAcct_learn (a : Nat) (v : Acct) : (s.setAcct a v).learn = s.learn := rfl
@[simp] theorem State.setAcct_selv (a : Nat) (v : Acct) : (s.setAcct a v).selv = s.selv := rfl
@[simp] theorem State.setAcct_creel (a : Nat) (v : Acct) : (s.setAcct a v).creel = s.creel := rfl
@[simp] theorem State.setAcct_time (a : Nat) (v : Acct) : (s.setAcct a v).time = s.time := rfl
@[simp] theorem State.setAcct_spin (a : Nat) (v : Acct) : (s.setAcct a v).spin = s.spin := rfl
@[simp] theorem State.setAcct_host (a : Nat) (v : Acct) : (s.setAcct a v).host = s.host := rfl
@[simp] theorem State.setAcct_tension (a : Nat) (v : Acct) : (s.setAcct a v).tension = s.tension := rfl
@[simp] theorem State.setAcct_glass (a : Nat) (v : Acct) : (s.setAcct a v).glass = s.glass := rfl
@[simp] theorem State.setAcct_digest (a : Nat) (v : Acct) : (s.setAcct a v).digest = s.digest := rfl
@[simp] theorem State.setAcct_pins (a : Nat) (v : Acct) : (s.setAcct a v).pins = s.pins := rfl
@[simp] theorem State.setAcct_puntBkt (a : Nat) (v : Acct) : (s.setAcct a v).puntBkt = s.puntBkt := rfl

@[simp] theorem State.setQueue_pending (i : Nat) (l : List Copy) : (s.setQueue i l).pending = s.pending := rfl
@[simp] theorem State.setQueue_now (i : Nat) (l : List Copy) : (s.setQueue i l).now = s.now := rfl
@[simp] theorem State.setQueue_freeCtr (i : Nat) (l : List Copy) : (s.setQueue i l).freeCtr = s.freeCtr := rfl
@[simp] theorem State.setQueue_regs (i : Nat) (l : List Copy) : (s.setQueue i l).regs = s.regs := rfl
@[simp] theorem State.setQueue_ws (i : Nat) (l : List Copy) : (s.setQueue i l).ws = s.ws := rfl
@[simp] theorem State.setQueue_mem (i : Nat) (l : List Copy) : (s.setQueue i l).mem = s.mem := rfl
@[simp] theorem State.setQueue_boot (i : Nat) (l : List Copy) : (s.setQueue i l).boot = s.boot := rfl
@[simp] theorem State.setQueue_pkts (i : Nat) (l : List Copy) : (s.setQueue i l).pkts = s.pkts := rfl
@[simp] theorem State.setQueue_nextPkt (i : Nat) (l : List Copy) : (s.setQueue i l).nextPkt = s.nextPkt := rfl
@[simp] theorem State.setQueue_nextOrder (i : Nat) (l : List Copy) : (s.setQueue i l).nextOrder = s.nextOrder := rfl
@[simp] theorem State.setQueue_bat (i : Nat) (l : List Copy) : (s.setQueue i l).bat = s.bat := rfl
@[simp] theorem State.setQueue_warp (i : Nat) (l : List Copy) : (s.setQueue i l).warp = s.warp := rfl
@[simp] theorem State.setQueue_reed (i : Nat) (l : List Copy) : (s.setQueue i l).reed = s.reed := rfl
@[simp] theorem State.setQueue_twill (i : Nat) (l : List Copy) : (s.setQueue i l).twill = s.twill := rfl
@[simp] theorem State.setQueue_learn (i : Nat) (l : List Copy) : (s.setQueue i l).learn = s.learn := rfl
@[simp] theorem State.setQueue_selv (i : Nat) (l : List Copy) : (s.setQueue i l).selv = s.selv := rfl
@[simp] theorem State.setQueue_creel (i : Nat) (l : List Copy) : (s.setQueue i l).creel = s.creel := rfl
@[simp] theorem State.setQueue_time (i : Nat) (l : List Copy) : (s.setQueue i l).time = s.time := rfl
@[simp] theorem State.setQueue_spin (i : Nat) (l : List Copy) : (s.setQueue i l).spin = s.spin := rfl
@[simp] theorem State.setQueue_host (i : Nat) (l : List Copy) : (s.setQueue i l).host = s.host := rfl
@[simp] theorem State.setQueue_tension (i : Nat) (l : List Copy) : (s.setQueue i l).tension = s.tension := rfl
@[simp] theorem State.setQueue_glass (i : Nat) (l : List Copy) : (s.setQueue i l).glass = s.glass := rfl
@[simp] theorem State.setQueue_digest (i : Nat) (l : List Copy) : (s.setQueue i l).digest = s.digest := rfl
@[simp] theorem State.setQueue_pins (i : Nat) (l : List Copy) : (s.setQueue i l).pins = s.pins := rfl
@[simp] theorem State.setQueue_puntBkt (i : Nat) (l : List Copy) : (s.setQueue i l).puntBkt = s.puntBkt := rfl

@[simp] theorem State.setResidue_pending (i : Nat) (l : List Copy) : (s.setResidue i l).pending = s.pending := rfl
@[simp] theorem State.setResidue_now (i : Nat) (l : List Copy) : (s.setResidue i l).now = s.now := rfl
@[simp] theorem State.setResidue_freeCtr (i : Nat) (l : List Copy) : (s.setResidue i l).freeCtr = s.freeCtr := rfl
@[simp] theorem State.setResidue_regs (i : Nat) (l : List Copy) : (s.setResidue i l).regs = s.regs := rfl
@[simp] theorem State.setResidue_ws (i : Nat) (l : List Copy) : (s.setResidue i l).ws = s.ws := rfl
@[simp] theorem State.setResidue_mem (i : Nat) (l : List Copy) : (s.setResidue i l).mem = s.mem := rfl
@[simp] theorem State.setResidue_boot (i : Nat) (l : List Copy) : (s.setResidue i l).boot = s.boot := rfl
@[simp] theorem State.setResidue_pkts (i : Nat) (l : List Copy) : (s.setResidue i l).pkts = s.pkts := rfl
@[simp] theorem State.setResidue_nextPkt (i : Nat) (l : List Copy) : (s.setResidue i l).nextPkt = s.nextPkt := rfl
@[simp] theorem State.setResidue_nextOrder (i : Nat) (l : List Copy) : (s.setResidue i l).nextOrder = s.nextOrder := rfl
@[simp] theorem State.setResidue_bat (i : Nat) (l : List Copy) : (s.setResidue i l).bat = s.bat := rfl
@[simp] theorem State.setResidue_warp (i : Nat) (l : List Copy) : (s.setResidue i l).warp = s.warp := rfl
@[simp] theorem State.setResidue_reed (i : Nat) (l : List Copy) : (s.setResidue i l).reed = s.reed := rfl
@[simp] theorem State.setResidue_twill (i : Nat) (l : List Copy) : (s.setResidue i l).twill = s.twill := rfl
@[simp] theorem State.setResidue_learn (i : Nat) (l : List Copy) : (s.setResidue i l).learn = s.learn := rfl
@[simp] theorem State.setResidue_selv (i : Nat) (l : List Copy) : (s.setResidue i l).selv = s.selv := rfl
@[simp] theorem State.setResidue_creel (i : Nat) (l : List Copy) : (s.setResidue i l).creel = s.creel := rfl
@[simp] theorem State.setResidue_time (i : Nat) (l : List Copy) : (s.setResidue i l).time = s.time := rfl
@[simp] theorem State.setResidue_spin (i : Nat) (l : List Copy) : (s.setResidue i l).spin = s.spin := rfl
@[simp] theorem State.setResidue_host (i : Nat) (l : List Copy) : (s.setResidue i l).host = s.host := rfl
@[simp] theorem State.setResidue_tension (i : Nat) (l : List Copy) : (s.setResidue i l).tension = s.tension := rfl
@[simp] theorem State.setResidue_glass (i : Nat) (l : List Copy) : (s.setResidue i l).glass = s.glass := rfl
@[simp] theorem State.setResidue_digest (i : Nat) (l : List Copy) : (s.setResidue i l).digest = s.digest := rfl
@[simp] theorem State.setResidue_pins (i : Nat) (l : List Copy) : (s.setResidue i l).pins = s.pins := rfl
@[simp] theorem State.setResidue_puntBkt (i : Nat) (l : List Copy) : (s.setResidue i l).puntBkt = s.puntBkt := rfl

@[simp] theorem State.setCalled_pending (n : Nat) (l : List Called) : (s.setCalled n l).pending = s.pending := rfl
@[simp] theorem State.setCalled_now (n : Nat) (l : List Called) : (s.setCalled n l).now = s.now := rfl
@[simp] theorem State.setCalled_freeCtr (n : Nat) (l : List Called) : (s.setCalled n l).freeCtr = s.freeCtr := rfl
@[simp] theorem State.setCalled_regs (n : Nat) (l : List Called) : (s.setCalled n l).regs = s.regs := rfl
@[simp] theorem State.setCalled_ws (n : Nat) (l : List Called) : (s.setCalled n l).ws = s.ws := rfl
@[simp] theorem State.setCalled_mem (n : Nat) (l : List Called) : (s.setCalled n l).mem = s.mem := rfl
@[simp] theorem State.setCalled_boot (n : Nat) (l : List Called) : (s.setCalled n l).boot = s.boot := rfl
@[simp] theorem State.setCalled_pkts (n : Nat) (l : List Called) : (s.setCalled n l).pkts = s.pkts := rfl
@[simp] theorem State.setCalled_nextPkt (n : Nat) (l : List Called) : (s.setCalled n l).nextPkt = s.nextPkt := rfl
@[simp] theorem State.setCalled_nextOrder (n : Nat) (l : List Called) : (s.setCalled n l).nextOrder = s.nextOrder := rfl
@[simp] theorem State.setCalled_bat (n : Nat) (l : List Called) : (s.setCalled n l).bat = s.bat := rfl
@[simp] theorem State.setCalled_warp (n : Nat) (l : List Called) : (s.setCalled n l).warp = s.warp := rfl
@[simp] theorem State.setCalled_reed (n : Nat) (l : List Called) : (s.setCalled n l).reed = s.reed := rfl
@[simp] theorem State.setCalled_twill (n : Nat) (l : List Called) : (s.setCalled n l).twill = s.twill := rfl
@[simp] theorem State.setCalled_learn (n : Nat) (l : List Called) : (s.setCalled n l).learn = s.learn := rfl
@[simp] theorem State.setCalled_selv (n : Nat) (l : List Called) : (s.setCalled n l).selv = s.selv := rfl
@[simp] theorem State.setCalled_creel (n : Nat) (l : List Called) : (s.setCalled n l).creel = s.creel := rfl
@[simp] theorem State.setCalled_time (n : Nat) (l : List Called) : (s.setCalled n l).time = s.time := rfl
@[simp] theorem State.setCalled_spin (n : Nat) (l : List Called) : (s.setCalled n l).spin = s.spin := rfl
@[simp] theorem State.setCalled_host (n : Nat) (l : List Called) : (s.setCalled n l).host = s.host := rfl
@[simp] theorem State.setCalled_tension (n : Nat) (l : List Called) : (s.setCalled n l).tension = s.tension := rfl
@[simp] theorem State.setCalled_glass (n : Nat) (l : List Called) : (s.setCalled n l).glass = s.glass := rfl
@[simp] theorem State.setCalled_digest (n : Nat) (l : List Called) : (s.setCalled n l).digest = s.digest := rfl
@[simp] theorem State.setCalled_pins (n : Nat) (l : List Called) : (s.setCalled n l).pins = s.pins := rfl
@[simp] theorem State.setCalled_puntBkt (n : Nat) (l : List Called) : (s.setCalled n l).puntBkt = s.puntBkt := rfl

@[simp] theorem State.setTx_pending (p : Nat) (t : Option Tx) : (s.setTx p t).pending = s.pending := rfl
@[simp] theorem State.setTx_now (p : Nat) (t : Option Tx) : (s.setTx p t).now = s.now := rfl
@[simp] theorem State.setTx_freeCtr (p : Nat) (t : Option Tx) : (s.setTx p t).freeCtr = s.freeCtr := rfl
@[simp] theorem State.setTx_regs (p : Nat) (t : Option Tx) : (s.setTx p t).regs = s.regs := rfl
@[simp] theorem State.setTx_ws (p : Nat) (t : Option Tx) : (s.setTx p t).ws = s.ws := rfl
@[simp] theorem State.setTx_mem (p : Nat) (t : Option Tx) : (s.setTx p t).mem = s.mem := rfl
@[simp] theorem State.setTx_boot (p : Nat) (t : Option Tx) : (s.setTx p t).boot = s.boot := rfl
@[simp] theorem State.setTx_pkts (p : Nat) (t : Option Tx) : (s.setTx p t).pkts = s.pkts := rfl
@[simp] theorem State.setTx_nextPkt (p : Nat) (t : Option Tx) : (s.setTx p t).nextPkt = s.nextPkt := rfl
@[simp] theorem State.setTx_nextOrder (p : Nat) (t : Option Tx) : (s.setTx p t).nextOrder = s.nextOrder := rfl
@[simp] theorem State.setTx_bat (p : Nat) (t : Option Tx) : (s.setTx p t).bat = s.bat := rfl
@[simp] theorem State.setTx_warp (p : Nat) (t : Option Tx) : (s.setTx p t).warp = s.warp := rfl
@[simp] theorem State.setTx_reed (p : Nat) (t : Option Tx) : (s.setTx p t).reed = s.reed := rfl
@[simp] theorem State.setTx_twill (p : Nat) (t : Option Tx) : (s.setTx p t).twill = s.twill := rfl
@[simp] theorem State.setTx_learn (p : Nat) (t : Option Tx) : (s.setTx p t).learn = s.learn := rfl
@[simp] theorem State.setTx_selv (p : Nat) (t : Option Tx) : (s.setTx p t).selv = s.selv := rfl
@[simp] theorem State.setTx_creel (p : Nat) (t : Option Tx) : (s.setTx p t).creel = s.creel := rfl
@[simp] theorem State.setTx_time (p : Nat) (t : Option Tx) : (s.setTx p t).time = s.time := rfl
@[simp] theorem State.setTx_spin (p : Nat) (t : Option Tx) : (s.setTx p t).spin = s.spin := rfl
@[simp] theorem State.setTx_host (p : Nat) (t : Option Tx) : (s.setTx p t).host = s.host := rfl
@[simp] theorem State.setTx_tension (p : Nat) (t : Option Tx) : (s.setTx p t).tension = s.tension := rfl
@[simp] theorem State.setTx_glass (p : Nat) (t : Option Tx) : (s.setTx p t).glass = s.glass := rfl
@[simp] theorem State.setTx_digest (p : Nat) (t : Option Tx) : (s.setTx p t).digest = s.digest := rfl
@[simp] theorem State.setTx_pins (p : Nat) (t : Option Tx) : (s.setTx p t).pins = s.pins := rfl
@[simp] theorem State.setTx_puntBkt (p : Nat) (t : Option Tx) : (s.setTx p t).puntBkt = s.puntBkt := rfl

@[simp] theorem State.setLine_pending (l : Nat) (c : Option CLine) : (s.setLine l c).pending = s.pending := rfl
@[simp] theorem State.setLine_now (l : Nat) (c : Option CLine) : (s.setLine l c).now = s.now := rfl
@[simp] theorem State.setLine_freeCtr (l : Nat) (c : Option CLine) : (s.setLine l c).freeCtr = s.freeCtr := rfl
@[simp] theorem State.setLine_regs (l : Nat) (c : Option CLine) : (s.setLine l c).regs = s.regs := rfl
@[simp] theorem State.setLine_ws (l : Nat) (c : Option CLine) : (s.setLine l c).ws = s.ws := rfl
@[simp] theorem State.setLine_mem (l : Nat) (c : Option CLine) : (s.setLine l c).mem = s.mem := rfl
@[simp] theorem State.setLine_boot (l : Nat) (c : Option CLine) : (s.setLine l c).boot = s.boot := rfl
@[simp] theorem State.setLine_pkts (l : Nat) (c : Option CLine) : (s.setLine l c).pkts = s.pkts := rfl
@[simp] theorem State.setLine_nextPkt (l : Nat) (c : Option CLine) : (s.setLine l c).nextPkt = s.nextPkt := rfl
@[simp] theorem State.setLine_nextOrder (l : Nat) (c : Option CLine) : (s.setLine l c).nextOrder = s.nextOrder := rfl
@[simp] theorem State.setLine_bat (l : Nat) (c : Option CLine) : (s.setLine l c).bat = s.bat := rfl
@[simp] theorem State.setLine_reed (l : Nat) (c : Option CLine) : (s.setLine l c).reed = s.reed := rfl
@[simp] theorem State.setLine_twill (l : Nat) (c : Option CLine) : (s.setLine l c).twill = s.twill := rfl
@[simp] theorem State.setLine_learn (l : Nat) (c : Option CLine) : (s.setLine l c).learn = s.learn := rfl
@[simp] theorem State.setLine_beam (l : Nat) (c : Option CLine) : (s.setLine l c).beam = s.beam := rfl
@[simp] theorem State.setLine_selv (l : Nat) (c : Option CLine) : (s.setLine l c).selv = s.selv := rfl
@[simp] theorem State.setLine_creel (l : Nat) (c : Option CLine) : (s.setLine l c).creel = s.creel := rfl
@[simp] theorem State.setLine_time (l : Nat) (c : Option CLine) : (s.setLine l c).time = s.time := rfl
@[simp] theorem State.setLine_spin (l : Nat) (c : Option CLine) : (s.setLine l c).spin = s.spin := rfl
@[simp] theorem State.setLine_host (l : Nat) (c : Option CLine) : (s.setLine l c).host = s.host := rfl
@[simp] theorem State.setLine_tension (l : Nat) (c : Option CLine) : (s.setLine l c).tension = s.tension := rfl
@[simp] theorem State.setLine_glass (l : Nat) (c : Option CLine) : (s.setLine l c).glass = s.glass := rfl
@[simp] theorem State.setLine_digest (l : Nat) (c : Option CLine) : (s.setLine l c).digest = s.digest := rfl
@[simp] theorem State.setLine_pins (l : Nat) (c : Option CLine) : (s.setLine l c).pins = s.pins := rfl
@[simp] theorem State.setLine_puntBkt (l : Nat) (c : Option CLine) : (s.setLine l c).puntBkt = s.puntBkt := rfl

@[simp] theorem State.setVictims_pending (b : Nat) (v : List Victim) : (s.setVictims b v).pending = s.pending := rfl
@[simp] theorem State.setVictims_now (b : Nat) (v : List Victim) : (s.setVictims b v).now = s.now := rfl
@[simp] theorem State.setVictims_freeCtr (b : Nat) (v : List Victim) : (s.setVictims b v).freeCtr = s.freeCtr := rfl
@[simp] theorem State.setVictims_regs (b : Nat) (v : List Victim) : (s.setVictims b v).regs = s.regs := rfl
@[simp] theorem State.setVictims_ws (b : Nat) (v : List Victim) : (s.setVictims b v).ws = s.ws := rfl
@[simp] theorem State.setVictims_mem (b : Nat) (v : List Victim) : (s.setVictims b v).mem = s.mem := rfl
@[simp] theorem State.setVictims_boot (b : Nat) (v : List Victim) : (s.setVictims b v).boot = s.boot := rfl
@[simp] theorem State.setVictims_pkts (b : Nat) (v : List Victim) : (s.setVictims b v).pkts = s.pkts := rfl
@[simp] theorem State.setVictims_nextPkt (b : Nat) (v : List Victim) : (s.setVictims b v).nextPkt = s.nextPkt := rfl
@[simp] theorem State.setVictims_nextOrder (b : Nat) (v : List Victim) : (s.setVictims b v).nextOrder = s.nextOrder := rfl
@[simp] theorem State.setVictims_bat (b : Nat) (v : List Victim) : (s.setVictims b v).bat = s.bat := rfl
@[simp] theorem State.setVictims_reed (b : Nat) (v : List Victim) : (s.setVictims b v).reed = s.reed := rfl
@[simp] theorem State.setVictims_twill (b : Nat) (v : List Victim) : (s.setVictims b v).twill = s.twill := rfl
@[simp] theorem State.setVictims_learn (b : Nat) (v : List Victim) : (s.setVictims b v).learn = s.learn := rfl
@[simp] theorem State.setVictims_beam (b : Nat) (v : List Victim) : (s.setVictims b v).beam = s.beam := rfl
@[simp] theorem State.setVictims_selv (b : Nat) (v : List Victim) : (s.setVictims b v).selv = s.selv := rfl
@[simp] theorem State.setVictims_creel (b : Nat) (v : List Victim) : (s.setVictims b v).creel = s.creel := rfl
@[simp] theorem State.setVictims_time (b : Nat) (v : List Victim) : (s.setVictims b v).time = s.time := rfl
@[simp] theorem State.setVictims_spin (b : Nat) (v : List Victim) : (s.setVictims b v).spin = s.spin := rfl
@[simp] theorem State.setVictims_host (b : Nat) (v : List Victim) : (s.setVictims b v).host = s.host := rfl
@[simp] theorem State.setVictims_tension (b : Nat) (v : List Victim) : (s.setVictims b v).tension = s.tension := rfl
@[simp] theorem State.setVictims_glass (b : Nat) (v : List Victim) : (s.setVictims b v).glass = s.glass := rfl
@[simp] theorem State.setVictims_digest (b : Nat) (v : List Victim) : (s.setVictims b v).digest = s.digest := rfl
@[simp] theorem State.setVictims_pins (b : Nat) (v : List Victim) : (s.setVictims b v).pins = s.pins := rfl
@[simp] theorem State.setVictims_puntBkt (b : Nat) (v : List Victim) : (s.setVictims b v).puntBkt = s.puntBkt := rfl

@[simp] theorem State.setLock_pending (n : Nat) (l : Option Lock) : (s.setLock n l).pending = s.pending := rfl
@[simp] theorem State.setLock_now (n : Nat) (l : Option Lock) : (s.setLock n l).now = s.now := rfl
@[simp] theorem State.setLock_freeCtr (n : Nat) (l : Option Lock) : (s.setLock n l).freeCtr = s.freeCtr := rfl
@[simp] theorem State.setLock_regs (n : Nat) (l : Option Lock) : (s.setLock n l).regs = s.regs := rfl
@[simp] theorem State.setLock_ws (n : Nat) (l : Option Lock) : (s.setLock n l).ws = s.ws := rfl
@[simp] theorem State.setLock_mem (n : Nat) (l : Option Lock) : (s.setLock n l).mem = s.mem := rfl
@[simp] theorem State.setLock_boot (n : Nat) (l : Option Lock) : (s.setLock n l).boot = s.boot := rfl
@[simp] theorem State.setLock_pkts (n : Nat) (l : Option Lock) : (s.setLock n l).pkts = s.pkts := rfl
@[simp] theorem State.setLock_nextPkt (n : Nat) (l : Option Lock) : (s.setLock n l).nextPkt = s.nextPkt := rfl
@[simp] theorem State.setLock_nextOrder (n : Nat) (l : Option Lock) : (s.setLock n l).nextOrder = s.nextOrder := rfl
@[simp] theorem State.setLock_bat (n : Nat) (l : Option Lock) : (s.setLock n l).bat = s.bat := rfl
@[simp] theorem State.setLock_warp (n : Nat) (l : Option Lock) : (s.setLock n l).warp = s.warp := rfl
@[simp] theorem State.setLock_reed (n : Nat) (l : Option Lock) : (s.setLock n l).reed = s.reed := rfl
@[simp] theorem State.setLock_twill (n : Nat) (l : Option Lock) : (s.setLock n l).twill = s.twill := rfl
@[simp] theorem State.setLock_learn (n : Nat) (l : Option Lock) : (s.setLock n l).learn = s.learn := rfl
@[simp] theorem State.setLock_beam (n : Nat) (l : Option Lock) : (s.setLock n l).beam = s.beam := rfl
@[simp] theorem State.setLock_selv (n : Nat) (l : Option Lock) : (s.setLock n l).selv = s.selv := rfl
@[simp] theorem State.setLock_creel (n : Nat) (l : Option Lock) : (s.setLock n l).creel = s.creel := rfl
@[simp] theorem State.setLock_time (n : Nat) (l : Option Lock) : (s.setLock n l).time = s.time := rfl
@[simp] theorem State.setLock_host (n : Nat) (l : Option Lock) : (s.setLock n l).host = s.host := rfl
@[simp] theorem State.setLock_tension (n : Nat) (l : Option Lock) : (s.setLock n l).tension = s.tension := rfl
@[simp] theorem State.setLock_glass (n : Nat) (l : Option Lock) : (s.setLock n l).glass = s.glass := rfl
@[simp] theorem State.setLock_digest (n : Nat) (l : Option Lock) : (s.setLock n l).digest = s.digest := rfl
@[simp] theorem State.setLock_pins (n : Nat) (l : Option Lock) : (s.setLock n l).pins = s.pins := rfl
@[simp] theorem State.setLock_puntBkt (n : Nat) (l : Option Lock) : (s.setLock n l).puntBkt = s.puntBkt := rfl

@[simp] theorem State.setSqueue_pending (q : Nat) (x : SQueue) : (s.setSqueue q x).pending = s.pending := rfl
@[simp] theorem State.setSqueue_now (q : Nat) (x : SQueue) : (s.setSqueue q x).now = s.now := rfl
@[simp] theorem State.setSqueue_freeCtr (q : Nat) (x : SQueue) : (s.setSqueue q x).freeCtr = s.freeCtr := rfl
@[simp] theorem State.setSqueue_regs (q : Nat) (x : SQueue) : (s.setSqueue q x).regs = s.regs := rfl
@[simp] theorem State.setSqueue_ws (q : Nat) (x : SQueue) : (s.setSqueue q x).ws = s.ws := rfl
@[simp] theorem State.setSqueue_mem (q : Nat) (x : SQueue) : (s.setSqueue q x).mem = s.mem := rfl
@[simp] theorem State.setSqueue_boot (q : Nat) (x : SQueue) : (s.setSqueue q x).boot = s.boot := rfl
@[simp] theorem State.setSqueue_pkts (q : Nat) (x : SQueue) : (s.setSqueue q x).pkts = s.pkts := rfl
@[simp] theorem State.setSqueue_nextPkt (q : Nat) (x : SQueue) : (s.setSqueue q x).nextPkt = s.nextPkt := rfl
@[simp] theorem State.setSqueue_nextOrder (q : Nat) (x : SQueue) : (s.setSqueue q x).nextOrder = s.nextOrder := rfl
@[simp] theorem State.setSqueue_bat (q : Nat) (x : SQueue) : (s.setSqueue q x).bat = s.bat := rfl
@[simp] theorem State.setSqueue_warp (q : Nat) (x : SQueue) : (s.setSqueue q x).warp = s.warp := rfl
@[simp] theorem State.setSqueue_reed (q : Nat) (x : SQueue) : (s.setSqueue q x).reed = s.reed := rfl
@[simp] theorem State.setSqueue_twill (q : Nat) (x : SQueue) : (s.setSqueue q x).twill = s.twill := rfl
@[simp] theorem State.setSqueue_learn (q : Nat) (x : SQueue) : (s.setSqueue q x).learn = s.learn := rfl
@[simp] theorem State.setSqueue_beam (q : Nat) (x : SQueue) : (s.setSqueue q x).beam = s.beam := rfl
@[simp] theorem State.setSqueue_selv (q : Nat) (x : SQueue) : (s.setSqueue q x).selv = s.selv := rfl
@[simp] theorem State.setSqueue_creel (q : Nat) (x : SQueue) : (s.setSqueue q x).creel = s.creel := rfl
@[simp] theorem State.setSqueue_time (q : Nat) (x : SQueue) : (s.setSqueue q x).time = s.time := rfl
@[simp] theorem State.setSqueue_host (q : Nat) (x : SQueue) : (s.setSqueue q x).host = s.host := rfl
@[simp] theorem State.setSqueue_tension (q : Nat) (x : SQueue) : (s.setSqueue q x).tension = s.tension := rfl
@[simp] theorem State.setSqueue_glass (q : Nat) (x : SQueue) : (s.setSqueue q x).glass = s.glass := rfl
@[simp] theorem State.setSqueue_digest (q : Nat) (x : SQueue) : (s.setSqueue q x).digest = s.digest := rfl
@[simp] theorem State.setSqueue_pins (q : Nat) (x : SQueue) : (s.setSqueue q x).pins = s.pins := rfl
@[simp] theorem State.setSqueue_puntBkt (q : Nat) (x : SQueue) : (s.setSqueue q x).puntBkt = s.puntBkt := rfl

@[simp] theorem State.setPortQ_pending (q : Nat) (l : List Nat) : (s.setPortQ q l).pending = s.pending := rfl
@[simp] theorem State.setPortQ_now (q : Nat) (l : List Nat) : (s.setPortQ q l).now = s.now := rfl
@[simp] theorem State.setPortQ_freeCtr (q : Nat) (l : List Nat) : (s.setPortQ q l).freeCtr = s.freeCtr := rfl
@[simp] theorem State.setPortQ_regs (q : Nat) (l : List Nat) : (s.setPortQ q l).regs = s.regs := rfl
@[simp] theorem State.setPortQ_ws (q : Nat) (l : List Nat) : (s.setPortQ q l).ws = s.ws := rfl
@[simp] theorem State.setPortQ_mem (q : Nat) (l : List Nat) : (s.setPortQ q l).mem = s.mem := rfl
@[simp] theorem State.setPortQ_boot (q : Nat) (l : List Nat) : (s.setPortQ q l).boot = s.boot := rfl
@[simp] theorem State.setPortQ_pkts (q : Nat) (l : List Nat) : (s.setPortQ q l).pkts = s.pkts := rfl
@[simp] theorem State.setPortQ_nextPkt (q : Nat) (l : List Nat) : (s.setPortQ q l).nextPkt = s.nextPkt := rfl
@[simp] theorem State.setPortQ_nextOrder (q : Nat) (l : List Nat) : (s.setPortQ q l).nextOrder = s.nextOrder := rfl
@[simp] theorem State.setPortQ_bat (q : Nat) (l : List Nat) : (s.setPortQ q l).bat = s.bat := rfl
@[simp] theorem State.setPortQ_warp (q : Nat) (l : List Nat) : (s.setPortQ q l).warp = s.warp := rfl
@[simp] theorem State.setPortQ_twill (q : Nat) (l : List Nat) : (s.setPortQ q l).twill = s.twill := rfl
@[simp] theorem State.setPortQ_learn (q : Nat) (l : List Nat) : (s.setPortQ q l).learn = s.learn := rfl
@[simp] theorem State.setPortQ_beam (q : Nat) (l : List Nat) : (s.setPortQ q l).beam = s.beam := rfl
@[simp] theorem State.setPortQ_selv (q : Nat) (l : List Nat) : (s.setPortQ q l).selv = s.selv := rfl
@[simp] theorem State.setPortQ_creel (q : Nat) (l : List Nat) : (s.setPortQ q l).creel = s.creel := rfl
@[simp] theorem State.setPortQ_time (q : Nat) (l : List Nat) : (s.setPortQ q l).time = s.time := rfl
@[simp] theorem State.setPortQ_spin (q : Nat) (l : List Nat) : (s.setPortQ q l).spin = s.spin := rfl
@[simp] theorem State.setPortQ_host (q : Nat) (l : List Nat) : (s.setPortQ q l).host = s.host := rfl
@[simp] theorem State.setPortQ_tension (q : Nat) (l : List Nat) : (s.setPortQ q l).tension = s.tension := rfl
@[simp] theorem State.setPortQ_glass (q : Nat) (l : List Nat) : (s.setPortQ q l).glass = s.glass := rfl
@[simp] theorem State.setPortQ_digest (q : Nat) (l : List Nat) : (s.setPortQ q l).digest = s.digest := rfl
@[simp] theorem State.setPortQ_pins (q : Nat) (l : List Nat) : (s.setPortQ q l).pins = s.pins := rfl
@[simp] theorem State.setPortQ_puntBkt (q : Nat) (l : List Nat) : (s.setPortQ q l).puntBkt = s.puntBkt := rfl

@[simp] theorem State.setEngine_pending (e : Nat) (l : List ScanReq) : (s.setEngine e l).pending = s.pending := rfl
@[simp] theorem State.setEngine_now (e : Nat) (l : List ScanReq) : (s.setEngine e l).now = s.now := rfl
@[simp] theorem State.setEngine_freeCtr (e : Nat) (l : List ScanReq) : (s.setEngine e l).freeCtr = s.freeCtr := rfl
@[simp] theorem State.setEngine_regs (e : Nat) (l : List ScanReq) : (s.setEngine e l).regs = s.regs := rfl
@[simp] theorem State.setEngine_ws (e : Nat) (l : List ScanReq) : (s.setEngine e l).ws = s.ws := rfl
@[simp] theorem State.setEngine_mem (e : Nat) (l : List ScanReq) : (s.setEngine e l).mem = s.mem := rfl
@[simp] theorem State.setEngine_boot (e : Nat) (l : List ScanReq) : (s.setEngine e l).boot = s.boot := rfl
@[simp] theorem State.setEngine_pkts (e : Nat) (l : List ScanReq) : (s.setEngine e l).pkts = s.pkts := rfl
@[simp] theorem State.setEngine_nextPkt (e : Nat) (l : List ScanReq) : (s.setEngine e l).nextPkt = s.nextPkt := rfl
@[simp] theorem State.setEngine_nextOrder (e : Nat) (l : List ScanReq) : (s.setEngine e l).nextOrder = s.nextOrder := rfl
@[simp] theorem State.setEngine_bat (e : Nat) (l : List ScanReq) : (s.setEngine e l).bat = s.bat := rfl
@[simp] theorem State.setEngine_warp (e : Nat) (l : List ScanReq) : (s.setEngine e l).warp = s.warp := rfl
@[simp] theorem State.setEngine_reed (e : Nat) (l : List ScanReq) : (s.setEngine e l).reed = s.reed := rfl
@[simp] theorem State.setEngine_learn (e : Nat) (l : List ScanReq) : (s.setEngine e l).learn = s.learn := rfl
@[simp] theorem State.setEngine_beam (e : Nat) (l : List ScanReq) : (s.setEngine e l).beam = s.beam := rfl
@[simp] theorem State.setEngine_selv (e : Nat) (l : List ScanReq) : (s.setEngine e l).selv = s.selv := rfl
@[simp] theorem State.setEngine_creel (e : Nat) (l : List ScanReq) : (s.setEngine e l).creel = s.creel := rfl
@[simp] theorem State.setEngine_time (e : Nat) (l : List ScanReq) : (s.setEngine e l).time = s.time := rfl
@[simp] theorem State.setEngine_spin (e : Nat) (l : List ScanReq) : (s.setEngine e l).spin = s.spin := rfl
@[simp] theorem State.setEngine_host (e : Nat) (l : List ScanReq) : (s.setEngine e l).host = s.host := rfl
@[simp] theorem State.setEngine_tension (e : Nat) (l : List ScanReq) : (s.setEngine e l).tension = s.tension := rfl
@[simp] theorem State.setEngine_glass (e : Nat) (l : List ScanReq) : (s.setEngine e l).glass = s.glass := rfl
@[simp] theorem State.setEngine_digest (e : Nat) (l : List ScanReq) : (s.setEngine e l).digest = s.digest := rfl
@[simp] theorem State.setEngine_pins (e : Nat) (l : List ScanReq) : (s.setEngine e l).pins = s.pins := rfl
@[simp] theorem State.setEngine_puntBkt (e : Nat) (l : List ScanReq) : (s.setEngine e l).puntBkt = s.puntBkt := rfl

@[simp] theorem State.setPulse_pending (j : Nat) (p : Pulse) : (s.setPulse j p).pending = s.pending := rfl
@[simp] theorem State.setPulse_now (j : Nat) (p : Pulse) : (s.setPulse j p).now = s.now := rfl
@[simp] theorem State.setPulse_freeCtr (j : Nat) (p : Pulse) : (s.setPulse j p).freeCtr = s.freeCtr := rfl
@[simp] theorem State.setPulse_regs (j : Nat) (p : Pulse) : (s.setPulse j p).regs = s.regs := rfl
@[simp] theorem State.setPulse_ws (j : Nat) (p : Pulse) : (s.setPulse j p).ws = s.ws := rfl
@[simp] theorem State.setPulse_mem (j : Nat) (p : Pulse) : (s.setPulse j p).mem = s.mem := rfl
@[simp] theorem State.setPulse_boot (j : Nat) (p : Pulse) : (s.setPulse j p).boot = s.boot := rfl
@[simp] theorem State.setPulse_pkts (j : Nat) (p : Pulse) : (s.setPulse j p).pkts = s.pkts := rfl
@[simp] theorem State.setPulse_nextPkt (j : Nat) (p : Pulse) : (s.setPulse j p).nextPkt = s.nextPkt := rfl
@[simp] theorem State.setPulse_nextOrder (j : Nat) (p : Pulse) : (s.setPulse j p).nextOrder = s.nextOrder := rfl
@[simp] theorem State.setPulse_bat (j : Nat) (p : Pulse) : (s.setPulse j p).bat = s.bat := rfl
@[simp] theorem State.setPulse_warp (j : Nat) (p : Pulse) : (s.setPulse j p).warp = s.warp := rfl
@[simp] theorem State.setPulse_reed (j : Nat) (p : Pulse) : (s.setPulse j p).reed = s.reed := rfl
@[simp] theorem State.setPulse_twill (j : Nat) (p : Pulse) : (s.setPulse j p).twill = s.twill := rfl
@[simp] theorem State.setPulse_learn (j : Nat) (p : Pulse) : (s.setPulse j p).learn = s.learn := rfl
@[simp] theorem State.setPulse_beam (j : Nat) (p : Pulse) : (s.setPulse j p).beam = s.beam := rfl
@[simp] theorem State.setPulse_selv (j : Nat) (p : Pulse) : (s.setPulse j p).selv = s.selv := rfl
@[simp] theorem State.setPulse_creel (j : Nat) (p : Pulse) : (s.setPulse j p).creel = s.creel := rfl
@[simp] theorem State.setPulse_spin (j : Nat) (p : Pulse) : (s.setPulse j p).spin = s.spin := rfl
@[simp] theorem State.setPulse_host (j : Nat) (p : Pulse) : (s.setPulse j p).host = s.host := rfl
@[simp] theorem State.setPulse_tension (j : Nat) (p : Pulse) : (s.setPulse j p).tension = s.tension := rfl
@[simp] theorem State.setPulse_glass (j : Nat) (p : Pulse) : (s.setPulse j p).glass = s.glass := rfl
@[simp] theorem State.setPulse_digest (j : Nat) (p : Pulse) : (s.setPulse j p).digest = s.digest := rfl
@[simp] theorem State.setPulse_puntBkt (j : Nat) (p : Pulse) : (s.setPulse j p).puntBkt = s.puntBkt := rfl

@[simp] theorem State.setCapture_pending (i : Nat) (c : Capture) : (s.setCapture i c).pending = s.pending := rfl
@[simp] theorem State.setCapture_now (i : Nat) (c : Capture) : (s.setCapture i c).now = s.now := rfl
@[simp] theorem State.setCapture_freeCtr (i : Nat) (c : Capture) : (s.setCapture i c).freeCtr = s.freeCtr := rfl
@[simp] theorem State.setCapture_regs (i : Nat) (c : Capture) : (s.setCapture i c).regs = s.regs := rfl
@[simp] theorem State.setCapture_ws (i : Nat) (c : Capture) : (s.setCapture i c).ws = s.ws := rfl
@[simp] theorem State.setCapture_mem (i : Nat) (c : Capture) : (s.setCapture i c).mem = s.mem := rfl
@[simp] theorem State.setCapture_boot (i : Nat) (c : Capture) : (s.setCapture i c).boot = s.boot := rfl
@[simp] theorem State.setCapture_pkts (i : Nat) (c : Capture) : (s.setCapture i c).pkts = s.pkts := rfl
@[simp] theorem State.setCapture_nextPkt (i : Nat) (c : Capture) : (s.setCapture i c).nextPkt = s.nextPkt := rfl
@[simp] theorem State.setCapture_nextOrder (i : Nat) (c : Capture) : (s.setCapture i c).nextOrder = s.nextOrder := rfl
@[simp] theorem State.setCapture_bat (i : Nat) (c : Capture) : (s.setCapture i c).bat = s.bat := rfl
@[simp] theorem State.setCapture_warp (i : Nat) (c : Capture) : (s.setCapture i c).warp = s.warp := rfl
@[simp] theorem State.setCapture_reed (i : Nat) (c : Capture) : (s.setCapture i c).reed = s.reed := rfl
@[simp] theorem State.setCapture_twill (i : Nat) (c : Capture) : (s.setCapture i c).twill = s.twill := rfl
@[simp] theorem State.setCapture_learn (i : Nat) (c : Capture) : (s.setCapture i c).learn = s.learn := rfl
@[simp] theorem State.setCapture_beam (i : Nat) (c : Capture) : (s.setCapture i c).beam = s.beam := rfl
@[simp] theorem State.setCapture_selv (i : Nat) (c : Capture) : (s.setCapture i c).selv = s.selv := rfl
@[simp] theorem State.setCapture_creel (i : Nat) (c : Capture) : (s.setCapture i c).creel = s.creel := rfl
@[simp] theorem State.setCapture_spin (i : Nat) (c : Capture) : (s.setCapture i c).spin = s.spin := rfl
@[simp] theorem State.setCapture_host (i : Nat) (c : Capture) : (s.setCapture i c).host = s.host := rfl
@[simp] theorem State.setCapture_tension (i : Nat) (c : Capture) : (s.setCapture i c).tension = s.tension := rfl
@[simp] theorem State.setCapture_glass (i : Nat) (c : Capture) : (s.setCapture i c).glass = s.glass := rfl
@[simp] theorem State.setCapture_digest (i : Nat) (c : Capture) : (s.setCapture i c).digest = s.digest := rfl
@[simp] theorem State.setCapture_pins (i : Nat) (c : Capture) : (s.setCapture i c).pins = s.pins := rfl
@[simp] theorem State.setCapture_puntBkt (i : Nat) (c : Capture) : (s.setCapture i c).puntBkt = s.puntBkt := rfl

@[simp] theorem State.setPuntBucket_pending (n r : Nat) (b : Bucket) : (s.setPuntBucket n r b).pending = s.pending := rfl
@[simp] theorem State.setPuntBucket_now (n r : Nat) (b : Bucket) : (s.setPuntBucket n r b).now = s.now := rfl
@[simp] theorem State.setPuntBucket_freeCtr (n r : Nat) (b : Bucket) : (s.setPuntBucket n r b).freeCtr = s.freeCtr := rfl
@[simp] theorem State.setPuntBucket_regs (n r : Nat) (b : Bucket) : (s.setPuntBucket n r b).regs = s.regs := rfl
@[simp] theorem State.setPuntBucket_ws (n r : Nat) (b : Bucket) : (s.setPuntBucket n r b).ws = s.ws := rfl
@[simp] theorem State.setPuntBucket_mem (n r : Nat) (b : Bucket) : (s.setPuntBucket n r b).mem = s.mem := rfl
@[simp] theorem State.setPuntBucket_boot (n r : Nat) (b : Bucket) : (s.setPuntBucket n r b).boot = s.boot := rfl
@[simp] theorem State.setPuntBucket_pkts (n r : Nat) (b : Bucket) : (s.setPuntBucket n r b).pkts = s.pkts := rfl
@[simp] theorem State.setPuntBucket_nextPkt (n r : Nat) (b : Bucket) : (s.setPuntBucket n r b).nextPkt = s.nextPkt := rfl
@[simp] theorem State.setPuntBucket_nextOrder (n r : Nat) (b : Bucket) : (s.setPuntBucket n r b).nextOrder = s.nextOrder := rfl
@[simp] theorem State.setPuntBucket_bat (n r : Nat) (b : Bucket) : (s.setPuntBucket n r b).bat = s.bat := rfl
@[simp] theorem State.setPuntBucket_warp (n r : Nat) (b : Bucket) : (s.setPuntBucket n r b).warp = s.warp := rfl
@[simp] theorem State.setPuntBucket_reed (n r : Nat) (b : Bucket) : (s.setPuntBucket n r b).reed = s.reed := rfl
@[simp] theorem State.setPuntBucket_twill (n r : Nat) (b : Bucket) : (s.setPuntBucket n r b).twill = s.twill := rfl
@[simp] theorem State.setPuntBucket_learn (n r : Nat) (b : Bucket) : (s.setPuntBucket n r b).learn = s.learn := rfl
@[simp] theorem State.setPuntBucket_beam (n r : Nat) (b : Bucket) : (s.setPuntBucket n r b).beam = s.beam := rfl
@[simp] theorem State.setPuntBucket_selv (n r : Nat) (b : Bucket) : (s.setPuntBucket n r b).selv = s.selv := rfl
@[simp] theorem State.setPuntBucket_creel (n r : Nat) (b : Bucket) : (s.setPuntBucket n r b).creel = s.creel := rfl
@[simp] theorem State.setPuntBucket_time (n r : Nat) (b : Bucket) : (s.setPuntBucket n r b).time = s.time := rfl
@[simp] theorem State.setPuntBucket_spin (n r : Nat) (b : Bucket) : (s.setPuntBucket n r b).spin = s.spin := rfl
@[simp] theorem State.setPuntBucket_host (n r : Nat) (b : Bucket) : (s.setPuntBucket n r b).host = s.host := rfl
@[simp] theorem State.setPuntBucket_tension (n r : Nat) (b : Bucket) : (s.setPuntBucket n r b).tension = s.tension := rfl
@[simp] theorem State.setPuntBucket_glass (n r : Nat) (b : Bucket) : (s.setPuntBucket n r b).glass = s.glass := rfl
@[simp] theorem State.setPuntBucket_digest (n r : Nat) (b : Bucket) : (s.setPuntBucket n r b).digest = s.digest := rfl
@[simp] theorem State.setPuntBucket_pins (n r : Nat) (b : Bucket) : (s.setPuntBucket n r b).pins = s.pins := rfl

@[simp] theorem State.addBank_pending (b n : Nat) : (s.addBank b n).pending = s.pending := rfl
@[simp] theorem State.addBank_now (b n : Nat) : (s.addBank b n).now = s.now := rfl
@[simp] theorem State.addBank_freeCtr (b n : Nat) : (s.addBank b n).freeCtr = s.freeCtr := rfl
@[simp] theorem State.addBank_regs (b n : Nat) : (s.addBank b n).regs = s.regs := rfl
@[simp] theorem State.addBank_ws (b n : Nat) : (s.addBank b n).ws = s.ws := rfl
@[simp] theorem State.addBank_mem (b n : Nat) : (s.addBank b n).mem = s.mem := rfl
@[simp] theorem State.addBank_boot (b n : Nat) : (s.addBank b n).boot = s.boot := rfl
@[simp] theorem State.addBank_pkts (b n : Nat) : (s.addBank b n).pkts = s.pkts := rfl
@[simp] theorem State.addBank_nextPkt (b n : Nat) : (s.addBank b n).nextPkt = s.nextPkt := rfl
@[simp] theorem State.addBank_nextOrder (b n : Nat) : (s.addBank b n).nextOrder = s.nextOrder := rfl
@[simp] theorem State.addBank_bat (b n : Nat) : (s.addBank b n).bat = s.bat := rfl
@[simp] theorem State.addBank_warp (b n : Nat) : (s.addBank b n).warp = s.warp := rfl
@[simp] theorem State.addBank_reed (b n : Nat) : (s.addBank b n).reed = s.reed := rfl
@[simp] theorem State.addBank_twill (b n : Nat) : (s.addBank b n).twill = s.twill := rfl
@[simp] theorem State.addBank_learn (b n : Nat) : (s.addBank b n).learn = s.learn := rfl
@[simp] theorem State.addBank_selv (b n : Nat) : (s.addBank b n).selv = s.selv := rfl
@[simp] theorem State.addBank_creel (b n : Nat) : (s.addBank b n).creel = s.creel := rfl
@[simp] theorem State.addBank_time (b n : Nat) : (s.addBank b n).time = s.time := rfl
@[simp] theorem State.addBank_spin (b n : Nat) : (s.addBank b n).spin = s.spin := rfl
@[simp] theorem State.addBank_host (b n : Nat) : (s.addBank b n).host = s.host := rfl
@[simp] theorem State.addBank_tension (b n : Nat) : (s.addBank b n).tension = s.tension := rfl
@[simp] theorem State.addBank_glass (b n : Nat) : (s.addBank b n).glass = s.glass := rfl
@[simp] theorem State.addBank_digest (b n : Nat) : (s.addBank b n).digest = s.digest := rfl
@[simp] theorem State.addBank_pins (b n : Nat) : (s.addBank b n).pins = s.pins := rfl
@[simp] theorem State.addBank_puntBkt (b n : Nat) : (s.addBank b n).puntBkt = s.puntBkt := rfl

@[simp] theorem State.subBank_pending (b n : Nat) : (s.subBank b n).pending = s.pending := rfl
@[simp] theorem State.subBank_now (b n : Nat) : (s.subBank b n).now = s.now := rfl
@[simp] theorem State.subBank_freeCtr (b n : Nat) : (s.subBank b n).freeCtr = s.freeCtr := rfl
@[simp] theorem State.subBank_regs (b n : Nat) : (s.subBank b n).regs = s.regs := rfl
@[simp] theorem State.subBank_ws (b n : Nat) : (s.subBank b n).ws = s.ws := rfl
@[simp] theorem State.subBank_mem (b n : Nat) : (s.subBank b n).mem = s.mem := rfl
@[simp] theorem State.subBank_boot (b n : Nat) : (s.subBank b n).boot = s.boot := rfl
@[simp] theorem State.subBank_pkts (b n : Nat) : (s.subBank b n).pkts = s.pkts := rfl
@[simp] theorem State.subBank_nextPkt (b n : Nat) : (s.subBank b n).nextPkt = s.nextPkt := rfl
@[simp] theorem State.subBank_nextOrder (b n : Nat) : (s.subBank b n).nextOrder = s.nextOrder := rfl
@[simp] theorem State.subBank_bat (b n : Nat) : (s.subBank b n).bat = s.bat := rfl
@[simp] theorem State.subBank_warp (b n : Nat) : (s.subBank b n).warp = s.warp := rfl
@[simp] theorem State.subBank_reed (b n : Nat) : (s.subBank b n).reed = s.reed := rfl
@[simp] theorem State.subBank_twill (b n : Nat) : (s.subBank b n).twill = s.twill := rfl
@[simp] theorem State.subBank_learn (b n : Nat) : (s.subBank b n).learn = s.learn := rfl
@[simp] theorem State.subBank_selv (b n : Nat) : (s.subBank b n).selv = s.selv := rfl
@[simp] theorem State.subBank_creel (b n : Nat) : (s.subBank b n).creel = s.creel := rfl
@[simp] theorem State.subBank_time (b n : Nat) : (s.subBank b n).time = s.time := rfl
@[simp] theorem State.subBank_spin (b n : Nat) : (s.subBank b n).spin = s.spin := rfl
@[simp] theorem State.subBank_host (b n : Nat) : (s.subBank b n).host = s.host := rfl
@[simp] theorem State.subBank_tension (b n : Nat) : (s.subBank b n).tension = s.tension := rfl
@[simp] theorem State.subBank_glass (b n : Nat) : (s.subBank b n).glass = s.glass := rfl
@[simp] theorem State.subBank_digest (b n : Nat) : (s.subBank b n).digest = s.digest := rfl
@[simp] theorem State.subBank_pins (b n : Nat) : (s.subBank b n).pins = s.pins := rfl
@[simp] theorem State.subBank_puntBkt (b n : Nat) : (s.subBank b n).puntBkt = s.puntBkt := rfl

@[simp] theorem State.setCredit_pending (i v : Nat) : (s.setCredit i v).pending = s.pending := rfl
@[simp] theorem State.setCredit_now (i v : Nat) : (s.setCredit i v).now = s.now := rfl
@[simp] theorem State.setCredit_freeCtr (i v : Nat) : (s.setCredit i v).freeCtr = s.freeCtr := rfl
@[simp] theorem State.setCredit_regs (i v : Nat) : (s.setCredit i v).regs = s.regs := rfl
@[simp] theorem State.setCredit_ws (i v : Nat) : (s.setCredit i v).ws = s.ws := rfl
@[simp] theorem State.setCredit_mem (i v : Nat) : (s.setCredit i v).mem = s.mem := rfl
@[simp] theorem State.setCredit_boot (i v : Nat) : (s.setCredit i v).boot = s.boot := rfl
@[simp] theorem State.setCredit_pkts (i v : Nat) : (s.setCredit i v).pkts = s.pkts := rfl
@[simp] theorem State.setCredit_nextPkt (i v : Nat) : (s.setCredit i v).nextPkt = s.nextPkt := rfl
@[simp] theorem State.setCredit_nextOrder (i v : Nat) : (s.setCredit i v).nextOrder = s.nextOrder := rfl
@[simp] theorem State.setCredit_bat (i v : Nat) : (s.setCredit i v).bat = s.bat := rfl
@[simp] theorem State.setCredit_warp (i v : Nat) : (s.setCredit i v).warp = s.warp := rfl
@[simp] theorem State.setCredit_reed (i v : Nat) : (s.setCredit i v).reed = s.reed := rfl
@[simp] theorem State.setCredit_twill (i v : Nat) : (s.setCredit i v).twill = s.twill := rfl
@[simp] theorem State.setCredit_learn (i v : Nat) : (s.setCredit i v).learn = s.learn := rfl
@[simp] theorem State.setCredit_selv (i v : Nat) : (s.setCredit i v).selv = s.selv := rfl
@[simp] theorem State.setCredit_creel (i v : Nat) : (s.setCredit i v).creel = s.creel := rfl
@[simp] theorem State.setCredit_time (i v : Nat) : (s.setCredit i v).time = s.time := rfl
@[simp] theorem State.setCredit_spin (i v : Nat) : (s.setCredit i v).spin = s.spin := rfl
@[simp] theorem State.setCredit_host (i v : Nat) : (s.setCredit i v).host = s.host := rfl
@[simp] theorem State.setCredit_tension (i v : Nat) : (s.setCredit i v).tension = s.tension := rfl
@[simp] theorem State.setCredit_glass (i v : Nat) : (s.setCredit i v).glass = s.glass := rfl
@[simp] theorem State.setCredit_digest (i v : Nat) : (s.setCredit i v).digest = s.digest := rfl
@[simp] theorem State.setCredit_pins (i v : Nat) : (s.setCredit i v).pins = s.pins := rfl
@[simp] theorem State.setCredit_puntBkt (i v : Nat) : (s.setCredit i v).puntBkt = s.puntBkt := rfl

@[simp] theorem State.pushReady_pending (k : Nat) : (s.pushReady k).pending = s.pending := rfl
@[simp] theorem State.pushReady_now (k : Nat) : (s.pushReady k).now = s.now := rfl
@[simp] theorem State.pushReady_freeCtr (k : Nat) : (s.pushReady k).freeCtr = s.freeCtr := rfl
@[simp] theorem State.pushReady_regs (k : Nat) : (s.pushReady k).regs = s.regs := rfl
@[simp] theorem State.pushReady_ws (k : Nat) : (s.pushReady k).ws = s.ws := rfl
@[simp] theorem State.pushReady_mem (k : Nat) : (s.pushReady k).mem = s.mem := rfl
@[simp] theorem State.pushReady_boot (k : Nat) : (s.pushReady k).boot = s.boot := rfl
@[simp] theorem State.pushReady_pkts (k : Nat) : (s.pushReady k).pkts = s.pkts := rfl
@[simp] theorem State.pushReady_nextPkt (k : Nat) : (s.pushReady k).nextPkt = s.nextPkt := rfl
@[simp] theorem State.pushReady_nextOrder (k : Nat) : (s.pushReady k).nextOrder = s.nextOrder := rfl
@[simp] theorem State.pushReady_bat (k : Nat) : (s.pushReady k).bat = s.bat := rfl
@[simp] theorem State.pushReady_warp (k : Nat) : (s.pushReady k).warp = s.warp := rfl
@[simp] theorem State.pushReady_reed (k : Nat) : (s.pushReady k).reed = s.reed := rfl
@[simp] theorem State.pushReady_twill (k : Nat) : (s.pushReady k).twill = s.twill := rfl
@[simp] theorem State.pushReady_learn (k : Nat) : (s.pushReady k).learn = s.learn := rfl
@[simp] theorem State.pushReady_beam (k : Nat) : (s.pushReady k).beam = s.beam := rfl
@[simp] theorem State.pushReady_selv (k : Nat) : (s.pushReady k).selv = s.selv := rfl
@[simp] theorem State.pushReady_creel (k : Nat) : (s.pushReady k).creel = s.creel := rfl
@[simp] theorem State.pushReady_time (k : Nat) : (s.pushReady k).time = s.time := rfl
@[simp] theorem State.pushReady_host (k : Nat) : (s.pushReady k).host = s.host := rfl
@[simp] theorem State.pushReady_tension (k : Nat) : (s.pushReady k).tension = s.tension := rfl
@[simp] theorem State.pushReady_glass (k : Nat) : (s.pushReady k).glass = s.glass := rfl
@[simp] theorem State.pushReady_digest (k : Nat) : (s.pushReady k).digest = s.digest := rfl
@[simp] theorem State.pushReady_pins (k : Nat) : (s.pushReady k).pins = s.pins := rfl
@[simp] theorem State.pushReady_puntBkt (k : Nat) : (s.pushReady k).puntBkt = s.puntBkt := rfl

@[simp] theorem State.setFreed_pending (u n : Nat) (b : Bool) : (s.setFreed u n b).pending = s.pending := rfl
@[simp] theorem State.setFreed_now (u n : Nat) (b : Bool) : (s.setFreed u n b).now = s.now := rfl
@[simp] theorem State.setFreed_freeCtr (u n : Nat) (b : Bool) : (s.setFreed u n b).freeCtr = s.freeCtr := rfl
@[simp] theorem State.setFreed_regs (u n : Nat) (b : Bool) : (s.setFreed u n b).regs = s.regs := rfl
@[simp] theorem State.setFreed_ws (u n : Nat) (b : Bool) : (s.setFreed u n b).ws = s.ws := rfl
@[simp] theorem State.setFreed_mem (u n : Nat) (b : Bool) : (s.setFreed u n b).mem = s.mem := rfl
@[simp] theorem State.setFreed_boot (u n : Nat) (b : Bool) : (s.setFreed u n b).boot = s.boot := rfl
@[simp] theorem State.setFreed_pkts (u n : Nat) (b : Bool) : (s.setFreed u n b).pkts = s.pkts := rfl
@[simp] theorem State.setFreed_nextPkt (u n : Nat) (b : Bool) : (s.setFreed u n b).nextPkt = s.nextPkt := rfl
@[simp] theorem State.setFreed_nextOrder (u n : Nat) (b : Bool) : (s.setFreed u n b).nextOrder = s.nextOrder := rfl
@[simp] theorem State.setFreed_bat (u n : Nat) (b : Bool) : (s.setFreed u n b).bat = s.bat := rfl
@[simp] theorem State.setFreed_warp (u n : Nat) (b : Bool) : (s.setFreed u n b).warp = s.warp := rfl
@[simp] theorem State.setFreed_reed (u n : Nat) (b : Bool) : (s.setFreed u n b).reed = s.reed := rfl
@[simp] theorem State.setFreed_twill (u n : Nat) (b : Bool) : (s.setFreed u n b).twill = s.twill := rfl
@[simp] theorem State.setFreed_learn (u n : Nat) (b : Bool) : (s.setFreed u n b).learn = s.learn := rfl
@[simp] theorem State.setFreed_beam (u n : Nat) (b : Bool) : (s.setFreed u n b).beam = s.beam := rfl
@[simp] theorem State.setFreed_selv (u n : Nat) (b : Bool) : (s.setFreed u n b).selv = s.selv := rfl
@[simp] theorem State.setFreed_creel (u n : Nat) (b : Bool) : (s.setFreed u n b).creel = s.creel := rfl
@[simp] theorem State.setFreed_time (u n : Nat) (b : Bool) : (s.setFreed u n b).time = s.time := rfl
@[simp] theorem State.setFreed_host (u n : Nat) (b : Bool) : (s.setFreed u n b).host = s.host := rfl
@[simp] theorem State.setFreed_tension (u n : Nat) (b : Bool) : (s.setFreed u n b).tension = s.tension := rfl
@[simp] theorem State.setFreed_glass (u n : Nat) (b : Bool) : (s.setFreed u n b).glass = s.glass := rfl
@[simp] theorem State.setFreed_digest (u n : Nat) (b : Bool) : (s.setFreed u n b).digest = s.digest := rfl
@[simp] theorem State.setFreed_pins (u n : Nat) (b : Bool) : (s.setFreed u n b).pins = s.pins := rfl
@[simp] theorem State.setFreed_puntBkt (u n : Nat) (b : Bool) : (s.setFreed u n b).puntBkt = s.puntBkt := rfl

@[simp] theorem State.updDma_pending (c : Nat) (f : List DmaReq → List DmaReq) : (s.updDma c f).pending = s.pending := rfl
@[simp] theorem State.updDma_now (c : Nat) (f : List DmaReq → List DmaReq) : (s.updDma c f).now = s.now := rfl
@[simp] theorem State.updDma_freeCtr (c : Nat) (f : List DmaReq → List DmaReq) : (s.updDma c f).freeCtr = s.freeCtr := rfl
@[simp] theorem State.updDma_regs (c : Nat) (f : List DmaReq → List DmaReq) : (s.updDma c f).regs = s.regs := rfl
@[simp] theorem State.updDma_ws (c : Nat) (f : List DmaReq → List DmaReq) : (s.updDma c f).ws = s.ws := rfl
@[simp] theorem State.updDma_mem (c : Nat) (f : List DmaReq → List DmaReq) : (s.updDma c f).mem = s.mem := rfl
@[simp] theorem State.updDma_boot (c : Nat) (f : List DmaReq → List DmaReq) : (s.updDma c f).boot = s.boot := rfl
@[simp] theorem State.updDma_pkts (c : Nat) (f : List DmaReq → List DmaReq) : (s.updDma c f).pkts = s.pkts := rfl
@[simp] theorem State.updDma_nextPkt (c : Nat) (f : List DmaReq → List DmaReq) : (s.updDma c f).nextPkt = s.nextPkt := rfl
@[simp] theorem State.updDma_nextOrder (c : Nat) (f : List DmaReq → List DmaReq) : (s.updDma c f).nextOrder = s.nextOrder := rfl
@[simp] theorem State.updDma_bat (c : Nat) (f : List DmaReq → List DmaReq) : (s.updDma c f).bat = s.bat := rfl
@[simp] theorem State.updDma_warp (c : Nat) (f : List DmaReq → List DmaReq) : (s.updDma c f).warp = s.warp := rfl
@[simp] theorem State.updDma_reed (c : Nat) (f : List DmaReq → List DmaReq) : (s.updDma c f).reed = s.reed := rfl
@[simp] theorem State.updDma_twill (c : Nat) (f : List DmaReq → List DmaReq) : (s.updDma c f).twill = s.twill := rfl
@[simp] theorem State.updDma_learn (c : Nat) (f : List DmaReq → List DmaReq) : (s.updDma c f).learn = s.learn := rfl
@[simp] theorem State.updDma_beam (c : Nat) (f : List DmaReq → List DmaReq) : (s.updDma c f).beam = s.beam := rfl
@[simp] theorem State.updDma_selv (c : Nat) (f : List DmaReq → List DmaReq) : (s.updDma c f).selv = s.selv := rfl
@[simp] theorem State.updDma_creel (c : Nat) (f : List DmaReq → List DmaReq) : (s.updDma c f).creel = s.creel := rfl
@[simp] theorem State.updDma_time (c : Nat) (f : List DmaReq → List DmaReq) : (s.updDma c f).time = s.time := rfl
@[simp] theorem State.updDma_host (c : Nat) (f : List DmaReq → List DmaReq) : (s.updDma c f).host = s.host := rfl
@[simp] theorem State.updDma_tension (c : Nat) (f : List DmaReq → List DmaReq) : (s.updDma c f).tension = s.tension := rfl
@[simp] theorem State.updDma_glass (c : Nat) (f : List DmaReq → List DmaReq) : (s.updDma c f).glass = s.glass := rfl
@[simp] theorem State.updDma_digest (c : Nat) (f : List DmaReq → List DmaReq) : (s.updDma c f).digest = s.digest := rfl
@[simp] theorem State.updDma_pins (c : Nat) (f : List DmaReq → List DmaReq) : (s.updDma c f).pins = s.pins := rfl
@[simp] theorem State.updDma_puntBkt (c : Nat) (f : List DmaReq → List DmaReq) : (s.updDma c f).puntBkt = s.puntBkt := rfl

@[simp] theorem State.setErrs_pending (l : Nat) (e : List SymErr) : (s.setErrs l e).pending = s.pending := rfl
@[simp] theorem State.setErrs_now (l : Nat) (e : List SymErr) : (s.setErrs l e).now = s.now := rfl
@[simp] theorem State.setErrs_freeCtr (l : Nat) (e : List SymErr) : (s.setErrs l e).freeCtr = s.freeCtr := rfl
@[simp] theorem State.setErrs_regs (l : Nat) (e : List SymErr) : (s.setErrs l e).regs = s.regs := rfl
@[simp] theorem State.setErrs_ws (l : Nat) (e : List SymErr) : (s.setErrs l e).ws = s.ws := rfl
@[simp] theorem State.setErrs_mem (l : Nat) (e : List SymErr) : (s.setErrs l e).mem = s.mem := rfl
@[simp] theorem State.setErrs_boot (l : Nat) (e : List SymErr) : (s.setErrs l e).boot = s.boot := rfl
@[simp] theorem State.setErrs_pkts (l : Nat) (e : List SymErr) : (s.setErrs l e).pkts = s.pkts := rfl
@[simp] theorem State.setErrs_nextPkt (l : Nat) (e : List SymErr) : (s.setErrs l e).nextPkt = s.nextPkt := rfl
@[simp] theorem State.setErrs_nextOrder (l : Nat) (e : List SymErr) : (s.setErrs l e).nextOrder = s.nextOrder := rfl
@[simp] theorem State.setErrs_bat (l : Nat) (e : List SymErr) : (s.setErrs l e).bat = s.bat := rfl
@[simp] theorem State.setErrs_warp (l : Nat) (e : List SymErr) : (s.setErrs l e).warp = s.warp := rfl
@[simp] theorem State.setErrs_reed (l : Nat) (e : List SymErr) : (s.setErrs l e).reed = s.reed := rfl
@[simp] theorem State.setErrs_twill (l : Nat) (e : List SymErr) : (s.setErrs l e).twill = s.twill := rfl
@[simp] theorem State.setErrs_learn (l : Nat) (e : List SymErr) : (s.setErrs l e).learn = s.learn := rfl
@[simp] theorem State.setErrs_beam (l : Nat) (e : List SymErr) : (s.setErrs l e).beam = s.beam := rfl
@[simp] theorem State.setErrs_selv (l : Nat) (e : List SymErr) : (s.setErrs l e).selv = s.selv := rfl
@[simp] theorem State.setErrs_time (l : Nat) (e : List SymErr) : (s.setErrs l e).time = s.time := rfl
@[simp] theorem State.setErrs_spin (l : Nat) (e : List SymErr) : (s.setErrs l e).spin = s.spin := rfl
@[simp] theorem State.setErrs_host (l : Nat) (e : List SymErr) : (s.setErrs l e).host = s.host := rfl
@[simp] theorem State.setErrs_tension (l : Nat) (e : List SymErr) : (s.setErrs l e).tension = s.tension := rfl
@[simp] theorem State.setErrs_glass (l : Nat) (e : List SymErr) : (s.setErrs l e).glass = s.glass := rfl
@[simp] theorem State.setErrs_digest (l : Nat) (e : List SymErr) : (s.setErrs l e).digest = s.digest := rfl
@[simp] theorem State.setErrs_pins (l : Nat) (e : List SymErr) : (s.setErrs l e).pins = s.pins := rfl
@[simp] theorem State.setErrs_puntBkt (l : Nat) (e : List SymErr) : (s.setErrs l e).puntBkt = s.puntBkt := rfl

@[simp] theorem State.setRefOk_pending (r : Nat) (t : Option Nat) : (s.setRefOk r t).pending = s.pending := rfl
@[simp] theorem State.setRefOk_now (r : Nat) (t : Option Nat) : (s.setRefOk r t).now = s.now := rfl
@[simp] theorem State.setRefOk_freeCtr (r : Nat) (t : Option Nat) : (s.setRefOk r t).freeCtr = s.freeCtr := rfl
@[simp] theorem State.setRefOk_regs (r : Nat) (t : Option Nat) : (s.setRefOk r t).regs = s.regs := rfl
@[simp] theorem State.setRefOk_ws (r : Nat) (t : Option Nat) : (s.setRefOk r t).ws = s.ws := rfl
@[simp] theorem State.setRefOk_mem (r : Nat) (t : Option Nat) : (s.setRefOk r t).mem = s.mem := rfl
@[simp] theorem State.setRefOk_boot (r : Nat) (t : Option Nat) : (s.setRefOk r t).boot = s.boot := rfl
@[simp] theorem State.setRefOk_pkts (r : Nat) (t : Option Nat) : (s.setRefOk r t).pkts = s.pkts := rfl
@[simp] theorem State.setRefOk_nextPkt (r : Nat) (t : Option Nat) : (s.setRefOk r t).nextPkt = s.nextPkt := rfl
@[simp] theorem State.setRefOk_nextOrder (r : Nat) (t : Option Nat) : (s.setRefOk r t).nextOrder = s.nextOrder := rfl
@[simp] theorem State.setRefOk_bat (r : Nat) (t : Option Nat) : (s.setRefOk r t).bat = s.bat := rfl
@[simp] theorem State.setRefOk_warp (r : Nat) (t : Option Nat) : (s.setRefOk r t).warp = s.warp := rfl
@[simp] theorem State.setRefOk_reed (r : Nat) (t : Option Nat) : (s.setRefOk r t).reed = s.reed := rfl
@[simp] theorem State.setRefOk_twill (r : Nat) (t : Option Nat) : (s.setRefOk r t).twill = s.twill := rfl
@[simp] theorem State.setRefOk_learn (r : Nat) (t : Option Nat) : (s.setRefOk r t).learn = s.learn := rfl
@[simp] theorem State.setRefOk_beam (r : Nat) (t : Option Nat) : (s.setRefOk r t).beam = s.beam := rfl
@[simp] theorem State.setRefOk_selv (r : Nat) (t : Option Nat) : (s.setRefOk r t).selv = s.selv := rfl
@[simp] theorem State.setRefOk_creel (r : Nat) (t : Option Nat) : (s.setRefOk r t).creel = s.creel := rfl
@[simp] theorem State.setRefOk_spin (r : Nat) (t : Option Nat) : (s.setRefOk r t).spin = s.spin := rfl
@[simp] theorem State.setRefOk_host (r : Nat) (t : Option Nat) : (s.setRefOk r t).host = s.host := rfl
@[simp] theorem State.setRefOk_tension (r : Nat) (t : Option Nat) : (s.setRefOk r t).tension = s.tension := rfl
@[simp] theorem State.setRefOk_glass (r : Nat) (t : Option Nat) : (s.setRefOk r t).glass = s.glass := rfl
@[simp] theorem State.setRefOk_digest (r : Nat) (t : Option Nat) : (s.setRefOk r t).digest = s.digest := rfl
@[simp] theorem State.setRefOk_pins (r : Nat) (t : Option Nat) : (s.setRefOk r t).pins = s.pins := rfl
@[simp] theorem State.setRefOk_puntBkt (r : Nat) (t : Option Nat) : (s.setRefOk r t).puntBkt = s.puntBkt := rfl

@[simp] theorem State.unpinned_pending (e : Nat) : (s.unpinned e).pending = s.pending := rfl
@[simp] theorem State.unpinned_now (e : Nat) : (s.unpinned e).now = s.now := rfl
@[simp] theorem State.unpinned_freeCtr (e : Nat) : (s.unpinned e).freeCtr = s.freeCtr := rfl
@[simp] theorem State.unpinned_regs (e : Nat) : (s.unpinned e).regs = s.regs := rfl
@[simp] theorem State.unpinned_ws (e : Nat) : (s.unpinned e).ws = s.ws := rfl
@[simp] theorem State.unpinned_mem (e : Nat) : (s.unpinned e).mem = s.mem := rfl
@[simp] theorem State.unpinned_boot (e : Nat) : (s.unpinned e).boot = s.boot := rfl
@[simp] theorem State.unpinned_pkts (e : Nat) : (s.unpinned e).pkts = s.pkts := rfl
@[simp] theorem State.unpinned_nextPkt (e : Nat) : (s.unpinned e).nextPkt = s.nextPkt := rfl
@[simp] theorem State.unpinned_nextOrder (e : Nat) : (s.unpinned e).nextOrder = s.nextOrder := rfl
@[simp] theorem State.unpinned_bat (e : Nat) : (s.unpinned e).bat = s.bat := rfl
@[simp] theorem State.unpinned_warp (e : Nat) : (s.unpinned e).warp = s.warp := rfl
@[simp] theorem State.unpinned_reed (e : Nat) : (s.unpinned e).reed = s.reed := rfl
@[simp] theorem State.unpinned_twill (e : Nat) : (s.unpinned e).twill = s.twill := rfl
@[simp] theorem State.unpinned_beam (e : Nat) : (s.unpinned e).beam = s.beam := rfl
@[simp] theorem State.unpinned_selv (e : Nat) : (s.unpinned e).selv = s.selv := rfl
@[simp] theorem State.unpinned_creel (e : Nat) : (s.unpinned e).creel = s.creel := rfl
@[simp] theorem State.unpinned_time (e : Nat) : (s.unpinned e).time = s.time := rfl
@[simp] theorem State.unpinned_spin (e : Nat) : (s.unpinned e).spin = s.spin := rfl
@[simp] theorem State.unpinned_host (e : Nat) : (s.unpinned e).host = s.host := rfl
@[simp] theorem State.unpinned_tension (e : Nat) : (s.unpinned e).tension = s.tension := rfl
@[simp] theorem State.unpinned_glass (e : Nat) : (s.unpinned e).glass = s.glass := rfl
@[simp] theorem State.unpinned_digest (e : Nat) : (s.unpinned e).digest = s.digest := rfl
@[simp] theorem State.unpinned_pins (e : Nat) : (s.unpinned e).pins = s.pins := rfl
@[simp] theorem State.unpinned_puntBkt (e : Nat) : (s.unpinned e).puntBkt = s.puntBkt := rfl

@[simp] theorem State.setTag_pending (r v : Nat) : (s.setTag r v).pending = s.pending := rfl
@[simp] theorem State.setTag_now (r v : Nat) : (s.setTag r v).now = s.now := rfl
@[simp] theorem State.setTag_freeCtr (r v : Nat) : (s.setTag r v).freeCtr = s.freeCtr := rfl
@[simp] theorem State.setTag_regs (r v : Nat) : (s.setTag r v).regs = s.regs := rfl
@[simp] theorem State.setTag_ws (r v : Nat) : (s.setTag r v).ws = s.ws := rfl
@[simp] theorem State.setTag_mem (r v : Nat) : (s.setTag r v).mem = s.mem := rfl
@[simp] theorem State.setTag_boot (r v : Nat) : (s.setTag r v).boot = s.boot := rfl
@[simp] theorem State.setTag_pkts (r v : Nat) : (s.setTag r v).pkts = s.pkts := rfl
@[simp] theorem State.setTag_nextPkt (r v : Nat) : (s.setTag r v).nextPkt = s.nextPkt := rfl
@[simp] theorem State.setTag_nextOrder (r v : Nat) : (s.setTag r v).nextOrder = s.nextOrder := rfl
@[simp] theorem State.setTag_bat (r v : Nat) : (s.setTag r v).bat = s.bat := rfl
@[simp] theorem State.setTag_reed (r v : Nat) : (s.setTag r v).reed = s.reed := rfl
@[simp] theorem State.setTag_twill (r v : Nat) : (s.setTag r v).twill = s.twill := rfl
@[simp] theorem State.setTag_learn (r v : Nat) : (s.setTag r v).learn = s.learn := rfl
@[simp] theorem State.setTag_beam (r v : Nat) : (s.setTag r v).beam = s.beam := rfl
@[simp] theorem State.setTag_selv (r v : Nat) : (s.setTag r v).selv = s.selv := rfl
@[simp] theorem State.setTag_creel (r v : Nat) : (s.setTag r v).creel = s.creel := rfl
@[simp] theorem State.setTag_time (r v : Nat) : (s.setTag r v).time = s.time := rfl
@[simp] theorem State.setTag_spin (r v : Nat) : (s.setTag r v).spin = s.spin := rfl
@[simp] theorem State.setTag_host (r v : Nat) : (s.setTag r v).host = s.host := rfl
@[simp] theorem State.setTag_tension (r v : Nat) : (s.setTag r v).tension = s.tension := rfl
@[simp] theorem State.setTag_glass (r v : Nat) : (s.setTag r v).glass = s.glass := rfl
@[simp] theorem State.setTag_digest (r v : Nat) : (s.setTag r v).digest = s.digest := rfl
@[simp] theorem State.setTag_pins (r v : Nat) : (s.setTag r v).pins = s.pins := rfl
@[simp] theorem State.setTag_puntBkt (r v : Nat) : (s.setTag r v).puntBkt = s.puntBkt := rfl

@[simp] theorem State.setOvf_pending (i : Nat) (v : Option Seal) : (s.setOvf i v).pending = s.pending := rfl
@[simp] theorem State.setOvf_now (i : Nat) (v : Option Seal) : (s.setOvf i v).now = s.now := rfl
@[simp] theorem State.setOvf_freeCtr (i : Nat) (v : Option Seal) : (s.setOvf i v).freeCtr = s.freeCtr := rfl
@[simp] theorem State.setOvf_regs (i : Nat) (v : Option Seal) : (s.setOvf i v).regs = s.regs := rfl
@[simp] theorem State.setOvf_ws (i : Nat) (v : Option Seal) : (s.setOvf i v).ws = s.ws := rfl
@[simp] theorem State.setOvf_mem (i : Nat) (v : Option Seal) : (s.setOvf i v).mem = s.mem := rfl
@[simp] theorem State.setOvf_boot (i : Nat) (v : Option Seal) : (s.setOvf i v).boot = s.boot := rfl
@[simp] theorem State.setOvf_pkts (i : Nat) (v : Option Seal) : (s.setOvf i v).pkts = s.pkts := rfl
@[simp] theorem State.setOvf_nextPkt (i : Nat) (v : Option Seal) : (s.setOvf i v).nextPkt = s.nextPkt := rfl
@[simp] theorem State.setOvf_nextOrder (i : Nat) (v : Option Seal) : (s.setOvf i v).nextOrder = s.nextOrder := rfl
@[simp] theorem State.setOvf_bat (i : Nat) (v : Option Seal) : (s.setOvf i v).bat = s.bat := rfl
@[simp] theorem State.setOvf_reed (i : Nat) (v : Option Seal) : (s.setOvf i v).reed = s.reed := rfl
@[simp] theorem State.setOvf_twill (i : Nat) (v : Option Seal) : (s.setOvf i v).twill = s.twill := rfl
@[simp] theorem State.setOvf_learn (i : Nat) (v : Option Seal) : (s.setOvf i v).learn = s.learn := rfl
@[simp] theorem State.setOvf_beam (i : Nat) (v : Option Seal) : (s.setOvf i v).beam = s.beam := rfl
@[simp] theorem State.setOvf_selv (i : Nat) (v : Option Seal) : (s.setOvf i v).selv = s.selv := rfl
@[simp] theorem State.setOvf_creel (i : Nat) (v : Option Seal) : (s.setOvf i v).creel = s.creel := rfl
@[simp] theorem State.setOvf_time (i : Nat) (v : Option Seal) : (s.setOvf i v).time = s.time := rfl
@[simp] theorem State.setOvf_spin (i : Nat) (v : Option Seal) : (s.setOvf i v).spin = s.spin := rfl
@[simp] theorem State.setOvf_host (i : Nat) (v : Option Seal) : (s.setOvf i v).host = s.host := rfl
@[simp] theorem State.setOvf_tension (i : Nat) (v : Option Seal) : (s.setOvf i v).tension = s.tension := rfl
@[simp] theorem State.setOvf_glass (i : Nat) (v : Option Seal) : (s.setOvf i v).glass = s.glass := rfl
@[simp] theorem State.setOvf_digest (i : Nat) (v : Option Seal) : (s.setOvf i v).digest = s.digest := rfl
@[simp] theorem State.setOvf_pins (i : Nat) (v : Option Seal) : (s.setOvf i v).pins = s.pins := rfl
@[simp] theorem State.setOvf_puntBkt (i : Nat) (v : Option Seal) : (s.setOvf i v).puntBkt = s.puntBkt := rfl

@[simp] theorem State.setPtr_pending (b l : Nat) : (s.setPtr b l).pending = s.pending := rfl
@[simp] theorem State.setPtr_now (b l : Nat) : (s.setPtr b l).now = s.now := rfl
@[simp] theorem State.setPtr_freeCtr (b l : Nat) : (s.setPtr b l).freeCtr = s.freeCtr := rfl
@[simp] theorem State.setPtr_regs (b l : Nat) : (s.setPtr b l).regs = s.regs := rfl
@[simp] theorem State.setPtr_ws (b l : Nat) : (s.setPtr b l).ws = s.ws := rfl
@[simp] theorem State.setPtr_mem (b l : Nat) : (s.setPtr b l).mem = s.mem := rfl
@[simp] theorem State.setPtr_boot (b l : Nat) : (s.setPtr b l).boot = s.boot := rfl
@[simp] theorem State.setPtr_pkts (b l : Nat) : (s.setPtr b l).pkts = s.pkts := rfl
@[simp] theorem State.setPtr_nextPkt (b l : Nat) : (s.setPtr b l).nextPkt = s.nextPkt := rfl
@[simp] theorem State.setPtr_nextOrder (b l : Nat) : (s.setPtr b l).nextOrder = s.nextOrder := rfl
@[simp] theorem State.setPtr_bat (b l : Nat) : (s.setPtr b l).bat = s.bat := rfl
@[simp] theorem State.setPtr_reed (b l : Nat) : (s.setPtr b l).reed = s.reed := rfl
@[simp] theorem State.setPtr_twill (b l : Nat) : (s.setPtr b l).twill = s.twill := rfl
@[simp] theorem State.setPtr_learn (b l : Nat) : (s.setPtr b l).learn = s.learn := rfl
@[simp] theorem State.setPtr_beam (b l : Nat) : (s.setPtr b l).beam = s.beam := rfl
@[simp] theorem State.setPtr_selv (b l : Nat) : (s.setPtr b l).selv = s.selv := rfl
@[simp] theorem State.setPtr_creel (b l : Nat) : (s.setPtr b l).creel = s.creel := rfl
@[simp] theorem State.setPtr_time (b l : Nat) : (s.setPtr b l).time = s.time := rfl
@[simp] theorem State.setPtr_spin (b l : Nat) : (s.setPtr b l).spin = s.spin := rfl
@[simp] theorem State.setPtr_host (b l : Nat) : (s.setPtr b l).host = s.host := rfl
@[simp] theorem State.setPtr_tension (b l : Nat) : (s.setPtr b l).tension = s.tension := rfl
@[simp] theorem State.setPtr_glass (b l : Nat) : (s.setPtr b l).glass = s.glass := rfl
@[simp] theorem State.setPtr_digest (b l : Nat) : (s.setPtr b l).digest = s.digest := rfl
@[simp] theorem State.setPtr_pins (b l : Nat) : (s.setPtr b l).pins = s.pins := rfl
@[simp] theorem State.setPtr_puntBkt (b l : Nat) : (s.setPtr b l).puntBkt = s.puntBkt := rfl

@[simp] theorem State.pushBatten_pending (b : BatReq) : (s.pushBatten b).pending = s.pending := rfl
@[simp] theorem State.pushBatten_now (b : BatReq) : (s.pushBatten b).now = s.now := rfl
@[simp] theorem State.pushBatten_freeCtr (b : BatReq) : (s.pushBatten b).freeCtr = s.freeCtr := rfl
@[simp] theorem State.pushBatten_regs (b : BatReq) : (s.pushBatten b).regs = s.regs := rfl
@[simp] theorem State.pushBatten_ws (b : BatReq) : (s.pushBatten b).ws = s.ws := rfl
@[simp] theorem State.pushBatten_mem (b : BatReq) : (s.pushBatten b).mem = s.mem := rfl
@[simp] theorem State.pushBatten_boot (b : BatReq) : (s.pushBatten b).boot = s.boot := rfl
@[simp] theorem State.pushBatten_pkts (b : BatReq) : (s.pushBatten b).pkts = s.pkts := rfl
@[simp] theorem State.pushBatten_nextPkt (b : BatReq) : (s.pushBatten b).nextPkt = s.nextPkt := rfl
@[simp] theorem State.pushBatten_nextOrder (b : BatReq) : (s.pushBatten b).nextOrder = s.nextOrder := rfl
@[simp] theorem State.pushBatten_warp (b : BatReq) : (s.pushBatten b).warp = s.warp := rfl
@[simp] theorem State.pushBatten_reed (b : BatReq) : (s.pushBatten b).reed = s.reed := rfl
@[simp] theorem State.pushBatten_twill (b : BatReq) : (s.pushBatten b).twill = s.twill := rfl
@[simp] theorem State.pushBatten_learn (b : BatReq) : (s.pushBatten b).learn = s.learn := rfl
@[simp] theorem State.pushBatten_beam (b : BatReq) : (s.pushBatten b).beam = s.beam := rfl
@[simp] theorem State.pushBatten_selv (b : BatReq) : (s.pushBatten b).selv = s.selv := rfl
@[simp] theorem State.pushBatten_creel (b : BatReq) : (s.pushBatten b).creel = s.creel := rfl
@[simp] theorem State.pushBatten_time (b : BatReq) : (s.pushBatten b).time = s.time := rfl
@[simp] theorem State.pushBatten_spin (b : BatReq) : (s.pushBatten b).spin = s.spin := rfl
@[simp] theorem State.pushBatten_host (b : BatReq) : (s.pushBatten b).host = s.host := rfl
@[simp] theorem State.pushBatten_tension (b : BatReq) : (s.pushBatten b).tension = s.tension := rfl
@[simp] theorem State.pushBatten_glass (b : BatReq) : (s.pushBatten b).glass = s.glass := rfl
@[simp] theorem State.pushBatten_digest (b : BatReq) : (s.pushBatten b).digest = s.digest := rfl
@[simp] theorem State.pushBatten_pins (b : BatReq) : (s.pushBatten b).pins = s.pins := rfl
@[simp] theorem State.pushBatten_puntBkt (b : BatReq) : (s.pushBatten b).puntBkt = s.puntBkt := rfl

@[simp] theorem State.later_pending (typ src : Nat) (payload : List Byte) : (s.later typ src payload).pending = s.pending := rfl
@[simp] theorem State.later_now (typ src : Nat) (payload : List Byte) : (s.later typ src payload).now = s.now := rfl
@[simp] theorem State.later_freeCtr (typ src : Nat) (payload : List Byte) : (s.later typ src payload).freeCtr = s.freeCtr := rfl
@[simp] theorem State.later_regs (typ src : Nat) (payload : List Byte) : (s.later typ src payload).regs = s.regs := rfl
@[simp] theorem State.later_ws (typ src : Nat) (payload : List Byte) : (s.later typ src payload).ws = s.ws := rfl
@[simp] theorem State.later_mem (typ src : Nat) (payload : List Byte) : (s.later typ src payload).mem = s.mem := rfl
@[simp] theorem State.later_boot (typ src : Nat) (payload : List Byte) : (s.later typ src payload).boot = s.boot := rfl
@[simp] theorem State.later_pkts (typ src : Nat) (payload : List Byte) : (s.later typ src payload).pkts = s.pkts := rfl
@[simp] theorem State.later_nextPkt (typ src : Nat) (payload : List Byte) : (s.later typ src payload).nextPkt = s.nextPkt := rfl
@[simp] theorem State.later_nextOrder (typ src : Nat) (payload : List Byte) : (s.later typ src payload).nextOrder = s.nextOrder := rfl
@[simp] theorem State.later_bat (typ src : Nat) (payload : List Byte) : (s.later typ src payload).bat = s.bat := rfl
@[simp] theorem State.later_warp (typ src : Nat) (payload : List Byte) : (s.later typ src payload).warp = s.warp := rfl
@[simp] theorem State.later_reed (typ src : Nat) (payload : List Byte) : (s.later typ src payload).reed = s.reed := rfl
@[simp] theorem State.later_twill (typ src : Nat) (payload : List Byte) : (s.later typ src payload).twill = s.twill := rfl
@[simp] theorem State.later_learn (typ src : Nat) (payload : List Byte) : (s.later typ src payload).learn = s.learn := rfl
@[simp] theorem State.later_beam (typ src : Nat) (payload : List Byte) : (s.later typ src payload).beam = s.beam := rfl
@[simp] theorem State.later_selv (typ src : Nat) (payload : List Byte) : (s.later typ src payload).selv = s.selv := rfl
@[simp] theorem State.later_creel (typ src : Nat) (payload : List Byte) : (s.later typ src payload).creel = s.creel := rfl
@[simp] theorem State.later_time (typ src : Nat) (payload : List Byte) : (s.later typ src payload).time = s.time := rfl
@[simp] theorem State.later_spin (typ src : Nat) (payload : List Byte) : (s.later typ src payload).spin = s.spin := rfl
@[simp] theorem State.later_tension (typ src : Nat) (payload : List Byte) : (s.later typ src payload).tension = s.tension := rfl
@[simp] theorem State.later_glass (typ src : Nat) (payload : List Byte) : (s.later typ src payload).glass = s.glass := rfl
@[simp] theorem State.later_digest (typ src : Nat) (payload : List Byte) : (s.later typ src payload).digest = s.digest := rfl
@[simp] theorem State.later_pins (typ src : Nat) (payload : List Byte) : (s.later typ src payload).pins = s.pins := rfl
@[simp] theorem State.later_puntBkt (typ src : Nat) (payload : List Byte) : (s.later typ src payload).puntBkt = s.puntBkt := rfl

@[simp] theorem State.setChanState_pending (c v : Nat) : (s.setChanState c v).pending = s.pending := rfl
@[simp] theorem State.setChanState_now (c v : Nat) : (s.setChanState c v).now = s.now := rfl
@[simp] theorem State.setChanState_freeCtr (c v : Nat) : (s.setChanState c v).freeCtr = s.freeCtr := rfl
@[simp] theorem State.setChanState_ws (c v : Nat) : (s.setChanState c v).ws = s.ws := rfl
@[simp] theorem State.setChanState_mem (c v : Nat) : (s.setChanState c v).mem = s.mem := rfl
@[simp] theorem State.setChanState_boot (c v : Nat) : (s.setChanState c v).boot = s.boot := rfl
@[simp] theorem State.setChanState_pkts (c v : Nat) : (s.setChanState c v).pkts = s.pkts := rfl
@[simp] theorem State.setChanState_nextPkt (c v : Nat) : (s.setChanState c v).nextPkt = s.nextPkt := rfl
@[simp] theorem State.setChanState_nextOrder (c v : Nat) : (s.setChanState c v).nextOrder = s.nextOrder := rfl
@[simp] theorem State.setChanState_bat (c v : Nat) : (s.setChanState c v).bat = s.bat := rfl
@[simp] theorem State.setChanState_warp (c v : Nat) : (s.setChanState c v).warp = s.warp := rfl
@[simp] theorem State.setChanState_reed (c v : Nat) : (s.setChanState c v).reed = s.reed := rfl
@[simp] theorem State.setChanState_twill (c v : Nat) : (s.setChanState c v).twill = s.twill := rfl
@[simp] theorem State.setChanState_learn (c v : Nat) : (s.setChanState c v).learn = s.learn := rfl
@[simp] theorem State.setChanState_beam (c v : Nat) : (s.setChanState c v).beam = s.beam := rfl
@[simp] theorem State.setChanState_selv (c v : Nat) : (s.setChanState c v).selv = s.selv := rfl
@[simp] theorem State.setChanState_creel (c v : Nat) : (s.setChanState c v).creel = s.creel := rfl
@[simp] theorem State.setChanState_time (c v : Nat) : (s.setChanState c v).time = s.time := rfl
@[simp] theorem State.setChanState_spin (c v : Nat) : (s.setChanState c v).spin = s.spin := rfl
@[simp] theorem State.setChanState_host (c v : Nat) : (s.setChanState c v).host = s.host := rfl
@[simp] theorem State.setChanState_tension (c v : Nat) : (s.setChanState c v).tension = s.tension := rfl
@[simp] theorem State.setChanState_glass (c v : Nat) : (s.setChanState c v).glass = s.glass := rfl
@[simp] theorem State.setChanState_digest (c v : Nat) : (s.setChanState c v).digest = s.digest := rfl
@[simp] theorem State.setChanState_pins (c v : Nat) : (s.setChanState c v).pins = s.pins := rfl
@[simp] theorem State.setChanState_puntBkt (c v : Nat) : (s.setChanState c v).puntBkt = s.puntBkt := rfl

@[simp] theorem State.callGone_pending (p : Nat) : (s.callGone p).pending = s.pending := rfl
@[simp] theorem State.callGone_now (p : Nat) : (s.callGone p).now = s.now := rfl
@[simp] theorem State.callGone_freeCtr (p : Nat) : (s.callGone p).freeCtr = s.freeCtr := rfl
@[simp] theorem State.callGone_regs (p : Nat) : (s.callGone p).regs = s.regs := rfl
@[simp] theorem State.callGone_ws (p : Nat) : (s.callGone p).ws = s.ws := rfl
@[simp] theorem State.callGone_mem (p : Nat) : (s.callGone p).mem = s.mem := rfl
@[simp] theorem State.callGone_boot (p : Nat) : (s.callGone p).boot = s.boot := rfl
@[simp] theorem State.callGone_pkts (p : Nat) : (s.callGone p).pkts = s.pkts := rfl
@[simp] theorem State.callGone_nextPkt (p : Nat) : (s.callGone p).nextPkt = s.nextPkt := rfl
@[simp] theorem State.callGone_nextOrder (p : Nat) : (s.callGone p).nextOrder = s.nextOrder := rfl
@[simp] theorem State.callGone_bat (p : Nat) : (s.callGone p).bat = s.bat := rfl
@[simp] theorem State.callGone_warp (p : Nat) : (s.callGone p).warp = s.warp := rfl
@[simp] theorem State.callGone_reed (p : Nat) : (s.callGone p).reed = s.reed := rfl
@[simp] theorem State.callGone_twill (p : Nat) : (s.callGone p).twill = s.twill := rfl
@[simp] theorem State.callGone_learn (p : Nat) : (s.callGone p).learn = s.learn := rfl
@[simp] theorem State.callGone_beam (p : Nat) : (s.callGone p).beam = s.beam := rfl
@[simp] theorem State.callGone_creel (p : Nat) : (s.callGone p).creel = s.creel := rfl
@[simp] theorem State.callGone_time (p : Nat) : (s.callGone p).time = s.time := rfl
@[simp] theorem State.callGone_spin (p : Nat) : (s.callGone p).spin = s.spin := rfl
@[simp] theorem State.callGone_host (p : Nat) : (s.callGone p).host = s.host := rfl
@[simp] theorem State.callGone_tension (p : Nat) : (s.callGone p).tension = s.tension := rfl
@[simp] theorem State.callGone_glass (p : Nat) : (s.callGone p).glass = s.glass := rfl
@[simp] theorem State.callGone_digest (p : Nat) : (s.callGone p).digest = s.digest := rfl
@[simp] theorem State.callGone_pins (p : Nat) : (s.callGone p).pins = s.pins := rfl
@[simp] theorem State.callGone_puntBkt (p : Nat) : (s.callGone p).puntBkt = s.puntBkt := rfl

@[simp] theorem State.draw_pending : (s.draw.2).pending = s.pending := rfl
@[simp] theorem State.draw_now : (s.draw.2).now = s.now := rfl
@[simp] theorem State.draw_regs : (s.draw.2).regs = s.regs := rfl
@[simp] theorem State.draw_ws : (s.draw.2).ws = s.ws := rfl
@[simp] theorem State.draw_mem : (s.draw.2).mem = s.mem := rfl
@[simp] theorem State.draw_boot : (s.draw.2).boot = s.boot := rfl
@[simp] theorem State.draw_pkts : (s.draw.2).pkts = s.pkts := rfl
@[simp] theorem State.draw_nextPkt : (s.draw.2).nextPkt = s.nextPkt := rfl
@[simp] theorem State.draw_nextOrder : (s.draw.2).nextOrder = s.nextOrder := rfl
@[simp] theorem State.draw_bat : (s.draw.2).bat = s.bat := rfl
@[simp] theorem State.draw_warp : (s.draw.2).warp = s.warp := rfl
@[simp] theorem State.draw_reed : (s.draw.2).reed = s.reed := rfl
@[simp] theorem State.draw_twill : (s.draw.2).twill = s.twill := rfl
@[simp] theorem State.draw_learn : (s.draw.2).learn = s.learn := rfl
@[simp] theorem State.draw_beam : (s.draw.2).beam = s.beam := rfl
@[simp] theorem State.draw_selv : (s.draw.2).selv = s.selv := rfl
@[simp] theorem State.draw_creel : (s.draw.2).creel = s.creel := rfl
@[simp] theorem State.draw_time : (s.draw.2).time = s.time := rfl
@[simp] theorem State.draw_spin : (s.draw.2).spin = s.spin := rfl
@[simp] theorem State.draw_host : (s.draw.2).host = s.host := rfl
@[simp] theorem State.draw_tension : (s.draw.2).tension = s.tension := rfl
@[simp] theorem State.draw_glass : (s.draw.2).glass = s.glass := rfl
@[simp] theorem State.draw_digest : (s.draw.2).digest = s.digest := rfl
@[simp] theorem State.draw_pins : (s.draw.2).pins = s.pins := rfl
@[simp] theorem State.draw_puntBkt : (s.draw.2).puntBkt = s.puntBkt := rfl

@[simp] theorem State.returned_pending (w : Word) : (s.returned w).pending = s.pending := rfl
@[simp] theorem State.returned_now (w : Word) : (s.returned w).now = s.now := rfl
@[simp] theorem State.returned_freeCtr (w : Word) : (s.returned w).freeCtr = s.freeCtr := rfl
@[simp] theorem State.returned_regs (w : Word) : (s.returned w).regs = s.regs := rfl
@[simp] theorem State.returned_ws (w : Word) : (s.returned w).ws = s.ws := rfl
@[simp] theorem State.returned_mem (w : Word) : (s.returned w).mem = s.mem := rfl
@[simp] theorem State.returned_boot (w : Word) : (s.returned w).boot = s.boot := rfl
@[simp] theorem State.returned_pkts (w : Word) : (s.returned w).pkts = s.pkts := rfl
@[simp] theorem State.returned_nextPkt (w : Word) : (s.returned w).nextPkt = s.nextPkt := rfl
@[simp] theorem State.returned_nextOrder (w : Word) : (s.returned w).nextOrder = s.nextOrder := rfl
@[simp] theorem State.returned_bat (w : Word) : (s.returned w).bat = s.bat := rfl
@[simp] theorem State.returned_warp (w : Word) : (s.returned w).warp = s.warp := rfl
@[simp] theorem State.returned_reed (w : Word) : (s.returned w).reed = s.reed := rfl
@[simp] theorem State.returned_twill (w : Word) : (s.returned w).twill = s.twill := rfl
@[simp] theorem State.returned_learn (w : Word) : (s.returned w).learn = s.learn := rfl
@[simp] theorem State.returned_beam (w : Word) : (s.returned w).beam = s.beam := rfl
@[simp] theorem State.returned_selv (w : Word) : (s.returned w).selv = s.selv := rfl
@[simp] theorem State.returned_creel (w : Word) : (s.returned w).creel = s.creel := rfl
@[simp] theorem State.returned_time (w : Word) : (s.returned w).time = s.time := rfl
@[simp] theorem State.returned_spin (w : Word) : (s.returned w).spin = s.spin := rfl
@[simp] theorem State.returned_tension (w : Word) : (s.returned w).tension = s.tension := rfl
@[simp] theorem State.returned_glass (w : Word) : (s.returned w).glass = s.glass := rfl
@[simp] theorem State.returned_digest (w : Word) : (s.returned w).digest = s.digest := rfl
@[simp] theorem State.returned_pins (w : Word) : (s.returned w).pins = s.pins := rfl
@[simp] theorem State.returned_puntBkt (w : Word) : (s.returned w).puntBkt = s.puntBkt := rfl

end

end Sys2Proof.Machine
end

