-- ==== Sys2Proof/Laws/Memory.lean ====
section
/-! SUPPORT. Laws of memory: a read gives the byte last stored, a store leaves every other byte, and every operation
that writes memory keeps its one canonical form. -/

namespace Sys2Proof.Machine

/-! ## Reads after writes -/

theorem State.byte_setByte (s : State) (a b : Nat) (v : Byte) :
    (s.setByte a v).byte b = if b = a then v else s.byte b := Tbl.get_set ..

@[simp] theorem State.byte_setByte_same (s : State) (a : Nat) (v : Byte) : (s.setByte a v).byte a = v := by
  simp [State.byte_setByte]

/-- A store of bytes gives each byte of its range, and leaves the others. -/
theorem State.byte_setBytes (s : State) (a b : Nat) (bs : List Byte) :
    (s.setBytes a bs).byte b = if a ≤ b ∧ b < a + bs.length then bs.getD (b - a) 0 else s.byte b := by
  induction bs generalizing s a with
  | nil => simp [State.setBytes]
  | cons x xs ih =>
    rw [State.setBytes, ih, State.byte_setByte]
    by_cases h : b = a
    · subst h; simp
    · by_cases h2 : a ≤ b
      · obtain ⟨k, rfl⟩ : ∃ k, b = a + 1 + k := ⟨b - a - 1, by omega⟩
        have e : a + 1 + k - a = k + 1 := by omega
        have e2 : a + 1 + k - (a + 1) = k := by omega
        simp only [e, e2, List.getD_cons_succ, List.length_cons, h, if_false]
        split <;> split <;> first | rfl | omega
      · simp only [List.length_cons]
        rw [if_neg (by omega), if_neg h, if_neg (by omega)]

theorem State.byte_setBytes_out (s : State) {a b : Nat} {bs : List Byte} (h : ¬ (a ≤ b ∧ b < a + bs.length)) :
    (s.setBytes a bs).byte b = s.byte b := by rw [State.byte_setBytes, if_neg h]

@[simp] theorem State.length_bytes (s : State) (a n : Nat) : (s.bytes a n).length = n := by
  induction n generalizing a with
  | zero => rfl
  | succ n ih => simp [State.bytes, ih]

theorem State.getD_bytes (s : State) (a n i : Nat) (h : i < n) : (s.bytes a n).getD i 0 = s.byte (a + i) := by
  induction n generalizing a i with
  | zero => omega
  | succ n ih =>
    cases i with
    | zero => simp [State.bytes]
    | succ i =>
      have := ih (a + 1) i (by omega)
      simpa [State.bytes, Nat.add_assoc, Nat.add_comm 1 i] using this

/-- Memories that agree on a range read alike there. -/
theorem State.bytes_congr {s t : State} {a n : Nat} (h : ∀ i, i < n → s.byte (a + i) = t.byte (a + i)) :
    s.bytes a n = t.bytes a n := by
  induction n generalizing a with
  | zero => rfl
  | succ n ih =>
    simp only [State.bytes]
    rw [show s.byte a = t.byte a from h 0 (by omega), ih]
    intro i hi
    simpa [Nat.add_assoc, Nat.add_comm 1 i] using h (i + 1) (by omega)

/-! ## What a store of bytes leaves -/

@[simp] theorem State.setBytes_regs (s : State) (a : Nat) (bs : List Byte) : (s.setBytes a bs).regs = s.regs := by
  induction bs generalizing s a with
  | nil => rfl
  | cons b bs ih => simp [State.setBytes, ih]

/-- A store of bytes changes memory only. -/
theorem State.setBytes_only (s : State) (a : Nat) (bs : List Byte) :
    s.setBytes a bs = { s with mem := (s.setBytes a bs).mem } := by
  induction bs generalizing s a with
  | nil => rfl
  | cons b bs ih => rw [State.setBytes, ih]; rfl

/-! ## The canonical form -/

@[simp] theorem reset_mem_wf : Memory.wf State.reset.mem = true := rfl

theorem State.setByte_wf {s : State} (a : Nat) (b : Byte) (h : Memory.wf s.mem = true) :
    Memory.wf (s.setByte a b).mem = true := Tbl.wf_set _ _ h

theorem State.setBytes_wf {s : State} (a : Nat) (bs : List Byte) (h : Memory.wf s.mem = true) :
    Memory.wf (s.setBytes a bs).mem = true := by
  induction bs generalizing s a with
  | nil => exact h
  | cons b bs ih => exact ih _ (State.setByte_wf _ _ h)

theorem State.setLe_wf {s : State} (a n v : Nat) (h : Memory.wf s.mem = true) :
    Memory.wf (s.setLe a n v).mem = true := State.setBytes_wf _ _ h

theorem filter_wf {m : Tbl Byte} (p : Nat × Byte → Bool) (h : Memory.wf m = true) : Memory.wf (m.filter p) = true :=
  Tbl.wf_filter p h

@[simp] theorem State.creelCmdEnd_mem (s : State) (k code : Nat) : (s.creelCmdEnd k code).mem = s.mem := by
  dsimp only [State.creelCmdEnd]
  exact State.wr_mem _ _ _

@[simp] theorem State.creelCmdOf_mem (s : State) (c a code : Nat) : (s.creelCmdOf c a code).mem = s.mem := by
  unfold State.creelCmdOf
  split
  · exact State.creelCmdEnd_mem _ _ _
  · rfl

@[simp] theorem State.searchOff_mem (s : State) (c : Nat) : (s.searchOff c).mem = s.mem := by
  simp only [State.searchOff, State.creelCmdOf_mem, State.updChan_mem]

@[simp] theorem State.incF_mem (s : State) (a : Nat) (f : Fld) : (s.incF a f).mem = s.mem := State.setF_mem _ _ _ _
@[simp] theorem State.satF_mem (s : State) (a : Nat) (f : Fld) : (s.satF a f).mem = s.mem := State.setF_mem _ _ _ _
@[simp] theorem State.cntShared_mem (s : State) (j : Nat) : (s.cntShared j).mem = s.mem := State.count_mem _ _ _
@[simp] theorem State.creelInfo_mem (s : State) (c a : Nat) : (s.creelInfo c a).mem = s.mem := State.wr_mem _ _ _
@[simp] theorem State.wantSearch_mem (s : State) (c : Nat) : (s.wantSearch c).mem = s.mem := State.updChan_mem _ _ _
@[simp] theorem State.laterErr_mem (s : State) (a b i : Nat) : (s.laterErr a b i).mem = s.mem := State.later_mem _ _ _ _
@[simp] theorem State.laterMasked_mem (s : State) (m c u l : Nat) : (s.laterMasked m c u l).mem = s.mem :=
  State.later_mem _ _ _ _

@[simp] theorem State.ceBit_mem (s : State) (k : Nat) : (s.ceBit k).mem = s.mem := by
  unfold State.ceBit
  split
  · exact rfl
  · exact (State.laterErr_mem _ _ _ _).trans (State.setF_mem _ _ _ _)

@[simp] theorem State.ceReached_mem (s : State) (c a : Nat) : (s.ceReached c a).mem = s.mem := by
  rw [State.ceReached, State.wantSearch_mem, State.ceBit_mem, State.creelInfo_mem]

@[simp] theorem State.corrected_mem (s : State) (c a : Nat) : (s.corrected c a).mem = s.mem := by
  simp only [State.corrected, apply_ite State.mem, ite_self, State.ceReached_mem, State.updChan_mem, State.incF_mem,
    State.cntShared_mem]

@[simp] theorem State.lineSeen_mem (s : State) (a : Nat) : (s.lineSeen a).mem = s.mem := by
  unfold State.lineSeen
  split
  · rfl
  · split
    · split
      · rfl
      · exact State.corrected_mem _ _ _
    · rfl

@[simp] theorem State.freeze_mem (s : State) (a : Nat) : (s.freeze a).mem = s.mem := by
  unfold State.freeze
  split
  · exact rfl
  · split
    · exact rfl
    · dsimp only
      split <;>
        simp only [State.laterMasked_mem, State.creelInfo_mem, State.setF_mem, State.searchOff_mem, State.setChanState_mem]

/-- An uncorrectable read leaves memory alone. -/
@[simp] theorem State.uncRead_mem (s : State) (a : Nat) : (s.uncRead a).mem = s.mem := by
  unfold State.uncRead
  extract_lets u
  have hu : u.mem = s.mem := State.count_mem _ _ _
  clear_value u
  cases u.servedBy a with
  | none => exact hu
  | some c =>
    dsimp only [State.wantSearch, State.creelInfo, State.satF]
    rw [State.freeze_mem, State.updChan_mem, State.setF_mem, State.wr_mem, State.setF_mem]
    exact hu

@[simp] theorem State.uncAlone_mem (s : State) (a : Nat) : (s.uncAlone a).mem = s.mem := by
  unfold State.uncAlone
  dsimp only
  split
  · exact State.uncRead_mem _ _
  · split
    · exact State.uncRead_mem _ _
    · simp only [State.laterMasked, State.later_mem, State.draw_mem, State.uncRead_mem]

/-- Requests for lines leave memory alone. -/
@[simp] theorem State.hbmReq_mem (s : State) (flow read pair : Bool) (a : Nat) (who : EvMaster) :
    (s.hbmReq flow read pair a who).2.mem = s.mem := by
  simp only [State.hbmReq, apply_ite Prod.snd, apply_ite State.mem]
  split
  · rfl
  · cases State.servedBy _ a with
    | none => rfl
    | some c => exact State.updChan_mem _ _ _

@[simp] theorem State.hbmReqs_mem (s : State) (flow read : Bool) (who : EvMaster) (lo hi k a : Nat) :
    (State.hbmReqs s flow read who lo hi k a).mem = s.mem := by
  induction k generalizing s a with
  | zero => rfl
  | succ k ih =>
    rw [State.hbmReqs, ih, State.hbmReq_mem]
    split
    · exact State.lineSeen_mem _ _
    · exact rfl

@[simp] theorem State.hbmTraffic_mem (s : State) (flow read : Bool) (who : EvMaster) (a n : Nat) :
    (s.hbmTraffic flow read who a n).mem = s.mem := by
  unfold State.hbmTraffic
  split
  · exact State.hbmReqs_mem _ _ _ _ _ _ _ _
  · rfl

theorem State.hbmPutLine_wf {s : State} (a : Nat) (bs : List Byte) (h : Memory.wf s.mem = true) :
    Memory.wf (s.hbmPutLine a bs).mem = true := by
  unfold State.hbmPutLine
  split
  · exact h
  · extract_lets u v
    have hu : Memory.wf u.mem = true := by
      refine State.setBytes_wf _ _ ?_
      split
      · exact h
      · rw [State.lineSeen_mem]; exact h
    have hv : Memory.wf v.mem = true := by
      show Memory.wf (State.scanTouch _ _ _).mem = true
      unfold State.scanTouch
      dsimp only
      split
      · exact hu
      · exact hu
    clear_value v
    split
    · exact hv
    · split
      · show Memory.wf (if _ then v else v.uncAlone a).mem = true
        split
        · exact hv
        · rw [State.uncAlone_mem]; exact hv
      · exact hv

theorem State.hbmPutCopy_wf {s : State} (n a : Nat) (bs : List Byte) (h : Memory.wf s.mem = true) :
    Memory.wf (s.hbmPutCopy n a bs).mem = true := by
  induction n generalizing s a bs with
  | zero => exact h
  | succ n ih =>
    unfold State.hbmPutCopy
    split
    · exact h
    · exact ih _ _ (State.hbmPutLine_wf _ _ h)

theorem State.hbmPut_wf {s : State} (a : Nat) (bs : List Byte) (h : Memory.wf s.mem = true) :
    Memory.wf (s.hbmPut a bs).mem = true := State.hbmPutCopy_wf _ _ _ h

theorem State.hbmStore_wf {s : State} (who : EvMaster) (a : Nat) (bs : List Byte) (h : Memory.wf s.mem = true) :
    Memory.wf (s.hbmStore who a bs).mem = true := by
  unfold State.hbmStore
  extract_lets m u
  have hu : Memory.wf u.mem = true := State.hbmPut_wf _ _ (by rw [State.hbmTraffic_mem]; exact h)
  clear_value u
  cases m with
  | none => exact hu
  | some b => exact State.hbmPut_wf _ _ (by rw [State.hbmTraffic_mem]; exact hu)

@[simp] theorem State.peekedLine_mem (s : State) (b : Nat) : (s.peekedLine b).mem = s.mem := by
  simp only [State.peekedLine, apply_ite State.mem, State.uncAlone_mem, State.hbmTraffic_mem, ite_self]

@[simp] theorem State.peekedLines_mem (s : State) (k a : Nat) : (s.peekedLines k a).mem = s.mem := by
  induction k generalizing s a with
  | zero => rfl
  | succ k ih => rw [State.peekedLines, ih, State.peekedLine_mem]

/-- A read by the device leaves memory alone. -/
@[simp] theorem State.peeked_mem (s : State) (a n : Nat) : (s.peeked a n).mem = s.mem := by
  unfold State.peeked
  split
  · exact State.peekedLines_mem _ _ _
  · rfl

theorem State.poke_wf {s : State} (a : Nat) (bs : List Byte) (h : Memory.wf s.mem = true) :
    Memory.wf (s.poke a bs).mem = true := by
  unfold State.poke
  split
  · exact State.hbmStore_wf _ _ _ h
  · split
    · exact h
    · exact State.setBytes_wf _ _ h

theorem State.dieByte_wf {s : State} (a : Nat) (b : Byte) (h : Memory.wf s.mem = true) :
    Memory.wf (s.dieByte a b).mem = true := by
  unfold State.dieByte
  split
  · exact State.setByte_wf _ _ h
  · exact h

theorem State.dieSet_wf {s : State} (a : Nat) (bs : List Byte) (h : Memory.wf s.mem = true) :
    Memory.wf (s.dieSet a bs).mem = true := by
  induction bs generalizing s a with
  | nil => exact h
  | cons b bs ih => exact ih _ (State.dieByte_wf _ _ h)

end Sys2Proof.Machine
end

