-- ==== Sys2Proof/Laws/Runs.lean ====
section
/-! SUPPORT. One lemma for each way an instruction runs: what a thread or a draft is left with when its meaning is pure, changes the device, waits, or is refused; and what a dropped packet leaves. -/

namespace Sys2Proof.Machine

@[simp] theorem Task.read_write_st (t : Task) (sp : BitVec 6) (v : Word) : (t.write sp v).stReg = t.stReg := by
  unfold Task.write; split <;> rfl

/-- The unsigned minimum, as a number. -/
theorem BitVec.ite_lt_min (a b : Word) : (if b < a then b else a) = BitVec.ofNat 64 (min a.toNat b.toNat) := by
  apply BitVec.eq_of_toNat_eq
  simp only [BitVec.toNat_ofNat]
  have := a.isLt; have := b.isLt
  rw [Nat.mod_eq_of_lt (by omega)]
  split <;> simp_all [BitVec.lt_def] <;> omega

/-- The unsigned maximum, as a number. -/
theorem BitVec.ite_lt_max (a b : Word) : (if a < b then b else a) = BitVec.ofNat 64 (max a.toNat b.toNat) := by
  apply BitVec.eq_of_toNat_eq
  simp only [BitVec.toNat_ofNat]
  have := a.isLt; have := b.isLt
  rw [Nat.mod_eq_of_lt (by omega)]
  split <;> simp_all [BitVec.lt_def] <;> omega

/-- The low half of a product, as a number. -/
theorem BitVec.mul_ofNat (a b : Word) : a * b = BitVec.ofNat 64 (a.toNat * b.toNat) := by
  apply BitVec.eq_of_toNat_eq; simp [BitVec.toNat_mul]

/-- A register-form ALU instruction in a thread writes its result and passes on. -/
theorem aluRR_thread {op f k w s} (h : s.threadRuns k) (c : Instr) (hc : exec c s = aluRR op f (.task k) w s) :
    threadWrites c s k w (f ((s.task k.val).read w.src1) ((s.task k.val).read w.src2)) := by
  unfold threadWrites threadDoes becomes
  rw [hc]
  obtain ⟨t, e, a⟩ := taskPure_runs (g := fun t => t.write w.dest (f (t.read w.src1) (t.read w.src2))) h
    (by simp [h.1])
  exact ⟨t, e, a⟩

/-- An imm-form ALU instruction in a thread. -/
theorem aluRI_thread {op f k w s} (h : s.threadRuns k) (c : Instr) (hc : exec c s = aluRI op f (.task k) w s) :
    threadWrites c s k w (f ((s.task k.val).read w.src1) w.sext) := by
  unfold threadWrites threadDoes becomes
  rw [hc]
  obtain ⟨t, e, a⟩ := taskPure_runs (g := fun t => t.write w.dest (f (t.read w.src1) w.sext)) h
    (by simp [h.1])
  exact ⟨t, e, a⟩

/-- A meaning that changes the device and the packet, in a draft: it passes on, or ends the pick on the last word. -/
theorem pickLeaves_of_done {c : Instr} {s : State} {p : PktId} {x y : Pkt} {op addr : Nat} {f u} (h : s.pickRuns p x)
    (hc : exec c s = runPick p op f s) (hf : f x s = .done (u.setPkt p (some y)) addr) (hn : u.now = s.now) :
    pickLeaves c s p u y := by
  have hy : (u.setPkt p (some y)).pkt? p = some y := State.pkt_setPkt _ _ _
  have hg : (u.setPkt p (some y)).pickGoesOn y ↔ u.pickGoesOn y := by
    unfold State.pickGoesOn; rw [State.setPkt_draftLen]
  have hm : (u.setPkt p (some y)).now = s.now := hn
  constructor
  · intro hl
    obtain ⟨t, e, a⟩ := runPick_done (op := op) h hf hy (hg.mpr hl)
    rw [State.setPkt_setPkt, hm] at a
    exact ⟨t, by rw [hc, e], a⟩
  · intro hl
    obtain ⟨v, e, a⟩ := runPick_last (op := op) h hf hy (fun k => hl (hg.mp k))
    rw [State.setPkt_setPkt, hm] at a
    exact ⟨v, by rw [hc, e], a⟩

/-- A meaning that changes its packet only, in a draft. -/
theorem pickPure_does {op g s x} {p : PktId} (h : s.pickRuns p x) (c : Instr) (hc : exec c s = pickPure p op g s) :
    pickDoes c s p (g x) :=
  pickLeaves_of_done (f := fun x s => .done (s.setPkt p (some (g x))) 0) h hc rfl rfl

/-- A meaning that only writes its dest, in a draft. -/
theorem pickPure_writes {op g s x w} {p : PktId} (v : Word) (h : s.pickRuns p x) (c : Instr)
    (hc : exec c s = pickPure p op g s) (hg : g x = x.write w.dest v) : pickWrites c s p x w v := by
  unfold pickWrites; rw [← hg]; exact pickPure_does h c hc

/-- A register-form ALU instruction in a draft. -/
theorem aluRR_pick {op f w s x} {p : PktId} (h : s.pickRuns p x) (c : Instr) (hc : exec c s = aluRR op f (.pick p) w s) :
    pickWrites c s p x w (f (x.read w.src1) (x.read w.src2)) :=
  pickPure_does (g := fun x => x.write w.dest (f (x.read w.src1) (x.read w.src2))) h c hc

/-- An imm-form ALU instruction in a draft. -/
theorem aluRI_pick {op f w s x} {p : PktId} (h : s.pickRuns p x) (c : Instr) (hc : exec c s = aluRI op f (.pick p) w s) :
    pickWrites c s p x w (f (x.read w.src1) w.sext) :=
  pickPure_does (g := fun x => x.write w.dest (f (x.read w.src1) w.sext)) h c hc

/-- A meaning that only writes its dest, in a thread. -/
theorem taskPure_writes {op g k w s} (v : Word) (h : s.threadRuns k) (c : Instr) (hc : exec c s = taskPure k.val op w g s)
    (hg : g (s.task k.val) = (s.task k.val).write w.dest v) : threadWrites c s k w v := by
  unfold threadWrites threadDoes becomes
  rw [hc, ← hg]
  exact taskPure_runs (g := g) h (by rw [hg]; simp [h.1])

/-- What the end of a pick shows: memory, packets and counters. -/
def State.shows (s : State) := (s.mem, s.pkts, s.glass)

@[simp] theorem State.shows_setLine (s : State) (l c)  : State.shows (s.setLine l c) = State.shows s := rfl

@[simp] theorem State.shows_freeLine (s : State) (l : Nat) : State.shows (s.freeLine l) = State.shows s := by
  unfold State.freeLine; split <;> (try rfl); split <;> rfl

@[simp] theorem State.shows_updLine (s : State) (l f) : State.shows (s.updLine l f) = State.shows s := by
  unfold State.updLine; split <;> rfl

@[simp] theorem State.shows_unpin (s : State) (l r) : State.shows (s.unpin l r) = State.shows s := by
  unfold State.unpin; split <;> (try rfl); split <;> (first | rfl | exact State.shows_freeLine _ _)

@[simp] theorem State.shows_freeSpare (s : State) (x) : State.shows (s.freeSpare x) = State.shows s := by
  unfold State.freeSpare; split <;> (first | rfl | exact State.shows_freeLine _ _)

@[simp] theorem State.shows_returnResv (s : State) (l n) : State.shows (s.returnResv l n) = State.shows s := rfl

/-- A count moves one counter. -/
theorem State.counter_count (s : State) (o k q : Nat) : (s.count o k).counter q = if q = o then s.counter q + BitVec.ofNat 64 k else s.counter q := by
  unfold State.counter State.count
  simp only [Tbl.upd]
  rw [Tbl.get_set]
  split <;> simp_all

/-- A pick that ends in a drop: its packet leaves, its loom counts the reason, all else of packets and memory stays. -/
theorem State.endPick_drop (s : State) (p : Nat) (x : Pkt) (code : Nat) (h : s.pkt? p = some x) (hd : x.pick.disp = .drop code) :
    ∃ t, s.endPick p = .ok t ∧ t.pkt? p = none ∧ (∀ q, q ≠ p → t.pkt? q = s.pkt? q) ∧ s.sameMem t ∧
     (x.loom < 16 → code < 64 → t.loomCounter x.loom code = s.loomCounter x.loom code + 1) := by
  have key : ∃ u, s.endPick p = .ok ((u.cntLoom x.loom code).setPkt p none) ∧ (State.shows u = State.shows s ∨ State.shows u = State.shows (s.cntShared 0)) := by
    unfold State.endPick
    simp only [h, hd]
    simp only [State.finishFrame]
    refine ⟨_, rfl, ?_⟩
    have hc : ∀ y, State.shows (s.countNoLookup y) = State.shows s ∨ State.shows (s.countNoLookup y) = State.shows (s.cntShared 0) := by
      intro y; unfold State.countNoLookup; split
      · exact .inl rfl
      · exact .inr rfl
    simp only [reduceCtorEq, if_false, State.shows_returnResv]
    split <;> (try simp only [State.shows_unpin]) <;> split <;> (try split) <;> simp only [State.shows_unpin, State.shows_freeSpare] <;> exact hc _
  obtain ⟨u, e, hu⟩ := key
  refine ⟨_, e, State.pkt_setPkt _ _ _, ?_, ?_, ?_⟩
  · intro q hq
    rw [State.pkt_setPkt_other _ _ _ hq]
    have : u.pkts = s.pkts := by rcases hu with hu | hu <;> exact congrArg (fun x => x.2.1) hu
    show Tbl.get _ u.pkts q = _
    rw [this]; rfl
  · intro a
    have : u.mem = s.mem := by rcases hu with hu | hu <;> exact congrArg (fun x => x.1) hu
    show Tbl.get _ u.mem a = _
    rw [this]; rfl
  · intro hl hcd
    have e1 : ∀ o, (u.counter o) = s.counter o ∨ u.counter o = (s.cntShared 0).counter o := by
      intro o
      rcases hu with hu | hu
      · left; exact congrArg (fun x => Tbl.get (Tbl.const 0) x.2.2.live o) hu
      · right; exact congrArg (fun x => Tbl.get (Tbl.const 0) x.2.2.live o) hu
    show (u.count _ 1).counter _ = _
    rw [State.counter_count, if_pos rfl]
    rcases e1 (0x180000 + 0x1000 * x.loom + 8 * code) with e | e
    · rw [e]; rfl
    · rw [e]
      unfold State.cntShared
      rw [State.counter_count, if_neg (by omega)]; rfl

/-- The same, of a pick that is made to end in a drop. -/
theorem State.endPickDrop_drop (s : State) (p : Nat) (x : Pkt) (code : Nat) (h : s.pkt? p = some x) :
    ∃ t, s.endPickDrop p code = .ok t ∧ t.pkt? p = none ∧ (∀ q, q ≠ p → t.pkt? q = s.pkt? q) ∧ s.sameMem t ∧
     (x.loom < 16 → code < 64 → t.loomCounter x.loom code = s.loomCounter x.loom code + 1) := by
  unfold State.endPickDrop State.updPkt
  simp only [h]
  obtain ⟨t, e, h1, h2, h3, h4⟩ := State.endPick_drop (s.setPkt p (some { x with pick := { x.pick with disp := .drop code } })) p
    { x with pick := { x.pick with disp := .drop code } } code (State.pkt_setPkt _ _ _) rfl
  refine ⟨t, e, h1, ?_, h3, h4⟩
  intro q hq
  rw [h2 q hq]
  exact State.pkt_setPkt_other _ _ _ hq

/-- An instruction a draft may not run drops the packet. -/
theorem drops_illegal {c : Instr} {s p x op} (h : s.pickRuns p x) (hc : exec c s = pickIllegal p op s) : drops c s p x 50 := by
  unfold drops
  rw [hc, pickIllegal_runs h]
  obtain ⟨t, e, h1, h2, h3, h4⟩ := State.endPickDrop_drop s p x 50 h.1
  rw [e]
  exact ⟨t, rfl, h1, h2, h3, fun hl => h4 hl (by decide)⟩

/-- A run that ends the pick in a drop drops the packet. -/
theorem drops_run {c : Instr} {s p x op f} (code) (h : exec c s = runPick p op f s) (hp : s.pkt? p = some x)
    (hr : runPick p op f s = toOut (s.endPickDrop p code)) (hc : code < 64) : drops c s p x code := by
  unfold drops
  rw [h, hr]
  obtain ⟨t, e, h1, h2, h3, h4⟩ := State.endPickDrop_drop s p x code hp
  rw [e]
  exact ⟨t, rfl, h1, h2, h3, fun hl => h4 hl hc⟩

/-- A meaning that changes the device and the task. -/
theorem threadLeaves_of_done {c : Instr} {s k f u y op w} (h : s.threadRuns k) (hc : exec c s = runTask k.val op w f s)
    (hf : f (s.task k.val) s = .done (u.setTask k.val y)) (hy : y.st ≠ .free) : threadLeaves c s k u y := by
  obtain ⟨t, e, a⟩ := runTask_done h hf
  refine ⟨t, by rw [hc, e], ?_⟩
  unfold State.updTask at a
  rw [State.task_setTask, State.setTask_setTask _ _ _ _ hy (by simpa using hy)] at a
  exact a

/-- The next word depends on the pc, the batten and the bank only. -/
theorem State.pickGoesOn_congr {s : State} {x y : Pkt} (h : s.pickGoesOn x) (h1 : y.pick.pc = x.pick.pc) (h2 : y.pick.seq = x.pick.seq) (h3 : y.pick.bank = x.pick.bank) : s.pickGoesOn y := by
  unfold State.pickGoesOn at *; rw [h1, h2, h3]; exact h

/-- An update of a packet that is there. -/
theorem State.updPkt_some {s : State} {p x f} (h : s.pkt? p = some x) : s.updPkt p f = s.setPkt p (some (f x)) := by
  unfold State.updPkt; simp [h]

/-- A meaning that keeps the thread where it is. -/
theorem becomes_of_keep {c : Instr} {s k f u op w} (h : s.threadRuns k) (hc : exec c s = runTask k.val op w f s)
    (hf : f (s.task k.val) s = .keep u) : becomes c s (u.noteWait k.val op w) := by
  obtain ⟨t, e, a⟩ := runTask_keep h hf
  exact ⟨t, by rw [hc, e], a⟩

/-- A meaning that passes on. -/
theorem becomes_of_done {c : Instr} {s k f u op w} (h : s.threadRuns k) (hc : exec c s = runTask k.val op w f s)
    (hf : f (s.task k.val) s = .done u) : becomes c s (u.updTask k.val Task.step) := by
  obtain ⟨t, e, a⟩ := runTask_done h hf
  exact ⟨t, by rw [hc, e], a⟩

/-- A use that is undefined. -/
theorem fault_of_undef {c : Instr} {s k f n op w} (h : s.threadRuns k) (hc : exec c s = runTask k.val op w f s)
    (hf : f (s.task k.val) s = .undef n) : exec c s = .fault (.undefinedBehaviour n) := by
  obtain ⟨h1, h2, h3, h4⟩ := h
  rw [hc]; unfold runTask; simp [h1, h2, h3, h4, hf, ub]

end Sys2Proof.Machine
end

