-- ==== Sys2Proof/Tests/Slice0.lean ====
section
/-! SUPPORT. Tests of the model: ill-formed commands refused, values the spec gives, and for every statement states
that meet its hypotheses. -/

open Sys2Proof Sys2Proof.Machine

namespace Sys2Proof.Tests

set_option Elab.async false

/-! ## Small states -/

/-- A pick in its first instruction, its draft in bank A before batten 0. -/
def pick0 : Pick :=
  { seq := 0, bank := false, pick2 := false, order := 0, startNs := 0, issueNs := 0, g := Vector.replicate 16 0,
    p := 0, st := 0, pc := 1, icount := 0, disp := .none, wait := .none, held := none, spare := none,
    searched := false, cands := [], candMore := false, nextHop := none, stampReq := [], editSet := false,
    timeSet := false, looked := false }

/-- A packet of 64 zero bytes from port 0, in its pick. -/
def pkt0 : Pkt :=
  { place := .running, frame := List.replicate 64 0, inPort := 0, loom := 0, shed := 0, injected := false,
    timing := false, oversize := false, fcsOk := true, bolt := 0, stamps := List.replicate 8 none,
    parseDeep := false, parseLen := false, lenPair := 0, profile := 0, steps := [], hfValid := 0, hfDirty := 0,
    hf := Vector.replicate 32 0, src := Vector.replicate 32 none, flowHash := 0, user := 0, pick := pick0,
    kept := none, resv := 0, everEdit := false, lastEdit := false, timeAct := none, pool := none, acct := none,
    cells := 0, refs := 0 }

/-- The device with packet 0, which is `x`, and a draft of 100 words in bank A. -/
def withPkt (x : Pkt) : State := { State.reset with mem := [(0x10000000, 100)], pkts := [(0, some x)], nextPkt := 1 }

/-- A task that runs. -/
def task0 : Task := { Task.none with st := .running, ctx := some 1 }

/-- The device with task 0, which is `t`, and a program of 100 words at word 0. -/
def withTask (t : Task) : State :=
  { State.reset with mem := [(0x44000003, 0x40), (0x44000004, 0x06)],
                     spin := { State.reset.spin with task := [(0, t)] } }

/-- An instruction word with all fields 0. -/
def w0 : IWord := { dest := 0, src1 := 0, src2 := 0, fn := 0, val := 0 }

/-- Task 0. -/
def k0 : TaskId := 0

/-- A state with some registers set. -/
def withRegs (s : State) (l : List (Nat × Word)) : State := l.foldl (fun (s : State) e => s.wr e.1 e.2) s

/-- A field of a word. -/
def fw (f : Fld) (v : Nat) : Word := f.put 0 v

/-- A pick. -/
def sP : State := withPkt pkt0
/-- A thread. -/
def sT : State := withTask task0

/-- With no batten in the overlay, no register word and no byte of memory is in it: the premise of every statement about
a register write. -/
theorem no_overlay (s : State) (h : s.bat.cur = none) (a n : Nat) :
    s.regInOverlay a = false ∧ s.memInOverlay a n = false := by
  simp [State.regInOverlay, State.memInOverlay, h]

/-! ## States that meet the hypotheses of the statements: instructions -/

/-- The runs of threads and picks that the statements about instructions are of. -/
theorem runs_thread : sT.threadRuns k0 := by unfold State.threadRuns; decide +kernel
theorem runs_pick : sP.pickRuns 0 pkt0 ∧ sP.pickGoesOn pkt0 := by
  unfold State.pickRuns State.pickGoesOn; decide +kernel

/-- AluInstructions, OperandsAndHashes, NopAndIllegalUses: threads and picks that run; specifiers of each kind, a valid
and an invalid slot; BR of kinds 5 and 6. -/
theorem witness_AluInstructions : sT.threadRuns k0 ∧ sP.pickRuns 0 pkt0 ∧ sP.pickGoesOn pkt0 :=
  ⟨runs_thread, runs_pick.1, runs_pick.2⟩
theorem witness_OperandsAndHashes : (sT.threadRuns k0 ∧ sP.pickRuns 0 pkt0 ∧ sP.pickGoesOn pkt0) ∧
    ({ pkt0 with hfValid := 1 } : Pkt).hfValid.getLsbD (32 - 32) = true ∧ pkt0.hfValid.getLsbD (63 - 32) = false :=
  ⟨witness_AluInstructions, by decide +kernel, by decide +kernel⟩
theorem witness_NopAndIllegalUses : (sT.threadRuns k0 ∧ sP.pickRuns 0 pkt0) ∧ bitsOf (40 : BitVec 6).toNat 5 3 = 5 ∧
    bitsOf (48 : BitVec 6).toNat 5 3 = 6 ∧ pkt0.loom < 16 :=
  ⟨⟨runs_thread, runs_pick.1⟩, by decide +kernel, by decide +kernel, by decide +kernel⟩

/-- ThreadControlFlow: branches taken and not taken, to words in and out of the program and below 0, by displacement and
by register; END; loops full, skipped and entered. -/
theorem witness_ThreadControlFlow : sT.threadRuns k0 ∧
    (¬ brTakes { w0 with fn := 9 } 0 0 ∧ brTakes w0 0 0 ∧ bitsOf (32 : BitVec 6).toNat 5 3 < 5) ∧
    (sT.inProgram 0 99 = true ∧ sT.inProgram 0 100 = false ∧ (0 : Int) + (-1 : BitVec 32).toInt < 0) ∧
    (bitsOf (56 : BitVec 6).toNat 5 3 = 7 ∧ task0.heldRel = false ∧ task0.deadline = none ∧
      task0.flags &&& (sT.taskWord 0 1).extractLsb' 32 32 = 0) ∧
    (4 ≤ (List.replicate 4 (⟨1, 0, 1⟩ : Machine.Loop)).length ∧ task0.loops.length < 4 ∧
      (4095 : BitVec 32).toNat % 4096 ≠ 0 ∧ (4096 : BitVec 32).toNat % 4096 = 0) := by
  refine ⟨runs_thread, ?_, by decide +kernel, by decide +kernel, by decide +kernel⟩
  unfold brTakes; decide +kernel
theorem witness_ThreadControlFlow_full :
    (withTask { task0 with loops := List.replicate 4 ⟨1, 0, 1⟩ }).threadRuns k0 := by unfold State.threadRuns; decide +kernel

/-- DraftControlFlow: BRP of either sense, a taken branch to the draft's last word, one backward, and a spent budget. -/
theorem witness_DraftControlFlow : (sP.pickRuns 0 pkt0 ∧ sP.pickGoesOn pkt0) ∧
    (pkt0.pick.p.getLsbD ((8 : BitVec 6).toNat % 8) ≠ (8 : BitVec 6).getLsbD 3 ∧
      ¬ (pkt0.pick.p.getLsbD ((0 : BitVec 6).toNat % 8) ≠ (0 : BitVec 6).getLsbD 3)) ∧
    (0 < (98 : BitVec 32).toInt ∧ ((1 : Nat) : Int) + (98 : BitVec 32).toInt < sP.draftLen 0 false) ∧
    (0 : BitVec 32).toInt ≤ 0 ∧
    ((withPkt { pkt0 with pick := { pick0 with icount := 24 } }).pkt? 0).map (fun x => x.pick.icount) = some 24 :=
  ⟨runs_pick, by decide +kernel, by decide +kernel, by decide +kernel, by decide +kernel⟩

/-- WindowsTimesAndCounts: md and head windows, the offsets where stores begin and cease to be allowed, a domain on and
off, a stamp and none, and pool entries at the edges of the pool and of the entries. -/
theorem witness_WindowsTimesAndCounts : (sP.pickRuns 0 pkt0 ∧ sP.pickGoesOn pkt0 ∧ sT.threadRuns k0) ∧
    ((0x100 : BitVec 32).getLsbD 8 = true ∧ (32 : BitVec 32).getLsbD 8 = false ∧ bitsOf (63 : BitVec 32).toNat 5 0 = 63 ∧
      64 < 63 + 2 ^ ((1 : BitVec 6).toNat % 4) ∧ 63 + 2 ^ ((0 : BitVec 6).toNat % 4) ≤ 64) ∧
    ((withRegs sP [(Reg.timeDomCtl 0, fw Fld.timeDomCtlEnable 1)]).domOn 0 = true ∧ sP.domOn 7 = false ∧
      pkt0.stamps.getD 0 none = none) ∧
    (let s := withRegs sT [(Reg.glassPool 0, Fld.glassPoolBase.put (fw Fld.glassPoolSize 16) 65535)]
     (0 < Fld.glassPoolSize.get (s.rd (Reg.glassPool 0)) ∧ Fld.glassPoolBase.get (s.rd (Reg.glassPool 0)) + 0 ≤ 65535 ∧
       ¬ Fld.glassPoolBase.get (s.rd (Reg.glassPool 0)) + 1 ≤ 65535) ∧ Fld.glassPoolSize.get (s.rd (Reg.glassPool 1)) = 0) ∧
    pkt0.loom < 16 :=
  ⟨⟨runs_pick.1, runs_pick.2, runs_thread⟩, by decide +kernel, by decide +kernel, by decide +kernel, by decide +kernel⟩

/-- DispositionInstructions: ports that are enabled, not enabled and no port; a bucket with a token and one without a
rate; a first pick with room, one without, one that holds a reservation, and a second pick. -/
theorem witness_DispositionInstructions : (sP.pickRuns 0 pkt0 ∧ sP.pickGoesOn pkt0) ∧
    (let s := withRegs sP [(portCfg 0, fw Fld.selvPortCfgEnable 1)]
     s.pfld 0 (portCfg 0) Fld.selvPortCfgEnable = 1 ∧ s.pfld 0 (portCfg 511) Fld.selvPortCfgEnable ≠ 1) ∧
    (let s := withRegs { sP with now := 1000000 } [(Reg.loomPuntBkt 0 0, fw Fld.loomPuntBktRate 1)]
     s.fld (Reg.loomPuntBkt 0 0) Fld.loomPuntBktRate ≠ 0 ∧
       1000000 ≤ min (1000000 * max 1 (s.fld (Reg.loomPuntBkt 0 0) Fld.loomPuntBktBurst) : Int) (0 + 1 * 1000000) ∧
       s.fld (Reg.loomPuntBkt 0 63) Fld.loomPuntBktRate = 0) ∧
    (let n := (pkt0.frame.length + 112 + 255) / 256
     pkt0.pick.pick2 = false ∧ pkt0.resv = 0 ∧ pkt0.pick.held = none ∧ n ≤ sP.recircFree ∧ n ≤ sP.bankFree 0 ∧
       ¬ n ≤ ({ sP with beam := { sP.beam with recircUsed := 4096 } } : State).recircFree ∧
       sP.pickProfile 0 = 0 ∧ sP.recPinned 0 = []) :=
  ⟨runs_pick, by decide +kernel, by decide +kernel, by decide +kernel⟩

/-! ## Flow records -/

/-- Key form 0 with no slot, the Warp enabled, table 0 of one bucket. -/
def warpRegs : List (Nat × Word) :=
  [(Reg.warpCtl, fw Fld.warpCtlEnable 1), (Reg.warpKeyform 0, fw Fld.warpKeyformValid 1),
    (Reg.warpRegion, fw Fld.warpRegionBase 0x10000000000),
    (Reg.warpTbl 0, Fld.warpTblNb.put (fw Fld.warpTblValid 1) 1)]
/-- The device of packet 0 with the Warp. -/
def sW : State := withRegs sP warpRegs
/-- The device of task 0 with the Warp. -/
def sWT : State := withRegs sT warpRegs
/-- The seal of packet 0's key. -/
def seal0 : Seal := sW.sealOf (keyString 0 pkt0.hf 0 0)
/-- A head of that seal. -/
def head0 : Head := hput (headBit 0 31 true) 4 12 seal0.toNat
/-- A line that holds a head. -/
def line0 (h : Head) (r : Nat) : CLine :=
  { reserved := false, head := h, rno := r, dirty := false, refBit := false, pins := 0, recPins := 0, order := 0,
    detached := false, image := none, second := none, isSecond := false }
/-- What a pick holds of line `l`. -/
def held0 (l : Nat) : Held := { line := l, key96 := 0, rno := 0, gen := 0, created := false, onset := 0 }

/-- FlowLookups: the Warp off; a head held; a form not defined and a form defined; a key in the cache, and a key that
nothing knows. -/
theorem witness_FlowLookups : (sP.pickRuns 0 pkt0 ∧ sP.pickGoesOn pkt0 ∧ sT.threadRuns k0) ∧
    (sP.pickWarpOn pkt0 = false ∧ sW.pickWarpOn pkt0 = true ∧ sP.warpOn = false ∧ sP.isPlaced (2 ^ 28 - 1) = false) ∧
    (sW.pfld 0 (Reg.warpKeyform 15) Fld.warpKeyformValid = 0 ∧ fupdField 40 1 = false ∧ (0 : BitVec 6).toNat % 8 ≠ 4) ∧
    (sW.pickProfile 0 ≠ 2 ∧ pkt0.pick.held = none ∧ pkt0.kept = none ∧
      sW.pickKey pkt0 0 0 = some (0, keyString 0 pkt0.hf 0 0) ∧ sW.sealBusy 0 seal0 = false) ∧
    ((sW.setLine (setBase seal0) (some (line0 head0 0))).cacheFind seal0 = some (setBase seal0)) ∧
    (sW.cacheFind seal0 = none ∧ (sW.victims (lineBank (setBase seal0))).find? (fun v => headSeal v.head == seal0) = none ∧
      sW.candidate seal0 = none) :=
  ⟨⟨runs_pick.1, runs_pick.2, runs_thread⟩, by decide +kernel, by decide +kernel, by decide +kernel, by decide +kernel, by decide +kernel⟩
theorem witness_FlowLookups_held :
    (withPkt { pkt0 with pick := { pick0 with held := some (held0 0) } }).pickRuns 0
      { pkt0 with pick := { pick0 with held := some (held0 0) } } := by unfold State.pickRuns; decide +kernel

/-- FlowRecords: a free way and a free line; no table, and NO_SPACE set; each op of FUPD; deltas with room. -/
theorem witness_FlowRecords : (sW.pickRuns 0 pkt0 ∧ sW.pickGoesOn pkt0) ∧
    (pkt0.pick.spare = none ∧ (0 : BitVec 6).toNat < 16 ∧
      (List.range 16).all (fun f => !sW.fdigForm Fld.warpFdigCtlCreateForms f) = true ∧
      (∃ r g, sW.place (sW.tableFor seal0) seal0 = some (.way r g)) ∧
      ((List.range 16).map (setBase seal0 + ·)).find? (fun i => (sW.line i).isNone) = some (setBase seal0)) ∧
    (let s := withRegs sW [(Reg.warpTbl 0, 0), (Reg.warpErr, 2)]
     s.place (s.tableFor seal0) seal0 = none ∧ (s.rd Reg.warpErr).getLsbD 1 = true) ∧
    (let s := withRegs sW [(Reg.warpTbl 0, 0), (Reg.warpOvfCfg, fw Fld.warpOvfCfgCount 8)]
     (match s.place (s.tableFor seal0) seal0 with | some (.overflow _ i) => i == 0 | _ => false) = true) ∧
    ((sW.setLine 0 (some (line0 head0 0))).line (held0 0).line = some (line0 head0 0) ∧
      (24 : BitVec 32).toNat % 64 % 1 = 0 ∧ 39 + 2 ^ ((39 : BitVec 32).toNat / 64 % 4) ≤ 40 ∧
      (delta head0 3).1 + 65535 ≤ 0xFFFF ∧ (delta head0 0).2 + 0xFFFFFFFF ≤ 0xFFFFFFFF) := by
  refine ⟨?_, ⟨by decide +kernel, by decide +kernel, by decide +kernel, ⟨0, sW.bucketTag 0 seal0 |>.2, by decide +kernel⟩, by decide +kernel⟩, by decide +kernel, by decide +kernel, by decide +kernel⟩
  unfold State.pickRuns State.pickGoesOn; decide +kernel
theorem witness_HeadFields : 0 + 64 ≤ 64 ∧ 24 + 16 ≤ 64 ∧ (40 + 6 ≤ 64 ∧ 24 + 16 ≤ 40) := by decide +kernel

/-- FlowHeadsComeAndGo: a placed record whose cached head is idle, and one whose HIT is set; a pick that waits for a
head, whose read has been issued; victims. -/
theorem witness_FlowHeadsComeAndGo : sWT.threadRuns k0 ∧
    (let s : State := { sWT with warp := { sWT.warp with tags := [(0, 1)] } }
     s.isPlaced 0 = true ∧
     (s.setLine 0 (some (line0 head0 0))).lineOfRec 0 = some 0 ∧ headHit head0 = false ∧
      headHit (headBit head0 30 true) = true) ∧
    (let i : HeadWait := { key96 := seal0, key := [], form := 0, rno := 0, line := 0, create := none, reqs := [0] }
     let s := (withRegs (withPkt { pkt0 with pick := { pick0 with wait := .head i } }) warpRegs).setLine 0
       (some { line0 0 0 with reserved := true })
     s.halted = false ∧ s.line i.line = some { line0 0 0 with reserved := true } ∧ i.reqs.all s.reqDone = true ∧
       [5].all ({ s with creel := { s.creel with chan :=
         [(0, { Chan.init with queue := [⟨5, true, true, hbmBase, 0, .internal, false, false⟩] })] } } : State).reqDone = false ∧
       ({ s with warp := { s.warp with ovf := [(0, some seal0)] } } : State).candidate i.key96 = some 0 ∧
       (s.spoil (hbmLine (s.headAddr 0)) []).hbmUnc (s.headAddr 0) = false ∧
       (s.spoil (hbmLine (s.headAddr 0)) rsForced).hbmUnc (s.headAddr 0) = true) ∧
    (let v : Victim := { head := 0, rno := 0, image := none, reqs := [] }
     let s := sP.setVictims 63 [v]
     (s.victims 63)[0]? = some v ∧ v.reqs.all s.reqDone = true) := by
  refine ⟨?_, by decide +kernel, by decide +kernel, by decide +kernel⟩
  unfold State.threadRuns; decide +kernel

/-! ## Memory, waits and copies -/

/-- MemoryAccess: one address of each region, register accesses allowed and not, and an access of each outcome. -/
theorem witness_MemoryAccess : sT.threadRuns k0 ∧
    (regionOf 0x5000_0000 = .none ∧ regionOf 0 = .reg ∧ regionOf 0xFFFF_FFFF_FFFF = .host ∧
      regionOf 0x11D_FFFF_FFFF = .hbm ∧ regionOf 0x10000000 = .die) ∧
    (sT.accessHeld 0x10000000000 8 = none ∧ ((sT.setF (chanReg 0) Fld.creelChanRest 1).accessHeld 0x10000000000 8).isSome = true ∧
      regAccessOk 4 8 = false ∧ regAccessOk 4 4 = true ∧ sT.inOverlay 0 8 = false ∧ sT.inDescriptor 0 8 = false) ∧
    (({ sT with boot := { sT.boot with pcieUp := true } } : State).boot.pcieUp = true ∧
      sT.hbmUnc 0x10000000000 = false ∧ sP.hbmBad 0x10000000000 0 = none) ∧
    ((match sT.busRead (.task 0) 0x10000000000 8 with | .ok r => r.unc == false && r.bytes.length == 8 | .error _ => false) = true ∧
      (match sT.busRead (.task 0) 0x50000000 8 with | .ok _ => false | .error (.undefinedBehaviour n) => n == 2) = true ∧
      (match (sT.setBad (hbmLine 0x10000000000) true).busRead (.task 0) 0x10000000000 8 with
        | .ok r => r.unc | .error _ => false) = true) ∧
    (let b : BatReq := { host := false, task := 0, wake := true, ws := false, list := [] }
     let s : State := { sT with bat := { sT.bat with cur := some b, oldMem := [(0x10000000, some 0)] } }
     s.inOverlay 0x10000000 8 = true) :=
  ⟨runs_thread, by decide +kernel, by decide +kernel, by decide +kernel, by decide +kernel, by decide +kernel⟩

/-- StagingStores: lists of 255 and of 256 entries, addresses a batten may and may not carry, a queue with a place and
with none, GO with and without a host batten queued. -/
theorem witness_StagingStores : sT.threadRuns k0 ∧
    (256 ≤ (List.replicate 256 (⟨0, 0, 0⟩ : StageEntry)).length ∧ (List.replicate 255 (⟨0, 0, 0⟩ : StageEntry)).length < 256) ∧
    (sT.stageBad 0x10000000 8 = none ∧ sT.stageBad 1 8 = some 3 ∧ sT.stageBad 0x50000000 8 = some 7) ∧
    (let b : BatReq := { host := false, task := 1, wake := true, ws := false, list := [] }
     sT.threadBattens < 63 ∧
       63 ≤ ({ sT with bat := { sT.bat with queue := List.replicate 63 b } } : State).threadBattens) ∧
    ((fw Fld.beamBattenCmdGo 1).getLsbD Fld.beamBattenCmdGo.lo = true ∧
      ¬ (∃ b ∈ State.reset.bat.queue, b.host = true) ∧ State.reset.bat.hstage.length < 256) :=
  ⟨runs_thread, by decide +kernel, by decide +kernel, by decide +kernel, by decide +kernel⟩

/-- LocksAndWaits: a free lock, one the task holds, one another holds, with and without a cycle, and 8 locks held. -/
theorem witness_LocksAndWaits : sT.threadRuns k0 ∧
    (sT.lockOf 5 = none ∧ task0.locks.length < 8 ∧ 8 ≤ (List.replicate 8 0).length ∧ 5 ∉ task0.locks) ∧
    (let s := sT.setLock 5 (some { holder := 1, waiters := [] })
     s.lockOf 5 = some { holder := 1, waiters := [] } ∧ s.chainTo 0 4096 1 = false ∧
       ((s.setLock 6 (some { holder := 0, waiters := [1] })).setTask 1
         { Task.none with st := .blocked, wait := .lock 6 }).chainTo 0 4096 1 = true) ∧
    (let s := (withTask { task0 with locks := [5] }).setLock 5 (some { holder := 0, waiters := [1] })
     5 ∈ (s.task 0).locks ∧ s.lockOf 5 = some { holder := 0, waiters := [1] }) :=
  ⟨runs_thread, by decide +kernel, by decide +kernel, by decide +kernel⟩

/-- EventsAndQueues: flags that are ready and not, a wait whose time has come and one whose has not, a task that is
free and one that waits; queues with room, full, empty, and with a task that waits. -/
theorem witness_EventsAndQueues : sT.threadRuns k0 ∧
    ((3 : BitVec 32) &&& 3 = 3 ∧ task0.flags &&& (1 : BitVec 32) = 0 ∧ (1 : BitVec 32) ≠ 0) ∧
    (let s := withTask { task0 with st := .blocked, wait := .event 1 false false 0 (some 0) }
     s.halted = false ∧ 0 ≤ s.taskNow 0 ∧ s.taskNow 0 < 1 ∧ (s.task 1).st = .free ∧
       evReady ((s.task 0).flags ||| 1) 1 false = true) ∧
    (let s := sT.setTask 1 { Task.none with st := .dormant }
     (s.task 1).st = .dormant ∧ (s.task 1).wait = .none) ∧
    (let s := withRegs sT [(Reg.spinQCfg 255, fw Fld.spinQCfgDepth 1)]
     s.flag (Reg.spinQCfg 255) Fld.spinQCfgNotifyEn = false ∧ (s.squeue 255).getters = [] ∧
       (s.squeue 255).putters = [] ∧ (s.squeue 255).entries.length < s.qDepth 255 ∧
       s.qDepth 255 ≤ ((s.setSqueue 255 { entries := [(0, none)], putters := [], getters := [] }).squeue 255).entries.length ∧
       ((sT.setSqueue 0 { entries := [], putters := [], getters := [1] }).squeue 0).getters = [1]) :=
  ⟨runs_thread, by decide +kernel, by decide +kernel, by decide +kernel, by decide +kernel⟩

/-- DmaCopies: descriptors whose length is 0, in range and above it, ranges that overlap and that do not, and a copy
between two lines of host memory. -/
theorem witness_DmaCopies : sT.threadRuns k0 ∧
    (match sT.busRead (.task 0) 0x10000000000 32 with | .ok d => d.unc == false | .error _ => false) = true ∧
    (sT.accessHeld 0x10000000000 32 = none ∧ sT.copyHeld 0 64 = none ∧
      ((sT.setF (chanReg 0) Fld.creelChanRest 1).copyHeld 0x10000000000 64).isSome = true ∧
      16777216 < 16777217 ∧ overlap 0 4095 4096 = true ∧ overlap 0 4096 4096 = false ∧ sT.dmaQueue 31 = []) ∧
    (let s : State := { sT with boot := { sT.boot with pcieUp := true } }
     regionOf 0x800000000000 = .host ∧ s.bat.cur = none ∧ s.spin.dma = [] ∧ s.spin.lock = [] ∧
       overlap 0x800000000000 0x800000000040 64 = false ∧ 0x800000000000 % 64 + 64 ≤ 64) :=
  ⟨runs_thread, by decide +kernel, by decide +kernel, by decide +kernel⟩

/-! ## Tables -/

/-- TableLookups: a lookup that hits, one that misses and one of no table; a source lookup of each kind. -/
theorem witness_TableLookups : (sT.threadRuns k0 ∧ sP.pickRuns 0 pkt0 ∧ sP.pickGoesOn pkt0) ∧
    ((sP.lookTable 0 .host 3 0 0 0).2 = .miss ∧ (sP.lookTable 0 .host 31 0 0 0).2 = .absent ∧
      ((sP.setByte 0x20A00001 0x80).lookTable 0 .host 3 0 0 0).2 = .hit 0) ∧
    (sP.lookHeld 0 3 0 0 0 = none ∧
      ((withRegs sP [(Reg.warpStbl6Nb, Fld.warpStbl6NbNb.put (fw Fld.warpStbl6NbValid 1) 4),
        (Reg.warpStbl6Base, fw Fld.warpStbl6BaseBase hbmBase), (chanReg 0, (sP.setF (chanReg 0) Fld.creelChanRest 1).rd (chanReg 0)),
        (Reg.warpStbl6Seed, 0)]).lookHeld 0 31 0 0 0).isNone = true ∧ (3 : BitVec 6).toNat % 32 ≠ 0 ∧ (0 : BitVec 32).getLsbD 20 = false) ∧
    (sP.flag Reg.learnCtl Fld.learnCtlEnable = false ∧
      (let s := withRegs sP [(Reg.learnCtl, fw Fld.learnCtlEnable 1),
         (Reg.learnPort 0, Fld.learnPortLimit.put (fw Fld.learnPortMode 1) 1)]
       s.flag Reg.learnCtl Fld.learnCtlEnable = true ∧ pkt0.pick.pick2 = false ∧ pkt0.injected = false ∧
         pkt0.inPort < 512 ∧ s.noLearn 0 = false ∧ s.atLimit 0 = false ∧ s.learn.queue = [])) ∧
    ((0x10000 : Nat).testBit 16 = true ∧ (0x1FF : Nat).testBit 16 = false ∧ 0x1FF % 65536 = 511) :=
  ⟨⟨runs_thread, runs_pick.1, runs_pick.2⟩, by decide +kernel, by decide +kernel, by decide +kernel, by decide +kernel⟩

/-- The bytes of the LPM tables read 0 at reset. -/
theorem reset_lpm (seq : BitVec 32) (a : Nat) (h : 0x20200000 ≤ a) (h2 : a < 0x20A00000) :
    State.reset.pbyte seq a = 0 := by
  show (if State.reset.older seq then (none : Option Byte).getD (memReset a) else memReset a) = 0
  have m : memReset a = 0 := by
    unfold memReset
    rw [if_neg (by omega), if_neg (by omega), if_neg (by omega)]
  simp [m]
/-- LongestPrefix: at reset no record covers any key. -/
theorem witness_LongestPrefix : ∀ i, i < 262144 → State.reset.covers 0 false (0x20200000 + 16 * i) 0 0 = none := by
  intro i hi
  unfold State.covers
  simp only [Bool.false_eq_true, if_false]
  rw [reset_lpm _ _ (by omega) (by omega)]
  simp

/-! ## Battens, the Reed and the Twill -/

/-- A batten of a thread. -/
def bat0 : BatReq := { host := false, task := 0, wake := true, ws := false, list := [⟨0x1001FFF8, 3, 1⟩] }

/-- BattensApply: a batten whose one entry lies at the end of the draft store; one in the overlay, of a thread that waits
and of the host, with and without a pick that started before; a bank that drains, with and without a packet. -/
theorem witness_BattensApply :
    (let s : State := { State.reset with bat := { State.reset.bat with queue := [bat0] } }
     s.halted = false ∧ s.flipWait = false ∧ s.bat.oldMem = [] ∧ s.poolBad (s.rd Reg.beamPool) = false ∧
       (bat0.list.all fun e => decide (0x10000000 ≤ e.addr) && decide (e.addr + 8 ≤ 0x10020000)) = true) ∧
    (let s : State := { withTask { task0 with st := .blocked, wait := .batten } with
       bat := { State.reset.bat with cur := some bat0, seq := 1 } }
     s.oldPicks = false ∧ s.bat.curFlip = false ∧ bat0.wake = true ∧ (s.task bat0.task).wait = .batten) ∧
    (let s : State := { sP with bat := { State.reset.bat with cur := some { bat0 with host := true }, seq := 1 } }
     s.oldPicks = true ∧ s.flag Reg.beamBattenEvt Fld.beamBattenEvtOnHostDone = false) ∧
    (let s : State := { sP with bat := { State.reset.bat with draining := some true, flip := some bat0 } }
     s.epochCount true = 0 ∧ s.epochCount false ≠ 0 ∧ s.flag Reg.beamBattenEvt Fld.beamBattenEvtOnRetire = false) :=
  ⟨by decide +kernel, by decide +kernel, by decide +kernel, by decide +kernel⟩

/-- A profile 0 of width 0 whose key is the word of slot 0, over no bank. -/
def reedRegs : List (Nat × Word) :=
  [(Reg.reedCtl, fw Fld.reedCtlEnable 1), (Reg.reedSprofCtl 0, fw Fld.reedSprofCtlValid 1)]
/-- The search a pick of profile 0 makes. -/
def search0 : Search := { prof := 0, key := 0, width := 0, mask := 0, dest := 0, at_ := 0, got := 0 }
/-- A pick that waits for its search. -/
def pktS : Pkt := { pkt0 with pick := { pick0 with wait := .search search0 } }

/-- ReedSearches: a profile that cannot search and one that can; a queue with room; candidates kept and none; a search
over no bank, and one over bank 0 with a match in its first row. -/
theorem witness_ReedSearches : (sP.pickRuns 0 pkt0 ∧ sP.pickGoesOn pkt0) ∧
    (sP.searchOf pkt0 63 0 = none ∧ (withRegs sP reedRegs).searchOf pkt0 0 0 = some search0 ∧ sP.isReclass pkt0 = false ∧
      (sP.portQ 3).length < 64) ∧
    (let x := { pkt0 with pick := { pick0 with held := some (held0 0) } }
     let s := ((withPkt x).setLine 0 (some (line0 0 0))).wr Reg.warpGen (fw Fld.warpGenCurrent 1)
     s.isReclass x = true ∧ (s.takeReclass 0).isSome = true ∧ (s.wr Reg.reedReclass 0).takeReclass 0 = none) ∧
    (pkt0.pick.searched = false ∧ 524287 < 524288) ∧
    (let s := (withPkt pktS).setPortQ 0 [0]
     s.halted = false ∧ s.portQ 0 = [0] ∧ s.pkt? 0 = some pktS ∧ search0.dest.toNat < 16 ∧
       s.reedUnpowered 0 search0 = false ∧ s.reedSearched 0 search0 0 = false ∧
       ((List.range 128).all fun b => !s.reedNeeds 0 search0 b) = true) ∧
    (let q := { search0 with mask := 1 }
     let s := withRegs ((withPkt pktS).setByte (0x11000000 + 95) 0x80) [(Reg.reedBank 0, fw Fld.reedBankPowerAck 1)]
     s.reedUnpowered 0 q = false ∧ s.reedNeeds 0 q 0 = true ∧ q.got.testBit 0 = false ∧ ({ q with got := 1 } : Search).got.testBit 0 = true ∧
       s.reedSearched 0 q (0 / 4096) = true ∧ s.reedMatches 0 q 0 = true ∧
       s.reedMatches 0 q 4095 = false) :=
  ⟨runs_pick, by decide +kernel, by decide +kernel, by decide +kernel, by decide +kernel, by decide +kernel⟩

/-- ReedBankPower: POWER turned on and off, a check in progress and none, a bank that is scrubbed and one that is not. -/
theorem witness_ReedBankPower :
    (let on := fw Fld.reedBankPower 1
     let s := withRegs State.reset [(Reg.reedBank 127, on), (Reg.reedCtl, fw Fld.reedCtlScrubEn 1)]
     State.reset.flag (Reg.reedBank 127) Fld.reedBankPower = false ∧
       (State.reset.plainWrite (Reg.reedBank 127) on (BitVec.allOnes 64)).flag (Reg.reedBank 127) Fld.reedBankPower = true ∧
       s.flag (Reg.reedBank 127) Fld.reedBankPower = true ∧
       (s.plainWrite (Reg.reedBank 127) 0 (BitVec.allOnes 64)).flag (Reg.reedBank 127) Fld.reedBankPower = false ∧
       s.flag Reg.reedCtl Fld.reedCtlScrubEn = true ∧ s.reedOn 127 = false ∧
       (s.wr (Reg.reedBank 127) (fw Fld.reedBankPowerAck 1)).reedOn (524287 / 4096) = true) ∧
    (127 ∉ State.reset.reed.checking ∧ 5 ∉ State.reset.reed.unverified ∧ State.reset.halted = false) :=
  ⟨by decide +kernel, by decide +kernel⟩

/-- TwillScans: no head held and one held; lengths 0 and 1,023; a packet in the onset window; a full queue; a request of
a set that is valid and one of a set that is not. -/
theorem witness_TwillScans : (sP.pickRuns 0 pkt0 ∧ sP.pickGoesOn pkt0) ∧
    (pkt0.pick.held = none ∧ (1023 : BitVec 32).toNat % 1024 ≠ 0 ∧ (1024 : BitVec 32).toNat % 1024 = 0) ∧
    (let h := { held0 0 with onset := 1 }
     let x := { pkt0 with pick := { pick0 with held := some h } }
     let s := ((withRegs (withPkt x) [(Reg.twillCtl, Fld.twillCtlEnable.put (fw Fld.twillCtlOnsetWindow 1) 1)]).setLine 0
       (some (line0 0 0)))
     s.line h.line = some (line0 0 0) ∧ s.isOnset x h 0 = true ∧ s.isOnset x { h with onset := 2 } 0 = false ∧
       headTstate 0 = 0 ∧ (s.engine 0).length = 0 ∧ ((withRegs s [(Reg.twillErr, 2)]).rd Reg.twillErr).getLsbD 1 = true) ∧
    (let q : ScanReq := { key96 := 0, firstSeen := 0, start := 0, valid := false, bytes := [], onset := 1, window := 1,
                          seq := 0, order := 0 }
     let s := (State.reset.setEngine 3 [q]).setLine 0 (some (line0 0 0))
     s.halted = false ∧ s.engine 3 = [q] ∧ s.cacheFind q.key96 = some 0 ∧ State.reset.cacheFind q.key96 = none ∧ (s.scan [] 0 ⟨0, false, [], false⟩).bad = false) :=
  ⟨runs_pick, by decide +kernel, by decide +kernel, by decide +kernel⟩

/-! ## Frames and the buffer -/

/-- Port 0 is up. -/
def upRegs : List (Nat × Word) := [(Reg.beamPort 0, fw Fld.beamPortLink 1)]
/-- The device at reset with port 0 up. -/
def sUp : State := withRegs State.reset upRegs

/-- FramesArrive: frames of 63, 64, 1,518 and 1,519 bytes at a port that is up with room, a MAC Control frame with a good
FCS, a pause that has run out; a packet whose FCS is bad, crossing and stored. -/
theorem witness_FramesArrive :
    (sUp.halted = false ∧ sUp.flag (Reg.beamPort 0) Fld.beamPortLink = true ∧ sUp.maxFrame 0 = 1518 ∧
      sUp.crossingRoom 0 = true ∧ State.reset.flag (Reg.beamPort 511) Fld.beamPortLink = false ∧
      beAt (List.replicate 1518 0) 12 2 ≠ 0x8808 ∧ (List.replicate 63 (0 : Byte)).length < 64) ∧
    (let s : State := { sUp with pkts := [(0, some { pkt0 with place := .crossing, frame := List.replicate 32000 0 })] }
     s.crossingRoom 0 = false) ∧
    (let f : List Byte := List.replicate 12 0 ++ [0x88, 0x08, 0x01, 0x01, 0, 0x80] ++ List.replicate 42 0
     let g := f ++ toLE 4 (crc32 f).toNat
     64 ≤ g.length ∧ g.length ≤ sUp.maxFrame 0 ∧ fcsGood g = true ∧ beAt g 12 2 = 0x8808 ∧ (beAt g 16 2).testBit 7 = true) ∧
    (let x := { pkt0 with fcsOk := false, place := .crossing }
     (withPkt x).halted = false ∧ (withPkt x).pkt? 0 = some x ∧ (Tbl.get (Tbl.const 0) sUp.beam.pauseEnd 4095 ≤ sUp.now)) :=
  ⟨by decide +kernel, by decide +kernel, by decide +kernel, by decide +kernel⟩

/-- PacketsEnterDrafts: a frame the Heddle may take, a parsed packet with and without a draft for it, and one on the
recirculation queue; an extraction command of 32 bits that ends at the end of the parse window, and one that begins
before the frame. -/
theorem witness_PacketsEnterDrafts :
    (let x := { pkt0 with place := .crossing }
     let s := withPkt x
     s.halted = false ∧ s.pkt? 0 = some x ∧ s.heddleHeld 0 = false ∧ s.loomOff 0 = false ∧
       (s.setF (Reg.tensionLoom 0) Fld.tensionLoomState 2).loomOff 0 = true ∧ (s.pkts.all fun e => s.pkt? e.1 == e.2) = true) ∧
    (let x := { pkt0 with place := .shedInput }
     let s : State := { withPkt x with mem := [(0x10000000, 200), (0x10000006, 1), (0x10000008, 129)] }
     s.draftEntry 0 false 0 = some 129 ∧ s.draftEntry 0 false 1 = none ∧ x.pick.pick2 = false ∧
       (s.pktsAt fun y => y.place == .running && y.loom == x.loom && y.shed == x.shed && !y.pick.pick2).length < 1024) ∧
    (let x := { pkt0 with place := .recirc }
     let s := (withPkt x).setQueue (10256 + 15) [⟨0, 1, false⟩]
     s.queue (10256 + 15) = [⟨0, 1, false⟩] ∧ s.pkt? 0 = some x) ∧
    (let cmd := 31 * 2 ^ 59 + 255 * 2 ^ 50 + 32 * 2 ^ 41
     min 32 (cmd / 2 ^ 41 % 64) = 32 ∧ cmd / 2 ^ 59 % 32 = 31 ∧ cmd / 2 ^ 50 % 512 = 255 ∧ 256 * 2 ^ 50 / 2 ^ 50 % 512 = 256) :=
  ⟨by decide +kernel, by decide +kernel, by decide +kernel, by decide +kernel⟩

/-- A packet its shed has released, forwarded to port 0. -/
def pktB : Pkt := { pkt0 with place := .handed, pick := { pick0 with disp := .unicast 0 0 } }
/-- The device with it and port 0 up. -/
def sB : State := withRegs (withPkt pktB) upRegs

/-- BufferAdmission: a copy that R288 takes and one that it drops, a group without ports, a punt with room; residue that
enters its queue; a flush of one queue, and one while another is in progress. -/
theorem witness_BufferAdmission :
    (sB.halted = false ∧ sB.pkt? 0 = some pktB ∧ sB.heldBack 0 pktB = false ∧ pktB.pool = none ∧ pktB.refs = 0 ∧
      sB.residue 0 = [] ∧ sB.qcfg0 0 / 2 ^ 36 % 2 = 0 ∧ sB.verdict pktB 0 1 false = .taken .shared ∧
      1 ≤ sB.bankFree 0 ∧ sB.lossless pktB 0 = false ∧ sB.groupPorts pktB 65535 = []) ∧
    (let s := withRegs sB [(Reg.beamPool, Fld.beamPoolHeadPool.put (fw Fld.beamPoolMinPool 500000) 478944),
       (Reg.beamCtl, 0)]
     s.verdict pktB 0 1 false = .drop 1 ∧ s.flag Reg.beamCtl Fld.beamCtlMarshal = false ∧ pktB.pick.stampReq = []) ∧
    (copyCells (sB.queue 10240) + 1 ≤ sB.fld Reg.beamPool Fld.beamPoolPuntLimit ∧
      (let s := sB.setQueue 10240 (List.replicate 64 ⟨0, 16, false⟩)
       copyCells (s.queue 10240) + 1 > s.fld Reg.beamPool Fld.beamPoolPuntLimit)) ∧
    (let x := { pktB with place := .stored, refs := 1, cells := 1, pool := some .shared }
     let s := (withRegs (withPkt x) upRegs).setResidue 0 [⟨0, 1, false⟩]
     s.residue 0 = [⟨0, 1, false⟩] ∧ s.residueVerdict 0 ⟨0, 1, false⟩ x = .taken .shared) ∧
    (let v := Fld.beamFlushCmdQueue.put (fw Fld.beamFlushCmdGo 1) 10239
     let t := sB.plainWrite Reg.beamFlushCmd v (BitVec.allOnes 64)
     Fld.beamFlushCmdGo.get v ≠ 0 ∧ t.fld Reg.beamFlushCmd Fld.beamFlushCmdQueue = 10239 ∧
       t.flag Reg.beamFlushCmd Fld.beamFlushCmdWholePort = false ∧
       t.flag Reg.beamFlushStat Fld.beamFlushStatBusy = false) :=
  ⟨by decide +kernel, by decide +kernel, by decide +kernel, by decide +kernel, by decide +kernel⟩

/-- EgressScheduling: a port that may call with nothing to call, and with a queue that is eligible. -/
theorem witness_EgressScheduling :
    (sUp.halted = false ∧ sUp.flag (Reg.beamPort 0) Fld.beamPortLink = true ∧ sUp.shaperOk 10240 = true ∧
      ((portQueues 0).all fun i => !sUp.eligible i) = true) ∧
    (let s := (withRegs (withPkt { pktB with place := .stored, refs := 1, cells := 1 }) upRegs).setQueue 0 [⟨0, 1, false⟩]
     s.eligible 0 = true ∧ s.queue 0 = [⟨0, 1, false⟩]) :=
  ⟨by decide +kernel, by decide +kernel⟩

/-- FramesLeave: a transferred packet a free transmitter takes; a frame on the wire; a class in XOFF and a requested PFC
frame. -/
theorem witness_FramesLeave :
    (let x := { pktB with place := .stored, refs := 1, cells := 1 }
     let c : Called := { copy := ⟨0, 1, false⟩, queue := 0, left := 0 }
     let s := (withRegs (withPkt x) upRegs).setCalled 0 [c]
     s.txReady 0 = true ∧ (s.port 0).pfcReq = false ∧ s.tx 0 = none ∧ nextAt 0 (s.called (0 / 32)) [] = some c ∧
       s.pkt? 0 = some x ∧ x.bolt = 0 ∧ x.timeAct = none ∧ x.pick.stampReq = [] ∧ s.maxFor 0 0 = 1518 ∧ c.copy.cut = false ∧
       (s.noteMax 0 9000).maxFor 0 0 = 9000 ∧ s.portIsDown 0 = false ∧ sUp.portIsDown 1 = true) ∧
    (let t : Tx := { copy := ⟨0, 1, false⟩, queue := 0, frames := [[0]], on := true, stomped := true, bad := false }
     (sUp.setTx 0 (some t)).tx 0 = some t ∧ t.on = true ∧ t.frames = [[0]]) ∧
    (let s := sUp.setAcct 7 { shared := 0, head := 0, xoff := true }
     s.txReady 0 = true ∧ s.atBoundary 0 = true ∧ s.xoffClasses 0 ≠ 0 ∧ (s.port 0).pfcReq = false ∧
       ((s.updPort 0 fun q => { q with pfcReq := true }).port 0).pfcReq = true) :=
  ⟨by decide +kernel, by decide +kernel, by decide +kernel⟩

/-! ## The upkeep of the Warp and learning -/

/-- A head with 3 packets of 200 bytes in pair 0. -/
def headD : Head := hput (hput head0 40 2 3) 42 4 200
/-- The device with the Warp and record 0 placed. -/
def sR : State := { sW with warp := { sW.warp with tags := [(0, 1)] } }

/-- WarpMaintenance: a fold of a FRESH record and of another; a swept line with deltas, without, and none; the table sweep
on and off, and heads with and without deltas of current and old generations; rehashes that start, with and without good
ranges; buckets that are empty, that stall and that move; overflow records that stay and that move. -/
theorem witness_WarpMaintenance :
    ((List.replicate 64 (0 : Byte)).length = 64 ∧ (ofLE (slice (List.replicate 64 (0 : Byte)) 28 4)).testBit 31 = false ∧
      sW.flag Reg.warpFdigCtl Fld.warpFdigCtlActiveEn = false ∧ headFresh headD = false ∧ sW.profile ≠ 2 ∧
      (sW.headAddr 0 + 64) % 64 = 0 ∧ sW.hbmUnc (sW.headAddr 0 + 64) = false ∧ sW.mirrorOf (sW.headAddr 0 + 64) = none) ∧
    (let s := sR.setLine 1048575 (some (line0 headD 0))
     s.halted = false ∧ s.line 1048575 = some (line0 headD 0) ∧ hasDeltas headD = true ∧ hasDeltas head0 = false ∧
       s.line 0 = none) ∧
    (let put (h : Head) : State := { sR with warp := { sR.warp with tags := [(0, 1), (1, 1)] } }.hbmPut (sR.headAddr 0)
       (headBytes h)
     let g := hput headD 0 2 5
     let read (h : Head) : Head := BitVec.ofNat 512 ((put h).le ((put h).headAddr 0) 64)
     let s := put headD
     s.halted = false ∧ s.isPlaced 0 = true ∧ s.lineOfRec 0 = none ∧ s.victimOfRec 0 = none ∧ s.recUnread 0 = false ∧
       s.sweepable 0 = true ∧ s.sweepable 5 = false ∧ (s.wr Reg.warpSweepCtl 0).tableSweeps = false ∧
       s.tableSweeps = true ∧ read headD = headD ∧
       hasDeltas (read head0) = false ∧ headGen (read head0) = 0 ∧ headGen (read g) = 5 ∧
       s.fld Reg.warpGen Fld.warpGenCurrent ≠ 5) :=
  ⟨by decide +kernel, by decide +kernel, by decide +kernel⟩

/-- Tables 0 and 1 of two buckets, table 1 after table 0, and 8 overflow records after both. -/
def rehashRegs : List (Nat × Word) :=
  [(Reg.warpTbl 0, Fld.warpTblNb.put (fw Fld.warpTblValid 1) 2),
    (Reg.warpTbl 1, Fld.warpTblFirstRec.put (Fld.warpTblNb.put (fw Fld.warpTblValid 1) 2) 16),
    (Reg.warpRehashStat, fw Fld.warpRehashStatActive 1)]
/-- A rehash of table 0 into table 1. -/
def sH : State := withRegs sR rehashRegs
theorem witness_WarpMaintenance_rehash :
    (Fld.warpRehashCtlStart.get (BitVec.allOnes 64) ≠ 0 ∧ Fld.warpRehashCtlStart.get 0 = 0 ∧
      sW.flag Reg.warpRehashStat Fld.warpRehashStatActive = false ∧ sW.flowRangesOk = true ∧
      (withRegs sW [(Reg.warpTbl 1, Fld.warpTblNb.put (fw Fld.warpTblValid 1) 1)]).flowRangesOk = false) ∧
    (sH.halted = false ∧ sH.migrating = true ∧ sH.flag Reg.warpRehashStat Fld.warpRehashStatStall = false ∧
      (sH.setF Reg.warpRehashStat Fld.warpRehashStatStall 1).flag Reg.warpRehashStat Fld.warpRehashStatStall = true ∧
      sH.fld Reg.warpRehashStat Fld.warpRehashStatCursor + 1 < sH.nbOf sH.curTable ∧
      (let e : State := { sH with warp := { sH.warp with tags := [] } }
       ((List.range 8).all fun w => e.tag (e.firstRec 0 + w) == 0) = true) ∧
      sH.tag 0 ≠ 0 ∧ ((List.range 7).all fun w => sH.tag (w + 1) == 0) = true ∧ sH.recUnread 0 = false ∧
      (match sH.place 1 (headSeal (sH.headOf 0)) with | some (.way r _) => r != 0 | _ => false) = true ∧
      ((sH.wr (Reg.warpTbl 1) 0).place 1 (headSeal (sH.headOf 0))).isNone = true) ∧
    (let o : State := { sH.setF Reg.warpRehashStat Fld.warpRehashStatOvfPhase 1 with
       warp := { sH.warp with ovf := [(5, some 7)] } }
     o.halted = false ∧ o.flag Reg.warpRehashStat Fld.warpRehashStatOvfPhase = true ∧ o.nextOvf = some 5 ∧
       o.recUnread (o.ovfFirst + 5) = false ∧ (o.freeWay 1 (headSeal (o.headOf (o.ovfFirst + 5)))).isSome = true ∧
       ((o.wr (Reg.warpTbl 1) 0).freeWay 1 (headSeal (o.headOf (o.ovfFirst + 5)))).isNone = true ∧
       ({ o with warp := { o.warp with ovfNext := 6 } } : State).nextOvf = none ∧
       ({ o with warp := { o.warp with ovf := [(5, some 7), (9, some 7)], ovfNext := 6 } } : State).nextOvf ≠ none) :=
  ⟨by decide +kernel, by decide +kernel, by decide +kernel⟩

/-- WarpControl: the Warp off and on, disabling and not, its cache in canonical form; words with and without ENABLE, FLUSH
and GO, and with another CUR_TABLE; ranges that are good and that are not; a read of a placed record, of a free one, and
none in progress. -/
theorem witness_WarpControl :
    (sW.halted = false ∧ sW.warpOn = true ∧ sW.curTable = 0 ∧ sP.warpOn = false ∧
      sH.flag Reg.warpRehashStat Fld.warpRehashStatActive = true ∧ sW.flag Reg.warpRehashStat Fld.warpRehashStatActive = false ∧
      Tbl.wf (Tbl.const none) sW.warp.cache = true ∧ sW.warp.disabling = false ∧
      Fld.warpCtlEnable.get (fw Fld.warpCtlEnable 1) = 1 ∧ Fld.warpCtlEnable.get 0 = 0 ∧
      Fld.warpCtlCurTable.get 0 = sW.curTable ∧ Fld.warpCtlCurTable.get (fw Fld.warpCtlCurTable 1) ≠ sW.curTable ∧
      sP.flowRangesOk = true ∧ (withRegs sP [(Reg.warpTbl 0, Fld.warpTblNb.put (fw Fld.warpTblValid 1) 1),
        (Reg.warpTbl 1, Fld.warpTblNb.put (fw Fld.warpTblValid 1) 1)]).flowRangesOk = false) ∧
    (Fld.warpCacheCtlFlush.get 0 = 0 ∧ Fld.warpCacheCtlFlush.get (BitVec.allOnes 64) ≠ 0 ∧
      Fld.warpRdCmdGo.get 0 = 0 ∧ Fld.warpRdCmdGo.get (BitVec.allOnes 64) ≠ 0) ∧
    (let s := sR.setF Reg.warpRdStat Fld.warpRdStatBusy 1
     s.halted = false ∧ s.flag Reg.warpRdStat Fld.warpRdStatBusy = true ∧ s.isPlaced s.warp.rdRec = true ∧
       s.hbmUnc (s.headAddr 0) = false ∧ s.hbmUnc (s.headAddr 0 + 64) = false ∧
       sR.flag Reg.warpRdStat Fld.warpRdStatBusy = false ∧
       ({ s with warp := { s.warp with tags := [] } } : State).isPlaced 0 = false) :=
  ⟨by decide +kernel, by decide +kernel, by decide +kernel⟩

/-- A learning event of key 5 at port 0. -/
def ev0 : LearnEv := { key := 5, port := 0, loom := 0, at_ := 0 }
/-- Port 0 learns up to `lim` keys; the event waits. -/
def sLearn (lim : Nat) : State :=
  { withRegs State.reset [(Reg.learnCtl, 0), (Reg.learnPort 0, Fld.learnPortLimit.put (fw Fld.learnPortMode 1) lim),
      (Reg.learnPort 1, Fld.learnPortLimit.put (fw Fld.learnPortMode 1) lim)] with
    learn := { State.reset.learn with queue := [ev0] } }
/-- The bucket of key 5. -/
def b0 : Nat := State.reset.macBucket 5
/-- Entry `e` of a MAC table holds key `k` with word 1 `w`. -/
def macPut (s : State) (e k w : Nat) : State := (s.setLe (macAddr e) 8 (2 ^ 63 + k)).setLe (macAddr e + 8) 8 w

/-- AddressLearning: an event of a port that learns and of one that does not; a key that is unknown, with and without a
free way and under a limit; one known at its own port, at another, and in a static entry; a locked bucket; the deferred
queue with room and full. -/
theorem witness_AddressLearning :
    (let s := sLearn 4
     let v := ev0
     s.halted = false ∧ s.learn.queue = [v] ∧ s.learn.age = none ∧ s.noLearn v.port = false ∧
       s.fld (Reg.learnPort v.port) Fld.learnPortMode ≠ 2 ∧ State.reset.noLearn v.port = true ∧
       ([Fld.learnCtlEvLearn, Fld.learnCtlEvMove, Fld.learnCtlEvFlap, Fld.learnCtlEvLimit, Fld.learnCtlEvFull].all fun f =>
         !s.flag Reg.learnCtl f) = true ∧
       s.macBucket v.key = b0 ∧ s.masterFind b0 v.key = [] ∧ s.atLimit v.port = false ∧
       s.masterLe (macAddr (8 * b0)) / 2 ^ 63 % 2 = 0 ∧ s.learn.pinDeferred = [] ∧ (s.lockOf b0).isSome = false ∧ s.learn.deferred.length < 16 ∧
       s.fld Reg.learnFlap Fld.learnFlapN = 0) ∧
    (let full := (List.range 8).foldl (fun s w => macPut s (8 * b0 + w) (100 + w) 9) (sLearn 4)
     ((List.range 8).all fun w => full.masterLe (macAddr (8 * b0 + w)) / 2 ^ 63 % 2 == 1) = true ∧
       full.masterFind b0 5 = [] ∧
       2 ≤ ((macPut (macPut (sLearn 4) (8 * b0) 5 0) (8 * b0 + 1) 5 0).masterFind b0 5).length) ∧
    ((macPut (sLearn 1) 131071 6 0).atLimit 0 = true) ∧
    (let own := macPut (sLearn 4) (8 * b0) 5 0
     let other := macPut (sLearn 4) (8 * b0) 5 1
     let held := macPut (sLearn 4) (8 * b0) 5 (2 ^ 17 + 1)
     own.masterFind b0 5 = [8 * b0] ∧ other.masterLe (macAddr (8 * b0) + 8) / 2 ^ 16 % 8 = 0 ∧
       other.masterLe (macAddr (8 * b0) + 8) % 65536 ≠ 0 ∧ held.masterLe (macAddr (8 * b0) + 8) / 2 ^ 16 % 8 ≠ 0) ∧
    (let s : State := { sLearn 4 with spin := { State.reset.spin with lock := [(b0, some ⟨0, []⟩)] } }
     (s.lockOf b0).isSome = true ∧ 16 ≤ (List.replicate 16 ev0).length) :=
  ⟨by decide +kernel, by decide +kernel, by decide +kernel, by decide +kernel, by decide +kernel⟩

/-- AgingAndIndexes: an entry that was never pinned, one whose hold has not run out and one whose has; age commands on an
absent, a static, a hit, a valid and a locked entry, behind events and while one is busy; a large table that begins, that
ends and that cannot hold the count; compares of 16 bytes, of fewer, and one in progress. -/
theorem witness_AgingAndIndexes :
    (let s : State := { (State.reset.wr Reg.learnFlap (fw Fld.learnFlapHoldS 1)) with
       now := 1000000000, learn := { State.reset.learn with pinnedAt := [(5, some 0), (7, some 1)] } }
     s.halted = false ∧ s.fld Reg.learnFlap Fld.learnFlapHoldS = 1 ∧
       Tbl.get (Tbl.const none) s.learn.pinnedAt 131071 = none ∧
       Tbl.get (Tbl.const none) s.learn.pinnedAt 5 = some 0 ∧ Tbl.get (Tbl.const none) s.learn.pinnedAt 7 = some 1 ∧
       0 + 1 * 1000000000 ≤ s.now ∧ s.now < 1 + 1 * 1000000000) ∧
    (let go := fw Fld.learnAgeCmdGo 1
     let s := State.reset
     Fld.learnAgeCmdGo.get go ≠ 0 ∧ Fld.learnAgeCmdGo.get 0 = 0 ∧
       (s.wrote Reg.learnAgeCmd go).fld Reg.learnAgeCmd Fld.learnAgeCmdIndex = 0 ∧
       s.flag Reg.learnAgeStat Fld.learnAgeStatBusy = false ∧
       (s.setF Reg.learnAgeStat Fld.learnAgeStatBusy 1).flag Reg.learnAgeStat Fld.learnAgeStatBusy = true ∧
       s.learn.queue = [] ∧ (sLearn 4).learn.queue ≠ [] ∧ (s.lockOf 0).isSome = false ∧
       s.masterLe (macAddr 0) / 2 ^ 63 % 2 ≠ 1 ∧ (macPut s 0 5 0).masterLe (macAddr 0) / 2 ^ 63 % 2 = 1 ∧
       s.deferRoom = true ∧ 131071 ∉ s.learn.pinDeferred ∧ (macPut s 0 5 (2 ^ 17)).masterLe (macAddr 0 + 8) / 2 ^ 17 % 2 = 1 ∧ Tbl.get (Tbl.const 0) s.learn.hit 0 = 0 ∧
       Tbl.get (Tbl.const 0) [(0, (1 : BitVec 16))] 0 ≠ 0) ∧
    (let c := Reg.learnLpmxCnt (XTable.idx .v4)
     let n (v : Word) : Nat := (State.reset.wrote c v).fld c Fld.learnLpmxCntCount
     n 0 = 0 ∧ n (fw Fld.learnLpmxCntCount 4194304) = 4194304 ∧ 4194304 < n (fw Fld.learnLpmxCntCount 4194305) ∧
       State.reset.fld c Fld.learnLpmxCntCount = 0) ∧
    (let go := fw Fld.learnCmpCtlGo 1
     Fld.learnCmpCtlGo.get go ≠ 0 ∧ State.reset.flag Reg.learnCmpCtl Fld.learnCmpCtlBusy = false ∧
       (State.reset.setF Reg.learnCmpCtl Fld.learnCmpCtlBusy 1).flag Reg.learnCmpCtl Fld.learnCmpCtlBusy = true ∧
       State.reset.fld Reg.learnCmpLen Fld.learnCmpLenLen < 16 ∧
       16 ≤ (State.reset.wr Reg.learnCmpLen (fw Fld.learnCmpLenLen 16)).fld Reg.learnCmpLen Fld.learnCmpLenLen ∧
       (State.reset.shadow hbmBase).toOption.isSome = true ∧ (State.reset.shadow 0x50000000).toOption.isNone = true) :=
  ⟨by decide +kernel, by decide +kernel, by decide +kernel, by decide +kernel⟩

/-! ## Ports and memory channels -/

/-- Port 0 enabled with the other fields of SELV_PORT_CFG at reset; the device in that state. -/
def cfgOn : Word := Fld.selvPortCfgEnable.put (State.reset.rd (portCfg 0)) 1
def sOn : State := State.reset.wr (portCfg 0) cfgOn
/-- Port 0 enabled, its state `f`, its LINK `up`, at time `n`. -/
def sPort (n up : Nat) (f : PortSt → PortSt) : State :=
  { (sOn.setF (portStat 0) Fld.selvPortStatLink up).updPort 0 f with now := n }

/-- LinkStates: no attempt; an attempt that may end up, one before its limit and one at it; a retry that is due, one that
is not, and none; an up port that lost lock and its time is over or not, and one that did not; DOWN_US 0 and not; a port
that is down; retrains of a disabled port, of one up, one in training and one waiting. -/
theorem witness_LinkStates :
    (let s := sPort 500000000 0 fun x => { x with attempt := some 0, lockAt := some 490000000 }
     (s.port 0).attempt = some 0 ∧ (s.port 0).lockAt = some 490000000 ∧ s.portOn 0 = true ∧
       max 0 490000000 + s.upNs 0 ≤ 0 + s.timeoutNs 0 ∧ max 0 490000000 + s.upNs 0 ≤ s.now ∧
       0 + s.timeoutNs 0 < max 0 490000001 + s.upNs 0 ∧ 0 + s.timeoutNs 0 ≤ s.now ∧
       (sOn.port 0).attempt = none ∧ sOn.now < 0 + sOn.timeoutNs 0) ∧
    (let s := sPort 7 0 fun x => { x with nextAt := some 7 }
     (s.port 0).nextAt = some 7 ∧ 7 ≤ s.now ∧ s.portOn 0 = true ∧ State.reset.portOn 511 = false ∧
       (sOn.port 0).nextAt = none) ∧
    (let s := sPort 10000 1 fun x => { x with lossAt := some 0 }
     s.portUp 0 = true ∧ (s.port 0).lossAt = some 0 ∧ 0 + s.fld (Reg.selvTrainCtl 0) Fld.selvTrainCtlDownUs * 1000 ≤ s.now ∧
       s.now < 1 + s.fld (Reg.selvTrainCtl 0) Fld.selvTrainCtlDownUs * 1000 ∧
       (s.wr (Reg.selvTrainCtl 0) 0).fld (Reg.selvTrainCtl 0) Fld.selvTrainCtlDownUs = 0 ∧
       s.fld (Reg.selvTrainCtl 0) Fld.selvTrainCtlDownUs ≠ 0 ∧ s.selv.refLost.getLsbD 0 = false ∧
       sOn.portUp 0 = false ∧ (sOn.port 0).attempt = none ∧
       ((sPort 0 0 fun x => { x with attempt := some 0 }).port 0).attempt.isSome = true) :=
  ⟨by decide +kernel, by decide +kernel, by decide +kernel⟩

/-- PortModes: words with MAX_FRAME 0 and not, ENABLE 0 and 1, over a port disabled and enabled, one with a SPEED that
does not exist; an enable that is allowed; ports that may idle, that wake before and at their time, and that idle. -/
theorem witness_PortModes :
    (let a := portCfg 0
     let s := State.reset
     let new (t : State) (v : Word) : Word := mergeMask (rwMask a) v (t.rd a)
     Fld.selvPortCfgMaxFrame.get (new s 0) = 0 ∧ Fld.selvPortCfgMaxFrame.get (new s cfgOn) ≠ 0 ∧
       Fld.selvPortCfgEnable.get (new s cfgOn) = 1 ∧ Fld.selvPortCfgEnable.get (s.rd a) ≠ 1 ∧
       Fld.selvPortCfgEnable.get (sOn.rd a) = 1 ∧ Fld.selvPortCfgEnable.get (new s (s.rd a)) ≠ 1 ∧
       8 ≤ Fld.selvPortCfgSpeed.get (new s (Fld.selvPortCfgSpeed.put cfgOn 8)) ∧
       (let c := new s cfgOn
        let sp := Fld.selvPortCfgSpeed.get c
        sp < 8 ∧ fecAllowed sp (Fld.selvPortCfgFec.get c) = true ∧ 0 % speedLanes sp = 0 ∧
          ((List.range 8).all fun i => !s.laneTaken 0 (0 + i)) = true ∧ s.loomActive 0 = true ∧
          (s.wr a (Fld.selvPortCfgEnable.put c 0)).enableRefused 0 = none)) ∧
    (let s := (sPort 1000000 1 id).wr (portCfg 0) (Fld.selvPortCfgLpiEn.put cfgOn 1)
     s.portUp 0 = true ∧ s.pcfg 0 Fld.selvPortCfgLpiEn = 1 ∧ s.pcfg 0 Fld.selvPortCfgTimingClass = 0 ∧
       (s.port 0).lpi = .awake ∧ (s.port 0).pfcReq = false ∧ s.tx 0 = none ∧ s.called (0 / 32) = [] ∧
       (s.port 0).idleAt + max 1 (s.fld (Reg.selvPortLpi 0 0) Fld.selvPortLpiIdleUs) * 1000 ≤ s.now ∧
       ((s.updPort 0 fun x => { x with lpi := .waking 1000000 }).port 0).lpi = .waking 1000000 ∧ 1000000 ≤ s.now ∧
       ((s.updPort 0 fun x => { x with lpi := .idle }).port 0).lpi = .idle) :=
  ⟨by decide +kernel, by decide +kernel⟩

/-- ClocksAndWires: a tile whose clock runs and one whose clock stopped, with an enabled port that is down; the first,
second and fourth wire of a group, no group moved. -/
theorem witness_ClocksAndWires :
    (sOn.selv.refLost.getLsbD 7 = false ∧ ({ sOn.selv with refLost := 128 } : Selv).refLost.getLsbD 7 = true ∧
      sOn.portOn (64 * 0 + 0) = true ∧ sOn.portUp (64 * 0 + 0) = false ∧ (sOn.port (64 * 0 + 0)).attempt = none ∧
      (sOn.port (64 * 0 + 0)).nextAt = none) ∧
    (Tbl.get (Tbl.const 0) sOn.selv.wires 4095 + 1 = 1 ∧ Tbl.get (Tbl.const 0) [(4095, 1)] 4095 + 1 = 2 ∧
      3 < Tbl.get (Tbl.const 0) [(4095, 3)] 4095 + 1 ∧ sOn.selv.moved = []) :=
  ⟨by decide +kernel, by decide +kernel⟩

/-- Channel 0 of stack 0, and the device with that channel as `x`, at time `n`. -/
def ch0 : ChanId := ⟨0, 0⟩
def sCh (n : Nat) (x : Chan) : State := { State.reset.updChan 0 fun _ => x with now := n }
/-- A read of line 0 of the device's first channel. -/
def req0 : Req := { id := 1, flow := true, read := true, line := hbmBase, at_ := 0, who := .internal, copy := false, pair := false }

/-- ChannelCommands: a queue with a request; a channel with a forced refresh, with a request, with a due refresh, with
nothing; one that is DEAD; a refresh due; a channel that may rest, one that rests with a request; the first alert and the
fifth; a search that may start and one that runs. -/
theorem witness_ChannelCommands :
    (({ Chan.init with queue := [req0] } : Chan).rank 0 (fun _ => true) true = some req0) ∧
    (let f := sCh 0 { Chan.init with owed := [(3, 8)] }
     let q := sCh 0 { Chan.init with queue := [req0] }
     let d := sCh 0 { Chan.init with owed := [(3, 1)] }
     let n := sCh 0 Chan.init
     f.chanUp 0 = true ∧ (f.chan 0).forced = some 3 ∧ 8 ≤ Tbl.get (Tbl.const 0) (f.chan 0).owed 3 ∧
       (q.chan 0).forced = none ∧ q.chanRank 0 true = some req0 ∧ q.lineErrs (hbmLine req0.line) = [] ∧
       (d.chan 0).forced = none ∧ (d.chanRank 0 true).isNone = true ∧ (d.chanRank 0 false).isNone = true ∧ (d.chan 0).dueFree = some 3 ∧
       (n.chan 0).forced = none ∧ (n.chan 0).dueFree = none ∧ n.chanState 0 ≠ 4 ∧ n.fld (chanReg 0) Fld.creelChanRest < 2 ∧
       (n.setF (chanReg 0) Fld.creelChanState 4).chanUp 0 = false ∧
       n.scrubDue 0 = true ∧ (sCh 0 { Chan.init with patrol := 5 }).scrubDue 0 = false ∧ 9 ≤ Chan.init.stepGap ∧
       ((sCh 0 { Chan.init with nextSlot := .req 1, queue := [req0] }).chan 0).queue.find? (fun q => q.id == 1) = some req0 ∧
       Tbl.get (Tbl.const 0) (n.chan 0).owed 3 < 8 ∧ n.chanState 31 = 2) ∧
    (let s := { withRegs State.reset [(Reg.creelCtl 0, fw Fld.creelCtlRestGrade 2), (Reg.tensionProfile, 3)] with now := 1000 }
     s.fld (Reg.creelCtl 0) Fld.creelCtlRestGrade ≠ 0 ∧ s.chanState 0 < 2 ∧ (s.chan 0).queue = [] ∧
       (s.chan 0).searching = false ∧ s.isRetiring 0 = false ∧ (s.retireOf 0).isNone = true ∧
       (s.chan 0).idleAt + 1000 * max 1 (s.fld (Reg.creelCtl 0) Fld.creelCtlIdleUs) ≤ s.now ∧
       (((sCh 0 { Chan.init with queue := [req0] }).setF (chanReg 0) Fld.creelChanRest 3).fld (chanReg 0) Fld.creelChanRest ≠ 0)) ∧
    (let s := sCh 0 { Chan.init with alerts := 4, alertTimes := [0] }
     s.chanUp 0 = true ∧ 5 ≤ (s.chan 0).alerts + 1 ∧ (State.reset.chan 0).alerts + 1 < 5 ∧
       (((List.replicate 16 0).filter fun t => s.now < t + 1000000) ++ [s.now]).length = 17 ∧
       ((sCh 0 { Chan.init with searching := true }).chan 0).searching = true ∧
       ((sCh 0 { Chan.init with wanted := true }).chan 0).wanted = true ∧ ((sCh 0 { Chan.init with searchTemp := 20 }).chan 0).searchTemp = 20 ∧
       (s.setF (chanReg 0) Fld.creelChanRest 1).fld (chanReg 0) Fld.creelChanRest ≠ 0 ∧
       ((sCh 0 { Chan.init with wake := true }).chan 0).wake = true) :=
  ⟨by decide +kernel, by decide +kernel, by decide +kernel, by decide +kernel⟩

/-- A retirement of channel 0 to spare 30. -/
def ret0 : Retire :=
  { src := 0, dst := 30, slotStack := 0, slot := 0, copy := true, copying := false, granted := false,
    notBefore := 0, lostBelow := 0 }
/-- The device with it, CURSOR at `w`. -/
def sRet (r : Retire) (w : Nat) : State :=
  (State.reset.setRetire 0 (some r)).setF (Reg.creelRetireStat 0) Fld.creelRetireStatCursor w

/-- ChannelRetirement: a retirement in training and one that copies, at its first and its last granule; words of each
action on channels that serve a slot, are spare, and are FROZEN. -/
theorem witness_ChannelRetirement :
    (let s := sRet ret0 0
     s.retiring 0 = some ret0 ∧ ret0.src / 32 = 0 ∧ ret0.dst < 256 ∧ ret0.src ≠ ret0.dst ∧ s.creel.waiting = [] ∧
       ((s.setChanState 30 4).pickSpare 0).isSome = true ∧
       s.flag Reg.warpStbl6Nb Fld.warpStbl6NbValid = false) ∧
    (let g := { ret0 with copying := true, granted := true }
     let s := sRet g 2097151
     s.retiring 0 = some g ∧ s.fld (Reg.creelRetireStat 0) Fld.creelRetireStatCursor + 1 = 2097152 ∧
       (sRet g 0).fld (Reg.creelRetireStat 0) Fld.creelRetireStatCursor + 1 ≠ 2097152 ∧
       (sRet g 0).lineErrs (hbmLine (slotLine 0 0 0 3)) = [] ∧ (s.wr Reg.hostifEvtRoute 0).rd Reg.hostifEvtRoute = 0) ∧
    (let go (act ch : Nat) : Word := Fld.creelCmdChannel.put (Fld.creelCmdAction.put (fw Fld.creelCmdGo 1) act) ch
     let t (act ch : Nat) : State := State.reset.wrote (Reg.creelCmd 0) (go act ch)
     Fld.creelCmdGo.get (go 3 31) ≠ 0 ∧ State.reset.flag (Reg.creelCmdStat 0) Fld.creelCmdStatBusy = false ∧
       (t 3 31).fld (Reg.creelCmd 0) Fld.creelCmdAction = 3 ∧ (t 3 31).fld (Reg.creelCmd 0) Fld.creelCmdChannel = 31 ∧
       State.reset.chanState 0 = 0 ∧ State.reset.chanState 31 = 2 ∧
       (State.reset.setChanState 0 3).chanState 0 = 3 ∧ State.reset.pickSpare 0 = some 30 ∧ State.reset.retiring 0 = none ∧ State.reset.stackLost 0 = false ∧
       (sRet ret0 0).isRetiring 0 = true ∧ State.reset.isRetiring 0 = false ∧
       ((List.range 8).foldl (fun (s : State) k => (s.setChanState (32 * k + 30) 4).setChanState (32 * k + 31) 4)
         State.reset).pickSpare 0 = none ∧ 2 ≤ State.reset.chanState 30) :=
  ⟨by decide +kernel, by decide +kernel, by decide +kernel⟩

/-- HbmFaults: the first line, which a channel serves, with CE_LIMIT 1 and with none, and SCRUB_HOURS 0; a stack that is
lost and one that is not, with a record whose head lies in it. -/
theorem witness_HbmFaults :
    (let s := State.reset
     s.servedBy (hbmBase + 64 * 0) = some 0 ∧ s.stackLost (hbmStack hbmBase) = false ∧
       s.fld (Reg.creelCtl 0) Fld.creelCtlScrubHours ≠ 0 ∧ s.fld (Reg.creelCtl 0) Fld.creelCtlCeLimit = 1000 ∧
       ((sCh 0 { Chan.init with slot := .scrub }).chan 0).slot = .scrub ∧ (s.chan 0).slot ≠ .scrub ∧ s.patrolLine 0 = 0 ∧
       s.hbmUnc hbmBase = false ∧ (s.setBad (hbmLine hbmBase) true).hbmUnc hbmBase = true ∧ s.otherCopy hbmBase = none ∧
       s.lineErrs 0 = [] ∧ ({ s with creel := { s.creel with errs := [(0, [⟨5, 1⟩])] } } : State).lineErrs 0 = [⟨5, 1⟩] ∧
       rsUnc [⟨5, 1⟩] = false ∧ (((s.chan 0).ceTimes.filter fun t => s.now < t + 1000000000) ++ [s.now]).length = 1 ∧
       (s.wr (Reg.creelCtl 0) 0).fld (Reg.creelCtl 0) Fld.creelCtlScrubHours = 0) ∧
    (State.reset.stackLost 7 = false ∧ (withRegs State.reset [(Reg.digestFault, BitVec.allOnes 64)]).stackLost 7 = true ∧
      hbmStack (sR.headAddr 0) = 0 ∧ sR.hasLine 0 = false ∧ sR.tag 0 ≠ 0) :=
  ⟨by decide +kernel, by decide +kernel⟩

/-! ## Time -/

/-- Domain 7 enabled, with `x`. -/
def sDom (x : DomSt) : State :=
  (State.reset.wr (Reg.timeDomCtl 7) (fw Fld.timeDomCtlEnable 1)).updDom 7 fun _ => x
/-- TimeDomains: a domain off and on; words with and without SET, ENABLE and SNAP; HOLD 0 and 1; another OSC_FREQ; an
empty transmit queue, and the largest entry. -/
theorem witness_TimeDomains :
    (sDom DomSt.init).domOn 7 = true ∧ State.reset.domOn 7 = false ∧
    (Fld.timeDomCtlSet.get (fw Fld.timeDomCtlSet 1) ≠ 0 ∧ Fld.timeDomCtlSet.get 0 = 0 ∧
      Fld.timeDomCtlEnable.get (fw Fld.timeDomCtlEnable 1) = 1 ∧ Fld.timeDomCtlEnable.get 0 ≠ 1 ∧
      Fld.timeCtlSnap.get 0 = 0 ∧ Fld.timeCtlSnap.get (fw Fld.timeCtlSnap 1) ≠ 0 ∧
      (let f := State.reset.fld Reg.timeCtl Fld.timeCtlOscFreq
       Fld.timeCtlOscFreq.get (fw Fld.timeCtlOscFreq f) % 3 = f % 3 ∧
       Fld.timeCtlOscFreq.get (fw Fld.timeCtlOscFreq (f + 1)) % 3 ≠ f % 3)) ∧
    (State.reset.flag (Reg.timeDomCtl 7) Fld.timeDomCtlHold = false ∧
      (State.reset.setF (Reg.timeDomCtl 7) Fld.timeDomCtlHold 1).flag (Reg.timeDomCtl 7) Fld.timeDomCtlHold = true) ∧
    State.reset.flag Reg.glassSnap Fld.glassSnapBusy = false ∧
    (let e : TxqE := { port := 1023, id := 65535, time := timeRange - 1 }
     Tbl.get (Tbl.const []) State.reset.time.txq 7 = [] ∧ e.port < 1024 ∧ e.id < 65536 ∧ e.time < timeRange) := by
  decide +kernel

/-- PulsesAndCaptures: an output that is disabled, one whose START lies 1 µs ahead, one whose START is past, with and
without a PERIOD; an edge that is due and one that is not; an edge not selected, one selected that is captured, that
follows another within 100 ns, and that finds the FIFO full; a watch that runs out. -/
theorem witness_PulsesAndCaptures :
    (let v := fw Fld.timeTpoCtlEnable 1
     let s := State.reset.wr (Reg.timeTpoStartNs 7) (fw Fld.timeTpoStartNsNs 1000)
     let t0 := s.wrote (Reg.timeTpoCtl 7) v
     Fld.timeTpoCtlEnable.get v = 1 ∧ (s.dom (t0.pulseDom 7)).time + 1000 * nsUnit ≤ s.pulseStart 7 ∧
       State.reset.pulseStart 7 < (State.reset.dom 0).time + 1000 * nsUnit ∧ State.reset.pulsePeriod 7 = 0 ∧
       (State.reset.wr (Reg.timeTpoPeriod 7) (fw Fld.timeTpoPeriodPeriod 1)).pulsePeriod 7 ≠ 0) ∧
    (let s := (sDom { DomSt.init with time := 5 }).wr (Reg.timeTpoCtl 0) (fw Fld.timeTpoCtlDomain 7)
     let p (e : Nat) : State := s.setPulse 0 { next := some e, active := true, endAt := 0 }
     s.domOn (s.pulseDom 0) = true ∧ ((p 5).pulse 0).next = some 5 ∧ 5 ≤ (s.dom (s.pulseDom 0)).time ∧
       (s.dom (s.pulseDom 0)).time < 6 ∧ ((p 5).pulse 0).active = true ∧ ((p 5).pulse 0).endAt ≤ s.now ∧
       (s.pulse 0).next = none) ∧
    (let c := Reg.timeTpiCtl 3
     let s : State := { (sDom DomSt.init).wr c (Fld.timeTpiCtlDomain.put (fw Fld.timeTpiCtlFunction 1) 7) with now := 100 }
     s.edgeSelected 3 true = false ∧ s.edgeSelected 3 false = true ∧ s.fld c Fld.timeTpiCtlFunction % 2 = 1 ∧
       s.domOn (s.fld c Fld.timeTpiCtlDomain) = true ∧ s.now < 1 + 100 ∧ ¬ s.now < 0 + 100 ∧
       (s.capture 3).fifo.length < 16 ∧ (List.replicate 16 (false, 0)).length = 16 ∧
       State.reset.fld c Fld.timeTpiCtlFunction % 2 ≠ 1 ∧
       (let w : State := { State.reset.wr c (fw Fld.timeTpiCtlWatchMs 1) with now := 1000000 }
        w.fld c Fld.timeTpiCtlWatchMs ≠ 0 ∧ w.flag c Fld.timeTpiCtlLos = false ∧
          (w.capture 3).lastEdge + w.fld c Fld.timeTpiCtlWatchMs * 1000000 ≤ w.now)) :=
  ⟨by decide +kernel, by decide +kernel, by decide +kernel⟩

/-- HoldoverAndReferences: a domain whose REF_STATE a write drops, with HOLD_EN; domains in holdover of both sources; the
references: enabled, qualified, fit again after WTR_S; states LOCKING and another. -/
theorem witness_HoldoverAndReferences :
    (let a := Reg.timeDomCtl 7
     let s := State.reset.wr a (fw Fld.timeDomCtlRefState 1)
     s.flag a Fld.timeDomCtlRefState = true ∧ Fld.timeDomCtlRefState.get (fw Fld.timeDomCtlHoldEn 1) ≠ 1 ∧
       Fld.timeDomCtlHoldEn.get (fw Fld.timeDomCtlHoldEn 1) = 1 ∧ (s.dom 7).hist = [] ∧
       (let h := State.reset.wr a (Fld.timeDomCtlSource.put (fw Fld.timeDomCtlHold 1) 1)
        h.flag a Fld.timeDomCtlHold = true ∧ h.flag a Fld.timeDomCtlSource = true ∧
          State.reset.flag a Fld.timeDomCtlSource = false)) ∧
    (let s : State := { withRegs State.reset [(Reg.dpllRef 3, Fld.dpllRefType.put (fw Fld.dpllRefEnable 1) 1),
       (Reg.timeTpiCtl 0, fw Fld.timeTpiCtlFunction 2), (Reg.dpllCtl, 0)] with
       now := 3600000000000 }
     s.fld Reg.dpllCtl Fld.dpllCtlMode = 0 ∧ s.refChoice = none ∧ (s.setQual 3 true).refChoice = some 3 ∧
       s.flag (Reg.dpllRef 3) Fld.dpllRefEnable = true ∧ s.flag (Reg.dpllRef 0) Fld.dpllRefEnable = false ∧
       s.refPresent 3 = true ∧ Tbl.get (Tbl.const none) s.time.refOk 3 = none ∧
       0 + s.fld Reg.dpllCtl Fld.dpllCtlWtrS * 1000000000 ≤ s.now ∧
       s.fld Reg.dpllStat Fld.dpllStatState ≠ 1 ∧
       (s.setF Reg.dpllStat Fld.dpllStatState 1).fld Reg.dpllStat Fld.dpllStatState = 1) ∧
    (State.reset.halted = false ∧ State.reset.spin.dma = []) :=
  ⟨by decide +kernel, by decide +kernel⟩

/-- OscillatorLearner: a rising table with a conversion at its first and last points and outside, and one that does not
rise; a source that has not been locked, and one that has; a reset and none. -/
theorem witness_OscillatorLearner :
    (let s := (List.range 16).foldl (fun (s : State) k => s.wr (Reg.timeSenseTbl k) (fw Fld.timeSenseTblCode (10 * k + 10)))
       State.reset
     ((List.range 15).all fun k => decide ((s.senseTbl k).1 < (s.senseTbl (k + 1)).1)) = true ∧ (s.senseTbl 0).1 = 10 ∧
       (s.senseTbl 15).1 = 160 ∧ (9 : BitVec 16).toNat < (s.senseTbl 0).1 ∧ ¬ (State.reset.senseTbl 0).1 < (State.reset.senseTbl 1).1 ∧
       (State.reset.senseTbl 15).1 = 0) ∧
    (let x : DomSt := { DomSt.init with hist := [(7, true)] }
     let u := (State.reset.updDom 0 fun _ => x).wr Reg.timeHoldCfg 0
     let s : State := { u with time := { u.time with seconds := 1 } }
     let k := max 1 (s.fld Reg.timeHoldCfg Fld.timeHoldCfgSampleS)
     k ≤ s.time.seconds ∧ s.sourceMean k = some 7 ∧ State.reset.sourceMean k = none ∧ State.reset.time.seconds < k ∧
       s.outlier 7 0 = false) ∧
    (Fld.timeHoldTrefReset.get 0 = 0 ∧ Fld.timeHoldTrefReset.get (fw Fld.timeHoldTrefReset 1) ≠ 0) :=
  ⟨by decide +kernel, by decide +kernel, by decide +kernel⟩

/-! ## The Spindle and the host -/

/-- Task 4095 in state `x`, with PERIOD 100 ns and DEADLINE 0. -/
def sTask (x : Task) (n : Nat) : State :=
  { State.reset with mem := [(0x44000000 + 64 * 4095 + 8, 1)], now := n,
                     spin := { State.reset.spin with task := [(4095, x)] } }
/-- TaskCommandResults: tasks FREE, STOPPED and RUNNING. -/
theorem witness_TaskCommandResults : (State.reset.task 4095).st = .free ∧
    ((sTask { Task.none with st := .stopped } 0).task 4095).st = .stopped ∧
    ((sTask { task0 with locks := [5] } 0).task 4095).st ≠ .free := by decide +kernel

/-- TaskScheduling: releases due of a DORMANT and a BLOCKED task, and not due; a deadline that is passed; one READY task
with a free context, and with none, over a lower and an equal PRIO; a slice that is spent; a restart with and without
copies in progress. -/
theorem witness_TaskScheduling :
    (let s := sTask { Task.none with st := .dormant, armed := true } 5
     let T := s.task 4095
     s.halted = false ∧ T.armed = true ∧ T.heldRel = false ∧ T.next ≤ s.taskNow 4095 ∧ T.st = .dormant ∧ T.deadline = none ∧
       ¬ (State.reset.task 4095).armed = true) ∧
    (let s := (sTask { task0 with deadline := some 4 } 5).updDom 0 fun d => { d with elapsed := 5 * nsUnit }
     s.taskNow 4095 = 5 ∧ (s.task 4095).deadline = some 4 ∧ s.taskF 4095 17 17 = 0) ∧
    (let s : State := { sTask { Task.none with st := .ready } 0 with
       spin := { State.reset.spin with task := [(4095, { Task.none with st := .ready })], ready := [4095] } }
     s.halted = false ∧ s.spin.restarting = false ∧ Tbl.wf (Tbl.const Task.none) s.spin.task = true ∧
       s.spin.ready = [4095] ∧ (s.task 4095).st = .ready ∧ s.freeCtx = some 1) ∧
    (let T : Task := { task0 with sliceAt := 0 }
     let s : State := { State.reset with now := 10000, spin := { State.reset.spin with
       task := [(0, T), (4095, { Task.none with st := .ready })], ready := [4095] } }
     T.st = .running ∧ T.wait = .none ∧ T.sliceAt + 10000 ≤ s.now ∧ 4095 ∈ s.spin.ready ∧ s.prio 4095 = s.prio 0) ∧
    (let v := fw Fld.spinRestartGo 1
     Fld.spinRestartGo.get v ≠ 0 ∧ State.reset.flag Reg.spinRestart Fld.spinRestartBusy = false ∧
       State.reset.spin.lock = [] ∧ State.reset.spin.dma = [] ∧ State.reset.spin.cmdQ = [] ∧ State.reset.spin.stored = [] ∧
       ({ State.reset.spin with restarting := true } : Spin).restarting = true) :=
  ⟨by decide +kernel, by decide +kernel, by decide +kernel, by decide +kernel, by decide +kernel⟩
/-- All contexts but the ROM's are taken by tasks of PRIO 0; task 4095 is READY. -/
def sFull (prio : Nat) : State :=
  { State.reset with mem := [(0x44000000 + 64 * 4095 + 2, BitVec.ofNat 8 (32 * prio))], spin := { State.reset.spin with
      task := ((List.range 127).map fun k => (k, { Task.none with st := .running, ctx := some (k + 1) })) ++
        [(4095, { Task.none with st := .ready })], ready := [4095] } }
theorem witness_TaskScheduling_full : (sFull 1).freeCtx = none ∧ (sFull 1).prio 0 < (sFull 1).prio 4095 ∧
    (sFull 0).prio 4095 ≤ (sFull 0).prio 0 ∧ ((sFull 1).task 0).ctx = some 1 := by decide +kernel
theorem witness_TaskScheduling_lowest : (sFull 1).lowestRunning = some 0 := by decide +kernel

/-- A punted packet. -/
def pktU : Pkt := { pkt0 with place := .stored, refs := 1, pick := { pick0 with disp := .punt 63 7 } }
/-- PuntAndInjection: a loom with a punted copy and room; a full queue; injections of LEN 0, 64, 63 and 16,361, with and
without a handle; a held injection that may go; RELEASE_MS 0 and not. -/
theorem witness_PuntAndInjection :
    (let s := ((withPkt pktU).setQueue (10240 + 15) [⟨0, 1, false⟩]).wr (Reg.spinQCfg 0) (fw Fld.spinQCfgDepth 1)
     s.halted = false ∧ s.queue (10240 + 15) = [⟨0, 1, false⟩] ∧ s.pkt? 0 = some pktU ∧ pktU.pick.disp = .punt 63 7 ∧
       s.puntLoom = some 15 ∧ s.spin.restarting = false ∧ s.ordered 63 = false ∧
       s.flag (Reg.spinQCfg (s.fld (Reg.spinPunt 63) Fld.spinPuntQueue)) Fld.spinQCfgNotifyEn = false ∧
       s.freeRun 1 = some 0 ∧ (s.squeue 0).getters = [] ∧ (s.squeue 0).entries.length < s.qDepth 0 ∧
       ({ s with spin := { s.spin with units := [(0, 131072)] } } : State).freeRun 1 = none ∧
       (s.wr (Reg.spinQCfg 0) 0).qDepth 0 ≤ (s.squeue 0).entries.length) ∧
    (let d (len flags : Nat) : InjDesc := injDesc (List.replicate 16 0 ++ toLE 2 len ++ [0] ++ toLE 1 flags ++ List.replicate 12 0)
     State.reset.injectBad (d 64 0) = none ∧ State.reset.injectBad (d 0 0) = none ∧
       State.reset.injectBad (d 16360 0) = none ∧ State.reset.injectBad (d 63 0) = some 40 ∧
       State.reset.injectBad (d 16361 0) = some 40 ∧ State.reset.injectBad (d 64 1) = some 39 ∧
       (let s : State := { State.reset with spin := { State.reset.spin with out := [⟨0, 0, false⟩] } }
        s.injectBad (d 64 1) = none ∧ (d 64 1).hvalid = true ∧ s.ordered (handleReason 0) = false) ∧
       State.reset.loomActive 0 = true ∧ State.reset.inFreed 0x42000000 32 = false ∧
       ({ State.reset with spin := { State.reset.spin with freed := [(0, true)] } } : State).inFreed 0x42000000 32 = true) ∧
    (let h0 := handleWord 0 63 0 0 1 64
     let h1 := handleWord 1 63 0 1 1 64
     let b : List Byte := toLE 8 0 ++ toLE 8 h0.toNat ++ toLE 2 64 ++ [0, 1] ++ List.replicate 12 0
     let s : State := { State.reset.wr (Reg.spinPunt 63) (fw Fld.spinPuntOrdered 1) with spin := { State.reset.spin with
       out := [⟨h0, 0, false⟩, ⟨h1, 0, false⟩], heldInj := [{ h := h0, desc := b, frame := List.replicate 64 0 }] } }
     s.earlier h1 = true ∧ s.ordered (handleReason h1) = true ∧ (s.heldReady 63).isSome = true ∧ (injDesc b).hvalid = true ∧
       (injDesc b).len ≠ 0 ∧ s.heldReady 0 = none ∧ h0 ∉ s.spin.lostCopies ∧
       (s.wr Reg.spinPuntCtl (fw Fld.spinPuntCtlReleaseMs 1)).fld Reg.spinPuntCtl Fld.spinPuntCtlReleaseMs ≠ 0) :=
  ⟨by decide +kernel, by decide +kernel, by decide +kernel⟩

/-- The command ring of 2 entries in HBM, which holds one, whose bytes are `b`. -/
def sRing (b : List Byte) : State :=
  (withRegs { State.reset with boot := { State.reset.boot with pcieUp := true } }
    [(Reg.ringCfg 0, fw Fld.ringCfgSize 2), (Reg.ringBase 0, fw Fld.ringBaseBase hbmBase), (Reg.ringProd 0, 1)]).hbmPut
    hbmBase b
/-- RingsAndPatches: a command of each OP, COPY of 0 and of 16,777,217 bytes, a queue that is full; a ring without a
command; a container without the magic number; a switch in progress; FLOOR words below and at FLOOR. -/
theorem witness_RingsAndPatches :
    (((List.range 7).all fun op => (sRing (toLE 1 op ++ List.replicate 63 0)).ringHead ==
      some (toLE 1 op ++ List.replicate 63 0)) = true) ∧ State.reset.ringHead = none ∧
    (taskOpOf 5).isSome = true ∧ State.reset.spin.roundCmds < 16 ∧ State.reset.spin.cmdQ = [] ∧
    State.reset.copyHeld 0 64 = none ∧ (ofLE (slice (List.replicate 24 (0 : Byte) ++ [1, 0, 0, 1]) 24 4) = 16777217) ∧
    (((State.reset.wr (Reg.spinQCfg 0) (fw Fld.spinQCfgDepth 1)).tryPut 0 5 none).isSome = true ∧
      (State.reset.tryPut 0 5 none).isNone = true) ∧
    (slice ([] : List Byte) 0 4 ≠ toLE 4 0x5450514A ∧ State.reset.host.switching = none) ∧
    (Fld.jacqFloorFloor.get 0 < (State.reset.setF Reg.jacqFloor Fld.jacqFloorFloor 1).fld Reg.jacqFloor Fld.jacqFloorFloor) := by
  decide +kernel

/-- EventPosting: type 31 routed to ring 0 alone, with room, and with none and an empty backlog; a backlog with a record
and with a count of lost ones; a message that is due; a link that is down. -/
theorem witness_EventPosting :
    (let s := withRegs State.reset [(Reg.hostifEvtRoute, 1 <<< 62), (Reg.ringCfg 2, fw Fld.ringCfgSize 2),
       (Reg.ringBase 2, fw Fld.ringBaseBase 0x800000000000)]
     let u : State := { s with boot := { s.boot with pcieUp := true } }
     s.host.due = [] ∧ (s.rd Reg.hostifEvtRoute).getLsbD (2 * 31) = true ∧ (s.rd Reg.hostifEvtRoute).getLsbD (2 * 31 + 1) = false ∧
       u.ringRoom 2 = true ∧ 0x800000000000 ≤ u.fld (Reg.ringBase 2) Fld.ringBaseBase ∧
       s.backlog 0 = { recs := [], lost := 0 } ∧ s.ringRoom 2 = false ∧ (s.backlog 0).recs.length < 4096 ∧ u.halted = false) ∧
    (Tbl.get (Tbl.const false) [(3, true)] 3 = true ∧ Tbl.get (Tbl.const none) State.reset.host.msiAt 3 = none ∧
      State.reset.boot.pcieUp = false ∧ (63 : Nat) ∉ State.reset.host.held ∧
      (State.reset.wr (Reg.ringProd 3) 1).ringUsed 3 ≠ 0 ∧ State.reset.ringUsed 3 = 0) :=
  ⟨by decide +kernel, by decide +kernel⟩

/-! ## Voltage, temperature, counters and digests -/

/-- The Tension in control: the loop enabled, AVSBus started. -/
def sLoop (v : Nat) : State :=
  { State.reset.setF Reg.tensionCtl Fld.tensionCtlEnable 1 with tension := { State.reset.tension with avs := true, vdd := v } }
/-- VoltageLoop: a target that a voltage meets and one that none meets; windows with every loom active, the loop in
control and not, a rate below the target, one above 1.02 of it; AVSBus started and not, failed and not. -/
theorem witness_VoltageLoop :
    (speedMeets 820 (105 * 256) 1 = true ∧ speedMeets 820 (105 * 256) (100000 * 23520000) = false ∧
      speedMeets 550 0 0 = true) ∧
    (let s := sLoop 8000
     s.halted = false ∧ (List.range 16).filter s.loomActive = List.range 16 ∧
       s.flag Reg.tensionCtl Fld.tensionCtlEnable = true ∧ s.tension.brake = false ∧ s.tension.avs = true ∧
       s.tension.avsFail = false ∧ s.tension.reachAt < 1 ∧ ¬ s.tension.reachAt < s.now ∧ 0 * 2352000 < s.target 15 ∧ 102 * s.target 15 < 100 * (65535 * 2352000) ∧
       99 ≤ ({ s.tension with above := 99 } : Tension).above ∧
       (s.setF (Reg.tensionLoom 15) Fld.tensionLoomState 2).loomActive 15 = false) ∧
    (let s := State.reset
     s.tension.avs = false ∧ s.tension.avsFail = false ∧ s.tension.tripped = false ∧ s.tension.brake = false ∧
       s.flag Reg.tensionCtl Fld.tensionCtlEnable = false ∧ ({ s.tension with avsFail := true } : Tension).avsFail = true) :=
  ⟨by decide +kernel, by decide +kernel, by decide +kernel⟩

/-- ThermalLimitsAndGating: readings at 125 °C, 110 °C, 108 °C, below 108 °C and below 0, each on a device that does not
stand, under the brake and not; a word with GATE 1 and 0, in W3 and not; looms GATING, quiet; waking; ACTIVE. -/
theorem witness_ThermalLimitsAndGating :
    (125 * 256 ≤ (0x7D00 : BitVec 16).toInt ∧ 110 * 256 ≤ (0x6E00 : BitVec 16).toInt ∧
      ¬ 110 * 256 ≤ (0x6DFF : BitVec 16).toInt ∧ 108 * 256 ≤ (0x6C00 : BitVec 16).toInt ∧
      (0x6BFF : BitVec 16).toInt < 108 * 256 ∧ (0xFFFF : BitVec 16).toInt < 0 ∧
      (sLoop 8000).boot.powered = true ∧ (sLoop 8000).boot.inReset = false ∧ (sLoop 8000).tension.tripped = false ∧
      (sLoop 8000).vmin < 8000 ∧ ({ (sLoop 8000).tension with brake := true, ramp := true } : Tension).brake = true) ∧
    (let a := Reg.tensionLoom 15
     Fld.tensionLoomGate.get (fw Fld.tensionLoomGate 1) = 1 ∧ Fld.tensionLoomGate.get 0 ≠ 1 ∧ State.reset.profile ≠ 3 ∧
       (State.reset.wr Reg.tensionProfile 3).profile = 3 ∧ State.reset.fld a Fld.tensionLoomState = 0 ∧
       (let g := State.reset.setF a Fld.tensionLoomState 1
        g.halted = false ∧ g.fld a Fld.tensionLoomState = 1 ∧ g.pkts = [] ∧ g.bankUsed 15 = 0 ∧
          ((List.range 32).all fun i => !g.flag (portCfg (32 * 15 + i)) Fld.selvPortCfgEnable) = true) ∧
       (State.reset.setF a Fld.tensionLoomState 3).fld a Fld.tensionLoomState = 3) :=
  ⟨by decide +kernel, by decide +kernel⟩

/-- CounterImages: GO with and without BUSY; an image that is gathered; an aligned pool word, the last event counter,
and words beside them; a record due with room in the ring and with none; a window that ends, one that does not, and one
that began late. -/
theorem witness_CounterImages :
    (Fld.glassSnapGo.get (fw Fld.glassSnapGo 1) = 1 ∧ Fld.glassSnapGo.get 0 ≠ 1 ∧
      State.reset.flag Reg.glassSnap Fld.glassSnapBusy = false ∧
      (State.reset.setF Reg.glassSnap Fld.glassSnapBusy 1).flag Reg.glassSnap Fld.glassSnapBusy = true ∧
      State.reset.glass.gather = none) ∧
    (let off (a : BitVec 48) : Nat := a.toNat - 0x60000000
     off 0x60200000 = 0x200000 ∧ off 0x602FFFF8 % 8 = 0 ∧ off 0x602FFFF8 < 0x300000 ∧ off 0x60320078 < 0x320080 ∧
       ¬ off 0x60320080 < 0x320080 ∧ off 0x60200001 % 8 ≠ 0) ∧
    (let s := State.reset.wr Reg.glassSmpSize (fw Fld.glassSmpSizeSize 1)
     Tbl.get (Tbl.const []) s.glass.due 15 = [] ∧ min 16777216 (s.fld Reg.glassSmpSize Fld.glassSmpSizeSize) = 1 ∧
       (s.fld Reg.glassSmpProd Fld.glassSmpProdProd + 2 ^ 32 - s.fld Reg.glassSmpCons Fld.glassSmpConsCons) % 2 ^ 32 = 0 ∧
       State.reset.fld Reg.glassSmpSize Fld.glassSmpSizeSize = 0) ∧
    (let w := max 1 (State.reset.fld Reg.glassBwCtl Fld.glassBwCtlWUs) * 1000
     State.reset.glass.winFrom % 2 = 0 ∧ State.reset.bwIndex = State.reset.glass.winFrom / 2 ∧
       ({ State.reset with now := w } : State).bwIndex = 1 ∧ ({ State.reset.glass with winFrom := 3 } : Glass).winFrom % 2 = 1) :=
  ⟨by decide +kernel, by decide +kernel, by decide +kernel, by decide +kernel⟩

/-- StoreDigests: offsets that are and are not HI registers; GO with LEN 0 and with a line of HBM; a scan in progress;
words of a register, of the pattern master and of another store, patrolled, and one that is not. -/
theorem witness_StoreDigests :
    ((State.reset.digestAt (0x70000 + (0x2F0 : BitVec 16).toNat)).isSome = true ∧
      State.reset.digestAt (0x70000 + (0x300 : BitVec 16).toNat) = none) ∧
    (Fld.digestSnapGo.get 0 = 0 ∧ Fld.digestSnapGo.get (fw Fld.digestSnapGo 1) ≠ 0 ∧
      Fld.digestScanCtlGo.get (fw Fld.digestScanCtlGo 1) = 1 ∧
      State.reset.flag Reg.digestScanCtl Fld.digestScanCtlBusy = false ∧
      State.reset.fld Reg.digestScanLen Fld.digestScanLenLen = 0 ∧
      inHbm hbmBase = true ∧ inHbm (hbmBase + 64 - 1) = true ∧
      (State.reset.setF Reg.digestScanCtl Fld.digestScanCtlBusy 1).flag Reg.digestScanCtl Fld.digestScanCtlBusy = true) ∧
    (patrolled 0x20FFFFF8 = some (16, 0x1FFFFF, false) ∧ patrolled 0x401FFFF8 = some (20, 0x3FFFF, false) ∧
      (patrolled 0x10000000).isSome = true ∧ patrolled 0x50000000 = none ∧ inSpinMem 0x50000000 = false) ∧
    (let h := handleWord 0 63 0 0 1 64
     let s : State := { State.reset with spin := { State.reset.spin with out := [⟨h, 0, false⟩] } }
     s.handleAt 0x42000000 = some h ∧ s.handleAt 0x42000100 = none ∧ (s.squeue 0).entries = [] ∧
       (s.task 4095).st ≠ .running ∧ s.flag Reg.hostifEvtCtl Fld.hostifEvtCtlR1Notify = false ∧
       ((s.setSqueue 3 { entries := [(1, none)], putters := [], getters := [] }).squeue 3).entries.length = 1) ∧
    (let s := withRegs sR [(Reg.warpOvfCfg, Fld.warpOvfCfgCount.put (fw Fld.warpOvfCfgFirstRec 64) 8)]
     let c := line0 headD 0
     s.ovfFirst = 64 ∧ headValid (s.newestHead 0) = false ∧ s.recUsable 0 = true ∧ s.hbmUnc (s.headAddr 0) = false ∧
       s.recUsable 64 = true ∧ s.hbmUnc (s.headAddr 64) = false ∧ (s.setLine 7 (some c)).line 7 = some c ∧
       headValid ((s.setLine 7 (some c)).newestHead 0) = true ∧ (s.setLine 7 (some c)).firstOf 7 = none ∧ c.pins = 0 ∧ c.recPins = 0) :=
  ⟨by decide +kernel, by decide +kernel, by decide +kernel, by decide +kernel, by decide +kernel⟩

/-! ## Power, boot and registers -/

/-- SmbusTarget, PowerResetAndLink: powered and not, in reset and not, PERST_N low and high, the link up and down; at a
stand. -/
theorem witness_PowerResetAndLink :
    State.reset.boot.powered = true ∧ State.reset.boot.inReset = false ∧ State.reset.boot.outside = false ∧
      State.reset.boot.pcieUp = false ∧ State.reset.boot.perst = true ∧
      (let off := execPowerOff State.reset
       (match off with | .next t => !t.boot.powered && t.halted && t.boot.inReset | _ => false) = true) ∧
      4 < (5 : BitVec 8).toNat := by decide +kernel

/-- BootToImage: each of the first phases; a channel of a slot with a spare and one that is a spare; images with and
without the header; the host's image asked for and not; FAILED with GO. -/
theorem witness_BootToImage :
    (State.reset.halted = false ∧ State.reset.phase = 0 ∧
      ((List.range 7).all fun p => (State.reset.setPhase p).phase == p) = true) ∧
    (State.reset.chanState 0 ≠ 2 ∧ State.reset.stackLost 0 = false ∧
      (State.reset.setChanState 0 4).pickSpare 0 = some 30 ∧ State.reset.chanState 30 = 2) ∧
    (ofLE (slice ([] : List Byte) 0 4) ≠ 0x5442564B ∧
      (let im : List Byte := toLE 4 0x5442564B ++ toLE 2 1 ++ [0, 0] ++ toLE 2 0x9012 ++ [0x20, 0] ++ toLE 4 7 ++ toLE 4 8388352
       ofLE (slice im 0 4) = 0x5442564B ∧ ofLE (slice im 4 2) = 1 ∧ ofLE (slice im 8 2) = 0x9012 ∧
         ofLE (slice im 10 1) = 0x20 ∧ ofLE (slice im 16 4) % 8 = 0 ∧ ofLE (slice im 16 4) ≤ 8388352)) ∧
    (let s := State.reset.setPhase 3
     s.fld Reg.identBootStat Fld.identBootStatImage ≠ 2 ∧ s.boot.sfdp = false ∧
       (s.setF Reg.identBootStat Fld.identBootStatImage 2).fld Reg.identBootStat Fld.identBootStatImage = 2 ∧
       Fld.identBootCmdGo.get (fw Fld.identBootCmdGo 1) ≠ 0 ∧ (s.setPhase 6).phase = 6) :=
  ⟨by decide +kernel, by decide +kernel, by decide +kernel, by decide +kernel⟩

/-- The ROM runs a body. -/
def sBody (body : List Byte) : State :=
  let s := (State.reset.setPhase 4).setBytes imageBase body
  { s with boot := { s.boot with recAt := imageBase, bodyEnd := imageBase + body.length } }
/-- A record of kind `t` for address `d`, with payload `p`. -/
def recOf (t d : Nat) (p : List Byte) : List Byte := [BitVec.ofNat 8 t, 0, 0, 0] ++ toLE 4 p.length ++ toLE 8 d ++ p
/-- BootRecordActions: a record of every kind and of an unknown one; COPY to the ends of the scratch memory and to host
memory; WAIT for a register that has the value and one that has not; a TASK for a FREE task. -/
theorem witness_BootRecordActions :
    (let s (t : Nat) : State := sBody (recOf t 0x41000000 [1, 2, 3, 4, 5, 6, 7, 8])
     ((List.range 7).all fun t => (s t).bootRec.typ == t) = true ∧ (s 1).halted = false ∧ (s 1).phase = 4 ∧
       (s 1).host.switching = none ∧ (s 1).bat.cur = none ∧ (s 1).spin.dma = [] ∧ (s 1).bootRec.dst % 8 = 0 ∧
       0x41000000 ≤ (s 1).bootRec.dst ∧ (s 1).bootRec.dst + ((s 1).bootRec.len + 7) / 8 * 8 ≤ 0x41800000 ∧
       (sBody (recOf 1 0x417FFFF8 [1])).bootRec.dst + 8 = 0x41800000 ∧
       inHost (sBody (recOf 1 0x800000000000 [])).bootRec.dst = true) ∧
    (let w (v : Nat) : State := sBody (recOf 2 0 (toLE 8 (2 ^ 64 - 1) ++ toLE 8 v ++ toLE 4 1))
     (match (w 0).busRead .internal (w 0).bootRec.dst 8 with | .ok x => ofLE x.bytes != 0 | _ => false) = true ∧
       ({ (w 0).boot with waitFrom := some 0 } : Boot).waitFrom = some 0 ∧
       0 + 1000 * ofLE (slice (w 0).bootRec.data 16 4) = 1000) ∧
    (let r := sBody (recOf 4 0 (toLE 2 4095 ++ List.replicate 30 0))
     ofLE (slice r.bootRec.data 0 2) % 4096 = 4095 ∧ (r.task 4095).st = .free) ∧
    (sBody (recOf 3 0 [])).patchFails [] = some 1 :=
  ⟨by decide +kernel, by decide +kernel, by decide +kernel, by decide +kernel⟩

/-- RegisterAccess: a register with RW, W1C and WS bits; a write that arrives by the host and by a thread; one that is not
aligned; one of a register a batten holds; an address without a register, and one with access codes only. -/
theorem witness_RegisterAccess :
    rwMask (Reg.creelCtl 0) ≠ 0 ∧ w1cMask Reg.warpErr ≠ 0 ∧ wsMask Reg.beamPool ≠ 0 ∧
    (let s : State := { State.reset.setPhase 5 with boot := { (State.reset).boot with pcieUp := true } }
     let a : Nat := Reg.creelCtl 0
     inWindows a = true ∧ s.boot.pcieUp = true ∧ s.halted = false ∧ 5 ≤ s.phase ∧ s.inOverlay a 8 = false ∧
       s.spin.dma = [] ∧ a % 8 = 0 ∧ (a + 4) % 8 ≠ 0 ∧ (a + 4) % 4 = 0 ∧ (a + 2) % 4 ≠ 0 ∧
       (match regDesc? a with | some d => !ownEffect.contains d.base && !measured.contains a | none => false) = true ∧
       regDesc? 0x7FFF8 = none ∧ inWindows 0x7FFF8 = true ∧ inWindows 0x80000 = false ∧
       ({ s with bat := { s.bat with cur := some bat0, oldReg := [(a, none)] } } : State).inOverlay a 8 = true) := by
  decide +kernel

/-- StepRunsTheFront, QueueUntouched, HostListBounded, MemoryStaysCanonical, TripLatches: queues with and without a
command; a full stage list; a step that answers a next state from a device that has tripped. -/
theorem witness_StepRunsTheFront :
    (let s : State := { State.reset with pending := [.powerOn, .grantPeriod], tension := { State.reset.tension with tripped := true },
                                         bat := { State.reset.bat with hstage := List.replicate 256 ⟨0x1001FFF8, 3, 1⟩ } }
     s.tension.tripped = true ∧ s.bat.hstage.length ≤ 256 ∧ Memory.wf s.mem = true ∧
       (match step s with | .next t => t.tension.tripped && t.pending == [.grantPeriod] | _ => false) = true) ∧
    State.reset.pending = [] := by decide +kernel

/-! ## More states that meet the hypotheses: the corners of the statements -/

/-- HBM channel 0 at rest, in a state. -/
def rest (s : State) : State := s.setF (chanReg 0) Fld.creelChanRest 1

/-- The statements about instructions of picks: one that stands at the last word of its draft. -/
def pktLast : Pkt := { pkt0 with pick := { pick0 with pc := 99 } }
theorem witness_lastWord : (withPkt pktLast).pickRuns 0 pktLast ∧ ¬ (withPkt pktLast).pickGoesOn pktLast := by
  unfold State.pickRuns State.pickGoesOn; decide +kernel

/-- NopAndIllegalUses: a word of the table, and one of an opcode that it does not list. -/
theorem witness_NopAndIllegalUses_words : opcodeOf (w0.toWord 0x97) = 0x97 ∧ opcodeOf (w0.toWord 0x13) = 0x13 ∧
    IWord.ofWord (w0.toWord 0x97) = w0 := by decide +kernel

/-- DraftControlFlow: branches to LEN and past it; picks that end with no disposition, with each one, with and without an
edit word, one of which is undefined; a head held; a dirty slot that is written; edits at byte 192 and past it; rewrite
sources of the port, of another, and none. -/
theorem witness_DraftControlFlow_end :
    (((1 : Nat) : Int) + (99 : BitVec 32).toInt = sP.draftLen 0 false ∧ (-1 : BitVec 32).toInt ≤ 0) ∧
    (let e (x : Pkt) : Option Pkt := match (withPkt x).endPick 0 with | .ok t => t.pkt? 0 | .error _ => none
     let d (y : Disp) : Pkt := { pkt0 with pick := { pick0 with disp := y } }
     (e pkt0).isNone = true ∧ (e (d (.punt 1 2))).map (·.place) = some .handed ∧
       (e (d (.unicast 0 0))).map (·.place) = some .handed ∧ (e (d (.multicast 1 0))).map (·.place) = some .handed ∧
       (e (d .recirc)).isSome = true ∧ Tbl.wf (Tbl.const none) sP.pkts = true ∧ pick0.spare = none ∧
       pkt0.place = .running ∧ sP.epochCount false = 1) ∧
    (let x (op : Nat) : Pkt := { pkt0 with
       user := BitVec.ofNat 256 (op * 2 ^ 252)
       pick := { pick0 with disp := .unicast 0 0, editSet := true } }
     (match sP.applyEdit 0 (x 0).writeBack with | .ok f => f == pkt0.frame | .error _ => false) = true ∧
       (match sP.applyEdit 0 (x 9).writeBack with | .ok _ => false | .error _ => true) = true ∧
       (match (withPkt (x 9)).endPick 0 with | .ok _ => false | .error _ => true) = true) ∧
    (let x : Pkt := { pkt0 with pick := { pick0 with held := some (held0 0) } }
     let s := (withPkt x).setLine 0 (some (line0 head0 0))
     s.pkt? 0 = some x ∧ s.line (held0 0).line = some (line0 head0 0) ∧ (line0 head0 0).detached = false) ∧
    (let q : SlotSrc := { byte := 60, bit := 7, width := 25, ck := 0, step := 0 }
     let x : Pkt := { pkt0 with hfDirty := BitVec.ofNat 32 (2 ^ 31), hfValid := BitVec.ofNat 32 (2 ^ 31)
                                hf := pkt0.hf.set 31 0x1FFFFFF, src := pkt0.src.set 31 (some q) }
     x.hfDirty = BitVec.ofNat 32 (2 ^ 31) ∧ x.hfValid.getLsbD 31 = true ∧ vget x.src 31 none = some q ∧
       8 * q.byte + q.bit + q.width = 8 * x.frame.length ∧ x.writeBack.frame.drop 60 = [1, 0xFF, 0xFF, 0xFF]) ∧
    (let ew (off len : Nat) : Nat := off * 2 ^ 40 + len * 2 ^ 32
     bitsOf (ew 100 92) 47 40 + bitsOf (ew 100 92) 39 32 = 192 ∧ 192 < bitsOf (ew 255 1) 47 40 + bitsOf (ew 255 1) 39 32 ∧
       (ew 100 92).testBit 0 = false ∧ (ofLE (slice (List.replicate 128 (0 : Byte)) 0 8)).testBit 63 = false) ∧
    (let x (r : Word) : Pkt := { pkt0 with pick := { pick0 with nextHop := some r } }
     sP.rewriteSrc pkt0 = none ∧ sP.rewriteSrc (x 5) = some 5 ∧ (5 : Word).toNat % 1024 = 5 ∧
       (sP.pbyte 0 0x20A00001).getLsbD 7 = false ∧ ((sP.setByte 0x20A00001 0x80).pbyte 0 0x20A00001).getLsbD 7 = true) :=
  ⟨by decide +kernel, by decide +kernel, by decide +kernel, by decide +kernel, by decide +kernel, by decide +kernel,
    by decide +kernel⟩

/-- WindowsTimesAndCounts: a pick that holds a head; a domain that is on in the pick's overlay, with a stamp. -/
theorem witness_WindowsTimesAndCounts_held :
    (let s := withRegs sP [(Reg.timeDomCtl 7, fw Fld.timeDomCtlEnable 1)]
     s.pickDomOn 0 7 = true ∧ sP.pickDomOn 0 7 = false ∧ (s.domOn 7) = true ∧
       ({ pkt0 with stamps := List.replicate 8 (some ⟨5, 0⟩) } : Pkt).stamps.getD 7 none = some ⟨5, 0⟩) ∧
    ((sP.setLine 0 (some (line0 head0 0))).line (held0 0).line = some (line0 head0 0)) := ⟨by decide +kernel, by decide +kernel⟩

/-- DispositionInstructions: sets whose heads recirculated packets pin: 12 lines of it, 11, the line of the pick itself, and
one of two lines; 6 flows in W2. -/
def sPins (n : Nat) : State := (List.range n).foldl (fun (s : State) i => s.setLine i (some { line0 head0 i with recPins := 1 })) sP
theorem witness_DispositionInstructions_pins :
    (12 ≤ (((sPins 12).recPinned 15).map (·.2)).sum ∧ (((sPins 11).recPinned 15).map (·.2)).sum + 1 = 12 ∧
      (∃ e ∈ (sPins 12).recPinned 11, e.1 = 11) ∧ ((sPins 6).recPinned 0).length = 6 ∧ (sPins 6).pickProfile 0 ≠ 2) ∧
    (let s := (sPins 11).setLine 15 (some { line0 head0 15 with second := some 14 })
     ((s.recPinned 15).map (·.2)).sum + 2 = 13 ∧ (s.line 15).any (fun c => c.second.isSome) = true) ∧
    (((sPins 6).wr Reg.tensionProfile 2).pickProfile 0 = 2) := ⟨by decide +kernel, by decide +kernel, by decide +kernel⟩

/-- A lookup table 6 of one bucket at the start of HBM. -/
def tblRegs : List (Nat × Word) :=
  [(Reg.warpStbl6Nb, Fld.warpStbl6NbNb.put (fw Fld.warpStbl6NbValid 1) 1), (Reg.warpStbl6Base, fw Fld.warpStbl6BaseBase hbmBase)]

/-- TableLookups: a lookup at a channel at rest; a MAC key in its bucket, found by the source lookup; next hops valid and
not, and a rewrite; a port at its LIMIT, with EXCESS 0 and 1; entries of another port, static ones; a key that is queued;
a full queue of a loom. -/
theorem witness_TableLookups_source :
    ((rest (withRegs sP tblRegs)).lookHeld 0 6 0 0 0).isSome = true ∧
    (let e := 8 * sP.pickMacBucket 0 5
     let s := ((sP.setLe (0x20000000 + 16 * e) 8 (2 ^ 63 + 5)).setLe (0x20000008 + 16 * e) 8 3).setLe 0x20A00000 2 0xC005
     s.macFind 0 (s.pickMacBucket 0 5) 5 = [e] ∧ (s.macWords 0 e).2 = 3 ∧ s.macFind 0 (s.pickMacBucket 0 6) 6 = [] ∧
       (s.ple 0 0x20A00000 2).testBit 15 = true ∧ (sP.ple 0 0x20A00000 2).testBit 15 = false ∧
       (BitVec.ofNat 64 (0xC005 % 2 ^ 15) : Word).getLsbD 14 = true) ∧
    (let s := withRegs sP [(Reg.learnCtl, fw Fld.learnCtlEnable 1), (Reg.learnPort 0, Fld.learnPortLimit.put (fw Fld.learnPortMode 1) 1)]
     let u := s.setLe (0x20000000 + 16 * 131071) 8 (2 ^ 63 + 6)
     s.pfld 0 Reg.learnCtl Fld.learnCtlEnable = 1 ∧ s.pickNoLearn 0 0 = false ∧
       s.limitMet 0 (s.pfld 0 (Reg.learnPort 0) Fld.learnPortLimit) = false ∧
       u.limitMet 0 (u.pfld 0 (Reg.learnPort 0) Fld.learnPortLimit) = true ∧
       s.pfld 0 (Reg.learnPort 0) Fld.learnPortExcess = 0 ∧
       (s.setF (Reg.learnPort 0) Fld.learnPortExcess 1).pfld 0 (Reg.learnPort 0) Fld.learnPortExcess ≠ 0 ∧
       sP.pickNoLearn 0 0 = true) ∧
    ((0 : Nat).testBit 16 = false ∧ (2 ^ 17 : Nat).testBit 17 = true ∧ (2 ^ 18 : Nat).testBit 18 = true ∧ 0 % 65536 = pkt0.inPort ∧
      3 % 65536 ≠ pkt0.inPort) ∧
    (let q (n : Nat) : List LearnEv := (List.range n).map fun k => { key := k, port := 0, loom := 0, at_ := 0 }
     ((q 64).filter fun v => v.loom == pkt0.loom).length = 64 ∧ ((q 63).filter fun v => v.loom == pkt0.loom).length < 64 ∧
       (q 64).all (fun v => v.key != 64) = true ∧ ∃ v ∈ q 1, v.key = 0) := by decide +kernel

/-- FlowLookups, FlowRecords, in W2: a cached head without its tail image, a free line for it; a record placed with a free
line and a second one. -/
def sW2 : State := sW.wr Reg.tensionProfile 2
theorem witness_Flow_w2 :
    (let s := sW2.setLine (setBase seal0) (some (line0 head0 0))
     s.pickProfile 0 = 2 ∧ s.pickWarpOn pkt0 = true ∧ s.pickKey pkt0 0 0 = some (0, keyString 0 pkt0.hf 0 0) ∧
       s.cacheFind seal0 = some (setBase seal0) ∧ (line0 head0 0).image = none ∧ pkt0.pick.spare = none ∧
       ((List.range 16).map (setBase seal0 + ·)).find? (fun i => (s.line i).isNone) = some (setBase seal0 + 1) ∧
       ({ line0 head0 0 with image := some 0 } : CLine).image.isSome = true) ∧
    (sW2.pickProfile 0 = 2 ∧ (match sW2.place (sW2.tableFor seal0) seal0 with | some (.way _ _) => true | _ => false) = true ∧
      ((List.range 16).map (setBase seal0 + ·)).find? (fun i => (sW2.line i).isNone) = some (setBase seal0) ∧
      ((List.range 16).map (setBase seal0 + ·)).find? (fun i => decide (i ≠ setBase seal0) && (sW2.line i).isNone) =
        some (setBase seal0 + 1)) := ⟨by decide +kernel, by decide +kernel⟩

/-- FlowRecords: no key form asks for a digest record at a create; every line of the set taken, and the victim buffer
full. -/
theorem witness_FlowRecords_forms (f : Nat) : sW.pfdigForm 0 Fld.warpFdigCtlCreateForms f = false := by
  have h : sW.pfld 0 Reg.warpFdigCtl Fld.warpFdigCtlCreateForms = 0 := by decide +kernel
  unfold State.pfdigForm; rw [h]; exact Nat.zero_testBit f
/-- The set of seal0 with every line taken, and its bank's victim buffer full. -/
def sNoLine : State :=
  ((List.range 16).foldl (fun (s : State) i => s.setLine (setBase seal0 + i) (some (line0 (headBit 0 31 true) (100 + i)))) sW).setVictims
    (lineBank (setBase seal0)) (List.replicate 64 { head := 0, rno := 9, image := none, reqs := [1] })
theorem witness_FlowRecords_full :
    ((List.range 16).all fun i => (sNoLine.line (setBase seal0 + i)).isSome) = true ∧
    64 ≤ (sNoLine.victims (lineBank (setBase seal0))).length ∧ sNoLine.cacheFind seal0 = none ∧
    (sNoLine.victims (lineBank (setBase seal0))).find? (fun v => headSeal v.head == seal0) = none ∧
    sNoLine.candidate seal0 = none ∧
    (match sNoLine.place (sNoLine.tableFor seal0) seal0 with | some (.way _ _) => true | _ => false) = true := by
  decide +kernel

/-- FlowHeadsComeAndGo: a record that a pick waits for; one whose channel rests; one whose head is not cached, idle, HIT and
unreadable in HBM; an overflow record; picks that wait for a head that is cached, that no index knows, that HBM holds,
that is another's, and that is unreadable. -/
theorem witness_FlowHeadsComeAndGo_read :
    (let i : HeadWait := { key96 := seal0, key := [], form := 0, rno := 0, line := 0, create := none, reqs := [] }
     let s := withRegs { withPkt { pkt0 with pick := { pick0 with wait := .head i } } with warp :=
       { State.reset.warp with tags := [(0, 1)] } } warpRegs
     s.recBusy 0 = true ∧ s.recBusy 1 = false ∧ s.isPlaced 0 = true) ∧
    (let s : State := { sWT with warp := { sWT.warp with tags := [(0, 1)] } }
     (rest s).accessHeld (s.headAddr 0) 128 = some (s.headAddr 0) ∧ s.accessHeld (s.headAddr 0) 128 = none ∧
       s.recBusy 0 = false ∧ s.lineOfRec 0 = none ∧ s.victimOfRec 0 = none ∧ s.hbmUnc (s.headAddr 0) = false ∧
       headHit (BitVec.ofNat 512 (s.le (s.headAddr 0) 64)) = false ∧ s.ovfCount = 0 ∧ s.tag 0 ≠ 0 ∧
       (s.setBad (hbmLine (s.headAddr 0)) true).hbmUnc (s.headAddr 0) = true) ∧
    (let s : State := { withRegs sWT [(Reg.warpOvfCfg, Fld.warpOvfCfgCount.put (fw Fld.warpOvfCfgFirstRec 64) 8)] with
       warp := { sWT.warp with ovf := [(0, some seal0)] } }
     s.isPlaced 64 = true ∧ s.ovfFirst = 64 ∧ s.ovfCount = 8 ∧ s.tag 64 = 0) ∧
    (let i : HeadWait := { key96 := seal0, key := [], form := 0, rno := 0, line := 0, create := none, reqs := [] }
     let w : State := withRegs (withPkt { pkt0 with pick := { pick0 with wait := .head i } })
       ((Reg.warpOvfCfg, Fld.warpOvfCfgCount.put (fw Fld.warpOvfCfgFirstRec 64) 8) :: warpRegs)
     let s : State := { w.setLine 0 (some { line0 0 0 with reserved := true }) with warp := { w.warp with
       cache := [(0, some { line0 0 0 with reserved := true })], ovf := [(0, some seal0)] } }
     let v (h : Head) : State := s.hbmPut (s.headAddr 64) (headBytes h)
     let read (t : State) : Head := BitVec.ofNat 512 (t.le (t.headAddr 64) 64)
     s.candidate seal0 = some 64 ∧ w.candidate seal0 = none ∧ i.reqs.all s.reqDone = true ∧
       (s.line 0).map (·.reserved) = some true ∧ ((s.setLine 0 (some (line0 head0 0))).line 0).map (·.reserved) = some false ∧
       headValid (read (v head0)) = true ∧ headSeal (read (v head0)) = seal0 ∧ headValid (read s) = false ∧
       s.pickGoesOn { pkt0 with pick := { pick0 with wait := .head i } } ∧
       (s.spoil (hbmLine (s.headAddr 64)) rsForced).hbmUnc (s.headAddr 64) = true) := by
  refine ⟨by decide +kernel, by decide +kernel, by decide +kernel, ?_⟩
  unfold State.pickGoesOn; decide +kernel

/-- MemoryAccess: a load that a channel at rest holds; addresses of a copied table; a descriptor of a copy in progress; a freed
unit; a byte of a bucket that a search may use. -/
theorem witness_MemoryAccess_held :
    ((rest sT).accessHeld hbmBase 8 = some hbmBase ∧
      ((sT.holdLoad w0 0 hbmBase 8).task 0).load.isSome = true ∧ linesOf hbmBase 8 = [hbmBase]) ∧
    (let s := withRegs sT ((Reg.warpStbl6Mirror, fw Fld.warpStbl6MirrorMirror (hbmBase + 4096)) :: tblRegs)
     (s.mirrorOf hbmBase).isSome = true ∧ s.mirrorOf 0x10800000000 = none) ∧
    (let s : State := { sT with spin := { sT.spin with freed := [(0, true)], dma := [(0, [⟨0, 0x41000000, 0, 0, 64, 0, false⟩])] } }
     s.inFreed 0x42000000 8 = true ∧ s.inDescriptor 0x41000000 8 = true) ∧
    Tbl.wf memReset sT.mem = true := by decide +kernel

/-- StagingStores: a host that reaches the registers and one that does not, which take writes. -/
theorem witness_StagingStores_host :
    (let s : State := { State.reset.setPhase 5 with boot := { State.reset.boot with pcieUp := true } }
     s.hostReaches Reg.beamHstageData = true ∧ s.hostReaches Reg.beamBattenCmd = true ∧
       State.reset.hostReaches Reg.beamHstageData = false ∧ s.takesWrites Reg.beamHstageData ∧ s.takesWrites Reg.beamBattenCmd ∧
       s.stageBad 1 8 = some 3) := by
  unfold State.takesWrites; decide +kernel

/-- LocksAndWaits: a lock of a bucket with deferred updates, that a pin waits for and that none does. -/
theorem witness_LocksAndWaits_deferred :
    (let v : LearnEv := { key := 5, port := 0, loom := 0, at_ := 0 }
     let n := State.reset.macBucket 5
     let s : State := { (withTask { task0 with locks := [n] }).setLock n (some { holder := 0, waiters := [] }) with
       learn := { State.reset.learn with deferred := [v] } }
     n ∈ (s.task 0).locks ∧ s.learn.pinDeferred = [] ∧ (s.learn.deferred.filter fun v => s.macBucket v.key == n) = [v]) := by
  decide +kernel

/-- EventsAndQueues: a task that waits at a queue to be given its entry. -/
theorem witness_EventsAndQueues_getter :
    (let s := (sT.setSqueue 0 { entries := [], putters := [], getters := [1] }).setTask 1
       { Task.none with st := .blocked, wait := .qget 0 3 }
     s.flag (Reg.spinQCfg 0) Fld.spinQCfgNotifyEn = false ∧ (s.squeue 0).getters = [1] ∧ (s.task 1).wait = .qget 0 3) := by
  decide +kernel

/-- DmaCopies: a descriptor at a channel at rest; a copy at the head of a queue, of host memory, and of a channel at rest. -/
theorem witness_DmaCopies_queue :
    ((rest sT).accessHeld hbmBase 32).isSome = true ∧
    (let r (a : Nat) : DmaReq := ⟨0, 0x10000000, a, 0x800000001000, 64, 0, false⟩
     let s (a : Nat) : State := { sT with boot := { sT.boot with pcieUp := true }, spin := { sT.spin with dma := [(31, [r a])] } }
     (s 0x800000000000).dmaQueue 31 = [r 0x800000000000] ∧ (s 0x800000000000).copyHeld 0x800000000000 64 = none ∧
       ((rest (s hbmBase)).copyHeld hbmBase 64).isSome = true ∧
       ((s 0x800000000000).copy (.task 0) 0x800000000000 0x800000001000 64).toOption.isSome = true) := by decide +kernel

/-- BattensApply: a batten that flips the bank, and one that stored program words. -/
theorem witness_BattensApply_flip :
    (let s : State := { State.reset with bat := { State.reset.bat with cur := some bat0, curFlip := true, seq := 1 } }
     s.oldPicks = false ∧ s.bat.curFlip = true) ∧
    (let s : State := { withTask { task0 with st := .blocked, wait := .batten } with
       bat := { State.reset.bat with draining := some true, flip := some bat0 } }
     s.epochCount true = 0 ∧ bat0.host = false ∧ bat0.wake = true ∧ (s.task bat0.task).wait = .batten ∧ s.halted = false) ∧
    (let s : State := { State.reset with bat := { State.reset.bat with queue := [bat0] } }
     (bat0.list.all fun e => s.inDescriptor e.addr (2 ^ (e.w % 4)) == false) = true ∧ s.bat.cur = none) := by decide +kernel

/-- ReedSearches: a kept match whose row is verified, in the first and the last entry. -/
theorem witness_ReedSearches_next :
    (let x : Pkt := { pkt0 with pick := { pick0 with searched := true, cands := [(524287, true)] } }
     x.pick.searched = true ∧ x.pick.cands = (524287, true) :: [] ∧ (524287 : Nat) < 524288) := by decide +kernel

/-- ReedBankPower: a scrub that has won its slot; rows that read, that are repaired from the second copy, and that are lost;
slots of a search, of a scrub access and of nobody. -/
def three : List SymErr := [⟨0, 1⟩, ⟨1, 2⟩, ⟨40, 7⟩]
theorem witness_ReedBankPower_scrub :
    (let s : State := withRegs { State.reset with reed := { State.reset.reed with scrubs := [(127, 1)] } }
       [(Reg.reedBank 127, fw Fld.reedBankPowerAck 1), (Reg.reedCtl, fw Fld.reedCtlScrubEn 1)]
     s.flag Reg.reedCtl Fld.reedCtlScrubEn = true ∧ s.reedOn (524287 / 4096) = true ∧
       Tbl.get (Tbl.const 0) s.reed.scrubs (524287 / 4096) ≠ 0 ∧ s.reedSlotOwner 127 = 6 ∧
       State.reset.reedSlotOwner 127 = 0 ∧ Tbl.get (Tbl.const 0) State.reset.reed.scrubs 127 = 0) ∧
    (rsUnc three = true ∧ rsUnc [] = false ∧ rsLeft [] = [] ∧
      ({ differs := true, copyA := (three, []), copyB := ([], []) } : RowFault).differs = true) ∧
    (let s := (withRegs (withPkt pktS) [(Reg.reedBank 0, fw Fld.reedBankPowerAck 1)])
     let q := { search0 with mask := 1 }
     let t := ((s.setPkt 0 (some { pkt0 with pick := { pick0 with wait := .search q } })).setPortQ 0 [0])
     t.reedSlotOwner 0 = 1 ∧ (t.portQ 0).head? = some 0) ∧
    min 32 ((State.reset.setF Reg.reedTreadleCtl Fld.reedTreadleCtlLen 0).fld Reg.reedTreadleCtl Fld.reedTreadleCtlLen) = 0 ∧
    min 32 ((State.reset.setF Reg.reedTreadleCtl Fld.reedTreadleCtlLen 32).fld Reg.reedTreadleCtl Fld.reedTreadleCtlLen) = 32 := by
  decide +kernel

/-- TwillScans: a head whose TSTATE is not 0; a queue of scans that is full; a request whose flow is the head's. -/
theorem witness_TwillScans_state :
    (headTstate (headTwill head0 1 0) = 1 ∧ 4096 ≤ (List.replicate 4096 (0 : Nat)).length) ∧
    (let q : ScanReq := { key96 := seal0, firstSeen := 0, start := 0, valid := true, bytes := [], onset := 1, window := 1,
                          seq := 0, order := 0 }
     let s := (sW.setEngine 3 [q]).setLine (setBase seal0) (some (line0 head0 0))
     s.engine 3 = [q] ∧ s.cacheFind q.key96 = some (setBase seal0) ∧ hget head0 16 4 = q.firstSeen ∧ s.halted = false) := by
  decide +kernel

/-- FramesArrive: a timing-class port, a runt; packets with a bad FCS in a pick that holds a head and cells, and stored. -/
theorem witness_FramesArrive_bad :
    (let s := sUp.setF (portCfg 0) Fld.selvPortCfgTimingClass 1
     s.flag (portCfg 0) Fld.selvPortCfgTimingClass = true ∧ sUp.flag (portCfg 0) Fld.selvPortCfgTimingClass = false) ∧
    (let x : Pkt := { pkt0 with fcsOk := false, resv := 3, pick := { pick0 with held := some (held0 0) } }
     let s := (withPkt x).setLine 0 (some { line0 head0 0 with pins := 1 })
     s.pkt? 0 = some x ∧ x.written = false ∧ x.place = .running ∧ x.kept = none ∧
       s.line (held0 0).line = some { line0 head0 0 with pins := 1 } ∧ { x with place := .stored }.place = .stored) ∧
    pkt0.written = true ∧ beAt (List.replicate 64 (0 : Byte)) 12 2 ≠ 0x8808 := by decide +kernel

/-- PacketsEnterDrafts: a packet on the recirculation queue that is not whole. -/
theorem witness_PacketsEnterDrafts_whole : ({ pkt0 with fcsOk := false } : Pkt).written = false ∧
    ({ pkt0 with fcsOk := false, pick := { pick0 with pick2 := true } } : Pkt).written = true := by decide +kernel

/-- A packet of a multicast group. -/
def pktM : Pkt := { pktB with pick := { pick0 with disp := .multicast 9 1 } }
/-- BufferAdmission: a group of ports 0 and 1 with SRC_PRUNE; copies of a packet without a pool and with one; a lossless queue,
an account at its limit, within and beyond its headroom; marshal mode with residue and with none, at its limit. -/
def sGroup : State :=
  (withRegs (withPkt pktM) (upRegs ++ [(portCfg 0, fw Fld.selvPortCfgEnable 1), (portCfg 1, fw Fld.selvPortCfgEnable 1)])).setLe
    (0x31000000 + 128 * 9) 8 3
theorem witness_BufferAdmission_group :
    (let s := sGroup.setLe (0x31000040 + 128 * 9) 8 (2 ^ 63)
     let u := sGroup.setLe (0x31000040 + 128 * 9) 8 (2 ^ 63 + 2 ^ 62)
     s.groupPorts pktM 9 = [0, 1] ∧ u.groupPorts pktM 9 = [1] ∧ sGroup.groupPorts pktM 9 = [] ∧ s.heldBack 0 pktM = false ∧
       pktM.place = .handed ∧ s.portIsDown (queuePort 8193) = false ∧ s.lossless pktM 8193 = false) ∧
    (let q : Nat := 2 ^ 43
     let s := ((sB.setF (Reg.beamPort 0) Fld.beamPortPfcTxEn 1).setLe 0x31800000 8 q).setLe 0x31830000 8 (2 ^ 44 + 2 ^ 4)
     let u := s.setAcct 0 { shared := 1, head := 0, xoff := false }
     s.lossless pktB 0 = true ∧ s.qClass 0 = 0 ∧ s.verdict pktB 0 1 false = .taken .shared ∧
       u.verdict pktB 0 1 false = (if 1 ≤ u.headFree then .taken .headroom else .drop 2) ∧
       (s.setAcct 0 { shared := 1, head := 1, xoff := false }).verdict pktB 0 1 false = .drop 2 ∧
       s.flag (Reg.beamPort 0) Fld.beamPortPfcTxEn = true ∧ s.acctCfg 0 / 2 ^ 44 = 1) ∧
    (let s := withRegs sB [(Reg.beamPool, Fld.beamPoolHeadPool.put (fw Fld.beamPoolMinPool 500000) 478944),
       (Reg.beamCtl, Fld.beamCtlMarshalLimit.put (fw Fld.beamCtlMarshal 1) 1)]
     s.flag Reg.beamCtl Fld.beamCtlMarshal = true ∧ s.verdict pktB 0 1 false = .drop 1 ∧ s.residueCells = 0 ∧
       s.residueCells + 1 ≤ s.fld Reg.beamCtl Fld.beamCtlMarshalLimit ∧
       (s.setResidue 3 [⟨0, 1, false⟩]).fld Reg.beamCtl Fld.beamCtlMarshalLimit < (s.setResidue 3 [⟨0, 1, false⟩]).residueCells + 1 ∧
       1 ≤ s.bankFree 0 ∧ 1 ≤ s.minFree ∧ s.sharedFree < 1 ∧
       ({ s with beam := { s.beam with minUsed := 500000 } } : State).minFree < 1 ∧
       ({ s with beam := { s.beam with bankUsed := [(0, 100000)] } } : State).bankFree 0 < 1 ∧ s.queue 0 = [] ∧
       ({ pktB with pool := some .shared } : Pkt).pool ≠ none) := by decide +kernel

/-- EgressScheduling: a called packet that asks, and the pair of the first round. -/
theorem witness_EgressScheduling_match :
    (let s := (withPkt { pktB with place := .stored, refs := 1, cells := 1 }).setCalled 3
       [{ copy := ⟨0, 9, false⟩, queue := 16 * 100, left := 9 }]
     s.bankOf { copy := ⟨0, 9, false⟩, queue := 16 * 100, left := 9 } = some 0 ∧ s.matchRound [] = [(0, 3)] ∧
       (match exec .grantPeriod s with | .next t => (t.called 3).map (·.left) == [5] | _ => false) = true) := by decide +kernel

/-- Every statement of a register write: at reset it takes writes. -/
theorem witness_takesWrites (a : Nat) : State.reset.takesWrites a :=
  ⟨by decide +kernel, (no_overlay State.reset (by decide +kernel) a 8).1⟩

/-- FramesLeave: a transferred bolt of two segments whose header fits, at a port with its MAX and below it; a stamp asked for,
in a domain the port is in and in one it is not; a time action of each kind, whose fields fit and do not; a copy that may
not leave; classes in XOFF with a refresh due and not, at a port that is up. -/
theorem witness_FramesLeave_bolt :
    (let x : Pkt := { pkt0 with
       frame := List.replicate 154 0
       bolt := BitVec.ofNat 64 (2 ^ 63 + 14 * 2 ^ 40 + 34 * 2 ^ 32 + 54 * 2 ^ 24 + 48) }
     let fs := boltSegments x (x.frame.take 150) 0
     x.bolt.getLsbD 63 = true ∧ fs.length = 2 ∧ fs.map List.length = [102, 102] ∧ x.bolt.toNat % 2 ^ 14 = 48 ∧
       54 ≤ (x.frame.take 150).length ∧ 14 + 20 = 34 ∧ 34 + 20 ≤ 54 ∧ sB.maxFor 0 0 = 1518 ∧
       (let y : Pkt := { x with frame := List.replicate 2000 0, bolt := x.bolt + 2000 }
        (boltSegments y (y.frame.take 1996) 0).any (fun f => decide (1518 < f.length + 4)) = true) ∧ x.timeAct = none ∧ pkt0.pick.stampReq = []) ∧
    (let s := withRegs sB [(Reg.timeDomCtl 7, fw Fld.timeDomCtlEnable 1), (Reg.timePort 0, fw Fld.timePortDomMask 128)]
     (s.egressStamp 0 7).isSome = true ∧ s.egressStamp 0 0 = none ∧ Tbl.get (Tbl.const []) s.time.txq 7 = [] ∧
       64 ≤ (List.replicate 64 (⟨0, 0, 0⟩ : TxqE)).length) ∧
    (let w (op po uo : Nat) : Nat := op * 2 ^ 60 + 7 * 2 ^ 57 + po * 2 ^ 48 + uo * 2 ^ 40
     w 1 50 42 / 2 ^ 60 = 1 ∧ w 2 14 0 / 2 ^ 60 = 2 ∧ w 1 50 42 / 2 ^ 48 % 256 + 44 ≤ 192 ∧ w 1 50 42 / 2 ^ 40 % 256 + 8 ≤ 50 ∧
       192 < w 1 149 0 / 2 ^ 48 % 256 + 44 ∧ w 0 0 0 / 2 ^ 60 = 0 ∧ 3 ≤ w 3 0 0 / 2 ^ 60) ∧
    ((Copy.mayLeave ⟨0, 1, false⟩ { pkt0 with fcsOk := false }) = false ∧ (Copy.mayLeave ⟨0, 1, true⟩ { pkt0 with fcsOk := false }) = true) ∧
    (let s : State := { sUp.setAcct 7 { shared := 0, head := 0, xoff := true } with now := 10000000 }
     s.portIsDown 0 = false ∧ s.xoffClasses 0 ≠ 0 ∧
       (s.port 0).lastPfc + quantaNs (max 1 (s.quanta 0 / 2)) (s.portGbps 0) ≤ s.now ∧
       ({ s with now := 0 } : State).now < (s.port 0).lastPfc + quantaNs (max 1 (s.quanta 0 / 2)) (s.portGbps 0) ∧
       ((s.setTx 0 (some { copy := ⟨0, 1, false⟩, queue := 0, frames := [[0]], on := true, stomped := false, bad := false })).atBoundary 0) = false) :=
  ⟨by decide +kernel, by decide +kernel, by decide +kernel, by decide +kernel, by decide +kernel⟩

/-- WarpMaintenance, WarpControl: records whose channel rests, that a pick waits for, and that a pass is owed; a pick that
waits while the Warp is disabled; a read that waits. -/
theorem witness_Warp_waits :
    (let i : HeadWait := { key96 := seal0, key := [], form := 0, rno := 0, line := 0, create := none, reqs := [] }
     let s : State := { withRegs (withPkt { pkt0 with pick := { pick0 with wait := .head i } }) warpRegs with
       warp := { State.reset.warp with tags := [(0, 1)], disabling := true, owed := [0] } }
     s.recBusy 0 = true ∧ s.moveHeld [0] = some s ∧ s.looksPending = true ∧ s.warp.disabling = true ∧ s.sweepable 0 = false) ∧
    ((sR.recBusy 0 = false ∧ (rest sR).accessHeld (sR.headAddr 0) 128 = some (sR.headAddr 0) ∧
      (rest sR).accessHeld (sR.headAddr 0 + 64) 64 = some (sR.headAddr 0 + 64) ∧ ((rest sR).moveHeld [0]).isSome = true ∧
      sR.moveHeld [0] = none ∧ sR.accessHeld (sR.headAddr 0) 128 = none ∧ sR.looksPending = false) ∧
     ({ sR with warp := { sR.warp with disabling := true, owed := [0] } } : State).tableSweeps = true) := by
  refine ⟨⟨by decide +kernel, ?_, by decide +kernel, by decide +kernel, by decide +kernel⟩, by decide +kernel⟩
  unfold State.moveHeld; rw [if_pos (by decide +kernel)]

/-- AddressLearning: a port in MODE 2, with EV_LEARN 0 and 1; a pin release that holds a place. -/
theorem witness_AddressLearning_request :
    (let s := (sLearn 4).setF (Reg.learnPort 0) Fld.learnPortMode 2
     s.noLearn 0 = false ∧ s.fld (Reg.learnPort 0) Fld.learnPortMode = 2 ∧ (s.masterFind b0 5).length ≤ 1 ∧
       s.flag Reg.learnCtl Fld.learnCtlEvLearn = false ∧
       (s.setF Reg.learnCtl Fld.learnCtlEvLearn 1).flag Reg.learnCtl Fld.learnCtlEvLearn = true) ∧
    (([] : List LearnEv).length + (List.range 16).length = 16) := by decide +kernel

/-- AgingAndIndexes: compares of HBM at a channel at rest and not, over a source that stands and one that does not. -/
theorem witness_AgingAndIndexes_compare :
    (let s := withRegs State.reset [(Reg.learnCmpSrc, fw Fld.learnCmpSrcSrc hbmBase), (Reg.learnCmpLen, fw Fld.learnCmpLenLen 16),
       (Reg.learnCmpCtl, fw Fld.learnCmpCtlBusy 1)]
     s.flag Reg.learnCmpCtl Fld.learnCmpCtlBusy = true ∧ s.fld Reg.learnCmpSrc Fld.learnCmpSrcSrc = hbmBase ∧
       ((rest s).accessHeld hbmBase 16).isSome = true ∧ s.accessHeld hbmBase 16 = none ∧
       s.accessHeld 0x50000000 16 = none) := by decide +kernel

/-- LinkStates: a port whose queue and transmitter hold copies; RESET_N low; an attempt without lock; a stopped clock. -/
theorem witness_LinkStates_called :
    (let x := { pktB with place := .stored, refs := 1, cells := 1 }
     let s := ((withRegs (withPkt x) upRegs).setCalled 0 [⟨⟨0, 1, false⟩, 3, 0⟩]).setTx 0
       (some { copy := ⟨0, 1, false⟩, queue := 3, frames := [[0]], on := true, stomped := false, bad := false })
     s.called (0 / 32) ≠ [] ∧ (s.tx 0).isSome = true ∧ s.pkt? 0 = some x ∧ queuePort 3 = 0) ∧
    (({ State.reset with boot := { State.reset.boot with inReset := true } } : State).underPin = true ∧ State.reset.underPin = false) ∧
    (({ State.reset.selv with refLost := 1 } : Selv).refLost.getLsbD (63 / 64) = true) ∧
    ((sPort 0 0 fun x => { x with attempt := some 0 }).port 0).lockAt = none := by decide +kernel

/-- PortModes: eight other timing-class ports of the tile; a port that may not be enabled; a transmitter that wakes. -/
theorem witness_PortModes_refused :
    (let tc := Fld.selvPortCfgTimingClass.put cfgOn 1
     let s := (List.range 8).foldl (fun (s : State) i => s.wr (portCfg (8 * (i + 1) - 1)) tc) State.reset
     Fld.selvPortCfgTimingClass.get tc = 1 ∧
       ((List.range 64).filter fun i => decide (64 * (0 / 64) + i ≠ 0) && s.portOn (64 * (0 / 64) + i) &&
         decide (s.pcfg (64 * (0 / 64) + i) Fld.selvPortCfgTimingClass = 1)).length = 8 ∧
       s.laneTaken 7 7 = false ∧ (s.setF (portCfg 0) Fld.selvPortCfgEnable 1).portOn 0 = true) ∧
    (fecAllowed 0 3 = false ∨ fecAllowed 7 0 = false) := by decide +kernel

/-- ClocksAndWires: the third wire of a group that has moved, and of one that has not; a spare group that is taken; a link of
each kind. -/
theorem witness_ClocksAndWires_third :
    Tbl.get (Tbl.const 0) [(256 * 15 + 255, 2)] (256 * 15 + 255) + 1 = 3 ∧
    Tbl.get (Tbl.const false) [(256 * 15 + 255, true)] (256 * 15 + 255) = true ∧
    Tbl.get (Tbl.const false) State.reset.selv.moved (256 * 15 + 255) = false ∧ (7 : Fin 16).val < 8 ∧ 8 ≤ (8 : Fin 16).val ∧
    State.reset.underPin = false := by decide +kernel

/-- ChannelCommands: the slot before has chosen a refresh, a request, one that is gone, and one whose bank is in a refresh; a
step that is asked for; an idle slot that the patrol takes, and one it does not; requests that have waited 0.5 µs, that hit
an open row, and that do not; a refresh at its deadline; a channel that rests, one that a trigger wants searched, one whose
search has taken a step. -/
theorem witness_ChannelCommands_slots :
    (let x := { Chan.init with queue := [req0] }
     let hit := { x with openRow := [(hbmBank hbmBase, some (hbmRow hbmBase))] }
     x.rank 500 (fun _ => true) true = some req0 ∧ x.rank 499 (fun _ => true) true = some req0 ∧
       (x.rank 0 (fun _ => true) false).isNone = true ∧
       Tbl.get (Tbl.const none) hit.openRow (hbmBank req0.line) = some (hbmRow req0.line) ∧
       (({ x with refUntil := [(hbmBank hbmBase, 5)] } : Chan).rank 0 (fun _ => true) true).isNone = true) ∧
    (let q (sl : Slot) : State := sCh 0 { Chan.init with queue := [req0], nextSlot := sl }
     (q (.refresh 3)).creel.waiting = [] ∧ (q (.refresh 3)).spin.task = [] ∧ (q (.req 1)).chanUp 0 = true ∧
       ((q (.req 1)).chan 0).queue.find? (fun r => r.id == req0.id) = some req0 ∧ req0.copy = false ∧
       Tbl.get (Tbl.const 0) ((q (.req 1)).chan 0).refUntil (hbmBank req0.line) ≤ (q (.req 1)).now ∧
       ((q (.req 7)).chan 0).queue.find? (fun r => r.id == 7) = none ∧ (q .idle).underPin = false ∧
       ((sCh 0 { Chan.init with searching := true }).chan 0).searching = true ∧ 9 ≤ Chan.init.stepGap) ∧
    (({ Chan.init with deadline := some 31, owed := [(3, 8), (31, 8)] } : Chan).forced = some 31 ∧
      8 ≤ Tbl.get (Tbl.const 0) ({ Chan.init with owed := [(3, 8), (31, 8)] } : Chan).owed 31 ∧
      ({ Chan.init with owed := [(3, 8), (31, 7)] } : Chan).forced = some 3) ∧
    (let s := sCh 0 { Chan.init with wanted := true }
     (s.chan 0).wanted = true ∧ s.isRetiring 0 = false ∧ s.chanState 0 < 2 ∧ s.fld (chanReg 0) Fld.creelChanRest = 0 ∧
       (rest s).fld (chanReg 0) Fld.creelChanRest ≠ 0 ∧ ((s.setChanState 0 3).chanState 0 = 3) ∧
       ((sCh 0 { Chan.init with searching := true, stepped := true, releasing := true }).chan 0).stepped = true ∧
       ((sCh 0 { Chan.init with retry := [.access 3 9] }).chan 0).retry = [] ++ [.access 3 9] ∧
       2 ≤ ((s.setF (chanReg 0) Fld.creelChanRest 2).fld (chanReg 0) Fld.creelChanRest)) := by decide +kernel

/-- ChannelRetirement: a granule with a corrected, a marked and a clean line; requests to it and past it; a FROZEN channel
that still serves its slot, and one that has been moved. -/
theorem witness_ChannelRetirement_frozen :
    (let g := { ret0 with copying := true, granted := true }
     let s : State := (sRet g 0).setBad (hbmLine (slotLine 0 0 0 3)) true
     s.retiring 0 = some g ∧ s.hbmUnc (slotLine 0 0 0 3) = true ∧ rsUnc (s.lineErrs (hbmLine (slotLine 0 0 0 3))) = true ∧
       s.hbmUnc (slotLine 0 0 0 0) = false ∧ granule (slotLine 0 0 0 3) = granule (slotLine 0 0 0 0) ∧
       granule (slotLine 0 0 1 0) ≠ granule (slotLine 0 0 0 0)) ∧
    (let s := State.reset.setChanState 0 3
     s.chanState 0 = 3 ∧ s.chanServing 0 = true ∧ s.pickSpare 0 = some 30 ∧ s.retiring 0 = none ∧ s.stackLost 0 = false ∧
       (State.reset.setChanState 31 3).chanServing 31 = false) ∧
    ((State.reset.retiring 7).isNone = true ∧ (0 : Nat) < 256) := by decide +kernel

/-- HbmFaults: lines of the patrol that are clean, corrected and uncorrectable, in its turn; RESET_N low. -/
theorem witness_HbmFaults_turn :
    (let s := sCh 0 { Chan.init with slot := .scrub }
     let e (l : List SymErr) : State := { s with creel := { s.creel with errs := [(0, l)] } }
     (s.chan 0).slot = .scrub ∧ s.patrolLine 0 = 0 ∧ s.hbmUnc hbmBase = false ∧ s.lineErrs 0 = [] ∧
       (e [⟨5, 1⟩]).lineErrs 0 ≠ [] ∧ (e [⟨5, 1⟩]).hbmUnc hbmBase = false ∧ (s.setBad 0 true).hbmUnc hbmBase = true ∧
       (s.setBad 0 true).otherCopy hbmBase = none ∧ State.reset.patrolLine 0 ≠ 2013265919 ∧
       s.flag Reg.warpStbl6Nb Fld.warpStbl6NbValid = false) := by decide +kernel

/-- TimeDomains, PulsesAndCaptures: RESET_N low; a pulse of WIDTH 0, one as wide as its PERIOD. -/
theorem witness_PulsesAndCaptures_width :
    State.reset.pulseWidth 7 = 0 ∧ (State.reset.wr (Reg.timeTpoCtl 7) (fw Fld.timeTpoCtlWidth 5)).pulseWidth 7 = 5 ∧
    (withRegs State.reset [(Reg.timeTpoCtl 7, fw Fld.timeTpoCtlWidth 8), (Reg.timeTpoPeriod 7, fw Fld.timeTpoPeriodPeriod 8)]).pulseWidth 7 = 4 ∧
    (let s : State := { State.reset with time := { State.reset.time with cap := [(3, { fifo := [(true, 5)], lastCap := some 0, lastEdge := 0 })] } }
     (s.capture 3).fifo = (true, 5) :: [] ∧ 5 < timeRange ∧ (State.reset.capture 3).fifo = []) := by decide +kernel

/-- HoldoverAndReferences: an absent reference; SYNCE_OUT carries a port at the least and the greatest rate, and is low. -/
theorem witness_HoldoverAndReferences_absent :
    (let s := withRegs State.reset [(Reg.dpllRef 3, Fld.dpllRefType.put (fw Fld.dpllRefEnable 1) 1), (Reg.dpllCtl, 0)]
     s.refPresent 3 = false ∧ s.flag (Reg.dpllRef 3) Fld.dpllRefEnable = true ∧ s.fld Reg.dpllCtl Fld.dpllCtlMode < 2) ∧
    (let v (hz : Nat) : Word := Fld.synceOutOutHz.put (Fld.synceOutPort.put (fw Fld.synceOutSource 1) 511) hz
     Fld.synceOutSource.get (v 1000) = 1 ∧ Fld.synceOutOutHz.get (v 1000) = 1000 ∧ Fld.synceOutOutHz.get (v 156250000) = 156250000 ∧
       Fld.synceOutOutHz.get (v 999) < 1000 ∧ Fld.synceOutSource.get 0 = 0) ∧
    (State.reset.memInOverlay (Reg.synceOut 1) 8 = false ∧ State.reset.spin.dma = []) := by decide +kernel

/-- TaskCommandResults: a seventeenth command of a round, and commands that wait. -/
theorem witness_TaskCommandResults_full :
    16 ≤ ({ State.reset.spin with roundCmds := 16 } : Spin).roundCmds ∧ State.reset.spin.roundCmds < 16 ∧
    ({ State.reset.spin with cmdQ := [(.start, 0, 0)] } : Spin).cmdQ ≠ [] := by decide +kernel

/-- TaskScheduling: a release of a READY task, that a flag made so in the round and that none did. -/
theorem witness_TaskScheduling_ready :
    (let s (f : Bool) : State := sTask { Task.none with st := .ready, armed := true, flagRound := f } 5
     ((s true).task 4095).st = .ready ∧ ((s true).task 4095).flagRound = true ∧ ((s false).task 4095).flagRound = false ∧
       ((s false).task 4095).next ≤ (s false).taskNow 4095 ∧ ((s false).task 4095).armed = true) := by decide +kernel

/-- PuntAndInjection: an ordered reason with 4,096 handles outstanding; injections that a channel holds back, of a loom that is
not ACTIVE, and held ones, of which the second may go. -/
theorem witness_PuntAndInjection_held :
    (let s : State := { State.reset.wr (Reg.spinPunt 63) (fw Fld.spinPuntOrdered 1) with
       spin := { State.reset.spin with out := List.replicate 4096 ⟨handleWord 0 63 0 0 1 64, 0, false⟩ } }
     s.ordered 63 = true ∧ (s.spin.out.filter fun (e : Handle) => handleReason e.h == 63).length = 4096) ∧
    (let d (a len : Nat) : List Byte := toLE 8 a ++ List.replicate 8 0 ++ toLE 2 len ++ List.replicate 14 0
     (rest State.reset).injectHeld (some hbmBase) (injDesc (d 0 0)) = some hbmBase ∧
       (rest State.reset).injectHeld none (injDesc (d hbmBase 64)) = some hbmBase ∧
       State.reset.injectHeld (some hbmBase) (injDesc (d hbmBase 64)) = none ∧ (injDesc (d hbmBase 64)).len = 64 ∧
       (injDesc (d hbmBase 64)).boltv = false ∧ (injDesc (d hbmBase 64)).notify = false ∧
       (State.reset.setF (Reg.tensionLoom 0) Fld.tensionLoomState 1).loomActive 0 = false) ∧
    (let h (n : Nat) : Word := handleWord n 63 0 n 1 64
     let e (n : Nat) : HeldInj := { h := h n, desc := [], frame := [] }
     let s : State := { State.reset with spin := { State.reset.spin with
       out := [⟨h 5, 0, false⟩, ⟨h 1, 0, false⟩], heldInj := [e 1, e 5] } }
     s.heldReady 63 = some (e 5) ∧ s.earlier (h 1) = true ∧ s.earlier (h 5) = false) := by decide +kernel

/-- RingsAndPatches: the command at the ring's front, and its channel at rest; a patch being switched to; another half in
effect. -/
theorem witness_RingsAndPatches_front :
    (let s := sRing (toLE 1 5 ++ List.replicate 63 0)
     s.ringAt = some hbmBase ∧ s.accessHeld hbmBase 64 = none ∧ ((rest s).accessHeld hbmBase 64).isSome = true ∧
       (s.peek hbmBase 64).getD 0 0 = 5 ∧ State.reset.ringAt = none ∧ s.host.switching = none ∧
       s.flag Reg.jacqPatchStat Fld.jacqPatchStatValid = false ∧ s.patchFails [] = some 1) ∧
    (let p : PatchSet := { half := 1, version := 2, byRing := true, comp := List.replicate 64 0 }
     let s : State := { State.reset with host := { State.reset.host with switching := some p } }
     s.host.switching = some p ∧ s.halted = false ∧ p.byRing = true ∧ (List.replicate 64 (0 : Byte)).length = 64) ∧
    (let s := (sRing (toLE 1 5 ++ [1] ++ List.replicate 62 0))
     let t := withRegs s [(Reg.ringCfg 1, fw Fld.ringCfgSize 2), (Reg.ringBase 1, fw Fld.ringBaseBase 0x800000000000)]
     t.fld (Reg.ringCfg 1) Fld.ringCfgSize ≠ 0 ∧ 0x800000000000 ≤ t.fld (Reg.ringBase 1) Fld.ringBaseBase ∧
       t.boot.pcieUp = true ∧ ((toLE 1 5 ++ [1] ++ List.replicate 62 (0 : Byte)).getD 1 0).getLsbD 0 = true) := by decide +kernel

/-- EventPosting: a full backlog with its overflow recorded; a ring with room whose backlog holds a record, and a count of
records lost. -/
theorem witness_EventPosting_backlog :
    (let s : State := { State.reset.setF Reg.hostifErr Fld.hostifErrEvr0Ovf 1 with
       host := { State.reset.host with backlog0 := { recs := List.replicate 4096 [], lost := 0 } } }
     4096 ≤ (s.backlog 0).recs.length ∧ s.flag Reg.hostifErr Fld.hostifErrEvr0Ovf = true ∧ s.ringRoom 2 = false ∧ s.host.due = []) ∧
    (let b (n : Nat) : State := { withRegs State.reset [(Reg.ringCfg 2, fw Fld.ringCfgSize 2),
       (Reg.ringBase 2, fw Fld.ringBaseBase 0x800000000000)] with
       boot := { State.reset.boot with pcieUp := true }
       host := { State.reset.host with backlog0 := { recs := [List.replicate 32 1], lost := n } } }
     (b 0).ringRoom 2 = true ∧ (b 0).halted = false ∧ ((b 0).backlog 0).lost = 0 ∧ ((b 7).backlog 0).lost ≠ 0 ∧
       0x800000000000 ≤ (b 0).fld (Reg.ringBase 2) Fld.ringBaseBase) := by decide +kernel

/-- VoltageLoop, ThermalLimitsAndGating: looms that are all off, one that is off and not; whether the board answers is
Config.avsAnswers, one of two values; a command ready to go. -/
theorem witness_VoltageLoop_answers (n : Nat) : Config.avsAnswers n = true ∨ Config.avsAnswers n = false := by
  cases Config.avsAnswers n <;> simp
theorem witness_VoltageLoop_off :
    (let s := (List.range 16).foldl (fun (s : State) n => s.setF (Reg.tensionLoom n) Fld.tensionLoomState 2) State.reset
     (List.range 16).filter s.loomActive = [] ∧ s.fld (Reg.tensionLoom 15) Fld.tensionLoomState = 2 ∧
       State.reset.fld (Reg.tensionLoom 15) Fld.tensionLoomState ≠ 2) ∧
    (let s : State := { sLoop 8000 with now := 1 }
     s.tension.reachAt < s.now ∧ s.tension.vdd < 8200 ∧ s.vmin < s.tension.vdd ∧ s.tension.avsFail = false ∧
       ¬ s.tension.reachAt < (sLoop 8000).now) := by decide +kernel

/-- A device whose host link is up and whose ROM has ended. -/
def sHost : State := { State.reset.setPhase 5 with boot := { State.reset.boot with pcieUp := true } }

/-- CounterImages: a host that reaches the words and one that does not; a word that the overlay holds; a window that began
late. -/
theorem witness_CounterImages_host :
    sHost.hostReaches 0x60200000 = true ∧ State.reset.hostReaches 0x60200000 = false ∧
    sHost.memInOverlay 0x60200000 8 = false ∧
    ({ sHost with bat := { sHost.bat with cur := some bat0, oldMem := [(0x60200000, none)] } } : State).memInOverlay 0x60200000 8 = true ∧
    (let s : State := { sHost with glass := { sHost.glass with due := [(15, [{ bytes := List.replicate 32 0 }])] } }
     (Tbl.get (Tbl.const []) s.glass.due 15).length = 1) := by decide +kernel

/-- StoreDigests: a host that reads below and at DONE; a scan that a channel holds back, and of lines that read and that do
not; a word of the master that is lost; a running task's registers. -/
theorem witness_StoreDigests_scan :
    (sHost.hostReaches 0x70100 = true ∧
      ({ State.reset with boot := { State.reset.boot with pcieUp := true } } : State).hostReaches 0x70100 = false) ∧
    (let s := withRegs State.reset [(Reg.digestScanBase, fw Fld.digestScanBaseBase hbmBase), (Reg.digestScanLen, fw Fld.digestScanLenLen 64),
       (Reg.digestScanCtl, fw Fld.digestScanCtlBusy 1)]
     s.flag Reg.digestScanCtl Fld.digestScanCtlBusy = true ∧ s.accessHeld hbmBase 64 = none ∧
       (rest s).accessHeld hbmBase 64 = some hbmBase ∧ hbmBase % 8 = 0 ∧ inHbm hbmBase = true ∧ inHbm (hbmBase + 63) = true ∧
       s.fld Reg.warpStbl6Base Fld.warpStbl6BaseBase % 64 = 0 ∧
       (let m := s.wr Reg.warpStbl6Mirror (fw Fld.warpStbl6MirrorMirror hbmBase)
        m.fld Reg.warpStbl6Mirror Fld.warpStbl6MirrorMirror % 64 = 0 ∧
          inHbm (m.fld Reg.warpStbl6Mirror Fld.warpStbl6MirrorMirror) = true)) ∧
    ((State.reset.loseWord 0x20FFFFF8).masterLost 0x20FFFFF8 = some 0 ∧ State.reset.masterLost 0x20FFFFF8 = none) := by
  decide +kernel

/-- SmbusTarget: powered and not. -/
theorem witness_SmbusTarget : State.reset.boot.powered = true ∧
    ({ State.reset with boot := { State.reset.boot with powered := false } } : State).boot.powered = false ∧
    ({ State.reset with boot := { State.reset.boot with powered := false } } : State).halted = true := by decide +kernel

/-- PowerResetAndLink: a ring whose vector goes out, and a vector that was held. -/
theorem witness_PowerResetAndLink_vectors :
    (let s : State := { withRegs State.reset [(Reg.ringCfg 3, Fld.ringCfgVec.put (fw Fld.ringCfgMsiEn 1) 63), (Reg.ringProd 3, 1)] with
       host := { State.reset.host with held := [5] } }
     s.ringUsed 3 ≠ 0 ∧ s.flag (Reg.ringCfg 3) Fld.ringCfgMsiEn = true ∧ s.fld (Reg.ringCfg 3) Fld.ringCfgVec = 63 ∧ 5 ∈ s.host.held) ∧
    ({ State.reset.boot with perst := false } : Boot).perst = false := by decide +kernel

/-- BootToImage: a phase that is not BOOT, and the flash that answers SFDP; what the images' checks find is Config's. -/
theorem witness_BootToImage_flash :
    (let s : State := { State.reset.setPhase 3 with boot := { State.reset.boot with sfdp := true } }
     s.halted = false ∧ s.phase = 3 ∧ s.boot.sfdp = true ∧ s.fld Reg.identBootStat Fld.identBootStatImage ≠ 2 ∧ s.phase ≠ 4 ∧
       imageFails [] = some 2) := by decide +kernel
theorem witness_BootToImage_checks (im : List Byte) :
    imageFails im = some 2 ∨ imageFails im = some 3 ∨ imageFails im = some 4 ∨ imageFails im = some 5 ∨ imageFails im = none := by
  cases h : imageFails im with
  | none => simp
  | some n =>
    unfold imageFails at h
    dsimp only at h
    generalize (!(imgField im 0 4 == 0x5442564B && imgField im 4 2 == 1 && imgField im 8 2 == 0x9012 && imgField im 10 1 == 0x20 &&
      imgField im 16 4 % 8 == 0 && Nat.ble (imgField im 16 4) 8388352)) = c at h
    cases c <;> (repeat' split at h) <;> simp_all

/-- BootRecordActions: failed wires of before RESET_N; a whole stack that fails; records that the body holds whole, that begin
at its end, and that follow one another on a boundary of 8 bytes. -/
theorem witness_BootRecordActions_body :
    (({ State.reset.selv with oldWires := [(5, 1)] } : Selv).oldWires = [(5, 1)] ∧ State.reset.selv.oldWires = []) ∧
    (let cs : List ChanId := (List.finRange 32).map fun c => ⟨0, c⟩
     State.reset.stackLost 0 = false ∧ ((List.range 256).all fun n => (cs.map chNum).contains n == decide (n / 32 = 0)) = true) ∧
    (let s := sBody (recOf 5 0 [1, 2, 3, 4, 5] ++ [0, 0, 0])
     s.boot.recAt + 16 ≤ s.boot.bodyEnd ∧ s.boot.recAt + 16 + s.bootRec.len ≤ s.boot.bodyEnd ∧ s.bootRec.typ = 5 ∧
       (s.bootNext s.bootRec).boot.recAt = imageBase + 24 ∧ (s.bootNext s.bootRec).boot.bodyEnd ≤ imageBase + 24 ∧
       (s.bootNext s.bootRec).bootRec.typ = 0 ∧ s.spin.roundCmds ≤ 14 ∧ s.spin.cmdQ = []) := by decide +kernel

/-- RegisterAccess: the host's windows, and addresses in no region and in host memory. -/
theorem witness_RegisterAccess_regions :
    sHost.inBars (Reg.creelCtl 0) = true ∧ regionOf 0x50000000 = .none ∧ regionOf 0x800000000000 = .host ∧
    8 ≤ 64 - 0x800000000000 % 64 := by decide +kernel

/-! ## Ill-formed commands are refused -/

theorem test_wf_bootHbmDone : (Instr.bootHbmDone [⟨0, 1⟩, ⟨0, 1⟩]).wf = false := by decide +kernel
theorem test_wf_registerWrite : (Instr.registerWrite .host 0x100 .w32 0x100000000).wf = false ∧
    (Instr.registerWrite .host 0x100 .w32 0xFFFFFFFF).wf = true := by decide +kernel
theorem test_wf_frameReceive : (Instr.frameReceive 0 []).wf = false := by decide +kernel
theorem test_wf_reedPowerAck : (Instr.reedPowerAck 0 [5, 5]).wf = false := by decide +kernel
theorem test_wf_reedSearch : (Instr.reedSearch 0 ⟨[5, 5], []⟩).wf = false ∧
    (Instr.reedSearch 0 ⟨[5], [5]⟩).wf = false := by decide +kernel
theorem test_wf_wireFail : (Instr.wireFail 0 0 [3, 3] []).wf = false ∧ (Instr.wireFail 0 0 [] [⟨0, 1⟩, ⟨0, 1⟩]).wf = false ∧
    (Instr.wireFail 0 0 [511] []).wf = false := by decide +kernel
theorem test_wf_retireCopyGranule : (Instr.retireCopyGranule 0 [[], [], [], [], []]).wf = false := by decide +kernel
theorem test_wf_rateWindow : (Instr.rateWindow ⟨List.replicate 15 0, true⟩).wf = false := by decide +kernel
theorem test_wf_counterWrite : (Instr.counterWrite 0x61000000 0).wf = false ∧
    (Instr.counterWrite 0x60000004 0).wf = false ∧ (Instr.counterWrite 0x5FFFFFF8 0).wf = false := by decide +kernel
theorem test_wf_storePatrol : (Instr.storePatrol (.das 0x10000004) .clean).wf = false := by decide +kernel
theorem test_wf_digestHiRead : (Instr.digestHiRead 4).wf = false := by decide +kernel
theorem test_wf_digestScanDone : (Instr.digestScanDone [64, 64]).wf = false := by decide +kernel

/-! ## Values the spec gives -/

/-- The ASCII bytes "123456789". -/
def nines : List Byte := [0x31, 0x32, 0x33, 0x34, 0x35, 0x36, 0x37, 0x38, 0x39]
/-- R533 and R494: the check values. -/
theorem test_crc32c : crc32c 0xFFFFFFFF nines = 0xE3069283 := by decide +kernel
theorem test_crcEcma : crcEcma nines = 0x6C40DF5F0B497347 := by decide +kernel
theorem test_crcIso : crcIso nines = 0xB90956C775A41001 := by decide +kernel

/-- Chapter 14, worked example: W0 at 55 °C with MARGIN 60 asks for 2.884 G picks/s, for which VT is 715 mV. -/
theorem test_directVolt_hub : directVolt (55 * 256) (State.reset.target 0) = 715 := by decide +kernel
/-- The same chapter: 1.537 G picks/s in W3 needs no more than the lowest voltage. -/
theorem test_directVolt_night : directVolt (55 * 256) (1450 * 2352 * State.reset.margin) = 550 := by decide +kernel

/-- Chapter 13, worked example: PERIOD 1 ms, CATCHUP 75; release 1 made at 2.60 ms gives NEXT 3.35 ms, and the next lag
1.35 ms. -/
theorem test_release_overrun :
    (let s : State := { State.reset with
       mem := [(0x44000008, 0x10), (0x44000009, 0x27)]
       spin := { State.reset.spin with task := [(0, { Task.none with st := .dormant, armed := true, nominal := 1000000,
                                                                     next := 1000000 })] } }
     let s := s.updDom 0 fun d => { d with elapsed := 2600000 * nsUnit }
     match exec (.taskRelease 0) s with
     | .next t => (t.task 0).next == 3350000 && (t.task 0).lag == 1350000 && (t.task 0).deadline == some 2000000
     | _ => false) = true := by decide +kernel

/-- Chapter 9, worked example: MIN_POOL 65,536 and HEAD_POOL 158,848 leave a shared pool of 754,560 cells; with eight
queues at 83,840 each the limit of ALPHA 7 is 83,840. -/
theorem test_shared_pool :
    (let s := State.reset.wr Reg.beamPool (Fld.beamPoolHeadPool.put (fw Fld.beamPoolMinPool 65536) 158848)
     s.sharedFree = 754560 ∧
       ({ s with beam := { s.beam with sharedUsed := 8 * 83840 } } : State).dynLimit 0 = 83840) := by decide +kernel

/-! ## Words of programs, microwords and the code of HBM lines -/

/-- R47, chapter 2's worked example: 0x210C_3000_0000_0001 is ADD imm with dest g3, src1 g3 and val 1. -/
theorem test_word_addImm : instrOfWord (.pick 0) 0x210C300000000001 =
    .addImm (.pick 0) { dest := 3, src1 := 3, src2 := 0, fn := 0, val := 1 } := by decide +kernel
/-- R48: a word of all zeros is a NOP. -/
theorem test_word_nop : instrOfWord (.task 5) 0 = .nop (.task 5) w0 := by decide +kernel
/-- R47, R48: 0x90 LOCK with src1 g1 and fn[0], 0x97 DMA with val 7, 0x74 RECIRC; 0x13 and 0x82 are undefined. -/
theorem test_word_thread : instrOfWord (.task 0) (0x90#8 ++ 0#6 ++ 1#6 ++ 0#6 ++ 1#6 ++ 0#32) =
      .lock (.task 0) { w0 with src1 := 1, fn := 1 } ∧
    instrOfWord (.task 0) (0x97#8 ++ 0#24 ++ 7#32) = .dma (.task 0) { w0 with val := 7 } ∧
    instrOfWord (.pick 0) (0x74#8 ++ 0#56) = .recirc (.pick 0) w0 ∧
    instrOfWord (.pick 0) (0x13#8 ++ 0#56) = .illegalOp (.pick 0) ∧
    instrOfWord (.task 0) (0x82#8 ++ 0#56) = .illegalOp (.task 0) := by decide +kernel
/-- R443: NEXT 5, SEQ END, DSEL 0x31, COMMIT, CONST 9 at the bits the table gives. -/
theorem test_microword :
    let m := MicroWord.ofBits (BitVec.ofNat 192 (5 * 2 ^ 177 + 8 * 2 ^ 173 + 0x31 * 2 ^ 142 + 2 ^ 111 + 9 * 2 ^ 32))
    m.next = 5 ∧ m.seqOp = 8 ∧ m.dsel = 0x31 ∧ m.commit = true ∧ m.trap = false ∧ m.const = 9 ∧ m.alu = 0 := by
  decide +kernel
/-- R444: WAY4 replaces the low two bits of NEXT by the source's. -/
theorem test_way4 : wayTarget 0x103 2 6 = 0x102 := by decide +kernel
/-- R351: the generator with roots α^0 to α^7 over this field, whose coefficients are α to the powers 175, 238, 208, 249,
215, 252, 196 and 28. -/
theorem test_rs_generator : rsGen = [0xFF, 0x0B, 0x51, 0x36, 0xEF, 0xAD, 0xC8, 0x18] ∧
    rsGen = [175, 238, 208, 249, 215, 252, 196, 28].map gfExp := by decide +kernel
/-- R351: one and two symbol errors are corrected, also of check symbols; three are reported. -/
theorem test_rs_corrects : rsDecode [⟨5, 0x3C⟩] = .corrected [] ∧ rsDecode [⟨0, 0xFF⟩, ⟨71, 1⟩] = .corrected [] ∧
    rsDecode [⟨0, 1⟩, ⟨1, 2⟩, ⟨40, 7⟩] = .uncorrectable := by decide +kernel

/-! ## Single steps -/

/-- R56, chapter 2's worked example: ADD imm with dest g3, src1 g3 and val 1 adds 1 to g3, and wraps. -/
theorem test_addImm_wraps :
    (let x := { pkt0 with pick := { pick0 with g := pick0.g.set 3 (BitVec.allOnes 64) } }
     match exec (.addImm (.pick 0) { w0 with dest := 3, src1 := 3, val := 1 }) (withPkt x) with
     | .next t => (match t.pkt? 0 with | some y => y.pick.g[3] == 0 && y.pick.pc == 2 | none => false)
     | _ => false) = true := by decide +kernel
/-- R12: a W1C bit is cleared by a 1 only. -/
theorem test_w1c : ((State.reset.wr Reg.warpErr 7).plainWrite Reg.warpErr 2 (BitVec.allOnes 64)).rd Reg.warpErr = 5 := by
  decide +kernel
/-- R4: a register access that is not aligned is use 3. -/
theorem test_unaligned_register :
    (match exec (.registerWrite (.thread 0) (BitVec.ofNat 48 (Reg.creelCtl 0 + 2)) .w32 0) State.reset with
     | .fault (.undefinedBehaviour n) => n == 3 | _ => false) = true := by decide +kernel
/-- No word spells a command, and the queue is left as it was. -/
theorem test_no_words (s : State) (n w : Nat) : decodeTableWord n w = none ∧ s.withFetchWord n w = s := ⟨rfl, rfl⟩

/-- Chapter 10, worked example: a bolt of 16,360 bytes with MSS 1,448, tagged on port 96, is 12 segments, which take
17,286 bytes on the wire. -/
theorem test_bolt_wire :
    (let x := { pkt0 with frame := List.replicate 16360 0, bolt := 2 ^ 63 + 14 * 2 ^ 40 + 34 * 2 ^ 32 + 54 * 2 ^ 24 + 1448 }
     let s := State.reset.wr (Reg.selvPortTag 1 32) (fw Fld.selvPortTagTagMode 3)
     x.boltSegs = 12 ∧ s.boltWire 96 x = 17286) := by decide +kernel

end Sys2Proof.Tests
end

section
/-! PROOF. What the register tables say of an address. -/

namespace Sys2Proof

/-- The last address that a register kind can have. -/
def RegDesc.top (d : RegDesc) : Nat := d.base + d.s1 * (d.n1 - 1) + d.s2 * (d.n2 - 1)

/-- A register kind lies between its base and its last address. -/
theorem RegDesc.covers_bounds {d : RegDesc} {a : Nat} (h : d.covers a = true) : d.base ≤ a ∧ a ≤ d.top := by
  simp only [RegDesc.covers, Bool.and_eq_true, decide_eq_true_eq, beq_iff_eq] at h
  obtain ⟨⟨⟨hbase, houter⟩, haligned⟩, hinner⟩ := h
  have hq : d.s1 * ((a - d.base) / d.s1) ≤ d.s1 * (d.n1 - 1) := Nat.mul_le_mul_left _ (by omega)
  have hr : d.s2 * ((a - d.base) % d.s1 / d.s2) ≤ d.s2 * (d.n2 - 1) := Nat.mul_le_mul_left _ (by omega)
  have h1 := Nat.div_add_mod (a - d.base) d.s1
  have h2 := Nat.div_add_mod ((a - d.base) % d.s1) d.s2
  unfold RegDesc.top
  omega

/-- The kind of the register at an address is a row of the tables that covers it. -/
theorem regDesc?_row {a : Nat} {d : RegDesc} (h : regDesc? a = some d) : d ∈ regDescs ∧ d.covers a = true :=
  ⟨List.mem_of_find?_eq_some h, List.find?_some (p := fun d : RegDesc => d.covers a) h⟩

/-- R12: a register starts with the reset value of its kind, where the kind has one. -/
theorem regReset_of_desc {a : Nat} {d : RegDesc} (h : regDesc? a = some d) (hc : d.base ≠ Reg.creelChan 0 0)
    (hf : a ≠ Reg.identFuse) (hj : ¬ (0x31000 ≤ a ∧ a < 0x31800)) : regReset a = BitVec.ofNat 64 d.reset := by
  simp [regReset, hf, hj, h, hc]

/-- R10: where the window holds no register, a read gives 0. -/
theorem regReset_of_no_desc {a : Nat} (h : regDesc? a = none) (hf : a ≠ Reg.identFuse)
    (hj : ¬ (0x31000 ≤ a ∧ a < 0x31800)) : regReset a = 0 := by
  simp [regReset, hf, hj, h]

end Sys2Proof
end

section
/-! PROOF. The machine as reset leaves it (ResetState). -/

namespace Sys2Proof.Machine

@[simp] theorem reset_rd (a : Nat) : State.reset.rd a = regReset a := rfl
@[simp] theorem reset_byte (a : Nat) : State.reset.byte a = memReset a := rfl
@[simp] theorem reset_task (k : Nat) : State.reset.task k = Task.none := rfl

/-- Memory starts at 0 but for the queues and accounts of the Beam (R308, R309) and the task table (R415). -/
theorem memReset_zero {a : Nat} (hb : ¬ (0x31800000 ≤ a ∧ a < 0x31840000)) (ht : ¬ (0x44000000 ≤ a ∧ a < 0x44040000)) :
    memReset a = 0 := by
  unfold memReset
  rw [if_neg (by omega), if_neg (by omega), if_neg ht]

/-- R308: the byte of a queue's entry that holds ALPHA. -/
theorem memReset_alpha {q : Nat} (hq : q < 10240) : memReset (0x31800000 + 16 * q + 5) = 0x70 := by
  unfold memReset
  rw [if_pos (by omega), show (0x31800000 + 16 * q + 5) % 16 = 5 by omega]
  rfl

/-- R308: ALPHA of every queue starts at 7. -/
theorem reset_queue_alpha {q : Nat} (hq : q < 10240) : State.reset.le (0x31800000 + 16 * q) 8 / 2 ^ 44 % 16 = 7 := by
  have hlt : ∀ a, (memReset a).toNat < 256 := fun a => BitVec.isLt _
  have halpha : (memReset (0x31800000 + 16 * q + 5)).toNat = 0x70 := by rw [memReset_alpha hq]; rfl
  have hat := fun i => hlt (0x31800000 + 16 * q + i)
  have h0 := hlt (0x31800000 + 16 * q)
  have h1 := hat 1; have h2 := hat 2; have h3 := hat 3; have h4 := hat 4; have h6 := hat 6; have h7 := hat 7
  simp only [State.le, State.bytes, ofLE, reset_byte, Nat.add_assoc, Nat.reduceAdd] at *
  omega

/-- Of the register kinds that reach the Selvedge or beyond, only SELV_PORT_PFC starts with bit 63 set. -/
theorem reset_bit63_selvedge : ∀ d ∈ regDescs, d.reset.testBit 63 = true → 0x301000 ≤ d.top →
    d.base = Reg.selvPortPfc 0 0 ∧ d.s1 = 0x10000 ∧ d.s2 = 8 ∧ d.n2 = 64 := by decide +kernel

/-- R319: every port starts disabled. -/
theorem reset_port_disabled {p : Nat} (hp : p < 512) : State.reset.flag (portCfg p) Fld.selvPortCfgEnable = false := by
  have haddr : portCfg p = 0x301000 + 0x10000 * (p / 64) + 8 * (p % 64) := rfl
  have hbit : (regReset (portCfg p)).getLsbD 63 = false := by
    have hf : portCfg p ≠ Reg.identFuse := by unfold Reg.identFuse; omega
    cases hd : regDesc? (portCfg p) with
    | none => rw [regReset_of_no_desc hd hf (by omega)]; rfl
    | some d =>
      obtain ⟨hrow, hcov⟩ := regDesc?_row hd
      obtain ⟨hlo, hhi⟩ := RegDesc.covers_bounds hcov
      have hchan : d.base ≠ Reg.creelChan 0 0 := by unfold Reg.creelChan; omega
      rw [regReset_of_desc hd hchan hf (by omega)]
      by_contra hset
      have htest : d.reset.testBit 63 = true := by simpa [BitVec.getLsbD_ofNat, -BitVec.getLsbD_eq_getElem] using hset
      obtain ⟨hbase, hs1, hs2, hn2⟩ := reset_bit63_selvedge d hrow htest (by omega)
      simp only [RegDesc.covers, Bool.and_eq_true, decide_eq_true_eq, beq_iff_eq, hbase, hs1, hs2, hn2,
        Reg.selvPortPfc] at hcov
      omega
  have hget : Fld.selvPortCfgEnable.get (regReset (portCfg p)) = 0 := by
    apply Nat.eq_of_testBit_eq
    intro i
    rw [Fld.get_testBit, Nat.zero_testBit]
    cases i with
    | zero => simpa [Fld.selvPortCfgEnable] using hbit
    | succ i => simp [Fld.selvPortCfgEnable]
  simp [State.flag, State.fld, hget]

/-- Settles O56: registers and stores read their reset values where nothing is listed, and reset lists nothing. -/
theorem resetState : Obligations.ResetState := by
  unfold Obligations.ResetState
  refine ⟨⟨?_, ?_, ?_, ?_, ?_, ?_, rfl, rfl, fun _ => rfl, rfl, rfl, rfl, ?_, fun p hp => reset_port_disabled hp,
    fun q hq => reset_queue_alpha hq, rfl⟩, Nat.zero_le _, rfl, reset_mem_wf⟩
  · exact fun a d hd hc hf hj => regReset_of_desc hd hc hf hj
  · exact fun a hd hf hj => regReset_of_no_desc hd hf hj
  · exact fun a hb ht => memReset_zero hb ht
  · decide +kernel
  · decide +kernel
  · decide +kernel
  · decide +kernel

end Sys2Proof.Machine
end

section
/-! PROOF. Register writes: the access codes (R12, R14), and how a write reaches a register (R10, R11, R86). -/

namespace Sys2Proof.Machine

/-! ## Access codes -/

/-- R12: no bit of a register kind has two access codes. -/
theorem regDescs_codes_disjoint : ∀ d ∈ regDescs, BitVec.ofNat 64 d.rw &&& BitVec.ofNat 64 d.w1c = 0 ∧
    BitVec.ofNat 64 d.rw &&& BitVec.ofNat 64 d.ws = 0 ∧ BitVec.ofNat 64 d.w1c &&& BitVec.ofNat 64 d.ws = 0 := by
  decide +kernel

/-- R437: the pointers of the rings have no W1C and no WS bit. -/
theorem ringPointer_codes : ∀ a ∈ [Reg.ringProd 0, Reg.ringCons 1, Reg.ringCons 2, Reg.ringCons 3],
    w1cMask a = 0 ∧ wsMask a = 0 := by decide +kernel

/-- R437: the RW bits of an address are those of its kind, but for the pointers of the rings. -/
theorem ringMask_cases (a rw : Nat) : ringMask a rw = 0 ∨ ringMask a rw = rw ∨
    a ∈ [Reg.ringProd 0, Reg.ringCons 1, Reg.ringCons 2, Reg.ringCons 3] := by
  unfold ringMask
  split
  · simp_all
  · split
    · exact .inl rfl
    · split
      · exact .inl rfl
      · split
        · rename_i h; right; right; rcases h with rfl | rfl | rfl <;> simp
        · exact .inr (.inl rfl)

/-- R12: no bit of a register has two access codes. -/
theorem codes_disjoint (a : Nat) : rwMask a &&& w1cMask a = 0 ∧ rwMask a &&& wsMask a = 0 ∧
    w1cMask a &&& wsMask a = 0 := by
  cases hd : regDesc? a with
  | none => simp [rwMask, w1cMask, wsMask, hd]
  | some d =>
    obtain ⟨hrw1, hrws, h1s⟩ := regDescs_codes_disjoint d (List.mem_of_find?_eq_some hd)
    rcases ringMask_cases a d.rw with hr | hr | hr
    · simp [rwMask, w1cMask, wsMask, hd, hr, h1s]
    · simp [rwMask, w1cMask, wsMask, hd, hr, hrw1, hrws, h1s]
    · obtain ⟨h1, hs⟩ := ringPointer_codes a hr
      simp [h1, hs]

/-- Masks without a common bit do not hold the same bit. -/
theorem getLsbD_of_disjoint {m n : Word} (h : m &&& n = 0) {i : Nat} (hm : m.getLsbD i = true) : n.getLsbD i = false := by
  simpa [hm] using congrArg (BitVec.getLsbD · i) h

theorem mergeMask_getLsbD (m new old : Word) {i : Nat} (hi : i < 64) :
    (mergeMask m new old).getLsbD i = if m.getLsbD i then new.getLsbD i else old.getLsbD i := by
  unfold mergeMask
  cases hm : m.getLsbD i <;> simp [hm, hi, -BitVec.getLsbD_eq_getElem]

theorem mergeMask_zero (new old : Word) : mergeMask 0 new old = old :=
  BitVec.eq_of_getLsbD_eq fun i hi => by rw [mergeMask_getLsbD _ _ _ hi]; simp

/-- R12: what a plain write leaves in a register. -/
theorem State.plainWrite_rd (s : State) (a b : Nat) (v en : Word) : (s.plainWrite a v en).rd b =
    if b = a then mergeMask (rwMask a &&& en) v (s.rd a) &&& ~~~ (v &&& en &&& w1cMask a) else s.rd b := by
  rw [← State.rd_wr]
  unfold State.plainWrite
  dsimp only
  split <;> rfl

/-- R12: what a plain write leaves staged. -/
theorem State.plainWrite_pendingWs (s : State) (a b : Nat) (v en : Word) : (s.plainWrite a v en).pendingWs b =
    if b = a then ((s.pendingWs a).1 ||| (wsMask a &&& en), mergeMask (wsMask a &&& en) v (s.pendingWs a).2)
    else s.pendingWs b := by
  unfold State.plainWrite
  dsimp only
  split
  · rename_i hm
    split
    · rename_i hb
      subst hb
      have hkept : (s.pendingWs b).1 ||| 0 = (s.pendingWs b).1 := BitVec.or_zero
      rw [hm, mergeMask_zero, hkept]
      rfl
    · rfl
  · exact Tbl.get_set _ _ _ _ _

/-- R12: the stages after a plain write, as data. -/
theorem State.plainWrite_ws (s : State) (a : Nat) (v en : Word) : (s.plainWrite a v en).ws =
    if wsMask a &&& en = 0 then s.ws else
      let p := Tbl.get (Tbl.const (0, 0)) s.ws a
      Tbl.set (Tbl.const (0, 0)) s.ws a (p.1 ||| (wsMask a &&& en), mergeMask (wsMask a &&& en) v p.2) := by
  unfold State.plainWrite
  dsimp only
  split <;> rfl

/-- A plain write changes registers and stages only. -/
theorem State.plainWrite_only (s : State) (a : Nat) (v en : Word) :
    s.plainWrite a v en = { s with regs := (s.plainWrite a v en).regs, ws := (s.plainWrite a v en).ws } := by
  unfold State.plainWrite
  dsimp only
  split <;> rfl

/-- R12: a plain write, bit by bit: what the codes of the bit make of it. -/
theorem State.plainWrite_bit (s : State) (a : Nat) (v en : Word) {i : Nat} (hi : i < 64) :
    ((s.plainWrite a v en).rd a).getLsbD i =
      if en.getLsbD i && (rwMask a).getLsbD i then v.getLsbD i
      else if en.getLsbD i && (w1cMask a).getLsbD i then (s.rd a).getLsbD i && !v.getLsbD i
      else (s.rd a).getLsbD i := by
  rw [State.plainWrite_rd, if_pos rfl, BitVec.getLsbD_and, mergeMask_getLsbD _ _ _ hi]
  simp only [BitVec.getLsbD_and, BitVec.getLsbD_not, hi, decide_true, Bool.true_and, Bool.and_comm (en.getLsbD i)]
  cases hrw : (rwMask a).getLsbD i
  · cases hen : en.getLsbD i <;> cases (w1cMask a).getLsbD i <;> simp
  · simp [getLsbD_of_disjoint (codes_disjoint a).1 hrw]

/-- R12: the stage of a plain write, bit by bit. -/
theorem State.plainWrite_stage_bit (s : State) (a : Nat) (v en : Word) {i : Nat} (hi : i < 64) :
    ((s.plainWrite a v en).pendingWs a).1.getLsbD i =
      ((s.pendingWs a).1.getLsbD i || (en.getLsbD i && (wsMask a).getLsbD i)) ∧
    ((s.plainWrite a v en).pendingWs a).2.getLsbD i =
      if en.getLsbD i && (wsMask a).getLsbD i then v.getLsbD i else (s.pendingWs a).2.getLsbD i := by
  rw [State.plainWrite_pendingWs, if_pos rfl]
  dsimp only
  rw [mergeMask_getLsbD _ _ _ hi, BitVec.getLsbD_or, BitVec.getLsbD_and, Bool.and_comm]
  exact ⟨rfl, rfl⟩

/-- R12, R14: the access codes of a register, bit by bit. -/
theorem State.plainWrite_codes (s : State) (a : Nat) (v en : Word) (i : Nat) (hi : i < 64) :
    let t := s.plainWrite a v en
    let old := (s.rd a).getLsbD i
    let new := (t.rd a).getLsbD i
    let on (m : Word) : Prop := m.getLsbD i = true
    (on en → on (rwMask a) → new = v.getLsbD i) ∧
    (on en → on (w1cMask a) → new = (old && !v.getLsbD i)) ∧
    (¬ on en ∨ ¬ on (rwMask a) ∧ ¬ on (w1cMask a) → new = old) ∧
    (on en → on (wsMask a) → new = old ∧ on (t.pendingWs a).1 ∧ (t.pendingWs a).2.getLsbD i = v.getLsbD i) ∧
    (¬ on en ∨ ¬ on (wsMask a) → (t.pendingWs a).1.getLsbD i = (s.pendingWs a).1.getLsbD i ∧
      (t.pendingWs a).2.getLsbD i = (s.pendingWs a).2.getLsbD i) ∧
    (∀ b, b ≠ a → t.rd b = s.rd b ∧ t.pendingWs b = s.pendingWs b) ∧ t = { s with regs := t.regs, ws := t.ws } := by
  intro t old new on
  have hnew : new = _ := State.plainWrite_bit s a v en hi
  obtain ⟨hstaged, hstage⟩ := State.plainWrite_stage_bit s a v en hi
  obtain ⟨hrw1, hrws, h1s⟩ := codes_disjoint a
  refine ⟨fun hen hrw => ?_, fun hen h1 => ?_, fun hoff => ?_, fun hen hws => ⟨?_, ?_, ?_⟩, fun hoff => ⟨?_, ?_⟩,
    fun b hb => ⟨?_, ?_⟩, State.plainWrite_only s a v en⟩
  · rw [hnew, hen, hrw]; rfl
  · rw [hnew, hen, h1, getLsbD_of_disjoint ((BitVec.and_comm ..).trans hrw1) h1]; rfl
  · rw [hnew]
    rcases hoff with hen | ⟨hrw, h1⟩
    · rw [Bool.eq_false_of_not_eq_true hen]; rfl
    · rw [Bool.eq_false_of_not_eq_true hrw, Bool.eq_false_of_not_eq_true h1, Bool.and_false]; rfl
  · rw [hnew, getLsbD_of_disjoint ((BitVec.and_comm ..).trans hrws) hws,
      getLsbD_of_disjoint ((BitVec.and_comm ..).trans h1s) hws, Bool.and_false]; rfl
  · exact hstaged.trans (by rw [hen, hws]; simp)
  · exact hstage.trans (by rw [hen, hws]; rfl)
  · exact hstaged.trans (by rcases hoff with h | h <;> simp [Bool.eq_false_of_not_eq_true h])
  · exact hstage.trans (by rcases hoff with h | h <;> simp [Bool.eq_false_of_not_eq_true h])
  · rw [State.plainWrite_rd, if_neg hb]
  · rw [State.plainWrite_pendingWs, if_neg hb]

/-! ## The lanes of a register access -/

/-- The low bytes of a number, read back. -/
theorem ofLE_toLE (k n : Nat) : ofLE (toLE k n) = n % 256 ^ k := by
  induction k generalizing n with
  | zero => simp [toLE, ofLE, Nat.mod_one]
  | succ k ih =>
    have htail : toLE (k + 1) n = byteOf n 0 :: toLE k (n / 256) := by
      simp only [toLE, List.range_succ_eq_map, List.map_cons, List.map_map, List.cons.injEq, true_and]
      refine List.map_congr_left fun i _ => ?_
      simp only [byteOf, Function.comp_apply, Nat.shiftRight_eq_div_pow, Nat.div_div_eq_div_mul, Nat.mul_succ]
      rw [Nat.add_comm, Nat.pow_add]
    have hhead : (byteOf n 0).toNat = n % 256 := by simp [byteOf]
    rw [htail, ofLE, ih, hhead, Nat.pow_succ', Nat.mod_mul]

/-- R11: the bits of its word that an access of `n` bytes at `a` reaches. -/
def laneMask (a n : Nat) : Word :=
  if n = 8 then BitVec.allOnes 64 else if a % 8 = 0 then 0xFFFFFFFF else 0xFFFFFFFF00000000

/-- R11: the value of an access of `n` bytes at `a`, in its place in the word. -/
def laneValue (a n : Nat) (v : Word) : Word := if n = 8 then v else if a % 8 = 0 then v &&& 0xFFFFFFFF else v <<< 32

/-- R11: the bytes of an aligned access of 32 or 64 bits are its lane. -/
theorem regLane_toLE {a n : Nat} (v : Word) (hn : n = 4 ∨ n = 8) (ha : a % n = 0) :
    regLane a n (ofLE (toLE n v.toNat)) = (a / 8 * 8, laneValue a n v, laneMask a n) := by
  have hv := v.isLt
  rw [ofLE_toLE]
  rcases hn with rfl | rfl
  · have hhalf : a % 8 = 0 ∨ a % 8 = 4 := by omega
    have hmask : v &&& 0xFFFFFFFF = BitVec.ofNat 64 (v.toNat % 2 ^ 32) := by
      apply BitVec.eq_of_toNat_eq
      have hlt : v.toNat % 2 ^ 32 < 2 ^ 64 := by omega
      rw [BitVec.toNat_and, BitVec.toNat_ofNat, Nat.mod_eq_of_lt hlt]
      exact Nat.and_two_pow_sub_one_eq_mod v.toNat 32
    have hshift : v <<< 32 = BitVec.ofNat 64 ((v.toNat % 2 ^ 32) <<< 32) := by
      apply BitVec.eq_of_toNat_eq
      simp only [BitVec.toNat_shiftLeft, BitVec.toNat_ofNat, Nat.shiftLeft_eq]
      omega
    rcases hhalf with h | h
    · simpa [regLane, laneValue, laneMask, h] using hmask.symm
    · simp [regLane, laneValue, laneMask, h, hshift]
  · have hmod : v.toNat % 18446744073709551616 = v.toNat := Nat.mod_eq_of_lt hv
    simp [regLane, laneValue, laneMask, ha, hmod]

/-! ## Writes without an effect of their own -/

/-- R12: a register of which the spec gives access codes only takes a write by them. -/
theorem State.regWrite_plain (s : State) {a : Nat} {d : RegDesc} (v en : Word) (hd : regDesc? a = some d)
    (hb : d.base ∉ ownEffect) : s.regWrite a v en = .ok (s.plainWrite a v en) := by
  simp only [ownEffect, List.mem_cons, not_or] at hb
  simp only [State.regWrite, hd, State.writeCore, State.writeTime, State.writeGlass, State.writeTile, State.writeWarp,
    State.writeBeam, hb, or_self, if_false, ite_self]

/-- R10: where the window holds no register, a write is ignored. -/
theorem State.regWrite_none (s : State) {a : Nat} (v en : Word) (hd : regDesc? a = none) : s.regWrite a v en = .ok s := by
  simp only [State.regWrite, hd]

/-- States alike stay so under a plain write of a register that does not measure. -/
theorem State.alike.plainWrite {t u : State} (h : t.alike u) {a : Nat} (ha : a ∉ measured) (v en : Word) :
    (t.plainWrite a v en).alike (u.plainWrite a v en) := by
  have hbare : ∀ x : State, (x.plainWrite a v en).bare = { x.bare with ws := (x.plainWrite a v en).ws } := fun x => by
    rw [State.plainWrite_only]; rfl
  have hws : t.bare.ws = u.bare.ws := by rw [h.1]
  refine ⟨?_, fun b hb => ?_⟩
  · rw [hbare t, hbare u, h.1, State.plainWrite_ws, State.plainWrite_ws, show t.ws = u.ws from hws]
  · rw [State.plainWrite_rd, State.plainWrite_rd, h.2 a ha, h.2 b hb]

/-! ## The access itself is measurement -/

theorem State.countAccess_alike (s : State) (who : EvMaster) (a : Nat) : (s.countAccess who a).alike s := by
  unfold State.countAccess
  split
  · exact State.event_alike _ _
  · exact State.event_alike _ _
  · exact State.alike_refl _

theorem State.alike.bat {t u : State} (h : t.alike u) : t.bat = u.bat :=
  (show t.bare.bat = u.bare.bat by rw [h.1])

theorem State.alike.dma {t u : State} (h : t.alike u) : t.spin.dma = u.spin.dma :=
  (show t.bare.spin.dma = u.bare.spin.dma by rw [h.1])

theorem State.alike.inOverlay {t u : State} (h : t.alike u) (a n : Nat) : t.inOverlay a n = u.inOverlay a n := by
  simp only [State.inOverlay, State.memInOverlay, State.regInOverlay, h.bat]

theorem State.alike.inDescriptor {t u : State} (h : t.alike u) (a n : Nat) : t.inDescriptor a n = u.inDescriptor a n := by
  simp only [State.inDescriptor, h.dma]

/-- R478: only accesses to registers and on-die stores are counted. -/
theorem State.countAccess_outside (s : State) (who : EvMaster) {a : Nat} (hr : regionOf a ≠ .reg) (hd : regionOf a ≠ .die) :
    s.countAccess who a = s := by
  unfold State.countAccess
  split <;> simp_all

/-- A counted write answers what the write answers, but for measurement. -/
theorem State.countedWrite_ok {s t : State} {who : EvMaster} {a : Nat} {bs : List Byte}
    (h : (s.countAccess who a).busWrite who a bs = .ok t) : ∃ u, s.countedWrite who a bs = .ok u ∧ u.alike t := by
  unfold State.countedWrite
  rw [h]
  refine ⟨_, rfl, ?_⟩
  split
  · exact State.alike_refl _
  · exact State.wr_alike _ _ _ (by decide)

/-- A counted write stops where the write stops. -/
theorem State.countedWrite_error {s : State} {who : EvMaster} {a : Nat} {bs : List Byte} {e : Fault}
    (h : (s.countAccess who a).busWrite who a bs = .error e) : s.countedWrite who a bs = .error e := by
  simp only [State.countedWrite, h]

/-- Outside registers and on-die stores a counted write is the write. -/
theorem State.countedWrite_outside (s : State) (who : EvMaster) {a : Nat} (bs : List Byte) (hr : regionOf a ≠ .reg)
    (hd : regionOf a ≠ .die) : s.countedWrite who a bs = s.busWrite who a bs := by
  simp only [State.countedWrite, State.countAccess_outside _ _ hr hd, State.rd_wr_same, if_true]
  cases s.busWrite who a bs <;> rfl


/-! ## REGISTER_WRITE -/

/-- R11: a register access is an aligned one of 32 or 64 bits. -/
theorem regAccessOk_iff {a n : Nat} : regAccessOk a n = true ↔ (n = 4 ∨ n = 8) ∧ a % n = 0 := by
  simp [regAccessOk]

/-- The bus master a REGISTER_WRITE comes from. -/
def busMaster : Master → EvMaster
  | .host => .host
  | .thread k => .task k.val

/-- R10, R435, R491, R510: a REGISTER_WRITE reaches its address. -/
def State.reachedBy (s : State) (m : Master) (a : Nat) : Prop :=
  match m with
  | .host => s.boot.pcieUp = true ∧ s.halted = false ∧ (5 ≤ s.phase ∨ a < 0x10000) ∧ s.inBars a = true
  | .thread _ => s.halted = false

/-- R435: a REGISTER_WRITE that reaches its address is a plain store there. -/
theorem exec_registerWrite_of_reached {m : Master} {a : BitVec 48} {wd : RegWidth} {v : Word} {s : State}
    (h : s.reachedBy m a.toNat) : exec (.registerWrite m a wd v) s =
      toOut (s.countedWrite (busMaster m) a.toNat (toLE wd.size v.toNat)) := by
  show execRegisterWrite m a wd v s = _
  cases m with
  | host =>
    obtain ⟨hup, hrun, hrom, hbars⟩ := h
    simp [execRegisterWrite, State.hostWrite, State.hostReaches, hup, hrun, hrom, hbars, busMaster]
  | thread k =>
    replace h : s.halted = false := h
    simp [execRegisterWrite, h, busMaster]

/-- R491, R510: one that does not reach it changes nothing. -/
theorem exec_registerWrite_of_not_reached {m : Master} {a : BitVec 48} {wd : RegWidth} {v : Word} {s : State}
    (h : ¬ s.reachedBy m a.toNat) : exec (.registerWrite m a wd v) s = .next s := by
  show execRegisterWrite m a wd v s = _
  cases m with
  | host =>
    have hgate : (s.hostReaches a.toNat && s.inBars a.toNat) = false := by
      rw [Bool.eq_false_iff]
      intro hopen
      refine h ?_
      simpa [State.reachedBy, State.hostReaches, and_assoc] using hopen
    simp [execRegisterWrite, State.hostWrite, hgate, toOut]
  | thread k =>
    have hstand : s.halted = true := by simpa [State.reachedBy] using h
    simp [execRegisterWrite, hstand]

section
variable {s : State} {who : EvMaster} {a : Nat} {bs : List Byte}

/-- R51: a store inside one 64-byte block is one access. -/
theorem State.busWrite_piece (hone : bs.length ≤ 64 - a % 64) : s.busWrite who a bs = s.writePiece who a bs := by
  simp only [State.busWrite, hone, if_true]

/-- R51: a read inside one 64-byte block is one access. -/
theorem State.busRead_piece {n : Nat} (hone : n ≤ 64 - a % 64) : s.busRead who a n = s.readPiece who a n := by
  simp only [State.busRead, hone, if_true]

/-- R86: a store to a byte or register of a batten in progress. -/
theorem State.writePiece_overlay (ho : s.inOverlay a bs.length = true) :
    s.writePiece who a bs = .error (.undefinedBehaviour 8) := by
  simp only [State.writePiece, ho, if_true]

/-- R66: a store to the descriptor of a copy in progress. -/
theorem State.writePiece_descriptor (ho : s.inOverlay a bs.length = false) (hd : s.inDescriptor a bs.length = true) :
    s.writePiece who a bs = .error (.undefinedBehaviour 6) := by
  simp [State.writePiece, ho, hd]

/-- R10: a store to no region. -/
theorem State.writePiece_none (ho : s.inOverlay a bs.length = false) (hd : s.inDescriptor a bs.length = false)
    (hr : regionOf a = .none) : s.writePiece who a bs = .error (.undefinedBehaviour 2) := by
  simp [State.writePiece, ho, hd, hr]

/-- R435: a store to host memory. -/
theorem State.writePiece_host (ho : s.inOverlay a bs.length = false) (hd : s.inDescriptor a bs.length = false)
    (hr : regionOf a = .host) : s.writePiece who a bs = .ok (s.poke a bs) := by
  simp [State.writePiece, ho, hd, hr]

/-- R11: a store to a register window that is no access to a register. -/
theorem State.busWrite_reg_bad (ho : s.inOverlay a bs.length = false) (hd : s.inDescriptor a bs.length = false)
    (hr : regionOf a = .reg) (hn : regAccessOk a bs.length = false) :
    s.busWrite who a bs = .error (.undefinedBehaviour 3) := by
  by_cases hone : bs.length ≤ 64 - a % 64
  · simp [State.busWrite_piece hone, State.writePiece, ho, hd, hr, hn]
  · simp [State.busWrite, hone, hr]

/-- R11: a store to a register. -/
theorem State.writePiece_reg {n : Nat} {v : Word} (ho : s.inOverlay a n = false) (hd : s.inDescriptor a n = false)
    (hr : regionOf a = .reg) (hn : n = 4 ∨ n = 8) (ha : a % n = 0) :
    s.writePiece who a (toLE n v.toNat) = s.regWrite (a / 8 * 8) (laneValue a n v) (laneMask a n) := by
  simp [State.writePiece, ho, hd, hr, regAccessOk_iff.2 ⟨hn, ha⟩, regLane_toLE v hn ha]

/-- R66: with no copy in progress no bytes lie in a descriptor. -/
theorem State.inDescriptor_of_no_dma (h : s.spin.dma = []) (a n : Nat) : s.inDescriptor a n = false := by
  simp [State.inDescriptor, h]

end

/-- R9: a block window is a register region. -/
theorem regionOf_window {a : Nat} (h : inWindows a = true) : regionOf a = .reg := by simp [regionOf, h]

/-- R11: an aligned access of 32 or 64 bits lies in one 64-byte block. -/
theorem aligned_in_block {a n : Nat} (hn : n = 4 ∨ n = 8) (ha : a % n = 0) : n ≤ 64 - a % 64 := by
  rcases hn with rfl | rfl <;> omega

/-- Settles O53: a REGISTER_WRITE that reaches its address is a counted plain store, and what it counts is
measurement. -/
theorem registerAccess : Obligations.RegisterAccess := by
  unfold Obligations.RegisterAccess
  refine ⟨State.plainWrite_codes, ?_⟩
  intro m a wd v s n w reach free okay win en lane
  have hreached (h : reach) : s.reachedBy m a.toNat := by cases m <;> exact h
  have hstore (h : reach) := exec_registerWrite_of_reached (a := a) (wd := wd) (v := v) (hreached h)
  have hlen : (toLE n v.toNat).length = n := length_toLE _ _
  let who := busMaster m
  let u := s.countAccess who a.toNat
  have hcount : u.alike s := State.countAccess_alike s who a.toNat
  have hover : u.inOverlay a.toNat n = s.inOverlay a.toNat n := hcount.inOverlay _ _
  have hdesc (hf : free) (t : State) (ht : t.alike s) : t.inDescriptor a.toNat n = false :=
    State.inDescriptor_of_no_dma (ht.dma.trans hf.2) _ _
  have hundefined (hr : reach) (k : Nat) (h : u.busWrite who a.toNat (toLE n v.toNat) = .error (.undefinedBehaviour k)) :
      undefinedUse (.registerWrite m a wd v) s k := by
    unfold undefinedUse
    rw [hstore hr, State.countedWrite_error h, toOut]
  have hlane (hw : win) (hf : free) (hok : okay) : u.busWrite who a.toNat (toLE n v.toNat) = u.regWrite w lane en := by
    rw [State.busWrite_piece (hlen.le.trans (aligned_in_block hok.1 hok.2)),
      State.writePiece_reg (hover.trans hf.1) (hdesc hf u hcount) (regionOf_window hw) hok.1 hok.2]
    rfl
  have hbecomes (hr : reach) {t t' : State} (h : u.busWrite who a.toNat (toLE n v.toNat) = .ok t) (ht : t.alike t') :
      becomes (.registerWrite m a wd v) s t' := by
    obtain ⟨x, hx, hxt⟩ := State.countedWrite_ok h
    exact ⟨x, by rw [hstore hr, hx, toOut], State.alike_trans hxt ht⟩
  refine ⟨fun h => ?_, fun hw hr hf hok => ?_, fun hw hr hok ho => ?_, fun hw hr hf hok hd => ?_,
    fun hw hr hf hok d hd hb hm => ?_, fun hr hf hone hreg => ?_, fun hr hf hone hreg => ?_⟩
  · exact exec_registerWrite_of_not_reached fun hr => h (by cases m <;> exact hr)
  · have hbad : regAccessOk a.toNat n = false := Bool.eq_false_iff.2 fun h => hok (regAccessOk_iff.1 h)
    refine hundefined hr 3 (State.busWrite_reg_bad ?_ ?_ (regionOf_window hw) ?_) <;> rw [hlen]
    exacts [hover.trans hf.1, hdesc hf u hcount, hbad]
  · refine hundefined hr 8 ?_
    rw [State.busWrite_piece (hlen.le.trans (aligned_in_block hok.1 hok.2)),
      State.writePiece_overlay (by rw [hlen, hover, ho])]
  · exact hbecomes hr ((hlane hw hf hok).trans (u.regWrite_none _ _ hd)) hcount
  · exact hbecomes hr ((hlane hw hf hok).trans (u.regWrite_plain _ _ hd hb)) (hcount.plainWrite hm _ _)
  · refine hundefined hr 2 ?_
    rw [State.busWrite_piece (hlen.le.trans hone),
      State.writePiece_none (by rw [hlen, hover, hf.1]) (by rw [hlen, hdesc hf u hcount]) hreg]
  · rw [hstore hr, State.countedWrite_outside s who _ (by simp [hreg]) (by simp [hreg]),
      State.busWrite_piece (hlen.le.trans hone),
      State.writePiece_host (by rw [hlen, hf.1]) (by rw [hlen, hdesc hf s (State.alike_refl s)]) hreg, toOut]

end Sys2Proof.Machine
end

section
/-! PROOF. Requests to HBM leave what a read finds: which channel serves a line, the errors that stand in it, and what
is lost. -/

namespace Sys2Proof.Machine

/-- What decides whether a line reads uncorrectable, and the tasks, are as in `s`: lost stacks, the errors of lines,
retirements with their cursors, and what each channel is named for. -/
structure State.findsAs (t s : State) : Prop where
  spin : t.spin = s.spin
  errs : t.creel.errs = s.creel.errs
  retire : t.creel.retire = s.creel.retire
  lost : ∀ k, t.stackLost k = s.stackLost k
  cursor : ∀ k, t.fld (Reg.creelRetireStat k) Fld.creelRetireStatCursor =
    s.fld (Reg.creelRetireStat k) Fld.creelRetireStatCursor
  named : ∀ c, ∀ f ∈ [Fld.creelChanState, Fld.creelChanSlotStack, Fld.creelChanSlot],
    t.fld (chanReg c) f = s.fld (chanReg c) f

theorem State.findsAs.refl (s : State) : s.findsAs s := ⟨rfl, rfl, rfl, fun _ => rfl, fun _ => rfl, fun _ _ _ => rfl⟩

theorem State.findsAs.trans {t u s : State} (h : t.findsAs u) (k : u.findsAs s) : t.findsAs s :=
  ⟨h.spin.trans k.spin, h.errs.trans k.errs, h.retire.trans k.retire, fun n => (h.lost n).trans (k.lost n),
    fun n => (h.cursor n).trans (k.cursor n), fun c f hf => (h.named c f hf).trans (k.named c f hf)⟩

/-- A state with the same registers, tasks, line errors and retirements. -/
theorem State.findsAs.of_eq {t s : State} (hspin : t.spin = s.spin) (hregs : t.regs = s.regs)
    (herrs : t.creel.errs = s.creel.errs) (hretire : t.creel.retire = s.creel.retire) : t.findsAs s := by
  have hfld (a : Nat) (f : Fld) : t.fld a f = s.fld a f := by unfold State.fld State.rd; rw [hregs]
  exact ⟨hspin, herrs, hretire, fun k => by rw [State.stackLost, State.stackLost, hfld], fun k => hfld _ _,
    fun c f _ => hfld _ _⟩

theorem State.fld_wr (s : State) (a b : Nat) (w : Word) (f : Fld) :
    (s.wr a w).fld b f = if b = a then f.get w else s.fld b f := by
  unfold State.fld
  rw [State.rd_wr]
  split <;> rfl

theorem State.fld_wr_other (s : State) {a b : Nat} (w : Word) (f : Fld) (h : b ≠ a) : (s.wr a w).fld b f = s.fld b f := by
  rw [State.fld_wr, if_neg h]

/-- A register that is neither DIGEST_FAULT nor one of a Creel's channels or retirement. -/
def leavesFinding (a : Nat) : Prop :=
  a ≠ Reg.digestFault ∧ (∀ k, a ≠ Reg.creelRetireStat k) ∧ ∀ c, a ≠ chanReg c

theorem State.wr_findsAs (s : State) {a : Nat} (w : Word) (h : leavesFinding a) : (s.wr a w).findsAs s := by
  obtain ⟨hfault, hretire, hchan⟩ := h
  refine ⟨rfl, rfl, rfl, fun k => ?_, fun k => s.fld_wr_other w _ (hretire k).symm,
    fun c f _ => s.fld_wr_other w f (hchan c).symm⟩
  rw [State.stackLost, State.stackLost, s.fld_wr_other w _ hfault.symm]

/-- The first registers of a Creel's window are none of these. -/
theorem leavesFinding_of_low {a : Nat} (hbase : 0x400000 ≤ a) (hlow : a % 0x10000 < 0x30) : leavesFinding a := by
  refine ⟨?_, fun k => ?_, fun c => ?_⟩ <;>
    simp only [Reg.digestFault, Reg.creelRetireStat, chanReg, Reg.creelChan, ne_eq] <;> omega

theorem creelErr_leavesFinding (k : Nat) : leavesFinding (Reg.creelErr k) := by
  apply leavesFinding_of_low <;> unfold Reg.creelErr <;> omega

theorem creelErrInfo_leavesFinding (k : Nat) : leavesFinding (Reg.creelErrInfo k) := by
  apply leavesFinding_of_low <;> unfold Reg.creelErrInfo <;> omega

/-- R362: the count of corrected reads stands beside what the channel is named for. -/
theorem State.incF_ce_findsAs (s : State) (c : Nat) : (s.incF (chanReg c) Fld.creelChanCe).findsAs s := by
  have hother {b : Nat} (f : Fld) (h : b ≠ chanReg c) := s.fld_wr_other (Fld.creelChanCe.put (s.rd (chanReg c))
    (s.fld (chanReg c) Fld.creelChanCe + 1)) f h
  refine ⟨rfl, rfl, rfl, fun k => ?_, fun k => hother _ ?_, fun b f hf => ?_⟩
  · exact congrArg (Nat.testBit · k) (hother _ (by simp only [Reg.digestFault, chanReg, Reg.creelChan, ne_eq]; omega))
  · simp only [Reg.creelRetireStat, chanReg, Reg.creelChan, ne_eq]; omega
  · by_cases hb : chanReg b = chanReg c
    · rw [hb]
      show f.get ((s.incF _ _).rd _) = _
      rw [State.incF, State.setF, State.rd_wr_same, Fld.get_put_other]
      · rfl
      · simp only [List.mem_cons, List.not_mem_nil, or_false] at hf
        rcases hf with rfl | rfl | rfl <;> decide
    · exact hother f hb

theorem State.ceBit_findsAs (s : State) (k : Nat) : (s.ceBit k).findsAs s := by
  unfold State.ceBit
  split
  · exact .refl s
  · exact .trans (u := s.setF (Reg.creelErr k) Fld.creelErrCeLimit 1) (.of_eq rfl rfl rfl rfl)
      (s.wr_findsAs _ (creelErr_leavesFinding k))

theorem State.updChan_findsAs (s : State) (c : Nat) (f : Chan → Chan) : (s.updChan c f).findsAs s := .of_eq rfl rfl rfl rfl

theorem State.corrected_findsAs (s : State) (c a : Nat) : (s.corrected c a).findsAs s := by
  unfold State.corrected
  extract_lets u lim
  have hu : u.findsAs s :=
    (State.updChan_findsAs _ _ _).trans ((State.incF_ce_findsAs _ _).trans (.of_eq rfl rfl rfl rfl))
  split
  · exact (State.updChan_findsAs _ _ _).trans ((State.ceBit_findsAs _ _).trans
      ((u.wr_findsAs _ (creelErrInfo_leavesFinding _)).trans hu))
  · exact hu

theorem State.lineSeen_findsAs (s : State) (a : Nat) : (s.lineSeen a).findsAs s := by
  unfold State.lineSeen
  split
  · exact .refl s
  · split
    · split
      · exact .refl s
      · exact State.corrected_findsAs _ _ _
    · exact .refl s

theorem State.hbmReq_findsAs (s : State) (flow read pair : Bool) (a : Nat) (who : EvMaster) :
    (s.hbmReq flow read pair a who).2.findsAs s := by
  simp only [State.hbmReq]
  split
  · exact .of_eq rfl rfl rfl rfl
  · split
    · exact .of_eq rfl rfl rfl rfl
    · exact .of_eq rfl rfl rfl rfl

theorem State.hbmReqs_findsAs (s : State) (flow read : Bool) (who : EvMaster) (lo hi k a : Nat) :
    (State.hbmReqs s flow read who lo hi k a).findsAs s := by
  induction k generalizing s a with
  | zero => exact .refl s
  | succ k ih =>
    refine (ih _ _).trans ((State.hbmReq_findsAs _ _ _ _ _ _).trans ?_)
    split
    · exact State.lineSeen_findsAs _ _
    · exact .refl s

/-- The requests of an access leave what a read finds. -/
theorem State.hbmTraffic_findsAs (s : State) (flow read : Bool) (who : EvMaster) (a n : Nat) :
    (s.hbmTraffic flow read who a n).findsAs s := by
  unfold State.hbmTraffic
  split
  · exact State.hbmReqs_findsAs _ _ _ _ _ _ _ _
  · exact .refl s

section
variable {t s : State} (h : t.findsAs s)
include h

theorem State.findsAs.task (k : Nat) : t.task k = s.task k := by unfold State.task; rw [h.spin]

theorem State.findsAs.slotRetire (stack slot : Nat) : t.slotRetire stack slot = s.slotRetire stack slot := by
  unfold State.slotRetire State.retiring
  rw [h.retire]

theorem State.findsAs.chanState (c : Nat) : t.chanState c = s.chanState c := h.named c _ (by simp)

theorem State.findsAs.servedBy (a : Nat) : t.servedBy a = s.servedBy a := by
  have hstack := fun c => h.named c Fld.creelChanSlotStack (by simp)
  have hslot := fun c => h.named c Fld.creelChanSlot (by simp)
  unfold State.servedBy
  simp only [h.slotRetire, h.cursor, h.chanState, hstack, hslot]

theorem State.findsAs.spareLost (a : Nat) : t.spareLost a = s.spareLost a := by
  unfold State.spareLost
  simp only [h.slotRetire, h.cursor]

/-- The same lines read uncorrectable. -/
theorem State.findsAs.hbmUnc (a : Nat) : t.hbmUnc a = s.hbmUnc a := by
  unfold State.hbmUnc State.lineErrs
  simp only [h.lost, h.errs, h.spareLost, h.servedBy, h.chanState]

end

end Sys2Proof.Machine
end

section
/-! PROOF. LD and ST, accesses by region, and the memory itself (MemoryAccess). -/

namespace Sys2Proof.Machine

/-! ## What LD makes of its bytes -/

/-- Bytes, least first, make a number that they can hold. -/
theorem ofLE_lt (bs : List Byte) : ofLE bs < 256 ^ bs.length := by
  induction bs with
  | nil => exact Nat.one_pos
  | cons b bs ih =>
    have hb := b.isLt
    rw [ofLE, List.length_cons, Nat.pow_succ]
    omega

/-- Sign extension of a number of `w` bits is that of the word of `w` bits. -/
theorem sx64_eq_signExtend {w : Nat} (hw : 0 < w) (n : Nat) : sx64 w n = (BitVec.ofNat w n).signExtend 64 := by
  have hsx : sxInt w n = (BitVec.ofNat w n).toInt := by
    obtain ⟨k, rfl⟩ : ∃ k, w = k + 1 := ⟨w - 1, by omega⟩
    have htwo : 2 ^ (k + 1) = 2 * 2 ^ k := Nat.pow_succ' ..
    rw [sxInt, BitVec.toInt_eq_toNat_cond, BitVec.toNat_ofNat, Nat.add_sub_cancel, htwo]
    split <;> split <;> omega
  rw [sx64, hsx]
  rfl

/-- R51: LD without sign extension gives the number its bytes make. -/
theorem loadValue_unsigned {bs : List Byte} (hlen : bs.length ≤ 8) : (loadValue false bs).toNat = ofLE bs := by
  have hlt : ofLE bs < 2 ^ 64 := (ofLE_lt bs).trans_le (Nat.pow_le_pow_right (n := 256) (by decide) hlen)
  show (BitVec.ofNat 64 (ofLE bs)).toNat = _
  rw [BitVec.toNat_ofNat, Nat.mod_eq_of_lt hlt]

/-- R51: LD with sign extension gives the signed number its bytes make. -/
theorem loadValue_signed {bs : List Byte} (hpos : 0 < bs.length) (hlen : bs.length ≤ 8) :
    (loadValue true bs).toInt = (BitVec.ofNat (8 * bs.length) (ofLE bs)).toInt := by
  show (sx64 (8 * bs.length) (ofLE bs)).toInt = _
  rw [sx64_eq_signExtend (by omega), BitVec.toInt_signExtend_of_le (by omega)]

/-- R51: an access of LD or ST is of 1, 2, 4 or 8 bytes. -/
theorem widthOf_bounds (c : Nat) : 0 < widthOf c ∧ widthOf c ≤ 8 :=
  ⟨Nat.two_pow_pos _, Nat.pow_le_pow_right (n := 2) (by decide) (Nat.le_of_lt_succ (Nat.mod_lt c (by decide)))⟩

/-! ## LD -/

/-- A command that is undefined behaviour in a thread answers that. -/
theorem exec_task_fault {c : Instr} {s : State} {k : TaskId} {f : Task → State → TaskRes} {op : Nat} {w : IWord}
    {e : Fault} (h : s.threadRuns k) (hc : exec c s = runTask k.val op w f s)
    (hf : ∀ n, e = .undefinedBehaviour n → f (s.task k.val) s = .undef n) : exec c s = .fault e := by
  obtain ⟨n⟩ := e
  exact fault_of_undef h hc (hf n rfl)

/-- R360, R418: a load that its channel holds back stands outstanding in its task. -/
theorem State.holdLoad_task (s : State) (w : IWord) (k a n : Nat) : ∃ l,
    (s.holdLoad w k a n).task k = { s.task k with load := some l } ∧ l.addr = a ∧ l.n = n ∧ l.dest = w.dest ∧
      l.signed = w.fn.getLsbD 2 := by
  have hreqs : ∀ (l : List Nat) (u : State),
      (l.foldl (fun (s : State) b => s.hbmTraffic false true (.task k) (s.readFrom b) 1) u).findsAs u := by
    intro l
    induction l with
    | nil => exact .refl
    | cons b l ih => exact fun u => (ih _).trans (State.hbmTraffic_findsAs _ _ _ _ _ _)
  unfold State.holdLoad State.updTask
  dsimp only
  rw [State.task_setTask, (hreqs (linesOf a n) s).task]
  exact ⟨_, rfl, rfl, rfl, rfl, rfl⟩

/-- R360, R418: a load whose lines read well completes into its task's register. -/
theorem State.loadDone_task {u : State} {l : Load} (k : Nat)
    (h : ∀ b ∈ linesOf l.addr l.n, u.hbmUnc (u.readFrom b) = false) : (u.loadDone k l).task k =
      { (u.task k).write l.dest (loadValue l.signed (l.got.getD (u.peek l.addr l.n))) with load := none } := by
  have hnone : ((linesOf l.addr l.n).filter fun b => u.hbmUnc (u.readFrom b)) = [] := by
    rw [List.filter_eq_nil_iff]
    exact fun b hb => by simp [h b hb]
  unfold State.loadDone
  cases hgot : l.got with
  | none => simp [hnone, State.updTask]
  | some bs => simp [State.updTask]

/-! ## Accesses by region -/

/-- R364: what a read of HBM inside one block answers, by what its line is found to be. -/
theorem State.hbmRead_eq (s : State) (who : EvMaster) (a n : Nat) : s.hbmRead who a n =
    let b := s.readFrom a
    let t := s.hbmTraffic false true who b n
    if s.hbmUnc b then ⟨List.replicate n 0, true, (t.uncRead b).startWaiting⟩ else ⟨s.bytes b n, false, t⟩ := by
  have hbytes (b : Nat) : (s.hbmTraffic false true who b n).bytes b n = s.bytes b n :=
    State.bytes_congr fun i _ => by unfold State.byte; rw [State.hbmTraffic_mem]
  unfold State.hbmRead
  dsimp only
  rw [(s.hbmTraffic_findsAs _ _ _ _ _).hbmUnc, hbytes]

/-- R9: an address of host memory does not lie in HBM. -/
theorem regionOf_host {a : Nat} (h : regionOf a = .host) : inHbm a = false := by
  unfold regionOf at h
  split_ifs at h with hwin hdie hhbm
  exact Bool.eq_false_iff.2 hhbm

/-- R51, R200: a store to HBM none of whose bytes is undefined behaviour. -/
theorem State.writePiece_hbm {s : State} {who : EvMaster} {a : Nat} {bs : List Byte}
    (ho : s.inOverlay a bs.length = false) (hd : s.inDescriptor a bs.length = false) (hr : regionOf a = .hbm)
    (hok : ∀ i, i < bs.length → s.hbmBad (a + i) (bs.getD i 0) = none) :
    s.writePiece who a bs = .ok (s.hbmStore who a bs) := by
  have hfirst : firstBad (fun i => s.hbmBad (a + i) (bs.getD i 0)) bs.length = none :=
    List.findSome?_eq_none_iff.2 fun i hi => hok i (List.mem_range.1 hi)
  simp only [State.writePiece, ho, hd, hr, hfirst, Bool.false_eq_true, if_false]

/-- A read gives the bytes just stored. -/
theorem State.bytes_setBytes (s : State) (a : Nat) (bs : List Byte) : (s.setBytes a bs).bytes a bs.length = bs := by
  refine List.ext_getElem (State.length_bytes _ _ _) fun i hi hbs => ?_
  have hread := State.getD_bytes (s.setBytes a bs) a bs.length i hbs
  rw [State.byte_setBytes, if_pos (by omega), Nat.add_sub_cancel_left] at hread
  simpa [hi, hbs] using hread

/-- R360, R364, R418: LD in a thread that runs. -/
theorem ld_task {k : TaskId} {s : State} (w : IWord) (h : s.threadRuns k) {a n : Nat} (ha : lsAddr w (s.task k.val) = a)
    (hn : widthOf w.fn.toNat = n) :
    (s.accessHeld a n ≠ none → becomes (.ld (.task k) w) s ((s.holdLoad w k.val a n).updTask k.val Task.step)) ∧
    (s.accessHeld a n = none → ∀ r, (s.countAccess (.task k.val) a).busRead (.task k.val) a n = .ok r →
      becomes (.ld (.task k) w) s ((((if r.unc then r.st.linesLost s a n else r.st).updTask k.val fun t =>
        t.write w.dest (if r.unc then 0 else loadValue (w.fn.getLsbD 2) r.bytes)).updTask k.val Task.step))) ∧
    (s.accessHeld a n = none → ∀ e, (s.countAccess (.task k.val) a).busRead (.task k.val) a n = .error e →
      exec (.ld (.task k) w) s = .fault e) := by
  subst ha hn
  have hexec : exec (.ld (.task k) w) s = runTask k.val 0x01 w (ldTask w k.val) s := rfl
  refine ⟨fun hheld => becomes_of_done h hexec ?_, fun hheld r hr => becomes_of_done h hexec ?_,
    fun hheld e he => exec_task_fault h hexec fun u hu => ?_⟩
  · obtain ⟨b, hb⟩ := Option.ne_none_iff_exists'.1 hheld
    simp only [ldTask, hb]
  · simp only [ldTask, hheld, hr]
  · subst hu
    simp only [ldTask, hheld, he]

/-- R51: ST in a thread that runs. -/
theorem st_task {k : TaskId} {s : State} (w : IWord) (h : s.threadRuns k) {a n : Nat} (ha : lsAddr w (s.task k.val) = a)
    (hn : widthOf w.fn.toNat = n) :
    (∀ u, s.countedWrite (.task k.val) a (toLE n ((s.task k.val).read w.src2).toNat) = .ok u →
      becomes (.st (.task k) w) s (u.updTask k.val Task.step)) ∧
    (∀ e, s.countedWrite (.task k.val) a (toLE n ((s.task k.val).read w.src2).toNat) = .error e →
      exec (.st (.task k) w) s = .fault e) := by
  subst ha hn
  have hexec : exec (.st (.task k) w) s = runTask k.val 0x02 w (stTask w k.val) s := rfl
  refine ⟨fun u hu => becomes_of_done h hexec ?_, fun e he => exec_task_fault h hexec fun n hn => ?_⟩
  · simp only [stTask, hu]
  · subst hn
    simp only [stTask, he]

/-- Settles O12: LD and ST are their bus accesses, the requests of a read leave what it finds (`State.hbmTraffic_findsAs`),
and memory in canonical form is determined by what it reads as (`Tbl.wf_ext`). -/
theorem memoryAccess : Obligations.MemoryAccess := by
  unfold Obligations.MemoryAccess
  refine ⟨?_, ?_, ?_⟩
  · intro k w s hrun T a n s1 held
    obtain ⟨hpos, hmax⟩ := widthOf_bounds w.fn.toNat
    obtain ⟨hwait, hread, hundef⟩ := ld_task w hrun (a := a) (n := n) rfl rfl
    obtain ⟨hstored, hrefused⟩ := st_task w hrun (a := a) (n := n) rfl rfl
    refine ⟨fun h => ⟨hwait h, s.holdLoad_task w k.val a n⟩, fun u l hl => u.loadDone_task k.val hl, fun r h hr hgood =>
      ⟨loadValue (w.fn.getLsbD 2) r.bytes, by simpa [hgood] using hread h r hr, fun hs hlen => ?_, fun hs hlen => ?_⟩,
      fun r h hr hbad => by simpa [hbad] using hread h r hr, fun e h he => hundef h e he, hstored, hrefused⟩
    · rw [hs]
      exact loadValue_unsigned (hlen.le.trans hmax)
    · rw [hs, loadValue_signed (hpos.trans_eq hlen.symm) (hlen.le.trans hmax), hlen]
  · intro s who a bs _ hblock n free
    have hone : n ≤ 64 - a % 64 := by omega
    have hread : s.busRead who a n = s.readPiece who a n := State.busRead_piece hone
    have hwrite : s.busWrite who a bs = s.writePiece who a bs := State.busWrite_piece hone
    rw [hread, hwrite]
    refine ⟨fun hr => ⟨?_, fun hf => State.writePiece_none hf.1 hf.2 hr⟩,
      fun hr hn => ⟨?_, fun hf => hwrite ▸ State.busWrite_reg_bad hf.1 hf.2 hr hn⟩, fun hr hn => ?_,
      fun hr hup => ⟨?_, fun hf => ?_⟩, fun hr hgood => ?_, fun hr hbad => ?_, fun hr hf hok => ?_, fun hr => ?_,
      fun ho => State.writePiece_overlay ho, fun ho hd => State.writePiece_descriptor ho hd⟩
    · simp only [State.readPiece, hr]
    · simp only [State.readPiece, hr, hn]; rfl
    · simp only [State.readPiece, hr, hn, if_true]
    · simp [State.readPiece, hr, State.peek, regionOf_host hr, hup]
    · rw [State.writePiece_host hf.1 hf.2 hr]
      simp [State.poke, regionOf_host hr, hup]
    · simp [State.readPiece, hr, State.hbmRead_eq, hgood]
    · exact ⟨_, by simp only [State.readPiece, hr, State.hbmRead_eq, hbad, if_true]; rfl⟩
    · rw [State.writePiece_hbm hf.1 hf.2 hr hok]
      exact ⟨fun hm => by simp only [State.hbmStore, hm]; rfl, fun m hm => by simp only [State.hbmStore, hm]; rfl⟩
    · simp only [State.readPiece, hr]
  · intro s a bs
    exact ⟨fun b => State.byte_setBytes s a b bs, s.bytes_setBytes a bs, State.setBytes_wf a bs,
      fun t hs ht h => Tbl.wf_ext ht hs h⟩

end Sys2Proof.Machine
end

section
/-! PROOF. Byte strings: what a patch and a slice read, byte by byte, and numbers in network order. -/

namespace Sys2Proof

@[simp] theorem length_patch (bs : List Byte) (o : Nat) (new : List Byte) : (patch bs o new).length = bs.length := by
  simp only [patch, List.length_append, List.length_take, List.length_drop]
  omega

/-- A patch replaces the bytes it covers inside the string, and no other. -/
theorem getElem?_patch (bs : List Byte) (o : Nat) (new : List Byte) (i : Nat) : (patch bs o new)[i]? =
    if o ≤ i ∧ i < o + new.length ∧ i < bs.length then new[i - o]? else bs[i]? := by
  simp only [patch, List.append_assoc, List.getElem?_append, List.length_take, List.getElem?_take, List.getElem?_drop]
  grind

theorem getElem?_patch_out (bs : List Byte) {o : Nat} {new : List Byte} {i : Nat} (h : i < o ∨ o + new.length ≤ i) :
    (patch bs o new)[i]? = bs[i]? := by
  rw [getElem?_patch, if_neg (by omega)]

/-- A byte of a slice; past the end of the string it is 0. -/
theorem getElem?_slice (bs : List Byte) (o k i : Nat) :
    (slice bs o k)[i]? = if i < k then some (bs[o + i]?.getD 0) else none := by
  simp only [slice, List.getElem?_append, List.length_take, List.length_drop, List.getElem?_take, List.getElem?_drop,
    List.getElem?_replicate]
  grind

@[simp] theorem length_slice (bs : List Byte) (o k : Nat) : (slice bs o k).length = k := by
  simp only [slice, List.length_append, List.length_take, List.length_drop, List.length_replicate]
  omega

/-- Slices of strings that agree there. -/
theorem slice_congr {a b : List Byte} {o o' k : Nat} (h : ∀ i, i < k → a[o + i]? = b[o' + i]?) :
    slice a o k = slice b o' k := by
  refine List.ext_getElem? fun i => ?_
  rw [getElem?_slice, getElem?_slice]
  split
  · next hi => rw [h i hi]
  · rfl

theorem slice_patch_out (bs : List Byte) {o : Nat} {new : List Byte} {p k : Nat}
    (h : p + k ≤ o ∨ o + new.length ≤ p) : slice (patch bs o new) p k = slice bs p k :=
  slice_congr fun i hi => getElem?_patch_out bs (by omega)

theorem slice_patch_same {bs new : List Byte} {o : Nat} (h : o + new.length ≤ bs.length) :
    slice (patch bs o new) o new.length = new := by
  refine List.ext_getElem? fun i => ?_
  rw [getElem?_slice, getElem?_patch]
  split
  · next hi => rw [if_pos (by omega), Nat.add_sub_cancel_left, List.getElem?_eq_getElem hi]; rfl
  · next hi => exact (List.getElem?_eq_none (by omega)).symm

theorem slice_append_left {a : List Byte} (b : List Byte) {o k : Nat} (h : o + k ≤ a.length) :
    slice (a ++ b) o k = slice a o k :=
  slice_congr fun i hi => List.getElem?_append_left (by omega)

@[simp] theorem length_toBE (k n : Nat) : (toBE k n).length = k := by simp [toBE]

theorem ofBE_toBE (k n : Nat) : ofBE (toBE k n) = n % 256 ^ k := by
  rw [ofBE, toBE, List.reverse_reverse, Machine.ofLE_toLE]

theorem beAt_lt (bs : List Byte) (o k : Nat) : beAt bs o k < 256 ^ k := by
  have h := Machine.ofLE_lt (slice bs o k).reverse
  rwa [List.length_reverse, length_slice] at h

theorem beAt_congr {a b : List Byte} {o o' k : Nat} (h : ∀ i, i < k → a[o + i]? = b[o' + i]?) :
    beAt a o k = beAt b o' k := congrArg ofBE (slice_congr h)

theorem beAt_patch_out (bs : List Byte) {o : Nat} {new : List Byte} {p k : Nat}
    (h : p + k ≤ o ∨ o + new.length ≤ p) : beAt (patch bs o new) p k = beAt bs p k :=
  congrArg ofBE (slice_patch_out bs h)

/-- A number patched in reads back. -/
theorem beAt_patch_toBE {bs : List Byte} {o k : Nat} (n : Nat) (h : o + k ≤ bs.length) :
    beAt (patch bs o (toBE k n)) o k = n % 256 ^ k := by
  have hs := slice_patch_same (bs := bs) (new := toBE k n) (o := o) (by rwa [length_toBE])
  rw [length_toBE] at hs
  rw [beAt, hs, ofBE_toBE]

theorem beAt_append_left {a : List Byte} (b : List Byte) {o k : Nat} (h : o + k ≤ a.length) :
    beAt (a ++ b) o k = beAt a o k := congrArg ofBE (slice_append_left b h)

/-- A bit of a little-endian number. -/
theorem testBit_ofLE (bs : List Byte) (m : Nat) : (ofLE bs).testBit m = (bs[m / 8]?.getD 0).getLsbD (m % 8) := by
  induction bs generalizing m with
  | nil => simp [ofLE]
  | cons b bs ih =>
    have hb : b.toNat < 2 ^ 8 := b.isLt
    rw [ofLE, Nat.add_comm, show (256 : Nat) = 2 ^ 8 from rfl, Nat.testBit_two_pow_mul_add _ hb]
    split
    · next h => simp [Nat.div_eq_of_lt h, Nat.mod_eq_of_lt h, BitVec.testBit_toNat]
    · next h =>
      rw [ih, show m / 8 = (m - 8) / 8 + 1 by omega, show m % 8 = (m - 8) % 8 by omega, List.getElem?_cons_succ]

/-- A bit of a number in network order, counted from the most significant bit of its first byte. -/
theorem testBit_beAt {bs : List Byte} {o k q : Nat} (hq : q < 8 * k) :
    (beAt bs o k).testBit (8 * k - 1 - q) = (bs[o + q / 8]?.getD 0).getLsbD (7 - q % 8) := by
  have hlen : (8 * k - 1 - q) / 8 < (slice bs o k).length := by rw [length_slice]; omega
  rw [beAt, ofBE, testBit_ofLE, List.getElem?_reverse hlen, length_slice, getElem?_slice, if_pos (by omega),
    show k - 1 - (8 * k - 1 - q) / 8 = q / 8 by omega, show (8 * k - 1 - q) % 8 = 7 - q % 8 by omega]
  rfl

end Sys2Proof
end

section
/-! PROOF. What the release of cells and of copies leaves: registers, memory, queues, and the links of ports. -/

namespace Sys2Proof.Machine

/-- A fold keeps what each of its steps keeps. -/
theorem foldl_same {α β : Type} (π : State → β) (g : State → α → State) (h : ∀ s a, π (g s a) = π s) (l : List α)
    (s : State) : π (l.foldl g s) = π s := by
  induction l generalizing s with
  | nil => rfl
  | cons a l ih => rw [List.foldl_cons, ih, h]

theorem State.port_updPort (s : State) (p : Nat) (f : PortSt → PortSt) (q : Nat) :
    (s.updPort p f).port q = if q = p then f (s.port q) else s.port q := by
  unfold State.updPort State.port
  simp only [Tbl.upd]
  rw [Tbl.get_set]
  split
  · next h => rw [h]
  · rfl

@[simp] theorem State.port_updPort_same (s : State) (p : Nat) (f : PortSt → PortSt) :
    (s.updPort p f).port p = f (s.port p) := by rw [State.port_updPort, if_pos rfl]

/-- `t` is `s` but for accounts, cells in use, packets, and what ports ask for and show of their idle times. -/
structure State.accountsOnly (t s : State) : Prop where
  now : t.now = s.now
  regs : t.regs = s.regs
  mem : t.mem = s.mem
  glass : t.glass = s.glass
  q : t.beam.q = s.beam.q
  tx : t.beam.tx = s.beam.tx
  sent : t.selv.sent = s.selv.sent
  refLost : t.selv.refLost = s.selv.refLost
  lockAt : ∀ p, (t.port p).lockAt = (s.port p).lockAt

theorem State.accountsOnly.refl (s : State) : s.accountsOnly s := ⟨rfl, rfl, rfl, rfl, rfl, rfl, rfl, rfl, fun _ => rfl⟩

theorem State.accountsOnly.trans {t u s : State} (h : t.accountsOnly u) (k : u.accountsOnly s) : t.accountsOnly s :=
  ⟨h.now.trans k.now, h.regs.trans k.regs, h.mem.trans k.mem, h.glass.trans k.glass, h.q.trans k.q,
    h.tx.trans k.tx, h.sent.trans k.sent, h.refLost.trans k.refLost, fun p => (h.lockAt p).trans (k.lockAt p)⟩

theorem State.updPort_accountsOnly (s : State) (p : Nat) {f : PortSt → PortSt} (hf : ∀ x, (f x).lockAt = x.lockAt) :
    (s.updPort p f).accountsOnly s := by
  refine ⟨rfl, rfl, rfl, rfl, rfl, rfl, rfl, rfl, fun q => ?_⟩
  rw [State.port_updPort]
  split
  · exact hf _
  · rfl

theorem State.callGone_accountsOnly (s : State) (p : Nat) : (s.callGone p).accountsOnly s :=
  s.updPort_accountsOnly p fun _ => rfl

theorem State.setPkt_accountsOnly (s : State) (p : Nat) (x : Option Pkt) : (s.setPkt p x).accountsOnly s :=
  ⟨rfl, rfl, rfl, rfl, rfl, rfl, rfl, rfl, fun _ => rfl⟩

theorem State.lpiWake_accountsOnly (s : State) (p : Nat) : (s.lpiWake p).accountsOnly s := by
  unfold State.lpiWake
  split
  · exact s.updPort_accountsOnly p fun _ => rfl
  · exact .refl s

theorem State.askPfc_accountsOnly (s : State) (p : Nat) (rel : Option Nat) : (s.askPfc p rel).accountsOnly s := by
  refine .trans (u := s.lpiWake p) (State.updPort_accountsOnly _ _ ?_) (s.lpiWake_accountsOnly p)
  exact fun _ => rfl

theorem State.acctSettle_accountsOnly (s : State) (a : Nat) : (s.acctSettle a).accountsOnly s := by
  unfold State.acctSettle
  extract_lets v
  split
  · exact (State.askPfc_accountsOnly _ _ _).trans ⟨rfl, rfl, rfl, rfl, rfl, rfl, rfl, rfl, fun _ => rfl⟩
  · exact .refl s

theorem State.acctSub_accountsOnly (s : State) (a : Nat) (head : Bool) (n : Nat) : (s.acctSub a head n).accountsOnly s :=
  (State.acctSettle_accountsOnly _ _).trans ⟨rfl, rfl, rfl, rfl, rfl, rfl, rfl, rfl, fun _ => rfl⟩

/-- R299: the cells of a packet return to their pool, their bank and its account. -/
theorem State.freeCells_accountsOnly (s : State) (x : Pkt) : (s.freeCells x).accountsOnly s := by
  have hpool : ∀ b : Beam, b.q = s.beam.q → b.tx = s.beam.tx → ({ s with beam := b } : State).accountsOnly s :=
    fun b hq ht => ⟨rfl, rfl, rfl, rfl, hq, ht, rfl, rfl, fun _ => rfl⟩
  unfold State.freeCells
  split
  · exact hpool _ rfl rfl
  · split
    · exact (State.acctSub_accountsOnly _ _ _ _).trans (hpool _ rfl rfl)
    · exact hpool _ rfl rfl
  · split
    · exact (State.acctSub_accountsOnly _ _ _ _).trans (hpool _ rfl rfl)
    · exact hpool _ rfl rfl
  · exact hpool _ rfl rfl

@[simp] theorem State.lpiWake_pkts (s : State) (p : Nat) : (s.lpiWake p).pkts = s.pkts := by
  unfold State.lpiWake
  split <;> rfl

@[simp] theorem State.acctSettle_pkts (s : State) (a : Nat) : (s.acctSettle a).pkts = s.pkts := by
  unfold State.acctSettle
  extract_lets v
  split
  · exact State.lpiWake_pkts _ _
  · rfl

@[simp] theorem State.freeCells_pkts (s : State) (x : Pkt) : (s.freeCells x).pkts = s.pkts := by
  unfold State.freeCells
  split
  · rfl
  · split
    · exact State.acctSettle_pkts _ _
    · rfl
  · split
    · exact State.acctSettle_pkts _ _
    · rfl
  · rfl

/-- R299: a copy of a packet is gone. -/
theorem State.dropRef_accountsOnly (s : State) (p : Nat) : (s.dropRef p).accountsOnly s := by
  unfold State.dropRef
  split
  · exact .refl s
  · split
    · exact (State.setPkt_accountsOnly _ _ _).trans (s.freeCells_accountsOnly _)
    · exact s.setPkt_accountsOnly _ _

theorem State.dropRef_last {s : State} {p : Nat} {x : Pkt} (hx : s.pkt? p = some x) (hlast : x.refs ≤ 1) :
    s.dropRef p = (s.freeCells x).setPkt p none := by simp only [State.dropRef, hx, hlast, if_true]

theorem State.dropRef_more {s : State} {p : Nat} {x : Pkt} (hx : s.pkt? p = some x) (hmore : 1 < x.refs) :
    s.dropRef p = s.setPkt p (some { x with refs := x.refs - 1 }) := by
  simp only [State.dropRef, hx, Nat.not_le.2 hmore, if_false]

/-- R299: other packets stay. -/
theorem State.dropRef_pkt_other (s : State) {p q : Nat} (h : q ≠ p) : (s.dropRef p).pkt? q = s.pkt? q := by
  unfold State.dropRef
  split
  · rfl
  · split
    · rw [State.pkt_setPkt_other _ _ _ h, State.pkt?, State.freeCells_pkts]; rfl
    · exact State.pkt_setPkt_other _ _ _ h

/-- R386: stamps that will not be taken count in registers. -/
theorem State.unsent_regsOnly (s : State) (x : Pkt) : ∃ r, s.unsent x = { s with regs := r } := by
  unfold State.unsent
  split
  · next port q hdisp =>
    generalize x.pick.stampReq = l
    induction l generalizing s with
    | nil => exact ⟨s.regs, rfl⟩
    | cons e l ih =>
      rw [List.foldl_cons]
      obtain ⟨r, hr⟩ := ih (if (s.fld (Reg.timePort port) Fld.timePortDomMask).testBit e.1 then
        s.incF (Reg.timeTxqStat e.1) Fld.timeTxqStatUnsent else s)
      rw [hr]
      split <;> exact ⟨r, rfl⟩
  · exact ⟨s.regs, rfl⟩

theorem State.unsent_of_no_request (s : State) {x : Pkt} (h : x.pick.stampReq = []) : s.unsent x = s := by
  unfold State.unsent
  split
  · rw [h]; rfl
  · rfl

end Sys2Proof.Machine
end

section
/-! PROOF. The counters of a port, and frames that arrive at one (FramesArrive). -/

namespace Sys2Proof.Machine

/-! ## What counts changes the counters only -/

/-- `t` is `s` but for the Pick glass. -/
def State.countsOnly (t s : State) : Prop := ∃ g, t = { s with glass := g }

theorem State.countsOnly.refl (s : State) : s.countsOnly s := ⟨s.glass, rfl⟩

theorem State.countsOnly.trans {t u s : State} (h : t.countsOnly u) (k : u.countsOnly s) : t.countsOnly s := by
  obtain ⟨g, rfl⟩ := h
  obtain ⟨g', rfl⟩ := k
  exact ⟨g, rfl⟩

theorem State.cntPort_countsOnly (s : State) (p j k : Nat) : (s.cntPort p j k).countsOnly s := ⟨_, rfl⟩

theorem State.countsOnly.alike {t s : State} (h : t.countsOnly s) : t.alike s := by
  obtain ⟨g, rfl⟩ := h
  exact ⟨rfl, fun _ _ => rfl⟩

/-- R472: a count at a port moves its own counter. -/
theorem State.counter_cntPort (s : State) (p j k i : Nat) : (s.cntPort p j k).counter (512 * p + 8 * i) =
    if i = j then s.counter (512 * p + 8 * i) + BitVec.ofNat 64 k else s.counter (512 * p + 8 * i) := by
  rw [State.cntPort, State.counter_count]
  simp only [Nat.add_left_cancel_iff, Nat.mul_left_cancel_iff (show 0 < 8 by decide)]

/-- R484: the frame of `n` bytes counts in the window of what port `p` receives. -/
def State.rxSeen (s : State) (p n : Nat) : State :=
  { s with glass := { s.glass with rxWin := Tbl.upd (Tbl.const 0) s.glass.rxWin p (· + (n + 20)) } }

theorem State.rxSeen_countsOnly (s : State) (p n : Nat) : (s.rxSeen p n).countsOnly s := ⟨_, rfl⟩

@[simp] theorem State.rxSeen_counter (s : State) (p n o : Nat) : (s.rxSeen p n).counter o = s.counter o := rfl

/-- R323: a bad FCS counts. -/
def State.fcsNoted (s : State) (p : Nat) (f : List Byte) : State := if fcsGood f then s else s.cntPort p 3

theorem State.fcsNoted_countsOnly (s : State) (p : Nat) (f : List Byte) : (s.fcsNoted p f).countsOnly s := by
  unfold State.fcsNoted
  split
  · exact .refl s
  · exact s.cntPort_countsOnly _ _ _

theorem State.fcsNoted_counter (s : State) (p : Nat) (f : List Byte) {i : Nat} (hi : i ≠ 3) :
    (s.fcsNoted p f).counter (512 * p + 8 * i) = s.counter (512 * p + 8 * i) := by
  unfold State.fcsNoted
  split
  · rfl
  · rw [State.counter_cntPort, if_neg hi]

/-! ## Frames -/

/-- R326: a frame at a port that is up. -/
theorem exec_frameReceive_up {p : Port} {f : List Byte} {s : State} (hrun : s.halted = false)
    (hup : s.flag (Reg.beamPort p.val) Fld.beamPortLink = true) : exec (.frameReceive p f) s = .next (
      if f.length ≤ 63 then (s.rxSeen p.val f.length).cntPort p.val 2
      else if beAt f 12 2 = 0x8808 then (s.rxSeen p.val f.length).macControl p.val f
      else (s.rxSeen p.val f.length).dataFrame p.val f) := by
  show execFrameReceive p f s = _
  unfold execFrameReceive
  simp only [hrun, State.portIsDown, hup, Bool.not_true, Bool.or_self, Bool.false_eq_true, if_false]
  split_ifs <;> rfl

/-- R340: a port that is down receives nothing. -/
theorem exec_frameReceive_down {p : Port} {f : List Byte} {s : State}
    (hdown : ¬ s.flag (Reg.beamPort p.val) Fld.beamPortLink = true) : exec (.frameReceive p f) s = .next s := by
  show execFrameReceive p f s = _
  unfold execFrameReceive
  simp [State.portIsDown, hdown]

/-- R323, R326: the packet that a frame `g` makes in the crossing buffer of port `p`, from a frame `f` as received. -/
def State.arrival (s : State) (p : Nat) (f g : List Byte) (big : Bool) : Pkt :=
  { s.newPkt g p (p / 32) with
    timing := s.flag (portCfg p) Fld.selvPortCfgTimingClass, oversize := big, fcsOk := fcsGood f
    stamps := s.ingressStamps (s.sfld (Reg.timePort p) Fld.timePortIngressAdj) }

/-- R322: a port of the timing class drops a frame longer than MAX. -/
theorem State.dataFrame_timing {s : State} {p : Nat} {f : List Byte} (hlong : s.maxFrame p < f.length)
    (htc : s.flag (portCfg p) Fld.selvPortCfgTimingClass = true) :
    s.dataFrame p f = (s.fcsNoted p f).cntPort p 5 := by
  unfold State.dataFrame
  simp only [hlong, htc, and_self, if_true]
  rfl

/-- R31, R322, R472: what a frame that is neither a runt nor a MAC Control frame counts before it enters the buffer. -/
def State.frameCounted (s : State) (p : Nat) (f : List Byte) : State :=
  ((if s.maxFrame p < f.length then (s.fcsNoted p f).cntPort p 4 else s.fcsNoted p f).cntPort p 0).cntPort p 1
    (f.take (s.maxFrame p)).length

theorem State.frameCounted_countsOnly (s : State) (p : Nat) (f : List Byte) : (s.frameCounted p f).countsOnly s := by
  refine (State.cntPort_countsOnly _ _ _ _).trans ((State.cntPort_countsOnly _ _ _ _).trans ?_)
  split
  · exact (State.cntPort_countsOnly _ _ _ _).trans (s.fcsNoted_countsOnly p f)
  · exact s.fcsNoted_countsOnly p f

theorem State.frameCounted_counter (s : State) (p : Nat) (f : List Byte) {i : Nat} (hi : i ≠ 3) :
    (s.frameCounted p f).counter (512 * p + 8 * i) = s.counter (512 * p + 8 * i) +
      (if i = 0 then 1 else if i = 1 then BitVec.ofNat 64 (min (s.maxFrame p) f.length)
        else if i = 4 ∧ s.maxFrame p < f.length then 1 else 0) := by
  unfold State.frameCounted
  rw [State.counter_cntPort, State.counter_cntPort, List.length_take]
  by_cases hlong : s.maxFrame p < f.length
  · simp only [hlong, if_true, and_true, State.counter_cntPort, s.fcsNoted_counter p f hi]
    split_ifs <;> simp_all
  · simp only [hlong, if_false, and_false, s.fcsNoted_counter p f hi]
    split_ifs <;> simp_all

/-- R31, R322: any other frame counts, cut to MAX, and enters the crossing buffer where that has room. -/
theorem State.dataFrame_counted {s : State} {p : Nat} {f : List Byte}
    (hkept : ¬ (s.maxFrame p < f.length ∧ s.flag (portCfg p) Fld.selvPortCfgTimingClass = true)) :
    s.dataFrame p f = if s.crossingRoom p = true then (s.frameCounted p f).addPkt
      (s.arrival p f (f.take (s.maxFrame p)) (decide (s.maxFrame p < f.length)))
      else (s.frameCounted p f).cntPort p 9 := by
  have heq : s.dataFrame p f = let u := s.frameCounted p f
      if !u.crossingRoom p then u.cntPort p 9
      else u.addPkt { u.newPkt (f.take (s.maxFrame p)) p (p / 32) with
        timing := s.flag (portCfg p) Fld.selvPortCfgTimingClass, oversize := decide (s.maxFrame p < f.length)
        fcsOk := fcsGood f, stamps := u.ingressStamps (u.sfld (Reg.timePort p) Fld.timePortIngressAdj) } := by
    unfold State.dataFrame
    simp only [hkept, if_false]
    rfl
  obtain ⟨g, hg⟩ := s.frameCounted_countsOnly p f
  rw [heq, hg]
  show (if (!s.crossingRoom p) = true then _ else _) = _
  cases s.crossingRoom p <;> rfl

/-! ## Received pauses -/

/-- R326: when a pause of class `c`, received now in the frame `f` at port `p`, ends. -/
def State.pauseUntil (s : State) (p : Nat) (f : List Byte) (c : Nat) : Nat :=
  if beAt f (18 + 2 * c) 2 = 0 then 0 else s.now + quantaNs (beAt f (18 + 2 * c) 2) (s.portGbps p)

/-- R326: what a PFC frame does to one class. -/
def State.pauseClass (p : Nat) (f : List Byte) (s : State) (c : Nat) : State :=
  if (beAt f 16 2).testBit c then
    { s with beam := { s.beam with
        pauseEnd := Tbl.set (Tbl.const 0) s.beam.pauseEnd (8 * p + c) (s.pauseUntil p f c) } }
  else s

/-- R326: a list of classes, each paused or released as the frame says. -/
theorem State.foldl_pauseClass (p : Nat) (f : List Byte) (l : List Nat) (hl : ∀ c ∈ l, c < 8) (s : State) :
    ∃ m, l.foldl (State.pauseClass p f) s = { s with beam := { s.beam with pauseEnd := m } } ∧
      ∀ k, Tbl.get (Tbl.const 0) m k =
        if k / 8 = p ∧ k % 8 ∈ l ∧ (beAt f 16 2).testBit (k % 8) = true then s.pauseUntil p f (k % 8)
        else Tbl.get (Tbl.const 0) s.beam.pauseEnd k := by
  induction l generalizing s with
  | nil => exact ⟨s.beam.pauseEnd, rfl, fun k => by simp⟩
  | cons c l ih =>
    have hc : c < 8 := hl c (by simp)
    obtain ⟨m, hm, hget⟩ := ih (fun c hc => hl c (by simp [hc])) (State.pauseClass p f s c)
    refine ⟨m, ?_, fun k => ?_⟩
    · rw [List.foldl_cons, hm]
      unfold State.pauseClass
      split <;> rfl
    · have hsame : (State.pauseClass p f s c).pauseUntil p f (k % 8) = s.pauseUntil p f (k % 8) := by
        unfold State.pauseClass
        split <;> rfl
      have hat : k = 8 * p + c ↔ k / 8 = p ∧ k % 8 = c := by omega
      rw [hget, hsame]
      unfold State.pauseClass
      by_cases hbit : (beAt f 16 2).testBit c = true
      · simp only [hbit, if_true, Tbl.get_set, hat, List.mem_cons]
        by_cases hk : k / 8 = p ∧ k % 8 = c
        · obtain ⟨hp, rfl⟩ := hk
          simp [hp, hbit]
        · have : ¬ k / 8 = p ∨ ¬ k % 8 = c := by tauto
          rcases this with h | h <;> simp [h]
      · simp only [hbit, Bool.false_eq_true, if_false, List.mem_cons]
        by_cases hk : k % 8 = c
        · simp [hk, hbit]
        · simp [hk]

/-- R326: a PFC frame pauses and releases the classes it enables. -/
theorem State.pfcObey_eq (s : State) (p : Nat) (f : List Byte) :
    ∃ m, s.pfcObey p f = { s with beam := { s.beam with pauseEnd := m } } ∧ ∀ k, Tbl.get (Tbl.const 0) m k =
      if k / 8 = p ∧ (beAt f 16 2).testBit (k % 8) = true then s.pauseUntil p f (k % 8)
      else Tbl.get (Tbl.const 0) s.beam.pauseEnd k := by
  obtain ⟨m, hm, hget⟩ := State.foldl_pauseClass p f (List.range 8) (fun c hc => List.mem_range.1 hc) s
  refine ⟨m, hm, fun k => ?_⟩
  simp only [hget, List.mem_range, Nat.mod_lt k (show 8 > 0 by decide), true_and]

/-- R326: a MAC Control frame with a good FCS, within MAX: only a PFC frame at a port that obeys them does more than
count. -/
theorem State.macControl_good {s : State} {p : Nat} {f : List Byte} (hfcs : fcsGood f = true)
    (hlen : f.length ≤ s.maxFrame p) : ∃ u : State, u.countsOnly s ∧ s.macControl p f =
      if beAt f 14 2 = 0x0101 ∧ s.flag (Reg.beamPort p) Fld.beamPortPfcRxEn = true then u.pfcObey p f else u := by
  unfold State.macControl
  simp only [hfcs, Bool.not_true, Bool.false_eq_true, if_false, Nat.not_lt.2 hlen]
  by_cases hpfc : beAt f 14 2 = 0x0101
  · refine ⟨s.cntPort p 6, s.cntPort_countsOnly _ _ _, ?_⟩
    simp only [hpfc, true_and, if_true]
    rfl
  · by_cases hpause : beAt f 14 2 = 0x0001
    · exact ⟨s.cntPort p 7, s.cntPort_countsOnly _ _ _, by simp [hpause]⟩
    · exact ⟨s.cntPort p 8, s.cntPort_countsOnly _ _ _, by simp [hpfc, hpause]⟩

/-! ## FCS errors -/

/-- What the flow cache and its index are no part of: the Beam, memory and packets. -/
def State.besideWarp (s : State) := (s.beam, s.mem, s.pkts)

@[simp] theorem State.freeLine_besideWarp (s : State) (l : Nat) : (s.freeLine l).besideWarp = s.besideWarp := by
  unfold State.freeLine
  split
  · rfl
  · split <;> rfl

@[simp] theorem State.unpin_besideWarp (s : State) (l : Nat) (recirc : Bool) :
    (s.unpin l recirc).besideWarp = s.besideWarp := by
  unfold State.unpin
  split
  · rfl
  · split
    · exact s.freeLine_besideWarp l
    · rfl

@[simp] theorem State.freeSpare_besideWarp (s : State) (x : Pkt) : (s.freeSpare x).besideWarp = s.besideWarp := by
  unfold State.freeSpare
  split
  · exact s.freeLine_besideWarp _
  · rfl

@[simp] theorem State.freeRec_besideWarp (s : State) (r : Nat) : (s.freeRec r).besideWarp = s.besideWarp := by
  unfold State.freeRec
  split <;> rfl

/-- R148, R301: a running pick whose frame is found bad gives up what it holds, its reserved cells and its packet. -/
theorem State.dropRunning_eq (s : State) (p : Nat) (x : Pkt) : ∃ u : State, u.besideWarp = s.besideWarp ∧
    s.dropRunning p x = (u.returnResv x.loom x.resv).setPkt p none := by
  unfold State.dropRunning
  extract_lets reed waited spared held kept
  refine ⟨kept, ?_, rfl⟩
  have hwaited : waited.besideWarp = s.besideWarp := by
    unfold waited
    split
    · split
      · split
        · exact s.freeLine_besideWarp _
        · exact s.unpin_besideWarp _ _
      · rfl
    · exact s.freeRec_besideWarp _
    · rfl
    · rfl
  have hheld : held.besideWarp = s.besideWarp := by
    unfold held
    split
    · rw [State.unpin_besideWarp, State.freeSpare_besideWarp, hwaited]
    · rw [State.freeSpare_besideWarp, hwaited]
  unfold kept
  split
  · rw [State.unpin_besideWarp, hheld]
  · exact hheld

/-- R148: a pick that holds a head and waits for nothing gives up one pin of its line. -/
theorem State.dropRunning_held {s : State} {x : Pkt} {h : Held} (p : Nat) (hwait : x.pick.wait = .none)
    (hspare : x.pick.spare = none) (hkept : x.kept = none) (hheld : x.pick.held = some h) :
    s.dropRunning p x = ((s.unpin h.line false).returnResv x.loom x.resv).setPkt p none := by
  simp only [State.dropRunning, State.freeSpare, hwait, hspare, hkept, hheld]

/-- R156: a pin of a line whose head stays goes. -/
theorem State.unpin_attached {s : State} {i : Nat} {l : CLine} (hl : s.line i = some l) (hatt : l.detached = false) :
    s.unpin i false = s.setLine i (some { l with pins := l.pins - 1 }) := by
  simp [State.unpin, hl, hatt, b2n]

theorem State.line_setLine (s : State) (i : Nat) (c : Option CLine) (k : Nat) :
    (s.setLine i c).line k = if k = i then c else s.line k := Tbl.get_set (Tbl.const none) s.warp.cache i c k

/-- R323: a recirculated or handed packet found bad leaves memory and other packets. -/
theorem State.dropKept_eq (s : State) (p : Nat) (x : Pkt) : ∃ u : State, u.mem = s.mem ∧ u.pkts = s.pkts ∧
    s.dropKept p x = u.setPkt p none := by
  unfold State.dropKept
  extract_lets unpinned returned i
  have hunpinned : unpinned.besideWarp = s.besideWarp := by
    unfold unpinned
    split
    · exact s.unpin_besideWarp _ _
    · rfl
  obtain ⟨r, hr⟩ := unpinned.unsent_regsOnly x
  refine ⟨_, ?_, ?_, rfl⟩
  · show (unpinned.unsent x).mem = s.mem
    rw [hr]
    exact congrArg (fun e => e.2.1) hunpinned
  · show (unpinned.unsent x).pkts = s.pkts
    rw [hr]
    exact congrArg (fun e => e.2.2) hunpinned

/-! ## Copies withdrawn -/

theorem Tbl.get_of_not_listed {α : Type} (d : Nat → α) (m : Tbl α) {k : Nat} (h : k ∉ m.map (·.1)) :
    Tbl.get d m k = d k := by
  induction m with
  | nil => rfl
  | cons e m ih =>
    simp only [List.map_cons, List.mem_cons, not_or] at h
    rw [Tbl.get, if_neg (Ne.symm h.1), ih h.2]

theorem State.queue_setQueue (s : State) (i : Nat) (l : List Copy) (k : Nat) :
    (s.setQueue i l).queue k = if k = i then l else s.queue k := Tbl.get_set (Tbl.const []) s.beam.q i l k

/-- The copies of a list that are of other packets than `p`. -/
def copiesBut (p : Nat) (l : List Copy) : List Copy := l.filter fun c => c.pkt != p

theorem mem_copiesBut {p : Nat} {l : List Copy} {c : Copy} (h : c ∈ copiesBut p l) : c.pkt ≠ p := by
  simpa using (List.mem_filter.1 h).2

/-- Queues of which copies of `p` have been taken hold none, and other queues stay. -/
theorem State.queue_foldl_copiesBut (p : Nat) (l : List Nat) (s : State) (k : Nat) :
    (l.foldl (fun (s : State) i => s.setQueue i (copiesBut p (s.queue i))) s).queue k =
      if k ∈ l then copiesBut p (s.queue k) else s.queue k := by
  induction l generalizing s with
  | nil => simp
  | cons i l ih =>
    have htwice (l : List Copy) : copiesBut p (copiesBut p l) = copiesBut p l := by simp [copiesBut]
    rw [List.foldl_cons, ih, State.queue_setQueue]
    by_cases hki : k = i
    · subst hki
      simp [htwice]
    · simp [hki]

/-- R323: after copies of packet `p` have been withdrawn, no queue holds one; memory stays. -/
theorem State.withdrawCopies_spec (s : State) (p : Nat) :
    (s.withdrawCopies p).mem = s.mem ∧ ∀ q, ∀ d ∈ (s.withdrawCopies p).queue q, d.pkt ≠ p := by
  unfold State.withdrawCopies
  extract_lets keep n qs rs cs emptied freed uncalled
  -- memory and the queues do not change once the queues are done
  have hrest : ∀ l : List Nat, ((l.foldl (fun (s : State) _ => s.dropRef p) uncalled).mem,
      (l.foldl (fun (s : State) _ => s.dropRef p) uncalled).beam.q) = (emptied.mem, emptied.beam.q) := by
    intro l
    have hcopies := foldl_same (fun s : State => (s.mem, s.beam.q)) (fun s (_ : Nat) => s.dropRef p)
      (fun s _ => Prod.ext (s.dropRef_accountsOnly p).mem (s.dropRef_accountsOnly p).q) l uncalled
    have hcalled : (uncalled.mem, uncalled.beam.q) = (freed.mem, freed.beam.q) := by
      refine foldl_same (fun s : State => (s.mem, s.beam.q)) _ (fun s i => ?_) cs freed
      exact foldl_same (fun s : State => (s.mem, s.beam.q)) (fun s (c : Called) => s.callGone (queuePort c.queue))
        (fun _ _ => rfl) _ _
    have hresidue : (freed.mem, freed.beam.q) = (emptied.mem, emptied.beam.q) := by
      refine foldl_same (fun s : State => (s.mem, s.beam.q)) _ (fun s i => ?_) rs emptied
      rfl
    exact hcopies.trans (hcalled.trans hresidue)
  have hmem : emptied.mem = s.mem := by
    refine foldl_same (fun s : State => s.mem) _ (fun s i => ?_) qs s
    rfl
  obtain ⟨hm, hq⟩ := Prod.mk.inj (hrest (List.range n))
  refine ⟨hm.trans hmem, fun q d hd => ?_⟩
  unfold State.queue at hd
  rw [hq] at hd
  change d ∈ emptied.queue q at hd
  have hqueue : emptied.queue q = if q ∈ qs then copiesBut p (s.queue q) else s.queue q :=
    State.queue_foldl_copiesBut p qs s q
  rw [hqueue] at hd
  split at hd
  · exact mem_copiesBut hd
  · next hlisted =>
    have hempty : s.queue q = [] := Tbl.get_of_not_listed (Tbl.const []) s.beam.q hlisted
    rw [hempty] at hd
    exact absurd hd List.not_mem_nil

/-- R323: a stored packet found bad: no queue holds a copy of it. -/
theorem State.dropStored_spec (s : State) (p : Nat) (x : Pkt) :
    (s.dropStored p x).mem = s.mem ∧ ∀ q, ∀ d ∈ (s.dropStored p x).queue q, d.pkt ≠ p := by
  unfold State.dropStored
  refine ⟨(State.withdrawCopies_spec _ p).1.trans ?_, (State.withdrawCopies_spec _ p).2⟩
  dsimp only
  split
  · rfl
  · obtain ⟨r, hr⟩ := s.unsent_regsOnly x
    rw [hr]

/-! ## FCS_ERROR -/

section
variable {p : PktId} {x : Pkt} {s : State} (hrun : s.halted = false) (hx : s.pkt? p = some x)
include hrun hx

theorem exec_fcsError_written (hw : x.written = true) : exec (.fcsError p) s = .next s := by
  show execFcsError p s = _
  simp [execFcsError, unlessHalted, hrun, hx, hw]

theorem exec_fcsError_parsed (hw : x.written = false) (hplace : x.place = .crossing ∨ x.place = .shedInput) :
    exec (.fcsError p) s = .next (s.setPkt p none) := by
  show execFcsError p s = _
  rcases hplace with hplace | hplace <;> simp [execFcsError, unlessHalted, hrun, hx, hw, hplace]

theorem exec_fcsError_running (hw : x.written = false) (hplace : x.place = .running) :
    exec (.fcsError p) s = .next (s.dropRunning p x) := by
  show execFcsError p s = _
  simp [execFcsError, unlessHalted, hrun, hx, hw, hplace]

theorem exec_fcsError_kept (hw : x.written = false) (hplace : x.place = .handed ∨ x.place = .recirc) :
    exec (.fcsError p) s = .next (s.dropKept p x) := by
  show execFcsError p s = _
  rcases hplace with hplace | hplace <;> simp [execFcsError, unlessHalted, hrun, hx, hw, hplace]

theorem exec_fcsError_stored (hw : x.written = false) (hplace : x.place = .stored) :
    exec (.fcsError p) s = .next (s.dropStored p x) := by
  show execFcsError p s = _
  simp [execFcsError, unlessHalted, hrun, hx, hw, hplace]

/-- R323: a packet found bad before its copies are stored leaves the device; other packets and memory stay. -/
theorem exec_fcsError_gone (hw : x.written = false) (hplace : x.place ≠ .stored) :
    ∃ t, exec (.fcsError p) s = .next t ∧ t.pkt? p = none ∧ t.mem = s.mem ∧ (∀ q, q ≠ p → t.pkt? q = s.pkt? q) ∧
      (x.place = .running → t.bankUsed x.loom = s.bankUsed x.loom - x.resv ∧
        t.beam.recircUsed = s.beam.recircUsed - x.resv) := by
  have hpkts (u : State) (h : u.pkts = s.pkts) (q : Nat) (hq : q ≠ p) : (u.setPkt p none).pkt? q = s.pkt? q := by
    rw [State.pkt_setPkt_other _ _ _ hq, State.pkt?, h]
    rfl
  by_cases hparsed : x.place = .crossing ∨ x.place = .shedInput
  · exact ⟨_, exec_fcsError_parsed hrun hx hw hparsed, State.pkt_setPkt _ _ _, rfl, hpkts s rfl,
      fun h => by simp [h] at hparsed⟩
  by_cases hkept : x.place = .handed ∨ x.place = .recirc
  · obtain ⟨u, hmem, hsame, hu⟩ := s.dropKept_eq p x
    exact ⟨_, hu ▸ exec_fcsError_kept hrun hx hw hkept, State.pkt_setPkt _ _ _, hmem, hpkts u hsame,
      fun h => by simp [h] at hkept⟩
  have hrunning : x.place = .running := by
    cases h : x.place <;> simp_all
  obtain ⟨u, hsame, hu⟩ := s.dropRunning_eq p x
  rw [exec_fcsError_running hrun hx hw hrunning, hu]
  obtain ⟨hbeam, hrest⟩ := Prod.mk.inj hsame
  obtain ⟨hmem, hpkt⟩ := Prod.mk.inj hrest
  refine ⟨_, rfl, State.pkt_setPkt _ _ _, hmem, hpkts (u.returnResv x.loom x.resv) hpkt, fun _ => ⟨?_, ?_⟩⟩
  · rw [State.bankUsed, State.bankUsed, ← hbeam]
    exact Tbl.get_set_same _ _ _ _
  · rw [← hbeam]
    rfl

end

/-! ## The statement -/

/-- R31, R322, R323, R340: a frame that is no MAC Control frame. -/
theorem frameReceive_data (p : Port) (f : List Byte) (s : State) (hrun : s.halted = false)
    (hup : s.flag (Reg.beamPort p.val) Fld.beamPortLink = true) (hlong : 64 ≤ f.length) (htype : beAt f 12 2 ≠ 0x8808) :
    exec (.frameReceive p f) s = .next ((s.rxSeen p.val f.length).dataFrame p.val f) := by
  rw [exec_frameReceive_up hrun hup, if_neg (by omega), if_neg htype]

section
variable {u s : State} (h : u.countsOnly s)
include h

theorem State.countsOnly.flag (a : Nat) (f : Fld) : u.flag a f = s.flag a f := by
  obtain ⟨g, rfl⟩ := h
  rfl

theorem State.countsOnly.maxFrame (p : Nat) : u.maxFrame p = s.maxFrame p := by
  obtain ⟨g, rfl⟩ := h
  rfl

theorem State.countsOnly.crossingRoom (p : Nat) : u.crossingRoom p = s.crossingRoom p := by
  obtain ⟨g, rfl⟩ := h
  rfl

theorem State.countsOnly.arrival (p : Nat) (f g : List Byte) (big : Bool) : u.arrival p f g big = s.arrival p f g big := by
  obtain ⟨g, rfl⟩ := h
  rfl

end

@[simp] theorem State.addPkt_counter (s : State) (x : Pkt) (o : Nat) : (s.addPkt x).counter o = s.counter o := rfl

/-- A packet enters the same way where only counts differ. -/
theorem State.countsOnly.addPkt_alike {u s : State} (h : u.countsOnly s) (x : Pkt) : (u.addPkt x).alike (s.addPkt x) := by
  obtain ⟨g, rfl⟩ := h
  exact ⟨rfl, fun _ _ => rfl⟩

/-- R31, R322, R472: a frame that enters its crossing buffer, and what it counts. -/
theorem frameReceive_enters {p : Port} {f : List Byte} {s : State} (hrun : s.halted = false)
    (hup : s.flag (Reg.beamPort p.val) Fld.beamPortLink = true) (hlong : 64 ≤ f.length) (htype : beAt f 12 2 ≠ 0x8808)
    (hkept : ¬ (s.maxFrame p.val < f.length ∧ s.flag (portCfg p.val) Fld.selvPortCfgTimingClass = true))
    (hroom : s.crossingRoom p.val = true) : ∃ t, exec (.frameReceive p f) s = .next t ∧
      t.alike (s.addPkt (s.arrival p.val f (f.take (s.maxFrame p.val)) (decide (s.maxFrame p.val < f.length)))) ∧
      ∀ i, i ≠ 3 → t.counter (512 * p.val + 8 * i) = s.counter (512 * p.val + 8 * i) +
        (if i = 0 then 1 else if i = 1 then BitVec.ofNat 64 (min (s.maxFrame p.val) f.length)
          else if i = 4 ∧ s.maxFrame p.val < f.length then 1 else 0) := by
  have hseen := s.rxSeen_countsOnly p.val f.length
  have hcounted := fun i (hi : i ≠ 3) => State.frameCounted_counter (s.rxSeen p.val f.length) p.val f hi
  rw [← hseen.maxFrame, ← hseen.flag] at hkept
  rw [frameReceive_data p f s hrun hup hlong htype, State.dataFrame_counted hkept, hseen.crossingRoom, if_pos hroom,
    hseen.arrival]
  rw [hseen.maxFrame] at hcounted ⊢
  refine ⟨_, rfl, ((State.frameCounted_countsOnly _ _ _).trans hseen).addPkt_alike _, fun i hi => ?_⟩
  rw [State.addPkt_counter, hcounted i hi, State.rxSeen_counter]

/-- R31: a frame that finds no room is dropped and counted. -/
theorem frameReceive_noRoom {p : Port} {f : List Byte} {s : State} (hrun : s.halted = false)
    (hup : s.flag (Reg.beamPort p.val) Fld.beamPortLink = true) (hlong : 64 ≤ f.length) (htype : beAt f 12 2 ≠ 0x8808)
    (hkept : ¬ (s.maxFrame p.val < f.length ∧ s.flag (portCfg p.val) Fld.selvPortCfgTimingClass = true))
    (hroom : s.crossingRoom p.val = false) : ∃ t, exec (.frameReceive p f) s = .next t ∧ t.alike s ∧
      t.counter (512 * p.val + 8 * 9) = s.counter (512 * p.val + 8 * 9) + BitVec.ofNat 64 1 := by
  have hseen := s.rxSeen_countsOnly p.val f.length
  rw [← hseen.maxFrame, ← hseen.flag] at hkept
  rw [frameReceive_data p f s hrun hup hlong htype, State.dataFrame_counted hkept, hseen.crossingRoom,
    if_neg (by simp [hroom])]
  refine ⟨_, rfl, ?_, ?_⟩
  · exact ((State.cntPort_countsOnly _ _ _ _).trans ((State.frameCounted_countsOnly _ _ _).trans hseen)).alike
  · rw [State.counter_cntPort, if_pos rfl, State.frameCounted_counter _ _ _ (by decide)]
    simp

/-- R326, R293: a PFC frame that arrives. -/
theorem frameReceive_pause {p : Port} {f : List Byte} {s : State} (hrun : s.halted = false)
    (hup : s.flag (Reg.beamPort p.val) Fld.beamPortLink = true) (hlong : 64 ≤ f.length)
    (hmax : f.length ≤ s.maxFrame p.val) (hfcs : fcsGood f = true) (htype : beAt f 12 2 = 0x8808) :
    ∃ t, exec (.frameReceive p f) s = .next t ∧ t.pkts = s.pkts ∧ t.mem = s.mem ∧
      ∀ k, Tbl.get (Tbl.const 0) t.beam.pauseEnd k =
        if beAt f 14 2 = 0x0101 ∧ s.flag (Reg.beamPort p.val) Fld.beamPortPfcRxEn = true ∧ k / 8 = p.val ∧
          (beAt f 16 2).testBit (k % 8) = true then s.pauseUntil p.val f (k % 8)
        else Tbl.get (Tbl.const 0) s.beam.pauseEnd k := by
  have hseen := s.rxSeen_countsOnly p.val f.length
  obtain ⟨u, hcounts, hmac⟩ := State.macControl_good (p := p.val) hfcs (hmax.trans_eq (hseen.maxFrame p.val).symm)
  obtain ⟨g, hu⟩ := hcounts.trans hseen
  rw [exec_frameReceive_up hrun hup, if_neg (by omega), if_pos htype, hmac, hseen.flag]
  refine ⟨_, rfl, ?_⟩
  by_cases hobey : beAt f 14 2 = 0x0101 ∧ s.flag (Reg.beamPort p.val) Fld.beamPortPfcRxEn = true
  · obtain ⟨m, hm, hget⟩ := u.pfcObey_eq p.val f
    rw [if_pos hobey, hm]
    subst hu
    refine ⟨rfl, rfl, fun k => (hget k).trans ?_⟩
    simp only [hobey, true_and]
    rfl
  · rw [if_neg hobey]
    subst hu
    refine ⟨rfl, rfl, fun k => (if_neg ?_).symm⟩
    rintro ⟨hop, hen, -⟩
    exact hobey ⟨hop, hen⟩

/-- Settles O21: by the kinds of frame that arrive, the classes of a PFC frame (`State.pfcObey_eq`), and the places
of a packet whose FCS is bad. -/
theorem framesArrive : Obligations.FramesArrive := by
  unfold Obligations.FramesArrive
  refine ⟨?_, ⟨?_, ?_⟩, ?_⟩
  · intro p f s hrun c up mx tc data bump enters
    refine ⟨exec_frameReceive_down, fun hup hrunt => ?_, fun hup ⟨hlong, htype⟩ hmax hroom => ?_,
      fun hup ⟨hlong, htype⟩ hmax htc hroom => ?_, fun hup ⟨hlong, htype⟩ hmax htc => ?_,
      fun hup ⟨hlong, htype⟩ hkept hroom => ?_⟩
    · refine ⟨(s.rxSeen p.val f.length).cntPort p.val 2, ?_, ?_, ?_⟩
      · rw [exec_frameReceive_up hrun hup, if_pos (by omega)]
      · exact ((State.cntPort_countsOnly _ _ _ _).trans (s.rxSeen_countsOnly _ _)).alike
      · exact (State.counter_cntPort _ _ _ _ 2).trans (if_pos rfl)
    · obtain ⟨t, ht, halike, hcount⟩ := frameReceive_enters hrun hup hlong htype (fun h => by omega) hroom
      rw [List.take_of_length_le hmax, decide_eq_false (Nat.not_lt.2 hmax)] at halike
      have hmin : min (s.maxFrame p.val) f.length = f.length := Nat.min_eq_right hmax
      exact ⟨t, ht, halike, hcount 0 (by decide), (hcount 1 (by decide)).trans (by simp [hmin])⟩
    · obtain ⟨t, ht, halike, hcount⟩ := frameReceive_enters hrun hup hlong htype (fun h => by simp [tc, h.2] at htc) hroom
      rw [decide_eq_true hmax] at halike
      have hmin : min (s.maxFrame p.val) f.length = mx := Nat.min_eq_left hmax.le
      have hlonger : s.maxFrame p.val < f.length := hmax
      exact ⟨t, ht, halike, (hcount 4 (by decide)).trans (by simp [hlonger]), hcount 0 (by decide),
        (hcount 1 (by decide)).trans (by simp [hmin])⟩
    · have hseen := s.rxSeen_countsOnly p.val f.length
      rw [frameReceive_data p f s hrun hup hlong htype, State.dataFrame_timing (by rwa [hseen.maxFrame])
        (by rwa [hseen.flag])]
      refine ⟨_, rfl, ?_, ?_, ?_⟩
      · exact ((State.cntPort_countsOnly _ _ _ _).trans ((State.fcsNoted_countsOnly _ _ _).trans
          (s.rxSeen_countsOnly _ _))).alike
      · exact (State.counter_cntPort _ _ _ _ 5).trans (by rw [if_pos rfl, State.fcsNoted_counter _ _ _ (by decide)]; rfl)
      · refine (State.counter_cntPort _ _ _ _ 0).trans ?_
        rw [if_neg (by decide), State.fcsNoted_counter _ _ _ (by decide)]
        simp
    · exact frameReceive_noRoom hrun hup hlong htype (fun h => by simp [tc] at hkept; grind) hroom
  · intro p f s hrun hup hlong hmax hfcs htype
    exact frameReceive_pause hrun hup hlong hmax hfcs htype
  · intro p k s hrun e
    constructor
    · intro hlater
      show execPfcPauseExpire p k s = _
      simp only [execPfcPauseExpire, unlessHalted, hrun, Bool.false_eq_true, if_false]
      exact if_neg (Nat.not_le.2 hlater)
    · intro hover
      show execPfcPauseExpire p k s = _
      simp only [execPfcPauseExpire, unlessHalted, hrun, Bool.false_eq_true, if_false]
      exact if_pos hover
  · intro p x s hrun hx
    refine ⟨exec_fcsError_written hrun hx, exec_fcsError_parsed hrun hx, exec_fcsError_gone hrun hx,
      fun h l hw hplace hwait hspare hkept hheld hl hatt => ?_, fun hw hplace => ?_⟩
    · refine ⟨_, exec_fcsError_running hrun hx hw hplace, ?_⟩
      rw [State.dropRunning_held _ hwait hspare hkept hheld, State.unpin_attached hl hatt]
      exact ⟨(State.line_setLine _ _ _ _).trans (if_pos rfl), fun k hk => (State.line_setLine _ _ _ _).trans (if_neg hk)⟩
    · exact ⟨_, exec_fcsError_stored hrun hx hw hplace, s.dropStored_spec p x⟩

end Sys2Proof.Machine
end

section
/-! PROOF. Packets that enter drafts (PacketsEnterDrafts): the Heddle, the start of picks, and extraction commands. -/

namespace Sys2Proof.Machine

/-! ## Events leave the counters of ports and looms -/

/-- R478: the event counters stand at the end of the live image. -/
theorem State.evAdd_counter (s : State) (i k : Nat) {o : Nat} (ho : o < 0x320000) :
    (s.evAdd i k).counter o = s.counter o := by
  unfold State.evAdd
  extract_lets off v g s1 off1
  have hset : s1.counter o = s.counter o := Tbl.get_set_other (Tbl.const 0) s.glass.live _ (by omega)
  split
  · exact hset
  · split
    · split
      · exact (Tbl.get_set_other (Tbl.const 0) s1.glass.live _ (by omega)).trans hset
      · exact hset
    · split <;> exact hset

theorem State.event_counter (s : State) (e : GEvent) {o : Nat} (ho : o < 0x320000) :
    (s.event e).counter o = s.counter o := by
  refine foldl_same (fun s : State => s.counter o) _ (fun s i => ?_) _ s
  show (if _ then _ else _ : State).counter o = s.counter o
  split
  · exact s.evAdd_counter i _ ho
  · rfl

/-! ## Picks that start -/

theorem State.pickStarts_alike (s : State) (x : Pkt) : (s.pickStarts x).alike s :=
  State.alike_trans (State.event_alike _ _) (State.count_alike _ _ _)

/-- R472: the start of a first pick counts in its loom. -/
theorem State.pickStarts_counter (s : State) {x : Pkt} (hfirst : x.pick.pick2 = false) (hloom : x.loom < 16) :
    (s.pickStarts x).loomCounter x.loom 64 = s.loomCounter x.loom 64 + 1 := by
  unfold State.loomCounter State.pickStarts
  rw [State.event_counter _ _ (by omega), hfirst]
  exact (State.counter_count _ _ _ _).trans (if_pos rfl)

/-- R73: the entry the pick of `x` begins at. -/
def State.entryOf (s : State) (x : Pkt) : Option Nat :=
  s.draftEntry x.pick.seq x.pick.bank (b2n x.pick.pick2 * 256 + x.profile)

theorem State.enterDraft_some {s : State} {p : Nat} {x : Pkt} {e : Nat} (hx : s.pkt? p = some x)
    (he : s.entryOf x = some e) : s.enterDraft p =
      .ok (s.setPkt p (some { x with place := .running, pick := { x.pick with pc := e, issueNs := s.now } })) := by
  unfold State.entryOf at he
  simp only [State.enterDraft, hx, he]

theorem State.enterDraft_none {s : State} {p : Nat} {x : Pkt} (hx : s.pkt? p = some x) (he : s.entryOf x = none) :
    s.enterDraft p = s.endPickDrop p 52 := by
  unfold State.entryOf at he
  simp only [State.enterDraft, hx, he]

theorem State.setPkt_entryOf (s : State) (p : Nat) (y : Option Pkt) (x : Pkt) : (s.setPkt p y).entryOf x = s.entryOf x := by
  unfold State.entryOf State.draftEntry
  simp only [State.setPkt_ple, State.setPkt_draftLen]

theorem State.alike.entryOf {t u : State} (h : t.alike u) (x : Pkt) : t.entryOf x = u.entryOf x := by
  unfold State.entryOf State.draftEntry
  simp only [h.draftLen, ← State.bare_ple t, h.1, State.bare_ple u]

/-! ## HEDDLE_PARSE -/

theorem exec_heddleParse_off {p : PktId} {x : Pkt} {s : State} (hx : s.pkt? p = some x) (hoff : s.loomOff x.loom = true) :
    exec (.heddleParse p) s = .next s := by
  show execHeddleParse p s = _
  simp [execHeddleParse, hx, hoff]

/-- R72, R107: packet `x` as the Heddle parses it under the bank and the batten sequence number now in effect. -/
def State.parsedNow (s : State) (x : Pkt) : Pkt :=
  s.parse s.bat.seq (if x.injected then s.pfld s.bat.seq (Reg.loomHeddleCtl x.loom) Fld.loomHeddleCtlClassInj
    else s.portClass s.bat.seq x.inPort)
    { x with pick := pickAt s (s.flag Reg.beamDraftCtl Fld.beamDraftCtlActiveBank) false }

theorem State.parse_loom (s : State) (seq : BitVec 32) (c : Nat) (x : Pkt) : (s.parse seq c x).loom = x.loom := by
  unfold State.parse
  with_reducible rfl

theorem State.parse_pick (s : State) (seq : BitVec 32) (c : Nat) (x : Pkt) : (s.parse seq c x).pick = x.pick := by
  unfold State.parse
  with_reducible rfl

theorem State.parsedNow_loom (s : State) (x : Pkt) : (s.parsedNow x).loom = x.loom := State.parse_loom _ _ _ _

theorem State.parsedNow_pick2 (s : State) (x : Pkt) : (s.parsedNow x).pick.pick2 = false :=
  congrArg Pick.pick2 (State.parse_pick _ _ _ _)

/-- The packets in a place are packets of the table. -/
theorem State.mem_pktsAt {s : State} {f : Pkt → Bool} {e : Nat × Pkt} (h : e ∈ s.pktsAt f) :
    (e.1, some e.2) ∈ s.pkts ∧ f e.2 = true := by
  obtain ⟨⟨q, y⟩, hmem, hy⟩ := List.mem_filterMap.1 h
  cases y with
  | none => simp at hy
  | some y =>
    simp only [Option.ite_none_right_eq_some, Option.some.injEq] at hy
    obtain ⟨hf, rfl⟩ := hy
    exact ⟨hmem, hf⟩

/-- R72: frames of one port are taken in order of arrival. -/
theorem State.none_before {s : State} {p : Nat} {x : Pkt} (htable : ∀ e ∈ s.pkts, s.pkt? e.1 = e.2)
    (hfirst : ∀ q y, s.pkt? q = some y → y.place = .crossing → y.inPort = x.inPort → y.loom = x.loom → p ≤ q) :
    ((s.pktsAt fun y => y.place == .crossing && y.inPort == x.inPort && y.loom == x.loom).any fun e => e.1 < p) =
      false := by
  rw [List.any_eq_false]
  intro e he
  obtain ⟨hmem, hplace⟩ := State.mem_pktsAt he
  simp only [Bool.and_eq_true, beq_iff_eq] at hplace
  obtain ⟨⟨hcrossing, hport⟩, hloom⟩ := hplace
  simpa using hfirst e.1 e.2 (htable _ hmem) hcrossing hport hloom

/-- R107, R116: the Heddle takes the oldest frame of a port. -/
theorem exec_heddleParse_takes {p : PktId} {x : Pkt} {s : State} (hrun : s.halted = false) (hx : s.pkt? p = some x)
    (hplace : x.place = .crossing) (hheld : s.heddleHeld x.loom = false) (hon : s.loomOff x.loom = false)
    (hfirst : ((s.pktsAt fun y => y.place == .crossing && y.inPort == x.inPort && y.loom == x.loom).any
      fun e => e.1 < p) = false) : exec (.heddleParse p) s =
      .next (({ s with nextOrder := s.nextOrder + 1 }.setPkt p (some { s.parsedNow x with place := .shedInput })).pickStarts
        (s.parsedNow x)) := by
  show execHeddleParse p s = _
  unfold execHeddleParse
  rw [hx]
  refine (if_neg ?_).trans ?_
  · simp [hrun, hplace, hheld, hon, hfirst]
  · rfl

/-! ## PICK_START -/

theorem exec_pickStart_off {p : PktId} {x : Pkt} {s : State} (hx : s.pkt? p = some x) (hoff : s.loomOff x.loom = true) :
    exec (.pickStart p) s = .next s := by
  show execPickStart p s = _
  simp [execPickStart, hx, hoff]

/-- R73: a parsed packet takes a free context. -/
theorem exec_pickStart_enters {p : PktId} {x : Pkt} {s : State} (hrun : s.halted = false) (hx : s.pkt? p = some x)
    (hplace : x.place = .shedInput) (hon : s.loomOff x.loom = false)
    (hfree : (s.pktsAt fun y =>
      y.place == .running && y.loom == x.loom && y.shed == x.shed && !y.pick.pick2).length < 1024) :
    exec (.pickStart p) s = toOut (s.enterDraft p) := by
  show execPickStart p s = _
  unfold execPickStart
  rw [hx]
  refine if_neg ?_
  simp [hrun, hplace, hon, Nat.not_le.2 hfree]

/-! ## RECIRC_RETURN -/

/-- R79, R116: packet `x` as it is parsed for its second pick, under the bank of its first. -/
def State.parsedAgain (s : State) (x : Pkt) : Pkt :=
  s.parse s.bat.seq (s.pfld s.bat.seq (Reg.loomHeddleCtl x.loom) Fld.loomHeddleCtlClassRecirc)
    { x with pick := pickAt s x.pick.bank true }

/-- What a pick reads depends on the memory and the batten alone. -/
theorem State.ple_congr {s t : State} (hm : t.mem = s.mem) (hb : t.bat = s.bat) (seq : BitVec 32) (a n : Nat) :
    t.ple seq a n = s.ple seq a n := by
  have hbyte (a : Nat) : t.pbyte seq a = s.pbyte seq a := by
    unfold State.pbyte State.older State.byte
    rw [hm, hb]
  have hbytes : t.pbytes seq a n = s.pbytes seq a n := by
    induction n generalizing a with
    | zero => rfl
    | succ n ih => simp only [State.pbytes, ih, hbyte]
  exact congrArg ofLE hbytes

theorem State.setQueue_parse (s : State) (i : Nat) (l : List Copy) (seq : BitVec 32) (c : Nat) (x : Pkt) :
    (s.setQueue i l).parse seq c x = s.parse seq c x := by
  have hfld : ∀ a f, (s.setQueue i l).pfld seq a f = s.pfld seq a f := fun _ _ => rfl
  unfold State.parse State.startStep
  have hple : ∀ a n, (s.setQueue i l).ple seq a n = s.ple seq a n := fun a n =>
    State.ple_congr (s := s) (t := s.setQueue i l) rfl rfl seq a n
  simp only [hple, hfld]

section
variable {n : LoomId} {c : Copy} {rest : List Copy} {x : Pkt} {s : State} (hrun : s.halted = false)
  (hon : s.loomOff n.val = false) (hq : s.queue (10256 + n.val) = c :: rest) (hx : s.pkt? c.pkt = some x)
include hrun hon hq hx

/-- R28: a packet that is not whole stays in its queue. -/
theorem exec_recircReturn_unwritten (hw : x.written = false) : exec (.recircReturn ⟨n, []⟩) s = .next s := by
  show execRecircReturn ⟨n, []⟩ s = _
  simp [execRecircReturn, recircQ, hq, hrun, hon, hx, hw]

/-- R79, R116: a whole one is parsed afresh and enters its draft. -/
theorem exec_recircReturn_written (hw : x.written = true) : exec (.recircReturn ⟨n, []⟩) s =
    toOut ((({ s.setQueue (10256 + n.val) rest with nextOrder := s.nextOrder + 1 }.setPkt c.pkt
      (some { s.parsedAgain x with place := .running })).pickStarts (s.parsedAgain x)).enterDraft c.pkt) := by
  have hparse : (s.setQueue (recircQ n.val) rest).parsedAgain x = s.parsedAgain x := State.setQueue_parse _ _ _ _ _ _
  rw [← hparse]
  show execRecircReturn ⟨n, []⟩ s = _
  unfold execRecircReturn
  dsimp only
  rw [show s.queue (recircQ n.val) = c :: rest from hq]
  refine (if_neg ?_).trans ?_
  · simp [hrun, hon]
  · rw [hx]
    refine (if_neg ?_).trans ?_
    · simp [hw]
    · rfl

/-- R79: its second pick starts at its entry under the bank of its first. -/
theorem recircReturn_becomes (hw : x.written = true) {w : Nat}
    (hentry : s.draftEntry s.bat.seq x.pick.bank (256 + (s.parsedAgain x).profile) = some w) :
    becomes (.recircReturn ⟨n, []⟩) s ({ s.setQueue (10256 + n.val) rest with nextOrder := s.nextOrder + 1 }.setPkt c.pkt
      (some { s.parsedAgain x with
        place := .running, pick := { (s.parsedAgain x).pick with pc := w, issueNs := s.now } })) := by
  have hexec := exec_recircReturn_written hrun hon hq hx hw
  have hpick : (s.parsedAgain x).pick = pickAt s x.pick.bank true := State.parse_pick _ _ _ _
  generalize s.parsedAgain x = y at hentry hexec hpick ⊢
  let s1 : State := { s.setQueue (10256 + n.val) rest with nextOrder := s.nextOrder + 1 }
  let y1 : Pkt := { y with place := .running }
  have halike : ((s1.setPkt c.pkt (some y1)).pickStarts y).alike (s1.setPkt c.pkt (some y1)) := State.pickStarts_alike _ _
  have hy : ((s1.setPkt c.pkt (some y1)).pickStarts y).pkt? c.pkt = some y1 :=
    (halike.pkt _).trans (State.pkt_setPkt _ _ _)
  have hat : ((s1.setPkt c.pkt (some y1)).pickStarts y).entryOf y1 = some w := by
    rw [halike.entryOf, State.setPkt_entryOf, ← hentry]
    have hple (a k : Nat) : s1.ple s.bat.seq a k = s.ple s.bat.seq a k :=
      State.ple_congr (s := s) (t := s1) rfl rfl _ _ _
    simp only [State.entryOf, State.draftEntry, State.draftLen, y1, hpick, pickAt, hple, b2n, if_true, Nat.one_mul]
    congr
  rw [State.enterDraft_some hy hat] at hexec
  refine ⟨_, hexec, ?_⟩
  have hset := halike.setPkt c.pkt
    (some { y1 with place := .running, pick := { y1.pick with pc := w, issueNs := s.now } })
  rw [State.setPkt_setPkt] at hset
  rw [show ((s1.setPkt c.pkt (some y1)).pickStarts y).now = s.now from halike.now]
  exact hset

end

/-! ## Extraction commands -/

/-- R110: the value of the field of `width` bits from bit `bit` of the byte at `pos`, `n` bytes in all, bit by bit. -/
theorem field_getLsbD (f : List Byte) (pos bit width : Nat) (hw : width ≤ 32) {j : Nat} (hj : j < width) :
    let n := (bit + width + 7) / 8
    (BitVec.ofNat 32 ((beAt f pos n >>> (8 * n - bit - width)) % 2 ^ width)).getLsbD j =
      (f.getD (pos + (bit + width - 1 - j) / 8) 0).getLsbD (7 - (bit + width - 1 - j) % 8) := by
  intro n
  have hn : bit + width ≤ 8 * n := by omega
  have hpos : 8 * n - bit - width + j = 8 * n - 1 - (bit + width - 1 - j) := by omega
  rw [BitVec.getLsbD_ofNat, Nat.testBit_mod_two_pow, Nat.testBit_shiftRight, hpos, testBit_beAt (by omega),
    List.getD_eq_getElem?_getD]
  simp [hj, hj.trans_le hw]

theorem bitsOf_eq (n hi lo : Nat) : bitsOf n hi lo = n / 2 ^ lo % 2 ^ (hi + 1 - lo) := by
  rw [bitsOf, Nat.shiftRight_eq_div_pow]

/-- A field of nine bits, read as a signed number. -/
theorem sxInt_nine (n : Nat) (h : n < 512) : sxInt 9 n = if n < 256 then (n : Int) else (n : Int) - 512 := by
  unfold sxInt
  simp only [Nat.mod_eq_of_lt (show n < 2 ^ 9 from h)]
  rfl

section
variable (f : List Byte) (base step cmd : Nat) (x : ParseSt)

/-- R110: where the field of an extraction command begins, and of how many bytes it takes bits. -/
def cmdPos : Int := base + sxInt 9 (cmd / 2 ^ 50 % 512)
/-- R110: the width of its field. -/
def cmdWidth : Nat := min 32 (cmd / 2 ^ 41 % 64)
/-- R110: the bit of its first byte that its field begins at. -/
def cmdBit : Nat := cmd / 2 ^ 47 % 8
/-- R110: the bytes of which it takes bits. -/
def cmdBytes : Nat := (cmdBit cmd + cmdWidth cmd + 7) / 8
/-- R110: those bytes lie in the parse window and before the FCS. -/
def cmdInside : Bool := inWindow (cmdPos base cmd) (cmdBytes cmd) && inFrame f.length (cmdPos base cmd) (cmdBytes cmd)

/-- R110: a command of width 0 does nothing. -/
theorem ParseSt.extract_empty (hw : cmdWidth cmd = 0) : x.extract f base step cmd = x := by
  have hwidth : min 32 (bitsOf cmd 46 41) = 0 := by rw [bitsOf_eq]; exact hw
  unfold ParseSt.extract
  dsimp only
  rw [if_pos hwidth]

/-- R110: what another extraction command does, its fields named. -/
theorem ParseSt.extract_eq (hw : cmdWidth cmd ≠ 0) : ∃ src, x.extract f base step cmd =
    { x with
      deep := x.deep || !inWindow (cmdPos base cmd) (cmdBytes cmd)
      valid := if cmdInside f base cmd then x.valid ||| BitVec.ofNat 32 (2 ^ (cmd / 2 ^ 59 % 32))
        else x.valid &&& ~~~ BitVec.ofNat 32 (2 ^ (cmd / 2 ^ 59 % 32))
      hf := vupd (fun _ => BitVec.ofNat 32 (if cmdInside f base cmd then
        (beAt f (cmdPos base cmd).toNat (cmdBytes cmd) >>> (8 * cmdBytes cmd - cmdBit cmd - cmdWidth cmd)) % 2 ^ cmdWidth cmd
        else 0)) (cmd / 2 ^ 59 % 32) x.hf
      src := src } := by
  have hwidth : min 32 (bitsOf cmd 46 41) = cmdWidth cmd := by rw [bitsOf_eq]; rfl
  have hbit : bitsOf cmd 49 47 = cmdBit cmd := bitsOf_eq _ _ _
  have hpos : (base : Int) + sxInt 9 (bitsOf cmd 58 50) = cmdPos base cmd := by rw [bitsOf_eq]; rfl
  have hslot : bitsOf cmd 63 59 = cmd / 2 ^ 59 % 32 := bitsOf_eq _ _ _
  have hbytes : ceilDiv (cmdBit cmd + cmdWidth cmd) 8 = cmdBytes cmd := rfl
  unfold ParseSt.extract
  simp only [hwidth, hbit, hpos, hslot, hbytes, if_neg hw]
  exact ⟨_, rfl⟩

end

/-- A bit of a set of slots to which one is added, or from which it is taken. -/
theorem getLsbD_slot (v : BitVec 32) (slot : Nat) (b : Bool) {i : Nat} (hi : i < 32) (hs : slot < 32) :
    (if b then v ||| BitVec.ofNat 32 (2 ^ slot) else v &&& ~~~ BitVec.ofNat 32 (2 ^ slot)).getLsbD i =
      if i = slot then b else v.getLsbD i := by
  have hpow : (BitVec.ofNat 32 (2 ^ slot)).getLsbD i = decide (i = slot) := by
    rw [BitVec.getLsbD_ofNat, Nat.testBit_two_pow]
    simp [hi, eq_comm]
  cases b
  · rw [if_neg (by decide), BitVec.getLsbD_and, BitVec.getLsbD_not, hpow]
    split <;> simp [*]
  · rw [if_pos rfl, BitVec.getLsbD_or, hpow]
    split <;> simp [*]

theorem cmdPos_eq (base cmd : Nat) : cmdPos base cmd = (base : Int) +
    (if cmd / 2 ^ 50 % 512 < 256 then ((cmd / 2 ^ 50 % 512 : Nat) : Int)
    else ((cmd / 2 ^ 50 % 512 : Nat) : Int) - 512) := by
  unfold cmdPos
  rw [sxInt_nine _ (Nat.mod_lt _ (by decide))]

theorem inWindow_eq (pos : Int) (n : Nat) : inWindow pos n = (decide (0 ≤ pos) && decide (pos + (n : Int) ≤ 192)) := rfl

theorem cmdInside_iff (f : List Byte) (base cmd : Nat) : cmdInside f base cmd = true ↔
    0 ≤ cmdPos base cmd ∧ cmdPos base cmd + (cmdBytes cmd : Int) ≤ 192 ∧
      cmdPos base cmd + (cmdBytes cmd : Int) + 4 ≤ f.length := by
  simp [cmdInside, inWindow_eq, inFrame, and_assoc]

section
variable {f : List Byte} {base step cmd : Nat} {x : ParseSt}

/-- R110: no other slot changes. -/
theorem ParseSt.extract_other {i : Nat} (hi : i < 32) (hslot : i ≠ cmd / 2 ^ 59 % 32) :
    vget (x.extract f base step cmd).hf i 0 = vget x.hf i 0 ∧
      (x.extract f base step cmd).valid.getLsbD i = x.valid.getLsbD i := by
  by_cases hw : cmdWidth cmd = 0
  · rw [x.extract_empty f base step cmd hw]
    exact ⟨rfl, rfl⟩
  · obtain ⟨src, h⟩ := x.extract_eq f base step cmd hw
    rw [h]
    exact ⟨vget_vupd_other _ _ _ _ _ hslot,
      (getLsbD_slot _ _ _ hi (Nat.mod_lt _ (by decide))).trans (if_neg hslot)⟩

/-- R110: the command's own slot is valid where its bytes are inside, and holds the field, or 0. -/
theorem ParseSt.extract_slot (hw : cmdWidth cmd ≠ 0) :
    (x.extract f base step cmd).valid.getLsbD (cmd / 2 ^ 59 % 32) = cmdInside f base cmd ∧
      vget (x.extract f base step cmd).hf (cmd / 2 ^ 59 % 32) 0 = BitVec.ofNat 32 (if cmdInside f base cmd then
        (beAt f (cmdPos base cmd).toNat (cmdBytes cmd) >>> (8 * cmdBytes cmd - cmdBit cmd - cmdWidth cmd)) % 2 ^ cmdWidth cmd
        else 0) ∧
      (x.extract f base step cmd).deep = (x.deep || !inWindow (cmdPos base cmd) (cmdBytes cmd)) := by
  have hslot : cmd / 2 ^ 59 % 32 < 32 := Nat.mod_lt _ (by decide)
  obtain ⟨src, h⟩ := x.extract_eq f base step cmd hw
  rw [h]
  exact ⟨(getLsbD_slot _ _ _ hslot hslot).trans (if_pos rfl), vget_vupd_same _ _ _ _ hslot, rfl⟩

end

/-! ## The statement -/

/-- R69: the entry of a draft, by the bank's header and entry word. -/
theorem State.draftEntry_eq (s : State) (seq : BitVec 32) (bank : Bool) (i : Nat) :
    let base := if bank then 0x10010000 else 0x10000000
    let h := s.ple seq base 8
    let e := s.ple seq (base + 8 + 2 * i) 2
    let len := min 8192 (h % 65536)
    s.draftEntry seq bank i = if h / 2 ^ 48 % 65536 = 1 ∧ 129 ≤ e ∧ e < len then some e else none := by
  intro base h e len
  unfold State.draftEntry
  simp only [bitsOf_eq]
  rfl

/-- Settles O22: the Heddle and the start of picks by what each command answers, and an extraction command by its slot. -/
theorem packetsEnterDrafts : Obligations.PacketsEnterDrafts := by
  unfold Obligations.PacketsEnterDrafts
  refine ⟨⟨?_, ?_, ?_, ?_⟩, ?_, ?_⟩
  · intro p x s hrun hx hplace hheld hon hfirst htable pk cl
    refine ⟨_, exec_heddleParse_takes hrun hx hplace hheld hon (State.none_before htable hfirst),
      State.pickStarts_alike _ _, fun hloom => ?_⟩
    have hcount := State.pickStarts_counter ({ s with nextOrder := s.nextOrder + 1 }.setPkt p
      (some { s.parsedNow x with place := .shedInput })) (s.parsedNow_pick2 x) (by rwa [State.parsedNow_loom])
    rw [State.parsedNow_loom] at hcount
    exact hcount
  · exact fun p x s hx hoff => ⟨exec_heddleParse_off hx hoff, exec_pickStart_off hx hoff⟩
  · intro p x s hrun hx hplace hon hfree hfirst e
    have hentry : s.entryOf x = e := by simp [State.entryOf, hfirst, b2n, e]
    have hexec := exec_pickStart_enters hrun hx hplace hon hfree
    refine ⟨fun w hw => ⟨_, ?_, State.alike_refl _⟩, fun hnone => ?_⟩
    · rw [hexec, State.enterDraft_some hx (hentry.trans hw)]
      rfl
    · obtain ⟨t, ht, hgone, hother, hmem, hcount⟩ := State.endPickDrop_drop s p x 52 hx
      refine ⟨t, ?_, hgone, hother, hmem, fun hloom => hcount hloom (by decide)⟩
      rw [hexec, State.enterDraft_none hx (hentry.trans hnone), ht]
      rfl
  · intro n c rest x s hrun hon hq hx
    exact ⟨exec_recircReturn_unwritten hrun hon hq hx, fun hw => fun _ => recircReturn_becomes hrun hon hq hx hw⟩
  · exact State.draftEntry_eq
  · intro f base step cmd x width slot bit off pos n y inside
    have hpos : pos = cmdPos base cmd := (cmdPos_eq base cmd).symm
    have hinside : cmdInside f base cmd = true ↔ inside := by rw [cmdInside_iff, ← hpos]; rfl
    refine ⟨x.extract_empty f base step cmd, fun i hi hslot => ParseSt.extract_other hi hslot, fun hw hin => ?_,
      fun hw hout => ?_, fun hw => ?_⟩
    · obtain ⟨hvalid, hvalue, -⟩ := ParseSt.extract_slot (f := f) (base := base) (step := step) (x := x) hw
      rw [hinside.2 hin] at hvalid hvalue
      refine ⟨hvalid, fun j hj => ?_⟩
      rw [hpos]
      exact (congrArg (BitVec.getLsbD · j) hvalue).trans (field_getLsbD f _ _ _ (Nat.min_le_left _ _) hj)
    · obtain ⟨hvalid, hvalue, -⟩ := ParseSt.extract_slot (f := f) (base := base) (step := step) (x := x) hw
      rw [Bool.eq_false_iff.2 (mt hinside.1 hout)] at hvalid hvalue
      exact ⟨hvalid, hvalue⟩
    · obtain ⟨-, -, hdeep⟩ := ParseSt.extract_slot (f := f) (base := base) (step := step) (x := x) hw
      rw [hpos]
      exact hdeep

end Sys2Proof.Machine
end

section
/-! PROOF. What a store to memory, an event record and a failing HBM channel leave: the clocks, the registers of time
domains and of ports, and the channels that are DEAD. -/

namespace Sys2Proof.Machine

/-- The registers of the time domains and of the ports. -/
def keptReg (a : Nat) : Prop := 0x50000 ≤ a ∧ a < 0x60000 ∨ 0x300000 ≤ a ∧ a < 0x400000 ∧ 0x1000 ≤ a % 0x10000

/-- A register that is none of these, nor that of an HBM channel. -/
def besideReg (a : Nat) : Prop := ¬ keptReg a ∧ ∀ c, a ≠ chanReg c

/-- `t` has the clocks and the ports of `s`, and every channel DEAD in `s`. -/
structure State.besides (t s : State) : Prop where
  now : t.now = s.now
  time : t.time = s.time
  selv : t.selv = s.selv
  rd : ∀ a, keptReg a → t.rd a = s.rd a
  dead : ∀ c, s.chanState c = 4 → t.chanState c = 4

theorem State.besides.refl (s : State) : s.besides s := ⟨rfl, rfl, rfl, fun _ _ => rfl, fun _ h => h⟩

theorem State.besides.trans {t u s : State} (h : t.besides u) (k : u.besides s) : t.besides s :=
  ⟨h.now.trans k.now, h.time.trans k.time, h.selv.trans k.selv, fun a ha => (h.rd a ha).trans (k.rd a ha),
    fun c hc => h.dead c (k.dead c hc)⟩

/-- A state with the same registers, clocks and ports. -/
theorem State.besides.of_eq {t s : State} (hnow : t.now = s.now) (htime : t.time = s.time) (hselv : t.selv = s.selv)
    (hregs : t.regs = s.regs) : t.besides s := by
  have hrd (a : Nat) : t.rd a = s.rd a := by unfold State.rd; rw [hregs]
  refine ⟨hnow, htime, hselv, fun a _ => hrd a, fun c hc => ?_⟩
  rw [← hc, State.chanState, State.chanState, State.fld, State.fld, hrd]

/-- A fold leaves what each of its steps leaves. -/
theorem foldl_besides {α : Type} {g : State → α → State} (h : ∀ s a, (g s a).besides s) (l : List α) (s : State) :
    (l.foldl g s).besides s := by
  induction l generalizing s with
  | nil => exact .refl s
  | cons a l ih => exact (ih _).trans (h s a)

theorem State.wr_besides (s : State) {a : Nat} (w : Word) (h : besideReg a) : (s.wr a w).besides s := by
  obtain ⟨hkept, hchan⟩ := h
  refine ⟨rfl, rfl, rfl, fun b hb => State.rd_wr_other s w ?_, fun c hc => ?_⟩
  · rintro rfl
    exact hkept hb
  · exact (s.fld_wr_other w _ (hchan c).symm).trans hc

theorem State.besides.fld {t s : State} (h : t.besides s) {a : Nat} (ha : keptReg a) (f : Fld) :
    t.fld a f = s.fld a f := by
  rw [State.fld, State.fld, h.rd a ha]

/-! ## Which registers are which -/

theorem besideReg_low {a : Nat} (h : a < 0x50000 ∨ 0x60000 ≤ a ∧ a < 0x300000) : besideReg a := by
  refine ⟨?_, fun c => ?_⟩
  · unfold keptReg; omega
  · simp only [chanReg, Reg.creelChan, ne_eq]; omega

theorem besideReg_block {a : Nat} (hbase : 0x300000 ≤ a) (hlow : a % 0x10000 < 0x100) : besideReg a := by
  refine ⟨?_, fun c => ?_⟩
  · unfold keptReg; omega
  · simp only [chanReg, Reg.creelChan, ne_eq]; omega

theorem besideReg_creelErr (k : Nat) : besideReg (Reg.creelErr k) := by
  apply besideReg_block <;> unfold Reg.creelErr <;> omega
theorem besideReg_creelErrInfo (k : Nat) : besideReg (Reg.creelErrInfo k) := by
  apply besideReg_block <;> unfold Reg.creelErrInfo <;> omega
theorem besideReg_creelCmdStat (k : Nat) : besideReg (Reg.creelCmdStat k) := by
  apply besideReg_block <;> unfold Reg.creelCmdStat <;> omega
theorem besideReg_creelRetireStat (k : Nat) : besideReg (Reg.creelRetireStat k) := by
  apply besideReg_block <;> unfold Reg.creelRetireStat <;> omega
theorem besideReg_selvErr (k : Nat) : besideReg (Reg.selvErr k) := by
  apply besideReg_block <;> unfold Reg.selvErr <;> omega
theorem besideReg_selvErrPort (k : Nat) : besideReg (Reg.selvErrPort k) := by
  apply besideReg_block <;> unfold Reg.selvErrPort <;> omega

theorem not_keptReg_chanReg (c : Nat) : ¬ keptReg (chanReg c) := by
  unfold keptReg chanReg Reg.creelChan
  omega

theorem chanReg_inj {c d : Nat} (h : chanReg c = chanReg d) : c = d := by
  simp only [chanReg, Reg.creelChan] at h
  omega

/-- R372: a channel that is not DEAD may change its state. -/
theorem State.setChanState_besides {s : State} {c v : Nat} (h : s.chanState c ≠ 4 ∨ v = 4) :
    (s.setChanState c v).besides s := by
  refine ⟨rfl, rfl, rfl, fun a ha => State.rd_wr_other s _ ?_, fun d hd => ?_⟩
  · rintro rfl
    exact not_keptReg_chanReg c ha
  · by_cases hcd : d = c
    · subst hcd
      obtain h | rfl := h
      · exact absurd hd h
      · show Fld.creelChanState.get ((s.setF _ _ _).rd _) = 4
        rw [State.setF, State.rd_wr_same, Fld.get_put _ _ _ (by decide)]
        rfl
    · exact (s.fld_wr_other _ _ fun he => hcd (chanReg_inj he)).trans hd

theorem State.chanState_setChanState (s : State) (c v : Nat) : (s.setChanState c v).chanState c = v % 8 := by
  show Fld.creelChanState.get ((s.setF _ _ _).rd _) = _
  rw [State.setF, State.rd_wr_same, Fld.get_put _ _ _ (by decide)]
  rfl

/-- The other fields of a channel's register stand beside its state. -/
theorem State.setF_chanReg_besides (s : State) (c : Nat) {f : Fld} (v : Nat)
    (hf : f.hi < Fld.creelChanState.lo) : (s.setF (chanReg c) f v).besides s := by
  refine ⟨rfl, rfl, rfl, fun a ha => State.rd_wr_other s _ ?_, fun d hd => ?_⟩
  · rintro rfl
    exact not_keptReg_chanReg c ha
  · by_cases hcd : d = c
    · subst hcd
      rw [← hd]
      show Fld.creelChanState.get ((s.setF _ _ _).rd _) = _
      rw [State.setF, State.rd_wr_same, Fld.get_put_other _ _ _ _ (.inr hf)]
      rfl
    · exact (s.fld_wr_other _ _ fun he => hcd (chanReg_inj he)).trans hd

/-- A record that falls due is host state. -/
theorem State.later_besides (s : State) (typ src : Nat) (payload : List Byte) : (s.later typ src payload).besides s :=
  .of_eq rfl rfl rfl rfl

/-- A store to memory leaves all else. -/
theorem State.setBytes_besides (s : State) (a : Nat) (bs : List Byte) : (s.setBytes a bs).besides s := by
  rw [s.setBytes_only a bs]
  exact .of_eq rfl rfl rfl rfl

/-! ## HBM: requests, corrected and uncorrectable reads, stores -/

theorem State.updChan_besides (s : State) (c : Nat) (f : Chan → Chan) : (s.updChan c f).besides s := .of_eq rfl rfl rfl rfl

theorem State.creelInfo_besides (s : State) (c a : Nat) : (s.creelInfo c a).besides s :=
  s.wr_besides _ (besideReg_creelErrInfo _)

theorem State.ceBit_besides (s : State) (k : Nat) : (s.ceBit k).besides s := by
  unfold State.ceBit
  split
  · exact .refl s
  · exact .trans (u := s.setF (Reg.creelErr k) Fld.creelErrCeLimit 1) (.of_eq rfl rfl rfl rfl)
      (s.wr_besides _ (besideReg_creelErr k))

theorem State.corrected_besides (s : State) (c a : Nat) : (s.corrected c a).besides s := by
  unfold State.corrected
  extract_lets u lim
  have hu : u.besides s := (State.updChan_besides _ _ _).trans
    ((State.setF_chanReg_besides _ _ _ (by decide)).trans (.of_eq rfl rfl rfl rfl))
  split
  · exact (State.updChan_besides _ _ _).trans ((State.ceBit_besides _ _).trans ((u.creelInfo_besides _ _).trans hu))
  · exact hu

theorem State.lineSeen_besides (s : State) (a : Nat) : (s.lineSeen a).besides s := by
  unfold State.lineSeen
  split
  · exact .refl s
  · split
    · split
      · exact .refl s
      · exact s.corrected_besides _ _
    · exact .refl s

theorem State.hbmReq_besides (s : State) (flow read pair : Bool) (a : Nat) (who : EvMaster) :
    (s.hbmReq flow read pair a who).2.besides s := by
  simp only [State.hbmReq]
  split
  · exact .of_eq rfl rfl rfl rfl
  · split <;> exact .of_eq rfl rfl rfl rfl

theorem State.hbmReqs_besides (s : State) (flow read : Bool) (who : EvMaster) (lo hi k a : Nat) :
    (State.hbmReqs s flow read who lo hi k a).besides s := by
  induction k generalizing s a with
  | zero => exact .refl s
  | succ k ih =>
    refine (ih _ _).trans ((State.hbmReq_besides _ _ _ _ _ _).trans ?_)
    split
    · exact s.lineSeen_besides _
    · exact .refl s

theorem State.hbmTraffic_besides (s : State) (flow read : Bool) (who : EvMaster) (a n : Nat) :
    (s.hbmTraffic flow read who a n).besides s := by
  unfold State.hbmTraffic
  split
  · exact State.hbmReqs_besides _ _ _ _ _ _ _ _
  · exact .refl s

theorem State.creelCmdOf_besides (s : State) (c a code : Nat) : (s.creelCmdOf c a code).besides s := by
  unfold State.creelCmdOf
  split
  · exact .trans (u := s.wr (Reg.creelCmdStat (c / 32)) _) (.of_eq rfl rfl rfl rfl)
      (s.wr_besides _ (besideReg_creelCmdStat _))
  · exact .refl s

theorem State.searchOff_besides (s : State) (c : Nat) : (s.searchOff c).besides s :=
  (State.creelCmdOf_besides _ _ _ _).trans ((State.creelCmdOf_besides _ _ _ _).trans (s.updChan_besides _ _))

theorem State.freeze_besides (s : State) (a : Nat) : (s.freeze a).besides s := by
  unfold State.freeze
  split
  · exact .refl s
  · next c _ =>
    split
    · exact .refl s
    · next hlive =>
      extract_lets u v w
      have hu : u.besides s := (State.searchOff_besides _ _).trans (State.setChanState_besides (.inl (by omega)))
      have hv : v.besides u := (State.creelInfo_besides _ _ _).trans (u.wr_besides _ (besideReg_creelErr _))
      have hw : w.besides s := (v.later_besides _ _ _).trans (hv.trans hu)
      split
      · exact hw
      · exact .trans (u := w) (.of_eq rfl rfl rfl rfl) hw

theorem State.uncRead_besides (s : State) (a : Nat) : (s.uncRead a).besides s := by
  have hcount : (s.cntShared 10).besides s := .of_eq rfl rfl rfl rfl
  unfold State.uncRead
  extract_lets u
  split
  · exact hcount
  · exact (State.freeze_besides _ _).trans ((State.updChan_besides _ _ _).trans
      ((State.setF_chanReg_besides _ _ _ (by decide)).trans ((State.creelInfo_besides _ _ _).trans
        ((State.wr_besides _ _ (besideReg_creelErr _)).trans hcount))))

theorem State.uncAlone_besides (s : State) (a : Nat) : (s.uncAlone a).besides s := by
  unfold State.uncAlone
  extract_lets t
  split
  · exact s.uncRead_besides a
  · extract_lets reg
    split
    · exact s.uncRead_besides a
    · exact (State.later_besides _ _ _ _).trans (.trans (u := t) (.of_eq rfl rfl rfl rfl) (s.uncRead_besides a))

theorem State.scanTouch_besides (s : State) (a n : Nat) : (s.scanTouch a n).besides s := by
  unfold State.scanTouch
  extract_lets base
  split
  · exact s.wr_besides _ (besideReg_low (by decide))
  · exact .refl s

theorem State.hbmPutLine_besides (s : State) (a : Nat) (bs : List Byte) : (s.hbmPutLine a bs).besides s := by
  unfold State.hbmPutLine
  split
  · exact .refl s
  · extract_lets u v
    have hu : u.besides s := by
      refine (State.setBytes_besides _ a bs).trans ?_
      split
      · exact .refl s
      · exact s.lineSeen_besides a
    have hv : v.besides s := (u.scanTouch_besides a _).trans hu
    split
    · exact .trans (u := v) (.of_eq rfl rfl rfl rfl) hv
    · split
      · refine .trans (u := if v.frozenAt a then v else v.uncAlone a) (.of_eq rfl rfl rfl rfl) ?_
        split
        · exact hv
        · exact (v.uncAlone_besides a).trans hv
      · exact .trans (u := v) (.of_eq rfl rfl rfl rfl) hv

theorem State.hbmPutCopy_besides (s : State) (n a : Nat) (bs : List Byte) : (s.hbmPutCopy n a bs).besides s := by
  induction n generalizing s a bs with
  | zero => exact .refl s
  | succ n ih =>
    unfold State.hbmPutCopy
    split
    · exact .refl s
    · exact (ih _ _ _).trans (s.hbmPutLine_besides _ _)

theorem State.hbmStore_besides (s : State) (who : EvMaster) (a : Nat) (bs : List Byte) :
    (s.hbmStore who a bs).besides s := by
  have hput (u : State) (b : Nat) : ((u.hbmTraffic false false who b bs.length).hbmPut b bs).besides u :=
    (State.hbmPutCopy_besides _ _ _ _).trans (u.hbmTraffic_besides _ _ _ _ _)
  unfold State.hbmStore
  extract_lets m u
  cases m with
  | none => exact hput s a
  | some b => exact (hput u b).trans (hput s a)

theorem State.poke_besides (s : State) (a : Nat) (bs : List Byte) : (s.poke a bs).besides s := by
  unfold State.poke
  split
  · exact s.hbmStore_besides _ _ _
  · split
    · exact .refl s
    · exact s.setBytes_besides a bs

/-! ## Event records -/

theorem State.wakeTask_besides (s : State) (k : Nat) (f : Task → Task) : (s.wakeTask k f).besides s :=
  .of_eq rfl rfl rfl rfl

theorem State.signal_besides (s : State) (k : Nat) (mask : BitVec 32) : (s.signal k mask).besides s := by
  unfold State.signal
  extract_lets t u fl
  split
  · exact .refl s
  · have hu : u.besides s := .of_eq rfl rfl rfl rfl
    split
    · split
      · exact (u.wakeTask_besides _ _).trans hu
      · exact hu
    · split
      · exact .trans (u := u) (.of_eq rfl rfl rfl rfl) hu
      · exact hu

theorem State.msi_besides (s : State) (vec : Nat) : (s.msi vec).besides s := by
  unfold State.msi
  split
  · exact .of_eq rfl rfl rfl rfl
  · split
    · exact .refl s
    · exact .of_eq rfl rfl rfl rfl

theorem State.besides.ite {t u s : State} (ht : t.besides s) (hu : u.besides s) {c : Prop} {_ : Decidable c} :
    (if c then t else u).besides s := by
  split
  · exact ht
  · exact hu

theorem State.ringGained_besides (s : State) (n : Nat) : (s.ringGained n).besides s := by
  unfold State.ringGained
  dsimp only
  refine .ite (.refl s) (.ite ?_ ?_)
  · exact .trans (u := s.msi (s.fld (Reg.ringCfg n) Fld.ringCfgVec)) (.of_eq rfl rfl rfl rfl) (s.msi_besides _)
  · exact .of_eq rfl rfl rfl rfl

theorem State.ringPut_besides (s : State) {n : Nat} (hn : n < 4) (r : List Byte) : (s.ringPut n r).besides s := by
  have hreg : besideReg (Reg.ringProd n) := besideReg_low (by unfold Reg.ringProd; omega)
  exact (State.ringGained_besides _ _).trans ((State.wr_besides _ _ hreg).trans (s.poke_besides _ _))

theorem State.setBacklog_besides (s : State) (k : Nat) (b : Backlog) : (s.setBacklog k b).besides s :=
  .of_eq rfl rfl rfl rfl

theorem State.deliver_besides (s : State) {k : Nat} (hk : k < 2) (r : List Byte) : (s.deliver k r).1.besides s := by
  unfold State.deliver
  dsimp only
  split
  · have hput : (s.ringPut (2 + k) r).besides s := s.ringPut_besides (by omega) r
    dsimp only
    split
    · unfold State.ring1Notify
      split
      · exact (State.signal_besides _ _ _).trans hput
      · exact hput
    · exact hput
  · split
    · exact s.setBacklog_besides _ _
    · exact (State.wr_besides _ _ (besideReg_low (by decide))).trans
        ((State.wr_besides _ _ (besideReg_low (by decide))).trans (s.setBacklog_besides _ _))

theorem State.deliver_if_besides (s : State) {k : Nat} (hk : k < 2) (r : List Byte) (b : Bool) :
    (if b then s.deliver k r else (s, false)).1.besides s := by
  split
  · exact s.deliver_besides hk r
  · exact .refl s

theorem State.postOne_besides (s : State) (typ src : Nat) (payload : List Byte) :
    (s.postOne typ src payload).1.besides s :=
  (State.deliver_if_besides _ (by decide) _ _).trans ((State.deliver_if_besides _ (by decide) _ _).trans
    (.of_eq rfl rfl rfl rfl))

/-- One round of the records of overflow bits. -/
theorem postOne_fold_besides (bs : List Nat) (p : State × List Nat) :
    (bs.foldl (fun (p : State × List Nat) b =>
      let q := p.1.postOne 1 1 (errPayload Reg.hostifErr b 0)
      (q.1, p.2 ++ q.2)) p).1.besides p.1 := by
  induction bs generalizing p with
  | nil => exact .refl _
  | cons b bs ih => exact (ih _).trans (p.1.postOne_besides _ _ _)

theorem State.postOvf_besides (s : State) (n : Nat) (bs : List Nat) : (s.postOvf n bs).besides s := by
  induction n generalizing s bs with
  | zero => exact .refl s
  | succ n ih =>
    cases bs with
    | nil => exact .refl s
    | cons b bs => exact (ih _ _).trans (postOne_fold_besides (b :: bs) (s, []))

theorem State.postNext_besides (s : State) (typ src : Nat) (payload : List Byte) :
    (s.postNext typ src payload).besides s :=
  (State.postOvf_besides _ _ _).trans (s.postOne_besides _ _ _)

/-- R439: posting event records leaves clocks, ports and DEAD channels. -/
theorem State.post_besides (s : State) (typ src : Nat) (payload : List Byte) : (s.post typ src payload).besides s := by
  refine (State.postNext_besides _ _ _ _).trans ((foldl_besides ?_ _ _).trans (.of_eq rfl rfl rfl rfl))
  exact fun u d => u.postNext_besides _ _ _

theorem State.masked_besides (s : State) (mech src unit_ loss : Nat) : (s.masked mech src unit_ loss).besides s :=
  s.post_besides _ _ _

theorem State.err_besides (s : State) {a : Nat} (bit info : Nat) (h : besideReg a) : (s.err a bit info).besides s := by
  unfold State.err
  split
  · exact .refl s
  · exact (State.post_besides _ _ _ _).trans (s.wr_besides _ h)

end Sys2Proof.Machine
end

section
/-! PROOF. A lost reference clock, and failed die-to-die wires (ClocksAndWires). -/

namespace Sys2Proof.Machine

/-! ## What a port that goes down leaves of the links -/

/-- `t` has the reference clocks, the locks, the configuration and the states of the ports of `s`. -/
structure State.linksAs (t s : State) : Prop where
  refLost : t.selv.refLost = s.selv.refLost
  lockAt : ∀ q, (t.port q).lockAt = (s.port q).lockAt
  cfg : ∀ q, q < 512 → t.rd (portCfg q) = s.rd (portCfg q)
  up : ∀ q, q < 512 → t.portUp q = s.portUp q

theorem State.linksAs.refl (s : State) : s.linksAs s := ⟨rfl, fun _ => rfl, fun _ _ => rfl, fun _ _ => rfl⟩

theorem State.linksAs.trans {t u s : State} (h : t.linksAs u) (k : u.linksAs s) : t.linksAs s :=
  ⟨h.refLost.trans k.refLost, fun q => (h.lockAt q).trans (k.lockAt q), fun q hq => (h.cfg q hq).trans (k.cfg q hq),
    fun q hq => (h.up q hq).trans (k.up q hq)⟩

theorem State.linksAs.ite {t u s : State} (ht : t.linksAs s) (hu : u.linksAs s) {c : Prop} {_ : Decidable c} :
    (if c then t else u).linksAs s := by
  split
  · exact ht
  · exact hu

theorem keptReg_portCfg {q : Nat} (hq : q < 512) : keptReg (portCfg q) := by
  unfold keptReg portCfg Reg.selvPortCfg
  omega

theorem keptReg_portStat {q : Nat} (hq : q < 512) : keptReg (portStat q) := by
  unfold keptReg portStat Reg.selvPortStat
  omega

theorem portStat_inj {p q : Nat} (h : portStat p = portStat q) : p = q := by
  simp only [portStat, Reg.selvPortStat] at h
  omega

theorem portStat_ne_portCfg (p q : Nat) : portCfg q ≠ portStat p := by
  simp only [portCfg, portStat, Reg.selvPortCfg, Reg.selvPortStat, ne_eq]
  omega

/-- A register that is neither the configuration nor the state of a port. -/
def linkFree (a : Nat) : Prop := ∀ q, q < 512 → portCfg q ≠ a ∧ portStat q ≠ a

theorem State.wr_linksAs (s : State) {a : Nat} (w : Word) (h : linkFree a) : (s.wr a w).linksAs s :=
  ⟨rfl, fun _ => rfl, fun q hq => s.rd_wr_other w (h q hq).1,
    fun q hq => congrArg (· != 0) (s.fld_wr_other w _ (h q hq).2)⟩

theorem linkFree_low {a : Nat} (h : a < 0x300000) : linkFree a := by
  intro q _
  simp only [portCfg, portStat, Reg.selvPortCfg, Reg.selvPortStat, ne_eq]
  omega

theorem State.besides.linksAs {t s : State} (h : t.besides s) : t.linksAs s :=
  ⟨by rw [h.selv], fun q => by rw [State.port, State.port, h.selv], fun q hq => h.rd _ (keptReg_portCfg hq),
    fun q hq => congrArg (· != 0) (h.fld (keptReg_portStat hq) _)⟩

theorem State.accountsOnly.linksAs {t s : State} (h : t.accountsOnly s) : t.linksAs s := by
  have hrd (a : Nat) : t.rd a = s.rd a := by rw [State.rd, State.rd, h.regs]
  exact ⟨h.refLost, h.lockAt, fun q _ => hrd _, fun q _ => by
    rw [State.portUp, State.portUp, State.flag, State.flag, State.fld, State.fld, hrd]⟩

theorem State.linksAs.of_eq {t s : State} (hregs : t.regs = s.regs) (hselv : t.selv = s.selv) : t.linksAs s := by
  have hrd (a : Nat) : t.rd a = s.rd a := by rw [State.rd, State.rd, hregs]
  exact ⟨by rw [hselv], fun q => by rw [State.port, State.port, hselv], fun q _ => hrd _, fun q _ => by
    rw [State.portUp, State.portUp, State.flag, State.flag, State.fld, State.fld, hrd]⟩

theorem foldl_linksAs {α : Type} {g : State → α → State} (h : ∀ s a, (g s a).linksAs s) (l : List α) (s : State) :
    (l.foldl g s).linksAs s := by
  induction l generalizing s with
  | nil => exact .refl s
  | cons a l ih => exact (ih _).trans (h s a)

theorem State.updPort_linksAs (s : State) (p : Nat) {f : PortSt → PortSt} (hf : ∀ x, (f x).lockAt = x.lockAt) :
    (s.updPort p f).linksAs s := (s.updPort_accountsOnly p hf).linksAs

/-- The fields of a port's state beside LINK. -/
theorem State.setF_portStat_linksAs (s : State) (p : Nat) {f : Fld} (v : Nat)
    (hf : Fld.selvPortStatLink.hi < f.lo ∨ f.hi < Fld.selvPortStatLink.lo) : (s.setF (portStat p) f v).linksAs s := by
  refine ⟨rfl, fun _ => rfl, fun q _ => s.rd_wr_other _ (portStat_ne_portCfg p q), fun q _ => ?_⟩
  by_cases hqp : q = p
  · subst hqp
    show (Fld.selvPortStatLink.get ((s.setF _ _ _).rd _) != 0) = _
    rw [State.setF, State.rd_wr_same, Fld.get_put_other _ _ _ _ hf]
    rfl
  · exact congrArg (· != 0) (s.fld_wr_other _ _ fun h => hqp (portStat_inj h))

/-! ## References and copies of a port that goes down -/

theorem State.dpllGo_linksAs (s : State) (st : Nat) : (s.dpllGo st).linksAs s := by
  have hstat {u : State} (hu : u.linksAs s) (w : Word) : (u.wr Reg.dpllStat w).linksAs s :=
    (u.wr_linksAs w (linkFree_low (by decide))).trans hu
  unfold State.dpllGo
  extract_lets old u _ v f _ a _ w
  have hu : u.linksAs s := hstat (.refl s) _
  have hv : v.linksAs s := by
    refine .ite hu ?_
    exact .trans (u := u) (.of_eq rfl rfl) hu
  have hw : w.linksAs s := by
    unfold w
    split
    · exact hstat hv _
    · refine .ite hv ?_
      refine hstat ?_ _
      exact .trans (u := v) (.of_eq rfl rfl) hv
    · exact hv
  exact .ite hw ((State.post_besides _ _ _ _).linksAs.trans hw)

theorem State.reselect_linksAs (s : State) : s.reselect.linksAs s := by
  unfold State.reselect
  extract_lets st c _ u v
  clear_value c
  have hu : u.linksAs s := .of_eq rfl rfl
  have hv : v.linksAs s := by
    unfold v
    split
    · exact (u.wr_linksAs _ (linkFree_low (by decide))).trans hu
    · exact hu
  have hgo (k : Nat) : (v.dpllGo k).linksAs s := (v.dpllGo_linksAs k).trans hv
  split
  · exact hgo 0
  · exact hgo 3
  · exact .ite (hgo 1) hv
  · exact .ite (hgo 3) hv

theorem State.refScan_linksAs (s : State) (r : Nat) : (s.refScan r).linksAs s := by
  have hqual (u : State) (b : Bool) : (u.setQual r b).linksAs u := u.wr_linksAs _ (linkFree_low (by decide))
  have hnote (u : State) (t : Option Nat) : (u.setRefOk r t).linksAs u := .of_eq rfl rfl
  unfold State.refScan
  refine .ite (.refl s) ?_
  dsimp only
  split
  · exact .refl s
  · exact (State.reselect_linksAs _).trans ((hnote _ _).trans (hqual s false))
  · exact .ite ((State.reselect_linksAs _).trans ((hqual _ true).trans (hnote s _))) (hnote s _)
  · exact .refl s

theorem State.refScanAll_linksAs (s : State) : s.refScanAll.linksAs s := foldl_linksAs State.refScan_linksAs _ _

theorem State.uncall_linksAs (s : State) (p : Nat) : (s.uncall p).linksAs s := by
  unfold State.uncall
  extract_lets l back u v
  have hu : u.linksAs s := .of_eq rfl rfl
  have hv : v.linksAs s := .ite hu ((u.callGone_accountsOnly p).linksAs.trans hu)
  refine .trans ?_ hv
  refine foldl_linksAs (fun w c => ?_) _ _
  exact .of_eq rfl rfl

theorem State.count_linksAs (s : State) (o k : Nat) : (s.count o k).linksAs s := .of_eq rfl rfl

theorem State.setTx_linksAs (s : State) (p : Nat) (t : Option Tx) : (s.setTx p t).linksAs s := .of_eq rfl rfl

theorem State.beamPortDown_linksAs (s : State) (p : Nat) : (s.beamPortDown p).linksAs s := by
  unfold State.beamPortDown
  refine (State.uncall_linksAs _ _).trans ?_
  split
  · exact .refl s
  · next t _ =>
    exact (State.callGone_accountsOnly _ _).linksAs.trans ((State.dropRef_accountsOnly _ _).linksAs.trans
      ((State.setTx_linksAs _ _ _).trans ((State.count_linksAs _ _ _).trans (State.count_linksAs _ _ _))))

theorem State.startAttempt_linksAs (s : State) (p : Nat) : (s.startAttempt p).linksAs s :=
  State.linksAs.trans (State.updPort_linksAs _ _ (by exact fun _ => rfl)) (s.setF_portStat_linksAs p 1 (by decide))

theorem State.linkClear_linksAs (s : State) {p : Nat} (hp : p < 512) :
    (s.linkClear p).linksAs (s.setF (portStat p) Fld.selvPortStatLink 0) := by
  have hbeam : linkFree (Reg.beamPort p) := linkFree_low (by unfold Reg.beamPort; omega)
  refine (State.refScanAll_linksAs _).trans ((State.updPort_linksAs _ _ (by exact fun _ => rfl)).trans
    ((State.beamPortDown_linksAs _ _).trans (State.wr_linksAs _ _ hbeam)))

/-- R340: a port that goes down: what is left of the links is what clearing its LINK leaves. -/
theorem State.linkDrop_linksAs (s : State) {p : Nat} (hp : p < 512) :
    (s.linkDrop p).linksAs (s.setF (portStat p) Fld.selvPortStatLink 0) := by
  unfold State.linkDrop
  extract_lets t u v w
  have hw : w.linksAs (s.setF (portStat p) Fld.selvPortStatLink 0) :=
    (v.post_besides _ _ _).linksAs.trans ((u.wr_besides _ (besideReg_selvErr _)).linksAs.trans
      ((State.wr_besides _ _ (besideReg_selvErrPort _)).linksAs.trans (s.linkClear_linksAs hp)))
  refine .ite ((w.updPort_linksAs p ?_).trans hw) ((State.startAttempt_linksAs _ _).trans
    ((w.updPort_linksAs p ?_).trans hw))
  · exact fun _ => rfl
  · exact fun _ => rfl

theorem State.portUp_clear (s : State) (p q : Nat) :
    (s.setF (portStat p) Fld.selvPortStatLink 0).portUp q = if q = p then false else s.portUp q := by
  split
  · next h =>
    subst h
    show (Fld.selvPortStatLink.get ((s.setF _ _ _).rd _) != 0) = _
    rw [State.setF, State.rd_wr_same, Fld.get_put _ _ _ (by decide)]
    rfl
  · next h => exact congrArg (· != 0) (s.fld_wr_other _ _ fun e => h (portStat_inj e))

/-! ## Ports that lose lock and go down -/

/-- R490, R524: port `p` loses lock, and goes down at once where it is up. -/
def State.portLost (s : State) (p : Nat) : State :=
  if (s.loseLock p).portUp p then (s.loseLock p).linkDrop p else s.loseLock p

/-- `t` is what `s` leaves of the links when the ports of `gone` are lost. -/
structure State.lostPorts (t s : State) (gone : Nat → Prop) : Prop where
  refLost : t.selv.refLost = s.selv.refLost
  cfg : ∀ q, q < 512 → t.rd (portCfg q) = s.rd (portCfg q)
  lost : ∀ q, q < 512 → gone q → t.portUp q = false ∧ (t.port q).lockAt = none
  kept : ∀ q, q < 512 → ¬ gone q → t.portUp q = s.portUp q ∧ (t.port q).lockAt = (s.port q).lockAt

theorem State.lostPorts.refl (s : State) {gone : Nat → Prop} (h : ∀ q, ¬ gone q) : s.lostPorts s gone :=
  ⟨rfl, fun _ _ => rfl, fun q _ hq => absurd hq (h q), fun _ _ _ => ⟨rfl, rfl⟩⟩

theorem State.lostPorts.trans {t u s : State} {f g gone : Nat → Prop} (h : t.lostPorts u g) (k : u.lostPorts s f)
    (hgone : ∀ q, q < 512 → (gone q ↔ g q ∨ f q)) : t.lostPorts s gone := by
  refine ⟨h.refLost.trans k.refLost, fun q hq => (h.cfg q hq).trans (k.cfg q hq), fun q hq hlost => ?_,
    fun q hq hkept => ?_⟩
  · by_cases hg : g q
    · exact h.lost q hq hg
    · obtain ⟨hup, hlock⟩ := h.kept q hq hg
      obtain ⟨hup', hlock'⟩ := k.lost q hq (((hgone q hq).1 hlost).resolve_left hg)
      exact ⟨hup.trans hup', hlock.trans hlock'⟩
  · rw [hgone q hq, not_or] at hkept
    obtain ⟨hup, hlock⟩ := h.kept q hq hkept.1
    obtain ⟨hup', hlock'⟩ := k.kept q hq hkept.2
    exact ⟨hup.trans hup', hlock.trans hlock'⟩

theorem State.loseLock_lockAt (s : State) (p q : Nat) :
    ((s.loseLock p).port q).lockAt = if q = p then none else (s.port q).lockAt := by
  unfold State.loseLock
  rw [State.port_updPort]
  split <;> rfl

theorem State.portLost_lostPorts (s : State) {p : Nat} (hp : p < 512) : (s.portLost p).lostPorts s (· = p) := by
  have hup (q : Nat) : (s.loseLock p).portUp q = s.portUp q := rfl
  unfold State.portLost
  split
  · have h := (s.loseLock p).linkDrop_linksAs hp
    refine ⟨h.refLost, fun q hq => (h.cfg q hq).trans (State.rd_wr_other _ _ (portStat_ne_portCfg p q)),
      fun q hq he => ⟨?_, ?_⟩, fun q hq he => ⟨?_, ?_⟩⟩
    · rw [h.up q hq, State.portUp_clear, if_pos he]
    · exact (h.lockAt q).trans ((s.loseLock_lockAt p q).trans (if_pos he))
    · rw [h.up q hq, State.portUp_clear, if_neg he, hup]
    · exact (h.lockAt q).trans ((s.loseLock_lockAt p q).trans (if_neg he))
  · next hdown =>
    refine ⟨rfl, fun _ _ => rfl, fun q _ he => ⟨?_, (s.loseLock_lockAt p q).trans (if_pos he)⟩,
      fun q _ he => ⟨hup q, (s.loseLock_lockAt p q).trans (if_neg he)⟩⟩
    rw [he]
    exact Bool.eq_false_iff.2 hdown

/-- Ports lost one after the other, those of which the configuration of all ports says so. -/
theorem foldl_portLost {c : State → Nat → Bool}
    (hc : ∀ t s : State, (∀ q, q < 512 → t.rd (portCfg q) = s.rd (portCfg q)) → ∀ q, q < 512 → c t q = c s q)
    {l : List Nat} (hl : ∀ p ∈ l, p < 512) (s : State) :
    (l.foldl (fun s p => if c s p then s.portLost p else s) s).lostPorts s fun q => q ∈ l ∧ c s q = true := by
  induction l generalizing s with
  | nil => exact .refl s fun q h => by simp at h
  | cons p l ih =>
    have hp : p < 512 := hl p (by simp)
    have hfirst : (if c s p then s.portLost p else s).lostPorts s fun q => q = p ∧ c s q = true := by
      split
      · next h =>
        refine .trans (s.portLost_lostPorts hp) (.refl s (gone := fun _ => False) fun _ => id) fun q _ => ?_
        constructor
        · exact fun hq => .inl hq.1
        · rintro (rfl | hq)
          · exact ⟨rfl, h⟩
          · exact hq.elim
      · next h =>
        refine .refl s ?_
        rintro q ⟨rfl, hq⟩
        exact h hq
    refine .trans (ih (fun q hq => hl q (by simp [hq])) _) hfirst fun q hq => ?_
    rw [hc _ s hfirst.cfg q hq, List.mem_cons]
    tauto

theorem State.lanesDown_lostPorts (s : State) (lanes : List Port) : (s.lanesDown lanes).lostPorts s fun p =>
    p ∈ List.range 512 ∧ (s.portOn p && lanes.any fun q =>
      decide (p ≤ q.val ∧ q.val < p + speedLanes (s.pcfg p Fld.selvPortCfgSpeed))) = true := by
  refine foldl_portLost (c := fun s p => s.portOn p && lanes.any fun q =>
    decide (p ≤ q.val ∧ q.val < p + speedLanes (s.pcfg p Fld.selvPortCfgSpeed))) ?_ (fun p hp => List.mem_range.1 hp) s
  intro t s hcfg q hq
  simp only [State.portOn, State.pcfg, State.flag, State.fld, hcfg q hq]
  rfl

theorem speedLanes_pos (k : Nat) : 0 < speedLanes k := by
  unfold speedLanes
  split <;> decide

/-! ## Reference clocks -/

theorem refLost_set (v : BitVec 8) (t : Tile) : (v ||| BitVec.ofNat 8 (2 ^ t.val)).getLsbD t.val = true := by
  rw [BitVec.getLsbD_or, BitVec.getLsbD_ofNat, Nat.testBit_two_pow_self]
  simp

theorem refLost_clear (v : BitVec 8) (t : Tile) : (v &&& ~~~ BitVec.ofNat 8 (2 ^ t.val)).getLsbD t.val = false := by
  rw [BitVec.getLsbD_and, BitVec.getLsbD_not, BitVec.getLsbD_ofNat, Nat.testBit_two_pow_self]
  simp

/-- R339: the port's attempt begins. -/
def PortSt.trains (x : PortSt) (now : Nat) : PortSt := { x with attempt := some now, nextAt := none }

theorem State.startAttempt_port (s : State) (p q : Nat) : (s.startAttempt p).port q =
    if q = p then (s.port q).trains s.now else s.port q := by
  refine (State.port_updPort _ _ _ _).trans ?_
  split
  · next h => rw [h]; rfl
  · rfl

/-- R524: port `p` begins to train unless it is up, trains or waits. -/
def State.retrains (s : State) (p : Nat) : Bool :=
  s.portOn p && !s.portUp p && (s.port p).attempt.isNone && (s.port p).nextAt.isNone

/-- Ports of a list that retrain. -/
structure State.retrained (t s : State) (l : List Nat) : Prop where
  now : t.now = s.now
  mem : t.mem = s.mem
  refLost : t.selv.refLost = s.selv.refLost
  port : ∀ q, t.port q =
    if q ∈ l ∧ s.retrains q = true then (s.port q).trains s.now else s.port q

theorem foldl_retrained {l : List Nat} (hl : ∀ p ∈ l, p < 512) (hnodup : l.Nodup) (s : State) :
    (l.foldl (fun s p => if s.retrains p then s.startAttempt p else s) s).retrained s l := by
  induction l generalizing s with
  | nil => exact ⟨rfl, rfl, rfl, fun q => by simp⟩
  | cons p l ih =>
    obtain ⟨hp, hnodup⟩ := List.nodup_cons.1 hnodup
    let u := if s.retrains p then s.startAttempt p else s
    have hu : u.linksAs s := .ite (s.startAttempt_linksAs p) (.refl s)
    have hsame : u.now = s.now ∧ u.mem = s.mem := by
      unfold u
      split <;> exact ⟨rfl, rfl⟩
    have hfirst : u.port p = if s.retrains p = true then (s.port p).trains s.now else s.port p := by
      unfold u
      split
      · rw [s.startAttempt_port, if_pos rfl]
      · rfl
    have hother {q : Nat} (hq : q ≠ p) : u.port q = s.port q := by
      unfold u
      split
      · rw [s.startAttempt_port, if_neg hq]
      · rfl
    obtain ⟨hnow, hmem, href, hrest⟩ := ih (fun q hq => hl q (by simp [hq])) hnodup u
    refine ⟨hnow.trans hsame.1, hmem.trans hsame.2, href.trans hu.refLost, fun q => ?_⟩
    refine (hrest q).trans ?_
    by_cases hqp : q = p
    · subst hqp
      simp [hp, hfirst]
    · have hretrains (hq : q < 512) : u.retrains q = s.retrains q := by
        rw [State.retrains, State.retrains, hother hqp, hu.up q hq, State.portOn, State.portOn, State.flag, State.flag,
          State.fld, State.fld, hu.cfg q hq]
      rw [hother hqp, hsame.1]
      by_cases hql : q ∈ l
      · rw [hretrains (hl q (by simp [hql]))]
        simp [hql]
      · simp [hql, hqp]

/-- The ports of a tile. -/
def tilePorts (t : Tile) : List Nat := (List.range 64).map fun k => 64 * t.val + k

theorem mem_tilePorts (t : Tile) (q : Nat) : q ∈ tilePorts t ↔ q / 64 = t.val := by
  simp only [tilePorts, List.mem_map, List.mem_range]
  constructor
  · rintro ⟨k, hk, rfl⟩
    omega
  · exact fun h => ⟨q % 64, by omega, by omega⟩

theorem tilePorts_lt {t : Tile} {q : Nat} (h : q ∈ tilePorts t) : q < 512 := by
  have ht : t.val < 8 := t.isLt
  have := (mem_tilePorts t q).1 h
  omega

theorem tilePorts_nodup (t : Tile) : (tilePorts t).Nodup :=
  List.Nodup.map (fun a b h => by simpa using h) List.nodup_range

/-- R524: SD_REFCLK of a tile stops. -/
theorem refclkLoss_leaves (t : Tile) (s : State) : leaves (.refclkLoss t) s fun u =>
    u.selv.refLost.getLsbD t.val = true ∧
    (∀ k, k < 64 → u.portUp (64 * t.val + k) = false ∧ (u.port (64 * t.val + k)).lockAt = none) ∧
    (∀ q, q / 64 ≠ t.val → q < 512 → u.portUp q = s.portUp q) := by
  have ht : t.val < 8 := t.isLt
  let s1 : State := { s with selv := { s.selv with refLost := s.selv.refLost ||| BitVec.ofNat 8 (2 ^ t.val) } }
  have hfold := foldl_portLost (c := fun _ _ => true) (fun _ _ _ _ _ => rfl) (fun _ hp => tilePorts_lt hp)
    (l := tilePorts t) s1
  have hexec : exec (.refclkLoss t) s = .next ((tilePorts t).foldl (fun s p => if true then s.portLost p else s) s1) := by
    rw [tilePorts, List.foldl_map]
    rfl
  refine ⟨_, hexec, ?_, fun k hk => hfold.lost _ (by omega) ⟨(mem_tilePorts t _).2 (by omega), rfl⟩,
    fun q hq hlt => (hfold.kept q hlt fun h => hq ((mem_tilePorts t q).1 h.1)).1⟩
  rw [hfold.refLost]
  exact refLost_set _ _

/-- R524: while it is stopped, no port of the tile comes up or gains lock. -/
theorem exec_lock_refLost {s : State} {p : Port} (h : s.selv.refLost.getLsbD (p.val / 64) = true) :
    exec (.linkUp p) s = .next s ∧ exec (.alignmentLockGain p) s = .next s := by
  have hdone (t0 : Nat) : s.lockDone p.val t0 = none := by
    unfold State.lockDone
    split
    · rfl
    · rw [if_pos h]
  constructor
  · show execLinkUp p s = _
    unfold execLinkUp unlessReset
    split
    · rfl
    · dsimp only
      split
      · rfl
      · rw [hdone]
  · show execAlignmentLockGain p s = _
    unfold execAlignmentLockGain unlessReset
    rw [if_pos h, ite_self]

/-- R524: a clock that has not stopped does not return. -/
theorem exec_refclkReturn_running {s : State} {t : Tile} (h : s.selv.refLost.getLsbD t.val = false) :
    exec (.refclkReturn t) s = .next s := by
  show execRefclkReturn t s = _
  unfold execRefclkReturn
  rw [h]
  rfl

/-- R524: the clock returns. -/
theorem refclkReturn_leaves {t : Tile} {s : State} (h : s.selv.refLost.getLsbD t.val = true) :
    leaves (.refclkReturn t) s fun u =>
      u.selv.refLost.getLsbD t.val = false ∧ u.mem = s.mem ∧
      (∀ k, k < 64 → s.portOn (64 * t.val + k) = true → s.portUp (64 * t.val + k) = false →
        (s.port (64 * t.val + k)).attempt = none → (s.port (64 * t.val + k)).nextAt = none →
        (u.port (64 * t.val + k)).attempt = some s.now) ∧
      (∀ q, q / 64 ≠ t.val → u.port q = s.port q) := by
  have ht : t.val < 8 := t.isLt
  let s1 : State := { s with selv := { s.selv with refLost := s.selv.refLost &&& ~~~ BitVec.ofNat 8 (2 ^ t.val) } }
  obtain ⟨_, hmem, href, hport⟩ := foldl_retrained (fun _ hp => tilePorts_lt hp) (tilePorts_nodup t) s1
  have hexec : exec (.refclkReturn t) s =
      .next ((tilePorts t).foldl (fun s p => if s.retrains p then s.startAttempt p else s) s1) := by
    rw [tilePorts, List.foldl_map]
    show execRefclkReturn t s = _
    unfold execRefclkReturn
    rw [h]
    rfl
  refine ⟨_, hexec, ?_, hmem, fun k hk hon hup hatt hnext => ?_, fun q hq => ?_⟩
  · rw [href]
    exact refLost_clear _ _
  · have hretrains : s1.retrains (64 * t.val + k) = true := by
      show s.retrains _ = true
      simp [State.retrains, hon, hup, hatt, hnext]
    rw [hport, if_pos ⟨(mem_tilePorts t _).2 (by omega), hretrains⟩]
    rfl
  · rw [hport, if_neg fun e => hq ((mem_tilePorts t q).1 e.1)]
    rfl

/-! ## Channels that fail -/

theorem State.loadDone_besides (s : State) (k : Nat) (l : Load) : (s.loadDone k l).besides s := by
  unfold State.loadDone
  extract_lets bad v u
  have hu : u.besides s := foldl_besides (fun w b => (State.masked_besides _ _ _ _ _).trans (w.uncRead_besides _)) _ _
  exact .trans (u := u) (.of_eq rfl rfl rfl rfl) hu

theorem State.settleLoads_besides (s : State) : s.settleLoads.besides s := by
  refine foldl_besides (fun u e => ?_) _ _
  split
  · exact .ite (u.loadDone_besides _ _) (.refl u)
  · exact .refl u

theorem State.dropRequests_besides (s : State) (k : Nat) : (s.dropRequests k).besides s :=
  (State.settleLoads_besides _).trans (foldl_besides (fun u c => .ite (u.updChan_besides c _) (.refl u)) _ _)

theorem State.fdigPut_besides (s : State) (d : List Byte) : (s.fdigPut d).besides s := by
  unfold State.fdigPut
  extract_lets size prod used
  refine .ite ?_ ?_
  · exact (State.wr_besides _ _ (besideReg_low (by decide))).trans (s.wr_besides _ (besideReg_low (by decide)))
  · exact (State.wr_besides _ _ (besideReg_low (by decide))).trans (s.poke_besides _ _)

theorem State.lostNote_besides (s : State) (rno form : Nat) (x : Seal) : (s.lostNote rno form x).besides s := by
  unfold State.lostNote
  extract_lets u
  have hu : u.besides s := (State.masked_besides _ _ _ _ _).trans (s.wr_besides _ (besideReg_low (by decide)))
  exact .ite ((u.fdigPut_besides _).trans hu) hu

theorem State.loseRec_besides (s : State) (r : Nat) : (s.loseRec r).besides s := by
  refine (State.lostNote_besides _ _ _ _).trans ?_
  unfold State.freeRec
  refine .ite ?_ ?_
  · exact .of_eq rfl rfl rfl rfl
  · exact .of_eq rfl rfl rfl rfl

theorem State.withdraw_besides (s : State) (k : Nat) : (s.withdraw k).besides s := by
  unfold State.withdraw
  extract_lets recs gone u
  have hu : u.besides s := foldl_besides State.loseRec_besides _ _
  exact .trans (u := u) (.of_eq rfl rfl rfl rfl) hu

theorem State.setRetire_besides (s : State) (k : Nat) (r : Option Retire) : (s.setRetire k r).besides s :=
  .of_eq rfl rfl rfl rfl

theorem State.retireOff_besides (s : State) (k : Nat) : (s.retireOff k).besides s := by
  refine foldl_besides (fun u j => ?_) _ _
  split
  · refine .ite ?_ (.refl u)
    refine (State.creelCmdOf_besides _ _ _ _).trans ((State.wr_besides _ _ (besideReg_creelRetireStat j)).trans
      ((State.setRetire_besides _ _ _).trans ?_))
    split
    · next h => exact State.setChanState_besides (.inl (by omega))
    · exact .refl u
  · exact .refl u

theorem State.stackGone_besides (s : State) (k : Nat) : (s.stackGone k).besides s := by
  have hfault : besideReg Reg.digestFault := besideReg_low (by decide)
  unfold State.stackGone
  refine .ite (.refl s) ?_
  exact (State.withdraw_besides _ _).trans ((State.retireOff_besides _ _).trans ((State.dropRequests_besides _ _).trans
    ((State.err_besides _ _ _ hfault).trans (s.wr_besides _ hfault))))

theorem State.noSpare_besides (s : State) (c : Nat) : (s.noSpare c).besides s := by
  unfold State.noSpare
  extract_lets u v
  have hu : u.besides s := s.creelCmdOf_besides _ _ _
  have hv : v.besides s := (u.wr_besides _ (besideReg_creelErrInfo _)).trans hu
  exact .ite ((u.stackGone_besides _).trans hu) (.ite hu ((v.err_besides _ _ (besideReg_creelErr _)).trans hv))

theorem State.trainSpare_besides {s : State} {r : Retire} (h : s.chanState r.dst ≠ 4) : (s.trainSpare r).besides s :=
  (State.wr_besides _ _ (besideReg_creelRetireStat _)).trans ((State.setRetire_besides _ _ _).trans
    ((State.setF_chanReg_besides _ _ _ (by decide)).trans (State.setChanState_besides (.inl h))))

/-- R363: a spare is not DEAD. -/
theorem State.chanState_pickSpare {s : State} {k d : Nat} (h : s.pickSpare k = some d) : s.chanState d ≠ 4 := by
  have hfirst {j c : Nat} (h : s.firstSpare j = some c) : s.chanState c ≠ 4 := by
    have hspare : s.isSpare c = true := List.find?_some h
    simp only [State.isSpare, Bool.and_eq_true, beq_iff_eq] at hspare
    omega
  unfold State.pickSpare at h
  split at h
  · next c hc =>
    obtain rfl : c = d := by simpa using h
    exact hfirst hc
  · exact hfirst h

theorem State.startRetire_besides (s : State) (c : Nat) (copy : Bool) : (s.startRetire c copy).besides s := by
  unfold State.startRetire
  refine .ite (s.creelCmdOf_besides _ _ _) ?_
  split
  · refine .ite (.refl s) ?_
    exact .of_eq rfl rfl rfl rfl
  · split
    · exact s.noSpare_besides c
    · next d hd => exact State.trainSpare_besides (State.chanState_pickSpare hd)

theorem State.nextRetire_besides (s : State) (k : Nat) : (s.nextRetire k).besides s := by
  unfold State.nextRetire
  split
  · exact .refl s
  · refine (State.startRetire_besides _ _ _).trans ?_
    exact .of_eq rfl rfl rfl rfl

theorem State.queueCopy_besides (s : State) (r : Retire) : (s.queueCopy r).besides s := by
  refine (State.updChan_besides _ _ _).trans ?_
  exact .of_eq rfl rfl rfl rfl

theorem State.nextSpare_besides (s : State) (r : Retire) : (s.nextSpare r).besides s := by
  unfold State.nextSpare
  extract_lets k cur u v w
  have hu : u.besides s := s.updChan_besides _ _
  split
  · next d hd => exact (State.trainSpare_besides (s := u) (State.chanState_pickSpare hd)).trans hu
  · have hv : v.besides s := (State.wr_besides _ _ (besideReg_creelRetireStat _)).trans
      ((State.setRetire_besides _ _ _).trans hu)
    have hw : w.besides s := (v.noSpare_besides _).trans hv
    exact (State.nextRetire_besides _ _).trans (.ite ((w.stackGone_besides _).trans hw) hw)

/-- R362, R490: a channel that has become DEAD stays so while its requests complete and its slot is retired. -/
theorem State.chanDead_besides (s : State) (c : Nat) : (s.chanDead c).besides (s.setChanState c 4) := by
  unfold State.chanDead
  extract_lets st u
  have hu : u.besides (s.setChanState c 4) :=
    (State.searchOff_besides _ _).trans ((State.settleLoads_besides _).trans (State.updChan_besides _ _ _))
  split
  · exact (u.nextSpare_besides _).trans hu
  · split
    · split
      · next r _ =>
        refine .ite ((State.queueCopy_besides _ _).trans ?_) ?_
        · exact (u.setRetire_besides _ _).trans hu
        · exact (u.setRetire_besides _ _).trans hu
      · exact hu
    · exact .ite ((u.startRetire_besides _ _).trans hu) hu

theorem State.chanDead_dead (s : State) (c d : Nat) (h : d = c ∨ s.chanState d = 4) : (s.chanDead c).chanState d = 4 := by
  refine (s.chanDead_besides c).dead d ?_
  obtain rfl | h := h
  · exact s.chanState_setChanState d 4
  · exact (State.setChanState_besides (.inr rfl)).dead d h

theorem State.chansDead_dead (s : State) (chans : List ChanId) (d : Nat)
    (h : (∃ ch ∈ chans, chNum ch = d) ∨ s.chanState d = 4) : (s.chansDead chans).chanState d = 4 := by
  induction chans generalizing s with
  | nil => simpa [State.chansDead] using h
  | cons ch chans ih =>
    refine ih (if s.chanState (chNum ch) = 4 then s else s.chanDead (chNum ch)) ?_
    by_cases hrest : ∃ e ∈ chans, chNum e = d
    · exact .inl hrest
    · have hnow : chNum ch = d ∨ s.chanState d = 4 := by simpa [hrest] using h
      right
      split
      · next hdead =>
        obtain rfl | h := hnow
        · exact hdead
        · exact h
      · exact s.chanDead_dead _ _ (hnow.imp_left Eq.symm)

/-! ## Wires -/

theorem State.spareGroupUsed_iff (s : State) (l : Nat) : s.spareGroupUsed l = true ↔
    ∃ i, i < 256 ∧ Tbl.get (Tbl.const false) s.selv.moved (256 * l + i) = true := by
  simp [State.spareGroupUsed]

/-- Settles O32: what the loss of a port leaves of the links is said once (`State.portLost_lostPorts`), and what a channel
that dies leaves, too (`State.chanDead_besides`). -/
theorem clocksAndWires : Obligations.ClocksAndWires := by
  unfold Obligations.ClocksAndWires
  refine ⟨fun t s => ⟨refclkLoss_leaves t s, fun h p hp => exec_lock_refLost (hp ▸ h), exec_refclkReturn_running,
    refclkReturn_leaves⟩, ?_⟩
  intro l g lanes chans s key n moved src s1 spareTaken beyond
  have hexec : exec (.wireFail l g lanes chans) s = execWireFail l g lanes chans s := rfl
  have hused : s.spareGroupUsed l.val = true ↔ spareTaken := s.spareGroupUsed_iff l.val
  refine ⟨fun h => by rw [hexec, execWireFail, unlessReset, if_pos h], fun h => ?_⟩
  have hrun : exec (.wireFail l g lanes chans) s =
      if n = 1 ∨ (n = 3 ∧ moved key = true) then .next (s1.masked 1 src key 0)
      else if n = 2 ∧ !s.spareGroupUsed l.val then .next (({ s1 with selv := { s1.selv with
        moved := Tbl.set (Tbl.const false) s1.selv.moved key true } }).masked 2 src key 0)
      else if l.val < 8 then .next (s1.lanesDown lanes) else .next (s1.chansDead chans) := by
    rw [hexec, execWireFail, unlessReset, if_neg (by simp [h])]
    rfl
  have hbeyond (hb : beyond) : exec (.wireFail l g lanes chans) s =
      if l.val < 8 then .next (s1.lanesDown lanes) else .next (s1.chansDead chans) := by
    have hfirst : ¬ (n = 1 ∨ (n = 3 ∧ moved key = true)) := by
      rintro (h1 | ⟨h3, hm⟩)
      · obtain ⟨h2, _⟩ | ⟨h3, _⟩ | h3 := hb <;> omega
      · obtain ⟨h2, _⟩ | ⟨_, hm'⟩ | h3 := hb
        · omega
        · simp [hm] at hm'
        · omega
    have hsecond : ¬ (n = 2 ∧ (!s.spareGroupUsed l.val) = true) := by
      rintro ⟨h2, hfree⟩
      obtain ⟨_, ht⟩ | ⟨h3, _⟩ | h3 := hb
      · rw [hused.2 ht] at hfree
        cases hfree
      · omega
      · omega
    rw [hrun, if_neg hfirst, if_neg hsecond]
  refine ⟨fun hn => by rw [hrun, if_pos hn], fun hn hfree => ?_, fun hb hl => ?_, fun hb hl => ?_⟩
  · have hunused : s.spareGroupUsed l.val = false := Bool.eq_false_iff.2 fun hu => hfree (hused.1 hu)
    rw [hrun, if_neg (by omega), if_pos ⟨hn, by rw [hunused]; rfl⟩]
  · refine ⟨_, (hbeyond hb).trans (if_pos hl), fun q hq hon => ?_⟩
    refine (s1.lanesDown_lostPorts lanes).lost _ q.isLt ⟨List.mem_range.2 q.isLt, ?_⟩
    rw [Bool.and_eq_true, List.any_eq_true]
    exact ⟨hon, q, hq, decide_eq_true ⟨le_refl _, Nat.lt_add_of_pos_right (speedLanes_pos _)⟩⟩
  · exact ⟨_, (hbeyond hb).trans (if_neg (by omega)), fun ch hch => s1.chansDead_dead chans _ (.inl ⟨ch, hch, rfl⟩)⟩

end Sys2Proof.Machine
end

section
/-! PROOF. The bytes of frames that leave: bolt segments, time actions and PFC frames (R330, R332, R383). -/

namespace Sys2Proof

/-! ## Patches of parts, and patches over patches -/

theorem drop_patch (bs : List Byte) (o p : Nat) (new : List Byte) :
    patch (bs.drop o) p new = (patch bs (o + p) new).drop o := by
  refine List.ext_getElem? fun i => ?_
  simp only [getElem?_patch, List.getElem?_drop, List.length_drop]
  have hpos : i - p = o + i - (o + p) := by omega
  rw [hpos]
  by_cases h : p ≤ i ∧ i < p + new.length ∧ i < bs.length - o
  · rw [if_pos h, if_pos (by omega)]
  · rw [if_neg h, if_neg (by omega)]

theorem patch_append {a : List Byte} (b : List Byte) {o : Nat} {new : List Byte} (h : o + new.length ≤ a.length) :
    patch (a ++ b) o new = patch a o new ++ b := by
  refine List.ext_getElem? fun i => ?_
  simp only [getElem?_patch, List.getElem?_append, length_patch, List.length_append]
  by_cases hi : i < a.length
  · simp [hi, Nat.lt_add_right _ hi]
  · rw [if_neg (by omega), if_neg hi, if_neg hi]

/-- A patch hides one of the same length before it. -/
theorem patch_patch (bs : List Byte) (o : Nat) {a b : List Byte} (h : a.length = b.length) :
    patch (patch bs o a) o b = patch bs o b := by
  refine List.ext_getElem? fun i => ?_
  simp only [getElem?_patch, length_patch, h]
  split <;> rfl

theorem patch_slice {bs : List Byte} {o k p : Nat} {new : List Byte} (hp : p + new.length ≤ k) (hk : o + k ≤ bs.length) :
    patch (slice bs o k) p new = slice (patch bs (o + p) new) o k := by
  refine List.ext_getElem? fun i => ?_
  rw [getElem?_patch, getElem?_slice, getElem?_slice, getElem?_patch, length_slice]
  by_cases hi : p ≤ i ∧ i < p + new.length
  · rw [if_pos (by omega), if_pos (by omega), if_pos (by omega), show o + i - (o + p) = i - p by omega,
      List.getElem?_eq_getElem (show i - p < new.length by omega)]
    rfl
  · by_cases hk : i < k
    · rw [if_neg (by omega), if_pos hk, if_pos hk, if_neg (by omega)]
    · rw [if_neg (by omega), if_neg hk, if_neg hk]

theorem slice_append_right (a b : List Byte) (o k : Nat) : slice (a ++ b) (a.length + o) k = slice b o k :=
  slice_congr fun i _ => by rw [List.getElem?_append_right (by omega)]; congr 1; omega

/-- Part of what a patch writes. -/
theorem slice_patch_inside {bs new : List Byte} {o p k : Nat} (hk : p + k ≤ new.length) (h : o + new.length ≤ bs.length) :
    slice (patch bs o new) (o + p) k = slice new p k :=
  slice_congr fun i hi => by
    rw [getElem?_patch, if_pos (by omega)]
    congr 1
    omega

theorem slice_self (bs : List Byte) : slice bs 0 bs.length = bs := by simp [slice]

theorem beAt_toBE_append (k n : Nat) (b : List Byte) : beAt (toBE k n ++ b) 0 k = n % 256 ^ k := by
  have h := slice_self (toBE k n)
  rw [length_toBE] at h
  rw [beAt, slice_append_left _ (by rw [length_toBE]; omega), h, ofBE_toBE]

/-- A number of two bytes patched in reads back. -/
theorem beAt_patch_two {bs : List Byte} {o : Nat} (n : Nat) (h : o + 2 ≤ bs.length) :
    beAt (patch bs o (toBE 2 n)) o 2 = n % 65536 := beAt_patch_toBE n h

theorem beAt_append_right (a b : List Byte) (o k : Nat) : beAt (a ++ b) (a.length + o) k = beAt b o k :=
  congrArg ofBE (slice_append_right a b o k)

namespace Machine

theorem inetSum_lt (bs : List Byte) : inetSum bs < 65536 := by unfold inetSum; omega
theorem csumAdjust_lt (hc : Nat) (old new : List Byte) : csumAdjust hc old new < 65536 := by
  unfold csumAdjust
  dsimp only
  omega

theorem beAt_patch_byte {bs : List Byte} {o n : Nat} (hn : n < 256) (ho : o < bs.length) :
    beAt (patch bs o [BitVec.ofNat 8 n]) o 1 = n := by
  have h := slice_patch_same (bs := bs) (new := [BitVec.ofNat 8 n]) (o := o) ho
  rw [List.length_singleton] at h
  rw [beAt, h]
  show ofLE [BitVec.ofNat 8 n] = n
  simp [ofLE, Nat.mod_eq_of_lt hn]

/-! ## Headers of segments -/

/-- R332: the length of the IP header that a segment's fields are fixed in. -/
def ipLen (ip6 : Bool) : Nat := if ip6 then 40 else 20

@[simp] theorem length_fixIp (ip6 : Bool) (l3 hl i plen : Nat) (h : List Byte) :
    (fixIp ip6 l3 hl i plen h).length = h.length := by
  unfold fixIp
  split <;> simp

@[simp] theorem length_fixL4 (ip6 udp : Bool) (l3 l4 hl mss i : Nat) (last : Bool) (pay h : List Byte) :
    (fixL4 ip6 udp l3 l4 hl mss i last pay h).length = h.length := by
  unfold fixL4
  split <;> simp

/-- R332: what lies outside the IP header stays. -/
theorem getElem?_fixIp_out (ip6 : Bool) {l3 hl i plen : Nat} {h : List Byte} {j : Nat}
    (hj : j < l3 ∨ l3 + ipLen ip6 ≤ j) : (fixIp ip6 l3 hl i plen h)[j]? = h[j]? := by
  have hout (o : Nat) (v b : List Byte) (h1 : l3 ≤ o) (h2 : o + v.length ≤ l3 + ipLen ip6) : (patch b o v)[j]? = b[j]? :=
    getElem?_patch_out b (by omega)
  cases ip6
  · have hlen : ipLen false = 20 := rfl
    unfold fixIp
    rw [if_neg (by decide), hout _ _ _ (by omega) (by rw [length_toBE]; omega),
      hout _ _ _ (by omega) (by simp only [List.length_cons, List.length_nil]; omega),
      hout _ _ _ (by omega) (by rw [length_toBE]; omega), hout _ _ _ (by omega) (by rw [length_toBE]; omega)]
  · have hlen : ipLen true = 40 := rfl
    unfold fixIp
    rw [if_pos rfl, hout _ _ _ (by omega) (by rw [length_toBE]; omega)]

/-- R332: what lies before the transport header stays. -/
theorem getElem?_fixL4_out {ip6 udp : Bool} {l3 l4 hl mss i : Nat} {last : Bool} {pay h : List Byte} {j : Nat}
    (hj : j < l4) : (fixL4 ip6 udp l3 l4 hl mss i last pay h)[j]? = h[j]? := by
  have hout {o : Nat} (v b : List Byte) (ho : l4 ≤ o) : (patch b o v)[j]? = b[j]? := getElem?_patch_out b (by omega)
  unfold fixL4
  split
  · rw [hout _ _ (by omega), hout _ _ (by omega), hout _ _ (by omega)]
  · rw [hout _ _ (by omega), hout _ _ (by omega), hout _ _ (by omega), hout _ _ (by omega)]

/-- R332: the IPv6 payload length. -/
theorem fixIp_six {l3 hl i plen : Nat} {h : List Byte} (hlen : l3 + 40 ≤ h.length) :
    beAt (fixIp true l3 hl i plen h) (l3 + 4) 2 = (hl - l3 - 40 + plen) % 65536 := beAt_patch_toBE _ (by omega)

/-- R332: the IPv4 fields: total length, identification, the fragment word as it was, and the checksum. -/
theorem fixIp_four {l3 hl i plen : Nat} {h : List Byte} (hlen : l3 + 20 ≤ h.length) :
    let g := fixIp false l3 hl i plen h
    beAt g (l3 + 2) 2 = (hl - l3 + plen) % 65536 ∧ beAt g (l3 + 4) 2 = (beAt h (l3 + 4) 2 + i) % 65536 ∧
      beAt g (l3 + 6) 2 = beAt h (l3 + 6) 2 ∧ beAt g (l3 + 10) 2 = inetSum (patch (slice g l3 20) 10 [0, 0]) := by
  intro g
  let a := patch h (l3 + 2) (toBE 2 (hl - l3 + plen))
  let b := patch a (l3 + 4) (toBE 2 (beAt a (l3 + 4) 2 + i))
  let z := patch b (l3 + 10) [0, 0]
  have hg : g = patch z (l3 + 10) (toBE 2 (inetSum (slice z l3 20))) := rfl
  have ha : a.length = h.length := length_patch _ _ _
  have hb : b.length = h.length := (length_patch _ _ _).trans ha
  have hz : z.length = h.length := (length_patch _ _ _).trans hb
  have hbefore {o : Nat} (ho : o + 2 ≤ l3 + 10) : beAt g o 2 = beAt b o 2 := by
    rw [hg, beAt_patch_out _ (by simp; omega), beAt_patch_out _ (by simp; omega)]
  refine ⟨?_, ?_, ?_, ?_⟩
  · rw [hbefore (by omega), beAt_patch_out _ (by simp), beAt_patch_two _ (by omega)]
  · rw [hbefore (by omega), beAt_patch_two _ (by omega), beAt_patch_out _ (by simp)]
  · rw [hbefore (by omega), beAt_patch_out _ (by simp), beAt_patch_out _ (by simp)]
  · rw [hg, beAt_patch_two _ (by omega), Nat.mod_eq_of_lt (inetSum_lt _),
      patch_slice (by simp) (by rw [length_patch]; omega), patch_patch _ _ (by simp), patch_patch _ _ rfl]

/-- The pseudo-header depends on the IP header alone. -/
theorem pseudo_congr {ip6 : Bool} {l3 : Nat} {a b : List Byte} (h : ∀ j, j < l3 + ipLen ip6 → a[j]? = b[j]?)
    (proto len : Nat) :
    pseudo ip6 l3 proto len a = pseudo ip6 l3 proto len b := by
  unfold pseudo
  cases ip6
  · rw [if_neg (by decide), if_neg (by decide), slice_congr fun i hi => h _ (by simp [ipLen]; omega)]
  · rw [if_pos rfl, if_pos rfl, slice_congr fun i hi => h _ (by simp [ipLen]; omega)]

/-- R332: a checksum of the transport header is taken with its own bytes 0. -/
theorem transport_sum {ip6 : Bool} {l3 l4 pos proto len v : Nat} {b pay : List Byte} (hl4 : l3 + ipLen ip6 = l4)
    (hlen : l4 + pos + 2 ≤ b.length) :
    let z := patch b (l4 + pos) [0, 0]
    let g := patch z (l4 + pos) (toBE 2 v) ++ pay
    inetSum (pseudo ip6 l3 proto len g ++ patch (g.drop l4) pos [0, 0]) =
      inetSum (pseudo ip6 l3 proto len z ++ z.drop l4 ++ pay) := by
  intro z g
  have hz : z.length = b.length := length_patch _ _ _
  have hpseudo : pseudo ip6 l3 proto len g = pseudo ip6 l3 proto len z := by
    refine pseudo_congr (fun j hj => ?_) _ _
    rw [List.getElem?_append_left (by rw [length_patch]; omega), getElem?_patch_out _ (by omega)]
  have hdrop : patch (g.drop l4) pos [0, 0] = z.drop l4 ++ pay := by
    rw [drop_patch, patch_append _ (by rw [length_patch, hz]; exact hlen), patch_patch _ _ (by simp), patch_patch _ _ rfl,
      List.drop_append_of_le_length (by rw [length_patch]; omega)]
  rw [hpseudo, hdrop, List.append_assoc]

section
variable {ip6 : Bool} {l3 l4 hl mss i : Nat} {last : Bool} {pay h : List Byte} (hl4 : l3 + ipLen ip6 = l4)
include hl4

/-- R332: the UDP length and checksum of a segment. -/
theorem fixL4_udp (hlen : l4 + 8 ≤ h.length) :
    let tl := hl - l4 + pay.length
    let g := fixL4 ip6 true l3 l4 hl mss i last pay h ++ pay
    let sum := inetSum (pseudo ip6 l3 17 tl g ++ patch (g.drop l4) 6 [0, 0])
    beAt g (l4 + 4) 2 = tl % 65536 ∧ beAt g (l4 + 6) 2 = if sum = 0 then 65535 else sum := by
  intro tl g sum
  let b := patch h (l4 + 4) (toBE 2 tl)
  let z := patch b (l4 + 6) [0, 0]
  let v := inetSum (pseudo ip6 l3 17 tl z ++ z.drop l4 ++ pay)
  have hb : b.length = h.length := length_patch _ _ _
  have hz : z.length = h.length := (length_patch _ _ _).trans hb
  have hg : g = patch z (l4 + 6) (toBE 2 (if v = 0 then 65535 else v)) ++ pay := rfl
  have hsum : sum = v := transport_sum (pos := 6) hl4 (by rw [hb]; omega)
  have hv : v < 65536 := inetSum_lt _
  refine ⟨?_, ?_⟩
  · rw [hg, beAt_append_left _ (by rw [length_patch]; omega), beAt_patch_out _ (by simp), beAt_patch_out _ (by simp),
      beAt_patch_two _ (by omega)]
  · rw [hg, beAt_append_left _ (by rw [length_patch]; omega), beAt_patch_two _ (by omega), hsum]
    split
    · rfl
    · exact Nat.mod_eq_of_lt hv

/-- R332: the TCP sequence number, flags and checksum of a segment. -/
theorem fixL4_tcp (hlen : l4 + 20 ≤ h.length) :
    let tl := hl - l4 + pay.length
    let g := fixL4 ip6 false l3 l4 hl mss i last pay h ++ pay
    let sum := inetSum (pseudo ip6 l3 6 tl g ++ patch (g.drop l4) 16 [0, 0])
    beAt g (l4 + 4) 4 = (beAt h (l4 + 4) 4 + mss * i) % 2 ^ 32 ∧
      beAt g (l4 + 13) 1 = beAt h (l4 + 13) 1 &&& (if last then 255 else 0xF6) &&& (if i = 0 then 255 else 0x7F) ∧
      beAt g (l4 + 16) 2 = sum := by
  intro tl g sum
  let fl := beAt h (l4 + 13) 1
  let fl1 := if last then fl else fl &&& 0xF6
  let fl2 := if i = 0 then fl1 else fl1 &&& 0x7F
  let a := patch h (l4 + 4) (toBE 4 (beAt h (l4 + 4) 4 + mss * i))
  let b := patch a (l4 + 13) [BitVec.ofNat 8 fl2]
  let z := patch b (l4 + 16) [0, 0]
  let v := inetSum (pseudo ip6 l3 6 tl z ++ z.drop l4 ++ pay)
  have ha : a.length = h.length := length_patch _ _ _
  have hb : b.length = h.length := (length_patch _ _ _).trans ha
  have hz : z.length = h.length := (length_patch _ _ _).trans hb
  have hg : g = patch z (l4 + 16) (toBE 2 v) ++ pay := rfl
  have hsum : sum = v := transport_sum (pos := 16) hl4 (by rw [hb]; omega)
  have hbefore {o n : Nat} (ho : o + n ≤ l4 + 16) : beAt g o n = beAt b o n := by
    rw [hg, beAt_append_left _ (by rw [length_patch]; omega), beAt_patch_out _ (by simp; omega),
      beAt_patch_out _ (by simp; omega)]
  have hfl : fl < 256 := beAt_lt _ _ _
  have hand (n : Nat) (hn : n < 256) : n &&& 255 = n := by
    rw [show 255 = 2 ^ 8 - 1 from rfl, Nat.and_two_pow_sub_one_eq_mod]
    exact Nat.mod_eq_of_lt hn
  have hfl1 : fl1 = fl &&& (if last then 255 else 0xF6) := by
    unfold fl1
    split
    · exact (hand _ hfl).symm
    · rfl
  have hlt1 : fl1 < 256 := hfl1 ▸ Nat.and_le_left.trans_lt hfl
  have hfl2 : fl2 = fl1 &&& (if i = 0 then 255 else 0x7F) := by
    unfold fl2
    split
    · exact (hand _ hlt1).symm
    · rfl
  have hlt2 : fl2 < 256 := hfl2 ▸ Nat.and_le_left.trans_lt hlt1
  refine ⟨?_, ?_, ?_⟩
  · rw [hbefore (by omega), beAt_patch_out _ (by simp)]
    exact beAt_patch_toBE _ (by omega)
  · rw [hbefore (by omega), beAt_patch_byte hlt2 (by omega), hfl2, hfl1]
  · rw [hg, beAt_append_left _ (by rw [length_patch]; omega), beAt_patch_two _ (by omega), hsum]
    exact Nat.mod_eq_of_lt (inetSum_lt _)

end

/-! ## Segments -/

section
variable (ip6 udp : Bool) (l3 l4 hl mss i : Nat) (last : Bool) (pay f : List Byte)

/-- R332: a segment: the header of the bolt, with its IP and transport fields fixed, and its part of the payload. -/
def fixedSegment : List Byte :=
  fixL4 ip6 udp l3 l4 hl mss i last pay (fixIp ip6 l3 hl i pay.length (f.take hl)) ++ pay

variable {ip6 udp l3 l4 hl mss i last pay f} (hhl : hl ≤ f.length) (hl4 : l3 + ipLen ip6 = l4)
  (htl : l4 + (if udp then 8 else 20) ≤ hl)

include hl4 in
/-- R332: the transport header that is fixed reads as the bolt's. -/
theorem beAt_fixIp_l4 {o k : Nat} (h : l4 ≤ o) (hk : o + k ≤ hl) :
    beAt (fixIp ip6 l3 hl i pay.length (f.take hl)) o k = beAt f o k :=
  beAt_congr fun j hj => by
    rw [getElem?_fixIp_out _ (.inr (by omega)), List.getElem?_take, if_pos (by omega)]

include hhl

theorem length_fixed (b : List Byte) :
    (fixL4 ip6 udp l3 l4 hl mss i last b (fixIp ip6 l3 hl i pay.length (f.take hl))).length = hl := by
  rw [length_fixL4, length_fixIp, List.length_take, Nat.min_eq_left hhl]

theorem fixedSegment_drop : (fixedSegment ip6 udp l3 l4 hl mss i last pay f).drop hl = pay :=
  List.drop_left' (length_fixed hhl pay)

include htl

/-- R332: before its transport header a segment reads as its IP header with the fields fixed. -/
theorem getElem?_fixedSegment_ip {j : Nat} (hj : j < l4) :
    (fixedSegment ip6 udp l3 l4 hl mss i last pay f)[j]? = (fixIp ip6 l3 hl i pay.length (f.take hl))[j]? := by
  have hlt : l4 ≤ hl := by omega
  rw [fixedSegment, List.getElem?_append_left (by rw [length_fixed hhl]; omega), getElem?_fixL4_out hj]

theorem beAt_fixedSegment_ip {o k : Nat} (h : o + k ≤ l4) : beAt (fixedSegment ip6 udp l3 l4 hl mss i last pay f) o k =
    beAt (fixIp ip6 l3 hl i pay.length (f.take hl)) o k :=
  beAt_congr fun _ _ => getElem?_fixedSegment_ip hhl htl (by omega)

include hl4

theorem fixedSegment_take : (fixedSegment ip6 udp l3 l4 hl mss i last pay f).take l3 = f.take l3 := by
  refine List.ext_getElem? fun j => ?_
  rw [List.getElem?_take, List.getElem?_take]
  split
  · rw [getElem?_fixedSegment_ip hhl htl (by omega), getElem?_fixIp_out _ (.inl ‹_›), List.getElem?_take, if_pos (by omega)]
  · rfl

theorem fixedSegment_ip6 (h6 : ip6 = true) : beAt (fixedSegment ip6 udp l3 l4 hl mss i last pay f) (l3 + 4) 2 =
    (hl - l3 - 40 + pay.length) % 65536 := by
  subst h6
  have hlen : l3 + 40 = l4 := hl4
  rw [beAt_fixedSegment_ip hhl htl (by omega)]
  exact fixIp_six (by rw [List.length_take]; omega)

theorem fixedSegment_ip4 (h4 : ip6 = false) :
    let g := fixedSegment ip6 udp l3 l4 hl mss i last pay f
    beAt g (l3 + 2) 2 = (hl - l3 + pay.length) % 65536 ∧ beAt g (l3 + 4) 2 = (beAt f (l3 + 4) 2 + i) % 65536 ∧
      beAt g (l3 + 6) 2 = beAt f (l3 + 6) 2 ∧ beAt g (l3 + 10) 2 = inetSum (patch (slice g l3 20) 10 [0, 0]) := by
  subst h4
  have hlen : l3 + 20 = l4 := hl4
  intro g
  have hread {o k : Nat} (h : o + k ≤ l4) : beAt g o k = _ := beAt_fixedSegment_ip hhl htl h
  have hslice : slice g l3 20 = slice (fixIp false l3 hl i pay.length (f.take hl)) l3 20 :=
    slice_congr fun _ _ => getElem?_fixedSegment_ip hhl htl (by omega)
  have htake {o : Nat} (h : o + 2 ≤ hl) : beAt (f.take hl) o 2 = beAt f o 2 :=
    beAt_congr fun j hj => by rw [List.getElem?_take, if_pos (by omega)]
  obtain ⟨htotal, hid, hfrag, hsum⟩ := fixIp_four (l3 := l3) (hl := hl) (i := i) (plen := pay.length) (h := f.take hl)
    (by rw [List.length_take]; omega)
  refine ⟨?_, ?_, ?_, ?_⟩
  · rw [hread (by omega), htotal]
  · rw [hread (by omega), hid, htake (by omega)]
  · rw [hread (by omega), hfrag, htake (by omega)]
  · rw [hread (by omega), hsum, hslice]

theorem fixedSegment_udp (hu : udp = true) :
    let tl := hl - l4 + pay.length
    let g := fixedSegment ip6 udp l3 l4 hl mss i last pay f
    let sum := inetSum (pseudo ip6 l3 17 tl g ++ patch (g.drop l4) 6 [0, 0])
    beAt g (l4 + 4) 2 = tl % 65536 ∧ beAt g (l4 + 6) 2 = if sum = 0 then 65535 else sum := by
  subst hu
  exact fixL4_udp hl4 (by rw [length_fixIp, List.length_take, Nat.min_eq_left hhl]; exact htl)

theorem fixedSegment_tcp (hu : udp = false) :
    let tl := hl - l4 + pay.length
    let g := fixedSegment ip6 udp l3 l4 hl mss i last pay f
    let sum := inetSum (pseudo ip6 l3 6 tl g ++ patch (g.drop l4) 16 [0, 0])
    beAt g (l4 + 4) 4 = (beAt f (l4 + 4) 4 + mss * i) % 2 ^ 32 ∧
      beAt g (l4 + 13) 1 = beAt f (l4 + 13) 1 &&& (if last then 255 else 0xF6) &&& (if i = 0 then 255 else 0x7F) ∧
      beAt g (l4 + 16) 2 = sum := by
  subst hu
  have hlen : l4 + 20 ≤ hl := htl
  intro tl g sum
  obtain ⟨hseq, hflags, hsum⟩ := fixL4_tcp (hl := hl) (mss := mss) (i := i) (last := last) (pay := pay)
    (h := fixIp ip6 l3 hl i pay.length (f.take hl)) hl4
    (by rw [length_fixIp, List.length_take, Nat.min_eq_left hhl]; exact htl)
  have hread {o k : Nat} (h : l4 ≤ o) (hk : o + k ≤ hl) :
      beAt (fixIp ip6 l3 hl i pay.length (f.take hl)) o k = beAt f o k := beAt_fixIp_l4 hl4 h hk
  rw [hread (by omega) (by omega)] at hseq hflags
  exact ⟨hseq, hflags, hsum⟩

end

theorem boltSegs_eq (x : Pkt) : x.boltSegs =
    max 1 ((x.frame.length - 4 - x.bolt.toNat / 2 ^ 24 % 256 + x.bolt.toNat % 2 ^ 14 - 1) /
      (x.bolt.toNat % 2 ^ 14)) := by
  have hhdr : x.boltHdr = x.bolt.toNat / 2 ^ 24 % 256 := bitsOf_eq _ _ _
  have hmss : x.boltMss = x.bolt.toNat % 2 ^ 14 := (bitsOf_eq _ _ _).trans (by rw [Nat.pow_zero, Nat.div_one])
  rw [Pkt.boltSegs, Pkt.boltPay, hhdr, hmss]
  rfl

theorem boltSegment_eq (x : Pkt) (f : List Byte) (dl : Int) (i : Nat) :
    let w := x.bolt.toNat
    let mss := w % 2 ^ 14
    let sh (n : Nat) : Nat := ((n : Int) + dl).toNat
    let hl := sh (w / 2 ^ 24 % 256)
    boltSegment x f dl i = fixedSegment (w.testBit 60) (decide (w / 2 ^ 61 % 4 = 1)) (sh (w / 2 ^ 40 % 256))
      (sh (w / 2 ^ 32 % 256)) hl mss i (decide (i + 1 = x.boltSegs)) (((f.drop hl).drop (mss * i)).take mss) f := by
  have hhdr : x.boltHdr = x.bolt.toNat / 2 ^ 24 % 256 := bitsOf_eq _ _ _
  have hmss : x.boltMss = x.bolt.toNat % 2 ^ 14 := (bitsOf_eq _ _ _).trans (by rw [Nat.pow_zero, Nat.div_one])
  have h3 : bitsOf x.bolt.toNat 47 40 = x.bolt.toNat / 2 ^ 40 % 256 := bitsOf_eq _ _ _
  have h4 : bitsOf x.bolt.toNat 39 32 = x.bolt.toNat / 2 ^ 32 % 256 := bitsOf_eq _ _ _
  have hudp : bitsOf x.bolt.toNat 62 61 = x.bolt.toNat / 2 ^ 61 % 4 := bitsOf_eq _ _ _
  unfold boltSegment fixedSegment
  simp only [hhdr, hmss, h3, h4, hudp]

theorem length_boltSegments (x : Pkt) (f : List Byte) (dl : Int) : (boltSegments x f dl).length = x.boltSegs := by
  simp [boltSegments]

theorem getD_boltSegments {x : Pkt} {f : List Byte} {dl : Int} {i : Nat} (h : i < (boltSegments x f dl).length) :
    (boltSegments x f dl).getD i [] = boltSegment x f dl i := by
  rw [List.getD_eq_getElem?_getD, List.getElem?_eq_getElem h]
  simp [boltSegments]

end Machine
end Sys2Proof
end

section
/-! PROOF. The time actions of frames that leave (R382 to R384), byte by byte. -/

namespace Sys2Proof.Machine

/-- R383: a sum that does not fit is written as the greatest. -/
def satSum (k : Int) : Int := if -(2 ^ 63) ≤ k ∧ k < 2 ^ 63 then k else 2 ^ 63 - 1

@[simp] theorem length_correction (old : Nat) (k : Int) : (correction old k).length = 8 := by
  unfold correction
  dsimp only
  split <;> exact length_toBE _ _

/-- A signed number of 64 bits from its bits. -/
theorem sxInt_toNat {v : Int} (h : -(2 ^ 63) ≤ v ∧ v < 2 ^ 63) : sxInt 64 ((v % (2 ^ 64 : Nat)).toNat % 2 ^ 64) = v := by
  unfold sxInt
  dsimp only
  norm_num at h ⊢
  split <;> omega

/-- R383: the correctionField written reads back as the sum. -/
theorem sxInt_correction (f : List Byte) {o : Nat} (old : Nat) (k : Int) (h : o + 8 ≤ f.length) :
    sxInt 64 (beAt (patch f o (correction old k)) o 8) = satSum (sxInt 64 old + k) := by
  unfold correction satSum
  dsimp only
  split
  · next hover =>
    rw [if_neg (by norm_num at hover ⊢; omega), beAt_patch_toBE _ h]
    decide
  · next hfits =>
    rw [if_pos (by norm_num at hfits ⊢; omega), beAt_patch_toBE _ h]
    exact sxInt_toNat (by norm_num at hfits ⊢; omega)

/-- R383: a frame with its UDP checksum adjusted, where it has one. -/
def csumFixed (udp : Prop) [Decidable udp] (uo po hi : Nat) (f g : List Byte) : List Byte :=
  if udp then udpFix uo f g (po + 8) hi else g

section
variable {udp : Prop} [Decidable udp] {uo po hi : Nat} {f g : List Byte}

theorem length_udpFix (lo : Nat) : (udpFix uo f g lo hi).length = g.length := by
  unfold udpFix
  dsimp only
  split
  · rfl
  · exact length_patch _ _ _

@[simp] theorem length_csumFixed : (csumFixed udp uo po hi f g).length = g.length := by
  unfold csumFixed
  split
  · exact length_udpFix _
  · rfl

/-- R383: the adjustment writes the checksum and nothing else. -/
theorem getElem?_csumFixed {j : Nat} (h : ¬ (udp ∧ uo + 6 ≤ j ∧ j < uo + 8)) :
    (csumFixed udp uo po hi f g)[j]? = g[j]? := by
  unfold csumFixed udpFix
  split
  · next hu =>
    dsimp only
    split
    · rfl
    · have hout : ¬ (uo + 6 ≤ j ∧ j < uo + 8) := fun hj => h ⟨hu, hj⟩
      exact getElem?_patch_out _ (by rw [length_toBE]; omega)
  · rfl

/-- R383: the checksum is adjusted by the words that changed; 0 says that there is none. -/
theorem beAt_csumFixed (hu : udp) (huo : uo + 8 ≤ po) (hlen : po + 8 ≤ g.length)
    (hsame : ∀ j, j < po + 8 → g[j]? = f[j]?) :
    let r := csumFixed udp uo po hi f g
    let hc := beAt f (uo + 6) 2
    let lo := po + 8 - (po + 8 + uo) % 2
    let n := (hi - lo) + (hi - lo) % 2
    let c := csumAdjust hc (slice f lo n) (slice r lo n)
    beAt r (uo + 6) 2 = if hc = 0 then 0 else if c = 0 then 65535 else c := by
  intro r hc lo n c
  have hslice : slice r lo n = slice g lo n := slice_congr fun i hi => getElem?_csumFixed (by omega)
  have hhc : beAt g (uo + 6) 2 = hc := beAt_congr fun i hi => hsame _ (by omega)
  have hr : r = if hc = 0 then g else patch g (uo + 6) (toBE 2 (if c = 0 then 65535 else c)) := by
    have hsum : c = csumAdjust hc (slice f lo n) (slice g lo n) := by unfold c; rw [hslice]
    unfold r csumFixed udpFix
    rw [if_pos hu, hhc, hsum]
  split
  · next h => rw [hr, if_pos h, hhc, h]
  · next h =>
    have hlt : c < 65536 := csumAdjust_lt _ _ _
    rw [hr, if_neg h, beAt_patch_two _ (by omega)]
    split
    · rfl
    · exact Nat.mod_eq_of_lt hlt

end

/-! ## The two actions -/

/-- R382: the correctionField, at `po + 8`, gains `k`. -/
def gained (po : Nat) (k : Int) (f g : List Byte) : List Byte := patch g (po + 8) (correction (beAt f (po + 8) 8) k)

/-- R382: the egress stamp `t`, its seconds and nanoseconds, at `po + 34`. -/
def stamped (po t : Nat) (f : List Byte) : List Byte :=
  patch f (po + 34) (toBE 6 (t / secUnit) ++ toBE 4 (t % secUnit / nsUnit))

section
variable {po t : Nat} {k : Int} {f g : List Byte}

@[simp] theorem length_gained : (gained po k f g).length = g.length := length_patch _ _ _
@[simp] theorem length_stamped : (stamped po t f).length = f.length := length_patch _ _ _

theorem getElem?_gained {j : Nat} (h : ¬ (po + 8 ≤ j ∧ j < po + 16)) : (gained po k f g)[j]? = g[j]? :=
  getElem?_patch_out _ (by rw [length_correction]; omega)

theorem getElem?_stamped {j : Nat} (h : ¬ (po + 34 ≤ j ∧ j < po + 44)) : (stamped po t f)[j]? = f[j]? :=
  getElem?_patch_out _ (by rw [List.length_append, length_toBE, length_toBE]; omega)

theorem beAt_gained (h : po + 16 ≤ g.length) :
    sxInt 64 (beAt (gained po k f g) (po + 8) 8) = satSum (sxInt 64 (beAt f (po + 8) 8) + k) :=
  sxInt_correction g _ _ (by omega)

/-- R382: the seconds and the nanoseconds of the stamp read back. -/
theorem beAt_stamped (h : po + 44 ≤ f.length) :
    beAt (stamped po t f) (po + 34) 6 = t / secUnit % 2 ^ 48 ∧
      beAt (stamped po t f) (po + 40) 4 = t % secUnit / nsUnit % 2 ^ 32 := by
  have hin {o n : Nat} (ho : o + n ≤ 10) : beAt (stamped po t f) (po + 34 + o) n =
      beAt (toBE 6 (t / secUnit) ++ toBE 4 (t % secUnit / nsUnit)) o n :=
    congrArg ofBE (slice_patch_inside (by simpa using ho) (by simpa using h))
  constructor
  · exact (hin (o := 0) (by omega)).trans (beAt_toBE_append _ _ _)
  · refine (hin (o := 6) (by omega)).trans ?_
    have hright := beAt_append_right (toBE 6 (t / secUnit)) (toBE 4 (t % secUnit / nsUnit)) 0 4
    rw [length_toBE] at hright
    have hfirst := beAt_toBE_append 4 (t % secUnit / nsUnit) []
    rw [List.append_nil] at hfirst
    exact hright.trans hfirst

end

/-! ## When an action is taken -/

section
variable (w : Nat) (dl : Int)

/-- R382: where the PTP message begins in the tagged frame. -/
def ptpPos : Int := (w / 2 ^ 48 % 256 : Nat) + dl
/-- R382: where its UDP header begins. -/
def ptpUdpPos : Int := (w / 2 ^ 40 % 256 : Nat) + dl
/-- R383: ADD, in the units of the correctionField. -/
def ptpAdd : Int := sxInt 16 (w / 2 ^ 24) * 65536
/-- R384: what the action reads and writes lies in the tagged frame and its first 192 bytes. -/
def ptpFits (tagged : Nat) : Prop :=
  0 ≤ ptpPos w dl ∧ ptpPos w dl + 44 ≤ min 192 (tagged : Int) ∧
    (w / 2 ^ 40 % 256 ≠ 0 → 0 ≤ ptpUdpPos w dl ∧ ptpUdpPos w dl + 8 ≤ min 192 (tagged : Int))
/-- R383: the frame after an action that wrote up to `hi`. -/
def ptpFixed (hi : Nat) (f g : List Byte) : List Byte :=
  csumFixed (w / 2 ^ 40 % 256 ≠ 0) (ptpUdpPos w dl).toNat (ptpPos w dl).toNat hi f g

end

theorem sxInt_add (w : Nat) : sxInt 16 (bitsOf w 39 24) = sxInt 16 (w / 2 ^ 24) := by
  rw [bitsOf_eq]
  unfold sxInt
  rw [Nat.mod_mod]

/-- R384: the guard of a time action. -/
theorem ptpGuard_iff (x : Pkt) (w tagged : Nat) (dl : Int) :
    (x.isBolt = true ∨ ptpPos w dl < 0 ∨ min 192 (tagged : Int) < ptpPos w dl + 44 ∨
      (w / 2 ^ 40 % 256 ≠ 0 ∧ (ptpUdpPos w dl < 0 ∨ min 192 (tagged : Int) < ptpUdpPos w dl + 8))) ↔
    (¬ ptpFits w dl tagged ∨ x.bolt.getLsbD 63 = true) := by
  show (x.bolt.getLsbD 63 = true ∨ _) ↔ _
  unfold ptpFits
  generalize (w / 2 ^ 40 % 256 ≠ 0) = udp
  by_cases hb : x.bolt.getLsbD 63 = true
  · simp only [hb, true_or, or_true]
  · by_cases hu : udp <;> simp only [hb, hu, false_or, or_false, true_and, false_and, true_implies, false_implies,
      and_true, Bool.false_eq_true] <;> omega

section
variable {s : State} {p tagged w : Nat} {x : Pkt} {dl : Int} {f : List Byte}

/-- R382: what a time action makes of the frame, its fields named. -/
theorem State.ptpFrame_eq : s.ptpFrame p x w dl tagged f =
    if x.isBolt = true ∨ ptpPos w dl < 0 ∨ min 192 (tagged : Int) < ptpPos w dl + 44 ∨
      (w / 2 ^ 40 % 256 ≠ 0 ∧ (ptpUdpPos w dl < 0 ∨ min 192 (tagged : Int) < ptpUdpPos w dl + 8)) then none
    else match s.egressStamp p (w / 2 ^ 57 % 8) with
      | none => none
      | some t =>
        let po := (ptpPos w dl).toNat
        if w / 2 ^ 60 % 16 = 1 then
          some (ptpFixed w dl (po + 44) f (gained po ((t / 2 ^ 32 % 65536 : Nat) + ptpAdd w) f (stamped po t f)))
        else match x.stamps.getD (w / 2 ^ 57 % 8) none with
          | none => none
          | some i =>
            if i.epoch ≠ s.fld (Reg.timeDomCtl (w / 2 ^ 57 % 8)) Fld.timeDomCtlStepEpoch then none
            else some (ptpFixed w dl (po + 16) f
              (gained po ((t / 2 ^ 32 : Nat) - (i.time / 2 ^ 32 : Nat) + ptpAdd w) f f)) := by
  have hd : bitsOf w 59 57 = w / 2 ^ 57 % 8 := bitsOf_eq _ _ _
  have hpo : bitsOf w 55 48 = w / 2 ^ 48 % 256 := bitsOf_eq _ _ _
  have huo : bitsOf w 47 40 = w / 2 ^ 40 % 256 := bitsOf_eq _ _ _
  have hop : bitsOf w 63 60 = w / 2 ^ 60 % 16 := bitsOf_eq _ _ _
  unfold State.ptpFrame
  simp only [hd, hpo, huo, hop, sxInt_add]
  rfl

/-- R382: operations 0 and 3 and above take no action. -/
theorem State.ptpAction_idle {v : Word} (h : x.timeAct = some v) (hop : v.toNat / 2 ^ 60 = 0 ∨ 3 ≤ v.toNat / 2 ^ 60) :
    s.ptpAction p x dl tagged f = (s, f) := by
  have hv : v.toNat < 2 ^ 64 := v.isLt
  have hbits : bitsOf v.toNat 63 60 = v.toNat / 2 ^ 60 % 16 := bitsOf_eq _ _ _
  unfold State.ptpAction
  rw [h]
  exact if_neg (by omega)

section
variable {v : Word} (h : x.timeAct = some v) (hop : v.toNat / 2 ^ 60 = 1 ∨ v.toNat / 2 ^ 60 = 2)
include h hop

/-- R384: an action is skipped. -/
theorem State.ptpAction_skip (hnone : s.ptpFrame p x v.toNat dl tagged f = none) :
    s.ptpAction p x dl tagged f = (s.ptpSkip (v.toNat / 2 ^ 57 % 8), f) := by
  have hbits : bitsOf v.toNat 63 60 = v.toNat / 2 ^ 60 % 16 := bitsOf_eq _ _ _
  have hd : bitsOf v.toNat 59 57 = v.toNat / 2 ^ 57 % 8 := bitsOf_eq _ _ _
  unfold State.ptpAction
  rw [h]
  refine (if_pos (by omega)).trans ?_
  simp only [hnone, hd]

/-- R382: an action is taken. -/
theorem State.ptpAction_take {g : List Byte} (hsome : s.ptpFrame p x v.toNat dl tagged f = some g) :
    s.ptpAction p x dl tagged f = (s, g) := by
  have hbits : bitsOf v.toNat 63 60 = v.toNat / 2 ^ 60 % 16 := bitsOf_eq _ _ _
  unfold State.ptpAction
  rw [h]
  refine (if_pos (by omega)).trans ?_
  simp only [hsome]

end

theorem State.ptpFrame_skipped
    (h : ¬ ptpFits w dl tagged ∨ x.bolt.getLsbD 63 = true ∨ s.egressStamp p (w / 2 ^ 57 % 8) = none) :
    s.ptpFrame p x w dl tagged f = none := by
  rw [State.ptpFrame_eq]
  obtain hguard | h := or_assoc.2 h
  · rw [if_pos ((ptpGuard_iff x w tagged dl).2 hguard)]
  · rw [h]
    exact ite_self _

section
variable {t : Nat} (hfits : ptpFits w dl tagged) (hbolt : x.bolt.getLsbD 63 = false)
  (hstamp : s.egressStamp p (w / 2 ^ 57 % 8) = some t)
include hfits hbolt hstamp

theorem State.ptpFrame_origin (hop : w / 2 ^ 60 % 16 = 1) : s.ptpFrame p x w dl tagged f =
    some (ptpFixed w dl ((ptpPos w dl).toNat + 44) f (gained (ptpPos w dl).toNat ((t / 2 ^ 32 % 65536 : Nat) + ptpAdd w) f
      (stamped (ptpPos w dl).toNat t f))) := by
  have hguard := (ptpGuard_iff x w tagged dl).not.2 (by rw [hbolt]; simp only [hfits]; decide)
  rw [State.ptpFrame_eq, if_neg hguard, hstamp]
  exact if_pos hop

theorem State.ptpFrame_residence (hop : w / 2 ^ 60 % 16 ≠ 1) : s.ptpFrame p x w dl tagged f =
    match x.stamps.getD (w / 2 ^ 57 % 8) none with
    | none => none
    | some i =>
      if i.epoch ≠ s.fld (Reg.timeDomCtl (w / 2 ^ 57 % 8)) Fld.timeDomCtlStepEpoch then none
      else some (ptpFixed w dl ((ptpPos w dl).toNat + 16) f (gained (ptpPos w dl).toNat
        ((t / 2 ^ 32 : Nat) - (i.time / 2 ^ 32 : Nat) + ptpAdd w) f f)) := by
  have hguard := (ptpGuard_iff x w tagged dl).not.2 (by rw [hbolt]; simp only [hfits]; decide)
  rw [State.ptpFrame_eq, if_neg hguard, hstamp]
  exact if_neg hop

end

end

/-- R383: what an action leaves of the frame: `g` is the frame, in which the stamp may stand already. -/
theorem ptpFixed_does {w : Nat} {dl k : Int} {f g : List Byte} {hi : Nat} {origin : Prop} (hlen : g.length = f.length)
    (hroom : (ptpPos w dl).toNat + 44 ≤ f.length)
    (hudp : w / 2 ^ 40 % 256 ≠ 0 → (ptpUdpPos w dl).toNat + 8 ≤ (ptpPos w dl).toNat)
    (hsame : ∀ j, ¬ (origin ∧ (ptpPos w dl).toNat + 34 ≤ j ∧ j < (ptpPos w dl).toNat + 44) → g[j]? = f[j]?) :
    let po := (ptpPos w dl).toNat
    let uo := (ptpUdpPos w dl).toNat
    let udp := w / 2 ^ 40 % 256 ≠ 0
    let r := ptpFixed w dl hi f (gained po k f g)
    let lo := po + 8 - (po + 8 + uo) % 2
    let n := (hi - lo) + (hi - lo) % 2
    r.length = f.length ∧
      sxInt 64 (beAt r (po + 8) 8) = satSum (sxInt 64 (beAt f (po + 8) 8) + k) ∧
      (∀ j, ¬ (po + 8 ≤ j ∧ j < po + 16) → ¬ (origin ∧ po + 34 ≤ j ∧ j < po + 44) →
        ¬ (udp ∧ uo + 6 ≤ j ∧ j < uo + 8) → r[j]? = f[j]?) ∧
      (udp → uo + 8 ≤ po → let hc := beAt f (uo + 6) 2
        let c := csumAdjust hc (slice f lo n) (slice r lo n)
        beAt r (uo + 6) 2 = if hc = 0 then 0 else if c = 0 then 65535 else c) := by
  intro po uo udp r lo n
  have hout {j : Nat} (h : ¬ (udp ∧ uo + 6 ≤ j ∧ j < uo + 8)) : r[j]? = (gained po k f g)[j]? := getElem?_csumFixed h
  refine ⟨?_, ?_, fun j hfield hstamp hcsum => ?_, fun hu huo => ?_⟩
  · exact length_csumFixed.trans (length_gained.trans hlen)
  · rw [beAt_congr fun i hi => hout fun hj => ?_]
    · exact beAt_gained (by omega)
    · have := hudp hj.1
      omega
  · rw [hout hcsum, getElem?_gained hfield, hsame j hstamp]
  · refine beAt_csumFixed hu huo (by rw [length_gained]; omega) fun j hj => ?_
    rw [getElem?_gained (by omega), hsame j (by omega)]

/-! ## Skipped actions, and egress stamps -/

theorem or_two_pow_of_set {v : Word} {i : Nat} (h : v.getLsbD i = true) : v ||| BitVec.ofNat 64 (2 ^ i) = v := by
  refine BitVec.eq_of_getLsbD_eq fun j hj => ?_
  rw [BitVec.getLsbD_or, BitVec.getLsbD_ofNat, Nat.testBit_two_pow]
  by_cases hij : i = j
  · subst hij
    simp [h]
  · simp [hij]

/-- R440: what an error bit of the time block leaves of its registers and clocks. -/
theorem State.err_time (s : State) (bit info : Nat) :
    (s.err Reg.timeErr bit info).now = s.now ∧ (s.err Reg.timeErr bit info).time = s.time ∧
      ∀ a, keptReg a → (s.err Reg.timeErr bit info).rd a =
        if a = Reg.timeErr then s.rd a ||| BitVec.ofNat 64 (2 ^ bit) else s.rd a := by
  unfold State.err
  split
  · next hset =>
    refine ⟨rfl, rfl, fun a _ => ?_⟩
    split
    · next ha => rw [ha, or_two_pow_of_set hset]
    · rfl
  · have h := (s.setBit Reg.timeErr bit).post_besides 1 (srcOf Reg.timeErr) (errPayload Reg.timeErr bit info)
    refine ⟨h.now, h.time, fun a ha => (h.rd a ha).trans ?_⟩
    rw [State.setBit, State.rd_wr]
    split
    · next h => rw [h]
    · rfl

theorem State.err_time_now (s : State) (bit info : Nat) : (s.err Reg.timeErr bit info).now = s.now := by
  obtain ⟨hnow, _, _⟩ := s.err_time bit info
  exact hnow

theorem State.err_time_time (s : State) (bit info : Nat) : (s.err Reg.timeErr bit info).time = s.time := by
  obtain ⟨_, htime, _⟩ := s.err_time bit info
  exact htime

theorem State.rd_err_time (s : State) (bit info : Nat) {a : Nat} (ha : keptReg a) : (s.err Reg.timeErr bit info).rd a =
    if a = Reg.timeErr then s.rd a ||| BitVec.ofNat 64 (2 ^ bit) else s.rd a := by
  obtain ⟨_, _, hrd⟩ := s.err_time bit info
  exact hrd a ha

theorem keptReg_timeErr : keptReg Reg.timeErr := by unfold keptReg; decide

theorem keptReg_timeDomCtl {d : Nat} (hd : d < 8) : keptReg (Reg.timeDomCtl d) ∧ Reg.timeDomCtl d ≠ Reg.timeErr := by
  unfold keptReg Reg.timeDomCtl Reg.timeErr
  omega

theorem keptReg_timeTxqStat {d : Nat} (hd : d < 8) : keptReg (Reg.timeTxqStat d) ∧ Reg.timeTxqStat d ≠ Reg.timeErr := by
  unfold keptReg Reg.timeTxqStat Reg.timeErr
  omega

/-- R440: the bit itself is set. -/
theorem State.flag_err_time (s : State) (f : Fld) (info : Nat) (hf : f.lo ≤ f.hi ∧ f.hi < 64) :
    (s.err Reg.timeErr f.lo info).flag Reg.timeErr f = true := by
  have hbit : (f.get ((s.err Reg.timeErr f.lo info).rd Reg.timeErr)).testBit 0 = true := by
    rw [s.rd_err_time f.lo info keptReg_timeErr, if_pos rfl, Fld.get_testBit, BitVec.getLsbD_or,
      BitVec.getLsbD_ofNat]
    simp only [Nat.add_zero, Nat.testBit_two_pow_self, Bool.and_true, Bool.and_eq_true, Bool.or_eq_true,
      decide_eq_true_eq]
    exact ⟨by omega, .inr (by omega)⟩
  rw [State.flag, State.fld, bne_iff_ne]
  intro h
  rw [h] at hbit
  simp at hbit

theorem State.fld_incF_same (s : State) (a : Nat) (f : Fld) (hf : f.hi < 64) :
    (s.incF a f).fld a f = (s.fld a f + 1) % 2 ^ (f.hi + 1 - f.lo) := by
  rw [State.fld, State.incF, State.setF, State.rd_wr_same, Fld.get_put _ _ _ hf]

/-- R384: a skipped action counts and sets its bit. -/
theorem State.ptpSkip_counts (s : State) {d : Nat} (hd : d < 8) :
    (s.ptpSkip d).fld (Reg.timeDomCtl d) Fld.timeDomCtlSkips = (s.fld (Reg.timeDomCtl d) Fld.timeDomCtlSkips + 1) %
      2 ^ (Fld.timeDomCtlSkips.hi + 1 - Fld.timeDomCtlSkips.lo) ∧
    (s.ptpSkip d).flag Reg.timeErr Fld.timeErrSkip = true := by
  obtain ⟨hkept, hother⟩ := keptReg_timeDomCtl hd
  refine ⟨?_, State.flag_err_time _ _ _ (by decide)⟩
  rw [State.ptpSkip, State.fld, State.rd_err_time _ _ _ hkept, if_neg hother]
  exact s.fld_incF_same _ _ (by decide)

@[simp] theorem State.ptpAction_now (s : State) (p : Nat) (x : Pkt) (dl : Int) (tagged : Nat) (f : List Byte) :
    (s.ptpAction p x dl tagged f).1.now = s.now := by
  have hskip (d : Nat) : (s.ptpSkip d).now = s.now := State.err_time_now _ _ _
  unfold State.ptpAction
  split
  · rfl
  · dsimp only
    split
    · split
      · exact hskip _
      · rfl
    · rfl

theorem State.ptpAction_none {s : State} {x : Pkt} (h : x.timeAct = none) (p : Nat) (dl : Int) (tagged : Nat)
    (f : List Byte) : s.ptpAction p x dl tagged f = (s, f) := by
  unfold State.ptpAction
  rw [h]

/-- The transmit timestamp queue of domain `d`. -/
def State.txq (s : State) (d : Nat) : List TxqE := Tbl.get (Tbl.const []) s.time.txq d

/-- R386: a stamp that has room enters its queue. -/
theorem State.txqPut_room {s : State} {d : Nat} (p id t : Nat) (h : (s.txq d).length < 64) :
    (s.txqPut d p id t).txq d = s.txq d ++ [{ port := p, id := id, time := t }] := by
  unfold State.txqPut
  refine (congrArg (State.txq · d) (if_neg (Nat.not_le.2 h))).trans ?_
  exact Tbl.get_set_same _ _ _ _

/-- R386: one beyond is discarded and counted. -/
theorem State.txqPut_full {s : State} {d : Nat} (p id t : Nat) (hd : d < 8) (h : 64 ≤ (s.txq d).length) :
    let u := s.txqPut d p id t
    u.txq d = s.txq d ∧ u.flag (Reg.timeTxqStat d) Fld.timeTxqStatOvf = true ∧
      u.flag Reg.timeErr Fld.timeErrTxqOvf = true ∧ u.fld (Reg.timeTxqStat d) Fld.timeTxqStatOvfCnt =
        (s.fld (Reg.timeTxqStat d) Fld.timeTxqStatOvfCnt + 1) %
          2 ^ (Fld.timeTxqStatOvfCnt.hi + 1 - Fld.timeTxqStatOvfCnt.lo) := by
  intro u
  let v := (s.incF (Reg.timeTxqStat d) Fld.timeTxqStatOvfCnt).setF (Reg.timeTxqStat d) Fld.timeTxqStatOvf 1
  have hu : u = v.err Reg.timeErr Fld.timeErrTxqOvf.lo := if_pos h
  obtain ⟨hkept, hother⟩ := keptReg_timeTxqStat hd
  obtain ⟨_, htime, hrd⟩ := v.err_time Fld.timeErrTxqOvf.lo 0
  have hfld (f : Fld) : u.fld (Reg.timeTxqStat d) f = v.fld (Reg.timeTxqStat d) f := by
    rw [hu, State.fld, hrd _ hkept, if_neg hother, State.fld]
  refine ⟨?_, ?_, ?_, ?_⟩
  · rw [hu, State.txq, htime]
    rfl
  · rw [State.flag, hfld]
    unfold v
    rw [State.fld, State.setF, State.rd_wr_same, Fld.get_put _ _ _ (by decide)]
    rfl
  · rw [hu]
    exact v.flag_err_time _ _ (by decide)
  · rw [hfld]
    unfold v
    rw [State.fld, State.setF, State.rd_wr_same, Fld.get_put_other _ _ _ _ (by decide)]
    exact s.fld_incF_same _ _ (by decide)

/-- R386: other queues stay. -/
theorem State.txqPut_other (s : State) {d e : Nat} (p id t : Nat) (h : e ≠ d) : (s.txqPut d p id t).txq e = s.txq e := by
  unfold State.txqPut
  dsimp only
  split
  · rw [State.txq, State.err_time_time]
    rfl
  · exact Tbl.get_set_other _ _ _ h

end Sys2Proof.Machine
end

section
/-! PROOF. Frames that leave: transmission, its end, and the PFC frames (FramesLeave). -/

namespace Sys2Proof.Machine

/-- The same state with other counters. -/
def State.withGlass (s : State) (g : Glass) : State := { s with glass := g }

theorem State.askPfc_withGlass (s : State) (g : Glass) (p : Nat) (r : Option Nat) :
    (s.withGlass g).askPfc p r = (s.askPfc p r).withGlass g := by
  have hwake : (s.withGlass g).lpiWake p = (s.lpiWake p).withGlass g := by
    have hport : (s.withGlass g).port p = s.port p := rfl
    unfold State.lpiWake
    rw [hport]
    cases (s.port p).lpi <;> rfl
  unfold State.askPfc
  rw [hwake]
  rfl

theorem State.acctSub_withGlass (s : State) (g : Glass) (a : Nat) (head : Bool) (n : Nat) :
    (s.withGlass g).acctSub a head n = (s.acctSub a head n).withGlass g := by
  have hsettle (u : State) : (u.withGlass g).acctSettle a = (u.acctSettle a).withGlass g := by
    have hacct : (u.withGlass g).acct a = u.acct a := rfl
    have hcfg : (u.withGlass g).acctCfg a = u.acctCfg a := rfl
    unfold State.acctSettle
    dsimp only
    rw [hacct, hcfg]
    split
    · exact State.askPfc_withGlass (u.setAcct a { u.acct a with xoff := false }) g _ _
    · rfl
  exact hsettle (s.setAcct a (if head then { s.acct a with head := (s.acct a).head - n }
    else { s.acct a with shared := (s.acct a).shared - n }))

theorem State.freeCells_withGlass (s : State) (g : Glass) (x : Pkt) :
    (s.withGlass g).freeCells x = (s.freeCells x).withGlass g := by
  have hsub (b : Beam) (a : Nat) (head : Bool) : ({ (s.withGlass g) with beam := b } : State).acctSub a head x.cells =
      (({ s with beam := b } : State).acctSub a head x.cells).withGlass g :=
    State.acctSub_withGlass { s with beam := b } g a head x.cells
  unfold State.freeCells
  split
  · rfl
  · split
    · exact hsub _ _ _
    · rfl
  · split
    · exact hsub _ _ _
    · rfl
  · rfl

/-- R299: a copy that goes reads no counter. -/
theorem State.dropRef_withGlass (s : State) (g : Glass) (p : Nat) :
    (s.withGlass g).dropRef p = (s.dropRef p).withGlass g := by
  have hpkt : (s.withGlass g).pkt? p = s.pkt? p := rfl
  unfold State.dropRef
  rw [hpkt]
  cases s.pkt? p with
  | none => rfl
  | some x =>
    dsimp only
    rw [State.freeCells_withGlass]
    split <;> rfl

/-! ## A frame begins -/

/-- R386, R327: the frames of a packet begin; the stamps that a unicast packet asked for are taken. -/
def State.beginTx (s : State) (p : Nat) (c : Called) (x : Pkt) (fs : List (List Byte)) (stomped : Bool) : State :=
  ((if c.queue < 8192 then s.takeStamps p x else s).setTx p (some
    { copy := c.copy, queue := c.queue, frames := fs, on := true, stomped := stomped, bad := false })).callGone p

/-- R327, R328, R333: a transmission whose read from the Beam meets no error. -/
theorem State.startTx_eq (s : State) (p : Nat) (c : Called) (x : Pkt) : s.startTx p c x [] =
    let mx := s.maxFor p c.copy.pkt
    let tg := s.tagStage p (x.frame.take (x.frame.length - 4))
    if x.bolt.getLsbD 63 = true then
      let fs := boltSegments x tg.1 tg.2
      if (fs.any fun f => decide (mx < f.length + 4)) = true then (s.egressDrop p c x).callGone p
      else (s.ptpAction p x tg.2 tg.1.length []).1.beginTx p c x (fs.map padFrame) (x.oversize || !x.fcsOk)
    else if mx < tg.1.length + 4 then
      if c.copy.cut = true then
        let r := s.ptpAction p x tg.2 tg.1.length (tg.1.take (mx - 4))
        (r.1.cntPort p 13).beginTx p c x [r.2] true
      else (s.egressDrop p c x).callGone p
    else
      let r := s.ptpAction p x tg.2 tg.1.length (padFrame tg.1)
      r.1.beginTx p c x [r.2] (x.oversize || !x.fcsOk) := rfl

theorem State.txReady_runs {s : State} {p : Nat} (h : s.txReady p = true) : s.halted = false := by
  simp only [State.txReady, Bool.and_eq_true, Bool.not_eq_true'] at h
  exact h.1.1

/-- What a port that has begun its next frame is left with: its idle time begins anew. -/
def State.moment (s u : State) (p : Nat) : State := u.updPort p fun q => { q with idleAt := s.now }

/-- The state after the transmitter of port `p` has taken the call `c`. -/
def State.calledOff (s : State) (p : Nat) (c : Called) : State :=
  s.setCalled (p / 32) (dropFirst c (s.called (p / 32)))

section
variable {p : Port} {c : Called} {x : Pkt} {s : State} (hready : s.txReady p.val = true)
  (hpfc : (s.port p.val).pfcReq = false)
include hready hpfc

/-- R330: no frame begins while another is on the wire; the next of a bolt's segments does. -/
theorem exec_transmitFrame_goesOn {t : Tx} (htx : s.tx p.val = some t) : exec (.transmitFrame p []) s =
    .next (if t.on then s else s.setTx p.val (some { t with on := true, bad := false })) := by
  show execTransmitFrame p [] s = _
  unfold execTransmitFrame unlessHalted
  rw [if_neg (by simp [State.txReady_runs hready])]
  refine (if_neg (by simp [hready, hpfc])).trans ?_
  rw [htx]
  dsimp only
  split
  · rfl
  · split <;> rfl

variable (htx : s.tx p.val = none) (hnext : nextAt p.val (s.called (p.val / 32)) [] = some c)
  (hx : s.pkt? c.copy.pkt = some x)
include htx hnext hx

/-- R28, R327: the packet of the next call begins, once it may. -/
theorem exec_transmitFrame_next : exec (.transmitFrame p []) s =
    .next (if c.copy.mayLeave x then (s.calledOff p.val c).startTx p.val c x [] else s) := by
  show execTransmitFrame p [] s = _
  unfold execTransmitFrame unlessHalted
  rw [if_neg (by simp [State.txReady_runs hready])]
  refine (if_neg (by simp [hready, hpfc])).trans ?_
  rw [htx]
  dsimp only
  rw [hnext]
  dsimp only
  rw [hx]
  rfl

end

section
variable {s : State} {p : Nat} {c : Called} {x : Pkt}

theorem State.takeStamps_none (h : x.pick.stampReq = []) : s.takeStamps p x = s := by
  unfold State.takeStamps
  rw [h]
  rfl

/-- R327: a packet that asks for no stamp. -/
theorem State.beginTx_plain (h : x.pick.stampReq = []) (fs : List (List Byte)) (stomped : Bool) :
    s.beginTx p c x fs stomped = s.moment (s.setTx p (some
      { copy := c.copy, queue := c.queue, frames := fs, on := true, stomped := stomped, bad := false })) p := by
  unfold State.beginTx
  rw [State.takeStamps_none h, ite_self]
  rfl

/-- R328, R333: a frame that is too long is dropped; that counts. -/
theorem State.egressDrop_alike (h : x.pick.stampReq = []) :
    ((s.egressDrop p c x).callGone p).alike (s.moment (s.dropRef c.copy.pkt) p) := by
  have hdrop : s.egressDrop p c x = (s.dropRef c.copy.pkt).withGlass (s.cntPort p 13).glass := by
    unfold State.egressDrop
    dsimp only
    rw [State.unsent_of_no_request _ h, ite_self]
    exact s.dropRef_withGlass _ _
  have hcounts : ((s.egressDrop p c x).callGone p).countsOnly (s.moment (s.dropRef c.copy.pkt) p) := by
    refine ⟨(s.cntPort p 13).glass, ?_⟩
    rw [hdrop, State.moment, ← (s.dropRef_accountsOnly c.copy.pkt).now]
    rfl
  exact hcounts.alike

end

/-! ## A frame ends -/

theorem State.sendFrame_eq (s : State) (p : Nat) (f : List Byte) (stomped : Bool) : ∃ g, s.sendFrame p f stomped =
    { s with
      selv := { s.selv with sent := Tbl.set (Tbl.const none) s.selv.sent p (some (withFcs f stomped)) }, glass := g } := by
  unfold State.sendFrame
  dsimp only
  split <;> exact ⟨_, rfl⟩

theorem length_withFcs (f : List Byte) (stomped : Bool) : (withFcs f stomped).length = f.length + 4 := by
  simp [withFcs, length_toLE]

/-- R472: a frame that leaves counts, with its bytes. -/
theorem State.sendFrame_counter (s : State) (p : Nat) (f : List Byte) (stomped : Bool) {j : Nat} (hj : j ≠ 12) :
    (s.sendFrame p f stomped).counter (512 * p + 8 * j) =
      if j = 11 then s.counter (512 * p + 8 * j) + BitVec.ofNat 64 (f.length + 4)
      else if j = 10 then s.counter (512 * p + 8 * j) + 1 else s.counter (512 * p + 8 * j) := by
  have hcounts (u : State) : (if stomped then u.cntPort p 12 else u).counter (512 * p + 8 * j) =
      u.counter (512 * p + 8 * j) := by
    split
    · rw [State.counter_cntPort, if_neg hj]
    · rfl
  unfold State.sendFrame
  dsimp only
  rw [hcounts, State.counter_cntPort, State.counter_cntPort, length_withFcs]
  by_cases h11 : j = 11
  · subst h11
    rfl
  · rw [if_neg h11, if_neg h11]
    rfl

section
variable {p : Port} {t : Tx} {f : List Byte} {s : State} (hrun : s.halted = false) (htx : s.tx p.val = some t)
include hrun htx

theorem exec_transmitComplete_waits (hon : t.on = false) : exec (.transmitComplete p) s = .next s := by
  show execTransmitComplete p s = _
  unfold execTransmitComplete unlessHalted
  rw [if_neg (by simp [hrun])]
  simp [htx, hon]

/-- R332: a segment ends, and others follow. -/
theorem exec_transmitComplete_more {g : List Byte} {fs : List (List Byte)} (hon : t.on = true)
    (hframes : t.frames = f :: g :: fs) : exec (.transmitComplete p) s =
      .next ((s.sendFrame p.val f (t.stomped || t.bad)).setTx p.val (some { t with frames := g :: fs, on := false })) := by
  show execTransmitComplete p s = _
  unfold execTransmitComplete unlessHalted
  rw [if_neg (by simp [hrun])]
  dsimp only
  rw [htx]
  refine (if_neg (by simp [hon])).trans ?_
  rw [hframes]
  rfl

/-- R299: the last frame ends. -/
theorem exec_transmitComplete_last (hon : t.on = true) (hframes : t.frames = [f]) : exec (.transmitComplete p) s =
    .next ((((s.sendFrame p.val f (t.stomped || t.bad)).setTx p.val none).dropRef t.copy.pkt).callGone p.val) := by
  show execTransmitComplete p s = _
  unfold execTransmitComplete unlessHalted
  rw [if_neg (by simp [hrun])]
  dsimp only
  rw [htx]
  refine (if_neg (by simp [hon])).trans ?_
  rw [hframes]
  rfl

end

/-! ## What a frame that ends leaves -/

section
variable {p : Port} {t : Tx} {f : List Byte} {s : State} (hrun : s.halted = false) (htx : s.tx p.val = some t)
  (hon : t.on = true) (hframes : t.frames = [f])
include hrun htx hon hframes

/-- R299, R323: the last frame of a packet leaves with its FCS, and the packet's copy is gone. -/
theorem transmitComplete_last : ∃ u, exec (.transmitComplete p) s = .next u ∧ u.tx p.val = none ∧
    Tbl.get (Tbl.const none) u.selv.sent p.val =
      some (f ++ toLE 4 (if t.stomped || t.bad then (~~~ crc32 f).toNat else (crc32 f).toNat)) ∧
    u.counter (512 * p.val + 80) = s.counter (512 * p.val + 80) + 1 ∧
    u.counter (512 * p.val + 88) = s.counter (512 * p.val + 88) + BitVec.ofNat 64 (f.length + 4) ∧
    (∀ x, s.pkt? t.copy.pkt = some x → x.refs ≤ 1 → u.pkt? t.copy.pkt = none) ∧
    (∀ x, s.pkt? t.copy.pkt = some x → 1 < x.refs → u.pkt? t.copy.pkt = some { x with refs := x.refs - 1 }) ∧
    (∀ q, q ≠ t.copy.pkt → u.pkt? q = s.pkt? q) ∧ u.mem = s.mem ∧ u.regs = s.regs := by
  obtain ⟨g, hg⟩ := s.sendFrame_eq p.val f (t.stomped || t.bad)
  have hcounter {j : Nat} (hj : j ≠ 12) := s.sendFrame_counter p.val f (t.stomped || t.bad) hj
  refine ⟨_, exec_transmitComplete_last hrun htx hon hframes, ?_⟩
  generalize s.sendFrame p.val f (t.stomped || t.bad) = v at hg hcounter ⊢
  have hacc : (((v.setTx p.val none).dropRef t.copy.pkt).callGone p.val).accountsOnly (v.setTx p.val none) :=
    (State.callGone_accountsOnly _ _).trans (State.dropRef_accountsOnly _ _)
  have hpkt (q : Nat) : (v.setTx p.val none).pkt? q = s.pkt? q := by
    rw [hg]
    rfl
  have hcount {o : Nat} : (((v.setTx p.val none).dropRef t.copy.pkt).callGone p.val).counter o = v.counter o := by
    rw [State.counter, hacc.glass]
    rfl
  refine ⟨?_, ?_, ?_, ?_, fun x hx hlast => ?_, fun x hx hmore => ?_, fun q hq => ?_, ?_, ?_⟩
  · rw [State.tx, hacc.tx]
    exact Tbl.get_set_same (Tbl.const none) v.beam.tx p.val none
  · rw [hacc.sent, hg]
    exact Tbl.get_set_same (Tbl.const none) s.selv.sent p.val (some (withFcs f (t.stomped || t.bad)))
  · exact hcount.trans (hcounter (j := 10) (by decide))
  · exact hcount.trans (hcounter (j := 11) (by decide))
  · show ((v.setTx p.val none).dropRef t.copy.pkt).pkt? _ = _
    rw [State.dropRef_last ((hpkt _).trans hx) hlast, State.pkt_setPkt]
  · show ((v.setTx p.val none).dropRef t.copy.pkt).pkt? _ = _
    rw [State.dropRef_more ((hpkt _).trans hx) hmore, State.pkt_setPkt]
  · exact (State.dropRef_pkt_other _ hq).trans (hpkt q)
  · rw [hacc.mem, hg]
    rfl
  · rw [hacc.regs, hg]
    rfl

end

/-! ## PFC frames -/

/-- Blocks of two bytes, one after the other. -/
theorem beAt_flatten {l : List (List Byte)} (h : ∀ b ∈ l, b.length = 2) {k : Nat} (hk : k < l.length) :
    beAt l.flatten (2 * k) 2 = beAt l[k] 0 2 := by
  induction l generalizing k with
  | nil => simp at hk
  | cons b l ih =>
    have hb : b.length = 2 := h b (by simp)
    cases k with
    | zero => exact beAt_append_left _ (by omega)
    | succ k =>
      have hpos : 2 * (k + 1) = b.length + 2 * k := by omega
      rw [List.flatten_cons, hpos, beAt_append_right]
      exact ih (fun c hc => h c (by simp [hc])) (by simpa using hk)

theorem length_flatten_two {l : List (List Byte)} (h : ∀ b ∈ l, b.length = 2) : l.flatten.length = 2 * l.length := by
  induction l with
  | nil => rfl
  | cons b l ih =>
    rw [List.flatten_cons, List.length_append, ih fun c hc => h c (by simp [hc]), h b (by simp), List.length_cons]
    omega

/-- R330: the fields of a PFC frame. -/
theorem pfcFrame_fields (s : State) (p : Nat) :
    let f := s.pfcFrame p
    f.length = 60 ∧ beAt f 12 2 = 0x8808 ∧ beAt f 14 2 = 0x0101 ∧
      beAt f 16 2 = (s.xoffClasses p ||| (s.port p).release.toNat) % 65536 ∧
      ∀ k, k < 8 → beAt f (18 + 2 * k) 2 = if (s.xoffClasses p).testBit k then s.quanta p % 65536 else 0 := by
  intro f
  let addr : List Byte := [0x01, 0x80, 0xC2, 0x00, 0x00, 0x01] ++
    toBE 6 (s.fld (Reg.selvPortPfc (p / 64) (p % 64)) Fld.selvPortPfcSa)
  let typ : List Byte := [0x88, 0x08, 0x01, 0x01]
  let vec := toBE 2 (s.xoffClasses p ||| (s.port p).release.toNat)
  let block (c : Nat) : List Byte := toBE 2 (if (s.xoffClasses p).testBit c then s.quanta p else 0)
  let times := ((List.range 8).map block).flatten
  have hblock : ∀ b ∈ (List.range 8).map block, b.length = 2 := by
    intro b hb
    obtain ⟨c, _, rfl⟩ := List.mem_map.1 hb
    exact length_toBE _ _
  have hf : f = padFrame (addr ++ typ ++ vec ++ times) := rfl
  have haddr : addr.length = 12 := by simp [addr]
  have htyp : (addr ++ typ).length = 16 := by rw [List.length_append, haddr]; rfl
  have hvec : (addr ++ typ ++ vec).length = 18 := by rw [List.length_append, htyp, length_toBE]
  have htimes : times.length = 16 := by rw [length_flatten_two hblock]; rfl
  have hbody : (addr ++ typ ++ vec ++ times).length = 34 := by rw [List.length_append, hvec, htimes]
  have hread {o : Nat} (ho : o + 2 ≤ 34) : beAt f o 2 = beAt (addr ++ typ ++ vec ++ times) o 2 := by
    rw [hf]
    exact beAt_append_left _ (by omega)
  have hhead {o : Nat} (ho : o + 2 ≤ 18) : beAt f o 2 = beAt (addr ++ typ ++ vec) o 2 := by
    rw [hread (by omega)]
    exact beAt_append_left _ (by omega)
  have htype {j : Nat} (hj : j + 2 ≤ 4) : beAt f (12 + j) 2 = beAt typ j 2 := by
    rw [hhead (by omega), beAt_append_left _ (by omega), ← haddr, beAt_append_right]
  refine ⟨?_, ?_, ?_, ?_, fun k hk => ?_⟩
  · rw [hf, padFrame, List.length_append, List.length_replicate, hbody]
  · exact htype (j := 0) (by decide)
  · exact htype (j := 2) (by decide)
  · have h := beAt_append_right (addr ++ typ) vec 0 2
    have hself := beAt_toBE_append 2 (s.xoffClasses p ||| (s.port p).release.toNat) []
    rw [List.append_nil] at hself
    rw [htyp] at h
    rw [hhead (by omega)]
    exact h.trans hself
  · have h := beAt_append_right (addr ++ typ ++ vec) times (2 * k) 2
    have hself := beAt_toBE_append 2 (if (s.xoffClasses p).testBit k then s.quanta p else 0) []
    rw [List.append_nil] at hself
    rw [hvec, beAt_flatten hblock (by simpa using hk)] at h
    rw [hread (by omega), h]
    simp only [List.getElem_map, List.getElem_range]
    refine hself.trans ?_
    split <;> rfl

/-- R330: what a PFC frame that leaves port `p` leaves. -/
def State.pfcSent (s : State) (p : Nat) (t : State) : Prop :=
  Tbl.get (Tbl.const none) t.selv.sent p = some (s.pfcFrame p ++ toLE 4 (crc32 (s.pfcFrame p)).toNat) ∧
    (t.port p).pfcReq = false ∧ (t.port p).release = 0 ∧ (t.port p).lastPfc = s.now ∧
    t.counter (512 * p + 112) = s.counter (512 * p + 112) + 1 ∧ t.mem = s.mem ∧ t.regs = s.regs ∧ t.beam = s.beam

theorem State.pfcSend_pfcSent (s : State) (p : Nat) : s.pfcSent p (s.pfcSend p) := by
  obtain ⟨g, hg⟩ := s.sendFrame_eq p (s.pfcFrame p) false
  have hcounter := s.sendFrame_counter p (s.pfcFrame p) false (j := 14) (by decide)
  unfold State.pfcSend
  dsimp only
  generalize s.sendFrame p (s.pfcFrame p) false = v at hg hcounter ⊢
  refine ⟨?_, ?_, ?_, ?_, ?_, ?_, ?_, ?_⟩
  · rw [hg]
    exact Tbl.get_set_same (Tbl.const none) s.selv.sent p (some (withFcs (s.pfcFrame p) false))
  · rw [State.port_updPort_same]
  · rw [State.port_updPort_same]
  · rw [State.port_updPort_same, hg]
    rfl
  · refine (State.counter_cntPort v p 14 1 14).trans ?_
    rw [if_pos rfl, hcounter]
    rfl
  · rw [hg]; rfl
  · rw [hg]; rfl
  · rw [hg]; rfl

section
variable {p : Port} {s : State} (hrun : s.halted = false)
include hrun

theorem exec_pfcFrameSend : exec (.pfcFrameSend p) s =
    .next (if s.txReady p.val && (s.port p.val).pfcReq && s.atBoundary p.val then s.pfcSend p.val else s) := by
  show execPfcFrameSend p s = _
  unfold execPfcFrameSend unlessHalted
  rw [if_neg (by simp [hrun])]
  split <;> rfl

theorem exec_pfcRefresh : exec (.pfcRefresh p) s = .next (
    if s.portIsDown p.val || decide (s.xoffClasses p.val = 0) ||
      decide (s.now < (s.port p.val).lastPfc + quantaNs (max 1 (s.quanta p.val / 2)) (s.portGbps p.val)) then s
    else if s.txReady p.val && s.atBoundary p.val then s.pfcSend p.val else s.askPfc p.val none) := by
  show execPfcRefresh p s = _
  unfold execPfcRefresh unlessHalted
  rw [if_neg (by simp [hrun])]
  dsimp only
  split <;> rfl

end

theorem State.txReady_up {s : State} {p : Nat} (h : s.txReady p = true) : s.portIsDown p = false := by
  simp only [State.txReady, Bool.and_eq_true, Bool.not_eq_true'] at h
  exact h.1.2

/-! ## The parts of the obligation -/

theorem State.anyTooLong_iff (fs : List (List Byte)) (mx : Nat) :
    (fs.any fun f => decide (mx < f.length + 4)) = true ↔ ∃ f ∈ fs, mx < f.length + 4 := by simp

/-- A sent segment counts, and nothing else changes. -/
theorem State.sendFrame_setTx_alike (s : State) (p : Nat) (f : List Byte) (stomped : Bool) (t : Option Tx) :
    ((s.sendFrame p f stomped).setTx p t).alike ({ s with selv := { s.selv with
      sent := Tbl.set (Tbl.const none) s.selv.sent p (some (withFcs f stomped)) } }.setTx p t) := by
  obtain ⟨g, hg⟩ := s.sendFrame_eq p f stomped
  have hcounts : ((s.sendFrame p f stomped).setTx p t).countsOnly ({ s with selv := { s.selv with
      sent := Tbl.set (Tbl.const none) s.selv.sent p (some (withFcs f stomped)) } }.setTx p t) := ⟨g, by rw [hg]; rfl⟩
  exact hcounts.alike

section
variable {p : Port} {c : Called} {x : Pkt} {s : State} (hready : s.txReady p.val = true)
  (hpfc : (s.port p.val).pfcReq = false) (htx : s.tx p.val = none)
  (hnext : nextAt p.val (s.called (p.val / 32)) [] = some c) (hx : s.pkt? c.copy.pkt = some x)
include hready hpfc htx hnext hx

/-- R28: a packet that is not whole waits, unless its copy is cut-through. -/
theorem exec_transmitFrame_waits (hmay : c.copy.mayLeave x = false) : exec (.transmitFrame p []) s = .next s := by
  rw [exec_transmitFrame_next hready hpfc htx hnext hx, hmay]
  rfl

variable (hmay : c.copy.mayLeave x = true)
include hmay

/-- R327, R328: a frame no longer than MAX begins, its time action taken. -/
theorem exec_transmitFrame_fits (hbolt : x.bolt = 0)
    (hlen : (s.tagStage p.val (x.frame.take (x.frame.length - 4))).1.length + 4 ≤ s.maxFor p.val c.copy.pkt) :
    let tg := s.tagStage p.val (x.frame.take (x.frame.length - 4))
    let r := (s.calledOff p.val c).ptpAction p.val x tg.2 tg.1.length (padFrame tg.1)
    exec (.transmitFrame p []) s = .next (r.1.beginTx p.val c x [r.2] (x.oversize || !x.fcsOk)) := by
  intro tg r
  rw [exec_transmitFrame_next hready hpfc htx hnext hx, hmay, if_pos rfl, State.startTx_eq]
  refine congrArg Host.Outcome.next ((if_neg ?_).trans (if_neg ?_))
  · rw [hbolt]
    decide
  · exact Nat.not_lt.2 hlen

/-- R328: a longer one is dropped, or, cut-through, is cut to MAX and stomped. -/
theorem exec_transmitFrame_long (hbolt : x.bolt = 0) (hact : x.timeAct = none)
    (hlen : s.maxFor p.val c.copy.pkt < (s.tagStage p.val (x.frame.take (x.frame.length - 4))).1.length + 4) :
    let tg := s.tagStage p.val (x.frame.take (x.frame.length - 4))
    exec (.transmitFrame p []) s = .next (if c.copy.cut = true then
      ((s.calledOff p.val c).cntPort p.val 13).beginTx p.val c x [tg.1.take (s.maxFor p.val c.copy.pkt - 4)] true
    else ((s.calledOff p.val c).egressDrop p.val c x).callGone p.val) := by
  intro tg
  rw [exec_transmitFrame_next hready hpfc htx hnext hx, hmay, if_pos rfl, State.startTx_eq]
  refine congrArg Host.Outcome.next ((if_neg ?_).trans ((if_pos ?_).trans ?_))
  · rw [hbolt]
    decide
  · exact hlen
  · dsimp only
    rw [State.ptpAction_none hact]
    rfl

/-- R331, R333: the segments of a bolt begin, or the bolt is dropped. -/
theorem exec_transmitFrame_bolt (hbolt : x.bolt.getLsbD 63 = true) (hact : x.timeAct = none) :
    let tg := s.tagStage p.val (x.frame.take (x.frame.length - 4))
    let fs := boltSegments x tg.1 tg.2
    exec (.transmitFrame p []) s = .next (
      if (fs.any fun f => decide (s.maxFor p.val c.copy.pkt < f.length + 4)) = true then
        ((s.calledOff p.val c).egressDrop p.val c x).callGone p.val
      else (s.calledOff p.val c).beginTx p.val c x (fs.map padFrame) (x.oversize || !x.fcsOk)) := by
  intro tg fs
  rw [exec_transmitFrame_next hready hpfc htx hnext hx, hmay, if_pos rfl, State.startTx_eq]
  refine congrArg Host.Outcome.next ((if_pos hbolt).trans ?_)
  dsimp only
  rw [State.ptpAction_none hact]
  rfl

end

/-- R386: the egress stamp that a packet asked for under `id` enters its queue, if there is one. -/
def State.stampTaken (s : State) (p d id : Nat) : State :=
  match s.egressStamp p d with
  | none => s
  | some t => s.txqPut d p id t

/-- R386: what the queues of egress stamps hold after a unicast packet that asked for one stamp has begun. -/
theorem State.beginTx_txq {s : State} {p d id : Nat} {c : Called} {x : Pkt} (hstamp : x.pick.stampReq = [(d, id)])
    (hq : c.queue < 8192) (hd : d < 8) (fs : List (List Byte)) (stomped : Bool) :
    let u := s.beginTx p c x fs stomped
    (∀ e, e ≠ d → u.txq e = s.txq e) ∧ (s.egressStamp p d = none → u.txq d = s.txq d) ∧
      ∀ t, s.egressStamp p d = some t →
        ((s.txq d).length < 64 → u.txq d = s.txq d ++ [{ port := p, id := id, time := t }]) ∧
        (64 ≤ (s.txq d).length → u.txq d = s.txq d ∧ u.flag (Reg.timeTxqStat d) Fld.timeTxqStatOvf = true ∧
          u.flag Reg.timeErr Fld.timeErrTxqOvf = true ∧ u.fld (Reg.timeTxqStat d) Fld.timeTxqStatOvfCnt =
            (s.fld (Reg.timeTxqStat d) Fld.timeTxqStatOvfCnt + 1) %
              2 ^ (Fld.timeTxqStatOvfCnt.hi + 1 - Fld.timeTxqStatOvfCnt.lo)) := by
  intro u
  have htaken : (if c.queue < 8192 then s.takeStamps p x else s) = s.stampTaken p d id := by
    rw [if_pos hq, State.takeStamps, hstamp]
    rfl
  have htxq (e : Nat) : u.txq e = (s.stampTaken p d id).txq e := by rw [← htaken]; rfl
  have hfld (a : Nat) (f : Fld) : u.fld a f = (s.stampTaken p d id).fld a f := by rw [← htaken]; rfl
  simp only [htxq, State.flag, hfld]
  refine ⟨fun e he => ?_, fun hnone => ?_, fun t ht => ?_⟩
  · unfold State.stampTaken
    split
    · rfl
    · exact s.txqPut_other p id _ he
  · rw [State.stampTaken, hnone]
  · rw [State.stampTaken, ht]
    exact ⟨State.txqPut_room p id t, State.txqPut_full p id t hd⟩

/-- R379, R380: the egress stamp. -/
theorem State.egressStamp_eq (s : State) (p d : Nat) : s.egressStamp p d =
    if (s.fld (Reg.timePort p) Fld.timePortDomMask).testBit d = true ∧ s.domOn d = true then
      some ((((s.dom d).time : Int) + s.sfld (Reg.timePort p) Fld.timePortEgressAdj * (2 ^ 44 : Nat)) %
        ((2 ^ 48 * secUnit : Nat) : Int)).toNat
    else none := rfl

/-- R382 to R384: a time action on a frame that leaves: when it is skipped, and what else it leaves of the frame. -/
theorem ptpAction_facts (s : State) (p tagged : Nat) (x : Pkt) (v : Word) (dl : Int) (f : List Byte)
    (hact : x.timeAct = some v) :
    let w := v.toNat
    let op := w / 2 ^ 60
    let d := w / 2 ^ 57 % 8
    let po := (ptpPos w dl).toNat
    let uo := (ptpUdpPos w dl).toNat
    let udp := w / 2 ^ 40 % 256 ≠ 0
    let r := s.ptpAction p x dl tagged f
    let hi := po + (if op = 1 then 44 else 16)
    let lo := po + 8 - (po + 8 + uo) % 2
    let n := (hi - lo) + (hi - lo) % 2
    let skips : Prop := r = (s.ptpSkip d, f)
    let does (gain : Int) : Prop := r.1 = s ∧ r.2.length = f.length ∧
      sxInt 64 (beAt r.2 (po + 8) 8) = satSum (sxInt 64 (beAt f (po + 8) 8) + gain) ∧
      (∀ j, ¬ (po + 8 ≤ j ∧ j < po + 16) → ¬ (op = 1 ∧ po + 34 ≤ j ∧ j < po + 44) →
        ¬ (udp ∧ uo + 6 ≤ j ∧ j < uo + 8) → r.2[j]? = f[j]?) ∧
      (udp → uo + 8 ≤ po → let hc := beAt f (uo + 6) 2
        let c := csumAdjust hc (slice f lo n) (slice r.2 lo n)
        beAt r.2 (uo + 6) 2 = if hc = 0 then 0 else if c = 0 then 65535 else c)
    (op = 0 ∨ 3 ≤ op → r = (s, f)) ∧
    (op = 1 ∨ op = 2 → ¬ ptpFits w dl tagged ∨ x.bolt.getLsbD 63 = true ∨ s.egressStamp p d = none → skips) ∧
    (∀ t, s.egressStamp p d = some t → ptpFits w dl tagged → x.bolt.getLsbD 63 = false → po + 44 ≤ f.length →
      (udp → uo + 8 ≤ po) →
      (op = 1 → does ((t / 2 ^ 32 % 65536 : Nat) + ptpAdd w) ∧ beAt r.2 (po + 34) 6 = t / secUnit % 2 ^ 48 ∧
        beAt r.2 (po + 40) 4 = t % secUnit / nsUnit % 2 ^ 32) ∧
      (op = 2 → x.stamps.getD d none = none → skips) ∧
      (∀ i, op = 2 → x.stamps.getD d none = some i →
        (i.epoch ≠ s.fld (Reg.timeDomCtl d) Fld.timeDomCtlStepEpoch → skips) ∧
        (i.epoch = s.fld (Reg.timeDomCtl d) Fld.timeDomCtlStepEpoch →
          does ((t / 2 ^ 32 : Nat) - (i.time / 2 ^ 32 : Nat) + ptpAdd w)))) := by
  intro w op d po uo udp r hi lo n skips does
  have hskip (hop : op = 1 ∨ op = 2) (hnone : s.ptpFrame p x w dl tagged f = none) : skips :=
    State.ptpAction_skip hact hop hnone
  have htake (hop : op = 1 ∨ op = 2) {g : List Byte} (hsome : s.ptpFrame p x w dl tagged f = some g) : r = (s, g) :=
    State.ptpAction_take hact hop hsome
  refine ⟨State.ptpAction_idle hact, fun hop hno => hskip hop (State.ptpFrame_skipped hno),
    fun t ht hfits hbolt hroom hudp => ⟨fun hop => ?_, fun hop hnone => ?_, fun i hop hget => ⟨fun he => ?_, fun he => ?_⟩⟩⟩
  · have hr := htake (.inl hop) (State.ptpFrame_origin hfits hbolt ht (by omega))
    have hdoes := ptpFixed_does (w := w) (dl := dl) (k := (t / 2 ^ 32 % 65536 : Nat) + ptpAdd w) (hi := po + 44)
      (origin := op = 1) (length_stamped (t := t)) hroom hudp fun j hj => getElem?_stamped fun h => hj ⟨hop, h⟩
    have hhi : hi = po + 44 := by unfold hi; rw [if_pos hop]
    have hstamp := beAt_stamped (t := t) hroom
    have hread {o k : Nat} (ho : po + 34 ≤ o) : beAt (ptpFixed w dl (po + 44) f
        (gained po ((t / 2 ^ 32 % 65536 : Nat) + ptpAdd w) f (stamped po t f))) o k = beAt (stamped po t f) o k := by
      refine beAt_congr fun j _ => (getElem?_csumFixed fun h => ?_).trans (getElem?_gained (by omega))
      have := hudp h.1
      omega
    unfold does n lo
    rw [hr, hhi]
    exact ⟨⟨rfl, hdoes⟩, (hread le_rfl).trans hstamp.1, (hread (by omega)).trans hstamp.2⟩
  · refine hskip (.inr hop) ?_
    rw [State.ptpFrame_residence hfits hbolt ht (by omega), hnone]
  · refine hskip (.inr hop) ?_
    rw [State.ptpFrame_residence hfits hbolt ht (by omega), hget]
    exact if_pos he
  · have hframe := State.ptpFrame_residence (f := f) hfits hbolt ht (by omega)
    rw [hget] at hframe
    have hr := htake (.inr hop) (hframe.trans (if_neg (not_not.2 he)))
    have hdoes := ptpFixed_does (w := w) (dl := dl) (k := (t / 2 ^ 32 : Nat) - (i.time / 2 ^ 32 : Nat) + ptpAdd w)
      (hi := po + 16) (origin := op = 1) (f := f) rfl hroom hudp fun j _ => rfl
    have hhi : po + (if op = 1 then 44 else 16) = po + 16 := by rw [if_neg (by omega)]
    unfold does n lo hi
    rw [hr, hhi]
    exact ⟨rfl, hdoes⟩

/-- R331, R332: how many segments a bolt is cut into, and what each holds. -/
theorem boltSegments_facts (x : Pkt) (f : List Byte) (dl : Int) (i : Nat) :
    let w := x.bolt.toNat
    let mss := w % 2 ^ 14
    let sh (n : Nat) : Nat := ((n : Int) + dl).toNat
    let l3 := sh (w / 2 ^ 40 % 256)
    let l4 := sh (w / 2 ^ 32 % 256)
    let hl := sh (w / 2 ^ 24 % 256)
    let ip6 := w.testBit 60
    let udp := w / 2 ^ 61 % 4 = 1
    let segs := boltSegments x f dl
    let g := segs.getD i []
    let pay := ((f.drop hl).drop (mss * i)).take mss
    let tl := hl - l4 + pay.length
    let sum (proto at_ : Nat) : Nat := inetSum (pseudo ip6 l3 proto tl g ++ patch (g.drop l4) at_ [0, 0])
    i < segs.length → hl ≤ f.length → l3 + (if ip6 then 40 else 20) = l4 → l4 + (if udp then 8 else 20) ≤ hl →
      g.drop hl = pay ∧ g.take l3 = f.take l3 ∧
      (ip6 = true → beAt g (l3 + 4) 2 = (hl - l3 - 40 + pay.length) % 65536) ∧
      (ip6 = false → beAt g (l3 + 2) 2 = (hl - l3 + pay.length) % 65536 ∧
        beAt g (l3 + 4) 2 = (beAt f (l3 + 4) 2 + i) % 65536 ∧ beAt g (l3 + 6) 2 = beAt f (l3 + 6) 2 ∧
        beAt g (l3 + 10) 2 = inetSum (patch (slice g l3 20) 10 [0, 0])) ∧
      (udp → beAt g (l4 + 4) 2 = tl % 65536 ∧ beAt g (l4 + 6) 2 = if sum 17 6 = 0 then 65535 else sum 17 6) ∧
      (¬ udp → beAt g (l4 + 4) 4 = (beAt f (l4 + 4) 4 + mss * i) % 2 ^ 32 ∧
        beAt g (l4 + 13) 1 = beAt f (l4 + 13) 1 &&& (if i + 1 = segs.length then 255 else 0xF6) &&&
          (if i = 0 then 255 else 0x7F) ∧ beAt g (l4 + 16) 2 = sum 6 16) := by
  intro w mss sh l3 l4 hl ip6 udp segs g pay tl sum hi hhl hl4 htl
  have hg : g = fixedSegment ip6 (decide udp) l3 l4 hl mss i (decide (i + 1 = x.boltSegs)) pay f :=
    (getD_boltSegments hi).trans (boltSegment_eq x f dl i)
  have hlen : segs.length = x.boltSegs := length_boltSegments x f dl
  have htl' : l4 + (if decide udp = true then 8 else 20) ≤ hl := by simpa using htl
  refine ⟨?_, ?_, fun h6 => ?_, fun h4 => ?_, fun hu => ?_, fun hu => ?_⟩
  · rw [hg]
    exact fixedSegment_drop hhl
  · rw [hg]
    exact fixedSegment_take hhl hl4 htl'
  · rw [hg]
    exact fixedSegment_ip6 hhl hl4 htl' h6
  · rw [hg]
    exact fixedSegment_ip4 hhl hl4 htl' h4
  · unfold sum
    rw [hg]
    exact fixedSegment_udp hhl hl4 htl' (decide_eq_true hu)
  · have h := fixedSegment_tcp (mss := mss) (i := i) (last := decide (i + 1 = x.boltSegs)) (pay := pay) hhl hl4 htl'
      (decide_eq_false hu)
    unfold sum
    rw [hg, hlen]
    simpa only [decide_eq_true_eq] using h

/-- Settles O25: a frame that begins is named once for every kind of packet (`State.startTx_eq`); what a bolt's segments and
a time action write is read back byte by byte (`boltSegments_facts`, `ptpAction_facts`). -/
theorem framesLeave : Obligations.FramesLeave := by
  unfold Obligations.FramesLeave
  refine ⟨⟨?_, ?_⟩, ⟨?_, ?_, ?_, ?_⟩, ⟨?_, State.egressStamp_eq, ?_, fun s d hd => s.ptpSkip_counts hd⟩, ?_⟩
  · intro p c x s hready hpfc htx hnext hx hbolt hact hstamp
    refine ⟨exec_transmitFrame_waits hready hpfc htx hnext hx, fun hmay => ?_⟩
    intro f called mx moment
    refine ⟨fun hlen => ?_, fun hlen hcut => ?_, fun hlen hcut => ?_⟩
    · rw [exec_transmitFrame_fits hready hpfc htx hnext hx hmay hbolt hlen, State.ptpAction_none hact,
        State.beginTx_plain hstamp]
      rfl
    · refine ⟨_, exec_transmitFrame_long hready hpfc htx hnext hx hmay hbolt hact hlen, ?_⟩
      rw [hcut]
      exact State.egressDrop_alike hstamp
    · refine ⟨_, exec_transmitFrame_long hready hpfc htx hnext hx hmay hbolt hact hlen, ?_⟩
      rw [if_pos hcut, State.beginTx_plain hstamp]
      exact State.countsOnly.alike ⟨_, rfl⟩
  · intro p t f s hrun htx
    exact ⟨exec_transmitComplete_waits hrun htx, transmitComplete_last hrun htx⟩
  · intro p c x s hready hpfc htx hnext hx hmay hbolt hact hstamp tg fs called mx moment
    have hexec := exec_transmitFrame_bolt hready hpfc htx hnext hx hmay hbolt hact
    refine ⟨fun hall => ?_, fun hlong => ⟨_, hexec.trans (congrArg Host.Outcome.next (if_pos ?_)),
      State.egressDrop_alike hstamp⟩⟩
    · refine hexec.trans (congrArg Host.Outcome.next ((if_neg ?_).trans (State.beginTx_plain hstamp _ _)))
      rw [State.anyTooLong_iff]
      rintro ⟨f, hf, hlt⟩
      exact absurd (hall f hf) (Nat.not_le.2 hlt)
    · exact (State.anyTooLong_iff _ _).2 hlong
  · intro p t s hready hpfc htx
    exact exec_transmitFrame_goesOn hready hpfc htx
  · intro p t f g fs s hrun htx hon hframes
    exact ⟨_, exec_transmitComplete_more hrun htx hon hframes, State.sendFrame_setTx_alike _ _ _ _ _⟩
  · intro x f dl i w mss sh l3 l4 hl ip6 udp segs g pay tl sum
    refine ⟨fun _ => ?_, boltSegments_facts x f dl i⟩
    exact (length_boltSegments x f dl).trans (boltSegs_eq x)
  · intro p c x s hready hpfc htx hnext hx hmay hbolt tg called moment r txq hlen
    have hexec := exec_transmitFrame_fits hready hpfc htx hnext hx hmay hbolt hlen
    dsimp only at hexec
    refine ⟨fun hstamp => ?_, fun d id hact hstamp hq hd => ?_⟩
    · rw [hexec, State.beginTx_plain hstamp]
      refine congrArg Host.Outcome.next (congrArg (State.updPort _ _) ?_)
      funext q
      rw [State.ptpAction_now]
      rfl
    · rw [State.ptpAction_none hact] at hexec
      exact ⟨_, hexec, State.beginTx_txq hstamp hq hd _ _⟩
  · exact fun s p tagged x v dl f hact => ptpAction_facts s p tagged x v dl f hact
  · intro p s hrun ready on f due sent
    have hdown (h : s.portIsDown p.val = false) (hon : on ≠ 0) (hdue : due ≤ s.now) : ¬ (s.portIsDown p.val ||
        decide (s.xoffClasses p.val = 0) || decide (s.now < due)) = true := by
      simpa [h] using ⟨hon, hdue⟩
    refine ⟨fun hr hreq => ?_, fun hno => ?_, fun hr hon hdue => ?_, fun hup hr hon hdue => ?_, fun hno => ?_,
      pfcFrame_fields s p.val⟩
    · refine ⟨_, exec_pfcFrameSend hrun, ?_⟩
      rw [if_pos (by simp [hr.1, hr.2, hreq])]
      exact s.pfcSend_pfcSent p.val
    · rw [exec_pfcFrameSend hrun, if_neg]
      simp only [Bool.and_eq_true, not_and]
      obtain hno | hno := hno
      · exact fun h hb => hno ⟨h.1, hb⟩
      · simp [hno]
    · refine ⟨_, exec_pfcRefresh hrun, ?_⟩
      rw [if_neg (hdown (State.txReady_up hr.1) hon hdue), if_pos (by simp [hr.1, hr.2])]
      exact s.pfcSend_pfcSent p.val
    · rw [exec_pfcRefresh hrun, if_neg (hdown hup hon hdue), if_neg (by simpa [ready] using hr)]
      rfl
    · rw [exec_pfcRefresh hrun, if_pos]
      simp only [Bool.or_eq_true, decide_eq_true_eq, or_assoc]
      exact hno

end Sys2Proof.Machine
end

section
/-! PROOF. The ALU group (AluInstructions). -/

namespace Sys2Proof.Machine

/-! ## What the operations of the group compute -/

/-- R56: the condition of fn, as relations of the operands. -/
theorem cmpCond_iff (fn : BitVec 6) (a b : Word) : cmpCond fn a b = true ↔
    (fn.toNat % 8 = 0 ∧ a = b) ∨ (fn.toNat % 8 = 1 ∧ a ≠ b) ∨ (fn.toNat % 8 = 2 ∧ a.toNat < b.toNat) ∨
      (fn.toNat % 8 = 3 ∧ b.toNat ≤ a.toNat) ∨ (fn.toNat % 8 = 4 ∧ a.toInt < b.toInt) ∨
      (fn.toNat % 8 = 5 ∧ b.toInt ≤ a.toInt) ∨ (fn.toNat % 8 = 6 ∧ a &&& b ≠ 0) ∨
      (fn.toNat % 8 = 7 ∧ a &&& b = 0) := by
  unfold cmpCond
  have hlt : fn.toNat % 8 < 8 := Nat.mod_lt _ (by decide)
  generalize fn.toNat % 8 = n at hlt ⊢
  interval_cases n <;> simp [BitVec.lt_def, BitVec.slt]

theorem cmpWord_cases {fn : BitVec 6} {a b : Word} {P : Prop} (h : cmpCond fn a b = true ↔ P) :
    (cmpWord fn a b = 1 ∧ P) ∨ (cmpWord fn a b = 0 ∧ ¬ P) := by
  unfold cmpWord
  by_cases hp : P
  · exact .inl ⟨if_pos (h.mpr hp), hp⟩
  · exact .inr ⟨if_neg (mt h.mp hp), hp⟩

theorem extWord_getLsbD (pos len : Nat) (a : Word) {j : Nat} (hj : j < 64) :
    (extWord pos len a).getLsbD j = (decide (j < min len 64) && a.getLsbD (pos + j)) := by
  unfold extWord
  rw [BitVec.getLsbD_ofNat, Nat.testBit_mod_two_pow, BitVec.testBit_toNat, BitVec.getLsbD_ushiftRight]
  simp [hj]

theorem insWord_getLsbD (pos len : Nat) (d a : Word) {j : Nat} (hj : j < 64) :
    (insWord pos len d a).getLsbD j =
      if pos ≤ j ∧ j < pos + min len 64 then a.getLsbD (j - pos) else d.getLsbD j := by
  unfold insWord
  simp only [BitVec.getLsbD_or, BitVec.getLsbD_and, BitVec.getLsbD_not, BitVec.getLsbD_ofNat, Nat.testBit_shiftLeft,
    Nat.testBit_two_pow_sub_one, BitVec.getLsbD_shiftLeft, hj, decide_true, Bool.true_and]
  by_cases h : pos ≤ j ∧ j < pos + min len 64
  · have hin : j - pos < min len 64 := by omega
    simp [h.1, hin, h, Nat.not_lt.mpr h.1]
  · rw [if_neg h]
    by_cases hp : pos ≤ j
    · have hout : ¬ j - pos < min len 64 := by omega
      simp [hp, hout]
    · simp [hp]

theorem moviWord_getLsbD (fn : BitVec 6) (val : BitVec 32) (d : Word) {j : Nat} (hj : j < 64) :
    (moviWord fn val d).getLsbD j =
      if fn.toNat % 4 = 2 then (if j < 32 then d.getLsbD j else val.getLsbD (j - 32))
      else if fn.toNat % 4 = 1 then val.getLsbD (min j 31) else val.getLsbD j := by
  unfold moviWord
  split
  next h =>
    rw [h, if_neg (by decide), if_pos rfl, BitVec.getLsbD_signExtend]
    by_cases hlow : j < 32
    · simp [hj, hlow, show min j 31 = j by omega]
    · simp [hj, hlow, show min j 31 = 31 by omega, BitVec.msb_eq_getLsbD_last]
  next h =>
    rw [h, if_pos rfl, BitVec.getLsbD_append]
    by_cases hlow : j < 32 <;> simp [hlow]
  next h1 h2 =>
    rw [if_neg h2, if_neg h1, BitVec.getLsbD_setWidth]
    simp [hj]

/-! ## Both contexts -/

/-- The forms both contexts have, of any property `W` of an instruction and the value it writes. -/
theorem aluForms {s : State} {c : Ctx} {w : IWord} {W : Instr → Word → Prop} {a b i : Word} {R : Prop}
    (rr : ∀ op f j, exec j s = aluRR op f c w s → W j (f a b))
    (ri : ∀ op f j, exec j s = aluRI op f c w s → W j (f a i)) (rest : R) :
    W (.add c w) (a + b) ∧ W (.addImm c w) (a + i) ∧ W (.sub c w) (a - b) ∧ W (.subImm c w) (a - i) ∧
    W (.and c w) (a &&& b) ∧ W (.andImm c w) (a &&& i) ∧ W (.or c w) (a ||| b) ∧ W (.orImm c w) (a ||| i) ∧
    W (.xor c w) (a ^^^ b) ∧ W (.xorImm c w) (a ^^^ i) ∧
    W (.shl c w) (a <<< (b.toNat % 64)) ∧ W (.shlImm c w) (a <<< (i.toNat % 64)) ∧
    W (.shr c w) (a >>> (b.toNat % 64)) ∧ W (.shrImm c w) (a >>> (i.toNat % 64)) ∧
    W (.sar c w) (a.sshiftRight (b.toNat % 64)) ∧ W (.sarImm c w) (a.sshiftRight (i.toNat % 64)) ∧
    W (.min c w) (BitVec.ofNat 64 (min a.toNat b.toNat)) ∧ W (.minImm c w) (BitVec.ofNat 64 (min a.toNat i.toNat)) ∧
    W (.max c w) (BitVec.ofNat 64 (max a.toNat b.toNat)) ∧ W (.maxImm c w) (BitVec.ofNat 64 (max a.toNat i.toNat)) ∧
    R := by
  simp only [← BitVec.ite_lt_min, ← BitVec.ite_lt_max]
  exact ⟨rr 0x20 (· + ·) _ rfl, ri 0x21 (· + ·) _ rfl, rr 0x22 (· - ·) _ rfl, ri 0x23 (· - ·) _ rfl,
    rr 0x24 (· &&& ·) _ rfl, ri 0x25 (· &&& ·) _ rfl, rr 0x26 (· ||| ·) _ rfl, ri 0x27 (· ||| ·) _ rfl,
    rr 0x28 (· ^^^ ·) _ rfl, ri 0x29 (· ^^^ ·) _ rfl,
    rr 0x2A (fun a b => a <<< (b.toNat % 64)) _ rfl, ri 0x2B (fun a b => a <<< (b.toNat % 64)) _ rfl,
    rr 0x2C (fun a b => a >>> (b.toNat % 64)) _ rfl, ri 0x2D (fun a b => a >>> (b.toNat % 64)) _ rfl,
    rr 0x2E (fun a b => a.sshiftRight (b.toNat % 64)) _ rfl, ri 0x2F (fun a b => a.sshiftRight (b.toNat % 64)) _ rfl,
    rr 0x30 (fun a b => if b < a then b else a) _ rfl, ri 0x31 (fun a b => if b < a then b else a) _ rfl,
    rr 0x32 (fun a b => if a < b then b else a) _ rfl, ri 0x33 (fun a b => if a < b then b else a) _ rfl, rest⟩

/-- Settles O1: every form is `aluRR` or `aluRI` of its operation, or writes one value through its dest; MIN, MAX and MUL
as numbers, CMP as relations, EXT, INS and MOVI bit by bit. -/
theorem aluInstructions : Obligations.AluInstructions := by
  unfold Obligations.AluInstructions
  refine ⟨?_, ?_, ⟨?_, ?_⟩, ?_, ?_⟩
  · intro k w s h a b i
    rw [← BitVec.mul_ofNat a b, ← BitVec.mul_ofNat a i]
    exact aluForms (W := fun c v => threadWrites c s k w v) (fun _ _ c hc => aluRR_thread h c hc)
      (fun _ _ c hc => aluRI_thread h c hc)
      ⟨aluRR_thread (f := (· * ·)) h _ rfl, aluRI_thread (f := (· * ·)) h _ rfl,
        aluRR_thread (f := fun a b => BitVec.ofNat 64 (a.toNat * b.toNat / 2 ^ 64)) h _ rfl⟩
  · intro p x w s h a b i
    exact aluForms (W := fun c v => pickWrites c s p x w v) (fun _ _ c hc => aluRR_pick h c hc)
      (fun _ _ c hc => aluRI_pick h c hc) (pickPure_writes _ h _ rfl rfl)
  · exact fun k w s h => ⟨_, _, aluRR_thread (f := cmpWord w.fn) h _ rfl,
      aluRI_thread (f := cmpWord w.fn) h _ rfl, cmpWord_cases (cmpCond_iff _ _ _), cmpWord_cases (cmpCond_iff _ _ _)⟩
  · exact fun p x w s h => ⟨_, _, aluRR_pick (f := cmpWord w.fn) h _ rfl,
      aluRI_pick (f := cmpWord w.fn) h _ rfl, cmpWord_cases (cmpCond_iff _ _ _), cmpWord_cases (cmpCond_iff _ _ _)⟩
  · exact fun k w s h => ⟨_, _, _,
      aluRR_thread (f := fun a _ => extWord w.fn.toNat (w.val.toNat % 128) a) h _ rfl, fun _ hj => extWord_getLsbD _ _ _ hj,
      taskPure_writes _ h _ rfl rfl, fun _ hj => insWord_getLsbD _ _ _ _ hj, taskPure_writes _ h _ rfl rfl,
      fun _ hj => moviWord_getLsbD _ _ _ hj⟩
  · exact fun p x w s h => ⟨_, _, _,
      aluRR_pick (f := fun a _ => extWord w.fn.toNat (w.val.toNat % 128) a) h _ rfl, fun _ hj => extWord_getLsbD _ _ _ hj,
      pickPure_writes _ h _ rfl rfl, fun _ hj => insWord_getLsbD _ _ _ _ hj, pickPure_writes _ h _ rfl rfl,
      fun _ hj => moviWord_getLsbD _ _ _ hj⟩

end Sys2Proof.Machine
end

section
/-! PROOF. Operand specifiers and HASH (OperandsAndHashes). -/

namespace Sys2Proof.Machine

/-! ## Threads -/

/-- R38, R39: a thread's write reads back through the specifiers of its registers. -/
theorem Task.read_write (t : Task) (d e : BitVec 6) (v : Word) :
    (t.write d v).read e = if e.toNat < 32 ∧ e = d then v else t.read e := by
  unfold Task.write Task.read
  by_cases hd : d.toNat < 32
  · by_cases he : e = d
    · subst he; simp [hd]
    · have hne : e.toNat ≠ d.toNat := fun h => he (BitVec.eq_of_toNat_eq h)
      simp [hd, he, vget_vupd_other _ _ _ _ _ hne]
  · have hne : ¬ (e.toNat < 32 ∧ e = d) := fun ⟨h, he⟩ => hd (he ▸ h)
    rw [if_neg hd, if_neg hne]

theorem Task.write_discards (t : Task) {d : BitVec 6} (v : Word) (h : 32 ≤ d.toNat) : t.write d v = t :=
  if_neg (Nat.not_lt.mpr h)

/-! ## Drafts: what a specifier reads -/

section
variable (x : Pkt) {e : BitVec 6}

theorem Pkt.read_g (h : e.toNat < 16) : x.read e = vget x.pick.g e.toNat 0 := if_pos h

theorem Pkt.read_p (h : 16 ≤ e.toNat ∧ e.toNat < 24) :
    x.read e = BitVec.ofNat 64 (b2n (x.pick.p.getLsbD (e.toNat - 16))) := by
  unfold Pkt.read
  rw [if_neg (by omega), if_pos h.2]

theorem Pkt.read_st (h : e.toNat = 24) : x.read e = x.pick.st := by simp [Pkt.read, h]

theorem Pkt.read_reserved (h : 24 < e.toNat ∧ e.toNat < 32) : x.read e = 0 := by
  unfold Pkt.read
  rw [if_neg (by omega), if_neg (by omega), if_neg (by omega), if_pos h.2]

theorem Pkt.read_slot (h : 32 ≤ e.toNat) : x.read e =
    if x.hfValid.getLsbD (e.toNat - 32) then (vget x.hf (e.toNat - 32) 0).setWidth 64 else 0 := by
  unfold Pkt.read
  rw [if_neg (by omega), if_neg (by omega), if_neg (by omega), if_neg (by omega)]

end

/-- Packets that agree in registers, predicates, status and slots read alike. -/
theorem Pkt.read_congr {x y : Pkt} (hg : y.pick.g = x.pick.g) (hp : y.pick.p = x.pick.p) (hst : y.pick.st = x.pick.st)
    (hvalid : y.hfValid = x.hfValid) (hhf : y.hf = x.hf) (e : BitVec 6) : y.read e = x.read e := by
  unfold Pkt.read
  rw [hg, hp, hst, hvalid, hhf]

/-! ## Drafts: what a write leaves -/

/-- Bit 0 of a word, as a number of one bit. -/
theorem and_one_eq_b2n (v : Word) : v &&& 1 = BitVec.ofNat 64 (b2n (v.getLsbD 0)) := by
  apply BitVec.eq_of_getLsbD_eq
  intro i hi
  cases i with
  | zero => cases h : v.getLsbD 0 <;> simp_all [b2n]
  | succ i => cases h : v.getLsbD 0 <;> simp [b2n, BitVec.getLsbD_one]

theorem setWidth_slot (v : Word) : (v.setWidth 32).setWidth 64 = v &&& 0xFFFFFFFF := by
  apply BitVec.eq_of_toNat_eq
  simp only [BitVec.toNat_setWidth, BitVec.toNat_and]
  rw [show (0xFFFFFFFF : Word).toNat = 2 ^ 32 - 1 from rfl, Nat.and_two_pow_sub_one_eq_mod]
  omega

theorem getLsbD_set_bit8 (p : BitVec 8) {i j : Nat} (hj : j < 8) (b : Bool) :
    (if b then p ||| BitVec.ofNat 8 (2 ^ i) else p &&& ~~~ BitVec.ofNat 8 (2 ^ i)).getLsbD j =
      if j = i then b else p.getLsbD j := by
  have hbit : (BitVec.ofNat 8 (2 ^ i)).getLsbD j = decide (i = j) := by
    rw [BitVec.getLsbD_ofNat, Nat.testBit_two_pow]
    simp [hj]
  cases b <;> simp only [if_true, Bool.false_eq_true, if_false, BitVec.getLsbD_or, BitVec.getLsbD_and, BitVec.getLsbD_not,
    hbit, hj, eq_comm (a := i)] <;> by_cases h : j = i <;> simp [h]

section
variable (x : Pkt) {d : BitVec 6} (v : Word)

theorem Pkt.write_g (h : d.toNat < 16) :
    x.write d v = { x with pick := { x.pick with g := vupd (fun _ => v) d.toNat x.pick.g } } := if_pos h

theorem Pkt.write_p (h : 16 ≤ d.toNat ∧ d.toNat < 24) : x.write d v =
    { x with pick := { x.pick with p := if v.getLsbD 0 then x.pick.p ||| BitVec.ofNat 8 (2 ^ (d.toNat - 16))
                                        else x.pick.p &&& ~~~ BitVec.ofNat 8 (2 ^ (d.toNat - 16)) } } := by
  unfold Pkt.write
  rw [if_neg (by omega), if_pos h.2]

theorem Pkt.write_reserved (h : 24 ≤ d.toNat ∧ d.toNat < 32) : x.write d v = x := by
  unfold Pkt.write
  rw [if_neg (by omega), if_neg (by omega), if_pos h.2]

theorem Pkt.write_slot (h : 32 ≤ d.toNat) : x.write d v =
    if x.hfValid.getLsbD (d.toNat - 32) then
      { x with
        hf := vupd (fun _ => v.setWidth 32) (d.toNat - 32) x.hf
        hfDirty := x.hfDirty ||| BitVec.ofNat 32 (2 ^ (d.toNat - 32)) }
    else x := by
  unfold Pkt.write
  rw [if_neg (by omega), if_neg (by omega), if_neg (by omega)]

theorem Pkt.read_write_g (h : d.toNat < 16) (e : BitVec 6) :
    (x.write d v).read e = if e = d then v else x.read e := by
  rw [Pkt.write_g x v h]
  by_cases he : e = d
  · subst he
    rw [if_pos rfl, Pkt.read_g _ h, vget_vupd_same _ _ _ _ h]
  · have hne : e.toNat ≠ d.toNat := fun h => he (BitVec.eq_of_toNat_eq h)
    rw [if_neg he]
    unfold Pkt.read
    simp only [vget_vupd_other _ _ _ _ _ hne]

theorem Pkt.read_write_p (h : 16 ≤ d.toNat ∧ d.toNat < 24) (e : BitVec 6) :
    (x.write d v).read e = if e = d then v &&& 1 else x.read e := by
  rw [Pkt.write_p x v h]
  by_cases hp : 16 ≤ e.toNat ∧ e.toNat < 24
  · rw [Pkt.read_p _ hp, Pkt.read_p _ hp, getLsbD_set_bit8 _ (by omega), and_one_eq_b2n]
    by_cases he : e = d
    · subst he; simp
    · have hne : ¬ e.toNat - 16 = d.toNat - 16 := fun hn => he (BitVec.eq_of_toNat_eq (by omega))
      rw [if_neg hne, if_neg he]
  · have he : ¬ e = d := fun he => hp (he ▸ h)
    rw [if_neg he]
    unfold Pkt.read
    dsimp only
    split
    · rfl
    next hg => rw [if_neg (fun hlt => hp ⟨Nat.not_lt.mp hg, hlt⟩), if_neg (fun hlt => hp ⟨Nat.not_lt.mp hg, hlt⟩)]

theorem Pkt.read_write_slot (h : 32 ≤ d.toNat) (hv : x.hfValid.getLsbD (d.toNat - 32) = true) (e : BitVec 6) :
    (x.write d v).read e = if e = d then v &&& 0xFFFFFFFF else x.read e := by
  rw [Pkt.write_slot x v h, if_pos hv]
  have hlt := d.isLt
  by_cases hs : 32 ≤ e.toNat
  · rw [Pkt.read_slot _ hs, Pkt.read_slot _ hs]
    by_cases he : e = d
    · subst he
      rw [if_pos hv, if_pos rfl, vget_vupd_same _ _ _ _ (by omega), setWidth_slot]
    · have hne : e.toNat - 32 ≠ d.toNat - 32 := fun hn => he (BitVec.eq_of_toNat_eq (by omega))
      simp only [vget_vupd_other _ _ _ _ _ hne, if_neg he]
  · have he : ¬ e = d := fun he => hs (he ▸ h)
    rw [if_neg he]
    have hlow : e.toNat < 32 := Nat.not_le.mp hs
    simp only [Pkt.read, hlow, if_true]

end

/-- Settles O2: reads after writes by the kind of the specifier; HASH is `aluRR` of its algorithm. -/
theorem operandsAndHashes : Obligations.OperandsAndHashes := by
  unfold Obligations.OperandsAndHashes
  refine ⟨⟨fun t d e v => ?_, fun x d e v => ?_⟩, fun k w s h => ?_, fun p x w s h => ?_⟩
  · refine ⟨t.read_write d e v, t.write_discards v, fun he => ?_, fun he => ?_⟩
    · simp [Task.read, Nat.not_lt.mpr he.1, Nat.ne_of_lt he.2]
    · simp [Task.read, he]
  · refine ⟨fun h => x.read_write_g v h e, fun h => x.read_write_p v h e, x.write_reserved v, fun h hv => ?_, fun h hv => ?_,
      x.read_st, x.read_reserved⟩
    · exact ⟨x.read_write_slot v h hv e, by rw [x.write_slot v h, if_pos hv]⟩
    · have hinvalid : ¬ x.hfValid.getLsbD (d.toNat - 32) = true := by simp [hv]
      exact ⟨by rw [x.write_slot v h, if_neg hinvalid], by rw [x.read_slot h, if_neg hinvalid]⟩
  · exact ⟨_, aluRR_thread (f := s.hashWord s.bat.seq w.fn.toNat w.val) h _ rfl, rfl⟩
  · have hseq : s.ctxSeq (.pick p) = x.pick.seq := by simp [State.ctxSeq, h.1]
    refine ⟨_, aluRR_pick (op := 0x40) (f := s.hashWord x.pick.seq w.fn.toNat w.val) h _ ?_, rfl⟩
    rw [← hseq]
    rfl

end Sys2Proof.Machine
end

section
/-! PROOF. The words of programs, NOP, and illegal uses (NopAndIllegalUses). -/

namespace Sys2Proof

/-! ## Instruction words -/

/-- R47: the fields of a word at their places. -/
theorem IWord.toWord_toNat (op : BitVec 8) (w : IWord) : (w.toWord op).toNat =
    op.toNat * 2 ^ 56 + w.dest.toNat * 2 ^ 50 + w.src1.toNat * 2 ^ 44 + w.src2.toNat * 2 ^ 38 +
      w.fn.toNat * 2 ^ 32 + w.val.toNat := by
  have h1 := w.dest.isLt; have h2 := w.src1.isLt; have h3 := w.src2.isLt; have h4 := w.fn.isLt; have h5 := w.val.isLt
  unfold IWord.toWord
  simp only [BitVec.toNat_append]
  rw [← Nat.shiftLeft_add_eq_or_of_lt h5, ← Nat.shiftLeft_add_eq_or_of_lt h4, ← Nat.shiftLeft_add_eq_or_of_lt h3,
    ← Nat.shiftLeft_add_eq_or_of_lt h2, ← Nat.shiftLeft_add_eq_or_of_lt h1]
  simp only [Nat.shiftLeft_eq]
  omega

theorem toNat_extract (w : Word) (lo n : Nat) : (w.extractLsb' lo n).toNat = w.toNat / 2 ^ lo % 2 ^ n := by
  rw [BitVec.extractLsb'_toNat, Nat.shiftRight_eq_div_pow]

theorem opcodeOf_toWord (op : BitVec 8) (w : IWord) : opcodeOf (w.toWord op) = op.toNat := by
  have h0 := op.isLt
  have h1 := w.dest.isLt; have h2 := w.src1.isLt; have h3 := w.src2.isLt; have h4 := w.fn.isLt; have h5 := w.val.isLt
  unfold opcodeOf
  rw [toNat_extract, IWord.toWord_toNat]
  omega

theorem IWord.ofWord_toWord (op : BitVec 8) (w : IWord) : IWord.ofWord (w.toWord op) = w := by
  obtain ⟨d, a, b, f, v⟩ := w
  have h0 := op.isLt
  have h1 := d.isLt; have h2 := a.isLt; have h3 := b.isLt; have h4 := f.isLt; have h5 := v.isLt
  unfold IWord.ofWord
  congr 1 <;> apply BitVec.eq_of_toNat_eq <;> rw [toNat_extract, IWord.toWord_toNat] <;> dsimp only <;> omega

theorem IWord.toWord_ofWord (v : Word) : (IWord.ofWord v).toWord (v.extractLsb' 56 8) = v := by
  have h := v.isLt
  apply BitVec.eq_of_toNat_eq
  rw [IWord.toWord_toNat]
  simp only [IWord.ofWord, toNat_extract]
  omega

/-- R48: the opcodes the table defines. -/
def opcodes : List Nat :=
  [0x00, 0x01, 0x02, 0x03, 0x04, 0x05, 0x06, 0x07, 0x10, 0x11, 0x12, 0x20, 0x21, 0x22, 0x23, 0x24, 0x25, 0x26, 0x27, 0x28,
    0x29, 0x2A, 0x2B, 0x2C, 0x2D, 0x2E, 0x2F, 0x30, 0x31, 0x32, 0x33, 0x34, 0x35, 0x36, 0x37, 0x38, 0x39, 0x3A, 0x3B,
    0x3E, 0x40, 0x50, 0x51, 0x52, 0x53, 0x54, 0x60, 0x61, 0x62, 0x70, 0x71, 0x72, 0x73, 0x74, 0x80, 0x81, 0x90, 0x91,
    0x92, 0x93, 0x94, 0x95, 0x96, 0x97]

section
variable {c : Ctx} {w : IWord} {n : Nat} (h : n ∉ opcodes)
include h

theorem opcodeLow_none : opcodeLow c w n = none := by
  unfold opcodeLow
  split <;> simp_all [opcodes]

theorem opcodeAlu_none : opcodeAlu c w n = none := by
  unfold opcodeAlu
  split <;> simp_all [opcodes]

theorem opcodeFlow_none : opcodeFlow c w n = none := by
  unfold opcodeFlow
  split <;> simp_all [opcodes]

theorem opcodeThread_none : opcodeThread c w n = none := by
  unfold opcodeThread
  split <;> simp_all [opcodes]

/-- R48: an opcode outside the table spells nothing. -/
theorem instrOfOp_none : instrOfOp c n w = none := by
  simp [instrOfOp, opcodeLow_none h, opcodeAlu_none h, opcodeFlow_none h, opcodeThread_none h]

end

namespace Machine

/-! ## A task that stops at an illegal use -/

theorem State.leaveCtx_only (s : State) (k : Nat) :
    ∃ t g, s.leaveCtx k = { s with spin := { s.spin with task := t, groupNs := g } } := by
  unfold State.leaveCtx
  dsimp only
  split
  · exact ⟨s.spin.task, s.spin.groupNs, rfl⟩
  · exact ⟨_, _, rfl⟩

/-- R417: the task that leaves is in no context; no other task changes. -/
theorem State.leaveCtx_task (s : State) (k j : Nat) :
    (s.leaveCtx k).task j = if j = k then { s.task k with ctx := none } else s.task j := by
  unfold State.leaveCtx
  dsimp only
  split
  next h =>
    split
    next e => subst e; rw [← h]
    next => rfl
  next =>
    show (s.setTask k { s.task k with ctx := none }).task j = _
    split
    next e => subst e; exact State.task_setTask _ _ _
    next e => exact State.task_setTask_other _ _ _ e

theorem State.updTask_leaveCtx_task (s : State) (k j : Nat) (f : Task → Task) :
    ((s.leaveCtx k).updTask k f).task j = if j = k then f { s.task k with ctx := none } else s.task j := by
  unfold State.updTask
  by_cases e : j = k
  · subst e; rw [State.task_setTask, State.leaveCtx_task, if_pos rfl, if_pos rfl]
  · rw [State.task_setTask_other _ _ _ e, State.leaveCtx_task, if_neg e, if_neg e]

/-- R48: what an opcode that threads may not execute does to one that may run. -/
theorem illegalTask_stops {k : TaskId} {s : State} (h : s.threadRuns k) : ∃ u : State,
    s.illegalTask k.val = u.post 3 2 (toLE 2 k.val ++ toLE 6 0 ++ toLE 8 (s.task k.val).pc) ∧
    u.task k.val = { s.task k.val with st := .stopped, ctx := none } ∧ (∀ j, j ≠ k.val → u.task j = s.task j) ∧
    s.sameMem u ∧ s.sameRegs u [Reg.spinErr] ∧ u.rd Reg.spinErr = Fld.spinErrIllegal.put (s.rd Reg.spinErr) 1 ∧
    u.pkts = s.pkts := by
  have htask (j : Nat) := s.updTask_leaveCtx_task k.val j fun t => { t with st := .stopped, wait := .none }
  have hwait : (s.task k.val).wait = .none := h.2.1
  obtain ⟨t, g, hleave⟩ := s.leaveCtx_only k.val
  refine ⟨_, rfl, ?_, fun j hj => ?_, fun a => ?_, fun a ha => ?_, ?_, ?_⟩
  · refine (htask k.val).trans ?_
    rw [if_pos rfl, ← hwait]
  · exact (htask j).trans (if_neg hj)
  · rw [hleave]; rfl
  · refine (State.rd_wr_other _ _ (by simpa using ha)).trans ?_
    rw [hleave]; rfl
  · refine (State.rd_wr_same _ _ _).trans ?_
    rw [hleave]; rfl
  · rw [hleave]; rfl

/-- Settles O3: words by their numbers, opcodes by the table's rows, NOP as a pure instruction, and illegal uses as what
stops the task or drops the packet. -/
theorem nopAndIllegalUses : Obligations.NopAndIllegalUses := by
  unfold Obligations.NopAndIllegalUses
  refine ⟨⟨fun op w => ⟨opcodeOf_toWord op w, w.ofWord_toWord op, w.toWord_toNat op⟩, IWord.toWord_ofWord, ?_⟩,
    ⟨fun k w s h => ?_, fun p x w s h => ?_⟩, fun k w s h => ?_, fun p x w s h => ?_⟩
  · intro c w table
    constructor
    · intro e he v hop hw
      have hrow : instrOfOp c e.1 w = some e.2 := by
        clear hop hw
        revert e
        simp only [table, List.forall_mem_cons, List.not_mem_nil, false_implies, implies_true, and_true]
        repeat' constructor
      rw [instrOfWord, hop, hw, hrow, Option.getD_some]
    · intro v hv
      have hout : opcodeOf v ∉ table.map (·.1) := fun hmem => by
        obtain ⟨e, he, heq⟩ := List.mem_map.mp hmem
        exact hv e he heq.symm
      rw [instrOfWord, instrOfOp_none hout, Option.getD_none]
  · exact taskPure_runs (g := id) h h.1
  · exact pickPure_does (g := id) h _ rfl
  · obtain ⟨u, hu, hrest⟩ := illegalTask_stops h
    have hstop (c : Instr) (hc : exec c s = taskIllegal k.val s) :
        exec c s = .next (u.post 3 2 (toLE 2 k.val ++ toLE 6 0 ++ toLE 8 (s.task k.val).pc)) := by
      rw [hc, taskIllegal_runs h, hu]
    refine ⟨⟨u, hstop _ rfl, hrest.1⟩, ?_⟩
    simp only [List.forall_mem_cons, List.not_mem_nil, false_implies, implies_true, and_true]
    exact ⟨⟨u, hstop _ rfl, hrest⟩, ⟨u, hstop _ rfl, hrest⟩, ⟨u, hstop _ rfl, hrest⟩, ⟨u, hstop _ rfl, hrest⟩,
      ⟨u, hstop _ rfl, hrest⟩, ⟨u, hstop _ rfl, hrest⟩, ⟨u, hstop _ rfl, hrest⟩, ⟨u, hstop _ rfl, hrest⟩,
      ⟨u, hstop _ rfl, hrest⟩, ⟨u, hstop _ rfl, hrest⟩, ⟨u, hstop _ rfl, hrest⟩, ⟨u, hstop _ rfl, hrest⟩,
      ⟨u, hstop _ rfl, hrest⟩, ⟨u, hstop _ rfl, hrest⟩, ⟨u, hstop _ rfl, hrest⟩, ⟨u, hstop _ rfl, hrest⟩,
      ⟨u, hstop _ rfl, hrest⟩⟩
  · have out (op : Nat) (c : Instr) (hc : exec c s = pickIllegal p op s) : drops c s p x 50 := drops_illegal h hc
    refine ⟨out 0xFF _ rfl, ?_, fun hkind => ?_⟩
    · simp only [List.forall_mem_cons, List.not_mem_nil, false_implies, implies_true, and_true]
      exact ⟨out 0x01 _ rfl, out 0x02 _ rfl, out 0x03 _ rfl, out 0x07 _ rfl, out 0x12 _ rfl, out 0x36 _
        rfl, out 0x37 _ rfl, out 0x39 _ rfl, out 0x54 _ rfl, out 0x90 _ rfl, out 0x91 _ rfl, out 0x92 _ rfl,
        out 0x93 _ rfl, out 0x94 _ rfl, out 0x95 _ rfl, out 0x96 _ rfl, out 0x97 _ rfl⟩
    · refine drops_run (op := 0x10) (f := brPick w) 50 rfl h.1 ?_ (by decide)
      obtain ⟨hx, hplace, hwait, hrun, hcount⟩ := h
      have hbr : brPick w x s = .illegal := by
        have hk : brKind w = 5 ∨ brKind w = 6 := hkind
        rw [brPick, if_neg (by omega), if_pos hk]
      simp [runPick, hx, hplace, hwait, hrun, Nat.not_le.mpr hcount, hbr]

end Machine
end Sys2Proof
end

section
/-! PROOF. Branches, the end of an activation, and loops of threads (ThreadControlFlow). -/

namespace Sys2Proof.Machine

theorem brTaken_iff {w : IWord} (st a : Word) (h : brKind w < 5) :
    brTaken (brKind w) (w.fn.toNat % 8) st a = true ↔ brTakes w st a := by
  unfold brTakes
  change _ ↔ (brKind w = 0 ∨ (brKind w = 1 ∧ _) ∨ (brKind w = 2 ∧ _) ∨ (brKind w = 3 ∧ _) ∨ (brKind w = 4 ∧ _))
  generalize brKind w = n at h ⊢
  interval_cases n <;> simp [brTaken]

theorem brTaken_beyond {n : Nat} (code : Nat) (st a : Word) (h : 5 ≤ n) : brTaken n code st a = true := by
  unfold brTaken
  split <;> simp_all

/-- R411: no program reaches past its 2^18 words. -/
theorem State.inProgram_far (s : State) (k : Nat) {pc : Nat} (h : 2 ^ 19 ≤ pc) : s.inProgram k pc = false := by
  have hb : bitsOf (s.taskWord k 0).toNat 63 46 < 2 ^ 18 := Nat.mod_lt _ (by decide)
  have hl : bitsOf (s.taskWord k 0).toNat 45 28 < 2 ^ 18 := Nat.mod_lt _ (by decide)
  have hout : ¬ pc < bitsOf (s.taskWord k 0).toNat 63 46 + bitsOf (s.taskWord k 0).toNat 45 28 := by omega
  simp [State.inProgram, hout]

section
variable {k : TaskId} {w : IWord} {s : State} (h : s.threadRuns k)
include h

/-- R55: a branch that is not taken passes on. -/
theorem br_stays (hk : brKind w < 5) (hn : ¬ brTakes w (s.task k.val).stReg ((s.task k.val).read w.src1)) :
    threadDoes (.br (.task k) w) s k (s.task k.val) := by
  refine becomes_of_done (f := brTask w k.val) (op := 0x10) h rfl ?_
  rw [← brTaken_iff _ _ hk] at hn
  rw [brTask, if_neg (by omega), if_neg hn]

/-- R55: a branch that is taken goes to a word of its program, or, where its target is no such word, is an undefined
opcode. -/
theorem br_goes {u : State} {pc : Nat} {t : Task} (hf : brTask w k.val (s.task k.val) s = .jump u pc)
    (hset : ∀ f : Task → Task, (∀ x, (f x).st = x.st) → u.updTask k.val f = s.setTask k.val (f t)) :
    (s.inProgram k.val pc = true →
      becomes (.br (.task k) w) s (s.setTask k.val { t with pc := pc, loops := branchOut t.loops pc })) ∧
    (s.inProgram k.val pc = false → exec (.br (.task k) w) s = .next (s.illegalTask k.val)) := by
  constructor
  · intro hin
    obtain ⟨v, hv, ha⟩ := runTask_jump (op := 0x10) (w := w) h hf hin
    exact ⟨v, hv, hset (fun x => { x with pc := pc, loops := branchOut x.loops pc }) (fun _ => rfl) ▸ ha⟩
  · intro hout
    obtain ⟨h1, h2, h3, h4, h5⟩ := h
    show runTask k.val 0x10 w (brTask w k.val) s = _
    unfold runTask
    simp [h1, h2, h3, h4, h5, hf, hout]

end

/-- The word a branch by displacement goes to. -/
theorem brTarget_near {w : IWord} {t : Task} {pc : Nat} (hk : brKind w ≠ 5) (hpc : (pc : Int) = t.pc + w.val.toInt) :
    brTarget w t = pc := by
  unfold brTarget IWord.disp
  rw [if_neg hk, ← hpc]
  simp

theorem brTarget_below {w : IWord} {t : Task} (hk : brKind w ≠ 5) (hpc : (t.pc : Int) + w.val.toInt < 0) :
    brTarget w t = 2 ^ 64 := by
  unfold brTarget IWord.disp
  rw [if_neg hk, if_pos hpc]

theorem brTarget_register {w : IWord} (t : Task) (hk : brKind w = 5) : brTarget w t = (t.read w.src1).toNat := if_pos hk

/-- R55: BR where it is taken, of a kind other than CALL and END. -/
theorem brTask_goes {w : IWord} {t : Task} (s : State) (k : Nat) (hk : brKind w < 6)
    (ht : brTaken (brKind w) (w.fn.toNat % 8) t.stReg (t.read w.src1) = true) :
    brTask w k t s = .jump s (brTarget w t) := by
  rw [brTask, if_neg (by omega), if_pos ht, if_neg (by omega)]

theorem brTask_calls {w : IWord} (t : Task) (s : State) (k : Nat) (hk : brKind w = 6) : brTask w k t s =
    .jump (s.updTask k fun t => t.write w.dest (BitVec.ofNat 64 (t.pc + 1))) (brTarget w t) := by
  rw [brTask, if_neg (by omega), if_pos (brTaken_beyond _ _ _ (by omega)), if_pos hk]

/-! ## END -/

theorem State.alike.byte {t u : State} (h : t.alike u) (a : Nat) : t.byte a = u.byte a :=
  (show t.bare.byte a = u.bare.byte a by rw [h.1])

/-- An instruction that leaves its task running is not kept for later. -/
theorem State.noteWait_running {s : State} {k op : Nat} {w : IWord} (h : (s.task k).st ≠ .blocked) :
    s.noteWait k op w = s := if_neg h

/-- R421: an activation whose deadline has not passed is no miss. -/
theorem State.missed_none {s : State} {k : Nat} (h : ∀ d, (s.task k).deadline = some d → s.taskNow k ≤ d) :
    s.missed k = s := by
  cases hd : (s.task k).deadline with
  | none => simp only [State.missed, hd]
  | some d => simp only [State.missed, hd, h d hd, if_true]

/-- R55: END with no release held and no flag of START_MASK set. -/
theorem State.endActivation_plain {s : State} {k : Nat} (hrel : (s.task k).heldRel = false)
    (hdl : ∀ d, (s.task k).deadline = some d → s.taskNow k ≤ d)
    (hfl : (s.task k).flags &&& (s.taskWord k 1).extractLsb' 32 32 = 0) :
    s.endActivation k = (s.leaveCtx k).updTask k fun t =>
      { t with st := .dormant, pc := s.taskBase k, loops := [], deadline := none } := by
  obtain ⟨t, g, hleave⟩ := s.leaveCtx_only k
  have hword (i : Nat) : (s.leaveCtx k).taskWord k i = s.taskWord k i := by rw [hleave]; rfl
  have hbase : (s.leaveCtx k).taskBase k = s.taskBase k := by unfold State.taskBase State.taskF; rw [hword]
  unfold State.endActivation
  rw [State.missed_none hdl]
  dsimp only
  rw [hbase, State.updTask_leaveCtx_task, if_pos rfl]
  have hflag : ((s.leaveCtx k).updTask k fun t =>
      { t with st := .dormant, pc := s.taskBase k, loops := [], deadline := none }).taskWord k 1 = s.taskWord k 1 :=
    hword 1
  rw [hflag, if_neg (by simp [hrel]), if_neg (by simpa using hfl)]

/-- Settles O4: branches by whether they are taken and where they go, END by its plain case, LOOP as it updates the
task. -/
theorem threadControlFlow : Obligations.ThreadControlFlow := by
  unfold Obligations.ThreadControlFlow
  refine ⟨fun k w s h => ?_, fun k w s h hkind hrel hdl hfl => ?_, fun k w s h => ?_⟩
  · intro T kind goes
    have hplain (f : Task → Task) : s.updTask k.val f = s.setTask k.val (f T) := rfl
    have hstill : T.st ≠ .free := by simp [T, h.1]
    have hcall (f : Task → Task) (hf : ∀ t, (f t).st = t.st) :
        (s.updTask k.val fun t => t.write w.dest (BitVec.ofNat 64 (t.pc + 1))).updTask k.val f =
          s.setTask k.val (f (T.write w.dest (BitVec.ofNat 64 (T.pc + 1)))) := by
      unfold State.updTask
      rw [State.task_setTask, State.setTask_setTask _ _ _ _ (by simpa using hstill) (by simpa [hf] using hstill)]
    have htaken (hk : brKind w < 5) (ht : brTakes w T.stReg (T.read w.src1)) :=
      brTask_goes (t := T) s k.val (by omega) ((brTaken_iff _ _ hk).mpr ht)
    refine ⟨br_stays h, fun (hk : brKind w < 5) ht pc hpc => ?_, fun (hk : brKind w = 5) => ?_, fun hk hneg => ?_,
      fun (hk : brKind w = 6) pc hpc => ?_⟩
    · exact br_goes h ((htaken hk ht).trans (by rw [brTarget_near (by omega) hpc])) fun f _ => hplain f
    · exact br_goes h ((brTask_goes (t := T) s k.val (by omega) (brTaken_beyond _ _ _ (by omega))).trans
        (by rw [brTarget_register _ hk])) fun f _ => hplain f
    · have hout := s.inProgram_far k.val (pc := 2 ^ 64) (by decide)
      obtain ⟨hk, ht⟩ | hk : (brKind w < 5 ∧ _) ∨ brKind w = 6 := hk
      · exact (br_goes h ((htaken hk ht).trans (by rw [brTarget_below (by omega) hneg])) fun f _ => hplain f).2 hout
      · exact (br_goes h ((brTask_calls T s k.val hk).trans (by rw [brTarget_below (by omega) hneg])) hcall).2 hout
    · exact br_goes h ((brTask_calls T s k.val hk).trans (by rw [brTarget_near (by omega) hpc])) hcall
  · have hend : brTask w k.val (s.task k.val) s = .keep (s.endActivation k.val) := if_pos hkind
    obtain ⟨v, hv, ha⟩ := runTask_keep (op := 0x10) (w := w) h hend
    rw [State.endActivation_plain hrel hdl hfl] at ha
    have htask (j : Nat) := s.updTask_leaveCtx_task k.val j fun t =>
      { t with st := .dormant, pc := s.taskBase k.val, loops := [], deadline := none }
    rw [State.noteWait, if_neg (by simp [htask])] at ha
    obtain ⟨t, g, hleave⟩ := s.leaveCtx_only k.val
    refine ⟨v, hv, ?_, fun j hj => ?_, fun a => ?_, fun a hm => ?_⟩
    · rw [ha.task, htask, if_pos rfl]; rfl
    · rw [ha.task, htask, if_neg hj]
    · rw [ha.byte, hleave]; rfl
    · rw [ha.2 a hm, hleave]; rfl
  · intro T n len
    have hloop (t : Task) (ht : T.loop w = t) (hst : t.st = .running) :
        becomes (.loop (.task k) w) s (s.setTask k.val t) := by
      have hkept : (s.setTask k.val t).noteWait k.val 0x12 w = s.setTask k.val t :=
        State.noteWait_running (by simp [hst])
      exact hkept ▸ becomes_of_keep (op := 0x12) (w := w)
        (f := fun t s => .keep (s.setTask k.val (t.loop w))) h rfl (congrArg (fun t => TaskRes.keep (s.setTask k.val t)) ht)
    refine ⟨fun hd => hloop _ (if_pos hd) h.1, fun hd hz => hloop _ ?_ h.1, fun hd hn hl => hloop _ ?_ h.1⟩
    · exact (if_neg (by omega)).trans (if_pos hz)
    · exact (if_neg (by omega)).trans (if_neg (by tauto))

end Sys2Proof.Machine
end

section
/-! PROOF. Window accesses, time stamps and pool counts (WindowsTimesAndCounts). -/

namespace Sys2Proof.Machine

/-- A meaning that changes its packet only, as the device stands, in a draft. -/
theorem pickSets_does {c : Instr} {p : PktId} {s : State} {x : Pkt} {op : Nat} {g : Pkt → State → Pkt}
    (h : s.pickRuns p x) (hc : exec c s = runPick p op (fun x s => .done (s.setPkt p (some (g x s))) 0) s) :
    pickDoes c s p (g x s) := pickLeaves_of_done h hc rfl rfl

/-- A meaning that changes its task only, as the device stands, in a thread. -/
theorem threadSets_does {c : Instr} {k : TaskId} {w : IWord} {s : State} {op : Nat} {g : Task → State → Task}
    (h : s.threadRuns k) (hc : exec c s = runTask k.val op w (fun t s => .done (s.setTask k.val (g t s))) s)
    (hst : (g (s.task k.val) s).st ≠ .free) : threadDoes c s k (g (s.task k.val) s) :=
  threadLeaves_of_done h hc rfl hst

theorem State.updTask_setTask (s : State) (k : Nat) {t : Task} (f : Task → Task) (ht : t.st ≠ .free)
    (hf : (f t).st ≠ .free) : (s.setTask k t).updTask k f = s.setTask k (f t) := by
  rw [State.updTask, State.task_setTask, State.setTask_setTask _ _ _ _ ht hf]

/-! ## Bytes of windows -/

theorem widthOf_mod (n : Nat) : widthOf (n % 4) = 2 ^ (n % 4) := by
  rw [widthOf, Nat.mod_mod]

theorem widthOf_le (n : Nat) : widthOf n ≤ 8 :=
  Nat.pow_le_pow_right (by decide) (show n % 4 ≤ 3 by omega)

/-- R53: at most 8 bytes of a window fit a word. -/
theorem windowRead_toNat (win o : Nat) {n : Nat} (h : n ≤ 8) :
    (windowRead win o n).toNat = win / 2 ^ (8 * o) % 2 ^ (8 * n) := by
  have hfit : 2 ^ (8 * n) ≤ 2 ^ 64 := Nat.pow_le_pow_right (by decide) (by omega)
  rw [windowRead, BitVec.toNat_ofNat, Nat.shiftRight_eq_div_pow,
    Nat.mod_eq_of_lt (lt_of_lt_of_le (Nat.mod_lt _ (by positivity)) hfit)]

theorem byteOf_ofLE (bs : List Byte) (j : Nat) : byteOf (ofLE bs) j = bs[j]?.getD 0 := by
  refine BitVec.eq_of_getLsbD_eq fun i hi => ?_
  rw [byteOf, BitVec.getLsbD_ofNat, Nat.testBit_shiftRight, testBit_ofLE]
  simp [hi, show (8 * j + i) / 8 = j by omega, show (8 * j + i) % 8 = i by omega]

theorem getElem?_toLE {k i : Nat} (n : Nat) (h : i < k) : (toLE k n)[i]? = some (byteOf n i) := by
  simp [toLE, h]

/-- R43: the bytes of the USER words after a store in them. -/
theorem byteOf_storeUser {x : Pkt} {o n j : Nat} (v : Word) (ho : 32 ≤ o) (hj : j < 32) :
    byteOf (x.storeUser o n v).user.toNat j =
      if o ≤ j + 32 ∧ j + 32 < o + n then byteOf v.toNat (j + 32 - o) else byteOf x.user.toNat j := by
  have hfit := ofLE_lt (patch (toLE 32 x.user.toNat) (o - 32) (toLE n v.toNat))
  rw [length_patch, length_toLE, show 256 ^ 32 = 2 ^ 256 by rfl] at hfit
  show byteOf (BitVec.ofNat 256 (ofLE _)).toNat j = _
  rw [BitVec.toNat_ofNat, Nat.mod_eq_of_lt hfit, byteOf_ofLE, getElem?_patch, length_toLE, length_toLE]
  by_cases hin : o ≤ j + 32 ∧ j + 32 < o + n
  · rw [if_pos (by omega), if_pos hin, getElem?_toLE _ (by omega), show j - (o - 32) = j + 32 - o by omega]
    rfl
  · rw [if_neg (by omega), if_neg hin, getElem?_toLE _ hj]
    rfl

theorem State.frWindow_none (s : State) {x : Pkt} (h : x.pick.held = none) : s.frWindow x = 0 := by
  simp only [State.frWindow, h]

theorem State.frWindow_held {s : State} {x : Pkt} {h : Held} {c : CLine} (hh : x.pick.held = some h)
    (hc : s.line h.line = some c) : s.frWindow x = c.head.toNat := by
  simp only [State.frWindow, hh, hc]

section
variable {p : PktId} {x : Pkt} {w : IWord} {s : State} (h : s.pickRuns p x)
include h

/-- LD.W writes the bytes of its window. -/
theorem ldW_writes {win : Nat} (hwin : (if w.val.getLsbD 8 then s.frWindow x else x.md) = win) :
    ∃ v, pickWrites (.ldW (.pick p) w) s p x w v ∧
      v.toNat = win / 2 ^ (8 * bitsOf w.val.toNat 5 0) % 2 ^ (8 * 2 ^ (w.fn.toNat % 4)) := by
  refine ⟨windowRead win (bitsOf w.val.toNat 5 0) (widthOf (w.fn.toNat % 4)), ?_, ?_⟩
  · rw [← hwin]
    exact pickSets_does (op := 0x04) (g := fun x s =>
      x.write w.dest (windowRead (if w.val.getLsbD 8 then s.frWindow x else x.md) (bitsOf w.val.toNat 5 0)
        (widthOf (w.fn.toNat % 4)))) h rfl
  · rw [windowRead_toNat _ _ (widthOf_le _), widthOf_mod]

theorem stW_does {y : Pkt} (hy : (if !w.val.getLsbD 8 ∧ 32 ≤ bitsOf w.val.toNat 5 0 ∧
        bitsOf w.val.toNat 5 0 + widthOf (w.fn.toNat % 4) ≤ 64
      then (x.storeUser (bitsOf w.val.toNat 5 0) (widthOf (w.fn.toNat % 4)) (x.read w.src2)).setSt (stWord stOk)
      else x.setSt (stWord stRefused)) = y) : pickDoes (.stW (.pick p) w) s p y := by
  subst hy
  exact pickSets_does (op := 0x05) (g := fun x s =>
    if !w.val.getLsbD 8 ∧ 32 ≤ bitsOf w.val.toNat 5 0 ∧ bitsOf w.val.toNat 5 0 + widthOf (w.fn.toNat % 4) ≤ 64
      then (x.storeUser (bitsOf w.val.toNat 5 0) (widthOf (w.fn.toNat % 4)) (x.read w.src2)).setSt (stWord stOk)
      else x.setSt (stWord stRefused)) h rfl

theorem tstamp_does {y : Pkt} (hy : tstampPick w x s = y) : pickDoes (.tstamp (.pick p) w) s p y := by
  subst hy
  exact pickSets_does (op := 0x80) (g := tstampPick w) h rfl

end

/-! ## Counts of the pools -/

theorem poolEntry_some {pool idx : Word} {e : Nat} (hidx : idx.toNat < Fld.glassPoolSize.get pool)
    (he : e = Fld.glassPoolBase.get pool + idx.toNat) (hmax : e ≤ 65535) : poolEntry pool idx = some e := by
  subst he
  exact if_pos ⟨hidx, hmax⟩

theorem poolEntry_none {pool idx : Word} (h : ∀ e, ¬ (idx.toNat < Fld.glassPoolSize.get pool ∧
    e = Fld.glassPoolBase.get pool + idx.toNat ∧ e ≤ 65535)) : poolEntry pool idx = none :=
  if_neg fun hin => h _ ⟨hin.1, rfl, hin.2⟩

theorem State.microcode_counter (s : State) (k : Nat) (t : Task) (op : Nat) (w : IWord) {o : Nat} (ho : o < 0x320000) :
    (s.microcode k t op w).counter o = s.counter o := by
  unfold State.microcode
  extract_lets r sp s1
  split
  · exact s1.event_counter _ ho
  · rfl

theorem State.countThread_counter (s : State) (k : Nat) (t : Task) (op : Nat) (w : IWord) {o : Nat} (ho : o < 0x320000) :
    (s.countThread k t op w).counter o = s.counter o :=
  (State.microcode_counter _ _ _ _ _ ho).trans (s.event_counter _ ho)

theorem State.wr_counter (s : State) (a : Nat) (v : Word) (o : Nat) : (s.wr a v).counter o = s.counter o := rfl

theorem State.sampleTick_counter (s : State) (x : Pkt) (op addr o : Nat) :
    (s.sampleTick x op addr).counter o = s.counter o := by
  unfold State.sampleTick
  extract_lets c g n period draws left r
  split
  · split
    rename_i l u hu
    have hlive : u.counter o = s.counter o := by
      unfold r at hu
      split at hu <;> cases hu <;> rfl
    extract_lets gl u2 held
    split
    · split <;> exact hlive
    · exact hlive
  · rfl

theorem State.setPkt_counter (s : State) (p : Nat) (x : Option Pkt) (o : Nat) :
    (s.setPkt p x).counter o = s.counter o := rfl

theorem State.updPkt_counter (s : State) (p : Nat) (f : Pkt → Pkt) (o : Nat) :
    (s.updPkt p f).counter o = s.counter o := by
  unfold State.updPkt; split <;> rfl

/-- R472: a completed draft instruction counts in its loom, and in no pool. -/
theorem State.countInstr_counter {s : State} {p : Nat} {x : Pkt} (h : s.pkt? p = some x) (hl : x.loom < 16)
    (op addr : Nat) {o : Nat} (hlo : 0x200000 ≤ o) (hhi : o < 0x320000) :
    (s.countInstr p op addr).counter o = s.counter o := by
  simp only [State.countInstr, h]
  rw [State.updPkt_counter, State.sampleTick_counter, State.event_counter _ _ hhi, State.cntLoom, State.counter_count,
    if_neg (by omega)]

/-- R473: what CNT adds to each counter of the pools. -/
theorem State.countPool_counter (s : State) (e n : Nat) (bytes : Word) (o : Nat) :
    (s.countPool e n bytes).counter o = s.counter o +
      if o = 0x200000 + 16 * e then BitVec.ofNat 64 n else if o = 0x200000 + 16 * e + 8 then bytes else 0 := by
  simp only [State.countPool, State.counter_count, BitVec.ofNat_toNat, BitVec.setWidth_eq]
  by_cases hp : o = 0x200000 + 16 * e
  · simp [hp]
  · by_cases hb : o = 0x200000 + 16 * e + 8 <;> simp [hp, hb]

/-- The counters of the pools after CNT, where what completes an instruction counts in no pool. -/
theorem counts_pool {s u t : State} {e n : Nat} {bytes : Word} (he : e ≤ 65535) (hu : ∀ o, u.counter o = s.counter o)
    (ht : ∀ o, 0x200000 ≤ o → o < 0x320000 → t.counter o = (u.countPool e n bytes).counter o) :
    t.counter (0x200000 + 16 * e) = s.counter (0x200000 + 16 * e) + BitVec.ofNat 64 n ∧
    t.counter (0x200000 + 16 * e + 8) = s.counter (0x200000 + 16 * e + 8) + bytes ∧
    ∀ i, i < 131072 → i / 2 ≠ e → t.counter (0x200000 + 8 * i) = s.counter (0x200000 + 8 * i) := by
  refine ⟨?_, ?_, fun i hi hne => ?_⟩
  · rw [ht _ (by omega) (by omega), State.countPool_counter, hu, if_pos rfl]
  · rw [ht _ (by omega) (by omega), State.countPool_counter, hu, if_neg (by omega), if_pos rfl]
  · rw [ht _ (by omega) (by omega), State.countPool_counter, hu, if_neg (by omega), if_neg (by omega)]
    exact BitVec.add_zero _

theorem State.countPool_alike (s : State) (e n : Nat) (bytes : Word) : (s.countPool e n bytes).alike s :=
  State.alike_trans (State.count_alike _ _ _) (State.count_alike _ _ _)

/-- The meaning of CNT in a thread. -/
def cntTask (w : IWord) (k : Nat) (t : Task) (s : State) : TaskRes :=
  match poolEntry (s.rd (Reg.glassPool (w.fn.toNat % 16))) (t.read w.src1) with
  | none => .done (s.setTask k { t with stReg := stWord stAbsent })
  | some e => .done ((s.setTask k { t with stReg := stWord stOk }).countPool e (bitsOf w.val.toNat 15 0) (t.read w.src2))

theorem cntTask_counts {w : IWord} {t : Task} (s : State) (k : Nat) {e : Nat}
    (he : poolEntry (s.rd (Reg.glassPool (w.fn.toNat % 16))) (t.read w.src1) = some e) : cntTask w k t s =
      .done ((s.setTask k { t with stReg := stWord stOk }).countPool e (w.val.toNat % 65536) (t.read w.src2)) := by
  simp only [cntTask, he]
  rfl

theorem cntTask_absent {w : IWord} {t : Task} (s : State) (k : Nat)
    (he : poolEntry (s.rd (Reg.glassPool (w.fn.toNat % 16))) (t.read w.src1) = none) :
    cntTask w k t s = .done (s.setTask k { t with stReg := stWord stAbsent }) := by
  simp only [cntTask, he]

/-- The meaning of CNT in a draft. -/
def cntPick (w : IWord) (p : Nat) (x : Pkt) (s : State) : PickRes :=
  match poolEntry (s.preg x.pick.seq (Reg.glassPool (w.fn.toNat % 16))) (x.read w.src1) with
  | none => .done (s.setPkt p (some (x.setSt (stWord stAbsent)))) 0
  | some e => .done ((s.setPkt p (some (x.setSt (stWord stOk)))).countPool e (bitsOf w.val.toNat 15 0) (x.read w.src2)) 0

theorem cntPick_counts {w : IWord} {p : Nat} {x : Pkt} {s : State} {e : Nat}
    (he : poolEntry (s.preg x.pick.seq (Reg.glassPool (w.fn.toNat % 16))) (x.read w.src1) = some e) : cntPick w p x s =
      .done ((s.setPkt p (some (x.setSt (stWord stOk)))).countPool e (w.val.toNat % 65536) (x.read w.src2)) 0 := by
  simp only [cntPick, he]
  rfl

theorem cntPick_absent {w : IWord} {p : Nat} {x : Pkt} {s : State}
    (he : poolEntry (s.preg x.pick.seq (Reg.glassPool (w.fn.toNat % 16))) (x.read w.src1) = none) :
    cntPick w p x s = .done (s.setPkt p (some (x.setSt (stWord stAbsent)))) 0 := by
  simp only [cntPick, he]

/-- A thread's instruction that completes counts in no pool. -/
theorem runTask_done_counter {k : TaskId} {f : Task → State → TaskRes} {s u t : State} {op : Nat} {w : IWord}
    (h : s.threadRuns k) (hf : f (s.task k.val) s = .done u) (ht : runTask k.val op w f s = .next t) {o : Nat}
    (ho : o < 0x320000) : t.counter o = u.counter o := by
  obtain ⟨h1, h2, h3, h4, h5⟩ := h
  have hrun : runTask k.val op w f s = .next ((u.countThread k.val (s.task k.val) op w).updTask k.val Task.step) := by
    unfold runTask
    simp [h1, h2, h3, h4, h5, hf]
  cases hrun.symm.trans ht
  exact u.countThread_counter _ _ _ _ ho

/-- A draft's instruction that completes counts in no pool. -/
theorem runPick_done_counter {p op addr : Nat} {f : Pkt → State → PickRes} {s u t : State} {x y : Pkt}
    (h : s.pickRuns p x) (hf : f x s = .done u addr) (hy : u.pkt? p = some y) (hl : u.pickGoesOn y) (hloom : y.loom < 16)
    (ht : runPick p op f s = .next t) {o : Nat} (hlo : 0x200000 ≤ o) (hhi : o < 0x320000) :
    t.counter o = u.counter o := by
  obtain ⟨h1, h2, h3, h4, h5⟩ := h
  have hc := State.countInstr_alike hy op addr
  have hp := hc.pkt p
  rw [State.pkt_setPkt] at hp
  have hd := hc.draftLen y.pick.seq y.pick.bank
  rw [State.setPkt_draftLen] at hd
  have hgo : u.nextPick p op addr = .ok ((u.countInstr p op addr).setPkt p (some (y.ran u.now (y.pick.pc + 1)))) := by
    unfold State.nextPick State.goPick
    simp only [hy, hp, Pkt.ran, hd]
    rw [if_neg (Nat.not_le.mpr hl)]
  have hrun : runPick p op f s = .next ((u.countInstr p op addr).setPkt p (some (y.ran u.now (y.pick.pc + 1)))) := by
    unfold runPick
    simp [h1, h2, h3, h4, hf, Nat.not_le.mpr h5, hgo, toOut]
  cases hrun.symm.trans ht
  exact State.countInstr_counter hy hloom _ _ hlo hhi

/-- Settles O6: each instruction by what it leaves of its packet or task; the bytes of a store one by one; what CNT
adds to each counter, which nothing that completes an instruction changes. -/
theorem windowsTimesAndCounts : Obligations.WindowsTimesAndCounts := by
  unfold Obligations.WindowsTimesAndCounts
  refine ⟨fun p x w s h => ?_, ⟨fun k w s h => ?_, fun p x w s h => ?_⟩, fun k w s h => ?_, fun p x w s h hloom => ?_⟩
  · intro o n isRead
    have hn : widthOf (w.fn.toNat % 4) = n := widthOf_mod _
    refine ⟨fun hmd => ?_, fun hfr hnone => ?_, fun hfr h' c hheld hline => ?_, fun hbad => ?_, fun hmd hlo hhi => ?_⟩
    · exact ldW_writes h (by rw [hmd]; rfl)
    · obtain ⟨v, hv, hread⟩ := ldW_writes (w := w) h (by rw [hfr, if_pos rfl, s.frWindow_none hnone])
      have hzero : v = 0 := BitVec.eq_of_toNat_eq (by simp [hread])
      exact hzero ▸ hv
    · exact ldW_writes h (by rw [hfr, if_pos rfl, State.frWindow_held hheld hline])
    · refine stW_does h (if_neg ?_)
      rw [hn]
      simp only [Bool.not_eq_true', not_and, not_le]
      intro hmd hlo
      obtain hfr | hbelow | habove := hbad
      · exact absurd hfr (by rw [hmd]; decide)
      · exact absurd hlo (not_le.mpr hbelow)
      · exact habove
    · refine ⟨(x.storeUser o n (x.read w.src2)).user, stW_does h ?_, fun j hj => byteOf_storeUser _ hlo hj⟩
      rw [hn, if_pos ⟨by rw [hmd]; rfl, hlo, hhi⟩]
      rfl
  · intro T d
    have hrun : ∀ t, tstampTask w T s = t → t.st ≠ .free → threadDoes (.tstamp (.task k) w) s k t := by
      rintro t rfl hst
      exact threadSets_does (op := 0x80) (w := w) (g := tstampTask w) h rfl hst
    have hst : T.st ≠ .free := by simp [T, h.1]
    refine ⟨fun hon hk => hrun _ ?_ (by simpa using hst), fun hoff => hrun _ (if_neg ?_) (by simpa using hst)⟩
    · rw [tstampTask, if_pos ⟨hon, hk⟩, State.timeWordOf, if_pos hon]
    · rintro ⟨hon, hk⟩
      obtain hoff | hkind := hoff
      · exact Bool.noConfusion (hon.symm.trans hoff)
      · exact hkind hk
  · intro d kind
    refine ⟨fun hon hk => tstamp_does h ?_, fun hon hk t ht => tstamp_does h ?_, fun hon hk => tstamp_does h ?_,
      fun hoff => tstamp_does h ?_⟩
    · simp only [tstampPick, show w.val.toNat % 4 = 0 from hk, State.pickTimeWord]
      rw [if_neg (by simpa using hon), if_pos hon]
    · simp only [tstampPick, show w.val.toNat % 4 = 1 from hk, show x.stamps.getD (w.fn.toNat % 8) none = some t from ht]
      exact if_neg (by simpa using hon)
    · simp only [tstampPick, show w.val.toNat % 4 = 2 from hk]
      rw [if_neg (by simpa using hon), show ∀ n, bitsOf n 15 0 = n % 65536 from fun _ => rfl]
      rfl
    · unfold tstampPick
      by_cases hon : s.pickDomOn x.pick.seq d = true
      · rw [if_neg (by simpa using hon)]
        obtain hoff | hk | ⟨hk, hnone⟩ := hoff
        · simp [hoff] at hon
        · simp only [show w.val.toNat % 4 = 3 from hk]
        · simp only [show w.val.toNat % 4 = 1 from hk, show x.stamps.getD (w.fn.toNat % 8) none = none from hnone]
      · exact if_pos (by simpa using hon)
  · intro T pool
    have hst (v : Word) : ({ T with stReg := v } : Task).st ≠ .free := by simp [T, h.1]
    refine ⟨fun e ⟨hidx, he, hmax⟩ => ?_, fun hnone => ?_⟩
    · have hdone := cntTask_counts (w := w) (t := T) s k.val (poolEntry_some hidx he hmax)
      obtain ⟨t, ht, ha⟩ := runTask_done (op := 0x81) (w := w) h hdone
      refine ⟨t, ht, State.alike_trans ha ?_, counts_pool hmax (u := s.setTask k.val { T with stReg := stWord stOk })
        (fun _ => rfl) fun o _ ho => runTask_done_counter h hdone ht ho⟩
      exact State.updTask_setTask s k.val Task.step (hst (stWord stOk)) (hst (stWord stOk)) ▸
        (State.countPool_alike _ e (w.val.toNat % 65536) (T.read w.src2)).updTask k.val Task.step
    · exact threadLeaves_of_done (op := 0x81) (f := cntTask w k.val) h rfl
        (cntTask_absent s k.val (poolEntry_none hnone)) (hst _)
  · intro pool
    refine ⟨fun e ⟨hidx, he, hmax⟩ hgo => ?_, fun hnone => ?_⟩
    · have hdone := cntPick_counts (p := p) (w := w) (x := x) (s := s) (poolEntry_some hidx he hmax)
      have hc := (s.setPkt p (some (x.setSt (stWord stOk)))).countPool_alike e (w.val.toNat % 65536) (x.read w.src2)
      have hy := (hc.pkt p).trans (State.pkt_setPkt _ _ _)
      obtain ⟨t, ht, ha⟩ := runPick_done (op := 0x81) h hdone hy hgo
      refine ⟨t, ht, State.alike_trans ha ?_, counts_pool hmax (u := s.setPkt p (some (x.setSt (stWord stOk))))
        (fun _ => rfl) fun o hlo hhi => runPick_done_counter h hdone hy hgo hloom ht hlo hhi⟩
      have hset := hc.setPkt p (some ((x.setSt (stWord stOk)).ran s.now (x.pick.pc + 1)))
      rw [State.setPkt_setPkt] at hset
      exact hset
    · exact pickLeaves_of_done (op := 0x81) (f := cntPick w p) h rfl (cntPick_absent (poolEntry_none hnone)) rfl

end Sys2Proof.Machine
end

section
/-! PROOF. Dispositions (DispositionInstructions). -/

namespace Sys2Proof.Machine

/-- What a draft's instruction leaves, up to measurement. -/
theorem pickLeaves_alike {c : Instr} {s u v : State} {p : PktId} {y : Pkt} (h : pickLeaves c s p u y) (ha : u.alike v) :
    pickLeaves c s p v y := by
  obtain ⟨hgo, hend⟩ := h
  have hlen : u.pickGoesOn y ↔ v.pickGoesOn y := by
    unfold State.pickGoesOn
    rw [ha.draftLen]
  constructor
  · intro hl
    obtain ⟨t, ht, hta⟩ := hgo (hlen.mpr hl)
    exact ⟨t, ht, State.alike_trans hta (ha.setPkt _ _)⟩
  · intro hl
    obtain ⟨t, ht, hta⟩ := hend fun hu => hl (hlen.mp hu)
    exact ⟨t, ht, State.alike_trans hta (ha.setPkt _ _)⟩

/-! ## PUNT -/

/-- R128: the level of the bucket of a reason for a pick. -/
theorem State.pickBucket_eq (s : State) (seq : BitVec 32) (n r : Nat) :
    s.pickBucket seq n r = ⟨min (1000000 * ((max 1 (s.pfld seq (Reg.loomPuntBkt n r) Fld.loomPuntBktBurst) : Nat) : Int))
        ((Tbl.get (Tbl.const { level := 0, at_ := 0 }) s.puntBkt (64 * n + r)).level +
          (s.pfld seq (Reg.loomPuntBkt n r) Fld.loomPuntBktRate : Int) *
            (s.now - (Tbl.get (Tbl.const { level := 0, at_ := 0 }) s.puntBkt (64 * n + r)).at_ : Nat)), s.now⟩ := by
  simp only [State.pickBucket, State.puntLevel, puntKey, Bucket.at]
  push_cast
  rfl

/-- The meaning of PUNT in a draft. -/
def puntPick (w : IWord) (p : Nat) (x : Pkt) (s : State) : PickRes :=
  let r := w.fn.toNat
  let b := s.pickBucket x.pick.seq x.loom r
  if s.pfld x.pick.seq (Reg.loomPuntBkt x.loom r) Fld.loomPuntBktRate = 0 ∨ b.level < 1000000 then
    .done ((s.setPkt p (some (x.setSt (stWord stRefused)))).incF (Reg.loomPuntStat x.loom r)
      Fld.loomPuntStatRefused) 0
  else
    let s := s.setPuntBucket x.loom r { b with level := b.level - 1000000 }
    .done (s.setPkt p (some ((x.setDisp (.punt r ((x.read w.src1).setWidth 32))).setSt (stWord stOk)))) 0

/-! ## RECIRC -/

/-- R148: the head a pick holds would be past what recirculated packets may pin. -/
def State.recPinnedPast (s : State) (x : Pkt) : Bool :=
  match x.pick.held with
  | none => false
  | some h => s.recFull (s.pickProfile x.pick.seq == 2) h.line

/-- The meaning of RECIRC in a draft. -/
def recircPick (p : Nat) (x : Pkt) (s : State) : PickRes :=
  let full : PickRes := .done ((s.setPkt p (some (x.setSt (stWord stFull)))).cntLoom x.loom 70) 0
  if x.pick.pick2 then .done (s.setPkt p (some (x.setSt (stWord stRefused)))) 0
  else if x.resv ≠ 0 then .done (s.setPkt p (some ((x.setDisp .recirc).setSt (stWord stOk)))) 0
  else
    let n := ceilDiv (x.len + 112) 256
    if s.recircFree < n ∨ s.bankFree x.loom < n ∨ s.recPinnedPast x = true then full
    else
      let s := s.addBank x.loom n
      let s := { s with beam := { s.beam with recircUsed := s.beam.recircUsed + n } }
      .done (s.setPkt p (some { (x.setDisp .recirc).setSt (stWord stOk) with resv := n })) 0

section
variable {p : Nat} {x : Pkt} {s : State}

theorem recircPick_second (h : x.pick.pick2 = true) :
    recircPick p x s = .done (s.setPkt p (some (x.setSt (stWord stRefused)))) 0 := if_pos h

theorem recircPick_again (h : x.pick.pick2 = false) (hresv : x.resv ≠ 0) :
    recircPick p x s = .done (s.setPkt p (some ((x.setDisp .recirc).setSt (stWord stOk)))) 0 :=
  (if_neg (by simp [h])).trans (if_pos hresv)

/-- A first pick with no reservation yet: it gets one where there is room, and its head may be pinned. -/
theorem recircPick_first (h : x.pick.pick2 = false) (hresv : x.resv = 0) :
    recircPick p x s =
      let n := (x.frame.length + 112 + 255) / 256
      if s.recircFree < n ∨ s.bankFree x.loom < n ∨ s.recPinnedPast x = true then
        .done ((s.cntLoom x.loom 70).setPkt p (some (x.setSt (stWord stFull)))) 0
      else
        .done ({ s.addBank x.loom n with beam := { (s.addBank x.loom n).beam with
            recircUsed := s.beam.recircUsed + n } }.setPkt p
          (some { (x.setDisp .recirc).setSt (stWord stOk) with resv := n })) 0 :=
  (if_neg (by simp [h])).trans (if_neg (by simp [hresv]))

end

theorem exec_recirc (p : PktId) (w : IWord) (s : State) :
    exec (.recirc (.pick p) w) s = runPick p 0x74 (recircPick p) s := rfl

/-- R61: the head a pick would pin is past the lines of its set, or past the flows of W2. -/
theorem State.recFull_iff (s : State) (w2 : Bool) (l : Nat) : s.recFull w2 l = true ↔
    12 ≤ ((s.recPinned l).map (·.2)).sum ∨
    12 < ((s.recPinned l).map (·.2)).sum + (if ∃ e ∈ s.recPinned l, e.1 = l then 0 else
      if (s.line l).any (fun c => c.second.isSome) = true then 2 else 1) ∨
    w2 = true ∧ 6 ≤ (s.recPinned l).length := by
  unfold State.recFull
  by_cases hin : ∃ e ∈ s.recPinned l, e.1 = l
  · have hany : (s.recPinned l).any (fun e => e.1 == l) = true := by simpa using hin
    simp only [hany, hin, Bool.or_eq_true, decide_eq_true_eq, Bool.and_eq_true, or_assoc, if_true]
  · have hany : (s.recPinned l).any (fun e => e.1 == l) = false := by
      simpa [List.any_eq_false] using fun a b hab he => hin ⟨(a, b), hab, he⟩
    have hmore : 1 + b2n ((s.line l).any fun c => c.second.isSome) =
        if (s.line l).any (fun c => c.second.isSome) = true then 2 else 1 := by
      unfold b2n; split <;> rfl
    simp only [hany, hin, hmore, Bool.or_eq_true, decide_eq_true_eq, Bool.and_eq_true, or_assoc, if_false,
      Bool.false_eq_true]

/-- Settles O7: the branches of each instruction, each by what it leaves of the packet and the device. -/
theorem dispositionInstructions : Obligations.DispositionInstructions := by
  unfold Obligations.DispositionInstructions
  refine ⟨fun p x w s h => ?_, fun p x w s h => ?_, fun p x w s h => ?_⟩
  · intro port put on
    have hport : ∀ n, bitsOf n 9 0 = n % 1024 := fun _ => rfl
    have hfwd (d : Disp) (hd : (if bitsOf (x.read w.src1).toNat 9 0 < 512 ∧ on then
        Disp.unicast (bitsOf (x.read w.src1).toNat 9 0) (bitsOf (x.read w.src2).toNat 3 0) else .drop 51) = d) :
        pickDoes (.fwd (.pick p) w) s p (put d) := by
      subst hd
      exact pickLeaves_of_done (op := 0x70) (f := fun x s =>
        .done (s.setPkt p (some (x.setDisp (if bitsOf (x.read w.src1).toNat 9 0 < 512 ∧
            s.pfld x.pick.seq (portCfg (bitsOf (x.read w.src1).toNat 9 0)) Fld.selvPortCfgEnable = 1
          then .unicast (bitsOf (x.read w.src1).toNat 9 0) (bitsOf (x.read w.src2).toNat 3 0) else .drop 51))))
          (Config.fwdAddr (bitsOf (x.read w.src1).toNat 9 0) (bitsOf (x.read w.src2).toNat 3 0))) h rfl rfl rfl
    refine ⟨fun hok => hfwd _ (if_pos hok), fun hbad => hfwd _ (if_neg ?_), ?_, ?_⟩
    · rintro ⟨hlt, hon⟩
      exact hbad.elim (fun hge => absurd hlt (not_lt.mpr hge)) fun hoff => hoff hon
    · exact pickLeaves_of_done (op := 0x71) (f := fun x s => .done (s.setPkt p (some (x.setDisp (.multicast
        (bitsOf (x.read w.src1).toNat 15 0) (bitsOf (x.read w.src2).toNat 1 0))))) (bitsOf (x.read w.src1).toNat 15 0))
        h rfl rfl rfl
    · exact pickPure_does (g := fun x => x.setDisp (.drop w.fn.toNat)) h _ rfl
  · intro r rate burst b level
    have hb : s.pickBucket x.pick.seq x.loom r = { level := level, at_ := s.now } := s.pickBucket_eq _ _ _
    have hlevel : (s.pickBucket x.pick.seq x.loom w.fn.toNat).level = level := congrArg Bucket.level hb
    refine ⟨fun hrate hhas => pickLeaves_of_done (op := 0x73) (f := puntPick w p) (addr := 0) h rfl ?_ rfl,
      fun hnone => pickLeaves_of_done (op := 0x73) (f := puntPick w p) (addr := 0) h rfl ?_ rfl⟩
    · have htake : ¬ (rate = 0 ∨ (s.pickBucket x.pick.seq x.loom w.fn.toNat).level < 1000000) := by
        rw [hlevel]
        exact fun hno => hno.elim hrate fun hlt => absurd hlt (not_lt.mpr hhas)
      refine (if_neg htake).trans ?_
      rw [show w.fn.toNat = r from rfl, hb]
      rfl
    · exact if_pos (hlevel ▸ hnone)
  · intro n pinned room y
    have hpast : s.recPinnedPast x = true ↔ pinned := by
      unfold State.recPinnedPast
      cases hheld : x.pick.held with
      | none => simp [pinned, hheld]
      | some h' =>
        show s.recFull _ _ = true ↔ _
        rw [State.recFull_iff, beq_iff_eq]
        simp only [pinned, hheld, Option.some.injEq]
        exact ⟨fun hf => ⟨h', rfl, hf⟩, fun ⟨_, he, hf⟩ => he ▸ hf⟩
    have hfull : (s.recircFree < n ∨ s.bankFree x.loom < n ∨ s.recPinnedPast x = true) ↔ ¬ room ∨ pinned := by
      rw [hpast]
      simp only [room, not_and_or, not_le, or_assoc]
    refine ⟨fun h2 => ?_, fun h1 hresv => ?_, fun h1 hresv hroom hpin => ?_, fun h1 hresv hno => ?_⟩
    · exact pickLeaves_of_done h (exec_recirc p w s) (recircPick_second h2) rfl
    · exact pickLeaves_of_done h (exec_recirc p w s) (recircPick_again h1 hresv) rfl
    · exact pickLeaves_of_done h (exec_recirc p w s) ((recircPick_first h1 hresv).trans
        (if_neg fun hf => (hfull.mp hf).elim (fun hno => hno hroom) hpin)) rfl
    · exact pickLeaves_alike (pickLeaves_of_done h (exec_recirc p w s)
        ((recircPick_first h1 hresv).trans (if_pos (hfull.mpr hno))) rfl) (State.count_alike _ _ _)

end Sys2Proof.Machine
end

section
/-! PROOF. What event records and accesses to HBM leave alone: the state but for registers, memory, host rings, tasks
and their order, HBM channels, counters and free values. -/

namespace Sys2Proof.Machine

/-- The state without what event records and accesses to HBM change. -/
def State.apart (s : State) : State :=
  { s with
    regs := [], mem := [], freeCtr := 0, host := State.reset.host, spin := { s.spin with task := [], ready := [] }
    creel := State.reset.creel, glass := State.reset.glass }

/-- `t` is `s` but for what event records and accesses to HBM change. -/
def State.aside (t s : State) : Prop := t.apart = s.apart

theorem State.aside.refl (s : State) : s.aside s := rfl

theorem State.aside.trans {t u s : State} (h : t.aside u) (k : u.aside s) : t.aside s := Eq.trans h k

theorem State.aside.ite {t u s : State} (ht : t.aside s) (hu : u.aside s) {c : Prop} {_ : Decidable c} :
    (if c then t else u).aside s := by
  split
  · exact ht
  · exact hu

section
variable {t s : State} (h : t.aside s)
include h

theorem State.aside.now : t.now = s.now := (congrArg State.now h : t.apart.now = s.apart.now)
theorem State.aside.bat : t.bat = s.bat := (congrArg State.bat h : t.apart.bat = s.apart.bat)
theorem State.aside.warp : t.warp = s.warp := (congrArg State.warp h : t.apart.warp = s.apart.warp)
theorem State.aside.twill : t.twill = s.twill := (congrArg State.twill h : t.apart.twill = s.apart.twill)
theorem State.aside.learn : t.learn = s.learn := (congrArg State.learn h : t.apart.learn = s.apart.learn)
theorem State.aside.dma : t.spin.dma = s.spin.dma :=
  (congrArg (fun u : State => u.spin.dma) h : t.apart.spin.dma = s.apart.spin.dma)
theorem State.aside.pkts : t.pkts = s.pkts := (congrArg State.pkts h : t.apart.pkts = s.apart.pkts)

end

theorem foldl_aside {α : Type} {g : State → α → State} (h : ∀ s a, (g s a).aside s) (l : List α) (s : State) :
    (l.foldl g s).aside s := by
  induction l generalizing s with
  | nil => exact .refl s
  | cons a l ih => exact (ih _).trans (h s a)

/-! ## Accesses to HBM -/

theorem State.setBytes_aside (s : State) (a : Nat) (bs : List Byte) : (s.setBytes a bs).aside s := by
  rw [State.setBytes_only]
  rfl

theorem State.wr_aside (s : State) (a : Nat) (w : Word) : (s.wr a w).aside s := rfl

theorem State.setF_aside (s : State) (a : Nat) (f : Fld) (v : Nat) : (s.setF a f v).aside s := s.wr_aside _ _

theorem State.creelInfo_aside (s : State) (c a : Nat) : (s.creelInfo c a).aside s := s.wr_aside _ _

theorem State.updChan_aside (s : State) (c : Nat) (f : Chan → Chan) : (s.updChan c f).aside s := rfl

theorem State.count_aside (s : State) (o k : Nat) : (s.count o k).aside s := rfl

theorem State.later_aside (s : State) (typ src : Nat) (payload : List Byte) : (s.later typ src payload).aside s := rfl

theorem State.laterMasked_aside (s : State) (mech src unit_ loss : Nat) : (s.laterMasked mech src unit_ loss).aside s :=
  s.later_aside _ _ _

theorem State.creel_aside (s : State) (x : Creel) : { s with creel := x }.aside s := rfl

theorem State.setErrs_aside (s : State) (line : Nat) (e : List SymErr) : (s.setErrs line e).aside s := rfl

theorem State.creelCmdOf_aside (s : State) (c a code : Nat) : (s.creelCmdOf c a code).aside s := by
  unfold State.creelCmdOf
  split <;> rfl

theorem State.searchOff_aside (s : State) (c : Nat) : (s.searchOff c).aside s :=
  (State.creelCmdOf_aside _ _ _ _).trans ((State.creelCmdOf_aside _ _ _ _).trans (s.updChan_aside _ _))

theorem State.ceBit_aside (s : State) (k : Nat) : (s.ceBit k).aside s := by
  unfold State.ceBit
  split
  · exact .refl s
  · exact (State.later_aside _ _ _ _).trans (s.wr_aside _ _)

theorem State.corrected_aside (s : State) (c a : Nat) : (s.corrected c a).aside s := by
  unfold State.corrected
  extract_lets u lim
  have hu : u.aside s := (State.updChan_aside _ _ _).trans ((State.wr_aside _ _ _).trans (s.count_aside _ _))
  refine .ite ?_ hu
  exact (State.updChan_aside _ _ _).trans ((State.ceBit_aside _ _).trans ((u.wr_aside _ _).trans hu))

theorem State.lineSeen_aside (s : State) (a : Nat) : (s.lineSeen a).aside s := by
  unfold State.lineSeen
  refine .ite (.refl s) ?_
  split
  · exact .ite (.refl s) (s.corrected_aside _ _)
  · exact .refl s

theorem State.freeze_aside (s : State) (a : Nat) : (s.freeze a).aside s := by
  unfold State.freeze
  split
  · exact .refl s
  · next c _ =>
    split
    · exact .refl s
    · extract_lets u v w
      have hu : u.aside s := (State.searchOff_aside _ _).trans (s.setF_aside _ _ _)
      have hv : v.aside s := (State.creelInfo_aside _ _ _).trans ((u.setF_aside _ _ _).trans hu)
      have hw : w.aside s := (v.laterMasked_aside _ _ _ _).trans hv
      clear_value w
      split
      · exact hw
      · exact (w.creel_aside _).trans hw

theorem State.uncRead_aside (s : State) (a : Nat) : (s.uncRead a).aside s := by
  unfold State.uncRead
  extract_lets u
  have hu : u.aside s := s.count_aside _ _
  split
  · exact hu
  · exact (State.freeze_aside _ _).trans ((State.updChan_aside _ _ _).trans
      ((State.wr_aside _ _ _).trans ((State.wr_aside _ _ _).trans ((u.wr_aside _ _).trans hu))))

theorem State.draw_aside (s : State) : s.draw.2.aside s := rfl

theorem State.uncAlone_aside (s : State) (a : Nat) : (s.uncAlone a).aside s := by
  unfold State.uncAlone
  extract_lets t
  have ht : t.aside s := s.uncRead_aside a
  split
  · exact ht
  · extract_lets reg
    exact .ite ht ((State.laterMasked_aside _ _ _ _ _).trans (t.draw_aside.trans ht))

theorem State.hbmReq_aside (s : State) (flow read pair : Bool) (a : Nat) (who : EvMaster) :
    (s.hbmReq flow read pair a who).2.aside s := by
  simp only [State.hbmReq]
  split
  · rfl
  · split <;> rfl

theorem State.hbmReqs_aside (s : State) (flow read : Bool) (who : EvMaster) (lo hi k a : Nat) :
    (State.hbmReqs s flow read who lo hi k a).aside s := by
  induction k generalizing s a with
  | zero => exact .refl s
  | succ k ih => exact (ih _ _).trans ((State.hbmReq_aside _ _ _ _ _ _).trans (.ite (s.lineSeen_aside _) (.refl s)))

theorem State.hbmTraffic_aside (s : State) (flow read : Bool) (who : EvMaster) (a n : Nat) :
    (s.hbmTraffic flow read who a n).aside s := by
  unfold State.hbmTraffic
  exact .ite (State.hbmReqs_aside _ _ _ _ _ _ _ _) (.refl s)

theorem State.scanTouch_aside (s : State) (a n : Nat) : (s.scanTouch a n).aside s := by
  unfold State.scanTouch
  exact .ite (s.wr_aside _ _) (.refl s)

theorem State.hbmPutLine_aside (s : State) (a : Nat) (bs : List Byte) : (s.hbmPutLine a bs).aside s := by
  unfold State.hbmPutLine
  refine .ite (.refl s) ?_
  extract_lets u v
  have hv : v.aside s := (State.scanTouch_aside _ _ _).trans ((State.setBytes_aside _ a bs).trans
    (.ite (.refl s) (s.lineSeen_aside a)))
  refine .ite ((v.setErrs_aside _ _).trans hv) (.ite ?_ ((v.setErrs_aside _ _).trans hv))
  exact (State.setErrs_aside _ _ _).trans ((State.aside.ite (.refl v) (v.uncAlone_aside a)).trans hv)

theorem State.hbmPutCopy_aside (s : State) (n a : Nat) (bs : List Byte) : (s.hbmPutCopy n a bs).aside s := by
  induction n generalizing s a bs with
  | zero => exact .refl s
  | succ n ih =>
    unfold State.hbmPutCopy
    exact .ite (.refl s) ((ih _ _ _).trans (s.hbmPutLine_aside _ _))

theorem State.hbmStore_aside (s : State) (who : EvMaster) (a : Nat) (bs : List Byte) :
    (s.hbmStore who a bs).aside s := by
  have hput (u : State) (b : Nat) : ((u.hbmTraffic false false who b bs.length).hbmPut b bs).aside u :=
    (State.hbmPutCopy_aside _ _ _ _).trans (u.hbmTraffic_aside _ _ _ _ _)
  unfold State.hbmStore
  dsimp only
  split
  · exact hput s a
  · exact (hput _ _).trans (hput s a)

theorem State.poke_aside (s : State) (a : Nat) (bs : List Byte) : (s.poke a bs).aside s := by
  unfold State.poke
  exact .ite (s.hbmStore_aside _ _ _) (.ite (.refl s) (s.setBytes_aside a bs))

/-! ## Event records -/

theorem State.setTask_aside (s : State) (k : Nat) (t : Task) : (s.setTask k t).aside s := rfl

theorem State.pushReady_aside (s : State) (k : Nat) : (s.pushReady k).aside s := rfl

theorem State.wakeTask_aside (s : State) (k : Nat) (f : Task → Task) : (s.wakeTask k f).aside s := rfl

theorem State.signal_aside (s : State) (k : Nat) (mask : BitVec 32) : (s.signal k mask).aside s := by
  unfold State.signal
  extract_lets t u fl
  have hu : u.aside s := s.setTask_aside _ _
  refine .ite (.refl s) ?_
  split
  · exact .ite ((u.wakeTask_aside _ _).trans hu) hu
  · exact .ite ((State.pushReady_aside _ _).trans ((u.setTask_aside _ _).trans hu)) hu

theorem State.msi_aside (s : State) (vec : Nat) : (s.msi vec).aside s := by
  unfold State.msi
  split
  · rfl
  · split <;> rfl

theorem State.ringGained_aside (s : State) (n : Nat) : (s.ringGained n).aside s := by
  have hhost (u : State) (f : HostIf) : { u with host := f }.aside u := rfl
  unfold State.ringGained
  extract_lets c mod last u
  exact .ite (.refl s) (.ite ((hhost u _).trans (s.msi_aside _)) (hhost s _))

theorem State.ringPut_aside (s : State) (n : Nat) (r : List Byte) : (s.ringPut n r).aside s :=
  (State.ringGained_aside _ _).trans ((State.wr_aside _ _ _).trans (s.poke_aside _ _))

theorem State.ring1Notify_aside (s : State) : s.ring1Notify.aside s := by
  unfold State.ring1Notify
  exact .ite (s.signal_aside _ _) (.refl s)

theorem State.deliver_aside (s : State) (k : Nat) (r : List Byte) : (s.deliver k r).1.aside s := by
  unfold State.deliver
  dsimp only
  split
  · exact .ite ((State.ring1Notify_aside _).trans (s.ringPut_aside _ r)) (s.ringPut_aside _ r)
  · split <;> rfl

theorem State.deliver_if_aside (s : State) (k : Nat) (r : List Byte) (b : Bool) :
    (if b then s.deliver k r else (s, false)).1.aside s := by
  split
  · exact s.deliver_aside k r
  · exact .refl s

theorem State.postOne_aside (s : State) (typ src : Nat) (payload : List Byte) :
    (s.postOne typ src payload).1.aside s :=
  ((State.deliver_if_aside _ _ _ _).trans (State.deliver_if_aside _ _ _ _) :
    (s.postOne typ src payload).1.aside { s with host := { s.host with seq := s.host.seq + 1 } })

/-- One round of the records of overflow bits. -/
theorem postOne_fold_aside (bs : List Nat) (p : State × List Nat) :
    (bs.foldl (fun (p : State × List Nat) b =>
      let q := p.1.postOne 1 1 (errPayload Reg.hostifErr b 0)
      (q.1, p.2 ++ q.2)) p).1.aside p.1 := by
  induction bs generalizing p with
  | nil => exact .refl _
  | cons b bs ih => exact (ih _).trans (p.1.postOne_aside _ _ _)

theorem State.postOvf_aside (s : State) (n : Nat) (bs : List Nat) : (s.postOvf n bs).aside s := by
  induction n generalizing s bs with
  | zero => exact .refl s
  | succ n ih =>
    cases bs with
    | nil => exact .refl s
    | cons b bs => exact (ih _ _).trans (postOne_fold_aside (b :: bs) (s, []))

theorem State.postNext_aside (s : State) (typ src : Nat) (payload : List Byte) :
    (s.postNext typ src payload).aside s :=
  (State.postOvf_aside _ _ _).trans (s.postOne_aside _ _ _)

/-- R439: what posting event records leaves. -/
theorem State.post_aside (s : State) (typ src : Nat) (payload : List Byte) : (s.post typ src payload).aside s :=
  (State.postNext_aside _ _ _ _).trans
    (foldl_aside (fun u _ => u.postNext_aside _ _ _) _ { s with host := { s.host with due := [] } })

theorem State.err_aside (s : State) (a bit info : Nat) : (s.err a bit info).aside s := by
  unfold State.err
  exact .ite (.refl s) ((State.post_aside _ _ _ _).trans (s.wr_aside _ _))

end Sys2Proof.Machine
end

section
/-! PROOF. Table lookups (TableLookups). -/

namespace Sys2Proof

/-! ## Ascending lists without repeats -/

theorem mem_insUniq {n a : Nat} {l : List Nat} : a ∈ insUniq n l ↔ a = n ∨ a ∈ l := by
  induction l with
  | nil => simp [insUniq]
  | cons x xs ih => grind [insUniq]

theorem pairwise_insUniq {n : Nat} {l : List Nat} (h : l.Pairwise (· < ·)) : (insUniq n l).Pairwise (· < ·) := by
  induction l with
  | nil => simp [insUniq]
  | cons x xs ih =>
    obtain ⟨hx, hxs⟩ := List.pairwise_cons.mp h
    unfold insUniq
    split
    · next hlt => exact List.pairwise_cons.mpr ⟨fun a ha => by
        obtain rfl | ha := List.mem_cons.mp ha
        · exact hlt
        · exact hlt.trans (hx a ha), h⟩
    · split
      · exact h
      · refine List.pairwise_cons.mpr ⟨fun a ha => ?_, ih hxs⟩
        obtain rfl | ha := mem_insUniq.mp ha
        · omega
        · exact hx a ha

theorem mem_foldl_insUniq {a : Nat} (l acc : List Nat) :
    a ∈ l.foldl (fun acc n => insUniq n acc) acc ↔ a ∈ l ∨ a ∈ acc := by
  induction l generalizing acc with
  | nil => simp
  | cons x xs ih => simp only [List.foldl_cons, ih, mem_insUniq, List.mem_cons]; tauto

theorem mem_sortUniq {a : Nat} {l : List Nat} : a ∈ sortUniq l ↔ a ∈ l := by
  simp [sortUniq, mem_foldl_insUniq]

theorem pairwise_sortUniq (l : List Nat) : (sortUniq l).Pairwise (· < ·) := by
  suffices ∀ acc : List Nat, acc.Pairwise (· < ·) →
      (l.foldl (fun acc n => insUniq n acc) acc).Pairwise (· < ·) from this [] .nil
  induction l with
  | nil => exact fun acc h => h
  | cons x xs ih => exact fun acc h => ih _ (pairwise_insUniq h)

namespace Machine

/-! ## The longest match -/

/-- R261: the best record so far, by its LEN, with one record more. -/
def bestOf (len : Nat → Option Nat) (at_ : Nat → Nat) (best : Option (Nat × Nat)) (r : Nat) : Option (Nat × Nat) :=
  match len r with
  | none => best
  | some l =>
    match best with
    | none => some (l, at_ r)
    | some b => if b.1 < l then some (l, at_ r) else some b

section
variable {len : Nat → Option Nat} {at_ : Nat → Nat}

theorem foldl_bestOf_none {rs : List Nat} {best : Option (Nat × Nat)} (h : ∀ r ∈ rs, len r = none) :
    rs.foldl (bestOf len at_) best = best := by
  induction rs with
  | nil => rfl
  | cons r rs ih =>
    rw [List.foldl_cons, bestOf, h r List.mem_cons_self]
    exact ih fun j hj => h j (List.mem_cons_of_mem _ hj)

/-- Records with shorter prefixes leave a best one that is shorter, or none. -/
theorem foldl_bestOf_shorter {rs : List Nat} {best : Option (Nat × Nat)} {l : Nat} (hbest : ∀ b, best = some b → b.1 < l)
    (h : ∀ r ∈ rs, ∀ m, len r = some m → m < l) : ∀ b, rs.foldl (bestOf len at_) best = some b → b.1 < l := by
  induction rs generalizing best with
  | nil => exact hbest
  | cons r rs ih =>
    refine ih (fun b hb => ?_) fun j hj => h j (List.mem_cons_of_mem _ hj)
    unfold bestOf at hb
    have hr := h r List.mem_cons_self
    grind

/-- The longest match stays the best one. -/
theorem foldl_bestOf_longest {rs : List Nat} {l i : Nat} (h : ∀ r ∈ rs, ∀ m, len r = some m → m ≤ l) :
    rs.foldl (bestOf len at_) (some (l, i)) = some (l, i) := by
  induction rs with
  | nil => rfl
  | cons r rs ih =>
    have hstep : bestOf len at_ (some (l, i)) r = some (l, i) := by
      unfold bestOf
      cases hr : len r with
      | none => rfl
      | some m => exact if_neg (not_lt.mpr (h r List.mem_cons_self m hr))
    rw [List.foldl_cons, hstep]
    exact ih fun j hj => h j (List.mem_cons_of_mem _ hj)

/-- R261: of ascending records, the best is that of the greatest LEN, of the lowest index among equals. -/
theorem foldl_bestOf {rs : List Nat} {i l : Nat} (hs : rs.Pairwise (· < ·)) (hi : i ∈ rs) (hl : len i = some l)
    (h : ∀ j ∈ rs, ∀ m, len j = some m → m < l ∨ (m = l ∧ i ≤ j)) :
    rs.foldl (bestOf len at_) none = some (l, at_ i) := by
  obtain ⟨before, after, rfl⟩ := List.append_of_mem hi
  obtain ⟨-, -, hlt⟩ := List.pairwise_append.mp hs
  have hshort : ∀ b, before.foldl (bestOf len at_) none = some b → b.1 < l := by
    refine foldl_bestOf_shorter (by simp) fun j hj m hm => ?_
    obtain hm | ⟨-, hij⟩ := h j (List.mem_append_left _ hj) m hm
    · exact hm
    · exact absurd (hlt j hj i List.mem_cons_self) (not_lt.mpr hij)
  have hstep : ∀ best, (∀ b, best = some b → b.1 < l) → bestOf len at_ best i = some (l, at_ i) := by
    intro best hb
    unfold bestOf
    cases best with
    | none => simp [hl]
    | some b => simp [hl, hb b rfl]
  rw [List.foldl_append, List.foldl_cons, hstep _ hshort]
  refine foldl_bestOf_longest fun j hj m hm => ?_
  obtain hm | ⟨rfl, -⟩ := h j (List.mem_append_right _ (List.mem_cons_of_mem _ hj)) m hm
  · exact hm.le
  · exact le_rfl

end

/-- The size of a record of the tables of patterns, and where its byte with VALID lies. -/
def recSize (v6 : Bool) : Nat := if v6 then 32 else 16
def validAt (v6 : Bool) : Nat := if v6 then 19 else 7

theorem State.lpm_eq (s : State) (seq : BitVec 32) (v6 : Bool) (base n key vrf : Nat) :
    s.lpm seq v6 base n key vrf = ((s.lpmRecs v6 base n).foldl
      (bestOf (fun r => s.covers seq v6 (base + recSize v6 * r) key vrf) (base + recSize v6 * ·)) none).map (·.2) := rfl

/-- A byte that differs from its reset value is listed, in memory or among those that older picks read. -/
theorem State.pbyte_listed {s : State} {seq : BitVec 32} {a : Nat} (h : s.pbyte seq a ≠ memReset a) :
    a ∈ s.mem.map (·.1) ++ s.bat.oldMem.map (·.1) := by
  by_contra hno
  obtain ⟨hmem, hold⟩ := not_or.mp (mt List.mem_append.mpr hno)
  refine h ?_
  unfold State.pbyte State.byte
  rw [Tbl.get_of_not_listed _ _ hmem, Tbl.get_of_not_listed _ _ hold]
  split <;> rfl

theorem State.covers_valid {s : State} {seq : BitVec 32} {v6 : Bool} {a key vrf l : Nat}
    (h : s.covers seq v6 a key vrf = some l) : (s.pbyte seq (a + validAt v6)).getLsbD 7 = true := by
  unfold State.covers at h
  cases v6 with
  | true => exact (Option.ite_none_right_eq_some.mp h).1.1
  | false => exact (Option.ite_none_right_eq_some.mp h).1.1

section
variable {s : State} {seq : BitVec 32} {v6 : Bool} {base n key vrf : Nat}
  (hreset : ∀ a, base ≤ a → a < base + recSize v6 * n → memReset a = 0)

theorem mem_lpmRecs {r : Nat} (h : r ∈ s.lpmRecs v6 base n) : r < n := by
  obtain ⟨a, ha, rfl⟩ := List.mem_map.mp (mem_sortUniq.mp h)
  obtain ⟨hin, -⟩ := Bool.and_eq_true_iff.mp (List.mem_filter.mp ha).2
  obtain ⟨hlo, hhi⟩ := Bool.and_eq_true_iff.mp hin
  have hlo : base ≤ a := of_decide_eq_true hlo
  have hhi : a < base + (if v6 then 32 else 16) * n := of_decide_eq_true hhi
  have hpos : 0 < (if v6 then 32 else 16) := by split <;> decide
  exact (Nat.div_lt_iff_lt_mul hpos).mpr (by rw [Nat.mul_comm]; omega)

theorem pairwise_lpmRecs (s : State) (v6 : Bool) (base n : Nat) : (s.lpmRecs v6 base n).Pairwise (· < ·) :=
  pairwise_sortUniq _

include hreset

/-- A record that covers a key is visited. -/
theorem covers_listed {i l : Nat} (hi : i < n) (h : s.covers seq v6 (base + recSize v6 * i) key vrf = some l) :
    i ∈ s.lpmRecs v6 base n := by
  have hoff : validAt v6 < recSize v6 := by cases v6 <;> decide
  have hin : recSize v6 * i + validAt v6 < recSize v6 * n := by
    have := Nat.mul_le_mul_left (recSize v6) (show i + 1 ≤ n from hi)
    rw [Nat.mul_succ] at this
    omega
  have hlisted : base + recSize v6 * i + validAt v6 ∈ s.mem.map (·.1) ++ s.bat.oldMem.map (·.1) := by
    refine State.pbyte_listed (seq := seq) fun heq => ?_
    have hv := State.covers_valid h
    rw [heq, hreset _ (by omega) (by omega)] at hv
    exact absurd hv (by decide)
  refine mem_sortUniq.mpr (List.mem_map.mpr ⟨base + recSize v6 * i + validAt v6, List.mem_filter.mpr ⟨hlisted, ?_⟩, ?_⟩)
  · show (decide _ && decide (_ < base + recSize v6 * n) && _ % recSize v6 == validAt v6) = true
    rw [show base + recSize v6 * i + validAt v6 - base = recSize v6 * i + validAt v6 by omega, Nat.mul_add_mod,
      Nat.mod_eq_of_lt hoff]
    simp only [Bool.and_eq_true, decide_eq_true_eq, beq_self_eq_true, and_true]
    omega
  · show (base + recSize v6 * i + validAt v6 - base) / recSize v6 = i
    rw [show base + recSize v6 * i + validAt v6 - base = recSize v6 * i + validAt v6 by omega,
      Nat.mul_add_div (by omega), Nat.div_eq_of_lt hoff, Nat.add_zero]

omit hreset in
theorem lpm_none (h : ∀ i, i < n → s.covers seq v6 (base + recSize v6 * i) key vrf = none) :
    s.lpm seq v6 base n key vrf = none := by
  rw [State.lpm_eq, foldl_bestOf_none fun r hr => h r (mem_lpmRecs hr)]
  rfl

theorem lpm_best {i l : Nat} (hi : i < n) (hl : s.covers seq v6 (base + recSize v6 * i) key vrf = some l)
    (h : ∀ j m, j < n → s.covers seq v6 (base + recSize v6 * j) key vrf = some m → m < l ∨ (m = l ∧ i ≤ j)) :
    s.lpm seq v6 base n key vrf = some (base + recSize v6 * i) := by
  rw [State.lpm_eq, foldl_bestOf (pairwise_lpmRecs _ _ _ _) (covers_listed hreset hi hl) hl
    fun j hj m hm => h j m (mem_lpmRecs hj) hm]
  rfl

end

/-! ## MAC entries and next hops -/

theorem bitsOf_low (n i : Nat) : bitsOf n i 0 = n % 2 ^ (i + 1) := rfl

theorem bitsOf_16 (n : Nat) : bitsOf n 15 0 = n % 65536 := rfl

theorem bitsOf_one_bit (n i : Nat) : (bitsOf n i i == 1) = n.testBit i := by
  rw [bitsOf_eq, Nat.add_sub_cancel_left, Nat.pow_one, Nat.testBit_eq_decide_div_mod_eq]
  rfl

theorem mem_macFind {s : State} {seq : BitVec 32} {b k e : Nat} : e ∈ s.macFind seq b k ↔
    e / 8 = b ∧ (s.ple seq (0x20000000 + 16 * e) 8).testBit 63 = true ∧
      s.ple seq (0x20000000 + 16 * e) 8 % 2 ^ 60 = k := by
  have hmem : e ∈ ((List.range 8).map fun w => 8 * b + w) ↔ e / 8 = b := by
    simp only [List.mem_map, List.mem_range]
    exact ⟨fun ⟨w, hw, he⟩ => by omega, fun he => ⟨e % 8, by omega, by omega⟩⟩
  unfold State.macFind
  rw [List.mem_filter, hmem]
  simp only [bitsOf_one_bit, bitsOf_low, Bool.and_eq_true, beq_iff_eq, State.macWords, macAddr]

theorem nodup_macFind (s : State) (seq : BitVec 32) (b k : Nat) : (s.macFind seq b k).Nodup := by
  unfold State.macFind
  exact List.Nodup.filter _ (List.nodup_range.map fun _ _ h => Nat.add_left_cancel h)

theorem macFind_unique {s : State} {seq : BitVec 32} {b k e : Nat} (he : e ∈ s.macFind seq b k)
    (h : ∀ f ∈ s.macFind seq b k, f = e) : s.macFind seq b k = [e] :=
  List.perm_singleton.mp ((List.perm_ext_iff_of_nodup (nodup_macFind _ _ _ _) (List.nodup_singleton e)).mpr
    fun f => by rw [List.mem_singleton]; exact ⟨h f, fun hf => hf ▸ he⟩)

theorem macResult_toNat (w : Nat) : (macResult w).toNat = w % 2 ^ 19 := by
  unfold macResult
  rw [BitVec.toNat_ofNat]
  simp only [bitsOf_eq]
  omega

section
variable (s : State) (seq : BitVec 32) (who : EvMaster) (lo hi : Word) (vrf : Nat)

theorem State.lookTable_mac {k : Nat} (hk : lo.toNat % 2 ^ 60 = k) : s.lookTable seq who 0 lo hi vrf =
    match s.macFind seq (s.pickMacBucket seq k) k with
    | [] => (s, .miss)
    | [e] => (s, .hit (macResult (s.macWords seq e).2))
    | _ => (s, .undef 25) := by
  subst hk
  unfold State.lookTable
  exact if_pos rfl

theorem State.lookTable_nextHop : s.lookTable seq who 3 lo hi vrf =
    (s, if (s.ple seq (0x20A00000 + 16 * (lo.toNat % 65536)) 2).testBit 15
      then .hit (BitVec.ofNat 64 (lo.toNat % 65536 * 2 ^ 16 +
        bitsOf (s.ple seq (0x20A00000 + 16 * (lo.toNat % 65536)) 2) 14 0)) else .miss) := by
  simp only [State.lookTable]
  rfl

theorem State.lookTable_beyond {t : Nat} (ht : 8 ≤ t) : s.lookTable seq who t lo hi vrf = (s, .absent) := by
  unfold State.lookTable
  dsimp only
  rw [if_neg (by omega), if_neg (by omega), if_neg (by omega), if_neg (by omega), if_neg (by omega), if_neg (by omega),
    if_neg (by omega)]

/-- R261: what tables 1 and 2 answer. -/
theorem State.lookTable_lpm (v6 : Bool) {o : Option Nat} (h : s.lpm seq v6 (if v6 then 0x20600000 else 0x20200000)
    (if v6 then 131072 else 262144) (if v6 then lo.toNat + hi.toNat * 2 ^ 64 else lo.toNat % 2 ^ 32) vrf = o) :
    s.lookTable seq who (if v6 then 2 else 1) lo hi vrf = (s, (o.map (s.lpmResult seq v6)).elim .miss .hit) := by
  subst h
  have hfound (o : Option Word) : (match o with
      | some d => .hit d
      | none => .miss) = o.elim Found.miss .hit := by cases o <;> rfl
  rw [← hfound]
  cases v6 <;> rfl

end

/-! ## Lookups leave the clock -/

theorem State.besides.fst_ite {α : Type} {s : State} {a b : State × α} (ha : a.1.besides s) (hb : b.1.besides s)
    {c : Prop} {_ : Decidable c} : (if c then a else b).1.besides s := by
  split
  · exact ha
  · exact hb

theorem State.startWaiting_besides (s : State) : s.startWaiting.besides s :=
  foldl_besides (fun u k => .ite (u.nextRetire_besides k) (.refl u)) _ _

theorem State.tableMiss_besides (s : State) (a : Nat) : (s.tableMiss a).besides s := s.masked_besides _ _ _ _

theorem State.readMirrored_besides (s : State) (who : EvMaster) (a : Nat) : (s.readMirrored who a).1.besides s := by
  unfold State.readMirrored
  extract_lets m gone waits u v
  have hu : u.besides s := .ite (.refl s) ((State.startWaiting_besides _).trans (s.uncRead_besides a))
  have hv : v.besides s := (u.hbmTraffic_besides _ _ _ _ _).trans hu
  split
  · exact .refl s
  · split
    · exact (v.uncAlone_besides _).trans hv
    · split
      · exact hv
      · exact (State.hbmPutLine_besides _ _ _).trans ((v.hbmTraffic_besides _ _ _ _ _).trans hv)

theorem State.stblRead_besides (s : State) (seq : BitVec 32) (who : EvMaster) (t a lo hi : Nat) :
    (s.stblRead seq who t a lo hi).1.besides s := by
  unfold State.stblRead
  extract_lets u
  have hu : u.besides s := .ite (.refl s) (s.hbmTraffic_besides _ _ _ _ _)
  split
  · have hm := (u.readMirrored_besides who a).trans hu
    split
    · next v hv =>
      rw [hv] at hm
      exact (v.tableMiss_besides a).trans hm
    · next v m hv =>
      rw [hv] at hm
      exact hm
  · split
    · exact (State.tableMiss_besides _ _).trans ((u.uncRead_besides a).trans hu)
    · exact hu

theorem State.lookS_besides (s : State) (seq : BitVec 32) (who : EvMaster) (t lo hi : Nat) :
    (s.lookS seq who t lo hi).1.besides s := by
  unfold State.lookS
  extract_lets b0 b1 keys
  generalize keys b0 + (if b1 = b0 then 0 else keys b1) = held
  have h0 := s.stblRead_besides seq who t b0 lo hi
  refine .fst_ite (.refl s) (.fst_ite (.refl s) (.fst_ite (.refl s) ?_))
  split
  · next u hu => rw [hu] at h0; exact h0
  · next u d hu => rw [hu] at h0; exact h0
  · next u hu =>
    rw [hu] at h0
    have h1 := (u.stblRead_besides seq who t b1 lo hi).trans h0
    split
    · exact h0
    · split
      · next v d hv => rw [hv] at h1; exact h1
      · next v d _ hv => rw [hv] at h1; exact h1

theorem State.lookX_besides (s : State) (seq : BitVec 32) (who : EvMaster) (v6 : Bool) (key vrf : Nat) :
    (s.lookX seq who v6 key vrf).1.besides s := by
  unfold State.lookX
  split
  · exact .refl s
  · next a _ =>
    extract_lets u
    have hu : u.besides s := s.hbmTraffic_besides _ _ _ _ _
    have hmiss : ((u.uncRead a).tableMiss a).besides s := (State.tableMiss_besides _ _).trans ((u.uncRead_besides a).trans hu)
    split
    · exact hmiss
    · exact hu

/-- A lookup reads; what it changes is in HBM's channels, their repair and the records of errors. -/
theorem State.lookTable_besides (s : State) (seq : BitVec 32) (who : EvMaster) (t : Nat) (lo hi : Word) (vrf : Nat) :
    (s.lookTable seq who t lo hi vrf).1.besides s := by
  unfold State.lookTable
  extract_lets k4 k6 found k i w
  refine .fst_ite ?_ (.fst_ite (.refl s) (.fst_ite (.refl s) (.fst_ite (.refl s)
    (.fst_ite (s.lookX_besides _ _ _ _ _) (.fst_ite (s.lookX_besides _ _ _ _ _)
      (.fst_ite (s.lookS_besides _ _ _ _ _) (.refl s)))))))
  split <;> exact .refl s

/-! ## LD.T -/

/-- An instruction of a thread that does not complete yet. -/
theorem exec_hold {c : Instr} {k : TaskId} {s u : State} {op : Nat} {w : IWord} {f : Task → State → TaskRes}
    (h : s.threadRuns k) (hc : exec c s = runTask k.val op w f s) (hf : f (s.task k.val) s = .hold u) :
    exec c s = .next u := by
  obtain ⟨h1, h2, h3, h4, h5⟩ := h
  rw [hc]
  unfold runTask
  simp [h1, h2, h3, h4, h5, hf]

/-- An instruction of a draft that does not complete yet. -/
theorem exec_wait {c : Instr} {p : PktId} {s u : State} {x : Pkt} {op : Nat} {f : Pkt → State → PickRes}
    (h : s.pickRuns p x) (hc : exec c s = runPick p op f s) (hf : f x s = .wait u) : exec c s = .next u := by
  obtain ⟨h1, h2, h3, h4, h5⟩ := h
  rw [hc]
  unfold runPick
  simp [h1, h2, h3, h4, hf, Nat.not_le.mpr h5]

/-- R54, R263: what LD.T in a pick leaves, by what its lookup finds. -/
def Pkt.lookedUp (x : Pkt) (w : IWord) (aux : Nat) : Found → Pkt
  | .absent => (x.write w.dest 0).setSt (stWord stAbsent aux)
  | .miss => (x.write w.dest 0).setSt (stWord stMiss aux)
  | .hit d => (({ x with pick := { x.pick with
      nextHop := if w.fn.toNat % 32 = 3 ∧ d.getLsbD 14 = true then some d else x.pick.nextHop } }).write w.dest d).setSt
        (stWord stOk aux)
  | .undef _ => x

/-- The lookup of LD.T in a pick. -/
def State.pickLook (s : State) (x : Pkt) (w : IWord) : State × Found :=
  s.lookTable x.pick.seq (.loom x.loom) (w.fn.toNat % 32) (x.read w.src1) (x.read w.src2) (w.val.toNat % 65536)

/-- The device and AUX after LD.T's source lookup, where it makes one. -/
def State.pickSource (s : State) (x : Pkt) (w : IWord) : State × Nat :=
  if w.fn.toNat % 32 = 0 ∧ w.val.getLsbD 20 = true then (s.pickLook x w).1.sourceLookup x (x.read w.src1)
  else ((s.pickLook x w).1, 0)

section
variable {w : IWord} {x : Pkt} {p : PktId} {s : State}

theorem ldtPick_held {a : Nat} (h : s.lookHeld x.pick.seq (w.fn.toNat % 32) (x.read w.src1) (x.read w.src2)
    (w.val.toNat % 65536) = some a) : ldtPick w x p s = .wait (s.hbmWake a) := by
  simp only [ldtPick, bitsOf_16, h]

theorem ldtPick_done (h : s.lookHeld x.pick.seq (w.fn.toNat % 32) (x.read w.src1) (x.read w.src2)
    (w.val.toNat % 65536) = none) (hdef : ∀ n, (s.pickLook x w).2 ≠ .undef n) : ∃ addr, ldtPick w x p s =
      .done ((s.pickSource x w).1.setPkt p (some (x.lookedUp w (s.pickSource x w).2 (s.pickLook x w).2))) addr := by
  refine ⟨w.fn.toNat % 32 * 2 ^ 56 + bitsOf (x.read w.src1).toNat 47 0, ?_⟩
  obtain ⟨⟨u, r⟩, hlook⟩ : ∃ v, s.pickLook x w = v := ⟨_, rfl⟩
  have hr : ∀ n, r ≠ .undef n := by simpa [hlook] using hdef
  simp only [State.pickSource, hlook]
  unfold State.pickLook at hlook
  simp only [ldtPick, bitsOf_16, h, hlook]
  cases r with
  | undef n => exact absurd rfl (hr n)
  | absent => rfl
  | miss => rfl
  | hit d =>
    dsimp only [Pkt.lookedUp]
    by_cases hvia : w.fn.toNat % 32 = 3 ∧ d.getLsbD 14 = true
    · rw [if_pos hvia, if_pos hvia]
    · rw [if_neg hvia, if_neg hvia]

end

theorem State.sourceAux_now (s : State) (x : Pkt) (k : Nat) (w1 : Option Nat) : (s.sourceAux x k w1).1.now = s.now := by
  have herr : (((s.incF Reg.learnStat Fld.learnStatQdrop).err Reg.learnErr 4).now) = s.now :=
    (State.err_aside _ _ _ _).now
  unfold State.sourceAux
  extract_lets p own fixed mine q
  simp only [apply_ite Prod.fst, apply_ite State.now, herr, ite_self]

theorem State.sourceLookup_now (s : State) (x : Pkt) (lo : Word) : (s.sourceLookup x lo).1.now = s.now := by
  unfold State.sourceLookup
  extract_lets k
  split
  · exact s.sourceAux_now _ _ _
  · dsimp only
    split <;> exact s.sourceAux_now _ _ _

theorem State.pickSource_now (s : State) (x : Pkt) (w : IWord) : (s.pickSource x w).1.now = s.now := by
  have hlook : (s.pickLook x w).1.now = s.now := (s.lookTable_besides _ _ _ _ _ _).now
  unfold State.pickSource
  split
  · exact (State.sourceLookup_now _ _ _).trans hlook
  · exact hlook

theorem ldT_pick {p : PktId} {x : Pkt} {w : IWord} {s : State} (h : s.pickRuns p x)
    (hheld : s.lookHeld x.pick.seq (w.fn.toNat % 32) (x.read w.src1) (x.read w.src2) (w.val.toNat % 65536) = none)
    {r : Found} (hr : (s.pickLook x w).2 = r) (hdef : ∀ n, r ≠ .undef n) : pickLeaves (.ldT (.pick p) w) s p
      (s.pickSource x w).1 (x.lookedUp w (s.pickSource x w).2 r) := by
  subst hr
  obtain ⟨addr, hdone⟩ := ldtPick_done (p := p) hheld hdef
  exact pickLeaves_of_done (op := 0x06) (f := fun x s => ldtPick w x p s) h rfl hdone (s.pickSource_now x w)

/-- The lookup of LD.T in a thread. -/
def State.taskLook (s : State) (k : Nat) (w : IWord) : State × Found :=
  s.lookTable s.bat.seq (.task k) (w.fn.toNat % 32) ((s.task k).read w.src1) ((s.task k).read w.src2)
    (w.val.toNat % 65536)

section
variable {k : TaskId} {w : IWord} {s : State} (h : s.threadRuns k)
  (hheld : s.lookHeld s.bat.seq (w.fn.toNat % 32) ((s.task k.val).read w.src1) ((s.task k.val).read w.src2)
    (w.val.toNat % 65536) = none)
include h hheld

theorem ldT_thread {d : Word} {code : Nat} (hr : (s.taskLook k.val w).2 = .hit d ∧ code = stOk ∨ d = 0 ∧
      ((s.taskLook k.val w).2 = .miss ∧ code = stMiss ∨ (s.taskLook k.val w).2 = .absent ∧ code = stAbsent)) :
    threadLeaves (.ldT (.task k) w) s k (s.taskLook k.val w).1 { (s.task k.val).write w.dest d with
      stReg := stWord code } := by
  refine threadLeaves_of_done (op := 0x06) (f := fun t s => ldtTask w k.val t s) h rfl ?_
    (by simp [h.1])
  obtain ⟨⟨u, r⟩, hlook⟩ : ∃ v, s.taskLook k.val w = v := ⟨_, rfl⟩
  simp only [hlook] at hr ⊢
  unfold State.taskLook at hlook
  simp only [ldtTask, bitsOf_16, hheld, hlook]
  obtain ⟨rfl, rfl⟩ | ⟨rfl, ⟨rfl, rfl⟩ | ⟨rfl, rfl⟩⟩ := hr <;> rfl

end

/-! ## Source lookups -/

theorem perm_learnPut (v : LearnEv) (l : List LearnEv) : (learnPut v l).Perm (v :: l) := by
  induction l with
  | nil => exact .refl _
  | cons u us ih =>
    unfold learnPut
    split
    · exact .refl _
    · exact (ih.cons u).trans (.swap v u us)

/-- R266: the entry found is of the packet's own port. -/
def ownPort (x : Pkt) (w1 : Option Nat) : Prop := ∃ w, w1 = some w ∧ w.testBit 16 = false ∧ w % 65536 = x.inPort

/-- R266: the entry found is static, pinned or of a group. -/
def fixedEntry (w1 : Option Nat) : Prop :=
  ∃ w, w1 = some w ∧ (w.testBit 16 = true ∨ w.testBit 17 = true ∨ w.testBit 18 = true)

theorem bitsOf_three (w : Nat) :
    bitsOf w 18 16 ≠ 0 ↔ w.testBit 16 = true ∨ w.testBit 17 = true ∨ w.testBit 18 = true := by
  simp only [bitsOf_eq, Nat.testBit_eq_decide_div_mod_eq, decide_eq_true_eq]
  omega

theorem bitsOf_clear (w i : Nat) : bitsOf w i i = 0 ↔ w.testBit i = false := by
  rw [bitsOf_eq, Nat.add_sub_cancel_left, Nat.pow_one, Nat.testBit_eq_decide_div_mod_eq, decide_eq_false_iff_not]
  omega

/-- R266: the packet does not learn. -/
def State.learnsNot (s : State) (x : Pkt) : Prop :=
  s.pfld x.pick.seq Reg.learnCtl Fld.learnCtlEnable = 0 ∨ x.pick.pick2 = true ∨ x.injected = true ∨ 512 ≤ x.inPort ∨
    s.pickNoLearn x.pick.seq x.inPort = true

/-- The events of the packet's loom that wait for the shuttle. -/
def State.loomEvents (s : State) (x : Pkt) : List LearnEv := s.learn.queue.filter fun v => v.loom == x.loom

open Classical in
/-- R266: the cases of AUX, and what each leaves. -/
theorem State.sourceAux_eq (s : State) (x : Pkt) (k : Nat) (w1 : Option Nat) : s.sourceAux x k w1 =
    if s.learnsNot x then (s, 2)
    else if ownPort x w1 then (s, 0)
    else if fixedEntry w1 then (s, 5)
    else if s.limitMet x.inPort (s.pfld x.pick.seq (Reg.learnPort x.inPort) Fld.learnPortLimit) = true then
      (s, if s.pfld x.pick.seq (Reg.learnPort x.inPort) Fld.learnPortExcess = 0 then 3 else 4)
    else if ∃ v ∈ s.loomEvents x, v.key = k then (s, 1)
    else if 64 ≤ (s.loomEvents x).length then
      ((s.incF Reg.learnStat Fld.learnStatQdrop).err Reg.learnErr 4, 6)
    else
      ({ s with learn := { s.learn with
          queue := learnPut { key := k, port := x.inPort, loom := x.loom, at_ := s.now } s.learn.queue } }, 1) := by
  have hheld : ((s.loomEvents x).any fun v => v.key == k) = true ↔ ∃ v ∈ s.loomEvents x, v.key = k := by
    simp only [List.any_eq_true, beq_iff_eq]
  have hexcess (n : Nat) : (if (n != 0) = true then 4 else 3 : Nat) = if n = 0 then 3 else 4 := by
    by_cases h : n = 0 <;> simp [h]
  unfold State.sourceAux
  extract_lets p own fixed mine q
  have hown : own = true ↔ ownPort x w1 := by
    cases w1 with
    | none => simp [own, ownPort]
    | some w => simp [own, p, ownPort, bitsOf_clear, bitsOf_low]
  have hfixed : fixed = true ↔ fixedEntry w1 := by
    cases w1 with
    | none => simp [fixed, fixedEntry]
    | some w => simp only [fixed, fixedEntry, bne_iff_ne, bitsOf_three, Option.some.injEq, exists_eq_left']
  rw [hexcess]
  exact if_congr Iff.rfl rfl (if_congr hown rfl (if_congr hfixed rfl (if_congr Iff.rfl rfl (if_congr hheld rfl
    (if_congr Iff.rfl rfl rfl)))))

theorem exec_ldT_thread_held {k : TaskId} {w : IWord} {s : State} (h : s.threadRuns k) {a : Nat}
    (ha : s.lookHeld s.bat.seq (w.fn.toNat % 32) ((s.task k.val).read w.src1) ((s.task k.val).read w.src2)
      (w.val.toNat % 65536) = some a) : exec (.ldT (.task k) w) s = .next (s.hbmWake a) := by
  refine exec_hold (op := 0x06) (w := w) (f := fun t s => ldtTask w k.val t s) h rfl ?_
  simp only [ldtTask, bitsOf_16, ha]

/-- Settles O8: LD.T by what its lookup finds; the tables by the records that hold or cover a key; a source lookup by its
cases in order. -/
theorem tableLookups : Obligations.TableLookups := by
  unfold Obligations.TableLookups
  refine ⟨⟨fun k w s h => ?_, fun p x w s h => ?_⟩, fun s seq who lo hi vrf => ?_, fun s seq who lo hi vrf v6 => ?_,
    fun s x k w1 => ?_⟩
  · intro T t held r
    refine ⟨fun a ha => exec_ldT_thread_held h ha, fun hheld => ⟨fun d hd => ?_, fun hd => ?_, fun hd => ?_⟩⟩
    · exact ldT_thread h hheld (.inl ⟨hd, rfl⟩)
    · exact ldT_thread h hheld (.inr ⟨rfl, .inl ⟨hd, rfl⟩⟩)
    · exact ldT_thread h hheld (.inr ⟨rfl, .inr ⟨hd, rfl⟩⟩)
  · intro t held r src via
    refine ⟨fun a ha => exec_wait (op := 0x06) (f := fun x s => ldtPick w x p s) h rfl (ldtPick_held ha),
      fun hheld => ⟨fun d hd => ?_, fun hd => ?_, fun hd => ?_⟩⟩
    · exact ldT_pick h hheld hd (by simp)
    · exact ldT_pick h hheld hd (by simp)
    · exact ldT_pick h hheld hd (by simp)
  · intro key inBucket nh
    refine ⟨fun hno => ?_, fun e he hone => ⟨_, ?_, macResult_toNat _⟩, fun hnh => ?_, fun hnh => ?_,
      fun t ht => s.lookTable_beyond seq who lo hi vrf ht⟩
    · have hnone : s.macFind seq (s.pickMacBucket seq key) key = [] :=
        List.eq_nil_iff_forall_not_mem.mpr fun e he => hno e (mem_macFind.mp he)
      rw [s.lookTable_mac seq who lo hi vrf rfl, hnone]
    · rw [s.lookTable_mac seq who lo hi vrf rfl,
        macFind_unique (mem_macFind.mpr he) fun f hf => hone f (mem_macFind.mp hf)]
      rfl
    · rw [State.lookTable_nextHop, if_neg (by rw [hnh]; decide)]
    · refine ⟨_, by rw [State.lookTable_nextHop, if_pos hnh], ?_⟩
      rw [BitVec.toNat_ofNat, bitsOf_low]
      omega
  · intro t key at_ n len
    have hreset : ∀ a, 0x20200000 ≤ a → a < 0x20A00000 → memReset a = 0 := by
      intro a hlo hhi
      unfold memReset
      rw [if_neg (by omega), if_neg (by omega), if_neg (by omega)]
    cases v6 with
    | false =>
      refine ⟨fun hno => s.lookTable_lpm seq who lo hi vrf false (lpm_none hno), fun i l hi' hl hbest => ?_⟩
      exact s.lookTable_lpm seq who lo hi vrf false
        (lpm_best (fun a hlo hhi => hreset a hlo (hhi.trans (by decide))) hi' hl hbest)
    | true =>
      refine ⟨fun hno => s.lookTable_lpm seq who lo hi vrf true (lpm_none hno), fun i l hi' hl hbest => ?_⟩
      exact s.lookTable_lpm seq who lo hi vrf true
        (lpm_best (fun a hlo hhi => hreset a (le_trans (by decide) hlo) hhi) hi' hl hbest)
  · intro q full mine off own fixed
    have heq := s.sourceAux_eq x k w1
    have hroom : full = false → ¬ s.limitMet x.inPort (s.pfld x.pick.seq (Reg.learnPort x.inPort)
        Fld.learnPortLimit) = true := fun hfull hmet => Bool.noConfusion (hfull.symm.trans hmet)
    have hnew : (∀ v ∈ mine, v.key ≠ k) → ¬ ∃ v ∈ s.loomEvents x, v.key = k := fun hno ⟨v, hv, he⟩ => hno v hv he
    refine ⟨fun (h1 : s.learnsNot x) => ?_, fun (h1 : ¬ s.learnsNot x) (h2 : ownPort x w1) => ?_,
      fun (h1 : ¬ s.learnsNot x) (h2 : ¬ ownPort x w1) (h3 : fixedEntry w1) => ?_,
      fun (h1 : ¬ s.learnsNot x) (h2 : ¬ ownPort x w1) (h3 : ¬ fixedEntry w1) h4 => ?_,
      fun (h1 : ¬ s.learnsNot x) (h2 : ¬ ownPort x w1) (h3 : ¬ fixedEntry w1) h4 h5 => ?_,
      fun (h1 : ¬ s.learnsNot x) (h2 : ¬ ownPort x w1) (h3 : ¬ fixedEntry w1) h4 h5 h6 => ?_,
      fun (h1 : ¬ s.learnsNot x) (h2 : ¬ ownPort x w1) (h3 : ¬ fixedEntry w1) h4 h5 h6 => ?_, fun lo hlo => ?_⟩
    · rw [heq, if_pos h1]
    · rw [heq, if_neg h1, if_pos h2]
    · rw [heq, if_neg h1, if_neg h2, if_pos h3]
    · rw [heq, if_neg h1, if_neg h2, if_neg h3, if_pos h4]
    · rw [heq, if_neg h1, if_neg h2, if_neg h3, if_neg (hroom h4)]
      exact if_pos h5
    · rw [heq, if_neg h1, if_neg h2, if_neg h3, if_neg (hroom h4), if_neg (hnew h5)]
      exact ⟨_, if_neg (not_le.mpr h6), perm_learnPut _ _⟩
    · rw [heq, if_neg h1, if_neg h2, if_neg h3, if_neg (hroom h4), if_neg (hnew h5),
        if_pos (show 64 ≤ (s.loomEvents x).length from h6)]
      exact ⟨rfl, (State.err_aside _ _ _ _).learn⟩
    · intro e
      refine ⟨fun he => ?_, fun i l w he hw => ?_⟩
      · unfold State.sourceLookup
        simp only [show bitsOf lo.toNat 59 0 = k from hlo, show s.macFind x.pick.seq (s.pickMacBucket x.pick.seq k) k = []
          from he]
      · unfold State.sourceLookup
        simp only [show bitsOf lo.toNat 59 0 = k from hlo, show s.macFind x.pick.seq (s.pickMacBucket x.pick.seq k) k =
          i :: l from he, show (s.macWords x.pick.seq i).2 = w from hw]
        exact if_congr (and_congr (bitsOf_clear w 16) Iff.rfl) rfl rfl

end Machine
end Sys2Proof
end

section
/-! PROOF. Fields of flow heads: what a field reads after a write of it, or of another (R137, R138). -/

namespace Sys2Proof.Machine

theorem testBit_hget (h : Head) (o n i : Nat) : (hget h o n).testBit i = (decide (i < 8 * n) && h.getLsbD (8 * o + i)) := by
  rw [hget, Nat.testBit_mod_two_pow, Nat.testBit_shiftRight, BitVec.testBit_toNat]

theorem hget_lt (h : Head) (o n : Nat) : hget h o n < 2 ^ (8 * n) := Nat.mod_lt _ (Nat.two_pow_pos _)

/-- A bit of a head with a field written. -/
theorem getLsbD_hput (h : Head) (o n v : Nat) {i : Nat} (hi : i < 512) : (hput h o n v).getLsbD i =
    if 8 * o ≤ i ∧ i < 8 * o + 8 * n then v.testBit (i - 8 * o) else h.getLsbD i := by
  simp only [hput, BitVec.getLsbD_or, BitVec.getLsbD_and, BitVec.getLsbD_not, BitVec.getLsbD_ofNat,
    Nat.testBit_shiftLeft, Nat.testBit_two_pow_sub_one, hi, decide_true, Bool.true_and]
  by_cases hlo : 8 * o ≤ i
  · by_cases hin : i - 8 * o < 8 * n
    · rw [if_pos (by omega)]; simp [hlo, hin]
    · rw [if_neg (by omega)]; simp [hin]
  · rw [if_neg (by omega)]; simp [hlo]

/-- A bit of a head with a bit of CTL set or cleared. -/
theorem getLsbD_headBit (h : Head) (bit : Nat) (b : Bool) {i : Nat} (hi : i < 512) :
    (headBit h bit b).getLsbD i = if i = bit then b else h.getLsbD i := by
  have hpow : (BitVec.ofNat 512 (2 ^ bit)).getLsbD i = decide (i = bit) := by
    rw [BitVec.getLsbD_ofNat, Nat.testBit_two_pow]
    simp [hi, eq_comm]
  unfold headBit
  dsimp only
  cases b
  · rw [if_neg (by decide), BitVec.getLsbD_and, BitVec.getLsbD_not, hpow]
    by_cases hb : i = bit <;> simp [hi, hb]
  · rw [if_pos rfl, BitVec.getLsbD_or, hpow]
    by_cases hb : i = bit <;> simp [hb]

/-- R138: a field written in a head reads back. -/
theorem hget_hput_same (h : Head) {o n : Nat} (v : Nat) (hin : o + n ≤ 64) : hget (hput h o n v) o n = v % 2 ^ (8 * n) := by
  refine Nat.eq_of_testBit_eq fun i => ?_
  rw [testBit_hget, Nat.testBit_mod_two_pow]
  by_cases hi : i < 8 * n
  · rw [getLsbD_hput _ _ _ _ (by omega), if_pos (by omega), Nat.add_sub_cancel_left]
  · simp [hi]

/-- R138: a field that does not meet the one written stays. -/
theorem hget_hput_other (h : Head) {o n q m : Nat} (v : Nat) (hq : q + m ≤ 64) (hoff : q + m ≤ o ∨ o + n ≤ q) :
    hget (hput h o n v) q m = hget h q m := by
  refine Nat.eq_of_testBit_eq fun i => ?_
  rw [testBit_hget, testBit_hget]
  by_cases hi : i < 8 * m
  · rw [getLsbD_hput _ _ _ _ (by omega), if_neg (by omega)]
  · simp [hi]

/-- A field of a head that does not hold the bit. -/
theorem hget_headBit_other (h : Head) {bit q m : Nat} (b : Bool) (hq : q + m ≤ 64)
    (hoff : bit < 8 * q ∨ 8 * q + 8 * m ≤ bit) : hget (headBit h bit b) q m = hget h q m := by
  refine Nat.eq_of_testBit_eq fun i => ?_
  rw [testBit_hget, testBit_hget]
  by_cases hi : i < 8 * m
  · rw [getLsbD_headBit _ _ _ (by omega), if_neg (by omega)]
  · simp [hi]

/-- A bit of CTL. -/
theorem getLsbD_ctl (h : Head) {i : Nat} (hi : i < 32) : h.getLsbD i = (hget h 0 4).testBit i := by
  rw [testBit_hget]
  simp [hi]

theorem headOnset_eq (h : Head) : headOnset h = hget h 0 4 / 2 ^ 21 % 8 := bitsOf_eq _ _ _

theorem headGen_eq (h : Head) : headGen h = hget h 0 4 % 2 ^ 16 := by
  refine Nat.eq_of_testBit_eq fun i => ?_
  rw [headGen, testBit_hget, Nat.testBit_mod_two_pow, testBit_hget]
  by_cases hi : i < 16
  · simp [hi, show i < 32 by omega]
  · simp [hi]

theorem headHit_eq (h : Head) : headHit h = (hget h 0 4).testBit 30 := getLsbD_ctl h (by decide)

/-- HIT alone is set, of CTL. -/
theorem ctl_headBit_hit (h : Head) : headHit (headBit h 30 true) = true ∧
    headOnset (headBit h 30 true) = headOnset h ∧ headGen (headBit h 30 true) = headGen h := by
  have hbit {i : Nat} (hi : i < 32) (hne : i ≠ 30) :
      (hget (headBit h 30 true) 0 4).testBit i = (hget h 0 4).testBit i := by
    rw [← getLsbD_ctl _ hi, ← getLsbD_ctl _ hi, getLsbD_headBit _ _ _ (by omega), if_neg hne]
  refine ⟨?_, ?_, ?_⟩
  · rw [headHit, getLsbD_headBit _ _ _ (by decide), if_pos rfl]
  · rw [headOnset, headOnset, bitsOf_eq, bitsOf_eq]
    refine Nat.eq_of_testBit_eq fun i => ?_
    rw [Nat.testBit_mod_two_pow, Nat.testBit_mod_two_pow, Nat.testBit_div_two_pow, Nat.testBit_div_two_pow]
    by_cases hi : i < 3
    · rw [hbit (by omega) (by omega)]
    · simp [hi]
  · rw [headGen_eq, headGen_eq]
    refine Nat.eq_of_testBit_eq fun i => ?_
    rw [Nat.testBit_mod_two_pow, Nat.testBit_mod_two_pow]
    by_cases hi : i < 16
    · rw [hbit (by omega) (by omega)]
    · simp [hi]

/-- ONSET rises by one, to at most 7. -/
theorem headOnset_raised {h : Head} {ctl : Nat} (hctl : hget h 0 4 = ctl) :
    let f := hput h 0 4 (ctl - bitsOf ctl 23 21 * 2 ^ 21 + min 7 (headOnset h + 1) * 2 ^ 21)
    headOnset f = min 7 (headOnset h + 1) ∧ headGen f = headGen h ∧ headHit f = headHit h := by
  intro f
  have hlt : ctl < 2 ^ 32 := hctl ▸ hget_lt h 0 4
  have hon : headOnset h = ctl / 2 ^ 21 % 8 := hctl ▸ headOnset_eq h
  have hf : hget f 0 4 = (ctl - ctl / 2 ^ 21 % 8 * 2 ^ 21 + min 7 (headOnset h + 1) * 2 ^ 21) % 2 ^ 32 :=
    (hget_hput_same _ _ (by decide)).trans (by rw [show bitsOf ctl 23 21 = ctl / 2 ^ 21 % 8 from bitsOf_eq _ _ _])
  rw [headOnset_eq f, headGen_eq f, headGen_eq h, headHit_eq f, headHit_eq h, hf, hctl]
  generalize hm : min 7 (headOnset h + 1) = m
  have hm7 : m ≤ 7 := hm ▸ min_le_left _ _
  refine ⟨by omega, by omega, ?_⟩
  rw [Nat.testBit_eq_decide_div_mod_eq, Nat.testBit_eq_decide_div_mod_eq]
  exact congrArg (fun n => decide (n = 1)) (by omega)

/-- R138, R150: what a lookup changes in a head. -/
theorem touchHead_spec (h : Head) (first : Bool) (now : Nat) :
    headHit (touchHead h first now) = true ∧ hget (touchHead h first now) 20 4 = now % 2 ^ 32 ∧
    headOnset (touchHead h first now) = (if first then min 7 (headOnset h + 1) else headOnset h) ∧
    headSeal (touchHead h first now) = headSeal h ∧ headGen (touchHead h first now) = headGen h := by
  obtain ⟨hhit, honset, hgen⟩ := ctl_headBit_hit h
  obtain ⟨g, hg⟩ : ∃ g, hput (headBit h 30 true) 20 4 now = g := ⟨_, rfl⟩
  have hctl : hget g 0 4 = hget (headBit h 30 true) 0 4 := hg ▸ hget_hput_other _ _ (by decide) (by decide)
  have htime : hget g 20 4 = now % 2 ^ 32 := hg ▸ hget_hput_same _ _ (by decide)
  have hseal : headSeal g = headSeal h := by
    rw [← hg, headSeal, headSeal, hget_hput_other _ _ (by decide) (by decide), hget_headBit_other _ _ (by decide) (by decide)]
  rw [headHit_eq, ← hctl, ← headHit_eq] at hhit
  rw [headOnset_eq, ← hctl, ← headOnset_eq] at honset
  rw [headGen_eq, ← hctl, ← headGen_eq] at hgen
  cases first with
  | false =>
    have heq : touchHead h false now = g := hg
    rw [heq]
    exact ⟨hhit, htime, honset, hseal, hgen⟩
  | true =>
    have heq : touchHead h true now =
        hput g 0 4 (hget g 0 4 - bitsOf (hget g 0 4) 23 21 * 2 ^ 21 + min 7 (headOnset g + 1) * 2 ^ 21) := hg ▸ rfl
    obtain ⟨hr1, hr2, hr3⟩ := headOnset_raised (h := g) rfl
    rw [heq]
    refine ⟨hr3.trans hhit, ?_, hr1.trans (by rw [honset]; rfl), ?_, hr2.trans hgen⟩
    · rw [hget_hput_other _ _ (by decide) (by decide), htime]
    · rw [← hseal, headSeal, headSeal, hget_hput_other _ _ (by decide) (by decide)]

end Sys2Proof.Machine
end

section
/-! PROOF. Lookups of flows (FlowLookups): what the flow instructions refuse, heads held at once, and misses. -/

namespace Sys2Proof.Machine

/-! ## States that differ from another in measurement and one packet -/

theorem State.alike.line {t u : State} (h : t.alike u) (l : Nat) : t.line l = u.line l :=
  (show t.bare.line l = u.bare.line l by rw [h.1])

theorem State.alike.setLine {t u : State} (h : t.alike u) (l : Nat) (c : Option CLine) :
    (t.setLine l c).alike (u.setLine l c) :=
  ⟨congrArg (fun s : State => s.setLine l c) h.1, h.2⟩

/-- `t` is `u` but for measurement and packet `p`. -/
def State.alikeBut (p : Nat) (t u : State) : Prop := ∀ y, (t.setPkt p (some y)).alike (u.setPkt p (some y))

theorem State.alikeBut.of_alike {t u : State} {p : Nat} (h : t.alike u) : t.alikeBut p u := fun y => h.setPkt p (some y)

theorem State.alikeBut.setLine {t u : State} {p : Nat} (h : t.alikeBut p u) (l : Nat) (c : Option CLine) :
    (t.setLine l c).alikeBut p (u.setLine l c) := fun y => (h y).setLine l c

theorem State.alikeBut_setPkt (s : State) (p : Nat) (x : Pkt) : (s.setPkt p (some x)).alikeBut p s := fun y => by
  rw [State.setPkt_setPkt]
  exact State.alike_refl _

theorem State.alikeBut.trans {t u v : State} {p : Nat} (h : t.alikeBut p u) (k : u.alikeBut p v) : t.alikeBut p v :=
  fun y => State.alike_trans (h y) (k y)

/-- What a draft's instruction leaves, up to measurement and its own packet. -/
theorem pickLeaves_alikeBut {c : Instr} {s u v : State} {p : PktId} {y : Pkt} (h : pickLeaves c s p u y)
    (ha : u.alikeBut p v) : pickLeaves c s p v y := by
  obtain ⟨hgo, hend⟩ := h
  have hlen : u.pickGoesOn y ↔ v.pickGoesOn y := by
    unfold State.pickGoesOn
    rw [← u.setPkt_draftLen p (some y), ← v.setPkt_draftLen p (some y), (ha y).draftLen]
  constructor
  · intro hl
    obtain ⟨t, ht, hta⟩ := hgo (hlen.mpr hl)
    exact ⟨t, ht, State.alike_trans hta (ha _)⟩
  · intro hl
    obtain ⟨t, ht, hta⟩ := hend fun hu => hl (hlen.mp hu)
    exact ⟨t, ht, State.alike_trans hta (ha _)⟩

/-! ## What the flow instructions refuse -/

theorem pickSt_eq {s : State} {p : Nat} {x : Pkt} (h : s.pkt? p = some x) (code : Nat) :
    pickSt p code s = .done (s.setPkt p (some (x.setSt (stWord code)))) 0 := by
  unfold pickSt
  rw [State.updPkt_some h]

/-- The meaning of FLOOK in a draft. -/
def flookPick (p : Nat) (w : IWord) (x : Pkt) (s : State) : PickRes :=
  if !s.pickWarpOn x then pickSt p stAbsent s
  else if x.pick.held.isSome then pickSt p stRefused s
  else
    let f := w.fn.toNat % 16
    match s.pickKey x f ((x.read w.src1).toNat % 2 ^ 32) with
    | none => pickSt p stAbsent s
    | some (_, key) =>
      match s.lookup p x f key none with
      | .held l s =>
        let s := s.updPkt p fun y => y.setSt (stWord (s.lookStatus y l))
        .done s (s.flowAddr p true)
      | .none_ s => pickSt p stMiss s
      | .waits s => .wait s

/-- The meaning of FCREATE in a draft that has no create pending. -/
def fcreatePick (p : Nat) (w : IWord) (x : Pkt) (s : State) : PickRes :=
  if !s.pickWarpOn x then pickSt p stAbsent s
  else if x.pick.held.isSome then pickSt p stRefused s
  else
    let f := w.fn.toNat % 16
    match s.pickKey x f ((x.read w.src1).toNat % 2 ^ 32) with
    | none => pickSt p stAbsent s
    | some (_, key) =>
      match s.lookup p x f key (some w.dest) with
      | .held _ s => .done (s.updPkt p fun y => (y.write w.dest 0).setSt (stWord stOk)) (s.flowAddr p true)
      | .none_ s' =>
        (match s'.pkt? p with
        | none => .wait s
        | some y =>
          let r := s'.createRec p y f key w.dest
          if r.2 then .done r.1 (r.1.flowAddr p false) else .wait r.1)
      | .waits s => .wait s

/-- The meaning of FUPD in a draft. -/
def fupdPick (p : Nat) (w : IWord) (x : Pkt) (s : State) : PickRes :=
  if !s.pickWarpOn x then pickSt p stAbsent s
  else match x.pick.held with
    | none => pickSt p stAbsent s
    | some h =>
      let op := w.fn.toNat % 8
      let o := w.val.toNat % 64
      let n := widthOf (w.val.toNat / 64)
      if op = 4 then
        .done ((s.updHeld h.line fun y => hput y 0 2 (s.pickGen x)).updPkt p fun y =>
          y.setSt (stWord stOk)) h.rno
      else if !fupdField o n then pickSt p stRefused s
      else
        .done ((s.updHeld h.line fun y => hput y o n (fupdValue op (hget y o n) n (x.read w.src1))).updPkt p
          fun y => y.setSt (stWord stOk)) h.rno

/-- The meaning of FFOLD in a draft. -/
def ffoldPick (p : Nat) (w : IWord) (x : Pkt) (s : State) : PickRes :=
  if !s.pickWarpOn x then pickSt p stAbsent s
  else match x.pick.held with
    | none => pickSt p stAbsent s
    | some h =>
      let bytes := (x.read w.src1).toNat % 2 ^ 32
      let pkts := w.val.toNat % 2 ^ 16
      let s := if bytes = 0 ∧ pkts = 0 then s else
        s.foldInto (s.pickProfile x.pick.seq == 2) h.line (w.fn.toNat % 4) bytes pkts x.loom
      .done (s.updPkt p fun y => y.setSt (stWord stOk)) h.rno

section
variable (p : PktId) (w : IWord) (s : State)

theorem exec_flook : exec (.flook (.pick p) w) s = runPick p 0x50 (flookPick p w) s := rfl
theorem exec_fupd : exec (.fupd (.pick p) w) s = runPick p 0x52 (fupdPick p w) s := rfl
theorem exec_ffold : exec (.ffold (.pick p) w) s = runPick p 0x53 (ffoldPick p w) s := rfl

variable {p s}

theorem exec_fcreate {x : Pkt} (h : s.pickRuns p x) :
    exec (.fcreate (.pick p) w) s = runPick p 0x51 (fcreatePick p w) s := by
  obtain ⟨hp, -, hwait, -, -⟩ := h
  have hnone : s.pendingCreate p = none := by simp only [State.pendingCreate, hp, hwait]
  show execFcreate (.pick p) w s = _
  unfold execFcreate
  simp only [hnone]
  rfl

end

/-- A flow instruction that only gives its code. -/
theorem pickDoes_code {c : Instr} {p : PktId} {s : State} {x : Pkt} {op : Nat} {f : Pkt → State → PickRes}
    (h : s.pickRuns p x) (hc : exec c s = runPick p op f s) {code : Nat} (hf : f x s = pickSt p code s) :
    pickDoes c s p (x.setSt (stWord code)) := pickLeaves_of_done h hc (hf.trans (pickSt_eq h.1 code)) rfl

section
variable {p : PktId} {x : Pkt} {w : IWord} {s : State} (h : s.pickRuns p x)
include h

theorem flow_off (hoff : s.pickWarpOn x = false) :
    pickDoes (.flook (.pick p) w) s p (x.setSt (stWord stAbsent)) ∧
    pickDoes (.fcreate (.pick p) w) s p (x.setSt (stWord stAbsent)) ∧
    pickDoes (.fupd (.pick p) w) s p (x.setSt (stWord stAbsent)) ∧
    pickDoes (.ffold (.pick p) w) s p (x.setSt (stWord stAbsent)) := by
  have hno : (!s.pickWarpOn x) = true := by rw [hoff]; rfl
  exact ⟨pickDoes_code h (exec_flook p w s) (if_pos hno), pickDoes_code h (exec_fcreate w h) (if_pos hno),
    pickDoes_code h (exec_fupd p w s) (if_pos hno), pickDoes_code h (exec_ffold p w s) (if_pos hno)⟩

variable (hon : s.pickWarpOn x = true)
include hon

theorem look_held (hheld : x.pick.held.isSome = true) :
    pickDoes (.flook (.pick p) w) s p (x.setSt (stWord stRefused)) ∧
    pickDoes (.fcreate (.pick p) w) s p (x.setSt (stWord stRefused)) := by
  have hyes : ¬ (!s.pickWarpOn x) = true := by simp [hon]
  exact ⟨pickDoes_code h (exec_flook p w s) ((if_neg hyes).trans (if_pos hheld)),
    pickDoes_code h (exec_fcreate w h) ((if_neg hyes).trans (if_pos hheld))⟩

theorem look_no_key (hheld : x.pick.held = none)
    (hkey : s.pickKey x (w.fn.toNat % 16) ((x.read w.src1).toNat % 2 ^ 32) = none) :
    pickDoes (.flook (.pick p) w) s p (x.setSt (stWord stAbsent)) ∧
    pickDoes (.fcreate (.pick p) w) s p (x.setSt (stWord stAbsent)) := by
  refine ⟨pickDoes_code h (exec_flook p w s) ?_, pickDoes_code h (exec_fcreate w h) ?_⟩
  · simp only [flookPick, hon, hheld, hkey, Bool.not_true, Bool.false_eq_true, if_false, Option.isSome_none]
  · simp only [fcreatePick, hon, hheld, hkey, Bool.not_true, Bool.false_eq_true, if_false, Option.isSome_none]

theorem update_no_head (hheld : x.pick.held = none) :
    pickDoes (.fupd (.pick p) w) s p (x.setSt (stWord stAbsent)) ∧
    pickDoes (.ffold (.pick p) w) s p (x.setSt (stWord stAbsent)) := by
  refine ⟨pickDoes_code h (exec_fupd p w s) ?_, pickDoes_code h (exec_ffold p w s) ?_⟩
  · simp [fupdPick, hon, hheld]
  · simp [ffoldPick, hon, hheld]

theorem fupd_refused (hheld : x.pick.held.isSome = true) (hop : w.fn.toNat % 8 ≠ 4)
    (hf : fupdField (w.val.toNat % 64) (2 ^ (w.val.toNat / 64 % 4)) = false) :
    pickDoes (.fupd (.pick p) w) s p (x.setSt (stWord stRefused)) := by
  obtain ⟨i, hi⟩ := Option.isSome_iff_exists.mp hheld
  have hf : fupdField (w.val.toNat % 64) (widthOf (w.val.toNat / 64)) = false := hf
  refine pickDoes_code h (exec_fupd p w s) ?_
  simp [fupdPick, hon, hi, hop, hf]

end

/-- R58, R133: a key has a defined form, all of whose slots are valid. -/
theorem pickKey_none {s : State} {x : Pkt} {f zone : Nat}
    (h : s.pfld x.pick.seq (Reg.warpKeyform f) Fld.warpKeyformValid = 0 ∨
      x.hfValid &&& BitVec.ofNat 32 (s.pfld x.pick.seq (Reg.warpKeyform f) Fld.warpKeyformSlotMask) ≠
        BitVec.ofNat 32 (s.pfld x.pick.seq (Reg.warpKeyform f) Fld.warpKeyformSlotMask)) :
    s.pickKey x f zone = none := by
  unfold State.pickKey
  cases hm : s.formMask x.pick.seq f with
  | none => rfl
  | some m =>
    obtain ⟨hdef, hm⟩ := Option.ite_none_left_eq_some.mp hm
    cases hm
    have hinv := h.resolve_left fun hv => hdef (.inl hv)
    exact if_neg hinv

/-! ## Holding a cached head -/

/-- R150: the packet's pick has made a flow lookup. -/
def Pkt.didLook (x : Pkt) : Pkt := { x with pick := { x.pick with looked := true } }

theorem Pkt.didLook_of_looked {x : Pkt} (h : x.pick.looked = true) : x.didLook = x := by
  unfold Pkt.didLook
  rw [← h]

section
variable {s : State} {p : Nat} {x : Pkt} (h : s.pkt? p = some x)
include h

theorem State.countLookup_pkt (hit : Bool) : (s.countLookup p hit).pkt? p = some x.didLook := by
  have hset : (s.setPkt p (some x.didLook)).pkt? p = some x.didLook := State.pkt_setPkt _ _ _
  simp only [State.countLookup, h]
  split
  · next hl => rw [Pkt.didLook_of_looked hl, h]
  · split
    · exact hset
    · split
      · exact hset
      · exact ((State.event_alike _ _).pkt p).trans hset

theorem State.countLookup_alikeBut (hit : Bool) : (s.countLookup p hit).alikeBut p s := by
  have hset : (s.setPkt p (some x.didLook)).alikeBut p s := s.alikeBut_setPkt p _
  have hcount (j : Nat) : ((s.setPkt p (some x.didLook)).cntShared j).alikeBut p s :=
    .trans (.of_alike (State.count_alike _ _ _)) hset
  simp only [State.countLookup, h]
  split
  · exact fun y => State.alike_refl _
  · split
    · exact hset
    · split
      · exact hcount 0
      · exact .trans (.of_alike (State.event_alike _ _)) (hcount 1)

/-- A lookup that hits counts; it changes nothing else but its packet. -/
theorem State.countLookup_hit : ∃ pk gl, s.countLookup p true = { s with pkts := pk, glass := gl } := by
  simp only [State.countLookup, h]
  split
  · exact ⟨s.pkts, s.glass, rfl⟩
  · split <;> exact ⟨_, _, rfl⟩

end

/-- R142, R150: a line after a lookup by the pick of `x`. -/
def State.heldLine (s : State) (x : Pkt) (c : CLine) (pinned : Bool) : CLine :=
  { c with
    head := touchHead c.head (!x.pick.pick2) (s.pickFlowTime x)
    image := if s.pickProfile x.pick.seq = 2 ∧ x.pick.pick2 = false
      then c.image.map (imgArrive · (x.arrivalUs (s.pfld x.pick.seq Reg.warpCtl Fld.warpCtlTimeDomain))) else c.image
    dirty := true, refBit := true, pins := if pinned then c.pins else c.pins + 1 }

/-- The packet whose pick holds the head `h` of record `r` in line `l`. -/
def Pkt.holds (x : Pkt) (l r : Nat) (h : Head) : Pkt :=
  { x with pick := { x.pick with
    wait := .none
    held := some { line := l, key96 := headSeal h, rno := r, gen := headGen h, created := false, onset := headOnset h } } }

theorem State.holdLine_eq {s : State} {p l : Nat} {x : Pkt} {c : CLine} (h : s.pkt? p = some x) (hl : s.line l = some c)
    (pinned : Bool) : s.holdLine p l pinned = (s.setLine l (some (s.heldLine x c pinned))).setPkt p
      (some (x.holds l c.rno (s.heldLine x c pinned).head)) := by
  have himg : (match c.image with
      | some m =>
        if s.pickProfile x.pick.seq = 2 ∧ (!x.pick.pick2) = true then
          some (imgArrive m (x.arrivalUs (s.pfld x.pick.seq Reg.warpCtl Fld.warpCtlTimeDomain)))
        else some m
      | none => none) = (s.heldLine x c pinned).image := by
    unfold State.heldLine
    cases c.image with
    | none => simp
    | some m => simp only [Option.map_some, Bool.not_eq_true']
  simp only [State.holdLine, h, hl]
  unfold State.heldLine at himg ⊢
  dsimp only at himg
  rw [← himg]
  rfl

/-- R150: a lookup of a cached head, which no other pick waits for. -/
theorem State.lookup_cached {s : State} {p f : Nat} {x : Pkt} {key : List Byte} {create : Option (BitVec 6)} {l : Nat}
    {c : CLine} (hkept : x.kept = none) (hbusy : s.sealBusy p (s.sealOf key) = false)
    (hfind : s.cacheFind (s.sealOf key) = some l) (hl : s.line l = some c)
    (himg : ¬ s.pickProfile x.pick.seq = 2 ∨ c.image.isSome = true) :
    s.lookup p x f key create = .held l ((s.countLookup p true).holdLine p l false) := by
  have hno : ((s.pickProfile x.pick.seq == 2) = true ∧ c.image.isNone = true) = False := by
    simp only [beq_iff_eq, Option.isNone_iff_eq_none, eq_iff_iff, iff_false, not_and]
    intro h2 hnone
    obtain hw | hsome := himg
    · exact hw h2
    · simp [hnone] at hsome
  simp only [State.lookup, hbusy, hkept, hfind, hl, hno, Bool.false_eq_true, if_false]

/-- R150: a lookup of a key that is known nowhere. -/
theorem State.lookup_unknown {s : State} {p f : Nat} {x : Pkt} {key : List Byte} {create : Option (BitVec 6)}
    (hkept : x.kept = none) (hbusy : s.sealBusy p (s.sealOf key) = false) (hfind : s.cacheFind (s.sealOf key) = none)
    (hvictim : (s.victims (lineBank (setBase (s.sealOf key)))).find? (fun v => headSeal v.head == s.sealOf key) = none)
    (hcand : s.candidate (s.sealOf key) = none) : s.lookup p x f key create = .none_ (s.countLookup p false) := by
  simp only [State.lookup, hbusy, hkept, hfind, hvictim, hcand, Bool.false_eq_true, if_false]

theorem Pkt.write_setSt (x : Pkt) (d : BitVec 6) (v c : Word) : (x.write d v).setSt c = (x.setSt c).write d v := by
  unfold Pkt.write
  dsimp only
  split
  · rfl
  · split
    · rfl
    · split
      · rfl
      · by_cases hv : x.hfValid.getLsbD (d.toNat - 32) = true
        · rw [if_pos hv]; exact (if_pos hv).symm
        · rw [if_neg hv]; exact (if_neg hv).symm

/-- FLOOK of a key whose lookup holds a head. -/
theorem flookPick_held {p l : Nat} {w : IWord} {x y : Pkt} {s t : State} {m : BitVec 32} {key : List Byte}
    (hon : s.pickWarpOn x = true) (hheld : x.pick.held = none)
    (hkey : s.pickKey x (w.fn.toNat % 16) ((x.read w.src1).toNat % 2 ^ 32) = some (m, key))
    (hlook : s.lookup p x (w.fn.toNat % 16) key none = .held l t) (hy : t.pkt? p = some y) :
    ∃ addr, flookPick p w x s = .done (t.setPkt p (some (y.setSt (stWord (t.lookStatus y l))))) addr := by
  refine ⟨(t.setPkt p (some (y.setSt (stWord (t.lookStatus y l))))).flowAddr p true, ?_⟩
  simp only [flookPick, hon, hheld, hkey, hlook, State.updPkt_some hy, Bool.not_true, Bool.false_eq_true, if_false,
    Option.isSome_none]

/-- FCREATE of a key whose lookup holds a head. -/
theorem fcreatePick_held {p l : Nat} {w : IWord} {x y : Pkt} {s t : State} {m : BitVec 32} {key : List Byte}
    (hon : s.pickWarpOn x = true) (hheld : x.pick.held = none)
    (hkey : s.pickKey x (w.fn.toNat % 16) ((x.read w.src1).toNat % 2 ^ 32) = some (m, key))
    (hlook : s.lookup p x (w.fn.toNat % 16) key (some w.dest) = .held l t) (hy : t.pkt? p = some y) :
    fcreatePick p w x s = .done (t.setPkt p (some ((y.write w.dest 0).setSt (stWord stOk)))) (t.flowAddr p true) := by
  simp only [fcreatePick, hon, hheld, hkey, hlook, State.updPkt_some hy, Bool.not_true, Bool.false_eq_true, if_false,
    Option.isSome_none]

section
variable {p : PktId} {x : Pkt} {w : IWord} {s : State} {m : BitVec 32} {key : List Byte} {l : Nat} {c : CLine}
  (h : s.pickRuns p x) (hon : s.pickWarpOn x = true) (hheld : x.pick.held = none) (hkept : x.kept = none)
  (hkey : s.pickKey x (w.fn.toNat % 16) ((x.read w.src1).toNat % 2 ^ 32) = some (m, key))
  (hbusy : s.sealBusy p (s.sealOf key) = false)
include h hon hheld hkept hkey hbusy

/-- FLOOK and FCREATE of a cached head hold it. -/
theorem look_cached (hfind : s.cacheFind (s.sealOf key) = some l) (hl : s.line l = some c)
    (himg : ¬ s.pickProfile x.pick.seq = 2 ∨ c.image.isSome = true) :
    pickLeaves (.flook (.pick p) w) s p (s.setLine l (some (s.heldLine x c false)))
      ((x.didLook.holds l c.rno (s.heldLine x c false).head).setSt
        (stWord (if headGen (s.heldLine x c false).head = s.pickGen x then stOk else stStale))) ∧
    pickLeaves (.fcreate (.pick p) w) s p (s.setLine l (some (s.heldLine x c false)))
      (((x.didLook.holds l c.rno (s.heldLine x c false).head).setSt (stWord stOk)).write w.dest 0) := by
  have hlook (create : Option (BitVec 6)) :=
    State.lookup_cached (f := w.fn.toNat % 16) (create := create) hkept hbusy hfind hl himg
  have hpk := State.countLookup_pkt h.1 true
  have hbut := (State.countLookup_alikeBut h.1 true).setLine l (some (s.heldLine x c false))
  obtain ⟨pk, gl, hcount⟩ := State.countLookup_hit h.1
  rw [hcount] at hpk hbut
  have hold : (s.countLookup p true).holdLine p l false =
      ({ s with pkts := pk, glass := gl }.setLine l (some (s.heldLine x c false))).setPkt p
        (some (x.didLook.holds l c.rno (s.heldLine x c false).head)) := by
    rw [hcount]
    exact State.holdLine_eq (s := { s with pkts := pk, glass := gl }) hpk hl false
  have hstatus : (({ s with pkts := pk, glass := gl }.setLine l (some (s.heldLine x c false))).setPkt p
      (some (x.didLook.holds l c.rno (s.heldLine x c false).head))).lookStatus
        (x.didLook.holds l c.rno (s.heldLine x c false).head) l =
      if headGen (s.heldLine x c false).head = s.pickGen x then stOk else stStale := by
    have hline := ({ s with pkts := pk, glass := gl } : State).line_setLine l (some (s.heldLine x c false)) l
    rw [if_pos rfl] at hline
    unfold State.lookStatus
    simp only [show ∀ (v : State) y, (v.setPkt p y).line l = v.line l from fun _ _ => rfl, hline]
    rfl
  rw [hold] at hlook
  constructor
  · obtain ⟨addr, hf⟩ := flookPick_held hon hheld hkey (hlook none) (State.pkt_setPkt _ _ _)
    rw [State.setPkt_setPkt, hstatus] at hf
    exact pickLeaves_alikeBut (pickLeaves_of_done h (exec_flook p w s) hf rfl) hbut
  · have hf := fcreatePick_held hon hheld hkey (hlook (some w.dest)) (State.pkt_setPkt _ _ _)
    rw [State.setPkt_setPkt, Pkt.write_setSt] at hf
    exact pickLeaves_alikeBut (pickLeaves_of_done h (exec_fcreate w h) hf rfl) hbut

end

/-! ## A cached head without its tail image -/

theorem State.alikeBut.line {t u : State} {p : Nat} (h : t.alikeBut p u) (y : Pkt) (l : Nat) : t.line l = u.line l :=
  (h y).line l

theorem State.aside.line {t s : State} (h : t.aside s) (l : Nat) : t.line l = s.line l := by
  unfold State.line
  rw [h.warp]

theorem State.aside.pkt {t s : State} (h : t.aside s) (p : Nat) : t.pkt? p = s.pkt? p := by
  unfold State.pkt?
  rw [h.pkts]

theorem State.allocLine_free {s : State} {k : Seal} {who : EvMaster} {n : Nat}
    (h : ((List.range 16).map (setBase k + ·)).find? (fun i => (s.line i).isNone) = some n) :
    s.allocLine k who = some (n, s) := by
  have h : ((List.range ways).map (setBase k + ·)).find? (fun i => (s.line i).isNone) = some n := h
  simp only [State.allocLine, h]

/-- A line of R147, which holds the tail image of another. -/
def CLine.second_ : CLine := { CLine.fresh with isSecond := true, reserved := false }

theorem State.addSecond_free {s : State} {l n : Nat} {k : Seal} {who : EvMaster} {c : CLine}
    (h : ((List.range 16).map (setBase k + ·)).find? (fun i => (s.line i).isNone) = some n) (hl : s.line l = some c) :
    s.addSecond l k who =
      some ((s.setLine n (some CLine.second_)).setLine l (some { c with second := some n })) := by
  have hne : l ≠ n := by
    rintro rfl
    have hfree := List.find?_some h
    simp [hl] at hfree
  have hstill : (s.setLine n (some CLine.second_)).line l = some c := by
    rw [State.line_setLine, if_neg hne, hl]
  simp only [State.addSecond, State.allocLine_free h, Option.map_some]
  unfold State.updLine
  simp only [show ({ CLine.fresh with isSecond := true, reserved := false } : CLine) = CLine.second_ from rfl, hstill]

/-- The first free line of a set is the same where a line that holds something is changed. -/
theorem State.find_free_setLine {s : State} {l : Nat} {c d : CLine} (hl : s.line l = some c) (ls : List Nat) :
    ls.find? (fun i => ((s.setLine l (some d)).line i).isNone) = ls.find? fun i => (s.line i).isNone := by
  congr 1
  funext i
  rw [State.line_setLine]
  split
  · next hi => simp [hi, hl]
  · rfl

/-- R147: FLOOK of a cached head without its tail image, where a line is free for it. -/
theorem flook_imageless {p : PktId} {x : Pkt} {w : IWord} {s : State} {m : BitVec 32} {key : List Byte} {l n : Nat}
    {c : CLine} (h : s.pickRuns p x) (hon : s.pickWarpOn x = true) (hheld : x.pick.held = none) (hkept : x.kept = none)
    (hkey : s.pickKey x (w.fn.toNat % 16) ((x.read w.src1).toNat % 2 ^ 32) = some (m, key))
    (hbusy : s.sealBusy p (s.sealOf key) = false) (hfind : s.cacheFind (s.sealOf key) = some l) (hl : s.line l = some c)
    (h2 : s.pickProfile x.pick.seq = 2) (himg : c.image = none) (hspare : x.pick.spare = none)
    (hfree : ((List.range 16).map (setBase (s.sealOf key) + ·)).find? (fun i => (s.line i).isNone) = some n) :
    ∃ t y i, exec (.flook (.pick p) w) s = .next t ∧ t.pkt? p = some y ∧ y.pick.wait = .head i ∧ i.line = l ∧
      i.rno = c.rno ∧ t.line l = some { c with pins := c.pins + 1, second := some n } ∧
      (t.line n).map (fun d => d.isSecond) = some true := by
  have hpin : s.updLine l (fun c => { c with pins := c.pins + 1 }) = s.setLine l (some { c with pins := c.pins + 1 }) := by
    simp only [State.updLine, hl]
  have hadd := State.addSecond_free (s := s.setLine l (some { c with pins := c.pins + 1 })) (who := .loom x.loom)
    ((State.find_free_setLine hl _).trans hfree) ((State.line_setLine _ _ _ _).trans (if_pos rfl))
  rw [← hpin] at hadd
  have hne : n ≠ l := by
    rintro rfl
    have hnone := List.find?_some hfree
    simp [hl] at hnone
  generalize hv : ((s.updLine l (fun c => { c with pins := c.pins + 1 })).setLine n (some CLine.second_)).setLine l
    (some { c with pins := c.pins + 1, second := some n }) = v at hadd
  have hvl : v.line l = some { c with pins := c.pins + 1, second := some n } := by
    rw [← hv, State.line_setLine, if_pos rfl]
  have hvn : v.line n = some CLine.second_ := by
    rw [← hv, State.line_setLine, if_neg hne, State.line_setLine, if_pos rfl]
  have hvp : v.pkt? p = some x := by rw [← hv, hpin]; exact h.1
  have hr := v.hbmReq_aside true true false (v.headAddr c.rno + 64) (.loom x.loom)
  obtain ⟨u, hu⟩ : ∃ u, (v.hbmReq true true false (v.headAddr c.rno + 64) (.loom x.loom)).2 = u := ⟨_, rfl⟩
  rw [hu] at hr
  have hup : u.pkt? p = some x := (hr.pkt p).trans hvp
  have hlook : ∃ z i, s.lookup p x (w.fn.toNat % 16) key none = .waits ((u.setPkt p (some z)).countLookup p false) ∧
      z.pick.wait = .head i ∧ i.line = l ∧ i.rno = c.rno := by
    simp only [State.lookup, hbusy, hkept, hfind, hl, h2, himg, hadd, State.dropSpare, hspare, State.freeSpare, hu,
      State.updPkt_some hup, Bool.false_eq_true, if_false, beq_self_eq_true, Option.isNone_none, and_self, if_true,
      reduceCtorEq]
    exact ⟨_, _, rfl, rfl, rfl, rfl⟩
  obtain ⟨z, i, hlook, hwait, hil, hir⟩ := hlook
  have hzp : (u.setPkt p (some z)).pkt? p = some z := State.pkt_setPkt _ _ _
  have hbut := (State.countLookup_alikeBut hzp false).trans (u.alikeBut_setPkt p z)
  have hline (j : Nat) : ((u.setPkt p (some z)).countLookup p false).line j = v.line j :=
    (hbut.line x j).trans (hr.line j)
  refine ⟨_, z.didLook, i, exec_wait h (exec_flook p w s) ?_, State.countLookup_pkt hzp false, hwait, hil, hir,
    (hline l).trans hvl, ?_⟩
  · simp only [flookPick, hon, hheld, hkey, hlook, Bool.not_true, Bool.false_eq_true, if_false, Option.isSome_none]
  · rw [hline n, hvn]
    rfl

/-- R144, R150: FLOOK of a key that is known nowhere. -/
theorem flook_unknown {p : PktId} {x : Pkt} {w : IWord} {s : State} {m : BitVec 32} {key : List Byte}
    (h : s.pickRuns p x) (hon : s.pickWarpOn x = true) (hheld : x.pick.held = none) (hkept : x.kept = none)
    (hkey : s.pickKey x (w.fn.toNat % 16) ((x.read w.src1).toNat % 2 ^ 32) = some (m, key))
    (hbusy : s.sealBusy p (s.sealOf key) = false) (hfind : s.cacheFind (s.sealOf key) = none)
    (hvictim : (s.victims (lineBank (setBase (s.sealOf key)))).find? (fun v => headSeal v.head == s.sealOf key) = none)
    (hcand : s.candidate (s.sealOf key) = none) :
    pickDoes (.flook (.pick p) w) s p (x.didLook.setSt (stWord stMiss)) := by
  have hlook := State.lookup_unknown (f := w.fn.toNat % 16) (create := none) hkept hbusy hfind hvictim hcand
  refine pickLeaves_alikeBut (pickLeaves_of_done h (exec_flook p w s) (addr := 0) ?_ ?_)
    (State.countLookup_alikeBut h.1 false)
  · simp only [flookPick, hon, hheld, hkey, hlook, Bool.not_true, Bool.false_eq_true, if_false, Option.isSome_none]
    exact pickSt_eq (State.countLookup_pkt h.1 false) stMiss
  · exact ((State.countLookup_alikeBut h.1 false x).now : _)

theorem fdelidle_absent {k : TaskId} {w : IWord} {s : State} (h : s.threadRuns k)
    (hno : s.warpOn = false ∨ s.isPlaced (((s.task k.val).read w.src1).toNat % 2 ^ 28) = false) :
    threadDoes (.fdelidle (.task k) w) s k { s.task k.val with stReg := stWord stAbsent } := by
  refine threadLeaves_of_done (op := 0x54) (f := fdelidleTask w k.val) h rfl (if_pos ?_) (by simp [h.1])
  obtain hoff | hoff := hno <;> rw [hoff] <;> simp

/-- Settles O9: the refusals one by one; a cached head by `State.lookup_cached` and `State.holdLine_eq`, with what
`touchHead_spec` says of it; a head without its image and an unknown key by their lookups. -/
theorem flowLookups : Obligations.FlowLookups := by
  unfold Obligations.FlowLookups
  refine ⟨⟨fun p x w s h => ?_, fun k w s h hno => fdelidle_absent h hno⟩,
    fun p x w s m key l c h hon hheld hkept hkey hbusy hfind hl => ?_,
    fun p x w s m key h hon hheld hkept hkey hbusy hfind hvictim hcand =>
      flook_unknown h hon hheld hkept hkey hbusy hfind hvictim hcand⟩
  · intro off gives badForm slots
    have hon (hno : ¬ off) : s.pickWarpOn x = true := Bool.not_eq_false _ ▸ hno
    exact ⟨fun hoff => flow_off h hoff, fun hno hheld => look_held h (hon hno) hheld,
      fun hno hheld hbad => look_no_key h (hon hno) hheld (pickKey_none hbad),
      fun hno hheld => update_no_head h (hon hno) hheld,
      fun hno hheld hop hf => fupd_refused h (hon hno) hheld hop hf⟩
  · intro w2 head arrival img u y
    obtain ⟨hhit, htime, honset, hseal, hgen⟩ := touchHead_spec c.head (!x.pick.pick2) (s.pickFlowTime x)
    refine ⟨fun himg => ?_, hhit, htime, ?_, hseal, hgen, fun h2 himg hspare n hfree =>
      flook_imageless h hon hheld hkept hkey hbusy hfind hl h2 himg hspare hfree⟩
    · have hy (code : Nat) : (x.didLook.holds l c.rno (s.heldLine x c false).head).setSt (stWord code) = y code := by
        simp only [y, Pkt.holds, Pkt.setSt, Pkt.didLook, ← h.2.2.1]
        rfl
      rw [← hy, ← hy]
      exact look_cached h hon hheld hkept hkey hbusy hfind hl himg
    · rw [honset]
      cases x.pick.pick2 <;> rfl

end Sys2Proof.Machine
end


section
/-! PROOF. FCREATE of a record that goes into the overflow area sets OVF_WARN once as many entries are in use as
OVF_STAT.WARN says (R172), and that posts an event record (R440). Event ring 0 may lie anywhere, the draft store
included: its record then rewrites the length of the draft that the pick runs, so that the pick ends with its FCREATE
and its packet, without a disposition, leaves the device (R76). -/

namespace Sys2Proof.Machine

/-- A packet of 64 zero bytes at the second word of its pick. -/
def samplePkt : Pkt :=
  { place := .running, frame := List.replicate 64 0, inPort := 0, loom := 0, shed := 0, injected := false,
    timing := false, oversize := false, fcsOk := true, bolt := 0, stamps := List.replicate 8 none,
    parseDeep := false, parseLen := false, lenPair := 0, profile := 0, steps := [], hfValid := 0, hfDirty := 0,
    hf := Vector.replicate 32 0, src := Vector.replicate 32 none, flowHash := 0, user := 0, kept := none, resv := 0,
    everEdit := false, lastEdit := false, timeAct := none, pool := none, acct := none, cells := 0, refs := 0,
    pick :=
      { seq := 0, bank := false, pick2 := false, order := 0, startNs := 0, issueNs := 0,
        g := Vector.replicate 16 0, p := 0, st := 0, pc := 1, icount := 0, disp := .none, wait := .none,
        held := none, spare := none, searched := false, cands := [], candMore := false, nextHop := none,
        stampReq := [], editSet := false, timeSet := false, looked := false } }

/-- The registers of the refutation: the Warp enabled with key form 0, no table and an overflow area of 8 entries, of
which WARN allows 0; event ring 0 of one entry at the draft store, and ERR_BIT records routed to it. -/
def overwrittenRegs : List (Nat × Word) :=
  [(Reg.warpCtl, Fld.warpCtlEnable.put 0 1), (Reg.warpKeyform 0, Fld.warpKeyformValid.put 0 1),
    (Reg.warpRegion, Fld.warpRegionBase.put 0 0x10000000000), (Reg.warpOvfCfg, Fld.warpOvfCfgCount.put 0 8),
    (Reg.warpOvfStat, 0), (Reg.ringBase 2, 0x10000000), (Reg.ringCfg 2, Fld.ringCfgSize.put 0 1),
    (Reg.hostifEvtRoute, 4)]

/-- The device of the refutation: the packet in a draft of 100 words. -/
def overwrittenDraft : State :=
  overwrittenRegs.foldl (fun s e => s.wr e.1 e.2)
    { State.reset with
      mem := [(0x10000000, 100)], pkts := [(0, some samplePkt)], nextPkt := 1,
      boot := { State.reset.boot with pcieUp := true } }

/-- An instruction word with all fields 0. -/
def zeroWord : IWord := { dest := 0, src1 := 0, src2 := 0, fn := 0, val := 0 }

/-- The seal of the packet's key. -/
def overwrittenSeal : Seal := overwrittenDraft.sealOf (keyString 0 samplePkt.hf 0 0)

theorem overwrittenDraft_runs : overwrittenDraft.pickRuns 0 samplePkt ∧
    overwrittenDraft.pickGoesOn samplePkt := by
  unfold State.pickRuns State.pickGoesOn; decide +kernel

theorem overwrittenDraft_noDigest (f : Nat) :
    overwrittenDraft.pfdigForm 0 Fld.warpFdigCtlCreateForms f = false := by
  have h : overwrittenDraft.pfld 0 Reg.warpFdigCtl Fld.warpFdigCtlCreateForms = 0 := by decide +kernel
  unfold State.pfdigForm
  rw [h]
  exact Nat.zero_testBit f

theorem overwrittenDraft_unknown : overwrittenDraft.sealBusy 0 overwrittenSeal = false ∧
    overwrittenDraft.cacheFind overwrittenSeal = none ∧
    (overwrittenDraft.victims (lineBank (setBase overwrittenSeal))).find?
      (fun v => headSeal v.head == overwrittenSeal) = none ∧
    overwrittenDraft.candidate overwrittenSeal = none := by
  decide +kernel

theorem overwrittenDraft_places :
    overwrittenDraft.place (overwrittenDraft.tableFor overwrittenSeal) overwrittenSeal = some (.overflow 0 0) ∧
    ((List.range 16).map (setBase overwrittenSeal + ·)).find? (fun i => (overwrittenDraft.line i).isNone) =
      some (setBase overwrittenSeal) := by
  decide +kernel

/-- FCREATE ends the pick, and its packet is gone. -/
theorem fcreate_overwritten : (match exec (.fcreate (.pick 0) zeroWord) overwrittenDraft with
    | .next t => (t.pkt? 0).isNone
    | _ => false) = true := by
  decide +kernel

/-- Refutes O10: the record that OVF_WARN posts may be written over the length of the pick's own draft, which ends the
pick; a packet placed in the overflow area need not be there after its FCREATE. -/
theorem not_flowRecords : ¬ Obligations.FlowRecords := by
  unfold Obligations.FlowRecords
  rintro ⟨creates, -, -⟩
  obtain ⟨runs, goesOn⟩ := overwrittenDraft_runs
  obtain ⟨busy, cache, victim, candidate⟩ := overwrittenDraft_unknown
  obtain ⟨place, free⟩ := overwrittenDraft_places
  obtain ⟨-, overflow, -⟩ := creates 0 samplePkt zeroWord overwrittenDraft 0 (keyString 0 samplePkt.hf 0 0)
    runs goesOn (by decide +kernel) rfl rfl rfl (by decide) overwrittenDraft_noDigest (by decide +kernel)
    busy cache victim candidate
  obtain ⟨t, c, y, next, -, -, -, -, there, -⟩ := overflow 0 0 _ (by decide +kernel) place free
  have gone := fcreate_overwritten
  rw [next] at gone
  simp [there] at gone

end Sys2Proof.Machine
end


section
/-! PROOF. Stage lists and the battens made of them (StagingStores). -/

namespace Sys2Proof.Machine

/-! ## Register writes of the host -/

/-- A command that writes a register, which the host reaches and no overlay holds. -/
theorem State.byWrite_taken {s : State} {a : Nat} (hr : s.hostReaches a = true) (hw : s.takesWrites a)
    (r : Except Fault State) : unlessBlocked s a (s.byWrite a r) = toOut r := by
  obtain ⟨hh, ho⟩ := hw
  simp [unlessBlocked, hr, State.byWrite, unlessHalted, hh, ho]

/-- A write that the host does not reach. -/
theorem unlessBlocked_of_not {s : State} {a : Nat} (hr : s.hostReaches a = false) (o : Out) :
    unlessBlocked s a o = .next s := by
  simp [unlessBlocked, hr]

theorem battenCmd_go (v : Word) :
    wroteOne Fld.beamBattenCmdGo v (BitVec.allOnes 64) = v.getLsbD Fld.beamBattenCmdGo.lo := by
  rw [wroteOne, BitVec.and_allOnes, Fld.get, bitsOf_eq]
  show (v.toNat / 2 ^ 0 % 2 != 0) = v.toNat.testBit 0
  rw [Nat.testBit_zero, pow_zero, Nat.div_one]
  rcases Nat.mod_two_eq_zero_or_one v.toNat with h | h <;> simp [h]

theorem State.hostPend_iff (s : State) : s.hostPend = true ↔ ∃ b ∈ s.bat.queue, b.host = true := by
  simp [State.hostPend]

/-! ## STS and BATTEN -/

section
variable {k : TaskId} {w : IWord} {s : State}

theorem exec_sts (k : TaskId) (w : IWord) (s : State) :
    exec (.sts (.task k) w) s = runTask k.val 0x03 w (stsTask w k.val) s := rfl

/-- The batten of a BATTEN in task `k`, its list left open. -/
def threadReq (k : TaskId) (w : IWord) (list : List StageEntry) : BatReq :=
  { host := false, task := k.val, wake := true, ws := w.fn.getLsbD 0, list := list }

/-- What BATTEN does in task `k`: it hands over the stage list, and the task waits. -/
def battenTask (w : IWord) (k : Nat) (_ : Task) (s : State) : TaskRes :=
  .keep ((s.threadBatten k (w.fn.getLsbD 0)).updTask k fun t => { t with wait := .batten })

theorem exec_batten (k : TaskId) (w : IWord) (s : State) :
    exec (.batten (.task k) w) s = runTask k.val 0x07 w (battenTask w k.val) s := rfl

theorem sts_full (h : s.threadRuns k) (hlen : 256 ≤ (s.task k.val).stage.length) :
    threadDoes (.sts (.task k) w) s k { s.task k.val with stReg := stWord stFull } :=
  threadLeaves_of_done h (exec_sts k w s) (by rw [stsTask, if_pos hlen]; rfl) (by simp [h.1])

theorem sts_appends (h : s.threadRuns k) (hlen : (s.task k.val).stage.length < 256)
    (hok : s.stageBad (lsAddr w (s.task k.val)) (widthOf w.fn.toNat) = none) :
    threadDoes (.sts (.task k) w) s k { s.task k.val with
      stage := (s.task k.val).stage ++ [{
        addr := lsAddr w (s.task k.val), w := w.fn.toNat % 4, data := (s.task k.val).read w.src2 }]
      stReg := stWord stOk } :=
  threadLeaves_of_done h (exec_sts k w s) (by rw [stsTask, if_neg (by omega), hok]; rfl) (by simp [h.1])

theorem sts_undefined {u : Nat} (h : s.threadRuns k) (hlen : (s.task k.val).stage.length < 256)
    (hbad : s.stageBad (lsAddr w (s.task k.val)) (widthOf w.fn.toNat) = some u) :
    exec (.sts (.task k) w) s = .fault (.undefinedBehaviour u) :=
  fault_of_undef h (exec_sts k w s) (by rw [stsTask, if_neg (by omega), hbad])

/-- BATTEN where thread battens have a place: the batten takes the task's list with it. -/
theorem batten_placed (h : s.threadRuns k) (hroom : s.threadBattens < 63) : becomes (.batten (.task k) w) s
    ((s.pushBatten (threadReq k w (s.task k.val).stage)).setTask k.val
      { s.task k.val with stage := [], wait := .batten }) := by
  have hst : (s.task k.val).st = .running := h.1
  have hf : battenTask w k.val (s.task k.val) s = .keep ((s.pushBatten (threadReq k w (s.task k.val).stage)).setTask
      k.val { s.task k.val with stage := [], wait := .batten }) := by
    rw [battenTask, State.threadBatten, if_pos hroom]
    exact congrArg TaskRes.keep (State.updTask_setTask (s.pushBatten (threadReq k w (s.task k.val).stage)) k.val
      (t := { s.task k.val with stage := [] }) (fun t => { t with wait := .batten }) (by simp [hst]) (by simp [hst]))
  have hb := becomes_of_keep h (exec_batten k w s) hf
  rwa [State.noteWait_running (by simp [hst])] at hb

/-- BATTEN where they have none: the batten waits for one. -/
theorem batten_waits (h : s.threadRuns k) (hfull : 63 ≤ s.threadBattens) : becomes (.batten (.task k) w) s
    ({ s with bat := { s.bat with waiting := s.bat.waiting ++ [threadReq k w []] } }.setTask k.val
      { s.task k.val with wait := .batten }) := by
  have hf : battenTask w k.val (s.task k.val) s = .keep
      ({ s with bat := { s.bat with waiting := s.bat.waiting ++ [threadReq k w []] } }.setTask k.val
        { s.task k.val with wait := .batten }) := by
    rw [battenTask, State.threadBatten, if_neg (by omega)]
    rfl
  have hb := becomes_of_keep h (exec_batten k w s) hf
  rwa [State.noteWait_running (by simp [h.1])] at hb

end

/-! ## The host's list -/

section
variable {v : Word} {s : State}

theorem hstage_full (hfull : 256 ≤ s.bat.hstage.length) : s.hstageWrite v (BitVec.allOnes 64) =
    .ok (s.setF Reg.beamHstageStat Fld.beamHstageStatFull 1) := by
  simp [State.hstageWrite, hfull]

theorem hstage_appends (hlen : s.bat.hstage.length < 256)
    (hok : s.stageBad (s.fld Reg.beamHstageAddr Fld.beamHstageAddrAddr)
      (widthOf (s.fld Reg.beamHstageAddr Fld.beamHstageAddrW)) = none) :
    s.hstageWrite v (BitVec.allOnes 64) = .ok { s with bat := { s.bat with hstage := s.bat.hstage ++ [{
      addr := s.fld Reg.beamHstageAddr Fld.beamHstageAddrAddr
      w := s.fld Reg.beamHstageAddr Fld.beamHstageAddrW, data := v }] } } := by
  simp [State.hstageWrite, hok, show ¬ 256 ≤ s.bat.hstage.length by omega]

theorem hstage_undefined {u : Nat} (hlen : s.bat.hstage.length < 256)
    (hbad : s.stageBad (s.fld Reg.beamHstageAddr Fld.beamHstageAddrAddr)
      (widthOf (s.fld Reg.beamHstageAddr Fld.beamHstageAddrW)) = some u) :
    s.hstageWrite v (BitVec.allOnes 64) = .error (.undefinedBehaviour u) := by
  simp [State.hstageWrite, hbad, show ¬ 256 ≤ s.bat.hstage.length by omega]

theorem battenCmd_queues (hgo : v.getLsbD Fld.beamBattenCmdGo.lo = true) (hfree : s.hostPend = false) :
    s.battenCmdWrite v (BitVec.allOnes 64) =
      s.pushBatten { host := true, task := 0, wake := false, ws := true, list := [] } := by
  rw [State.battenCmdWrite, battenCmd_go, hgo, hfree]; rfl

theorem battenCmd_ignored (hidle : v.getLsbD Fld.beamBattenCmdGo.lo = false ∨ s.hostPend = true) :
    s.battenCmdWrite v (BitVec.allOnes 64) = s := by
  rw [State.battenCmdWrite, battenCmd_go, if_neg]
  rcases hidle with hgo | hpend
  · simp [hgo]
  · simp [hpend]

end

/-- Settles O13: the outcomes of STS and BATTEN by the length of the task's list and the thread battens queued, those of
the host's two writes by whether they reach the device and take effect. -/
theorem stagingStores : Obligations.StagingStores := by
  unfold Obligations.StagingStores
  refine ⟨fun k w s h => ⟨sts_full h, sts_appends h, fun u => sts_undefined h, batten_placed h, batten_waits h⟩,
    fun v s => ⟨fun hr => unlessBlocked_of_not hr _, fun hr => unlessBlocked_of_not hr _,
      fun hr hr' ht ht' => ⟨fun hfull => ?_, fun hlen hok => ?_, fun u hlen hbad => ?_, ?_, ?_⟩⟩⟩
  · exact (State.byWrite_taken hr ht _).trans (by rw [hstage_full hfull]; rfl)
  · exact (State.byWrite_taken hr ht _).trans (by rw [hstage_appends hlen hok]; rfl)
  · exact (State.byWrite_taken hr ht _).trans (by rw [hstage_undefined hlen hbad]; rfl)
  · rintro ⟨hgo, hpend⟩
    rw [← State.hostPend_iff, Bool.not_eq_true] at hpend
    exact (State.byWrite_taken hr' ht' _).trans (by rw [battenCmd_queues hgo hpend]; rfl)
  · intro hidle
    rw [← State.hostPend_iff, Bool.not_eq_true] at hidle
    exact (State.byWrite_taken hr' ht' _).trans (by rw [battenCmd_ignored hidle]; rfl)

end Sys2Proof.Machine
end


section
/-! PROOF. Event flags, YIELD, and the queues of threads (EventsAndQueues). -/

namespace Sys2Proof.Machine

/-! ## Tasks that wait -/

/-- A task that begins to wait is BLOCKED, in the wait. -/
theorem State.blockTask_task (s : State) (k : Nat) (wt : TaskWait) :
    (s.blockTask k wt).task k = { s.task k with st := .blocked, wait := wt, ctx := none } :=
  (s.updTask_leaveCtx_task k k _).trans (if_pos rfl)

/-- A meaning that blocks its thread. -/
theorem threadWaits_of_keep {c : Instr} {s u : State} {k : TaskId} {f : Task → State → TaskRes} {op : Nat} {w : IWord}
    {wt : TaskWait} (h : s.threadRuns k) (hc : exec c s = runTask k.val op w f s)
    (hf : f (s.task k.val) s = .keep (u.blockTask k.val wt)) : threadWaits c s k op w u wt := by
  have hb := becomes_of_keep h hc hf
  rwa [State.noteWait, if_pos (by rw [State.blockTask_task])] at hb

theorem evReady_iff (flags m : BitVec 32) (all : Bool) :
    evReady flags m all = true ↔ if all then flags &&& m = m else flags &&& m ≠ 0 := by
  cases all <;> simp [evReady]

/-! ## WAITEV -/

section
variable {k : TaskId} {w : IWord} {s : State}

theorem exec_waitev (k : TaskId) (w : IWord) (s : State) :
    exec (.waitev (.task k) w) s = runTask k.val 0x92 w (waitevTask w k.val) s := rfl

/-- A thread's instruction that gives a value and a code. -/
theorem threadGives {c : Instr} {op code : Nat} {v : Word} {d : BitVec 6} {u : State} {f : Task → State → TaskRes}
    (h : s.threadRuns k) (hc : exec c s = runTask k.val op w f s)
    (hf : f (s.task k.val) s = u.giveTask k.val d v code) (hu : u.task k.val = s.task k.val) :
    threadLeaves c s k u { (s.task k.val).write d v with stReg := stWord code } :=
  threadLeaves_of_done h hc (hf.trans (by rw [State.giveTask, State.updTask, hu]; rfl)) (by simp [h.1])

/-- A thread's instruction that gives a code alone. -/
theorem threadCodes {c : Instr} {op code : Nat} {u : State} {f : Task → State → TaskRes}
    (h : s.threadRuns k) (hc : exec c s = runTask k.val op w f s)
    (hf : f (s.task k.val) s = u.codeTask k.val code) (hu : u.task k.val = s.task k.val) :
    threadLeaves c s k u { s.task k.val with stReg := stWord code } :=
  threadLeaves_of_done h hc (hf.trans (by rw [State.codeTask, State.updTask, hu]; rfl)) (by simp [h.1])

/-- The flags a WAITEV asks for. -/
def waitevMask (w : IWord) (t : Task) : BitVec 32 := (t.read w.src1).setWidth 32

theorem waitev_nothing (h : s.threadRuns k) (hm : waitevMask w (s.task k.val) = 0) :
    threadDoes (.waitev (.task k) w) s k { (s.task k.val).write w.dest 0 with stReg := stWord stOk } :=
  threadGives h (exec_waitev k w s) (if_pos hm) rfl

theorem waitev_ready (h : s.threadRuns k) (hm : waitevMask w (s.task k.val) ≠ 0)
    (hr : evReady (s.task k.val).flags (waitevMask w (s.task k.val)) (w.fn.getLsbD 0) = true) :
    threadDoes (.waitev (.task k) w) s k {
      (s.task k.val).write w.dest (((s.task k.val).flags &&& waitevMask w (s.task k.val)).setWidth 64) with
      stReg := stWord stOk
      flags := if w.fn.getLsbD 1 then (s.task k.val).flags &&& ~~~ waitevMask w (s.task k.val)
        else (s.task k.val).flags } :=
  threadLeaves_of_done h (exec_waitev k w s) ((if_neg hm).trans (if_pos hr)) (by simp [h.1])

theorem waitev_misses (h : s.threadRuns k) (hm : waitevMask w (s.task k.val) ≠ 0)
    (hr : ¬ evReady (s.task k.val).flags (waitevMask w (s.task k.val)) (w.fn.getLsbD 0) = true) (hv : w.val = 0) :
    threadDoes (.waitev (.task k) w) s k { (s.task k.val).write w.dest 0 with stReg := stWord stMiss } :=
  threadGives h (exec_waitev k w s) ((if_neg hm).trans ((if_neg hr).trans (if_pos hv))) rfl

theorem waitev_waits (h : s.threadRuns k) (hm : waitevMask w (s.task k.val) ≠ 0)
    (hr : ¬ evReady (s.task k.val).flags (waitevMask w (s.task k.val)) (w.fn.getLsbD 0) = true) (hv : w.val ≠ 0) :
    threadWaits (.waitev (.task k) w) s k 0x92 w s (.event (waitevMask w (s.task k.val)) (w.fn.getLsbD 0)
      (w.fn.getLsbD 1) w.dest (if w.val = 0xFFFFFFFF then none else some (s.taskNow k.val + 1000 * w.val.toNat))) :=
  threadWaits_of_keep h (exec_waitev k w s) ((if_neg hm).trans ((if_neg hr).trans (if_neg hv)))

end

theorem waitevTimeout_at {k : TaskId} {s : State} {m : BitVec 32} {all clear : Bool} {dest : BitVec 6} {t : Nat}
    (hh : s.halted = false) (hw : (s.task k.val).wait = .event m all clear dest (some t)) :
    exec (.waitevTimeout k) s = if s.taskNow k.val < t then .next s
      else .next (s.wakeTask k.val fun t => { t.write dest 0 with stReg := stWord stMiss }) := by
  show execWaitevTimeout k s = _
  simp only [execWaitevTimeout, unlessHalted, hh, hw, Bool.false_eq_true, if_false]
  rfl

/-! ## SIGNAL -/

@[simp] theorem State.task_pushReady (s : State) (k j : Nat) : (s.pushReady k).task j = s.task j := rfl

theorem State.wakeTask_task (s : State) (k : Nat) (f : Task → Task) :
    (s.wakeTask k f).task k = { (f (s.task k)).step with wait := .none, st := .ready } := by
  rw [State.wakeTask, State.task_pushReady, State.task_setTask]

theorem State.wakeTask_task_other (s : State) {k j : Nat} (f : Task → Task) (h : j ≠ k) :
    (s.wakeTask k f).task j = s.task j := by
  rw [State.wakeTask, State.task_pushReady, State.task_setTask_other _ _ _ h]

theorem State.activateByFlag_task (s : State) (k : Nat) : (s.activateByFlag k).task k =
    { s.task k with
      st := .ready, deadline := none, flagRound := true, acts := ((s.task k).acts + 1) % 2 ^ 32 } := by
  rw [State.activateByFlag, State.task_pushReady, State.updTask, State.task_setTask]

theorem State.activateByFlag_task_other (s : State) {k j : Nat} (h : j ≠ k) :
    (s.activateByFlag k).task j = s.task j := by
  rw [State.activateByFlag, State.task_pushReady, State.updTask, State.task_setTask_other _ _ _ h]

/-- A signal touches the task it is for alone. -/
theorem State.signal_task_other (s : State) {j i : Nat} (m : BitVec 32) (h : i ≠ j) :
    (s.signal j m).task i = s.task i := by
  have hset (t : Task) : (s.setTask j t).task i = s.task i := State.task_setTask_other _ _ _ h
  unfold State.signal
  dsimp only
  split
  · rfl
  · split
    · split
      · exact (State.wakeTask_task_other _ _ h).trans (hset _)
      · exact hset _
    · split
      · exact (State.activateByFlag_task_other _ h).trans (hset _)
      · exact hset _

/-- Flags for a task that neither waits nor sleeps are kept. -/
theorem State.signal_task_kept {s : State} {j : Nat} (m : BitVec 32) (hst : (s.task j).st ≠ .free)
    (hw : (s.task j).wait = .none) (hd : (s.task j).st ≠ .dormant) :
    (s.signal j m).task j = { s.task j with flags := (s.task j).flags ||| m } := by
  unfold State.signal
  simp only [hst, hw, hd, if_false, false_and]
  exact State.task_setTask _ _ _

/-- Flags that a WAITEV waits for end it. -/
theorem State.signal_task_woken {s : State} {j : Nat} (m : BitVec 32) (hst : (s.task j).st ≠ .free)
    {mk : BitVec 32} {all clear : Bool} {dest : BitVec 6} {u : Option Nat}
    (hw : (s.task j).wait = .event mk all clear dest u) (hr : evReady ((s.task j).flags ||| m) mk all = true) :
    ((s.signal j m).task j).st = .ready ∧ ((s.signal j m).task j).wait = .none ∧
      ((s.signal j m).task j).stReg = stWord stOk := by
  unfold State.signal
  simp only [hst, hw, hr, if_false, if_true, State.wakeTask_task, true_and]
  rfl

/-- A flag of START_MASK starts a DORMANT task. -/
theorem State.signal_task_started {s : State} {j : Nat} (m : BitVec 32) (hw : (s.task j).wait = .none)
    (hd : (s.task j).st = .dormant)
    (hm : ((s.task j).flags ||| m) &&& (s.taskWord j 1).extractLsb' 32 32 ≠ 0) :
    ((s.signal j m).task j).st = .ready ∧ ((s.signal j m).task j).deadline = none := by
  have hword (t : Task) : (s.setTask j t).taskWord j 1 = s.taskWord j 1 := rfl
  unfold State.signal
  simp only [hw, hd, hword, reduceCtorEq, if_false, hm, ne_eq, not_false_eq_true, and_self, if_true,
    State.activateByFlag_task]

section
variable {k : TaskId} {w : IWord} {s : State}

/-- What SIGNAL does in task `k`. -/
def signalTask (w : IWord) (k : Nat) (t : Task) (s : State) : TaskRes :=
  if (s.task ((t.read w.src1).toNat % 4096)).st = .free then s.codeTask k stAbsent
  else (s.signal ((t.read w.src1).toNat % 4096) ((t.read w.src2).setWidth 32)).codeTask k stOk

theorem exec_signal (k : TaskId) (w : IWord) (s : State) :
    exec (.signal (.task k) w) s = runTask k.val 0x93 w (signalTask w k.val) s := rfl

theorem signal_absent (h : s.threadRuns k)
    (hf : (s.task (((s.task k.val).read w.src1).toNat % 4096)).st = .free) :
    threadDoes (.signal (.task k) w) s k { s.task k.val with stReg := stWord stAbsent } :=
  threadCodes h (exec_signal k w s) (if_pos hf) rfl

theorem signal_other (h : s.threadRuns k) {j : Nat} (hj : ((s.task k.val).read w.src1).toNat % 4096 = j)
    (hf : (s.task j).st ≠ .free) (hjk : j ≠ k.val) :
    ∃ t, exec (.signal (.task k) w) s = .next t ∧
      t.task k.val = { s.task k.val with stReg := stWord stOk }.step ∧
      t.task j = (s.signal j (((s.task k.val).read w.src2).setWidth 32)).task j := by
  subst hj
  obtain ⟨t, ht, ha⟩ := threadCodes h (exec_signal k w s) (if_neg hf) (State.signal_task_other _ _ hjk.symm)
  exact ⟨t, ht, (ha.task _).trans (State.task_setTask _ _ _),
    (ha.task _).trans (State.task_setTask_other _ _ _ hjk)⟩

/-! ## YIELD -/

/-- What YIELD does in task `k`. -/
def yieldTask (k : Nat) (_ : Task) (s : State) : TaskRes :=
  .keep (((s.leaveCtx k).updTask k fun t => { t.step with st := .ready }).pushReady k)

theorem exec_yield (k : TaskId) (w : IWord) (s : State) :
    exec (.yield (.task k) w) s = runTask k.val 0x94 w (yieldTask k.val) s := rfl

theorem yield_yields (h : s.threadRuns k) : ∃ t, exec (.yield (.task k) w) s = .next t ∧
    t.task k.val = { (s.task k.val).step with st := .ready, ctx := none } ∧ t.spin.ready = s.spin.ready ++ [k.val] ∧
    (∀ j, j ≠ k.val → t.task j = s.task j) ∧ t.mem = s.mem := by
  obtain ⟨t, ht, ha⟩ := becomes_of_keep h (exec_yield k w s) rfl
  have htask (j : Nat) := s.updTask_leaveCtx_task k.val j fun t => { t.step with st := .ready }
  have hk := (htask k.val).trans (if_pos rfl)
  rw [State.noteWait_running (by exact (congrArg Task.st hk).trans_ne (by simp))] at ha
  obtain ⟨ts, g, hleave⟩ := s.leaveCtx_only k.val
  refine ⟨t, ht, (ha.task _).trans hk, ?_, fun j hj => (ha.task _).trans ((htask j).trans (if_neg hj)), ?_⟩
  · refine (congrArg (fun u : State => u.spin.ready) ha.1).trans ?_
    rw [hleave]; rfl
  · refine (congrArg State.mem ha.1).trans ?_
    rw [hleave]; rfl

/-! ## Queues -/

@[simp] theorem State.squeue_setSqueue (s : State) (q : Nat) (x : SQueue) : (s.setSqueue q x).squeue q = x :=
  Tbl.get_set_same _ _ _ _

/-- What QPUT does in task `k`. -/
def qputTask (w : IWord) (k : Nat) (t : Task) (s : State) : TaskRes :=
  match s.tryPut ((t.read w.src1).toNat % 256) (t.read w.src2) with
  | some s => s.codeTask k stOk
  | none =>
    if !w.fn.getLsbD 0 then s.codeTask k stRefused
    else
      let q := (t.read w.src1).toNat % 256
      let x := s.squeue q
      .keep ((s.setSqueue q { x with putters := x.putters ++ [(k, t.read w.src2)] }).blockTask k
        (.qput q (t.read w.src2)))

theorem exec_qput (k : TaskId) (w : IWord) (s : State) :
    exec (.qput (.task k) w) s = runTask k.val 0x95 w (qputTask w k.val) s := rfl

theorem exec_qget (k : TaskId) (w : IWord) (s : State) :
    exec (.qget (.task k) w) s = runTask k.val 0x96 w (qgetTask w k.val) s := rfl

theorem State.queueNotify_off {s : State} {q : Nat} (h : s.flag (Reg.spinQCfg q) Fld.spinQCfgNotifyEn = false) :
    s.queueNotify q = s := by
  rw [State.queueNotify, h]; rfl

/-- A put into a queue with room that no QGET waits for. -/
theorem State.tryPut_room {s : State} {q : Nat} (v : Word)
    (hn : s.flag (Reg.spinQCfg q) Fld.spinQCfgNotifyEn = false) (hg : (s.squeue q).getters = [])
    (hroom : (s.squeue q).entries.length < s.qDepth q) : s.tryPut q v =
      some (s.setSqueue q { s.squeue q with entries := (s.squeue q).entries ++ [(v, none)] }) := by
  simp only [State.tryPut, hg, hroom, if_true]
  rw [State.queueNotify_off (by exact hn)]

theorem State.tryPut_full {s : State} {q : Nat} (v : Word) (hg : (s.squeue q).getters = [])
    (hfull : s.qDepth q ≤ (s.squeue q).entries.length) : s.tryPut q v = none := by
  simp only [State.tryPut, hg, Nat.not_lt.mpr hfull, if_false]

/-- A put that the oldest waiting QGET takes. -/
theorem State.tryPut_getter {s : State} {q g : Nat} {gs : List Nat} {dest : BitVec 6} (v : Word)
    (hn : s.flag (Reg.spinQCfg q) Fld.spinQCfgNotifyEn = false) (hg : (s.squeue q).getters = g :: gs)
    (hw : (s.task g).wait = .qget q dest) : s.tryPut q v =
      some ((s.setSqueue q { s.squeue q with getters := gs }).wakeTask g fun t =>
        { t.write dest v with stReg := stWord stOk }) := by
  have hwait (x : SQueue) : ((s.setSqueue q x).task g).wait = .qget q dest := hw
  simp only [State.tryPut, hg, hwait]
  rw [State.queueNotify_off (by exact hn)]
  rfl

theorem State.admitPutter_none {s : State} {q : Nat} (h : (s.squeue q).putters = []) : s.admitPutter q = s := by
  simp only [State.admitPutter, h]

theorem qput_room (h : s.threadRuns k) {q : Nat} (hq : ((s.task k.val).read w.src1).toNat % 256 = q)
    (hn : s.flag (Reg.spinQCfg q) Fld.spinQCfgNotifyEn = false) (hg : (s.squeue q).getters = [])
    (hroom : (s.squeue q).entries.length < s.qDepth q) : threadLeaves (.qput (.task k) w) s k
      (s.setSqueue q { s.squeue q with
        entries := (s.squeue q).entries ++ [((s.task k.val).read w.src2, none)] })
      { s.task k.val with stReg := stWord stOk } := by
  subst hq
  exact threadCodes h (exec_qput k w s) (by rw [qputTask, State.tryPut_room _ hn hg hroom]) rfl

theorem qput_refused (h : s.threadRuns k) {q : Nat} (hq : ((s.task k.val).read w.src1).toNat % 256 = q)
    (hg : (s.squeue q).getters = []) (hfull : s.qDepth q ≤ (s.squeue q).entries.length)
    (hw : w.fn.getLsbD 0 = false) :
    threadDoes (.qput (.task k) w) s k { s.task k.val with stReg := stWord stRefused } := by
  subst hq
  exact threadCodes h (exec_qput k w s) (by rw [qputTask, State.tryPut_full _ hg hfull, hw]; rfl) rfl

theorem qput_waits (h : s.threadRuns k) {q : Nat} (hq : ((s.task k.val).read w.src1).toNat % 256 = q)
    (hg : (s.squeue q).getters = []) (hfull : s.qDepth q ≤ (s.squeue q).entries.length)
    (hw : w.fn.getLsbD 0 = true) : threadWaits (.qput (.task k) w) s k 0x95 w
      (s.setSqueue q { s.squeue q with
        putters := (s.squeue q).putters ++ [(k.val, (s.task k.val).read w.src2)] })
      (.qput q ((s.task k.val).read w.src2)) := by
  subst hq
  exact threadWaits_of_keep h (exec_qput k w s) (by rw [qputTask, State.tryPut_full _ hg hfull, hw]; rfl)

theorem qput_taken (h : s.threadRuns k) {q g : Nat} {gs : List Nat} {dest : BitVec 6}
    (hq : ((s.task k.val).read w.src1).toNat % 256 = q)
    (hn : s.flag (Reg.spinQCfg q) Fld.spinQCfgNotifyEn = false) (hg : (s.squeue q).getters = g :: gs)
    (hgk : g ≠ k.val) (hw : (s.task g).wait = .qget q dest) : becomes (.qput (.task k) w) s
      (((s.setSqueue q { s.squeue q with getters := gs }).wakeTask g fun t =>
        { t.write dest ((s.task k.val).read w.src2) with stReg := stWord stOk }).updTask k.val fun t =>
          { t with stReg := stWord stOk }.step) := by
  subst hq
  have hput := State.tryPut_getter ((s.task k.val).read w.src2) hn hg hw
  rw [State.updTask, State.wakeTask_task_other _ _ hgk.symm]
  exact threadCodes h (exec_qput k w s) (by rw [qputTask, hput]) (State.wakeTask_task_other _ _ hgk.symm)

theorem qget_entry (h : s.threadRuns k) {q : Nat} (hq : ((s.task k.val).read w.src1).toNat % 256 = q)
    {e : Word × Option (List Byte)} {es : List (Word × Option (List Byte))} (h255 : q ≠ 255)
    (he : (s.squeue q).entries = e :: es) (hp : (s.squeue q).putters = []) :
    threadLeaves (.qget (.task k) w) s k (s.setSqueue q { s.squeue q with entries := es })
      { (s.task k.val).write w.dest e.1 with stReg := stWord stOk } := by
  subst hq
  refine threadGives h (exec_qget k w s) ?_ rfl
  simp only [qgetTask, h255, if_false, he]
  rw [State.admitPutter_none (by rw [State.squeue_setSqueue]; exact hp)]

/-- A QGET that may not wait finds nothing in an empty queue, and nothing in queue 255. -/
theorem qget_nothing (h : s.threadRuns k) {q : Nat} (hq : ((s.task k.val).read w.src1).toNat % 256 = q)
    (hempty : q = 255 ∨ (s.squeue q).entries = [] ∧ (s.squeue q).putters = []) (hw : w.fn.getLsbD 0 = false) :
    threadDoes (.qget (.task k) w) s k { (s.task k.val).write w.dest 0 with stReg := stWord stMiss } := by
  subst hq
  refine threadGives h (exec_qget k w s) ?_ rfl
  unfold qgetTask
  by_cases h255 : ((s.task k.val).read w.src1).toNat % 256 = 255
  · simp only [h255, if_true, hw, Bool.not_false]
  · obtain ⟨he, hp⟩ := hempty.resolve_left h255
    simp only [h255, if_false, he, hp, hw, Bool.not_false, if_true]

theorem qget_waits (h : s.threadRuns k) {q : Nat} (hq : ((s.task k.val).read w.src1).toNat % 256 = q)
    (h255 : q ≠ 255) (he : (s.squeue q).entries = []) (hp : (s.squeue q).putters = [])
    (hw : w.fn.getLsbD 0 = true) : threadWaits (.qget (.task k) w) s k 0x96 w
      (s.setSqueue q { s.squeue q with getters := (s.squeue q).getters ++ [k.val] }) (.qget q w.dest) := by
  subst hq
  refine threadWaits_of_keep h (exec_qget k w s) ?_
  simp only [qgetTask, h255, if_false, he, hp, hw, Bool.not_true, Bool.false_eq_true]

theorem qget_device (h : s.threadRuns k) {q : Nat} (hq : ((s.task k.val).read w.src1).toNat % 256 = q)
    (h255 : q = 255) (hw : w.fn.getLsbD 0 = true) :
    threadWaits (.qget (.task k) w) s k 0x96 w s (.qget q w.dest) := by
  subst hq
  refine threadWaits_of_keep h (exec_qget k w s) ?_
  simp only [qgetTask, h255, if_true, hw, Bool.not_true, Bool.false_eq_true, if_false]

end

/-- Settles O15: WAITEV by whether its flags are there, SIGNAL by what its task does, QPUT and QGET by what stands in
the queue and who waits at it. -/
theorem eventsAndQueues : Obligations.EventsAndQueues := by
  unfold Obligations.EventsAndQueues
  refine ⟨⟨fun k w s h => ?_, fun k s m all clear dest t hh hw => ?_, fun k w s h => ?_, fun k w s h => yield_yields h⟩,
    fun k w s h => ?_⟩
  · intro T m all clear ready until_
    have hready := evReady_iff T.flags m all
    exact ⟨waitev_nothing h, fun hm hr => waitev_ready h hm (hready.mpr hr),
      fun hm hr => waitev_misses h hm fun he => hr (hready.mp he),
      fun hm hr => waitev_waits h hm fun he => hr (hready.mp he)⟩
  · rw [waitevTimeout_at hh hw]
    exact ⟨fun hpast => if_neg (by omega), fun hbefore => if_pos hbefore⟩
  · intro T j m
    refine ⟨signal_absent h, fun hf hjk => ?_⟩
    obtain ⟨t, ht, hk, hj⟩ := signal_other (j := j) h rfl hf hjk
    refine ⟨t, ht, hk, ?_⟩
    rw [hj]
    exact ⟨State.signal_task_kept m hf, fun mk all clear dest u => State.signal_task_woken m hf,
      State.signal_task_started m⟩
  · intro T q v x wait hn
    exact ⟨qput_room h rfl hn, qput_refused h rfl, qput_waits h rfl,
      fun g gs dest hg hgk hw => qput_taken h rfl hn hg hgk hw,
      fun e es h255 he hp => qget_entry h rfl h255 he hp, fun he hp hw => qget_nothing h rfl (.inr ⟨he, hp⟩) hw,
      qget_waits h rfl, fun h255 hw => qget_nothing h rfl (.inl h255) hw, qget_device h rfl⟩

end Sys2Proof.Machine
end


section
/-! PROOF. DMA, its completion, and a copy within host memory (DmaCopies). -/

namespace Sys2Proof.Machine

/-! ## DMA -/

section
variable {k : TaskId} {w : IWord} {s : State}

/-- The address of a DMA descriptor. -/
def descAddr (w : IWord) (t : Task) : Nat := (t.read w.src1).toNat % 2 ^ 48

/-- The copy that a descriptor's bytes ask for. -/
def descReq (w : IWord) (k : Nat) (t : Task) (bytes : List Byte) : DmaReq :=
  { task := k, desc := descAddr w t, src := ofLE (slice bytes 0 6), dst := ofLE (slice bytes 8 6)
    len := ofLE (slice bytes 16 4), flags := ofLE (slice bytes 20 4), waits := w.fn.getLsbD 0 }

theorem exec_dma (k : TaskId) (w : IWord) (s : State) :
    exec (.dma (.task k) w) s = runTask k.val 0x97 w (dmaTask w k.val) s := rfl

/-- What DMA does once its descriptor, which is `r`, has been read. -/
def State.takeDma (s : State) (k : Nat) (core : Nat) (r : DmaReq) : TaskRes :=
  if 16777216 < r.len then s.codeTask k stRefused
  else if 64 ≤ (s.dmaQueue core).length then s.codeTask k stFull
  else if r.len = 0 then (s.dmaEnd { r with waits := false } 0 stOk).codeTask k stOk
  else if overlap r.src r.dst r.len then .undef 5
  else if r.waits then .keep ((s.updDma core fun l => l ++ [r]).blockTask k .dma)
  else (s.updDma core fun l => l ++ [r]).codeTask k stOk

theorem dmaTask_held {b : Nat} (hb : s.accessHeld (descAddr w (s.task k.val)) 32 = some b) :
    dmaTask w k.val (s.task k.val) s = .hold (s.hbmWake b) := by
  rw [dmaTask, ← descAddr, hb]

theorem dmaTask_read {d : ReadRes} (hh : s.accessHeld (descAddr w (s.task k.val)) 32 = none)
    (hd : s.busRead (.task k.val) (descAddr w (s.task k.val)) 32 = .ok d) (hunc : d.unc = false) :
    dmaTask w k.val (s.task k.val) s =
      d.st.takeDma k.val (s.task k.val).core (descReq w k.val (s.task k.val) d.bytes) := by
  rw [dmaTask, ← descAddr, hh]
  simp only [hd, hunc, Bool.false_eq_true, if_false]
  rfl

end

/-! ## The end of a copy -/

/-- R64: the end of a copy leaves the queues of copies. -/
theorem State.dmaEnd_aside (s : State) (r : DmaReq) (moved code : Nat) : (s.dmaEnd r moved code).aside s := by
  unfold State.dmaEnd
  extract_lets u v
  have hu : u.aside s := .ite (s.poke_aside _ _) (.refl s)
  have hv : v.aside s := (State.aside.ite (u.signal_aside _ _) (.refl u)).trans hu
  exact .ite ((v.wakeTask_aside _ _).trans hv) hv

section
variable {core : Fin 32} {errs : List SymErr} {s : State}

theorem exec_dmaComplete (core : Fin 32) (errs : List SymErr) (s : State) :
    exec (.dmaComplete core errs) s = execDmaComplete core errs s := rfl

theorem dmaComplete_empty (hq : s.dmaQueue core.val = []) : exec (.dmaComplete core errs) s = .next s := by
  rw [exec_dmaComplete, execDmaComplete, hq]

variable {r : DmaReq} {rest : List DmaReq} (hh : s.halted = false) (hq : s.dmaQueue core.val = r :: rest)
include hh hq

theorem dmaComplete_held {a : Nat} (ha : s.copyHeld r.src r.len = some a) :
    exec (.dmaComplete core errs) s = .next (s.hbmWake a) := by
  rw [exec_dmaComplete, execDmaComplete, hq]
  simp [hh, ha]

theorem dmaComplete_runs {x : CopyRes} (ha : s.copyHeld r.src r.len = none)
    (hx : (if inHbm r.src then s.spoil (hbmLine r.src) errs else s).copy (.task r.task) r.src r.dst r.len = .ok x) :
    exec (.dmaComplete core errs) s = .next ((x.st.updDma core.val fun _ => rest).dmaEnd r x.moved x.code) := by
  rw [exec_dmaComplete, execDmaComplete, hq]
  simp [hh, ha, hx]

end

/-! ## A copy of one piece in host memory -/

section
variable {s : State} {k src dst len : Nat}

theorem State.lockedAgainst_none (hlock : s.spin.lock = []) : s.lockedAgainst k dst = false := by
  unfold State.lockedAgainst State.lockOf
  rw [hlock]
  split
  · rfl
  · rfl

theorem inHost_of_region {a : Nat} (h : regionOf a = .host) : inHost a = true := by
  unfold regionOf at h
  split_ifs at h with hwin hdie hhbm hhost
  exact hhost

theorem State.readPiece_host (who : EvMaster) (hr : regionOf src = .host) (hup : s.boot.pcieUp = true) :
    s.readPiece who src len = .ok ⟨s.bytes src len, false, s⟩ := by
  simp [State.readPiece, hr, State.peek, regionOf_host hr, hup]

theorem State.poke_host (bs : List Byte) (hr : regionOf dst = .host) (hup : s.boot.pcieUp = true) :
    s.poke dst bs = s.setBytes dst bs := by
  simp [State.poke, regionOf_host hr, hup]

/-- A copy of 0 bytes is done. -/
theorem State.copyRun_done (s : State) (who : EvMaster) (n src dst moved : Nat) :
    s.copyRun who n src dst 0 moved = .ok ⟨s, moved, stOk⟩ := by
  cases n <;> simp [State.copyRun]

theorem copyChunk_host (hsrc : regionOf src = .host) (hdst : regionOf dst = .host) (hs : src % 64 + len ≤ 64)
    (hd : dst % 64 + len ≤ 64) : copyChunk src dst len = len := by
  simp only [copyChunk, hsrc, hdst, reduceCtorEq, or_self, if_false]
  omega

theorem State.inOverlay_none (hcur : s.bat.cur = none) (a n : Nat) : s.inOverlay a n = false := by
  simp [State.inOverlay, State.memInOverlay, State.regInOverlay, hcur]

/-- R64: a copy of one piece of host memory stores the bytes of its source, and is counted. -/
theorem State.copy_host (hlen : 0 < len) (hs : src % 64 + len ≤ 64) (hd : dst % 64 + len ≤ 64)
    (hsrc : regionOf src = .host) (hdst : regionOf dst = .host) (hup : s.boot.pcieUp = true)
    (hcur : s.bat.cur = none) (hdma : s.spin.dma = []) (hlock : s.spin.lock = []) :
    ∃ e, s.copy (.task k) src dst len = .ok ⟨(s.setBytes dst (s.bytes src len)).event e, len, stOk⟩ := by
  have hwrite : s.writePiece (.task k) dst (s.bytes src len) = .ok (s.setBytes dst (s.bytes src len)) := by
    rw [State.writePiece_host (State.inOverlay_none hcur _ _) (State.inDescriptor_of_no_dma hdma _ _) hdst,
      State.poke_host _ hdst hup]
  refine ⟨{ kind := 8, weight := len, priv := 1, master := .task k, addr := some dst, cls := none }, ?_⟩
  have hrun : s.copyRun (.task k) (len + 1) src dst len 0 =
      .ok ⟨(s.setBytes dst (s.bytes src len)).event
        { kind := 8, weight := len, priv := 1, master := .task k, addr := some dst, cls := none }, len, stOk⟩ := by
    rw [State.copyRun]
    simp only [State.lockedAgainst_none hlock, copyChunk_host hsrc hdst hs hd, State.readPiece_host _ hsrc hup, hwrite,
      hlen.ne', Bool.false_eq_true, if_false, Nat.sub_self, Nat.zero_add]
    rw [State.copyRun_done]
  have hhere : s.hostAbsent src dst = false := by simp [State.hostAbsent, hup]
  simp only [State.copy, hrun, hhere, Bool.false_and, Bool.false_eq_true, if_false]

end

/-- A descriptor that DMA has read, by what it asks for. -/
theorem takeDma_outcomes {k : TaskId} {w : IWord} {s u : State} {core : Nat} {r : DmaReq} (h : s.threadRuns k)
    (hf : dmaTask w k.val (s.task k.val) s = u.takeDma k.val core r) (hspin : u.spin = s.spin) :
    (16777216 < r.len → threadLeaves (.dma (.task k) w) s k u { s.task k.val with stReg := stWord stRefused }) ∧
    (r.len ≤ 16777216 → 64 ≤ (s.dmaQueue core).length →
      threadLeaves (.dma (.task k) w) s k u { s.task k.val with stReg := stWord stFull }) ∧
    (r.len = 0 → (s.dmaQueue core).length < 64 → ∃ t, exec (.dma (.task k) w) s = .next t ∧
      (t.task k.val).stReg = stWord stOk ∧ t.spin.dma = s.spin.dma) ∧
    (r.len ≤ 16777216 → (s.dmaQueue core).length < 64 → r.len ≠ 0 → overlap r.src r.dst r.len = true →
      exec (.dma (.task k) w) s = .fault (.undefinedBehaviour 5)) ∧
    (r.len ≤ 16777216 → (s.dmaQueue core).length < 64 → r.len ≠ 0 → overlap r.src r.dst r.len = false →
      (r.waits = false → threadLeaves (.dma (.task k) w) s k (u.updDma core fun l => l ++ [r])
        { s.task k.val with stReg := stWord stOk }) ∧
      (r.waits = true → threadWaits (.dma (.task k) w) s k 0x97 w (u.updDma core fun l => l ++ [r]) .dma)) := by
  have htask : u.task k.val = s.task k.val := by unfold State.task; rw [hspin]
  have hqueue : u.dmaQueue core = s.dmaQueue core := by unfold State.dmaQueue; rw [hspin]
  unfold State.takeDma at hf
  rw [hqueue] at hf
  refine ⟨fun hbig => ?_, fun hok hfull => ?_, fun hzero hroom => ?_, fun hok hroom hne hover => ?_,
    fun hok hroom hne hapart => ⟨fun hgoes => ?_, fun hwaits => ?_⟩⟩
  · exact threadCodes h (exec_dma k w s) (hf.trans (if_pos hbig)) htask
  · exact threadCodes h (exec_dma k w s) (hf.trans ((if_neg (by omega)).trans (if_pos hfull))) htask
  · obtain ⟨t, ht, ha⟩ := becomes_of_done h (exec_dma k w s)
      (hf.trans ((if_neg (by omega)).trans ((if_neg (by omega)).trans (if_pos hzero))))
    refine ⟨t, ht, ?_, ?_⟩
    · rw [ha.task, State.updTask, State.task_setTask, State.updTask, State.task_setTask]
      rfl
    · exact ha.dma.trans ((u.dmaEnd_aside _ _ _).dma.trans (congrArg Spin.dma hspin))
  · exact fault_of_undef h (exec_dma k w s)
      (hf.trans ((if_neg (by omega)).trans ((if_neg (by omega)).trans ((if_neg hne).trans (if_pos hover)))))
  · refine threadCodes h (exec_dma k w s) (hf.trans ((if_neg (by omega)).trans ((if_neg (by omega)).trans
      ((if_neg hne).trans ((if_neg (by simp [hapart])).trans (if_neg (by simp [hgoes]))))))) htask
  · exact threadWaits_of_keep h (exec_dma k w s) (hf.trans ((if_neg (by omega)).trans ((if_neg (by omega)).trans
      ((if_neg hne).trans ((if_neg (by simp [hapart])).trans (if_pos hwaits))))))

/-- Settles O16: DMA by what its descriptor asks for, DMA_COMPLETE by the head of its queue, a copy within host memory
as one read and one write. -/
theorem dmaCopies : Obligations.DmaCopies := by
  unfold Obligations.DmaCopies
  refine ⟨⟨fun k w s h => ?_, fun core errs s hh => ?_⟩,
    fun s k src dst len hlen hs hd hsrc hdst hup hcur hdma hlock hapart => ?_⟩
  · exact ⟨fun b hb => exec_hold h (exec_dma k w s) (dmaTask_held hb),
      fun hh d hd hunc hspin => takeDma_outcomes h (dmaTask_read hh hd hunc) hspin⟩
  · exact ⟨dmaComplete_empty, fun r rest hq => ⟨fun a ha => dmaComplete_held hh hq ha,
      fun ha x hx => dmaComplete_runs hh hq ha hx⟩⟩
  · obtain ⟨e, he⟩ := State.copy_host (k := k) hlen hs hd hsrc hdst hup hcur hdma hlock
    have hbyte (a : Nat) : ((s.setBytes dst (s.bytes src len)).event e).byte a =
        if dst ≤ a ∧ a < dst + len then (s.bytes src len).getD (a - dst) 0 else s.byte a := by
      rw [(State.event_alike _ e).byte, State.byte_setBytes, State.length_bytes]
    refine ⟨_, he, rfl, rfl, fun i hi => ?_, fun b hb => ?_⟩
    · refine (hbyte _).trans ?_
      rw [if_pos (by omega), Nat.add_sub_cancel_left, State.getD_bytes _ _ _ _ hi]
    · exact (hbyte b).trans (if_neg (by omega))

end Sys2Proof.Machine
end


section
/-! PROOF. The slot of a batten into the draft store, what picks read from then on, and the end of a batten
(BattensApply). -/

namespace Sys2Proof.Machine

/-! ## The overlay -/

/-- The byte at `a` as it was before the slot: the overlay's, or the one in memory. -/
def State.was (s : State) (a : Nat) : Byte := (Tbl.get (Tbl.const none) s.bat.oldMem a).getD (s.byte a)

/-- The overlay holds the byte at `a`. -/
def State.keeps (s : State) (a : Nat) : Prop := (Tbl.get (Tbl.const none) s.bat.oldMem a).isSome = true

/-- `t` is `s` but for memory and the overlay of bytes. -/
def State.stored (t s : State) : Prop := t = { s with mem := t.mem, bat := { s.bat with oldMem := t.bat.oldMem } }

theorem State.stored.refl (s : State) : s.stored s := rfl

theorem State.stored.trans {t u s : State} (h : t.stored u) (k : u.stored s) : t.stored s := by
  unfold State.stored at *
  rw [h, k]

theorem State.stored.inDescriptor {t s : State} (h : t.stored s) (a n : Nat) :
    t.inDescriptor a n = s.inDescriptor a n := by rw [h]; rfl

/-- The overlay keeps what a byte was. -/
theorem State.keepByte_spec (s : State) (a : Nat) : (s.keepByte a).stored s ∧ (s.keepByte a).mem = s.mem ∧
    (s.keepByte a).keeps a ∧ (∀ c, s.keeps c → (s.keepByte a).keeps c) ∧ ∀ c, (s.keepByte a).was c = s.was c := by
  unfold State.keepByte
  split
  next v hv => exact ⟨rfl, rfl, by rw [State.keeps, hv]; rfl, fun _ h => h, fun _ => rfl⟩
  next hv =>
    have hget (c : Nat) := Tbl.get_set (Tbl.const none) s.bat.oldMem a (some (s.byte a)) c
    refine ⟨rfl, rfl, ?_, fun c hc => ?_, fun c => ?_⟩
    · rw [State.keeps, hget, if_pos rfl]; rfl
    · rw [State.keeps, hget]
      split
      · rfl
      · exact hc
    · refine (congrArg (Option.getD · (s.byte c)) (hget c)).trans ?_
      rw [State.was]
      split
      next hca => rw [hca, hv]; rfl
      next => rfl

/-- The same for the bytes at a list of offsets. -/
theorem keepByte_foldl (l : List Nat) (a : Nat) (s : State) :
    let t := l.foldl (fun (s : State) i => s.keepByte (a + i)) s
    t.stored s ∧ t.mem = s.mem ∧ (∀ i ∈ l, t.keeps (a + i)) ∧ (∀ c, s.keeps c → t.keeps c) ∧
      ∀ c, t.was c = s.was c := by
  induction l generalizing s with
  | nil => exact ⟨rfl, rfl, fun _ h => absurd h List.not_mem_nil, fun _ h => h, fun _ => rfl⟩
  | cons i l ih =>
    obtain ⟨hs, hm, hk, hmono, hw⟩ := s.keepByte_spec (a + i)
    obtain ⟨hs', hm', hk', hmono', hw'⟩ := ih (s.keepByte (a + i))
    refine ⟨hs'.trans hs, hm'.trans hm, fun j hj => ?_, fun c hc => hmono' c (hmono c hc),
      fun c => (hw' c).trans (hw c)⟩
    rcases List.mem_cons.mp hj with rfl | hj
    · exact hmono' _ hk
    · exact hk' j hj

theorem State.keepBytes_spec (s : State) (a n : Nat) : (s.keepBytes a n).stored s ∧ (s.keepBytes a n).mem = s.mem ∧
    (∀ i < n, (s.keepBytes a n).keeps (a + i)) ∧ ∀ c, (s.keepBytes a n).was c = s.was c := by
  obtain ⟨hs, hm, hk, -, hw⟩ := keepByte_foldl (List.range n) a s
  exact ⟨hs, hm, fun i hi => hk i (List.mem_range.mpr hi), hw⟩

/-- A store to bytes that the overlay keeps. -/
theorem State.was_setBytes {s : State} {a : Nat} {bs : List Byte} (h : ∀ i < bs.length, s.keeps (a + i)) (c : Nat) :
    (s.setBytes a bs).was c = s.was c := by
  have hold : (s.setBytes a bs).bat.oldMem = s.bat.oldMem := by rw [State.setBytes_only]
  rw [State.was, State.was, hold, State.byte_setBytes]
  split
  next hc =>
    obtain ⟨v, hv⟩ := Option.isSome_iff_exists.mp (h (c - a) (by omega))
    rw [show a + (c - a) = c by omega] at hv
    rw [hv]
    rfl
  next => rfl

/-! ## Entries into the draft store -/

theorem State.dieWrite_draft {s : State} {a : Nat} {bs : List Byte} (h : a + bs.length ≤ 0x10020000) :
    s.dieWrite a bs = s.setBytes a bs := by
  have hset (s : State) : s.dieSet a bs = s.setBytes a bs := by
    induction bs generalizing s a with
    | nil => rfl
    | cons b bs ih =>
      rw [List.length_cons] at h
      have htakes : dieTakes a = true := by
        simp [dieTakes, show a < 0x10300000 by omega, show a < 0x10020000 by omega]
      have hmask : dieMask a = 0xFF := by
        simp [dieMask, show ¬ 0x20000000 ≤ a by omega, show ¬ 0x20200000 ≤ a by omega,
          show ¬ 0x20600000 ≤ a by omega, show ¬ 0x20A00000 ≤ a by omega, show ¬ 0x11000000 ≤ a by omega]
      have hbyte : s.dieByte a b = s.setByte a b := by
        rw [State.dieByte, if_pos htakes, hmask]
        have hfull : (0xFF : Byte) = BitVec.allOnes 8 := by decide
        rw [hfull, BitVec.and_allOnes, BitVec.not_allOnes, BitVec.and_zero, BitVec.or_zero]
      rw [State.dieSet, State.setBytes, hbyte]
      exact ih (by omega) _
  rw [State.dieWrite, if_neg (by omega), if_neg (by omega), hset, State.dieWritten, if_neg (by omega),
    if_neg (by omega), if_neg (by omega)]

theorem regionOf_draft {a : Nat} (h1 : 0x10000000 ≤ a) (h2 : a < 0x10020000) : regionOf a = .die := by
  have hwin : ¬ inWindows a = true := fun h => by
    simp only [inWindows, Bool.or_eq_true, Bool.and_eq_true, Nat.blt_eq, Nat.ble_eq] at h
    omega
  have hdie : dieRanges.any (fun r => Nat.ble r.1 a && Nat.ble a r.2) = true := by
    refine List.any_eq_true.mpr ⟨(0x10000000, 0x1021FFFF), by simp [dieRanges], ?_⟩
    simp only [Bool.and_eq_true, Nat.ble_eq]
    omega
  simp [regionOf, hwin, hdie]

theorem State.dieBad_draft {s : State} {who : EvMaster} {a : Nat} (h1 : 0x10000000 ≤ a) (h2 : a < 0x10020000) :
    s.dieBad who a ≠ some 37 := by
  rw [State.dieBad, if_pos ⟨h1, h2⟩]
  dsimp only
  split <;> simp

/-- The bytes of a stage entry. -/
theorem StageEntry.length_bytes (e : StageEntry) : e.bytes.length = 2 ^ (e.w % 4) := by
  rw [StageEntry.bytes, length_toLE]
  rfl

/-- What an entry makes of the byte `v` at `a`. -/
def StageEntry.on (a : Nat) (v : Byte) (e : StageEntry) : Byte :=
  if e.addr ≤ a ∧ a < e.addr + 2 ^ (e.w % 4) then byteOf e.data.toNat (a - e.addr) else v

/-- An entry into the draft store that no copy's descriptor lies under. -/
def StageEntry.inDrafts (e : StageEntry) (s : State) : Prop :=
  0x10000000 ≤ e.addr ∧ e.addr + 8 ≤ 0x10020000 ∧ s.inDescriptor e.addr (2 ^ (e.w % 4)) = false

theorem pow_width_le (n : Nat) : 2 ^ (n % 4) ≤ 8 := widthOf_le n

/-- R83: an entry into the draft store changes its bytes, and the overlay keeps what they were. -/
theorem State.slotEntry_draft {s : State} {e : StageEntry} (he : e.inDrafts s) :
    ∃ t, s.slotEntry e = .ok t ∧ t.stored s ∧ (∀ c, t.was c = s.was c) ∧ ∀ c, t.byte c = e.on c (s.byte c) := by
  obtain ⟨hlo, hhi, hdesc⟩ := he
  have hw := pow_width_le e.w
  obtain ⟨hstored, hmem, hkeeps, hwas⟩ := s.keepBytes_spec e.addr e.bytes.length
  have hbyte (c : Nat) : ((s.keepBytes e.addr e.bytes.length).setBytes e.addr e.bytes).byte c =
      e.on c (s.byte c) := by
    rw [State.byte_setBytes, StageEntry.on, StageEntry.length_bytes]
    split
    next hc =>
      rw [List.getD_eq_getElem?_getD, StageEntry.bytes, getElem?_toLE _ (by rw [widthOf]; omega)]
      rfl
    next => unfold State.byte; rw [← StageEntry.length_bytes, hmem]
  refine ⟨(s.keepBytes e.addr e.bytes.length).setBytes e.addr e.bytes, ?_, ?_, fun c => ?_, hbyte⟩
  · simp only [State.slotEntry, StageEntry.length_bytes, hdesc, regionOf_draft hlo (by omega : e.addr < 0x10020000),
      State.dieBad_draft hlo (by omega : e.addr < 0x10020000), Bool.false_eq_true, if_false]
    rw [State.dieWrite_draft (by rw [StageEntry.length_bytes]; omega)]
  · refine State.stored.trans ?_ hstored
    rw [State.stored, State.setBytes_only]
  · rw [State.was_setBytes hkeeps, hwas c]

/-- The same for a list of entries, the later ones after the earlier. -/
theorem State.slotEntries_draft {l : List StageEntry} {s : State} (hl : ∀ e ∈ l, e.inDrafts s) :
    ∃ t, s.slotEntries l = .ok t ∧ t.stored s ∧ (∀ c, t.was c = s.was c) ∧
      ∀ c, t.byte c = l.foldl (StageEntry.on c) (s.byte c) := by
  induction l generalizing s with
  | nil => exact ⟨s, rfl, .refl s, fun _ => rfl, fun _ => rfl⟩
  | cons e l ih =>
    obtain ⟨u, hu, hs, hw, hb⟩ := State.slotEntry_draft (hl e List.mem_cons_self)
    obtain ⟨t, ht, hs', hw', hb'⟩ := ih (s := u) fun e' he' => by
      obtain ⟨h1, h2, h3⟩ := hl e' (List.mem_cons_of_mem _ he')
      exact ⟨h1, h2, by rw [hs.inDescriptor]; exact h3⟩
    refine ⟨t, ?_, hs'.trans hs, fun c => (hw' c).trans (hw c), fun c => ?_⟩
    · rw [State.slotEntries, hu]; exact ht
    · rw [hb', hb, List.foldl_cons]

/-! ## The slot -/

/-- A pick that started before the batten in the overlay reads what was. -/
theorem State.pbyte_before {s : State} {q : BitVec 32} (hcur : s.bat.cur.isSome = true) (hq : q ≠ s.bat.seq) (a : Nat) :
    s.pbyte q a = s.was a := by
  simp [State.pbyte, State.older, hcur, hq, State.was]

/-- One that starts from now on reads what is. -/
theorem State.pbyte_now (s : State) (a : Nat) : s.pbyte s.bat.seq a = s.byte a := by
  simp [State.pbyte, State.older]

/-- `t` is `u` for the picks: the same memory, the same overlay, and the same registers but WARP_GEN. -/
structure State.picksAs (t u : State) : Prop where
  mem : t.mem = u.mem
  seq : t.bat.seq = u.bat.seq
  cur : t.bat.cur = u.bat.cur
  oldMem : t.bat.oldMem = u.bat.oldMem
  rd : ∀ r, r ≠ Reg.warpGen → t.rd r = u.rd r

theorem State.picksAs.trans {t u v : State} (h : t.picksAs u) (k : u.picksAs v) : t.picksAs v :=
  ⟨h.mem.trans k.mem, h.seq.trans k.seq, h.cur.trans k.cur, h.oldMem.trans k.oldMem,
    fun r hr => (h.rd r hr).trans (k.rd r hr)⟩

theorem State.picksAs.byte {t u : State} (h : t.picksAs u) (a : Nat) : t.byte a = u.byte a := by
  unfold State.byte; rw [h.mem]

theorem State.picksAs.was {t u : State} (h : t.picksAs u) (a : Nat) : t.was a = u.was a := by
  unfold State.was; rw [h.oldMem, h.byte]

theorem State.picksAs.fld {t u : State} (h : t.picksAs u) {r : Nat} (hr : r ≠ Reg.warpGen) (f : Fld) :
    t.fld r f = u.fld r f := by
  unfold State.fld; rw [h.rd r hr]

theorem State.genNotZero_picksAs (s : State) : s.genNotZero.picksAs s := by
  unfold State.genNotZero
  split
  · exact ⟨rfl, rfl, rfl, rfl, fun r hr => State.rd_wr_other _ _ hr⟩
  · exact ⟨rfl, rfl, rfl, rfl, fun _ _ => rfl⟩

theorem State.noteStarts_picksAs (s old : State) (l : List StageEntry) : (s.noteStarts old l).picksAs s :=
  ⟨rfl, rfl, rfl, rfl, fun _ _ => rfl⟩

theorem State.admitBatten_picksAs (s : State) : s.admitBatten.picksAs s := by
  unfold State.admitBatten
  split
  · exact ⟨rfl, rfl, rfl, rfl, fun _ _ => rfl⟩
  · split <;> exact ⟨rfl, rfl, rfl, rfl, fun _ _ => rfl⟩

/-- A slot that does not change the profile. -/
theorem State.profileFrom_same {s : State} {old : Nat} (h : s.profile = old) : s.profileFrom old = s := by
  unfold State.profileFrom
  have h1 : ¬ (old = 1 ∧ s.profile ≠ 1) := by omega
  have h3 : ¬ (old = 3 ∧ s.profile ≠ 3) := by omega
  simp only [if_neg h1, if_neg h3]

/-- A slot that does not change the active bank. -/
theorem State.noteFlip_same {s old : State} (h : s.activeBank = old.activeBank) : s.noteFlip old = s := if_pos h

section
variable {s : State} {b : BatReq} {rest : List BatReq}

/-- R83: the slot of a thread batten of entries into the draft store. -/
theorem State.openSlot_draft (hhost : b.host = false) (hws : b.ws = false)
    (hpool : s.poolBad (s.rd Reg.beamPool) = false) (hl : ∀ e ∈ b.list, e.inDrafts s) :
    ∃ t u, s.openSlot b rest = .ok t ∧ t.picksAs u ∧ u.stored (s.takeBatten b rest) ∧
      (∀ c, u.was c = (s.takeBatten b rest).was c) ∧ ∀ c, u.byte c = b.list.foldl (StageEntry.on c) (s.byte c) := by
  have hlist : s.batList b = b.list := by simp [State.batList, hhost]
  obtain ⟨u, hu, hs, hw, hb⟩ := State.slotEntries_draft (s := s.takeBatten b rest) hl
  have hrd (r : Nat) : u.rd r = s.rd r := by rw [hs]; rfl
  have hpool' : u.poolBad (u.rd Reg.beamPool) = false := by
    rw [hrd, ← hpool, hs]; rfl
  have hgen := u.genNotZero_picksAs
  have hprofile : u.genNotZero.profile = s.profile := by
    rw [State.profile, hgen.fld (by decide), State.profile, State.fld, State.fld, hrd]
  have hstarts := (u.genNotZero.noteStarts_picksAs s b.list).trans hgen
  have hbank : (u.genNotZero.noteStarts s b.list).activeBank = s.activeBank := by
    unfold State.activeBank State.flag
    rw [hstarts.fld (by decide), State.fld, State.fld, hrd]
  refine ⟨_, u, ?_, (State.admitBatten_picksAs _).trans hstarts, hs, hw, hb⟩
  simp only [State.openSlot, hws, hlist, hu, hpool', State.profileFrom_same hprofile, State.noteFlip_same hbank,
    Bool.false_eq_true, if_false]

theorem exec_battenSlotOpen (hq : s.bat.queue = b :: rest) : exec .battenSlotOpen s =
    if s.bat.cur.isSome ∨ s.flipWait = true ∨ s.halted = true then .next s else toOut (s.openSlot b rest) := by
  show execBattenSlotOpen s = _
  rw [execBattenSlotOpen, hq]

/-- R83, R93: what a slot leaves for the picks. -/
theorem battenSlotOpen_draft (hq : s.bat.queue = b :: rest) (hh : s.halted = false) (hcur : s.bat.cur = none)
    (hflip : s.flipWait = false) (hold : s.bat.oldMem = []) (hhost : b.host = false) (hws : b.ws = false)
    (hpool : s.poolBad (s.rd Reg.beamPool) = false) (hl : ∀ e ∈ b.list, e.inDrafts s) :
    ∃ t, exec .battenSlotOpen s = .next t ∧ t.bat.seq = s.bat.seq + 1 ∧ t.bat.cur = some b ∧
      (∀ q a, q ≠ t.bat.seq → t.pbyte q a = s.byte a) ∧
      (∀ a, t.pbyte t.bat.seq a = b.list.foldl (StageEntry.on a) (s.byte a)) ∧
      (∀ r, r ≠ Reg.warpGen → t.rd r = s.rd r) := by
  obtain ⟨t, u, ht, hp, hs, hw, hb⟩ := State.openSlot_draft (rest := rest) hhost hws hpool hl
  have hseq : u.bat.seq = s.bat.seq + 1 := by rw [hs]; rfl
  have hbat : u.bat.cur = some b := by
    have hlist : s.batList b = b.list := by simp [State.batList, hhost]
    rw [hs]
    show some { b with list := s.batList b } = some b
    rw [hlist]
  have htcur : t.bat.cur = some b := hp.cur.trans hbat
  refine ⟨t, ?_, hp.seq.trans hseq, htcur, fun q a hq => ?_, fun a => ?_, fun r hr => ?_⟩
  · rw [exec_battenSlotOpen hq, if_neg (by simp [hcur, hflip, hh]), ht]
    rfl
  · rw [State.pbyte_before (by simp [htcur]) hq, hp.was, hw, State.was]
    show ((Tbl.get (Tbl.const none) s.bat.oldMem a).getD (s.byte a)) = s.byte a
    rw [hold]
    rfl
  · rw [State.pbyte_now, hp.byte, hb]
  · rw [hp.rd r hr, hs]
    rfl

end

/-! ## The end of a batten -/

/-- R66: the program words stored before the last slot are safe to run. -/
def State.wordsSafe (s : State) : State :=
  { s with spin := { s.spin with stored := s.spin.stored.filter fun e => e.2 == s.bat.seq } }

theorem State.alike.wordsSafe {t u : State} (h : t.alike u) : t.wordsSafe.alike u.wordsSafe :=
  ⟨congrArg State.wordsSafe h.1, h.2⟩

section
variable {s : State} {b : BatReq}

/-- R88: a thread that waits for its batten goes on with ST_OK. -/
theorem State.completeBatten_wakes (hhost : b.host = false) (hwake : b.wake = true)
    (hwait : (s.task b.task).wait = .batten) : (s.completeBatten b).alike (s.wordsSafe.setTask b.task
      { (s.task b.task).step with wait := .none, stReg := stWord stOk }) := by
  have ha : (s.countBatten b).wordsSafe.alike s.wordsSafe := (State.event_alike s _).wordsSafe
  have hwait' : ((s.countBatten b).wordsSafe.task b.task).wait = .batten := by
    rw [ha.task]; exact hwait
  have hc : s.completeBatten b = (s.countBatten b).wordsSafe.updTask b.task fun t =>
      { t.step with wait := .none, stReg := stWord stOk } := by
    refine (if_neg (by simp [hhost])).trans (if_pos ?_)
    rw [hwake, Bool.true_and, beq_iff_eq]
    exact hwait'
  rw [hc]
  exact ha.updTask _ _

/-- R88: a thread that was cancelled is not told. -/
theorem State.completeBatten_quiet (hhost : b.host = false) (hwake : b.wake = false) :
    (s.completeBatten b).alike s.wordsSafe := by
  have hc : s.completeBatten b = (s.countBatten b).wordsSafe :=
    (if_neg (by simp [hhost])).trans (if_neg (by simp [hwake]))
  rw [hc]
  exact (State.event_alike s _).wordsSafe

/-- One more host batten is done. -/
def State.hostBattenDone (s : State) : State :=
  { s with bat := { s.bat with hostDone := s.bat.hostDone + 1 } }

/-- R90: the host's count of battens done rises. -/
theorem State.completeBatten_host (hhost : b.host = true)
    (hevt : s.flag Reg.beamBattenEvt Fld.beamBattenEvtOnHostDone = false) :
    (s.completeBatten b).alike s.wordsSafe.hostBattenDone := by
  have hsafe : (s.countBatten b).wordsSafe.alike s.wordsSafe := (State.event_alike s _).wordsSafe
  have hrd : (s.countBatten b).wordsSafe.rd Reg.beamBattenEvt = s.rd Reg.beamBattenEvt := hsafe.2 _ (by decide)
  have hflag : (s.countBatten b).wordsSafe.flag Reg.beamBattenEvt Fld.beamBattenEvtOnHostDone = false := by
    rw [State.flag, State.fld, hrd]
    exact hevt
  have hc : s.completeBatten b = (s.countBatten b).wordsSafe.hostBattenDone :=
    (if_pos hhost).trans (if_neg (by rw [Bool.not_eq_true]; exact hflag))
  rw [hc]
  exact ⟨congrArg State.hostBattenDone hsafe.1, hsafe.2⟩

/-! ## BATTEN_APPLY and BANK_RETIRE -/

/-- The overlay is free. -/
def State.overlayFree (s : State) : State :=
  { s with bat := { s.bat with cur := none, oldMem := [], oldReg := [], curFlip := false } }

theorem battenApply_waits (hcur : s.bat.cur = some b) (hold : s.oldPicks = true) : exec .battenApply s = .next s := by
  show execBattenApply s = _
  simp [execBattenApply, hcur, hold]

theorem battenApply_flips (hcur : s.bat.cur = some b) (hh : s.halted = false) (hold : s.oldPicks = false)
    (hflip : s.bat.curFlip = true) : exec .battenApply s = .next { s with bat := { s.bat with
      cur := none, oldMem := [], oldReg := [], curFlip := false, flip := some b } } := by
  show execBattenApply s = _
  simp [execBattenApply, hcur, hold, hh, hflip]

theorem battenApply_completes (hcur : s.bat.cur = some b) (hh : s.halted = false) (hold : s.oldPicks = false)
    (hflip : s.bat.curFlip = false) : exec .battenApply s = .next (s.overlayFree.completeBatten b) := by
  show execBattenApply s = _
  simp [execBattenApply, hcur, hold, hh, hflip, State.overlayFree]

/-- The draining bank has retired. -/
def State.bankGone (s : State) : State :=
  { s with bat := { s.bat with draining := none, flip := none, curFlip := false } }

variable {bank : Bool}

theorem bankRetire_waits (hd : s.bat.draining = some bank) (hne : s.epochCount bank ≠ 0) :
    exec .bankRetire s = .next s := by
  show execBankRetire s = _
  simp [execBankRetire, hd, hne]

theorem bankRetire_retires (hd : s.bat.draining = some bank) (hh : s.halted = false) (he : s.epochCount bank = 0)
    (hevt : s.flag Reg.beamBattenEvt Fld.beamBattenEvtOnRetire = false) : exec .bankRetire s =
      .next (match s.bat.flip with
        | some f => s.bankGone.completeBatten f
        | none => s.bankGone) := by
  have hpost : s.bankGone.postRetired bank = s.bankGone := if_neg (by rw [Bool.not_eq_true]; exact hevt)
  show execBankRetire s = _
  simp only [execBankRetire, hd, he, hh, ne_eq, not_true_eq_false, Bool.false_eq_true, or_self, if_false]
  change Host.Outcome.next (match s.bat.flip with
    | some f => (s.bankGone.postRetired bank).completeBatten f
    | none => s.bankGone.postRetired bank) = _
  rw [hpost]

end

/-- Settles O17: the slot by the entries it takes in order, the end of a batten by who asked for it, and that of a flip
by whether its old bank still has packets in flight. -/
theorem battensApply : Obligations.BattensApply := by
  unfold Obligations.BattensApply
  refine ⟨fun s b rest hq hh => ⟨fun hbusy => ?_, fun hcur hflip hold hhost hws hpool hl =>
    battenSlotOpen_draft hq hh hcur hflip hold hhost hws hpool hl⟩, fun s b hcur hh => ?_, fun s bank hd hh => ?_⟩
  · rw [exec_battenSlotOpen hq, if_pos (by tauto)]
  · refine ⟨battenApply_waits hcur, battenApply_flips hcur hh, fun hold hflip hhost hwake hwait => ?_,
      fun hold hflip hhost hwake => ?_, fun hold hflip hhost hevt => ?_⟩
    · exact ⟨_, battenApply_completes hcur hh hold hflip, State.completeBatten_wakes hhost hwake hwait⟩
    · exact ⟨_, battenApply_completes hcur hh hold hflip, State.completeBatten_quiet hhost hwake⟩
    · exact ⟨_, battenApply_completes hcur hh hold hflip, State.completeBatten_host hhost hevt⟩
  · refine ⟨bankRetire_waits hd, fun he hevt => ⟨fun hnone => ?_, fun f hf hhost hwake hwait => ?_⟩⟩
    · rw [bankRetire_retires hd hh he hevt, hnone]
      rfl
    · refine ⟨_, ?_, State.completeBatten_wakes (s := s.bankGone) hhost hwake hwait⟩
      rw [bankRetire_retires hd hh he hevt, hf]

end Sys2Proof.Machine
end


section
/-! PROOF. A TSCAN of length 0 writes the line of its head even where it changes nothing in it (TwillScans). A table of
lines whose entries do not stand in order is another table after such a write, so that the state it leaves is not the
one before. -/

namespace Sys2Proof.Machine

/-- A line whose head is being scanned. -/
def scannedLine : CLine :=
  { reserved := false, head := headTwill 0 1 0, rno := 0, dirty := false, refBit := false, pins := 0, recPins := 0,
    order := 0, detached := false, image := none, second := none, isSecond := false }

/-- What the pick holds: the head of line 0. -/
def scannedHeld : Held := { line := 0, key96 := 0, rno := 0, gen := 0, created := false, onset := 0 }

/-- The packet of the refutation: its pick holds the head of line 0. -/
def scannedPkt : Pkt := { samplePkt with pick := { samplePkt.pick with held := some scannedHeld } }

/-- The device of the refutation: line 1 is listed before line 0. -/
def unsortedLines : State :=
  { State.reset with
    mem := [(0x10000000, 100)], pkts := [(0, some scannedPkt)], nextPkt := 1
    warp := { State.reset.warp with cache := [(1, some scannedLine), (0, some scannedLine)] } }

theorem unsortedLines_runs : unsortedLines.pickRuns 0 scannedPkt ∧
    unsortedLines.pickGoesOn (scannedPkt.setSt (stWord stOk)) := by
  unfold State.pickRuns State.pickGoesOn; decide +kernel

/-- TSCAN lists line 0 once more. -/
theorem tscan_unsortedLines : (match exec (.tscan (.pick 0) zeroWord) unsortedLines with
    | .next t => t.warp.cache.length
    | _ => 0) = 3 := by
  decide +kernel

/-- Refutes O20: a TSCAN of length 0 whose head is being scanned does not leave the table of lines as it was, where the
table is not in its canonical order. -/
theorem not_twillScans : ¬ Obligations.TwillScans := by
  unfold Obligations.TwillScans
  rintro ⟨scans, -⟩
  obtain ⟨runs, goesOn⟩ := unsortedLines_runs
  obtain ⟨-, held⟩ := scans 0 scannedPkt zeroWord unsortedLines runs
  obtain ⟨nothing, -⟩ := held scannedHeld scannedLine rfl rfl
  obtain ⟨t, next, alike, -⟩ := (nothing (by decide) (by decide +kernel)).1 goesOn
  have longer := tscan_unsortedLines
  rw [next] at longer
  have same : t.warp.cache.length = 2 := congrArg (fun s : State => s.warp.cache.length) alike
  exact absurd (longer.symm.trans same) (by decide)

end Sys2Proof.Machine
end

section
/-! PROOF. What a command does to the queue, the trip latch and the bound of the host's stage list, and that the list
never outgrows its bound (HostListBounded). -/

namespace Sys2Proof.Machine

/-- What command `c` may make of what `State.kept` holds: nothing; it clears the latch and the list; it takes the list;
or it sets the latch. Each case names the commands that may do so. -/
inductive KeptAfter (c : Instr) (k : Kept) : Kept → Prop
  | same : KeptAfter c k k
  | cleared (hc : c = .powerOn ∨ c = .powerOff ∨ c = .resetAssert) : KeptAfter c k ⟨k.pending, false, true⟩
  | listTaken (hc : c = .battenSlotOpen) : KeptAfter c k ⟨k.pending, k.tripped, true⟩
  | tripped (hc : ∃ tj r, c = .tjSample tj r) : KeptAfter c k ⟨k.pending, true, k.hok⟩

theorem KeptAfter.of_eq {c : Instr} {k k' : Kept} (h : k' = k) : KeptAfter c k k' := h ▸ .same

theorem KeptAfter.of_cleared {c : Instr} {k k' : Kept} (hc : c = .powerOn ∨ c = .powerOff ∨ c = .resetAssert)
    (h : k' = k ∨ k' = ⟨k.pending, false, true⟩) : KeptAfter c k k' :=
  h.elim .of_eq fun e => e ▸ .cleared hc

/-- Every command, by the lemma of its own meaning (Laws/Kept*.lean). -/
theorem exec_keptAfter {c : Instr} {s t : State} (h : exec c s = .next t) : KeptAfter c s.kept t.kept := by
  cases c with
  | powerOn => exact .of_cleared (by simp) (execPowerOn_kept s h)
  | powerOff => exact .of_cleared (by simp) (execPowerOff_kept s h)
  | resetAssert => exact .of_cleared (by simp) (execResetAssert_kept s h)
  | resetRelease => exact .of_eq (execResetRelease_kept s h)
  | bootInitDone sfdp => exact .of_eq (execBootInitDone_kept sfdp s h)
  | bootLinksDone => exact .of_eq (execBootLinksDone_kept s h)
  | bootHbmDone failed => exact .of_eq (execBootHbmDone_kept failed s h)
  | imageCheck flash => exact .of_eq (execImageCheck_kept flash s h)
  | bootCopy => exact .of_eq (execBootCopy_kept s h)
  | bootWait => exact .of_eq (execBootWait_kept s h)
  | bootWaitTimeout => exact .of_eq (execBootWaitTimeout_kept s h)
  | bootPatch => exact .of_eq (execBootPatch_kept s h)
  | bootTask => exact .of_eq (execBootTask_kept s h)
  | bootEnd => exact .of_eq (execBootEnd_kept s h)
  | bootBadRecord => exact .of_eq (execBootBadRecord_kept s h)
  | hostImageBoot v => exact .of_eq (execHostImageBoot_kept v s h)
  | pcieLinkTrain => exact .of_eq (execPcieLinkTrain_kept s h)
  | perstAssert => exact .of_eq (execPerstAssert_kept s h)
  | pcieLinkLoss => exact .of_eq (execPcieLinkLoss_kept s h)
  | pcieLinkReturn => exact .of_eq (execPcieLinkReturn_kept s h)
  | registerWrite m a n v => exact .of_eq (execRegisterWrite_kept m a n v s h)
  | nop c w => exact .of_eq (execNop_kept c w s h)
  | illegalOp c => exact .of_eq (execIllegalOp_kept c s h)
  | ld c w => exact .of_eq (execLd_kept c w s h)
  | st c w => exact .of_eq (execSt_kept c w s h)
  | sts c w => exact .of_eq (execSts_kept c w s h)
  | batten c w => exact .of_eq (execBatten_kept c w s h)
  | ldW c w => exact .of_eq (execLdW_kept c w s h)
  | stW c w => exact .of_eq (execStW_kept c w s h)
  | ldT c w => exact .of_eq (execLdT_kept c w s h)
  | br c w => exact .of_eq (execBr_kept c w s h)
  | brp c w => exact .of_eq (execBrp_kept c w s h)
  | loop c w => exact .of_eq (execLoop_kept c w s h)
  | add c w => exact .of_eq (execAdd_kept c w s h)
  | addImm c w => exact .of_eq (execAddImm_kept c w s h)
  | sub c w => exact .of_eq (execSub_kept c w s h)
  | subImm c w => exact .of_eq (execSubImm_kept c w s h)
  | and c w => exact .of_eq (execAnd_kept c w s h)
  | andImm c w => exact .of_eq (execAndImm_kept c w s h)
  | or c w => exact .of_eq (execOr_kept c w s h)
  | orImm c w => exact .of_eq (execOrImm_kept c w s h)
  | xor c w => exact .of_eq (execXor_kept c w s h)
  | xorImm c w => exact .of_eq (execXorImm_kept c w s h)
  | shl c w => exact .of_eq (execShl_kept c w s h)
  | shlImm c w => exact .of_eq (execShlImm_kept c w s h)
  | shr c w => exact .of_eq (execShr_kept c w s h)
  | shrImm c w => exact .of_eq (execShrImm_kept c w s h)
  | sar c w => exact .of_eq (execSar_kept c w s h)
  | sarImm c w => exact .of_eq (execSarImm_kept c w s h)
  | min c w => exact .of_eq (execMin_kept c w s h)
  | minImm c w => exact .of_eq (execMinImm_kept c w s h)
  | max c w => exact .of_eq (execMax_kept c w s h)
  | maxImm c w => exact .of_eq (execMaxImm_kept c w s h)
  | cmp c w => exact .of_eq (execCmp_kept c w s h)
  | cmpImm c w => exact .of_eq (execCmpImm_kept c w s h)
  | mul c w => exact .of_eq (execMul_kept c w s h)
  | mulImm c w => exact .of_eq (execMulImm_kept c w s h)
  | mulh c w => exact .of_eq (execMulh_kept c w s h)
  | movi c w => exact .of_eq (execMovi_kept c w s h)
  | ext c w => exact .of_eq (execExt_kept c w s h)
  | ins c w => exact .of_eq (execIns_kept c w s h)
  | sel c w => exact .of_eq (execSel_kept c w s h)
  | hash c w => exact .of_eq (execHash_kept c w s h)
  | flook c w => exact .of_eq (execFlook_kept c w s h)
  | flowHeadFill p errs => exact .of_eq (execFlowHeadFill_kept p errs s h)
  | fcreate c w => exact .of_eq (execFcreate_kept c w s h)
  | fupd c w => exact .of_eq (execFupd_kept c w s h)
  | ffold c w => exact .of_eq (execFfold_kept c w s h)
  | fdelidle c w => exact .of_eq (execFdelidle_kept c w s h)
  | victimRelease b n => exact .of_eq (execVictimRelease_kept b n s h)
  | rsearch c w => exact .of_eq (execRsearch_kept c w s h)
  | rnext c w => exact .of_eq (execRnext_kept c w s h)
  | tscan c w => exact .of_eq (execTscan_kept c w s h)
  | fwd c w => exact .of_eq (execFwd_kept c w s h)
  | mcast c w => exact .of_eq (execMcast_kept c w s h)
  | drop c w => exact .of_eq (execDrop_kept c w s h)
  | punt c w => exact .of_eq (execPunt_kept c w s h)
  | recirc c w => exact .of_eq (execRecirc_kept c w s h)
  | tstamp c w => exact .of_eq (execTstamp_kept c w s h)
  | cnt c w => exact .of_eq (execCnt_kept c w s h)
  | lock c w => exact .of_eq (execLock_kept c w s h)
  | unlock c w => exact .of_eq (execUnlock_kept c w s h)
  | waitev c w => exact .of_eq (execWaitev_kept c w s h)
  | waitevTimeout k => exact .of_eq (execWaitevTimeout_kept k s h)
  | signal c w => exact .of_eq (execSignal_kept c w s h)
  | yield c w => exact .of_eq (execYield_kept c w s h)
  | qput c w => exact .of_eq (execQput_kept c w s h)
  | qget c w => exact .of_eq (execQget_kept c w s h)
  | dma c w => exact .of_eq (execDma_kept c w s h)
  | dmaComplete core unc => exact .of_eq (execDmaComplete_kept core unc s h)
  | frameReceive p frame => exact .of_eq (execFrameReceive_kept p frame s h)
  | fcsError p => exact .of_eq (execFcsError_kept p s h)
  | pfcPauseExpire p cl => exact .of_eq (execPfcPauseExpire_kept p cl s h)
  | heddleParse p => exact .of_eq (execHeddleParse_kept p s h)
  | pickStart p => exact .of_eq (execPickStart_kept p s h)
  | pickBudgetExceeded p => exact .of_eq (execPickBudgetExceeded_kept p s h)
  | recircReturn r => exact .of_eq (execRecircReturn_kept r s h)
  | beamAdmit p => exact .of_eq (execBeamAdmit_kept p s h)
  | residueAdmit q => exact .of_eq (execResidueAdmit_kept q s h)
  | egressCall p => exact .of_eq (execEgressCall_kept p s h)
  | grantPeriod => exact .of_eq (execGrantPeriod_kept s h)
  | transmitFrame p errs => exact .of_eq (execTransmitFrame_kept p errs s h)
  | transmitComplete p => exact .of_eq (execTransmitComplete_kept p s h)
  | pfcFrameSend p => exact .of_eq (execPfcFrameSend_kept p s h)
  | pfcRefresh p => exact .of_eq (execPfcRefresh_kept p s h)
  | queueFlush v => exact .of_eq (execQueueFlush_kept v s h)
  | queueFlushDone => exact .of_eq (execQueueFlushDone_kept s h)
  | hostStageAppend v => exact .of_eq (execHostStageAppend_kept v s h)
  | hostBatten v => exact .of_eq (execHostBatten_kept v s h)
  | battenSlotOpen => exact (execBattenSlotOpen_kept s h).elim .of_eq fun k => k ▸ .listTaken rfl
  | battenApply => exact .of_eq (execBattenApply_kept s h)
  | bankRetire => exact .of_eq (execBankRetire_kept s h)
  | cacheSweep line => exact .of_eq (execCacheSweep_kept line s h)
  | tableSweep r => exact .of_eq (execTableSweep_kept r s h)
  | rehashStart v => exact .of_eq (execRehashStart_kept v s h)
  | migrateBucket => exact .of_eq (execMigrateBucket_kept s h)
  | rehashRetry => exact .of_eq (execRehashRetry_kept s h)
  | migrateOverflow idx => exact .of_eq (execMigrateOverflow_kept idx s h)
  | warpInitTbl0 => exact .of_eq (execWarpInitTbl0_kept s h)
  | warpInitTbl1 => exact .of_eq (execWarpInitTbl1_kept s h)
  | warpInitOvf => exact .of_eq (execWarpInitOvf_kept s h)
  | warpInitDone => exact .of_eq (execWarpInitDone_kept s h)
  | warpDisable v => exact .of_eq (execWarpDisable_kept v s h)
  | warpDisableDone => exact .of_eq (execWarpDisableDone_kept s h)
  | cacheFlush v => exact .of_eq (execCacheFlush_kept v s h)
  | cacheFlushDone => exact .of_eq (execCacheFlushDone_kept s h)
  | coherentRead v => exact .of_eq (execCoherentRead_kept v s h)
  | coherentReadDone => exact .of_eq (execCoherentReadDone_kept s h)
  | reedBankPowerUp b v => exact .of_eq (execReedBankPowerUp_kept b v s h)
  | reedPowerAck b bad => exact .of_eq (execReedPowerAck_kept b bad s h)
  | reedSearch q m => exact .of_eq (execReedSearch_kept q m s h)
  | reedScrub idx fault => exact .of_eq (execReedScrub_kept idx fault s h)
  | reedBankSlot b => exact .of_eq (execReedBankSlot_kept b s h)
  | twillScan e => exact .of_eq (execTwillScan_kept e s h)
  | learnEvent => exact .of_eq (execLearnEvent_kept s h)
  | pinRelease e => exact .of_eq (execPinRelease_kept e s h)
  | ageCmd v => exact .of_eq (execAgeCmd_kept v s h)
  | compareStart v => exact .of_eq (execCompareStart_kept v s h)
  | compareDone => exact .of_eq (execCompareDone_kept s h)
  | indexBuild t v => exact .of_eq (execIndexBuild_kept t v s h)
  | indexBuildDone t => exact .of_eq (execIndexBuildDone_kept t s h)
  | portConfigWrite p v => exact .of_eq (execPortConfigWrite_kept p v s h)
  | linkUp p => exact .of_eq (execLinkUp_kept p s h)
  | linkTrainFail p lanes => exact .of_eq (execLinkTrainFail_kept p lanes s h)
  | trainRetry p => exact .of_eq (execTrainRetry_kept p s h)
  | retrain t v => exact .of_eq (execRetrain_kept t v s h)
  | linkDown p => exact .of_eq (execLinkDown_kept p s h)
  | lpiEnter p => exact .of_eq (execLpiEnter_kept p s h)
  | lpiWakeDone p => exact .of_eq (execLpiWakeDone_kept p s h)
  | refclkLoss t => exact .of_eq (execRefclkLoss_kept t s h)
  | wireFail l g lanes chans => exact .of_eq (execWireFail_kept l g lanes chans s h)
  | treadleSlot ch r => exact .of_eq (execTreadleSlot_kept ch r s h)
  | refreshDue ch r => exact .of_eq (execRefreshDue_kept ch r s h)
  | refreshDeadline ch b => exact .of_eq (execRefreshDeadline_kept ch b s h)
  | channelRest ch => exact .of_eq (execChannelRest_kept ch s h)
  | restExit ch => exact .of_eq (execRestExit_kept ch s h)
  | parityAlert r => exact .of_eq (execParityAlert_kept r s h)
  | retrainSearchStart ch => exact .of_eq (execRetrainSearchStart_kept ch s h)
  | retrainSearchDone ch r => exact .of_eq (execRetrainSearchDone_kept ch r s h)
  | spareTrained stk ok => exact .of_eq (execSpareTrained_kept stk ok s h)
  | retireCopyGranule stk lost => exact .of_eq (execRetireCopyGranule_kept stk lost s h)
  | creelSearchCmd stk v => exact .of_eq (execCreelSearchCmd_kept stk v s h)
  | creelRetireCmd stk v => exact .of_eq (execCreelRetireCmd_kept stk v s h)
  | creelReleaseCmd stk v => exact .of_eq (execCreelReleaseCmd_kept stk v s h)
  | patrolScrub line r => exact .of_eq (execPatrolScrub_kept line r s h)
  | stackLoss stk => exact .of_eq (execStackLoss_kept stk s h)
  | domainEnable d v => exact .of_eq (execDomainEnable_kept d v s h)
  | domainSet d v => exact .of_eq (execDomainSet_kept d v s h)
  | domainStep d v => exact .of_eq (execDomainStep_kept d v s h)
  | freqAdjWrite d v => exact .of_eq (execFreqAdjWrite_kept d v s h)
  | timeSnap v => exact .of_eq (execTimeSnap_kept v s h)
  | txqRead d => exact .of_eq (execTxqRead_kept d s h)
  | pulseArm j v => exact .of_eq (execPulseArm_kept j v s h)
  | pulseEdge j => exact .of_eq (execPulseEdge_kept j s h)
  | pulseWidthEnd j => exact .of_eq (execPulseWidthEnd_kept j s h)
  | captureEdge idx falling => exact .of_eq (execCaptureEdge_kept idx falling s h)
  | captureRead idx => exact .of_eq (execCaptureRead_kept idx s h)
  | captureLos idx => exact .of_eq (execCaptureLos_kept idx s h)
  | holdoverTick => exact .of_eq (execHoldoverTick_kept s h)
  | refDisqualify r => exact .of_eq (execRefDisqualify_kept r s h)
  | refRequalify r => exact .of_eq (execRefRequalify_kept r s h)
  | dpllLock => exact .of_eq (execDpllLock_kept s h)
  | senseConvert idx code => exact .of_eq (execSenseConvert_kept idx code s h)
  | learnerSecond => exact .of_eq (execLearnerSecond_kept s h)
  | learnerSample => exact .of_eq (execLearnerSample_kept s h)
  | learnerReset v => exact .of_eq (execLearnerReset_kept v s h)
  | taskCreate k => exact .of_eq (execTaskCreate_kept k s h)
  | taskStart k => exact .of_eq (execTaskStart_kept k s h)
  | taskCancel k => exact .of_eq (execTaskCancel_kept k s h)
  | taskDelete k => exact .of_eq (execTaskDelete_kept k s h)
  | taskSignal k mask => exact .of_eq (execTaskSignal_kept k mask s h)
  | schedRound => exact .of_eq (execSchedRound_kept s h)
  | sliceExpire k => exact .of_eq (execSliceExpire_kept k s h)
  | taskRelease k => exact .of_eq (execTaskRelease_kept k s h)
  | deadlineMiss k => exact .of_eq (execDeadlineMiss_kept k s h)
  | puntTake r => exact .of_eq (execPuntTake_kept r s h)
  | injectTake => exact .of_eq (execInjectTake_kept s h)
  | injectReleaseHeld r => exact .of_eq (execInjectReleaseHeld_kept r s h)
  | releaseTimeout w => exact .of_eq (execReleaseTimeout_kept w s h)
  | cmdNop => exact .of_eq (execCmdNop_kept s h)
  | cmdCopy => exact .of_eq (execCmdCopy_kept s h)
  | cmdTask => exact .of_eq (execCmdTask_kept s h)
  | cmdQput => exact .of_eq (execCmdQput_kept s h)
  | cmdInject => exact .of_eq (execCmdInject_kept s h)
  | cmdPatch => exact .of_eq (execCmdPatch_kept s h)
  | cmdBad => exact .of_eq (execCmdBad_kept s h)
  | patchSwitchDone => exact .of_eq (execPatchSwitchDone_kept s h)
  | eventBacklogDrain n => exact .of_eq (execEventBacklogDrain_kept n s h)
  | msiModeration n => exact .of_eq (execMsiModeration_kept n s h)
  | msiSend v => exact .of_eq (execMsiSend_kept v s h)
  | jacqFloorWrite v => exact .of_eq (execJacqFloorWrite_kept v s h)
  | spindleRestart v => exact .of_eq (execSpindleRestart_kept v s h)
  | spindleRestartDone => exact .of_eq (execSpindleRestartDone_kept s h)
  | rateWindow r => exact .of_eq (execRateWindow_kept r s h)
  | avsStart v => exact .of_eq (execAvsStart_kept v s h)
  | avsRead mv ma ok => exact .of_eq (execAvsRead_kept mv ma ok s h)
  | avsRetry ok => exact .of_eq (execAvsRetry_kept ok s h)
  | tjSample tj r => exact (execTjSample_kept tj r s h).elim .of_eq fun k => k ▸ .tripped ⟨tj, r, rfl⟩
  | loomGate n v => exact .of_eq (execLoomGate_kept n v s h)
  | loomGated n => exact .of_eq (execLoomGated_kept n s h)
  | loomActive n => exact .of_eq (execLoomActive_kept n s h)
  | glassSnapshot v => exact .of_eq (execGlassSnapshot_kept v s h)
  | glassSnapshotDone => exact .of_eq (execGlassSnapshotDone_kept s h)
  | counterWrite a v => exact .of_eq (execCounterWrite_kept a v s h)
  | sampleTake n => exact .of_eq (execSampleTake_kept n s h)
  | bwWindowEnd => exact .of_eq (execBwWindowEnd_kept s h)
  | bwClearPeak => exact .of_eq (execBwClearPeak_kept s h)
  | storePatrol a r => exact .of_eq (execStorePatrol_kept a r s h)
  | digestSnapshot v => exact .of_eq (execDigestSnapshot_kept v s h)
  | digestHiRead a => exact .of_eq (execDigestHiRead_kept a s h)
  | digestScan v => exact .of_eq (execDigestScan_kept v s h)
  | digestScanDone unread => exact .of_eq (execDigestScanDone_kept unread s h)
  | smbReadIdent => exact .of_eq (execSmbReadIdent_kept s h)
  | smbReadTj => exact .of_eq (execSmbReadTj_kept s h)
  | smbReadHbmTemp => exact .of_eq (execSmbReadHbmTemp_kept s h)
  | smbReadBootStat => exact .of_eq (execSmbReadBootStat_kept s h)
  | smbReadThermal => exact .of_eq (execSmbReadThermal_kept s h)
  | smbNack cmd => exact .of_eq (execSmbNack_kept cmd s h)
  | alignmentLockLoss p => exact .of_eq (execAlignmentLockLoss_kept p s h)
  | alignmentLockGain p => exact .of_eq (execAlignmentLockGain_kept p s h)
  | partnerLpiSignal p on => exact .of_eq (execPartnerLpiSignal_kept p on s h)
  | refclkReturn t => exact .of_eq (execRefclkReturn_kept t s h)
  | clockInterruption => exact .of_eq (execClockInterruption_kept s h)

/-- No command makes a list within its bound outgrow it. -/
theorem KeptAfter.hok {c : Instr} {k k' : Kept} (h : KeptAfter c k k') (hk : k.hok = true) : k'.hok = true := by
  cases h with
  | same => exact hk
  | cleared _ => rfl
  | listTaken _ => rfl
  | tripped _ => exact hk

/-- Settles O58: a command keeps the bound (`exec_keptAfter`), and a nanosecond that passes leaves the list as it is. -/
theorem hostListBounded : Obligations.HostListBounded := by
  unfold Obligations.HostListBounded
  intro s t hs hstep
  rw [State.kept_hok] at hs ⊢
  unfold step at hstep
  split at hstep
  · cases hstep
    rwa [State.postDue_kept, State.tick_kept]
  · exact (exec_keptAfter hstep).hok hs

end Sys2Proof.Machine
end


section
/-! PROOF. What sees nothing of event records: a view of the state that no write to memory, host rings, tasks, HBM
channels, their registers and their counts moves is not moved by an error bit either (R439 to R441, R488). -/

namespace Sys2Proof.Machine

/-- The registers that event records and accesses to HBM may write lie below 0x80000 or are those of the Creels. -/
def recordReg (a : Nat) : Prop := a < 0x80000 ∨ 0x400000 ≤ a

/-- `π` sees nothing of what event records and accesses to HBM write. -/
structure PastRecords {β : Type} (π : State → β) : Prop where
  rest : ∀ (s : State) m c h x t r,
    π { s with mem := m, freeCtr := c, host := h, creel := x, spin := { s.spin with task := t, ready := r } } = π s
  wr : ∀ (s : State) a w, recordReg a → π (s.wr a w) = π s
  seen : ∀ s : State, π (s.cntShared 9) = π s
  unc : ∀ s : State, π (s.cntShared 10) = π s

/-- What holds of both branches. -/
theorem view_ite {β : Type} {π : State → β} {b : β} {t u : State} (ht : π t = b) (hu : π u = b) {c : Prop}
    {_ : Decidable c} : π (if c then t else u) = b := by
  split
  · exact ht
  · exact hu

namespace PastRecords

section
variable {β : Type} {π : State → β} (h : PastRecords π)
include h

/-! ## Accesses to HBM -/

theorem creel (s : State) (x : Creel) : π { s with creel := x } = π s := h.rest s _ _ _ x _ _
theorem host (s : State) (x : HostIf) : π { s with host := x } = π s := h.rest s _ _ x _ _ _

theorem setBytes (s : State) (a : Nat) (bs : List Byte) : π (s.setBytes a bs) = π s := by
  rw [State.setBytes_only]
  exact h.rest s _ _ _ _ _ _

theorem chanReg (s : State) (c : Nat) (w : Word) : π (s.wr (chanReg c) w) = π s :=
  h.wr s _ w (.inr (by unfold Machine.chanReg Reg.creelChan; omega))

theorem creelErr (s : State) (k : Nat) (w : Word) : π (s.wr (Reg.creelErr k) w) = π s :=
  h.wr s _ w (.inr (by unfold Reg.creelErr; omega))

theorem creelInfo (s : State) (c a : Nat) : π (s.creelInfo c a) = π s :=
  h.wr s _ _ (.inr (by unfold Reg.creelErrInfo; omega))

theorem updChan (s : State) (c : Nat) (f : Chan → Chan) : π (s.updChan c f) = π s := h.creel s _

theorem setErrs (s : State) (line : Nat) (e : List SymErr) : π (s.setErrs line e) = π s := h.creel s _

theorem later (s : State) (typ src : Nat) (payload : List Byte) : π (s.later typ src payload) = π s := h.host s _

theorem creelCmdOf (s : State) (c a code : Nat) : π (s.creelCmdOf c a code) = π s :=
  view_ite ((h.creel _ _).trans (h.wr s _ _ (.inr (by unfold Reg.creelCmdStat; omega)))) rfl

theorem searchOff (s : State) (c : Nat) : π (s.searchOff c) = π s := by
  rw [State.searchOff, h.creelCmdOf, h.creelCmdOf, h.updChan]

theorem ceBit (s : State) (k : Nat) : π (s.ceBit k) = π s :=
  view_ite rfl ((h.later _ _ _ _).trans (h.creelErr s _ _))

theorem corrected (s : State) (c a : Nat) : π (s.corrected c a) = π s := by
  unfold State.corrected
  extract_lets u lim
  have hu : π u = π s := (h.updChan _ _ _).trans ((h.chanReg _ _ _).trans (h.seen s))
  exact view_ite ((h.updChan _ _ _).trans ((h.ceBit _ _).trans ((h.creelInfo u _ _).trans hu))) hu

theorem lineSeen (s : State) (a : Nat) : π (s.lineSeen a) = π s := by
  unfold State.lineSeen
  refine view_ite rfl ?_
  split
  · exact view_ite rfl (h.corrected s _ _)
  · rfl

theorem freeze (s : State) (a : Nat) : π (s.freeze a) = π s := by
  unfold State.freeze
  split
  · rfl
  · refine view_ite rfl ?_
    extract_lets u v w
    have hu : π u = π s := (h.searchOff _ _).trans (h.chanReg s _ _)
    have hv : π v = π s := (h.creelInfo _ _ _).trans ((h.creelErr u _ _).trans hu)
    have hw : π w = π s := (h.later v _ _ _).trans hv
    exact view_ite hw ((h.creel w _).trans hw)

theorem uncRead (s : State) (a : Nat) : π (s.uncRead a) = π s := by
  unfold State.uncRead
  extract_lets u
  have hu : π u = π s := h.unc s
  split
  · exact hu
  · extract_lets v w
    have hw : π w = π s := (h.creelInfo v _ _).trans ((h.creelErr u _ _).trans hu)
    exact (h.freeze _ _).trans ((h.updChan _ _ _).trans ((h.chanReg w _ _).trans hw))

theorem uncAlone (s : State) (a : Nat) : π (s.uncAlone a) = π s := by
  unfold State.uncAlone
  extract_lets t
  have ht : π t = π s := h.uncRead s a
  split
  · exact ht
  · exact view_ite ht ((h.later _ _ _ _).trans ((h.rest t _ _ _ _ _ _).trans ht))

theorem hbmReq (s : State) (flow read pair : Bool) (a : Nat) (who : EvMaster) :
    π (s.hbmReq flow read pair a who).2 = π s := by
  simp only [State.hbmReq]
  split
  · exact h.creel s _
  · split
    · exact h.creel s _
    · exact (h.updChan _ _ _).trans (h.creel s _)

theorem hbmReqs (s : State) (flow read : Bool) (who : EvMaster) (lo hi k a : Nat) :
    π (State.hbmReqs s flow read who lo hi k a) = π s := by
  induction k generalizing s a with
  | zero => rfl
  | succ k ih => exact (ih _ _).trans ((h.hbmReq _ _ _ _ _ _).trans (view_ite (h.lineSeen s _) rfl))

theorem hbmTraffic (s : State) (flow read : Bool) (who : EvMaster) (a n : Nat) :
    π (s.hbmTraffic flow read who a n) = π s := view_ite (h.hbmReqs s _ _ _ _ _ _ _) rfl

theorem scanTouch (s : State) (a n : Nat) : π (s.scanTouch a n) = π s :=
  view_ite (h.wr s _ _ (.inl (by decide))) rfl

theorem hbmPutLine (s : State) (a : Nat) (bs : List Byte) : π (s.hbmPutLine a bs) = π s := by
  unfold State.hbmPutLine
  refine view_ite rfl ?_
  extract_lets u v
  have hv : π v = π s := (h.scanTouch u _ _).trans ((h.setBytes _ a bs).trans (view_ite rfl (h.lineSeen s a)))
  refine view_ite ((h.setErrs v _ _).trans hv) (view_ite ?_ ((h.setErrs v _ _).trans hv))
  exact (h.setErrs _ _ _).trans ((view_ite rfl (h.uncAlone v a)).trans hv)

theorem hbmPutCopy (s : State) (n a : Nat) (bs : List Byte) : π (s.hbmPutCopy n a bs) = π s := by
  induction n generalizing s a bs with
  | zero => rfl
  | succ n ih => exact view_ite rfl ((ih _ _ _).trans (h.hbmPutLine s _ _))

theorem hbmStore (s : State) (who : EvMaster) (a : Nat) (bs : List Byte) : π (s.hbmStore who a bs) = π s := by
  have hput (u : State) (b : Nat) : π ((u.hbmTraffic false false who b bs.length).hbmPut b bs) = π u :=
    (h.hbmPutCopy _ _ _ _).trans (h.hbmTraffic u _ _ _ _ _)
  unfold State.hbmStore
  dsimp only
  split
  · exact hput s a
  · exact (hput _ _).trans (hput s a)

theorem poke (s : State) (a : Nat) (bs : List Byte) : π (s.poke a bs) = π s :=
  view_ite (h.hbmStore s _ _ _) (view_ite rfl (h.setBytes s a bs))

/-! ## Event records -/

theorem setTask (s : State) (k : Nat) (t : Task) : π (s.setTask k t) = π s := h.rest s _ _ _ _ _ _

theorem pushReady (s : State) (k : Nat) : π (s.pushReady k) = π s := h.rest s _ _ _ _ _ _

theorem wakeTask (s : State) (k : Nat) (f : Task → Task) : π (s.wakeTask k f) = π s :=
  (h.pushReady _ _).trans (h.setTask s _ _)

theorem signal (s : State) (k : Nat) (mask : BitVec 32) : π (s.signal k mask) = π s := by
  unfold State.signal
  extract_lets t u fl
  have hu : π u = π s := h.setTask s _ _
  refine view_ite rfl ?_
  split
  · exact view_ite ((h.wakeTask u _ _).trans hu) hu
  · exact view_ite ((h.pushReady _ _).trans ((h.setTask u _ _).trans hu)) hu

theorem msi (s : State) (vec : Nat) : π (s.msi vec) = π s := view_ite (h.host s _) (view_ite rfl (h.host s _))

theorem ringGained (s : State) (n : Nat) : π (s.ringGained n) = π s :=
  view_ite rfl (view_ite ((h.host _ _).trans (h.msi s _)) (h.host s _))

theorem ringPut (s : State) {n : Nat} (r : List Byte) (hn : n < 4) : π (s.ringPut n r) = π s :=
  (h.ringGained _ _).trans ((h.wr _ _ _ (.inl (by unfold Reg.ringProd; omega))).trans (h.poke s _ _))

theorem ring1Notify (s : State) : π s.ring1Notify = π s := view_ite (h.signal s _ _) rfl

theorem setBacklog (s : State) (k : Nat) (b : Backlog) : π (s.setBacklog k b) = π s := h.host s _

theorem deliver (s : State) {k : Nat} (r : List Byte) (hk : k < 2) : π (s.deliver k r).1 = π s := by
  have hput : π (s.ringPut (2 + k) r) = π s := h.ringPut s r (by omega)
  unfold State.deliver
  dsimp only
  split
  · exact view_ite ((h.ring1Notify _).trans hput) hput
  · split
    · exact h.setBacklog s _ _
    · exact (h.wr _ _ _ (.inl (by decide))).trans ((h.wr _ _ _ (.inl (by decide))).trans (h.setBacklog s _ _))

theorem postOne (s : State) (typ src : Nat) (payload : List Byte) : π (s.postOne typ src payload).1 = π s := by
  have hif (u : State) (r : List Byte) (b : Bool) {k : Nat} (hk : k < 2) :
      π (if b then u.deliver k r else (u, false)).1 = π u := by
    split
    · exact h.deliver u r hk
    · rfl
  exact (hif _ _ _ (by decide)).trans ((hif _ _ _ (by decide)).trans (h.host s _))

/-- One round of the records of overflow bits. -/
theorem postRound (bs : List Nat) (p : State × List Nat) :
    π (bs.foldl (fun (p : State × List Nat) b =>
      let q := p.1.postOne 1 1 (errPayload Reg.hostifErr b 0)
      (q.1, p.2 ++ q.2)) p).1 = π p.1 := by
  induction bs generalizing p with
  | nil => rfl
  | cons _ bs ih => exact (ih _).trans (h.postOne p.1 _ _ _)

theorem postOvf (s : State) (n : Nat) (bs : List Nat) : π (s.postOvf n bs) = π s := by
  induction n generalizing s bs with
  | zero => rfl
  | succ n ih =>
    cases bs with
    | nil => rfl
    | cons b bs => exact (ih _ _).trans (h.postRound (b :: bs) (s, []))

theorem postNext (s : State) (typ src : Nat) (payload : List Byte) : π (s.postNext typ src payload) = π s :=
  (h.postOvf _ _ _).trans (h.postOne s _ _ _)

theorem post (s : State) (typ src : Nat) (payload : List Byte) : π (s.post typ src payload) = π s :=
  (h.postNext _ _ _ _).trans
    ((foldl_same π _ (fun u _ => h.postNext u _ _ _) _ _).trans (h.host s _))

/-- R440: what an error bit leaves of a view that its register does not move either. -/
theorem err {a : Nat} (ha : ∀ (s : State) w, π (s.wr a w) = π s) (s : State) (bit info : Nat) :
    π (s.err a bit info) = π s := view_ite rfl ((h.post _ _ _ _).trans (ha s _))

end

/-! ## Views that see nothing of event records -/

theorem of_beam : PastRecords State.beam :=
  ⟨fun _ _ _ _ _ _ _ => rfl, fun _ _ _ _ => rfl, fun _ => rfl, fun _ => rfl⟩

theorem of_pkts : PastRecords State.pkts :=
  ⟨fun _ _ _ _ _ _ _ => rfl, fun _ _ _ _ => rfl, fun _ => rfl, fun _ => rfl⟩

theorem of_rd {a : Nat} (ha : ¬ recordReg a) : PastRecords fun s => s.rd a where
  rest _ _ _ _ _ _ _ := rfl
  wr s _ w hb := s.rd_wr_other w fun hab => ha (hab ▸ hb)
  seen _ := rfl
  unc _ := rfl

/-- Event records move no counter but those of corrected and of uncorrectable reads. -/
theorem of_counter {o : Nat} (hseen : o ≠ 0x190048) (hunc : o ≠ 0x190050) : PastRecords fun s => s.counter o where
  rest _ _ _ _ _ _ _ := rfl
  wr _ _ _ _ := rfl
  seen s := (s.counter_count _ _ o).trans (if_neg hseen)
  unc s := (s.counter_count _ _ o).trans (if_neg hunc)

end PastRecords

/-- R440: an error bit is set, in a register that no record writes. -/
theorem State.err_sets (s : State) {a bit : Nat} (info : Nat) (ha : ¬ recordReg a) (hb : bit < 64) :
    ((s.err a bit info).rd a).getLsbD bit = true := by
  unfold State.err
  split
  · assumption
  · rw [(PastRecords.of_rd ha).post]
    rw [State.setBit, State.rd_wr_same, BitVec.getLsbD_or, BitVec.getLsbD_ofNat, Nat.testBit_two_pow_self]
    simp [hb]

end Sys2Proof.Machine
end

section
/-! PROOF. One copy of a packet that is offered to a queue: what R288 decides of it, what it is charged, and what its
queue, its residue and its counters hold afterwards (R285 to R300). -/

namespace Sys2Proof.Machine

/-! ## The verdict of R288 -/

theorem cellsOf_eq (len : Nat) : cellsOf len = (len + 255) / 256 := by
  unfold cellsOf ceilDiv
  omega

/-- R303: the port of queue `i` is down and drops what comes for it. -/
def State.downDrops (s : State) (i : Nat) : Prop :=
  s.flag (Reg.beamPort (queuePort i)) Fld.beamPortLink = false ∧
    s.flag (Reg.beamPort (queuePort i)) Fld.beamPortDownMode = true

/-- A field as a quotient. -/
theorem bitsOf_quotient {hi lo m : Nat} (h : 2 ^ (hi + 1 - lo) = m) (n : Nat) : bitsOf n hi lo = n / 2 ^ lo % m :=
  h ▸ bitsOf_eq n hi lo

theorem State.dynLimit_eq (s : State) (i : Nat) :
    s.dynLimit i = s.sharedFree * 2 ^ (s.qcfg0 i / 2 ^ 44 % 16) / 128 := by
  rw [State.dynLimit, bitsOf_quotient (m := 16) rfl]

section
variable {s : State} {x : Pkt} {i n : Nat} {room : Bool}

theorem State.verdict_down (h : s.downDrops i) : s.verdict x i n room = .drop 0 := by
  obtain ⟨hlink, hmode⟩ := h
  simp [State.verdict, State.portIsDown, hlink, hmode]

/-- At a port that takes copies, the rules of R288 in their order. -/
theorem State.verdict_up (h : ¬ s.downDrops i) : s.verdict x i n room =
    let a := s.acctFor x i
    if s.depth i + n ≤ s.qcfg0 i / 2 ^ 48 % 65536 ∧ (room = true ∨ n ≤ s.minFree) then .taken .minimum
    else if s.lossless x i then
      if (s.acct a).shared < s.acctCfg a / 2 ^ 44 % 2 ^ 20 ∧ n ≤ s.sharedFree then .taken .shared
      else if (s.acct a).head + n ≤ s.acctCfg a / 2 ^ 4 % 2 ^ 20 ∧ n ≤ s.headFree then .taken .headroom
      else .drop 2
    else if s.depth i + n ≤ s.sharedFree * 2 ^ (s.qcfg0 i / 2 ^ 44 % 16) / 128 ∧ (room = true ∨ n ≤ s.sharedFree)
    then .taken .shared
    else .drop 1 := by
  have hport : (s.portIsDown (queuePort i) && s.flag (Reg.beamPort (queuePort i)) Fld.beamPortDownMode) = false := by
    simpa [State.downDrops, State.portIsDown] using h
  rw [State.verdict, hport, if_neg Bool.false_ne_true, State.dynLimit_eq, bitsOf_quotient (m := 65536) rfl]
  simp only [bitsOf_quotient (hi := 63) (lo := 44) (m := 2 ^ 20) rfl,
    bitsOf_quotient (hi := 23) (lo := 4) (m := 2 ^ 20) rfl]

end

/-! ## Accounts and their pauses (R292) -/

/-- `t` is `s` but for PFC accounts and what ports ask for. -/
def State.pfcOnly (t s : State) : Prop :=
  ∃ a p, t = { s with beam := { s.beam with acct := a }, selv := { s.selv with port := p } }

theorem State.pfcOnly.refl (s : State) : s.pfcOnly s := ⟨s.beam.acct, s.selv.port, rfl⟩

theorem State.pfcOnly.trans {t u s : State} (h : t.pfcOnly u) (k : u.pfcOnly s) : t.pfcOnly s := by
  obtain ⟨a, p, rfl⟩ := h
  obtain ⟨b, q, rfl⟩ := k
  exact ⟨a, p, rfl⟩

theorem State.setAcct_pfcOnly (s : State) (k : Nat) (v : Acct) : (s.setAcct k v).pfcOnly s := ⟨_, s.selv.port, rfl⟩

/-- A PFC frame that is asked for concerns its port alone. -/
theorem State.askPfc_ports (s : State) (p : Nat) (rel : Option Nat) :
    ∃ ps, s.askPfc p rel = { s with selv := { s.selv with port := ps } } := by
  unfold State.askPfc State.lpiWake
  split <;> exact ⟨_, rfl⟩

theorem State.askPfc_pfcOnly (s : State) (p : Nat) (rel : Option Nat) : (s.askPfc p rel).pfcOnly s := by
  obtain ⟨ps, h⟩ := s.askPfc_ports p rel
  exact ⟨s.beam.acct, ps, h⟩

theorem State.askPfc_asks (s : State) (p : Nat) (rel : Option Nat) : ((s.askPfc p rel).port p).pfcReq = true := by
  rw [State.askPfc, State.port_updPort_same]

theorem State.acct_setAcct (s : State) (k : Nat) (v : Acct) : (s.setAcct k v).acct k = v := Tbl.get_set_same _ _ _ _

theorem State.acctXoff_pfcOnly (s : State) (k : Nat) : (s.acctXoff k).pfcOnly s := by
  unfold State.acctXoff
  extract_lets v
  split
  · exact (State.askPfc_pfcOnly _ _ _).trans (s.setAcct_pfcOnly _ _)
  · exact .refl s

theorem State.acctSub_pfcOnly (s : State) (k : Nat) (head : Bool) (n : Nat) : (s.acctSub k head n).pfcOnly s := by
  have hsettle (u : State) : (u.acctSettle k).pfcOnly u := by
    unfold State.acctSettle
    extract_lets v
    split
    · exact (State.askPfc_pfcOnly _ _ _).trans (u.setAcct_pfcOnly _ _)
    · exact .refl u
  exact (hsettle _).trans (s.setAcct_pfcOnly _ _)

/-- R292: account `k` of `s` goes into XOFF. -/
def State.pauses (s : State) (k : Nat) : Prop :=
  (s.acct k).xoff = false ∧ s.acctCfg k / 2 ^ 44 ≤ (s.acct k).shared ∧
    s.flag (Reg.beamPort (k / 8)) Fld.beamPortPfcTxEn = true

/-- XOFF of an account is the top field of its word. -/
theorem State.acctCfg_xoff (s : State) (k : Nat) : bitsOf (s.acctCfg k) 63 44 = s.acctCfg k / 2 ^ 44 := by
  have hlt := ofLE_lt (s.bytes (0x31830000 + 16 * k) 8)
  rw [State.length_bytes] at hlt
  rw [bitsOf_eq, Nat.mod_eq_of_lt]
  exact Nat.div_lt_of_lt_mul hlt

theorem State.acctXoff_of_pauses {s : State} {k : Nat} (h : s.pauses k) :
    s.acctXoff k = (s.setAcct k { s.acct k with xoff := true }).askPfc (k / 8) none := by
  obtain ⟨hx, hs, hf⟩ := h
  rw [State.acctXoff, State.acctCfg_xoff, if_pos ⟨by rw [hx]; rfl, hs, hf⟩]

theorem State.acctXoff_of_not {s : State} {k : Nat} (h : ¬ s.pauses k) : s.acctXoff k = s := by
  unfold State.acctXoff
  extract_lets v
  refine if_neg fun hc => h ?_
  rw [State.acctCfg_xoff] at hc
  exact ⟨by simpa using hc.1, hc.2⟩

theorem State.acct_of_pauses {s : State} {k : Nat} (h : s.pauses k) :
    (s.acctXoff k).acct k = { s.acct k with xoff := true } := by
  rw [State.acctXoff_of_pauses h]
  obtain ⟨ps, he⟩ := (s.setAcct k { s.acct k with xoff := true }).askPfc_ports (k / 8) none
  rw [he]
  exact s.acct_setAcct k _

/-- An account after it was looked at: it has its cells, is in XOFF if it was or pauses now, and then asks for a
frame. -/
theorem State.acctXoff_spec (s : State) (k : Nat) : ((s.acctXoff k).acct k).shared = (s.acct k).shared ∧
    ((s.acctXoff k).acct k).head = (s.acct k).head ∧
    (((s.acctXoff k).acct k).xoff = true ↔ (s.acct k).xoff = true ∨ s.pauses k) ∧
    (s.pauses k → ((s.acctXoff k).port (k / 8)).pfcReq = true) := by
  by_cases h : s.pauses k
  · rw [State.acct_of_pauses h, State.acctXoff_of_pauses h]
    exact ⟨rfl, rfl, by simp [h], fun _ => State.askPfc_asks _ _ _⟩
  · rw [State.acctXoff_of_not h]
    exact ⟨rfl, rfl, by simp [h], fun hp => absurd hp h⟩

/-! ## Charging (R285, R286) -/

/-- `n` cells in one pool. -/
def inPool (n : Nat) (pool : Pool) : Pool → Nat := fun q => if q = pool then n else 0

/-- The buffer after `n` cells were taken from bank `l` and a pool. -/
def Beam.charged (b : Beam) (l n : Nat) (pool : Pool) : Beam :=
  { b with
    bankUsed := Tbl.upd (Tbl.const 0) b.bankUsed l (· + n), minUsed := b.minUsed + inPool n pool .minimum
    sharedUsed := b.sharedUsed + inPool n pool .shared, headUsed := b.headUsed + inPool n pool .headroom }

/-- A packet that is stored in `n` cells of a pool. -/
def Pkt.charged (x : Pkt) (n : Nat) (pool : Pool) (acct : Option Nat) : Pkt :=
  { x with place := .stored, pool := some pool, acct := acct, cells := n }

/-- An account after `n` cells of a pool were charged to it. -/
def Acct.charged (v : Acct) (n : Nat) (pool : Pool) : Acct :=
  if pool = .headroom then { v with head := v.head + n } else { v with shared := v.shared + n }

/-- `s` after packet `p`, which is `x`, was charged to its bank and a pool. -/
def State.charged (s : State) (p : Nat) (x : Pkt) (n : Nat) (pool : Pool) (acct : Option Nat) : State :=
  { s with beam := s.beam.charged x.loom n pool }.setPkt p (some (x.charged n pool acct))

/-- R285, R286: a charge, and the account it counts in, if there is one. -/
theorem State.charge_eq {s : State} {p : Nat} {x : Pkt} (hx : s.pkt? p = some x) (n : Nat) (pool : Pool)
    (acct : Option Nat) : s.charge p n pool acct =
      match (if pool = .minimum then none else acct) with
      | none => s.charged p x n pool none
      | some k => ((s.charged p x n pool (some k)).setAcct k ((s.acct k).charged n pool)).acctXoff k := by
  simp only [State.charge, hx]
  cases pool
  · rfl
  · cases acct <;> rfl
  · cases acct <;> rfl

/-- A charge leaves the state charged but for PFC accounts and what ports ask for. -/
theorem State.charge_pfcOnly {s : State} {p : Nat} {x : Pkt} (hx : s.pkt? p = some x) (n : Nat) (pool : Pool)
    (acct : Option Nat) : ∃ a, (s.charge p n pool acct).pfcOnly (s.charged p x n pool a) := by
  rw [State.charge_eq hx]
  split
  · exact ⟨none, .refl _⟩
  · exact ⟨_, (State.acctXoff_pfcOnly _ _).trans (State.setAcct_pfcOnly _ _ _)⟩

/-- Bank `l` and the pools of `u` have more in use than those of `s`: `b` cells of each pool. -/
def State.usesMore (u s : State) (l : Nat) (b : Pool → Nat) : Prop :=
  u.bankUsed l = s.bankUsed l + b .minimum + b .shared + b .headroom ∧ u.beam.minUsed = s.beam.minUsed + b .minimum ∧
    u.beam.sharedUsed = s.beam.sharedUsed + b .shared ∧ u.beam.headUsed = s.beam.headUsed + b .headroom

theorem State.charged_usesMore (s : State) (p : Nat) (x : Pkt) (n : Nat) (pool : Pool) (a : Option Nat) :
    (s.charged p x n pool a).usesMore s x.loom (inPool n pool) := by
  refine ⟨?_, rfl, rfl, rfl⟩
  have hbank : (s.charged p x n pool a).bankUsed x.loom = s.bankUsed x.loom + n := Tbl.get_set_same _ _ _ _
  rw [hbank]
  cases pool <;> simp [inPool]

/-- `u` is `s` with cells charged: queues and residue are those of `s`, and packet `p`, which was `x`, has its
copies. -/
structure State.chargedFor (u s : State) (p : Nat) (x : Pkt) (b : Pool → Nat) : Prop where
  q : u.beam.q = s.beam.q
  residue : u.beam.residue = s.beam.residue
  uses : u.usesMore s x.loom b
  pkt : ∃ y, u.pkt? p = some y ∧ y.refs = x.refs

theorem State.chargedFor.refl {s : State} {p : Nat} {x : Pkt} (hx : s.pkt? p = some x) :
    s.chargedFor s p x fun _ => 0 := ⟨rfl, rfl, ⟨rfl, rfl, rfl, rfl⟩, x, hx, rfl⟩

theorem State.charge_chargedFor {s : State} {p : Nat} {x : Pkt} (hx : s.pkt? p = some x) (n : Nat) (pool : Pool)
    (acct : Option Nat) : (s.charge p n pool acct).chargedFor s p x (inPool n pool) := by
  obtain ⟨a, as, ps, h⟩ := State.charge_pfcOnly hx n pool acct
  have hpkt : (s.charged p x n pool a).pkt? p = some (x.charged n pool a) := State.pkt_setPkt _ _ _
  rw [h]
  exact ⟨rfl, rfl, s.charged_usesMore p x n pool a, x.charged n pool a, hpkt, rfl⟩

/-! ## What becomes of a copy -/

/-- One more copy of a packet. -/
def Pkt.addRef (x : Pkt) : Pkt := { x with refs := x.refs + 1 }

/-- Copy `c` of packet `p`, which was `x`, has entered queue `i`. -/
def State.entered (t s : State) (p i : Nat) (x : Pkt) (c : Copy) : Prop :=
  t.queue i = s.queue i ++ [c] ∧ t.residue i = s.residue i ∧ ∃ y, t.pkt? p = some y ∧ y.refs = x.refs + 1

/-- It has become residue of queue `i`. -/
def State.keptAside (t s : State) (p i : Nat) (x : Pkt) (c : Copy) : Prop :=
  t.queue i = s.queue i ∧ t.residue i = s.residue i ++ [c] ∧ ∃ y, t.pkt? p = some y ∧ y.refs = x.refs + 1

/-- It was dropped, for the reason of counter index `r`. -/
def State.dropped (t s : State) (p i : Nat) (x : Pkt) (r : Nat) : Prop :=
  t.queue i = s.queue i ∧ t.residue i = s.residue i ∧ t.pkt? p = some x ∧ t.usesMore s x.loom (fun _ => 0) ∧
    t.counter (0x40000 + 128 * i + 8 * r) = s.counter (0x40000 + 128 * i + 8 * r) + 1 ∧
    (8192 ≤ i → r = 4 → t.counter (512 * queuePort i + 128) = s.counter (512 * queuePort i + 128) + 1)

/-- R291: the packet of a copy that enters queue `i` is marked, if the queue is deep and the packet ECN-capable. -/
def State.ecnMarked (s : State) (p i : Nat) : State :=
  match s.pkt? p with
  | none => s
  | some x =>
    if i < 8192 ∧ (s.qcfg0 i).testBit 36 ∧ bitsOf (s.qcfg0 i) 35 16 ≤ s.depth i then
      match ecnMark x with
      | none => s
      | some f => (s.cntQueue i 10).setPkt p (some { x with frame := f })
    else s

/-- `s` with other counters and packets. -/
def State.withGlassPkts (s : State) (g : Glass) (ps : Tbl (Option Pkt)) : State := { s with glass := g, pkts := ps }

/-- Marking concerns the packet and the counters. -/
theorem State.ecnMarked_only (s : State) (p i : Nat) :
    ∃ g ps, s.ecnMarked p i = s.withGlassPkts g ps := by
  unfold State.ecnMarked
  split
  · exact ⟨s.glass, s.pkts, rfl⟩
  · split
    · split
      · exact ⟨s.glass, s.pkts, rfl⟩
      · exact ⟨_, _, rfl⟩
    · exact ⟨s.glass, s.pkts, rfl⟩

theorem State.ecnMarked_pkt {s : State} {p : Nat} {x : Pkt} (hx : s.pkt? p = some x) (i : Nat) :
    ∃ f, (s.ecnMarked p i).pkt? p = some { x with frame := f } ∧ ((s.qcfg0 i).testBit 36 = false → f = x.frame) := by
  simp only [State.ecnMarked, hx]
  split
  · next hdeep =>
    split
    · exact ⟨x.frame, hx, fun _ => rfl⟩
    · next f _ => exact ⟨f, State.pkt_setPkt _ _ _, fun h => absurd (h.symm.trans hdeep.2.1) (by decide)⟩
  · exact ⟨x.frame, hx, fun _ => rfl⟩

/-- R288: a copy enters its queue at the end, and is counted. -/
theorem State.enqueue_eq (s : State) (p i n : Nat) (cut : Bool) : s.enqueue p i n cut =
    (((s.ecnMarked p i).setQueue i ((s.ecnMarked p i).queue i ++ [⟨p, n, cut⟩])).cntQueue i 8).cntQueue i 9 n := rfl

theorem State.enqueue_pkts (s : State) (p i n : Nat) (cut : Bool) :
    (s.enqueue p i n cut).pkts = (s.ecnMarked p i).pkts := by
  rw [State.enqueue_eq]
  generalize s.ecnMarked p i = m
  rfl

/-- The queue of the copy, the counters and the packets aside, an entry leaves the state as it was. -/
theorem State.enqueue_only (s : State) (p i n : Nat) (cut : Bool) :
    ∃ g ps, s.enqueue p i n cut = (s.setQueue i (s.queue i ++ [⟨p, n, cut⟩])).withGlassPkts g ps := by
  obtain ⟨g, ps, h⟩ := s.ecnMarked_only p i
  rw [State.enqueue_eq, h]
  exact ⟨_, ps, rfl⟩

theorem State.enqueue_queue (s : State) (p i n : Nat) (cut : Bool) (j : Nat) : (s.enqueue p i n cut).queue j =
    if j = i then s.queue i ++ [⟨p, n, cut⟩] else s.queue j := by
  obtain ⟨g, ps, h⟩ := s.enqueue_only p i n cut
  rw [h]
  exact State.queue_setQueue _ _ _ _

theorem State.enqueue_residue (s : State) (p i n : Nat) (cut : Bool) (j : Nat) :
    (s.enqueue p i n cut).residue j = s.residue j := by
  obtain ⟨g, ps, h⟩ := s.enqueue_only p i n cut
  rw [h]
  rfl

theorem State.enqueue_pkt {s : State} {p : Nat} {x : Pkt} (hx : s.pkt? p = some x) (i n : Nat) (cut : Bool) :
    ∃ f, (s.enqueue p i n cut).pkt? p = some { x with frame := f } ∧
      ((s.qcfg0 i).testBit 36 = false → f = x.frame) := by
  rw [State.pkt?, State.enqueue_pkts]
  exact State.ecnMarked_pkt hx i

section
variable {s u : State} {p : Nat} {x : Pkt} {b : Pool → Nat}

/-- A copy of a packet that has been charged enters its queue. -/
theorem State.chargedFor.enqueue (h : u.chargedFor s p x b) (i n : Nat) (cut : Bool) :
    ((u.updPkt p Pkt.addRef).enqueue p i n cut).entered s p i x ⟨p, n, cut⟩ ∧
      ((u.updPkt p Pkt.addRef).enqueue p i n cut).usesMore s x.loom b := by
  obtain ⟨y, hy, hrefs⟩ := h.pkt
  have hqueue : u.queue i = s.queue i := congrArg (fun q => Tbl.get (Tbl.const []) q i) h.q
  have hresidue : u.residue i = s.residue i := congrArg (fun q => Tbl.get (Tbl.const []) q i) h.residue
  rw [State.updPkt_some hy]
  obtain ⟨f, hf, -⟩ := State.enqueue_pkt (u.pkt_setPkt p (some y.addRef)) i n cut
  refine ⟨⟨?_, (State.enqueue_residue _ _ _ _ _ _).trans hresidue, _, hf, congrArg (· + 1) hrefs⟩, ?_⟩
  · rw [State.enqueue_queue, if_pos rfl, ← hqueue]
    rfl
  · obtain ⟨g, ps, he⟩ := (u.setPkt p (some y.addRef)).enqueue_only p i n cut
    rw [he]
    exact h.uses

/-- A copy of a packet that has been charged becomes residue of its queue. -/
theorem State.chargedFor.keep (h : u.chargedFor s p x b) (i : Nat) (c : Copy) :
    ((u.setResidue i (u.residue i ++ [c])).updPkt p Pkt.addRef).keptAside s p i x c ∧
      ((u.setResidue i (u.residue i ++ [c])).updPkt p Pkt.addRef).usesMore s x.loom b := by
  obtain ⟨y, hy, hrefs⟩ := h.pkt
  have hqueue : u.queue i = s.queue i := congrArg (fun q => Tbl.get (Tbl.const []) q i) h.q
  have hresidue : u.residue i = s.residue i := congrArg (fun q => Tbl.get (Tbl.const []) q i) h.residue
  have hy' : (u.setResidue i (u.residue i ++ [c])).pkt? p = some y := hy
  have hkept : ((u.setResidue i (u.residue i ++ [c])).setPkt p (some y.addRef)).residue i = s.residue i ++ [c] := by
    rw [← hresidue]
    exact Tbl.get_set_same _ _ _ _
  rw [State.updPkt_some hy']
  exact ⟨⟨hqueue, hkept, _, State.pkt_setPkt _ _ _, congrArg (· + 1) hrefs⟩, h.uses⟩

end

/-! ## Drops -/

/-- R290, R299: a drop at queue `i` counts its reason, and MC_COPY (4) at the port as well. -/
def State.dropCounted (s : State) (i r : Nat) : State :=
  if i < 8192 ∨ r ≠ 4 then s.cntQueue i r else (s.cntQueue i r).cntPort (queuePort i) 16

theorem State.dropCounted_countsOnly (s : State) (i r : Nat) : (s.dropCounted i r).countsOnly s := by
  unfold State.dropCounted
  split
  · exact ⟨_, rfl⟩
  · exact ⟨_, rfl⟩

theorem State.counter_count_same (s : State) (o : Nat) : (s.count o).counter o = s.counter o + 1 :=
  (s.counter_count o 1 o).trans (if_pos rfl)

theorem State.counter_count_other (s : State) {o o' : Nat} (k : Nat) (h : o' ≠ o) : (s.count o k).counter o' =
    s.counter o' := (s.counter_count o k o').trans (if_neg h)

/-- R472: the counters of a queue stand past those of the ports. -/
theorem State.dropCounted_counter (s : State) {i : Nat} (r : Nat) (hi : i < 10240) :
    (s.dropCounted i r).counter (0x40000 + 128 * i + 8 * r) = s.counter (0x40000 + 128 * i + 8 * r) + 1 ∧
      (8192 ≤ i → r = 4 → (s.dropCounted i r).counter (512 * queuePort i + 128) =
        s.counter (512 * queuePort i + 128) + 1) := by
  have hport : 512 * queuePort i + 128 < 0x40000 := by unfold queuePort; split <;> omega
  unfold State.dropCounted
  split
  · refine ⟨?_, fun hmc hr => by omega⟩
    exact s.counter_count_same _
  · refine ⟨?_, fun _ _ => ?_⟩
    · exact (State.counter_count_other _ _ (by omega)).trans (s.counter_count_same _)
    · exact (State.counter_count_same _ _).trans (congrArg (· + 1) (s.counter_count_other _ (by omega)))

theorem State.dropCopy_eq {s : State} {p : Nat} {x : Pkt} (hx : s.pkt? p = some x) (i r : Nat) :
    s.dropCopy p i r = if i < 8192 then (s.dropCounted i r).unsent x else s.dropCounted i r := by
  obtain ⟨g, h⟩ := s.dropCounted_countsOnly i r
  have hp : (s.dropCounted i r).pkt? p = some x := by rw [h]; exact hx
  show (match (s.dropCounted i r).pkt? p with
    | none => s.dropCounted i r
    | some x => if i < 8192 then (s.dropCounted i r).unsent x else s.dropCounted i r) = _
  rw [hp]

/-- A dropped copy moves registers and counters only. -/
theorem State.dropCopy_only {s : State} {p : Nat} {x : Pkt} (hx : s.pkt? p = some x) (i r : Nat) :
    ∃ regs, s.dropCopy p i r = { s.dropCounted i r with regs := regs } := by
  rw [State.dropCopy_eq hx]
  split
  · exact State.unsent_regsOnly _ x
  · exact ⟨_, rfl⟩

theorem State.dropCopy_dropped {s : State} {p i : Nat} {x : Pkt} (hx : s.pkt? p = some x) (r : Nat) (hi : i < 10240) :
    (s.dropCopy p i r).dropped s p i x r := by
  obtain ⟨regs, h⟩ := State.dropCopy_only hx i r
  obtain ⟨g, hg⟩ := s.dropCounted_countsOnly i r
  obtain ⟨hcount, hport⟩ := s.dropCounted_counter r hi
  rw [h]
  refine ⟨?_, ?_, ?_, ?_, hcount, hport⟩
  · rw [hg]; rfl
  · rw [hg]; rfl
  · rw [hg]; exact hx
  · rw [hg]; exact ⟨rfl, rfl, rfl, rfl⟩

/-- The same beside another state that shows the same. -/
theorem State.dropped.of_shown {t u s : State} {p i r : Nat} {x : Pkt} (h : t.dropped u p i x r)
    (hbeam : u.beam = s.beam) (hcount : ∀ o < 0x190000, u.counter o = s.counter o) (hi : i < 10240) (hr : r < 16) :
    t.dropped s p i x r := by
  obtain ⟨hq, hres, hp, hused, hc, hport⟩ := h
  rw [hcount _ (by omega)] at hc
  rw [hcount _ (by unfold queuePort; split <;> omega)] at hport
  refine ⟨hq.trans (congrArg (fun b : Beam => Tbl.get (Tbl.const []) b.q i) hbeam),
    hres.trans (congrArg (fun b : Beam => Tbl.get (Tbl.const []) b.residue i) hbeam), hp, ?_, hc, hport⟩
  rwa [State.usesMore, State.bankUsed, State.bankUsed, hbeam] at hused

/-- R386: the stamps that a packet will not take count in registers of the Tally. -/
theorem State.unsent_rd (s : State) (x : Pkt) {a : Nat} (ha : ∀ d, a ≠ Reg.timeTxqStat d) :
    (s.unsent x).rd a = s.rd a := by
  unfold State.unsent
  split
  · refine foldl_same (fun u : State => u.rd a) _ (fun u (e : Nat × Nat) => ?_) _ s
    exact view_ite (π := fun u : State => u.rd a) (u.rd_wr_other _ (ha e.1)) rfl
  · rfl

theorem State.dropCopy_rd {s : State} {p : Nat} {x : Pkt} (hx : s.pkt? p = some x) (i r : Nat) {a : Nat}
    (ha : ∀ d, a ≠ Reg.timeTxqStat d) : (s.dropCopy p i r).rd a = s.rd a := by
  have hcounted : (s.dropCounted i r).rd a = s.rd a := by
    obtain ⟨g, h⟩ := s.dropCounted_countsOnly i r
    rw [h]; rfl
  rw [State.dropCopy_eq hx]
  exact view_ite (π := fun u : State => u.rd a) ((State.unsent_rd _ x ha).trans hcounted) hcounted

theorem Fld.get_ne_zero {f : Fld} {w : Word} (hf : f.lo ≤ f.hi) (h : w.getLsbD f.lo = true) : f.get w ≠ 0 := by
  intro h0
  have hbit := f.get_testBit w 0
  simp only [h0, Nat.zero_testBit, Nat.add_zero, h, Bool.and_true] at hbit
  simp at hbit
  omega

theorem not_recordReg_beamErr : ¬ recordReg Reg.beamErr := by unfold recordReg; decide

/-- A drop that sets an error bit of BEAM_ERR: what the record of the bit writes is none of a copy's matters. -/
theorem State.err_dropCopy {s : State} {p i : Nat} {x : Pkt} (hx : s.pkt? p = some x) {f : Fld} {r : Nat}
    (hf : f.lo ≤ f.hi ∧ f.lo < 64) (hi : i < 10240) (hr : r < 16) :
    ((s.err Reg.beamErr f.lo).dropCopy p i r).dropped s p i x r ∧
      ((s.err Reg.beamErr f.lo).dropCopy p i r).flag Reg.beamErr f = true := by
  have hbeam : (s.err Reg.beamErr f.lo).beam = s.beam := PastRecords.of_beam.err (fun _ _ => rfl) s _ _
  have hpkts : (s.err Reg.beamErr f.lo).pkts = s.pkts := PastRecords.of_pkts.err (fun _ _ => rfl) s _ _
  have hcount (o : Nat) (ho : o < 0x190000) : (s.err Reg.beamErr f.lo).counter o = s.counter o :=
    (PastRecords.of_counter (by omega) (by omega)).err (fun _ _ => rfl) s _ _
  have hpkt : (s.err Reg.beamErr f.lo).pkt? p = some x := by rw [State.pkt?, hpkts]; exact hx
  refine ⟨(State.dropCopy_dropped hpkt r hi).of_shown hbeam hcount hi hr, ?_⟩
  rw [State.flag, State.fld, State.dropCopy_rd hpkt i r fun d => by unfold Reg.timeTxqStat Reg.beamErr; omega]
  simpa using Fld.get_ne_zero hf.1 (s.err_sets 0 not_recordReg_beamErr hf.2)

/-! ## One copy of a packet (R288, R299, R300) -/

/-- The counter index of the reason for which a copy that is not stored is dropped. -/
def dropReason (i : Nat) : Verdict → Nat
  | .drop r => if i < 8192 then r else 4
  | .taken _ => if i < 8192 then 1 else 4

section
variable {s : State} {p : Nat} {x : Pkt} (hx : s.pkt? p = some x) (i : Nat)
include hx

/-- What R288 decides of a copy for queue `i` of packet `x`: a packet that is stored has its pool room. -/
theorem State.admitCopy_headroom (hv : s.verdict x i (cellsOf x.len) (!x.pool.isNone) = .drop 2) :
    s.admitCopy p i = (s.err Reg.beamErr Fld.beamErrHeadroom.lo).dropCopy p i 2 := by
  simp only [State.admitCopy, hx, hv, if_true]

theorem State.admitCopy_aside (hv : s.verdict x i (cellsOf x.len) (!x.pool.isNone) ≠ .drop 2)
    (ha : s.residue i ≠ [] ∨ (∃ r, s.verdict x i (cellsOf x.len) (!x.pool.isNone) = .drop r) ∧
      s.flag Reg.beamCtl Fld.beamCtlMarshal = true) :
    s.admitCopy p i = s.holdResidue p i (cellsOf x.len)
      (dropReason i (s.verdict x i (cellsOf x.len) (!x.pool.isNone))) (s.cutThrough x i) := by
  simp only [State.admitCopy, hx, if_neg hv]
  split
  · rfl
  · next hr =>
    obtain ⟨⟨r, hd⟩, hm⟩ := ha.resolve_left hr
    simp only [hd, hm, if_true]
    rfl

theorem State.admitCopy_drop {r : Nat} (hd : s.verdict x i (cellsOf x.len) (!x.pool.isNone) = .drop r) (hr : r ≠ 2)
    (hres : s.residue i = []) (hm : s.flag Reg.beamCtl Fld.beamCtlMarshal = false) :
    s.admitCopy p i = s.dropCopy p i (dropReason i (.drop r)) := by
  simp only [State.admitCopy, hx, hd, hres, hm, ne_eq, not_true_eq_false, Verdict.drop.injEq, hr, if_false,
    Bool.false_eq_true]
  rfl

theorem State.admitCopy_taken {pool : Pool} (ht : s.verdict x i (cellsOf x.len) (!x.pool.isNone) = .taken pool)
    (hres : s.residue i = []) : s.admitCopy p i =
      if x.pool.isNone = true ∧ s.bankFree x.loom < cellsOf x.len then s.dropCopy p i 3
      else ((if x.pool.isNone then s.charge p (cellsOf x.len) pool (s.acctOf x i) else s).updPkt p Pkt.addRef).enqueue
        p i (cellsOf x.len) (s.cutThrough x i) := by
  simp only [State.admitCopy, hx, ht, hres, ne_eq, not_true_eq_false, reduceCtorEq, if_false]
  rfl

theorem State.holdResidue_eq (n r : Nat) (cut : Bool) : s.holdResidue p i n r cut =
    (let put (u : State) : State := (u.setResidue i (u.residue i ++ [⟨p, n, cut⟩])).updPkt p Pkt.addRef
    if x.pool.isNone = true ∧ s.bankFree x.loom < n then s.dropCopy p i 3
    else if s.fld Reg.beamCtl Fld.beamCtlMarshalLimit < s.residueCells + n then
      (s.err Reg.beamErr Fld.beamErrMarshalFull.lo).dropCopy p i 5
    else if !x.pool.isNone then put s
    else if n ≤ s.minFree then put (s.charge p n .minimum none)
    else if n ≤ s.sharedFree then put (s.charge p n .shared (s.acctOf x i))
    else s.dropCopy p i r) := by
  simp only [State.holdResidue, hx]
  rfl

end

/-! ## What becomes of a copy, by what R288 decides -/

theorem Pkt.cells_eq (x : Pkt) : cellsOf x.len = (x.frame.length + 255) / 256 := cellsOf_eq _

section
variable {s : State} {p : Nat} {x : Pkt} {i n : Nat} {v : Verdict} (hx : s.pkt? p = some x) (hi : i < 10240)
  (hn : cellsOf x.len = n) (hv : s.verdict x i n (!x.pool.isNone) = v)
include hx hi hn hv

/-- R288, R299: a copy that R288 takes, for a queue without residue. -/
theorem State.admitCopy_of_taken {q : Pool} (ht : v = .taken q) (hres : s.residue i = []) :
    (x.pool = none → n ≤ s.bankFree x.loom → (s.admitCopy p i).entered s p i x ⟨p, n, s.cutThrough x i⟩ ∧
      (s.admitCopy p i).usesMore s x.loom (inPool n q)) ∧
    (x.pool = none → s.bankFree x.loom < n → (s.admitCopy p i).dropped s p i x 3) ∧
    (x.pool ≠ none → (s.admitCopy p i).entered s p i x ⟨p, n, s.cutThrough x i⟩ ∧
      (s.admitCopy p i).usesMore s x.loom fun _ => 0) := by
  subst hn ht
  rw [State.admitCopy_taken hx i hv hres]
  refine ⟨fun hf hb => ?_, fun hf hb => ?_, fun hf => ?_⟩
  · rw [if_neg fun h => Nat.not_lt.2 hb h.2, hf]
    exact (State.charge_chargedFor hx _ q _).enqueue i _ _
  · rw [if_pos ⟨Option.isNone_iff_eq_none.2 hf, hb⟩]
    exact State.dropCopy_dropped hx 3 hi
  · have hstored := Option.isNone_eq_false_iff.2 (Option.isSome_iff_ne_none.2 hf)
    rw [hstored, if_neg (by simp)]
    exact (State.chargedFor.refl hx).enqueue i _ _

/-- R290: one for which its account has no headroom left. -/
theorem State.admitCopy_of_headroom (hd : v = .drop 2) : (s.admitCopy p i).dropped s p i x 2 ∧
    (s.admitCopy p i).flag Reg.beamErr Fld.beamErrHeadroom = true := by
  subst hn hd
  rw [State.admitCopy_headroom hx i hv]
  exact State.err_dropCopy hx (by decide) hi (by decide)

/-- R290: another that R288 does not take, outside marshal mode. -/
theorem State.admitCopy_of_drop (hnot2 : v ≠ .drop 2)
    (ha : ¬ (s.residue i ≠ [] ∨ (∃ r, v = .drop r) ∧ s.flag Reg.beamCtl Fld.beamCtlMarshal = true))
    (hd : ∃ r, v = .drop r) : (s.admitCopy p i).dropped s p i x (dropReason i v) := by
  obtain ⟨r, rfl⟩ := hd
  subst hn
  have hres : s.residue i = [] := Classical.not_not.1 fun h => ha (.inl h)
  have hm : s.flag Reg.beamCtl Fld.beamCtlMarshal = false := Bool.eq_false_iff.2 fun h => ha (.inr ⟨⟨r, rfl⟩, h⟩)
  rw [State.admitCopy_drop hx i hv (fun h => hnot2 (h ▸ rfl)) hres hm]
  exact State.dropCopy_dropped hx _ hi

/-- R300: a copy that is to be residue of its queue, within the bank, the limit and the pools. -/
theorem State.admitCopy_of_aside (hnot2 : v ≠ .drop 2)
    (ha : s.residue i ≠ [] ∨ (∃ r, v = .drop r) ∧ s.flag Reg.beamCtl Fld.beamCtlMarshal = true) :
    (x.pool = none → s.bankFree x.loom < n → (s.admitCopy p i).dropped s p i x 3) ∧
    (x.pool ≠ none ∨ n ≤ s.bankFree x.loom → s.fld Reg.beamCtl Fld.beamCtlMarshalLimit < s.residueCells + n →
      (s.admitCopy p i).dropped s p i x 5 ∧ (s.admitCopy p i).flag Reg.beamErr Fld.beamErrMarshalFull = true) ∧
    (s.residueCells + n ≤ s.fld Reg.beamCtl Fld.beamCtlMarshalLimit →
      (x.pool ≠ none → (s.admitCopy p i).keptAside s p i x ⟨p, n, s.cutThrough x i⟩ ∧
        (s.admitCopy p i).usesMore s x.loom fun _ => 0) ∧
      (x.pool = none → n ≤ s.bankFree x.loom →
        (n ≤ s.minFree → (s.admitCopy p i).keptAside s p i x ⟨p, n, s.cutThrough x i⟩ ∧
          (s.admitCopy p i).usesMore s x.loom (inPool n .minimum)) ∧
        (s.minFree < n → n ≤ s.sharedFree → (s.admitCopy p i).keptAside s p i x ⟨p, n, s.cutThrough x i⟩ ∧
          (s.admitCopy p i).usesMore s x.loom (inPool n .shared)) ∧
        (s.minFree < n → s.sharedFree < n → (s.admitCopy p i).dropped s p i x (dropReason i v)))) := by
  subst hn hv
  rw [State.admitCopy_aside hx i hnot2 ha, State.holdResidue_eq hx]
  dsimp only
  refine ⟨fun hf hb => ?_, fun hb hl => ?_, fun hl => ⟨fun hf => ?_, fun hf hb => ?_⟩⟩
  · rw [if_pos ⟨Option.isNone_iff_eq_none.2 hf, hb⟩]
    exact State.dropCopy_dropped hx 3 hi
  · have hroom : ¬ (x.pool.isNone = true ∧ s.bankFree x.loom < cellsOf x.len) := fun ⟨h1, h2⟩ =>
      hb.elim (· (Option.isNone_iff_eq_none.1 h1)) (Nat.not_le.2 h2)
    rw [if_neg hroom, if_pos hl]
    exact State.err_dropCopy hx (by decide) hi (by decide)
  · have hstored := Option.isNone_eq_false_iff.2 (Option.isSome_iff_ne_none.2 hf)
    rw [hstored, if_neg (by simp), if_neg (Nat.not_lt.2 hl), if_pos (by rfl)]
    exact (State.chargedFor.refl hx).keep i _
  · rw [if_neg fun h => Nat.not_lt.2 hb h.2, if_neg (Nat.not_lt.2 hl), hf, if_neg (by simp)]
    refine ⟨fun hm => ?_, fun hm hs => ?_, fun hm hs => ?_⟩
    · rw [if_pos hm]
      exact (State.charge_chargedFor hx _ _ _).keep i _
    · rw [if_neg (Nat.not_le.2 hm), if_pos hs]
      exact (State.charge_chargedFor hx _ _ _).keep i _
    · rw [if_neg (Nat.not_le.2 hm), if_neg (Nat.not_le.2 hs)]
      exact State.dropCopy_dropped hx _ hi

end

/-! ## The account of a copy -/

/-- R292: a charge to shared cells or to headroom counts in its account, which may go into XOFF. -/
theorem State.charge_account {s : State} {p : Nat} {x : Pkt} (hx : s.pkt? p = some x) (n k : Nat) (pool : Pool) :
    let t := s.charge p n pool (some k)
    let pauses := pool ≠ .minimum ∧ (s.acct k).xoff = false ∧ s.acctCfg k / 2 ^ 44 ≤ (t.acct k).shared ∧
      s.flag (Reg.beamPort (k / 8)) Fld.beamPortPfcTxEn = true
    (t.acct k).shared = (s.acct k).shared + inPool n pool .shared ∧
      (t.acct k).head = (s.acct k).head + inPool n pool .headroom ∧
      ((t.acct k).xoff = true ↔ (s.acct k).xoff = true ∨ pauses) ∧
      (pauses → (t.port (k / 8)).pfcReq = true) := by
  intro t pauses
  by_cases hmin : pool = .minimum
  · subst hmin
    have ht : t = s.charged p x n .minimum none := State.charge_eq hx n .minimum (some k)
    have hacct : t.acct k = s.acct k := by rw [ht]; rfl
    rw [hacct]
    exact ⟨rfl, rfl, by simp [pauses], fun h => absurd rfl h.1⟩
  · have ht : t = ((s.charged p x n pool (some k)).setAcct k ((s.acct k).charged n pool)).acctXoff k := by
      have h := State.charge_eq hx n pool (some k)
      rwa [if_neg hmin] at h
    have hacct : ((s.charged p x n pool (some k)).setAcct k ((s.acct k).charged n pool)).acct k =
        (s.acct k).charged n pool := State.acct_setAcct _ _ _
    obtain ⟨hshared, hhead, hxoff, hask⟩ :=
      ((s.charged p x n pool (some k)).setAcct k ((s.acct k).charged n pool)).acctXoff_spec k
    rw [← ht, hacct] at hshared hhead hxoff
    rw [← ht] at hask
    have hcharged : ((s.acct k).charged n pool).xoff = (s.acct k).xoff ∧
        ((s.acct k).charged n pool).shared = (s.acct k).shared + inPool n pool .shared ∧
        ((s.acct k).charged n pool).head = (s.acct k).head + inPool n pool .headroom := by
      cases pool
      · exact absurd rfl hmin
      · exact ⟨rfl, rfl, rfl⟩
      · exact ⟨rfl, rfl, rfl⟩
    obtain ⟨hx', hs', hh'⟩ := hcharged
    have hpauses : pauses ↔
        ((s.charged p x n pool (some k)).setAcct k ((s.acct k).charged n pool)).pauses k := by
      rw [State.pauses, hacct, hx', ← hshared]
      exact ⟨fun h => h.2, fun h => ⟨hmin, h⟩⟩
    rw [hpauses, ← hx']
    exact ⟨hshared.trans hs', hhead.trans hh', hxoff, hask⟩

/-- An entry into a queue and one more copy leave accounts and ports. -/
theorem State.enqueue_accounts {s : State} {p : Nat} {x : Pkt} (hx : s.pkt? p = some x) (i n : Nat)
    (cut : Bool) (k : Nat) : ((s.updPkt p Pkt.addRef).enqueue p i n cut).acct k = s.acct k ∧
      ((s.updPkt p Pkt.addRef).enqueue p i n cut).port k = s.port k := by
  rw [State.updPkt_some hx]
  obtain ⟨g, ps, h⟩ := (s.setPkt p (some x.addRef)).enqueue_only p i n cut
  rw [h]
  exact ⟨rfl, rfl⟩

/-- R292: the account of a lossless copy that is stored. -/
theorem State.admitCopy_account {s : State} {p : Nat} {x : Pkt} {i n : Nat} {q : Pool} (hx : s.pkt? p = some x)
    (hn : cellsOf x.len = n) (hf : x.pool = none) (hv : s.verdict x i n (!x.pool.isNone) = .taken q)
    (hres : s.residue i = []) (hb : n ≤ s.bankFree x.loom) (hl : s.lossless x i = true) :
    let t := s.admitCopy p i
    let a := 8 * x.inPort + s.qClass i
    let pauses := q ≠ .minimum ∧ (s.acct a).xoff = false ∧ s.acctCfg a / 2 ^ 44 ≤ (t.acct a).shared ∧
      s.flag (Reg.beamPort x.inPort) Fld.beamPortPfcTxEn = true
    (t.acct a).shared = (s.acct a).shared + inPool n q .shared ∧
      (t.acct a).head = (s.acct a).head + inPool n q .headroom ∧
      ((t.acct a).xoff = true ↔ (s.acct a).xoff = true ∨ pauses) ∧
      (pauses → (t.port x.inPort).pfcReq = true) := by
  subst hn
  intro t a
  have hport : a / 8 = x.inPort := by
    have hclass : s.qClass i < 8 := Nat.mod_lt _ (by decide)
    show (8 * x.inPort + s.qClass i) / 8 = x.inPort
    omega
  have ht : t = ((s.charge p (cellsOf x.len) q (some a)).updPkt p Pkt.addRef).enqueue p i (cellsOf x.len)
      (s.cutThrough x i) := by
    show s.admitCopy p i = _
    rw [State.admitCopy_taken hx i hv hres, if_neg fun h => Nat.not_lt.2 hb h.2, hf, State.acctOf, if_pos hl]
    rfl
  obtain ⟨y, hy, -⟩ := (State.charge_chargedFor hx (cellsOf x.len) q (some a)).pkt
  have hacct (k : Nat) := State.enqueue_accounts hy i (cellsOf x.len) (s.cutThrough x i) k
  rw [← ht] at hacct
  rw [(hacct a).1, (hacct x.inPort).2, ← hport]
  exact State.charge_account hx _ a q

end Sys2Proof.Machine
end

section
/-! PROOF. What the Beam takes of a packet, residue that enters its queue, and the flush of a queue
(BufferAdmission). -/

namespace Sys2Proof.Machine

/-! ## BEAM_ADMIT -/

theorem exec_beamAdmit {p : PktId} {x : Pkt} {s : State} (hh : s.halted = false) (hx : s.pkt? p = some x)
    (hplace : x.place = .handed) (hheld : s.heldBack p x = false) : exec (.beamAdmit p) s = .next (s.settle p) := by
  show execBeamAdmit p s = _
  simp [execBeamAdmit, hx, hh, hplace, hheld]

section
variable {s : State} {p : Nat} {x : Pkt} (hx : s.pkt? p = some x)
include hx

theorem State.settle_unicast {port q : Nat} (hd : x.pick.disp = .unicast port q) :
    s.settle p = (s.admitCopy p (16 * port + q)).endIfNone p := by
  simp only [State.settle, hx, hd]

theorem State.settle_noPorts {g m : Nat} (hd : x.pick.disp = .multicast g m) (hg : s.groupPorts x g = []) :
    s.settle p = (s.cntLoom x.loom 69).setPkt p none := by
  simp only [State.settle, hx, hd, hg]

theorem State.settle_multicast {g m : Nat} (hd : x.pick.disp = .multicast g m) (hg : s.groupPorts x g ≠ []) :
    s.settle p = ((s.groupPorts x g).foldl (fun t port => t.admitCopy p (8192 + 4 * port + m)) s).endIfNone p := by
  simp only [State.settle, hx, hd]

theorem State.settle_punt {r : Nat} {code : BitVec 32} (hd : x.pick.disp = .punt r code) :
    s.settle p = s.admitPunt p x := by
  simp only [State.settle, hx, hd]

theorem State.endIfNone_gone (h : x.refs = 0) : s.endIfNone p = s.setPkt p none := by
  simp only [State.endIfNone, hx, h, if_true]

theorem State.endIfNone_stays (h : x.refs ≠ 0) : s.endIfNone p = s := by
  simp only [State.endIfNone, hx, h, if_false]

end

/-- R298: the ports of a group, one by one. -/
theorem State.mem_groupPorts {s : State} {x : Pkt} {g q : Nat} :
    let a := 0x31000000 + 128 * g
    let ctl := s.ple x.pick.seq (a + 64) 8
    q ∈ s.groupPorts x g ↔ q < 512 ∧ ctl.testBit 63 = true ∧
      (s.pbyte x.pick.seq (a + q / 8)).getLsbD (q % 8) = true ∧
      s.flag (portCfg q) Fld.selvPortCfgEnable = true ∧ ¬ (ctl.testBit 62 = true ∧ q = x.inPort) := by
  intro a ctl
  show q ∈ (if !ctl.testBit 63 then [] else _) ↔ _
  cases hv : ctl.testBit 63 with
  | false => simp
  | true => simp [and_assoc, a, ctl, Classical.or_iff_not_imp_left]

theorem State.groupPorts_ascending (s : State) (x : Pkt) (g : Nat) : (s.groupPorts x g).Pairwise (· < ·) := by
  unfold State.groupPorts
  extract_lets seq a ctl
  split
  · exact .nil
  · exact (List.pairwise_lt_range).filter _

/-! ## A unicast copy -/

theorem State.charge_noAccount {s : State} {p : Nat} {x : Pkt} (hx : s.pkt? p = some x) (n : Nat) (pool : Pool) :
    s.charge p n pool none = s.charged p x n pool none := by
  rw [State.charge_eq hx, ite_self]

theorem State.charged_pkt (s : State) (p : Nat) (x : Pkt) (n : Nat) (pool : Pool) (acct : Option Nat) :
    (s.charged p x n pool acct).pkt? p = some (x.charged n pool acct) := State.pkt_setPkt _ _ _

theorem inPool_sum (n : Nat) (pool : Pool) :
    inPool n pool .minimum + inPool n pool .shared + inPool n pool .headroom = n := by
  cases pool <;> simp [inPool]

/-- `s` after packet `p`, which is `x`, was stored in `n` cells that no account counts, for one more copy. -/
def State.storedOnce (s : State) (p : Nat) (x : Pkt) (n : Nat) (pool : Pool) : State :=
  (s.charged p x n pool none).setPkt p (some (x.charged n pool none).addRef)

/-- A unicast copy that R288 takes without an account: the packet is stored and its copy queued. -/
theorem State.settle_stores {s : State} {p : Nat} {x : Pkt} {port q i n : Nat} {pool : Pool} (hx : s.pkt? p = some x)
    (hd : x.pick.disp = .unicast port q) (hi : 16 * port + q = i) (hn : cellsOf x.len = n) (hf : x.pool = none)
    (hr : x.refs = 0) (hres : s.residue i = []) (hecn : (s.qcfg0 i).testBit 36 = false)
    (hv : s.verdict x i n false = .taken pool) (hb : n ≤ s.bankFree x.loom) (hl : s.lossless x i = false) :
    ∃ y, (s.settle p).queue i = s.queue i ++ [⟨p, n, s.cutThrough x i⟩] ∧ (s.settle p).pkt? p = some y ∧
      y.place = .stored ∧ y.pool = some pool ∧ y.cells = n ∧ y.refs = 1 ∧ y.frame = x.frame ∧
      (s.settle p).bankUsed x.loom = s.bankUsed x.loom + n ∧
      ((s.settle p).beam.minUsed + (s.settle p).beam.sharedUsed + (s.settle p).beam.headUsed =
        s.beam.minUsed + s.beam.sharedUsed + s.beam.headUsed + n) ∧
      (∀ j, j ≠ i → (s.settle p).queue j = s.queue j) ∧ (s.settle p).mem = s.mem ∧ (s.settle p).regs = s.regs := by
  subst hi hn
  have hvf : s.verdict x (16 * port + q) (cellsOf x.len) (!x.pool.isNone) = .taken pool := by rw [hf]; exact hv
  have hadmit : s.admitCopy p (16 * port + q) = (s.storedOnce p x (cellsOf x.len) pool).enqueue p (16 * port + q)
      (cellsOf x.len) (s.cutThrough x (16 * port + q)) := by
    rw [State.admitCopy_taken hx _ hvf hres, if_neg fun h => Nat.not_lt.2 hb h.2, hf, State.acctOf, hl]
    show ((s.charge p _ pool none).updPkt p Pkt.addRef).enqueue p _ _ _ = _
    rw [State.charge_noAccount hx, State.updPkt_some (State.charged_pkt _ _ _ _ _ _)]
    rfl
  have hstored : (s.storedOnce p x (cellsOf x.len) pool).pkt? p = some (x.charged (cellsOf x.len) pool none).addRef :=
    State.pkt_setPkt _ _ _
  obtain ⟨f, hpkt, hframe⟩ := State.enqueue_pkt hstored (16 * port + q) (cellsOf x.len)
    (s.cutThrough x (16 * port + q))
  obtain ⟨g, ps, honly⟩ := (s.storedOnce p x (cellsOf x.len) pool).enqueue_only p (16 * port + q) (cellsOf x.len)
    (s.cutThrough x (16 * port + q))
  rw [State.settle_unicast hx hd, State.endIfNone_stays (hadmit ▸ hpkt) (Nat.succ_ne_zero _), hadmit]
  refine ⟨_, ?_, hpkt, rfl, rfl, rfl, congrArg (· + 1) hr, hframe hecn, ?_, ?_, fun j hj => ?_, ?_, ?_⟩
  · rw [State.enqueue_queue, if_pos rfl]; rfl
  · rw [honly]
    exact Tbl.get_set_same _ _ _ _
  · have hsum := inPool_sum (cellsOf x.len) pool
    rw [honly]
    show s.beam.minUsed + inPool _ pool .minimum + (s.beam.sharedUsed + inPool _ pool .shared) +
      (s.beam.headUsed + inPool _ pool .headroom) = _
    omega
  · rw [State.enqueue_queue, if_neg hj]; rfl
  · rw [honly]; rfl
  · rw [honly]; rfl

/-- One that is dropped, of a packet that asked for no stamp: the packet is gone, and its queue counts the reason. -/
theorem State.settle_drops {s : State} {p : Nat} {x : Pkt} {port q i r : Nat} (hx : s.pkt? p = some x)
    (hd : x.pick.disp = .unicast port q) (hi : 16 * port + q = i) (hlow : i < 8192) (hf : x.pool = none)
    (hr : x.refs = 0) (hres : s.residue i = []) (hv : s.verdict x i (cellsOf x.len) false = .drop r) (hr2 : r ≠ 2)
    (hm : s.flag Reg.beamCtl Fld.beamCtlMarshal = false) (hstamp : x.pick.stampReq = []) :
    (s.settle p).alike (s.setPkt p none) ∧
      (s.settle p).counter (0x40000 + 128 * i + 8 * r) = s.counter (0x40000 + 128 * i + 8 * r) + 1 := by
  subst hi
  have hvf : s.verdict x (16 * port + q) (cellsOf x.len) (!x.pool.isNone) = .drop r := by rw [hf]; exact hv
  obtain ⟨g, hcounted⟩ := s.dropCounted_countsOnly (16 * port + q) r
  have hadmit : s.admitCopy p (16 * port + q) = s.dropCounted (16 * port + q) r := by
    rw [State.admitCopy_drop hx _ hvf hr2 hres hm, State.dropCopy_eq hx, dropReason, if_pos hlow, if_pos hlow,
      State.unsent_of_no_request _ hstamp]
  have hpkt : (s.dropCounted (16 * port + q) r).pkt? p = some x := by rw [hcounted]; exact hx
  rw [State.settle_unicast hx hd, hadmit, State.endIfNone_gone hpkt hr]
  exact ⟨((s.dropCounted_countsOnly _ r).alike).setPkt p none, (s.dropCounted_counter r (by omega)).1⟩

/-! ## A punted packet (R302) -/

/-- R302: the punt queue of a loom, the shared pool and its bank have room for `n` cells. -/
def State.puntRoom (s : State) (l n : Nat) : Prop :=
  copyCells (s.queue (10240 + l)) + n ≤ s.fld Reg.beamPool Fld.beamPoolPuntLimit ∧ n ≤ s.sharedFree ∧ n ≤ s.bankFree l

section
variable {s : State} {p : Nat} {x : Pkt}

/-- A packet of a single copy. -/
def Pkt.once (x : Pkt) : Pkt := { x with refs := 1 }

theorem State.admitPunt_room (hx : s.pkt? p = some x) (h : s.puntRoom x.loom (cellsOf x.len)) :
    s.admitPunt p x = ((s.charged p x (cellsOf x.len) .shared none).setPkt p
      (some (x.charged (cellsOf x.len) .shared none).once)).setQueue (10240 + x.loom)
        (s.queue (10240 + x.loom) ++ [⟨p, cellsOf x.len, false⟩]) := by
  unfold State.admitPunt
  refine (if_pos h).trans ?_
  rw [State.charge_noAccount hx, State.updPkt_some (State.charged_pkt _ _ _ _ _ _)]
  rfl

theorem State.admitPunt_full (h : ¬ s.puntRoom x.loom (cellsOf x.len)) :
    s.admitPunt p x = ((s.err Reg.beamErr Fld.beamErrPuntDrop.lo).cntLoom x.loom 67).setPkt p none := by
  unfold State.admitPunt
  exact if_neg h

/-- R302, R472: a dropped punt counts in its loom; the record of PUNT_DROP moves no counter of a loom. -/
theorem State.admitPunt_counts (h : ¬ s.puntRoom x.loom (cellsOf x.len)) :
    (s.admitPunt p x).loomCounter x.loom 67 = s.loomCounter x.loom 67 + 1 := by
  rw [State.admitPunt_full h]
  refine (State.counter_count_same _ _).trans (congrArg (· + 1) ?_)
  exact (PastRecords.of_counter (by omega) (by omega)).err (fun _ _ => rfl) s _ _

end

/-! ## What cells, accounts and copies leave: the copies that wait, and memory -/

/-- The copies that wait in queues, in residue and among those called, and memory. -/
def State.waiting (s : State) : Tbl (List Copy) × Tbl (List Copy) × Tbl (List Called) × Tbl Byte :=
  (s.beam.q, s.beam.residue, s.beam.called, s.mem)

section
variable {s t : State} (h : t.waiting = s.waiting)
include h

theorem State.queue_of_waiting (i : Nat) : t.queue i = s.queue i :=
  congrArg (fun w : Tbl (List Copy) × _ => Tbl.get (Tbl.const []) w.1 i) h

theorem State.residue_of_waiting (i : Nat) : t.residue i = s.residue i :=
  congrArg (fun w : _ × Tbl (List Copy) × _ => Tbl.get (Tbl.const []) w.2.1 i) h

theorem State.called_of_waiting (e : Nat) : t.called e = s.called e :=
  congrArg (fun w : _ × _ × Tbl (List Called) × _ => Tbl.get (Tbl.const []) w.2.2.1 e) h

theorem State.mem_of_waiting : t.mem = s.mem := congrArg (fun w => w.2.2.2) h

end

theorem State.pfcOnly.waiting {s t : State} (h : t.pfcOnly s) : t.waiting = s.waiting := by
  obtain ⟨a, p, rfl⟩ := h
  rfl

/-- R299: the cells of a packet return to their pool, their bank and its account. -/
theorem State.freeCells_waiting (s : State) (x : Pkt) : (s.freeCells x).waiting = s.waiting := by
  unfold State.freeCells
  split
  · rfl
  · split
    · exact (State.acctSub_pfcOnly _ _ _ _).waiting
    · rfl
  · split
    · exact (State.acctSub_pfcOnly _ _ _ _).waiting
    · rfl
  · rfl

theorem State.dropRef_waiting (s : State) (p : Nat) : (s.dropRef p).waiting = s.waiting := by
  unfold State.dropRef
  split
  · rfl
  · split
    · exact s.freeCells_waiting _
    · rfl

theorem State.charge_waiting (s : State) (p n : Nat) (pool : Pool) (acct : Option Nat) :
    (s.charge p n pool acct).waiting = s.waiting := by
  cases hx : s.pkt? p with
  | none => simp only [State.charge, hx]
  | some x =>
    obtain ⟨a, h⟩ := State.charge_pfcOnly hx n pool acct
    exact h.waiting

theorem State.recharge_waiting (s : State) (p i n : Nat) (x : Pkt) (pool : Pool) :
    (s.recharge p i n x pool).waiting = s.waiting := by
  unfold State.recharge
  split
  · rfl
  · exact (State.charge_waiting _ _ _ _ _).trans (s.freeCells_waiting x)

theorem State.unsent_waiting (s : State) (x : Pkt) : (s.unsent x).waiting = s.waiting := by
  obtain ⟨r, h⟩ := s.unsent_regsOnly x
  rw [h]
  rfl

theorem State.discard_waiting (s : State) (i : Nat) (l : List Copy) : (s.discard i l).waiting = s.waiting := by
  unfold State.discard
  refine foldl_same State.waiting _ (fun u c => (State.dropRef_waiting _ _).trans ?_) l s
  split
  · exact view_ite (π := State.waiting) (State.unsent_waiting _ _) rfl
  · rfl

theorem State.residue_setResidue (s : State) (i : Nat) (l : List Copy) (k : Nat) :
    (s.setResidue i l).residue k = if k = i then l else s.residue k := Tbl.get_set (Tbl.const []) s.beam.residue i l k

theorem State.called_setCalled (s : State) (e : Nat) (l : List Called) : (s.setCalled e l).called e = l :=
  Tbl.get_set_same _ _ _ _

/-! ## RESIDUE_ADMIT (R300) -/

section
variable {q : Fin 10240} {c : Copy} {rest : List Copy} {x : Pkt} {s : State} (hh : s.halted = false)
  (hres : s.residue q.val = c :: rest) (hx : s.pkt? c.pkt = some x)
include hh hres hx

theorem exec_residueAdmit_stays {r : Nat} (hv : s.residueVerdict q.val c x = .drop r) :
    exec (.residueAdmit q) s = .next s := by
  show execResidueAdmit q s = _
  simp [execResidueAdmit, unlessHalted, hh, hres, hx, hv]

theorem exec_residueAdmit_enters {pool : Pool} (hv : s.residueVerdict q.val c x = .taken pool) :
    exec (.residueAdmit q) s = .next
      (((s.setResidue q.val rest).recharge c.pkt q.val c.n x pool).enqueue c.pkt q.val c.n c.cut) := by
  show execResidueAdmit q s = _
  simp [execResidueAdmit, unlessHalted, hh, hres, hx, hv]

end

/-- The oldest residue of a queue, once taken, stands at the end of the queue. -/
theorem State.residue_enters (s : State) (i : Nat) (c : Copy) (rest : List Copy) (x : Pkt) (pool : Pool) :
    let t := ((s.setResidue i rest).recharge c.pkt i c.n x pool).enqueue c.pkt i c.n c.cut
    t.residue i = rest ∧ t.queue i = s.queue i ++ [c] ∧
      (∀ j, j ≠ i → t.queue j = s.queue j ∧ t.residue j = s.residue j) ∧ t.mem = s.mem := by
  have hwait := (s.setResidue i rest).recharge_waiting c.pkt i c.n x pool
  have hqueue (j : Nat) := State.queue_of_waiting hwait j
  have hresidue (j : Nat) := State.residue_of_waiting hwait j
  obtain ⟨g, ps, honly⟩ := ((s.setResidue i rest).recharge c.pkt i c.n x pool).enqueue_only c.pkt i c.n c.cut
  refine ⟨?_, ?_, fun j hj => ⟨?_, ?_⟩, ?_⟩
  · rw [State.enqueue_residue, hresidue, State.residue_setResidue, if_pos rfl]
  · rw [State.enqueue_queue, if_pos rfl, hqueue]
    rfl
  · rw [State.enqueue_queue, if_neg hj, hqueue]
    rfl
  · rw [State.enqueue_residue, hresidue, State.residue_setResidue, if_neg hj]
  · rw [honly]
    exact (State.mem_of_waiting hwait :)

/-! ## The flush of one queue (R304) -/

/-- What is called of queue `i` and has not begun is taken back. -/
def State.uncalled (s : State) (i : Nat) : State :=
  let e := queuePort i / 32
  if (s.called e).any fun c => c.queue == i then
    (s.setCalled e ((s.called e).filter fun c => c.queue != i)).callGone (queuePort i)
  else s

theorem State.flushQueue_eq (s : State) (i : Nat) :
    s.flushQueue i = (((s.uncalled i).setQueue i []).setResidue i []).discard i (s.flushed i) := rfl

/-- Of the lists of copies, only that of the port's egress loom changes. -/
theorem State.uncalled_waiting (s : State) (i : Nat) :
    ∃ l, (s.uncalled i).waiting = (s.beam.q, s.beam.residue, l, s.mem) := by
  unfold State.uncalled
  extract_lets e
  split
  · exact ⟨_, rfl⟩
  · exact ⟨s.beam.called, rfl⟩

theorem State.uncalled_called (s : State) (i : Nat) :
    (s.uncalled i).called (queuePort i / 32) = (s.called (queuePort i / 32)).filter (·.queue != i) := by
  unfold State.uncalled
  extract_lets e
  split
  · exact State.called_setCalled _ _ _
  · next hnone =>
    refine (List.filter_eq_self.2 fun c hc => ?_).symm
    simp only [List.any_eq_true, not_exists, not_and] at hnone
    simpa using hnone c hc

/-- R304: the queue is empty with its residue, nothing of it is called, and the rest stays. -/
theorem State.flushQueue_empties (s : State) (i : Nat) :
    let t := s.flushQueue i
    t.queue i = [] ∧ t.residue i = [] ∧
      t.called (queuePort i / 32) = (s.called (queuePort i / 32)).filter (·.queue != i) ∧
      (∀ j, j ≠ i → t.queue j = s.queue j ∧ t.residue j = s.residue j) ∧ t.mem = s.mem := by
  intro t
  have hwait : t.waiting = (((s.uncalled i).setQueue i []).setResidue i []).waiting :=
    (congrArg State.waiting (s.flushQueue_eq i)).trans (State.discard_waiting _ _ _)
  obtain ⟨l, hl⟩ := s.uncalled_waiting i
  have hq : (s.uncalled i).beam.q = s.beam.q := congrArg (·.1) hl
  have hr : (s.uncalled i).beam.residue = s.beam.residue := congrArg (·.2.1) hl
  have hqueue (j : Nat) : t.queue j = if j = i then [] else s.queue j := by
    refine (State.queue_of_waiting hwait j).trans (((s.uncalled i).queue_setQueue i [] j).trans ?_)
    rw [State.queue, hq]
    rfl
  have hresidue (j : Nat) : t.residue j = if j = i then [] else s.residue j := by
    refine (State.residue_of_waiting hwait j).trans ((State.residue_setResidue _ _ _ _).trans ?_)
    show (if j = i then [] else (s.uncalled i).residue j) = _
    rw [State.residue, hr]
    rfl
  refine ⟨by rw [hqueue, if_pos rfl], by rw [hresidue, if_pos rfl],
    (State.called_of_waiting hwait _).trans (s.uncalled_called i),
    fun j hj => ⟨by rw [hqueue, if_neg hj], by rw [hresidue, if_neg hj]⟩,
    (State.mem_of_waiting hwait).trans (congrArg (·.2.2.2) hl)⟩

theorem State.length_flushed (s : State) (i : Nat) : (s.flushed i).length =
    ((s.called (queuePort i / 32)).filter (·.queue == i)).length + (s.queue i).length + (s.residue i).length := by
  simp [State.flushed, Nat.add_assoc]

/-! ## BEAM_FLUSH_CMD -/

/-- A command that is a plain write of a register which takes writes. -/
theorem State.byWrite_of_takes {s : State} {a : Nat} (hw : s.takesWrites a) (r : Except Fault State) :
    s.byWrite a r = toOut r := by
  obtain ⟨hh, ho⟩ := hw
  simp [State.byWrite, unlessHalted, hh, ho]

theorem wroteOne_allOnes (f : Fld) (v : Word) : wroteOne f v (BitVec.allOnes 64) = (f.get v != 0) := by
  rw [wroteOne, BitVec.and_allOnes]

/-- BEAM_FLUSH_STAT shows a flush in progress that discarded `n`. -/
def State.flushShown (s : State) (n : Nat) : State :=
  (s.setF Reg.beamFlushStat Fld.beamFlushStatFlushed n).setF Reg.beamFlushStat Fld.beamFlushStatBusy 1

theorem State.flushShown_busy (s : State) (n : Nat) :
    (s.flushShown n).flag Reg.beamFlushStat Fld.beamFlushStatBusy = true := by
  rw [State.flag, State.fld, State.flushShown, State.setF, State.rd_wr_same, Fld.get_put _ _ _ (by decide)]
  rfl

theorem State.flushShown_flushed (s : State) (n : Nat) :
    (s.flushShown n).fld Reg.beamFlushStat Fld.beamFlushStatFlushed =
      n % 2 ^ (Fld.beamFlushStatFlushed.hi + 1 - Fld.beamFlushStatFlushed.lo) := by
  rw [State.fld, State.flushShown, State.setF, State.rd_wr_same, Fld.get_put_other _ _ _ _ (by decide), State.setF,
    State.rd_wr_same, Fld.get_put _ _ _ (by decide)]

section
variable {v : Word} {s : State} (hw : s.takesWrites Reg.beamFlushCmd)
include hw

/-- The command by its cases: no GO, a flush in progress, and the flush of the queues it names. -/
theorem exec_queueFlush : exec (.queueFlush v) s = .next (
    let t0 := s.plainWrite Reg.beamFlushCmd v (BitVec.allOnes 64)
    let q := t0.fld Reg.beamFlushCmd Fld.beamFlushCmdQueue
    let qs := if 10240 ≤ q then [] else
      if t0.flag Reg.beamFlushCmd Fld.beamFlushCmdWholePort then portQueues (queuePort q) else [q]
    if Fld.beamFlushCmdGo.get v = 0 then t0
    else if t0.flag Reg.beamFlushStat Fld.beamFlushStatBusy then t0.setF Reg.beamFlushStat Fld.beamFlushStatIgnored 1
    else (qs.foldl (fun u i => u.flushQueue i) t0).flushShown (qs.map fun i => (t0.flushed i).length).sum) := by
  refine (State.byWrite_of_takes hw _).trans (congrArg Host.Outcome.next ?_)
  have hgo : (!wroteOne Fld.beamFlushCmdGo v (BitVec.allOnes 64)) = true ↔ Fld.beamFlushCmdGo.get v = 0 := by
    rw [wroteOne_allOnes, Bool.not_eq_true', bne_eq_false_iff_eq]
  unfold State.flushWrite
  dsimp only
  exact if_congr hgo rfl rfl

theorem exec_queueFlush_idle (hgo : ¬ Fld.beamFlushCmdGo.get v ≠ 0) :
    exec (.queueFlush v) s = .next (s.plainWrite Reg.beamFlushCmd v (BitVec.allOnes 64)) := by
  rw [exec_queueFlush hw]
  exact congrArg Host.Outcome.next (if_pos (Classical.not_not.1 hgo))

theorem exec_queueFlush_busy (hgo : Fld.beamFlushCmdGo.get v ≠ 0) :
    let t0 := s.plainWrite Reg.beamFlushCmd v (BitVec.allOnes 64)
    t0.flag Reg.beamFlushStat Fld.beamFlushStatBusy = true →
      exec (.queueFlush v) s = .next (t0.setF Reg.beamFlushStat Fld.beamFlushStatIgnored 1) := by
  intro t0 hbusy
  rw [exec_queueFlush hw]
  exact congrArg Host.Outcome.next ((if_neg hgo).trans (if_pos hbusy))

theorem exec_queueFlush_one (hgo : Fld.beamFlushCmdGo.get v ≠ 0) :
    let t0 := s.plainWrite Reg.beamFlushCmd v (BitVec.allOnes 64)
    let i := t0.fld Reg.beamFlushCmd Fld.beamFlushCmdQueue
    ¬ t0.flag Reg.beamFlushStat Fld.beamFlushStatBusy = true → i < 10240 →
      t0.flag Reg.beamFlushCmd Fld.beamFlushCmdWholePort = false →
      exec (.queueFlush v) s = .next ((t0.flushQueue i).flushShown (t0.flushed i).length) := by
  intro t0 i hbusy hi hone
  rw [exec_queueFlush hw]
  refine congrArg Host.Outcome.next ((if_neg hgo).trans ((if_neg hbusy).trans ?_))
  have hqs : (if 10240 ≤ i then [] else if t0.flag Reg.beamFlushCmd Fld.beamFlushCmdWholePort then
      portQueues (queuePort i) else [i]) = [i] := by
    rw [if_neg (Nat.not_le.2 hi), hone]
    rfl
  exact congrArg (fun l : List Nat =>
    (l.foldl (fun u j => u.flushQueue j) t0).flushShown (l.map fun j => (t0.flushed j).length).sum) hqs

end

theorem State.plainWrite_waiting (s : State) (a : Nat) (v en : Word) : (s.plainWrite a v en).waiting = s.waiting := by
  rw [State.plainWrite_only]
  rfl

/-- R304: what a flush of one queue leaves, by what waited before the write that began it. -/
theorem State.flushes_waiting {s t0 : State} (h : t0.waiting = s.waiting) (i : Nat) :
    let e := queuePort i / 32
    let t := (t0.flushQueue i).flushShown (t0.flushed i).length
    t.queue i = [] ∧ t.residue i = [] ∧ t.called e = (s.called e).filter (·.queue != i) ∧
      (∀ j, j ≠ i → t.queue j = s.queue j ∧ t.residue j = s.residue j) ∧ t.mem = s.mem ∧
      t.flag Reg.beamFlushStat Fld.beamFlushStatBusy = true ∧
      t.fld Reg.beamFlushStat Fld.beamFlushStatFlushed =
        (((s.called e).filter (·.queue == i)).length + (s.queue i).length + (s.residue i).length) %
          2 ^ (Fld.beamFlushStatFlushed.hi + 1 - Fld.beamFlushStatFlushed.lo) := by
  intro e t
  obtain ⟨hq, hr, hc, hother, hmem⟩ := t0.flushQueue_empties i
  rw [State.called_of_waiting h] at hc
  refine ⟨hq, hr, hc, fun j hj => ?_, hmem.trans (State.mem_of_waiting h), State.flushShown_busy _ _, ?_⟩
  · obtain ⟨hqj, hrj⟩ := hother j hj
    exact ⟨hqj.trans (State.queue_of_waiting h j), hrj.trans (State.residue_of_waiting h j)⟩
  · rw [State.flushShown_flushed, State.length_flushed, State.called_of_waiting h, State.queue_of_waiting h,
      State.residue_of_waiting h]

/-! ## The obligation -/

section
variable {s : State} {x : Pkt} {i n : Nat} (h : ¬ s.downDrops i)
include h

/-- R288 for a packet that is not stored, at a port that takes copies. -/
theorem State.verdict_fresh : s.verdict x i n false =
    let a := s.acctFor x i
    if s.depth i + n ≤ s.qcfg0 i / 2 ^ 48 % 65536 ∧ n ≤ s.minFree then .taken .minimum
    else if s.lossless x i then
      if (s.acct a).shared < s.acctCfg a / 2 ^ 44 % 2 ^ 20 ∧ n ≤ s.sharedFree then .taken .shared
      else if (s.acct a).head + n ≤ s.acctCfg a / 2 ^ 4 % 2 ^ 20 ∧ n ≤ s.headFree then .taken .headroom
      else .drop 2
    else if s.depth i + n ≤ s.sharedFree * 2 ^ (s.qcfg0 i / 2 ^ 44 % 16) / 128 ∧ n ≤ s.sharedFree then .taken .shared
    else .drop 1 := by
  rw [State.verdict_up h]
  simp only [Bool.false_eq_true, false_or]

/-- R299: for a packet that is stored, of which no copy is lossless. -/
theorem State.verdict_stored (hl : s.lossless x i = false) : s.verdict x i n true =
    if s.depth i + n ≤ s.qcfg0 i / 2 ^ 48 % 65536 then .taken .minimum
    else if s.depth i + n ≤ s.sharedFree * 2 ^ (s.qcfg0 i / 2 ^ 44 % 16) / 128 then .taken .shared
    else .drop 1 := by
  rw [State.verdict_up h]
  simp only [hl, true_or, and_true, Bool.false_eq_true, if_false]

end

/-- The reason of a copy that is not stored, as a relation. -/
theorem dropReason_eq {i r : Nat} {v : Verdict}
    (h : if i < 8192 then v = .drop r ∨ (r = 1 ∧ ∃ q, v = .taken q) else r = 4) : dropReason i v = r := by
  by_cases hi : i < 8192
  · rw [if_pos hi] at h
    obtain rfl | ⟨rfl, q, rfl⟩ := h
    · simp [dropReason, hi]
    · simp [dropReason, hi]
  · rw [if_neg hi] at h
    cases v <;> simp [dropReason, hi, h]

theorem inPool_comm (n : Nat) (pool q : Pool) : inPool n pool q = if pool = q then n else 0 := by
  simp only [inPool, eq_comm]

/-- ECN_EN of queue `i` is 0. -/
theorem State.qcfg0_ecn {s : State} {i : Nat} (h : s.qcfg0 i / 2 ^ 36 % 2 = 0) : (s.qcfg0 i).testBit 36 = false := by
  rw [Nat.testBit_eq_decide_div_mod_eq, h]
  rfl

/-- A punted packet for which there is room is stored, and its copy queued. -/
theorem State.settle_punts {s : State} {p r : Nat} {x : Pkt} {code : BitVec 32} (hx : s.pkt? p = some x)
    (hd : x.pick.disp = .punt r code) (hroom : s.puntRoom x.loom (cellsOf x.len)) :
    ∃ y, (s.settle p).queue (10240 + x.loom) = s.queue (10240 + x.loom) ++ [⟨p, cellsOf x.len, false⟩] ∧
      (s.settle p).pkt? p = some y ∧ y.place = .stored ∧ y.refs = 1 ∧
      (s.settle p).bankUsed x.loom = s.bankUsed x.loom + cellsOf x.len ∧
      (s.settle p).beam.sharedUsed = s.beam.sharedUsed + cellsOf x.len ∧
      ∀ j, j ≠ 10240 + x.loom → (s.settle p).queue j = s.queue j := by
  rw [State.settle_punt hx hd, State.admitPunt_room hx hroom]
  refine ⟨(x.charged (cellsOf x.len) .shared none).once, ?_, ?_, rfl, rfl, Tbl.get_set_same _ _ _ _, rfl,
    fun j hj => ?_⟩
  · rw [State.queue_setQueue, if_pos rfl]
  · exact State.pkt_setPkt _ _ (some (x.charged (cellsOf x.len) .shared none).once)
  · rw [State.queue_setQueue, if_neg hj]
    rfl

/-- Settles O23: a copy by the first rule of R288 that applies to it, a packet by its copies one after another, and
residue and flushes by what they leave of the lists of copies. -/
theorem bufferAdmission : Obligations.BufferAdmission := by
  unfold Obligations.BufferAdmission
  refine ⟨fun s x i n => ?_, fun p x s hh hx hplace hheld hf hr => ?_,
    ⟨fun p x s hh hx hplace hheld => ?_, ?_, ?_, ?_, ?_⟩,
    fun q c rest x s hh hres hx => ⟨fun r hv => exec_residueAdmit_stays hh hres hx hv, fun pool hv => ?_⟩,
    fun v s hw => ⟨exec_queueFlush_idle hw, exec_queueFlush_busy hw, fun hgo hbusy hi hone => ?_, fun hh => ?_⟩⟩
  · have hv (h : ¬ s.downDrops i) := State.verdict_fresh (x := x) (n := n) h
    have hrest (h : ¬ s.downDrops i) hmin := (hv h).trans (if_neg hmin)
    exact ⟨State.verdict_down, fun h hmin => (hv h).trans (if_pos hmin),
      fun h hmin hl => ⟨fun hw => (hrest h hmin).trans ((if_pos hl).trans (if_pos hw)),
        fun hw hhead => (hrest h hmin).trans ((if_pos hl).trans ((if_neg hw).trans (if_pos hhead))),
        fun hw hhead => (hrest h hmin).trans ((if_pos hl).trans ((if_neg hw).trans (if_neg hhead)))⟩,
      fun h hmin hl => ⟨fun hdyn => (hrest h hmin).trans ((if_neg (by simp [hl])).trans (if_pos hdyn)),
        fun hdyn => (hrest h hmin).trans ((if_neg (by simp [hl])).trans (if_neg hdyn))⟩⟩
  · have hexec := exec_beamAdmit hh hx hplace hheld
    rw [← Pkt.cells_eq]
    refine ⟨fun port q hd hport hq hres hecn => ⟨fun pool hv hb hl => ?_, fun r hv hr2 hm hstamp => ?_⟩,
      fun g m hd hg => ?_, fun r code hd => ⟨fun hroom => ?_, fun hroom => ?_⟩⟩
    · obtain ⟨y, hy⟩ := State.settle_stores hx hd rfl rfl hf hr hres (State.qcfg0_ecn hecn) hv hb hl
      exact ⟨_, y, hexec, hy⟩
    · obtain ⟨halike, hcount⟩ := State.settle_drops hx hd rfl (by omega) hf hr hres hv hr2 hm hstamp
      exact ⟨_, hexec, halike, hcount⟩
    · refine ⟨_, hexec, ?_⟩
      rw [State.settle_noPorts hx hd hg]
      exact ⟨(State.count_alike _ _ _).setPkt p none, State.counter_count_same _ _⟩
    · obtain ⟨y, hy⟩ := State.settle_punts hx hd hroom
      exact ⟨_, y, hexec, hy⟩
    · refine ⟨_, hexec, ?_⟩
      rw [State.settle_punt hx hd]
      exact ⟨by rw [State.admitPunt_full hroom, State.pkt_setPkt], State.admitPunt_counts hroom⟩
  · have hexec := exec_beamAdmit hh hx hplace hheld
    exact ⟨fun port q hd => by rw [hexec, State.settle_unicast hx hd],
      fun g m hd hg => by rw [hexec, State.settle_multicast hx hd hg]⟩
  · exact fun s x g q => ⟨State.mem_groupPorts, s.groupPorts_ascending x g⟩
  · exact fun s p x hx => ⟨fun h => by rw [State.endIfNone_gone hx h, State.pkt_setPkt], State.endIfNone_stays hx⟩
  · refine fun s x i n hl hup => State.verdict_stored (fun hdown => hup ?_) hl
    exact ⟨by rw [State.portIsDown, hdown.1]; rfl, hdown.2⟩
  · intro s p i x hx hi n fresh v t c used charged entered kept dropped aside why
    have hn : cellsOf x.len = n := Pkt.cells_eq x
    refine ⟨fun q hv hres => State.admitCopy_of_taken hx hi hn rfl hv hres,
      State.admitCopy_of_headroom hx hi hn rfl, fun r hnot2 ha hd hwhy => ?_, fun hnot2 ha => ?_,
      fun q hf hv hres hb hl => ?_⟩
    · exact dropReason_eq hwhy ▸ State.admitCopy_of_drop hx hi hn rfl hnot2 ha hd
    · obtain ⟨hbank, hlimit, hkept⟩ := State.admitCopy_of_aside hx hi hn rfl hnot2 ha
      refine ⟨hbank, hlimit, fun hl => ⟨(hkept hl).1, fun hf hb => ?_⟩⟩
      obtain ⟨hmin, hshared, hfull⟩ := (hkept hl).2 hf hb
      exact ⟨hmin, hshared, fun r hm hs hwhy => dropReason_eq hwhy ▸ hfull hm hs⟩
    · have haccount := State.admitCopy_account hx hn hf hv hres hb hl
      simp only [inPool_comm] at haccount
      exact haccount
  · exact ⟨_, exec_residueAdmit_enters hh hres hx hv, s.residue_enters _ c rest x pool⟩
  · exact ⟨_, exec_queueFlush_one hw hgo hbusy hi hone, State.flushes_waiting (s.plainWrite_waiting _ _ _) _⟩
  · show execQueueFlushDone s = _
    rw [execQueueFlushDone, unlessHalted, if_neg (by simp [hh])]

end Sys2Proof.Machine
end


section
/-! PROOF. Sparse tables as lists, and what folds of tails, lost records and flow digests leave: a view of the state that
sees nothing of event records and of the registers of the Warp's notes is not moved by them (R152, R157, R216). -/

namespace Sys2Proof

variable {α : Type}

/-- What a table reads at a key where it reads no default is listed there. -/
theorem Tbl.mem_of_get {d : Nat → α} {m : Tbl α} {k : Nat} (h : k ∈ m.map (·.1)) : (k, Tbl.get d m k) ∈ m := by
  induction m with
  | nil => simp at h
  | cons e m ih =>
    obtain ⟨j, v⟩ := e
    rw [Tbl.get]
    split
    · subst_vars; exact List.mem_cons_self ..
    · next hne =>
      simp only [List.map_cons, List.mem_cons] at h
      exact List.mem_cons_of_mem _ (ih (h.resolve_left fun hk => hne hk.symm))

/-- A canonical table lists rising keys, none with its default. -/
theorem Tbl.wfFrom_listed [DecidableEq α] {d : Nat → α} {m : Tbl α} {lo : Nat} (hm : Tbl.wfFrom d lo m = true) :
    (m.map (·.1)).Nodup ∧ ∀ e ∈ m, lo ≤ e.1 ∧ e.2 ≠ d e.1 := by
  induction m generalizing lo with
  | nil => simp
  | cons e m ih =>
    obtain ⟨k, v⟩ := e
    simp only [Tbl.wfFrom, Bool.and_eq_true, decide_eq_true_eq] at hm
    obtain ⟨⟨hlo, hv⟩, hrest⟩ := hm
    obtain ⟨hnodup, hlisted⟩ := ih hrest
    refine ⟨List.nodup_cons.2 ⟨fun hk => ?_, hnodup⟩, fun e he => ?_⟩
    · obtain ⟨e, he, hek⟩ := List.mem_map.1 hk
      have hlow : k + 1 ≤ e.1 := (hlisted e he).1
      exact absurd hek (by show e.1 ≠ k; omega)
    · rcases List.mem_cons.1 he with rfl | he
      · exact ⟨hlo, hv⟩
      · have := hlisted e he
        exact ⟨by omega, this.2⟩

/-- A table of which the entries at some keys are kept. -/
theorem Tbl.get_filter (d : Nat → α) (p : Nat → Bool) (m : Tbl α) (k : Nat) :
    Tbl.get d (m.filter fun e => p e.1) k = if p k then Tbl.get d m k else d k := by
  induction m with
  | nil => simp
  | cons e m ih =>
    obtain ⟨j, v⟩ := e
    by_cases hjk : j = k
    · subst hjk
      cases hp : p j <;> simp [hp, Tbl.get, ih]
    · cases hp : p j <;> simp [hp, Tbl.get, ih, hjk]

end Sys2Proof

namespace Sys2Proof.Machine

/-- The registers of the Warp that lost records and flow digests write: LOST, and the digest ring's producer and
status. -/
def noteRegs : List Nat := [Reg.warpErr, Reg.warpFdigProd, Reg.warpFdigStat]

/-- `π` sees nothing of event records, of flow digests, of counters, and of LOST. -/
structure PastNotes {β : Type} (π : State → β) : Prop extends PastRecords π where
  note : ∀ (s : State) a w, a ∈ noteRegs → π (s.wr a w) = π s
  count : ∀ (s : State) o k, π (s.count o k) = π s

namespace PastNotes

section
variable {β : Type} {π : State → β} (h : PastNotes π)
include h

theorem hbmPut (s : State) (a : Nat) (bs : List Byte) : π (s.hbmPut a bs) = π s := h.hbmPutCopy s _ a bs

theorem fdig (s : State) (kind form klen loom rno : Nat) (x : Seal) (rest : List Byte) :
    π (s.fdig kind form klen loom rno x rest) = π s := by
  have hnote (u : State) {a : Nat} (ha : a ∈ noteRegs) (w : Word) : π (u.wr a w) = π u := h.note u a w ha
  unfold State.fdig State.fdigPut
  extract_lets size prod used
  split
  · exact (hnote _ (by simp [noteRegs]) _).trans (hnote s (by simp [noteRegs]) _)
  · exact (hnote _ (by simp [noteRegs]) _).trans (h.poke s _ _)

theorem lostNote (s : State) (rno form : Nat) (x : Seal) : π (s.lostNote rno form x) = π s := by
  unfold State.lostNote
  extract_lets u
  have hu : π u = π s := (h.post _ _ _ _).trans (h.note s _ _ (by simp [noteRegs]))
  clear_value u
  split
  · exact (h.fdig u _ _ _ _ _ _ _).trans hu
  · exact hu

theorem fold (s : State) (w2 flow : Bool) (who : EvMaster) (r : Nat) (m : Option (BitVec 288)) (x : Head) :
    π (s.fold w2 flow who r m x).1 = π s := by
  have hdigest (u : State) (c : Prop) [Decidable c] (form : Nat) (k : Seal) (bs : List Byte) :
      π (if c then u.fdig 3 form 0 255 r k bs else u) = π u := view_ite (h.fdig u _ _ _ _ _ _ _) rfl
  have hseen (u : State) (c : Prop) [Decidable c] (a : Nat) : π (if c then u else u.lineSeen a) = π u :=
    view_ite rfl (h.lineSeen u a)
  have hcounted (u : State) (c : Prop) [Decidable c] (n : Nat) : π (if c then u.cntShared 4 n else u) = π u :=
    view_ite (h.count u _ _) rfl
  have hnoted (c : Prop) [Decidable c] (a form : Nat) (k : Seal) :
      π (if c then (s.uncRead a).lostNote r form k else s) = π s :=
    view_ite ((h.lostNote _ _ _ _).trans (h.uncRead s a)) rfl
  unfold State.fold
  dsimp only
  rw [hdigest, h.hbmPut, h.hbmReq, hseen, hcounted, hnoted]

theorem putImage (s : State) (flow : Bool) (who : EvMaster) (a : Nat) (m : BitVec 288) :
    π (s.putImage flow who a m).1 = π s := by
  rw [State.putImage]
  dsimp only
  rw [h.hbmPut, h.hbmReq]

/-- R151: the write-back of a head. -/
theorem writeBackHead (s : State) (flow : Bool) (who : EvMaster) (r : Nat) (m : Option (BitVec 288)) (x : Head) :
    π (s.writeBackHead flow who r m x).1 = π s := by
  have hput (u : State) (a : Nat) (c : Prop) [Decidable c] : π (match m with
      | some k => if c then ((u.putImage flow who a k).1, [(u.putImage flow who a k).2]) else (u, [])
      | none => (u, [])).1 = π u := by
    cases m with
    | none => rfl
    | some k =>
      dsimp only
      split
      · exact h.putImage u flow who a k
      · rfl
  unfold State.writeBackHead
  extract_lets a prof fresh img t fold taken f req r2
  have ht : π t = π s := hput s _ _
  clear_value t
  have hf : π f.1 = π s := by
    unfold f
    split
    · exact (h.fold t _ _ _ _ _ _).trans ht
    · exact ht
  clear_value f
  have hreq : π req.1 = π f.1 := hput f.1 _ _
  clear_value req
  unfold r2
  dsimp only
  rw [h.hbmPut, h.hbmReq, hreq, hf]

end

theorem of_warp : PastNotes State.warp :=
  ⟨⟨fun _ _ _ _ _ _ _ => rfl, fun _ _ _ _ => rfl, fun _ => rfl, fun _ => rfl⟩, fun _ _ _ _ => rfl, fun _ _ _ => rfl⟩

theorem of_rd {a : Nat} (ha : ¬ recordReg a) (hn : a ∉ noteRegs) : PastNotes fun s => s.rd a :=
  ⟨PastRecords.of_rd ha, fun s _ w hb => s.rd_wr_other w fun hab => hn (hab ▸ hb), fun _ _ _ => rfl⟩

end PastNotes

/-! ## What the tables and the overflow area are read from -/

section
variable {t s : State}

theorem State.fld_of_rd {a : Nat} (h : t.rd a = s.rd a) (f : Fld) : t.fld a f = s.fld a f := congrArg f.get h

theorem State.flag_of_rd {a : Nat} (h : t.rd a = s.rd a) (f : Fld) : t.flag a f = s.flag a f :=
  congrArg (· != 0) (State.fld_of_rd h f)

theorem State.firstRec_of_rd {n : Nat} (h : t.rd (Reg.warpTbl n) = s.rd (Reg.warpTbl n)) : t.firstRec n = s.firstRec n :=
  State.fld_of_rd h _

theorem State.nbOf_of_rd {n : Nat} (h : t.rd (Reg.warpTbl n) = s.rd (Reg.warpTbl n)) : t.nbOf n = s.nbOf n := by
  rw [State.nbOf, State.nbOf, State.flag_of_rd h, State.fld_of_rd h]

theorem State.ovfFirst_of_rd (h : t.rd Reg.warpOvfCfg = s.rd Reg.warpOvfCfg) : t.ovfFirst = s.ovfFirst :=
  State.fld_of_rd h _

theorem State.ovfCount_of_rd (h : t.rd Reg.warpOvfCfg = s.rd Reg.warpOvfCfg) : t.ovfCount = s.ovfCount :=
  congrArg (min 1048576) (State.fld_of_rd h _)

theorem State.headAddr_of_rd (h : t.rd Reg.warpRegion = s.rd Reg.warpRegion) (r : Nat) : t.headAddr r = s.headAddr r :=
  congrArg (· + 128 * r) (State.fld_of_rd h _)

end

/-! ## Requests to HBM leave every register but those of the Creels -/

theorem State.updChan_rd (s : State) (c : Nat) (f : Chan → Chan) (b : Nat) : (s.updChan c f).rd b = s.rd b := rfl

theorem State.ceReached_rd (s : State) (c a : Nat) {b : Nat} (hb : b < 0x400000) : (s.ceReached c a).rd b = s.rd b := by
  have hinfo : b ≠ Reg.creelErrInfo (c / 32) := by unfold Reg.creelErrInfo; omega
  have herr : b ≠ Reg.creelErr (c / 32) := by unfold Reg.creelErr; omega
  have hbit (u : State) : (u.ceBit (c / 32)).rd b = u.rd b := by
    unfold State.ceBit
    split
    · rfl
    · exact u.rd_wr_other _ herr
  rw [State.ceReached, State.wantSearch, State.updChan_rd, hbit, State.creelInfo, State.rd_wr_other _ _ hinfo]

/-- Below the Creels, an access to HBM writes no register. -/
theorem State.corrected_rd (s : State) (c a : Nat) {b : Nat} (hb : b < 0x400000) : (s.corrected c a).rd b = s.rd b := by
  have hchan : b ≠ chanReg c := by unfold chanReg Reg.creelChan; omega
  have hcount : ((s.cntShared 9).incF (chanReg c) Fld.creelChanCe).rd b = s.rd b := State.rd_wr_other _ _ hchan
  have hreached (u : State) (p : Prop) [Decidable p] : (if p then u.ceReached c a else u).rd b = u.rd b :=
    view_ite (π := fun u => u.rd b) (u.ceReached_rd c a hb) rfl
  rw [State.corrected]
  rw [hreached, State.updChan_rd, hcount]

theorem State.lineSeen_rd (s : State) (a : Nat) {b : Nat} (hb : b < 0x400000) : (s.lineSeen a).rd b = s.rd b := by
  unfold State.lineSeen
  split
  · rfl
  · split
    · split
      · rfl
      · exact s.corrected_rd _ _ hb
    · rfl

theorem State.hbmReq_rd (s : State) (flow read pair : Bool) (a : Nat) (who : EvMaster) (b : Nat) :
    (s.hbmReq flow read pair a who).2.rd b = s.rd b := by
  simp only [State.hbmReq]
  split
  · rfl
  · split <;> rfl

theorem State.hbmReqs_rd (s : State) (flow read : Bool) (who : EvMaster) (lo hi k a : Nat) {b : Nat} (hb : b < 0x400000) :
    (State.hbmReqs s flow read who lo hi k a).rd b = s.rd b := by
  induction k generalizing s a with
  | zero => rfl
  | succ k ih => exact (ih _ _).trans ((State.hbmReq_rd _ _ _ _ _ _ _).trans
      (view_ite (π := fun u => u.rd b) (s.lineSeen_rd _ hb) rfl))

/-- R353: the requests of an access. -/
theorem State.hbmTraffic_rd (s : State) (flow read : Bool) (who : EvMaster) (a n : Nat) {b : Nat} (hb : b < 0x400000) :
    (s.hbmTraffic flow read who a n).rd b = s.rd b :=
  view_ite (π := fun u => u.rd b) (s.hbmReqs_rd _ _ _ _ _ _ _ hb) rfl

end Sys2Proof.Machine
end


section
/-! PROOF. Clearing the indexes, enabling and disabling the Warp, cache flushes, and coherent reads (WarpControl). -/

namespace Sys2Proof.Machine

/-! ## Clearing the indexes (R178) -/

theorem State.tag_clearTable (s : State) (t r : Nat) : (s.clearTable t).tag r =
    if s.firstRec t ≤ r ∧ r < s.firstRec t + 8 * s.nbOf t then 0 else s.tag r := by
  let outside (r : Nat) : Bool := r < s.firstRec t || s.firstRec t + 8 * s.nbOf t ≤ r
  have hget : (s.clearTable t).tag r = if outside r then s.tag r else 0 :=
    (Tbl.get_filter (Tbl.const 0) outside s.warp.tags r)
  have hout : outside r = true ↔ ¬ (s.firstRec t ≤ r ∧ r < s.firstRec t + 8 * s.nbOf t) := by
    simp only [outside, Bool.or_eq_true, decide_eq_true_eq]
    omega
  rw [hget]
  by_cases hin : s.firstRec t ≤ r ∧ r < s.firstRec t + 8 * s.nbOf t
  · rw [if_pos hin, if_neg fun h => hout.1 h hin]
  · rw [if_neg hin, if_pos (hout.2 hin)]

/-- What a write that clears the index of table 0 alone does, of table 1 alone, and of the overflow area alone. -/
theorem State.warpInitWrite_one (s : State) :
    let active := s.flag Reg.warpRehashStat Fld.warpRehashStatActive
    let busy (t : State) : State := t.setF Reg.warpInit Fld.warpInitBusy 1
    s.warpInitWrite (Fld.warpInitTbl0.put 0 1) (BitVec.allOnes 64) =
      (if active || s.warpOn && s.curTable == 0 then .error (.undefinedBehaviour 13)
        else .ok (busy (s.clearTable 0))) ∧
    s.warpInitWrite (Fld.warpInitTbl1.put 0 1) (BitVec.allOnes 64) =
      (if active || s.warpOn && s.curTable == 1 then .error (.undefinedBehaviour 13)
        else .ok (busy (s.clearTable 1))) ∧
    s.warpInitWrite (Fld.warpInitOvf.put 0 1) (BitVec.allOnes 64) =
      (if active then .error (.undefinedBehaviour 13) else .ok (busy s.clearOvf)) := by
  have hone (f : Fld) (hf : f = Fld.warpInitTbl0 ∨ f = Fld.warpInitTbl1 ∨ f = Fld.warpInitOvf) :
      wroteOne Fld.warpInitTbl0 (f.put 0 1) (BitVec.allOnes 64) = decide (f = Fld.warpInitTbl0) ∧
      wroteOne Fld.warpInitTbl1 (f.put 0 1) (BitVec.allOnes 64) = decide (f = Fld.warpInitTbl1) ∧
      wroteOne Fld.warpInitOvf (f.put 0 1) (BitVec.allOnes 64) = decide (f = Fld.warpInitOvf) := by
    rcases hf with rfl | rfl | rfl <;> decide
  obtain ⟨h00, h01, h0o⟩ := hone Fld.warpInitTbl0 (.inl rfl)
  obtain ⟨h10, h11, h1o⟩ := hone Fld.warpInitTbl1 (.inr (.inl rfl))
  obtain ⟨ho0, ho1, hoo⟩ := hone Fld.warpInitOvf (.inr (.inr rfl))
  refine ⟨?_, ?_, ?_⟩
  · rw [State.warpInitWrite, h00, h01, h0o]
    simp [Fld.warpInitTbl0, Fld.warpInitTbl1, Fld.warpInitOvf]
  · rw [State.warpInitWrite, h10, h11, h1o]
    simp [Fld.warpInitTbl0, Fld.warpInitTbl1, Fld.warpInitOvf]
  · rw [State.warpInitWrite, ho0, ho1, hoo]
    simp [Fld.warpInitTbl0, Fld.warpInitTbl1, Fld.warpInitOvf]

theorem exec_warpInit {s : State} (hw : s.takesWrites Reg.warpInit) :
    exec .warpInitTbl0 s = toOut (s.warpInitWrite (Fld.warpInitTbl0.put 0 1) (BitVec.allOnes 64)) ∧
    exec .warpInitTbl1 s = toOut (s.warpInitWrite (Fld.warpInitTbl1.put 0 1) (BitVec.allOnes 64)) ∧
    exec .warpInitOvf s = toOut (s.warpInitWrite (Fld.warpInitOvf.put 0 1) (BitVec.allOnes 64)) := by
  have hwrite (r : Except Fault State) : unlessHalted s (s.byWrite Reg.warpInit r) = toOut r := by
    rw [State.byWrite_of_takes hw, unlessHalted, hw.1]
    rfl
  exact ⟨hwrite _, hwrite _, hwrite _⟩

/-! ## The end of a disable (R167) -/

theorem State.line_freeLine (s : State) (l j : Nat) : (s.freeLine l).line j = none ∨ (s.freeLine l).line j = s.line j := by
  unfold State.freeLine
  split
  · exact .inr rfl
  · split <;> simp only [State.line_setLine] <;> grind

theorem State.line_freeLine_same (s : State) (l : Nat) : (s.freeLine l).line l = none := by
  unfold State.freeLine
  split
  · assumption
  · rw [State.line_setLine, if_pos rfl]

/-- A free line stays free when another is freed. -/
theorem State.line_freeLine_of_free {s : State} {j : Nat} (hj : s.line j = none) (l : Nat) :
    (s.freeLine l).line j = none := (s.line_freeLine l j).elim id (·.trans hj)

/-- The cache lists canonically, and each line is free or as in `s`. -/
structure State.thinned (t s : State) : Prop where
  wf : Tbl.wf (Tbl.const none) t.warp.cache = true
  line : ∀ j, t.line j = none ∨ t.line j = s.line j

theorem State.setLine_wf {s : State} (h : Tbl.wf (Tbl.const none) s.warp.cache = true) (l : Nat) (c : Option CLine) :
    Tbl.wf (Tbl.const none) (s.setLine l c).warp.cache = true := Tbl.wf_set l c h

theorem State.thinned.freeLine {t s : State} (h : t.thinned s) (l : Nat) : (t.freeLine l).thinned s where
  wf := by
    unfold State.freeLine
    split
    · exact h.wf
    · refine State.setLine_wf ?_ _ _
      split
      · exact State.setLine_wf h.wf _ _
      · exact h.wf
  line j := (t.line_freeLine l j).elim .inl fun hj => (h.line j).elim (fun hn => .inl (hj.trans hn))
    fun hs => .inr (hj.trans hs)

/-- R150: freeing reserved lines thins the cache. -/
theorem State.freeSpares_thinned {s : State} (hwf : Tbl.wf (Tbl.const none) s.warp.cache = true) :
    s.freeSpares.thinned s := by
  unfold State.freeSpares
  generalize s.pkts = l
  suffices h : ∀ t : State, t.thinned s → (l.foldl (fun (s : State) e => match e.2 with
      | some x => (s.freeSpare x).updPkt e.1 fun x => { x with pick := { x.pick with spare := none } }
      | none => s) t).thinned s from h s ⟨hwf, fun _ => .inr rfl⟩
  induction l with
  | nil => exact fun t ht => ht
  | cons e l ih =>
    intro t ht
    rw [List.foldl_cons]
    refine ih _ ?_
    split
    · next x _ =>
      have hspare : (t.freeSpare x).thinned s := by
        unfold State.freeSpare
        split
        · exact ht.freeLine _
        · exact ht
      unfold State.updPkt
      split
      · exact hspare
      · exact ⟨hspare.wf, hspare.line⟩
    · exact ht

/-- R167: what becomes of one line when the cache is emptied. -/
def State.emptyEntry (s : State) (e : Nat × Option CLine) : State :=
  match e.2 with
  | none => s
  | some c =>
    if c.isSecond ∨ c.reserved ∨ c.detached then s
    else
      let s := if !s.recUsable c.rno then s.loseHead c.rno (headForm c.head) (headSeal c.head)
        else if c.dirty then (s.writeBackHead false .internal c.rno c.image c.head).1 else s
      if c.pins = 0 then s.freeLine e.1 else s.setLine e.1 (some { c with detached := true })

theorem State.emptyCache_eq (s : State) : s.emptyCache =
    let t := s.freeSpares.warp.cache.foldl State.emptyEntry s.freeSpares
    { t with warp := { t.warp with victims := [] } } := rfl

theorem State.freeRec_cache (s : State) (r : Nat) : (s.freeRec r).warp.cache = s.warp.cache := by
  unfold State.freeRec
  split <;> rfl

/-- R157: a lost head leaves the cache. -/
theorem State.loseHead_cache (s : State) (r form : Nat) (x : Seal) : (s.loseHead r form x).warp.cache = s.warp.cache :=
  (congrArg Warp.cache (PastNotes.of_warp.lostNote _ _ _ _)).trans (s.freeRec_cache r)

theorem State.line_of_cache {t s : State} (h : t.warp.cache = s.warp.cache) (l : Nat) : t.line l = s.line l :=
  congrArg (Tbl.get (Tbl.const none) · l) h

/-- A line held in place and pinned by none. -/
def CLine.idle (c : CLine) : Prop := c.isSecond = false ∧ c.reserved = false ∧ c.detached = false ∧ c.pins = 0

/-- What emptying one line leaves of the lines: its own is free if idle, and no other free line is taken. -/
theorem State.emptyEntry_line (s : State) (e : Nat × Option CLine) :
    (∀ j, j ≠ e.1 → s.line j = none → (s.emptyEntry e).line j = none) ∧
    (∀ c, e.2 = some c → c.idle → (s.emptyEntry e).line e.1 = none) := by
  obtain ⟨l, o⟩ := e
  cases o with
  | none => exact ⟨fun _ _ hj => hj, fun _ hc => nomatch hc⟩
  | some c =>
    rw [State.emptyEntry]
    dsimp only
    by_cases hout : c.isSecond ∨ c.reserved ∨ c.detached
    · rw [if_pos hout]
      refine ⟨fun _ _ hj => hj, ?_⟩
      rintro _ ⟨⟩ ⟨hsecond, hreserved, hdetached, -⟩
      simp [hsecond, hreserved, hdetached] at hout
    · rw [if_neg hout]
      obtain ⟨t, ht, heq⟩ : ∃ t : State, t.warp.cache = s.warp.cache ∧
          (if !s.recUsable c.rno then s.loseHead c.rno (headForm c.head) (headSeal c.head)
            else if c.dirty then (s.writeBackHead false .internal c.rno c.image c.head).1 else s) = t :=
        ⟨_, view_ite (π := fun u : State => u.warp.cache) (s.loseHead_cache _ _ _)
          (view_ite (π := fun u : State => u.warp.cache)
            (congrArg Warp.cache (PastNotes.of_warp.writeBackHead s _ _ _ _ _)) rfl), rfl⟩
      rw [heq]
      split
      · exact ⟨fun j _ hj => State.line_freeLine_of_free ((State.line_of_cache ht j).trans hj) l,
          fun _ _ _ => t.line_freeLine_same l⟩
      · next hpins =>
        refine ⟨fun j hne hj => ?_, ?_⟩
        · rw [State.line_setLine, if_neg hne, State.line_of_cache ht, hj]
        · rintro _ ⟨⟩ ⟨-, -, -, hnone⟩
          exact absurd hnone hpins

/-- A free line that is not among those emptied stays free. -/
theorem State.emptyEntries_free {l : List (Nat × Option CLine)} {j : Nat} (hj : j ∉ l.map (·.1)) {s : State}
    (hs : s.line j = none) : (l.foldl State.emptyEntry s).line j = none := by
  induction l generalizing s with
  | nil => exact hs
  | cons e l ih =>
    rw [List.map_cons, List.mem_cons, not_or] at hj
    exact ih hj.2 ((s.emptyEntry_line e).1 j hj.1 hs)

/-- R167: an idle line among those emptied is free afterwards. -/
theorem State.emptyEntries_idle {l : List (Nat × Option CLine)} (hl : (l.map (·.1)).Nodup) {j : Nat} {c : CLine}
    (hc : c.idle) (hmem : (j, some c) ∈ l) (s : State) : (l.foldl State.emptyEntry s).line j = none := by
  induction l generalizing s with
  | nil => simp at hmem
  | cons e l ih =>
    rw [List.map_cons, List.nodup_cons] at hl
    rw [List.foldl_cons]
    rcases List.mem_cons.1 hmem with rfl | hmem
    · exact State.emptyEntries_free hl.1 ((s.emptyEntry_line (j, some c)).2 c rfl hc)
    · exact ih hl.2 hmem _

/-- R167: an emptied cache holds no idle line. -/
theorem State.emptyCache_line {s : State} (hwf : Tbl.wf (Tbl.const none) s.warp.cache = true) {l : Nat} {c : CLine}
    (hl : s.line l = some c) (hc : c.idle) : s.emptyCache.line l = none := by
  rw [State.emptyCache_eq]
  show (s.freeSpares.warp.cache.foldl State.emptyEntry s.freeSpares).line l = none
  have hthin := State.freeSpares_thinned hwf
  obtain ⟨hnodup, hlisted⟩ := Tbl.wfFrom_listed hthin.wf
  by_cases hmem : l ∈ s.freeSpares.warp.cache.map (·.1)
  · have hentry := Tbl.mem_of_get (d := Tbl.const none) hmem
    rcases hthin.line l with hnone | hsame
    · exact absurd hnone (hlisted _ hentry).2
    · exact State.emptyEntries_idle hnodup hc ((hsame.trans hl) ▸ hentry) _
  · exact State.emptyEntries_free hmem (Tbl.get_of_not_listed _ _ hmem)

/-! ## A flush of the cache (R174) -/

/-- R174: what a flush does to one line. -/
def State.flushEntry (s : State) (e : Nat × Option CLine) : State :=
  match e.2 with
  | none => s
  | some c =>
    if c.dirty ∧ c.pins = 0 ∧ !c.reserved ∧ !c.isSecond ∧ !c.detached then
      let w := s.writeBackHead false .internal c.rno c.image c.head
      w.1.setLine e.1 (some { c with head := w.2.1, dirty := false })
    else s

theorem State.flushCache_eq (s : State) : s.flushCache = s.warp.cache.foldl State.flushEntry s := rfl

/-- `d` is what a flush leaves of line `c`: the same record and pins, and clean where the line is idle. -/
def CLine.flushed (d c : CLine) : Prop := d.rno = c.rno ∧ d.pins = c.pins ∧ (c.idle → d.dirty = false)

theorem State.flushEntry_leaves (s : State) (e : Nat × Option CLine) :
    (s.flushEntry e).warp.tags = s.warp.tags ∧ (∀ j, j ≠ e.1 → (s.flushEntry e).line j = s.line j) ∧
    (∀ c, e.2 = some c → s.line e.1 = some c → ∃ d, (s.flushEntry e).line e.1 = some d ∧ d.flushed c) := by
  obtain ⟨l, o⟩ := e
  cases o with
  | none => exact ⟨rfl, fun _ _ => rfl, fun _ hc => nomatch hc⟩
  | some c =>
    rw [State.flushEntry]
    dsimp only
    split
    · have hw := PastNotes.of_warp.writeBackHead s false .internal c.rno c.image c.head
      have htags : (s.writeBackHead false .internal c.rno c.image c.head).1.warp.tags = s.warp.tags :=
        congrArg Warp.tags hw
      refine ⟨htags, fun j hj => ?_, ?_⟩
      · rw [State.line_setLine, if_neg hj, State.line_of_cache (congrArg Warp.cache hw)]
      · rintro _ ⟨⟩ -
        exact ⟨_, (State.line_setLine _ _ _ _).trans (if_pos rfl), rfl, rfl, fun _ => rfl⟩
    · next hstays =>
      refine ⟨rfl, fun _ _ => rfl, ?_⟩
      rintro _ ⟨⟩ hl
      refine ⟨c, hl, rfl, rfl, fun ⟨hsecond, hreserved, hdetached, hpins⟩ => ?_⟩
      simpa [hsecond, hreserved, hdetached, hpins] using hstays

/-- Lines that are not among those flushed stay. -/
theorem State.flushEntries_other {l : List (Nat × Option CLine)} {j : Nat} (hj : j ∉ l.map (·.1)) (s : State) :
    (l.foldl State.flushEntry s).line j = s.line j := by
  induction l generalizing s with
  | nil => rfl
  | cons e l ih =>
    rw [List.map_cons, List.mem_cons, not_or] at hj
    exact (ih hj.2 _).trans ((s.flushEntry_leaves e).2.1 j hj.1)

/-- Lines among those flushed are flushed. -/
theorem State.flushEntries_listed {l : List (Nat × Option CLine)} (hl : (l.map (·.1)).Nodup) {j : Nat} {c : CLine}
    (hmem : (j, some c) ∈ l) {s : State} (hs : s.line j = some c) :
    ∃ d, (l.foldl State.flushEntry s).line j = some d ∧ d.flushed c := by
  induction l generalizing s with
  | nil => simp at hmem
  | cons e l ih =>
    rw [List.map_cons, List.nodup_cons] at hl
    obtain ⟨-, hother, hown⟩ := s.flushEntry_leaves e
    rw [List.foldl_cons]
    rcases List.mem_cons.1 hmem with rfl | hmem
    · rw [State.flushEntries_other hl.1]
      exact hown c rfl hs
    · have hne : j ≠ e.1 := fun h => hl.1 (h ▸ List.mem_map_of_mem (f := (·.1)) hmem)
      exact ih hl.2 hmem ((hother j hne).trans hs)

theorem State.flushCache_tags (s : State) : s.flushCache.warp.tags = s.warp.tags := by
  rw [State.flushCache_eq]
  exact foldl_same (fun u : State => u.warp.tags) State.flushEntry (fun u e => (u.flushEntry_leaves e).1) _ s

/-- R174: every line after a flush. -/
theorem State.flushCache_line {s : State} (hwf : Tbl.wf (Tbl.const none) s.warp.cache = true) {l : Nat} {c : CLine}
    (hl : s.line l = some c) : ∃ d, s.flushCache.line l = some d ∧ d.flushed c := by
  obtain ⟨hnodup, -⟩ := Tbl.wfFrom_listed hwf
  have hkey : l ∈ s.warp.cache.map (·.1) := by
    by_contra hnot
    exact nomatch hl.symm.trans (Tbl.get_of_not_listed (Tbl.const none) _ hnot)
  have hmem : (l, some c) ∈ s.warp.cache := hl ▸ Tbl.mem_of_get (d := Tbl.const none) hkey
  rw [State.flushCache_eq]
  exact State.flushEntries_listed hnodup hmem hl

/-! ## Writes of the Warp's registers -/

/-- A plain write leaves all but registers and stages; of them, the Warp. -/
theorem State.wrote_warp (s : State) (a : Nat) (v : Word) : (s.wrote a v).warp = s.warp := by
  rw [State.wrote, State.plainWrite_only]

theorem State.flag_setF_same (s : State) {a : Nat} {f : Fld} (v : Nat) (hf : f.hi < 64) :
    (s.setF a f v).flag a f = (v % 2 ^ (f.hi + 1 - f.lo) != 0) := by
  rw [State.flag, State.fld, State.setF, State.rd_wr_same, Fld.get_put _ _ _ hf]

theorem State.written_allOnes (s : State) (a : Nat) (f : Fld) (v : Word) : s.written a f v (BitVec.allOnes 64) = f.get v := by
  rw [State.written, mergeMask, BitVec.not_allOnes, BitVec.and_zero, BitVec.and_allOnes, BitVec.zero_or]

section
variable {v : Word} {s : State}

/-- R167: a write of WARP_CTL by its cases. -/
theorem State.warpCtlWrite_eq (v : Word) (s : State) :
    let t := s.wrote Reg.warpCtl v
    let same := Fld.warpCtlCurTable.get v = s.curTable
    let enable := Fld.warpCtlEnable.get v = 1
    s.warpCtlWrite v (BitVec.allOnes 64) =
      if s.warpOn then
        if ¬ same then .error (.undefinedBehaviour 13)
        else if enable then .ok t
        else .ok { t.setF Reg.warpCtl Fld.warpCtlEnable 1 with warp := { s.warp with disabling := true } }
      else if enable ∧ s.flowRangesOk = false then .error (.undefinedBehaviour 12)
      else .ok t := by
  intro t same enable
  have hen : Fld.warpCtlEnable.get v < 2 := Fld.get_lt Fld.warpCtlEnable v
  have hzero : Fld.warpCtlEnable.get v = 0 ↔ ¬ enable := by
    show _ ↔ ¬ Fld.warpCtlEnable.get v = 1
    omega
  have hranges : t.flowRangesOk = s.flowRangesOk := by
    have hrd {a : Nat} (ha : a ≠ Reg.warpCtl) : t.rd a = s.rd a := (s.plainWrite_rd _ _ _ _).trans (if_neg ha)
    have htbl0 := hrd (show Reg.warpTbl 0 ≠ Reg.warpCtl by decide)
    have htbl1 := hrd (show Reg.warpTbl 1 ≠ Reg.warpCtl by decide)
    have hovf := hrd (show Reg.warpOvfCfg ≠ Reg.warpCtl by decide)
    have hregion := hrd (show Reg.warpRegion ≠ Reg.warpCtl by decide)
    simp only [State.flowRangesOk, State.firstRec_of_rd htbl0, State.nbOf_of_rd htbl0, State.firstRec_of_rd htbl1,
      State.nbOf_of_rd htbl1, State.ovfFirst_of_rd hovf, State.ovfCount_of_rd hovf, State.headAddr_of_rd hregion]
  have hwarp : t.warp = s.warp := s.wrote_warp _ _
  rw [State.warpCtlWrite, s.written_allOnes, s.written_allOnes]
  show (if s.warpOn = true ∧ ¬ same then _ else
    if s.warpOn = true ∧ Fld.warpCtlEnable.get v = 0 then
      Except.ok { t.setF Reg.warpCtl Fld.warpCtlEnable 1 with warp := { t.warp with disabling := true } }
    else if (!s.warpOn) = true ∧ enable ∧ (!t.flowRangesOk) = true then _ else Except.ok t) = _
  rw [hwarp, hranges]
  simp only [hzero]
  cases s.warpOn <;> by_cases hsame : same <;> by_cases hon : enable <;> simp [hsame, hon]

theorem exec_warpDisable (hw : s.takesWrites Reg.warpCtl) :
    exec (.warpDisable v) s = toOut (s.warpCtlWrite v (BitVec.allOnes 64)) := State.byWrite_of_takes hw _

theorem exec_cacheFlush (hw : s.takesWrites Reg.warpCacheCtl) : exec (.cacheFlush v) s =
    let t := s.wrote Reg.warpCacheCtl v
    .next (if Fld.warpCacheCtlFlush.get v ≠ 0 then t.flushCache.setF Reg.warpCacheCtl Fld.warpCacheCtlFlushBusy 1
      else t) := by
  refine (State.byWrite_of_takes hw _).trans (congrArg Host.Outcome.next ?_)
  rw [State.cacheCtlWrite, wroteOne_allOnes]
  simp only [bne_iff_ne]
  rfl

theorem exec_coherentRead (hw : s.takesWrites Reg.warpRdCmd) : exec (.coherentRead v) s =
    let t := s.wrote Reg.warpRdCmd v
    .next (if Fld.warpRdCmdGo.get v ≠ 0 then { t.setF Reg.warpRdStat Fld.warpRdStatBusy 1 with
      warp := { s.warp with rdRec := t.fld Reg.warpRdCmd Fld.warpRdCmdRec } } else t) := by
  refine (State.byWrite_of_takes hw _).trans (congrArg Host.Outcome.next ?_)
  rw [State.rdCmdWrite, wroteOne_allOnes, ← s.wrote_warp Reg.warpRdCmd v]
  simp only [bne_iff_ne]
  rfl

end

/-! ## The end of a coherent read (R166, R183) -/

theorem State.putRdData_only (s : State) (bs : List Byte) :
    (s.putRdData bs).mem = s.mem ∧ (s.putRdData bs).warp = s.warp :=
  ⟨foldl_same State.mem (fun u k => u.wr (Reg.warpRdData k) (BitVec.ofNat 64 (ofLE (slice bs (8 * k) 8))))
      (fun _ _ => rfl) _ s,
    foldl_same State.warp (fun u k => u.wr (Reg.warpRdData k) (BitVec.ofNat 64 (ofLE (slice bs (8 * k) 8))))
      (fun _ _ => rfl) _ s⟩

/-- Registers written one after another, at addresses that differ. -/
theorem foldl_wr_rd {f : Nat → Nat} {g : Nat → Word} {l : List Nat} (hf : ∀ i j, f i = f j → i = j) {k : Nat}
    (s : State) (h : k ∈ l ∨ s.rd (f k) = g k) : (l.foldl (fun (u : State) i => u.wr (f i) (g i)) s).rd (f k) = g k := by
  induction l generalizing s with
  | nil => simpa using h
  | cons i l ih =>
    refine ih _ ?_
    by_cases hi : k = i
    · subst hi
      exact .inr (State.rd_wr_same _ _ _)
    · exact h.imp (fun hk => (List.mem_cons.1 hk).resolve_left hi)
        fun hs => (State.rd_wr_other _ _ fun he => hi (hf _ _ he)).trans hs

theorem State.putRdData_rd (s : State) (bs : List Byte) {k : Nat} (hk : k < 16) :
    (s.putRdData bs).rd (Reg.warpRdData k) = BitVec.ofNat 64 (ofLE (slice bs (8 * k) 8)) :=
  foldl_wr_rd (f := Reg.warpRdData) (g := fun k => BitVec.ofNat 64 (ofLE (slice bs (8 * k) 8)))
    (fun i j h => by unfold Reg.warpRdData at h; omega) s (.inl (List.mem_range.2 hk))

/-- The state that shows the end of a coherent read. -/
def State.readShown (s : State) (code : Nat) (bs : List Byte) : State :=
  (s.putRdData bs).wr Reg.warpRdStat (Fld.warpRdStatCode.put 0 code)

theorem State.readShown_spec (s : State) {code : Nat} (bs : List Byte) (hcode : code < 256) :
    let t := s.readShown code bs
    (∀ k, k < 16 → t.rd (Reg.warpRdData k) = BitVec.ofNat 64 (ofLE (slice bs (8 * k) 8))) ∧
    t.flag Reg.warpRdStat Fld.warpRdStatBusy = false ∧ t.fld Reg.warpRdStat Fld.warpRdStatCode = code ∧
    t.mem = s.mem ∧ t.warp = s.warp := by
  intro t
  have hstat : t.rd Reg.warpRdStat = Fld.warpRdStatCode.put 0 code := State.rd_wr_same _ _ _
  obtain ⟨hmem, hwarp⟩ := s.putRdData_only bs
  refine ⟨fun k hk => ?_, ?_, ?_, hmem, hwarp⟩
  · have hne : Reg.warpRdData k ≠ Reg.warpRdStat := by unfold Reg.warpRdData Reg.warpRdStat; omega
    exact (State.rd_wr_other _ _ hne).trans (s.putRdData_rd bs hk)
  · rw [State.flag, State.fld, hstat, Fld.get_put_other _ _ _ _ (by decide)]
    rfl
  · rw [State.fld, hstat, Fld.get_put _ _ _ (by decide)]
    exact Nat.mod_eq_of_lt hcode

/-- R159: the reads of a record leave what it reads as. -/
theorem State.readRec_leaves (s : State) (who : EvMaster) (r : Nat) :
    (s.readRec who r).mem = s.mem ∧ (s.readRec who r).warp = s.warp ∧ (s.readRec who r).findsAs s ∧
      ∀ a, a < 0x400000 → (s.readRec who r).rd a = s.rd a := by
  have htraffic (u : State) (a : Nat) : (u.hbmTraffic false true who a 64).mem = u.mem ∧
      (u.hbmTraffic false true who a 64).warp = u.warp ∧ (u.hbmTraffic false true who a 64).findsAs u ∧
      ∀ b, b < 0x400000 → (u.hbmTraffic false true who a 64).rd b = u.rd b :=
    ⟨u.hbmTraffic_mem _ _ _ _ _, (u.hbmTraffic_aside _ _ _ _ _).warp, u.hbmTraffic_findsAs _ _ _ _ _,
      fun b hb => u.hbmTraffic_rd _ _ _ _ _ hb⟩
  unfold State.readRec
  extract_lets a u
  have hu : u.mem = s.mem ∧ u.warp = s.warp ∧ u.findsAs s ∧ ∀ b, b < 0x400000 → u.rd b = s.rd b := by
    unfold u
    split
    · exact htraffic s a
    · exact ⟨rfl, rfl, .refl s, fun _ _ => rfl⟩
  obtain ⟨hmem, hwarp, hfinds, hrd⟩ := htraffic u (a + 64)
  obtain ⟨umem, uwarp, ufinds, urd⟩ := hu
  exact ⟨hmem.trans umem, hwarp.trans uwarp, hfinds.trans ufinds, fun b hb => (hrd b hb).trans (urd b hb)⟩

/-- Memory is what bytes are read from. -/
theorem State.bytes_of_mem {t s : State} (h : t.mem = s.mem) (a n : Nat) : t.bytes a n = s.bytes a n :=
  State.bytes_congr fun _ _ => by rw [State.byte, State.byte, h]

section
variable {t s : State} (hwarp : t.warp = s.warp)
include hwarp

theorem State.line_of_warp (l : Nat) : t.line l = s.line l := State.line_of_cache (congrArg Warp.cache hwarp) l

theorem State.lineOfRec_of_warp (r : Nat) : t.lineOfRec r = s.lineOfRec r := by
  unfold State.lineOfRec
  rw [hwarp]

theorem State.victimOfRec_of_warp (r : Nat) : t.victimOfRec r = s.victimOfRec r := by
  unfold State.victimOfRec
  rw [hwarp]

theorem State.imageOf_of_warp (r : Nat) : t.imageOf r = s.imageOf r := by
  unfold State.imageOf
  rw [State.lineOfRec_of_warp hwarp]
  simp only [State.line_of_warp hwarp]

theorem State.headOf_of_warp (hmem : t.mem = s.mem) (hregion : t.rd Reg.warpRegion = s.rd Reg.warpRegion) (r : Nat) :
    t.headOf r = s.headOf r := by
  have haddr := State.headAddr_of_rd hregion r
  unfold State.headOf State.le
  rw [State.lineOfRec_of_warp hwarp, State.victimOfRec_of_warp hwarp, haddr, State.bytes_of_mem hmem]
  simp only [State.line_of_warp hwarp]

/-- R166: a coherent read looks at memory, the Warp, its region and the weave profile. -/
theorem State.coherent_of_warp (hmem : t.mem = s.mem) (hregion : t.rd Reg.warpRegion = s.rd Reg.warpRegion)
    (hprofile : t.rd Reg.tensionProfile = s.rd Reg.tensionProfile) (r : Nat) : t.coherent r = s.coherent r := by
  have haddr := State.headAddr_of_rd hregion r
  have hprof : t.profile = s.profile := congrArg Fld.tensionProfileProfile.get hprofile
  unfold State.coherent
  rw [State.headOf_of_warp hwarp hmem hregion, State.imageOf_of_warp hwarp, haddr, hprof, State.bytes_of_mem hmem]

end

section
variable {s : State} (hh : s.halted = false)
include hh

theorem exec_coherentReadDone_absent (hbusy : s.flag Reg.warpRdStat Fld.warpRdStatBusy = true)
    (hplaced : s.isPlaced s.warp.rdRec = false) :
    exec .coherentReadDone s = .next (s.readShown stAbsent (List.replicate 128 0)) := by
  show execCoherentReadDone s = _
  simp only [execCoherentReadDone, unlessHalted, hh, hbusy, hplaced]
  rfl

theorem exec_coherentReadDone_idle (hbusy : s.flag Reg.warpRdStat Fld.warpRdStatBusy = false) :
    exec .coherentReadDone s = .next s := by
  show execCoherentReadDone s = _
  simp [execCoherentReadDone, unlessHalted, hh, hbusy]

section
variable (hbusy : s.flag Reg.warpRdStat Fld.warpRdStatBusy = true) (hplaced : s.isPlaced s.warp.rdRec = true)
include hbusy hplaced

theorem exec_coherentReadDone_awaited (hrec : s.recBusy s.warp.rdRec = true) : exec .coherentReadDone s = .next s := by
  show execCoherentReadDone s = _
  simp [execCoherentReadDone, unlessHalted, hh, hbusy, hplaced, hrec]

variable (hrec : s.recBusy s.warp.rdRec = false)
include hrec

theorem exec_coherentReadDone_held {b : Nat} (hheld : s.accessHeld (s.headAddr s.warp.rdRec) 128 = some b) :
    exec .coherentReadDone s = .next (s.hbmWake b) := by
  show execCoherentReadDone s = _
  simp [execCoherentReadDone, unlessHalted, hh, hbusy, hplaced, hrec, hheld]

/-- R166: a record whose lines read well is shown as it stands. -/
theorem exec_coherentReadDone_read (hfree : s.accessHeld (s.headAddr s.warp.rdRec) 128 = none)
    (hhead : s.hbmUnc (s.headAddr s.warp.rdRec) = false) (htail : s.hbmUnc (s.headAddr s.warp.rdRec + 64) = false) :
    exec .coherentReadDone s =
      .next ((s.readRec .internal s.warp.rdRec).readShown stOk (s.coherent s.warp.rdRec)) := by
  obtain ⟨hmem, hwarp, hfinds, hrd⟩ := s.readRec_leaves .internal s.warp.rdRec
  have haddr : (s.readRec .internal s.warp.rdRec).headAddr s.warp.rdRec = s.headAddr s.warp.rdRec :=
    State.headAddr_of_rd (hrd _ (by decide)) _
  have hmend (h : Head) : (s.readRec .internal s.warp.rdRec).mendTail s.warp.rdRec h =
      s.readRec .internal s.warp.rdRec := by
    rw [State.mendTail, haddr, hfinds.hbmUnc, htail, Bool.and_false]
    rfl
  have hcoh := State.coherent_of_warp hwarp hmem (hrd _ (by decide)) (hrd _ (by decide)) s.warp.rdRec
  show execCoherentReadDone s = _
  simp only [execCoherentReadDone, unlessHalted, hh, hbusy, hplaced, hrec, hfree, hfinds.hbmUnc, hhead, hmend, hcoh,
    Bool.and_false]
  rfl

end

end

/-! ## The obligation -/

section
variable {s : State} (hh : s.halted = false)
include hh

theorem exec_warpDisableDone_waits (h : (s.warp.disabling && !s.looksPending) = false) :
    exec .warpDisableDone s = .next s := by
  show execWarpDisableDone s = _
  simp only [execWarpDisableDone, unlessHalted, hh, h]
  rfl

/-- R167: the end of a disable, once no lookup is pending. -/
theorem exec_warpDisableDone_ends (hdis : s.warp.disabling = true) (hlooks : s.looksPending = false) :
    let u := s.emptyCache.setF Reg.warpCtl Fld.warpCtlEnable 0
    exec .warpDisableDone s = .next { u with warp := { u.warp with disabling := false } } := by
  show execWarpDisableDone s = _
  simp only [execWarpDisableDone, unlessHalted, hh, hdis, hlooks]
  rfl

end

/-- Settles O27: writes of the Warp's control registers by their cases; the end of a disable and a flush by what each
does to one line after another of a cache whose keys differ; a coherent read because its requests leave what the record
reads as. -/
theorem warpControl : Obligations.WarpControl := by
  unfold Obligations.WarpControl
  refine ⟨⟨fun s hh hw => ?_, fun v s hw => ?_, fun v s hwf hw => ?_⟩, fun v s hw => ?_, fun s hh => ?_⟩
  · intro active busy inTable inUse cleared
    obtain ⟨h0, h1, ho⟩ := s.warpInitWrite_one
    obtain ⟨hexec0, hexec1, hexeco⟩ := exec_warpInit hw
    have huse (n : Nat) : (s.flag Reg.warpRehashStat Fld.warpRehashStatActive || s.warpOn && s.curTable == n) = true ↔
        inUse n := by simp [inUse, active]
    have hcleared (n : Nat) : cleared n (busy (s.clearTable n)) :=
      ⟨rfl, fun r hr => (s.tag_clearTable n r).trans (if_pos hr), fun r hr => (s.tag_clearTable n r).trans (if_neg hr)⟩
    refine ⟨fun hu => ?_, fun hu => ⟨_, ?_, hcleared 0⟩, fun hu => ?_, fun hu => ⟨_, ?_, hcleared 1⟩, fun ha => ?_,
      fun ha => ?_, ?_, ?_, fun hdis => exec_warpDisableDone_waits hh (by rw [hdis]; rfl),
      fun _ hlooks => exec_warpDisableDone_waits hh (by rw [hlooks, Bool.not_true, Bool.and_false]),
      fun hdis hlooks hwf => ⟨_, exec_warpDisableDone_ends hh hdis hlooks, ?_, rfl, rfl, ?_⟩⟩
    · rw [undefinedUse, hexec0, h0, if_pos ((huse 0).2 hu)]; rfl
    · rw [hexec0, h0, if_neg (mt (huse 0).1 hu)]; rfl
    · rw [undefinedUse, hexec1, h1, if_pos ((huse 1).2 hu)]; rfl
    · rw [hexec1, h1, if_neg (mt (huse 1).1 hu)]; rfl
    · rw [undefinedUse, hexeco, ho, if_pos ha]; rfl
    · rw [hexeco, ho, if_neg ha]; rfl
    · show execWarpInitDone s = _
      simp [execWarpInitDone, unlessHalted, hh]
    · show execCacheFlushDone s = _
      simp [execCacheFlushDone, unlessHalted, hh]
    · exact State.flag_setF_same s.emptyCache 0 (by decide)
    · exact fun l c hl hsecond hreserved hdetached hpins =>
        State.emptyCache_line hwf hl ⟨hsecond, hreserved, hdetached, hpins⟩
  · intro t same enable
    have hexec := (exec_warpDisable (v := v) hw).trans (congrArg toOut (State.warpCtlWrite_eq v s))
    refine ⟨fun hon hs => ?_, fun hon hs he => ?_, fun hon hs he => ?_, fun hon he => ?_, fun hon _ hr => ?_,
      fun hon he hr => ?_⟩
    · rw [undefinedUse, hexec, if_pos hon, if_pos hs]; rfl
    · rw [hexec, if_pos hon, if_neg (not_not.2 hs), if_pos he]; rfl
    · rw [hexec, if_pos hon, if_neg (not_not.2 hs), if_neg he]; rfl
    · rw [hexec, if_neg (by simp [hon]), if_neg fun h => he h.1]; rfl
    · rw [hexec, if_neg (by simp [hon]), if_neg (by simp [hr])]; rfl
    · rw [undefinedUse, hexec, if_neg (by simp [hon]), if_pos ⟨he, hr⟩]; rfl
  · intro t
    have ht : t.warp = s.warp := s.wrote_warp _ _
    have hexec := exec_cacheFlush (v := v) hw
    refine ⟨fun hno => hexec.trans (congrArg Host.Outcome.next (if_neg (not_not.2 hno))), fun hflush =>
      ⟨_, hexec.trans (congrArg Host.Outcome.next (if_pos hflush)), State.flag_setF_same _ 1 (by decide),
        (State.flushCache_tags t).trans (congrArg Warp.tags ht), fun l c hl => ?_⟩⟩
    obtain ⟨d, hd, hrno, hpins, hclean⟩ :=
      State.flushCache_line (s := t) (ht ▸ hwf) ((State.line_of_warp ht l).trans hl)
    exact ⟨d, hd, hrno, hpins, fun hc hreserved hsecond hdetached => hclean ⟨hsecond, hreserved, hdetached, hc⟩⟩
  · intro t
    have hexec := exec_coherentRead (v := v) hw
    exact ⟨fun hno => hexec.trans (congrArg Host.Outcome.next (if_neg (not_not.2 hno))),
      fun hgo => hexec.trans (congrArg Host.Outcome.next (if_pos hgo))⟩
  · intro r a answers
    refine ⟨exec_coherentReadDone_idle hh, fun hbusy => ⟨fun hplaced => ?_, exec_coherentReadDone_awaited hh hbusy,
      fun b hplaced hrec hheld => exec_coherentReadDone_held hh hbusy hplaced hrec hheld,
      fun hplaced hrec hfree hhead htail => ?_⟩⟩
    · exact ⟨_, exec_coherentReadDone_absent hh hbusy hplaced, s.readShown_spec _ (by decide)⟩
    · obtain ⟨hmem, hwarp, -, -⟩ := s.readRec_leaves .internal r
      obtain ⟨hdata, hdone, hcode, hmem', hwarp'⟩ :=
        (s.readRec .internal r).readShown_spec (code := stOk) (s.coherent r) (by decide)
      exact ⟨_, exec_coherentReadDone_read hh hbusy hplaced hrec hfree hhead htail, hdata, hdone, hcode,
        hmem'.trans hmem, hwarp'.trans hwarp⟩

end Sys2Proof.Machine
end


section
/-! PROOF. A head that is filled in while its tail reads uncorrectable posts a MASKED record (R157, R488). Event ring 0
may lie anywhere, the draft store included: its record then rewrites the length of the draft that the pick runs, so that
the pick ends with its lookup and its packet, without a disposition, leaves the device (R76), whose pick was to hold the
head (FlowHeadsComeAndGo). -/

namespace Sys2Proof.Machine

/-- The lookup in progress: the tail image of the head in line 0 has been read. -/
def filledWait : HeadWait :=
  { key96 := 0, key := [], form := 0, rno := 0, line := 0, create := none, reqs := [] }

/-- The packet of 64 zero bytes whose pick waits for that head. -/
def waitingPkt : Pkt := { samplePkt with pick := { samplePkt.pick with wait := .head filledWait } }

/-- The cached head of record 0, all zeros, so not FRESH. -/
def filledLine : CLine := { CLine.fresh with reserved := false }

/-- The registers of the refutation: records in stack 0, which is lost; event ring 0 of one entry at the draft store, and
MASKED records routed to it. -/
def lostTailRegs : List (Nat × Word) :=
  [(Reg.warpRegion, Fld.warpRegionBase.put 0 0x10000000000), (Reg.digestFault, Fld.digestFaultStackLost.put 0 1),
    (Reg.ringBase 2, 0x10000000), (Reg.ringCfg 2, Fld.ringCfgSize.put 0 1), (Reg.hostifEvtRoute, 16)]

/-- The device of the refutation: the packet in a draft of 100 words, the head it waits for in the cache. -/
def lostTailDevice : State :=
  lostTailRegs.foldl (fun s e => s.wr e.1 e.2)
    { State.reset with
      mem := [(0x10000000, 100)], pkts := [(0, some waitingPkt)], nextPkt := 1,
      warp := { State.reset.warp with cache := [(0, some filledLine)] },
      boot := { State.reset.boot with pcieUp := true } }

theorem lostTailDevice_waits : lostTailDevice.halted = false ∧ lostTailDevice.pkt? 0 = some waitingPkt ∧
    lostTailDevice.line 0 = some filledLine := by
  decide +kernel

theorem lostTailDevice_goesOn : lostTailDevice.pickGoesOn waitingPkt := by
  unfold State.pickGoesOn; decide +kernel

/-- The fill ends the pick, and its packet is gone. -/
theorem flowHeadFill_overwritten : (match exec (.flowHeadFill 0 []) lostTailDevice with
    | .next t => (t.pkt? 0).isNone
    | _ => false) = true := by
  decide +kernel

/-- Refutes O11: the MASKED record of a lost tail may be written over the length of the pick's own draft, which ends the
pick; a pick that waited for a cached head's tail image need not hold the head afterwards. -/
theorem not_flowHeadsComeAndGo : ¬ Obligations.FlowHeadsComeAndGo := by
  unfold Obligations.FlowHeadsComeAndGo
  rintro ⟨-, fills, -⟩
  obtain ⟨running, there, cached⟩ := lostTailDevice_waits
  obtain ⟨-, held, -⟩ := fills 0 waitingPkt filledWait filledLine lostTailDevice running there rfl cached
  obtain ⟨t, y, d, next, stays, -⟩ := held rfl rfl lostTailDevice_goesOn []
  have gone := flowHeadFill_overwritten
  rw [next] at gone
  simp [stays] at gone

end Sys2Proof.Machine
end


section
/-! PROOF. Folds: what a tail becomes, what the head keeps, and what stands in HBM afterwards (R141, R152, R166). -/

namespace Sys2Proof.Machine

/-! ## Numbers added into a byte string -/

@[simp] theorem length_addAt (bs : List Byte) (o n v : Nat) : (addAt bs o n v).length = bs.length := length_patch _ _ _

theorem slice_addAt_other (bs : List Byte) {o n p k : Nat} (v : Nat) (h : p + k ≤ o ∨ o + n ≤ p) :
    slice (addAt bs o n v) p k = slice bs p k := slice_patch_out bs (by rwa [length_toLE])

/-- A number added into a byte string wraps. -/
theorem ofLE_addAt_same {bs : List Byte} {o n : Nat} (v : Nat) (h : o + n ≤ bs.length) :
    ofLE (slice (addAt bs o n v) o n) = (ofLE (slice bs o n) + v) % 2 ^ (8 * n) := by
  have hs := slice_patch_same (bs := bs) (new := toLE n (ofLE (slice bs o n) + v)) (by rwa [length_toLE])
  rw [length_toLE] at hs
  rw [addAt, hs, ofLE_toLE, Nat.pow_mul]

/-- Numbers added into a byte string, each at its offset and in its bytes. -/
def addAll (bs : List Byte) (l : List (Nat × Nat × Nat)) : List Byte :=
  l.foldl (fun t e => addAt t e.1 e.2.1 e.2.2) bs

@[simp] theorem length_addAll (bs : List Byte) (l : List (Nat × Nat × Nat)) : (addAll bs l).length = bs.length := by
  induction l generalizing bs with
  | nil => rfl
  | cons e l ih => exact (ih _).trans (length_addAt _ _ _ _)

/-- Two places of a byte string that do not meet. -/
def placesApart (d e : Nat × Nat × Nat) : Prop := d.1 + d.2.1 ≤ e.1 ∨ e.1 + e.2.1 ≤ d.1

theorem slice_addAll_other {l : List (Nat × Nat × Nat)} {d : Nat × Nat × Nat} (h : ∀ e ∈ l, placesApart d e)
    (bs : List Byte) : slice (addAll bs l) d.1 d.2.1 = slice bs d.1 d.2.1 := by
  induction l generalizing bs with
  | nil => rfl
  | cons e l ih =>
    rw [List.forall_mem_cons] at h
    exact (ih h.2 _).trans (slice_addAt_other bs _ h.1)

/-- Numbers added at places that do not meet: each grows by its own. -/
theorem ofLE_addAll {l : List (Nat × Nat × Nat)} (hl : l.Pairwise placesApart) {e : Nat × Nat × Nat} (he : e ∈ l)
    {bs : List Byte} (hlen : e.1 + e.2.1 ≤ bs.length) :
    ofLE (slice (addAll bs l) e.1 e.2.1) = (ofLE (slice bs e.1 e.2.1) + e.2.2) % 2 ^ (8 * e.2.1) := by
  induction l generalizing bs with
  | nil => simp at he
  | cons d l ih =>
    rw [List.pairwise_cons] at hl
    rcases List.mem_cons.1 he with rfl | hmem
    · rw [← ofLE_addAt_same e.2.2 hlen]
      exact congrArg ofLE (slice_addAll_other hl.1 _)
    · have hprior : slice (addAt bs d.1 d.2.1 d.2.2) e.1 e.2.1 = slice bs e.1 e.2.1 :=
        slice_addAt_other bs _ (hl.1 e hmem).symm
      rw [← hprior]
      exact ih hl.2 hmem (by rwa [length_addAt])

/-! ## Tails -/

/-- R141: the offset and size of each total of a tail, and the delta that a fold adds to it. -/
def tailTotals (h : Head) : List (Nat × Nat × Nat) :=
  [(0, 8, (delta h 0).1), (8, 8, (delta h 0).2), (24, 4, (delta h 1).1), (16, 8, (delta h 1).2),
    (32, 4, (delta h 2).1), (40, 8, (delta h 2).2), (36, 4, (delta h 3).1), (48, 8, (delta h 3).2)]

theorem tailTotals_apart (h : Head) : (tailTotals h).Pairwise placesApart := by
  simp [tailTotals, placesApart]

/-- R152: outside W2, a tail in MODE 0 and a FRESH one alike gain every delta. -/
theorem foldTail_totals {fresh : Bool} {old : List Byte}
    (hmode : (ofLE (slice (if fresh then List.replicate 64 0 else old) 28 4)).testBit 31 = false) (h : Head) :
    foldTail false fresh none h old = addAll (if fresh then List.replicate 64 0 else old) (tailTotals h) := by
  unfold foldTail
  dsimp only
  rw [hmode]
  simp only [Bool.false_and, Bool.and_false, Bool.false_eq_true, if_false]
  rfl

@[simp] theorem length_addPair (h : Head) (t : List Byte) (k : Nat) : (addPair h t k).length = t.length := by
  unfold addPair
  dsimp only
  split <;> simp only [length_addAt]

theorem length_addPairs (h : Head) (l : List Nat) (t : List Byte) : (l.foldl (addPair h) t).length = t.length := by
  induction l generalizing t with
  | nil => rfl
  | cons k l ih => exact (ih _).trans (length_addPair h t k)

/-- A tail stays 64 bytes long. -/
theorem length_foldTail (w2 fresh : Bool) (m : Option (BitVec 288)) (h : Head) {old : List Byte}
    (hold : fresh = true ∨ old.length = 64) : (foldTail w2 fresh m h old).length = 64 := by
  have hstart : (if fresh then List.replicate 64 0 else old).length = 64 := by
    cases fresh with
    | true => rfl
    | false => exact hold.resolve_left (by decide)
  unfold foldTail
  extract_lets t0 t1 t2
  have h1 : t1.length = 64 := by
    unfold t1
    split
    · rwa [length_patch]
    · exact hstart
  rw [length_addPairs]
  unfold t2
  split
  · rwa [length_patch]
  · exact h1

theorem length_coherentTail (w2 : Bool) (h : Head) (old : List Byte) : (coherentTail w2 h old).length = old.length := by
  have hfirst := length_addPairs h [0, 1] old
  unfold coherentTail
  extract_lets t u
  have ht : t.length = old.length := hfirst
  split
  · exact ht
  · have hu : u.length = t.length := by
      unfold u
      split
      · exact length_patch _ _ _
      · rfl
    exact (length_addPairs h [2, 3] u).trans (hu.trans ht)

/-- R166: a coherent read returns a record of 128 bytes. -/
theorem State.length_coherent (s : State) (r : Nat) : (s.coherent r).length = 128 := by
  unfold State.coherent
  extract_lets h w2 old t u
  have ht : t.length = 64 := by
    unfold t
    split
    · exact length_foldTail w2 true _ h (.inl rfl)
    · exact (length_coherentTail w2 h old).trans (State.length_bytes _ _ _)
  have hu : u.length = 64 := by
    unfold u
    split
    · split
      · rwa [length_patch]
      · exact ht
    · exact ht
  rw [List.length_append, hu, headBytes, length_toLE]

/-! ## Heads -/

/-- R152: the head that a fold gives back. -/
theorem foldedHead_spec (h : Head) : let g := headBit (noDeltas h) 29 false
    hasDeltas g = false ∧ headFresh g = false ∧ headSeal g = headSeal h ∧ headGen g = headGen h := by
  intro g
  have hkeeps {q m : Nat} (hq : q + m ≤ 40) (hoff : 29 < 8 * q ∨ 8 * q + 8 * m ≤ 29) : hget g q m = hget h q m := by
    rw [hget_headBit_other _ _ (by omega) hoff, noDeltas, hget_hput_other _ _ (by omega) (.inl hq)]
  refine ⟨?_, ?_, ?_, hkeeps (by decide) (by decide)⟩
  · rw [hasDeltas, hget_headBit_other _ _ (by decide) (by decide), noDeltas, hget_hput_same _ _ (by decide)]
    rfl
  · rw [headFresh, getLsbD_headBit _ _ _ (by decide), if_pos rfl]
  · rw [headSeal, headSeal, hkeeps (by decide) (by decide)]

/-! ## What stands in HBM after a fold -/

/-- R352: a whole line written reads back. -/
theorem State.bytes_hbmPut_line {s : State} {a : Nat} {bs : List Byte} (ha : a % 64 = 0) (hlen : bs.length = 64)
    (hlost : s.stackLost (hbmStack a) = false) : (s.hbmPut a bs).bytes a 64 = bs := by
  have hne : bs ≠ [] := fun h => by simp [h] at hlen
  have hline : s.hbmPut a bs = s.hbmPutLine a bs := by
    have htake : bs.take (64 - a % 64) = bs := List.take_of_length_le (by omega)
    have hdrop : bs.drop (64 - a % 64) = [] := List.drop_eq_nil_of_le (by omega)
    rw [State.hbmPut, hlen, State.hbmPutCopy, if_neg hne]
    dsimp only
    rw [htake, hdrop, State.hbmPutCopy, if_pos rfl]
  have hput : (s.hbmPutLine a bs).mem = (s.setBytes a bs).mem := by
    rw [State.hbmPutLine, hlost, if_neg (by decide), if_pos hlen, if_pos hlen]
    show ((s.setBytes a bs).scanTouch a bs.length).mem = _
    unfold State.scanTouch
    dsimp only
    split <;> rfl
  rw [hline, State.bytes_of_mem hput]
  exact hlen ▸ s.bytes_setBytes a bs

/-- R152: a fold of a head that is not FRESH, whose tail reads well, with no flow digest. -/
theorem State.fold_bytes {s : State} {flow : Bool} {who : EvMaster} {r : Nat} {m : Option (BitVec 288)} {h : Head}
    (hdigest : s.flag Reg.warpFdigCtl Fld.warpFdigCtlActiveEn = false) (hfresh : headFresh h = false)
    (ha : (s.headAddr r + 64) % 64 = 0) (hunc : s.hbmUnc (s.headAddr r + 64) = false) :
    (s.fold false flow who r m h).1.bytes (s.headAddr r + 64) 64 =
      foldTail false false m h (s.bytes (s.headAddr r + 64) 64) := by
  obtain ⟨a, haddr⟩ : ∃ a, s.headAddr r + 64 = a := ⟨_, rfl⟩
  obtain ⟨u, hu⟩ : ∃ u, ((s.lineSeen a).hbmReq flow true true a who).2 = u := ⟨_, rfl⟩
  obtain ⟨tail, htail⟩ : ∃ t, foldTail false false m h (s.bytes a 64) = t := ⟨_, rfl⟩
  rw [haddr] at ha hunc ⊢
  have hrd : (u.hbmPut a tail).rd Reg.warpFdigCtl = s.rd Reg.warpFdigCtl := by
    have hpast : PastNotes fun t : State => t.rd Reg.warpFdigCtl :=
      .of_rd (by unfold recordReg; decide) (by decide)
    rw [hpast.hbmPut, ← hu, State.hbmReq_rd, s.lineSeen_rd a (by decide)]
  have hfold : (s.fold false flow who r m h).1 = u.hbmPut a tail := by
    have hoff := (State.flag_of_rd hrd Fld.warpFdigCtlActiveEn).trans hdigest
    simp only [State.fold, hfresh, haddr, hunc, hu, htail, hoff, Bool.not_false, Bool.and_false, Bool.or_self,
      Bool.false_eq_true, and_false, false_and, if_false]
  have hlost : u.stackLost (hbmStack a) = false := by
    have hfinds : u.findsAs s := hu ▸ (State.hbmReq_findsAs _ _ _ _ _ _).trans (s.lineSeen_findsAs a)
    rw [hfinds.lost]
    simp only [State.hbmUnc, Bool.or_eq_false_iff] at hunc
    exact hunc.1.1.1
  have hlen : tail.length = 64 := htail ▸ length_foldTail _ _ _ _ (.inr (State.length_bytes _ _ _))
  rw [hfold, State.bytes_hbmPut_line ha hlen hlost, htail]

end Sys2Proof.Machine
end


section
/-! PROOF. The sweeps of the flow cache and of the table (R158), and the start of a rehash (R162). -/

namespace Sys2Proof.Machine

/-! ## The cache sweep -/

section
variable {l : Fin 1048576} {s : State} (hh : s.halted = false)
include hh

theorem exec_cacheSweep_free (hl : s.line l.val = none) : exec (.cacheSweep l) s = .next s := by
  show execCacheSweep l s = _
  simp [execCacheSweep, unlessHalted, hh, hl]

theorem exec_cacheSweep_folded {c : CLine} (hl : s.line l.val = some c) (hd : hasDeltas c.head = false) :
    exec (.cacheSweep l) s = .next s := by
  show execCacheSweep l s = _
  simp [execCacheSweep, unlessHalted, hh, hl, hd]

/-- R158: a line whose deltas the sweep takes: it waits for a channel that is held back, and folds the line else. -/
theorem exec_cacheSweep_deltas {c : CLine} (hl : s.line l.val = some c) (hd : hasDeltas c.head = true)
    (hreserved : c.reserved = false) (hsecond : c.isSecond = false) (hdetached : c.detached = false) :
    exec (.cacheSweep l) s = .next (match s.accessHeld (s.headAddr c.rno + 64) 64 with
      | some a => s.hbmWake a
      | none =>
        let f := s.fold (s.profile == 2) true .internal c.rno c.image c.head
        f.1.updLine l.val fun c => { c with head := f.2.1, dirty := true }) := by
  show execCacheSweep l s = _
  simp only [execCacheSweep, unlessHalted, hh, hl, hd, hreserved, hsecond, hdetached]
  cases s.accessHeld (s.headAddr c.rno + 64) 64 <;> rfl

end

/-- R158: what the fold of a line leaves. -/
theorem State.sweptLine_spec {s : State} {i : Nat} {c : CLine} (hl : s.line i = some c) :
    let f := s.fold (s.profile == 2) true .internal c.rno c.image c.head
    let t := f.1.updLine i fun c => { c with head := f.2.1, dirty := true }
    t.line i = some { c with head := headBit (noDeltas c.head) 29 false, dirty := true } ∧
      (∀ j, j ≠ i → t.line j = s.line j) ∧ t.warp.tags = s.warp.tags ∧ t.mem = f.1.mem := by
  intro f t
  have hwarp : f.1.warp = s.warp := PastNotes.of_warp.fold s _ _ _ _ _ _
  have ht : t = f.1.setLine i (some { c with head := f.2.1, dirty := true }) := by
    show f.1.updLine i _ = _
    rw [State.updLine, (State.line_of_warp hwarp i).trans hl]
  have htags : f.1.warp.tags = s.warp.tags := congrArg Warp.tags hwarp
  rw [ht]
  refine ⟨(State.line_setLine _ _ _ _).trans (if_pos rfl), fun j hj => ?_, htags, rfl⟩
  rw [State.line_setLine, if_neg hj, State.line_of_warp hwarp]

/-! ## The table sweep -/

/-- The pass owed is rid of record `r`, whose head the sweep reads. -/
def State.visited (s : State) (r : Nat) : State :=
  { s with warp := { s.warp with owed := s.warp.owed.filter fun k => k != r } }.hbmTraffic false true .internal
    (s.headAddr r) 64

/-- What a visit leaves: memory, registers below the Creels, and which lines read uncorrectable. -/
theorem State.visited_leaves (s : State) (r : Nat) : (s.visited r).mem = s.mem ∧
    (∀ a, a < 0x400000 → (s.visited r).rd a = s.rd a) ∧ (∀ a, (s.visited r).hbmUnc a = s.hbmUnc a) ∧
    (s.visited r).lineOfRec r = s.lineOfRec r ∧ (s.visited r).victimOfRec r = s.victimOfRec r := by
  obtain ⟨u, hu⟩ : ∃ u, { s with warp := { s.warp with owed := s.warp.owed.filter fun k => k != r } } = u := ⟨_, rfl⟩
  have huwarp : u.lineOfRec r = s.lineOfRec r ∧ u.victimOfRec r = s.victimOfRec r := by rw [← hu]; exact ⟨rfl, rfl⟩
  have hufinds : u.findsAs s := by rw [← hu]; exact .of_eq rfl rfl rfl rfl
  have humem : u.mem = s.mem := by rw [← hu]
  have hurd (a : Nat) : u.rd a = s.rd a := by rw [← hu]; rfl
  rw [State.visited, hu]
  have hwarp : (u.hbmTraffic false true .internal (s.headAddr r) 64).warp = u.warp := (u.hbmTraffic_aside _ _ _ _ _).warp
  exact ⟨(u.hbmTraffic_mem _ _ _ _ _).trans humem, fun a ha => (u.hbmTraffic_rd _ _ _ _ _ ha).trans (hurd a),
    ((u.hbmTraffic_findsAs _ _ _ _ _).trans hufinds).hbmUnc, (State.lineOfRec_of_warp hwarp r).trans huwarp.1,
    (State.victimOfRec_of_warp hwarp r).trans huwarp.2⟩

/-- The head that the table sweep finds in HBM. -/
def State.sweptHead (s : State) (r : Nat) : Head := BitVec.ofNat 512 (s.le (s.headAddr r) 64)

/-- A head is written back by the sweep. -/
def State.putHead (s : State) (a : Nat) (g : Head) : State :=
  (s.hbmTraffic false false .internal a 64).hbmPut a (headBytes g)

/-- R158: what the sweep does with the head `h` at `a` of record `r`, which it has read. -/
def State.sweepHead (s : State) (a r : Nat) (h : Head) : State :=
  let f := if hasDeltas h then
      let f := s.fold (s.profile == 2) false .internal r none h
      (f.1, f.2.1)
    else (s, h)
  let g := headGen f.2
  let h2 := if g ≠ 0 ∧ g ≠ f.1.fld Reg.warpGen Fld.warpGenCurrent then hput f.2 0 2 0 else f.2
  if h2 = h then f.1 else f.1.putHead a h2

section
variable {s : State} {a r : Nat} {h : Head}

/-- A head without deltas and of the generation in use, or of none, stays. -/
theorem State.sweepHead_fit (hd : hasDeltas h = false)
    (hg : ¬ (headGen h ≠ 0 ∧ headGen h ≠ s.fld Reg.warpGen Fld.warpGenCurrent)) : s.sweepHead a r h = s := by
  simp only [State.sweepHead, hd, Bool.false_eq_true, if_false, if_neg hg, if_true]

/-- A head without deltas and of an old generation is given GEN 0. -/
theorem State.sweepHead_stale (hd : hasDeltas h = false)
    (hg : headGen h ≠ 0 ∧ headGen h ≠ s.fld Reg.warpGen Fld.warpGenCurrent) :
    s.sweepHead a r h = s.putHead a (hput h 0 2 0) := by
  have hne : hput h 0 2 0 ≠ h := by
    intro heq
    have hzero : headGen (hput h 0 2 0) = 0 := hget_hput_same h 0 (by decide)
    exact hg.1 (heq ▸ hzero)
  simp only [State.sweepHead, hd, Bool.false_eq_true, if_false, if_pos hg, if_neg hne]

/-- A head with deltas, not of an old generation, is folded and written back. -/
theorem State.sweepHead_deltas (hd : hasDeltas h = true)
    (hg : ¬ (headGen h ≠ 0 ∧
      headGen h ≠ (s.fold (s.profile == 2) false .internal r none h).1.fld Reg.warpGen Fld.warpGenCurrent)) :
    s.sweepHead a r h = (s.fold (s.profile == 2) false .internal r none h).1.putHead a
      (s.fold (s.profile == 2) false .internal r none h).2.1 := by
  obtain ⟨hdeltas, -, -, hgen⟩ := foldedHead_spec h
  have hhead : (s.fold (s.profile == 2) false .internal r none h).2.1 = headBit (noDeltas h) 29 false := rfl
  have hne : headBit (noDeltas h) 29 false ≠ h := fun heq => by rw [heq, hd] at hdeltas; exact nomatch hdeltas
  simp only [State.sweepHead, hd, if_true, hhead, hgen, if_neg hg, if_neg hne]

end

section
variable {r : BitVec 28} {s : State} (hh : s.halted = false)
include hh

theorem exec_tableSweep_unfit (h : s.sweepable r.toNat = false) : exec (.tableSweep r) s = .next s := by
  show execTableSweep r s = _
  simp [execTableSweep, unlessHalted, hh, h]

theorem exec_tableSweep_off (h : s.tableSweeps = false) : exec (.tableSweep r) s = .next s := by
  show execTableSweep r s = _
  simp [execTableSweep, unlessHalted, hh, h]

variable (hs : s.sweepable r.toNat = true) (hsweeps : s.tableSweeps = true)
include hs hsweeps

theorem exec_tableSweep_held {b : Nat} (hheld : s.accessHeld (s.headAddr r.toNat) 128 = some b) :
    exec (.tableSweep r) s = .next (s.hbmWake b) := by
  show execTableSweep r s = _
  simp [execTableSweep, unlessHalted, hh, hs, hsweeps, hheld]

/-- R158: the visit of a record whose head reads well. -/
theorem exec_tableSweep_visits (hfree : s.accessHeld (s.headAddr r.toNat) 128 = none)
    (hunread : s.recUnread r.toNat = false) : exec (.tableSweep r) s =
      .next ((s.visited r.toNat).sweepHead (s.headAddr r.toNat) r.toNat (s.sweptHead r.toNat)) := by
  obtain ⟨hmem, hrd, hunc, hline, hvictim⟩ := s.visited_leaves r.toNat
  have haddr := State.headAddr_of_rd (hrd Reg.warpRegion (by decide)) r.toNat
  have hunread' : (s.visited r.toNat).recUnread r.toNat = false := by
    rw [State.recUnread, hline, hvictim, haddr, hunc]
    exact hunread
  have hhead : BitVec.ofNat 512 ((s.visited r.toNat).le (s.headAddr r.toNat) 64) = s.sweptHead r.toNat := by
    rw [State.sweptHead, State.le, State.le, State.bytes_of_mem hmem]
  show execTableSweep r s = _
  rw [execTableSweep, unlessHalted, if_neg (by simp [hh])]
  dsimp only
  rw [if_neg (by simp [hs, hsweeps]), hfree, ← hhead]
  have hgood : ¬ (s.visited r.toNat).recUnread r.toNat = true := by rw [hunread']; decide
  exact if_neg hgood

end

end Sys2Proof.Machine
end


section
/-! PROOF. Live rehash: what a move of a record leaves, where records have a place, and the end of a rehash
(R162 to R164). -/

namespace Sys2Proof.Machine

/-! ## Where a seal has a place -/

/-- R134: a tag is never 0. -/
theorem State.bucketTag_ne_zero (s : State) (t : Nat) (x : Seal) : (s.bucketTag t x).2 ≠ 0 := by
  unfold State.bucketTag
  dsimp only
  split
  · decide
  · assumption

/-- The ways of the bucket of a seal in table `t`. -/
def State.waysOf (s : State) (t : Nat) (x : Seal) : List Nat :=
  (List.range 8).map fun w => s.firstRec t + 8 * (s.bucketTag t x).1 + w

theorem State.freeWay_eq (s : State) (t : Nat) (x : Seal) : s.freeWay t x =
    if s.nbOf t = 0 then none
    else if (s.waysOf t x).any (fun r => s.tag r == (s.bucketTag t x).2) then none
    else ((s.waysOf t x).find? fun r => s.tag r == 0 && s.recUsable r).map fun r => .way r (s.bucketTag t x).2 := rfl

/-- R145: a way that takes a seal is free, and the seal's tag is not 0. -/
theorem State.freeWay_some {s : State} {t : Nat} {x : Seal} {p : Placed} (h : s.freeWay t x = some p) :
    ∃ r g, p = .way r g ∧ s.tag r = 0 ∧ g ≠ 0 := by
  rw [State.freeWay_eq] at h
  split_ifs at h
  obtain ⟨r, hr, rfl⟩ := Option.map_eq_some_iff.1 h
  have hfree := List.find?_some hr
  simp only [Bool.and_eq_true, beq_iff_eq] at hfree
  exact ⟨r, _, rfl, hfree.1, s.bucketTag_ne_zero t x⟩

/-- R145: no way takes a seal: there is no table, the tag stands in the bucket, or no way is free. -/
theorem State.freeWay_none_iff {s : State} {t : Nat} {x : Seal} : s.freeWay t x = none ↔
    s.nbOf t = 0 ∨ (∃ r ∈ s.waysOf t x, s.tag r = (s.bucketTag t x).2) ∨
      ∀ r ∈ s.waysOf t x, s.tag r = 0 → s.recUsable r = false := by
  rw [State.freeWay_eq]
  by_cases hnb : s.nbOf t = 0
  · simp [hnb]
  · rw [if_neg hnb]
    by_cases htag : ∃ r ∈ s.waysOf t x, s.tag r = (s.bucketTag t x).2
    · rw [if_pos (by simpa using htag)]
      simp [htag]
    · rw [if_neg (by simpa using htag), Option.map_eq_none_iff, List.find?_eq_none]
      simp [hnb, htag]

theorem State.tag_setTag (s : State) (r v k : Nat) : (s.setTag r v).tag k = if k = r then v else s.tag k :=
  Tbl.get_set (Tbl.const 0) s.warp.tags r v k

/-- A way taken by one record opens none for another. -/
theorem State.freeWay_setTag {s : State} {t r g : Nat} {x : Seal} (hr : s.tag r = 0) (hg : g ≠ 0)
    (h : s.freeWay t x = none) : (s.setTag r g).freeWay t x = none := by
  rw [State.freeWay_none_iff] at h ⊢
  refine h.imp id fun h => h.imp ?_ ?_
  · rintro ⟨k, hk, htag⟩
    have hkr : k ≠ r := fun he => s.bucketTag_ne_zero t x (htag.symm.trans (he ▸ hr))
    exact ⟨k, hk, by rw [State.tag_setTag, if_neg hkr]; exact htag⟩
  · intro hall k hk hzero
    have hkr : k ≠ r := fun he => hg (by rw [← hzero, State.tag_setTag, if_pos he])
    rw [State.tag_setTag, if_neg hkr] at hzero
    exact hall k hk hzero

theorem State.freeOvf_setTag (s : State) (r g : Nat) : (s.setTag r g).freeOvf = s.freeOvf := by
  have hfrom (n i : Nat) : (s.setTag r g).freeOvfFrom n i = s.freeOvfFrom n i := by
    induction n generalizing i with
    | zero => rfl
    | succ n ih =>
      rw [State.freeOvfFrom, State.freeOvfFrom, ih]
      rfl
  exact hfrom _ _

theorem State.place_none_iff {s : State} {t : Nat} {x : Seal} :
    s.place t x = none ↔ s.freeWay t x = none ∧ s.freeOvf = none := by
  rw [State.place]
  cases s.freeWay t x <;> simp

/-- R163: where a record has no place, it has none after another has been placed. -/
theorem State.place_commitPlace {s : State} {t : Nat} {x y : Seal} {p : Placed} (hx : s.place t x = none)
    (hy : s.place t y = some p) : (s.commitPlace p y).place t x = none := by
  rw [State.place_none_iff] at hx
  obtain ⟨hway, hovf⟩ := hx
  have hfree : s.freeWay t y = some p := by
    rw [State.place] at hy
    cases hw : s.freeWay t y with
    | some q => rw [hw] at hy; exact hy
    | none => rw [hw, hovf] at hy; exact nomatch hy
  obtain ⟨r, g, rfl, hr, hg⟩ := State.freeWay_some hfree
  exact State.place_none_iff.2 ⟨State.freeWay_setTag hr hg hway, (s.freeOvf_setTag r g).trans hovf⟩

/-- R163: one record without a place stalls its bucket. -/
theorem State.placeAll_none {t r : Nat} {h : Head} {rs : List (Nat × Head)} (hmem : (r, h) ∈ rs) {s : State}
    (hnone : s.place t (headSeal h) = none) : s.placeAll t rs = none := by
  induction rs generalizing s with
  | nil => simp at hmem
  | cons e rs ih =>
    obtain ⟨r', h'⟩ := e
    rw [State.placeAll]
    cases hp : s.place t (headSeal h') with
    | none => rfl
    | some p =>
      have htail : (r, h) ∈ rs := by
        refine (List.mem_cons.1 hmem).resolve_left fun he => ?_
        cases he
        exact nomatch hnone.symm.trans hp
      simp only [ih htail (State.place_commitPlace hnone hp)]

theorem State.placeAll_one {s : State} {t r : Nat} {h : Head} {p : Placed} (hp : s.place t (headSeal h) = some p) :
    s.placeAll t [(r, h)] = some (s.commitPlace p (headSeal h), [(r, h, p)]) := by
  rw [State.placeAll, hp]
  rfl

/-! ## Moving a record (R162 step 3) -/

/-- The head and the tail of record `r` copied to the place `p`, OVERFLOW of the copy as the place says. -/
def State.copyRec (s : State) (r : Nat) (h : Head) (p : Placed) : State :=
  let n := p.rno
  let s := s.copyLine (s.headAddr r) (s.headAddr n)
  let s := s.hbmPut (s.headAddr n + 3)
    [byteOf (headBit (BitVec.ofNat 512 (s.le (s.headAddr n) 64)) 28 p.isOvf).toNat 3]
  if headFresh h then s else s.copyLine (s.headAddr r + 64) (s.headAddr n + 64)

/-- The cached head of record `r` becomes that of record `n`. -/
def State.renameLine (s : State) (r n : Nat) (ovf : Bool) : State :=
  match s.lineOfRec r with
  | some l => s.updLine l fun c => { c with head := headBit c.head 28 ovf, rno := n }
  | none => s

/-- The head of record `r` in the victim buffer becomes that of record `n`. -/
def State.renameVictim (s : State) (r n : Nat) (ovf : Bool) : State :=
  match s.victimOfRec r with
  | some (b, _) => s.setVictims b ((s.victims b).map fun (v : Victim) =>
      if v.rno = r then { v with head := headBit v.head 28 ovf, rno := n } else v)
  | none => s

/-- The sweep pass owed visits record `n` in the place of `r`. -/
def State.renameOwed (s : State) (r n : Nat) : State :=
  { s with warp := { s.warp with owed := s.warp.owed.map fun k => if k = r then n else k } }

theorem State.moveRec_eq (s : State) (r : Nat) (h : Head) (p : Placed) : s.moveRec r h p =
    let t := ((((s.copyRec r h p).renameLine r p.rno p.isOvf).renameVictim r p.rno p.isOvf).renameOwed r p.rno).incF
      Reg.warpRehashStat Fld.warpRehashStatMoved
    if t.flag Reg.warpFdigCtl Fld.warpFdigCtlMoveEn then t.fdig 4 (headForm h) 0 255 r (headSeal h) (toLE 4 p.rno)
    else t := rfl

/-- Copying a record writes HBM only. -/
theorem PastNotes.copyRec {β : Type} {π : State → β} (hπ : PastNotes π) (s : State) (r : Nat) (h : Head) (p : Placed) :
    π (s.copyRec r h p) = π s := by
  have hcopy (u : State) (src dst : Nat) : π (u.copyLine src dst) = π u := by
    rw [State.copyLine]
    rw [State.setBad, hπ.setErrs, hπ.hbmPut, hπ.hbmTraffic, hπ.hbmTraffic]
  have hcopies (u : State) (c : Prop) [Decidable c] (src dst : Nat) : π (if c then u else u.copyLine src dst) = π u :=
    view_ite rfl (hcopy u src dst)
  rw [State.copyRec]
  rw [hcopies, hπ.hbmPut, hcopy]

/-- `π` sees nothing of what moving a record changes: HBM, the lines and victims of heads, the pass owed, MOVED. -/
structure PastMoves {β : Type} (π : State → β) : Prop extends PastNotes π where
  line : ∀ (s : State) l c, π (s.setLine l c) = π s
  victims : ∀ (s : State) b v, π (s.setVictims b v) = π s
  owed : ∀ (s : State) r n, π (s.renameOwed r n) = π s
  moved : ∀ (s : State), π (s.incF Reg.warpRehashStat Fld.warpRehashStatMoved) = π s

theorem PastMoves.moveRec {β : Type} {π : State → β} (hπ : PastMoves π) (s : State) (r : Nat) (h : Head) (p : Placed) :
    π (s.moveRec r h p) = π s := by
  have hline (u : State) (n : Nat) (b : Bool) : π (u.renameLine r n b) = π u := by
    unfold State.renameLine
    split
    · unfold State.updLine
      split
      · rfl
      · exact hπ.line u _ _
    · rfl
  have hvictim (u : State) (n : Nat) (b : Bool) : π (u.renameVictim r n b) = π u := by
    unfold State.renameVictim
    split
    · exact hπ.victims u _ _
    · rfl
  have hdigest (u : State) (c : Prop) [Decidable c] (k n l m : Nat) (x : Seal) (bs : List Byte) :
      π (if c then u.fdig k n l m r x bs else u) = π u := view_ite (hπ.fdig u _ _ _ _ _ _ _) rfl
  rw [State.moveRec_eq]
  dsimp only
  rw [hdigest, hπ.moved, hπ.owed, hvictim, hline, hπ.copyRec]

namespace PastMoves

/-- Moving a record leaves the indexes, and how far step 5 has come. -/
theorem of_indexes : PastMoves fun s => (s.warp.tags, s.warp.ovf, s.warp.ovfNext) :=
  ⟨⟨⟨fun _ _ _ _ _ _ _ => rfl, fun _ _ _ _ => rfl, fun _ => rfl, fun _ => rfl⟩, fun _ _ _ _ => rfl,
      fun _ _ _ => rfl⟩, fun _ _ _ => rfl, fun _ _ _ => rfl, fun _ _ _ => rfl, fun _ => rfl⟩

/-- Moving a record leaves the configuration of the Warp. -/
theorem of_rd {a : Nat} (ha : ¬ recordReg a) (hn : a ∉ noteRegs) (hstat : a ≠ Reg.warpRehashStat) :
    PastMoves fun s => s.rd a :=
  ⟨.of_rd ha hn, fun _ _ _ => rfl, fun _ _ _ => rfl, fun _ _ _ => rfl, fun s => s.rd_wr_other _ hstat⟩

/-- Moving a record leaves CURSOR and the phase of the rehash. -/
theorem of_stat {f : Fld} (hf : Fld.warpRehashStatMoved.hi < f.lo) : PastMoves fun s => s.fld Reg.warpRehashStat f where
  toPastNotes :=
    have h : PastNotes fun s : State => s.rd Reg.warpRehashStat := .of_rd (by unfold recordReg; decide) (by decide)
    ⟨⟨fun _ _ _ _ _ _ _ => rfl, fun s a w ha => congrArg f.get (h.wr s a w ha), fun _ => rfl, fun _ => rfl⟩,
      fun s a w ha => congrArg f.get (h.note s a w ha), fun _ _ _ => rfl⟩
  line _ _ _ := rfl
  victims _ _ _ := rfl
  owed _ _ _ := rfl
  moved s := by
    rw [State.fld, State.incF, State.setF, State.rd_wr_same, Fld.get_put_other _ _ _ _ (.inr hf)]
    rfl

end PastMoves

/-- R162 step 3: the cached head of a record goes with it. -/
theorem State.moveRec_line {s : State} {r l : Nat} {k : CLine} (hl : s.lineOfRec r = some l) (hk : s.line l = some k)
    (h : Head) (p : Placed) :
    (s.moveRec r h p).line l = some { k with head := headBit k.head 28 p.isOvf, rno := p.rno } := by
  have hwarp : (s.copyRec r h p).warp = s.warp := PastNotes.of_warp.copyRec s r h p
  have hrename : (s.copyRec r h p).renameLine r p.rno p.isOvf =
      (s.copyRec r h p).setLine l (some { k with head := headBit k.head 28 p.isOvf, rno := p.rno }) := by
    rw [State.renameLine, State.lineOfRec_of_warp hwarp, hl]
    dsimp only
    rw [State.updLine, State.line_of_warp hwarp, hk]
  have hvictim (u : State) : (u.renameVictim r p.rno p.isOvf).line l = u.line l := by
    unfold State.renameVictim
    split <;> rfl
  have hdigest (u : State) (c : Prop) [Decidable c] (n f y m : Nat) (x : Seal) (bs : List Byte) :
      (if c then u.fdig n f y m r x bs else u).line l = u.line l := by
    split
    · exact State.line_of_warp (PastNotes.of_warp.fdig u _ _ _ _ _ _ _) l
    · rfl
  rw [State.moveRec_eq]
  dsimp only
  rw [hdigest]
  show (((s.copyRec r h p).renameLine r p.rno p.isOvf).renameVictim r p.rno p.isOvf).line l = _
  rw [hvictim, hrename, State.line_setLine, if_pos rfl]

/-! ## The end of a rehash (R162 step 6) -/

theorem State.rehashEnd_spec (s : State) : s.rehashEnd.warp = s.warp ∧ s.rehashEnd.curTable = 1 - s.curTable ∧
    s.rehashEnd.flag Reg.warpRehashStat Fld.warpRehashStatActive = false ∧
    (s.rehashEnd.rd Reg.warpErr).getLsbD 3 = true := by
  have hother {a : Nat} (ha : a ≠ Reg.warpErr) (u : State) (w : Word) : (u.wr Reg.warpErr w).rd a = u.rd a :=
    u.rd_wr_other w ha
  have hctl : s.rehashEnd.rd Reg.warpCtl = Fld.warpCtlCurTable.put (s.rd Reg.warpCtl) (1 - s.curTable) := by
    rw [State.rehashEnd]
    rw [(PastRecords.of_rd (a := Reg.warpCtl) (by unfold recordReg; decide)).err (hother (by decide)), State.setF,
      State.rd_wr_other _ _ (by decide), State.setF, State.rd_wr_other _ _ (by decide), State.setF, State.rd_wr_same]
  have hstat : ∃ w, s.rehashEnd.rd Reg.warpRehashStat =
      Fld.warpRehashStatOvfPhase.put (Fld.warpRehashStatActive.put w 0) 0 := by
    refine ⟨(s.setF Reg.warpCtl Fld.warpCtlCurTable (1 - s.curTable)).rd Reg.warpRehashStat, ?_⟩
    rw [State.rehashEnd]
    rw [(PastRecords.of_rd (a := Reg.warpRehashStat) (by unfold recordReg; decide)).err (hother (by decide)), State.setF,
      State.rd_wr_same, State.setF, State.rd_wr_same]
  obtain ⟨w, hstat⟩ := hstat
  refine ⟨PastNotes.of_warp.err (fun _ _ => rfl) _ _ _, ?_, ?_, ?_⟩
  · rw [State.curTable, State.fld, hctl, Fld.get_put _ _ _ (by decide)]
    exact Nat.mod_eq_of_lt (by show 1 - s.curTable < 2; omega)
  · rw [State.flag, State.fld, hstat, Fld.get_put_other _ _ _ _ (by decide), Fld.get_put _ _ _ (by decide)]
    rfl
  · exact State.err_sets _ _ (by unfold recordReg; decide) (by decide)

end Sys2Proof.Machine
end


section
/-! PROOF. The sweeps and the migration of the Warp, command by command (WarpMaintenance). -/

namespace Sys2Proof.Machine

/-! ## REHASH_START -/

/-- R162: a write of WARP_REHASH_CTL by its cases. -/
theorem exec_rehashStart {v : Word} {s : State} (hw : s.takesWrites Reg.warpRehashCtl) : exec (.rehashStart v) s =
    let t := s.wrote Reg.warpRehashCtl v
    if Fld.warpRehashCtlStart.get v ≠ 0 then
      if s.flag Reg.warpRehashStat Fld.warpRehashStatActive then .fault (.undefinedBehaviour 13)
      else if s.flowRangesOk = false then .fault (.undefinedBehaviour 12)
      else .next (t.wr Reg.warpRehashStat (BitVec.ofNat 64 (2 ^ 63)))
    else .next t := by
  have hactive : Fld.warpRehashStatActive.put 0 1 = BitVec.ofNat 64 (2 ^ 63) := by decide
  refine (State.byWrite_of_takes hw _).trans ?_
  rw [State.rehashCtlWrite, wroteOne_allOnes, hactive]
  simp only [bne_iff_ne, Bool.not_eq_true']
  split_ifs <;> rfl

/-! ## A bucket that is migrated (R162, R163) -/

/-- The bucket at CURSOR is done: no stall, and the next bucket. -/
def State.bucketDone (s : State) : State :=
  (s.setF Reg.warpRehashStat Fld.warpRehashStatStall 0).incF Reg.warpRehashStat Fld.warpRehashStatCursor

theorem State.bucketDone_rd (s : State) {a : Nat} (ha : a ≠ Reg.warpRehashStat) : s.bucketDone.rd a = s.rd a :=
  (State.rd_wr_other _ _ ha).trans (State.rd_wr_other _ _ ha)

theorem State.nbOf_le (s : State) {t : Nat} : s.nbOf t ≤ 2 ^ 26 := by
  rw [State.nbOf]
  split
  · exact (Fld.get_lt Fld.warpTblNb _).le
  · exact Nat.zero_le _

/-- CURSOR, which is as wide as NB, counts the bucket. -/
theorem State.bucketDone_stat {s : State}
    (hcur : s.fld Reg.warpRehashStat Fld.warpRehashStatCursor + 1 < 2 ^ 26) :
    s.bucketDone.fld Reg.warpRehashStat Fld.warpRehashStatCursor =
      s.fld Reg.warpRehashStat Fld.warpRehashStatCursor + 1 ∧
    s.bucketDone.flag Reg.warpRehashStat Fld.warpRehashStatStall = false := by
  have hcursor : (s.setF Reg.warpRehashStat Fld.warpRehashStatStall 0).fld Reg.warpRehashStat
      Fld.warpRehashStatCursor = s.fld Reg.warpRehashStat Fld.warpRehashStatCursor := by
    rw [State.fld, State.setF, State.rd_wr_same, Fld.get_put_other _ _ _ _ (by decide)]
    rfl
  constructor
  · rw [State.fld, State.bucketDone, State.incF, State.setF, State.rd_wr_same, Fld.get_put _ _ _ (by decide), hcursor]
    exact Nat.mod_eq_of_lt hcur
  · rw [State.flag, State.fld, State.bucketDone, State.incF, State.setF, State.rd_wr_same,
      Fld.get_put_other _ _ _ _ (by decide), State.setF, State.rd_wr_same, Fld.get_put _ _ _ (by decide)]
    rfl

/-- The records of a bucket, placed as `ps` says, have moved and left the old table. -/
def State.recsMoved (s : State) (ps : List (Nat × Head × Placed)) (rs : List Nat) : State :=
  rs.foldl (fun s r => s.setTag r 0) (ps.foldl (fun s x => s.moveRec x.1 x.2.1 x.2.2) s)

section
variable {s : State} (hcur : s.fld Reg.warpRehashStat Fld.warpRehashStatCursor + 1 < s.nbOf s.curTable)
  (hread : ∀ r ∈ s.bucketRecs, s.recUnread r = false)
include hcur hread

/-- R162 steps 2 and 3: the bucket at CURSOR, whose records' heads all read well. -/
theorem State.migrate_eq : s.migrate =
    match s.placeAll (1 - s.curTable) (s.bucketRecs.map fun r => (r, s.headOf r)) with
    | none => (s.setF Reg.warpRehashStat Fld.warpRehashStatStall 1).err Reg.warpErr 2
    | some (u, ps) =>
      let t := (u.recsMoved ps s.bucketRecs).bucketDone
      if t.nbOf s.curTable ≤ s.fld Reg.warpRehashStat Fld.warpRehashStatCursor + 1 then t.enterOvf else t := by
  have hnone : s.bucketRecs.filter s.recUnread = [] :=
    List.filter_eq_nil_iff.2 fun r hr => by rw [hread r hr]; decide
  have hsame : (s.bucketRecs.filter fun r => s.tag r != 0) = s.bucketRecs := by
    rw [State.bucketRecs, List.filter_filter]
    simp only [Bool.and_self]
  have hrecs : ((List.range 8).map fun w => s.firstRec s.curTable +
      8 * s.fld Reg.warpRehashStat Fld.warpRehashStatCursor + w).filter (fun r => s.tag r != 0) = s.bucketRecs := rfl
  rw [State.migrate, if_neg (by omega), hrecs]
  dsimp only
  rw [hnone, List.foldl_nil, hsame]
  rfl

/-- R163: a record without a place stalls the bucket. -/
theorem State.migrate_stalls {r : Nat} (hr : r ∈ s.bucketRecs)
    (hnone : s.place (1 - s.curTable) (headSeal (s.headOf r)) = none) :
    s.migrate = (s.setF Reg.warpRehashStat Fld.warpRehashStatStall 1).err Reg.warpErr 2 := by
  rw [State.migrate_eq hcur hread,
    State.placeAll_none (List.mem_map_of_mem (f := fun r => (r, s.headOf r)) hr) hnone]

/-- A bucket whose records have all moved is done: others are left in the old table. -/
theorem State.migrate_moves {u : State} {ps : List (Nat × Head × Placed)}
    (hplace : s.placeAll (1 - s.curTable) (s.bucketRecs.map fun r => (r, s.headOf r)) = some (u, ps))
    (hrd : (u.recsMoved ps s.bucketRecs).rd (Reg.warpTbl s.curTable) = s.rd (Reg.warpTbl s.curTable)) :
    s.migrate = (u.recsMoved ps s.bucketRecs).bucketDone := by
  have hne : Reg.warpTbl s.curTable ≠ Reg.warpRehashStat := by
    have hlt : s.curTable < 2 := Fld.get_lt Fld.warpCtlCurTable _
    unfold Reg.warpTbl Reg.warpRehashStat
    omega
  have hnb := State.nbOf_of_rd ((State.bucketDone_rd _ hne).trans hrd)
  rw [State.migrate_eq hcur hread, hplace]
  exact if_neg (by rw [hnb]; omega)

end

/-- R162: the records of a bucket of which only one way is taken. -/
theorem State.bucketRecs_one {s : State} {w : Nat} (hw : w < 8) :
    let way (j : Nat) := s.firstRec s.curTable + 8 * s.fld Reg.warpRehashStat Fld.warpRehashStatCursor + j
    s.tag (way w) ≠ 0 → (∀ j, j < 8 → j ≠ w → s.tag (way j) = 0) → s.bucketRecs = [way w] := by
  intro way htag hothers
  have hone : ∀ w < 8, (List.range 8).filter (fun j => decide (j = w)) = [w] := by decide
  have hfilter : (List.range 8).filter (fun j => s.tag (way j) != 0) = [w] := by
    rw [← hone w hw]
    refine List.filter_congr fun j hj => ?_
    by_cases hjw : j = w
    · simp [hjw, htag]
    · simp [hjw, hothers j (List.mem_range.1 hj) hjw]
  show ((List.range 8).map way).filter _ = _
  rw [List.filter_map]
  exact congrArg (List.map way) hfilter

theorem State.mem_bucketRecs {s : State} {r : Nat} : r ∈ s.bucketRecs ↔ ∃ w, w < 8 ∧
    r = s.firstRec s.curTable + 8 * s.fld Reg.warpRehashStat Fld.warpRehashStatCursor + w ∧ s.tag r ≠ 0 := by
  simp only [State.bucketRecs, List.mem_filter, List.mem_map, List.mem_range, bne_iff_ne]
  constructor
  · rintro ⟨⟨w, hw, rfl⟩, htag⟩
    exact ⟨w, hw, rfl, htag⟩
  · rintro ⟨w, hw, rfl, htag⟩
    exact ⟨⟨w, hw, rfl⟩, htag⟩

/-- R162: MIGRATE_BUCKET and REHASH_RETRY, each in its own phase, take the bucket at CURSOR. -/
theorem exec_migrates {c : Instr} {s : State} (hh : s.halted = false) (hm : s.migrating = true)
    (hc : (c = .migrateBucket ∧ s.flag Reg.warpRehashStat Fld.warpRehashStatStall = false) ∨
      (c = .rehashRetry ∧ s.flag Reg.warpRehashStat Fld.warpRehashStatStall = true)) :
    exec c s = .next s.migrateNow := by
  rcases hc with ⟨rfl, hstall⟩ | ⟨rfl, hstall⟩
  · show execMigrateBucket s = _
    simp [execMigrateBucket, unlessHalted, hh, hm, hstall]
  · show execRehashRetry s = _
    simp [execRehashRetry, unlessHalted, hh, hm, hstall]

theorem State.rd_setTag (s : State) (r g a : Nat) : (s.setTag r g).rd a = s.rd a := rfl

theorem State.line_setTag (s : State) (r g l : Nat) : (s.setTag r g).line l = s.line l := rfl

theorem State.lineOfRec_setTag (s : State) (r g k : Nat) : (s.setTag r g).lineOfRec k = s.lineOfRec k := rfl

theorem State.recsMoved_one (s : State) (k r g : Nat) (h : Head) :
    (s.commitPlace (.way r g) (headSeal h)).recsMoved [(k, h, .way r g)] [k] =
      ((s.setTag r g).moveRec k h (.way r g)).setTag k 0 := by
  rw [State.recsMoved, List.foldl_cons, List.foldl_nil, List.foldl_cons, List.foldl_nil, State.commitPlace]

/-- R162: one record moves to a way of the new table, its cached head with it. -/
theorem State.recMoved_spec {s t : State} {k r g : Nat} {h : Head} (hne : r ≠ k)
    (ht : t = ((s.setTag r g).moveRec k h (.way r g)).setTag k 0) :
    t.tag r = g ∧ t.tag k = 0 ∧ (∀ a, ¬ recordReg a → a ∉ noteRegs → a ≠ Reg.warpRehashStat → t.rd a = s.rd a) ∧
    t.fld Reg.warpRehashStat Fld.warpRehashStatCursor = s.fld Reg.warpRehashStat Fld.warpRehashStatCursor ∧
    ∀ l c, s.lineOfRec k = some l → s.line l = some c →
      t.line l = some { c with head := headBit c.head 28 false, rno := r } := by
  have htags : ((s.setTag r g).moveRec k h (.way r g)).warp.tags = (s.setTag r g).warp.tags :=
    congrArg (·.1) (PastMoves.of_indexes.moveRec (s.setTag r g) k h (.way r g))
  subst ht
  refine ⟨?_, ?_, fun a ha hn hstat => ?_, ?_, fun l c hl hc => ?_⟩
  · rw [State.tag_setTag, if_neg hne, State.tag, htags]
    exact (s.tag_setTag r g r).trans (if_pos rfl)
  · rw [State.tag_setTag, if_pos rfl]
  · rw [State.rd_setTag, (PastMoves.of_rd ha hn hstat).moveRec, State.rd_setTag]
  · rw [State.fld, State.rd_setTag]
    exact (PastMoves.of_stat (f := Fld.warpRehashStatCursor) (by decide)).moveRec (s.setTag r g) k h (.way r g)
  · rw [State.line_setTag]
    exact State.moveRec_line ((s.lineOfRec_setTag r g k).trans hl) ((s.line_setTag r g l).trans hc) h (.way r g)

section
variable {c : Instr} {s : State} (hh : s.halted = false) (hm : s.migrating = true)
  (hc : (c = .migrateBucket ∧ s.flag Reg.warpRehashStat Fld.warpRehashStatStall = false) ∨
    (c = .rehashRetry ∧ s.flag Reg.warpRehashStat Fld.warpRehashStatStall = true))
include hh hm hc

theorem exec_bucket_held {t : State} (ht : s.moveHeld s.bucketRecs = some t) : exec c s = .next t := by
  rw [exec_migrates hh hm hc, State.migrateNow, ht]
  rfl

theorem exec_bucket_free (hfree : s.moveHeld s.bucketRecs = none) : exec c s = .next s.migrate := by
  rw [exec_migrates hh hm hc, State.migrateNow, hfree]
  rfl

variable (hcur : s.fld Reg.warpRehashStat Fld.warpRehashStatCursor + 1 < s.nbOf s.curTable)
include hcur

/-- R162: a bucket without records is done. -/
theorem exec_bucket_empty (hempty : s.bucketRecs = []) : exec c s = .next s.bucketDone := by
  have hmoved : s.recsMoved [] s.bucketRecs = s := by rw [hempty]; rfl
  have hmig := State.migrate_moves (u := s) (ps := []) hcur (by simp [hempty]) (by rw [hempty]; rfl) (by rw [hmoved])
  rw [hmoved] at hmig
  exact (exec_bucket_free hh hm hc (by rw [hempty]; rfl)).trans (congrArg _ hmig)

/-- R162, R163: the one record of a bucket, which has a way in the new table, moves there, and the bucket is done. -/
theorem exec_bucket_one {k r g : Nat} (hrecs : s.bucketRecs = [k]) (hread : s.recUnread k = false)
    (hplace : s.place (1 - s.curTable) (headSeal (s.headOf k)) = some (.way r g)) (hne : r ≠ k)
    (hfree : s.moveHeld s.bucketRecs = none) :
    leaves c s fun t => t.tag r = g ∧ t.tag k = 0 ∧ t.fld Reg.warpRehashStat Fld.warpRehashStatCursor =
        s.fld Reg.warpRehashStat Fld.warpRehashStatCursor + 1 ∧
      t.flag Reg.warpRehashStat Fld.warpRehashStatStall = false ∧ ∀ l e, s.lineOfRec k = some l → s.line l = some e →
        t.line l = some { e with head := headBit e.head 28 false, rno := r } := by
  obtain ⟨htagr, htagk, hrd, hcursor, hline⟩ := State.recMoved_spec hne (State.recsMoved_one s k r g (s.headOf k))
  have hold : s.curTable < 2 := Fld.get_lt Fld.warpCtlCurTable _
  have htbl := hrd (Reg.warpTbl s.curTable) (by unfold recordReg Reg.warpTbl; omega)
    (by
      simp only [noteRegs, Reg.warpTbl, Reg.warpErr, Reg.warpFdigProd, Reg.warpFdigStat, List.mem_cons,
        List.not_mem_nil, or_false]
      omega)
    (by unfold Reg.warpTbl Reg.warpRehashStat; omega)
  have hmig := State.migrate_moves hcur (by simp [hrecs, hread]) (by rw [hrecs]; exact State.placeAll_one hplace)
    (by rw [hrecs]; exact htbl)
  rw [hrecs] at hmig
  obtain ⟨hnext, hstall⟩ := State.bucketDone_stat (by rw [hcursor]; exact hcur.trans_le s.nbOf_le)
  exact ⟨_, (exec_bucket_free hh hm hc hfree).trans (congrArg _ hmig), htagr, htagk,
    hnext.trans (congrArg (· + 1) hcursor), hstall, hline⟩

end

/-! ## MIGRATE_OVERFLOW (R162 step 5) -/

/-- The rehash is in step 5. -/
def State.offering (s : State) : Prop := s.flag Reg.warpRehashStat Fld.warpRehashStatActive = true ∧
  s.flag Reg.warpRehashStat Fld.warpRehashStatOvfPhase = true

/-- Step 5 has offered every entry up to `i`. -/
def State.offered (s : State) (i : Nat) : State := { s with warp := { s.warp with ovfNext := i + 1 } }

/-- With no entry left to offer, the rehash ends. -/
def State.orEnd (s : State) : State := if s.nextOvf.isNone then s.rehashEnd else s

theorem State.orEnd_warp (s : State) : s.orEnd.warp = s.warp := by
  unfold State.orEnd
  split
  · exact s.rehashEnd_spec.1
  · rfl

section
variable {i : Fin 1048576} {s : State} (hh : s.halted = false)
include hh

theorem exec_migrateOverflow_off (hoff : ¬ s.offering) : exec (.migrateOverflow i) s = .next s := by
  have hflags : (s.flag Reg.warpRehashStat Fld.warpRehashStatActive &&
      s.flag Reg.warpRehashStat Fld.warpRehashStatOvfPhase) = false := by
    simpa [State.offering] using hoff
  show execMigrateOverflow i s = _
  simp [execMigrateOverflow, unlessHalted, hh, hflags]

variable (hon : s.offering)
include hon

/-- R162 step 5 by its cases. -/
theorem exec_migrateOverflow : exec (.migrateOverflow i) s =
    if s.nextOvf.isNone then .next s.rehashEnd
    else if s.nextOvf = some i.val then
      .next ((s.moveHeld [s.ovfFirst + i.val]).getD
        ((if s.recUnread (s.ovfFirst + i.val) then
            (s.uncRead (s.headAddr (s.ovfFirst + i.val))).loseRec (s.ovfFirst + i.val)
          else match s.freeWay (1 - s.curTable) (headSeal (s.headOf (s.ovfFirst + i.val))) with
            | none => s
            | some p => ((s.commitPlace p (headSeal (s.headOf (s.ovfFirst + i.val)))).moveRec (s.ovfFirst + i.val)
                (s.headOf (s.ovfFirst + i.val)) p).setOvf i.val none).offered i.val).orEnd)
    else .next s := by
  obtain ⟨hactive, hphase⟩ := hon
  show execMigrateOverflow i s = _
  rw [execMigrateOverflow, unlessHalted, if_neg (by simp [hh]), hactive, hphase, if_neg (by decide)]
  split
  · rfl
  · split
    · dsimp only
      cases s.moveHeld [s.ovfFirst + i.val] <;> rfl
    · rfl

theorem exec_migrateOverflow_other {j : Nat} (hj : s.nextOvf = some j) (hne : j ≠ i.val) :
    exec (.migrateOverflow i) s = .next s := by
  rw [exec_migrateOverflow hh hon, hj, if_neg (by simp), if_neg fun h => hne (Option.some.inj h)]

theorem exec_migrateOverflow_last (hnone : s.nextOvf = none) : exec (.migrateOverflow i) s = .next s.rehashEnd := by
  rw [exec_migrateOverflow hh hon, hnone]
  rfl

variable (hnext : s.nextOvf = some i.val)
include hnext

theorem exec_migrateOverflow_held {t : State} (ht : s.moveHeld [s.ovfFirst + i.val] = some t) :
    exec (.migrateOverflow i) s = .next t := by
  rw [exec_migrateOverflow hh hon, hnext, if_neg (by simp), if_pos rfl, ht]
  rfl

variable (hfree : s.moveHeld [s.ovfFirst + i.val] = none) (hread : s.recUnread (s.ovfFirst + i.val) = false)
include hfree hread

theorem exec_migrateOverflow_stays
    (hway : s.freeWay (1 - s.curTable) (headSeal (s.headOf (s.ovfFirst + i.val))) = none) :
    exec (.migrateOverflow i) s = .next (s.offered i.val).orEnd := by
  rw [exec_migrateOverflow hh hon, hnext, if_neg (by simp), if_pos rfl, hfree, hread, hway]
  rfl

theorem exec_migrateOverflow_moves {q g : Nat}
    (hway : s.freeWay (1 - s.curTable) (headSeal (s.headOf (s.ovfFirst + i.val))) = some (.way q g)) :
    exec (.migrateOverflow i) s = .next ((((s.setTag q g).moveRec (s.ovfFirst + i.val)
      (s.headOf (s.ovfFirst + i.val)) (.way q g)).setOvf i.val none).offered i.val).orEnd := by
  rw [exec_migrateOverflow hh hon, hnext, if_neg (by simp), if_pos rfl, hfree, hread, hway]
  rfl

end

/-- R162 step 5: an overflow record that goes to a way leaves its entry free, and every other entry as it was. -/
theorem State.overflowMoved_spec (s : State) (i r q g : Nat) (h : Head) :
    let t := ((((s.setTag q g).moveRec r h (.way q g)).setOvf i none).offered i).orEnd
    t.tag q = g ∧ Tbl.get (Tbl.const none) t.warp.ovf i = none ∧
      ∀ j, j ≠ i → Tbl.get (Tbl.const none) t.warp.ovf j = Tbl.get (Tbl.const none) s.warp.ovf j := by
  intro t
  have hindexes := PastMoves.of_indexes.moveRec (s.setTag q g) r h (.way q g)
  simp only [Prod.mk.injEq] at hindexes
  obtain ⟨htags, hovf, -⟩ := hindexes
  have hwarp : t.warp = ((((s.setTag q g).moveRec r h (.way q g)).setOvf i none).offered i).warp := State.orEnd_warp _
  have htags' : t.warp.tags = (s.setTag q g).warp.tags := (congrArg Warp.tags hwarp).trans htags
  have hovf' : t.warp.ovf = Tbl.set (Tbl.const none) s.warp.ovf i none :=
    (congrArg Warp.ovf hwarp).trans (congrArg (fun m => Tbl.set (Tbl.const none) m i none) hovf)
  refine ⟨?_, ?_, fun j hj => ?_⟩
  · rw [State.tag, htags']
    exact (s.tag_setTag q g q).trans (if_pos rfl)
  · rw [hovf', Tbl.get_set_same]
  · rw [hovf', Tbl.get_set_other _ _ _ hj]

/-! ## Moves that wait (R146, R360) -/

theorem State.moveHeld_busy {s : State} {rs : List Nat} (h : ∃ r ∈ rs, s.recBusy r = true) : s.moveHeld rs = some s :=
  if_pos (List.any_eq_true.2 h)

theorem State.moveHeld_quiet {s : State} {rs : List Nat} (h : ∀ r ∈ rs, s.recBusy r = false) :
    s.moveHeld rs = (rs.findSome? fun r => s.accessHeld (s.headAddr r) 128).map s.hbmWake :=
  if_neg fun hany => by
    obtain ⟨r, hr, hbusy⟩ := List.any_eq_true.1 hany
    rw [h r hr] at hbusy
    exact nomatch hbusy

theorem State.moveHeld_held {s : State} {rs : List Nat} (hquiet : ∀ r ∈ rs, s.recBusy r = false)
    (hheld : ∃ r ∈ rs, (s.accessHeld (s.headAddr r) 128).isSome = true) :
    ∃ r ∈ rs, ∃ a, s.accessHeld (s.headAddr r) 128 = some a ∧ s.moveHeld rs = some (s.hbmWake a) := by
  have hsome : (rs.findSome? fun r => s.accessHeld (s.headAddr r) 128).isSome = true :=
    List.findSome?_isSome_iff.2 hheld
  obtain ⟨a, ha⟩ := Option.isSome_iff_exists.1 hsome
  obtain ⟨r, hr, hra⟩ := List.exists_of_findSome?_eq_some ha
  exact ⟨r, hr, a, hra, by rw [State.moveHeld_quiet hquiet, ha]; rfl⟩

/-! ## The parts of the obligation -/

/-- R152: what a fold without a digest makes of each total of a tail. -/
theorem foldTail_grows (h : Head) (fresh : Bool) (old : List Byte) (hold : old.length = 64) :
    let z := if fresh then List.replicate 64 0 else old
    (ofLE (slice z 28 4)).testBit 31 = false →
    let t := foldTail false fresh none h old
    let grown (o n d : Nat) : Prop := ofLE (slice t o n) = (ofLE (slice z o n) + d) % 2 ^ (8 * n)
    t.length = 64 ∧ grown 0 8 (delta h 0).1 ∧ grown 8 8 (delta h 0).2 ∧ grown 24 4 (delta h 1).1 ∧
      grown 16 8 (delta h 1).2 ∧ grown 32 4 (delta h 2).1 ∧ grown 40 8 (delta h 2).2 ∧
      grown 36 4 (delta h 3).1 ∧ grown 48 8 (delta h 3).2 := by
  intro z hmode t grown
  have hz : z.length = 64 := by
    unfold z
    split
    · rfl
    · exact hold
  have hgrown {e : Nat × Nat × Nat} (he : e ∈ tailTotals h) (hlen : e.1 + e.2.1 ≤ 64) : grown e.1 e.2.1 e.2.2 := by
    have hadd := ofLE_addAll (tailTotals_apart h) he (bs := z) (by rwa [hz])
    rwa [← foldTail_totals hmode h] at hadd
  refine ⟨length_foldTail _ _ _ _ (.inr hold), ?_⟩
  unfold tailTotals at hgrown
  exact ⟨hgrown (e := (0, 8, _)) (by simp) (by simp), hgrown (e := (8, 8, _)) (by simp) (by simp),
    hgrown (e := (24, 4, _)) (by simp) (by simp), hgrown (e := (16, 8, _)) (by simp) (by simp),
    hgrown (e := (32, 4, _)) (by simp) (by simp), hgrown (e := (40, 8, _)) (by simp) (by simp),
    hgrown (e := (36, 4, _)) (by simp) (by simp), hgrown (e := (48, 8, _)) (by simp) (by simp)⟩

/-- Settles O26: folds by the totals they add to, which stand apart in a tail; the sweeps by the one line or record that
they visit; a bucket by where its records have places, which a record placed before takes from none that had it; step 5
by the entry it offers. -/
theorem warpMaintenance : Obligations.WarpMaintenance := by
  unfold Obligations.WarpMaintenance
  refine ⟨⟨foldTail_grows, fun s w2 flow who r m h => ?_, State.length_coherent⟩,
    ⟨fun l s hh => ⟨fun c hl hd hreserved hsecond hdetached => ?_, fun c hl hd => exec_cacheSweep_folded hh hl hd,
      exec_cacheSweep_free hh⟩, fun r s hh hs => exec_tableSweep_unfit hh hs,
      fun r s hh hplaced hline hvictim hbusy hread => ?_⟩,
    ⟨fun v s hw => ?_, fun c s hh hm hc => ?_, fun i s hh => ?_, fun s rs => ?_⟩⟩
  · intro f
    obtain ⟨hdeltas, hfresh, hseal, hgen⟩ := foldedHead_spec h
    refine ⟨hdeltas, hfresh, hseal, hgen, fun hdigest hstale hw2 => ?_⟩
    intro a ha hunc
    subst hw2
    exact State.fold_bytes hdigest hstale ha hunc
  · have hexec := exec_cacheSweep_deltas hh hl hd hreserved hsecond hdetached
    exact ⟨fun a ha => by rw [hexec, ha], fun hfree => ⟨_, by rw [hexec, hfree], State.sweptLine_spec hl⟩⟩
  · intro a h stale u put
    have hs : s.sweepable r.toNat = true := by simp [State.sweepable, hplaced, hline, hvictim, hbusy]
    have hgen : u.fld Reg.warpGen Fld.warpGenCurrent = s.fld Reg.warpGen Fld.warpGenCurrent :=
      State.fld_of_rd ((s.visited_leaves r.toNat).2.1 _ (by decide)) _
    have hprofile : u.profile = s.profile := State.fld_of_rd ((s.visited_leaves r.toNat).2.1 _ (by decide)) _
    refine ⟨exec_tableSweep_off hh, fun b hsweeps hheld => exec_tableSweep_held hh hs hsweeps hheld,
      fun hfree => ⟨fun hsweeps hd hg => ?_, fun hsweeps hd hg => ?_, fun hsweeps hd hg => ?_⟩⟩
    · have hfit := State.sweepHead_fit (s := u) (a := a) (r := r.toNat) hd (by rw [hgen]; exact hg)
      exact (exec_tableSweep_visits hh hs hsweeps hfree hread).trans (congrArg Host.Outcome.next hfit)
    · have hold := State.sweepHead_stale (s := u) (a := a) (r := r.toNat) hd (by rw [hgen]; exact hg)
      exact (exec_tableSweep_visits hh hs hsweeps hfree hread).trans (congrArg Host.Outcome.next hold)
    · intro f hsame
      have hfold : u.fold (u.profile == 2) false .internal r.toNat none h = f := by rw [hprofile]
      have hdeltas := State.sweepHead_deltas (s := u) (a := a) (r := r.toNat) hd (by rw [hfold, hsame]; exact hg)
      rw [hfold] at hdeltas
      exact (exec_tableSweep_visits hh hs hsweeps hfree hread).trans (congrArg Host.Outcome.next hdeltas)
  · intro t start active
    have hexec := exec_rehashStart (v := v) hw
    refine ⟨fun hno => hexec.trans (if_neg hno), fun hstart hactive => hexec.trans ((if_pos hstart).trans (if_pos hactive)),
      fun hstart hidle hr => hexec.trans ((if_pos hstart).trans ((if_neg hidle).trans (if_pos hr))),
      fun hstart hidle hr => ⟨_, hexec.trans ((if_pos hstart).trans ((if_neg hidle).trans (if_neg (by simp [hr])))), rfl,
        ?_, ?_⟩⟩
    · rw [State.flag, State.fld, State.rd_wr_same]; decide
    · rw [State.fld, State.rd_wr_same]; decide
  · intro old cur way moved hcur
    refine ⟨fun t ht => exec_bucket_held hh hm hc ht, fun hzero => ?_, fun hread ⟨w, hw, htag, hnone⟩ hheld => ?_,
      fun w r g hw htag hothers hread hplace hne hheld =>
        exec_bucket_one hh hm hc hcur (State.bucketRecs_one hw htag hothers) hread hplace hne hheld⟩
    · have hgo : exec c s = .next (moved s) :=
        exec_bucket_empty hh hm hc hcur <| List.eq_nil_iff_forall_not_mem.2 fun r hr => by
          obtain ⟨w, hw, rfl, htag⟩ := State.mem_bucketRecs.1 hr
          exact htag (hzero w hw)
      exact ⟨fun h => h ▸ hgo, fun h => h ▸ hgo⟩
    · have hreads : ∀ r ∈ s.bucketRecs, s.recUnread r = false := fun r hr => by
        obtain ⟨j, hj, rfl, hjtag⟩ := State.mem_bucketRecs.1 hr
        exact hread j hj hjtag
      exact (exec_bucket_free hh hm hc hheld).trans (congrArg _ (State.migrate_stalls hcur hreads
        (State.mem_bucketRecs.2 ⟨w, hw, rfl, htag⟩) hnone))
  · intro on r seen
    refine ⟨exec_migrateOverflow_off hh, fun j hon hj hne => exec_migrateOverflow_other hh hon hj hne,
      fun hon hnone => ⟨_, exec_migrateOverflow_last hh hon hnone, ?_⟩,
      fun t hon hnext ht => exec_migrateOverflow_held hh hon hnext ht, fun hon hnext hfree hread hway => ?_,
      fun q g hon hnext hfree hread hway =>
        ⟨_, exec_migrateOverflow_moves hh hon hnext hfree hread hway, s.overflowMoved_spec _ _ _ _ _⟩⟩
    · obtain ⟨-, hcur, hactive, hdone⟩ := s.rehashEnd_spec
      exact ⟨hcur, hactive, hdone⟩
    · have hexec := exec_migrateOverflow_stays hh hon hnext hfree hread hway
      refine ⟨fun hmore => hexec.trans (congrArg _ (if_neg ?_)), fun hnone => ⟨_, hexec, ?_⟩⟩
      · rw [Option.isNone_iff_eq_none]
        exact hmore
      · have hend : (s.offered i.val).orEnd = (s.offered i.val).rehashEnd := if_pos (Option.isNone_iff_eq_none.2 hnone)
        obtain ⟨hwarp, hcur, hactive, hdone⟩ := (s.offered i.val).rehashEnd_spec
        have hovf : (s.offered i.val).rehashEnd.warp.ovf = s.warp.ovf :=
          (congrArg Warp.ovf hwarp).trans rfl
        rw [hend]
        exact ⟨hcur, hactive, hdone, hovf⟩
  · exact ⟨State.moveHeld_busy, fun hquiet hfree => by
      rw [State.moveHeld_quiet hquiet, List.findSome?_eq_none_iff.2 hfree]; rfl, State.moveHeld_held⟩

end Sys2Proof.Machine
end


section
/-! PROOF. Power, scrub and slots of the Reed's banks (ReedBankPower). -/

namespace Sys2Proof.Machine

/-! ## Bank power (R226) -/

theorem State.reedBankWrite_turnsOn {s : State} {b : Nat} {v en : Word}
    (hwas : s.flag (Reg.reedBank b) Fld.reedBankPower = false)
    (hnow : (s.plainWrite (Reg.reedBank b) v en).flag (Reg.reedBank b) Fld.reedBankPower = true) :
    s.reedBankWrite b v en = { s.plainWrite (Reg.reedBank b) v en with
      reed := { (s.plainWrite (Reg.reedBank b) v en).reed with
        checking := insUniq b (s.plainWrite (Reg.reedBank b) v en).reed.checking } } :=
  if_pos (by rw [hwas, hnow]; decide)

theorem State.reedBankWrite_turnsOff {s : State} {b : Nat} {v en : Word}
    (hwas : s.flag (Reg.reedBank b) Fld.reedBankPower = true)
    (hnow : (s.plainWrite (Reg.reedBank b) v en).flag (Reg.reedBank b) Fld.reedBankPower = false) :
    s.reedBankWrite b v en = { (s.plainWrite (Reg.reedBank b) v en).setF (Reg.reedBank b) Fld.reedBankPowerAck 0 with
      reed := { (s.plainWrite (Reg.reedBank b) v en).reed with
        checking := (s.plainWrite (Reg.reedBank b) v en).reed.checking.filter (· != b) } } :=
  (if_neg (by simp [hnow])).trans (if_pos (by rw [hwas, hnow]; decide))

/-- A write that leaves POWER as it is only stores. -/
theorem State.reedBankWrite_keepsPower {s : State} {b : Nat} {v en : Word}
    (h : s.flag (Reg.reedBank b) Fld.reedBankPower =
      (s.plainWrite (Reg.reedBank b) v en).flag (Reg.reedBank b) Fld.reedBankPower) :
    s.reedBankWrite b v en = s.plainWrite (Reg.reedBank b) v en := by
  simp [State.reedBankWrite, h]

theorem exec_reedBankPowerUp {b : Fin 128} {v : Word} {s : State} (hw : s.takesWrites (Reg.reedBank b.val)) :
    exec (.reedBankPowerUp b v) s = .next (s.reedBankWrite b.val v (BitVec.allOnes 64)) :=
  State.byWrite_of_takes hw _

/-- R226: a check that finds no row that differs sets POWER_ACK. -/
theorem exec_reedPowerAck_clean {b : Fin 128} {s : State} (hh : s.halted = false) (hc : b.val ∈ s.reed.checking) :
    exec (.reedPowerAck b []) s =
      .next ({ s with reed := { s.reed with checking := s.reed.checking.filter (· != b.val) } }.setF
        (Reg.reedBank b.val) Fld.reedBankPowerAck 1) := by
  change execReedPowerAck b [] s = _
  simp [execReedPowerAck, unlessHalted, hh, hc]

theorem exec_reedPowerAck_idle {b : Fin 128} {bad : List (Fin 4096)} {s : State} (hh : s.halted = false)
    (hc : b.val ∉ s.reed.checking) : exec (.reedPowerAck b bad) s = .next s := by
  change execReedPowerAck b bad s = _
  simp [execReedPowerAck, unlessHalted, hh, hc]

/-! ## What a side copy reads as (R228, R351) -/

theorem copyRead_lost {c : List SymErr × List SymErr} (h : (rsUnc c.1 || rsUnc c.2) = true) : copyRead c = none :=
  if_pos h

theorem copyRead_whole {c : List SymErr × List SymErr} (h : (rsUnc c.1 || rsUnc c.2) = false)
    (h1 : rsLeft c.1 = []) (h2 : rsLeft c.2 = []) : copyRead c = some ([], []) := by
  rw [copyRead, h, h1, h2]
  rfl

theorem scrubCopy_first {f : RowFault} {l : List SymErr × List SymErr} (hA : copyRead f.copyA = some l) :
    scrubCopy f = some l := by rw [scrubCopy, hA]; rfl

theorem scrubCopy_second {f : RowFault} (hA : copyRead f.copyA = none) : scrubCopy f = copyRead f.copyB := by
  rw [scrubCopy, hA]; rfl

/-! ## The scrub of a row (R228) -/

/-- R228, R373: bank `b` is powered and scrubbed, and a scrub access has won a slot of it. -/
def State.scrubMayRun (s : State) (b : Nat) : Prop :=
  s.flag Reg.reedCtl Fld.reedCtlScrubEn = true ∧ s.reedOn b = true ∧ Tbl.get (Tbl.const 0) s.reed.scrubs b ≠ 0

/-- The slot of bank `b` that a scrub access has won is used. -/
def State.scrubSpent (s : State) (b : Nat) : State :=
  { s with reed := { s.reed with scrubs := Tbl.upd (Tbl.const 0) s.reed.scrubs b (· - 1) } }

/-- Row `i` is searched without verification from then on. -/
def State.rowUnverified (s : State) (i : Nat) : State :=
  { s with reed := { s.reed with unverified := insUniq i s.reed.unverified } }

/-- R228: both copies of row `i` are lost, with a MASKED record. -/
def State.scrubCopyLost (s : State) (i : Nat) : State :=
  (((s.rowUnverified i).setF Reg.reedErr Fld.reedErrCopyLost 1).setF Reg.reedErrIdx Fld.reedErrIdxIndex i).masked 11
    (srcOf Reg.reedErr) i 1

section
variable {i : Fin 524288} {f : RowFault} {s : State} (hh : s.halted = false)
include hh

theorem exec_reedScrub_off (hoff : ¬ s.scrubMayRun (i.val / 4096)) : exec (.reedScrub i f) s = .next s := by
  change execReedScrub i f s = _
  rw [execReedScrub, unlessHalted, if_neg (by simp [hh])]
  refine if_pos ?_
  rw [State.scrubMayRun, not_and_or, not_and_or, ne_eq, not_not] at hoff
  simpa using hoff

theorem exec_reedScrub_on (hon : s.scrubMayRun (i.val / 4096)) : exec (.reedScrub i f) s =
    match scrubCopy f with
    | some l =>
        if (f.differs ∨ l ≠ ([], [])) ∧ !s.reed.unverified.contains i.val then
          .next (((s.scrubSpent (i.val / 4096)).rowFromCopy i.val l).scrubRepair i.val)
        else .next (s.scrubSpent (i.val / 4096))
    | none => .next ((s.scrubSpent (i.val / 4096)).scrubCopyLost i.val) := by
  obtain ⟨hen, hpow, hwon⟩ := hon
  change execReedScrub i f s = _
  rw [execReedScrub, unlessHalted, if_neg (by simp [hh])]
  exact if_neg (by simp [hen, hpow, hwon])

/-- R228: a row whose copy reads whole is repaired where it differs and is verified. -/
theorem exec_reedScrub_whole (hon : s.scrubMayRun (i.val / 4096)) (hcopy : scrubCopy f = some ([], [])) :
    exec (.reedScrub i f) s = .next (if f.differs = true ∧ i.val ∉ s.reed.unverified then
      (s.scrubSpent (i.val / 4096)).scrubRepair i.val else s.scrubSpent (i.val / 4096)) := by
  rw [exec_reedScrub_on hh hon, hcopy]
  by_cases hrepair : f.differs = true ∧ i.val ∉ s.reed.unverified
  · simp [hrepair, State.rowFromCopy]
  · rw [if_neg hrepair]
    exact if_neg (by simpa using hrepair)

theorem exec_reedScrub_lost (hon : s.scrubMayRun (i.val / 4096)) (hcopy : scrubCopy f = none) :
    exec (.reedScrub i f) s = .next ((s.scrubSpent (i.val / 4096)).scrubCopyLost i.val) := by
  rw [exec_reedScrub_on hh hon, hcopy]

end

/-! ## Bank slots (R373) -/

theorem State.updPkt_eq (s : State) (p : Nat) (g : Pkt → Pkt) :
    s.updPkt p g = s ∨ ∃ x, s.updPkt p g = s.setPkt p (some x) := by
  cases hx : s.pkt? p with
  | none => exact .inl (by rw [State.updPkt, hx])
  | some x => exact .inr ⟨_, State.updPkt_some hx⟩

/-- A grant changes a packet at the most. -/
theorem State.grantSlot_eq (s : State) (b q : Nat) :
    s.grantSlot b q = s ∨ ∃ p x, s.grantSlot b q = s.setPkt p (some x) := by
  unfold State.grantSlot
  cases s.portQ q with
  | nil => exact .inl rfl
  | cons p rest => exact (s.updPkt_eq p _).imp_right fun ⟨x, hx⟩ => ⟨p, x, hx⟩

/-- R373: the search at the head of a port's queue has its slot of the bank. -/
theorem State.grantSlot_pkt {s : State} {b q p : Nat} {x : Pkt} {r : Search} (hhead : (s.portQ q).head? = some p)
    (hx : s.pkt? p = some x) (hr : x.pick.wait = .search r) : (s.grantSlot b q).pkt? p =
      some { x with pick := { x.pick with wait := .search { r with got := r.got ||| 2 ^ b } } } := by
  obtain ⟨rest, hq⟩ := List.head?_eq_some_iff.1 hhead
  rw [State.grantSlot, hq]
  exact (congrArg (State.pkt? · p) (State.updPkt_some hx)).trans (by rw [State.pkt_setPkt, hr])

/-- R373: a slot of bank `b` for owner `o` (`State.reedSlotOwner`) goes to the port's search, where it is a port's. -/
def State.slotTaken (s : State) (b o : Nat) : State := if 1 ≤ o ∧ o ≤ 4 then s.grantSlot b (o - 1) else s

theorem State.slotTaken_eq (s : State) (b o : Nat) :
    s.slotTaken b o = s ∨ ∃ p x, s.slotTaken b o = s.setPkt p (some x) := by
  unfold State.slotTaken
  split
  · exact s.grantSlot_eq b _
  · exact .inl rfl

theorem State.slotTaken_mem (s : State) (b o : Nat) : (s.slotTaken b o).mem = s.mem := by
  obtain h | ⟨p, x, h⟩ := s.slotTaken_eq b o <;> rw [h]
  rfl

theorem State.slotTaken_regs (s : State) (b o : Nat) : (s.slotTaken b o).regs = s.regs := by
  obtain h | ⟨p, x, h⟩ := s.slotTaken_eq b o <;> rw [h]
  rfl

theorem State.slotTaken_reed (s : State) (b o : Nat) : (s.slotTaken b o).reed = s.reed := by
  obtain h | ⟨p, x, h⟩ := s.slotTaken_eq b o <;> rw [h]
  rfl

theorem State.slotTaken_port {s : State} {b q : Nat} (hq : q < 4) : s.slotTaken b (q + 1) = s.grantSlot b q :=
  if_pos ⟨Nat.le_add_left 1 q, hq⟩

/-- R373: what a slot of bank `b` does to the tables of the Reed: the position moves on, and its owner is noted. -/
def Reed.slotDone (r : Reed) (b o len : Nat) : Reed :=
  { r with
    slotPos := Tbl.upd (Tbl.const 0) r.slotPos b fun i => if len = 0 then 0 else (i + 1) % len
    scrubs := if o = 6 then Tbl.set (Tbl.const 0) r.scrubs b 1 else r.scrubs
    writes := if o = 5 then Tbl.upd (Tbl.const 0) r.writes b (· - 1) else r.writes
    lastSlot := Tbl.set (Tbl.const 0) r.lastSlot b o }

theorem Reed.slotDone_lastSlot (r : Reed) (b o len : Nat) :
    Tbl.get (Tbl.const 0) (r.slotDone b o len).lastSlot b = o := Tbl.get_set_same _ _ _ _

theorem Reed.slotDone_scrubs (r : Reed) (b len : Nat) : Tbl.get (Tbl.const 0) (r.slotDone b 6 len).scrubs b = 1 :=
  Tbl.get_set_same _ r.scrubs b 1

theorem Reed.slotDone_slotPos (r : Reed) (b o : Nat) {len : Nat} (hlen : len ≠ 0) :
    Tbl.get (Tbl.const 0) (r.slotDone b o len).slotPos b = (Tbl.get (Tbl.const 0) r.slotPos b + 1) % len :=
  (Tbl.get_set_same _ _ _ _).trans (if_neg hlen)

theorem exec_reedBankSlot {b : Fin 128} {s : State} (hh : s.halted = false) :
    exec (.reedBankSlot b) s = .next { s.slotTaken b.val (s.reedSlotOwner b.val) with
      reed := s.reed.slotDone b.val (s.reedSlotOwner b.val)
        (min 32 (s.fld Reg.reedTreadleCtl Fld.reedTreadleCtlLen)) } := by
  change execReedBankSlot b s = _
  rw [execReedBankSlot, unlessHalted, if_neg (by simp [hh])]
  rw [← s.slotTaken_reed b.val (s.reedSlotOwner b.val)]
  rfl

/-! ## The statement -/

/-- Settles O19: a write of a bank's register by what it does to POWER, the scrub by what its two copies read as, and a
slot as a grant to its owner's search beside the tables it leaves (`Reed.slotDone`). -/
theorem reedBankPower : Obligations.ReedBankPower := by
  unfold Obligations.ReedBankPower
  refine ⟨?_, fun b s hh => ⟨exec_reedPowerAck_clean hh, fun hc bad => exec_reedPowerAck_idle hh hc⟩, ?_, ?_⟩
  · intro b v s a t hw
    rw [exec_reedBankPowerUp hw]
    exact ⟨fun hwas hnow => congrArg _ (State.reedBankWrite_turnsOn hwas hnow),
      fun hwas hnow => congrArg _ (State.reedBankWrite_turnsOff hwas hnow),
      fun h => congrArg _ (State.reedBankWrite_keepsPower h)⟩
  · intro i s hh won on did note lost reads
    have hwhole {c} (hc : reads c) : copyRead c = some ([], []) := copyRead_whole hc.1 hc.2.1 hc.2.2
    refine ⟨fun hoff f => exec_reedScrub_off hh hoff, fun f hon hreads => ?_, fun f hon hA hB => ?_⟩
    · have hcopy : scrubCopy f = some ([], []) := by
        obtain hA | ⟨hA, hB⟩ := hreads
        · exact scrubCopy_first (hwhole hA)
        · exact (scrubCopy_second (copyRead_lost hA)).trans (hwhole hB)
      rw [exec_reedScrub_whole hh hon hcopy]
      refine ⟨fun hkeep => congrArg _ (if_neg ?_), fun hdiff hver => congrArg _ (if_pos ⟨hdiff, hver⟩)⟩
      rintro ⟨hdiff, hver⟩
      obtain hsame | hunver := hkeep
      · exact Bool.false_ne_true (hsame.symm.trans hdiff)
      · exact hver hunver
    · exact exec_reedScrub_lost hh hon ((scrubCopy_second (copyRead_lost hA)).trans (copyRead_lost hB))
  · intro b s hh len
    refine ⟨_, exec_reedBankSlot hh, s.slotTaken_mem _ _, s.slotTaken_regs _ _, Reed.slotDone_lastSlot _ _ _ _,
      fun ho => ?_, fun q p x r ho hq hhead hx hr => ?_, fun hlen => Reed.slotDone_slotPos _ _ _ hlen⟩
    · rw [ho]
      exact Reed.slotDone_scrubs _ _ _
    · rw [ho, State.slotTaken_port hq]
      exact ⟨_, State.grantSlot_pkt hhead hx hr, rfl⟩

end Sys2Proof.Machine
end

section
/-! PROOF. Learn events (AddressLearning): what the shuttle reads is as it was before it took the event, so that each
decision of R269 is one of the state before; and the words of a MAC entry after an update. -/

namespace Sys2Proof.Machine

/-! ## Numbers stored in memory -/

theorem State.le_lt (s : State) (a n : Nat) : s.le a n < 256 ^ n := by
  have h := ofLE_lt (s.bytes a n)
  rwa [State.length_bytes] at h

theorem State.le_of_mem {t s : State} (h : t.mem = s.mem) (a n : Nat) : t.le a n = s.le a n :=
  congrArg ofLE (State.bytes_of_mem h a n)

theorem State.le_setLe (s : State) (a n v : Nat) : (s.setLe a n v).le a n = v % 256 ^ n := by
  have h := s.bytes_setBytes a (toLE n v)
  rw [length_toLE] at h
  rw [State.le, State.setLe, h, ofLE_toLE]

theorem State.byte_setLe_apart (s : State) {a n b : Nat} (v : Nat) (h : b < a ∨ a + n ≤ b) :
    (s.setLe a n v).byte b = s.byte b :=
  s.byte_setBytes_out (by rw [length_toLE]; omega)

theorem State.le_setLe_apart (s : State) {a n b m : Nat} (v : Nat) (h : b + m ≤ a ∨ a + n ≤ b) :
    (s.setLe a n v).le b m = s.le b m :=
  congrArg ofLE (State.bytes_congr fun _ _ => s.byte_setLe_apart v (by omega))

theorem State.rd_of_regs {t s : State} (h : t.regs = s.regs) (a : Nat) : t.rd a = s.rd a := by
  rw [State.rd, State.rd, h]

theorem State.byte_of_mem {t s : State} (h : t.mem = s.mem) (a : Nat) : t.byte a = s.byte a := by
  rw [State.byte, State.byte, h]

theorem State.masterLe_lt (s : State) (a : Nat) : s.masterLe a < 2 ^ 64 := by
  unfold State.masterLe
  cases s.masterLost a with
  | none => exact s.le_lt a 8
  | some w => exact w.isLt

theorem State.masterLe_of_mem {t s : State} (hmem : t.mem = s.mem) (hdigest : t.digest = s.digest) (a : Nat) :
    t.masterLe a = s.masterLe a := by
  rw [State.masterLe, State.masterLe, State.masterLost, State.masterLost, hdigest, State.le_of_mem hmem]

theorem State.lockOf_of_lock {t s : State} (h : t.spin.lock = s.spin.lock) (k : Nat) : t.lockOf k = s.lockOf k := by
  rw [State.lockOf, State.lockOf, h]

theorem State.setLe_learn (s : State) (a n v : Nat) : (s.setLe a n v).learn = s.learn := by
  rw [State.setLe, State.setBytes_only]

@[simp] theorem State.mendLost_learn (s : State) (a n : Nat) : (s.mendLost a n).learn = s.learn := rfl

theorem State.setLe_regs (s : State) (a n v : Nat) : (s.setLe a n v).regs = s.regs := s.setBytes_regs a _

@[simp] theorem State.mendLost_regs (s : State) (a n : Nat) : (s.mendLost a n).regs = s.regs := rfl

@[simp] theorem State.mendLost_mem (s : State) (a n : Nat) : (s.mendLost a n).mem = s.mem := rfl

theorem State.macWord1_learn (s : State) (e w : Nat) : (s.macWord1 e w).learn = s.learn := by
  rw [State.macWord1, State.mendLost_learn, State.setLe_learn]

theorem State.macWord1_regs (s : State) (e w : Nat) : (s.macWord1 e w).regs = s.regs := by
  rw [State.macWord1, State.mendLost_regs, State.setLe_regs]

theorem State.macInstall_regs (s : State) (v : LearnEv) (e : Nat) : (s.macInstall v e).regs = s.regs := by
  unfold State.macInstall
  dsimp only
  rw [State.macWord1_regs, State.mendLost_regs, State.setLe_regs]

/-! ## The free entries of a bucket -/

/-- The lowest free entry of bucket `b` in the master copy. -/
def State.macFree (s : State) (b : Nat) : Option Nat :=
  ((List.range 8).map fun w => 8 * b + w).find? fun e => bitsOf (s.masterLe (macAddr e)) 63 63 == 0

/-- Entry `e` of bucket `b` is free in the master copy. -/
def State.macFreeAt (s : State) (b e : Nat) : Prop :=
  8 * b ≤ e ∧ e < 8 * b + 8 ∧ s.masterLe (macAddr e) / 2 ^ 63 % 2 = 0

theorem State.macFree_none {s : State} {b : Nat} (h : ∀ e, ¬ s.macFreeAt b e) : s.macFree b = none := by
  refine List.find?_eq_none.2 fun e he => ?_
  obtain ⟨w, hw, rfl⟩ := List.mem_map.1 he
  have hw := List.mem_range.1 hw
  rw [beq_iff_eq, bitsOf_eq]
  exact fun hfree => h (8 * b + w) ⟨by omega, by omega, hfree⟩

theorem State.macFree_lowest {s : State} {b e : Nat} (he : s.macFreeAt b e) (hleast : ∀ d, s.macFreeAt b d → e ≤ d) :
    s.macFree b = some e := by
  obtain ⟨hlo, hhi, hfree⟩ := he
  have hfind : (List.range 8).find? (fun w => bitsOf (s.masterLe (macAddr (8 * b + w))) 63 63 == 0) =
      some (e - 8 * b) := by
    refine List.find?_range_eq_some.2 ⟨?_, List.mem_range.2 (by omega), fun w hw => ?_⟩
    · rw [Nat.add_sub_cancel' hlo, beq_iff_eq, bitsOf_eq]
      exact hfree
    · rw [Bool.not_eq_true', beq_eq_false_iff_ne, bitsOf_eq]
      exact fun hw0 => absurd (hleast (8 * b + w) ⟨by omega, by omega, hw0⟩) (by omega)
  rw [State.macFree, List.find?_map]
  exact (congrArg _ hfind).trans (congrArg some (Nat.add_sub_cancel' hlo))

/-! ## Learning records (R440) -/

/-- R440: no learning record is enabled. -/
def State.learnsQuietly (s : State) : Prop :=
  ∀ f ∈ [Fld.learnCtlEvLearn, Fld.learnCtlEvMove, Fld.learnCtlEvFlap, Fld.learnCtlEvLimit, Fld.learnCtlEvFull],
    s.flag Reg.learnCtl f = false

/-- R440: a learning record where its kind is enabled. -/
theorem State.learnPost_on {s : State} {f : Fld} (h : s.flag Reg.learnCtl f = true) (typ : Nat) (v : LearnEv)
    (old : Nat) (e : Option Nat) : s.learnPost f typ v old e = s.post typ 36
      (toLE 6 (v.key % 2 ^ 48) ++ toLE 2 (v.key / 2 ^ 48 % 4096) ++ toLE 2 v.port ++ toLE 2 old ++
        toLE 4 (e.getD 0xFFFFFFFF)) := by
  rw [State.learnPost, if_pos h, bitsOf_low, bitsOf_quotient (hi := 59) (lo := 48) (m := 4096) rfl]
  rfl

theorem State.learnPost_off {s : State} {f : Fld} (h : s.flag Reg.learnCtl f = false) (typ : Nat) (v : LearnEv)
    (old : Nat) (e : Option Nat) : s.learnPost f typ v old e = s := if_neg (by simp [h])

/-- With no records enabled none is posted, in any state with the same LEARN_CTL. -/
theorem State.learnPost_quietly {t s : State} (hquiet : s.learnsQuietly) (hctl : t.rd Reg.learnCtl = s.rd Reg.learnCtl)
    {f : Fld} (hf : f ∈ [Fld.learnCtlEvLearn, Fld.learnCtlEvMove, Fld.learnCtlEvFlap, Fld.learnCtlEvLimit,
      Fld.learnCtlEvFull]) (typ : Nat) (v : LearnEv) (old : Nat) (e : Option Nat) : t.learnPost f typ v old e = t :=
  State.learnPost_off ((State.flag_of_rd hctl f).trans (hquiet f hf)) _ _ _ _

/-! ## What the shuttle reads -/

/-- A register of the learning shuttle other than LEARN_STAT, where it counts. -/
def shuttleReads (a : Nat) : Prop := 0x240000 ≤ a ∧ a ≠ Reg.learnStat

/-- `t` is `s` in all that the shuttle decides by: the MAC table and its lost words, the locks, and its registers. -/
structure State.decidesAs (t s : State) : Prop where
  mem : t.mem = s.mem
  digest : t.digest = s.digest
  lock : t.spin.lock = s.spin.lock
  rd : ∀ a, shuttleReads a → t.rd a = s.rd a

theorem shuttleReads_learnPort (p : Nat) : shuttleReads (Reg.learnPort p) := by
  unfold shuttleReads Reg.learnPort Reg.learnStat
  omega

theorem shuttleReads_learnCtl : shuttleReads Reg.learnCtl := by unfold shuttleReads; decide

namespace State.decidesAs
variable {t s : State} (h : t.decidesAs s)
include h

theorem fld {a : Nat} (ha : shuttleReads a) (f : Fld) : t.fld a f = s.fld a f := State.fld_of_rd (h.rd a ha) f

theorem noLearn (p : Nat) : t.noLearn p = s.noLearn p := by
  simp only [State.noLearn, h.fld (shuttleReads_learnPort p)]

theorem macBucket (k : Nat) : t.macBucket k = s.macBucket k := by
  rw [State.macBucket, State.macBucket, h.fld shuttleReads_learnCtl]

theorem masterLe (a : Nat) : t.masterLe a = s.masterLe a := State.masterLe_of_mem h.mem h.digest a

theorem masterFind (b k : Nat) : t.masterFind b k = s.masterFind b k := by
  simp only [State.masterFind, h.masterLe]

theorem learnCount (p : Nat) : t.learnCount p = s.learnCount p := by
  simp only [State.learnCount, State.macValid, h.masterLe, h.mem]

theorem atLimit (p : Nat) : t.atLimit p = s.atLimit p := by
  rw [State.atLimit, State.atLimit, State.limitMet, State.limitMet, h.learnCount, h.fld (shuttleReads_learnPort p)]

theorem lockOf (k : Nat) : t.lockOf k = s.lockOf k := State.lockOf_of_lock h.lock k

theorem macFree (b : Nat) : t.macFree b = s.macFree b := by simp only [State.macFree, h.masterLe]

theorem flag {a : Nat} (ha : shuttleReads a) (f : Fld) : t.flag a f = s.flag a f := State.flag_of_rd (h.rd a ha) f

theorem quiet (hquiet : s.learnsQuietly) : t.learnsQuietly := fun f hf =>
  (h.flag shuttleReads_learnCtl f).trans (hquiet f hf)

end State.decidesAs

/-! ## The event is taken -/

/-- R268: the shuttle has taken the event `v`, which leaves `rest`, and counts it. -/
def State.eventTaken (s : State) (v : LearnEv) (rest : List LearnEv) : State :=
  ({ s with learn := { s.learn with queue := rest } }.incF Reg.learnStat Fld.learnStatEvents).event
    { kind := 11, weight := 1, priv := 0, master := .loom v.loom, addr := none, cls := none }

section
variable (s : State) (v : LearnEv) (rest : List LearnEv)

theorem State.eventTaken_alike : (s.eventTaken v rest).alike
    ({ s with learn := { s.learn with queue := rest } }.incF Reg.learnStat Fld.learnStatEvents) :=
  State.event_alike _ _

theorem State.eventTaken_learn : (s.eventTaken v rest).learn = { s.learn with queue := rest } :=
  (congrArg State.learn (s.eventTaken_alike v rest).1 :)

theorem State.eventTaken_mem : (s.eventTaken v rest).mem = s.mem :=
  (congrArg State.mem (s.eventTaken_alike v rest).1 :)

theorem State.eventTaken_decidesAs : (s.eventTaken v rest).decidesAs s where
  mem := s.eventTaken_mem v rest
  digest := (congrArg State.digest (s.eventTaken_alike v rest).1 :)
  lock := (congrArg (fun t : State => t.spin.lock) (s.eventTaken_alike v rest).1 :)
  rd a := fun ⟨hlow, hstat⟩ => by
    have hmeasured : a ∉ measured := by
      simp only [measured, List.mem_cons, List.not_mem_nil, or_false, not_or]
      unfold Reg.glassEvtOvf Reg.glassSmpStat
      omega
    exact ((s.eventTaken_alike v rest).2 a hmeasured).trans (State.rd_wr_other _ _ hstat)

end

/-! ## Decisions leave the age command that waits -/

theorem PastRecords.of_learn : PastRecords State.learn :=
  ⟨fun _ _ _ _ _ _ _ => rfl, fun _ _ _ _ => rfl, fun _ => rfl, fun _ => rfl⟩

theorem State.learnPost_learn (s : State) (f : Fld) (typ : Nat) (v : LearnEv) (old : Nat) (e : Option Nat) :
    (s.learnPost f typ v old e).learn = s.learn := view_ite (PastRecords.of_learn.post s _ _ _) rfl

theorem State.age_ite {t u : State} {b : Option (Nat × Bool × Nat)} (ht : t.learn.age = b) (hu : u.learn.age = b)
    {c : Prop} {_ : Decidable c} : (if c then t else u).learn.age = b := view_ite (π := fun t => t.learn.age) ht hu

theorem State.learnPost_age (s : State) (f : Fld) (typ : Nat) (v : LearnEv) (old : Nat) (e : Option Nat) :
    (s.learnPost f typ v old e).learn.age = s.learn.age := congrArg Learn.age (s.learnPost_learn f typ v old e)

theorem State.deferLearn_age (s : State) (v : LearnEv) : (s.deferLearn v).learn.age = s.learn.age := by
  unfold State.deferLearn
  refine State.age_ite rfl ?_
  rw [PastRecords.of_learn.err fun _ _ => rfl]
  rfl

theorem State.macMove_age (s : State) (v : LearnEv) (e : Nat) : (s.macMove v e).learn.age = s.learn.age := by
  unfold State.macMove
  extract_lets w old m win start fresh m2 n pin u _ noted told
  have hu : u.learn = s.learn := s.macWord1_learn e _
  clear_value u
  have hnoted : noted.learn.age = s.learn.age := by
    show u.learn.age = _
    rw [hu]
  have htold : told.learn.age = s.learn.age := (State.learnPost_age noted _ _ _ _ _).trans hnoted
  refine State.age_ite ?_ htold
  exact (State.learnPost_age _ _ _ _ _ _).trans htold

theorem State.macInstall_age (s : State) (v : LearnEv) (e : Nat) : (s.macInstall v e).learn.age = s.learn.age := by
  unfold State.macInstall
  dsimp only
  rw [State.macWord1_learn, State.mendLost_learn, State.setLe_learn]

theorem State.judge_age (s : State) (v : LearnEv) : (s.judge v).learn.age = s.learn.age := by
  have hdefer {t : State} {c : Prop} {_ : Decidable c} (ht : t.learn.age = s.learn.age) :
      (if c then s.deferLearn v else t).learn.age = s.learn.age := State.age_ite (s.deferLearn_age v) ht
  unfold State.judge
  extract_lets b es locked limit
  have hlimit : (limit s).learn.age = s.learn.age := State.learnPost_age _ _ _ _ _ _
  have hcounted : (s.cntShared 8).learn.age = s.learn.age := rfl
  refine State.age_ite rfl (State.age_ite (State.learnPost_age _ _ _ _ _ _) ?_)
  clear_value es
  cases es with
  | cons e _ =>
    dsimp only
    exact State.age_ite rfl (State.age_ite hcounted (State.age_ite hlimit (hdefer (s.macMove_age v e))))
  | nil =>
    dsimp only
    refine State.age_ite hlimit ?_
    split
    · exact State.learnPost_age _ _ _ _ _ _
    · exact hdefer ((State.learnPost_age _ _ _ _ _ _).trans (s.macInstall_age v _))

theorem State.runAge_none {s : State} (h : s.learn.age = none) : s.runAge = s := by rw [State.runAge, h]

theorem exec_learnEvent {s : State} {v : LearnEv} {rest : List LearnEv} (hh : s.halted = false)
    (hqueue : s.learn.queue = v :: rest) (hage : s.learn.age = none) :
    exec .learnEvent s =
      if s.noLearn v.port = false ∧ 2 ≤ (s.masterFind (s.macBucket v.key) v.key).length then ub 25
      else .next ((s.eventTaken v rest).judge v) := by
  have hsees := s.eventTaken_decidesAs v rest
  have hrun : ((s.eventTaken v rest).judge v).runAge = (s.eventTaken v rest).judge v :=
    State.runAge_none (by rw [State.judge_age, State.eventTaken_learn]; exact hage)
  rw [← hsees.noLearn, ← hsees.macBucket, ← hsees.masterFind]
  show execLearnEvent s = _
  rw [← hrun]
  simp only [execLearnEvent, unlessHalted, hh, hqueue, hage, State.eventTaken, Option.map_none, Bool.and_eq_true,
    Bool.not_eq_true', decide_eq_true_eq, Bool.false_eq_true, if_false]

/-! ## The decisions of R269 -/

section
variable {s : State} {v : LearnEv}

theorem State.judge_noLearn (h : s.noLearn v.port = true) : s.judge v = s := if_pos h

variable (hlearn : s.noLearn v.port = false)
include hlearn

theorem State.judge_request (hmode : s.fld (Reg.learnPort v.port) Fld.learnPortMode = 2) :
    s.judge v = s.learnPost Fld.learnCtlEvLearn 7 v 0 (s.masterFind (s.macBucket v.key) v.key).head? :=
  (if_neg (by simp [hlearn])).trans (if_pos hmode)

variable (hmode : s.fld (Reg.learnPort v.port) Fld.learnPortMode ≠ 2) (hquiet : s.learnsQuietly)
include hmode hquiet

/-- R269: an unknown key, with no records. -/
theorem State.judge_unknown (hknown : s.masterFind (s.macBucket v.key) v.key = []) :
    s.judge v =
      if s.atLimit v.port = true then s.setF Reg.learnErr Fld.learnErrLimit 1
      else match s.macFree (s.macBucket v.key) with
        | none => s.setF Reg.learnErr Fld.learnErrTableFull 1
        | some e => if (s.lockOf (s.macBucket v.key)).isSome = true then s.deferLearn v else s.macInstall v e := by
  rw [State.judge, hknown]
  have hnoted (f : Fld) : (s.setF Reg.learnErr f 1).rd Reg.learnCtl = s.rd Reg.learnCtl :=
    State.rd_wr_other _ _ (by decide)
  have hinstall (e : Nat) := State.learnPost_quietly hquiet (State.rd_of_regs (s.macInstall_regs v e) _)
    (f := Fld.learnCtlEvLearn) (by decide) 6 v 0 (some e)
  dsimp only
  rw [if_neg (by simp [hlearn]), if_neg hmode, State.learnPost_quietly hquiet (hnoted _) (by decide),
    State.learnPost_quietly hquiet (hnoted _) (by decide)]
  simp only [hinstall]
  rfl

/-- R269: a key known in one entry, with no records. -/
theorem State.judge_known {e : Nat} (hknown : s.masterFind (s.macBucket v.key) v.key = [e]) :
    s.judge v =
      let w := s.masterLe (macAddr e + 8)
      if w / 2 ^ 16 % 2 = 0 ∧ w % 65536 = v.port then s
      else if w / 2 ^ 16 % 8 ≠ 0 then s.cntShared 8
      else if s.atLimit v.port = true then s.setF Reg.learnErr Fld.learnErrLimit 1
      else if (s.lockOf (s.macBucket v.key)).isSome = true then s.deferLearn v else s.macMove v e := by
  rw [State.judge, hknown]
  have hnoted : (s.setF Reg.learnErr Fld.learnErrLimit 1).rd Reg.learnCtl = s.rd Reg.learnCtl :=
    State.rd_wr_other _ _ (by decide)
  dsimp only
  rw [if_neg (by simp [hlearn]), if_neg hmode, State.learnPost_quietly hquiet hnoted (by decide), bitsOf_16,
    bitsOf_quotient (hi := 16) (lo := 16) (m := 2) rfl, bitsOf_quotient (hi := 18) (m := 8) rfl]

end

/-! ## What an update leaves of memory (R269, R270) -/

/-- Entry `e` becomes the words `w0` and `w1`, and no other byte changes. -/
def State.entryBecomes (s t : State) (e w0 w1 : Nat) : Prop :=
  t.le (macAddr e) 8 = w0 ∧ t.le (macAddr e + 8) 8 = w1 ∧
    ∀ a, a < macAddr e ∨ macAddr e + 16 ≤ a → t.byte a = s.byte a

theorem State.entryBecomes_of_mem {s s' t t' : State} {e w0 w1 : Nat} (hs : s'.mem = s.mem) (ht : t'.mem = t.mem)
    (h : s'.entryBecomes t e w0 w1) : s.entryBecomes t' e w0 w1 := by
  unfold State.entryBecomes State.byte at h ⊢
  rwa [State.le_of_mem ht, State.le_of_mem ht, ht, ← hs]

theorem State.macWord1_entry (s : State) (e : Nat) {w : Nat} (hw : w < 2 ^ 64) :
    s.entryBecomes (s.macWord1 e w) e (s.le (macAddr e) 8) w := by
  have hmem : (s.macWord1 e w).mem = (s.setLe (macAddr e + 8) 8 w).mem := by rw [State.macWord1, State.mendLost_mem]
  refine State.entryBecomes_of_mem rfl hmem ⟨s.le_setLe_apart w (.inl (by omega)), ?_, fun a ha => ?_⟩
  · exact (s.le_setLe _ _ _).trans (Nat.mod_eq_of_lt hw)
  · exact s.byte_setLe_apart w (by omega)

theorem State.macInstall_entry (s : State) {v : LearnEv} (e : Nat) (hkey : v.key < 2 ^ 60) (hport : v.port < 65536) :
    s.entryBecomes (s.macInstall v e) e (2 ^ 63 + v.key) v.port := by
  obtain ⟨u, hu⟩ : ∃ u, (s.setLe (macAddr e) 8 (2 ^ 63 + v.key)).mendLost (macAddr e) 8 = u := ⟨_, rfl⟩
  have hmem : (s.macInstall v e).mem = (u.macWord1 e v.port).mem := by
    unfold State.macInstall
    dsimp only
    rw [hu]
  have humem : u.mem = (s.setLe (macAddr e) 8 (2 ^ 63 + v.key)).mem := by rw [← hu, State.mendLost_mem]
  obtain ⟨hw0, hw1, hrest⟩ := u.macWord1_entry e (show v.port < 2 ^ 64 by omega)
  refine State.entryBecomes_of_mem rfl hmem ⟨?_, hw1, fun a ha => ?_⟩
  · rw [hw0, State.le_of_mem humem, State.le_setLe]
    exact Nat.mod_eq_of_lt (by omega)
  · rw [hrest a ha, State.byte_of_mem humem, State.byte_setLe_apart _ _ (by omega)]

/-- R270: where LEARN_FLAP.N is 0 a move pins nothing. -/
theorem State.macMove_mem {s : State} {v : LearnEv} {e : Nat} (hquiet : s.learnsQuietly)
    (hn : s.fld Reg.learnFlap Fld.learnFlapN = 0) : (s.macMove v e).mem =
      (s.macWord1 e (s.masterLe (macAddr e + 8) / 65536 * 65536 + v.port)).mem := by
  have hword (w : Nat) : w - bitsOf w 15 0 + v.port + b2n false * 2 ^ 18 = w / 65536 * 65536 + v.port := by
    rw [bitsOf_16, b2n]
    simp only [Bool.false_eq_true, if_false]
    omega
  unfold State.macMove
  extract_lets w old m win start fresh m2 n pin u _ noted told
  have hpin : pin = false := by simp [pin, n, hn]
  have hu : u = s.macWord1 e (w / 65536 * 65536 + v.port) := by rw [← hword w, ← hpin]
  clear_value u
  have hregs : noted.regs = s.regs := by
    show u.regs = _
    rw [hu, State.macWord1_regs]
  have htold : told = noted := State.learnPost_quietly hquiet (State.rd_of_regs hregs _) (by decide) _ _ _ _
  rw [hpin, if_neg (by decide), htold, ← hu]

theorem State.macMove_entry {s : State} {v : LearnEv} (e : Nat) (hquiet : s.learnsQuietly)
    (hn : s.fld Reg.learnFlap Fld.learnFlapN = 0) (hport : v.port < 65536) :
    s.entryBecomes (s.macMove v e) e (s.le (macAddr e) 8)
      (s.masterLe (macAddr e + 8) / 65536 * 65536 + v.port) := by
  have hlt := s.masterLe_lt (macAddr e + 8)
  exact State.entryBecomes_of_mem rfl (State.macMove_mem hquiet hn) (s.macWord1_entry e (by omega))

/-! ## Deferred updates (R273) -/

theorem State.deferLearn_room {s : State} (v : LearnEv)
    (h : s.learn.deferred.length + s.learn.pinDeferred.length < 16) :
    s.deferLearn v = { s with learn := { s.learn with deferred := s.learn.deferred ++ [v] } } :=
  if_pos (decide_eq_true h)

theorem State.deferLearn_full {s : State} (v : LearnEv)
    (h : 16 ≤ s.learn.deferred.length + s.learn.pinDeferred.length) :
    s.deferLearn v = (s.incF Reg.learnStat Fld.learnStatDeferDrop).err Reg.learnErr 3 :=
  if_neg (by rw [State.deferRoom, decide_eq_true_eq]; omega)

/-! ## LEARN_EVENT, case by case -/

section
variable {s : State} {v : LearnEv} {rest : List LearnEv} (hh : s.halted = false)
  (hqueue : s.learn.queue = v :: rest) (hage : s.learn.age = none)
include hh hqueue hage

theorem exec_learnEvent_ambiguous (hlearn : s.noLearn v.port = false)
    (htwo : 2 ≤ (s.masterFind (s.macBucket v.key) v.key).length) : undefinedUse .learnEvent s 25 :=
  (exec_learnEvent hh hqueue hage).trans (if_pos ⟨hlearn, htwo⟩)

theorem exec_learnEvent_noLearn (h : s.noLearn v.port = true) : exec .learnEvent s = .next (s.eventTaken v rest) := by
  rw [exec_learnEvent hh hqueue hage, if_neg (by simp [h]),
    State.judge_noLearn (((s.eventTaken_decidesAs v rest).noLearn v.port).trans h)]

/-- R269: in MODE 2 the event is only told. -/
theorem exec_learnEvent_request (hlearn : s.noLearn v.port = false)
    (hmode : s.fld (Reg.learnPort v.port) Fld.learnPortMode = 2)
    (hfew : (s.masterFind (s.macBucket v.key) v.key).length ≤ 1) :
    exec .learnEvent s = .next ((s.eventTaken v rest).learnPost Fld.learnCtlEvLearn 7 v 0
      (s.masterFind (s.macBucket v.key) v.key).head?) := by
  have hsees := s.eventTaken_decidesAs v rest
  rw [exec_learnEvent hh hqueue hage, if_neg (by omega), State.judge_request ((hsees.noLearn _).trans hlearn)
    ((hsees.fld (shuttleReads_learnPort _) _).trans hmode), hsees.macBucket, hsees.masterFind]

variable (hlearn : s.noLearn v.port = false) (hmode : s.fld (Reg.learnPort v.port) Fld.learnPortMode ≠ 2)
  (hquiet : s.learnsQuietly)
include hlearn hmode hquiet

theorem exec_learnEvent_unknown (hknown : s.masterFind (s.macBucket v.key) v.key = []) :
    exec .learnEvent s = .next (
      if s.atLimit v.port = true then (s.eventTaken v rest).setF Reg.learnErr Fld.learnErrLimit 1
      else match s.macFree (s.macBucket v.key) with
        | none => (s.eventTaken v rest).setF Reg.learnErr Fld.learnErrTableFull 1
        | some e =>
          if (s.lockOf (s.macBucket v.key)).isSome = true then (s.eventTaken v rest).deferLearn v
          else (s.eventTaken v rest).macInstall v e) := by
  have hsees := s.eventTaken_decidesAs v rest
  rw [exec_learnEvent hh hqueue hage, hknown, if_neg (by simp),
    State.judge_unknown ((hsees.noLearn _).trans hlearn)
      (fun h => hmode ((hsees.fld (shuttleReads_learnPort _) _).symm.trans h)) (hsees.quiet hquiet)
      (by rw [hsees.macBucket, hsees.masterFind, hknown]),
    hsees.atLimit, hsees.macBucket, hsees.macFree, hsees.lockOf]

theorem exec_learnEvent_known {e : Nat} (hknown : s.masterFind (s.macBucket v.key) v.key = [e]) :
    let u := s.eventTaken v rest
    let w := s.masterLe (macAddr e + 8)
    exec .learnEvent s = .next (
      if w / 2 ^ 16 % 2 = 0 ∧ w % 65536 = v.port then u
      else if w / 2 ^ 16 % 8 ≠ 0 then u.cntShared 8
      else if s.atLimit v.port = true then u.setF Reg.learnErr Fld.learnErrLimit 1
      else if (s.lockOf (s.macBucket v.key)).isSome = true then u.deferLearn v else u.macMove v e) := by
  have hsees := s.eventTaken_decidesAs v rest
  intro u w
  rw [exec_learnEvent hh hqueue hage, hknown, if_neg (by simp),
    State.judge_known ((hsees.noLearn _).trans hlearn)
      (fun h => hmode ((hsees.fld (shuttleReads_learnPort _) _).symm.trans h)) (hsees.quiet hquiet)
      (by rw [hsees.macBucket, hsees.masterFind, hknown]),
    hsees.atLimit, hsees.macBucket, hsees.masterLe, hsees.lockOf]

end

/-- Settles O28: each decision of R269 as one of the state before the event (`exec_learnEvent_unknown`,
`exec_learnEvent_known`), and what an update leaves of the entry. -/
theorem addressLearning : Obligations.AddressLearning := by
  unfold Obligations.AddressLearning
  intro v rest s hh hqueue hage quiet u told b known w1 dynamic own requests learns limit locked free updates waits
  have hlearn : u.learn = { s.learn with queue := rest } := s.eventTaken_learn v rest
  have hmem : u.mem = s.mem := s.eventTaken_mem v rest
  have hsees : u.decidesAs s := s.eventTaken_decidesAs v rest
  have hwaits (h : exec .learnEvent s = .next (u.deferLearn v)) : waits := by
    have hdeferred : u.learn.deferred = s.learn.deferred := by rw [hlearn]
    have hpins : u.learn.pinDeferred = s.learn.pinDeferred := by rw [hlearn]
    refine ⟨fun hroom => ?_, fun hfull => ?_⟩
    · rw [h, State.deferLearn_room v (by rwa [hdeferred, hpins]), hdeferred]
    · rw [h, State.deferLearn_full v (by rwa [hdeferred, hpins])]
  refine ⟨exec_learnEvent_noLearn hh hqueue hage, exec_learnEvent_ambiguous hh hqueue hage, ?_, ?_, ?_, ?_⟩
  · rintro ⟨hlearns, hmode, hfew⟩ hoff
    refine (exec_learnEvent_request hh hqueue hage hlearns hmode hfew).trans (congrArg _ ?_)
    exact State.learnPost_off ((hsees.flag shuttleReads_learnCtl _).trans hoff) _ _ _ _
  · rintro ⟨hlearns, hmode, hfew⟩ hon
    refine (exec_learnEvent_request hh hqueue hage hlearns hmode hfew).trans (congrArg _ ?_)
    exact State.learnPost_on ((hsees.flag shuttleReads_learnCtl _).trans hon) _ _ _ _
  · rintro ⟨hquiet, hlearns, hmode⟩ hknown
    have hexec := exec_learnEvent_unknown hh hqueue hage hlearns hmode hquiet hknown
    refine ⟨fun hlimit => hexec.trans (congrArg _ (if_pos hlimit)), fun hlimit hfull => ?_,
      fun e hlimit hfree hleast => ?_⟩
    · rw [State.macFree_none hfull] at hexec
      exact hexec.trans (congrArg _ (if_neg hlimit))
    · rw [State.macFree_lowest hfree hleast] at hexec
      refine ⟨fun hlocked => hwaits (hexec.trans (congrArg _ ?_)),
        fun hopen hkey hport => ⟨_, hexec.trans (congrArg _ ((if_neg hlimit).trans (if_neg hopen))), ?_⟩⟩
      · exact (if_neg hlimit).trans (if_pos hlocked)
      · exact State.entryBecomes_of_mem hmem rfl (State.macInstall_entry _ e hkey hport)
  · rintro e ⟨hquiet, hlearns, hmode⟩ hknown
    have hexec := exec_learnEvent_known hh hqueue hage hlearns hmode hquiet hknown
    refine ⟨fun hown => hexec.trans (congrArg _ (if_pos hown)), fun hown hfixed => ?_, fun hown hdyn => ?_,
      fun hown hdyn => ?_, fun hown hdyn => ?_⟩
    · exact ⟨_, hexec.trans (congrArg _ ((if_neg hown).trans (if_pos hfixed))), hmem, rfl⟩
    all_goals replace hexec := hexec.trans (congrArg _ ((if_neg hown).trans (if_neg (not_not.2 hdyn))))
    · exact fun hlimit => hexec.trans (congrArg _ (if_pos hlimit))
    · exact fun hlimit hlocked => hwaits (hexec.trans (congrArg _ ((if_neg hlimit).trans (if_pos hlocked))))
    · refine fun hlimit hopen hport hn => ⟨_, hexec.trans (congrArg _ ((if_neg hlimit).trans (if_neg hopen))), ?_⟩
      have hflap : shuttleReads Reg.learnFlap := by unfold shuttleReads; decide
      have hentry := State.macMove_entry e (hsees.quiet hquiet) ((hsees.fld hflap _).trans hn) hport
      rw [State.le_of_mem hmem, hsees.masterLe] at hentry
      exact State.entryBecomes_of_mem hmem rfl hentry

end Sys2Proof.Machine
end

section
/-! PROOF. Pins and ageing of MAC entries, the indexes of the large LPM tables, and compares (AgingAndIndexes). -/

namespace Sys2Proof.Machine

/-! ## The end of a pin (R270) -/

/-- R270: a pin of entry `e` is over, and MOVES is 0. -/
def State.pinOver (s : State) (e : Nat) : State :=
  { s.unpinned e with learn := { (s.unpinned e).learn with
    moves := Tbl.set (Tbl.const 0) (s.unpinned e).learn.moves e 0 } }

theorem State.pinOver_mem (s : State) (e : Nat) : (s.pinOver e).mem = s.mem := rfl
theorem State.pinOver_regs (s : State) (e : Nat) : (s.pinOver e).regs = s.regs := rfl

theorem State.pinOver_moves (s : State) (e : Nat) : Tbl.get (Tbl.const 0) (s.pinOver e).learn.moves e = 0 :=
  Tbl.get_set_same (Tbl.const 0) s.learn.moves e 0

theorem State.pinOver_pinnedAt (s : State) (e : Nat) :
    Tbl.get (Tbl.const none) (s.pinOver e).learn.pinnedAt e = none :=
  Tbl.get_set_same (Tbl.const none) s.learn.pinnedAt e none

theorem State.pinClear_eq (s : State) (e : Nat) : s.pinClear e = (s.macWord1 e
    (s.masterLe (macAddr e + 8) - s.masterLe (macAddr e + 8) / 2 ^ 18 % 2 * 2 ^ 18)).pinOver e := by
  rw [State.pinClear, bitsOf_quotient (hi := 18) (lo := 18) (m := 2) rfl, State.pinOver]

/-- R270: the end of a pin clears PINNED, bit 18 of word 1. -/
theorem State.pinClear_pinned (s : State) (e : Nat) : (s.pinClear e).le (macAddr e + 8) 8 / 2 ^ 18 % 2 = 0 := by
  have hlt := s.masterLe_lt (macAddr e + 8)
  obtain ⟨-, hw1, -⟩ := s.macWord1_entry e
    (w := s.masterLe (macAddr e + 8) - s.masterLe (macAddr e + 8) / 2 ^ 18 % 2 * 2 ^ 18) (by omega)
  rw [State.pinClear_eq, State.le_of_mem (State.pinOver_mem _ _), hw1]
  omega

theorem State.deferPin_room {s : State} {e : Nat} (hnew : e ∉ s.learn.pinDeferred) (hroom : s.deferRoom = true) :
    s.deferPin e = { s with learn := { s.learn with pinDeferred := s.learn.pinDeferred ++ [e] } } :=
  (if_neg (by simpa using hnew)).trans (if_pos hroom)

theorem exec_pinRelease_none {e : Fin 131072} {s : State} (hh : s.halted = false)
    (h : Tbl.get (Tbl.const none) s.learn.pinnedAt e.val = none) : exec (.pinRelease e) s = .next s := by
  show execPinRelease e s = _
  simp only [execPinRelease, unlessHalted, hh, h]
  rfl

theorem exec_pinRelease_some {e : Fin 131072} {s : State} {t : Nat} (hh : s.halted = false)
    (h : Tbl.get (Tbl.const none) s.learn.pinnedAt e.val = some t) :
    let hold := s.fld Reg.learnFlap Fld.learnFlapHoldS
    exec (.pinRelease e) s = .next (
      if hold = 0 ∨ s.now < t + hold * 1000000000 then s
      else if (s.lockOf (e.val / 8)).isSome = true then s.deferPin e.val else s.pinClear e.val) := by
  show execPinRelease e s = _
  simp only [execPinRelease, unlessHalted, hh, h, Bool.false_eq_true, if_false, apply_ite Host.Outcome.next]

/-! ## The age command (R276) -/

/-- R276: the age command ends: LEARN_AGE_STAT shows its code and whether the bucket was locked. -/
def State.ageEnds (s : State) (locked : Bool) (code : Nat) : State :=
  s.wr Reg.learnAgeStat (Fld.learnAgeStatLocked.put (Fld.learnAgeStatCode.put 0 code) (b2n locked))

theorem State.ageEnds_rd (s : State) (locked : Bool) (code : Nat) : (s.ageEnds locked code).rd Reg.learnAgeStat =
    Fld.learnAgeStatLocked.put (Fld.learnAgeStatCode.put 0 code) (b2n locked) := State.rd_wr_same _ _ _

/-- R276: entry `e` is deleted: its VALID, bit 63 of word 0, clears, and a pin of it is over. -/
def State.aged (s : State) (e : Nat) : State :=
  ((s.setLe (macAddr e) 8 (s.masterLe (macAddr e) - 2 ^ 63)).mendLost (macAddr e) 8).unpinned e

/-- HIT of entry `e` clears where the command asks for it. -/
def State.hitCleared (s : State) (e : Nat) (clear : Bool) : State :=
  if clear then { s with learn := { s.learn with hit := Tbl.set (Tbl.const 0) s.learn.hit e 0 } } else s

theorem State.ageEntry_eq (s : State) (e : Nat) (clear : Bool) : s.ageEntry e clear =
    if (s.lockOf (e / 8)).isSome = true then s.ageEnds true stRefused
    else if s.masterLe (macAddr e) / 2 ^ 63 % 2 = 0 then s.ageEnds false stAbsent
    else if s.masterLe (macAddr e + 8) / 2 ^ 17 % 2 = 1 then s.ageEnds false stRefused
    else if Tbl.get (Tbl.const 0) s.learn.hit e ≠ 0 then (s.hitCleared e clear).ageEnds false stRefused
    else (s.aged e).ageEnds false stOk := by
  rw [State.ageEntry, bitsOf_quotient (hi := 63) (lo := 63) (m := 2) rfl, bitsOf_quotient (hi := 17) (m := 2) rfl]
  rfl

theorem State.aged_mem (s : State) (e : Nat) :
    (s.aged e).mem = (s.setLe (macAddr e) 8 (s.masterLe (macAddr e) - 2 ^ 63)).mem := by
  rw [State.aged, State.unpinned_mem, State.mendLost_mem]

section
variable {s : State} (locked : Bool) (code : Nat)

theorem State.ageEnds_mem : (s.ageEnds locked code).mem = s.mem := rfl
theorem State.ageEnds_learn : (s.ageEnds locked code).learn = s.learn := rfl

end

section
variable (s : State) (e : Nat)

theorem State.hitCleared_mem (clear : Bool) : (s.hitCleared e clear).mem = s.mem := by
  cases clear <;> rfl

theorem State.hitCleared_hit : Tbl.get (Tbl.const 0) (s.hitCleared e true).learn.hit e = 0 :=
  Tbl.get_set_same (Tbl.const 0) s.learn.hit e 0

theorem State.aged_word : (s.aged e).le (macAddr e) 8 = s.masterLe (macAddr e) - 2 ^ 63 := by
  have hlt := s.masterLe_lt (macAddr e)
  rw [State.le_of_mem (s.aged_mem e), State.le_setLe]
  exact Nat.mod_eq_of_lt (by omega)

theorem State.aged_apart {a : Nat} (h : a < macAddr e ∨ macAddr e + 8 ≤ a) : (s.aged e).byte a = s.byte a := by
  rw [State.byte_of_mem (s.aged_mem e), s.byte_setLe_apart _ h]

end

/-- R276: LEARN_AGE_CMD is written, and an age command that waits for `age` is busy, or runs where that is none. -/
def State.ageTaken (s : State) (v : Word) (age : Option (Nat × Bool × Nat)) : State :=
  { (s.wrote Reg.learnAgeCmd v).setF Reg.learnAgeStat Fld.learnAgeStatBusy 1 with
    learn := { s.learn with age := age } }

section
variable (v : Word) (s : State) (age : Option (Nat × Bool × Nat))

theorem State.ageTaken_mem : (s.ageTaken v age).mem = s.mem := by
  show (s.wrote Reg.learnAgeCmd v).mem = s.mem
  rw [State.wrote, State.plainWrite_only]

theorem State.ageTaken_digest : (s.ageTaken v age).digest = s.digest := by
  show (s.wrote Reg.learnAgeCmd v).digest = s.digest
  rw [State.wrote, State.plainWrite_only]

theorem State.ageTaken_lock : (s.ageTaken v age).spin.lock = s.spin.lock := by
  show (s.wrote Reg.learnAgeCmd v).spin.lock = s.spin.lock
  rw [State.wrote, State.plainWrite_only]

theorem State.ageTaken_busy : (s.ageTaken v age).flag Reg.learnAgeStat Fld.learnAgeStatBusy = true :=
  State.flag_setF_same (s.wrote Reg.learnAgeCmd v) 1 (by decide)

theorem State.wrote_learn (a : Nat) : (s.wrote a v).learn = s.learn := by
  rw [State.wrote, State.plainWrite_only]

end

/-- R276: the command as the write of LEARN_AGE_CMD takes it. -/
theorem State.ageTaken_of_write (v : Word) (s : State) :
    let t := s.wrote Reg.learnAgeCmd v
    let u := t.setF Reg.learnAgeStat Fld.learnAgeStatBusy 1
    { u with learn := { u.learn with
      age := some (u.fld Reg.learnAgeCmd Fld.learnAgeCmdIndex, u.flag Reg.learnAgeCmd Fld.learnAgeCmdClearHit,
        u.learn.queue.length) } } =
      s.ageTaken v (some (t.fld Reg.learnAgeCmd Fld.learnAgeCmdIndex,
        t.flag Reg.learnAgeCmd Fld.learnAgeCmdClearHit, s.learn.queue.length)) := by
  intro t u
  have hlearn : u.learn = s.learn := s.wrote_learn v _
  have hrd : u.rd Reg.learnAgeCmd = t.rd Reg.learnAgeCmd := State.rd_wr_other _ _ (by decide)
  rw [hlearn, State.fld_of_rd hrd, State.flag_of_rd hrd]
  rfl

section
variable {v : Word} {s : State} (hw : s.takesWrites Reg.learnAgeCmd)
include hw

theorem exec_ageCmd :
    let t := s.wrote Reg.learnAgeCmd v
    exec (.ageCmd v) s =
      if Fld.learnAgeCmdGo.get v ≠ 0 then
        if s.flag Reg.learnAgeStat Fld.learnAgeStatBusy = true then ub 27
        else .next (s.ageTaken v (some (t.fld Reg.learnAgeCmd Fld.learnAgeCmdIndex,
          t.flag Reg.learnAgeCmd Fld.learnAgeCmdClearHit, s.learn.queue.length))).runAge
      else .next t := by
  refine (State.byWrite_of_takes hw _).trans ?_
  rw [State.ageCmdWrite, wroteOne_allOnes, ← State.ageTaken_of_write]
  simp only [bne_iff_ne]
  split
  · split <;> rfl
  · rfl

theorem exec_ageCmd_idle (hgo : ¬ Fld.learnAgeCmdGo.get v ≠ 0) :
    exec (.ageCmd v) s = .next (s.wrote Reg.learnAgeCmd v) := (exec_ageCmd hw).trans (if_neg hgo)

variable (hgo : Fld.learnAgeCmdGo.get v ≠ 0)
include hgo

theorem exec_ageCmd_busy (hbusy : s.flag Reg.learnAgeStat Fld.learnAgeStatBusy = true) :
    undefinedUse (.ageCmd v) s 27 := (exec_ageCmd hw).trans ((if_pos hgo).trans (if_pos hbusy))

variable (hidle : s.flag Reg.learnAgeStat Fld.learnAgeStatBusy = false)
include hidle

theorem exec_ageCmd_waits (hqueue : s.learn.queue ≠ []) :
    let t := s.wrote Reg.learnAgeCmd v
    exec (.ageCmd v) s = .next (s.ageTaken v (some (t.fld Reg.learnAgeCmd Fld.learnAgeCmdIndex,
      t.flag Reg.learnAgeCmd Fld.learnAgeCmdClearHit, s.learn.queue.length))) := by
  rw [exec_ageCmd hw, if_pos hgo, if_neg (by simp [hidle])]
  obtain ⟨v', rest, hcons⟩ := List.exists_cons_of_ne_nil hqueue
  rw [hcons]
  rfl

/-- R276: an age command behind no event, by what it finds of its entry. -/
theorem exec_ageCmd_runs (hqueue : s.learn.queue = []) :
    let t := s.wrote Reg.learnAgeCmd v
    let e := t.fld Reg.learnAgeCmd Fld.learnAgeCmdIndex
    let u := s.ageTaken v none
    exec (.ageCmd v) s = .next (
      if (s.lockOf (e / 8)).isSome = true then u.ageEnds true stRefused
      else if s.masterLe (macAddr e) / 2 ^ 63 % 2 = 0 then u.ageEnds false stAbsent
      else if s.masterLe (macAddr e + 8) / 2 ^ 17 % 2 = 1 then u.ageEnds false stRefused
      else if Tbl.get (Tbl.const 0) s.learn.hit e ≠ 0 then
        (u.hitCleared e (t.flag Reg.learnAgeCmd Fld.learnAgeCmdClearHit)).ageEnds false stRefused
      else (u.aged e).ageEnds false stOk) := by
  intro t e u
  have hrun : (s.ageTaken v (some (e, t.flag Reg.learnAgeCmd Fld.learnAgeCmdClearHit, 0))).runAge =
      u.ageEntry e (t.flag Reg.learnAgeCmd Fld.learnAgeCmdClearHit) := rfl
  rw [exec_ageCmd hw, if_pos hgo, if_neg (by simp [hidle]), hqueue]
  refine congrArg _ (hrun.trans ?_)
  rw [State.ageEntry_eq, State.lockOf_of_lock (s.ageTaken_lock v none),
    State.masterLe_of_mem (s.ageTaken_mem v none) (s.ageTaken_digest v none),
    State.masterLe_of_mem (s.ageTaken_mem v none) (s.ageTaken_digest v none)]
  rfl

end

/-! ## The indexes of the large tables (R264) -/

theorem exec_indexBuild {x : XTable} {v : Word} {s : State} (hw : s.takesWrites (Reg.learnLpmxCnt (XTable.idx x))) :
    let c := Reg.learnLpmxCnt (XTable.idx x)
    let t := s.wrote c v
    let n := t.fld c Fld.learnLpmxCntCount
    exec (.indexBuild x v) s =
      if n = 0 then .next (t.setF c Fld.learnLpmxCntBusy 0)
      else if s.fld c Fld.learnLpmxCntCount ≠ 0 ∨ (if x = .v4 then 4194304 else 2097152) < n then ub 26
      else .next (t.setF c Fld.learnLpmxCntBusy 1) := by
  intro c t n
  refine (State.byWrite_of_takes hw _).trans ?_
  have hmost : (if XTable.idx x = 0 then 4194304 else 2097152) = if x = .v4 then 4194304 else 2097152 := by
    cases x <;> rfl
  rw [State.lpmxCntWrite, if_neg (by decide), hmost]
  simp only [apply_ite toOut]
  rfl

theorem exec_indexBuildDone {x : XTable} {s : State} (hh : s.halted = false) : exec (.indexBuildDone x) s =
    .next (s.setF (Reg.learnLpmxCnt (XTable.idx x)) Fld.learnLpmxCntBusy 0) := by
  show execIndexBuildDone x s = _
  simp only [execIndexBuildDone, unlessHalted, hh]
  rfl

/-! ## Compares (R277) -/

theorem exec_compareStart {v : Word} {s : State} (hw : s.takesWrites Reg.learnCmpCtl) :
    let t := s.wrote Reg.learnCmpCtl v
    exec (.compareStart v) s =
      if s.flag Reg.learnCmpCtl Fld.learnCmpCtlBusy = true then ub 29
      else if Fld.learnCmpCtlGo.get v ≠ 0 then .next (
        if s.fld Reg.learnCmpLen Fld.learnCmpLenLen < 16 then t.wr Reg.learnCmpStat 0
        else (t.wr Reg.learnCmpStat 0).setF Reg.learnCmpCtl Fld.learnCmpCtlBusy 1)
      else .next t := by
  intro t
  refine (State.byWrite_of_takes hw _).trans ?_
  have hlen : (t.wr Reg.learnCmpStat 0).fld Reg.learnCmpLen Fld.learnCmpLenLen =
      s.fld Reg.learnCmpLen Fld.learnCmpLenLen := by
    rw [State.fld_wr_other _ _ _ (by decide)]
    exact State.fld_of_rd ((s.plainWrite_rd _ _ _ _).trans (if_neg (by decide))) _
  have hunits (n : Nat) : n / 16 = 0 ↔ n < 16 := by omega
  rw [State.cmpWrite, wroteOne_allOnes]
  dsimp only
  show toOut (if _ then _ else if _ then
    .ok (if (t.wr Reg.learnCmpStat 0).fld Reg.learnCmpLen Fld.learnCmpLenLen / 16 = 0 then _ else _) else .ok t) = _
  rw [hlen]
  simp only [hunits, bne_iff_ne, true_and]
  split
  · rfl
  · split <;> rfl

/-- R256: what lies at an address is one of the uses of R500, or 16 bytes. -/
theorem State.shadow_error {s : State} {a : Nat} {e : Fault} (h : s.shadow a = .error e) :
    ∃ m, e = .undefinedBehaviour m := by
  unfold State.shadow at h
  split at h
  · exact ⟨_, (Except.error.inj h).symm⟩
  · split at h
    · exact ⟨_, (Except.error.inj h).symm⟩
    · cases h
  · cases h
  · cases h
  · exact ⟨_, (Except.error.inj h).symm⟩

/-- R277: the unit at offset `o` differs from the bytes `x` of the shadow. -/
def State.unitDiffers (s : State) (skipDyn : Bool) (o : Nat) (x : List Byte) : Bool :=
  !unitsAgree skipDyn o x (if o < 0x1000000 then s.bytes (0x20000000 + o) 16 else List.replicate 16 0)

/-- A compare of a source that stands whole. -/
theorem State.compareFrom_stands {s : State} {src o n : Nat} {skipDyn : Bool}
    (h : ∀ k < n, ∃ x, s.shadow (src + 16 * k) = .ok x) :
    s.compareFrom src skipDyn n o = .ok (((List.range n).map (o + 16 * ·)).filter fun p =>
      s.unitDiffers skipDyn p ((s.shadow (src + (p - o))).toOption.getD [])) := by
  induction n generalizing src o with
  | zero => rfl
  | succ n ih =>
    obtain ⟨x, hx⟩ := h 0 (Nat.succ_pos n)
    have hrest : ∀ k < n, ∃ x, s.shadow (src + 16 + 16 * k) = .ok x := fun k hk => by
      rw [show src + 16 + 16 * k = src + 16 * (k + 1) by omega]
      exact h (k + 1) (by omega)
    have hoffsets : (List.range (n + 1)).map (o + 16 * ·) = o :: (List.range n).map (o + 16 + 16 * ·) := by
      rw [List.range_succ_eq_map, List.map_cons, List.map_map]
      exact congrArg _ (List.map_congr_left fun k _ => by show o + 16 * (k + 1) = _; omega)
    have hsame : ((List.range n).map (o + 16 + 16 * ·)).filter (fun p =>
          s.unitDiffers skipDyn p ((s.shadow (src + 16 + (p - (o + 16)))).toOption.getD [])) =
        ((List.range n).map (o + 16 + 16 * ·)).filter fun p =>
          s.unitDiffers skipDyn p ((s.shadow (src + (p - o))).toOption.getD []) := by
      refine List.filter_congr fun p hp => ?_
      obtain ⟨k, -, rfl⟩ := List.mem_map.1 hp
      rw [show src + 16 + (o + 16 + 16 * k - (o + 16)) = src + (o + 16 + 16 * k - o) by omega]
    have hx : s.shadow src = .ok x := hx
    rw [State.compareFrom, hx, ih hrest, hsame, hoffsets, List.filter_cons, Nat.sub_self,
      show s.shadow (src + 0) = .ok x from hx]
    refine congrArg Except.ok ?_
    by_cases hagree : unitsAgree skipDyn o x
        (if o < 0x1000000 then s.bytes (0x20000000 + o) 16 else List.replicate 16 0) = true
    · have hdiffers : ¬ s.unitDiffers skipDyn o x = true := by
        rw [State.unitDiffers, hagree]
        decide
      exact (if_pos hagree).trans (if_neg hdiffers).symm
    · have hdiffers : s.unitDiffers skipDyn o x = true := by
        rw [State.unitDiffers, Bool.eq_false_of_not_eq_true hagree]
        decide
      exact (if_neg hagree).trans (if_pos hdiffers).symm

/-- A compare stops at a unit that lies nowhere. -/
theorem State.compareFrom_stops {s : State} {src o n k : Nat} {skipDyn : Bool} (hk : k < n)
    (h : ¬ ∃ x, s.shadow (src + 16 * k) = .ok x) :
    ∃ m, s.compareFrom src skipDyn n o = .error (.undefinedBehaviour m) := by
  induction n generalizing src o k with
  | zero => omega
  | succ n ih =>
    rw [State.compareFrom]
    cases hx : s.shadow src with
    | error e =>
      obtain ⟨m, rfl⟩ := State.shadow_error hx
      exact ⟨m, rfl⟩
    | ok x =>
      cases k with
      | zero => exact absurd ⟨x, hx⟩ h
      | succ k =>
        obtain ⟨m, hm⟩ := ih (src := src + 16) (o := o + 16) (k := k) (by omega)
          (by rwa [show src + 16 + 16 * k = src + 16 * (k + 1) by omega])
        exact ⟨m, by dsimp only; rw [hm]⟩

/-- R277: a compare has ended: LEARN_CMP_STAT counts the units in `l` and names the first. -/
def State.compared (s : State) (src n : Nat) (l : List Nat) : State :=
  ((s.peeked src (16 * n)).setF Reg.learnCmpCtl Fld.learnCmpCtlBusy 0).wr Reg.learnCmpStat
    (Fld.learnCmpStatFirst.put (Fld.learnCmpStatMismatch.put 0 l.length) (l.head?.getD 0))

theorem State.compared_mem (s : State) (src n : Nat) (l : List Nat) : (s.compared src n l).mem = s.mem :=
  s.peeked_mem src (16 * n)

theorem State.compared_idle (s : State) (src n : Nat) (l : List Nat) :
    (s.compared src n l).flag Reg.learnCmpCtl Fld.learnCmpCtlBusy = false := by
  rw [State.compared, State.flag, State.fld_wr_other _ _ _ (by decide)]
  exact State.flag_setF_same _ _ (by decide)

theorem State.compared_mismatch (s : State) (src n : Nat) {l : List Nat} (h : l.length < 2 ^ 32) :
    (s.compared src n l).fld Reg.learnCmpStat Fld.learnCmpStatMismatch = l.length := by
  rw [State.compared, State.fld, State.rd_wr_same, Fld.get_put_other _ _ _ _ (by decide), Fld.get_put _ _ _ (by decide)]
  exact Nat.mod_eq_of_lt h

theorem State.compared_first (s : State) (src n : Nat) (l : List Nat) :
    (s.compared src n l).fld Reg.learnCmpStat Fld.learnCmpStatFirst = l.head?.getD 0 % 2 ^ 24 := by
  rw [State.compared, State.fld, State.rd_wr_same, Fld.get_put _ _ _ (by decide)]
  rfl

section
variable {s : State} (hh : s.halted = false)
include hh

theorem exec_compareDone_idle (hbusy : s.flag Reg.learnCmpCtl Fld.learnCmpCtlBusy = false) :
    exec .compareDone s = .next s := by
  show execCompareDone s = _
  simp [execCompareDone, unlessHalted, hh, hbusy]

variable (hbusy : s.flag Reg.learnCmpCtl Fld.learnCmpCtlBusy = true)
include hbusy

/-- R277: a compare that runs, by whether a channel holds it back and by what its source is. -/
theorem exec_compareDone :
    let src := s.fld Reg.learnCmpSrc Fld.learnCmpSrcSrc
    let n := s.fld Reg.learnCmpLen Fld.learnCmpLenLen / 16
    exec .compareDone s = match s.accessHeld src (16 * n) with
      | some a => .next (s.hbmWake a)
      | none =>
        match s.compareFrom src (s.flag Reg.learnCmpCtl Fld.learnCmpCtlSkipDyn) n
            (s.fld Reg.learnCmpDst Fld.learnCmpDstOffset) with
        | .error e => .fault e
        | .ok l => .next (s.compared src n l) := by
  show execCompareDone s = _
  simp only [execCompareDone, unlessHalted, hh, hbusy]
  rfl

end

theorem State.cmpLen_units_lt (s : State) : s.fld Reg.learnCmpLen Fld.learnCmpLenLen / 16 < 2 ^ 32 := by
  have h : s.fld Reg.learnCmpLen Fld.learnCmpLenLen < 2 ^ 25 := Fld.get_lt Fld.learnCmpLenLen _
  omega

/-! ## The obligation -/

/-- Settles O29: the end of a pin and an age command by what they find of the entry, the indexes by the counts before and
after the write, and a compare unit by unit. -/
theorem agingAndIndexes : Obligations.AgingAndIndexes := by
  unfold Obligations.AgingAndIndexes
  refine ⟨⟨fun e s hh => ?_, fun v s hw => ?_⟩, fun x v s => ?_, fun v s hw => ?_, fun s hh => ?_⟩
  · intro hold
    refine ⟨exec_pinRelease_none hh, fun t hpin => ?_⟩
    have hexec := exec_pinRelease_some hh hpin
    refine ⟨fun hearly => hexec.trans (congrArg _ (if_pos hearly)), fun hpos hdue hlocked hnew hroom => ?_,
      fun hpos hdue hopen => ?_⟩
    all_goals
      have hended : ¬ (hold = 0 ∨ s.now < t + hold * 1000000000) := by omega
      replace hexec := hexec.trans (congrArg _ (if_neg hended))
    · exact hexec.trans (congrArg _ ((if_pos hlocked).trans (State.deferPin_room hnew hroom)))
    · refine ⟨_, hexec.trans (congrArg _ (if_neg (by simp [hopen]))), s.pinClear_pinned _, ?_⟩
      rw [State.pinClear_eq]
      exact ⟨State.pinOver_moves _ _, State.pinOver_pinnedAt _ _, (State.pinOver_regs _ _).trans (s.macWord1_regs _ _)⟩
  · intro go t e hit locked valid static_ ends
    refine ⟨exec_ageCmd_idle hw, exec_ageCmd_busy hw, fun hgo hidle hqueue => ?_, fun hgo hidle hqueue => ?_⟩
    · exact ⟨_, exec_ageCmd_waits hw hgo hidle hqueue, s.ageTaken_busy v _, s.ageTaken_mem v _, rfl, rfl⟩
    · intro kept
      have hexec := exec_ageCmd_runs hw hgo hidle hqueue
      refine ⟨fun hlocked => ?_, fun hopen hfree => ?_, fun hopen hvalid hstatic => ?_,
        fun hopen hvalid hdyn hhit => ?_, fun hopen hvalid hdyn hhit => ?_⟩
      · exact ⟨_, hexec.trans (congrArg _ (if_pos hlocked)), State.ageEnds_rd _ _ _, s.ageTaken_mem v none, rfl⟩
      all_goals replace hexec := hexec.trans (congrArg _ (if_neg hopen))
      · have hzero : s.masterLe (macAddr e) / 2 ^ 63 % 2 = 0 := by omega
        exact ⟨_, hexec.trans (congrArg _ (if_pos hzero)), State.ageEnds_rd _ _ _, s.ageTaken_mem v none, rfl⟩
      all_goals
        have hset : ¬ s.masterLe (macAddr e) / 2 ^ 63 % 2 = 0 := by omega
        replace hexec := hexec.trans (congrArg _ (if_neg hset))
      · exact ⟨_, hexec.trans (congrArg _ (if_pos hstatic)), State.ageEnds_rd _ _ _, s.ageTaken_mem v none, rfl⟩
      all_goals replace hexec := hexec.trans (congrArg _ (if_neg hdyn))
      · refine ⟨_, hexec.trans (congrArg _ (if_pos hhit)), State.ageEnds_rd _ _ _,
          (State.hitCleared_mem _ _ _).trans (s.ageTaken_mem v none), fun hclear => ?_, fun hkeep => ?_⟩
        · rw [State.ageEnds_learn, hclear]
          exact State.hitCleared_hit _ _
        · rw [State.ageEnds_learn, hkeep]
          rfl
      · refine ⟨_, hexec.trans (congrArg _ (if_neg hhit)), State.ageEnds_rd _ _ _, ?_, fun a ha => ?_⟩
        · rw [State.le_of_mem (State.ageEnds_mem _ _), State.aged_word,
            State.masterLe_of_mem (s.ageTaken_mem v none) (s.ageTaken_digest v none)]
        · rw [State.byte_of_mem (State.ageEnds_mem _ _), State.aged_apart _ _ ha,
            State.byte_of_mem (s.ageTaken_mem v none)]
  · intro c t n most hw
    have hexec := exec_indexBuild (v := v) hw
    refine ⟨fun hempty => hexec.trans (if_pos hempty), fun hn hnew hfits => ?_,
      fun hn hbad => hexec.trans ((if_neg hn).trans (if_pos hbad)), exec_indexBuildDone⟩
    exact hexec.trans ((if_neg hn).trans (if_neg (not_or.2 ⟨not_not.2 hnew, not_lt.2 hfits⟩)))
  · intro t go busy
    have hexec := exec_compareStart (v := v) hw
    refine ⟨fun hbusy => hexec.trans (if_pos hbusy), fun hidle hgo => ?_, fun hidle hgo hlen => ?_,
      fun hidle hgo hlen => ?_⟩
    all_goals replace hexec := hexec.trans (if_neg hidle)
    · exact hexec.trans (if_neg hgo)
    · exact hexec.trans ((if_pos hgo).trans (congrArg _ (if_neg (not_lt.2 hlen))))
    · exact hexec.trans ((if_pos hgo).trans (congrArg _ (if_pos hlen)))
  · intro src dst n unit stands differ
    have hstand (k : Nat) : stands (dst + 16 * k) ↔ ∃ x, s.shadow (src + 16 * k) = .ok x := by
      show (∃ x, s.shadow (src + (dst + 16 * k - dst)) = .ok x) ↔ _
      rw [Nat.add_sub_cancel_left]
    refine ⟨exec_compareDone_idle hh, fun a hbusy hheld => ?_, fun hbusy hfree hgap => ?_, fun hbusy hfree hall => ?_⟩
    · exact (exec_compareDone hh hbusy).trans (by rw [hheld])
    · obtain ⟨k, hk, hno⟩ := hgap
      obtain ⟨m, hm⟩ := State.compareFrom_stops hk (mt (hstand k).2 hno)
      exact ⟨m, (exec_compareDone hh hbusy).trans (by rw [hfree, hm])⟩
    · have hfrom := State.compareFrom_stands (o := dst) (skipDyn := s.flag Reg.learnCmpCtl Fld.learnCmpCtlSkipDyn)
        fun k hk => (hstand k).1 (hall k hk)
      have hlen : differ.length < 2 ^ 32 := by
        refine lt_of_le_of_lt (List.length_filter_le _ _) ?_
        rw [List.length_map, List.length_range]
        exact s.cmpLen_units_lt
      have hexec : exec .compareDone s = .next (s.compared src n differ) :=
        (exec_compareDone hh hbusy).trans (by rw [hfree, hfrom]; rfl)
      exact ⟨_, hexec, s.compared_idle _ _ _, s.compared_mem _ _ _,
        s.compared_mismatch _ _ hlen, s.compared_first _ _ _⟩

end Sys2Proof.Machine
end
